-- ==== Sys2Proof/Word.lean ====
section
/-! DEFINITION. The word types of the package and the plain operand types that commands carry (R8, R12, R22). -/

namespace Sys2Proof

/-- A 32-bit word of a message, descriptor, image or register. -/
abbrev Word := BitVec 32

/-- A byte. -/
abbrev Byte := BitVec 8

/-- A sparse table: key and value pairs. -/
abbrev Tbl (α : Type) := List (Nat × α)

/-- A byte memory: sparse, in rising address order, no entry equal to the value an unlisted address reads as. -/
abbrev Mem := List Host.Cell

/-- A mailbox: eight on the physical function, four on each virtual function, and the sideband channel (R402, R404, R432). -/
inductive MbxId where
  | pf (m : Fin 8)
  | vf (n : Fin 32) (m : Fin 4)
  | sideband
deriving DecidableEq, Repr

/-- A function of the endpoint: the physical function or virtual function n, which serves partition n (R400). -/
inductive FnId where
  | pf
  | vf (n : Fin 32)
deriving DecidableEq, Repr

/-- The Pilot position a command is issued from: partition, logical cluster and step identifier (R141, R143). -/
structure At where
  part : Fin 32
  cluster : Fin 48
  step : Nat
deriving DecidableEq, Repr

/-- What a read of stored data meets: nothing, one failed read that passes on the second read, or a failure confirmed by
the second read (R263). -/
inductive ReadOutcome where
  | clean
  | transient
  | confirmed
deriving DecidableEq, Repr

/-- An SRAM parity failure met by a command: the macro of R273, the word within it, whether the second read failed too,
and the column that fails the word test, if one does (R270). -/
structure ParityEvent where
  macroNo : Nat
  word : Nat
  confirmed : Bool
  column : Option Nat
deriving DecidableEq, Repr

/-- What happens in the arithmetic while a command runs: the number of residue mismatches met one after another in its
accumulation group (R77), and an SRAM parity failure (R270). -/
structure RunEvent where
  residue : Nat
  parity : Option ParityEvent
deriving DecidableEq, Repr

/-- Nothing goes wrong while the command runs. -/
def RunEvent.quiet : RunEvent := { residue := 0, parity := none }

/-- A fabric packet: the eight header words of R313 and its data bytes, with the I/O die (plane) it arrives on. -/
structure Packet where
  plane : Fin 2
  hdr : List Word
  data : List Byte
deriving DecidableEq, Repr

/-- What a failed HBM read has lost (R264): a 64 KiB unit of a stage's own or standby region; a KV page below LENGTH; the
first copy of the KV tables or of the input journal, with whether the second copy is good; a mirror page held for a peer;
data of a step in flight; or data of no step in flight, with whether it is carried state. -/
inductive LostData where
  | weightUnit (standby : Bool) (unit : Nat)
  | kvPage (part : Fin 32) (slot : Nat) (page : Nat)
  | tableCopy (part : Fin 32) (secondGood : Bool)
  | mirrorPage (part : Fin 32) (slot table page : Nat)
  | stepData (part : Fin 32) (step : Nat)
  | idleData (part : Fin 32) (carried : Bool) (addr len : Nat)
deriving DecidableEq, Repr

/-- The pages of a bond-store chunk that fail their check on the first read: the channel, and whether the second read
fails too (R281). -/
abbrev PageFails := List (Fin 8 × Bool)

/-- A careen finding (R509): test, outcome, element, address, offset, bit, expected and observed. -/
structure Finding where
  test : Nat
  outcome : Nat
  element : Nat
  address : Nat
  offset : Nat
  bit : Nat
  expected : Word
  observed : Word
deriving DecidableEq, Repr

/-- Energy measured for a partition in one sample, in microjoules: compute, HBM and I/O (R454). -/
structure PartEnergy where
  part : Fin 32
  compute : Nat
  hbm : Nat
  io : Nat
deriving DecidableEq, Repr

end Sys2Proof
end

