-- ==== Sys2Proof/Syntax.lean ====
section
/-! DEFINITION. The commands of the block: one constructor per row of spec/opcode_table.json, in its order. A mailbox
command names the mailbox whose request the firmware takes; bytes that it reads from host memory by DMA are an operand,
absent when the read fails (R429). A Pilot command names the position it is issued from; what its arithmetic and its reads
meet is an operand. Fabric commands carry the packet as it arrives. Timer commands are the expiry itself. -/

namespace Sys2Proof

inductive Instr where
  | mbxPost (m : MbxId) (len : Nat)
  | mbxAck (m : MbxId) (val : Word)
  | hmIntStatusClear (val : Word)
  | mbxVfEventClear (vf : Fin 32) (val : Word)
  | hmTimeLoRead
  | hmLogSeqLoRead
  | registerWrite (fn : FnId) (bar2 : Bool) (off : Nat) (val : Word)
  | partOpen (m : MbxId)
  | partClose (m : MbxId)
  | imageLoad (m : MbxId) (dma : Option (List Word))
  | imageFree (m : MbxId)
  | configStage (m : MbxId)
  | configStageFailover (m : MbxId)
  | configSwap (m : MbxId)
  | configSwapCancel (m : MbxId)
  | configSet (m : MbxId)
  | configRead (m : MbxId)
  | stepSubmit (m : MbxId) (seqs : Option (List Word)) (input : Option (List Byte))
  | stepQuery (m : MbxId)
  | stepAbort (m : MbxId)
  | kvEvictFree (m : MbxId)
  | kvEvictSwap (m : MbxId)
  | statsRead (m : MbxId)
  | logRead (m : MbxId)
  | stateSetState (m : MbxId)
  | stateSetCap (m : MbxId)
  | stateSetFractions (m : MbxId)
  | stateSetClock (m : MbxId)
  | stateSetRead (m : MbxId)
  | stateSetEnergy (m : MbxId)
  | attestMeasure (m : MbxId)
  | attestQuote (m : MbxId)
  | attestCert (m : MbxId)
  | lcNonce (m : MbxId)
  | lcProvision (m : MbxId)
  | lcSeal (m : MbxId)
  | lcUnseal (m : MbxId)
  | lcReturn (m : MbxId)
  | lcRetire (m : MbxId)
  | lcKeys (m : MbxId) (dma : Option (List Word))
  | fwWrite (m : MbxId) (dma : Option (List Word))
  | fwData (m : MbxId)
  | fwPrefer (m : MbxId)
  | fwCommit (m : MbxId)
  | weightsBegin (m : MbxId) (dma : Option (List Word))
  | weightsShard (m : MbxId) (dma : Option (List Byte)) (readBackOk : Bool)
  | weightsFinish (m : MbxId)
  | weightsAbort (m : MbxId)
  | weightsQuery (m : MbxId)
  | weightsGroup (m : MbxId)
  | careenSummary (m : MbxId)
  | careenResults (m : MbxId)
  | careenShutdown (m : MbxId)
  | careenRun (m : MbxId)
  | careenAbort (m : MbxId)
  | careenClear (m : MbxId)
  | fabricJoin (m : MbxId)
  | sidebandMailbox (msg : List Word)
  | mctpControl (cmd : Byte) (data : List Byte)
  | pldmRequest (ty cmd : Byte) (data : List Byte)
  | pldmSensorUpdate (readings : List Nat)
  | smbAlertResponse
  | spdmGetVersion (onDoe : Bool) (msg : List Byte)
  | spdmGetCapabilities (onDoe : Bool) (msg : List Byte)
  | spdmNegotiateAlgorithms (onDoe : Bool) (msg : List Byte)
  | spdmGetDigests (onDoe : Bool) (msg : List Byte)
  | spdmGetCertificate (onDoe : Bool) (msg : List Byte)
  | spdmChallenge (onDoe : Bool) (msg : List Byte)
  | spdmGetMeasurements (onDoe : Bool) (msg : List Byte)
  | spdmKeyExchange (onDoe : Bool) (msg : List Byte)
  | spdmFinish (onDoe : Bool) (msg : List Byte) (good : Bool)
  | spdmKeyUpdate (onDoe : Bool) (msg : List Byte)
  | spdmEndSession (onDoe : Bool) (msg : List Byte)
  | ideKm (msg : List Byte)
  | ideIntegrityFailure (stream : Byte)
  | flrVf (n : Fin 32)
  | flrPf
  | hotReset
  | pcieLinkDown
  | dmaReadFailure (m : MbxId)
  | nop (a : At)
  | pass (a : At) (ev : RunEvent)
  | gatherDeadlineExpire (core : Fin 384)
  | sramScrubDone (macroNo : Nat) (bad : List Nat)
  | quant (a : At) (ev : RunEvent)
  | vecAdd (a : At) (ev : RunEvent)
  | vecMul (a : At) (ev : RunEvent)
  | vecRowScale (a : At) (ev : RunEvent)
  | vecRmsNorm (a : At) (ev : RunEvent)
  | vecSiluMul (a : At) (ev : RunEvent)
  | vecGelu (a : At) (ev : RunEvent)
  | vecMerge (a : At) (ev : RunEvent)
  | vecConvert (a : At) (ev : RunEvent)
  | attendFull (a : At) (ev : RunEvent)
  | attendPartial (a : At) (ev : RunEvent)
  | attendMerge (a : At) (ev : RunEvent)
  | appendWaitTimeout (a : At)
  | routeSelect (a : At) (ev : RunEvent)
  | routeSeal (a : At)
  | routeGather (a : At) (ev : RunEvent)
  | routeReturn (a : At) (ev : RunEvent)
  | routeCombine (a : At) (ev : RunEvent)
  | routePush (a : At) (ev : RunEvent)
  | move (a : At) (ev : RunEvent)
  | windowWait (a : At)
  | windowRelease (a : At)
  | barrier (a : At)
  | stampedeWaveRelease (part : Fin 32) (step : Nat) (bar : Fin 64)
  | barrierHangTimeout (part : Fin 32) (step : Nat) (bar : Fin 64)
  | expand (a : At)
  | post (a : At)
  | await (a : At)
  | endStep (a : At)
  | commandComplete (cluster : Fin 48) (id : Nat)
  | probeComplete (die : Fin 4) (mismatch again : Bool)
  | rungChunkDone (standby : Bool) (fails : PageFails)
  | coldChunkDone (standby : Bool) (fails : PageFails)
  | restoreUnitDone (fails : PageFails)
  | stepAdmit (part : Fin 32)
  | stepCommit (part : Fin 32)
  | streamBegin (cluster : Fin 48)
  | streamLanded (cluster : Fin 48) (buf : Fin 4) (bad : List Nat)
  | hbmReadDone (pc : Fin 512) (row : Nat) (lost : LostData) (outcome : ReadOutcome)
  | refetchDone (i : Nat)
  | hbmRowRepairDone (i : Nat) (spareLeft : Bool)
  | pcTrainingLost (pc : Fin 512)
  | frameMoveDone (i : Nat)
  | swapOutPageDone (part : Fin 32)
  | swapInPageDone (part : Fin 32) (data : Option (List Byte))
  | patrolScrubShard (fails : PageFails)
  | rebuildPeerTimeout
  | qpushEntry (p : Packet)
  | qpushFragment (p : Packet)
  | qpushClose (p : Packet)
  | sealHangTimeout (a : At)
  | returnRowArrive (part : Fin 32) (cluster : Fin 48) (step op : Nat) (kind off : Nat) (data : List Byte)
  | journalRelease (p : Packet)
  | load (p : Packet)
  | store (p : Packet)
  | atomic (p : Packet)
  | bulk (p : Packet)
  | serviceShardRead (p : Packet)
  | serviceMirrorWrite (p : Packet)
  | serviceMirrorFetch (p : Packet)
  | serviceMirrorAck (p : Packet)
  | loadResp (p : Packet)
  | ack (p : Packet)
  | atomicResp (p : Packet)
  | error (p : Packet)
  | serviceResp (p : Packet)
  | heartbeat (p : Packet)
  | teardown (p : Packet)
  | teardownAck (p : Packet)
  | jobMap (p : Packet)
  | jobMapAck (p : Packet)
  | join (p : Packet)
  | joinReply (p : Packet)
  | manager (p : Packet)
  | leave (p : Packet)
  | stateCopy (p : Packet)
  | routeTable (p : Packet)
  | packetForward (p : Packet)
  | flitReceive (port : Fin 18) (bytes : List Byte)
  | laneSpareDone (port : Fin 18) (good : Bool)
  | controlFlitReceive (port : Fin 18) (bytes : List Byte)
  | ackStallTimeout (port : Fin 18)
  | detectBurstTimer (port : Fin 18)
  | trainingPatternReceived (port : Fin 18)
  | equaliseDone (port : Fin 18) (badLanes : List (Fin 9)) (inTime : Bool)
  | verifyExchange (port : Fin 18) (pkg : Fin 128) (farPort : Fin 18) (life : Fin 5) (mgr : Option (Fin 128))
  | linkSignalLost (port : Fin 18)
  | ackSendTimer (plane : Fin 2) (src : Fin 128) (job : Fin 65536)
  | requestResendTimeout (plane : Fin 2) (dst : Fin 128) (job : Fin 65536) (seq : Word)
  | mgmtResendTimer (i : Nat)
  | resultAckTimer (plane : Fin 2) (dst : Fin 128) (job : Fin 65536)
  | heartbeatTimer
  | heartbeatTimeout (pkg : Fin 128)
  | managerHeartbeatTimeout
  | cutOffTimeout
  | teardownDeadline (job : Fin 65536)
  | electionAnnounceTimer
  | electionSettleTimer
  | mirrorAckTimeout
  | hmJournalEntry (words : List Word)
  | hmJournalHeartbeatTimer
  | hmJournalTimeout
  | hmFaultSignal
  | dieLinkFail (die : Fin 4) (iod : Fin 2)
  | computeDieFail (die : Fin 4)
  | iodLinkFail
  | iod0Fail
  | voltageSample (millivolts : Nat)
  | voltageRecoveryTimer
  | inputBelow30V (millivolts : Nat)
  | holdupExhausted
  | rootClockLost (ppm : Nat)
  | thermalSample (temps : List (Nat × Nat))
  | powerControlInterval (draw : Nat) (domains : List Nat) (parts : List (Fin 32 × Nat))
  | energySample (input loss : Nat) (parts : List PartEnergy) (queues : List (Nat × Nat))
  | boostStep (die : Fin 4)
  | pllSlewStep (die : Fin 4)
  | droopDetected (cluster : Fin 48)
  | vcoreDecayTimer (die : Fin 4)
  | powerStateReached
  | vinReach38V (millivolts : Nat)
  | pkgRstAssert (lowNs : Nat)
  | pkgRstRelease
  | perstAssert (lowNs : Nat)
  | perstRelease
  | islandRailsGood (straps : BitVec 10)
  | bootRomStart
  | pllLocked
  | firmwareHandover
  | hbmTrainingDone (failed : List (Fin 16))
  | hardRepairsDone (noSpare : List (Nat × Nat))
  | careenPhaseDone (findings : List Finding) (peak : Nat)
  | careenInserviceStart
  | careenInserviceDone (findings : List Finding) (repairable : Bool)
  | logRateSecond
  | stateCopyEcho (p : Packet)
  | pcieLinkUp
  | busMasterEnableWrite (fn : FnId) (enable : Bool)
  | careenEngineRunDone (findings : List Finding) (peak : Nat)
deriving DecidableEq, Repr

end Sys2Proof
end

