-- ==== Sys2Proof/Config.lean ====
section
/-! DEFINITION. What an implementation fixes and the manual leaves open. Every constant here is opaque: it has no body, so
nothing that is proved rests on a value of it. The first argument is the state's counter of free values, except where a
constant depends on its named operands alone. -/

namespace Sys2Proof.Config

/-- The firmware's choice of a free element (an image handle, a sequence slot, a rung-cache unit, a replay slot): where the
search for an unused number starts (log 10). -/
opaque choice : Nat → Nat

/-- The integers r and s of an ECDSA signature made with the identity key over a message (R487, R492; log 11). -/
opaque sign : Nat → List Byte → Nat × Nat

/-- 32 fresh bytes of the security block's entropy source, as a number: nonces and start values (R491, R495; log 11). -/
opaque entropy : Nat → BitVec 256

/-- Whether a PKG_RST_N pulse between 1 and 10 microseconds takes the cold start (R475; log 12). -/
opaque pulseResets : Nat → Bool

/-- Byte i of the body of an SPDM or IDE_KM response that R489 and R490 leave to their own specifications (log 13). -/
opaque spdmBody : Nat → Nat → Byte

/-- Byte offset in an operation's reference slice of the BF16 weight of an output channel at a reduction index: operation,
channel, index. The manual gives the slice's contents and no layout (R104; log 14). -/
opaque refOffset : Nat → Nat → Nat → Nat

/-- How many elements at the end of a row of a quantise command are padding, of those that may be: operation, element base and
row. A command does not say which of its zeros are padding (R107, R139; log 120). -/
opaque padding : Nat → Nat → Nat → Nat

/-- Whether a sequence lay in the failed package's swap window, by its slot: no mirror record says so (R198; log 119). -/
opaque sequenceAway : Nat → Nat → Bool

/-- Whether the failure that an activation answers was a barrier hang: the activation carries the cause, and no message of the
manual has a place for it (R361; log 127). -/
opaque hungPeer : Nat → Bool

/-- A field of a report that the manual names and gives no value for: the cause of the program fault of R361 and the event
record of R77 (log 39). -/
opaque openWord : Nat → Word

/-- A byte of SRAM whose contents the manual leaves open: the scratch area of an ATTEND, which its scores and probabilities
pass through (R169; log 45), or a word of the accumulators after it (log 46): by step, operation and place, so that a re-run finds the
same (R154). -/
opaque openByte : Nat → Nat → Nat → Byte

/-- Partition, image cluster, inbox region, offset and step that the local offset of a BULK names when it delivers to an
inbox, whose wire form the manual does not give; none for an offset that names no place (R232; log 47). -/
opaque inboxTarget : Nat → Option (Nat × Nat × Nat × Nat)

/-- The local offset by which a BULK names an inbox place (image cluster, region, offset, step) or a return place in cluster
SRAM (package cluster, 16, offset, step) of its destination (R224, R232; log 47). -/
opaque inboxOffset : Nat → Nat → Nat → Nat → Nat

/-- Whether a report gives an amount that is no whole number of MiB rounded up: the manual gives no rounding for the MiB of
events 0x0405 and 0x0809 and of stats.read kind 5 (R129, R252, R426; log 28). -/
opaque mibUp : Bool

end Sys2Proof.Config
end

