-- ==== Sys2Proof/Machine/Bits.lean ====
section
/-! DEFINITION. Bit fields, byte order (R8) and sparse tables. -/

namespace Sys2Proof.Machine

/-- Field `[lo + width - 1 : lo]` of a word, as a number. -/
def fld (w : Word) (lo width : Nat) : Nat := (w.toNat / 2 ^ lo) % 2 ^ width

/-- Bit `i` of a word. -/
def bitOf (w : Word) (i : Nat) : Bool := fld w i 1 = 1

/-- Word `i` of a message; words beyond its end read as zero (R412). -/
def wordAt (ws : List Word) (i : Nat) : Word := ws.getD i 0

/-- The 64-bit number whose low word is word `i` and high word is word `i + 1` (R8). -/
def dwordAt (ws : List Word) (i : Nat) : Nat := (wordAt ws i).toNat + (wordAt ws (i + 1)).toNat * 2 ^ 32

/-- The 52-bit offset held in word `i` and bits [19:0] of word `i + 1`. -/
def off52At (ws : List Word) (i : Nat) : Nat := (wordAt ws i).toNat + fld (wordAt ws (i + 1)) 0 20 * 2 ^ 32

/-- A number as one word, modulo 2^32. -/
def w32 (n : Nat) : Word := BitVec.ofNat 32 n

/-- A number as two words, low word first. -/
def w64 (n : Nat) : List Word := [w32 n, w32 (n / 2 ^ 32)]

/-- A number as a byte, modulo 256. -/
def b8 (n : Nat) : Byte := BitVec.ofNat 8 n

/-- A Boolean as the number 0 or 1. -/
def b2n (b : Bool) : Nat := if b then 1 else 0

/-- The four bytes of a word, least significant first (R8). -/
def wordBytes (w : Word) : List Byte :=
  [b8 w.toNat, b8 (w.toNat / 2 ^ 8), b8 (w.toNat / 2 ^ 16), b8 (w.toNat / 2 ^ 24)]

/-- The bytes of a list of words. -/
def bytesOfWords (ws : List Word) : List Byte := ws.flatMap wordBytes

/-- The number whose little-endian bytes are given. -/
def natOfBytes : List Byte → Nat
  | [] => 0
  | b :: bs => b.toNat + 256 * natOfBytes bs

/-- The words of a list of bytes; a last partial word is padded with zero bytes. -/
def wordsOfBytes : List Byte → List Word
  | [] => []
  | [a] => [w32 a.toNat]
  | [a, b] => [w32 (a.toNat + 256 * b.toNat)]
  | [a, b, c] => [w32 (a.toNat + 256 * b.toNat + 65536 * c.toNat)]
  | a :: b :: c :: d :: rest => w32 (natOfBytes [a, b, c, d]) :: wordsOfBytes rest

/-- `n` in `k` little-endian bytes. -/
def natBytes : Nat → Nat → List Byte
  | 0, _ => []
  | k + 1, n => b8 n :: natBytes k (n / 256)

/-- Slice of a list: `len` elements from `start`. -/
def slice {α : Type} (xs : List α) (start len : Nat) : List α := (xs.drop start).take len

/-- Replace element `i` of a list; nothing happens beyond its end. -/
def setAt {α : Type} : List α → Nat → α → List α
  | [], _, _ => []
  | _ :: xs, 0, y => y :: xs
  | x :: xs, i + 1, y => x :: setAt xs i y

/-- Ceiling division. -/
def cdiv (a b : Nat) : Nat := (a + b - 1) / b

/-- The lookup of a sparse table. -/
def tget {α : Type} : Tbl α → Nat → Option α
  | [], _ => none
  | (k, v) :: rest, i => if k = i then some v else tget rest i

/-- The lookup of a sparse table, with the value of an unlisted key. -/
def tgetD {α : Type} (t : Tbl α) (i : Nat) (d : α) : α := (tget t i).getD d

/-- A sparse table without key `i`. -/
def terase {α : Type} : Tbl α → Nat → Tbl α
  | [], _ => []
  | (k, v) :: rest, i => if k = i then terase rest i else (k, v) :: terase rest i

/-- Insert in rising key order, replacing an entry of the same key. -/
def tset {α : Type} : Tbl α → Nat → α → Tbl α
  | [], i, y => [(i, y)]
  | (k, v) :: rest, i, y =>
    if i < k then (i, y) :: (k, v) :: rest
    else if i = k then (k, y) :: rest
    else (k, v) :: tset rest i y

/-- Change the entry of a key, reading an unlisted key as `d`. -/
def tmod {α : Type} (t : Tbl α) (i : Nat) (d : α) (f : α → α) : Tbl α := tset t i (f (tgetD t i d))

/-- The unused numbers below `n`, lowest first, searched with at most `fuel` probes from `k`. -/
def firstFree (used : List Nat) (n : Nat) : Nat → Nat → Option Nat
  | 0, _ => none
  | fuel + 1, k => if k % n ∈ used then firstFree used n fuel (k + 1) else some (k % n)

/-- An unused number below `n`, searched cyclically from `start`; none when every number is used. -/
def allocFrom (used : List Nat) (n start : Nat) : Option Nat :=
  if n = 0 then none else firstFree used n (min n (used.length + 1)) start

/-- The lowest gap of `n` units in runs sorted by their first unit, at or above `a`. -/
def gapFrom (n : Nat) : Nat → List (Nat × Nat) → Nat
  | a, [] => a
  | a, (k, m) :: rest => if a + n ≤ k then a else gapFrom n (max a (k + m)) rest
/-- Insert a run in order of its first unit. -/
def insertRun (r : Nat × Nat) : List (Nat × Nat) → List (Nat × Nat)
  | [] => [r]
  | x :: xs => if r.1 < x.1 then r :: x :: xs else x :: insertRun r xs

/-- 32-bit saturating addition (R68). -/
def satAdd32 (a b : Nat) : Nat := min (a + b) 0xFFFFFFFF

/-- Serial difference of two numbers modulo `m` (R321, R307). -/
def serialDiff (a b m : Nat) : Nat := (a + m - b % m) % m

end Sys2Proof.Machine
end

