-- ==== Sys2Proof/Machine/State.lean ====
section
/-! DEFINITION. The state of the package as plain data, one structure per block; Fault, Refusal and the reset state.
Every field's docstring names the rules of spec/ that give it, and its size. -/

namespace Sys2Proof.Machine

/-- State of a mailbox window (R404): MBX.CTRL.STATE. -/
inductive MbxState where
  | free
  | posted
  | answered
deriving DecidableEq, Repr

/-- A mailbox window (R404). -/
structure Mailbox where
  /-- Request area MBX.REQ (missing words are 0) (R404; 64 words). -/
  req : List Word := []
  /-- Response area MBX.RSP (missing words are 0) (R404; 64 words). -/
  rsp : List Word := []
  /-- MBX.CTRL.STATE (R404; 2 bits). -/
  st : MbxState := .free
  /-- MBX.CTRL.POST_IGNORED (R404; 1 bit). -/
  ignored : Bool := false
  /-- MBX.CTRL.RSP_BYTES (R404; 9 bits). -/
  rspBytes : Nat := 0
deriving DecidableEq, Repr

/-- A posted request that the Harbourmaster has journaled and not yet taken (R410). -/
structure Request where
  /-- Mailbox it was posted on (R410; record). -/
  mbx : MbxId
  /-- The message (R412; 64 words). -/
  words : List Word := []
  /-- Posted length (R408; 9 bits). -/
  bytes : Nat := 0
  /-- Its reply is discarded because its function was reset (R407; 1 bit). -/
  discard : Bool := false
  /-- Latest time for its reply, where the bound is a fixed one (R414; ns). -/
  due : Option Nat := none
deriving DecidableEq, Repr

/-- The Harbourmaster registers of the physical function (R403) and the journal between its two instances (R365). -/
structure Hm where
  /-- HM.FW_VERSION (R403; 32 bits). -/
  fwVersion : Word := 0
  /-- HM.STATUS.READY (R403; 1 bit). -/
  ready : Bool := false
  /-- HM.STATUS.FAILED: declared failed under R348 (R403; 1 bit). -/
  failed : Bool := false
  /-- Cause of event 0x0B01 (R375; 3 bits). -/
  failCause : Nat := 0
  /-- HM.STATUS.HM_REDUNDANCY_LOST (R403; 1 bit). -/
  redundancyLost : Bool := false
  /-- HM.STATUS.STANDBY_LOST (R403; 1 bit). -/
  standbyLost : Bool := false
  /-- HM.STATUS.MANAGER (R403; 1 bit). -/
  manager : Bool := false
  /-- HM.STATUS.CUT_OFF (R403; 1 bit). -/
  cutOff : Bool := false
  /-- HM.STATUS.INSTANCE: active instance, false IOD0, true IOD1 (R403; 1 bit). -/
  hmInst : Bool := false
  /-- HM.PKG_ID.ID (R403, R465; 7 bits). -/
  pkgId : BitVec 7 := 0
  /-- HM.PKG_ID.JOINED (R403; 1 bit). -/
  joined : Bool := false
  /-- HM.INT_STATUS (R403; 4 bits). -/
  intStatus : BitVec 4 := 0
  /-- HM.INT_ENABLE (R403; 4 bits). -/
  intEnable : BitVec 4 := 0
  /-- HM.TIME_HI as latched by the last read of HM.TIME_LO (R403; 32 bits). -/
  timeHi : Word := 0
  /-- HM.ALIVE (R403; 32 bits). -/
  alive : Word := 0
  /-- HM.FAULT_STICKY (R403; 4 bits). -/
  faultSticky : BitVec 4 := 0
  /-- HM.LOG_SEQ_HI as latched by the last read of HM.LOG_SEQ_LO (R403; 32 bits). -/
  logSeqHi : Word := 0
  /-- Journal entries the standby instance has applied (R365; entries). -/
  standbyJournal : List (List Word) := []
  /-- One Harbourmaster instance is isolated (R366, R370; 1 bit). -/
  instOut : Bool := false
  /-- No Harbourmaster instance works: the package is silent (R367; 1 bit). -/
  gone : Bool := false
deriving DecidableEq, Repr

/-- An event record (R428). -/
structure LogRec where
  /-- CODE (R428; 16 bits). -/
  code : Nat := 0
  /-- FAULT class (R428; 1 bit). -/
  fault : Bool := false
  /-- SEQ (R428, R525; 64 bits). -/
  seq : Nat := 0
  /-- TIME_NS (R428; 64 bits). -/
  time : Nat := 0
  /-- PAYLOAD (R129, R428; 6 words). -/
  payload : List Word := []
deriving DecidableEq, Repr

/-- The event log (R428, R523 to R526). -/
structure EventLog where
  /-- Main log, oldest first (R523; 8,192 records). -/
  main : List LogRec := []
  /-- Protected region, oldest first (R524; 512 records). -/
  prot : List LogRec := []
  /-- Index of the next record within the start (R525; 48 bits). -/
  next : Nat := 0
  /-- Cold-start count since manufacture (R525; 16 bits, saturating). -/
  coldStarts : Nat := 0
  /-- Log_overwritten (R523; 64 bits). -/
  overwritten : Nat := 0
  /-- Protected_overwritten (R524; 64 bits). -/
  protOverwritten : Nat := 0
  /-- Log_rate_dropped (R526; 64 bits). -/
  rateDropped : Nat := 0
  /-- Records written in the current second of package time (R526; count). -/
  inSecond : Nat := 0
  /-- Service-class records dropped in the current second (R526; count). -/
  droppedNow : Nat := 0
  /-- Service-class records dropped in the previous second (R526; count). -/
  droppedBefore : Nat := 0
deriving DecidableEq, Repr

/-- An MSI-X table entry (R402, R406; layout of the PCI Express standard). -/
structure MsixEntry where
  /-- Message address, low word (R402; 32 bits). -/
  addrLo : Word := 0
  /-- Message address, high word (R402; 32 bits). -/
  addrHi : Word := 0
  /-- Message data (R402; 32 bits). -/
  data : Word := 0
  /-- Vector control; bit 0 masks the vector (R406; 32 bits). -/
  ctrl : Word := 1
deriving DecidableEq, Repr

/-- State of the link IDE stream (R490). -/
inductive IdeState where
  | none
  | keyed
  | secure
  | insecure
deriving DecidableEq, Repr

/-- The PCI Express endpoint (R400 to R407, R429, R474, R490). -/
structure Endpoint where
  /-- The link is up (R407; 1 bit). -/
  linkUp : Bool := false
  /-- Rails settled: the link may train (R474; 1 bit). -/
  canTrain : Bool := false
  /-- Level of PERST_N; false is asserted (low) (R474; 1 bit). -/
  perst : Bool := false
  /-- Functions whose Bus Master Enable is set (0 to 31 VF, 32 PF) (R429; 33 bits). -/
  bme : List Nat := []
  /-- MSI-X tables; key 1024 x function + vector (R402, R406; 2,048 entries). -/
  msix : Tbl MsixEntry := []
  /-- Pending-bit arrays; keys as msix (R402; 2,048 bits). -/
  pending : List Nat := []
  /-- Link IDE stream (R490; 2 bits). -/
  ide : IdeState := .none
  /-- PCI Express lanes excluded by careen results (R510; 16 bits). -/
  lanesOut : List Nat := []
  /-- The endpoint is down for the careen loopback (R502; 1 bit). -/
  loopback : Bool := false
deriving DecidableEq, Repr

/-- An SPDM responder transport: DOE or MCTP (R489). -/
structure Spdm where
  /-- Negotiated version, 0x12 or 0x13 (R489; 8 bits). -/
  version : Nat := 0
  /-- GET_CAPABILITIES has been answered (R489; 1 bit). -/
  caps : Bool := false
  /-- NEGOTIATE_ALGORITHMS has been answered (R489; 1 bit). -/
  algs : Bool := false
  /-- The secure session held (R489; 32 bits). -/
  session : Option Nat := none
  /-- The session has completed FINISH (R489; 1 bit). -/
  finished : Bool := false
  /-- Key updates of the session (R489; count). -/
  keyUpdates : Nat := 0
  /-- The last response (R489; bytes). -/
  reply : List Byte := []
deriving DecidableEq, Repr

/-- The sideband port (R431 to R433). -/
structure Sideband where
  /-- MCTP endpoint identifier (R431; 8 bits). -/
  eid : Nat := 0
  /-- SMBus address 0x60 + SMB_ADDR (R465; 7 bits). -/
  smbAddr : Nat := 0x60
  /-- The last MCTP control or PLDM response (R431; bytes). -/
  reply : List Byte := []
  /-- PLDM sensors 1 to 10 as last updated (R433; 10 readings). -/
  sensors : List Nat := []
  /-- Sensors beyond a threshold at the last update (R466; 12 bits). -/
  crossed : List Nat := []
  /-- SMB_ALERT_N is driven low (R466; 1 bit). -/
  alert : Bool := false
deriving DecidableEq, Repr

/-- What the block puts out on its links, in order (the model's own record of its outputs, log 3). -/
inductive Emit where
  | msix (fn vector : Nat)
  | hostWrite (fn addr : Nat) (bytes : List Byte)
  | packet (plane port : Nat) (hdr : List Word) (data : List Byte)
  | control (port : Nat) (words : List Word)
  | flit (port fseq : Nat) (payload : List Byte)
  | burst (port : Nat)
  | smbus (bytes : List Byte)
  | doe (bytes : List Byte)
  | hmJournal (words : List Word)
deriving DecidableEq, Repr

/-- Partition state (R379). -/
inductive PartState where
  | closed
  | opened
  | serving
  | halted
deriving DecidableEq, Repr

/-- State of a shadow bank (R386). -/
inductive Shadow where
  | empty
  | ready
  | staged
  | armed
deriving DecidableEq, Repr

/-- A page-table entry (R187). -/
structure Pte where
  /-- VALID (R187; 1 bit). -/
  valid : Bool := false
  /-- LOC: 0 local HBM, 1 host swap window, 2 in transit (R187; 2 bits). -/
  loc : Nat := 0
  /-- RESERVED_PAGE (R187; 1 bit). -/
  resv : Bool := false
  /-- GEN, moves modulo 256 (R187; 8 bits). -/
  gen : Nat := 0
  /-- FRAME, offset / 4,096 (R187; 40 bits). -/
  frame : Nat := 0
deriving DecidableEq, Repr

/-- STATE of a sequence slot (R186). -/
inductive SlotState where
  | empty
  | resident
  | swapped
  | lost
deriving DecidableEq, Repr

/-- A sequence slot (R186) with its page list (R187) and swap record (R194). -/
structure SeqSlot where
  /-- SEQ_ID (R186; 32 bits). -/
  seqId : Nat := 0
  /-- LENGTH, committed tokens (R186; 25 bits). -/
  length : Nat := 0
  /-- STATE (R186; 2 bits). -/
  st : SlotState := .empty
  /-- BASE_POS (R186; 24 bits). -/
  basePos : Nat := 0
  /-- MAX_LEN (R186; 25 bits). -/
  maxLen : Nat := 0
  /-- LIST_BASE (R186; 52 bits). -/
  listBase : Nat := 0
  /-- LAST_STEP (R186; 64 bits). -/
  lastStep : Nat := 0
  /-- Page list: key is the entry's index in the list (R186, R187; page-table entries). -/
  pages : Tbl Pte := []
  /-- Swap record: CRC-32 of each page that is out (R194; 32 bits each). -/
  crcs : Tbl Nat := []
  /-- The page being returned failed its check once (R195; 1 bit). -/
  retry : Bool := false
  /-- Units still reserved and unallocated (R192; 4 KiB units). -/
  reserved : Nat := 0
  /-- Freed by kv.evict; released at the next step boundary (R197; 1 bit). -/
  freeing : Bool := false
  /-- Pages still to go out, in order (R194, R255; page indices). -/
  swapOut : List Nat := []
  /-- Pages still to come back, in order (R195; page indices). -/
  swapIn : List Nat := []
  /-- The kv.evict requests that wait for the copy to end (R197; records). -/
  evicting : List Request := []
deriving DecidableEq, Repr

/-- A step's sequence table in the KV-table region (R188, R240). -/
structure SeqTable where
  /-- Step identifier (R240; 64 bits). -/
  step : Nat := 0
  /-- Records: SEQ_ID, SLOT, LENGTH, new tokens (R188; 4 words each). -/
  records : List (List Nat) := []
deriving DecidableEq, Repr

/-- Key-value cache of a partition (R184 to R197, R240). -/
structure Kv where
  /-- Units of the quota that a recovery of frames has taken away (R259; 4 KiB units). -/
  taken : Nat := 0
  /-- Sequence slots (R186; 65,536 slots). -/
  slots : Tbl SeqSlot := []
  /-- Sequence tables, key step mod 16 (R240; 16 tables). -/
  seqTables : Tbl SeqTable := []
  /-- Allocated runs of the KV-page region: first unit, units (R238, R240; 4 KiB units). -/
  used : List (Nat × Nat) := []
  /-- Allocated runs of the host swap window (R194; 4 KiB units). -/
  swapUsed : List (Nat × Nat) := []
deriving DecidableEq, Repr

/-- Progress of a step (R423). -/
inductive StepState where
  | accepted
  | admitted
  | finished
  | completed
  | withdrawn
deriving DecidableEq, Repr

/-- A sequence as a step names it (R188, R419). -/
structure SeqUse where
  /-- SEQ_ID (R419; 32 bits). -/
  seqId : Nat := 0
  /-- SLOT (R188; 16 bits). -/
  slot : Nat := 0
  /-- NEW_TOKENS (R419; 13 bits). -/
  newTokens : Nat := 0
deriving DecidableEq, Repr

/-- Outputs that an END_STEP named (R139, R145). -/
structure OutRec where
  /-- Cluster (R145; 6 bits). -/
  cluster : Nat := 0
  /-- List order within a fold list (R145; count). -/
  order : Nat := 0
  /-- OUT_ADDR and OUT_SPACE (R139; flat SRAM address). -/
  addr : Nat := 0
  /-- OUT_BYTES (R139; 32 bits). -/
  bytes : Nat := 0
deriving DecidableEq, Repr

/-- A step that the partition has accepted (R419 to R424), admitted (R157) or completed. -/
structure StepRec where
  /-- Step identifier (R12; 64 bits). -/
  id : Nat := 0
  /-- Progress (R423; 3 bits). -/
  st : StepState := .accepted
  /-- Completion status (R422; 16 bits). -/
  status : Nat := 0
  /-- Cause of R166 (R422; 16 bits). -/
  cause : Nat := 0
  /-- Cluster of the cause (R422; 6 bits). -/
  cluster : Nat := 0
  /-- It has a host submission on this package (R422; 1 bit). -/
  host : Bool := false
  /-- Function of the submission (R429; 6 bits). -/
  fn : Nat := 0
  /-- VECTOR (R419; 5 bits). -/
  vector : Nat := 0
  /-- OUT_ADDR (R419; 64 bits). -/
  outAddr : Nat := 0
  /-- OUT_CAP (R419; 32 bits). -/
  outCap : Nat := 0
  /-- CPL_ADDR (R419; 64 bits). -/
  cplAddr : Nat := 0
  /-- Sequence records (R419; records). -/
  seqs : List SeqUse := []
  /-- Journal offset of its input entry (R542; bytes). -/
  inAt : Nat := 0
  /-- IN_BYTES (R419; 32 bits). -/
  inBytes : Nat := 0
  /-- When its whole input had arrived (R157; 64 bits). -/
  arrivedNs : Nat := 0
  /-- ADMIT_NS (R423; 64 bits). -/
  admitNs : Nat := 0
  /-- DONE_NS (R423; 64 bits). -/
  doneNs : Nat := 0
  /-- LATENCY_NS (R157; 32 bits, saturating). -/
  latencyNs : Nat := 0
  /-- REPLAYED (R422; 1 bit). -/
  replayed : Bool := false
  /-- Confirmed errors met (R265; count). -/
  errors : Nat := 0
  /-- Clusters that the step has left (R145; clusters). -/
  left : List Nat := []
  /-- Outputs named so far (R145; records). -/
  outs : List OutRec := []
  /-- Pages allocated at its admission (R191; slot, page index). -/
  newPages : List (Nat × Nat) := []
  /-- Tokens appended to each head so far (A) (R189; slot, table, head, tokens). -/
  appended : List (Nat × Nat × Nat × Nat) := []
  /-- Commit actions completed (R29; 3 bits). -/
  action : Nat := 0
  /-- Its outputs have been released and await their acknowledgements (R29; 1 bit). -/
  released : Bool := false
  /-- The holder has acknowledged its mirror records (R354; 1 bit). -/
  acked : Bool := false
  /-- Mirror records sent for it (R353; count). -/
  records : Nat := 0
  /-- Its step.submit, unanswered until the holder has the input (R352; record). -/
  submit : Option Request := none
  /-- A count exceeded MAX_COUNT (R149; 1 bit). -/
  overran : Bool := false
  /-- It met a cold wait or a spill round (R231; 1 bit). -/
  coldOrSpill : Bool := false
  /-- Time for which it has waited for rung data on each cluster (R126; ns). -/
  rungWaits : Tbl Nat := []
  /-- Its storm delay (R126; ns). -/
  stormNs : Nat := 0
  /-- Once-per-step events written (R68, R129; event codes). -/
  fired : List Nat := []
deriving DecidableEq, Repr

/-- A step held in the result hold (R422). -/
structure Held where
  /-- Step identifier (R422; 64 bits). -/
  id : Nat := 0
  /-- Results (R422; bytes). -/
  data : List Byte := []
  /-- Completion record (R422; 16 words). -/
  record : List Word := []
deriving DecidableEq, Repr

/-- A record of the latch ring (R395). -/
structure Latched where
  /-- Step (R395; 64 bits). -/
  id : Nat := 0
  /-- Header and per-step counts (R395, R427; words). -/
  words : List Word := []
  /-- It has been read (R395; 1 bit). -/
  seen : Bool := false
deriving DecidableEq, Repr

/-- Fall-back state of one operation (R117). -/
structure OpFb where
  /-- Current rung (R117; 2 bits). -/
  rung : Nat := 0
  /-- Window that fails belongs to (R117; step / 4,096). -/
  win : Nat := 0
  /-- Failed product probes counted in the window (R117; 8 bits). -/
  fails : Nat := 0
  /-- Pending escalations: first step, rung (R117, R119; step, rung). -/
  pend : List (Nat × Nat) := []
deriving DecidableEq, Repr

/-- Fall-back state of a partition as of a step (R117 to R121). -/
structure FbState where
  /-- By OP_INDEX (R117; one per operation). -/
  ops : Tbl OpFb := []
  /-- Current window (R117; step / 4,096). -/
  win : Nat := 0
  /-- Storm pins: first step, last step (R117, R125; 2 x 64 bits each). -/
  storms : List (Nat × Nat) := []
  /-- Operations escalated, each with the window of the deciding step (R125; operation, window). -/
  escalated : List (Nat × Nat) := []
deriving DecidableEq, Repr

/-- A failed product probe that counts towards escalation (R118). -/
structure FbEvt where
  /-- Step (R118; 64 bits). -/
  step : Nat := 0
  /-- OP_INDEX (R118; 32 bits). -/
  op : Nat := 0
  /-- ELEM_BASE of the tile (R101; 64 bits). -/
  elem : Nat := 0
  /-- Rung at which the tile had run (R114; 2 bits). -/
  rung : Nat := 0
  /-- Its error (R106; FP32). -/
  e : Word := 0
deriving DecidableEq, Repr

/-- Fall-back of a partition (R117 to R127). -/
structure Fallback where
  /-- State with every probe resolved so far (R117; record). -/
  cur : FbState := {}
  /-- State as of the last committed step (R121; record). -/
  com : FbState := {}
  /-- Failures of steps not yet committed, in the order they were judged (R118, R121; failures). -/
  evts : List FbEvt := []
  /-- Storm overruns in the window (R127; count). -/
  stormOverruns : Nat := 0
  /-- Rung chunks fetched in the window (R127; count). -/
  rungChunks : Nat := 0
  /-- Bond-store chunks read for the partition in the window (R254; count). -/
  chunks : Nat := 0
deriving DecidableEq, Repr

/-- An expert queue of a cluster for one step (R220, R221). -/
structure Queue where
  /-- Header words, flat address of the row, in spill (R220; entries). -/
  entries : List (List Word × Nat × Bool) := []
  /-- Closes that have arrived (R221; origin, OP_INDEX, count). -/
  closes : List (Nat × Nat × Nat) := []
  /-- Sealed (R221; 1 bit). -/
  sealed : Bool := false
  /-- Canonical order once sealed (R221; entry indices). -/
  order : List Nat := []
deriving DecidableEq, Repr

/-- State, banks and registration of a partition (R379 to R399, R416). -/
structure PartCfg where
  /-- State (R379; 2 bits). -/
  st : PartState := .closed
  /-- Bank 0 (missing words are 0) (R380; 56 words). -/
  ebb : List Word := []
  /-- Bank 1 (missing words are 0) (R380; 56 words). -/
  flood : List Word := []
  /-- Active bank: false Ebb, true Flood (R380; 1 bit). -/
  active : Bool := false
  /-- State of the shadow bank (R386; 2 bits). -/
  shadow : Shadow := .empty
  /-- Partitions that swap with this one (R391; 32 bits). -/
  linked : List Nat := []
  /-- When the swap was staged (R399; ns). -/
  stagedAt : Nat := 0
  /-- Steps committed since the swap was staged (R398; count). -/
  drained : Nat := 0
  /-- Drain time to be counted in the next step (R399; ns). -/
  drainNs : Nat := 0
  /-- SWAP_ADDR (R416; 64 bits). -/
  swapAddr : Nat := 0
  /-- SWAP_WIN_MIB (R416; 24 bits). -/
  swapMib : Nat := 0
  /-- Cumulative totals at the opening (R396; 64 bits each). -/
  openSnap : List Nat := []
  /-- Clusters folded in the active image (R137; guest, host). -/
  folded : List (Nat × Nat) := []
deriving DecidableEq, Repr

/-- Steps of a partition (R29, R157, R419 to R424). -/
structure PartRun where
  /-- Steps accepted, oldest first (R423; last 1,024). -/
  steps : List StepRec := []
  /-- LAST (R421; 64 bits). -/
  last : Nat := 0
  /-- Committed-step identifier (R29; 64 bits). -/
  committed : Nat := 0
  /-- Time of the last admission (R157; ns). -/
  lastAdmit : Option Nat := none
  /-- Admission stopped by a barrier or seal hang (R153; 1 bit). -/
  stopped : Bool := false
  /-- Result hold (R422; 64 steps). -/
  hold : List Held := []
  /-- Once-per-window events written, each with its window (R117, R167; event code, window). -/
  fired : List (Nat × Nat) := []
  /-- Barrier arrivals; key step x 64 + barrier (R152; clusters). -/
  barr : Tbl (List Nat) := []
  /-- Time of the first arrival at each barrier of barr (R153; ns). -/
  barFrom : Tbl Nat := []
  /-- Its function was reset: results of admitted steps are discarded and the partition closes when they have committed (R407; 1 bit). -/
  freeDrop : Bool := false
  /-- Since when its oldest accepted step waits for KV frames (R260; ns). -/
  frameWait : Option Nat := none
  /-- When the last step to complete action 3 did so (R126; ns). -/
  doneAt : Nat := 0
  /-- When that step would have done so without waits for rung data (R126; ns). -/
  freeAt : Nat := 0
deriving DecidableEq, Repr

/-- Statistics of a partition (R68, R395, R396, R448). -/
structure PartStat where
  /-- Latch ring, oldest first (R395; 16 records). -/
  latch : List Latched := []
  /-- Per-step counts, key as R427 (R68; 32 bits each). -/
  cnt : Tbl Nat := []
  /-- Cumulative totals, key as R427 (R68, R396; 64 bits each). -/
  cum : Tbl Nat := []
  /-- Partition energy when the step's counts restarted (R395; uJ). -/
  energyMark : Nat := 0
  /-- Issue rate set by the power controller (R448; eighths). -/
  throttle : Nat := 8
deriving DecidableEq, Repr

/-- A SELECT that a step has run, and its return counter (R211, R224). -/
structure SelRun where
  /-- OP_INDEX (R210; 32 bits). -/
  op : Nat := 0
  /-- TOKEN_BASE (R210; 16 bits). -/
  base : Nat := 0
  /-- MAP (R210; 8 bits). -/
  map : Nat := 0
  /-- Package cluster that ran it (R224; 6 bits). -/
  cluster : Nat := 0
  /-- Step (R224; 64 bits). -/
  step : Nat := 0
  /-- FAR_KIND, FAR as relocated, and bytes of its return area (R210, R216; 4 bits, 52 bits, bytes). -/
  kind : Nat := 0
  far : Nat := 0
  bytes : Nat := 0
  /-- Choices that it pushed (R216; count). -/
  sent : Nat := 0
  /-- Return rows that have arrived (R224; counter). -/
  got : Nat := 0
deriving DecidableEq, Repr

/-- Expert exchange of a partition (R220 to R224) . -/
structure PartEx where
  /-- Expert queues; key ((map x 16 + step mod 16) x 48 + cluster) x 16 + queue (R220; 16 per cluster and step). -/
  queues : Tbl Queue := []
  /-- SELECTs that uncommitted steps have run, with their return counters (R224; records). -/
  sels : List SelRun := []
  /-- Spill entries used; key map x 16 + step mod 16 (R220; count). -/
  spillN : Tbl Nat := []
  /-- Entries from this package that wait for a step slot: map, step, cluster, queue, entry (R220; entries). -/
  qwait : List (Nat × Nat × Nat × Nat × List Byte) := []
  /-- BULK pages landed, which numbers bulkAt (R200; count). -/
  bulkN : Nat := 0
  /-- Arrival number of the last BULK into each 4 KiB of the data region (R200; arrival numbers). -/
  bulkAt : Tbl Nat := []
deriving DecidableEq, Repr

/-- Input journal of a partition (R542). -/
structure PartJr where
  /-- Entries of the input journal, oldest first (R542; offset, bytes, step). -/
  jring : List (Nat × Nat × Nat) := []
  /-- Releases being assembled in the journal window (R542; source, bytes expected, bytes). -/
  jasm : List (Nat × Nat × List Byte) := []
  /-- Where the next entry is placed (R542; bytes). -/
  jnext : Nat := 0
deriving DecidableEq, Repr

/-- A partition (R377). -/
structure Part where
  /-- State and banks (R379; record). -/
  cfg : PartCfg := {}
  /-- Steps (R377; record). -/
  run : PartRun := {}
  /-- Statistics (R395; record). -/
  stat : PartStat := {}
  /-- Expert exchange (R220; record). -/
  ex : PartEx := {}
  /-- Input journal (R542; record). -/
  jr : PartJr := {}
  /-- Key-value cache (R184; record). -/
  kv : Kv := {}
  /-- Fall-back state (R117; record). -/
  fb : Fallback := {}
  /-- MBX.VF_EVENT (R405; 4 bits). -/
  vfEvent : BitVec 4 := 0
  /-- MBX.VF_EVENT_EN (R405; 4 bits). -/
  vfEventEn : BitVec 4 := 0
deriving DecidableEq, Repr

/-- A loaded stage image (R417). -/
structure Image where
  /-- The image (R417; up to 384 MiB). -/
  words : List Word := []
  /-- SHA-256 of the image (R488; 32 bytes). -/
  digest : List Byte := []
  /-- TARGET it was loaded against (R417; 1 bit). -/
  standby : Bool := false
deriving DecidableEq, Repr

/-- A 64 KiB unit of a stage's rung cache (R122, R123). -/
structure RungUnit where
  /-- Operation (R123; 32 bits). -/
  op : Nat := 0
  /-- Rung (R123; 2 bits). -/
  rung : Nat := 0
  /-- Chunk of the piece (R122; count). -/
  chunk : Nat := 0
  /-- It lies in the tile area (R116; 1 bit). -/
  tile : Bool := false
  /-- When it was used last (R123; ns). -/
  used : Nat := 0
  /-- Streamed: dropped after its use (R124; 1 bit). -/
  once : Bool := false
  /-- Compute die whose clusters read it (R237; 2 bits). -/
  die : Nat := 0
  /-- Weight-region offset of its 64 KiB in the die's cache part; none of a streamed one (R237; 52 bits). -/
  place : Nat := 0
deriving DecidableEq, Repr

/-- A pending rung chunk (R122). -/
structure RungReq where
  /-- Partition (R122; 5 bits). -/
  part : Nat := 0
  /-- Tile fall-back chunk (R122; 1 bit). -/
  tile : Bool := false
  /-- Earliest step that needs it (R122; 64 bits). -/
  step : Nat := 0
  /-- Operation (R122; 32 bits). -/
  op : Nat := 0
  /-- Rung (R122; 2 bits). -/
  rung : Nat := 0
  /-- Chunk of the piece (R122; count). -/
  chunk : Nat := 0
  /-- Compute die whose clusters read it (R237; 2 bits). -/
  die : Nat := 0
deriving DecidableEq, Repr

/-- A cold-expert slot of a stage (R229, R230). -/
structure ColdSlot where
  /-- Cold expert that it holds or receives (R230; cold index). -/
  expert : Nat := 0
  /-- Chunks landed (R229; chunks). -/
  got : Nat := 0
  /-- The whole expert is resident (R229; 1 bit). -/
  resident : Bool := false
  /-- Steps that pin it (R230; partition, step). -/
  pins : List (Nat × Nat) := []
  /-- When it was used last (R230; ns). -/
  used : Nat := 0
  /-- Index of its expert in the expert map (R230, R235; 12 bits). -/
  index : Nat := 0
  /-- Weight-region offset of the slot in its die's cache part (R237; 52 bits). -/
  place : Nat := 0
deriving DecidableEq, Repr

/-- A pending cold fetch (R229). -/
structure ColdReq where
  /-- Partition (R229; 5 bits). -/
  part : Nat := 0
  /-- Step (R229; 64 bits). -/
  step : Nat := 0
  /-- Cold expert (R229; cold index). -/
  expert : Nat := 0
  /-- Cold slot taken, once the fetch has begun (R230; 8 bits). -/
  slot : Option Nat := none
  /-- Index of its expert in the expert map (R229, R235; 12 bits). -/
  index : Nat := 0
deriving DecidableEq, Repr

/-- A stage in the sense of R540: its one weight region, restore and rung cache. -/
structure Stage where
  /-- Place of its weight region in the flat HBM space (the model's own) (R238; count). -/
  slot : Nat := 0
  /-- STAGE_ID (R540; 32 bits). -/
  stageId : Nat := 0
  /-- MANIFEST_DIGEST (R540; 8 words). -/
  digest : List Word := []
  /-- Target, own or standby (R540; 1 bit). -/
  standby : Bool := false
  /-- Restore entries of this target (R250; 6 words each). -/
  entries : List (List Word) := []
  /-- RUNG_CACHE_MIB (R110; 24 bits). -/
  cacheMib : Nat := 0
  /-- COLD_SLOTS (R208; 8 bits). -/
  coldSlots : Nat := 0
  /-- Units restored, in entry order (R251; 64 KiB units). -/
  done : Nat := 0
  /-- Restored units lost to a repair and to be restored again (R253; unit numbers). -/
  lost : List Nat := []
  /-- The restore of this target has ended (R252; 1 bit). -/
  complete : Bool := false
  /-- Rung cache (R122; units). -/
  cache : List RungUnit := []
  /-- Pending rung chunks (R122; chunks). -/
  reqs : List RungReq := []
  /-- Partition that the last rung chunk was served to (R122; 5 bits). The manual does not say which partition a fresh stage serves
  first: 31 stands here, so that the first turn begins with partition 0 (DESIGN CHOICE, log 129). -/
  lastServed : Nat := 31
  /-- Cold slots (R229; 255 slots). -/
  cold : Tbl ColdSlot := []
  /-- Pending cold fetches (R229; fetches). -/
  coldReqs : List ColdReq := []
deriving DecidableEq, Repr

/-- A command of a Pilot's list not yet issued (R138, R148). -/
structure Cmd where
  /-- The command (R138; up to 26 words). -/
  words : List Word := []
  /-- It comes from an expansion (R150; 1 bit). -/
  expanded : Bool := false
  /-- Expansion level (R148; 0 to 5). -/
  depth : Nat := 0
  /-- Expert queue that the expansion serves (R454; 4 bits). -/
  queue : Option Nat := none
deriving DecidableEq, Repr

/-- A byte range of SRAM, at a flat address. -/
structure Rng where
  /-- First byte (R142; flat SRAM address). -/
  start : Nat := 0
  /-- Bytes (R142; bytes). -/
  len : Nat := 0
deriving DecidableEq, Repr

/-- A command that is outstanding (R142). -/
structure Outst where
  /-- Order of issue in the cluster (R142; count). -/
  id : Nat := 0
  /-- Core it was issued to (R141; 3 bits). -/
  core : Nat := 0
  /-- Step (R143; 64 bits). -/
  step : Nat := 0
  /-- Partition (R143; 5 bits). -/
  part : Nat := 0
  /-- SRAM ranges read (R142; ranges). -/
  reads : List Rng := []
  /-- SRAM ranges written (R142; ranges). -/
  writes : List Rng := []
  /-- Product probes it waits for (R113; probe numbers). -/
  probes : List Nat := []
  /-- Its accumulation group or gathered pass has not drained yet (R78, R94; 1 bit). -/
  undrained : Bool := false
  /-- It is a pass of the Springbok path (R92; 1 bit). -/
  springbok : Bool := false
  /-- Cluster whose inbox a MOVE delivers into (R144; 6 bits). -/
  dst : Option Nat := none
  /-- Head that an appending ATTEND extends (R189; slot, table, head). -/
  app : Option (Nat × Nat × Nat) := none
  /-- OP_INDEX of a SELECT, whose engine may still wait for push credits (R218, R219; 32 bits). -/
  sel : Option Nat := none
deriving DecidableEq, Repr

/-- A Pilot's run of a command list for one step (R143). -/
structure Run where
  /-- Partition (R143; 5 bits). -/
  part : Nat := 0
  /-- Step identifier (R143; 64 bits). -/
  step : Nat := 0
  /-- Commands not yet issued, the next first (R138, R148; commands). -/
  todo : List Cmd := []
  /-- Barrier the list waits at (R152; 6 bits). -/
  atBar : Option Nat := none
  /-- Stampede waves released so far at that barrier (R90; 0 to 8). -/
  waves : Nat := 0
  /-- Map of the last SEAL of each queue (R221; 8 bits per queue). -/
  seals : Tbl Nat := []
  /-- When a waiting SEAL was issued (R221; ns). -/
  sealFrom : Option Nat := none
  /-- When the wait for an append began (R189; ns). -/
  waitFrom : Option Nat := none
  /-- Stall cause of the held command, and since when (R260; cause, ns). -/
  stall : Option (Nat × Nat) := none
deriving DecidableEq, Repr

/-- A window buffer of a cluster (R246, R249). -/
structure Win where
  /-- Stream entry (R246; 16 bits). -/
  entry : Nat := 0
  /-- Step (R249; 64 bits). -/
  step : Nat := 0
  /-- Rung of the bytes (R248; 2 bits). -/
  rung : Nat := 0
  /-- Landed and checked (R249; 1 bit). -/
  landed : Bool := false
  /-- Released by WINDOW_RELEASE (R249; 1 bit). -/
  released : Bool := true
deriving DecidableEq, Repr

/-- A range of a cluster's SRAM that a MOVE filled from the weight region (R264). -/
structure WeightCopy where
  /-- Partition (R264; 5 bits). -/
  part : Nat := 0
  /-- First byte (R264; flat SRAM address). -/
  at_ : Nat := 0
  /-- Bytes (R264; count). -/
  bytes : Nat := 0
  /-- Weight-region offset copied from (R264; 52 bits). -/
  src : Nat := 0
deriving DecidableEq, Repr

/-- A logical cluster (R16, R22): its Pilot, step slots, inbox and window. -/
structure Cluster where
  /-- It has left service (R24; 1 bit). -/
  out : Bool := false
  /-- Lists that the Pilot runs (R143; 16 step slots). -/
  runs : List Run := []
  /-- Outstanding commands (R142; 64 commands). -/
  outst : List Outst := []
  /-- Commands issued, numbering outst (R142; count). -/
  issued : Nat := 0
  /-- Step slots in use: partition, step (R143; 16 slots). -/
  slots : Tbl (Nat × Nat) := []
  /-- Inbox counts; key slot x 16 + region (R144; counts). -/
  inbox : Tbl Nat := []
  /-- Window buffers; 4 to 7 are those of a folded guest (R246, R247; 4 buffers, 4 of a guest). -/
  wins : Tbl Win := []
  /-- Next stream of the cluster to begin (R248; step, entry). -/
  stream : Nat × Nat := (0, 0)
  /-- Since when the next stream waits for rung data (R126; ns). -/
  rungWait : Option Nat := none
  /-- Share group whose pages the 1 MiB staging area holds (R178; share key). -/
  staging : List Nat := []
  /-- Ranges of its SRAM that MOVE filled from the weight region and nothing has overwritten (R264; ranges). -/
  copies : List WeightCopy := []
deriving DecidableEq, Repr

/-- The record of a stream-buffer slab (R71). -/
structure Slab where
  /-- Address (R71; flat SRAM address). -/
  addr : Nat := 0
  /-- Format code (R71; 4 bits). -/
  fmt : Nat := 0
  /-- Transposition (R71; 1 bit). -/
  trans : Bool := false
  /-- K (R71; 24 bits). -/
  k : Nat := 0
  /-- Row or column count (R71; 7 bits). -/
  n : Nat := 0
deriving DecidableEq, Repr

/-- What a stream buffer holds (R70, R71): as read, with what a weight slab brings along. -/
structure SlabData where
  /-- Lines of the slab (R70; 512 KiB). -/
  lines : List (List Byte) := []
  /-- Lines of its residual plane, where it was streamed at rung 1 (R65, R71; bytes per line). -/
  res : List (List Byte) := []
  /-- Rung that it was streamed at (R71, R248; 2 bits). -/
  rung : Nat := 0
  /-- Weight-region offset that it was streamed from (R246; 38 bits). -/
  src : Option Nat := none
deriving DecidableEq, Repr

/-- A thin pass in a gather queue (R94). -/
structure GatherEntry where
  /-- Partition (R94; 5 bits). -/
  part : Nat := 0
  /-- Step (R94; 64 bits). -/
  step : Nat := 0
  /-- Rung (R94; 2 bits). -/
  rung : Nat := 0
  /-- Pass descriptor (R94; 16 words). -/
  words : List Word := []
  /-- Its number among the outstanding commands (R142; count). -/
  id : Nat := 0
  /-- When its deadline expires (R93; ns). -/
  due : Nat := 0
  /-- Residue mismatches that its arithmetic meets (R77; count). -/
  residue : Nat := 0
deriving DecidableEq, Repr

/-- A pass of an accumulation group, with what it read (R77, R78, R114). -/
structure GroupPass where
  /-- Pass descriptor (R78; 16 words). -/
  words : List Word := []
  /-- Lines of operand A (R78; bytes per line). -/
  a : List (List Byte) := []
  /-- Lines of operand B (R78; bytes per line). -/
  b : List (List Byte) := []
  /-- Lines of the residual plane of the weight side, at rung 1 (R65; bytes per line). -/
  res : List (List Byte) := []
  /-- Rung of its weights (R114; 2 bits). -/
  rung : Nat := 0
  /-- Weight-region offset that its weight operand was streamed from (R246; 38 bits). -/
  src : Option Nat := none
deriving DecidableEq, Repr

/-- A core, by logical number (R22, R25). -/
structure Core where
  /-- Failed with no spare left (R23; 1 bit). -/
  failed : Bool := false
  /-- Record of the slab in the west stream buffer (R70, R71; 512 KiB). -/
  west : Option Slab := none
  /-- Record of the slab in the north stream buffer (R70, R71; 512 KiB). -/
  north : Option Slab := none
  /-- Contents of the west stream buffer (R70; 512 KiB). -/
  westData : SlabData := {}
  /-- Contents of the north stream buffer (R70; 512 KiB). -/
  northData : SlabData := {}
  /-- Accumulators in use, row by row (R73; 64 x 64 x 32 bits). -/
  acc : List Word := []
  /-- The other accumulators, handed to the drain (R73; 64 x 64 x 32 bits). -/
  acc1 : List Word := []
  /-- Passes of the current accumulation group of the array (R77; passes). -/
  grp : List GroupPass := []
  /-- List that the current group of the array belongs to (R77; partition, step). -/
  grpOf : Nat × Nat := (0, 0)
  /-- Accumulators of the Springbok path (R91; 4 x 64 x 32 bits). -/
  sacc : List Word := []
  /-- Activation vectors kept by the Springbok path (R91; 4 x 8,192 elements). -/
  svecs : List (List Byte) := []
  /-- Passes of the current group of the Springbok path (R77; passes). -/
  sgrp : List GroupPass := []
  /-- List that the current group of the Springbok path belongs to (R77; partition, step). -/
  sgrpOf : Nat × Nat := (0, 0)
  /-- Cycles for which the last pass holds the next front (R84; 0 to 64 cycles). -/
  hold : Nat := 0
  /-- Gather queue (R94; 16 entries). -/
  gather : List GatherEntry := []
  /-- Residue mismatches of the current accumulation group of the array (R77; count). -/
  group : Nat := 0
deriving DecidableEq, Repr

/-- A probe in a Chamois unit's queue (R99, R109). -/
structure Probe where
  /-- Number (R109; count). -/
  id : Nat := 0
  /-- Product probe (R99; 1 bit). -/
  product : Bool := false
  /-- Forced by a range overflow (R102; 1 bit). -/
  forced : Bool := false
  /-- Partition (R99; 5 bits). -/
  part : Nat := 0
  /-- Step (R99; 64 bits). -/
  step : Nat := 0
  /-- Cluster whose core waits (R109; 6 bits). -/
  cluster : Nat := 0
  /-- Core (R109; 9 bits). -/
  core : Nat := 0
  /-- OP_INDEX (R99; 32 bits). -/
  op : Nat := 0
  /-- Rung at which the tile ran (R114; 2 bits). -/
  rung : Nat := 0
  /-- Row probed (R101; 7 bits). -/
  row : Nat := 0
  /-- Output channels probed (R101; first, count). -/
  chans : Nat × Nat := (0, 0)
  /-- Passes of the tile's accumulation group (R105, R114; passes). -/
  grp : List GroupPass := []
  /-- Activation-side scale of each output probed (R105; FP32). -/
  scales : List (Option Word) := []
  /-- Narrow side (R106; FP32 values). -/
  y : List Word := []
  /-- Reference side of a quantisation probe (R106; FP32 values). -/
  z : List Word := []
  /-- Drained results withheld until the probe passes (R113; flat address, bytes). -/
  held : List (Nat × List Byte) := []
  /-- Pass descriptor of the tile (R114; 16 words). -/
  pass : List Word := []
  /-- When its tile began to wait for rung data (R126; ns). -/
  since : Nat := 0
  /-- No unit works: it is counted as lost, and its tile is released as soon as it has run at its rung (R108; 1 bit). -/
  lost : Bool := false
deriving DecidableEq, Repr

/-- A Chamois unit (R108, R109). -/
structure Chamois where
  /-- Declared failed (R108; 1 bit). -/
  out : Bool := false
  /-- Probes, first in first out (R109; 32 probes). -/
  queue : List Probe := []
  /-- Probes of cores that wait for room in the queue, first in first out (R109; probes). -/
  waiting : List Probe := []
deriving DecidableEq, Repr

/-- A soft repair of an HBM row in progress (R267). -/
structure RowRepair where
  /-- Package pseudo-channel (R267; 9 bits). -/
  pc : Nat := 0
  /-- Row (R267; 20 bits). -/
  row : Nat := 0
deriving DecidableEq, Repr

/-- A frame move in progress (R269). -/
structure FrameMove where
  /-- Die (R269; 2 bits). -/
  die : Nat := 0
  /-- Withdrawn frame (R269; 16 bits). -/
  fromF : Nat := 0
  /-- New frame (R269; 16 bits). -/
  toF : Nat := 0
deriving DecidableEq, Repr

/-- A detection re-fetch pending (R264, R266). -/
structure Refetch where
  /-- 1 SRAM filled from weights, 2 weight region, 3 standby region, 4 KV page, 5 second copy, 6 mirror page (R264; lost-data kind). -/
  kind : Nat := 0
  /-- Partition (R264; 5 bits). -/
  part : Nat := 0
  /-- First byte of the unit (R264; address). -/
  addr : Nat := 0
  /-- Slot, for a KV page (R264; 16 bits). -/
  slot : Nat := 0
  /-- Page index, for a KV page (R264; 32 bits). -/
  page : Nat := 0
deriving DecidableEq, Repr

/-- An SRAM macro (R270). -/
structure Macro where
  /-- Spare columns used (R270; 0 to 4). -/
  spares : Nat := 0
  /-- Held for a scrub (R270; 1 bit). -/
  scrub : Bool := false
  /-- Column being replaced (R270; 6 bits). -/
  column : Nat := 0
  /-- Words written back with inverted parity (R270; words). -/
  bad : List Nat := []
deriving DecidableEq, Repr

/-- An entry of a frame map: the physical frame behind 2 MiB of a region (R238). -/
structure Frame where
  /-- Whose region: a partition, or 64 and the place of a stage (R238; space). -/
  space : Nat := 0
  /-- Region of R237; 19 is the second copy of the KV-table region (R237, R240; region). -/
  region : Nat := 0
  /-- Frame of the region (R238; count). -/
  n : Nat := 0
  /-- Compute die (R238; 2 bits). -/
  die : Nat := 0
  /-- Physical frame of the die (R241; 0 to 49,151). -/
  phys : Nat := 0
deriving DecidableEq, Repr

/-- Repair and detection in the memory tiers (R243, R254, R262 to R270). -/
structure Tiers where
  /-- What recoveries of frames have gained (R259; 4 KiB units). -/
  taken : Nat := 0
  /-- Retired pseudo-channels (R243, R268; 512 bits). -/
  pcsOut : List Nat := []
  /-- Stacks lost for the minimum serving set (R268; 16 bits). -/
  stacksLost : List Nat := []
  /-- Rows with confirmed errors and when (R268; pc, row, s). -/
  rowErrs : List (Nat × Nat × Nat) := []
  /-- Row repairs in progress (R267; rows). -/
  repairs : List RowRepair := []
  /-- Retired rows (R267; pc, row). -/
  rowsOut : List (Nat × Nat) := []
  /-- Withdrawn frames (R267, R269; die, frame). -/
  framesOut : List (Nat × Nat) := []
  /-- The frame maps (R238; frames). -/
  frames : List Frame := []
  /-- Frame moves in progress (R269; moves). -/
  moves : List FrameMove := []
  /-- Units under re-fetch (R266; units). -/
  refetch : List Refetch := []
  /-- Dead bytes not yet rewritten, in the flat HBM space (R264; address, bytes). -/
  dead : List (Nat × Nat) := []
  /-- SRAM macros, numbered as R273 (R270; 24,576 + 12,288 macros). -/
  macros : Tbl Macro := []
  /-- Next slot of the bond-store read wheel (R254; 0 to 3). -/
  wheel : Nat := 0
  /-- An HBM capacity shortfall stands (R259; 1 bit). -/
  short : Bool := false
deriving DecidableEq, Repr

/-- Elements taken out of service (R15, R23, R24, R371). -/
structure Health where
  /-- Core that each trio's spare replaces; key 4 x die + trio (R23; 16 trios). -/
  spares : Tbl Nat := []
  /-- Failed physical cores (R23; cores). -/
  isolated : List Nat := []
  /-- Die links that have failed: 2 x die + IOD, 8 to 11 ring, 12 IOD0-IOD1 (R13, R15, R19; 13 links). -/
  links : List Nat := []
  /-- Compute dies that have failed (R15; 4 dies). -/
  diesOut : List Nat := []
  /-- IOD0 has failed (R19; 1 bit). -/
  iod0Out : Bool := false
  /-- Repair record (R370; 4,096 x 4 words). -/
  repairs : List (List Word) := []
  /-- Event 0x0B07 has been written (R370; 1 bit). -/
  repairFull : Bool := false
  /-- Bond-store channels that do not answer (R371; channels). -/
  inoperable : List Nat := []
deriving DecidableEq, Repr

/-- State of the weight manifest (R289). -/
inductive ManState where
  | none
  | opened
  | complete
deriving DecidableEq, Repr

/-- A shard rebuild in progress (R285). -/
structure Rebuild where
  /-- Stripe (R285; 24 bits). -/
  shard : Nat := 0
  /-- Members asked (R285; members). -/
  asked : List Nat := []
  /-- Intact shards received, by member (R285; shards). -/
  got : Tbl (List Byte) := []
  /-- Pieces of shards arriving, by member (R315; 4 KiB pieces). -/
  pieces : Tbl (Tbl (List Byte)) := []
  /-- Members unavailable, corrupt or silent (R285; members). -/
  failed : List Nat := []
  /-- Started by the patrol scrub (R298; 1 bit). -/
  scrub : Bool := false
deriving DecidableEq, Repr

/-- Bond store (R275 to R301). -/
structure BondState where
  /-- Manifest (both copies) (R278; up to 64 MiB). -/
  manifest : List Word := []
  /-- STATE (R289; 2 bits). -/
  st : ManState := .none
  /-- Shards installed (R291; stripes). -/
  bitmap : List Nat := []
  /-- WRITTEN, bytes ever programmed (R297; 64 bits). -/
  written : Nat := 0
  /-- Write thresholds crossed (R297; 0 to 2). -/
  crossed : Nat := 0
  /-- Highest VERSION ever sealed (R293; 64 bits). -/
  sealedVersion : Nat := 0
  /-- Some VERSION has been sealed (R293; 1 bit). -/
  everSealed : Bool := false
  /-- Group table: MEMBER_ID with VALID in bit 7 (R284; 8 bytes). -/
  group : List Nat := []
  /-- Rebuilds in progress, the first in service (R285; shards). -/
  rebuilds : List Rebuild := []
  /-- Unrecoverable shards (R287; stripes). -/
  lost : List Nat := []
  /-- Next shard of the patrol scrub (R298; 24 bits). -/
  scrubAt : Nat := 0
  /-- Shards checked in this pass (R300; count). -/
  scrubOk : Nat := 0
  /-- Shards rebuilt in this pass (R300; count). -/
  scrubBad : Nat := 0
  /-- Pages whose check stands failed (R281; pages). -/
  pageBad : List Nat := []
  /-- Members whose SET_TAG differs, as seen in this start (R295; members). -/
  tagsDiffer : List Nat := []
deriving DecidableEq, Repr

/-- An outstanding request of a stream at its source (R320 to R323). -/
structure OutReq where
  /-- SEQ (R320; 32 bits). -/
  seq : Nat := 0
  /-- Header as sent (R313; 8 words). -/
  hdr : List Word := []
  /-- Data (R313; up to 4,096 bytes). -/
  data : List Byte := []
  /-- Times sent (R323; 1 to 4). -/
  sends : Nat := 1
  /-- Source partition; none for firmware (R313; 5 bits). -/
  part : Option Nat := none
  /-- Plane that it entered for (R302, R323; 1 bit). -/
  home : Nat := 0
  /-- Partition and step whose release or mirror record it carries (R352; partition, step). -/
  rel : Option (Nat × Nat) := none
  /-- The whole queue entry, kept with its last fragment for a resend (R317; up to 65,600 bytes). -/
  entry : List Byte := []
deriving DecidableEq, Repr

/-- A stream at its source (R320 to R323, R326). -/
structure SrcStream where
  /-- Plane (R320; 1 bit). -/
  plane : Nat := 0
  /-- Destination package (R320; 7 bits). -/
  dst : Nat := 0
  /-- Job (R320; 16 bits). -/
  job : Nat := 0
  /-- Next SEQ (R320; 32 bits). -/
  next : Nat := 0
  /-- Outstanding requests, oldest first (R321; 256 requests). -/
  outs : List OutReq := []
  /-- Requests held at the source (R321, R323; requests). -/
  waiting : List OutReq := []
  /-- Paused after the fourth send (R323; 1 bit). -/
  paused : Bool := false
  /-- A response has been received and not yet stated (R326; 1 bit). -/
  resultDue : Bool := false
deriving DecidableEq, Repr

/-- A stream at its destination (R320 to R322, R317). -/
structure DstStream where
  /-- Plane (R320; 1 bit). -/
  plane : Nat := 0
  /-- Source package (R320; 7 bits). -/
  src : Nat := 0
  /-- Job (R320; 16 bits). -/
  job : Nat := 0
  /-- Expected SEQ (R321; 32 bits). -/
  expect : Nat := 0
  /-- Requests held ahead: SEQ, header, data (R321; reorder entries). -/
  held : List (Nat × List Word × List Byte) := []
  /-- Expected SEQ when the last ACK was sent (R322; 32 bits). -/
  acked : Nat := 0
  /-- Partial queue entry: header and bytes so far (R317; up to 32,832 bytes). -/
  frag : Option (List Word × List Byte) := none
deriving DecidableEq, Repr

/-- A replay-table entry (R325). -/
structure Replay where
  /-- SRC_PKG (R325; 7 bits). -/
  src : Nat := 0
  /-- TAG (R325; 16 bits). -/
  tag : Nat := 0
  /-- JOB (R325; 16 bits). -/
  job : Nat := 0
  /-- STATUS (R325; 16 bits). -/
  status : Nat := 0
  /-- SEQ (R325; 32 bits). -/
  seq : Nat := 0
  /-- RESULT (R325; 64 bits). -/
  result : Nat := 0
deriving DecidableEq, Repr

/-- STATE of a fabric job (R330). -/
inductive JobState where
  | active
  | draining
  | tornDown
  | unmapped
deriving DecidableEq, Repr

/-- A job entry (R330). -/
structure Job where
  /-- JOB (R330; 16 bits). -/
  job : Nat := 0
  /-- GEN (R330; 8 bits). -/
  gen : Nat := 0
  /-- STATE (R330; 2 bits). -/
  st : JobState := .unmapped
  /-- Member packages, ascending (R330; 128 bits). -/
  members : List Nat := []
  /-- Partitions of each member (R330; 32 bits each). -/
  parts : Tbl Nat := []
deriving DecidableEq, Repr

/-- A management packet whose answer is awaited (R314). -/
structure Mgmt where
  /-- Plane (R314; 1 bit). -/
  plane : Nat := 0
  /-- Destination package (R314; 7 bits). -/
  dst : Nat := 0
  /-- Header (R313; 8 words). -/
  hdr : List Word := []
  /-- Data (R314; bytes). -/
  data : List Byte := []
deriving DecidableEq, Repr

/-- Fabric state of the package (R312 to R331, R337 to R342). -/
structure Fabric where
  /-- Streams at their source (R320; streams). -/
  src : List SrcStream := []
  /-- Streams at their destination (R320; streams). -/
  dst : List DstStream := []
  /-- Replay tables; key 9,216 x plane + entry (R325; 2 x 9,216 entries). -/
  replay : Tbl Replay := []
  /-- Replay slot of each joined package, as the manager gave them (R325; 72 slots). -/
  replaySlots : Tbl Nat := []
  /-- Replay slot of this package (R325; 7 bits). -/
  mySlot : Option Nat := none
  /-- Job entries (R329; 64 entries). -/
  jobs : List Job := []
  /-- Push credits in use towards each package (R218; 256 per package). -/
  credits : Tbl Nat := []
  /-- Queue pushes waiting for a credit: partition, header, data (R218; pushes). -/
  creditWait : List (Nat × List Word × List Byte) := []
  /-- Route tables; key 128 x plane + destination (R318; 1 to 4 ports). -/
  routes : Tbl (List Nat) := []
  /-- Management packets awaiting their answer (R314; packets). -/
  mgmt : List Mgmt := []
  /-- Manager that the package knows (R333; 7 bits). -/
  knownMgr : Option Nat := none
  /-- Standby manager that the package knows (R333; 7 bits). -/
  knownStby : Option Nat := none
  /-- Time of the last echo from the manager or the standby (R337; ns). -/
  echoNs : Nat := 0
  /-- Heartbeat count (R334; 64 bits). -/
  hbCount : Nat := 0
  /-- JOIN was refused: no transit and no further JOIN (R341; 1 bit). -/
  refused : Bool := false
  /-- Fabric.join commands awaiting JOIN_REPLY (R341; requests). -/
  joinFor : List Request := []
  /-- LEAVE has been sent (R342; 1 bit). -/
  leaving : Bool := false
  /-- Next TAG (R313; 16 bits). -/
  tags : Nat := 0
deriving DecidableEq, Repr

/-- A joined package, as the manager and the standby record it (R325, R334, R335). -/
structure JoinedPkg where
  /-- Identifier (R332; 7 bits). -/
  pkg : Nat := 0
  /-- Replay slot (R325; 0 to 71). -/
  slot : Nat := 0
  /-- Last heartbeat on either plane (R335; ns). -/
  seenNs : Nat := 0
  /-- Package state of its last heartbeat (R334; 32 bits). -/
  state : Word := 0
  /-- It was Sealed when it joined (R332; 1 bit). -/
  sealed : Bool := false
  /-- Digest of the JOIN that it was admitted with (R491; 32 bytes). -/
  evid : List Byte := []
deriving DecidableEq, Repr

/-- A change of the manager's state awaiting the standby's echo (R332). -/
structure Change where
  /-- Journal record number (R332; count). -/
  id : Nat := 0
  /-- 1 teardown, 2 job map, 3 join, 4 removal, 5 routes, 6 manager (R332; 1 to 6). -/
  kind : Nat := 0
  /-- Package concerned (R332; 7 bits). -/
  pkg : Nat := 0
  /-- Job concerned (R332; 16 bits). -/
  job : Nat := 0
  /-- Entry (R332; words). -/
  words : List Word := []
deriving DecidableEq, Repr

/-- A teardown in progress, on the manager (R338). -/
structure Td where
  /-- Job (R338; 16 bits). -/
  job : Nat := 0
  /-- Generation (R338; 8 bits). -/
  gen : Nat := 0
  /-- Dead package (R338; 7 bits). -/
  pkg : Nat := 0
  /-- Members that have not acknowledged (R338; packages). -/
  wait : List Nat := []
deriving DecidableEq, Repr

/-- The fabric manager role (R332 to R338, R341, R342). -/
structure Manager where
  /-- This package is the manager (R332; 1 bit). -/
  active : Bool := false
  /-- This package is the standby manager (R332; 1 bit). -/
  standby : Bool := false
  /-- Standby that the manager has named (R332; 7 bits). -/
  stby : Option Nat := none
  /-- Joined packages (R332; 72 packages). -/
  joined : List JoinedPkg := []
  /-- Job tables of the appliance (R332; entries). -/
  jobs : List Job := []
  /-- Changes awaiting the echo (R332; records). -/
  changes : List Change := []
  /-- Next journal record number (R332; count). -/
  nextChange : Nat := 0
  /-- Teardowns in progress (R338; teardowns). -/
  tds : List Td := []
  /-- Job maps awaiting acknowledgement (R330; job, gen, packages). -/
  mapWait : List (Nat × Nat × List Nat) := []
  /-- First JOIN packets held, by package (R341; 4,096 bytes). -/
  joins : Tbl (List Byte) := []
  /-- It has announced itself (R333; 1 bit). -/
  electing : Bool := false
  /-- Lowest identifier heard in the election (R333; 7 bits). -/
  lowest : Option Nat := none
  /-- Planned departures in progress (R342; packages). -/
  leaves : List Nat := []
  /-- Last heartbeat from the manager, on the standby (R336; ns). -/
  mgrSeenNs : Nat := 0
  /-- Destinations reported unreachable (R302; package, plane). -/
  unreachable : List (Nat × Nat) := []
deriving DecidableEq, Repr

/-- Training state of a port (R305). -/
inductive PortState where
  | idle
  | detect
  | equalise
  | verify
  | active
deriving DecidableEq, Repr

/-- A flit kept for replay (R307). -/
structure Flit where
  /-- FSEQ (R304; 12 bits). -/
  fseq : Nat := 0
  /-- Payload (R304; 256 bytes). -/
  payload : List Byte := []
  /-- Times resent (R308; 0 to 8). -/
  resends : Nat := 0
deriving DecidableEq, Repr

/-- A Jeren port (R303 to R311). -/
structure Port where
  /-- Training state (R305; 3 bits). -/
  st : PortState := .idle
  /-- FSEQ of the next data flit (R304; 12 bits). -/
  txSeq : Nat := 0
  /-- FSEQ expected (R307; 12 bits). -/
  rxSeq : Nat := 0
  /-- Replay buffer, oldest first (R307; 1,024 flits). -/
  replay : List Flit := []
  /-- A NAK has been sent and its flit is awaited (R307; 1 bit). -/
  nak : Bool := false
  /-- Payload slots in use at the far end, by virtual channel (R304; 3 x 512 slots). -/
  credits : Tbl Nat := []
  /-- Packets that wait for receive credits, for room in the replay buffer or for a lane: header, data (R304, R307; packets). -/
  txWait : List (List Word × List Byte) := []
  /-- Payload stream received and not yet whole packets (R304; bytes). -/
  rx : List Byte := []
  /-- Faulty lanes (R310; 9 lanes). -/
  faulty : List Nat := []
  /-- Lane position moved onto lane 8 (R310; lane). -/
  spared : Option Nat := none
  /-- Lane 8 is equalising (R310; 1 bit). -/
  sparing : Bool := false
  /-- Four-lane group in use (R310; group). -/
  narrowed : Option Nat := none
  /-- Down until the next cold start (R310; 1 bit). -/
  dead : Bool := false
  /-- Equalisation saved for a fast retrain (R305; 1 bit). -/
  savedEq : Bool := false
  /-- Far end learned in Verify (R305; package, port). -/
  far : Option (Nat × Nat) := none
  /-- Bytes corrected in the current second (R309, R310; bytes per lane). -/
  corrected : Tbl Nat := []
  /-- CRC failures attributed to lanes (R310; lane, ns). -/
  crcFails : List (Nat × Nat) := []
deriving DecidableEq, Repr

/-- Mirror records of a step that the holder has not accepted yet (R355). -/
structure Pending where
  /-- Step (R355; 64 bits). -/
  step : Nat := 0
  /-- Slot updates (R353; updates). -/
  slots : List (Nat × List Word) := []
  /-- Fall-back state record (R353; bytes). -/
  fb : List Byte := []
  /-- RECORDS of its commit mark (R353; 32 bits). -/
  marked : Option Nat := none
  /-- Records received (R354; count). -/
  got : Nat := 0
deriving DecidableEq, Repr

/-- Mirror of one partition of the peer (R353 to R358). -/
structure MirrorPart where
  /-- Last COMMITTED received (R355; 64 bits). -/
  committed : Nat := 0
  /-- Accepted slot state (R355; slot updates). -/
  slots : Tbl (List Word) := []
  /-- Accepted fall-back state (R355; bytes). -/
  fb : List Byte := []
  /-- KV bytes by page: offset, bytes; key (slot x 256 + table) x 2^32 + page (R353; KV bytes). -/
  pages : Tbl (List (Nat × List Byte)) := []
  /-- Carried-state bytes by address (R353; bytes). -/
  carried : List (Nat × List Byte) := []
  /-- Input records (R353; step, unit, offset, bytes). -/
  inputs : List (Nat × Nat × Nat × List Byte) := []
  /-- The step pending (R355; at most one). -/
  pending : List Pending := []
  /-- Pages awaiting a resend (R356; keys of pages). -/
  badPages : List Nat := []
deriving DecidableEq, Repr

/-- Fault continuity (R347 to R364). -/
structure Cont where
  /-- H(P), the holder of this package's standby copy (R349; 7 bits). -/
  holder : Option Nat := none
  /-- Package whose standby copy this one holds (R349; 7 bits). -/
  peer : Option Nat := none
  /-- Standby-pairing job (R349; 16 bits). -/
  pairJob : Option Nat := none
  /-- Partitions whose halves of a failover set are staged (R351; partitions). -/
  setParts : List Nat := []
  /-- The failover set is armed (R351; 1 bit). -/
  armed : Bool := false
  /-- Mirror area (R353; by partition). -/
  mirror : Tbl MirrorPart := []
  /-- The stage runs unmirrored (R354; 1 bit). -/
  unmirrored : Bool := false
  /-- Records sent and awaiting the acknowledgement: partition, step, records (R354; records). -/
  sent : List (Nat × Nat × List (List Byte)) := []
  /-- Pages to send whole with the next commit: partition, slot, table, page (R356; pages). -/
  resend : List (Nat × Nat × Nat × Nat) := []
  /-- Mirror fetches outstanding: partition, slot, table, page (R356; pages). -/
  fetches : List (Nat × Nat × Nat × Nat) := []
  /-- Pieces of the fetch in progress (R357; pieces). -/
  fetched : List (Nat × List Byte) := []
  /-- Failed package whose stage this one took over (R363; 7 bits). -/
  activated : Option Nat := none
  /-- Steps that were uncommitted at a barrier hang of the failed package (R361; partition, step). -/
  hung : List (Nat × Nat) := []
  /-- When the interruption began (R364; ns). -/
  activeNs : Nat := 0
  /-- Steps to be replayed, or replayed and not committed, after a teardown or an activation (R360, R364; partition, step). -/
  replays : List (Nat × Nat) := []
deriving DecidableEq, Repr

/-- Power states (R403, R444). -/
inductive PState where
  | run
  | quayside
  | berth
  | mooring
  | drydock
deriving DecidableEq, Repr

/-- Power, clocks and temperature (R437 to R459). -/
structure Power where
  /-- Compute, HBM and SerDes rails are on (R437, R473; 1 bit). -/
  rails : Bool := false
  /-- Last input voltage sampled (R439; mV). -/
  millivolts : Nat := 0
  /-- How long the input has been outside its window in the same way (R439; us). -/
  outFor : Nat := 0
  /-- 0 inside, 1 outside, 2 beyond 35 or 48 V (R439; 0 to 2). -/
  outKind : Nat := 0
  /-- Cap lowered to 1,200 W (R439; 1 bit). -/
  lowCap : Bool := false
  /-- HM.STATUS.POWER_STATE (R403; 3 bits). -/
  st : PState := .run
  /-- State that a drain leads to (R445; 3 bits). -/
  target : Option PState := none
  /-- AUTO_WAKE (R446; 1 bit). -/
  autoWake : Bool := false
  /-- State.set STATE requests to be answered when the target is reached (R445; requests). -/
  waiting : List Request := []
  /-- CAP_W (R447; 12 bits). -/
  cap : Nat := 3000
  /-- FR_COMPUTE (R447; 9 bits). -/
  frCompute : Nat := 192
  /-- FR_HBM (R447; 9 bits). -/
  frHbm : Nat := 40
  /-- FR_IO (R447; 9 bits). -/
  frIo : Nat := 24
  /-- Clock mode; true is fixed (R441; 1 bit). -/
  mode : Bool := false
  /-- RATIO of fixed mode (R441; 6 bits). -/
  ratio : Nat := 33
  /-- State.set CLOCK requests to be answered when the slew ends (R456; requests). -/
  slewing : List Request := []
deriving DecidableEq, Repr

/-- Clocks, droop and temperature of the dies (R440 to R453). -/
structure Dvfs where
  /-- Current ratio of each die (R440, R441; 6 bits per die). -/
  cur : List Nat := [33, 33, 33, 33]
  /-- Ratio each PLL slews towards (R440; 6 bits per die). -/
  goal : List Nat := [33, 33, 33, 33]
  /-- Stretched cycles in the current span of 10 us (R450; count per cluster). -/
  spans : Tbl Nat := []
  /-- VCORE raise of each die (R450; 5 mV steps per die). -/
  raise : List Nat := [0, 0, 0, 0]
  /-- Hottest reading of each zone: 0 to 3 CD, 4, 5 IOD, 16 to 31 stack (R452; degrees per zone). -/
  temps : Tbl Nat := []
  /-- Zones being throttled (R452; zones). -/
  throttled : List Nat := []
  /-- Issue rate of each throttled zone (R452; eighths per zone). -/
  eighths : Tbl Nat := []
  /-- A thermal trip has switched rails off (R453, R466; 1 bit). -/
  tripped : Bool := false
  /-- Measured package input power (R442; W). -/
  draw : Nat := 0
  /-- Measured draw of compute, HBM and I/O (R448; W). -/
  domain : List Nat := [0, 0, 0]
  /-- Domains throttled for the cap (R448; domains). -/
  capHeld : List Nat := []
  /-- Per-queue energy accounts; key 16 x cluster + queue (R455; 768 x 64 bits). -/
  queueUj : Tbl Nat := []
  /-- Sensors excluded by careen results (R510; sensors). -/
  sensorsOut : List Nat := []
  /-- Zones whose thresholds are lowered by 10 K (R510; zones). -/
  lowered : List Nat := []
deriving DecidableEq, Repr

/-- Contacts of the package (R463 to R466, R473 to R475). -/
structure Pins where
  /-- VIN42 has reached 38.0 V (R473; 1 bit). -/
  vinOk : Bool := false
  /-- Level of PKG_RST_N; false is asserted (low) (R475; 1 bit). -/
  pkgRst : Bool := false
  /-- Levels of PKG_ID[6:0] and SMB_ADDR[2:0] (bits 9 to 7) (R465; 10 bits). -/
  straps : BitVec 10 := 0
  /-- ISL_OK_N is driven low (R466; 1 bit). -/
  islOk : Bool := false
  /-- FAULT_N is driven low (R466; 1 bit). -/
  faultN : Bool := false
  /-- THERMTRIP_N is driven low (R466; 1 bit). -/
  thermN : Bool := false
  /-- Deviation of a root clock that was lost (R443, R458; ppm, saturating). -/
  rootPpm : Nat := 0
  /-- The root clock is present and within 1 % (R443; 1 bit). -/
  rootOk : Bool := true
deriving DecidableEq, Repr

/-- Progress of a start (R473, R477, R484, R516). -/
inductive BootStage where
  | unpowered
  | holdup
  | island
  | rom
  | recovery
  | retired
  | firmware
  | training
  | repairs
  | ready
deriving DecidableEq, Repr

/-- The boot chain (R483 to R486, R514 to R516). -/
structure Boot where
  /-- How far the start has come (R473; record). -/
  stage : BootStage := .unpowered
  /-- Rails up and PLLs locked (R473; 1 bit). -/
  pllOk : Bool := false
  /-- Image of firmware slot A, empty when invalid (R483; up to 64 MiB). -/
  slotA : List Word := []
  /-- Image of firmware slot B, empty when invalid (R483; up to 64 MiB). -/
  slotB : List Word := []
  /-- Preference record: true is slot B (R484; 1 bit). -/
  prefer : Option Bool := none
  /-- Slot booted: true is slot B (R484; 1 bit). -/
  booted : Option Bool := none
  /-- Slot that the ROM rejected, and why (R499; slot, cause). -/
  rejected : Option (Bool × Nat) := none
  /-- Anti-rollback count (R486; 63 fuses). -/
  rollback : Nat := 0
  /-- Dravroth root public key in the ROM mask (R481; 64 bytes). -/
  rootKey : List Byte := []
  /-- Clean-stop mark (R514; 1 bit). -/
  cleanStop : Bool := false
  /-- A shutdown summary with COMPLETE = 1 was written after the previous start (R514; 1 bit). -/
  quickOk : Bool := false
  /-- Type of the current start (R514; 2 bits). -/
  startType : Nat := 0
  /-- Stacks whose stored training record is valid (R515; 16 bits). -/
  trained : List Nat := []
  /-- The current start is a warm restart (R520; 1 bit). -/
  warm : Bool := false
deriving DecidableEq, Repr

/-- An inline firmware write in progress (R497). -/
structure FwWrite where
  /-- Slot (R497; 1 bit). -/
  slotB : Bool := false
  /-- BYTES (R497; 32 bits). -/
  bytes : Nat := 0
  /-- Words received (R497; words). -/
  got : List Word := []
deriving DecidableEq, Repr

/-- Security block (R480 to R497). -/
structure Sec where
  /-- Life-cycle state, as HM.STATUS.LIFECYCLE (R493; 3 bits). -/
  lifecycle : Nat := 0
  /-- HM.SERIAL (R403; 64 bits). -/
  serial : Nat := 0
  /-- HM.IDENT.CODE (R403; 4 bits). -/
  ordering : Nat := 1
  /-- HM.IDENT.STEPPING (R403; 8 bits). -/
  stepping : Nat := 0
  /-- Digest of the boot ROM image (R488; 32 bytes). -/
  romDigest : List Byte := []
  /-- Remaining fuses that measurement 5 covers (R488; bytes). -/
  fuses : List Byte := []
  /-- Fused owner root digest (R481; 32 bytes). -/
  ownerRoot : Option (List Byte) := none
  /-- Owner key table (R482; words). -/
  keyTable : List Word := []
  /-- Identity chain (R487; up to 4,096 bytes). -/
  chain : List Byte := []
  /-- The identity is certified (R494; 1 bit). -/
  certified : Bool := false
  /-- Identity public key of the leaf certificate (R487; 64 bytes). -/
  idKey : List Byte := []
  /-- Nonce of the last lc.set NONCE (R495; 32 bytes). -/
  nonce : Option (List Byte) := none
  /-- Start value drawn at the start (R491; 32 bytes). -/
  startValue : List Byte := []
  /-- Inline firmware write in progress (R497; record). -/
  fw : Option FwWrite := none
  /-- Service is being stopped for UNSEAL, RETURN or RETIRE (R295, R496; target, request). -/
  stopping : Option (Nat × Request) := none
  /-- Steps committed in the drain (R300; count). -/
  stopCommits : Nat := 0
  /-- Steps stopped by the abort flag (R300; count). -/
  stopStopped : Nat := 0
  /-- SPDM on DOE (R489; record). -/
  doe : Spdm := {}
  /-- SPDM on MCTP (R489; record). -/
  mctp : Spdm := {}
deriving DecidableEq, Repr

/-- A careen run in progress (R500, R504). -/
structure CareenRun where
  /-- RUN: 0 shutdown, 1 in-service, 2 engine (R509; 2 bits). -/
  kind : Nat := 0
  /-- RUN_ID (R509; 32 bits). -/
  id : Nat := 0
  /-- Phase of the shutdown run (R504; 0 to 13). -/
  phase : Nat := 0
  /-- Tests of an engine run (R511; bitmap). -/
  tests : Nat := 0
  /-- ELEMENT of an engine run (R511; 32 bits). -/
  element : Nat := 0
  /-- Isolation whose block an in-service run tests, as its repair entry names it (R506; kind, element). -/
  block : Nat × Nat := (0, 0)
  /-- ABORT has been taken (R504; 1 bit). -/
  abort : Bool := false
  /-- Start time (R509; ns). -/
  startNs : Nat := 0
  /-- Records written (R509; count). -/
  records : Nat := 0
  /-- Failures (R509; count). -/
  fails : Nat := 0
  /-- DROPPED (R509; count). -/
  dropped : Nat := 0
  /-- Tests deferred (R509; count). -/
  deferred : Nat := 0
  /-- Peak input draw (R509; W). -/
  peak : Nat := 0
  /-- Elements with a failure reported in the run (R513; elements). -/
  named : List Nat := []
deriving DecidableEq, Repr

/-- Careen self-test (R500 to R511). -/
structure Careen where
  /-- Shutdown or engine run in progress (R500; record). -/
  run : Option CareenRun := none
  /-- Result ring (R509; 4,096 x 8 words). -/
  ring : List (List Word) := []
  /-- Elements whose failures were dropped: taken out whole at the next start (R509; test, element). -/
  dropped : List (Nat × Nat) := []
  /-- Latest summary of each kind (R509; 3 x 16 words). -/
  summaries : Tbl (List Word) := []
  /-- Runs counted from manufacture (R509; 32 bits). -/
  runId : Nat := 0
  /-- Isolated blocks awaiting an in-service test (R506; kind, element). -/
  queue : List (Nat × Nat) := []
  /-- In-service test in progress (R506; record). -/
  inService : Option CareenRun := none
  /-- SHUTDOWN accepted; the run starts after the drain and the departure (R501; 1 bit). -/
  starting : Bool := false
  /-- Bond-store blocks mapped out (R510; die, block). -/
  blocksOut : List (Nat × Nat) := []
  /-- Isolated elements found repairable by their own spares (R510; kind, element). -/
  repairable : List (Nat × Nat) := []
deriving DecidableEq, Repr


/-- Reasons for which a step stops. The manual gives every command of the block an outcome that goes on, so no meaning
stops and the type has no constructor. -/
inductive Fault
deriving DecidableEq, Repr

/-- Reasons for which a command has no meaning. -/
inductive Refusal where
  /-- Raised by an arm of the dispatch whose command has no meaning yet; safe, since nothing is claimed of it. -/
  | notModelled (mnemonic : String)
deriving DecidableEq, Repr

/-- Mailboxes, registers, ports of attachment and the event log: what the host and the sideband see. -/
structure HostSide where
  /-- Harbourmaster registers (R403; record). -/
  hm : Hm := {}
  /-- Event log (R523; record). -/
  log : EventLog := {}
  /-- Mailbox windows; key 0 to 7 PF, 8 + 4 x n + m VF n, 136 sideband (R402, R432; 137 windows). -/
  mbx : Tbl Mailbox := []
  /-- Journal of posted requests not yet taken, oldest first (R410; requests). -/
  journal : List Request := []
  /-- PCI Express endpoint (R400; record). -/
  ep : Endpoint := {}
  /-- Sideband port (R431; record). -/
  sb : Sideband := {}
deriving DecidableEq, Repr

/-- An area of SRAM whose bytes the manual leaves open (the model's own, log 45): first byte, length, and what the free values of
its bytes depend on. -/
structure Loose where
  /-- First byte, in the space of sram (R169; address). -/
  start : Nat := 0
  /-- Length (R169; bytes). -/
  len : Nat := 0
  /-- Step that left the area open (R169; 64 bits). -/
  step : Nat := 0
  /-- Operation that left the area open (R169; 16 bits). -/
  op : Nat := 0
  /-- Partition, image cluster and core of the area, in one number (R169; unit). -/
  unit : Nat := 0
deriving DecidableEq, Repr

/-- The clusters, cores, Chamois units and memories: what the Pilots act on. -/
structure Compute where
  /-- Cores by logical number (R22; 384 cores). -/
  cores : Tbl Core := []
  /-- Clusters (R22; 48 clusters). -/
  clusters : Tbl Cluster := []
  /-- Chamois units by die (R109; 4 units). -/
  chm : Tbl Chamois := []
  /-- Number of the next Chamois probe (R109; count). -/
  probeNo : Nat := 0
  /-- Core and cluster SRAM at flat addresses: core c from c x 2^22, cluster k from 384 x 2^22 + k x 2^24 (R16; 2.25 GiB). -/
  sram : Mem := []
  /-- Areas of SRAM whose bytes the manual leaves open (log 45) (R169; ranges). -/
  loose : List Loose := []
  /-- Partition HBM and the standby region at flat addresses (R237, R238; 384 GiB). -/
  hbm : Mem := []
  /-- Shard bytes of the bond store: stripe s from s x 2^24 (R275, R276; 1 or 2 TiB). -/
  bond : Mem := []
deriving DecidableEq, Repr

/-- The package. -/
structure State where
  /-- Commands that wait, first in, first out (the model's own queue) (the model's own; commands). -/
  pending : List Instr := []
  /-- HM.TIME in nanoseconds (R403; 64 bits). -/
  now : Nat := 0
  /-- Counter that the free values of Config are applied to (the model's own, log 3) (the model's own; count). -/
  free : Nat := 0
  /-- What the block has put out on its links, oldest first (the model's own, log 3) (the model's own; outputs). -/
  out : List Emit := []
  /-- Value returned by the last register read (the model's own, log 3) (the model's own; 32 bits). -/
  bus : Word := 0
  /-- Host and sideband side (R402; record). -/
  host : HostSide := {}
  /-- Partitions (R377; 32 partitions). -/
  parts : Tbl Part := []
  /-- Loaded stage images by handle (R417; 64 images). -/
  images : Tbl Image := []
  /-- Stages that the package holds (R540; stages). -/
  stages : List Stage := []
  /-- Clusters, cores and memories (R22; record). -/
  x : Compute := {}
  /-- Memory tiers (R254; record). -/
  tiers : Tiers := {}
  /-- Elements out of service and the repair record (R370; record). -/
  health : Health := {}
  /-- Bond store (R275; record). -/
  bnd : BondState := {}
  /-- Fabric (R320; record). -/
  fab : Fabric := {}
  /-- Fabric manager role (R332; record). -/
  mgr : Manager := {}
  /-- Jeren ports (R303; 18 ports). -/
  ports : Tbl Port := []
  /-- Fault continuity (R347; record). -/
  cont : Cont := {}
  /-- Power and state ladder (R437; record). -/
  pw : Power := {}
  /-- Clocks, droop and temperature (R440; record). -/
  dv : Dvfs := {}
  /-- Contacts (R463; record). -/
  pins : Pins := {}
  /-- Boot chain (R484; record). -/
  boot : Boot := {}
  /-- Security block (R480; record). -/
  sec : Sec := {}
  /-- Careen self-test (R500; record). -/
  car : Careen := {}
  /-- Package totals of stats.read KIND 3, by position in its order (R427; 64 bits each). -/
  tot : Tbl Nat := []
  /-- ACLK cycle counts of CD0 to CD3 (R527; 4 x 64 bits). -/
  aclk : List Nat := [0, 0, 0, 0]
  /-- Exits from Mooring and Drydock (R527; 64 bits). -/
  warmRestarts : Nat := 0
deriving DecidableEq, Repr

/-- The package right after a cold start: the reset value of every register the manual gives one, and the values that
log entries 1 to 3 and 5 name where it gives none. The queue is empty (log 4). -/
def State.reset : State := {}

end Sys2Proof.Machine
end

