-- ==== Sys2Proof/Machine/Ops.lean ====
section
/-! DEFINITION. The named operations that meanings share: access to the parts of the state, memory, the event log,
interrupts, counters and mailbox replies. -/

namespace Sys2Proof.Machine

/-! Access to the parts of the state. -/

/-- Change the Harbourmaster registers. -/
def modHm (f : Hm → Hm) (s : State) : State := { s with host := { s.host with hm := f s.host.hm } }
/-- Change the event log. -/
def modLog (f : EventLog → EventLog) (s : State) : State := { s with host := { s.host with log := f s.host.log } }
/-- Change the endpoint. -/
def modEp (f : Endpoint → Endpoint) (s : State) : State := { s with host := { s.host with ep := f s.host.ep } }
/-- Change the sideband port. -/
def modSb (f : Sideband → Sideband) (s : State) : State := { s with host := { s.host with sb := f s.host.sb } }
/-- Change the journal of posted requests. -/
def modJournal (f : List Request → List Request) (s : State) : State :=
  { s with host := { s.host with journal := f s.host.journal } }

/-- The table key of a mailbox: 0 to 7 PF, 8 + 4 n + m VF n, 136 the sideband channel. -/
def mbxKey : MbxId → Nat
  | .pf m => m.val
  | .vf n m => 8 + 4 * n.val + m.val
  | .sideband => 136

/-- A mailbox window. -/
def mbxOf (s : State) (m : MbxId) : Mailbox := tgetD s.host.mbx (mbxKey m) {}
/-- Change a mailbox window. -/
def modMbx (m : MbxId) (f : Mailbox → Mailbox) (s : State) : State :=
  { s with host := { s.host with mbx := tset s.host.mbx (mbxKey m) (f (mbxOf s m)) } }

/-- A partition. -/
def partOf (s : State) (p : Nat) : Part := tgetD s.parts p {}
/-- Change a partition. -/
def modPart (p : Nat) (f : Part → Part) (s : State) : State := { s with parts := tset s.parts p (f (partOf s p)) }
/-- Bank 0 or 1 of a partition. -/
def bankOf (q : Part) (flood : Bool) : List Word := if flood then q.cfg.flood else q.cfg.ebb
/-- The active bank of a partition. -/
def activeBank (q : Part) : List Word := bankOf q q.cfg.active
/-- The shadow bank of a partition. -/
def shadowBank (q : Part) : List Word := bankOf q (!q.cfg.active)
/-- Change the banks and state of a partition. -/
def modCfg (p : Nat) (f : PartCfg → PartCfg) (s : State) : State := modPart p (fun q => { q with cfg := f q.cfg }) s
/-- Change the steps of a partition. -/
def modRun (p : Nat) (f : PartRun → PartRun) (s : State) : State := modPart p (fun q => { q with run := f q.run }) s
/-- Change the statistics of a partition. -/
def modStat (p : Nat) (f : PartStat → PartStat) (s : State) : State := modPart p (fun q => { q with stat := f q.stat }) s
/-- Change the key-value cache of a partition. -/
def modKv (p : Nat) (f : Kv → Kv) (s : State) : State := modPart p (fun q => { q with kv := f q.kv }) s
/-- Change the expert exchange of a partition. -/
def modEx (p : Nat) (f : PartEx → PartEx) (s : State) : State := modPart p (fun q => { q with ex := f q.ex }) s
/-- Change the input journal of a partition. -/
def modJr (p : Nat) (f : PartJr → PartJr) (s : State) : State := modPart p (fun q => { q with jr := f q.jr }) s
/-- Change the fall-back state of a partition. -/
def modFb (p : Nat) (f : Fallback → Fallback) (s : State) : State := modPart p (fun q => { q with fb := f q.fb }) s

/-- A logical cluster. -/
def clusterOf (s : State) (c : Nat) : Cluster := tgetD s.x.clusters c {}
/-- Change a cluster. -/
def modCluster (c : Nat) (f : Cluster → Cluster) (s : State) : State :=
  { s with x := { s.x with clusters := tset s.x.clusters c (f (clusterOf s c)) } }
/-- Key of a core of a cluster. -/
def coreKey (cluster core : Nat) : Nat := 8 * cluster + core
/-- A logical core. -/
def coreOf (s : State) (n : Nat) : Core := tgetD s.x.cores n {}
/-- Change a core. -/
def modCore (n : Nat) (f : Core → Core) (s : State) : State :=
  { s with x := { s.x with cores := tset s.x.cores n (f (coreOf s n)) } }
/-- A Chamois unit. -/
def chmOf (s : State) (d : Nat) : Chamois := tgetD s.x.chm d {}
/-- Change a Chamois unit. -/
def modChm (d : Nat) (f : Chamois → Chamois) (s : State) : State :=
  { s with x := { s.x with chm := tset s.x.chm d (f (chmOf s d)) } }
/-- A Jeren port. -/
def portOf (s : State) (p : Nat) : Port := tgetD s.ports p {}
/-- Change a Jeren port. -/
def modPort (p : Nat) (f : Port → Port) (s : State) : State := { s with ports := tset s.ports p (f (portOf s p)) }
/-- Change the memory tiers. -/
def modTiers (f : Tiers → Tiers) (s : State) : State := { s with tiers := f s.tiers }
/-- Change the health record. -/
def modHealth (f : Health → Health) (s : State) : State := { s with health := f s.health }
/-- Change the bond store. -/
def modBnd (f : BondState → BondState) (s : State) : State := { s with bnd := f s.bnd }
/-- Change the fabric state. -/
def modFab (f : Fabric → Fabric) (s : State) : State := { s with fab := f s.fab }
/-- Change the manager role. -/
def modMgr (f : Manager → Manager) (s : State) : State := { s with mgr := f s.mgr }
/-- Change the continuity state. -/
def modCont (f : Cont → Cont) (s : State) : State := { s with cont := f s.cont }
/-- Change the power state. -/
def modPw (f : Power → Power) (s : State) : State := { s with pw := f s.pw }
/-- Change clocks and temperature. -/
def modDv (f : Dvfs → Dvfs) (s : State) : State := { s with dv := f s.dv }
/-- Change the contacts. -/
def modPins (f : Pins → Pins) (s : State) : State := { s with pins := f s.pins }
/-- Change the boot chain. -/
def modBoot (f : Boot → Boot) (s : State) : State := { s with boot := f s.boot }
/-- Change the security block. -/
def modSec (f : Sec → Sec) (s : State) : State := { s with sec := f s.sec }
/-- Change the careen state. -/
def modCar (f : Careen → Careen) (s : State) : State := { s with car := f s.car }

/-- Put something out on a link. -/
def emit (e : Emit) (s : State) : State := { s with out := s.out ++ [e] }
/-- Draw the next free value: the counter before, and the state with the counter advanced. -/
def draw (s : State) : Nat × State := (s.free, { s with free := s.free + 1 })

/-! Memory: bytes at flat addresses, sparse, in rising order, unlisted bytes 0 (log 2). -/

/-- The byte that an unlisted address reads as. -/
def emptyByte : Byte := 0

/-- Read one byte. -/
def memGet : Mem → Nat → Byte
  | [], _ => emptyByte
  | (k, b) :: rest, a => if k = a then b else if a < k then emptyByte else memGet rest a

/-- Put a listed byte in front unless it is what an unlisted address reads as. -/
def memCons (a : Nat) (b : Byte) (rest : Mem) : Mem := if b = emptyByte then rest else (a, b) :: rest

/-- Write one byte, keeping the canonical form. -/
def memPut : Mem → Nat → Byte → Mem
  | [], a, b => memCons a b []
  | (k, c) :: rest, a, b =>
    if a < k then memCons a b ((k, c) :: rest)
    else if a = k then memCons a b rest
    else (k, c) :: memPut rest a b

/-- Read `n` bytes. -/
def memRead (m : Mem) (a n : Nat) : List Byte := (List.range n).map fun i => memGet m (a + i)

/-- Write bytes at rising addresses. -/
def memWrite : Mem → Nat → List Byte → Mem
  | m, _, [] => m
  | m, a, b :: bs => memWrite (memPut m a b) (a + 1) bs

/-- Clear `n` bytes to what unlisted addresses read as. -/
def memClear (m : Mem) (a n : Nat) : Mem := m.filter fun c => decide (c.1 < a) || decide (a + n ≤ c.1)

/-- The canonical form: addresses strictly rising, no entry equal to an unlisted byte. -/
def memWf : Mem → Bool
  | [] => true
  | [(_, b)] => b != emptyByte
  | (a, b) :: (a', b') :: rest => decide (a < a') && b != emptyByte && memWf ((a', b') :: rest)

/-- Flat address of byte `off` of core SRAM. -/
def coreAddr (core off : Nat) : Nat := core * 2 ^ 22 + off
/-- Flat address of byte `off` of cluster SRAM. -/
def clusterAddr (cluster off : Nat) : Nat := 384 * 2 ^ 22 + cluster * 2 ^ 24 + off

/-- Take `n` bytes at `a` out of an open area. -/
def cutLoose (a n : Nat) (r : Loose) : List Loose :=
  ([{ r with len := min r.len (a - r.start) },
    { r with start := max r.start (a + n), len := r.start + r.len - max r.start (a + n) }]).filter fun x => x.len != 0
/-- Write SRAM bytes. -/
def sramWrite (a : Nat) (bs : List Byte) (s : State) : State :=
  { s with x := { s.x with sram := memWrite s.x.sram a bs, loose := s.x.loose.flatMap (cutLoose a bs.length) } }
/-- A byte of SRAM: a free value within an area that the manual leaves open, the same whenever the step runs (R154; log 45). -/
def sramByte (s : State) (a : Nat) : Byte :=
  match s.x.loose.find? fun r => decide (r.start ≤ a ∧ a < r.start + r.len) with
  | some r => Config.openByte r.step r.op (r.unit * 2 ^ 22 + a % 2 ^ 22)
  | none => memGet s.x.sram a
/-- Read SRAM bytes. -/
def sramRead (s : State) (a n : Nat) : List Byte := (List.range n).map fun i => sramByte s (a + i)
/-- The manual leaves the bytes of an area of SRAM open from here on. -/
def sramLoosen (r : Loose) (s : State) : State :=
  { s with x := { s.x with loose := s.x.loose.flatMap (cutLoose r.start r.len) ++ [r] } }
/-- Write HBM bytes at a flat address. -/
def hbmWriteFlat (a : Nat) (bs : List Byte) (s : State) : State := { s with x := { s.x with hbm := memWrite s.x.hbm a bs } }
/-- Read HBM bytes at a flat address. -/
def hbmReadFlat (s : State) (a n : Nat) : List Byte := memRead s.x.hbm a n
/-- An amount of n units, with `per` units to the MiB, as a report gives it in MiB (log 28). -/
def mibOf (n per : Nat) : Nat := n / per + (if n % per ≠ 0 ∧ Config.mibUp then 1 else 0)
/-- Write bond-store bytes at a flat address. -/
def bondWriteFlat (a : Nat) (bs : List Byte) (s : State) : State := { s with x := { s.x with bond := memWrite s.x.bond a bs } }

/-! Interrupts (R406). -/

/-- Raise an MSI-X vector of function `fn` (32 is the PF), subject to its mask bit. The message is a write of the function:
none leaves while the link is down or Bus Master Enable is clear (PRESUMED, log 80). -/
def raiseMsix (fn v : Nat) (s : State) : State :=
  let k := 1024 * fn + v
  if ¬ s.host.ep.linkUp then s
  else if bitOf (tgetD s.host.ep.msix k {}).ctrl 0 then modEp (fun e => { e with pending := k :: e.pending.erase k }) s
  else if fn ∈ s.host.ep.bme then emit (.msix fn v) s
  else s

/-- Set bits of HM.INT_STATUS; each bit that was clear and is enabled raises its vector, 8 plus its number (R403, R406). -/
def setInt (bit : Nat) (s : State) : State :=
  let was := s.host.hm.intStatus.getLsbD bit
  let s1 := modHm (fun h => { h with intStatus := h.intStatus ||| (1#4 <<< bit) }) s
  if !was && s.host.hm.intEnable.getLsbD bit then raiseMsix 32 (8 + bit) s1 else s1

/-- Set a bit of MBX.VF_EVENT; a bit that was clear and is enabled raises vector 4 of the function (R405, R406). -/
def setVfEvent (p bit : Nat) (s : State) : State :=
  let q := partOf s p
  let s1 := modPart p (fun q => { q with vfEvent := q.vfEvent ||| (1#4 <<< bit) }) s
  if !q.vfEvent.getLsbD bit && q.vfEventEn.getLsbD bit then raiseMsix p 4 s1 else s1

/-- Set a bit of HM.FAULT_STICKY. -/
def setSticky (bit : Nat) (s : State) : State :=
  modHm (fun h => { h with faultSticky := h.faultSticky ||| (1#4 <<< bit) }) s

/-! The event log (R428, R523 to R526). -/

/-- Append to a ring of `n`; tells whether the oldest was overwritten. -/
def ringPush {α : Type} (n : Nat) (xs : List α) (x : α) : List α × Bool :=
  if xs.length < n then (xs ++ [x], false) else (xs.drop 1 ++ [x], true)

/-- Append one record, whatever the rate cap says. -/
def logWrite (code : Nat) (fault : Bool) (payload : List Word) (s : State) : State :=
  let l := s.host.log
  let r : LogRec := { code, fault, seq := l.coldStarts * 2 ^ 48 + l.next, time := s.now, payload }
  let m := ringPush 8192 l.main r
  let f := if fault ∧ s.boot.stage ≠ .holdup then ringPush 512 l.prot r else (l.prot, false)
  let s1 := modLog (fun l => { l with
      main := m.1, prot := f.1, next := l.next + 1, inSecond := l.inSecond + 1
      overwritten := l.overwritten + b2n m.2, protOverwritten := l.protOverwritten + b2n f.2 }) s
  let s2 := setInt 0 s1
  if fault then setInt 1 s2 else s2

/-- The identifier that stands for no step (R273). -/
def noStep : Nat := 0xFFFFFFFFFFFFFFFF
/-- The OP_INDEX that stands for no single operation (R129). -/
def noOp : Nat := 0xFFFFFFFF

/-- Payload words of R129: partition, OP_INDEX, step identifier, words 4 and 5. -/
def payloadOf (part op step w4 w5 : Nat) : List Word := [w32 part, w32 op] ++ w64 step ++ [w32 w4, w32 w5]

/-- Write an event under the rate cap of R526: within a second a service-class record beyond 100,000 is dropped, and the
first drop writes event 0x1202. -/
def logEvent (code : Nat) (fault : Bool) (part op step w4 w5 : Nat) (s : State) : State :=
  if fault || decide (s.host.log.inSecond < 100000) then logWrite code fault (payloadOf part op step w4 w5) s
  else
    let s1 := modLog (fun l => { l with rateDropped := l.rateDropped + 1, droppedNow := l.droppedNow + 1 }) s
    if s.host.log.droppedNow = 0 then logWrite 0x1202 false (payloadOf 0 noOp noStep s.host.log.droppedBefore 0) s1 else s1

/-- An event that concerns no partition (R273). -/
def logPkg (code : Nat) (fault : Bool) (w4 w5 : Nat) (s : State) : State := logEvent code fault 0 noOp noStep w4 w5 s

/-! Counters. -/

/-- Add to a package total (R301, R346, R376, R436, R459), modulo 2^64 (R522). -/
def totAdd (k n : Nat) (s : State) : State := { s with tot := tset s.tot k ((tgetD s.tot k 0 + n) % 2 ^ 64) }

/-- Add to a partition counter: the per-step count saturates at 32 bits, the total counts modulo 2^64 (R68, R522). -/
def cntAdd (p k n : Nat) (s : State) : State :=
  modStat p (fun t => { t with
    cnt := tset t.cnt k (satAdd32 (tgetD t.cnt k 0) n)
    cum := tset t.cum k ((tgetD t.cum k 0 + n) % 2 ^ 64) }) s

/-- Add to a cumulative-only counter (R399). -/
def cumAdd (p k n : Nat) (s : State) : State :=
  modStat p (fun t => { t with cum := tset t.cum k ((tgetD t.cum k 0 + n) % 2 ^ 64) }) s

/-- Positions of the partition counters in KIND 1 of stats.read (R427): the first of each group. -/
def cFormat : Nat := 0
def cArray : Nat := 5
def cChamois : Nat := 11
def cStage : Nat := 24
def cAttend : Nat := 31
def cExpert : Nat := 43
/-- stall_ns of cause c is at `cStall + c - 1`. -/
def cStall : Nat := 56
def cMemory : Nat := 74
def cJeren : Nat := 85
/-- Group 10: swap_drain_ns, warm_buffers, power_borrowed_uj, then the cumulative-only two. -/
def cConfig : Nat := 92
def cEnergy : Nat := 97
/-- Number of partition counters in KIND 1. -/
def nCounters : Nat := 102

/-- Positions of the package totals in KIND 3 of stats.read (R427): the first of each group. -/
def tMemory : Nat := 0
def tBond : Nat := 4
def tFlitsTx : Nat := 14
def tFlitsRx : Nat := 32
def tFec : Nat := 50
def tCrc : Nat := 212
def tRetries : Nat := 230
def tDowns : Nat := 248
def tLanes : Nat := 266
def tCont : Nat := 273
def tHost : Nat := 281
def tPower : Nat := 289
/-- Number of package totals in KIND 3. -/
def nTotals : Nat := 302

/-! The Harbourmaster journal (R365). -/

/-- The journal reaches a standby instance: there is one, and the IOD0-IOD1 link is up (R366, R367). -/
def hmFollowed (s : State) : Bool := !s.host.hm.instOut && !(decide (12 ∈ s.health.links))
/-- The active instance writes an entry to its journal. -/
def hmJournal (words : List Word) (s : State) : State := if hmFollowed s then emit (.hmJournal words) s else s

/-! Requests and replies (R408 to R413). -/

/-- Argument word i of a request. -/
def argOf (r : Request) (i : Nat) : Word := wordAt r.words (2 + i)
/-- COMMAND of a request. -/
def cmdOf (r : Request) : Nat := fld (wordAt r.words 0) 0 16
/-- TAG of a request. -/
def tagOf (r : Request) : Nat := fld (wordAt r.words 0) 16 16
/-- PARTITION of a request. -/
def partArg (r : Request) : Nat := fld (wordAt r.words 1) 0 5
/-- SUB of a request of a command that has one. -/
def subOf (r : Request) : Nat := fld (argOf r 0) 0 4

/-- The words of a reply (R413). -/
def replyWords (r : Request) (status : Nat) (body : List Word) : List Word :=
  w32 (status + tagOf r * 2 ^ 16) :: w32 (cmdOf r + partArg r * 2 ^ 16) :: body

/-- The function of a mailbox in MSI-X and DMA: 0 to 31 VF, 32 PF. -/
def mbxFn : MbxId → Nat
  | .vf n _ => n.val
  | _ => 32

/-- Announce a reply: the vector of the mailbox, or the message on the sideband. -/
def announce (m : MbxId) (ws : List Word) (s : State) : State :=
  match m with
  | .pf k => raiseMsix 32 k.val s
  | .vf n k => raiseMsix n.val k.val s
  | .sideband => emit (.smbus (bytesOfWords ws)) s

/-- The active instance reaches the mailboxes and the sideband port, which are on IOD0: IOD0 works, and the instance is on it or
the IOD0-IOD1 link carries its accesses (R17, R19). -/
def iod0Reach (s : State) : Bool := !s.health.iod0Out && !(s.host.hm.hmInst && decide (12 ∈ s.health.links))
/-- Give a reply: it is journaled, placed in MBX.RSP, and announced; the sideband channel is then free again (R409, R432).
A refusal counts under mbx_refused, a reply beyond its bound under mbx_late. A reply to a mailbox whose function was reset is discarded (R407), and one that the
instance cannot place is lost (R19). -/
def reply (r : Request) (status : Nat) (body : List Word) (s : State) : State :=
  let ws := replyWords r status body
  let late : Bool := match r.due with
    | some t => decide (t < s.now)
    | none => false
  let s1 := if status = 0 then s else totAdd (tHost + 1) 1 s
  let s2 := hmJournal ws (if late then totAdd (tHost + 2) 1 s1 else s1)
  if r.discard ∨ ¬ iod0Reach s then s2
  else
    announce r.mbx ws (modMbx r.mbx (fun b => { b with
      rsp := ws ++ b.rsp.drop ws.length
      rspBytes := 4 * ws.length
      st := if r.mbx = .sideband then .free else .answered }) s2)

/-- The request at the head of the journal, when it was posted on mailbox `m` and carries command `cmd`. -/
def headReq (s : State) (m : MbxId) (cmd : Nat) : Option Request :=
  match s.host.journal with
  | r :: _ => if r.mbx = m ∧ cmdOf r = cmd ∧ ¬ s.host.hm.gone then some r else none
  | [] => none

/-- Take the head of the journal: the firmware runs `f` on it. Where the head is another request, nothing happens: requests
take effect in journal order (R410, log 6). -/
def takeCmd (m : MbxId) (cmd : Nat) (f : Request → State → State) (s : State) : State :=
  match headReq s m cmd with
  | none => s
  | some r => f r (modJournal (fun j => j.drop 1) s)

/-- As `takeCmd`, for a command that the field SUB of argument word 0 tells apart. -/
def takeSub (m : MbxId) (cmd sub : Nat) (f : Request → State → State) (s : State) : State :=
  match headReq s m cmd with
  | none => s
  | some r => if subOf r = sub then f r (modJournal (fun j => j.drop 1) s) else s

/-- Whether the package can issue DMA for a function: its Bus Master Enable is set and the link is up (R429). -/
def dmaOpen (s : State) (fn : Nat) : Bool := s.host.ep.linkUp && decide (fn ∈ s.host.ep.bme)
/-- The function that a command's DMA is issued for: that of the partition it serves, for a step; else the PF (R429). -/
def dmaFn (r : Request) : Nat := if cmdOf r = 0x0401 then partArg r else 32

/-- A command whose DMA read is not issued, or fails: status 0x0D08, and event 0x0D01 when the read was issued (R429). -/
def dmaFailed (r : Request) (s : State) : State :=
  if dmaOpen s (dmaFn r) then reply r 0x0D08 [] (logPkg 0x0D01 false (dmaFn r) (cmdOf r) (totAdd (tHost + 6) 1 s))
  else reply r 0x0D08 [] s

/-- Count DMA read bytes in 64-byte units. -/
def countRead (n : Nat) (s : State) : State := totAdd (tHost + 4) (cdiv n 64) s
/-- Count DMA written bytes in 64-byte units. -/
def countWrite (n : Nat) (s : State) : State := totAdd (tHost + 5) (cdiv n 64) s

/-- A DMA write to host memory. -/
def hostWrite (fn addr : Nat) (bs : List Byte) (s : State) : State :=
  if bs = [] then s else emit (.hostWrite fn addr bs) (countWrite bs.length s)

/-- Every bit of word i outside the given fields is zero: `ok` lists (word, lowest bit, width) of the named fields. -/
def wordClear (ws : List Word) (ok : List (Nat × Nat × Nat)) (i : Nat) : Bool :=
  let mask := (ok.filter fun f => f.1 = i).foldl (fun m f => m ||| ((BitVec.ofNat 32 (2 ^ f.2.2 - 1)) <<< f.2.1)) 0#32
  wordAt ws i &&& ~~~ mask = 0
/-- Every bit of words `lo` to `hi - 1` outside the given fields is zero; a word with no entry is reserved whole. -/
def reservedOk (ws : List Word) (lo hi : Nat) (ok : List (Nat × Nat × Nat)) : Bool :=
  (List.range (hi - lo)).all fun j => wordClear ws ok (lo + j)

/-- A check of words: whether it passes, the reason for which it refuses, and the word that breaks it. -/
abbrev Check := Bool × Nat × Nat
/-- Reason and word of the first check that fails; reason 0 when all pass. -/
def firstBad (cs : List Check) : Nat × Nat := ((cs.find? fun c => !c.1).map fun c => c.2).getD (0, 0)
/-- The checks of the reserved fields of words `lo` to `hi - 1` (R9). -/
def reservedChecks (ws : List Word) (lo hi : Nat) (ok : List (Nat × Nat × Nat)) : List Check :=
  (List.range (hi - lo)).map fun j => (wordClear ws ok (lo + j), 1, lo + j)

end Sys2Proof.Machine
end

