-- ==== Sys2Proof/Machine/Host.lean ====
section
/-! DEFINITION. The host interface: registers, mailboxes and MSI-X tables (R400 to R415), and the reading of requests. -/

namespace Sys2Proof.Machine

/-! What a request may hold (R412, R414). -/

/-- The fields of the configuration record of R380: (record word, lowest bit, width). -/
def recordFields : List (Nat × Nat × Nat) :=
  [(0, 0, 5), (1, 0, 20), (2, 0, 32), (3, 0, 16), (4, 0, 32), (5, 0, 32), (6, 0, 16), (7, 0, 9), (8, 0, 16), (9, 0, 5),
   (9, 8, 4)] ++ (List.range 20).map (fun i => (10 + i, 0, 32)) ++
  [(30, 0, 24), (31, 0, 24), (32, 0, 24), (33, 0, 24), (34, 0, 32), (35, 0, 9), (38, 0, 8)] ++
  ((List.range 12).flatMap fun i => (List.range 4).flatMap fun k => [(40 + i, 8 * k, 6), (40 + i, 8 * k + 7, 1)]) ++
  [(52, 0, 24)]

/-- The whole words `lo` to `lo + n - 1` as fields. -/
def wholeWords (lo n : Nat) : List (Nat × Nat × Nat) := (List.range n).map fun i => (lo + i, 0, 32)

/-- Arguments of a command: how many argument words it has, and their named fields; none for a SUB that does not exist. -/
def argSpec (r : Request) : Option (Nat × List (Nat × Nat × Nat)) :=
  let sub := subOf r
  match cmdOf r with
  | 0x0101 => some (3, [(0, 0, 32), (1, 0, 32), (2, 0, 24)])
  | 0x0102 => some (0, [])
  | 0x0201 => some (4, [(0, 0, 32), (1, 0, 32), (2, 0, 32), (3, 0, 1)])
  | 0x0202 => some (1, [(0, 0, 6)])
  | 0x0301 => some (57, (0, 0, 2) :: recordFields.map fun f => (1 + f.1, f.2.1, f.2.2))
  | 0x0302 => some (2, [(0, 0, 32), (1, 0, 1)])
  | 0x0303 => some (3, wholeWords 0 3)
  | 0x0304 => some (1, [(0, 0, 2)])
  | 0x0401 => some (13, [(0, 0, 32), (1, 0, 32), (2, 0, 21)] ++ wholeWords 3 10)
  | 0x0402 => some (2, wholeWords 0 2)
  | 0x0403 => some (2, wholeWords 0 2)
  | 0x0501 => some (2, [(0, 0, 32), (1, 0, 1)])
  | 0x0601 => if fld (argOf r 0) 0 3 = 7 then none else some (4, [(0, 0, 3), (1, 0, 32), (2, 0, 32), (3, 0, 16)])
  | 0x0602 => some (4, [(0, 0, 1), (1, 0, 32), (2, 0, 32), (3, 0, 3)])
  | 0x0701 => match sub with
    | 1 => some (2, [(0, 0, 4), (1, 0, 3), (1, 8, 1)])
    | 2 => some (2, [(0, 0, 4), (1, 0, 12)])
    | 3 => some (3, [(0, 0, 4), (1, 0, 9), (1, 16, 9), (2, 0, 9)])
    | 4 => some (2, [(0, 0, 4), (1, 0, 1), (1, 8, 6)])
    | 5 => some (1, [(0, 0, 4)])
    | 6 => some (2, [(0, 0, 4), (1, 0, 6)])
    | _ => none
  | 0x0801 => match sub with
    | 1 => some (2, [(0, 0, 4), (1, 0, 4)])
    | 2 => some (9, (0, 0, 4) :: wholeWords 1 8)
    | 3 => some (2, [(0, 0, 4), (1, 0, 12)])
    | _ => none
  | 0x0802 => match sub with
    | 1 => some (1, [(0, 0, 4)])
    | 2 => some (9, (0, 0, 4) :: wholeWords 1 8)
    | 3 => some (1, [(0, 0, 4)])
    | 4 => some (33, (0, 0, 4) :: (0, 8, 1) :: wholeWords 1 32)
    | 5 => some (33, (0, 0, 4) :: (0, 8, 1) :: wholeWords 1 32)
    | 6 => some (1, (0, 0, 4) :: (0, 8, 1) :: wholeWords 1 32)
    | 7 => some (4, (0, 0, 4) :: wholeWords 1 3)
    | 8 => some (5, [(0, 0, 4), (1, 0, 2), (2, 0, 32), (3, 0, 32), (4, 0, 32)])
    | 9 => some (2, [(0, 0, 4), (1, 0, 1)])
    | 10 => some (1, [(0, 0, 4)])
    | 11 => some (2 + fld (argOf r 0) 16 16 / 4, (0, 0, 4) :: (0, 16, 16) :: wholeWords 1 57)
    | _ => none
  | 0x0901 => match sub with
    | 1 => some (4, (0, 0, 4) :: wholeWords 1 3)
    | 2 => some (5, (0, 0, 4) :: (1, 0, 24) :: wholeWords 2 3)
    | 3 => some (1, [(0, 0, 4)])
    | 4 => some (1, [(0, 0, 4)])
    | 5 => some (1, [(0, 0, 4)])
    | 6 => some (9, (0, 0, 4) :: (List.range 8).map fun i => (1 + i, 0, 8))
    | _ => none
  | 0x0A01 => match sub with
    | 1 => some (2, [(0, 0, 4), (1, 0, 2)])
    | 2 => some (2, [(0, 0, 4), (1, 0, 12)])
    | 3 => some (1, [(0, 0, 4)])
    | 4 => some (3, [(0, 0, 4), (1, 1, 12), (2, 0, 32)])
    | 5 => some (1, [(0, 0, 4)])
    | 6 => some (1, [(0, 0, 4)])
    | _ => none
  | 0x0B01 => some (0, [])
  | _ => some (0, [])

/-- The commands of R414. -/
def commandCodes : List Nat :=
  [0x0101, 0x0102, 0x0201, 0x0202, 0x0301, 0x0302, 0x0303, 0x0304, 0x0401, 0x0402, 0x0403, 0x0501, 0x0601, 0x0602,
   0x0701, 0x0801, 0x0802, 0x0901, 0x0A01, 0x0B01]

/-- The commands that a virtual function may post (R414). -/
def vfCommands : List Nat := [0x0101, 0x0102, 0x0401, 0x0402, 0x0403, 0x0501, 0x0601]
/-- The commands that the physical function may post: all but part.open (R414). -/
def pfCommands : List Nat := commandCodes.filter (· != 0x0101)
/-- The commands that the sideband may post (R414). -/
def sidebandCommands : List Nat := [0x0601, 0x0602, 0x0701, 0x0801, 0x0A01, 0x0B01]
/-- The commands that act on the package, for which PARTITION is zero on the PF (R412). -/
def packageCommands : List Nat := [0x0201, 0x0202, 0x0602, 0x0701, 0x0801, 0x0802, 0x0901, 0x0A01, 0x0B01]
/-- The commands answered while the package is not ready or has failed (R415). -/
def alwaysCommands : List Nat := [0x0601, 0x0602, 0x0701, 0x0801, 0x0A01]

/-- Whether a request is answered while a shutdown or engine careen run is in progress (R502). -/
def careenAnswers (r : Request) : Bool :=
  decide (cmdOf r ∈ [0x0601, 0x0602, 0x0801]) || (cmdOf r == 0x0A01 && decide (subOf r ∈ [1, 2, 5]))

/-- The functions check of R414 and R432: the status of a breach, or 0. -/
def functionStatus (r : Request) : Nat :=
  let c := cmdOf r
  match r.mbx with
  | .pf _ => if c ∈ pfCommands then 0 else 0x0C03
  | .vf _ m =>
    if ¬ c ∈ vfCommands then 0x0C03
    else if c = 0x0601 ∧ (fld (argOf r 0) 0 3 = 3 ∨ fld (argOf r 0) 0 3 = 6) then 0x0C03
    else if m.val = 0 ∧ ¬ (c = 0x0402 ∨ c = 0x0403) then 0x0D04
    else if m.val ≠ 0 ∧ c = 0x0403 then 0x0D04
    else 0
  | .sideband => if c ∈ sidebandCommands then 0 else 0x0C03

/-- The PARTITION check of R412: the status of a breach, or 0. -/
def partitionStatus (r : Request) : Nat :=
  match r.mbx with
  | .vf n _ => if partArg r = n.val then 0 else 0x0D05
  | _ => if cmdOf r ∈ packageCommands ∧ partArg r ≠ 0 then 0x0D05 else 0

/-- The argument checks of R412 and R414: the status of a breach, or 0. Words beyond a command's arguments but within the
posted length are reserved (log 7). -/
def argumentStatus (r : Request) : Nat :=
  match argSpec r with
  | none => 0x0D02
  | some (n, fs) =>
    if r.bytes < 4 * (2 + n) then 0x0D03
    else if fld (wordAt r.words 1) 5 27 = 0 ∧ reservedOk (r.words.drop 2) 0 (r.bytes / 4 - 2) fs then 0 else 0x0D02

/-- What the boot ROM takes in boot recovery: on the sideband, the inline FW_WRITE, FW_DATA and FW_PREFER (R485). -/
def recoveryTakes (r : Request) : Bool :=
  r.mbx == .sideband && cmdOf r == 0x0802 && (subOf r == 9 || subOf r == 11 || (subOf r == 8 && bitOf (argOf r 1) 1))
/-- What a Retired package answers (R493). -/
def retiredTakes (r : Request) : Bool := decide (cmdOf r ∈ [0x0601, 0x0602, 0x0801, 0x0A01])
/-- The status with which a request is turned away when it is posted, or 0 when it goes to the firmware. The order of the
checks is the model's (log 7). -/
def postStatus (s : State) (r : Request) : Nat :=
  if r.bytes < 8 ∨ 256 < r.bytes ∨ r.bytes % 4 ≠ 0 then 0x0D03
  else if s.boot.stage = .recovery then (if recoveryTakes r then argumentStatus r else 0x0D06)
  else if s.boot.stage = .retired ∧ ¬ retiredTakes r then 0x0D06
  else if ¬ cmdOf r ∈ commandCodes then 0x0D01
  else if functionStatus r ≠ 0 then functionStatus r
  else if partitionStatus r ≠ 0 then partitionStatus r
  else if argumentStatus r ≠ 0 then argumentStatus r
  else if (¬ s.host.hm.ready ∨ s.host.hm.failed) ∧ ¬ cmdOf r ∈ alwaysCommands then 0x0D06
  else if s.car.run.isSome ∧ careenAnswers r = false then 0x1102
  else 0

/-- Bound of a reply in nanoseconds, where it is a fixed time after the request (R414, R417, R446, R456, R492, R497, R511). -/
def replyBound (s : State) (r : Request) : Option Nat :=
  match cmdOf r with
  | 0x0201 => some (1000000 + (argOf r 2).toNat / 4)
  | 0x0301 => some 1000000
  | 0x0401 => some (30000 + ((argOf r 7).toNat + 16 * fld (argOf r 2) 0 16) / 50 +
      (match s.pw.st with
        | .berth => 11000
        | .mooring => 101000
        | _ => 0))
  | 0x0501 | 0x0B01 => none
  | 0x0601 | 0x0602 | 0x0A01 => some 50000
  | 0x0701 => match subOf r with
    | 1 => none
    | 2 | 3 => some 50000
    | 4 => some 40000
    | _ => some 25000
  | 0x0801 => some (if subOf r = 2 then 5000000 else 25000)
  | 0x0802 => match subOf r with
    | 8 => some (5000000 + (if bitOf (argOf r 1) 1 then 0 else (argOf r 4).toNat / 2))
    | _ => none
  | 0x0901 => some (if subOf r = 2 then 2000000 + (argOf r 4).toNat / 10 else 25000000)
  | _ => some 25000

/-- The partitions whose configuration a command is about: those of the bitmap of config.swap, else the one named, which on a virtual
function is its own (R379, R418). -/
def configParts (r : Request) : List Nat :=
  match r.mbx, cmdOf r with
  | .vf n _, c => if c ∈ [0x0301, 0x0302, 0x0303, 0x0304] then [n.val] else []
  | _, 0x0302 => (List.range 32).filter fun p => bitOf (argOf r 0) p
  | _, c => if c ∈ [0x0301, 0x0303, 0x0304] then [partArg r] else []
/-- A configuration command is refused: it counts under config_refused (R399). -/
def countRefused (r : Request) (s : State) : State := (configParts r).foldl (fun t p => cumAdd p (cConfig + 4) 1 t) s
/-- A request reaches the Harbourmaster, unless there is none or it cannot: it is counted, journaled, and answered at once when a
check fails. -/
def receive (r : Request) (s : State) : State :=
  let s1 := hmJournal r.words (totAdd tHost 1 s)
  let st := postStatus s r
  if s.host.hm.gone ∨ ¬ iod0Reach s then s
  else if st ≠ 0 then reply r st [] (countRefused r s1) else modJournal (fun j => j ++ [{ r with due := (replyBound s r).map (s.now + ·) }]) s1

/-- The host posts a request of `len` bytes on a mailbox (R408). -/
def postMbx (m : MbxId) (len : Nat) (s : State) : State :=
  let b := mbxOf s m
  if ¬ s.host.ep.linkUp ∨ m = .sideband ∨ len = 0 then s
  else if b.st ≠ .free then totAdd (tHost + 3) 1 (modMbx m (fun b => { b with ignored := true }) s)
  else
    let ws := b.req.take (len / 4)
    receive { mbx := m, words := ws, bytes := len } (modMbx m (fun b => { b with st := .posted, ignored := false }) s)

/-- The host acknowledges a reply (R409). -/
def ackMbx (m : MbxId) (val : Word) (s : State) : State :=
  if ¬ s.host.ep.linkUp then s
  else if bitOf val 0 ∧ (mbxOf s m).st = .answered then modMbx m (fun b => { b with st := .free }) s
  else s

/-- MBX_POST (R408 to R415). -/
def execMbxPost (m : MbxId) (len : Nat) (s : State) : Host.Outcome State Fault Refusal := .next (postMbx m len s)

/-- MBX_ACK (R409). -/
def execMbxAck (m : MbxId) (val : Word) (s : State) : Host.Outcome State Fault Refusal := .next (ackMbx m val s)

/-- Clear the bits of HM.INT_STATUS that are 1 in `val` (R11, R403). -/
def clearInt (val : Word) (s : State) : State :=
  modHm (fun h => { h with intStatus := h.intStatus &&& ~~~ (val.setWidth 4) }) s

/-- Clear the bits of MBX.VF_EVENT that are 1 in `val` (R11, R405). -/
def clearVfEvent (n : Nat) (val : Word) (s : State) : State :=
  modPart n (fun q => { q with vfEvent := q.vfEvent &&& ~~~ (val.setWidth 4) }) s

/-- HM_INT_STATUS_CLEAR (R11, R403). -/
def execHmIntStatusClear (val : Word) (s : State) : Host.Outcome State Fault Refusal := .next (clearInt val s)

/-- MBX_VF_EVENT_CLEAR (R11, R405). -/
def execMbxVfEventClear (vf : Fin 32) (val : Word) (s : State) : Host.Outcome State Fault Refusal :=
  .next (clearVfEvent vf.val val s)

/-- HM_TIME_LO_READ: the low word is returned and the high word is latched (R403). -/
def execHmTimeLoRead (s : State) : Host.Outcome State Fault Refusal :=
  .next { modHm (fun h => { h with timeHi := w32 (s.now / 2 ^ 32) }) s with bus := w32 s.now }

/-- What HM.LOG_SEQ holds: the SEQ of the next record, zero until READY (R403, R525). -/
def logSeq (s : State) : Nat := if s.host.hm.ready then s.host.log.coldStarts * 2 ^ 48 + s.host.log.next else 0

/-- HM_LOG_SEQ_LO_READ: the low word is returned and the high word is latched (R403). -/
def execHmLogSeqLoRead (s : State) : Host.Outcome State Fault Refusal :=
  .next { modHm (fun h => { h with logSeqHi := w32 (logSeq s / 2 ^ 32) }) s with bus := w32 (logSeq s) }

/-! Register writes (R402 to R406). -/

/-- Mailbox `m` of a function, where it exists. -/
def mbxAt (fn : FnId) (m : Nat) : Option MbxId :=
  match fn with
  | .pf => if h : m < 8 then some (.pf ⟨m, h⟩) else none
  | .vf n => if h : m < 4 then some (.vf n ⟨m, h⟩) else none

/-- The number of a function: 0 to 31 VF, 32 PF. -/
def fnNo : FnId → Nat
  | .pf => 32
  | .vf n => n.val

/-- A write into a mailbox window at offset `o` (R404, R408, R409). -/
def writeWindow (m : MbxId) (o : Nat) (val : Word) (s : State) : State :=
  if o < 0x100 then
    if (mbxOf s m).st = .free then
      modMbx m (fun b => { b with req := setAt (b.req ++ List.replicate (64 - b.req.length) 0) (o / 4) val }) s
    else s
  else if o = 0x200 then postMbx m (fld val 0 9) s
  else if o = 0x204 then ackMbx m val s
  else s

/-- A write into an MSI-X table (R402, R406): unmasking an entry whose bit is pending raises it. -/
def writeMsix (fn off : Nat) (val : Word) (s : State) : State :=
  let k := 1024 * fn + off / 16
  let e := tgetD s.host.ep.msix k {}
  let e' : MsixEntry := match off % 16 / 4 with
    | 0 => { e with addrLo := val }
    | 1 => { e with addrHi := val }
    | 2 => { e with data := val }
    | _ => { e with ctrl := val &&& 1 }
  let s1 := modEp (fun p => { p with msix := tset p.msix k e' }) s
  if ¬ bitOf e'.ctrl 0 ∧ k ∈ s.host.ep.pending ∧ fn ∈ s.host.ep.bme then
    emit (.msix fn (off / 16)) (modEp (fun p => { p with pending := p.pending.erase k }) s1)
  else s1

/-- A register write by the host; reserved bits, read-only fields and unassigned offsets are ignored (R9, R11, R402). -/
def writeReg (fn : FnId) (bar2 : Bool) (off : Nat) (val : Word) (s : State) : State :=
  if ¬ s.host.ep.linkUp then s
  else if bar2 then
    match fn with
    | .pf => if off < 0x4000 then writeMsix 32 off val s else s
    | .vf n => if off < 0x200 then writeMsix n.val off val s else s
  else if 0x1000 ≤ off then
    match mbxAt fn ((off - 0x1000) / 0x400) with
    | some m => writeWindow m ((off - 0x1000) % 0x400) val s
    | none => s
  else
    match fn with
    | .pf =>
      if off = 0x0018 then clearInt val s
      else if off = 0x001C then modHm (fun h => { h with intEnable := val.setWidth 4 }) s
      else s
    | .vf n =>
      if off = 0x0004 then clearVfEvent n.val val s
      else if off = 0x0008 then modPart n.val (fun q => { q with vfEventEn := val.setWidth 4 }) s
      else s

/-- REGISTER_WRITE (R9, R11, R402 to R406). -/
def execRegisterWrite (fn : FnId) (bar2 : Bool) (off : Nat) (val : Word) (s : State) : Host.Outcome State Fault Refusal :=
  .next (writeReg fn bar2 off val s)

/-! What a register holds (R403 to R405). -/

/-- HM.STATUS.SERVING: at least one partition is Serving. -/
def serving (s : State) : Bool := s.parts.any fun q => q.2.cfg.st == .serving

/-- The power state as HM.STATUS.POWER_STATE codes it. -/
def pstateCode : PState → Nat
  | .run => 0
  | .quayside => 1
  | .berth => 2
  | .mooring => 3
  | .drydock => 4

/-- Enter a state of the ladder: a change is reported (R444, R458). -/
def enterState (st : PState) (s : State) : State :=
  if s.pw.st = st then s
  else setInt 2 (logPkg 0x0E01 false (pstateCode st) (pstateCode s.pw.st) (modPw (fun w => { w with st }) s))

/-- What HM.STATUS.POWER_STATE reads: Quayside while a shutdown or engine careen run is in progress (R502). -/
def shownState (s : State) : Nat := if s.car.run.isSome then 1 else pstateCode s.pw.st

/-- HM.STATUS (R403). -/
def hmStatus (s : State) : Word :=
  let h := s.host.hm
  w32 (b2n h.ready + 2 * b2n (serving s) + 4 * b2n h.failed + 8 * b2n h.redundancyLost + 16 * b2n h.standbyLost +
    32 * shownState s + 256 * s.sec.lifecycle + 2048 * b2n h.manager + 4096 * b2n h.cutOff + 8192 * b2n h.hmInst)

/-- The partition state as MBX.VF_STATUS.STATE codes it. -/
def partStateCode : PartState → Nat
  | .closed => 0
  | .opened => 1
  | .serving => 2
  | .halted => 3

/-- MBX.VF_STATUS (R405). -/
def vfStatus (s : State) (n : Nat) : Word :=
  let q := partOf s n
  w32 (partStateCode q.cfg.st + 4 * b2n (q.cfg.swapMib != 0) + 8 * b2n (bitOf (wordAt (activeBank q) 0) 3) +
    16 * b2n (serving s) + 256 * n)

/-- The identifiers of a function in configuration space (R401). -/
structure ConfigIds where
  vendor : Nat
  device : Nat
  classCode : Nat
  revision : Nat
deriving DecidableEq, Repr
/-- What configuration space gives for a function: the revision is HM.IDENT.STEPPING (R401). -/
def configIds (s : State) (fn : FnId) : ConfigIds :=
  { vendor := 0x1F8B, device := if fn = .pf then 0x1632 else 0x1633, classCode := 0x120000, revision := s.sec.stepping }

/-- MBX.CTRL of a mailbox (R404). -/
def mbxCtrl (b : Mailbox) : Word :=
  w32 ((match b.st with
    | .free => 0
    | .posted => 1
    | .answered => 2) + 4 * b2n b.ignored + 65536 * b.rspBytes)

/-- What a read of a function's BAR 0 returns; unassigned offsets and write-only registers return zero (R11, R402). -/
def readReg (s : State) (fn : FnId) (off : Nat) : Word :=
  let h := s.host.hm
  if 0x1000 ≤ off then
    match mbxAt fn ((off - 0x1000) / 0x400) with
    | none => 0
    | some m =>
      let b := mbxOf s m
      let o := (off - 0x1000) % 0x400
      if o < 0x100 then wordAt b.req (o / 4) else if o < 0x200 then wordAt b.rsp ((o - 0x100) / 4)
      else if o = 0x208 then mbxCtrl b else 0
  else
    match fn with
    | .pf => match off with
      | 0x0000 => w32 (0x1632 + 65536 * s.sec.ordering + 2 ^ 20 * s.sec.stepping)
      | 0x0004 => h.fwVersion
      | 0x0008 => w32 s.sec.serial
      | 0x000C => w32 (s.sec.serial / 2 ^ 32)
      | 0x0010 => w32 (h.pkgId.toNat + 128 * b2n h.joined)
      | 0x0014 => hmStatus s
      | 0x0018 => h.intStatus.setWidth 32
      | 0x001C => h.intEnable.setWidth 32
      | 0x0020 => w32 s.now
      | 0x0024 => h.timeHi
      | 0x0028 => h.alive
      | 0x002C => h.faultSticky.setWidth 32
      | 0x0030 => w32 (logSeq s)
      | 0x0034 => h.logSeqHi
      | _ => 0
    | .vf n => match off with
      | 0x0000 => vfStatus s n.val
      | 0x0004 => (partOf s n.val).vfEvent.setWidth 32
      | 0x0008 => (partOf s n.val).vfEventEn.setWidth 32
      | _ => 0

/-- What a read of a function's BAR 2 returns: the MSI-X table, four words an entry, and the pending-bit array (R402, R406). -/
def readMsix (s : State) (fn : FnId) (off : Nat) : Word :=
  let entries := if fn = .pf then 1024 else 32
  let base := 1024 * fnNo fn
  if off < 16 * entries then
    let e := tgetD s.host.ep.msix (base + off / 16) {}
    match off % 16 / 4 with
    | 0 => e.addrLo
    | 1 => e.addrHi
    | 2 => e.data
    | _ => e.ctrl
  else if (if fn = .pf then 0x4000 else 0x800) ≤ off then
    let lo := 8 * (off - (if fn = .pf then 0x4000 else 0x800))
    w32 ((((List.range 32).filter fun i => decide (lo + i < entries ∧ base + lo + i ∈ s.host.ep.pending)).map fun i => 2 ^ i).sum)
  else 0

end Sys2Proof.Machine
end

