-- ==== Sys2Proof/Machine/Num.lean ====
section
/-! DEFINITION. Exact arithmetic behind every format: values as signed dyadic numbers, one rounding at the end (R33, R55,
R56, R59, R62, R74), and the vector unit's functions of R140. -/

namespace Sys2Proof.Machine

/-- The value of a floating-point code: NaN, an infinity, or `± m · 2^e` with the sign of zero kept (R33). -/
inductive FV where
  | nan
  | inf (neg : Bool)
  | fin (neg : Bool) (m : Nat) (e : Int)
deriving DecidableEq, Repr

/-- +0. -/
def FV.zero : FV := .fin false 0 0

/-- The value of an integer. -/
def FV.ofInt (i : Int) : FV := .fin (decide (i < 0)) i.natAbs 0

/-- The value is an infinity or NaN. -/
def FV.nonFinite : FV → Bool
  | .nan => true
  | .inf _ => true
  | .fin _ _ _ => false

/-- The value with its sign changed. -/
def FV.neg : FV → FV
  | .nan => .nan
  | .inf n => .inf (!n)
  | .fin n m e => .fin (!n) m e

/-- The magnitude of the value. -/
def FV.abs : FV → FV
  | .nan => .nan
  | .inf _ => .inf false
  | .fin _ m e => .fin false m e

/-- A signed mantissa. -/
def signed (neg : Bool) (m : Nat) : Int := if neg then -(m : Int) else (m : Int)

/-- The exact product (R62); an infinity times zero is NaN (R74). -/
def FV.mul : FV → FV → FV
  | .nan, _ => .nan
  | _, .nan => .nan
  | .inf a, .inf b => .inf (a != b)
  | .inf a, .fin b m _ => if m = 0 then .nan else .inf (a != b)
  | .fin b m _, .inf a => if m = 0 then .nan else .inf (a != b)
  | .fin a m e, .fin b n f => .fin (a != b) (m * n) (e + f)

/-- The exact sum (R74): infinities of opposite sign give NaN, and an exact zero is -0 only when both operands are -0. -/
def FV.add : FV → FV → FV
  | .nan, _ => .nan
  | _, .nan => .nan
  | .inf a, .inf b => if a = b then .inf a else .nan
  | .inf a, .fin _ _ _ => .inf a
  | .fin _ _ _, .inf b => .inf b
  | .fin a m e, .fin b n f =>
    let g := min e f
    let s := signed a (m * 2 ^ (e - g).toNat) + signed b (n * 2 ^ (f - g).toNat)
    if s = 0 then .fin (a && b) 0 0 else .fin (decide (s < 0)) s.natAbs g

/-- The exact sum of a list, in order. -/
def FV.sum (xs : List FV) : FV := xs.foldl FV.add FV.zero

/-- `a < b` for numbers; a NaN is below nothing. -/
def FV.lt : FV → FV → Bool
  | .nan, _ => false
  | _, .nan => false
  | .inf a, .inf b => a && !b
  | .inf a, .fin _ _ _ => a
  | .fin _ _ _, .inf b => !b
  | .fin a m e, .fin b n f =>
    let g := min e f
    decide (signed a (m * 2 ^ (e - g).toNat) < signed b (n * 2 ^ (f - g).toNat))

/-- Equality of numbers, +0 equal to -0. -/
def FV.eqv (a b : FV) : Bool := a != .nan && b != .nan && !(a.lt b) && !(b.lt a)

/-- A binary floating-point format: significand bits with the hidden one, the exponent of the smallest normal, and the
code of the largest finite magnitude (R33, R35). -/
structure Fp where
  p : Nat
  emin : Int
  maxCode : Nat
deriving DecidableEq, Repr

/-- FP32 (R33). -/
def fp32 : Fp := { p := 24, emin := -126, maxCode := 0x7F7FFFFF }
/-- BF16 (R33). -/
def bf16 : Fp := { p := 8, emin := -126, maxCode := 0x7F7F }
/-- FP16 (R33). -/
def fp16 : Fp := { p := 11, emin := -14, maxCode := 0x7BFF }
/-- FP8 E4M3 (R35). -/
def e4m3 : Fp := { p := 4, emin := -6, maxCode := 0x7E }
/-- FP8 E5M2 (R35). -/
def e5m2 : Fp := { p := 3, emin := -14, maxCode := 0x7B }
/-- FP4 E2M1 (R37). -/
def e2m1 : Fp := { p := 2, emin := 0, maxCode := 7 }
/-- IEEE 754 binary64, the arithmetic of R106. -/
def fp64 : Fp := { p := 53, emin := -1022, maxCode := 0x7FEFFFFFFFFFFFFF }

/-- The position of the highest bit of the quotient `n / d`: the largest `k` with `2^k ≤ n / d`, for positive `n` and
`d`. -/
def log2Quot (n d : Nat) : Int :=
  let k : Int := (Nat.log2 n : Int) - (Nat.log2 d : Int)
  -- 2^(k-1) < n/d < 2^(k+1)
  let ge : Bool := if 0 ≤ k then decide (d * 2 ^ k.toNat ≤ n) else decide (d ≤ n * 2 ^ (-k).toNat)
  if ge then k else k - 1

/-- Quotient and remainder of the magnitude `n / d` in units of `2^u`: the floor, the remainder and its divisor. -/
def scaleQuot (n d : Nat) (u : Int) : Nat × Nat × Nat :=
  let n' := if u ≤ 0 then n * 2 ^ (-u).toNat else n
  let d' := if u ≤ 0 then d else d * 2 ^ u.toNat
  (n' / d', n' % d', d')

/-- Round a floor and remainder to the nearest integer, ties to the even one (R55). -/
def rneStep (q r d : Nat) : Nat := if 2 * r > d || (2 * r == d && q % 2 == 1) then q + 1 else q

/-- Round a floor and remainder stochastically by the drawn number `u` (R56, steps 2 to 4). -/
def srStep (q r d u : Nat) : Nat := if u < r * 65536 / d then q + 1 else q

/-- The active rounding mode: nearest-even, or stochastic with its 16-bit draw (R55, R56). -/
inductive Rounding where
  | rne
  | sr (u : Nat)
deriving DecidableEq, Repr

/-- Round the integer part of a scaled magnitude. -/
def roundStep : Rounding → Nat → Nat → Nat → Nat
  | .rne, q, r, d => rneStep q r d
  | .sr u, q, r, d => srStep q r d u

/-- The magnitude code of `n / d` in a format, before any overflow rule: codes rise with magnitude, subnormals included,
so a carry out of the significand is the next exponent's first code. -/
def magCode (f : Fp) (rd : Rounding) (n d : Nat) : Nat :=
  if n = 0 then 0 else
    let k := max (log2Quot n d) f.emin
    let (q, r, d') := scaleQuot n d (k - ((f.p : Int) - 1))
    (k - f.emin).toNat * 2 ^ (f.p - 1) + roundStep rd q r d'

/-- The value of a magnitude code of a format. -/
def magValue (f : Fp) (c : Nat) : Nat × Int :=
  let h := 2 ^ (f.p - 1)
  if c < 2 * h then (c, f.emin - ((f.p : Int) - 1))
  else (c % h + h, f.emin + ((c / h : Nat) : Int) - 1 - ((f.p : Int) - 1))

/-- The finite magnitude `m · 2^e` as a quotient. -/
def asQuot (m : Nat) (e : Int) : Nat × Nat :=
  if 0 ≤ e then (m * 2 ^ e.toNat, 1) else (m, 2 ^ (-e).toNat)

/-- The result of one rounding into a floating-point format: a magnitude code or an infinity. -/
inductive MagResult where
  | code (c : Nat)
  | over
deriving DecidableEq, Repr

/-- One rounding into FP32, BF16, FP16 or binary64: overflow to infinity at the nearest-even threshold in both modes, and
the largest finite value below it (R56, R59). -/
def roundIeee (f : Fp) (rd : Rounding) (n d : Nat) : MagResult :=
  if magCode f .rne n d > f.maxCode then .over else .code (min (magCode f rd n d) f.maxCode)

/-- One rounding into FP8: a result beyond the largest finite value saturates, and the flag says so (R59, R60). The manual does not
say whether a value above the largest finite value that rounds to it counts as a saturation: the flag is set only where the
rounding itself gives more than that value (DESIGN CHOICE, log 123). -/
def roundSat (f : Fp) (rd : Rounding) (n d : Nat) : Nat × Bool :=
  let c := magCode f rd n d
  if c > f.maxCode then (f.maxCode, true) else (c, false)

/-- The FP32 code of a value, rounded once to nearest even; NaN gives the canonical NaN (R34, R55). -/
def FV.toF32 : FV → Word
  | .nan => 0x7FC00000
  | .inf n => if n then 0xFF800000 else 0x7F800000
  | .fin neg m e =>
    let (n, d) := asQuot m e
    match roundIeee fp32 .rne n d with
    | .over => if neg then 0xFF800000 else 0x7F800000
    | .code c => w32 (c + (if neg then 0x80000000 else 0))

/-- The value of a code with `eb` exponent bits, `mb` mantissa bits and IEEE 754 infinities and NaNs (R33). -/
def decIeee (f : Fp) (width c : Nat) : FV :=
  let neg : Bool := c / 2 ^ (width - 1) % 2 = 1
  let mag := c % 2 ^ (width - 1)
  if mag ≤ f.maxCode then
    let (m, e) := magValue f mag
    .fin neg m e
  else if mag = f.maxCode + 1 then .inf neg
  else .nan

/-- The value of an FP32 word. -/
def f32 (w : Word) : FV := decIeee fp32 32 w.toNat

/-- FP32 addition, rounded once (R74, R140). -/
def fadd (a b : Word) : Word := ((f32 a).add (f32 b)).toF32
/-- FP32 subtraction, rounded once. -/
def fsub (a b : Word) : Word := ((f32 a).add (f32 b).neg).toF32
/-- FP32 multiplication, rounded once. -/
def fmul (a b : Word) : Word := ((f32 a).mul (f32 b)).toF32
/-- FP32 change of sign. -/
def fneg (a : Word) : Word := a ^^^ 0x80000000
/-- FP32 comparison `a < b`. -/
def flt (a b : Word) : Bool := (f32 a).lt (f32 b)
/-- The FP32 word is NaN. -/
def fisNan (a : Word) : Bool := f32 a = .nan
/-- The FP32 word is infinite or NaN. -/
def fnonFinite (a : Word) : Bool := (f32 a).nonFinite

/-- The FP32 word of a signed quotient, rounded once. -/
def quotF32 (neg : Bool) (n d : Nat) : Word :=
  match roundIeee fp32 .rne n d with
  | .over => if neg then 0xFF800000 else 0x7F800000
  | .code c => w32 (c + (if neg then 0x80000000 else 0))

/-- FP32 division, rounded once; special values follow IEEE 754. -/
def fdiv (a b : Word) : Word :=
  match f32 a, f32 b with
  | .nan, _ => 0x7FC00000
  | _, .nan => 0x7FC00000
  | .inf _, .inf _ => 0x7FC00000
  | .inf x, .fin y _ _ => if x != y then 0xFF800000 else 0x7F800000
  | .fin x _ _, .inf y => if x != y then 0x80000000 else 0
  | .fin x m e, .fin y n f =>
    let s := x != y
    if n = 0 then (if m = 0 then 0x7FC00000 else if s then 0xFF800000 else 0x7F800000)
    else
      let (a1, a2) := asQuot m e
      let (b1, b2) := asQuot n f
      quotF32 s (a1 * b2) (a2 * b1)

/-- vrecip of R140: the exact reciprocal, rounded once. -/
def vrecip (a : Word) : Word := fdiv 0x3F800000 a

/-- The integer square root, bit by bit from bit `k - 1` down, starting from the part `r` already found. -/
def isqrtFrom (n : Nat) : Nat → Nat → Nat
  | 0, r => r
  | k + 1, r => isqrtFrom n k (if (r + 2 ^ k) * (r + 2 ^ k) ≤ n then r + 2 ^ k else r)

/-- The integer square root. -/
def isqrt (n : Nat) : Nat := isqrtFrom n (Nat.log2 n / 2 + 1) 0

/-- A quotient that rounds as the square root of `n / d` does in every format of this file: the root to 192 bits after
the point, with an odd last bit standing for the bits beyond. -/
def sqrtQuot (n d : Nat) : Nat × Nat :=
  let t := n * d * 2 ^ 384
  let s := isqrt t
  (2 * s + (if s * s = t then 0 else 1), 2 * d * 2 ^ 192)

/-- vsqrt of R140. -/
def vsqrt (a : Word) : Word :=
  match f32 a with
  | .nan => 0x7FC00000
  | .inf n => if n then 0x7FC00000 else 0x7F800000
  | .fin neg m e =>
    if m = 0 then a
    else if neg then 0x7FC00000
    else
      let (n, d) := asQuot m e
      let (q, r) := sqrtQuot n d
      quotF32 false q r

/-- Bits after the point of the fixed-point evaluation of vexp, vtanh and vln. -/
def fxBits : Nat := 256

/-- ln 2 in units of 2^-256, rounded down. -/
def fxLn2 : Nat := 80260960185991308862233904206310070533990667611589946606122867505419956976171

/-- The partial sum of the exponential series of `r` (units of 2^-256): `fuel` terms from term `n`, whose value is
`t`. -/
def expSeries (r : Nat) : Nat → Nat → Nat → Nat → Nat
  | 0, _, _, acc => acc
  | fuel + 1, n, t, acc => expSeries r fuel (n + 1) (t * r / 2 ^ fxBits / (n + 1)) (acc + t)

/-- e^(n/d) for a signed quotient within the range of FP32, as a quotient: e^r · 2^k with r the part below ln 2. -/
def expQuot (neg : Bool) (n d : Nat) : Nat × Nat :=
  let x : Int := signed neg (n * 2 ^ fxBits / d)
  let k : Int := x / (fxLn2 : Int)
  let r : Nat := (x % (fxLn2 : Int)).toNat
  let t := expSeries r 64 0 (2 ^ fxBits) 0
  if 0 ≤ k then (t * 2 ^ k.toNat, 2 ^ fxBits) else (t, 2 ^ fxBits * 2 ^ (-k).toNat)

/-- vexp of R140: the exact exponential, rounded once. Arguments above 89 overflow and arguments below -110 give +0. -/
def vexp (a : Word) : Word :=
  match f32 a with
  | .nan => 0x7FC00000
  | .inf n => if n then 0 else 0x7F800000
  | .fin neg m e =>
    let (n, d) := asQuot m e
    if m = 0 then 0x3F800000
    else if !neg && decide (n > 89 * d) then 0x7F800000
    else if neg && decide (n > 110 * d) then 0
    else
      let (q, r) := expQuot neg n d
      quotF32 false q r

/-- vtanh of R140: the exact hyperbolic tangent, rounded once. Magnitudes from 16 give ±1. -/
def vtanh (a : Word) : Word :=
  match f32 a with
  | .nan => 0x7FC00000
  | .inf n => if n then 0xBF800000 else 0x3F800000
  | .fin neg m e =>
    let (n, d) := asQuot m e
    if m = 0 then a
    else if n ≥ 16 * d then (if neg then 0xBF800000 else 0x3F800000)
    else
      let (q, r) := expQuot false (2 * n) d
      quotF32 neg (q - r) (q + r)

/-- The partial sum of the series z + z^3/3 + z^5/5 + … (units of 2^-256): `fuel` terms from the odd index `n`, whose
power is `t`; `z2` is the square. -/
def atanhSeries (z2 : Nat) : Nat → Nat → Nat → Nat → Nat
  | 0, _, _, acc => acc
  | fuel + 1, n, t, acc => atanhSeries z2 fuel (n + 2) (t * z2 / 2 ^ fxBits) (acc + t / n)

/-- vln of R140: the exact natural logarithm, rounded once. -/
def vln (a : Word) : Word :=
  match f32 a with
  | .nan => 0x7FC00000
  | .inf n => if n then 0x7FC00000 else 0x7F800000
  | .fin neg m e =>
    if m = 0 then 0xFF800000
    else if neg then 0x7FC00000
    else
      -- m · 2^e = y · 2^k with 1 ≤ y < 2
      let l := Nat.log2 m
      let k : Int := e + (l : Int)
      let z := (m - 2 ^ l) * 2 ^ fxBits / (m + 2 ^ l)
      let z2 := z * z / 2 ^ fxBits
      let s : Int := 2 * (atanhSeries z2 90 1 z 0 : Int) + k * (fxLn2 : Int)
      quotF32 (decide (s < 0)) s.natAbs (2 ^ fxBits)

/-- A value rounded once to binary64 (R106). -/
def FV.toF64 : FV → FV
  | .nan => .nan
  | .inf n => .inf n
  | .fin neg m e =>
    let (n, d) := asQuot m e
    match roundIeee fp64 .rne n d with
    | .over => .inf neg
    | .code c => let (m', e') := magValue fp64 c; .fin neg m' e'

/-- The quotient of two values rounded once to binary64, the divisor a positive number. -/
def div64 (a b : FV) : FV :=
  match a, b with
  | .fin x m e, .fin _ n f =>
    if n = 0 then (if m = 0 then .nan else .inf x)
    else
      let (a1, a2) := asQuot m e
      let (b1, b2) := asQuot n f
      match roundIeee fp64 .rne (a1 * b2) (a2 * b1) with
      | .over => .inf x
      | .code c => let (m', e') := magValue fp64 c; .fin x m' e'
  | .inf x, .fin _ _ _ => .inf x
  | .fin x _ _, .inf _ => .fin x 0 0
  | _, _ => .nan

/-- The square root of a non-negative value rounded once to binary64. -/
def sqrt64 (a : FV) : FV :=
  match a with
  | .fin _ m e =>
    if m = 0 then a
    else
      let (n, d) := asQuot m e
      let (q, r) := sqrtQuot n d
      match roundIeee fp64 .rne q r with
      | .over => .inf false
      | .code c => let (m', e') := magValue fp64 c; .fin false m' e'
  | v => v

end Sys2Proof.Machine
end

