-- ==== Sys2Proof/Machine/Fmt.lean ====
section
/-! DEFINITION. The ten tensor formats, UE5M3 scales, blocks and parcels, stochastic draws, conversions and the
quantiser (R32 to R63). -/

namespace Sys2Proof.Machine

/-- The formats of R32, UE5M3 included. -/
inductive Fmt where
  | fp32 | bf16 | fp16 | e4m3 | e5m2 | int8 | fp4 | int4 | int2 | tern | ue5m3
deriving DecidableEq, Repr

/-- The format of a 4-bit code; 0xB to 0xF are reserved (R32). -/
def fmtOf (c : Nat) : Option Fmt :=
  match c with
  | 0 => some .fp32 | 1 => some .bf16 | 2 => some .fp16 | 3 => some .e4m3 | 4 => some .e5m2 | 5 => some .int8
  | 6 => some .fp4 | 7 => some .int4 | 8 => some .int2 | 9 => some .tern | 10 => some .ue5m3 | _ => none

/-- The block formats (R32). -/
def Fmt.isBlock : Fmt → Bool
  | .fp4 => true | .int4 => true | .int2 => true | .tern => true
  | _ => false

/-- The wide formats, codes 0x0 to 0x5 (R32). -/
def Fmt.isWide : Fmt → Bool
  | .fp32 => true | .bf16 => true | .fp16 => true | .e4m3 => true | .e5m2 => true | .int8 => true
  | _ => false

/-- The 16-bit formats. -/
def Fmt.is16 : Fmt → Bool
  | .bf16 => true | .fp16 => true
  | _ => false

/-- The 8-bit wide formats. -/
def Fmt.is8 : Fmt → Bool
  | .e4m3 => true | .e5m2 => true | .int8 => true
  | _ => false

/-- The FP8 formats. -/
def Fmt.isFp8 : Fmt → Bool
  | .e4m3 => true | .e5m2 => true
  | _ => false

/-- Bytes per element of a wide format. -/
def Fmt.bytes : Fmt → Nat
  | .fp32 => 4 | .bf16 => 2 | .fp16 => 2
  | _ => 1

/-- Elements of a block (R32, R39). -/
def Fmt.blockLen : Fmt → Nat
  | .fp4 => 16 | .int4 => 16 | .int2 => 32 | .tern => 40
  | _ => 1

/-- Elements of a block format in one data byte (R39). -/
def Fmt.perByte : Fmt → Nat
  | .fp4 => 2 | .int4 => 2 | .int2 => 4 | .tern => 5
  | _ => 1

/-- The canonical NaN of a format (R34). -/
def Fmt.canonNaN : Fmt → Nat
  | .fp32 => 0x7FC00000 | .bf16 => 0x7FC0 | .fp16 => 0x7E00 | .e4m3 => 0x7F | .e5m2 => 0x7E
  | _ => 0

/-- The value of a wide element code (R33, R35, R36). -/
def decWide (f : Fmt) (c : Nat) : FV :=
  match f with
  | .fp32 => decIeee fp32 32 c
  | .bf16 => decIeee bf16 16 c
  | .fp16 => decIeee fp16 16 c
  | .e5m2 => decIeee e5m2 8 c
  | .e4m3 =>
    if c % 128 = 127 then .nan
    else let (m, e) := magValue e4m3 (c % 128); .fin (decide (c / 128 % 2 = 1)) m e
  | .int8 => FV.ofInt (if c % 256 < 128 then ((c % 256 : Nat) : Int) else ((c % 256 : Nat) : Int) - 256)
  | _ => .nan

/-- The value of a UE5M3 code (R42). -/
def ue5m3Val (c : Nat) : FV :=
  let e := c / 8 % 32
  let m := c % 8
  if e = 0 then .fin false m (-17) else .fin false (m + 8) ((e : Int) - 18)

/-- The element code at position `i` of a block's data bytes (R39, R40). -/
def blockCode (f : Fmt) (data : List Byte) (i : Nat) : Nat :=
  let b := (data.getD (i / f.perByte) 0).toNat
  let k := i % f.perByte
  match f with
  | .tern => b / 3 ^ k % 3
  | .int2 => b / 4 ^ k % 4
  | _ => b / 16 ^ k % 16

/-- The value of a block element code before scaling (R37, R38). -/
def elemVal (f : Fmt) (c : Nat) : FV :=
  match f with
  | .fp4 => let (m, e) := magValue e2m1 (c % 8); .fin (decide (c / 8 = 1 ∧ c % 8 ≠ 0)) m e
  | .int4 => FV.ofInt (if c < 8 then (c : Int) else (c : Int) - 16)
  | .int2 => FV.ofInt (if c < 2 then (c : Int) else (c : Int) - 4)
  | .tern => FV.ofInt (if c = 1 then 1 else if c = 2 then -1 else 0)
  | _ => FV.zero

/-- A block: eight data bytes and a scale byte (R44). -/
structure Block where
  data : List Byte
  scale : Byte
deriving DecidableEq, Repr

/-- The all-zero block, the only encoding of a zero block the quantiser writes (R48, R52). -/
def Block.zero : Block := { data := List.replicate 8 0, scale := 0 }

/-- A TERN byte from 243 to 255 (R41). -/
def ternInvalid (b : Byte) : Bool := decide (243 ≤ b.toNat)

/-- Invalid TERN bytes in a block (R41, R44). -/
def Block.ternBad (f : Fmt) (b : Block) : Nat := if f = .tern then (b.data.filter ternInvalid).length else 0

/-- Element `i` of a block without its scale; a block with scale byte 0x00 is zero everywhere (R44). -/
def Block.elem (f : Fmt) (b : Block) (i : Nat) : FV :=
  if b.scale = 0 then FV.zero else elemVal f (blockCode f b.data i)

/-- Element `i` of a block with its scale, which is exact (R44, R45). -/
def Block.value (f : Fmt) (b : Block) (i : Nat) : FV := (b.elem f i).mul (ue5m3Val b.scale.toNat)

/-- One bit of the CRC-8 of R47. -/
def crc8Bit (c : Nat) : Nat := if c / 128 % 2 = 1 then Nat.xor (c * 2 % 256) 0x2F else c * 2 % 256

/-- One byte of the CRC-8 of R47, most significant bit first. -/
def crc8Byte (c : Nat) (b : Byte) : Nat := Nat.repeat crc8Bit 8 (Nat.xor c b.toNat)

/-- The parcel check of R47. -/
def crc8 (bs : List Byte) : Byte := b8 (Nat.xor (bs.foldl crc8Byte 0xFF) 0xFF)

/-- Block `j` of a parcel's 64 bytes (R46). -/
def parcelBlock (p : List Byte) (j : Nat) : Block := { data := slice p (9 * j) 8, scale := p.getD (9 * j + 8) 0 }

/-- The parcel's check byte matches (R46, R49). -/
def parcelOk (p : List Byte) : Bool := p.getD 63 0 = crc8 (p.take 63)

/-- The bytes of a block. -/
def Block.bytes (b : Block) : List Byte := b.data ++ [b.scale]

/-- A parcel of up to seven blocks, filled with zero blocks (R46, R48). -/
def mkParcel (bs : List Block) : List Byte :=
  let body := (bs.take 7 ++ List.replicate (7 - bs.length) Block.zero).flatMap Block.bytes
  body ++ [crc8 body]

/-- The parcels of a run of blocks, `fuel` at most (R46, R48). -/
def packParcels : Nat → List Block → List Byte
  | 0, _ => []
  | _ + 1, [] => []
  | fuel + 1, bs => mkParcel bs ++ packParcels fuel (bs.drop 7)

/-- The mixing function of R57. -/
def mix (z : BitVec 64) : BitVec 64 :=
  let z := (z ^^^ (z >>> 30)) * 0xBF58476D1CE4E5B9
  let z := (z ^^^ (z >>> 27)) * 0x94D049BB133111EB
  z ^^^ (z >>> 31)

/-- The stochastic draw of R57. -/
def srDraw (opSeed : Nat) (step : Nat) (opIndex : Nat) (elem : Nat) : Nat :=
  let z := mix (BitVec.ofNat 64 opSeed ^^^ BitVec.ofNat 64 step)
  let z := mix (z ^^^ BitVec.ofNat 64 opIndex)
  let z := mix (z ^^^ BitVec.ofNat 64 elem)
  (z >>> 48).toNat

/-- The outcome of a conversion: the code, whether it counts as a saturation (R60), and whether it counts as a NaN
turned into zero (R54). -/
structure Conv where
  code : Nat
  saturated : Bool
  nanZero : Bool
deriving DecidableEq, Repr

/-- A conversion that counts nothing. -/
def Conv.plain (c : Nat) : Conv := { code := c, saturated := false, nanZero := false }

/-- Round a magnitude into an IEEE format of `width` bits. -/
def convIeee (f : Fp) (width : Nat) (rd : Rounding) (neg : Bool) (m : Nat) (e : Int) : Conv :=
  let s := if neg then 2 ^ (width - 1) else 0
  let (n, d) := asQuot m e
  match roundIeee f rd n d with
  | .over => .plain (s + f.maxCode + 1)
  | .code c => .plain (s + c)

/-- Round a magnitude into an FP8 format. -/
def convFp8 (f : Fp) (rd : Rounding) (neg : Bool) (m : Nat) (e : Int) : Conv :=
  let (n, d) := asQuot m e
  let (c, sat) := roundSat f rd n d
  { code := c + (if neg then 128 else 0), saturated := sat, nanZero := false }

/-- Round a magnitude into INT8; what counts as a saturation is as in `roundSat` (DESIGN CHOICE, log 123). -/
def convInt8 (rd : Rounding) (neg : Bool) (m : Nat) (e : Int) : Conv :=
  let (n, d) := asQuot m e
  let k := roundStep rd (n / d) (n % d) d
  if neg then (if k > 128 then { code := 0x80, saturated := true, nanZero := false } else .plain ((256 - k) % 256))
  else (if k > 127 then { code := 0x7F, saturated := true, nanZero := false } else .plain k)

/-- One conversion into a wide format, rounded once (R59, R60). FP32 is never rounded stochastically (R56). -/
def convert (f : Fmt) (rd : Rounding) (v : FV) : Conv :=
  match v with
  | .nan => { code := f.canonNaN, saturated := false, nanZero := decide (f = .int8) }
  | .inf neg =>
    match f with
    | .fp32 => .plain (if neg then 0xFF800000 else 0x7F800000)
    | .bf16 => .plain (if neg then 0xFF80 else 0x7F80)
    | .fp16 => .plain (if neg then 0xFC00 else 0x7C00)
    | .e4m3 => { code := if neg then 0xFE else 0x7E, saturated := true, nanZero := false }
    | .e5m2 => { code := if neg then 0xFB else 0x7B, saturated := true, nanZero := false }
    | _ => { code := if neg then 0x80 else 0x7F, saturated := true, nanZero := false }
  | .fin neg m e =>
    match f with
    | .fp32 => convIeee fp32 32 .rne neg m e
    | .bf16 => convIeee bf16 16 rd neg m e
    | .fp16 => convIeee fp16 16 rd neg m e
    | .e4m3 => convFp8 e4m3 rd neg m e
    | .e5m2 => convFp8 e5m2 rd neg m e
    | _ => convInt8 rd neg m e

/-- The little-endian bytes of a wide element code. -/
def elemBytes (f : Fmt) (c : Nat) : List Byte := natBytes f.bytes c

/-- Positive reach q+ and negative reach q− of a block format (R38). -/
def Fmt.reach : Fmt → Nat × Nat
  | .fp4 => (6, 6)
  | .int4 => (7, 8)
  | .int2 => (1, 2)
  | _ => (1, 1)

/-- `S × q ≥ |x|` for the scale code `c`, exactly (R50). -/
def scaleCovers (f : Fmt) (c : Nat) (x : FV) : Bool :=
  match x with
  | .nan => true
  | .inf _ => false
  | .fin neg m e =>
    let q := if neg then f.reach.2 else f.reach.1
    !(((ue5m3Val c).mul (.fin false q 0)).lt (.fin false m e))

/-- The smallest scale code that covers every element, from code `c` upward with `fuel` codes left; none when the block
is out of range (R50, R53). -/
def scaleFrom (f : Fmt) (xs : List FV) : Nat → Nat → Option Nat
  | 0, _ => none
  | fuel + 1, c => if xs.all (scaleCovers f c) then some c else scaleFrom f xs fuel (c + 1)

/-- The code of the largest magnitude of a block format. -/
def topCode (f : Fmt) (neg : Bool) : Nat :=
  match f with
  | .fp4 => if neg then 0xF else 0x7
  | .int4 => if neg then 0x8 else 0x7
  | .int2 => if neg then 0x2 else 0x1
  | _ => if neg then 2 else 1

/-- The element code of a quotient: nearest in the active mode, saturated at the reach, positive zero for zero (R51, R53,
R55, R56). -/
def gridCode (f : Fmt) (rd : Rounding) (q : FV) : Nat :=
  match q with
  | .nan => 0
  | .inf neg => topCode f neg
  | .fin neg m e =>
    let (n, d) := asQuot m e
    let lim := if neg then f.reach.2 else f.reach.1
    if lim * d ≤ n then topCode f neg
    else if f = .fp4 then
      let c := magCode e2m1 rd n d
      if c = 0 then 0 else if neg then c + 8 else c
    else
      let k := roundStep rd (n / d) (n % d) d
      if k = 0 then 0
      else if f = .tern then (if neg then 2 else 1)
      else if f = .int4 then (if neg then 16 - k else k)
      else (if neg then 4 - k else k)

/-- Pack element codes into one data byte (R39, R40). -/
def packByte (f : Fmt) (cs : List Nat) : Byte :=
  let base := match f with
    | .tern => 3 | .int2 => 4 | _ => 16
  b8 (cs.foldr (fun c acc => c + base * acc) 0)

/-- Pack the element codes of one block into its eight data bytes. -/
def packBlock (f : Fmt) (cs : List Nat) : List Byte :=
  (List.range 8).map (fun i => packByte f (slice cs (i * f.perByte) f.perByte))

/-- The outcome of quantising one block: the block, whether it was out of range (R53), and its NaN elements (R54). -/
structure QBlock where
  block : Block
  overflow : Bool
  nans : Nat
deriving DecidableEq, Repr

/-- The elements that count towards the reach: neither zero nor NaN (R50, R54). -/
def counts (x : FV) : Bool :=
  match x with
  | .nan => false
  | .inf _ => true
  | .fin _ m _ => decide (m ≠ 0)

/-- x ÷ S computed in FP32 (R51). -/
def quotS (x s : FV) : FV := f32 (fdiv x.toF32 s.toF32)

/-- Quantise the FP32 words of one block; `rd i` is the rounding of element `i` (R50 to R54). -/
def quantBlock (f : Fmt) (rd : Nat → Rounding) (ws : List Word) : QBlock :=
  let xs := ws.map f32
  let nans := (xs.filter (· == .nan)).length
  let live := xs.filter counts
  if live = [] then { block := Block.zero, overflow := false, nans := nans }
  else
    let sc := scaleFrom f live 255 1
    let code := sc.getD 0xFF
    let s := ue5m3Val code
    let cs := xs.mapIdx (fun i x => if counts x then gridCode f (rd i) (quotS x s) else 0)
    let b : Block := if cs.all (· == 0) then Block.zero else { data := packBlock f cs, scale := b8 code }
    { block := b, overflow := sc.isNone, nans := nans }

/-- The operand pairs the arrays multiply (R61). -/
def pairOk (a b : Fmt) : Bool :=
  let ok := fun (x : Fmt) =>
    match x with
    | .fp32 => false
    | .ue5m3 => false
    | _ => true
  ok a && ok b &&
    (a.is16 || b.is16 || a.is8 || b.is8 || a.blockLen == b.blockLen)

end Sys2Proof.Machine
end

