-- ==== Sys2Proof/Machine/Img.lean ====
section
/-! DEFINITION. The parts of a stage image as words (R130 to R152, R156, R208, R246, R257). An image is the list of its
32-bit words; a section is named by its type. -/

namespace Sys2Proof.Machine

/-- Every bit of a word outside the given (lowest bit, width) fields is zero. -/
def onlyBits (w : Word) (fs : List (Nat × Nat)) : Bool :=
  let mask := fs.foldl (fun m f => m ||| ((BitVec.ofNat 32 (2 ^ f.2 - 1)) <<< f.1)) 0#32
  w &&& ~~~ mask = 0

/-- IMAGE_BYTES (R131). -/
def imgBytes (ws : List Word) : Nat := (wordAt ws 2).toNat
/-- LEGACY (R131). -/
def imgLegacy (ws : List Word) : Bool := bitOf (wordAt ws 1) 8
/-- TIMED (R131). -/
def imgTimed (ws : List Word) : Bool := bitOf (wordAt ws 1) 9
/-- SECTIONS (R131). -/
def imgSections (ws : List Word) : Nat := fld (wordAt ws 3) 0 8
/-- STAGE_ID (R131). -/
def imgStage (ws : List Word) : Nat := (wordAt ws 4).toNat
/-- OPERATIONS (R131). -/
def imgOps (ws : List Word) : Nat := fld (wordAt ws 5) 0 16
/-- MANIFEST_DIGEST (R131). -/
def imgDigest (ws : List Word) : List Word := slice ws 6 8

/-- Entry i of the section table: type, offset in bytes, bytes, count (R132). -/
def secEntry (ws : List Word) (i : Nat) : Nat × Nat × Nat × Nat :=
  (fld (wordAt ws (16 + 4 * i)) 0 8, (wordAt ws (17 + 4 * i)).toNat, (wordAt ws (18 + 4 * i)).toNat,
    fld (wordAt ws (19 + 4 * i)) 0 16)

/-- The section table. -/
def secTable (ws : List Word) : List (Nat × Nat × Nat × Nat) := (List.range (min (imgSections ws) 16)).map (secEntry ws)

/-- The section of a type: offset, bytes, count. -/
def secOf (ws : List Word) (ty : Nat) : Option (Nat × Nat × Nat) :=
  ((secTable ws).find? fun e => e.1 = ty).map fun e => e.2

/-- Byte offset of a section, 0 when absent. -/
def secOff (ws : List Word) (ty : Nat) : Nat := ((secOf ws ty).map fun e => e.1).getD 0
/-- COUNT of a section, 0 when absent. -/
def secCount (ws : List Word) (ty : Nat) : Nat := ((secOf ws ty).map fun e => e.2.2).getD 0
/-- The words of a section. -/
def secWords (ws : List Word) (ty : Nat) : List Word :=
  match secOf ws ty with
  | none => []
  | some (o, b, _) => slice ws (o / 4) (b / 4)
/-- Word i of a section, 0 when absent. -/
def secWord (ws : List Word) (ty i : Nat) : Word :=
  match secOf ws ty with
  | none => 0
  | some (o, b, _) => if i < b / 4 then wordAt ws (o / 4 + i) else 0

/-! Cluster map (R135) and inbox table (R143). -/

/-- Word k of the cluster-map entry of image cluster c. -/
def cmWord (ws : List Word) (c k : Nat) : Word := secWord ws 1 (4 * c + k)
/-- ROLE. -/
def cmRole (ws : List Word) (c : Nat) : Nat := fld (cmWord ws c 0) 0 8
/-- FOLD_TO; 0xFF is none. -/
def cmFoldTo (ws : List Word) (c : Nat) : Nat := fld (cmWord ws c 0) 8 8
/-- LIST. -/
def cmList (ws : List Word) (c : Nat) : Nat := fld (cmWord ws c 0) 16 16
/-- FOLD_LIST. -/
def cmFoldList (ws : List Word) (c : Nat) : Nat := fld (cmWord ws c 1) 0 16
/-- Step slots. -/
def cmSlots (ws : List Word) (c : Nat) : Nat := fld (cmWord ws c 1) 16 4 + 1
/-- SLOT_BASE. -/
def cmSlotBase (ws : List Word) (c : Nat) : Nat := fld (cmWord ws c 2) 0 24
/-- SLOT_BYTES. -/
def cmSlotBytes (ws : List Word) (c : Nat) : Nat := fld (cmWord ws c 3) 0 24
/-- The cluster is in use: its role is not idle. -/
def cmUsed (ws : List Word) (c : Nat) : Bool := decide (cmRole ws c ≠ 0)
/-- The image clusters that name h as their fold host. -/
def cmGuests (ws : List Word) (h : Nat) : List Nat := (List.range 48).filter fun g => cmUsed ws g && cmFoldTo ws g = h

/-- REGION_KIB of region r of cluster c. -/
def inKib (ws : List Word) (c r : Nat) : Nat := fld (secWord ws 0x0B (16 * c + r)) 0 16
/-- POSTS of region r of cluster c. -/
def inPosts (ws : List Word) (c r : Nat) : Nat := fld (secWord ws 0x0B (16 * c + r)) 16 16
/-- Offset of region r within a slot of cluster c. -/
def inOff (ws : List Word) (c r : Nat) : Nat := ((List.range r).map fun i => 1024 * inKib ws c i).sum

/-! Command lists (R138, R139). -/

/-- The length that R139, R170 and R210 give an opcode, in words. -/
def opLen (op : Nat) : Option Nat :=
  match op with
  | 0 => some 1 | 1 => some 17 | 2 => some 9 | 3 => some 10 | 4 => some 26 | 5 => some 20 | 6 => some 7 | 7 => some 2
  | 8 => some 2 | 9 => some 2 | 10 => some 6 | 11 => some 2 | 12 => some 2 | 13 => some 3
  | _ => none

/-- OPCODE of a command. -/
def cOp (c : List Word) : Nat := fld (wordAt c 0) 0 8
/-- WORDS of a command. -/
def cWords (c : List Word) : Nat := fld (wordAt c 0) 8 8
/-- CORE of a command. -/
def cCore (c : List Word) : Nat := fld (wordAt c 0) 16 3

/-- Cut words into commands by their WORDS field, up to and with the first END_STEP that stands for no guest when `stop` is set; a WORDS of zero
ends the cutting with the words left. -/
def cutCmds (stop : Bool) : Nat → List Word → List (List Word)
  | 0, _ => []
  | _ + 1, [] => []
  | fuel + 1, w :: ws =>
    let n := fld w 8 8
    if n = 0 then [w :: ws]
    else if stop && fld w 0 8 = 13 && !bitOf (wordAt (w :: ws) 1) 25 then [(w :: ws).take n]
    else (w :: ws).take n :: cutCmds stop fuel ((w :: ws).drop n)

/-- Byte offset of list i within the image. -/
def listOff (ws : List Word) (i : Nat) : Nat := secOff ws 2 + (secWord ws 2 i).toNat
/-- The commands of list i. -/
def listCmds (ws : List Word) (i : Nat) : List (List Word) :=
  let s := secWords ws 2
  let rest := s.drop ((secWord ws 2 i).toNat / 4)
  cutCmds true rest.length rest

/-! Templates (R146). -/

/-- A template: identifier, body words, patch entries of three words. -/
abbrev Template := Nat × List Word × List (List Word)

/-- Cut the template section into records. -/
def cutTemplates : Nat → List Word → List Template
  | 0, _ => []
  | fuel + 1, ws =>
    if ws.length < 2 then [] else
      let b := fld (wordAt ws 1) 0 16
      let p := fld (wordAt ws 1) 16 8
      (fld (wordAt ws 0) 0 16, slice ws 2 b, (List.range p).map fun i => slice ws (2 + b + 3 * i) 3) ::
        cutTemplates fuel (ws.drop (2 + b + 3 * p))

/-- Byte offsets, counted from `o`, of the template records that `cutTemplates` cuts. -/
def templateOffs : Nat → Nat → List Word → List Nat
  | 0, _, _ => []
  | fuel + 1, o, ws =>
    if ws.length < 2 then [] else
      let n := 2 + fld (wordAt ws 1) 0 16 + 3 * fld (wordAt ws 1) 16 8
      o :: templateOffs fuel (o + 4 * n) (ws.drop n)

/-- The templates of an image. -/
def imgTemplates (ws : List Word) : List Template := cutTemplates (secCount ws 3) (secWords ws 3)
/-- A template by its identifier. -/
def templateOf (ws : List Word) (tid : Nat) : Option Template := (imgTemplates ws).find? fun t => t.1 = tid
/-- The commands of a template's body. -/
def bodyCmds (b : List Word) : List (List Word) := cutCmds false b.length b
/-- Every command of an image: those of its lists, then those of its templates. -/
def imgCmds (ws : List Word) : List (List Word) :=
  (List.range (secCount ws 2)).flatMap (listCmds ws) ++ (imgTemplates ws).flatMap fun t => bodyCmds t.2.1

/-! Barriers (R151), seeds (R132), safeguards and governor (R110). -/

/-- Cluster c takes part in barrier b. -/
def barHas (ws : List Word) (b c : Nat) : Bool :=
  if c < 32 then bitOf (secWord ws 4 (2 * b)) c else bitOf (secWord ws 4 (2 * b + 1)) (c - 32)
/-- The participants of barrier b. -/
def barMembers (ws : List Word) (b : Nat) : List Nat := (List.range 48).filter (barHas ws b)

/-- The image seed of an operation; 0 without an entry. -/
def imgSeed (ws : List Word) (op : Nat) : Nat :=
  match (List.range (secCount ws 5)).find? fun i => (secWord ws 5 (3 * i)).toNat = op with
  | some i => dwordAt (secWords ws 5) (3 * i + 1)
  | none => 0

/-- The safeguard record of an operation. -/
def safeOf (ws : List Word) (op : Nat) : Option (List Word) :=
  ((List.range (secCount ws 6)).find? fun i => (secWord ws 6 (10 * i)).toNat = op).map fun i => slice (secWords ws 6) (10 * i) 10
/-- The operations that carry a safeguard record, ascending. -/
def safeOps (ws : List Word) : List Nat :=
  (List.range (imgOps ws)).filter fun op => (safeOf ws op).isSome
/-- PROBE_RATE. -/
def sgRate (r : List Word) : Nat := fld (wordAt r 1) 0 17
/-- WEIGHT_SIDE: operand B. -/
def sgSideB (r : List Word) : Bool := bitOf (wordAt r 1) 17
/-- TOP_RUNG. -/
def sgTop (r : List Word) : Nat := fld (wordAt r 1) 18 2
/-- REF_PRESENT. -/
def sgRef (r : List Word) : Bool := bitOf (wordAt r 1) 20
/-- ESC_COUNT. -/
def sgEsc (r : List Word) : Nat := fld (wordAt r 1) 24 8
/-- QPROBE_RATE. -/
def sgQRate (r : List Word) : Nat := fld (wordAt r 5) 0 17
/-- PROBE_SEED. -/
def sgSeed (r : List Word) : Nat := dwordAt r 8
/-- STORM_THRESHOLD. -/
def gvThreshold (ws : List Word) : Nat := fld (secWord ws 7 0) 0 16
/-- STORM_ALLOWANCE_NS. -/
def gvAllowance (ws : List Word) : Nat := (secWord ws 7 1).toNat
/-- RUNG_CACHE_MIB. -/
def gvCacheMib (ws : List Word) : Nat := fld (secWord ws 7 2) 0 24

/-! Prefetch schedule (R246, R250). -/

/-- STREAM_ENTRIES. -/
def pfStreams (ws : List Word) : Nat := fld (secWord ws 8 0) 0 16
/-- RESTORE_ENTRIES. -/
def pfRestores (ws : List Word) : Nat := fld (secWord ws 8 0) 16 16
/-- Stream entry e: its eight words. -/
def pfStream (ws : List Word) (e : Nat) : List Word := slice (secWords ws 8) (8 + 8 * e) 8
/-- Restore entry i: its six words. -/
def pfRestore (ws : List Word) (i : Nat) : List Word := slice (secWords ws 8) (8 + 8 * pfStreams ws + 6 * i) 6
/-- The stream entries of an image cluster, ascending. -/
def pfOf (ws : List Word) (c : Nat) : List Nat := (List.range (pfStreams ws)).filter fun e => fld (wordAt (pfStream ws e) 0) 0 6 = c
/-- CLUSTER of a stream entry. -/
def seCluster (e : List Word) : Nat := fld (wordAt e 0) 0 6
/-- BUF of a stream entry. -/
def seBuf (e : List Word) : Nat := fld (wordAt e 0) 6 2
/-- BUF_SPACE of a stream entry: cluster SRAM. -/
def seSpace (e : List Word) : Nat := fld (wordAt e 0) 8 1
/-- BUF_CORE of a stream entry. -/
def seCore (e : List Word) : Nat := fld (wordAt e 0) 9 3
/-- OP_INDEX of a stream entry. -/
def seOp (e : List Word) : Nat := (wordAt e 1).toNat
/-- BUF_ADDR of a stream entry. -/
def seAddr (e : List Word) : Nat := fld (wordAt e 2) 0 24
/-- BUF_BYTES of a stream entry. -/
def seBytes (e : List Word) : Nat := fld (wordAt e 3) 0 24
/-- SRC of a stream entry. -/
def seSrc (e : List Word) : Nat := off52At e 4
/-- BYTES_BASE of a stream entry. -/
def seBase (e : List Word) : Nat := (wordAt e 6).toNat
/-- BYTES_FP8 of a stream entry. -/
def seFp8 (e : List Word) : Nat := (wordAt e 7).toNat
/-- Bytes that a stream entry lands at a rung (R248). -/
def seLen (e : List Word) (rung : Nat) : Nat := match rung with
  | 0 => seBase e
  | 1 => 2 * seBase e
  | _ => seFp8 e
/-- TARGET, DST, BYTES, SHARD of a restore entry. -/
def reTarget (e : List Word) : Nat := fld (wordAt e 0) 0 2
def reDst (e : List Word) : Nat := off52At e 1
def reBytes (e : List Word) : Nat := (wordAt e 3).toNat
def reShard (e : List Word) : Nat := (wordAt e 4).toNat

/-! Timing record (R156) and quota needs (R257). -/

/-- Word i of the timing record. -/
def tmWord (ws : List Word) (i : Nat) : Word := secWord ws 9 i
/-- POWER_W. -/
def powerW (ws : List Word) : Nat := fld (tmWord ws 6) 0 16
/-- MiB of quota need i. -/
def need (ws : List Word) (i : Nat) : Nat := fld (secWord ws 0x0A i) 0 24
/-- JOURNAL_MIB. -/
def journalMib (ws : List Word) : Nat := need ws 7
/-- The quota needs as numbers. -/
def needs (ws : List Word) : List Nat := (List.range 8).map (need ws)

/-! Expert maps (R208, R209). -/

/-- An expert map: its header words and entry words. -/
abbrev EMap := List Word × List Word

/-- Cut the expert-map section into maps. -/
def cutMaps : Nat → List Word → List EMap
  | 0, _ => []
  | fuel + 1, ws =>
    if ws.length < 8 then [] else
      let n := fld (wordAt ws 1) 0 13
      (ws.take 8, slice ws 8 (2 * n)) :: cutMaps fuel (ws.drop (8 + 2 * n))

/-- Byte offsets, counted from `o`, of the maps that `cutMaps` cuts. -/
def mapOffs : Nat → Nat → List Word → List Nat
  | 0, _, _ => []
  | fuel + 1, o, ws =>
    if ws.length < 8 then [] else
      let n := 8 + 2 * fld (wordAt ws 1) 0 13
      o :: mapOffs fuel (o + 4 * n) (ws.drop n)

/-- The expert maps of an image. -/
def imgMaps (ws : List Word) : List EMap := cutMaps (secCount ws 0x0C) (secWords ws 0x0C)
/-- The expert map of a number. -/
def mapOf (ws : List Word) (m : Nat) : Option EMap := (imgMaps ws).find? fun e => fld (wordAt e.1 0) 0 8 = m
def emMembers (m : EMap) : Nat := fld (wordAt m.1 0) 8 5
def emExperts (m : EMap) : Nat := fld (wordAt m.1 1) 0 13
def emSelects (m : EMap) : Nat := fld (wordAt m.1 1) 16 4 + 1
def emTokens (m : EMap) : Nat := fld (wordAt m.1 2) 0 17
def emQueueEntries (m : EMap) : Nat := fld (wordAt m.1 3) 0 13
def emRowBytes (m : EMap) : Nat := fld (wordAt m.1 3) 16 16
def emSpill (m : EMap) : Nat := fld (wordAt m.1 4) 0 24
def emColdSlots (m : EMap) : Nat := fld (wordAt m.1 5) 0 8
def emColdKib (m : EMap) : Nat := fld (wordAt m.1 6) 0 24
def emQueueOff (m : EMap) : Nat := fld (wordAt m.1 7) 0 24
/-- Bytes of a queue entry. -/
def emEntry (m : EMap) : Nat := 64 + emRowBytes m
/-- Member, cluster, queue, cold flag and WEIGHT of expert e. -/
def exMember (m : EMap) (e : Nat) : Nat := fld (wordAt m.2 (2 * e)) 0 4
def exCluster (m : EMap) (e : Nat) : Nat := fld (wordAt m.2 (2 * e)) 4 6
def exQueue (m : EMap) (e : Nat) : Nat := fld (wordAt m.2 (2 * e)) 10 4
def exCold (m : EMap) (e : Nat) : Bool := bitOf (wordAt m.2 (2 * e)) 14
def exWeight (m : EMap) (e : Nat) : Nat := (wordAt m.2 (2 * e + 1)).toNat

/-- COLD_SLOTS of a stage: the largest of its maps (R208). -/
def imgColdSlots (ws : List Word) : Nat := (imgMaps ws).foldl (fun n m => max n (emColdSlots m)) 0

/-- Step slots of the clusters of an image, the most that one has. -/
def imgSlots (ws : List Word) : Nat := (List.range 48).foldl (fun n c => if cmUsed ws c then max n (cmSlots ws c) else n) 1

/-- Bytes of the spill regions of an image: SPILL_ENTRIES per map and step slot (R208, R228). -/
def spillBytes (ws : List Word) : Nat := ((imgMaps ws).map fun m => emSpill m * emEntry m * imgSlots ws).sum

/-- Bytes of the data region: DATA_MIB less the spill regions (R257, log 17). -/
def dataBytes (ws : List Word) : Nat := need ws 1 * 2 ^ 20 - spillBytes ws

/-! The weight manifest (R278). -/

/-- STRIPED. -/
def mfStriped (ws : List Word) : Bool := bitOf (wordAt ws 1) 8
/-- MEMBER. -/
def mfMember (ws : List Word) : Nat := fld (wordAt ws 1) 9 3
/-- STRIPES. -/
def mfStripes (ws : List Word) : Nat := fld (wordAt ws 3) 0 24
/-- VERSION. -/
def mfVersion (ws : List Word) : Nat := dwordAt ws 4
/-- SET_TAG. -/
def mfTag (ws : List Word) : List Word := slice ws 8 8
/-- STANDBY_DIGEST. -/
def mfStandby (ws : List Word) : List Word := slice ws 16 8
/-- Word k of the shard record of stripe s. -/
def shardWord (ws : List Word) (s k : Nat) : Word := wordAt ws (32 + 16 * s + k)
def shKind (ws : List Word) (s : Nat) : Nat := fld (shardWord ws s 0) 0 8
def shImage (ws : List Word) (s : Nat) : Nat := fld (shardWord ws s 0) 8 1
def shFmt (ws : List Word) (s : Nat) : Nat := fld (shardWord ws s 0) 9 4
def shOp (ws : List Word) (s : Nat) : Nat := (shardWord ws s 1).toNat
def shCold (ws : List Word) (s : Nat) : Nat := fld (shardWord ws s 2) 0 12
def shBytes (ws : List Word) (s : Nat) : Nat := (shardWord ws s 3).toNat
def shPiece (ws : List Word) (s : Nat) : Nat := (shardWord ws s 4).toNat
def shHash (ws : List Word) (s : Nat) : List Word := slice ws (32 + 16 * s + 8) 8

/-- The stripes of a piece, in the order of PIECE_INDEX. -/
def pieceShards (mf : List Word) (kind image op cold : Nat) : List Nat :=
  let ss := (List.range (mfStripes mf)).filter fun s =>
    shKind mf s = kind && shImage mf s = image && shOp mf s = op && (kind != 5 || shCold mf s = cold)
  (List.range ss.length).filterMap fun i => ss.find? fun s => shPiece mf s = i

/-- A piece exists (R278). -/
def pieceExists (mf : List Word) (kind image op : Nat) : Bool :=
  (List.range (mfStripes mf)).any fun s => shKind mf s = kind && shImage mf s = image && shOp mf s = op

/-- Format code of a piece (R64, R278): that of its first shard record. -/
def pieceFmt (mf : List Word) (kind image op : Nat) : Nat :=
  (((List.range (mfStripes mf)).find? fun s => shKind mf s = kind && shImage mf s = image && shOp mf s = op).map (shFmt mf)).getD 0

/-- Bytes of a piece. -/
def pieceBytes (mf : List Word) (kind image op cold : Nat) : Nat :=
  ((pieceShards mf kind image op cold).map (shBytes mf)).sum

/-- The manifest digest (R279): the words before its signature section. -/
def mfBody (mf : List Word) : List Word := mf.take (32 + 16 * mfStripes mf)

end Sys2Proof.Machine
end

