-- ==== Sys2Proof/Machine/Operands.lean ====
section
/-! DEFINITION. The operands of the Pilot's commands: their named fields, the SRAM ranges they read and write, the checks
that a command passes alone (R80, R139, R171, R172, R211), and the reading of operand lines (R541). -/

namespace Sys2Proof.Machine

/-- An SRAM operand: written, space (0 core SRAM, 1 cluster SRAM), offset, bytes. -/
abbrev Opd := Bool × Nat × Nat × Nat

/-- Size of an SRAM space. -/
def spaceBytes (sp : Nat) : Nat := if sp = 0 then 2 ^ 22 else 2 ^ 24

/-- Flat address of an offset in the SRAM that a space bit names, for a core of a cluster (R16). -/
def flatOf (cluster core sp off : Nat) : Nat := if sp = 0 then coreAddr (8 * cluster + core) off else clusterAddr cluster off

/-- Offset and space of an address word. -/
def adr (w : Word) : Nat × Nat := (fld w 24 1, fld w 0 24)

/-- Parcels of a run of `n` elements in a block format (R541). -/
def parcelsOf (f : Fmt) (n : Nat) : Nat := cdiv (cdiv n f.blockLen) 7

/-- Bytes of a line of `n` elements (R541). -/
def lineBytes (f : Fmt) (n : Nat) : Nat := if f.isBlock then 64 * parcelsOf f n else f.bytes * n

/-- Bytes from the start of the first line to the end of the last. -/
def spanBytes (lines stride line : Nat) : Nat := if lines = 0 ∨ line = 0 then 0 else (lines - 1) * stride + line

/-- A format code as a format, FP32 for a reserved code. -/
def fmtD (c : Nat) : Fmt := (fmtOf c).getD .fp32

/-! PASS (R79). `d` is the descriptor, words 1 to 16 of the command. -/

def pFmtA (d : List Word) : Fmt := fmtD (fld (wordAt d 0) 0 4)
def pFmtB (d : List Word) : Fmt := fmtD (fld (wordAt d 0) 4 4)
def pFmtOut (d : List Word) : Fmt := fmtD (fld (wordAt d 0) 8 4)
def pTransA (d : List Word) : Bool := bitOf (wordAt d 0) 12
def pTransB (d : List Word) : Bool := bitOf (wordAt d 0) 13
def pAcc (d : List Word) : Bool := bitOf (wordAt d 0) 14
def pDrain (d : List Word) : Bool := bitOf (wordAt d 0) 15
def pHoldA (d : List Word) : Bool := bitOf (wordAt d 0) 16
def pHoldB (d : List Word) : Bool := bitOf (wordAt d 0) 17
def pRound (d : List Word) : Nat := fld (wordAt d 0) 18 2
def pScaleA (d : List Word) : Nat := fld (wordAt d 0) 20 2
def pScaleB (d : List Word) : Nat := fld (wordAt d 0) 22 2
def pThin (d : List Word) : Bool := fld (wordAt d 0) 24 2 = 1
def pRows (d : List Word) : Nat := fld (wordAt d 1) 0 7
def pCols (d : List Word) : Nat := fld (wordAt d 1) 8 7
def pK (d : List Word) : Nat := fld (wordAt d 2) 0 24
def pOp (d : List Word) : Nat := (wordAt d 11).toNat
def pElem (d : List Word) : Nat := dwordAt d 12
def pPitch (d : List Word) : Nat := (wordAt d 14).toNat
/-- The pass does nothing (R81). -/
def pEmpty (d : List Word) : Bool := pRows d = 0 || pCols d = 0 || pK d = 0

/-- Lines of operand A and the elements of each (R541). -/
def pLinesA (d : List Word) : Nat × Nat := if pTransA d then (pK d, pRows d) else (pRows d, pK d)
/-- Lines of operand B and the elements of each. -/
def pLinesB (d : List Word) : Nat × Nat := if pTransB d then (pK d, pCols d) else (pCols d, pK d)

/-- Segment length of a pass (R73). -/
def segLen (fa fb : Fmt) (ta tb : Bool) : Nat :=
  if fa.isBlock && !ta then fa.blockLen
  else if fb.isBlock && !tb then fb.blockLen
  else if fa.isBlock || fb.isBlock then 1
  else if fa.is16 || fb.is16 then 1
  else 32

/-- The SRAM operands of a pass. -/
def pOpds (d : List Word) : List Opd :=
  if pEmpty d then [] else
    let a := pLinesA d
    let b := pLinesB d
    [(false, (adr (wordAt d 3)).1, (adr (wordAt d 3)).2, spanBytes a.1 (fld (wordAt d 4) 0 24) (lineBytes (pFmtA d) a.2)),
     (false, (adr (wordAt d 5)).1, (adr (wordAt d 5)).2, spanBytes b.1 (fld (wordAt d 6) 0 24) (lineBytes (pFmtB d) b.2))] ++
    (if pDrain d then
      [(true, (adr (wordAt d 7)).1, (adr (wordAt d 7)).2,
        spanBytes (pRows d) (fld (wordAt d 8) 0 24) ((pFmtOut d).bytes * pCols d))] ++
      (if pScaleA d = 2 then [(false, (adr (wordAt d 9)).1, (adr (wordAt d 9)).2, 4 * pRows d)] else []) ++
      (if pScaleB d = 2 then [(false, (adr (wordAt d 10)).1, (adr (wordAt d 10)).2, 4 * pCols d)] else [])
    else [])

/-- Named fields of a pass descriptor: (word, lowest bit, width). -/
def pFields (d : List Word) : List (Nat × Nat × Nat) :=
  [(0, 0, 26), (1, 0, 7), (1, 8, 7), (2, 0, 24), (3, 0, 25), (4, 0, 24), (5, 0, 25), (6, 0, 24), (7, 0, 25), (8, 0, 24),
   (11, 0, 32), (12, 0, 32), (13, 0, 32), (14, 0, 32)] ++
  (match pScaleA d with
    | 1 => [(9, 0, 32)]
    | 2 => [(9, 0, 25)]
    | _ => []) ++
  (match pScaleB d with
    | 1 => [(10, 0, 32)]
    | 2 => [(10, 0, 25)]
    | _ => [])

/-- A format code is in the reserved range 0xB to 0xF (R32). -/
def fmtReserved (c : Nat) : Bool := decide (0xB ≤ c)

/-- The alignment of a block-format operand (R80). -/
def blockAligned (f : Fmt) (addr stride : Nat) : Bool := !f.isBlock || (addr % 64 = 0 && stride % 64 = 0)

/-- The alignment checks of a block-format operand whose address is in word i and whose stride is in word i + 1. -/
def alignChecks (f : Fmt) (d : List Word) (i : Nat) : List Check :=
  [(blockAligned f (fld (wordAt d i) 0 24) 0, 0x0006, i), (blockAligned f 0 (fld (wordAt d (i + 1)) 0 24), 0x0006, i + 1)]

/-- The checks of a pass descriptor (R80). -/
def passChecks (d : List Word) : List Check :=
  let w0 := wordAt d 0
  reservedChecks d 0 16 (pFields d) ++
  [(!fmtReserved (fld w0 0 4) && !fmtReserved (fld w0 4 4) && !fmtReserved (fld w0 8 4) && decide (pRound d < 2) &&
      pScaleA d != 3 && pScaleB d != 3 && decide (fld w0 24 2 < 2), 0x0001, 0),
    (pairOk (pFmtA d) (pFmtB d) && (pFmtOut d).isWide, 0x0007, 0), (decide (pRows d ≤ 64) && decide (pCols d ≤ 64), 0x0006, 1)] ++
  alignChecks (pFmtA d) d 3 ++ alignChecks (pFmtB d) d 5 ++
  [(!(pFmtA d).isBlock || pTransA d || pK d % (pFmtA d).blockLen == 0, 0x0006, 2),
    (!(pFmtB d).isBlock || pTransB d || pK d % (pFmtB d).blockLen == 0, 0x0006, 2)]

/-! QUANT and VEC (R139, R140). `c` is the whole command. -/

def qRows (c : List Word) : Nat := fld (wordAt c 3) 0 7
def qBlocks (c : List Word) : Nat := fld (wordAt c 3) 8 7
def qFmt (c : List Word) : Fmt := fmtD (fld (wordAt c 3) 16 4)
def qRound (c : List Word) : Nat := fld (wordAt c 3) 20 2
def qOp (c : List Word) : Nat := (wordAt c 6).toNat
def qElem (c : List Word) : Nat := dwordAt c 7

/-- The SRAM operands of a QUANT. -/
def qOpds (c : List Word) : List Opd :=
  if qBlocks c = 0 then [] else
    [(false, (adr (wordAt c 1)).1, (adr (wordAt c 1)).2,
        spanBytes (qRows c) (fld (wordAt c 4) 0 24) (4 * qBlocks c * (qFmt c).blockLen)),
     (true, (adr (wordAt c 2)).1, (adr (wordAt c 2)).2,
        spanBytes (qRows c) (fld (wordAt c 5) 0 24) (64 * cdiv (qBlocks c) 7))]

/-- The checks of a QUANT. -/
def quantChecks (c : List Word) : List Check :=
  reservedChecks c 1 9 [(1, 0, 25), (2, 0, 25), (3, 0, 7), (3, 8, 7), (3, 16, 6), (4, 0, 24), (5, 0, 24), (6, 0, 32), (7, 0, 32),
      (8, 0, 32)] ++
  [(!fmtReserved (fld (wordAt c 3) 16 4) && decide (qRound c < 2), 0x0001, 3), ((qFmt c).isBlock, 0x0007, 3),
    (decide (qRows c ≤ 64) && decide (qBlocks c ≤ 64), 0x0006, 3), ((adr (wordAt c 2)).2 % 64 == 0, 0x0006, 2),
    (fld (wordAt c 5) 0 24 % 64 == 0, 0x0006, 5)]

def vFunc (c : List Word) : Nat := fld (wordAt c 1) 0 8
def vIn (c : List Word) : Fmt := fmtD (fld (wordAt c 1) 8 4)
def vOut (c : List Word) : Fmt := fmtD (fld (wordAt c 1) 12 4)
def vRound (c : List Word) : Nat := fld (wordAt c 1) 16 2
def vLen (c : List Word) : Nat := fld (wordAt c 5) 0 24
def vRows (c : List Word) : Nat := fld (wordAt c 6) 0 16
def vOp (c : List Word) : Nat := (wordAt c 7).toNat
def vElem (c : List Word) : Nat := dwordAt c 8

/-- Bytes of operand B of a VEC function: a whole operand, one scale per row, or the weights and ε of the RMS norm. -/
def vBytesB (c : List Word) : Nat :=
  let e := (vIn c).bytes
  match vFunc c with
  | 1 => vRows c * vLen c * e
  | 2 => vRows c * vLen c * e
  | 3 => vRows c * e
  | 4 => 4 * cdiv ((adr (wordAt c 3)).2 + vLen c * e) 4 + 4 - (adr (wordAt c 3)).2
  | 5 => vRows c * vLen c * e
  | _ => 0

/-- Rows that a VEC writes: one for the merge of partial sums (R75, log 18). -/
def vOutRows (c : List Word) : Nat := if vFunc c = 7 then 1 else vRows c

/-- The SRAM operands of a VEC. -/
def vOpds (c : List Word) : List Opd :=
  if vLen c = 0 ∨ vRows c = 0 then [] else
    [(false, (adr (wordAt c 2)).1, (adr (wordAt c 2)).2, vRows c * vLen c * (vIn c).bytes),
     (false, (adr (wordAt c 3)).1, (adr (wordAt c 3)).2, vBytesB c),
     (true, (adr (wordAt c 4)).1, (adr (wordAt c 4)).2, vOutRows c * vLen c * (vOut c).bytes)]

/-- The checks of a VEC. -/
def vecChecks (c : List Word) : List Check :=
  reservedChecks c 1 10 [(1, 0, 18), (2, 0, 25), (3, 0, 25), (4, 0, 25), (5, 0, 24), (6, 0, 16), (7, 0, 32), (8, 0, 32),
      (9, 0, 32)] ++
  [(vFunc c != 0 && decide (vFunc c ≤ 8) && decide (vRound c < 2) && !fmtReserved (fld (wordAt c 1) 8 4) &&
      !fmtReserved (fld (wordAt c 1) 12 4), 0x0001, 1),
    (decide (vFunc c < 6) || wordAt c 3 == 0, 0x0001, 3), ((vIn c).isWide && (vOut c).isWide, 0x0007, 1)]

/-! ATTEND (R170). -/

def aMode (c : List Word) : Nat := fld (wordAt c 1) 0 2
def aCausal (c : List Word) : Nat := fld (wordAt c 1) 2 2
def aWindow (c : List Word) : Bool := bitOf (wordAt c 1) 4
def aMaskOn (c : List Word) : Bool := bitOf (wordAt c 1) 5
def aStoreP (c : List Word) : Bool := bitOf (wordAt c 1) 6
def aAppend (c : List Word) : Bool := bitOf (wordAt c 1) 7
def aInit (c : List Word) : Bool := bitOf (wordAt c 1) 8
def aPFp8 (c : List Word) : Bool := bitOf (wordAt c 1) 9
def aFerry (c : List Word) : Bool := bitOf (wordAt c 1) 10
def aFmtQ (c : List Word) : Fmt := fmtD (fld (wordAt c 1) 16 4)
def aFmtK (c : List Word) : Fmt := fmtD (fld (wordAt c 1) 20 4)
def aFmtV (c : List Word) : Fmt := fmtD (fld (wordAt c 1) 24 4)
def aFmtOut (c : List Word) : Fmt := fmtD (fld (wordAt c 1) 28 4)
def aOp (c : List Word) : Nat := (wordAt c 2).toNat
def aRows (c : List Word) : Nat := fld (wordAt c 3) 0 7
def aDim (c : List Word) : Nat := fld (wordAt c 3) 8 9
def aHead (c : List Word) : Nat := fld (wordAt c 3) 24 8
def aTable (c : List Word) : Nat := fld (wordAt c 4) 0 8
def aPageCode (c : List Word) : Nat := fld (wordAt c 4) 8 2
def aHeads (c : List Word) : Nat := fld (wordAt c 4) 16 8 + 1
def aSlot (c : List Word) : Nat := fld (wordAt c 5) 0 16
def aKeyFirst (c : List Word) : Nat := fld (wordAt c 6) 0 24
def aKeyCount (c : List Word) : Nat := fld (wordAt c 7) 0 25
def aPartCount (c : List Word) : Nat := fld (wordAt c 13) 0 16
def aPartStride (c : List Word) : Nat := fld (wordAt c 14) 0 24
def aScale (c : List Word) : Word := wordAt c 15
def aWinLen (c : List Word) : Nat := fld (wordAt c 16) 0 24
def aNew (c : List Word) : Nat := fld (wordAt c 19) 0 13
def aScratch (c : List Word) : Nat := fld (wordAt c 20) 0 24
def aPStore (c : List Word) : Nat := off52At c 21
def aFerryBuf (c : List Word) : Nat := off52At c 23
/-- Tokens of a page. -/
def pageTokens (code : Nat) : Nat := 64 * 2 ^ code
/-- Bytes of one partial record set. -/
def recordSet (c : List Word) : Nat := aRows c * (4 + aDim c) * 4

/-- The parameters of the KV table that an ATTEND names (R184): table, page, heads, head dimension, key and value format. -/
def kvParams (c : List Word) : Nat × Nat × Nat × Nat × Fmt × Fmt :=
  (aTable c, pageTokens (aPageCode c), aHeads c, aDim c, aFmtK c, aFmtV c)

/-- The SRAM operands of an ATTEND. -/
def aOpds (c : List Word) : List Opd :=
  if aRows c = 0 then [] else
    let at_ (w n : Nat) (wr : Bool) : Opd := (wr, (adr (wordAt c w)).1, (adr (wordAt c w)).2, n)
    (if aMode c = 2 then
      [at_ 12 (spanBytes (aPartCount c) (aPartStride c) (recordSet c)) false]
    else
      [at_ 8 (aRows c * lineBytes (aFmtQ c) (aDim c)) false, at_ 9 (4 * aRows c) false,
       (true, 0, aScratch c, 262144)] ++
      (if aMaskOn c then [at_ 17 (cdiv (cdiv (aKeyCount c) 64) 8) false] else []) ++
      (if aAppend c then [at_ 18 (2 * aNew c * aDim c * 4) false] else []) ++
      (if aMode c = 1 ∧ ¬ aInit c then [at_ 12 (recordSet c) false] else [])) ++
    (if aMode c = 1 then [at_ 10 (recordSet c) true]
     else [at_ 10 (aRows c * aDim c * (aFmtOut c).bytes) true, at_ 11 (8 * aRows c) true])

/-- Formats that ATTEND takes as a query, key, value or output (R171). -/
def qOk (f : Fmt) : Bool := f.is16 || f.isFp8
def kOk (f : Fmt) : Bool := f.is16 || f.isFp8 || f == .fp4 || f == .int4
def oOk (f : Fmt) : Bool := f == .fp32 || f.is16 || f.isFp8

/-- An address field of an ATTEND is a multiple of n. -/
def aAligned (c : List Word) (w n : Nat) : Check := (fld (wordAt c w) 0 24 % n == 0, 0x0013, w)

/-- The checks of an ATTEND (R172). Fields that its mode does not use are ignored (R170): MERGE uses no query, key or value, and
PARTIAL no output format. -/
def attendChecks (c : List Word) : List Check :=
  let w1 := wordAt c 1
  let merge := aMode c == 2
  let final := aMode c != 1
  let need (b : Bool) (q : Check) : Check := (!b || q.1, q.2)
  reservedChecks c 1 26 [(1, 0, 11), (1, 16, 16), (2, 0, 32), (3, 0, 7), (3, 8, 9), (3, 24, 8), (4, 0, 8), (4, 8, 2), (4, 16, 8),
      (5, 0, 16), (6, 0, 24), (7, 0, 25), (8, 0, 25), (9, 0, 25), (10, 0, 25), (11, 0, 25), (12, 0, 25), (13, 0, 16), (14, 0, 24),
      (15, 0, 32), (16, 0, 24), (17, 0, 25), (18, 0, 25), (19, 0, 13), (20, 0, 24), (21, 0, 32), (22, 0, 20), (23, 0, 32),
      (24, 0, 20)] ++
  [(aMode c != 3, 0x0001, 1),
    need (!merge) (aCausal c != 3 && !fmtReserved (fld w1 16 4) && !fmtReserved (fld w1 20 4) && !fmtReserved (fld w1 24 4), 0x0001, 1),
    need final (!fmtReserved (fld w1 28 4), 0x0001, 1), need (!merge) (aPageCode c != 3, 0x0001, 4),
    need (!merge) (qOk (aFmtQ c) && kOk (aFmtK c) && qOk (aFmtV c), 0x0007, 1), need final (oOk (aFmtOut c), 0x0007, 1),
    (decide (aRows c ≤ 64) && aDim c % 32 == 0 && decide (32 ≤ aDim c) && decide (aDim c ≤ 256), 0x0013, 3),
    need (!merge) (decide (aHead c < aHeads c), 0x0013, 3), need (!merge) (aKeyFirst c % 64 == 0, 0x0013, 6),
    need (!merge) (decide (aKeyCount c ≤ 16777216), 0x0013, 7), need (!merge) (decide (aNew c ≤ 4096), 0x0013, 19),
    (!(merge && (aAppend c || aStoreP c)) && !(!merge && aAppend c && aFerry c), 0x0013, 1),
    need (!merge) (aAligned c 8 64), need (!merge) (aAligned c 9 4), need (!merge) (aAligned c 20 64), aAligned c 10 64,
    need final (aAligned c 11 4), need (aMaskOn c && !merge) (aAligned c 17 4), need (merge || (!final && !aInit c)) (aAligned c 12 64),
    need (!merge && aAppend c) (aAligned c 18 64), need (!merge && aStoreP c) (aPStore c % 4096 == 0, 0x0013, 21),
    need (!merge && aFerry c) (aFerryBuf c % 4096 == 0, 0x0013, 23)]

/-! ROUTE (R210). -/

def rMode (c : List Word) : Nat := fld (wordAt c 1) 0 3
def rGate (c : List Word) : Nat := fld (wordAt c 1) 3 2
def rRenorm (c : List Word) : Bool := bitOf (wordAt c 1) 5
def rBias (c : List Word) : Bool := bitOf (wordAt c 1) 6
def rShared (c : List Word) : Bool := bitOf (wordAt c 1) 7
def rPost (c : List Word) : Bool := bitOf (wordAt c 1) 8
def rTopk (c : List Word) : Nat := fld (wordAt c 1) 12 4
def rFmtRow (c : List Word) : Fmt := fmtD (fld (wordAt c 1) 16 4)
def rFmtOut (c : List Word) : Fmt := fmtD (fld (wordAt c 1) 20 4)
def rQueue (c : List Word) : Nat := fld (wordAt c 1) 24 4
def rOp (c : List Word) : Nat := (wordAt c 2).toNat
def rTokens (c : List Word) : Nat := fld (wordAt c 3) 0 16
def rTokenBase (c : List Word) : Nat := fld (wordAt c 3) 16 16
def rExperts (c : List Word) : Nat := fld (wordAt c 4) 0 13
def rMap (c : List Word) : Nat := fld (wordAt c 4) 16 8
def rInStride (c : List Word) : Nat := fld (wordAt c 6) 0 24
def rRowStride (c : List Word) : Nat := fld (wordAt c 9) 0 24
def rRowBytes (c : List Word) : Nat := fld (wordAt c 10) 0 16
def rFar (c : List Word) : Nat := off52At c 12
def rFarKind (c : List Word) : Nat := fld (wordAt c 13) 20 4
def rRetStride (c : List Word) : Nat := fld (wordAt c 14) 0 24
def rRound (c : List Word) : Nat := fld (wordAt c 15) 0 16
def rDestMember (c : List Word) : Nat := fld (wordAt c 16) 0 6
def rDestTable (c : List Word) : Nat := fld (wordAt c 16) 6 2
def rDstCluster (c : List Word) : Nat := fld (wordAt c 16) 8 6
def rRegion (c : List Word) : Nat := fld (wordAt c 16) 14 4
def rDst (c : List Word) : Nat := off52At c 17
def rDstKind (c : List Word) : Nat := fld (wordAt c 18) 20 4
def rBytes (c : List Word) : Nat := (wordAt c 19).toNat

/-- A row of `elems` elements of FMT_ROW. -/
def rowLen (c : List Word) (bytes : Nat) : Nat := bytes / (rFmtRow c).bytes

/-- The SRAM operands of a ROUTE; `rowB` is the ROW_BYTES of the map and `retB` the result bytes of its rows. -/
def rOpds (c : List Word) (rowB outRow : Nat) : List Opd :=
  let at_ (w n : Nat) (wr : Bool) : Opd := (wr, (adr (wordAt c w)).1, (adr (wordAt c w)).2, n)
  match rMode c with
  | 0 => if rTokens c = 0 then [] else
    [at_ 5 (spanBytes (rTokens c) (rInStride c) (4 * rExperts c)) false,
     at_ 8 (spanBytes (rTokens c) (rRowStride c) rowB) false, at_ 11 (64 * rTokens c) true] ++
    (if rBias c then [at_ 7 (4 * rExperts c) false] else [])
  | 1 => [at_ 11 32 true]
  | 2 => [at_ 8 (spanBytes 64 (rRowStride c) (64 + rowB)) true]
  | 3 => [at_ 8 (spanBytes 64 (rRowStride c) (rRowBytes c)) false]
  | 4 => if rTokens c = 0 then [] else
    [at_ 11 (64 * rTokens c) false, at_ 8 (spanBytes (rTokens c) (rRowStride c) (outRow * (rFmtOut c).bytes)) true] ++
    (if rShared c then [at_ 5 (spanBytes (rTokens c) (rInStride c) (4 * outRow)) false] else []) ++
    (if rFarKind c = 1 then [(false, 1, rFar c, rTokens c * rTopk c * rRetStride c)] else [])
  | _ => if rFarKind c = 2 then [] else [at_ 5 (rBytes c) false]

/-- The return area of a SELECT in its own cluster's SRAM, which the results of its rows come back to (R210). -/
def rArea (c : List Word) : List Opd :=
  if rMode c = 0 ∧ rFarKind c = 1 then [(false, 1, rFar c, rTokens c * rTopk c * rRetStride c)] else []

/-- The checks of a ROUTE by itself (R211). Fields that its mode does not use are ignored (R210); a TOKENS above its range is
refused as the other fields out of range are (DESIGN CHOICE, log 121). -/
def routeChecks (c : List Word) : List Check :=
  let m := rMode c
  let pick := m == 0 || m == 4
  let need (b : Bool) (q : Check) : Check := (!b || q.1, q.2)
  reservedChecks c 1 20 [(1, 0, 9), (1, 12, 16), (2, 0, 32), (3, 0, 32), (4, 0, 13), (4, 16, 8), (5, 0, 25), (6, 0, 24), (7, 0, 25),
      (8, 0, 25), (9, 0, 24), (10, 0, 16), (11, 0, 25), (12, 0, 32), (13, 0, 24), (14, 0, 24), (15, 0, 16), (16, 0, 18), (17, 0, 32),
      (18, 0, 24), (19, 0, 32)] ++
  [(decide (m < 6), 0x0001, 1), need (m == 0) (rGate c != 3, 0x0001, 1), need (m == 5) (rDestTable c != 3, 0x0001, 16),
    need pick (!fmtReserved (fld (wordAt c 1) 16 4), 0x0001, 1), need (m == 4) (!fmtReserved (fld (wordAt c 1) 20 4), 0x0001, 1),
    need pick ((rFmtRow c).isWide, 0x0007, 1), need (m == 4) ((rFmtOut c).isWide, 0x0007, 1),
    need pick (decide (rTopk c ≤ 8), 0x0014, 1), need pick (decide (rTokens c ≤ 4096), 0x0014, 3),
    need (decide (m ∈ [0, 2, 3, 4])) (rRowStride c % 64 == 0, 0x0014, 9), need (m == 3) (rRowBytes c % 64 == 0, 0x0014, 10),
    need pick (rFarKind c == 1 || rFarKind c == 2, 0x0014, 13), need (m == 5) (rDstKind c == 2 || rDstKind c == 3, 0x0014, 18),
    need (m == 3) (decide (rRowBytes c ≤ rRowStride c), 0x0014, 9)]

/-! MOVE, EXPAND and END_STEP. -/

def mSrcKind (c : List Word) : Nat := fld (wordAt c 2) 20 4
def mSrc (c : List Word) : Nat := off52At c 1
def mDstKind (c : List Word) : Nat := fld (wordAt c 4) 20 4
def mDst (c : List Word) : Nat := off52At c 3
def mDstCluster (c : List Word) : Nat := fld (wordAt c 4) 24 8
def mBytes (c : List Word) : Nat := (wordAt c 5).toNat
def mRegion (c : List Word) : Nat := fld (wordAt c 6) 0 4

/-- The SRAM operands of a MOVE in its own cluster. -/
def mOpds (c : List Word) : List Opd :=
  (if mSrcKind c < 2 ∧ mBytes c ≠ 0 then [(false, mSrcKind c, mSrc c, mBytes c)] else []) ++
  (if mDstKind c < 2 ∧ mBytes c ≠ 0 then [(true, mDstKind c, mDst c, mBytes c)] else [])

/-- Region and offset of a 52-bit HBM offset (R237). -/
def hbmRegion (off : Nat) : Nat := off / 2 ^ 48
def hbmIn (off : Nat) : Nat := off % 2 ^ 48
/-- Compute die of a weight-region offset (R237). -/
def weightDie (off : Nat) : Nat := hbmIn off / 2 ^ 36 % 4

/-- The checks of a MOVE by itself: reserved kinds, and destinations in protected regions (R20, R139, R239). -/
def moveChecks (c : List Word) : List Check :=
  reservedChecks c 1 7 [(1, 0, 32), (2, 0, 24), (3, 0, 32), (4, 0, 32), (5, 0, 32), (6, 0, 4)] ++
  [(decide (mSrcKind c ≤ 2), 0x0001, 2), (decide (mDstKind c ≤ 3), 0x0001, 4), (mDstKind c != 2 || hbmRegion (mDst c) != 0, 0x0009, 4),
    (mDstKind c != 2 || hbmRegion (mDst c) == 1, 0x0015, 4)]

/-- The SRAM operands of END_STEP. -/
def eOpds (c : List Word) : List Opd :=
  if wordAt c 2 = 0 then [] else [(false, (adr (wordAt c 1)).1, (adr (wordAt c 1)).2, (wordAt c 2).toNat)]

/-- The SRAM operands of an EXPAND: a count read from SRAM (R148). The parameter records are read by a reader that knows
the count. -/
def xOpds (c : List Word) : List Opd :=
  if bitOf (wordAt c 1) 16 then [(false, (adr (wordAt c 2)).1, (adr (wordAt c 2)).2, 4)] else []

/-- The SRAM operands of any command. -/
def cmdOpds (rowB outRow : Nat) (c : List Word) : List Opd :=
  match cOp c with
  | 1 => pOpds (c.drop 1)
  | 2 => qOpds c
  | 3 => vOpds c
  | 4 => aOpds c
  | 5 => rOpds c rowB outRow
  | 6 => mOpds c
  | 10 => xOpds c
  | 13 => eOpds c
  | _ => []

/-- An operand lies within the SRAM its space names (R16). -/
def opdOk (o : Opd) : Bool := o.2.2.2 = 0 || decide (o.2.2.1 + o.2.2.2 ≤ spaceBytes o.2.1)

/-- The word of a command that gives the address of its n-th SRAM operand (R164). -/
def opdWord (c : List Word) (n : Nat) : Nat :=
  let at_ (ws : List Nat) : Nat := ws.getD n 0
  match cOp c with
  | 1 => at_ ([4, 6] ++ [8] ++ (if pScaleA (c.drop 1) = 2 then [10] else []) ++ [11])
  | 2 => at_ [1, 2]
  | 3 => at_ [2, 3, 4]
  | 4 => at_ ((if aMode c = 2 then [12] else [8, 9, 20] ++ (if aMaskOn c then [17] else []) ++ (if aAppend c then [18] else []) ++
      (if aMode c = 1 ∧ ¬ aInit c then [12] else [])) ++ [10, 11])
  | 5 => at_ (match rMode c with
      | 0 => [5, 8, 11] ++ (if rBias c then [7] else []) ++ [12]
      | 1 => [11]
      | 4 => [11, 8] ++ (if rShared c then [5] else []) ++ [12]
      | 5 => [5]
      | _ => [8])
  | 6 => at_ ((if mSrcKind c < 2 ∧ mBytes c ≠ 0 then [1] else []) ++ [3])
  | 10 => 2
  | _ => 1

/-- The checks of a command by itself: its opcode and length (R139), its reserved fields and formats, its own rules, and its
SRAM ranges (R16). -/
def cmdChecks (rowB outRow : Nat) (c : List Word) : List Check :=
  let only (n : Nat) (ok : List (Nat × Nat × Nat)) : List Check := reservedChecks c 1 n ok
  [(opLen (cOp c) == some (cWords c) && c.length == cWords c, 0x000B, 0), (fld (wordAt c 0) 19 13 == 0, 0x0001, 0)] ++
  (match cOp c with
    | 1 => (passChecks (c.drop 1)).map fun q => (q.1, q.2.1, q.2.2 + 1)
    | 2 => quantChecks c
    | 3 => vecChecks c
    | 4 => attendChecks c
    | 5 => routeChecks c
    | 6 => moveChecks c
    | 7 => only 2 [(1, 0, 16)]
    | 8 => only 2 [(1, 0, 16)]
    | 9 => only 2 [(1, 0, 6)]
    | 10 => only 6 ([(1, 0, 17), (3, 0, 25), (4, 0, 16), (5, 0, 32)] ++
        [if bitOf (wordAt c 1) 16 then (2, 0, 25) else (2, 0, 32)]) ++ [(fld (wordAt c 4) 0 2 == 0, 0x000C, 4)]
    | 11 => only 2 [(1, 0, 12)]
    | 12 => only 2 [(1, 0, 4)]
    | 13 => only 3 [(1, 0, 26), (2, 0, 32)]
    | _ => []) ++
  (cmdOpds rowB outRow c ++ (if cOp c = 5 then rArea c else [])).mapIdx fun i o => (opdOk o, 0x0008, opdWord c i)
/-- Reason and word for which a command is refused by itself; reason 0 when it passes. -/
def cmdReason (rowB outRow : Nat) (c : List Word) : Nat × Nat := firstBad (cmdChecks rowB outRow c)

/-! Reading operand lines (R541). -/

/-- A line read from memory: its element values, the scale of each block with its code when it is block-scaled, and the
parcels and TERN bytes in it that fail their checks (R41, R49). -/
structure Line where
  elems : List FV
  scales : List (Nat × FV)
  badParcels : Nat
  badTern : Nat

/-- The values of the wide elements held in bytes. -/
def wideElems (f : Fmt) : Nat → List Byte → List FV
  | 0, _ => []
  | n + 1, bs => decWide f (natOfBytes (bs.take f.bytes)) :: wideElems f n (bs.drop f.bytes)

/-- The parcels of a line. -/
def cutParcels : Nat → List Byte → List (List Byte)
  | 0, _ => []
  | n + 1, bs => bs.take 64 :: cutParcels n (bs.drop 64)

/-- Read a line of `n` elements from its bytes. -/
def readLine (f : Fmt) (n : Nat) (bs : List Byte) : Line :=
  if f.isBlock then
    let ps := cutParcels (parcelsOf f n) bs
    let blocks := (ps.flatMap fun p => (List.range 7).map (parcelBlock p)).take (cdiv n f.blockLen)
    { elems := (List.range n).map fun i =>
        match blocks[i / f.blockLen]? with
        | some b => b.elem f (i % f.blockLen)
        | none => FV.zero
      scales := blocks.map fun b => (b.scale.toNat, ue5m3Val b.scale.toNat)
      badParcels := (ps.filter fun p => !parcelOk p).length
      badTern := (ps.map fun p => ((List.range 7).map fun j => (parcelBlock p j).ternBad f).sum).sum }
  else { elems := wideElems f n bs, scales := [], badParcels := 0, badTern := 0 }

/-- The `count` lines of an operand at a flat address. -/
def readLines (s : State) (a count stride : Nat) (f : Fmt) (n : Nat) : List (List Byte) :=
  (List.range count).map fun l => sramRead s (a + l * stride) (lineBytes f n)

end Sys2Proof.Machine
end

