-- ==== Sys2Proof/Machine/Crypto.lean ====
section
/-! DEFINITION. The checks that the manual names by their standards: SHA-256, ECDSA over P-256 (R480), CRC-16 (R262),
CRC-32 (R194) and CRC-32C (R281). -/

namespace Sys2Proof.Machine

/-! SHA-256, on numbers below 2^32. -/

/-- Round constants. -/
def shaK : List Nat :=
  [0x428A2F98, 0x71374491, 0xB5C0FBCF, 0xE9B5DBA5, 0x3956C25B, 0x59F111F1, 0x923F82A4, 0xAB1C5ED5] ++
  [0xD807AA98, 0x12835B01, 0x243185BE, 0x550C7DC3, 0x72BE5D74, 0x80DEB1FE, 0x9BDC06A7, 0xC19BF174] ++
  [0xE49B69C1, 0xEFBE4786, 0x0FC19DC6, 0x240CA1CC, 0x2DE92C6F, 0x4A7484AA, 0x5CB0A9DC, 0x76F988DA] ++
  [0x983E5152, 0xA831C66D, 0xB00327C8, 0xBF597FC7, 0xC6E00BF3, 0xD5A79147, 0x06CA6351, 0x14292967] ++
  [0x27B70A85, 0x2E1B2138, 0x4D2C6DFC, 0x53380D13, 0x650A7354, 0x766A0ABB, 0x81C2C92E, 0x92722C85] ++
  [0xA2BFE8A1, 0xA81A664B, 0xC24B8B70, 0xC76C51A3, 0xD192E819, 0xD6990624, 0xF40E3585, 0x106AA070] ++
  [0x19A4C116, 0x1E376C08, 0x2748774C, 0x34B0BCB5, 0x391C0CB3, 0x4ED8AA4A, 0x5B9CCA4F, 0x682E6FF3] ++
  [0x748F82EE, 0x78A5636F, 0x84C87814, 0x8CC70208, 0x90BEFFFA, 0xA4506CEB, 0xBEF9A3F7, 0xC67178F2]

/-- Initial hash value. -/
def shaH0 : List Nat := [0x6A09E667, 0xBB67AE85, 0x3C6EF372, 0xA54FF53A, 0x510E527F, 0x9B05688C, 0x1F83D9AB, 0x5BE0CD19]

/-- Rotate right by n. -/
def rotr (x n : Nat) : Nat := (Nat.lor (x >>> n) (x <<< (32 - n))) % 2 ^ 32

/-- Four big-endian bytes as a number. -/
def be32 (bs : List Byte) : Nat := bs.foldl (fun a b => a * 256 + b.toNat) 0

/-- The padded message: a one bit, zeros, and the length in bits as 8 big-endian bytes. -/
def shaPad (bs : List Byte) : List Byte :=
  let n := bs.length
  let z := (119 - n % 64) % 64
  bs ++ [0x80#8] ++ List.replicate z 0#8 ++ (natBytes 8 (8 * n)).reverse

/-- Extend the message schedule, held newest first. -/
def shaExtend : Nat → List Nat → List Nat
  | 0, w => w
  | k + 1, w =>
    let w2 := w.getD 1 0
    let w15 := w.getD 14 0
    let s1 := Nat.xor (Nat.xor (rotr w2 17) (rotr w2 19)) (w2 >>> 10)
    let s0 := Nat.xor (Nat.xor (rotr w15 7) (rotr w15 18)) (w15 >>> 3)
    shaExtend k ((s1 + w.getD 6 0 + s0 + w.getD 15 0) % 2 ^ 32 :: w)

/-- The eight working variables. -/
structure ShaSt where
  a : Nat
  b : Nat
  c : Nat
  d : Nat
  e : Nat
  f : Nat
  g : Nat
  h : Nat

/-- One round. -/
def shaRound (s : ShaSt) (kw : Nat × Nat) : ShaSt :=
  let s1 := Nat.xor (Nat.xor (rotr s.e 6) (rotr s.e 11)) (rotr s.e 25)
  let ch := Nat.xor (Nat.land s.e s.f) (Nat.land (2 ^ 32 - 1 - s.e) s.g)
  let t1 := s.h + s1 + ch + kw.1 + kw.2
  let s0 := Nat.xor (Nat.xor (rotr s.a 2) (rotr s.a 13)) (rotr s.a 22)
  let maj := Nat.xor (Nat.xor (Nat.land s.a s.b) (Nat.land s.a s.c)) (Nat.land s.b s.c)
  { a := (t1 + s0 + maj) % 2 ^ 32, b := s.a, c := s.b, d := s.c, e := (s.d + t1) % 2 ^ 32, f := s.e, g := s.f, h := s.g }

/-- One block of 64 bytes. -/
def shaBlock (hs : List Nat) (blk : List Byte) : List Nat :=
  let w0 := (List.range 16).map fun i => be32 (slice blk (4 * i) 4)
  let w := (shaExtend 48 w0.reverse).reverse
  let g := fun i => hs.getD i 0
  let r := (shaK.zip w).foldl shaRound { a := g 0, b := g 1, c := g 2, d := g 3, e := g 4, f := g 5, g := g 6, h := g 7 }
  [(g 0 + r.a) % 2 ^ 32, (g 1 + r.b) % 2 ^ 32, (g 2 + r.c) % 2 ^ 32, (g 3 + r.d) % 2 ^ 32, (g 4 + r.e) % 2 ^ 32,
   (g 5 + r.f) % 2 ^ 32, (g 6 + r.g) % 2 ^ 32, (g 7 + r.h) % 2 ^ 32]

/-- The blocks of a padded message, by fuel. -/
def shaBlocks : Nat → List Nat → List Byte → List Nat
  | 0, hs, _ => hs
  | k + 1, hs, bs => if bs = [] then hs else shaBlocks k (shaBlock hs (bs.take 64)) (bs.drop 64)

/-- SHA-256 of a message: 32 bytes. -/
def sha256 (bs : List Byte) : List Byte :=
  let p := shaPad bs
  (shaBlocks (p.length / 64) shaH0 p).flatMap fun x => (natBytes 4 x).reverse

/-! ECDSA over P-256 (R480). -/

/-- The field prime. -/
def p256P : Nat := 0xFFFFFFFF00000001000000000000000000000000FFFFFFFFFFFFFFFFFFFFFFFF
/-- The curve order. -/
def p256N : Nat := 0xFFFFFFFF00000000FFFFFFFFFFFFFFFFBCE6FAADA7179E84F3B9CAC2FC632551
/-- The curve coefficient b. -/
def p256B : Nat := 0x5AC635D8AA3A93E7B3EBBD55769886BC651D06B0CC53B0F63BCE3C3E27D2604B
/-- The base point. -/
def p256Gx : Nat := 0x6B17D1F2E12C4247F8BCE6E563A440F277037D812DEB33A0F4A13945D898C296
def p256Gy : Nat := 0x4FE342E2FE1A7F9B8EE7EB4A7C0F9E162BCE33576B315ECECBB6406837BF51F5

/-- b to the e modulo m, by the bits of e. -/
def powMod (m : Nat) : Nat → Nat → Nat → Nat → Nat
  | 0, _, _, acc => acc
  | k + 1, b, e, acc => powMod m k (b * b % m) (e / 2) (if e % 2 = 1 then acc * b % m else acc)

/-- The inverse modulo a prime of at most 256 bits. -/
def invMod (m a : Nat) : Nat := powMod m 256 (a % m) (m - 2) 1

/-- A point in Jacobian coordinates; z = 0 is the point at infinity. -/
structure Jac where
  x : Nat
  y : Nat
  z : Nat

/-- a - b modulo the field prime, for b below it. -/
def fsubP (a b : Nat) : Nat := (a + p256P - b) % p256P

/-- Double a point of the curve (a = -3). -/
def Jac.dbl (q : Jac) : Jac :=
  if q.z = 0 then q
  else
    let P := p256P
    let zz := q.z * q.z % P
    let yy := q.y * q.y % P
    let beta := q.x * yy % P
    let alpha := 3 * (fsubP q.x zz * (q.x + zz) % P) % P
    let x3 := fsubP (alpha * alpha % P) (8 * beta % P)
    let z3 := 2 * q.y * q.z % P
    let y3 := fsubP (alpha * fsubP (4 * beta % P) x3 % P) (8 * (yy * yy % P) % P)
    { x := x3, y := y3, z := z3 }

/-- Add two points. -/
def Jac.plus (p q : Jac) : Jac :=
  if p.z = 0 then q
  else if q.z = 0 then p
  else
    let P := p256P
    let z1 := p.z * p.z % P
    let z2 := q.z * q.z % P
    let u1 := p.x * z2 % P
    let u2 := q.x * z1 % P
    let s1 := p.y * (q.z * z2 % P) % P
    let s2 := q.y * (p.z * z1 % P) % P
    let h := fsubP u2 u1
    let r := fsubP s2 s1
    if h = 0 then if r = 0 then p.dbl else { x := 1, y := 1, z := 0 }
    else
      let h2 := h * h % P
      let h3 := h * h2 % P
      let v := u1 * h2 % P
      let x3 := fsubP (fsubP (r * r % P) h3) (2 * v % P)
      { x := x3, y := fsubP (r * fsubP v x3 % P) (s1 * h3 % P), z := h * (p.z * q.z % P) % P }

/-- u1 times p plus u2 times q, from the top bit down. -/
def Jac.comb (p q pq : Jac) (u1 u2 : Nat) : Nat → Jac → Jac
  | 0, acc => acc
  | k + 1, acc =>
    let d := acc.dbl
    let b1 := u1.testBit k
    let b2 := u2.testBit k
    Jac.comb p q pq u1 u2 k (if b1 then (if b2 then d.plus pq else d.plus p) else if b2 then d.plus q else d)

/-- Whether a point lies on the curve with coordinates below the prime. -/
def onCurve (x y : Nat) : Bool :=
  decide (x < p256P) && decide (y < p256P) &&
    decide (y * y % p256P = (x * x % p256P * x + p256B + 3 * (p256P - x)) % p256P)

/-- ECDSA verification: the digest as a big-endian number, the public key and the signature. -/
def ecdsaOk (digest : Nat) (qx qy r s : Nat) : Bool :=
  if r = 0 ∨ s = 0 ∨ p256N ≤ r ∨ p256N ≤ s ∨ onCurve qx qy = false then false
  else
    let w := invMod p256N s
    let u1 := digest * w % p256N
    let u2 := r * w % p256N
    let g : Jac := { x := p256Gx, y := p256Gy, z := 1 }
    let q : Jac := { x := qx, y := qy, z := 1 }
    let t := Jac.comb g q (g.plus q) u1 u2 256 { x := 1, y := 1, z := 0 }
    if t.z = 0 then false
    else
      let zi := invMod p256P t.z
      decide (t.x * (zi * zi % p256P) % p256P % p256N = r)

/-- A digest as the number that ECDSA signs: its bytes, most significant first. -/
def digestNat (d : List Byte) : Nat := d.foldl (fun a b => a * 256 + b.toNat) 0

/-- Verify a signature over a message with a public key of 64 bytes, x then y, little-endian (R480). -/
def verifySig (msg key : List Byte) (r s : Nat) : Bool :=
  ecdsaOk (digestNat (sha256 msg)) (natOfBytes (key.take 32)) (natOfBytes (key.drop 32)) r s

/-! Cyclic redundancy checks. -/

/-- One bit of a reflected CRC-32. -/
def crcBit (poly c : Nat) : Nat := if c % 2 = 1 then Nat.xor (c / 2) poly else c / 2
/-- One byte of a reflected CRC-32. -/
def crcByte (poly c : Nat) (b : Byte) : Nat := Nat.repeat (crcBit poly) 8 (Nat.xor c b.toNat)
/-- CRC-32 of the IEEE 802.3 parameters (R194). -/
def crc32 (bs : List Byte) : Nat := Nat.xor (bs.foldl (crcByte 0xEDB88320) 0xFFFFFFFF) 0xFFFFFFFF
/-- CRC-32C (R281). -/
def crc32c (bs : List Byte) : Nat := Nat.xor (bs.foldl (crcByte 0x82F63B78) 0xFFFFFFFF) 0xFFFFFFFF
/-- One bit of the HBM CRC-16. -/
def crc16Bit (c : Nat) : Nat := if c / 0x8000 % 2 = 1 then Nat.xor (c * 2 % 0x10000) 0x8BB7 else c * 2 % 0x10000
/-- CRC-16 of the HBM check (R262): polynomial 0x8BB7, initial 0, no reflection, no final XOR. -/
def crc16 (bs : List Byte) : Nat :=
  bs.foldl (fun c b => Nat.repeat crc16Bit 8 (Nat.xor c (b.toNat * 256))) 0

end Sys2Proof.Machine
end

