-- ==== Sys2Proof/Machine/Sign.lean ====
section
/-! DEFINITION. Signature sections and the keys behind them (R480 to R483, R495). -/

namespace Sys2Proof.Machine

/-- SIG_MAGIC. -/
def sigMagic : Word := 0x47534C56

/-- A signature section has a non-zero reserved field or a reserved ALG or KEY_CLASS (R480). -/
def sigReserved (s : List Word) : Bool :=
  !(reservedOk s 0 32 ([(0, 0, 32), (1, 0, 16)] ++ (List.range 24).map fun i => (2 + i, 0, 32))) ||
    fld (wordAt s 1) 0 8 != 1 || fld (wordAt s 1) 8 8 == 0 || decide (4 < fld (wordAt s 1) 8 8)

/-- The signature over `body` verifies against `key`, a public key as x then y: magic, key class, KEY_ID and the ECDSA
equation (R480). -/
def sigOk (body sig : List Word) (cls : Nat) (key : List Byte) : Bool :=
  wordAt sig 0 == sigMagic && fld (wordAt sig 1) 8 8 == cls && bytesOfWords (slice sig 2 8) == sha256 key &&
    verifySig (bytesOfWords body) key (natOfBytes (bytesOfWords (slice sig 10 8))) (natOfBytes (bytesOfWords (slice sig 18 8)))

/-- KEYS of the owner key table (R482). -/
def ktKeys (t : List Word) : Nat := fld (wordAt t 1) 0 4
/-- Public key i of the owner key table. -/
def ktKey (t : List Word) (i : Nat) : List Byte := bytesOfWords (slice t (24 + 16 * i) 16)

/-- The signature of a stage image or manifest, by a key of the current owner key table (R481). -/
def ownerSigOk (s : State) (body sig : List Word) : Bool :=
  (List.range (ktKeys s.sec.keyTable)).any fun i => sigOk body sig 3 (ktKey s.sec.keyTable i)

/-- The first 32 bytes of the digest of words, as eight words. -/
def digestWords (ws : List Word) : List Word := wordsOfBytes (sha256 (bytesOfWords ws))

/-- The installed manifest, when it is complete (R289, R293). -/
def manifest (s : State) : Option (List Word) := if s.bnd.st = .complete then some s.bnd.manifest else none

/-- The digest of the installed manifest; eight zero words with no complete manifest (R279, R488). -/
def manifestDigest (s : State) : List Word :=
  match manifest s with
  | some m => digestWords (mfBody m)
  | none => List.replicate 8 0

end Sys2Proof.Machine
end

