-- ==== Sys2Proof/Machine/Loader.lean ====
section
/-! DEFINITION. The checks of image.load (R130 to R153, R156, R164, R172, R178, R184, R208 to R211, R247, R250, R257, R540).
A failure is a reason, a section type and the byte offset of the offending word (log 19). -/

namespace Sys2Proof.Machine

/-- A refusal of R164: reason, section type, byte offset. -/
abbrev Bad := Nat × Nat × Nat

/-- The offset that stands for the whole image. -/
def wholeImage : Nat := 0xFFFFFFFF

/-- One check. -/
def chk (ok : Bool) (reason ty off : Nat) : List Bad := if ok then [] else [(reason, ty, off)]

/-- Two ranges meet. -/
def meets (a n b m : Nat) : Bool := decide (n ≠ 0 ∧ m ≠ 0 ∧ a < b + m ∧ b < a + n)

/-- All pairs of different positions of a list satisfy `p`. -/
def pairwise {α : Type} (p : α → α → Bool) : List α → Bool
  | [] => true
  | x :: xs => xs.all (p x) && pairwise p xs

/-! Header and section table. -/

/-- Checks of the header (R131). -/
def headerBad (ws : List Word) : List Bad :=
  chk (wordAt ws 0 == 0x53474C56) 0x0004 0 0 ++
  chk (fld (wordAt ws 1) 0 8 == 1) 0x0004 0 4 ++
  chk (imgBytes ws == 4 * ws.length && imgBytes ws % 64 == 0 && decide (imgBytes ws ≤ 2 ^ 30) && imgBytes ws != 0) 0x0004 0 8 ++
  chk (onlyBits (wordAt ws 1) [(0, 10)]) 0x0001 0 4 ++ chk (onlyBits (wordAt ws 3) [(0, 8)]) 0x0001 0 12 ++
  chk (onlyBits (wordAt ws 5) [(0, 16)]) 0x0001 0 20 ++ chk (wordAt ws 14 == 0) 0x0001 0 56 ++
  chk (wordAt ws 15 == 0) 0x0001 0 60 ++ chk (decide (imgSections ws ≤ 16)) 0x0005 0 12

/-- The section types of R132 and R208. -/
def sectionTypes : List Nat := [1, 2, 3, 4, 5, 6, 7, 8, 9, 0x0A, 0x0B, 0x0C, 0x0F]

/-- Bytes that COUNT entries of a section need at least. -/
def sectionNeed (ws : List Word) (ty n : Nat) : Nat :=
  match ty with
  | 1 => 16 * 48 | 2 => 4 * n | 3 => 8 * n | 4 => 8 * n | 5 => 12 * n | 6 => 40 * n | 7 => 16
  | 8 => 32 + 32 * pfStreams ws + 24 * pfRestores ws
  | 9 => 32 | 0x0A => 32 | 0x0B => 64 * 48 | 0x0C => 32 * n | _ => 128

/-- Checks of the section table (R132). -/
def sectionBad (ws : List Word) : List Bad :=
  let t := secTable ws
  let n := imgSections ws
  ((List.range n).flatMap fun i =>
    let (ty, o, b, _) := secEntry ws i
    chk (onlyBits (wordAt ws (16 + 4 * i)) [(0, 8)] && decide (ty ∈ sectionTypes)) 0x0001 ty (64 + 16 * i) ++
    chk (onlyBits (wordAt ws (19 + 4 * i)) [(0, 16)]) 0x0001 ty (76 + 16 * i) ++
    chk (o % 64 == 0 && decide (64 + 16 * n ≤ o)) 0x0005 ty (68 + 16 * i) ++
    chk (decide (o + b ≤ imgBytes ws) && b % 4 == 0) 0x0005 ty (72 + 16 * i)) ++
  chk (pairwise (fun a b => a.1 != b.1) t) 0x0005 0 64 ++
  chk (pairwise (fun a b => !meets a.2.1 a.2.2.1 b.2.1 b.2.2.1) t) 0x0005 0 64 ++
  ([1, 2, 8, 0x0A, 0x0F].flatMap fun ty => chk (secOf ws ty).isSome 0x0005 ty wholeImage) ++
  chk (imgTimed ws || (secOf ws 9).isNone) 0x0005 9 wholeImage ++
  chk (!imgTimed ws || (secOf ws 9).isSome) 0x0011 9 wholeImage ++
  chk (secOff ws 0x0F + 128 == imgBytes ws && ((secOf ws 0x0F).map fun e => e.2.1) == some 128) 0x0005 0x0F wholeImage ++
  (t.flatMap fun e => chk (decide (sectionNeed ws e.1 e.2.2.2 ≤ e.2.2.1) && (e.1 != 1 || e.2.2.2 == 48) &&
    (e.1 != 0x0B || e.2.2.2 == 48) && (e.1 != 4 || decide (e.2.2.2 ≤ 64))) 0x0005 e.1 e.2.1)

/-- The signature section of an image. -/
def imgSig (ws : List Word) : List Word := secWords ws 0x0F

/-- Checks of the signature (R133, R480, R481). -/
def signatureBad (s : State) (ws : List Word) : List Bad :=
  chk (!sigReserved (imgSig ws)) 0x0001 0x0F (secOff ws 0x0F) ++
  chk (ownerSigOk s (ws.take (secOff ws 0x0F / 4)) (imgSig ws)) 0x0002 0x0F wholeImage

/-- The check of MANIFEST_DIGEST (R134, R279). -/
def digestBad (s : State) (standby : Bool) (ws : List Word) : List Bad :=
  chk ((manifest s).isSome && imgDigest ws == (if standby then mfStandby s.bnd.manifest else manifestDigest s)) 0x0003 0 24

/-! Cluster map and inbox table. -/

/-- Compute die of a cluster (R22). -/
def dieOfCluster (c : Nat) : Nat := c / 12

/-- The templates that commands may issue, by the identifiers that they and the bodies of those templates name, followed to
at most `fuel` levels. -/
def namedTemplates (ws : List Word) : Nat → List (List Word) → List Template
  | 0, _ => []
  | fuel + 1, cs =>
    let ts := cs.filterMap fun c => if cOp c = 10 then templateOf ws (fld (wordAt c 1) 0 16) else none
    ts ++ ts.flatMap fun t => namedTemplates ws fuel (bodyCmds t.2.1)
/-- The commands that a list may issue: its own and those of the templates that it names (R146, R148). -/
def reachable (ws : List Word) (i : Nat) : List (List Word) :=
  let l := listCmds ws i
  l ++ (namedTemplates ws 6 l).flatMap fun t => bodyCmds t.2.1
/-- A cluster's list holds an ATTEND, in the list or in a template that it names. -/
def holdsAttend (ws : List Word) (i : Nat) : Bool := (reachable ws i).any fun c => cOp c == 4
/-- Some list that a cluster runs, its own or one that it runs as a fold host, holds an ATTEND (R178). -/
def attends (ws : List Word) (c : Nat) : Bool :=
  (cmUsed ws c && holdsAttend ws (cmList ws c)) || (cmGuests ws c).any fun g => holdsAttend ws (cmFoldList ws g)

/-- Checks of the cluster map (R135, R137, R143, R178). -/
def mapBad (ws : List Word) : List Bad :=
  (List.range 48).flatMap fun c =>
    let o := secOff ws 1 + 16 * c
    let ib := secOff ws 0x0B + 64 * c
    let ft := cmFoldTo ws c
    let host := cmGuests ws c != []
    let top := cmSlotBase ws c + cmSlots ws c * cmSlotBytes ws c
    chk (decide (cmRole ws c ≤ 6)) 0x0001 1 o ++ chk (onlyBits (cmWord ws c 1) [(0, 20)]) 0x0001 1 (o + 4) ++
    chk (onlyBits (cmWord ws c 2) [(0, 24)]) 0x0001 1 (o + 8) ++ chk (onlyBits (cmWord ws c 3) [(0, 24)]) 0x0001 1 (o + 12) ++
    (if cmUsed ws c then
      chk (decide (cmList ws c < secCount ws 2)) 0x0005 1 o ++
      chk (ft == 0xFF || (decide (ft < 48) && ft != c && dieOfCluster ft == dieOfCluster c && cmFoldTo ws ft == 0xFF)) 0x000E 1 o ++
      chk (ft == 0xFF || decide (cmFoldList ws c < secCount ws 2)) 0x0005 1 (o + 4)
    else
      chk (ft == 0xFF && cmList ws c == 0) 0x0001 1 o ++ chk (cmFoldList ws c == 0 && (host || cmSlots ws c == 1)) 0x0001 1 (o + 4) ++
      chk (host || cmSlotBase ws c == 0) 0x0001 1 (o + 8) ++ chk (host || cmSlotBytes ws c == 0) 0x0001 1 (o + 12) ++
      ((List.range 16).flatMap fun r => chk (host || secWord ws 0x0B (16 * c + r) == 0) 0x0001 0x0B (ib + 4 * r))) ++
    chk (cmSlotBase ws c % 64 == 0) 0x000F 1 (o + 8) ++
    chk (cmSlotBytes ws c % 64 == 0 && decide (top ≤ 2 ^ 24)) 0x000F 1 (o + 12) ++
    ((List.range 16).flatMap fun r => chk (decide (inOff ws c (r + 1) ≤ cmSlotBytes ws c)) 0x000F 0x0B (ib + 4 * r)) ++
    ((cmGuests ws c).flatMap fun g => (List.range 8).flatMap fun r =>
      chk (secWord ws 0x0B (16 * c + 8 + r) == secWord ws 0x0B (16 * g + r)) 0x000F 0x0B (ib + 32 + 4 * r)) ++
    chk (!attends ws c || decide (top ≤ 2 ^ 24 - 2 ^ 20)) 0x0013 1 (o + 12)

/-! Barriers, seeds, safeguards, governor, timing, needs. -/

/-- Checks of the barrier table (R151). -/
def barrierBad (ws : List Word) : List Bad :=
  (List.range (secCount ws 4)).flatMap fun b =>
    chk (onlyBits (secWord ws 4 (2 * b + 1)) [(0, 16)]) 0x0001 4 (secOff ws 4 + 8 * b + 4) ++
    chk (barMembers ws b != []) 0x000D 4 (secOff ws 4 + 8 * b)

/-- An FP32 bound is finite and above zero. -/
def positive (w : Word) : Bool := !fnonFinite w && flt 0 w

/-- Checks of the safeguard and governor records against the manifest (R111); `im` is 1 for a standby image. -/
def safeguardBad (mf : List Word) (im : Nat) (ws : List Word) : List Bad :=
  ((List.range (secCount ws 6)).flatMap fun i =>
    let r := slice (secWords ws 6) (10 * i) 10
    let o := secOff ws 6 + 40 * i
    let op := (wordAt r 0).toNat
    chk (onlyBits (wordAt r 1) [(0, 21), (24, 8)]) 0x0001 6 (o + 4) ++ chk (onlyBits (wordAt r 5) [(0, 17)]) 0x0001 6 (o + 20) ++
    chk (decide (op < imgOps ws)) 0x000A 6 o ++
    chk (decide (sgRate r ≤ 65536) && (!sgRef r || pieceExists mf 4 im op) && (sgRate r == 0 || sgRef r) &&
      decide (sgTop r ≤ 2) && (sgTop r == 0 || pieceExists mf (1 + sgTop r) im op)) 0x000A 6 (o + 4) ++
    chk (!sgRef r || fld (wordAt r 2) 16 16 != 0) 0x000A 6 (o + 8) ++
    chk (decide (sgQRate r ≤ 65536)) 0x000A 6 (o + 20) ++
    ([3, 4, 6, 7].flatMap fun k => chk (positive (wordAt r k)) 0x000A 6 (o + 4 * k))) ++
  (if (secOf ws 7).isNone then [] else
    chk (onlyBits (secWord ws 7 0) [(0, 16)]) 0x0001 7 (secOff ws 7) ++
    chk (onlyBits (secWord ws 7 2) [(0, 24)]) 0x0001 7 (secOff ws 7 + 8) ++ chk (secWord ws 7 3 == 0) 0x0001 7 (secOff ws 7 + 12) ++
    chk (gvCacheMib ws == 0 || decide (64 ≤ gvCacheMib ws)) 0x000A 7 (secOff ws 7 + 8))

/-- Checks of the timing record (R156, R537). -/
def timingBad (ws : List Word) : List Bad :=
  if ¬ imgTimed ws then [] else
    let o := secOff ws 9
    chk (onlyBits (tmWord ws 4) [(0, 24)]) 0x0001 9 (o + 16) ++ chk (onlyBits (tmWord ws 5) [(0, 16)]) 0x0001 9 (o + 20) ++
    chk (onlyBits (tmWord ws 6) [(0, 16)]) 0x0001 9 (o + 24) ++ chk (tmWord ws 7 == 0) 0x0001 9 (o + 28) ++
    chk (decide (1 ≤ fld (tmWord ws 4) 0 24) && decide (fld (tmWord ws 4) 0 24 ≤ 10000000)) 0x0011 9 (o + 16)

/-- Checks of the quota needs (R257). -/
def needsBad (ws : List Word) : List Bad :=
  let o := secOff ws 0x0A
  ((List.range 8).flatMap fun i => chk (onlyBits (secWord ws 0x0A i) [(0, 24)]) 0x0001 0x0A (o + 4 * i)) ++
  chk (need ws 3 + need ws 4 + need ws 5 + need ws 6 == need ws 0) 0x0016 0x0A o ++
  ((List.range 4).flatMap fun d => chk (decide (need ws (3 + d) ≤ 65536)) 0x0016 0x0A (o + 12 + 4 * d)) ++
  chk (decide (2 * journalMib ws ≤ need ws 1)) 0x0016 0x0A (o + 28)

/-! Templates (R146, R148). -/

/-- Levels of EXPAND below a template's own commands, counted to at most `fuel`. -/
def nesting (ws : List Word) : Nat → List Word → Nat
  | 0, _ => 0
  | fuel + 1, body =>
    ((bodyCmds body).map fun c =>
      if cOp c = 10 then
        match templateOf ws (fld (wordAt c 1) 0 16) with
        | some t => 1 + nesting ws fuel t.2.1
        | none => 1
      else 0).foldl max 0

/-- The offending words of a body's commands, as reasons and offsets counted from `o`. -/
def bodyBad (ws : List Word) : Nat → List (List Word) → List Bad
  | _, [] => []
  | o, c :: cs =>
    chk (opLen (cOp c) == some (cWords c) && c.length == cWords c) 0x000B 3 o ++
    chk (cOp c != 10 || (templateOf ws (fld (wordAt c 1) 0 16)).isSome) 0x000C 3 (o + 4) ++ bodyBad ws (o + 4 * c.length) cs

/-- Checks of the templates: a record that runs beyond its section is out of bounds (R132, log 19). -/
def templateBad (ws : List Word) : List Bad :=
  let ts := imgTemplates ws
  let so := secOff ws 3
  let end_ := so + 4 * (secWords ws 3).length
  let rec_ (o : Nat) (t : Template) : List Bad :=
    let w (k : Nat) : Word := wordAt ws (o / 4 + k)
    chk (onlyBits (w 0) [(0, 16)]) 0x0001 3 o ++ chk (onlyBits (w 1) [(0, 24)]) 0x0001 3 (o + 4) ++
    chk (decide (fld (w 1) 0 16 ≤ 4096)) 0x000C 3 (o + 4) ++
    chk (decide (o + 8 + 4 * fld (w 1) 0 16 + 12 * fld (w 1) 16 8 ≤ end_)) 0x0005 3 (o + 4) ++
    (t.2.2.mapIdx fun i p => chk (decide (fld (wordAt p 0) 0 16 < t.2.1.length ∧ fld (wordAt p 0) 16 5 + fld (wordAt p 0) 21 5 + 1 ≤ 32))
      0x000C 3 (o + 8 + 4 * t.2.1.length + 12 * i)).flatten ++
    bodyBad ws (o + 8) (bodyCmds t.2.1) ++
    chk (decide (nesting ws 6 t.2.1 ≤ 4)) 0x000C 3 (o + 8)
  chk (ts.length == secCount ws 3) 0x0005 3 so ++ chk (pairwise (fun (a b : Template) => a.1 != b.1) ts) 0x000C 3 so ++
  (List.zipWith rec_ (templateOffs (secCount ws 3) so (secWords ws 3)) ts).flatten

/-! Expert maps and ROUTE (R208 to R211, R228). -/

/-- The SELECTs that an image's lists may issue for a map. -/
def selectsOf (ws : List Word) (m : Nat) : List (List Word) :=
  (List.range 48).flatMap fun c => if cmUsed ws c then
    (reachable ws (cmList ws c)).filter fun k => cOp k == 5 && rMode k == 0 && rMap k == m else []
/-- SELECTs of a map that commands issue per step; none where the count of an expansion that holds one is known only at run
time (R211). -/
def selectCount (ws : List Word) (m : Nat) : Nat → List (List Word) → Option Nat
  | 0, _ => some 0
  | fuel + 1, cs => cs.foldl (fun acc c => acc.bind fun n =>
      if cOp c = 5 ∧ rMode c = 0 ∧ rMap c = m then some (n + 1)
      else if cOp c ≠ 10 then some n
      else match templateOf ws (fld (wordAt c 1) 0 16) with
        | none => some n
        | some t => match selectCount ws m fuel (bodyCmds t.2.1) with
          | some 0 => some n
          | some k => if bitOf (wordAt c 1) 16 then none else some (n + k * (wordAt c 2).toNat)
          | none => none) (some 0)
/-- SELECTs of a map that the member's lists issue per step; none where that is known only at run time. -/
def selectsIssued (ws : List Word) (m : Nat) : Option Nat :=
  (List.range 48).foldl (fun acc c => acc.bind fun n =>
    if cmUsed ws c then (selectCount ws m 6 (listCmds ws (cmList ws c))).map fun k => n + k else some n) (some 0)

/-- The result bytes per row of the RETURNs that serve a map: those whose queue the map places on the returning cluster. -/
def returnBytes (ws : List Word) (m : EMap) : Nat :=
  (List.range 48).foldl (fun n c => if cmUsed ws c then
    (reachable ws (cmList ws c)).foldl (fun n k =>
      if cOp k == 5 && rMode k == 3 && (List.range (emExperts m)).any (fun e => exCluster m e == c && exQueue m e == rQueue k)
      then max n (rRowBytes k) else n) n else n) 0

/-- The shards of a cold expert by its index (R209, R278). -/
def coldShards (mf : List Word) (image cold : Nat) : List Nat :=
  let ss := (List.range (mfStripes mf)).filter fun s => shKind mf s == 5 && shImage mf s == image && shCold mf s == cold
  (List.range ss.length).filterMap fun i => ss.find? fun s => shPiece mf s == i

/-- The spill region of a map holds every entry that a member can receive when a SELECT chooses `topk` (R228). -/
def spillOk (m : EMap) (topk : Nat) : Bool :=
  (List.range (emMembers m)).all fun mem =>
    decide (emMembers m * emTokens m * min topk ((List.range (emExperts m)).filter fun e => exMember m e == mem).length ≤ emSpill m)

/-- Checks of one expert map at byte offset o. -/
def oneMapBad (mf : List Word) (im : Nat) (ws : List Word) (o : Nat) (m : EMap) : List Bad :=
  let es := List.range (emExperts m)
  let ty := 0x0C
  let topk := (selectsOf ws (fld (wordAt m.1 0) 0 8)).foldl (fun n c => max n (rTopk c)) 0
  ([(0, [(0, 13)]), (1, [(0, 13), (16, 4)]), (2, [(0, 17)]), (3, [(0, 13), (16, 16)]), (4, [(0, 24)]), (5, [(0, 8)]), (6, [(0, 24)]),
    (7, [(0, 24)])].flatMap fun k => chk (onlyBits (wordAt m.1 k.1) k.2) 0x0001 ty (o + 4 * k.1)) ++
  (es.flatMap fun e => chk (onlyBits (wordAt m.2 (2 * e)) [(0, 15)]) 0x0001 ty (o + 32 + 8 * e)) ++
  chk (decide (1 ≤ emMembers m ∧ emMembers m ≤ 16)) 0x0014 ty o ++
  chk (decide (1 ≤ emExperts m ∧ emExperts m ≤ 4096)) 0x0014 ty (o + 4) ++
  chk (decide (1 ≤ emTokens m ∧ emTokens m ≤ 65536)) 0x0014 ty (o + 8) ++
  chk (decide (emQueueEntries m % 64 = 0 ∧ 64 ≤ emQueueEntries m ∧ emQueueEntries m ≤ 4096 ∧ emRowBytes m % 64 = 0 ∧
    64 ≤ emRowBytes m ∧ emRowBytes m ≤ 32768)) 0x0014 ty (o + 12) ++
  chk (spillOk m topk) 0x0014 ty (o + 16) ++
  chk (emColdKib m % 64 == 0) 0x0014 ty (o + 24) ++ chk (emQueueOff m % 64 == 0) 0x0014 ty (o + 28) ++
  (es.flatMap fun e =>
    chk (decide (exMember m e < emMembers m) && decide (exCluster m e < 48) &&
      decide (emQueueOff m + (exQueue m e + 1) * emQueueEntries m * emEntry m ≤ cmSlotBytes ws (exCluster m e)) &&
      (!exCold m e || emColdSlots m != 0)) 0x0014 ty (o + 32 + 8 * e) ++
    chk (!exCold m e || decide (((coldShards mf im (exWeight m e)).map (shBytes mf)).sum ≤ 1024 * emColdKib m)) 0x0014 ty (o + 36 + 8 * e) ++
    chk ((List.range e).all fun f => !(exMember m f == exMember m e && exCluster m f == exCluster m e && exQueue m f == exQueue m e))
      0x0014 ty (o + 32 + 8 * e) ++
    chk (exCold m e || weightDie (exWeight m e * 65536) == dieOfCluster (exCluster m e)) 0x0009 ty (o + 36 + 8 * e))

/-- Checks of the expert maps. -/
def expertBad (mf : List Word) (im : Nat) (ws : List Word) : List Bad :=
  let o := secOff ws 0x0C
  let ms := imgMaps ws
  chk (ms.length == secCount ws 0x0C && pairwise (fun (a b : EMap) => fld (wordAt a.1 0) 0 8 != fld (wordAt b.1 0) 0 8) ms)
    0x0014 0x0C o ++
  (List.zipWith (oneMapBad mf im ws) (mapOffs (secCount ws 0x0C) o (secWords ws 0x0C)) ms).flatten

/-- A map places queue `q` on cluster `e`, or on the guest `g` that its list also serves. -/
def queueOn (m : EMap) (e g q : Nat) : Bool :=
  (List.range (emExperts m)).any fun x => (exCluster m x == e || exCluster m x == g) && exQueue m x == q

/-- The checks of a ROUTE against the image, for the cluster that issues it and its guest (R211). -/
def routeCtx (ws : List Word) (e g : Nat) (c : List Word) : List Check :=
  let l := if g = 48 then cmList ws e else cmFoldList ws g
  let need (ok : Bool) (w : Nat) : Check := (ok, 0x0014, w)
  let m := mapOf ws (rMap c)
  let queue (q : EMap → Bool) : Check := need ((imgMaps ws).any q) 1
  match rMode c with
  | 0 => need m.isSome 4 :: (m.toList.flatMap fun m =>
      [need (rExperts c == 0 || (rExperts c == emExperts m && decide (rTopk c ≤ rExperts c))) 4,
        need (decide (emRowBytes m ≤ rRowStride c)) 9, need (decide (returnBytes ws m ≤ rRetStride c)) 14, need (spillOk m (rTopk c)) 1,
        need ((selectsIssued ws (rMap c)).all fun n => n == emSelects m) 4])
  | 1 => [need m.isSome 4, need (m.all fun m => queueOn m e g (rQueue c)) 1]
  | 4 => need m.isSome 4 :: (m.toList.flatMap fun m =>
      [need (decide (rowLen c (returnBytes ws m) * (rFmtOut c).bytes ≤ rRowStride c)) 9,
        need ((reachable ws l).any fun k => cOp k == 5 && rMode k == 0 && rOp k == rOp c && rMap k == rMap c &&
          rTokenBase k == rTokenBase c && rTokens k == rTokens c && rTopk k == rTopk c && rFar k == rFar c) 2])
  | 5 => []
  | 2 => [queue fun m => queueOn m e g (rQueue c), need (((imgMaps ws).find? fun m => queueOn m e g (rQueue c)).all fun m =>
      decide (emEntry m ≤ rRowStride c)) 9]
  | _ => [queue fun m => queueOn m e g (rQueue c)]

/-- ROW_BYTES of a map and the elements of the output rows that a ROUTE of it forms. -/
def mapSizes (ws : List Word) (c : List Word) (m : Option EMap) : Nat × Nat :=
  match m with
  | some m => (emRowBytes m, rowLen c (returnBytes ws m))
  | none => (0, 0)
/-- The sizes of the map that a ROUTE of cluster `e` works on: a GATHER or RETURN takes the first that has its queue. -/
def routeSizes (ws : List Word) (e g : Nat) (c : List Word) : Nat × Nat :=
  mapSizes ws c (if rMode c = 2 ∨ rMode c = 3 then (imgMaps ws).find? fun m => queueOn m e g (rQueue c) else mapOf ws (rMap c))

/-! Command lists. -/

/-- The KV tables of an image: the parameters of each ATTEND of its lists and templates (R184). -/
def kvTables (ws : List Word) : List (Nat × Nat × Nat × Nat × Fmt × Fmt) :=
  ((imgCmds ws).filterMap fun c =>
    if cOp c = 4 ∧ aMode c ≠ 2 then some (kvParams c) else none).eraseDups

/-- The parameters of one KV table. -/
def kvTable (ws : List Word) (t : Nat) : Option (Nat × Nat × Nat × Nat × Fmt × Fmt) := (kvTables ws).find? fun p => p.1 = t

/-- Mapped extent of an HBM region as far as the image fixes it; none where the partition's quota decides (R237, R258). -/
def regionBytes (ws : List Word) (off : Nat) : Option Nat :=
  match hbmRegion off with
  | 0 => some (need ws (3 + weightDie off) * 2 ^ 20)
  | 1 => some (dataBytes ws)
  | 4 => some (spillBytes ws)
  | _ => none

/-- Offset of an HBM address within what `regionBytes` measures. -/
def regionOff (off : Nat) : Nat := if hbmRegion off = 0 then off % 2 ^ 36 else hbmIn off

/-- An HBM range lies within what the image maps. -/
def hbmMapped (ws : List Word) (off n : Nat) : Bool :=
  if hbmRegion off = 0 ∧ hbmIn off / 2 ^ 38 ≠ 0 then false
  else if 5 ≤ hbmRegion off then false
  else match regionBytes ws off with
  | some b => decide (regionOff off + n ≤ b)
  | none => true

/-- The reason for which a store of a command into partition HBM is refused, or 0 (R239). -/
def storeReason (ws : List Word) (off n : Nat) : Nat :=
  if n = 0 then 0
  else match hbmRegion off with
    | 0 => 0x0009
    | 2 => 0x0015
    | 3 => 0x0015
    | 4 => 0x0015
    | _ => if hbmMapped ws off n then 0 else 0x0015
/-- The HBM checks of an ATTEND: its probability store and its Ferry block's header. -/
def attendHbm (ws : List Word) (c : List Word) : List Check :=
  if aRows c = 0 then [] else
    [(!aFerry c || hbmMapped ws (aFerryBuf c) 64, 0x0015, 23),
      let r := if aStoreP c then storeReason ws (aPStore c) (8448 * cdiv (aKeyCount c) 64) else 0
      (r == 0, r, 21)]
/-- The HBM checks of a ROUTE: the return area of a SELECT, what a COMBINE reads, and both ends of a PUSH (R210, R232, R239). -/
def routeHbm (ws : List Word) (c : List Word) : List Check :=
  let area := rTokens c * rTopk c * rRetStride c
  match rMode c with
  | 0 =>
    let r := if rFarKind c = 2 then storeReason ws (rFar c) area else 0
    [(r == 0, r, 12)]
  | 4 => [(rFarKind c != 2 || area == 0 || hbmMapped ws (rFar c) area, 0x0015, 12)]
  | 5 =>
    if rBytes c = 0 then [] else
      [(rFarKind c != 2 || hbmMapped ws (rFar c) (rBytes c), 0x0015, 12),
        (rDstKind c != 3 || decide (rDstCluster c < 48 ∧ rRegion c < 8 ∧
          rDst c + rBytes c ≤ 1024 * inKib ws (rDstCluster c) (rRegion c)), 0x000F, 16),
        (rDstKind c != 2 || hbmRegion (rDst c) != 0, 0x0009, 17), (rDstKind c != 2 || hbmRegion (rDst c) == 1, 0x0015, 17)]
  | _ => []

/-- Bytes of a template's parameter record. -/
def paramBytes (t : Template) : Nat := t.2.2.foldl (fun n q => max n (4 * (fld (wordAt q 0) 26 6 + 1))) 0
/-- The checks of a command against the image, for the cluster `e` that issues it and its guest `g`. -/
def ctxChecks (ws : List Word) (e g : Nat) (c : List Word) : List Check :=
  let entry : Check :=
    let l := fld (wordAt c 1) 0 16
    (decide (l < pfStreams ws) && (seCluster (pfStream ws l) == e || seCluster (pfStream ws l) == g), 0x0016, 1)
  match cOp c with
  | 4 => if aMode c = 2 then [] else (kvTable ws (aTable c) == some (kvParams c), 0x0013, 4) :: attendHbm ws c
  | 5 => routeCtx ws e g c ++ routeHbm ws c
  | 6 =>
    if mBytes c = 0 then [] else
      [(mSrcKind c != 2 || hbmRegion (mSrc c) != 0 || weightDie (mSrc c) == dieOfCluster e, 0x0009, 2),
        (mSrcKind c != 2 || hbmMapped ws (mSrc c) (mBytes c), 0x0015, 1), (mDstKind c != 2 || hbmMapped ws (mDst c) (mBytes c), 0x0015, 3),
        (mDstKind c != 3 || decide (mDstCluster c < 48 ∧ mRegion c < 8 ∧ mDst c + mBytes c ≤ 1024 * inKib ws (mDstCluster c) (mRegion c)),
          0x000F, 4)]
  | 7 => [entry]
  | 8 => [entry]
  | 9 =>
    let b := fld (wordAt c 1) 0 6
    [(decide (b < secCount ws 4) && (barHas ws b e || barHas ws b g), 0x000D, 1)]
  | 10 =>
    let t := templateOf ws (fld (wordAt c 1) 0 16)
    [(t.isSome, 0x000C, 1),
      (bitOf (wordAt c 1) 16 || t.all (fun t =>
        opdOk (false, (adr (wordAt c 3)).1, (adr (wordAt c 3)).2, spanBytes (wordAt c 2).toNat (fld (wordAt c 4) 0 16) (paramBytes t))),
        0x0008, 3)]
  | 11 =>
    [(decide (fld (wordAt c 1) 0 8 < 48 ∧ fld (wordAt c 1) 8 4 < 8) && inPosts ws (fld (wordAt c 1) 0 8) (fld (wordAt c 1) 8 4) != 0,
      0x000F, 1)]
  | _ => []

/-- Reason and word of the whole load-time check of one command; reason 0 when it passes. -/
def commandReason (ws : List Word) (e g : Nat) (c : List Word) : Nat × Nat :=
  let sz := if cOp c = 5 then routeSizes ws e g c else (0, 0)
  firstBad (cmdChecks sz.1 sz.2 c ++ ctxChecks ws e g c)

/-- The HBM offsets that a command stores to. -/
def storesTo (c : List Word) : List Nat :=
  match cOp c with
  | 4 => if aStoreP c then [aPStore c] else []
  | 5 => if rMode c = 0 ∧ rFarKind c = 2 then [rFar c] else if rMode c = 5 ∧ rDstKind c = 2 then [rDst c] else []
  | 6 => if mDstKind c = 2 then [mDst c] else []
  | _ => []
/-- The cause of the program fault of an expanded command that fails its checks, or 0: 0x000A for an unmapped offset, 0x0001
otherwise, which a store to a protected region takes whether it is mapped or not (R150, R239). -/
def issueCause (ws : List Word) (e g : Nat) (c : List Word) : Nat :=
  let r := (commandReason ws e g c).1
  if r = 0 then 0
  else if r = 0x0015 ∧ ¬ (storesTo c).any (fun o => decide (hbmRegion o ≠ 1 ∧ hbmRegion o ≤ 5)) then 0x000A
  else 1

/-- What the stream buffers of each core hold as far as a list's commands fix it: `none` where an expansion or a thin pass
leaves it to run time. -/
abbrev HoldCtx := Tbl (Option (List Word))

/-- The fields that a held slab must match (R71): address, format, transposition, K and row or column count. -/
def slabKey (d : List Word) (west : Bool) : List Nat :=
  if west then [(wordAt d 3).toNat, fld (wordAt d 0) 0 4, b2n (pTransA d), pK d, pRows d]
  else [(wordAt d 5).toNat, fld (wordAt d 0) 4 4, b2n (pTransB d), pK d, pCols d]

/-- The byte offset of the first pass whose held slab does not match the previous array pass of its core (R71); passes whose
route or predecessor is fixed only at run time are checked at issue. -/
def holdBad : HoldCtx → Nat → List (List Word) → Option Nat
  | _, _, [] => none
  | h, o, c :: cs =>
    let next := o + 4 * c.length
    if cOp c = 10 then holdBad [] next cs
    else if cOp c = 1 ∧ ¬ pEmpty (c.drop 1) then
      let d := c.drop 1
      let array := !pThin d || pHoldA d || pHoldB d
      let ok : Bool :=
        (match tgetD h (cCore c) none with
        | none => true
        | some p => (!pHoldA d || slabKey p true == slabKey d true) && (!pHoldB d || slabKey p false == slabKey d false)) &&
        (!pHoldA d || decide (lineBytes (pFmtA d) (pLinesA d).2 * (pLinesA d).1 ≤ 524288)) &&
        (!pHoldB d || decide (lineBytes (pFmtB d) (pLinesB d).2 * (pLinesB d).1 ≤ 524288))
      if ¬ array then holdBad (tset h (cCore c) none) next cs
      else if ok then holdBad (tset h (cCore c) (some d)) next cs
      else some o
    else if cOp c = 4 then holdBad (tset h (cCore c) none) next cs
    else holdBad h next cs

/-- Position of the first command that satisfies a test; the length when none does. -/
def posOf (l : List (List Word)) (p : List Word → Bool) : Nat := (l.findIdx? p).getD l.length

/-- The release order of R249 in a list, for the stream entries of one cluster. -/
def releaseOk (ws : List Word) (c : Nat) (l : List (List Word)) : Bool :=
  let es := pfOf ws c
  let rel e := posOf l fun k => cOp k == 8 && fld (wordAt k 1) 0 16 == e
  let wt e := posOf l fun k => cOp k == 7 && fld (wordAt k 1) 0 16 == e
  es.all fun e =>
    decide (rel e < l.length) &&
    match es.find? (fun f => decide (e < f) && seBuf (pfStream ws f) == seBuf (pfStream ws e)) with
    | some f => decide (rel e < wt f)
    | none => true

/-- Byte offsets and checks of the commands of one list. -/
def cmdsBad (ws : List Word) (e g : Nat) : Nat → List (List Word) → List Bad
  | _, [] => []
  | o, c :: cs =>
    let r := commandReason ws e g c
    if r.1 ≠ 0 then [(r.1, 2, o + 4 * r.2)] else cmdsBad ws e g (o + 4 * c.length) cs

/-- The barriers that a list names, in order. -/
def listBars (l : List (List Word)) : List Nat := l.filterMap fun c => if cOp c = 9 then some (fld (wordAt c 1) 0 6) else none

/-- A fold list's barriers are a merge of those of the two lists (R152). -/
def mergeOk (f h g : List Nat) : Bool :=
  pairwise (· != ·) f && (f.all fun b => decide (b ∈ h ∨ b ∈ g)) && f.filter (· ∈ h) == h && f.filter (· ∈ g) == g

/-- Offset of the last command of a list. -/
def lastOff (o : Nat) (l : List (List Word)) : Nat := o + 4 * ((l.dropLast.map fun c => c.length).sum)
/-- The commands of a list pass the checks that no cluster decides. -/
def formBad (ws : List Word) : Nat → List (List Word) → List Bad
  | _, [] => []
  | o, c :: cs =>
    let sz := if cOp c = 5 then mapSizes ws c (mapOf ws (rMap c)) else (0, 0)
    let r := cmdReason sz.1 sz.2 c
    if r.1 ≠ 0 then [(r.1, 2, o + 4 * r.2)] else formBad ws (o + 4 * c.length) cs
/-- Checks of list i by itself, whether a cluster names it or not (R130, R138, R139). -/
def directoryBad (ws : List Word) (i : Nat) : List Bad :=
  let l := listCmds ws i
  let o := listOff ws i
  chk ((secWord ws 2 i).toNat % 4 == 0 && decide ((secWord ws 2 i).toNat < 4 * (secWords ws 2).length)) 0x0005 2 (secOff ws 2 + 4 * i) ++
  formBad ws o l ++
  chk (l.getLast?.any fun c => cOp c == 13 && !bitOf (wordAt c 1) 25) 0x0005 2 (lastOff o l) ++
  chk (holdBad [] o l).isNone 0x0006 2 ((holdBad [] o l).getD o)
/-- Checks of one list as run by cluster `e` for guest `g` (48 for none). -/
def listBad (ws : List Word) (e g i : Nat) : List Bad :=
  let l := listCmds ws i
  cmdsBad ws e g (listOff ws i) l ++ chk (releaseOk ws e l && (g == 48 || releaseOk ws g l)) 0x0016 8 (listOff ws i)

/-- Checks of the command lists (R138 to R145, R151, R152, R184, R211). -/
def listsBad (ws : List Word) : List Bad :=
  ((List.range (secCount ws 2)).flatMap (directoryBad ws)) ++
  ((List.range 48).flatMap fun c => if cmUsed ws c then
    listBad ws c 48 (cmList ws c) ++
    (if cmFoldTo ws c = 0xFF then [] else
      listBad ws (cmFoldTo ws c) c (cmFoldList ws c) ++
      chk (mergeOk (listBars (listCmds ws (cmFoldList ws c)))
        (if cmUsed ws (cmFoldTo ws c) then listBars (listCmds ws (cmList ws (cmFoldTo ws c))) else [])
        (listBars (listCmds ws (cmList ws c)))) 0x000D 2 (listOff ws (cmFoldList ws c)))
    else []) ++
  chk (pairwise (fun (a b : Nat × Nat × Nat × Nat × Fmt × Fmt) => a.1 != b.1) (kvTables ws)) 0x0013 2 wholeImage

/-! Prefetch schedule (R247, R250). -/

/-- Bytes that a stream entry's buffer must hold (R247): the rungs that TOP_RUNG admits. -/
def streamNeed (ws : List Word) (e : List Word) : Nat :=
  let top := match safeOf ws (seOp e) with
    | some r => sgTop r
    | none => 0
  max (seBase e) (max (if 1 ≤ top then 2 * seBase e else 0) (if 2 ≤ top then seFp8 e else 0))

/-- A buffer of a stream entry placed in cluster `h`: space and core, address, bytes. -/
def streamBuf (e : List Word) : Nat × Nat × Nat := ((if seSpace e = 1 then 8 else seCore e), seAddr e, seBytes e)

/-- Two placed buffers meet. -/
def bufMeets (a b : Nat × Nat × Nat) : Bool := a.1 == b.1 && meets a.2.1 a.2.2 b.2.1 b.2.2

/-- A buffer placed in cluster `h` meets its step slots or its staging area. -/
def bufInUse (ws : List Word) (h : Nat) (b : Nat × Nat × Nat) : Bool :=
  b.1 == 8 && (meets b.2.1 b.2.2 (cmSlotBase ws h) (cmSlots ws h * cmSlotBytes ws h) ||
    (attends ws h && meets b.2.1 b.2.2 (2 ^ 24 - 2 ^ 20) (2 ^ 20)))

/-- Checks of the stream and restore entries. -/
def prefetchBad (mf : List Word) (ws : List Word) : List Bad :=
  let o := secOff ws 8
  let n := pfStreams ws
  let rs := List.range (pfRestores ws)
  let ro := o + 32 + 32 * n
  ((List.range 7).flatMap fun i => chk (secWord ws 8 (1 + i) == 0) 0x0001 8 (o + 4 + 4 * i)) ++
  ((List.range n).flatMap fun i =>
    let e := pfStream ws i
    let eo := o + 32 + 32 * i
    let before := (List.range i).map (pfStream ws)
    chk (onlyBits (wordAt e 0) [(0, 12)]) 0x0001 8 eo ++ chk (onlyBits (wordAt e 2) [(0, 24)]) 0x0001 8 (eo + 8) ++
    chk (onlyBits (wordAt e 3) [(0, 24)]) 0x0001 8 (eo + 12) ++ chk (onlyBits (wordAt e 5) [(0, 20)]) 0x0001 8 (eo + 20) ++
    chk (decide (seCluster e < 48)) 0x0016 8 eo ++ chk (seAddr e % 64 == 0) 0x0016 8 (eo + 8) ++
    chk (seBytes e % 64 == 0 && decide (streamNeed ws e ≤ seBytes e)) 0x0016 8 (eo + 12) ++
    chk (seBase e % 64 == 0) 0x0016 8 (eo + 24) ++ chk (seFp8 e % 64 == 0) 0x0016 8 (eo + 28) ++
    chk (hbmRegion (seSrc e) == 0 && weightDie (seSrc e) == dieOfCluster (seCluster e)) 0x0009 8 (eo + 20) ++
    chk (hbmMapped ws (seSrc e) (seBase e)) 0x0015 8 (eo + 16) ++
    chk (opdOk (false, seSpace e, seAddr e, seBytes e)) 0x0008 8 (eo + 8) ++
    chk (!bufInUse ws (seCluster e) (streamBuf e) && (cmFoldTo ws (seCluster e) == 0xFF ||
      !bufInUse ws (cmFoldTo ws (seCluster e)) (streamBuf e))) 0x0016 8 (eo + 8) ++
    chk (before.all fun a => !(bufMeets (streamBuf a) (streamBuf e) && ((seCluster a == seCluster e && seBuf a != seBuf e) ||
      cmFoldTo ws (seCluster a) == seCluster e || cmFoldTo ws (seCluster e) == seCluster a))) 0x0016 8 (eo + 8)) ++
  (rs.flatMap fun i =>
    let r := pfRestore ws i
    let eo := ro + 24 * i
    chk (onlyBits (wordAt r 0) [(0, 1)]) 0x0001 8 eo ++ chk (onlyBits (wordAt r 2) [(0, 20)]) 0x0001 8 (eo + 8) ++
    chk (wordAt r 5 == 0) 0x0001 8 (eo + 20) ++
    chk (hbmRegion (reDst r) == 0 && (reTarget r != 0 || hbmMapped ws (reDst r) (reBytes r))) 0x0016 8 (eo + 4) ++
    chk (reBytes r % 4096 == 0 && decide (reBytes r ≤ shBytes mf (reShard r))) 0x0016 8 (eo + 12) ++
    chk (decide (reShard r < mfStripes mf) && (shKind mf (reShard r) == 1 || shKind mf (reShard r) == 4) &&
      shImage mf (reShard r) == reTarget r) 0x0016 8 (eo + 16) ++
    chk ((List.range i).all fun j => !(reTarget (pfRestore ws j) == reTarget r &&
      meets (reDst (pfRestore ws j)) (reBytes (pfRestore ws j)) (reDst r) (reBytes r))) 0x0016 8 (eo + 4))

/-! The whole check. -/

/-- Two images are of the same stage (R540). -/
def sameStage (a b : List Word) : Bool := imgStage a == imgStage b && imgDigest a == imgDigest b

/-- The restore entries of an image. -/
def restores (ws : List Word) : List (List Word) := (List.range (pfRestores ws)).map (pfRestore ws)

/-- The seed table has no reserved fields; an entry whose OP_INDEX is no operation of the stage is refused as a reserved value,
for which the manual names no refusal (DESIGN CHOICE, log 122). -/
def seedBad (ws : List Word) : List Bad :=
  (List.range (secCount ws 5)).flatMap fun i => chk (decide ((secWord ws 5 (3 * i)).toNat < imgOps ws)) 0x0001 5 (secOff ws 5 + 12 * i)

/-- Images of one stage carry one weight layout (R540). -/
def stageBad (s : State) (standby : Bool) (ws : List Word) : List Bad :=
  s.images.flatMap fun i =>
    if i.2.standby == standby && sameStage i.2.words ws then
      chk (restores i.2.words == restores ws) 0x0016 8 (secOff ws 8) ++
      chk (need i.2.words 0 == need ws 0 && (List.range 4).all fun d => need i.2.words (3 + d) == need ws (3 + d)) 0x0016 0x0A (secOff ws 0x0A)
    else []

/-- The first failure in the order of the sections (log 16). -/
def imageBad (s : State) (standby : Bool) (ws : List Word) : Option Bad :=
  let mf := s.bnd.manifest
  let im := b2n standby
  match headerBad ws with
  | b :: _ => some b
  | [] =>
    match sectionBad ws with
    | b :: _ => some b
    | [] =>
      match signatureBad s ws ++ digestBad s standby ws with
      | b :: _ => some b
      | [] =>
        (mapBad ws ++ barrierBad ws ++ seedBad ws ++ safeguardBad mf im ws ++ timingBad ws ++ needsBad ws ++ templateBad ws ++
          expertBad mf im ws ++ listsBad ws ++ prefetchBad mf ws ++ stageBad s standby ws).head?

end Sys2Proof.Machine
end

