-- ==== Sys2Proof/Machine/Net.lean ====
section
/-! DEFINITION. Sending on the fabric: headers, routes, streams at their source, management packets (R302, R312 to R323,
R331, R334). -/

namespace Sys2Proof.Machine

/-- This package's identifier. -/
def myPkg (s : State) : Nat := s.host.hm.pkgId.toNat

/-! Headers (R313). -/

/-- The service job. -/
def serviceJob : Nat := 0xFFFF

/-- Words 0 to 6 of a header, PATH zero. -/
def mkHdr (op subop vc job src srcPart gen addr seq len tag w6 : Nat) : List Word :=
  [w32 (op + subop * 2 ^ 8 + vc * 2 ^ 14 + job * 2 ^ 16), w32 (src + srcPart * 2 ^ 8 + gen * 2 ^ 16)] ++ w64 addr ++
    [w32 seq, w32 (len + tag * 2 ^ 16), w32 w6]

/-- The header with its PATH and its E2E_CRC. -/
def sealHdr (h : List Word) (path : Nat) (data : List Byte) : List Word :=
  let ws := w32 ((wordAt h 0).toNat - fld (wordAt h 0) 12 2 * 2 ^ 12 + path * 2 ^ 12) :: (h.drop 1).take 6
  ws ++ [w32 (crc32c (bytesOfWords ws ++ data))]

def hOp (h : List Word) : Nat := fld (wordAt h 0) 0 8
def hSub (h : List Word) : Nat := fld (wordAt h 0) 8 4
def hPath (h : List Word) : Nat := fld (wordAt h 0) 12 2
def hVc (h : List Word) : Nat := fld (wordAt h 0) 14 2
def hJob (h : List Word) : Nat := fld (wordAt h 0) 16 16
def hSrc (h : List Word) : Nat := fld (wordAt h 1) 0 7
def hSrcPart (h : List Word) : Nat := fld (wordAt h 1) 8 5
def hGen (h : List Word) : Nat := fld (wordAt h 1) 16 8
def hAddr (h : List Word) : Nat := dwordAt h 2
def hDstPkg (h : List Word) : Nat := hAddr h / 2 ^ 57
def hDstPart (h : List Word) : Nat := hAddr h / 2 ^ 52 % 32
def hOff (h : List Word) : Nat := hAddr h % 2 ^ 52
def hSeq (h : List Word) : Nat := (wordAt h 4).toNat
def hLen (h : List Word) : Nat := fld (wordAt h 5) 0 13
def hTag (h : List Word) : Nat := fld (wordAt h 5) 16 16
def hW6 (h : List Word) : Nat := (wordAt h 6).toNat

/-- A fabric address (R312). -/
def fabAddr (pkg part off : Nat) : Nat := pkg * 2 ^ 57 + part * 2 ^ 52 + off

/-! Routes (R318, R319). -/

/-- The ports of a plane (R302). -/
def planePorts (plane : Nat) : List Nat := (List.range 9).map fun i => 9 * plane + i
/-- A port is Active. -/
def portActive (s : State) (p : Nat) : Bool := (portOf s p).st == .active
/-- The Active ports of a plane. -/
def activePorts (s : State) (plane : Nat) : List Nat := (planePorts plane).filter (portActive s)

/-- The paths towards a package: the route table's, or the Active ports of the plane while the manager has given none
(log 21). -/
def routeOf (s : State) (plane dst : Nat) : List Nat :=
  match tget s.fab.routes (128 * plane + dst) with
  | some ps => ps
  | none => (activePorts s plane).take 4

/-- The path index of R319. -/
def pathPick (dst off n attempt : Nat) : Nat :=
  let z := mix (BitVec.ofNat 64 (dst * 2 ^ 52) ^^^ BitVec.ofNat 64 (off / 4096))
  (z.toNat + attempt) % 2 ^ 64 % max n 1

/-- The port of a path, or of the next path whose port is up (R318). -/
def pathPort (s : State) (ps : List Nat) (path : Nat) : Option Nat :=
  ((List.range ps.length).map fun i => ps.getD ((path + i) % ps.length) 0).find? (portActive s)

/-- The flits of a packet: it starts a flit of its own (log 23). -/
def packetFlits (first : Nat) (bytes : List Byte) : List Flit :=
  (List.range (cdiv bytes.length 256)).map fun i =>
    let b := slice bytes (256 * i) 256
    { fseq := (first + i) % 4096, payload := b ++ List.replicate (256 - b.length) 0 }

/-- Zeros up to a multiple of 32. -/
def pad32 (bs : List Byte) : List Byte := bs ++ List.replicate ((32 - bs.length % 32) % 32) 0

/-- A packet leaves a port: its flits are counted and kept for replay, and take slots at the far end (R304, R307). -/
def portNow (p : Nat) (h : List Word) (data : List Byte) (s : State) : State :=
  let fl := packetFlits (portOf s p).txSeq (bytesOfWords h ++ pad32 data)
  let n := fl.length
  emit (.packet (p / 9) p h data) (totAdd (tFlitsTx + p) n (modPort p (fun q => { q with
    txSeq := (q.txSeq + n) % 4096, replay := q.replay ++ fl, credits := tset q.credits (hVc h) (tgetD q.credits (hVc h) 0 + n) }) s))
/-- A packet of `n` flits has room in the replay buffer and at the far end, and the port carries flits (R304, R307, R310). -/
def portRoom (q : Port) (vc n : Nat) : Bool :=
  !q.sparing && decide (q.replay.length + n ≤ 1024 ∧ tgetD q.credits vc 0 + n ≤ 512)
/-- Send a packet through a port, or let it wait there behind those of its virtual channel. -/
def portSend (p : Nat) (h : List Word) (data : List Byte) (s : State) : State :=
  let q := portOf s p
  if portRoom q (hVc h) (cdiv (32 + (pad32 data).length) 256) && !(q.txWait.any fun e => hVc e.1 == hVc h) then portNow p h data s
  else modPort p (fun q => { q with txWait := q.txWait ++ [(h, data)] }) s
/-- Packets that waited at a port go, each in the order of its virtual channel. -/
def portDrain (p : Nat) (s : State) : State :=
  (portOf s p).txWait.foldl (fun t e => portSend p e.1 e.2 t) (modPort p (fun q => { q with txWait := [] }) s)

/-- Send a packet to a package on a plane; nothing leaves when no path is up. -/
def transmit (plane dst attempt : Nat) (h : List Word) (data : List Byte) (s : State) : State :=
  let ps := routeOf s plane dst
  let path := pathPick dst (hOff h) ps.length attempt
  match pathPort s ps path with
  | none => s
  | some p =>
    let hd := sealHdr h path data
    portSend p hd data s

/-- The plane that traffic meant for `plane` takes: the other one when its own has no path (R302). -/
def planeFor (s : State) (plane dst : Nat) : Nat :=
  if (pathPort s (routeOf s plane dst) 0).isSome then plane
  else if (pathPort s (routeOf s (1 - plane) dst) 0).isSome then 1 - plane else plane

/-- The Harbourmaster reaches the ports of a plane: with the IOD0-IOD1 link down only those of the active instance's own die
(R19). -/
def mgmtReach (s : State) (plane : Nat) : Bool := !(decide (12 ∈ s.health.links)) || plane == b2n s.host.hm.hmInst
/-- The plane that a management packet meant for `plane` takes. -/
def mgmtPlane (s : State) (plane dst : Nat) : Nat := if 12 ∈ s.health.links then b2n s.host.hm.hmInst else planeFor s plane dst

/-! Management packets (R314). -/

/-- A management header. -/
def mgmtHdr (s : State) (op subop dst len w6 : Nat) : List Word :=
  mkHdr op subop 2 serviceJob (myPkg s) 0 0 (fabAddr dst 0 0) 0 len 0 w6

/-- Send a management packet that expects no answer; the Harbourmaster enters plane 0 (R302). -/
def mgmtSend (op subop dst w6 : Nat) (data : List Byte) (s : State) : State :=
  transmit (mgmtPlane s 0 dst) dst 0 (mgmtHdr s op subop dst data.length w6) data s

/-- Send a management packet and keep it until its answer arrives (R314). -/
def mgmtAsk (op subop dst w6 : Nat) (data : List Byte) (s : State) : State :=
  let h := mgmtHdr s op subop dst data.length w6
  let plane := mgmtPlane s 0 dst
  modFab (fun f => { f with mgmt := f.mgmt ++ [{ plane, dst, hdr := h, data }] }) (transmit plane dst 0 h data s)

/-- Drop the management packets that an answer settles: opcode and destination, and for job packets the job and generation
of their data. -/
def mgmtDone (op dst : Nat) (same : List Byte → Bool) (s : State) : State :=
  modFab (fun f => { f with mgmt := f.mgmt.filter fun m => !(hOp m.hdr == op && m.dst == dst && same m.data) }) s

/-- The package state of a heartbeat (R334). -/
def hbState (s : State) : Word :=
  w32 (b2n (s.parts.any fun q => q.2.cfg.st == .serving) + 2 * b2n s.host.hm.failed + 4 * b2n s.host.hm.redundancyLost +
    8 * b2n s.host.hm.standbyLost)

/-- The data of a heartbeat. -/
def hbData (s : State) : List Byte :=
  bytesOfWords ([hbState s] ++ w64 s.fab.hbCount ++ [w32 (s.fab.knownMgr.getD 0xFFFFFFFF), 0, 0, 0, 0])

/-- Planes on which heartbeats leave: with the IOD0-IOD1 link down only that of the active instance's own die (R19). -/
def hbPlanes (s : State) : List Nat :=
  if 12 ∈ s.health.links then [b2n s.host.hm.hmInst] else [0, 1]

/-- Send one heartbeat to the manager and to the standby on each plane (R334). -/
def sendHeartbeat (s : State) : State :=
  if s.host.hm.gone then s
  else
    let dests := (s.fab.knownMgr.toList ++ s.fab.knownStby.toList).filter (· != myPkg s)
    let s1 := dests.foldl (fun t d => (hbPlanes s).foldl (fun t p =>
      transmit p d 0 (mgmtHdr t 0x20 0 d 32 0) (hbData t) t) t) s
    modFab (fun f => { f with hbCount := (f.hbCount + 1) % 2 ^ 64 }) s1

/-! Streams at their source (R320 to R323, R331). -/

/-- A fabric job entry of this package. -/
def jobOf (s : State) (j : Nat) : Option Job := s.fab.jobs.find? fun e => e.job = j

/-- The status with which a request is turned away at its source, or 0 (R312, R331, R337). -/
def sourceStatus (s : State) (job dst : Nat) : Nat :=
  if job ≠ serviceJob ∧ s.host.hm.cutOff then 0x0A0A
  else if job = serviceJob then (if (tget s.fab.routes dst).isSome ∨ (tget s.fab.routes (128 + dst)).isSome ∨
      s.fab.jobs.any (fun e => decide (dst ∈ e.members)) ∨ s.mgr.joined.any (fun e => e.pkg == dst) then 0 else 0x0A04)
  else match jobOf s job with
    | none => 0x0A02
    | some e => if e.st ≠ .active then 0x0A02 else if dst ∈ e.members then 0
        else if s.fab.jobs.any (fun e => decide (dst ∈ e.members)) then 0x0A03 else 0x0A04

/-- The stream of a plane, destination and job. -/
def streamOf (s : State) (plane dst job : Nat) : SrcStream :=
  (s.fab.src.find? fun x => x.plane = plane ∧ x.dst = dst ∧ x.job = job).getD { plane, dst, job }

/-- Replace a stream. -/
def putStream (x : SrcStream) (s : State) : State :=
  let same : SrcStream → Bool := fun y => y.plane == x.plane && y.dst == x.dst && y.job == x.job
  let xs := s.fab.src
  modFab (fun f => { f with src := if xs.any same then xs.map (fun y => if same y then x else y) else xs ++ [x] }) s

/-- Current generation of a job; the service job has 0. -/
def genOf (s : State) (job : Nat) : Nat := ((jobOf s job).map fun e => e.gen).getD 0


/-- RESULT_ACK: the last SEQ up to which the source holds every response (R326). -/
def resultAck (x : SrcStream) : Nat :=
  match x.outs with
  | o :: _ => (o.seq + 2 ^ 32 - 1) % 2 ^ 32
  | [] => (x.next + 2 ^ 32 - 1) % 2 ^ 32

/-- A request with its SEQ and RESULT_ACK. -/
def stampHdr (h : List Word) (seq ra : Nat) : List Word := h.take 4 ++ [w32 seq, wordAt h 5, w32 ra]

/-- Number and send a request on the stream of a plane (R320). -/
def sendNow (plane dst job : Nat) (r : OutReq) (s : State) : State :=
  let x := streamOf s plane dst job
  let h := stampHdr r.hdr x.next (resultAck x)
  transmit plane dst 0 h r.data
    (putStream { x with next := (x.next + 1) % 2 ^ 32, resultDue := false
                        outs := x.outs ++ [{ r with seq := x.next, hdr := h, sends := 1 }] } s)

/-- Send what waits at the source and entered for plane `home`, oldest first, at most `fuel` requests: on the plane's own stream,
or on the other plane's while the own one has no path. A request waits while its stream is paused or holds 256 requests
(R321, R323), and while the stream of the other plane holds one that entered for the same plane (R323). -/
def streamPump (home dst job : Nat) : Nat → State → State
  | 0, s => s
  | fuel + 1, s =>
    let x := streamOf s home dst job
    match x.waiting with
    | [] => s
    | r :: rest =>
      let pl := planeFor s home dst
      let z := streamOf s pl dst job
      if z.paused ∨ 256 ≤ z.outs.length ∨ (streamOf s (1 - pl) dst job).outs.any (fun o => o.home == home) then s
      else streamPump home dst job fuel (sendNow pl dst job r (putStream { x with waiting := rest } s))

/-- A request of a latency-critical partition (R382). -/
def isUrgent (s : State) (r : OutReq) : Bool := r.part.any fun p => bitOf (wordAt (activeBank (partOf s p)) 0) 0
/-- Enter a request in the queue of a source: one of a latency-critical partition before those of best-effort partitions, and no
request between the fragments of an entry (R317, R382). -/
def enterQueue (s : State) (r : OutReq) (xs : List OutReq) : List OutReq :=
  if isUrgent s r then
    let stays (o : OutReq) : Bool := isUrgent s o || o.part.isNone || (hOp o.hdr == 4 && hSub o.hdr == 2)
    xs.takeWhile stays ++ [r] ++ xs.dropWhile stays
  else xs ++ [r]
/-- Send a request on its stream, or hold it at the source (R320, R321, R323). -/
def streamSend (home dst job : Nat) (r : OutReq) (s : State) : State :=
  let x := streamOf s home dst job
  streamPump home dst job (x.waiting.length + 1) (putStream { x with waiting := enterQueue s { r with home } x.waiting } s)

/-- Send what waits at the source towards a destination, on either plane. -/
def pumpDst (dst job : Nat) (s : State) : State :=
  [0, 1].foldl (fun t h => streamPump h dst job (streamOf t h dst job).waiting.length t) s

/-- Issue a VC 0 request for a partition or for the firmware (`part` none), with its status at the source: 0 when it is on
its way. `entry` is the whole queue entry of which it carries the last bytes. -/
def issueKeep (entry : List Byte) (plane dst job op subop : Nat) (part : Option Nat) (rel : Option (Nat × Nat)) (addr len : Nat)
    (data : List Byte) (s : State) : Nat × State :=
  let st := sourceStatus s job dst
  let p := part.getD 0
  if st ≠ 0 then (st, if part.isSome then cntAdd p (cJeren + 6) 1 s else s)
  else
    let h := mkHdr op subop 0 job (myPkg s) p (genOf s job) addr 0 len s.fab.tags 0
    let s1 := modFab (fun f => { f with tags := (f.tags + 1) % 65536 }) s
    let s2 := if part.isSome then cntAdd p cJeren 1 (cntAdd p (cJeren + 1) (cdiv data.length 64) s1) else s1
    (0, streamSend plane dst job { hdr := h, data, part, rel, entry } s2)

/-- Issue a request that is no queue entry. -/
def issue (plane dst job op subop : Nat) (part : Option Nat) (rel : Option (Nat × Nat)) (addr len : Nat) (data : List Byte) (s : State) : Nat × State :=
  issueKeep [] plane dst job op subop part rel addr len data s

/-- Cut `n` bytes at address `a` into runs that each lie within one 4 KiB page: address and bytes, at most `fuel` runs. -/
def pageRuns : Nat → Nat → List Byte → List (Nat × List Byte)
  | 0, _, _ => []
  | _ + 1, _, [] => []
  | fuel + 1, a, bs =>
    let n := 4096 - a % 4096
    (a, bs.take n) :: pageRuns fuel (a + n) (bs.drop n)

/-- Issue a push of bytes as one BULK per 4 KiB-aligned page, POST on the last (R316). A push of no bytes is one BULK of
length 0. Answers the first status that is not success. -/
def issuePush (plane dst job : Nat) (part : Option Nat) (rel : Option (Nat × Nat)) (dpart off : Nat) (data : List Byte) (post : Bool) (s : State) :
    Nat × State :=
  let runs := if data = [] then [(off, [])] else pageRuns (data.length / 4096 + 2) off data
  let n := runs.length
  (List.range n).foldl (fun (acc : Nat × State) i =>
    let r := runs.getD i (off, [])
    let q := issue plane dst job 0x05 (b2n (post && i + 1 == n)) part rel (fabAddr dst dpart r.1) r.2.length r.2 acc.2
    (if acc.1 ≠ 0 then acc.1 else q.1, q.2)) (0, s)

end Sys2Proof.Machine
end

