-- ==== Sys2Proof/Machine/Record.lean ====
section
/-! DEFINITION. Configuration records (R380), the image and stage that a partition runs (R540), where its clusters lie (R136,
R137), its HBM (R237, R238, R240) and its key-value tables (R184 to R188). -/

namespace Sys2Proof.Machine

/-! Fields of a configuration record. -/

def recClass (b : List Word) : Bool := bitOf (wordAt b 0) 0
def recGather (b : List Word) : Bool := bitOf (wordAt b 0) 1
def recRing (b : List Word) : Bool := bitOf (wordAt b 0) 2
def recStandby (b : List Word) : Bool := bitOf (wordAt b 0) 3
def recImageValid (b : List Word) : Bool := bitOf (wordAt b 0) 4
def recDeadline (b : List Word) : Nat := fld (wordAt b 1) 0 20
/-- The clusters that a record claims. -/
def recClusters (b : List Word) : List Nat := (List.range 48).filter fun c => (dwordAt b 2).testBit c
def recSeed (b : List Word) : Nat := dwordAt b 4
/-- JOB; 0xFFFF is none. -/
def recJob (b : List Word) : Nat := fld (wordAt b 6) 0 16
def recPower (b : List Word) : Nat := fld (wordAt b 7) 0 9
def recRingSize (b : List Word) : Nat := fld (wordAt b 8) 0 7
def recRingPos (b : List Word) : Nat := fld (wordAt b 8) 8 6
def recRingLayout (b : List Word) : Nat := fld (wordAt b 8) 14 2
def recEgMembers (b : List Word) : Nat := fld (wordAt b 9) 0 5
def recEgSelf (b : List Word) : Nat := fld (wordAt b 9) 8 4
/-- Byte i of the bytes that start at word w of a record. -/
def recByte (b : List Word) (w i : Nat) : Nat := fld (wordAt b (w + i / 4)) (8 * (i % 4)) 8
/-- Package of expert-group member m. -/
def recEg (b : List Word) (m : Nat) : Nat := recByte b 10 m % 128
/-- Package of ring position p. -/
def recRingPkg (b : List Word) (p : Nat) : Nat := recByte b 14 p % 128
/-- Quota field i: HBM_WEIGHT_MIB, HBM_DATA_MIB, HBM_KV_MIB, SWAP_MIB, BOND_CHUNKS, HBM_SHARE. -/
def recQuota (b : List Word) (i : Nat) : Nat := (wordAt b (30 + i)).toNat
def recImage (b : List Word) : Nat := fld (wordAt b 38) 0 8
/-- The partition cluster of an image cluster. -/
def recReloc (b : List Word) (c : Nat) : Option Nat :=
  if bitOf (w32 (recByte b 40 c)) 7 then some (recByte b 40 c % 64) else none
def recMirror (b : List Word) : Nat := fld (wordAt b 52) 0 24

/-! Image and stage of a partition. -/

/-- The image that a record names. -/
def recImg (s : State) (b : List Word) : Option Image := if recImageValid b then tget s.images (recImage b) else none
/-- The words of the image in the active bank of a partition. -/
def imgOf (s : State) (p : Nat) : List Word := ((recImg s (activeBank (partOf s p))).map fun i => i.words).getD []
/-- The active bank of a partition. -/
def bank (s : State) (p : Nat) : List Word := activeBank (partOf s p)

/-- An image is of a stage (R540). -/
def isStage (i : Image) (st : Stage) : Bool :=
  imgStage i.words == st.stageId && imgDigest i.words == st.digest && i.standby == st.standby
/-- The stage of an image. -/
def stageFor (s : State) (i : Image) : Option Stage := s.stages.find? (isStage i)
/-- The stage that a partition serves. -/
def stageOf (s : State) (p : Nat) : Option Stage := (recImg s (bank s p)).bind (stageFor s)
/-- Change the stage at a place of the flat HBM space. -/
def modStage (slot : Nat) (f : Stage → Stage) (s : State) : State :=
  { s with stages := s.stages.map fun st => if st.slot = slot then f st else st }
/-- The partitions that serve a stage. -/
def servers (s : State) (st : Stage) : List Nat :=
  (List.range 32).filter fun p => ((stageOf s p).map fun t => t.slot) == some st.slot

/-! Clusters (R22, R136, R137). Image clusters are those of the image, package clusters those of R22. -/

/-- The image cluster that does the work of image cluster c: its host when it is folded. -/
def hostOf (s : State) (p c : Nat) : Nat :=
  match (partOf s p).cfg.folded.find? fun f => f.1 = c with
  | some f => f.2
  | none => c
/-- The package cluster at which image cluster c's work is done. -/
def placeOf (s : State) (p c : Nat) : Nat := (recReloc (bank s p) (hostOf s p c)).getD (hostOf s p c)
/-- The image clusters that a relocation places: those in use and the idle ones that may host a fold (R135, R136). -/
def placedClusters (ws : List Word) : List Nat := (List.range 48).filter fun c => cmUsed ws c || cmGuests ws c != []
/-- The image cluster that a package cluster stands for. -/
def imgCluster (s : State) (p k : Nat) : Nat :=
  ((placedClusters (imgOf s p)).find? fun c => recReloc (bank s p) c == some k).getD k
/-- The guest that an image cluster hosts. -/
def guestOf (s : State) (p h : Nat) : Option Nat := ((partOf s p).cfg.folded.find? fun f => f.2 = h).map fun f => f.1
/-- The list that an image cluster runs: the guest's fold list while it hosts one, its own otherwise; none when it is idle or
folded. -/
def listOfCluster (s : State) (p c : Nat) : Option Nat :=
  let ws := imgOf s p
  if (partOf s p).cfg.folded.any (fun f => f.1 = c) then none
  else match guestOf s p c with
    | some g => some (cmFoldList ws g)
    | none => if cmUsed ws c then some (cmList ws c) else none
/-- The image clusters that run a list. -/
def runners (s : State) (p : Nat) : List Nat := (List.range 48).filter fun c => (listOfCluster s p c).isSome
/-- The step slot of a step at image cluster c (R143). -/
def slotNo (ws : List Word) (c step : Nat) : Nat := step % cmSlots ws c
/-- The partition that a package cluster works for. -/
def ownerOf (s : State) (k : Nat) : Option Nat := (List.range 32).find? fun p => decide (k ∈ recClusters (bank s p))

/-! Rungs (R112 to R125). -/

/-- IMAGE of the manifest records that a partition's image runs against: 1 for a standby image (R278). -/
def manifestImage (s : State) (p : Nat) : Nat := ((recImg s (bank s p)).map fun i => b2n i.standby).getD 0
/-- The next wider rung of an operation: rung 1 only over an INT2 or TERN base that lists it (R65, R67, R114). -/
def widerRung (mf : List Word) (im op r : Nat) : Nat :=
  if r = 0 ∧ pieceExists mf 2 im op ∧ pieceFmt mf 1 im op ∈ [8, 9] then 1 else 2
/-- The rung that a fall-back state gives an operation in a step (R119, R120, R125): the last escalation that applies in the
step's window, and at least the first wider rung within TOP_RUNG under a storm pin. -/
def rungIn (f : FbState) (top wider op step : Nat) : Nat :=
  let o := tgetD f.ops op {}
  let ds := o.pend.filter fun d => decide (d.1 ≤ step) && d.1 / 4096 == step / 4096
  let base := match ds.getLast? with
    | some d => d.2
    | none => if f.win = step / 4096 then o.rung else 0
  if base = 0 && decide (wider ≤ top) && f.storms.any (fun w => decide (w.1 ≤ step ∧ step ≤ w.2)) then wider else base
/-- The rung of an operation of a partition in a step. -/
def rungOf (s : State) (p op step : Nat) : Nat :=
  match safeOf (imgOf s p) op with
  | none => 0
  | some r => rungIn (partOf s p).fb.cur (sgTop r) (widerRung s.bnd.manifest (manifestImage s p) op 0) op step

/-! Key-value tables (R184 to R188). -/

/-- Bytes of a key region of one head (R185). -/
def kBytes (page dim : Nat) (f : Fmt) : Nat :=
  if f.isBlock then 64 * cdiv (page * (dim / f.blockLen)) 7 else page * dim * f.bytes
/-- `n` rounded up to a multiple of `m`. -/
def roundUp (n m : Nat) : Nat := cdiv n m * m
/-- Bytes of one head of a page. -/
def headBytes (t : Nat × Nat × Nat × Nat × Fmt × Fmt) : Nat :=
  let (_, page, _, dim, fk, fv) := t
  roundUp (kBytes page dim fk) 64 + roundUp (page * dim * fv.bytes) 64
/-- 4 KiB units of a page of a table. -/
def pageUnits (t : Nat × Nat × Nat × Nat × Fmt × Fmt) : Nat := cdiv (t.2.2.1 * headBytes t) 4096
/-- The KV tables of a partition's image, in ascending number. -/
def tablesOf (s : State) (p : Nat) : List (Nat × Nat × Nat × Nat × Fmt × Fmt) :=
  let ts := kvTables (imgOf s p)
  (List.range 256).filterMap fun n => ts.find? fun t => t.1 = n
/-- Pages that `len` tokens take in a table. -/
def pagesFor (t : Nat × Nat × Nat × Nat × Fmt × Fmt) (len : Nat) : Nat := cdiv len t.2.1
/-- Index within a page list of the first entry of each table, for a slot. -/
def tableStart (ts : List (Nat × Nat × Nat × Nat × Fmt × Fmt)) (maxLen n : Nat) : Nat :=
  ((ts.filter fun t => t.1 < n).map fun t => pagesFor t maxLen).sum
/-- Entries of a page list. -/
def listEntries (ts : List (Nat × Nat × Nat × Nat × Fmt × Fmt)) (maxLen : Nat) : Nat := (ts.map fun t => pagesFor t maxLen).sum
/-- 4 KiB units that a page list is charged, both copies (R240). -/
def listUnits (ts : List (Nat × Nat × Nat × Nat × Fmt × Fmt)) (maxLen : Nat) : Nat := 2 * cdiv (8 * listEntries ts maxLen) 4096
/-- The table that entry i of a slot's page list belongs to. -/
def tableAt (ts : List (Nat × Nat × Nat × Nat × Fmt × Fmt)) (maxLen i : Nat) : Option (Nat × Nat × Nat × Nat × Fmt × Fmt) :=
  ts.find? fun t => decide (tableStart ts maxLen t.1 ≤ i ∧ i < tableStart ts maxLen t.1 + pagesFor t maxLen)

/-- The slot that holds a sequence identifier and is not being freed. -/
def slotOfSeq (k : Kv) (seq : Nat) : Option Nat :=
  (k.slots.find? fun e => e.2.seqId = seq && e.2.st != .empty && !e.2.freeing).map fun e => e.1
/-- The slots of a sequence: one, or two of a zigzag ring (R199, log 32). -/
def slotsOfSeq (k : Kv) (seq : Nat) : List Nat :=
  (k.slots.filter fun e => e.2.seqId = seq && e.2.st != .empty && !e.2.freeing).map fun e => e.1
/-- A slot. -/
def slotAt (s : State) (p i : Nat) : SeqSlot := tgetD (partOf s p).kv.slots i {}
/-- The slots that hold the same sequence as a slot, itself among them (R199). -/
def mates (s : State) (p i : Nat) : List Nat :=
  let e := slotAt s p i
  ((partOf s p).kv.slots.filter fun x => x.2.seqId == e.seqId && x.2.st != .empty && x.2.freeing == e.freeing).map fun x => x.1
/-- Change a slot. -/
def modSlot (p i : Nat) (f : SeqSlot → SeqSlot) (s : State) : State :=
  modKv p (fun k => { k with slots := tset k.slots i (f (tgetD k.slots i {})) }) s

/-! Partition HBM (R237 to R240). -/

/-- Flat address of an offset in a partition's HBM, for regions held as bytes. -/
def hbmFlat (s : State) (p off : Nat) : Nat :=
  if hbmRegion off = 0 then (64 + ((stageOf s p).map fun st => st.slot).getD 0) * 2 ^ 52 + off else p * 2 ^ 52 + off

/-- Code of STATE in a slot entry. -/
def slotStateCode : SlotState → Nat
  | .empty => 0
  | .resident => 1
  | .swapped => 2
  | .lost => 3
/-- The eight words of a slot entry (R186). -/
def slotWords (e : SeqSlot) : List Word :=
  [w32 e.seqId, w32 (e.length + 2 ^ 25 * slotStateCode e.st), w32 e.basePos, w32 e.maxLen] ++ w64 e.listBase ++ w64 e.lastStep
/-- A page-table entry as 64 bits (R187). -/
def pteNat (e : Pte) : Nat := b2n e.valid + 2 * e.loc + 8 * b2n e.resv + 16 * e.gen + 4096 * e.frame
/-- The bytes of a sequence table: header and records (R188, R240). -/
def seqTableWords (t : SeqTable) : List Word :=
  (w32 t.records.length :: w64 t.step) ++ List.replicate 13 0 ++ t.records.flatMap fun r => (List.range 4).map fun i => w32 (r.getD i 0)
/-- Byte `o` of the KV-table region, from the state that it holds (R240). -/
def tableByte (k : Kv) (o : Nat) : Byte :=
  if o < 0x200000 then (bytesOfWords (slotWords (tgetD k.slots (o / 32) {}))).getD (o % 32) 0
  else if o < 0x600000 then
    match tget k.seqTables ((o - 0x200000) / 0x40000) with
    | some t => (bytesOfWords (seqTableWords t)).getD ((o - 0x200000) % 0x40000) 0
    | none => 0
  else
    match k.slots.find? fun e => e.2.st != .empty && decide (hbmIn e.2.listBase ≤ o) &&
      e.2.pages.any (fun q => decide (hbmIn e.2.listBase + 8 * q.1 ≤ o ∧ o < hbmIn e.2.listBase + 8 * q.1 + 8)) with
    | some e =>
      let i := (o - hbmIn e.2.listBase) / 8
      (natBytes 8 (pteNat (tgetD e.2.pages i {}))).getD ((o - hbmIn e.2.listBase) % 8) 0
    | none => 0

/-- Read bytes of a partition's HBM. -/
def hbmRead (s : State) (p off n : Nat) : List Byte :=
  if hbmRegion off = 3 then (List.range n).map fun i => tableByte (partOf s p).kv (hbmIn off + i)
  else hbmReadFlat s (hbmFlat s p off) n
/-- Write bytes of a partition's HBM. -/
def hbmWrite (p off : Nat) (bs : List Byte) (s : State) : State := hbmWriteFlat (hbmFlat s p off) bs s

/-- Mapped bytes of a region of a partition (R237, R258). -/
def regionSize (s : State) (p off : Nat) : Nat :=
  let ws := imgOf s p
  match hbmRegion off with
  | 0 => need ws (3 + weightDie off) * 2 ^ 20
  | 1 => dataBytes ws
  | 2 => recQuota (bank s p) 2 * 2 ^ 20
  | 3 => recQuota (bank s p) 2 * 2 ^ 20
  | 4 => spillBytes ws
  | _ => 0
/-- An offset range of a partition is mapped. -/
def mapped (s : State) (p off n : Nat) : Bool :=
  if 5 ≤ hbmRegion off ∨ imgOf s p = [] ∨ (hbmRegion off = 0 ∧ hbmIn off / 2 ^ 38 ≠ 0) then false
  else decide (regionOff off + n ≤ regionSize s p off)

/-- The check of a store from the fabric or the host: 0 when it is allowed (R239, R542). -/
def storeStatus (s : State) (p off n : Nat) : Nat :=
  if 5 < hbmRegion off then 0x0802
  else if hbmRegion off ≠ 1 then 0x0801
  else if mapped s p off n then 0 else 0x0802
/-- Dead bytes of a range (R264). -/
def deadIn (s : State) (a n : Nat) : Bool := s.tiers.dead.any fun d => meets d.1 d.2 a n
/-- The check of a load from the fabric or the host. -/
def loadStatus (s : State) (p off n : Nat) : Nat :=
  if ¬ mapped s p off n then 0x0802 else if deadIn s (hbmFlat s p off) n then 0x0804 else 0
/-- A write makes dead bytes whole again. -/
def rewriteDead (a n : Nat) (s : State) : State :=
  modTiers (fun t => { t with dead := t.dead.filter fun d => !(decide (a ≤ d.1 ∧ d.1 + d.2 ≤ a + n)) }) s

end Sys2Proof.Machine
end

