-- ==== Sys2Proof/Machine/Place.lean ====
section
/-! DEFINITION. Where the bytes of partition HBM lie: frame maps, granules, pseudo-channels and the checks formed over them
(R237, R238, R240 to R243, R258, R262, R269, R542). -/

namespace Sys2Proof.Machine

/-! Granules and pseudo-channels (R241, R243). -/

/-- Die pseudo-channel in which granule i of physical frame f lies while no pseudo-channel is retired. -/
def pcOf (f i : Nat) : Nat := Nat.xor (i % 128) (Nat.xor f (Nat.xor (f / 128) (f / 16384)) % 128)
/-- Position of granule i of physical frame f within its pseudo-channel. -/
def granulePos (f i : Nat) : Nat := 64 * f + i / 128
/-- Retired pseudo-channels of a die, ascending, by their number within the die. -/
def diePcsOut (s : State) (die : Nat) : List Nat := (List.range 128).filter fun q => decide (128 * die + q ∈ s.tiers.pcsOut)
/-- Die pseudo-channel in which granule i of physical frame f of a die lies: that of `pcOf`, or, for the k-th retired one, the
in-service pseudo-channel (f + k) mod (128 - r). -/
def diePcAt (s : State) (die f i : Nat) : Nat :=
  let out := diePcsOut s die
  let q := pcOf f i
  match out.findIdx? (· == q) with
  | none => q
  | some k => ((List.range 128).filter fun x => !(decide (x ∈ out))).getD ((f + k) % (128 - out.length)) 0
/-- Package pseudo-channel of granule i of physical frame f of a die. -/
def packagePc (s : State) (die f i : Nat) : Nat := 128 * die + diePcAt s die f i
/-- Stack of a package pseudo-channel, and its pseudo-channel within the stack. -/
def stackOfPc (pc : Nat) : Nat × Nat := (pc / 32, pc % 32)
/-- Row of a granule position: a row of 1 KiB holds four granules (R267). -/
def rowOfPos (pos : Nat) : Nat := pos / 4

/-! The frame maps (R238). -/

/-- The most frames that a die holds (R243). -/
def dieFrames (s : State) (die : Nat) : Nat := 49152 - 384 * (diePcsOut s die).length
/-- Compute die on which frame n of a region lies: the one its offset names, in the weight region; n mod 4 in another; and
another die for the second copies of the input journal and of the KV-table region (R238, R240, R542; log 124). -/
def dieOfFrame (journal region n : Nat) : Nat :=
  if region = 0 then n / 2 ^ 15 % 4
  else if region = 19 then (n + 1) % 4
  else if region = 1 ∧ journal ≤ 2 * n ∧ 2 * n < 2 * journal then ((2 * n - journal) / 2 + 1) % 4
  else n % 4
/-- The entry of a frame map. -/
def frameEntry (s : State) (space region n : Nat) : Option Frame :=
  s.tiers.frames.find? fun x => x.space == space && x.region == region && x.n == n
/-- Physical frames of a die that are mapped, withdrawn or the goal of a move. -/
def framesTaken (s : State) (die : Nat) : List Nat :=
  ((s.tiers.frames.filter fun x => x.die == die).map fun x => x.phys) ++
    ((s.tiers.framesOut.filter fun x => x.1 == die).map fun x => x.2) ++ (s.tiers.moves.filter fun m => m.die == die).map fun m => m.toF
/-- A free physical frame of a die; which one is the firmware's choice (log 10). -/
def freeFrame (s : State) (die : Nat) : Option Nat := allocFrom (framesTaken s die) (dieFrames s die) (Config.choice s.free)
/-- Map frame n of a region, unless it is mapped. -/
def mapFrame (space journal region n : Nat) (s : State) : State :=
  if (frameEntry s space region n).isSome then s
  else
    let die := dieOfFrame journal region n
    match freeFrame s die with
    | none => s
    | some f => modTiers (fun t => { t with frames := t.frames ++ [{ space, region, n, die, phys := f }] }) { s with free := s.free + 1 }
/-- Map frames of a region that are not mapped yet. -/
def mapFrames (space journal region : Nat) (ns : List Nat) (s : State) : State :=
  ns.foldl (fun t n => mapFrame space journal region n t) s
/-- Frames that an extent of MiB takes. -/
def framesFor (mib : Nat) : List Nat := List.range (cdiv mib 2)
/-- Map the regions of a partition that runs an image under a record: data and spill to their needs, the KV regions to their
quota (R240, R258; log 124). -/
def mapPartition (p : Nat) (ws b : List Word) (s : State) : State :=
  let j := journalMib ws
  mapFrames p j 19 (framesFor 16) (mapFrames p j 3 (framesFor 16) (mapFrames p j 2 (framesFor (recQuota b 2 - 32))
    (mapFrames p j 4 (framesFor (cdiv (spillBytes ws) (2 ^ 20))) (mapFrames p j 1 (framesFor (cdiv (dataBytes ws) (2 ^ 20))) s))))
/-- Map the weight region of a stage, slice by slice (R237). -/
def mapStage (slot : Nat) (ws : List Word) (s : State) : State :=
  mapFrames (64 + slot) 0 0 ((List.range 4).flatMap fun d => (framesFor (need ws (3 + d))).map fun n => d * 2 ^ 15 + n) s
/-- Forget the frames of a space. -/
def unmapSpace (space : Nat) (s : State) : State := modTiers (fun t => { t with frames := t.frames.filter fun x => x.space != space }) s

/-- Where a byte of a region lies: compute die, physical frame and granule. -/
def placeOfByte (s : State) (space region off : Nat) : Option (Nat × Nat × Nat) :=
  (frameEntry s space region (off / 2 ^ 21)).map fun x => (x.die, x.phys, off % 2 ^ 21 / 256)
/-- Package pseudo-channel in which a byte of a region lies, and its granule position there. -/
def pcOfByte (s : State) (space region off : Nat) : Option (Nat × Nat) :=
  (placeOfByte s space region off).map fun x => (packagePc s x.1 x.2.1 x.2.2, granulePos x.2.1 x.2.2)
/-- Some granule of a range of a region lies in a package pseudo-channel. A range with no frame is taken to. -/
def inPc (s : State) (space region off n pc : Nat) : Bool :=
  (List.range (cdiv (off % 256 + n) 256)).any fun i =>
    match pcOfByte s space region (off / 256 * 256 + 256 * i) with
    | none => true
    | some x => x.1 == pc

/-! Checks formed over stored words and accesses (R262). A physical error is an event of its own, so that what a check finds is
an operand of the command that reads; these are the values that the checks take. -/

/-- The odd-parity bit of a 32-bit word of SRAM. -/
def parityBit (w : Word) : Bool := ((List.range 32).filter fun i => bitOf w i).length % 2 == 0
/-- A word of SRAM and its parity bit agree. -/
def parityOk (w : Word) (p : Bool) : Bool := parityBit w == p
/-- The access address of a 32-byte access: die pseudo-channel q x 2^25 plus the access index, little-endian. -/
def accessAddress (q index : Nat) : List Byte := natBytes 4 (q * 2 ^ 25 + index)
/-- The CRC-16 of an HBM access, over its 32 data bytes and its access address. -/
def accessCrc (q index : Nat) (data : List Byte) : Nat := crc16 (data ++ accessAddress q index)
/-- A stored CRC-16 agrees with the data read at an access address. -/
def accessOk (q index : Nat) (data : List Byte) (crc : Nat) : Bool := accessCrc q index data == crc
/-- The CRC-16 that the 32-byte access at an offset of a region carries: eight accesses make a granule, in ascending address. -/
def crcAt (s : State) (space region off : Nat) (data : List Byte) : Option Nat :=
  (placeOfByte s space region off).map fun x =>
    accessCrc (diePcAt s x.1 x.2.1 x.2.2) (8 * granulePos x.2.1 x.2.2 + off % 256 / 32) data

end Sys2Proof.Machine
end

