-- ==== Sys2Proof/Machine/Service.lean ====
section
/-! DEFINITION. What several commands do to the package as a whole: declaring it failed, completing and re-running steps,
program faults, bank swaps, and taking cores and clusters out of service (R23, R24, R137, R166, R265, R348, R370, R371, R385,
R390, R422). -/

namespace Sys2Proof.Machine

/-! Repair record and failure (R348, R370, R371). -/

/-- The number under which an isolation is tested: a lane as 16 x port + lane, else the element of its repair entry (R506, R509). -/
def blockOf (kind elem detail : Nat) : Nat × Nat := (kind, if kind = 7 then 16 * elem + detail else elem)
/-- An isolation in service calls for a test of its block, and undoes an earlier finding that the element can return (R506, R510). -/
def queueTest (kind elem detail : Nat) (s : State) : State :=
  let b := blockOf kind elem detail
  modCar (fun c => { c with
    repairable := c.repairable.filter (· != b)
    queue := if s.host.hm.ready ∧ kind ∈ [1, 2, 6, 7, 8, 9, 11, 12] then c.queue ++ [b] else c.queue }) s
/-- Enter a repair in the record. -/
def recordRepair (kind elem detail : Nat) (s : State) : State :=
  let s1 := queueTest kind elem detail (setSticky 0 s)
  if s.boot.stage = .holdup then s1
  else if s.health.repairs.length < 4096 then
    totAdd (tCont + 7) 1 (modHealth (fun h => { h with
      repairs := h.repairs ++ [[w32 kind, w32 elem, w32 detail, w32 (min (s.now / 10 ^ 9) 0xFFFFFFFF)]] }) s1)
  else if s.health.repairFull then s1
  else logPkg 0x0B07 false 4096 0 (modHealth (fun h => { h with repairFull := true }) s1)

/-- Jeren lanes go to electrical idle. -/
def portsIdle (s : State) : State :=
  { s with ports := s.ports.map fun q => (q.1, { q.2 with st := .idle }) }

/-- The package declares itself failed. -/
def declareFailed (cause elem : Nat) (s : State) : State :=
  if s.host.hm.failed then s
  else
    let s1 := logPkg 0x0B01 true cause elem s
    let s2 := modHm (fun h => { h with failed := true, failCause := cause }) s1
    let s3 := portsIdle (sendHeartbeat s2)
    modPins (fun p => { p with faultN := true }) (setSticky 2 s3)

/-- Clusters in service. -/
def clustersIn (s : State) : Nat := ((List.range 48).filter fun c => !(clusterOf s c).out).length
/-- Active ports of either plane. -/
def portsUp (s : State) : Nat := ((List.range 18).filter (portActive s)).length
/-- The endpoint counts as working: it does with its link down, and not once IOD0 is lost (R371). -/
def endpointOk (s : State) : Bool := !s.health.iod0Out

/-- The element below which the package does not serve, if it lacks one: its number as event 0x0B01 names it. -/
def setLacks (s : State) : Option Nat :=
  if clustersIn s < 40 then some ((List.range 48).findIdx fun c => (clusterOf s c).out)
  else if 2 < s.tiers.stacksLost.length then some (s.tiers.stacksLost.getLastD 0)
  else if s.health.inoperable ≠ [] then some (s.health.inoperable.headD 0)
  else if ¬ endpointOk s ∧ portsUp s < 2 then some 0
  else none

/-- Check the minimum serving set of a package that has started. -/
def checkSet (s : State) : State :=
  if ¬ s.host.hm.ready then s
  else match setLacks s with
    | some e => declareFailed 1 e s
    | none => s

/-! Steps. -/

/-- The record of a step. -/
def stepRec (s : State) (p id : Nat) : Option StepRec := (partOf s p).run.steps.find? fun r => r.id = id
/-- Change the record of a step. -/
def modStep (p id : Nat) (f : StepRec → StepRec) (s : State) : State :=
  modRun p (fun r => { r with steps := r.steps.map fun x => if x.id = id then f x else x }) s
/-- A step is admitted and not committed. -/
def inFlight (r : StepRec) : Bool := r.st == .admitted || r.st == .finished
/-- The steps of a partition that are admitted and not committed, oldest first. -/
def flying (s : State) (p : Nat) : List StepRec := (partOf s p).run.steps.filter inFlight
/-- The steps that are accepted and not admitted. -/
def accepted (s : State) (p : Nat) : List StepRec := (partOf s p).run.steps.filter fun r => r.st == .accepted
/-- Window of a step (R117). -/
def windowOf (step : Nat) : Nat := step / 4096

/-- Write an event that a partition writes once per window of steps. -/
def onceEvent (code : Nat) (fault : Bool) (p op step w4 w5 : Nat) (s : State) : State :=
  if (code, windowOf step) ∈ (partOf s p).run.fired then s
  else logEvent code fault p op step w4 w5 (modRun p (fun r => { r with fired := r.fired ++ [(code, windowOf step)] }) s)

/-- Write an event that a step writes once. -/
def stepEvent (code : Nat) (p op step w4 w5 : Nat) (s : State) : State :=
  match stepRec s p step with
  | none => s
  | some r => if code ∈ r.fired then s
    else logEvent code false p op step w4 w5 (modStep p step (fun r => { r with fired := r.fired ++ [code] }) s)

/-- Forget the expert queues, spill entries and SELECTs of a step, with their return counters (R143, R233). -/
def clearExchange (p id : Nat) (s : State) : State :=
  modEx p (fun e => { e with
    queues := e.queues.filter fun q => q.1 / 768 % 16 != id % 16
    qwait := e.qwait.filter fun q => q.2.1 != id
    sels := e.sels.filter fun x => x.step != id
    spillN := e.spillN.filter fun q => q.1 % 16 != id % 16 }) s

/-- Waiting probes enter a unit's queue while it has room (R109). -/
def refill (u : Chamois) : Chamois :=
  let n := 32 - u.queue.length
  { u with queue := u.queue ++ u.waiting.take n, waiting := u.waiting.drop n }

/-- Discard everything that a step has produced or holds (R265, R339): its runs, outstanding commands, slots, inbox counts,
window buffers, barrier arrivals, gathered passes, probes, expert queues and cold-slot pins. -/
def dropStep (p id : Nat) (s : State) : State :=
  let cl (c : Cluster) : Cluster :=
    let mine := (c.slots.filter fun e => e.2 == (p, id)).map fun e => e.1
    { c with
      runs := c.runs.filter fun r => !(r.part == p && r.step == id)
      outst := c.outst.filter fun o => !(o.part == p && o.step == id)
      slots := c.slots.filter fun e => e.2 != (p, id)
      inbox := c.inbox.filter fun e => !(decide (e.1 / 16 ∈ mine))
      wins := c.wins.map fun w => if w.2.step = id then (w.1, { w.2 with released := true }) else w
      stream := if c.runs.any (fun r => r.part == p && r.step == id) then (min id c.stream.1, 0) else c.stream
      staging := if c.runs.any (fun r => r.part == p && r.step == id) then [] else c.staging }
  let co (c : Core) : Core := { c with
    gather := c.gather.filter fun g => !(g.part == p && g.step == id)
    grp := if c.grpOf = (p, id) then [] else c.grp
    sgrp := if c.sgrpOf = (p, id) then [] else c.sgrp }
  let ch (c : Chamois) : Chamois := refill { c with
    queue := c.queue.filter fun q => !(q.part == p && q.step == id)
    waiting := c.waiting.filter fun q => !(q.part == p && q.step == id) }
  let x := { s.x with
    clusters := s.x.clusters.map fun e => (e.1, cl e.2)
    cores := s.x.cores.map fun e => (e.1, co e.2)
    chm := s.x.chm.map fun e => (e.1, ch e.2) }
  let stages := s.stages.map fun st => { st with
    cold := st.cold.map (fun e => (e.1, { e.2 with pins := e.2.pins.filter (· != (p, id)) }))
    coldReqs := st.coldReqs.filter fun r => !(r.part == p && r.step == id) }
  let s1 := { s with x, stages }
  let s2 := modRun p (fun r => { r with
    barr := r.barr.filter fun e => e.1 / 64 != id
    barFrom := r.barFrom.filter fun e => e.1 / 64 != id }) s1
  clearExchange p id s2

/-- Start a step's lists on the clusters of its partition (R143). -/
def startRuns (p id : Nat) (s : State) : State :=
  let ws := imgOf s p
  (runners s p).foldl (fun t c =>
    match listOfCluster s p c with
    | none => t
    | some l => modCluster (placeOf s p c) (fun k => { k with
        runs := k.runs ++ [{ part := p, step := id, todo := (listCmds ws l).map fun w => { words := w } }] }) t) s

/-- Re-run a step from its journal under its own identifier (R265). -/
def rerunStep (p id : Nat) (s : State) : State :=
  modStep p id (fun r => { r with
    st := .admitted, replayed := true, left := [], outs := [], appended := [], action := 0, released := false, acked := false, records := 0,
    coldOrSpill := false, rungWaits := [] }) (startRuns p id (dropStep p id s))

/-- The partitions that serve a job. -/
def jobParts (s : State) (j : Nat) : List Nat := (List.range 32).filter fun p => recJob (bank s p) == j && imgOf s p != []
/-- The uncommitted steps of a partition are discarded; they wait for their replay. -/
def discardSteps (p : Nat) (s : State) : State :=
  (flying s p).foldl (fun t r =>
    modCont (fun c => { c with replays := c.replays.filter (· != (p, r.id)) ++ [(p, r.id)] })
      (modStep p r.id (fun q => { q with
        st := .admitted, replayed := true, left := [], outs := [], appended := [], action := 0, released := false, acked := false
        records := 0, coldOrSpill := false, rungWaits := [] }) (dropStep p r.id t))) s
/-- The lists of a partition push to other packages: through an expert group of more than one member, a Ferry ring, or PUSHes
(R183, R265). -/
def pushesOut (s : State) (p : Nat) : Bool :=
  decide (1 < recEgMembers (bank s p)) || recRing (bank s p) ||
    (imgCmds (imgOf s p)).any fun c => cOp c == 5 && rMode c == 5 && rDestTable c != 2
/-- The re-run of a step: its own lists from its journal, or, where its stage pushes to other packages, the job-wide replay, in
which this package discards its uncommitted steps of the job until the job is active again (R265, R360; log 108). -/
def rerunOrReplay (p id : Nat) (s : State) : State :=
  if pushesOut s p then (jobParts s (recJob (bank s p))).foldl (fun t q => discardSteps q t) s else rerunStep p id s
/-- A confirmed error of a step (R264, R265): the third one fails the package. -/
def confirmedStep (p id kind elem : Nat) (s : State) : State :=
  let s1 := cntAdd p (cMemory + 6) 1 s
  match stepRec s p id with
  | none => s1
  | some r =>
    if ¬ inFlight r then s1
    else if 2 ≤ r.errors then declareFailed 3 elem (modStep p id (fun r => { r with errors := r.errors + 1 }) s1)
    else
      let s2 := onceEvent 0x0805 false p noOp id kind elem (cntAdd p (cMemory + 9) 1 s1)
      rerunOrReplay p id (modStep p id (fun r => { r with errors := r.errors + 1 }) s2)

/-! Completion (R422, R429). -/

/-- The completion record of a step. -/
def cplRecord (r : StepRec) (n : Nat) : List Word :=
  w64 r.id ++ [w32 (r.status + 65536 * r.cause), w32 n, w32 r.latencyNs, w32 (r.cluster + 256 * b2n r.replayed)] ++
    List.replicate 9 0 ++ [1]

/-- Place results and a record in the result hold; the oldest step leaves a full one. -/
def holdResult (p : Nat) (r : StepRec) (data : List Byte) (s : State) : State :=
  let h := (partOf s p).run.hold
  let s1 := match h with
    | o :: _ => if 64 ≤ h.length then logEvent 0x0D02 false p noOp o.id o.id 0 s else s
    | [] => s
  totAdd (tHost + 7) 1 (modRun p (fun q => { q with
    hold := (if 64 ≤ h.length then h.drop 1 else h) ++ [{ id := r.id, data, record := cplRecord r data.length }] }) s1)

/-- Results and record go to the host, or to the result hold when they cannot be written. -/
def deliver (p : Nat) (r : StepRec) (data : List Byte) (s : State) : State :=
  let job := recJob (bank s p)
  let first := match jobOf s job with
    | some j => !(j.members.any fun m => decide (m < myPkg s))
    | none => true
  if r.host then
    let s0 := if r.status ≠ 0 then setVfEvent p 3 s else s
    if (partOf s p).run.freeDrop then s0
    else if dmaOpen s r.fn then
      let s1 := hostWrite r.fn r.cplAddr (bytesOfWords (cplRecord r data.length)) (hostWrite r.fn r.outAddr data s0)
      if r.vector = 0 then s1 else raiseMsix r.fn r.vector s1
    else logEvent 0x0D01 false p noOp r.id r.fn 0 (holdResult p r data s0)
  else if r.replayed && first then holdResult p r data s
  else s

/-! Pages and journal entries of a step that ends (R191, R542). -/

/-- Return one page of a slot to its pool. -/
def freePage (p slot i units : Nat) (s : State) : State :=
  let e := tgetD (slotAt s p slot).pages i {}
  if ¬ e.valid then s
  else
    let s1 := modSlot p slot (fun q => { q with
      pages := terase q.pages i
      crcs := terase q.crcs i
      reserved := if e.resv then q.reserved + units else q.reserved }) s
    if e.loc = 1 then modKv p (fun k => { k with swapUsed := k.swapUsed.filter fun u => u.1 != e.frame }) s1
    else modKv p (fun k => { k with used := k.used.filter fun u => u.1 != e.frame % 2 ^ 36 }) s1

/-- 4 KiB units of page i of a slot. -/
def unitsOf (s : State) (p slot i : Nat) : Nat :=
  ((tableAt (tablesOf s p) (slotAt s p slot).maxLen i).map pageUnits).getD 0

/-- A step that does not commit gives back the pages of its admission and its journal entry. -/
def releaseStep (p id : Nat) (s : State) : State :=
  let s1 := match stepRec s p id with
    | none => s
    | some r => r.newPages.foldl (fun t q => freePage p q.1 q.2 (unitsOf s p q.1 q.2) t) s
  modJr p (fun j => { j with jring := j.jring.filter fun e => e.2.2 != id }) s1

/-- Complete a step that does not commit. -/
def endStepWith (p id status cause cluster : Nat) (s : State) : State :=
  let s1 := modStep p id (fun r => { r with st := .completed, status, cause, cluster, doneNs := s.now })
    (releaseStep p id (dropStep p id s))
  match stepRec s1 p id with
  | none => s1
  | some r => deliver p r [] s1

/-- Withdraw a step that is not admitted; `quiet` issues no DMA (R407, R424). -/
def withdrawStep (p id : Nat) (quiet : Bool) (s : State) : State :=
  let s1 := modStep p id (fun r => { r with st := .withdrawn, status := 0x0D0A, doneNs := s.now }) (releaseStep p id s)
  match stepRec s1 p id with
  | none => s1
  | some r => if quiet then s1 else deliver p r [] s1

/-! Folding (R24, R137). -/

/-- Fold image cluster c of a partition, or find that it cannot be folded: then the stage is unservable. -/
def foldCluster (p c : Nat) (s : State) : State :=
  let ws := imgOf s p
  let h := cmFoldTo ws c
  let b := bank s p
  if ¬ cmUsed ws c ∨ (partOf s p).cfg.folded.any (fun f => f.1 = c) then s
  else if h = 0xFF ∨ (clusterOf s ((recReloc b h).getD h)).out ∨ (guestOf s p h).isSome then declareFailed 2 c s
  else modCfg p (fun q => { q with folded := q.folded ++ [(c, h)] }) s

/-- Fold every image cluster of a partition whose place has left service; a host that has left takes its guest with it. -/
def foldAll (p : Nat) (s : State) : State :=
  (List.range 48).foldl (fun t c =>
    if (clusterOf t (placeOf t p c)).out ∧ (cmUsed (imgOf t p) c) then
      if (partOf t p).cfg.folded.any (fun f => f.1 = c) then declareFailed 2 c t else foldCluster p c t
    else t) s

/-- Image clusters of a partition whose place has left service and which no fold serves yet. -/
def unfolded (s : State) (p : Nat) : List Nat :=
  (List.range 48).filter fun c => (clusterOf s (placeOf s p c)).out && cmUsed (imgOf s p) c
/-- Fold at a step boundary what has left service (R137): no step is in flight, or the oldest one cannot go on, since it has work
left on a place out of service. It and the later admitted steps then run again, folded (log 25). -/
def foldBoundary (p : Nat) (s : State) : State :=
  let lost := unfolded s p
  if lost = [] then s
  else match flying s p with
    | [] => foldAll p s
    | r :: _ =>
      if r.st = .admitted ∧ lost.any (fun c => !(decide (c ∈ r.left)) || !(decide (hostOf s p c ∈ r.left))) then
        if pushesOut s p then rerunOrReplay p r.id (foldAll p s)
        else ((flying s p).filter fun r => r.st == .admitted).foldl (fun t r => rerunStep p r.id t) (foldAll p s)
      else s

/-- A cluster leaves service: its cores go idle, and the partition folds at its next step boundary (R24, R137). -/
def clusterOut (k detail : Nat) (s : State) : State :=
  if (clusterOf s k).out then s
  else
    let s1 := recordRepair 2 k detail (modCluster k (fun c => { c with out := true }) s)
    let s2 := match ownerOf s k with
      | none => s1
      | some p => foldBoundary p s1
    checkSet s2

/-- The spare of a trio: 4 x die + trio (R22). -/
def trioOf (n : Nat) : Nat := if n < 384 then 4 * (n / 96) + n / 8 % 12 / 3 else n - 384
/-- Compute die of a core number, spares included (R22). -/
def coreDie (n : Nat) : Nat := trioOf n / 4
/-- A core fails: the spare of its trio takes its number, or its cluster leaves service (R23, R24). A spare named by its own
number that stands for no core is isolated, and its trio has none left. -/
def coreFails (n : Nat) (s : State) : State :=
  let key := trioOf n
  let spare := 384 + key
  match tget s.health.spares key with
  | none =>
    recordRepair 1 n spare (modHealth (fun h => { h with spares := tset h.spares key n, isolated := h.isolated ++ [n] }) s)
  | some m =>
    if m = spare then
      if n = spare then s
      else clusterOut (n / 8) n (modCore n (fun c => { c with failed := true })
        (modHealth (fun h => { h with isolated := h.isolated ++ [n] }) s))
    else
      let core := if n = spare then m else n
      let phys := if n = spare ∨ m = n then spare else n
      clusterOut (core / 8) phys (modCore core (fun c => { c with failed := true })
        (modHealth (fun h => { h with isolated := h.isolated ++ [phys] }) s))

/-! Bank swaps (R121, R385, R390, R391). -/

/-- Number of the first step that the next admission will take. -/
def nextStep (s : State) (p : Nat) : Nat :=
  match (accepted s p).head? with
  | some r => r.id
  | none => (partOf s p).run.last + 1

/-- The state that a partition takes when its active bank changes (R166, R379). -/
def stateWith (s : State) (p : Nat) : PartState :=
  let q := partOf s p
  let b := activeBank q
  let ok := (recImg s b).isSome && !recStandby b
  match q.cfg.st with
  | .closed => .closed
  | .halted => if ok then .serving else .halted
  | _ => if ok then .serving else .opened

/-- Two records name images of one stage. -/
def swapSame (s : State) (ob nb : List Word) : Bool :=
  match recImg s ob, recImg s nb with
  | some i, some j => sameStage i.words j.words && i.standby == j.standby
  | _, _ => false
/-- Package cluster k holds the first-step buffer of stream entry e of a new image: its buffer names the same cluster, buffer,
place, source and bytes, and holds them in the rung of step `first` (R385). -/
def warmAt (p first : Nat) (old new ob : List Word) (s : State) (k e : Nat) : Bool :=
  let ne := pfStream new e
  match tget (clusterOf s k).wins (seBuf ne) with
  | none => false
  | some w =>
    let oe := pfStream old w.entry
    w.landed && recReloc ob (seCluster oe) == some k && seBuf oe == seBuf ne && seAddr oe == seAddr ne &&
      seSpace oe == seSpace ne && seCore oe == seCore ne && seSrc oe == seSrc ne && seBase oe == seBase ne &&
      seFp8 oe == seFp8 ne && w.rung == rungOf s p (seOp ne) first &&
      !((pfOf new (seCluster ne)).any fun f => decide (f < e) && seBuf (pfStream new f) == seBuf ne)
/-- Warm window buffers of a swap (R385): for each stream entry of the new image whose buffer holds the same bytes, the
package cluster, the buffer and the entry's index. -/
def warmBuffers (p first : Nat) (old new ob nb : List Word) (s : State) : List (Nat × Nat × Nat) :=
  (List.range (pfStreams new)).filterMap fun e =>
    match recReloc nb (seCluster (pfStream new e)) with
    | none => none
    | some k => if warmAt p first old new ob s k e then some (k, seBuf (pfStream new e), e) else none

/-- Make the swap of one partition: the banks change places (R390). -/
def swapBank (p : Nat) (s : State) : State :=
  let q := partOf s p
  let ob := activeBank q
  let nb := shadowBank q
  let old := ((recImg s ob).map fun i => i.words).getD []
  let new := ((recImg s nb).map fun i => i.words).getD []
  let same := swapSame s ob nb
  let first := nextStep s p
  let warm := if same then warmBuffers p first old new ob nb s else []
  let s1 := modCfg p (fun c => { c with
    active := !c.active, shadow := .ready, linked := [], folded := [],
    drainNs := s.now - c.stagedAt }) s
  let s2 := modCfg p (fun c => { c with st := stateWith s1 p }) s1
  let s3 := if same then s2 else modFb p (fun _ => { cur := { win := windowOf first }, com := { win := windowOf first } }) s2
  let s3 := match stageOf s3 p with
    | some st => if same then modStage st.slot (fun x => { x with cacheMib := gvCacheMib new }) s3 else s3
    | none => s3
  let s4 := (recClusters nb ++ recClusters ob).foldl (fun t k => modCluster k (fun c => { c with
    wins := (c.wins.filterMap fun w =>
      match warm.find? fun x => x.1 == k && x.2.1 == w.1 with
      | some x => some (w.1, { w.2 with entry := x.2.2, step := first, released := false })
      | none => none)
    stream := (first, 0), slots := [], inbox := [], copies := if same then c.copies else [] }) t) s3
  let s5 := cntAdd p (cConfig + 1) warm.length (foldAll p s4)
  setVfEvent p 2 (logEvent 0x0C01 false p noOp noStep (b2n (!q.cfg.active)) q.cfg.drained s5)

/-- Make a staged swap once every partition of its set has drained (R390, R391). -/
def trySwap (p : Nat) (s : State) : State :=
  let c := (partOf s p).cfg
  if c.shadow ≠ .staged then s
  else if (c.linked.all fun q => flying s q == []) && flying s p == [] then c.linked.foldl (fun t q => swapBank q t) s
  else s

/-! Program faults (R166). -/

/-- A step meets a program fault: it and every later admitted step complete without committing, and the partition halts. The
manual does not say which cluster the replies of the later steps carry: that of the faulting step (DESIGN CHOICE, log 118). -/
def programFault (p id cause cluster op : Nat) (s : State) : State :=
  match stepRec s p id with
  | none => s
  | some r =>
    if ¬ inFlight r then s
    else
      let later := (flying s p).filter fun q => decide (id < q.id)
      let s1 := logEvent 0x0501 false p op id cause cluster (endStepWith p id 0x0502 cause cluster s)
      let s2 := later.foldl (fun t q => endStepWith p q.id 0x0502 5 cluster t) s1
      trySwap p (setVfEvent p 1 (modCfg p (fun c => { c with st := .halted }) s2))

/-! Closing a partition (R379, R407). -/

/-- A kv.evict that waits for a copy is answered when its sequence goes. -/
def answerEvicts (p : Nat) (s : State) : State :=
  ((partOf s p).kv.slots.flatMap fun e => e.2.evicting).foldl (fun t r => reply r 0 [] t) s
/-- Answer the requests that wait for the swap of a slot's sequence. -/
def answerMates (p slot status : Nat) (s : State) : State :=
  (mates s p slot).foldl (fun t i => ((slotAt t p i).evicting).foldl (fun u r => reply r status [] u)
    (modSlot p i (fun q => { q with evicting := [] }) t)) s
/-- A sequence becomes lost, in each of its slots; a kv.evict that waits for its swap is answered so (R195, R197, R264). -/
def markLost (p slot : Nat) (s : State) : State :=
  (mates s p slot).foldl (fun t i => modSlot p i (fun q => { q with st := .lost, swapOut := [], swapIn := [] }) t)
    (answerMates p slot 0x0605 s)

/-- Release a partition's sequences, pages and swap window; accepted steps are withdrawn (log 20). -/
def closePart (p : Nat) (quiet : Bool) (s : State) : State :=
  let s1 := (accepted s p).foldl (fun t r => withdrawStep p r.id quiet t) s
  let s2 := modCfg p (fun c => { c with st := .closed, swapAddr := 0, swapMib := 0 })
    (modKv p (fun _ => {}) (modRun p (fun r => { r with hold := [], freeDrop := false }) (answerEvicts p s1)))
  trySwap p (logEvent 0x0C03 false p noOp noStep 0 0 s2)

end Sys2Proof.Machine
end

