-- ==== Sys2Proof/Machine/Ladder.lean ====
section
/-! DEFINITION. The fall-back state of a partition as a function of its failed probes: escalation, storms and the window
(R117 to R121, R125), and its form in a mirror record (R353). -/

namespace Sys2Proof.Machine

/-- The last step of the window that holds a step. -/
def windowLast (step : Nat) : Nat := windowOf step * 4096 + 4095
/-- The fall-back state of an operation with its counts in the window of a step (R117, R120). -/
def opFbIn (f : FbState) (op step : Nat) : OpFb :=
  let o := tgetD f.ops op {}
  if o.win = windowOf step then o else { o with win := windowOf step, fails := 0 }

/-- What a failure decides beyond the state. -/
structure FbDecision where
  /-- New rung of the layer, and whether the 4 x BOUND rule made it. -/
  climb : Option (Nat × Bool) := none
  /-- A storm is declared. -/
  storm : Bool := false

/-- One failed product probe of an operation with safeguard record `r` (R118, R119, R125): `wider` gives the next wider rung,
`thr` is STORM_THRESHOLD. The rung climbed from is the wider of that of the deciding step and that of the step two later, so
that a decision of the last two steps of a window climbs from the rung in use. -/
def fbFail (r : List Word) (wider : Nat → Nat) (thr : Nat) (v : FbEvt) (f : FbState) : FbState × FbDecision :=
  let o := opFbIn f v.op v.step
  let cur := max (rungIn f (sgTop r) (wider 0) v.op v.step) (rungIn f (sgTop r) (wider 0) v.op (v.step + 2))
  let new := wider cur
  let big := ((f32 (wordAt r 3)).mul (FV.ofInt 4)).lt (f32 v.e)
  let fails := o.fails + 1
  if cur < new ∧ new ≤ sgTop r ∧ ((sgEsc r ≠ 0 ∧ sgEsc r ≤ fails) ∨ big) then
    let f1 := { f with ops := tset f.ops v.op { o with fails := 0, pend := o.pend ++ [(v.step + 2, new)] } }
    if (v.op, windowOf v.step) ∈ f.escalated then (f1, { climb := some (new, big) })
    else
      let f2 := { f1 with escalated := f1.escalated ++ [(v.op, windowOf v.step)] }
      let n := (f2.escalated.filter fun e => e.2 == windowOf v.step).length
      if thr = 0 ∨ n ≠ thr then (f2, { climb := some (new, big) })
      else ({ f2 with storms := f2.storms ++ [(v.step + 2, windowLast (v.step + 2))] }, { climb := some (new, big), storm := true })
  else ({ f with ops := tset f.ops v.op { o with fails := min fails 255 } }, {})

/-- A failure applied with the records of a partition's image. -/
def fbApply (s : State) (p : Nat) (v : FbEvt) (f : FbState) : FbState × FbDecision :=
  let ws := imgOf s p
  match safeOf ws v.op with
  | none => (f, {})
  | some r => fbFail r (widerRung s.bnd.manifest (manifestImage s p) v.op) (gvThreshold ws) v f

/-- The fall-back state as of a step: the committed state with the failures of the steps up to it (R121). -/
def fbAsOf (s : State) (p step : Nat) : FbState :=
  let f := (partOf s p).fb
  (f.evts.filter fun v => decide (v.step ≤ step)).foldl (fun t v => (fbApply s p v t).1) f.com

/-- The state that a window's turn leaves after a step: each operation at its rung of the next step, decisions and pins that
still apply, and escalations that a carried decision may still meet (R120). -/
def fbTurn (s : State) (p step : Nat) (f : FbState) : FbState :=
  let mf := s.bnd.manifest
  let im := manifestImage s p
  let ws := imgOf s p
  { f with
    ops := f.ops.map fun o => (o.1, { o.2 with
      rung := rungIn f (((safeOf ws o.1).map sgTop).getD 0) (widerRung mf im o.1 0) o.1 (step + 1)
      pend := o.2.pend.filter fun d => decide (windowOf (step + 1) ≤ windowOf d.1) })
    win := windowOf (step + 1)
    storms := f.storms.filter fun w => decide (step < w.2)
    escalated := f.escalated.filter fun e => decide (windowOf (step + 1) ≤ e.2 + 1) }

/-! The mirrored form (R353, log 31). -/

/-- Words of a fall-back state: window, counts of operations, pins and escalations, then these in order. -/
def fbEncode (f : FbState) : List Word :=
  w64 f.win ++ [w32 f.ops.length, w32 f.storms.length, w32 f.escalated.length] ++
  (f.ops.flatMap fun o => [w32 o.1, w32 (o.2.rung + 4 * o.2.fails), w32 o.2.pend.length] ++ w64 o.2.win ++
    o.2.pend.flatMap fun d => w64 d.1 ++ [w32 d.2]) ++
  (f.storms.flatMap fun w => w64 w.1 ++ w64 w.2) ++ f.escalated.flatMap fun e => w32 e.1 :: w64 e.2

/-- The first operations of a word list, and the words after them. -/
def fbOps : Nat → List Word → Tbl OpFb × List Word
  | 0, ws => ([], ws)
  | n + 1, ws =>
    let k := (wordAt ws 2).toNat
    let w := wordAt ws 1
    let o : OpFb := { rung := fld w 0 2, fails := fld w 2 30, win := dwordAt ws 3
                      pend := (List.range k).map fun i => (dwordAt ws (5 + 3 * i), (wordAt ws (7 + 3 * i)).toNat) }
    let q := fbOps n (ws.drop (5 + 3 * k))
    (((wordAt ws 0).toNat, o) :: q.1, q.2)
/-- The fall-back state that words hold. -/
def fbDecode (ws : List Word) : FbState :=
  let ns := (wordAt ws 3).toNat
  let q := fbOps (wordAt ws 2).toNat (ws.drop 5)
  let es := q.2.drop (4 * ns)
  { win := dwordAt ws 0, ops := q.1
    storms := (List.range ns).map fun i => (dwordAt q.2 (4 * i), dwordAt q.2 (4 * i + 2))
    escalated := (List.range (wordAt ws 4).toNat).map fun i => ((wordAt es (3 * i)).toNat, dwordAt es (3 * i + 1)) }

end Sys2Proof.Machine
end

