-- ==== Sys2Proof/Machine/Rung.lean ====
section
/-! DEFINITION. Pieces of the weight image in the bond store, the rung cache of a stage and what it must fetch (R64 to R67, R104,
R116, R122 to R124, R248, R250, R278). -/

namespace Sys2Proof.Machine

/-! Pieces (R278). -/

/-- Flat address of a shard in the bond store. -/
def shardFlat (stripe : Nat) : Nat := stripe * 2 ^ 24
/-- Bytes of a run of shards from an offset. -/
def shardsRead (m : Mem) (mf : List Word) : List Nat → Nat → Nat → List Byte
  | [], _, _ => []
  | x :: xs, off, n =>
    let b := shBytes mf x
    if b ≤ off then shardsRead m mf xs (off - b) n
    else
      let k := min n (b - off)
      memRead m (shardFlat x + off) k ++ shardsRead m mf xs 0 (n - k)
/-- Bytes of a piece. -/
def pieceRead (s : State) (kind im op off n : Nat) : List Byte :=
  shardsRead s.x.bond s.bnd.manifest (pieceShards s.bnd.manifest kind im op 0) off n
/-- IMAGE that a stage's shards carry. -/
def stageImage (st : Stage) : Nat := b2n st.standby
/-- Where a weight-region byte lies in its piece: the offset in the rung 0 piece (R250). -/
def pieceOffset (s : State) (st : Stage) (w : Nat) : Option Nat :=
  let mf := s.bnd.manifest
  match st.entries.find? fun e => decide (reDst e ≤ w ∧ w < reDst e + reBytes e) with
  | none => none
  | some e =>
    let sh := reShard e
    let before := (pieceShards mf (shKind mf sh) (stageImage st) (shOp mf sh) 0).takeWhile (· != sh)
    some ((before.map (shBytes mf)).sum + (w - reDst e))

/-! Rung data (R122 to R124). A chunk is 64 KiB of a piece. -/

/-- KIND of the piece that holds a rung's own data. -/
def rungKind (rung : Nat) : Nat := 1 + rung
/-- Words of an image of a stage. -/
def stageWords (s : State) (st : Stage) : List Word := ((s.images.find? fun i => isStage i.2 st).map fun i => i.2.words).getD []
/-- A unit of the rung cache is a chunk as the clusters of a die read it. -/
def isChunk (die op rung c : Nat) (u : RungUnit) : Bool := u.die == die && u.op == op && u.rung == rung && u.chunk == c
/-- A chunk is resident for the clusters of a die. -/
def hasChunk (st : Stage) (die op rung c : Nat) : Bool := st.cache.any (isChunk die op rung c)
/-- A request asks for a chunk. -/
def asksFor (die op rung c : Nat) (r : RungReq) : Bool := r.die == die && r.op == op && r.rung == rung && r.chunk == c
/-- Every chunk of a list is resident. -/
def allResident (st : Stage) (die op rung : Nat) (cs : List Nat) : Bool := cs.all (hasChunk st die op rung)
/-- Ask for a chunk for a partition, unless it is resident: one that the partition has asked for keeps its earliest step, and goes
to the tile area if a tile wants it (R116, R122). -/
def askChunk (p : Nat) (tile : Bool) (step die op rung c : Nat) (st : Stage) : Stage :=
  let mine (r : RungReq) : Bool := r.part == p && asksFor die op rung c r
  if hasChunk st die op rung c then st
  else if st.reqs.any mine then
    { st with reqs := st.reqs.map fun r => if mine r then { r with tile := r.tile || tile, step := min r.step step } else r }
  else { st with reqs := st.reqs ++ [{ part := p, tile, step, op, rung, chunk := c, die }] }
/-- Ask for the chunks of a list. -/
def askChunks (slot p : Nat) (tile : Bool) (step die op rung : Nat) (cs : List Nat) (s : State) : State :=
  modStage slot (fun st => cs.foldl (fun t c => askChunk p tile step die op rung c t) st) s
/-- The chunks that cover a byte range of a piece. -/
def chunksOf (off n : Nat) : List Nat := if n = 0 then [] else (List.range ((off + n - 1) / 65536 + 1 - off / 65536)).map (· + off / 65536)
/-- A use of resident chunks; streamed ones are dropped (R123, R124). -/
def useChunks (slot die op rung : Nat) (cs : List Nat) (s : State) : State :=
  let hit (u : RungUnit) : Bool := cs.any fun c => isChunk die op rung c u
  modStage slot (fun st => { st with
    cache := (st.cache.map fun u => if hit u then { u with used := s.now } else u).filter fun u => !(u.once && hit u) }) s
/-- Flat HBM address of a weight-region offset of a stage. -/
def stageFlat (st : Stage) (off : Nat) : Nat := (64 + st.slot) * 2 ^ 52 + off
/-- Rung data as the clusters of a die read it: from the units of the rung cache, and straight from the piece where a chunk is
streamed (R123, R124). -/
def rungRead (s : State) (st : Stage) (die op rung off n : Nat) : List Byte :=
  (chunksOf off n).flatMap fun c =>
    let lo := max off (65536 * c)
    let len := min (off + n) (65536 * c + 65536) - lo
    match st.cache.find? fun u => isChunk die op rung c u && !u.once with
    | some u => hbmReadFlat s (stageFlat st u.place + (lo - 65536 * c)) len
    | none => pieceRead s (rungKind rung) (stageImage st) op lo len

/-! The cache parts of the dies (R237). -/

/-- First byte of a die's cache part within its slice: above the highest restore entry there. -/
def cacheBase (st : Stage) (die : Nat) : Nat :=
  roundUp (st.entries.foldl (fun n e => if weightDie (reDst e) = die then max n (reDst e % 2 ^ 36 + reBytes e) else n) 0) 65536
/-- Bytes of a cold slot: the largest of the stage's maps. -/
def coldBytes (ws : List Word) : Nat := (imgMaps ws).foldl (fun n m => max n (1024 * emColdKib m)) 0
/-- Rung-cache blocks and cold slots that lie in a die's cache part: first byte and bytes, in order. -/
def cacheRuns (st : Stage) (ws : List Word) (die : Nat) : List (Nat × Nat) :=
  let units : List (Nat × Nat) := (st.cache.filter fun u => !u.once).map fun u => (u.place, 65536)
  let slots : List (Nat × Nat) := st.cold.map fun e => (e.2.place, coldBytes ws)
  ((units ++ slots).filter fun r => r.1 / 2 ^ 36 == die).foldl (fun rs r => insertRun (r.1 % 2 ^ 36, r.2) rs) []
/-- Weight-region offset of `n` free bytes in a die's cache part; none when it is full. -/
def cachePlace (st : Stage) (ws : List Word) (die n : Nat) : Option Nat :=
  let a := gapFrom n (cacheBase st die) (cacheRuns st ws die)
  if a + n ≤ need ws (3 + die) * 2 ^ 20 then some (die * 2 ^ 36 + a) else none

/-- Offset of a stream entry's rung 2 bytes in its FP8 piece: the entries of the operation with a lower SRC come first (log 36). -/
def fp8Offset (ws : List Word) (e : List Word) : Nat :=
  (((List.range (pfStreams ws)).map (pfStream ws)).map fun x =>
    if seOp x = seOp e ∧ seSrc x < seSrc e then seFp8 x else 0).sum
/-- Offset and bytes in its piece of the rung data that a stream entry lands beyond rung 0. -/
def rungRange (s : State) (st : Stage) (ws : List Word) (e : List Word) (rung : Nat) : Nat × Nat :=
  match rung with
  | 0 => (0, 0)
  | 1 => ((pieceOffset s st (seSrc e)).getD 0, seBase e)
  | _ => (fp8Offset ws e, seFp8 e)

/-- Ask for a rung of an operation for the clusters that stream it, each die's chunks for the die, for the step that needs it
first. -/
def askStage (st : Stage) (ws : List Word) (p step op rung : Nat) (s : State) : State :=
  if rung = 0 then s
  else (List.range (pfStreams ws)).foldl (fun t i =>
    let e := pfStream ws i
    if seOp e ≠ op then t
    else
      let r := rungRange t st ws e rung
      askChunks st.slot p false step (dieOfCluster (seCluster e)) op rung (chunksOf r.1 r.2) t) s
/-- Ask for a rung of an operation of a partition's stage. -/
def askRung (p step op rung : Nat) (s : State) : State :=
  match stageOf s p with
  | none => s
  | some st => askStage st (imgOf s p) p step op rung s

/-! Restored units (R251). -/

/-- The parcels of bytes in a format that fail: offset, whether the check byte differs, and invalid TERN bytes (R41, R49). -/
def parcelFaults (code : Nat) (bs : List Byte) : List (Nat × Nat × Nat) :=
  match fmtOf code with
  | none => []
  | some f =>
    if ¬ f.isBlock then []
    else ((List.range (bs.length / 64)).map fun i =>
      let q := slice bs (64 * i) 64
      (64 * i, b2n (!parcelOk q), ((List.range 7).map fun j => (parcelBlock q j).ternBad f).sum)).filter fun x => x.2.1 + x.2.2 != 0
/-- The failing parcels of a range of a stage's weight region, by their offsets, in the format of each restore entry's shard. -/
def weightFaults (s : State) (p : Nat) (st : Stage) (off n : Nat) : List (Nat × Nat × Nat) :=
  st.entries.flatMap fun e =>
    let lo := max off (reDst e)
    let lo := lo + (64 - (lo - reDst e) % 64) % 64
    let hi := min (off + n) (reDst e + reBytes e)
    (parcelFaults (shFmt s.bnd.manifest (reShard e)) (hbmRead s p lo (hi - lo))).map fun x => (lo + x.1, x.2)

/-- Units of the restore entries, in order: entry, first byte of the weight region, bytes. -/
def restoreUnits (es : List (List Word)) : List (Nat × Nat × Nat) :=
  (List.range es.length).flatMap fun i =>
    let e := es.getD i []
    (List.range (cdiv (reBytes e) 65536)).map fun u => (i, reDst e + 65536 * u, min 65536 (reBytes e - 65536 * u))
/-- Every restore unit that meets a range of the weight region is there. -/
def restored (st : Stage) (off n : Nat) : Bool :=
  let us := restoreUnits st.entries
  (List.range us.length).all fun i =>
    let u := us.getD i (0, 0, 0)
    !meets u.2.1 u.2.2 off n || (decide (i < st.done) && !(decide (i ∈ st.lost)))

end Sys2Proof.Machine
end

