-- ==== Sys2Proof/Machine/Part.lean ====
section
/-! DEFINITION. Partitions, images, configuration banks and the resets of the functions (R377 to R394, R407, R416 to R418,
R532). -/

namespace Sys2Proof.Machine

/-- Stage images are loaded, staged and run only in Sealed, and not once UNSEAL has begun (R293,
R295). -/
def sealedOk (s : State) : Bool := s.sec.lifecycle == 2 && s.sec.stopping.isNone

/-- A sequence becomes lost, for a step that needs it (R195). -/
def loseSeq (p step slot : Nat) (s : State) : State :=
  let e := slotAt s p slot
  setVfEvent p 0 (logEvent 0x0602 false p noOp step slot e.seqId (markLost p slot s))

/-! part.open and part.close. -/

/-- part.open on partition n (R379, R396, R416). -/
def partOpen (r : Request) (s : State) : State :=
  let p := partArg r
  if (partOf s p).cfg.st ≠ .closed then reply r 0x0D0B [] s
  else if dwordAt r.words 2 % 4096 ≠ 0 then reply r 0x0D09 [] s
  else
    let snap := (List.range nCounters).map fun k => tgetD (partOf s p).stat.cum k 0
    let s1 := modCfg p (fun c => { c with
      st := .opened, swapAddr := dwordAt r.words 2, swapMib := fld (argOf r 2) 0 24, openSnap := snap }) s
    let s2 := modCfg p (fun c => { c with st := stateWith s1 p }) s1
    reply r 0 (w64 s.now) (logEvent 0x0C03 false p noOp noStep 1 0 s2)

/-- PART_OPEN. -/
def execPartOpen (m : MbxId) (s : State) : Host.Outcome State Fault Refusal := .next (takeCmd m 0x0101 partOpen s)

/-- part.close (R379). -/
def partClose (r : Request) (s : State) : State :=
  let p := partArg r
  if flying s p ≠ [] then reply r 0x0C0A [] s
  else if (partOf s p).cfg.st = .closed then reply r 0 [] s
  else reply r 0 [] (closePart p false s)

/-- PART_CLOSE. -/
def execPartClose (m : MbxId) (s : State) : Host.Outcome State Fault Refusal := .next (takeCmd m 0x0102 partClose s)

/-! image.load and image.free (R130, R164, R417). -/

/-- Bytes of the images held. -/
def storeBytes (s : State) : Nat := (s.images.map fun i => 4 * i.2.words.length).sum

/-- The stage of an image, its restore still to run; a target with no unit to restore is restored at once (R251, R536). -/
def newStage (slot : Nat) (i : Image) : Stage :=
  let es := (restores i.words).filter fun e => reTarget e == b2n i.standby
  { slot, stageId := imgStage i.words, digest := imgDigest i.words, standby := i.standby, entries := es
    cacheMib := gvCacheMib i.words, coldSlots := imgColdSlots i.words, complete := restoreUnits es == [] }
/-- Keep exactly the stages whose images are loaded and match the installed manifest: a stage of which an image is loaded for the
first time takes its frames and is to be restored; event 0x0809 marks the end of a restore that has nothing to copy (R251, R252,
R518, R540; log 28). -/
def settleStages (s : State) : State :=
  let imgs := (s.images.map fun i => i.2).filter fun i => digestBad s i.standby i.words == []
  let kept := s.stages.filter fun st => imgs.any fun i => isStage i st
  let new := imgs.foldl (fun (acc : List Stage) i =>
    if acc.any (isStage i) then acc else acc ++ [newStage ((firstFree (acc.map fun st => st.slot) 128 128 0).getD 0) i]) kept
  let s1 := (s.stages.filter fun st => !(kept.any fun k => k.slot == st.slot)).foldl (fun t st => unmapSpace (64 + st.slot) t)
    { s with stages := new }
  (new.drop kept.length).foldl (fun t st =>
    let ws := ((imgs.find? fun i => isStage i st).map fun i => i.words).getD []
    let t1 := mapStage st.slot ws t
    if st.complete then logPkg 0x0809 false (b2n st.standby) 0 t1 else t1) s1

/-- image.load. -/
def imageLoad (dma : Option (List Word)) (r : Request) (s : State) : State :=
  let standby := bitOf (argOf r 3) 0
  if ¬ sealedOk s then reply r 0x0901 [] s
  else if dwordAt r.words 2 % 64 ≠ 0 then reply r 0x0D09 [] s
  else if ¬ dmaOpen s (dmaFn r) then dmaFailed r s
  else match dma with
    | none => dmaFailed r s
    | some all =>
      let n := (argOf r 2).toNat
      let ws := all.take (n / 4)
      let s0 := countRead n s
      match imageBad s standby ws with
      | some b => reply r 0x0501 [w32 b.1, w32 b.2.1, w32 b.2.2] s0
      | none =>
        let (k, s1) := draw s0
        if 384 * 2 ^ 20 < storeBytes s + 4 * ws.length then reply r 0x0D0E [] s0
        else match allocFrom (s.images.map fun i => i.1) 64 (Config.choice k) with
          | none => reply r 0x0D0E [] s0
          | some h => reply r 0 [w32 h] (settleStages { s1 with
              images := tset s1.images h { words := ws, digest := sha256 (bytesOfWords ws), standby } })

/-- IMAGE_LOAD. -/
def execImageLoad (m : MbxId) (dma : Option (List Word)) (s : State) : Host.Outcome State Fault Refusal :=
  .next (takeCmd m 0x0201 (imageLoad dma) s)

/-- A record names image h. -/
def namesImage (b : List Word) (h : Nat) : Bool := recImageValid b && recImage b == h
/-- Some bank of some partition names image h. -/
def imageUsed (s : State) (h : Nat) : Bool := s.parts.any fun q => namesImage q.2.cfg.ebb h || namesImage q.2.cfg.flood h

/-- image.free. -/
def imageFree (r : Request) (s : State) : State :=
  let h := fld (argOf r 0) 0 6
  if (tget s.images h).isNone then reply r 0x0D10 [] s
  else if imageUsed s h then reply r 0x0D0F [] s
  else reply r 0 [] (settleStages { s with images := terase s.images h })

/-- IMAGE_FREE. -/
def execImageFree (m : MbxId) (s : State) : Host.Outcome State Fault Refusal := .next (takeCmd m 0x0202 imageFree s)

/-! config.stage (R381, R385, R387). -/

/-- The shadow bank as a claim: nothing while it is empty. -/
def shadowClaim (q : Part) : List Word := if q.cfg.shadow = .empty then [] else shadowBank q

/-- The record is well formed in itself (R381). -/
def recordOk (b : List Word) : Bool :=
  decide (recDeadline b ≤ 1000000) && decide (recPower b ≤ 256) && decide (recQuota b 5 ≤ 256) &&
  (recEgMembers b == 0 || (decide (recEgMembers b ≤ 16) && decide (recEgSelf b < recEgMembers b) &&
    (List.range (recEgMembers b)).all fun m => decide (128 ≤ recByte b 10 m))) &&
  (!recRing b || (decide (2 ≤ recRingSize b ∧ recRingSize b ≤ 64) && decide (recRingPos b < recRingSize b) &&
    (List.range (recRingSize b)).all fun m => decide (128 ≤ recByte b 14 m)))

/-- First-step window buffers of image cluster c that package cluster k already holds: those that a swap to record `b` would find
warm there. -/
def buffersHeld (s : State) (p : Nat) (ws b : List Word) (c k : Nat) : Nat :=
  if swapSame s (bank s p) b then
    ((pfOf ws c).filter fun e => warmAt p (nextStep s p) (imgOf s p) ws (bank s p) s k e).length
  else 0

/-- The cluster of `ks` that holds the most buffers of image cluster c, the lowest on a tie. -/
def bestCluster (held : Nat → Nat) : List Nat → Option Nat
  | [] => none
  | k :: ks =>
    match bestCluster held ks with
    | none => some k
    | some j => if held k < held j then some j else some k

/-- Place image clusters one at a time, in ascending order; none when a die has no cluster left. -/
def placeAll (s : State) (p : Nat) (ws b : List Word) (own : List Nat) : List Nat → Tbl Nat → Option (Tbl Nat)
  | [], t => some t
  | c :: cs, t =>
    match bestCluster (buffersHeld s p ws b c)
      (own.filter fun k => dieOfCluster k == dieOfCluster c && !(t.any fun e => e.2 == k)) with
    | none => none
    | some k => placeAll s p ws b own cs (tset t c k)

/-- The RELOC words of a placement. -/
def relocWords (t : Tbl Nat) : List Word :=
  (List.range 12).map fun i => w32 (natOfBytes ((List.range 4).map fun j => match tget t (4 * i + j) with
    | some k => b8 (128 + k)
    | none => 0))

/-- The relocation of a record for an image: as given, or computed when every byte is zero; none when it fails R136. Every byte
that gives a cluster must keep to the die and the partition, that of an idle cluster too. Two image clusters on one cluster of the
partition fail as well, for which the manual names no refusal (DESIGN CHOICE, log 125). -/
def relocate (s : State) (p : Nat) (ws b : List Word) : Option (List Word) :=
  if slice b 40 12 = List.replicate 12 0 then
    (placeAll s p ws b (recClusters b) (placedClusters ws) []).map fun t => b.take 40 ++ relocWords t ++ b.drop 52
  else
    let fits (c k : Nat) : Bool := decide (k ∈ recClusters b) && dieOfCluster k == dieOfCluster c
    let ps := placedClusters ws
    if (ps.all fun c => (recReloc b c).isSome) && ((List.range 48).all fun c => (recReloc b c).all (fits c)) &&
      pairwise (fun c e => recReloc b c != recReloc b e) ps then some b else none

/-- The cap in force: an input out of its window lowers it to 1,200 W (R439). -/
def capNow (s : State) : Nat := if s.pw.lowCap then min 1200 s.pw.cap else s.pw.cap
/-- The partition's share of the power cap in watts (R162, R447, log 27). -/
def powerShare (s : State) (b : List Word) : Nat := capNow s * s.pw.frCompute * recPower b / 65536

/-- Clusters claimed by other partitions that the record may not take (R381). -/
def clusterConflict (s : State) (p : Nat) (b : List Word) : Bool :=
  s.parts.any fun q => q.1 != p &&
    (recClusters b).any fun k =>
      decide (k ∈ recClusters (shadowClaim q.2)) ||
        (decide (k ∈ recClusters (activeBank q.2)) && q.2.cfg.shadow == .empty)

/-- Usable HBM in MiB (R258). -/
def usableMib (s : State) : Nat := 384 * 1024 - 768 * s.tiers.pcsOut.length - 2 * s.tiers.framesOut.length

/-- WEIGHT_MIB of the distinct stages whose images some record names (R258, R540). -/
def stageMib (s : State) (recs : List (List Word)) : Nat :=
  let imgs := recs.filterMap (recImg s)
  let keys := (imgs.map fun i => (imgStage i.words, imgDigest i.words, i.standby)).eraseDups
  (keys.map fun k => ((imgs.find? fun i => (imgStage i.words, imgDigest i.words, i.standby) == k).map fun i => need i.words 0).getD 0).sum

/-- The package's total commitment in MiB when partition p's shadow is `b` (R258). -/
def commitMib (s : State) (p : Nat) (b : List Word) : Nat :=
  let qs := tset s.parts p (partOf s p)
  let banks := qs.map fun q => (activeBank q.2, if q.1 = p then b else shadowClaim q.2)
  stageMib s (banks.flatMap fun q => [q.1, q.2]) +
    (banks.map fun q => max (recQuota q.1 1) (recQuota q.2 1) + max (recQuota q.1 2) (recQuota q.2 2) +
      max (if recStandby q.1 then recMirror q.1 else 0) (if recStandby q.2 then recMirror q.2 else 0)).sum + 512

/-- The claims of the other partitions together with a new shadow: the status of a breach, or 0. -/
def claimStatus (s : State) (p : Nat) (b : List Word) : Nat :=
  let qs := tset s.parts p (partOf s p)
  let both (f : List Word → Nat) (q : Nat × Part) : Nat :=
    max (f (activeBank q.2)) (f (if q.1 = p then b else shadowClaim q.2))
  if 4 < (qs.map (both fun r => b2n (recGather r))).sum then 0x0C04
  else if clusterConflict s p b ∨ 256 < (qs.map (both recPower)).sum ∨ 1 < (qs.map (both fun r => b2n (recStandby r))).sum ∨
    usableMib s < commitMib s p b then 0x0C08 else 0

/-- The checks of an image against the record that names it: reason 0, or the refusal of R164 (R136, R162, R257). An image loaded
before a reseal is checked against the new digest again (R295). -/
def imageFits (s : State) (p : Nat) (ws b : List Word) : Bad :=
  if digestBad s (((recImg s b).map fun i => i.standby).getD false) ws ≠ [] then (0x0003, 0, 24)
  else if (relocate s p ws b).isNone then (0x0012, 1, wholeImage)
  else if recClass b ∧ ¬ imgTimed ws then (0x0011, 9, wholeImage)
  else if recClass b ∧ powerShare s b < powerW ws then (0x0011, 9, secOff ws 9 + 24)
  else match (List.range 3).find? fun i => decide (recQuota b i < need ws i) with
    | some i => (0x0010, 0x0A, secOff ws 0x0A + 4 * i)
    | none => (0, 0, 0)

/-! The failover set (R350, R351). -/

/-- The standby partition's half and the other half of the set that is staged. -/
def setHalves (s : State) : Option (Nat × Nat) :=
  match s.cont.setParts.partition fun p => recStandby (shadowBank (partOf s p)) with
  | ([sp], [op]) => some (sp, op)
  | _ => none

/-- The checks of R351 on two records: standby half and own half. -/
def setOk (s : State) (sb ob : List Word) : Bool :=
  match recImg s sb, recImg s ob with
  | some si, some oi =>
    !((recClusters sb).any fun k => decide (k ∈ recClusters ob)) && imgTimed si.words && imgTimed oi.words &&
    decide (recQuota sb 2 + 2 * journalMib si.words ≤ recMirror sb) &&
    decide ((need oi.words 2 - 32) * 2 ^ 20 ≤ 180000000)
  | _, _ => false

/-- The standby copy is lost (R350, R351). -/
def standbyLost (cause : Nat) (s : State) : State :=
  match s.cont.peer with
  | none => s
  | some q => if s.host.hm.standbyLost then s
    else logPkg 0x0B02 true q cause (modHm (fun h => { h with standbyLost := true }) s)

/-- A holder reports its standby copy lost unless its set is armed and the copy is whole (R350, R351). -/
def standbyCheck (s : State) : State :=
  if s.cont.peer.isNone then modHm (fun h => { h with standbyLost := false }) s
  else if s.cont.armed && (s.stages.filter fun st => st.standby).all fun st => st.complete then
    modHm (fun h => { h with standbyLost := false }) s
  else s

/-- config.stage. -/
def configStage (failover : Bool) (r : Request) (s : State) : State :=
  let p := partArg r
  let q := partOf s p
  let disarm := bitOf (argOf r 0) 1
  let b := slice r.words 3 56
  let refuse (st : Nat) (ws : List Word) : State := reply r st ws (cumAdd p (cConfig + 4) 1 s)
  if ¬ sealedOk s then refuse 0x0901 []
  else if q.cfg.shadow = .staged then refuse 0x0C02 []
  else if q.cfg.shadow = .armed ∧ ¬ disarm then refuse 0x0C09 []
  else if 2 ≤ recRingLayout b then refuse 0x0D02 []
  else if ¬ recordOk b then refuse 0x0C0B []
  else if recImageValid b ∧ (recImg s b).isNone then refuse 0x0D10 []
  else
    let ws := ((recImg s b).map fun i => i.words).getD []
    let fit := if recImageValid b then imageFits s p ws b else (0, 0, 0)
    if fit.1 ≠ 0 then refuse 0x0501 [w32 fit.1, w32 fit.2.1, w32 fit.2.2]
    else if claimStatus s p b ≠ 0 then refuse (claimStatus s p b) []
    else
      let b' := if recImageValid b then (relocate s p ws b).getD b else b
      let halves := if failover then s.cont.setParts.filter (· != p) ++ [p] else s.cont.setParts.filter (· != p)
      let put (sh : Shadow) (t : State) : State := modCfg p (fun c => { c with
        ebb := if c.active then b' else c.ebb, flood := if c.active then c.flood else b', shadow := sh })
        (if recImageValid b then mapPartition p ws b t else t)
      let s1 := modCont (fun c => { c with setParts := halves, armed := false }) (put (if failover then .armed else .ready) s)
      if failover then
        match setHalves s1 with
        | some (sp, op) =>
          if setOk s (shadowBank (partOf s1 sp)) (shadowBank (partOf s1 op)) then
            reply r 0 [] (standbyCheck (modCont (fun c => { c with armed := true }) s1))
          else refuse 0x0501 [0x0017, 0, w32 wholeImage]
        | none => reply r 0 [] s1
      else
        let s2 := if s.cont.armed ∧ q.cfg.shadow = .armed then standbyLost 3 s1
          else modCont (fun c => { c with armed := s.cont.armed }) s1
        reply r 0 [] s2

/-- The head of the journal is a config.stage with FAILOVER as given. -/
def takeStage (m : MbxId) (failover : Bool) (s : State) : State :=
  match headReq s m 0x0301 with
  | none => s
  | some r => if bitOf (argOf r 0) 0 = failover then takeCmd m 0x0301 (configStage failover) s else s

/-- CONFIG_STAGE. -/
def execConfigStage (m : MbxId) (s : State) : Host.Outcome State Fault Refusal := .next (takeStage m false s)
/-- CONFIG_STAGE_FAILOVER. -/
def execConfigStageFailover (m : MbxId) (s : State) : Host.Outcome State Fault Refusal := .next (takeStage m true s)

/-! config.swap, config.set, config.read (R388 to R392, R418, R532). -/

/-- The partitions of a bitmap. -/
def bitmapOf (w : Word) : List Nat := (List.range 32).filter fun p => bitOf w p
/-- A partition holds an open sequence. -/
def hasOpen (s : State) (p : Nat) : Bool := (partOf s p).kv.slots.any fun e => e.2.st != .empty
/-- A swap of the partition would change its class or a KV table while a sequence is open (R532). -/
def swapBlocked (s : State) (p : Nat) : Bool :=
  let q := partOf s p
  let new := ((recImg s (shadowBank q)).map fun i => i.words).getD []
  hasOpen s p && (recClass (shadowBank q) != recClass (activeBank q) || kvTables new != kvTables (imgOf s p))
/-- A cluster of the new records stays active in a partition outside the set (R377, log 30). -/
def swapOverlaps (s : State) (ps : List Nat) : Bool :=
  ps.any fun p => s.parts.any fun q => !(decide (q.1 ∈ ps)) &&
    (recClusters (shadowBank (partOf s p))).any fun k => decide (k ∈ recClusters (activeBank q.2))

/-- config.swap. -/
def configSwap (r : Request) (s : State) : State :=
  let ps := bitmapOf (argOf r 0)
  let refuse (st : Nat) : State := reply r st [] (ps.foldl (fun t p => cumAdd p (cConfig + 4) 1 t) s)
  let sh := fun p => (partOf s p).cfg.shadow
  if ps.any (fun p => sh p == .armed) then refuse 0x0C09
  else if ps.any (fun p => sh p != .ready) ∨ swapOverlaps s ps then refuse 0x0C05
  else if ps.any (swapBlocked s) then refuse 0x1301
  else
    let s1 := ps.foldl (fun t p => modCfg p (fun c => { c with
      shadow := .staged, linked := ps, stagedAt := s.now, drained := 0 }) t) s
    (ps.take 1).foldl (fun t p => trySwap p t) (reply r 0 [argOf r 0] s1)

/-- config.swap with CANCEL. -/
def configSwapCancel (r : Request) (s : State) : State :=
  let ps := bitmapOf (argOf r 0)
  if ps.any (fun p => (partOf s p).cfg.shadow != .staged) then
    reply r 0x0C06 [] (ps.foldl (fun t p => cumAdd p (cConfig + 4) 1 t) s)
  else
    let all := (ps.flatMap fun p => (partOf s p).cfg.linked).eraseDups
    reply r 0 [0] (all.foldl (fun t p => modCfg p (fun c => { c with shadow := .ready, linked := [] }) t) s)

/-- The head of the journal is a config.swap with CANCEL as given. -/
def takeSwap (m : MbxId) (cancel : Bool) (f : Request → State → State) (s : State) : State :=
  match headReq s m 0x0302 with
  | none => s
  | some r => if bitOf (argOf r 1) 0 = cancel then takeCmd m 0x0302 f s else s

/-- CONFIG_SWAP. -/
def execConfigSwap (m : MbxId) (s : State) : Host.Outcome State Fault Refusal := .next (takeSwap m false configSwap s)
/-- CONFIG_SWAP_CANCEL. -/
def execConfigSwapCancel (m : MbxId) (s : State) : Host.Outcome State Fault Refusal := .next (takeSwap m true configSwapCancel s)

/-- The named bits of a record word. -/
def namedBits (w : Nat) : Word :=
  (recordFields.filter fun f => f.1 = w).foldl (fun m f => m ||| ((BitVec.ofNat 32 (2 ^ f.2.2 - 1)) <<< f.2.1)) 0#32
/-- The unpaired bits of a record word (R389, R418). -/
def unpairedBits (w : Nat) : Word := if w = 33 ∨ w = 34 ∨ w = 35 then namedBits w else 0

/-- Word w of a record with the bits of `mask` from `val`. -/
def setRecWord (b : List Word) (w : Nat) (mask val : Word) : List Word :=
  setAt (b ++ List.replicate (56 - b.length) 0) w ((wordAt b w &&& ~~~ mask) ||| (val &&& mask))

/-- config.set. -/
def configSet (r : Request) (s : State) : State :=
  let p := partArg r
  let w := (argOf r 0).toNat
  let mask := argOf r 1
  let refuse (st : Nat) : State := reply r st [] (cumAdd p (cConfig + 4) 1 s)
  if 56 ≤ w then refuse 0x0D09
  else if mask &&& ~~~ namedBits w ≠ 0 then refuse 0x0D02
  else if mask &&& ~~~ unpairedBits w ≠ 0 then refuse 0x0C01
  else if w = 35 ∧ 256 < (wordAt (setRecWord (bank s p) w mask (argOf r 2)) w).toNat then refuse 0x0C0B
  else reply r 0 [] (modCfg p (fun c => { c with
    ebb := setRecWord c.ebb w mask (argOf r 2), flood := setRecWord c.flood w mask (argOf r 2) }) s)

/-- CONFIG_SET. -/
def execConfigSet (m : MbxId) (s : State) : Host.Outcome State Fault Refusal := .next (takeCmd m 0x0303 configSet s)

/-- Code of the shadow state. -/
def shadowCode : Shadow → Nat
  | .empty => 0
  | .ready => 1
  | .staged => 2
  | .armed => 3

/-- config.read. -/
def configRead (r : Request) (s : State) : State :=
  let q := partOf s (partArg r)
  let which := fld (argOf r 0) 0 2
  if which = 3 then reply r 0x0D02 [] (countRefused r s)
  else
    let b := if which = 2 then activeBank q else bankOf q (which = 1)
    reply r 0 (w32 (b2n q.cfg.active + 2 * shadowCode q.cfg.shadow) :: (List.range 56).map (wordAt b)) s

/-- CONFIG_READ. -/
def execConfigRead (m : MbxId) (s : State) : Host.Outcome State Fault Refusal := .next (takeCmd m 0x0304 configRead s)

/-! Resets of the functions (R407). -/

/-- Requests of the mailboxes that `p` picks run to their end and their replies are discarded. -/
def discardReplies (p : MbxId → Bool) (s : State) : State :=
  let mark (r : Request) : Request := if p r.mbx then { r with discard := true } else r
  let slot (e : Nat × SeqSlot) : Nat × SeqSlot := (e.1, { e.2 with evicting := e.2.evicting.map mark })
  let s1 := modFab (fun f => { f with joinFor := f.joinFor.map mark })
    (modPw (fun w => { w with waiting := w.waiting.map mark, slewing := w.slewing.map mark })
      (modSec (fun x => { x with stopping := x.stopping.map fun q => (q.1, mark q.2) }) (modJournal (fun j => j.map mark) s)))
  { s1 with parts := s1.parts.map fun q => (q.1, { q.2 with
      kv := { q.2.kv with slots := q.2.kv.slots.map slot }
      run := { q.2.run with steps := q.2.run.steps.map fun x => { x with submit := x.submit.map mark } } }) }

/-- A mailbox of virtual function n. -/
def isVf (n : Nat) : MbxId → Bool
  | .vf k _ => k.val == n
  | _ => false
/-- A mailbox of the physical function. -/
def isPf : MbxId → Bool
  | .pf _ => true
  | _ => false

/-- The reset of virtual function n, without its event. -/
def resetVf (n : Nat) (s : State) : State :=
  let s1 := discardReplies (isVf n) { s with host := { s.host with
    mbx := s.host.mbx.filter fun e => !(decide (8 + 4 * n ≤ e.1 ∧ e.1 < 12 + 4 * n)) } }
  let s2 := modEp (fun e => { e with bme := e.bme.filter (· != n) }) (modPart n (fun q => { q with vfEventEn := 0 }) s1)
  if (partOf s n).cfg.st = .closed then s2
  else
    let s3 := (accepted s2 n).foldl (fun t r => withdrawStep n r.id true t) s2
    let swapped := (partOf s3 n).kv.slots.filter fun e => e.2.st == .swapped
    let s4 := swapped.foldl (fun t e => if (slotAt t n e.1).st = .lost then t else loseSeq n noStep e.1 t) s3
    let s5 := modCfg n (fun c => { c with swapAddr := 0, swapMib := 0 }) s4
    if flying s5 n = [] then closePart n true s5 else modRun n (fun r => { r with freeDrop := true }) s5

/-- The reset of the physical function: every virtual function and the PF mailboxes. -/
def resetPf (s : State) : State :=
  let s1 := (List.range 32).foldl (fun t n => resetVf n t) s
  discardReplies isPf (modEp (fun e => { e with bme := [] }) { s1 with host := { s1.host with
    mbx := s1.host.mbx.filter fun e => decide (8 ≤ e.1) } })

/-- FLR_VF. -/
def execFlrVf (n : Fin 32) (s : State) : Host.Outcome State Fault Refusal :=
  .next (resetVf n.val (logPkg 0x0D03 false n.val 1 s))
/-- FLR_PF. -/
def execFlrPf (s : State) : Host.Outcome State Fault Refusal := .next (resetPf (logPkg 0x0D03 false 32 1 s))
/-- A conventional reset of the endpoint ends the link IDE stream and the session on DOE (log 76). -/
def endIde (s : State) : State := modSec (fun x => { x with doe := {} }) (modEp (fun e => { e with ide := .none }) s)
/-- A hot reset. -/
def hotReset (s : State) : State := resetPf (endIde (logPkg 0x0D03 false 32 2 s))
/-- HOT_RESET. -/
def execHotReset (s : State) : Host.Outcome State Fault Refusal := .next (hotReset s)
/-- The link is lost: the reset, and nothing leaves the endpoint until it is up again. -/
def linkDown (s : State) : State := modEp (fun e => { e with linkUp := false }) (resetPf (endIde (logPkg 0x0D03 false 32 3 s)))
/-- PCIE_LINK_DOWN. -/
def execPcieLinkDown (s : State) : Host.Outcome State Fault Refusal := .next (linkDown s)

/-- The commands that read host memory (R429). -/
def readsHost (r : Request) : Bool :=
  cmdOf r == 0x0201 || cmdOf r == 0x0401 || (cmdOf r == 0x0802 && decide (subOf r ∈ [7, 8])) ||
    (cmdOf r == 0x0901 && decide (subOf r ∈ [1, 2]))

/-- The DMA read of the command that the firmware is running fails (R429). -/
def headDmaFails (m : MbxId) (s : State) : State :=
  match s.host.journal with
  | r :: rest => if r.mbx = m ∧ readsHost r then dmaFailed r (modJournal (fun _ => rest) s) else s
  | [] => s

/-- DMA_READ_FAILURE. -/
def execDmaReadFailure (m : MbxId) (s : State) : Host.Outcome State Fault Refusal := .next (headDmaFails m s)

end Sys2Proof.Machine
end

