-- ==== Sys2Proof/Machine/Mirror.lean ====
section
/-! DEFINITION. The mirror at the holder of the standby copy: its records, how the owner sends them and how the holder keeps
them (R349, R352 to R357). -/

namespace Sys2Proof.Machine

/-- The next larger element of a list of identifiers, cyclically; none when `k` stands alone. -/
def nextOf (xs : List Nat) (k : Nat) : Option Nat :=
  match (xs.filter fun x => decide (k < x)).min? with
  | some x => some x
  | none => (xs.filter fun x => decide (x < k)).min?
/-- The next smaller element, cyclically. -/
def prevOf (xs : List Nat) (k : Nat) : Option Nat :=
  match (xs.filter fun x => decide (x < k)).max? with
  | some x => some x
  | none => (xs.filter fun x => decide (k < x)).max?

/-- The members of the standby-pairing job. -/
def pairMembers (s : State) : List Nat := ((s.cont.pairJob.bind (jobOf s)).map fun j => j.members).getD []
/-- The holder of a package's standby copy: the next member of the pairing job (log 33). -/
def holderOf (s : State) (pkg : Nat) : Option Nat :=
  if pkg ∈ pairMembers s then nextOf (pairMembers s) pkg else none

/-! Records (R353). -/

/-- A mirror record: header and data. -/
def mirrorRec (kind part step committed slot table page off : Nat) (data : List Byte) (recs : Nat) : List Byte :=
  bytesOfWords ([w32 (kind + 16 * part)] ++ w64 step ++ w64 committed ++
    [w32 (slot + 65536 * table), w32 page, w32 off, w32 data.length, w32 recs] ++ List.replicate 6 0) ++ data

/-- Runs of bytes cut into records of at most 4,032 bytes, each within one 4 KiB unit: unit, offset, bytes. -/
def recordRuns : Nat → Nat → List Byte → List (Nat × Nat × List Byte)
  | 0, _, _ => []
  | _ + 1, _, [] => []
  | fuel + 1, a, bs =>
    let n := min 4032 (4096 - a % 4096)
    (a / 4096, a % 4096, bs.take n) :: recordRuns fuel (a + n) (bs.drop n)

/-- The records of a journal entry (KIND 0x1). -/
def inputRecords (part step committed : Nat) (entry : List Byte) : List (List Byte) :=
  (recordRuns (entry.length / 2048 + 2) 0 entry).map fun r => mirrorRec 1 part step committed 0 0 r.1 r.2.1 r.2.2 0

/-- Byte ranges of a page that hold tokens `a` to `a + n - 1` of a head: offset and length, in whole 64-byte units. -/
def kvRanges (t : Nat × Nat × Nat × Nat × Fmt × Fmt) (head a n : Nat) : List (Nat × Nat) :=
  let (_, page, _, dim, fk, fv) := t
  let base := head * headBytes t
  let nb := dim / max fk.blockLen 1
  let k := if fk.isBlock then (base + 64 * (a * nb / 7), base + 64 * cdiv ((a + n) * nb) 7)
    else (base + a * dim * fk.bytes, base + (a + n) * dim * fk.bytes)
  let vb := base + roundUp (kBytes page dim fk) 64
  let v := (vb + a * dim * fv.bytes, vb + (a + n) * dim * fv.bytes)
  [k, v].map fun r => (r.1 / 64 * 64, roundUp r.2 64 - r.1 / 64 * 64)

/-- The bytes of a page of a slot. -/
def pageRead (s : State) (p slot i off n : Nat) : List Byte :=
  hbmRead s p (4096 * (tgetD (slotAt s p slot).pages i {}).frame + off) n

/-- The KV records of one append: `n` tokens from position `a` of a head (KIND 0x2). -/
def kvRecords (s : State) (part step committed slot table head a n : Nat) : List (List Byte) :=
  match (tablesOf s part).find? fun t => t.1 = table with
  | none => []
  | some t =>
    let page := t.2.1
    let start := tableStart (tablesOf s part) (slotAt s part slot).maxLen table
    (List.range ((a + n) / page + 1)).flatMap fun i =>
      let lo := max a (i * page)
      let hi := min (a + n) ((i + 1) * page)
      if hi ≤ lo then []
      else (kvRanges t head (lo - i * page) (hi - lo)).flatMap fun r =>
        (recordRuns (r.2 / 2048 + 2) r.1 (pageRead s part slot (start + i) r.1 r.2)).map fun x =>
          mirrorRec 2 part step committed slot table (start + i) (4096 * x.1 + x.2.1) x.2.2 0

/-- A whole page as records, for a resend (R356). -/
def pageRecords (s : State) (part step committed slot table i : Nat) : List (List Byte) :=
  let n := 4096 * unitsOf s part slot i
  (recordRuns (n / 2048 + 2) 0 (pageRead s part slot i 0 n)).map fun x =>
    mirrorRec 2 part step committed slot table i (4096 * x.1 + x.2.1) x.2.2 0

/-- The fall-back entries of an image's operations, four words each, as stats.read gives them (R426). -/
def fbWords (s : State) (p step : Nat) : List Word :=
  let f := (partOf s p).fb.cur
  (safeOps (imgOf s p)).flatMap fun op =>
    let o := tgetD f.ops op {}
    let nxt := o.pend.find? fun d => decide (step < d.1)
    [w32 op, w32 (rungOf s p op step + 4 * ((nxt.map fun d => d.2).getD 0) +
      256 * (if o.win = windowOf step then o.fails % 256 else 0) +
      2 ^ 31 * b2n (f.storms.any fun w => decide (w.1 ≤ step ∧ step ≤ w.2)))] ++ w64 ((nxt.map fun d => d.1).getD 0)

/-- The records of a step at commit, before its mark (R354). -/
def stepRecords (s : State) (p : Nat) (r : StepRec) : List (List Byte) :=
  let com := (partOf s p).run.committed
  let resends := (s.cont.resend.filter fun q => q.1 = p).flatMap fun q => pageRecords s p r.id com q.2.1 q.2.2.1 q.2.2.2
  let kv := r.appended.flatMap fun a => kvRecords s p r.id com a.1 a.2.1 a.2.2.1 (slotAt s p a.1).length a.2.2.2
  let slots := r.seqs.map fun u => mirrorRec 3 p r.id com u.slot 0 0 0
    (bytesOfWords (w32 ((slotAt s p u.slot).length + u.newTokens) :: w64 r.id)) 0
  let fb := bytesOfWords (fbEncode (fbTurn s p r.id (fbAsOf s p r.id)))
  let fbs := (recordRuns (fb.length / 2048 + 2) 0 fb).map fun x => mirrorRec 4 p r.id com 0 0 x.1 x.2.1 x.2.2 0
  resends ++ kv ++ slots ++ fbs

/-! The holder (R355). -/

/-- Change the mirror of a peer's partition. -/
def modMirror (p : Nat) (f : MirrorPart → MirrorPart) (s : State) : State :=
  modCont (fun c => { c with mirror := tset c.mirror p (f (tgetD c.mirror p {})) }) s

/-- COMMITTED has reached a value: pending steps at or below it are accepted, and their inputs freed. -/
def acceptUpTo (c : Nat) (m : MirrorPart) : MirrorPart :=
  let ok := m.pending.filter fun q => decide (q.step ≤ c)
  ok.foldl (fun m q => { m with
      slots := q.slots.foldl (fun t u => tset t u.1 u.2) m.slots
      fb := if q.fb = [] then m.fb else q.fb })
    { m with committed := max m.committed c, pending := m.pending.filter (fun q => decide (c < q.step))
             inputs := m.inputs.filter fun i => decide (max m.committed c < i.1) }

/-- Change the pending state of a step. -/
def modPending (step : Nat) (f : Pending → Pending) (m : MirrorPart) : MirrorPart :=
  let cur := (m.pending.find? fun q => q.step = step).getD { step }
  { m with pending := (m.pending.filter fun q => q.step != step) ++ [f cur] }

/-- Key of a mirrored page. -/
def mirrorKey (slot table page : Nat) : Nat := (slot * 256 + table) * 2 ^ 32 + page

/-- The holder writes one record into the mirror area; tells the step to acknowledge when it is a complete mark. -/
def mirrorWrite (bs : List Byte) (s : State) : Option (Nat × Nat) × State :=
  let ws := wordsOfBytes (bs.take 64)
  let kind := fld (wordAt ws 0) 0 4
  let part := fld (wordAt ws 0) 4 5
  let step := dwordAt ws 1
  let data := (bs.drop 64).take (fld (wordAt ws 8) 0 12)
  let slot := fld (wordAt ws 5) 0 16
  let table := fld (wordAt ws 5) 16 8
  let page := (wordAt ws 6).toNat
  let off := fld (wordAt ws 7) 0 24
  let key := mirrorKey slot table page
  let s1 := totAdd (tCont + 4) 1 (modMirror part (acceptUpTo (dwordAt ws 3)) s)
  let count (m : MirrorPart) : MirrorPart := if kind = 1 then m else modPending step (fun q => { q with got := q.got + 1 }) m
  let put (m : MirrorPart) : MirrorPart :=
    match kind with
    | 1 => { m with inputs := (m.inputs.filter fun i => !(i.1 == step && i.2.1 == page && i.2.2.1 == off)) ++ [(step, page, off, data)] }
    | 2 => { m with
        pages := tset m.pages key (((tgetD m.pages key []).filter fun x => x.1 != off) ++ [(off, data)])
        badPages := m.badPages.filter (· != key) }
    | 3 => modPending step (fun q => { q with slots := (q.slots.filter fun u => u.1 != slot) ++ [(slot, wordsOfBytes data)] }) m
    | 4 => modPending step (fun q => { q with fb := q.fb.take (4096 * page + off) ++ data }) m
    | 5 => { m with carried := (m.carried.filter fun x => x.1 != 4096 * page + off) ++ [(4096 * page + off, data)] }
    | _ => modPending step (fun q => { q with marked := some (wordAt ws 9).toNat }) m
  let s2 := modMirror part (fun m => count (put m)) s1
  let done := kind == 6 && ((tgetD s2.cont.mirror part {}).pending.any fun q => q.step == step && decide ((wordAt ws 9).toNat < q.got))
  (if done then some (part, step) else none, s2)

/-- The holder's acknowledgement of a step (R354, R357). -/
def ackData (part step : Nat) : List Byte := bytesOfWords ([w32 (16 * part)] ++ w64 step ++ List.replicate 13 0)
/-- The holder's request to resend a page (R356, R357). -/
def resendData (part committed slot table page : Nat) : List Byte :=
  bytesOfWords ([w32 (1 + 16 * part)] ++ w64 committed ++ [w32 (slot + 65536 * table), w32 page] ++ List.replicate 11 0)

/-- Send a firmware service request of the pairing job; status at the source. -/
def pairSend (dst subop : Nat) (rel : Option (Nat × Nat)) (data : List Byte) (s : State) : Nat × State :=
  match s.cont.pairJob with
  | none => (0x0A02, s)
  | some j => issue 0 dst j 0x06 subop none rel (fabAddr dst 0 0) data.length data s

/-- Send mirror records to a holder, which may be this package. -/
def mirrorSend (holder : Nat) (rel : Option (Nat × Nat)) (recs : List (List Byte)) (s : State) : State :=
  totAdd (tCont + 3) recs.length (recs.foldl (fun t r =>
    if holder = myPkg t then (mirrorWrite r t).2 else (pairSend holder 2 rel r t).2) s)

/-- The holder of this package's standby copy, while the stage is mirrored (R349, R354). -/
def activeHolder (s : State) : Option Nat := if s.cont.unmirrored then none else s.cont.holder

end Sys2Proof.Machine
end

