-- ==== Sys2Proof/Machine/Cache.lean ====
section
/-! DEFINITION. Pages of the key-value cache: allocation, pre-emption, swap and eviction (R185 to R197, R240, R255, R425,
R430). -/

namespace Sys2Proof.Machine

/-- The quota of the KV regions in 4 KiB units (R240). -/
def kvQuota (s : State) (p : Nat) : Nat := recQuota (bank s p) 2 * 256
/-- The units charged against it. -/
def kvCharged (s : State) (p : Nat) : Nat :=
  let k := (partOf s p).kv
  let ts := tablesOf s p
  k.taken + 8192 + (k.used.map fun u => u.2).sum + (k.slots.map fun e => e.2.reserved + listUnits ts e.2.maxLen).sum
/-- The units left. -/
def kvFree (s : State) (p : Nat) : Nat := kvQuota s p - kvCharged s p

/-- Units that a slot's sequence has reserved and not used, in all its slots (R192). -/
def reservedOf (s : State) (p slot : Nat) : Nat := ((mates s p slot).map fun i => (slotAt s p i).reserved).sum
/-- Take units out of the reservation of a slot's sequence. -/
def takeReserved (p slot units : Nat) (s : State) : State :=
  ((mates s p slot).foldl (fun (acc : Nat × State) i =>
    let k := min acc.1 (slotAt acc.2 p i).reserved
    (acc.1 - k, modSlot p i (fun q => { q with reserved := q.reserved - k }) acc.2)) (units, s)).2
/-- Allocate page i of a slot in HBM, out of its sequence's reservation or the quota; none when neither holds it. -/
def allocPage (p slot i units : Nat) (s : State) : Option State :=
  let e := slotAt s p slot
  let lc := recClass (bank s p)
  if (lc && decide (reservedOf s p slot < units)) || (!lc && decide (kvFree s p < units)) then none
  else
    let a := gapFrom units 0 (partOf s p).kv.used
    let old := tgetD e.pages i {}
    some (modKv p (fun k => { k with used := insertRun (a, units) k.used })
      (mapFrames p 0 2 ((List.range ((a + units - 1) / 512 + 1 - a / 512)).map (· + a / 512)) (modSlot p slot (fun q => { q with
      pages := tset q.pages i { valid := true, loc := 0, resv := lc, gen := old.gen, frame := 2 * 2 ^ 36 + a } })
      (if lc then takeReserved p slot units s else s))))

/-- Page indices that a step's new tokens need and that are not allocated: slot, index, units (R191). -/
def pagesNeeded (s : State) (p : Nat) (us : List SeqUse) : List (Nat × Nat × Nat) :=
  let ts := tablesOf s p
  us.flatMap fun u =>
    let e := slotAt s p u.slot
    if u.newTokens = 0 then [] else
      ts.flatMap fun t =>
        let lo := e.length / t.2.1
        let hi := (e.length + u.newTokens - 1) / t.2.1
        ((List.range (hi + 1 - lo)).map fun k => (u.slot, tableStart ts e.maxLen t.1 + lo + k, pageUnits t)).filter fun q =>
          !(tgetD e.pages q.2.1 {}).valid

/-- Free 4 KiB units of the swap space: of the window, and under SWAP_MIB (R255). -/
def swapFree (s : State) (p : Nat) : Nat :=
  let q := partOf s p
  256 * min q.cfg.swapMib (recQuota (bank s p) 3) - (q.kv.swapUsed.map fun u => u.2).sum

/-- Pages of a slot's sequence that are in HBM: slot and index, in order. -/
def seqPages (s : State) (p slot : Nat) : List (Nat × Nat) :=
  (mates s p slot).flatMap fun i => ((slotAt s p i).pages.filter fun e => e.2.valid && e.2.loc == 0).map fun e => (i, e.1)
/-- Pages that are on their way out: slot and index, in order. -/
def leaving (s : State) (p : Nat) : List (Nat × Nat) := (partOf s p).kv.slots.flatMap fun e => e.2.swapOut.map fun i => (e.1, i)
/-- Pages that go out one after another each find a run of the window (R194). -/
def runsFit (window : Nat) : List Nat → List (Nat × Nat) → Bool
  | [], _ => true
  | n :: ns, used =>
    let f := gapFrom n 0 used
    decide (f + n ≤ window) && runsFit window ns (insertRun (f, n) used)
/-- A swap of the sequence of a slot can start: a window is registered, and it and SWAP_MIB take all its pages, behind those that
are on their way out (R197, R255). -/
def swapFits (s : State) (p slot : Nat) : Bool :=
  let sizes := (leaving s p ++ seqPages s p slot).map fun q => unitsOf s p q.1 q.2
  let window := (partOf s p).cfg.swapMib
  window != 0 && decide (sizes.sum ≤ swapFree s p) && runsFit (256 * window) sizes (partOf s p).kv.swapUsed

/-- Mark the pages of a slot that go out. -/
def swapMark (q : SeqSlot) : SeqSlot :=
  let out := (q.pages.filter fun e => e.2.valid && e.2.loc == 0).map fun e => e.1
  { q with
    swapOut := out, swapIn := []
    pages := q.pages.map fun x => if x.1 ∈ out then (x.1, { x.2 with loc := 2 }) else x
    st := if out = [] then .swapped else q.st }
/-- Start to swap the sequence of a slot out, whole (R194). -/
def startSwap (p slot : Nat) (req : Option Request) (s : State) : State :=
  (mates s p slot).foldl (fun t i => modSlot p i swapMark t) (modSlot p slot (fun q => { q with evicting := q.evicting ++ req.toList }) s)
/-- Some page of a slot's sequence is on its way out. -/
def seqLeaving (s : State) (p slot : Nat) : Bool := (mates s p slot).any fun i => (slotAt s p i).swapOut != []

/-- The victims of a pre-emption, the one that goes first at the head (R193). -/
def victims (s : State) (p : Nat) (named : List Nat) : List Nat :=
  let busy := (flying s p).flatMap fun r => r.seqs.map fun u => u.slot
  let vs := (partOf s p).kv.slots.filter fun e => e.2.st == .resident && !e.2.freeing && !seqLeaving s p e.1 &&
    (mates s p e.1).all fun i => !(decide (i ∈ busy)) && !(decide (i ∈ named))
  let key (e : Nat × SeqSlot) : Nat := e.2.lastStep * 65536 + e.1
  match (vs.map key).min? with
  | some k => (vs.filter fun e => key e == k).map fun e => e.1
  | none => []

/-- A page copy is on its way out in the partition. -/
def swapping (s : State) (p : Nat) : Bool := (partOf s p).kv.slots.any fun e => e.2.swapOut != []

/-- A victim is pre-empted: its sequence starts to leave (R193). -/
def takeVictim (p step v : Nat) (s : State) : State :=
  setVfEvent p 0 (logEvent 0x0601 false p noOp step v (seqPages s p v).length (cntAdd p (cAttend + 6) 1 (startSwap p v none s)))

/-- Pre-empt one victim for a step; tells whether one was taken or is already leaving (R193, R255, R429). -/
def preempt (p step : Nat) (named : List Nat) (s : State) : Bool × State :=
  if swapping s p then (true, s)
  else match victims s p named with
    | [] => (false, s)
    | v :: _ =>
      if ¬ swapFits s p v then (false, s)
      else if ¬ dmaOpen s p then (false, stepEvent 0x0D01 p noOp step p 0x0401 s)
      else (true, takeVictim p step v s)

/-- The oldest accepted step waits for KV frames that a swap-out frees: its first cluster stalls, unless an admitted step has work
for it (R194, R260). -/
def awaitFrames (p : Nat) (s : State) : State :=
  if (clusterOf s (placeOf s p ((runners s p).headD 0))).runs = [] then
    modRun p (fun q => { q with frameWait := some (q.frameWait.getD s.now) }) s
  else s
/-- The wait for KV frames ends, and is charged. -/
def chargeFrames (p : Nat) (s : State) : State :=
  match (partOf s p).run.frameWait with
  | none => s
  | some t => modRun p (fun q => { q with frameWait := none }) (cntAdd p (cStall + 12) (s.now - t) s)

/-- A page is being fetched from the mirror. -/
def pageFetching (s : State) (p slot i : Nat) : Bool :=
  s.tiers.refetch.any fun q => q.kind == 4 && q.part == p && q.slot == slot && q.page == i

/-- The next page of a swap-out has been copied (R194); a page that failed its checks is fetched again first (R255, R266). -/
def swapOutPage (p : Nat) (s : State) : State :=
  match (partOf s p).kv.slots.find? fun e => e.2.swapOut != [] with
  | none => s
  | some (slot, e) =>
    let i := e.swapOut.headD 0
    let units := unitsOf s p slot i
    let data := pageRead s p slot i 0 (4096 * units)
    let f := gapFrom units 0 (partOf s p).kv.swapUsed
    if ¬ dmaOpen s p ∨ 256 * (partOf s p).cfg.swapMib < f + units ∨ pageFetching s p slot i then s
    else
      let was := tgetD e.pages i {}
      let s1 := hostWrite p ((partOf s p).cfg.swapAddr + 4096 * f) data (cntAdd p (cMemory) (64 * units) s)
      let s2 := modKv p (fun k => { k with
        swapUsed := insertRun (f, units) k.swapUsed
        used := k.used.filter fun u => u.1 != was.frame % 2 ^ 36 }) s1
      let s3 := cntAdd p (cAttend + 7) 1 (modSlot p slot (fun q => { q with
        pages := tset q.pages i { was with loc := 1, frame := f, gen := (was.gen + 1) % 256 }
        crcs := tset q.crcs i (crc32 data)
        swapOut := q.swapOut.drop 1
        st := if e.swapOut.length ≤ 1 then .swapped else q.st }) s2)
      if seqLeaving s3 p slot then s3 else answerMates p slot 0 s3

/-- SWAP_OUT_PAGE_DONE. -/
def execSwapOutPageDone (part : Fin 32) (s : State) : Host.Outcome State Fault Refusal := .next (swapOutPage part.val s)

/-- Start to bring a slot back (R195); one that has no page in the window is back at once. -/
def startReturn (p slot : Nat) (s : State) : State :=
  modSlot p slot (fun q =>
    let back := (q.pages.filter fun e => e.2.valid && e.2.loc == 1).map fun e => e.1
    if q.swapIn ≠ [] then q else if back = [] then { q with st := .resident } else { q with swapIn := back, retry := false }) s

/-- A step cannot get its pages, and no step in flight will free any: it completes so (R196). -/
def kvExhausted (p step units : Nat) (s : State) : State :=
  endStepWith p step 0x0606 0 0 (logEvent 0x0604 false p noOp step units (kvFree s p) (chargeFrames p s))
/-- No room is left for a page of a returning slot, and no further victim: with no step in flight, the step that waits for the
slot completes so, and the return ends where it stands. -/
def returnStuck (p slot : Nat) (s : State) : State :=
  if flying s p ≠ [] then s
  else
    let units := ((partOf s p).kv.slots.flatMap fun e => e.2.swapIn.map fun i => unitsOf s p e.1 i).sum
    let s1 := modKv p (fun k => { k with slots := k.slots.map fun e => (e.1, { e.2 with swapIn := [], retry := false }) }) s
    match (accepted s p).head? with
    | none => s1
    | some r => if r.seqs.any (fun u => u.slot == slot) then
        kvExhausted p r.id (units + ((pagesNeeded s p r.seqs).map fun q => q.2.2).sum) s1
      else s1

/-- The read of the next page that returns from the swap window has ended: its bytes, or none when the read failed
(R195, R429). Room for the page is freed first. -/
def swapInPage (p : Nat) (data : Option (List Byte)) (s : State) : State :=
  match (partOf s p).kv.slots.find? fun e => e.2.swapIn != [] with
  | none => s
  | some (slot, e) =>
    let i := e.swapIn.headD 0
    let units := unitsOf s p slot i
    let was := tgetD e.pages i {}
    let first := (accepted s p).head?
    let want := (first.map fun r => r.id).getD noStep
    let named := slot :: (first.map fun r => r.seqs.map fun u => u.slot).getD []
    if ¬ dmaOpen s p then s
    else if (allocPage p slot i units s).isNone then
      let q := preempt p want named s
      if q.1 then awaitFrames p q.2 else returnStuck p slot q.2
    else
      let s0 := match data with
        | some _ => countRead (4096 * units) s
        | none => logEvent 0x0D01 false p noOp want p 0x0401 (totAdd (tHost + 6) 1 s)
      let good : Bool := match data with
        | some bs => bs.length == 4096 * units && some (crc32 bs) == tget e.crcs i
        | none => false
      if ¬ good then
        let s1 := cntAdd p (cAttend + 9) 1 s0
        if e.retry then loseSeq p want slot s1
        else modSlot p slot (fun q => { q with retry := true }) (logEvent 0x0603 false p noOp want slot i s1)
      else match allocPage p slot i units s0 with
        | none => s0
        | some s1 =>
          let f := (tgetD (slotAt s1 p slot).pages i {}).frame
          let last := e.swapIn.length ≤ 1
          cntAdd p (cAttend + 8) 1 (cntAdd p (cMemory + 1) (64 * units) (hbmWrite p (4096 * f) (data.getD [])
            (modKv p (fun k => { k with swapUsed := k.swapUsed.filter fun u => u.1 != was.frame }) (modSlot p slot (fun q => { q with
              pages := tset q.pages i { tgetD q.pages i {} with gen := (was.gen + 1) % 256 }
              crcs := terase q.crcs i
              swapIn := q.swapIn.drop 1, retry := false
              st := if last then .resident else q.st }) s1))))

/-- SWAP_IN_PAGE_DONE. -/
def execSwapInPageDone (part : Fin 32) (data : Option (List Byte)) (s : State) : Host.Outcome State Fault Refusal :=
  .next (swapInPage part.val data s)

/-! kv.evict (R197, R425). -/

/-- Free a slot with its pages and reservation. -/
def freeSlot (p slot : Nat) (s : State) : State :=
  let s1 := ((slotAt s p slot).pages.map fun e => e.1).foldl (fun t i => freePage p slot i (unitsOf t p slot i) t) s
  modKv p (fun k => { k with slots := terase k.slots slot }) s1

/-- At a step boundary, the slots that kv.evict has freed are released. -/
def freeEvicted (p : Nat) (s : State) : State :=
  ((partOf s p).kv.slots.filter fun e => e.2.freeing).foldl (fun t e => freeSlot p e.1 t) s

/-- A sequence belongs to a step that is accepted or admitted and not committed. -/
def seqBusy (s : State) (p seq : Nat) : Bool :=
  (accepted s p ++ flying s p).any fun r => r.seqs.any fun u => u.seqId == seq

/-- kv.evict. -/
def kvEvict (swap : Bool) (r : Request) (s : State) : State :=
  let p := partArg r
  let seq := (argOf r 0).toNat
  match slotsOfSeq (partOf s p).kv seq with
  | [] => reply r 0x0603 [] s
  | slot :: more =>
    let e := slotAt s p slot
    if seqBusy s p seq then reply r 0x0604 [] s
    else if ¬ swap then
      let s1 := (slot :: more).foldl (fun t i => modSlot p i (fun q => { q with freeing := true, swapOut := [], swapIn := [] }) t)
        (answerMates p slot 0x0603 s)
      reply r 0 [] (if flying s p = [] then freeEvicted p s1 else s1)
    else if recClass (bank s p) then reply r 0x0607 [] s
    else if e.st = .lost then reply r 0x0605 [] s
    else if seqLeaving s p slot then modSlot p slot (fun q => { q with evicting := q.evicting ++ [r] }) s
    else if e.st = .swapped then reply r 0 [] s
    else if (partOf s p).cfg.swapMib = 0 then reply r 0x0608 [] s
    else if ¬ swapFits s p slot then reply r 0x0609 [] s
    else if ¬ dmaOpen s p then reply r 0x0D08 [] (logEvent 0x0D01 false p noOp noStep p 0x0501 s)
    else
      let s1 := startSwap p slot (some r) s
      if seqLeaving s1 p slot then s1 else answerMates p slot 0 s1

/-- The head of the journal is a kv.evict of the mode given. -/
def takeEvict (m : MbxId) (swap : Bool) (s : State) : State :=
  match headReq s m 0x0501 with
  | none => s
  | some r => if bitOf (argOf r 1) 0 = swap then takeCmd m 0x0501 (kvEvict swap) s else s

/-- KV_EVICT_FREE. -/
def execKvEvictFree (m : MbxId) (s : State) : Host.Outcome State Fault Refusal := .next (takeEvict m false s)
/-- KV_EVICT_SWAP. -/
def execKvEvictSwap (m : MbxId) (s : State) : Host.Outcome State Fault Refusal := .next (takeEvict m true s)

end Sys2Proof.Machine
end

