-- ==== Sys2Proof/Machine/Repair.lean ====
section
/-! DEFINITION. What is done about lost data (R253, R264, R266, R356): units to be fetched again, and pages of the key-value
cache fetched from the mirror at the holder; and stores into partition HBM. -/

namespace Sys2Proof.Machine

/-- Store bytes into a partition's HBM: dead bytes that it covers are whole again. -/
def hbmStore (p off : Nat) (bs : List Byte) (s : State) : State :=
  rewriteDead (hbmFlat s p off) bs.length (hbmWrite p off bs s)

/-- Ask for a unit to be fetched again; one that is pending already is not asked for twice (R266). -/
def addRefetch (r : Refetch) (s : State) : State :=
  if s.tiers.refetch.any (fun q => q.kind == r.kind && q.part == r.part && q.addr == r.addr && q.slot == r.slot && q.page == r.page) then s
  else modTiers (fun t => { t with refetch := t.refetch ++ [r] }) s

/-- Some unit of a flat HBM range is being fetched again (R266). -/
def flatFetching (s : State) (x n : Nat) : Bool :=
  s.tiers.refetch.any fun q => (q.kind == 2 || q.kind == 3) && meets q.addr 65536 x n
/-- Some unit of the rung cache that holds a chunk of a list is being fetched again. -/
def rungFetching (s : State) (st : Stage) (die op rung : Nat) (cs : List Nat) : Bool :=
  st.cache.any fun u => !u.once && (cs.any fun c => isChunk die op rung c u) && flatFetching s (stageFlat st u.place) 65536
/-- Ask for the 64 KiB units of a stage's weight region that a range meets to be fetched again (R264). -/
def refetchRange (p : Nat) (st : Stage) (off n : Nat) (s : State) : State :=
  (List.range ((off + n - 1) / 65536 + 1 - off / 65536)).foldl (fun t i =>
    addRefetch { kind := if st.standby then 3 else 2, part := p, addr := stageFlat st (65536 * (off / 65536 + i)) } t) s
/-- Ask for the resident units that hold chunks of a rung to be fetched again. -/
def refetchChunks (p : Nat) (st : Stage) (die op rung : Nat) (cs : List Nat) (s : State) : State :=
  (st.cache.filter fun u => !u.once && cs.any fun c => isChunk die op rung c u).foldl (fun t u => refetchRange p st u.place 65536 t) s
/-- A mirror page cannot be had: its sequence becomes lost (R264). -/
def pageUnfetched (p slot i : Nat) (s : State) : State :=
  setVfEvent p 0 (logEvent 0x0806 false p noOp noStep slot i (markLost p slot s))

/-- The first mirror fetch outstanding has ended. -/
def dropFetch (s : State) : State :=
  match s.cont.fetches with
  | [] => s
  | (p, slot, _, i) :: rest =>
    modTiers (fun t => { t with refetch := t.refetch.filter fun q => !(q.kind == 4 && q.part == p && q.slot == slot && q.page == i) })
      (modCont (fun c => { c with fetches := rest, fetched := [] }) s)

/-- Data of a mirror fetch (R357). -/
def fetchData (p slot table i : Nat) : List Byte :=
  bytesOfWords ([w32 (16 * p), w32 (slot + 65536 * table), w32 i] ++ List.replicate 13 0)

/-- Send the first mirror fetch outstanding; one that cannot be sent ends there. At most `fuel` are tried. -/
def sendFetch : Nat → State → State
  | 0, s => s
  | fuel + 1, s =>
    match s.cont.fetches with
    | [] => s
    | (p, slot, table, i) :: _ =>
      let q := match activeHolder s with
        | some h => pairSend h 3 none (fetchData p slot table i) s
        | none => (1, s)
      if q.1 = 0 then q.2 else sendFetch fuel (dropFetch (pageUnfetched p slot i s))

/-- A page of which positions below LENGTH are lost is fetched from the mirror (R264). -/
def kvPageLost (p slot table i : Nat) (s : State) : State :=
  if pageFetching s p slot i then s
  else
    let first := s.cont.fetches == []
    let s1 := modCont (fun c => { c with fetches := c.fetches ++ [(p, slot, table, i)] })
      (addRefetch { kind := 4, part := p, slot, page := i } s)
    if first then sendFetch (s1.cont.fetches.length) s1 else s1

/-- Table number of a page of a slot. -/
def tableOfPage (s : State) (p slot i : Nat) : Nat := ((tableAt (tablesOf s p) (slotAt s p slot).maxLen i).map fun t => t.1).getD 0

end Sys2Proof.Machine
end

