-- ==== Sys2Proof/Machine/Pilot.lean ====
section
/-! DEFINITION. How a Pilot runs its list (R78, R90, R138 to R153, R166, R189, R249, R260, R263, R264, R270): issue with its
holds and stalls, and the commands that the Pilot acts on itself. A row of the table acts when its command stands next in the
run of its position and nothing holds it; a held command leaves the machine as it is but for the stall record (log 38). -/

namespace Sys2Proof.Machine

/-! The position of a command. -/

/-- Image cluster whose list runs at a position. -/
def imgC (s : State) (a : At) : Nat := imgCluster s a.part.val a.cluster.val
/-- Guest of that cluster; 48 for none. -/
def guestC (s : State) (a : At) : Nat := (guestOf s a.part.val (imgC s a)).getD 48
/-- A run is that of a position. -/
def isRun (a : At) (r : Run) : Bool := r.part == a.part.val && r.step == a.step
/-- The run of a position. -/
def runAt (s : State) (a : At) : Option Run := (clusterOf s a.cluster.val).runs.find? (isRun a)
/-- Change the run of a position. -/
def modRunAt (a : At) (f : Run → Run) (s : State) : State :=
  modCluster a.cluster.val (fun c => { c with runs := c.runs.map fun r => if isRun a r then f r else r }) s
/-- Step slot of a position. -/
def slotA (s : State) (a : At) : Nat := slotNo (imgOf s a.part.val) (imgC s a) a.step

/-- A position's list is open: without a gathering grant the lists of a cluster run one after another (R95, R143). -/
def listOpen (s : State) (a : At) : Bool :=
  recGather (bank s a.part.val) ||
    !((clusterOf s a.cluster.val).runs.any fun r => r.part == a.part.val && decide (r.step < a.step))

/-! Relocation into the step slot (R143). -/

/-- Move an address word of cluster SRAM into the step's slot. -/
def relocAddr (base bytes slot : Nat) (w : Word) : Word :=
  if bitOf w 24 ∧ base ≤ fld w 0 24 ∧ fld w 0 24 < base + bytes then w32 (w.toNat + slot * bytes) else w

/-- Move a 52-bit cluster SRAM offset in words i and i + 1 into the step's slot. -/
def relocOff (base bytes slot i : Nat) (c : List Word) : List Word :=
  if base ≤ off52At c i ∧ off52At c i < base + bytes then setAt c i (w32 ((wordAt c i).toNat + slot * bytes)) else c

/-- The words of a command that hold an SRAM address with its space. -/
def addrWords (c : List Word) : List Nat :=
  match cOp c with
  | 1 => [4, 6, 8] ++ (if pScaleA (c.drop 1) = 2 then [10] else []) ++ (if pScaleB (c.drop 1) = 2 then [11] else [])
  | 2 => [1, 2]
  | 3 => [2, 3, 4]
  | 4 => [8, 9, 10, 11, 12, 17, 18]
  | 5 => [5, 7, 8, 11]
  | 10 => (if bitOf (wordAt c 1) 16 then [2] else []) ++ [3]
  | 13 => [1]
  | _ => []

/-- A command as issued for a step: its slot addresses relocated. -/
def relocCmd (base bytes slot : Nat) (c : List Word) : List Word :=
  let d := (addrWords c).foldl (fun d i => setAt d i (relocAddr base bytes slot (wordAt d i))) c
  match cOp c with
  | 5 => if rFarKind c = 1 then relocOff base bytes slot 12 d else d
  | 6 =>
    let e := if mSrcKind c = 1 then relocOff base bytes slot 1 d else d
    if mDstKind c = 1 then relocOff base bytes slot 3 e else e
  | _ => d

/-- The relocated words of a command at a position. -/
def relocAt (s : State) (a : At) (c : List Word) : List Word :=
  let ws := imgOf s a.part.val
  relocCmd (cmSlotBase ws (imgC s a)) (cmSlotBytes ws (imgC s a)) (slotA s a) c

/-! Ranges and hazards (R142, R144, R270). -/

/-- The map that a ROUTE of a position works on: a GATHER or RETURN serves the map of the last SEAL of its queue (log 48). -/
def mapAt (s : State) (a : At) (c : List Word) : Option EMap :=
  let ws := imgOf s a.part.val
  if rMode c = 2 ∨ rMode c = 3 then
    match (runAt s a).bind fun r => tget r.seals (rQueue c) with
    | some m => mapOf ws m
    | none => (imgMaps ws).find? fun m => queueOn m (imgC s a) (guestC s a) (rQueue c)
  else mapOf ws (rMap c)

/-- The SRAM operands of a command at a position. -/
def opdsAt (s : State) (a : At) (c : List Word) : List Opd :=
  let sz := if cOp c = 5 then mapSizes (imgOf s a.part.val) c (mapAt s a c) else (0, 0)
  cmdOpds sz.1 sz.2 c

/-- The ranges of operands that are written, or those that are read. -/
def ranges (cluster core : Nat) (wr : Bool) (os : List Opd) : List Rng :=
  (os.filter fun o => o.1 == wr && o.2.2.2 != 0).map fun o => { start := flatOf cluster core o.2.1 o.2.2.1, len := o.2.2.2 }

/-- Some range of one list meets some range of another. -/
def rangesMeet (xs ys : List Rng) : Bool := xs.any fun x => ys.any fun y => meets x.start x.len y.start y.len

/-- A command of these ranges overlaps an outstanding one. -/
def hazard (c : Cluster) (rd wr : List Rng) : Bool :=
  c.outst.any fun o => rangesMeet (rd ++ wr) o.writes || rangesMeet wr o.reads

/-- Start and length of inbox region r of a slot. -/
def regionRng (ws : List Word) (cluster c slot r : Nat) : Rng :=
  { start := clusterAddr cluster (cmSlotBase ws c + slot * cmSlotBytes ws c + inOff ws c r), len := 1024 * inKib ws c r }

/-- Deliveries counted in a region of a slot. -/
def inboxCount (s : State) (cluster slot r : Nat) : Nat := tgetD (clusterOf s cluster).inbox (16 * slot + r) 0

/-- Ranges read meet an inbox region of the step that is not complete. -/
def inboxHeld (s : State) (a : At) (rd : List Rng) : Bool :=
  let ws := imgOf s a.part.val
  let c := imgC s a
  (List.range 16).any fun r =>
    inKib ws c r != 0 && rangesMeet rd [regionRng ws a.cluster.val c (slotA s a) r] &&
      decide (inboxCount s a.cluster.val (slotA s a) r < inPosts ws c r) && (r < 8 || guestC s a != 48)

/-- Number of the SRAM macro that holds a flat address (R273). -/
def macroOf (x : Nat) : Nat := if x < 384 * 2 ^ 22 then x / 65536 else 0x8000 + (x - 384 * 2 ^ 22) / 65536
/-- Flat address of a macro's first byte. -/
def macroAddr (m : Nat) : Nat := if m < 0x8000 then m * 65536 else 384 * 2 ^ 22 + (m - 0x8000) * 65536
/-- A range lies in part in a macro that is being scrubbed. -/
def scrubHeld (s : State) (xs : List Rng) : Bool :=
  s.tiers.macros.any fun m => m.2.scrub && rangesMeet xs [{ start := macroAddr m.1, len := 65536 }]

/-- The step's slot is free for it, or its own already. -/
def slotReady (s : State) (cluster slot p step : Nat) : Bool :=
  match tget (clusterOf s cluster).slots slot with
  | none => true
  | some x => x == (p, step)
/-- Take a slot for a step. -/
def takeSlot (cluster slot p step : Nat) (s : State) : State :=
  modCluster cluster (fun c => { c with slots := tset c.slots slot (p, step) }) s

/-- The Pilot may issue to a core: its wave has been released after a barrier (R90). -/
def waveOpen (r : Run) (core : Nat) : Bool := r.atBar.isNone || decide (core < r.waves)

/-- The command is one that a core runs. -/
def forCore (c : List Word) : Bool := decide (1 ≤ cOp c ∧ cOp c ≤ 6)

/-- A probe of a core waits for room in a Chamois queue: the core waits with it (R109). -/
def probeWaits (s : State) (key : Nat) : Bool := s.x.chm.any fun u => u.2.waiting.any fun q => q.core == key

/-- What holds the next command of a position: stall causes of R260, 0 for a hold that has none. -/
def holds (s : State) (a : At) (r : Run) (c : List Word) : List Nat :=
  let cl := clusterOf s a.cluster.val
  let os := opdsAt s a c
  let rd := ranges a.cluster.val (cCore c) false os
  let wr := ranges a.cluster.val (cCore c) true os
  (if slotReady s a.cluster.val (slotA s a) a.part.val a.step then [] else [1]) ++
  (if hazard cl rd wr then [2] else []) ++
  (if forCore c && probeWaits s (coreKey a.cluster.val (cCore c)) then [6] else []) ++
  (if inboxHeld s a rd then [9] else []) ++
  (if (forCore c && !waveOpen r (cCore c)) || (r.atBar.isSome && decide (r.waves = 0)) then [14] else []) ++
  (if scrubHeld s (rd ++ wr) then [16] else []) ++
  (if 64 ≤ cl.outst.length then [0] else []) ++
  (if forCore c && decide (4 ≤ (cl.outst.filter fun o => o.core == cCore c && !o.undrained && o.probes == []).length) then [0] else [])

/-! Stalls (R260, R261). -/

/-- An item that waits at the scatter engine is a close, which takes no credit; its words give queue 16. -/
def isClose (w : Nat × List Word × List Byte) : Bool := wordAt w.2.1 3 == 16
/-- Entries of a SELECT wait for push credits (R218). -/
def creditHeld (s : State) (p step op : Nat) : Bool :=
  s.fab.creditWait.any fun w => !isClose w && w.1 == p && dwordAt (wordsOfBytes w.2.2) 0 == step && (wordAt (wordsOfBytes w.2.2) 7).toNat == op
/-- An outstanding command is a SELECT whose entries wait for push credits. -/
def engineHeld (s : State) (o : Outst) : Bool := (o.sel.map (creditHeld s o.part o.step)).getD false
/-- A command of a cluster is executing: one that waits for a probe, a drain or push credits is not. -/
def executing (s : State) (cluster : Nat) : Bool :=
  (clusterOf s cluster).outst.any fun o => o.probes == [] && !o.undrained && !engineHeld s o

/-- The stalls of a cluster's lists end, and are charged: a command of it is issued, or the cause has changed. -/
def chargeStall (cluster : Nat) (s : State) : State :=
  (clusterOf s cluster).runs.foldl (fun t r => match r.stall with
    | none => t
    | some (k, since) => cntAdd r.part (cStall + k - 1) (s.now - since) t)
    (modCluster cluster (fun c => { c with runs := c.runs.map fun r => { r with stall := none } }) s)

/-- A command is held: the cluster is stalled on the lowest cause while nothing of it executes. Of several lists the one that
was held first is charged, since a cluster is in one state at a time. -/
def holdOn (a : At) (causes : List Nat) (s : State) : State :=
  let s := if 11 ∈ causes then modRunAt a (fun r => { r with waitFrom := some (r.waitFrom.getD s.now) }) s else s
  match (causes.filter (· != 0)).min? with
  | none => s
  | some k =>
    let c := clusterOf s a.cluster.val
    if executing s a.cluster.val || c.runs.any (fun r => !isRun a r && r.stall.isSome) then s
    else match (runAt s a).bind fun r => r.stall with
      | some (j, _) => if j = k then s else modRunAt a (fun r => { r with stall := some (k, s.now) }) (chargeStall a.cluster.val s)
      | none => modRunAt a (fun r => { r with stall := some (k, s.now) }) s

/-! Issue. -/

/-- OP_INDEX of a command, for events. -/
def cmdOpIndex (c : List Word) : Nat :=
  match cOp c with
  | 1 => pOp (c.drop 1)
  | 2 => qOp c
  | 3 => vOp c
  | 4 => aOp c
  | 5 => rOp c
  | _ => noOp

/-- A program fault of the step at a position. -/
def faultAt (a : At) (cause op : Nat) (s : State) : State := programFault a.part.val a.step cause a.cluster.val op s

/-- Issue the next command of a position when it is one that `ok` picks and nothing holds it: `extra` gives what else holds
the relocated command, `pre` what its reads meet and whether it goes on, and `go` is its effect once it has left the list. -/
def issueWith (a : At) (ok : List Word → Bool) (extra : List Word → State → List Nat)
    (pre : List Word → State → Bool × State) (go : Cmd → List Word → State → State) (s : State) : State :=
  match runAt s a with
  | none => s
  | some r =>
    match r.todo with
    | [] => s
    | k :: rest =>
      let c := relocAt s a k.words
      if ¬ ok k.words ∨ ¬ listOpen s a ∨ (clusterOf s a.cluster.val).out then s
      else if k.expanded ∧ issueCause (imgOf s a.part.val) (imgC s a) (guestC s a) k.words ≠ 0 then
        faultAt a (issueCause (imgOf s a.part.val) (imgC s a) (guestC s a) k.words) (cmdOpIndex c) s
      else
        let hs := holds s a r c ++ extra c s
        if hs ≠ [] then holdOn a hs s
        else
          let q := pre c s
          if ¬ q.1 then q.2
          else
            let s1 := takeSlot a.cluster.val (slotA q.2 a) a.part.val a.step (chargeStall a.cluster.val q.2)
            go k c (cntAdd a.part.val cStage 1 (modRunAt a (fun r => { r with todo := rest, waitFrom := none }) s1))

/-- Issue a command whose reads meet nothing. -/
def issueAt (a : At) (ok : List Word → Bool) (extra : List Word → State → List Nat) (go : Cmd → List Word → State → State)
    (s : State) : State := issueWith a ok extra (fun _ t => (true, t)) go s

/-- Opcode test. -/
def isOp (n : Nat) (c : List Word) : Bool := cOp c == n
/-- Nothing else holds the command. -/
def noHold (_ : List Word) (_ : State) : List Nat := []

/-- A command enters the outstanding ones: `o` says what it waits for beyond its own work. -/
def enter (a : At) (c : List Word) (os : List Opd) (o : Outst) (s : State) : State :=
  modCluster a.cluster.val (fun k => { k with
    issued := k.issued + 1
    outst := k.outst ++ [{ o with
      id := k.issued, core := cCore c, step := a.step, part := a.part.val
      reads := ranges a.cluster.val (cCore c) false os, writes := ranges a.cluster.val (cCore c) true os }] }) s

/-! Detected errors in SRAM (R263, R264, R270). -/

/-- A landed window buffer of the cluster that covers a flat address: its key. -/
def winAt (s : State) (p cluster x : Nat) : Option (Nat × Win) :=
  let ws := imgOf s p
  (clusterOf s cluster).wins.find? fun w =>
    let e := pfStream ws w.2.entry
    let base := flatOf cluster (seCore e) (seSpace e) (seAddr e)
    !w.2.released && decide (base ≤ x ∧ x < base + seLen e w.2.rung)

/-- An SRAM column fails its test: a spare takes it, or the whole unit is taken out. -/
def columnFails (m col : Nat) (s : State) : State :=
  let x := tgetD s.tiers.macros m {}
  if x.spares < 4 then
    recordRepair 3 m col (logPkg 0x0804 false m col (totAdd (tMemory + 3) 1
      (modTiers (fun t => { t with macros := tset t.macros m { x with spares := x.spares + 1, scrub := true, column := col } }) s)))
  else if m < 0x8000 then coreFails (m / 64) s
  else clusterOut ((m - 0x8000) / 256) ((m - 0x8000) / 256) s

/-- Words within the ranges that stand with inverted parity: macro, word. -/
def badWords (s : State) (xs : List Rng) : List (Nat × Nat) :=
  s.tiers.macros.flatMap fun m =>
    (m.2.bad.filter fun w => rangesMeet xs [{ start := macroAddr m.1 + 4 * w, len := 4 }]).map fun w => (m.1, w)

/-- A write gives the words that it covers whole a fresh parity bit. -/
def freshParity (xs : List Rng) (s : State) : State :=
  if badWords s xs = [] then s
  else modTiers (fun t => { t with macros := t.macros.map fun m => (m.1, { m.2 with
    bad := m.2.bad.filter fun w => !(xs.any fun x => decide (x.start ≤ macroAddr m.1 + 4 * w ∧
      macroAddr m.1 + 4 * w + 4 ≤ x.start + x.len)) }) }) s

/-- What a write of `n` bytes at `a` leaves of a copy from the weight region. -/
def cutCopy (a n : Nat) (c : WeightCopy) : List WeightCopy :=
  let hi := max c.at_ (a + n)
  ([{ c with bytes := min c.bytes (a - c.at_) },
    { c with at_ := hi, bytes := c.at_ + c.bytes - hi, src := c.src + (hi - c.at_) }]).filter fun x => x.bytes != 0
/-- A write ends the copies that it covers. -/
def dropCopies (a n : Nat) (s : State) : State :=
  { s with x := { s.x with clusters := s.x.clusters.map fun k => (k.1, { k.2 with copies := k.2.copies.flatMap (cutCopy a n) }) } }
/-- Write rows into SRAM, with fresh parity. -/
def storeRows (rows : List (Nat × List Byte)) (s : State) : State :=
  rows.foldl (fun t r => freshParity [{ start := r.1, len := r.2.length }] (dropCopies r.1 r.2.length (sramWrite r.1 r.2 t))) s

/-- The copy from the weight region that covers a range of flat SRAM. -/
def copyAt (s : State) (p cluster x n : Nat) : Option WeightCopy :=
  (clusterOf s cluster).copies.find? fun c => c.part == p && decide (c.at_ ≤ x ∧ x + n ≤ c.at_ + c.bytes)
/-- The weight-region offset that a flat SRAM address was copied from, where a MOVE filled it from the weight image. -/
def copySrc (s : State) (p cluster x : Nat) : Option Nat := (copyAt s p cluster x 1).map fun c => c.src + (x - c.at_)
/-- A flat SRAM address lies in a weight slab that a core of the cluster holds. -/
def heldAt (s : State) (cluster x : Nat) : Bool :=
  let covers (b : Option Slab) (d : SlabData) : Bool := match b with
    | some w => d.src.isSome && decide (w.addr ≤ x ∧ x < w.addr + (d.lines.map List.length).sum)
    | none => false
  (List.range 8).any fun i =>
    let c := coreOf s (coreKey cluster i)
    covers c.west c.westData || covers c.north c.northData

/-- Data of a step is lost at an SRAM address: what was filled from the weight region is streamed again, a window buffer, a held
slab or a MOVE's copy, and the group that read it goes on from there; anything else re-runs the step. Tells whether the command
goes on. -/
def lostSram (a : At) (kind elem x : Nat) (s : State) : Bool × State :=
  let p := a.part.val
  let k := a.cluster.val
  if (winAt s p k x).isSome ∨ (copySrc s p k x).isSome ∨ heldAt s k x then
    (true, cntAdd p (cMemory + 7) 1 (cntAdd p (cMemory + 6) 1 (freshParity [{ start := x / 4096 * 4096, len := 4096 }] s)))
  else (false, confirmedStep p a.step kind elem s)

/-- The parity failures that a command meets in the ranges it reads. Tells whether the command goes on. -/
def meetParity (a : At) (rd : List Rng) (ev : Option ParityEvent) (s : State) : Bool × State :=
  let fail (m w : Nat) (confirmed : Bool) (col : Option Nat) (s : State) : Bool × State :=
    let s1 := cntAdd a.part.val (cMemory + 4) 1 s
    if ¬ confirmed then (true, s1)
    else
      let q := lostSram a 1 m (macroAddr m + 4 * w) s1
      match col with
      | none => q
      | some k =>
        let t := columnFails m k q.2
        (q.1 && (runAt t a).isSome && !(clusterOf t a.cluster.val).out, t)
  let p0 := match ev with
    | some e => fail e.macroNo e.word e.confirmed e.column s
    | none => (true, s)
  (badWords s rd).foldl (fun acc b => if acc.1 then fail b.1 b.2 true none acc.2 else acc) p0

/-- Ask for the 64 KiB units that a range of the weight region of a partition's stage meets to be fetched again (R264). -/
def refetchUnits (p off n : Nat) (s : State) : State :=
  match stageOf s p with
  | some st => refetchRange p st off n s
  | none => s
/-- Parcels read from the weight region fail as they arrive: each is counted, and its unit is fetched again (R49, R263, R264). -/
def weightFails (p : Nat) (fs : List (Nat × Nat × Nat)) (s : State) : State :=
  ((fs.map fun x => x.1 / 65536).eraseDups).foldl (fun t u => cntAdd p (cMemory + 6) 1 (refetchUnits p (65536 * u) 1 t))
    (cntAdd p 4 ((fs.map fun x => x.2.1).sum) (cntAdd p 3 ((fs.map fun x => x.2.2).sum) s))
/-- Parcels and TERN bytes that fail their checks are counted, and the data that holds them is lost (R41, R49, R264): a window
buffer is streamed again before the command is issued, a MOVE's copy is read from the weight region again, whose own units are
fetched again when they hold the same bytes, and anything else re-runs the step. Tells whether the command goes on. -/
def meetBad (a : At) (parcels terns x : Nat) (s : State) : Bool × State :=
  if parcels + terns = 0 then (true, s)
  else
    let p := a.part.val
    let s1 := cntAdd p 4 parcels (cntAdd p 3 terns s)
    let again (t : State) : State := cntAdd p (cMemory + 7) 1 (cntAdd p (cMemory + 6) 1 t)
    match winAt s p a.cluster.val x, copyAt s p a.cluster.val x 1 with
    | some (k, _), _ => (false, again (modCluster a.cluster.val (fun c => { c with
        wins := tmod c.wins k {} fun w => { w with landed := false } }) s1))
    | none, some c =>
      let bs := hbmRead s p c.src c.bytes
      if sramRead s c.at_ c.bytes = bs then (false, cntAdd p (cMemory + 6) 1 (refetchUnits p c.src c.bytes s1))
      else (false, again (modCluster a.cluster.val (fun k => { k with copies := k.copies ++ [c] }) (storeRows [(c.at_, bs)] s1)))
    | none, none => (false, confirmedStep p a.step (if parcels = 0 then 4 else 3) (macroOf x) s1)

/-- The parity failures of a command's reads, as a first part of what it meets. -/
def meetReads (a : At) (ev : RunEvent) (c : List Word) (s : State) : Bool × State :=
  meetParity a (ranges a.cluster.val (cCore c) false (opdsAt s a c)) ev.parity s

/-! Commands that the Pilot acts on itself. -/

/-- NOP (R139). -/
def execNop (a : At) (s : State) : Host.Outcome State Fault Refusal := .next (issueAt a (isOp 0) noHold (fun _ _ t => t) s)

/-- The key of a stream entry's buffer in the cluster that takes its bytes: a guest's buffers follow the host's own (R247). -/
def winKey (ws : List Word) (c e : Nat) : Nat := seBuf (pfStream ws e) + if seCluster (pfStream ws e) = c then 0 else 4
/-- The stream of entry e for a step has landed. -/
def landed (s : State) (a : At) (e : Nat) : Bool :=
  match tget (clusterOf s a.cluster.val).wins (winKey (imgOf s a.part.val) (imgC s a) e) with
  | some w => w.entry == e && w.step == a.step && w.landed
  | none => false
/-- LAYER of a window command. -/
def layerOf (c : List Word) : Nat := fld (wordAt c 1) 0 16

/-- WINDOW_RELEASE waits for the commands that read the buffer (R78). -/
def releaseHold (a : At) (c : List Word) (s : State) : List Nat :=
  let e := pfStream (imgOf s a.part.val) (layerOf c)
  let r : Rng := { start := flatOf a.cluster.val (seCore e) (seSpace e) (seAddr e), len := seBytes e }
  if (clusterOf s a.cluster.val).outst.any fun o => rangesMeet [r] o.reads then [2] else []
/-- The buffer of an entry is free for its next stream. -/
def releaseWin (a : At) (c : List Word) (s : State) : State :=
  let k := winKey (imgOf s a.part.val) (imgC s a) (layerOf c)
  modCluster a.cluster.val (fun q => match tget q.wins k with
    | some w => if w.entry = layerOf c ∧ w.step = a.step then { q with wins := tset q.wins k { w with released := true } } else q
    | none => q) s
/-- WINDOW_RELEASE (R249). -/
def execWindowRelease (a : At) (s : State) : Host.Outcome State Fault Refusal :=
  .next (issueAt a (isOp 8) (releaseHold a) (fun _ c t => releaseWin a c t) s)

/-! Barriers (R90, R151 to R153). -/

/-- No earlier command of the position's list is outstanding. -/
def earlierDone (s : State) (a : At) : Bool :=
  !((clusterOf s a.cluster.val).outst.any fun o => o.part == a.part.val && o.step == a.step)
/-- A command that waits for every earlier one; a SELECT among them that waits for push credits is a stall (R218, R260). -/
def afterAll (a : At) (_ : List Word) (s : State) : List Nat :=
  if earlierDone s a then []
  else if (clusterOf s a.cluster.val).outst.any fun o => o.part == a.part.val && o.step == a.step && engineHeld s o then [8]
  else [0]
/-- The list waits for the waves of an earlier barrier. -/
def barrierHold (a : At) (c : List Word) (s : State) : List Nat :=
  afterAll a c s ++ (if ((runAt s a).bind fun r => r.atBar).isSome then [14] else [])
/-- Key of a barrier of a step. -/
def barKey (step b : Nat) : Nat := step * 64 + b
/-- Image clusters that have arrived. -/
def arrived (s : State) (p step b : Nat) : List Nat := tgetD (partOf s p).run.barr (barKey step b) []
/-- Change the runs of a step that stand at a barrier. -/
def modAtBar (p step b : Nat) (f : Run → Run) (s : State) : State :=
  { s with x := { s.x with clusters := s.x.clusters.map fun e => (e.1, { e.2 with
      runs := e.2.runs.map fun r => if r.part == p && r.step == step && r.atBar == some b then f r else r }) } }
/-- A cluster arrives, for itself and its guest; the last arrival releases wave 0 and forgets the arrivals. -/
def arrive (a : At) (c : List Word) (s : State) : State :=
  let p := a.part.val
  let ws := imgOf s p
  let b := fld (wordAt c 1) 0 6
  let mine := [imgC s a, guestC s a].filter fun x => decide (x < 48) && barHas ws b x
  let all := (arrived s p a.step b ++ mine).eraseDups
  let first := (arrived s p a.step b) == []
  let s1 := modRunAt a (fun r => { r with atBar := some b, waves := 0 }) s
  if (barMembers ws b).all (fun x => decide (x ∈ all)) then
    modAtBar p a.step b (fun r => { r with waves := 1 })
      (modRun p (fun q => { q with barr := terase q.barr (barKey a.step b), barFrom := terase q.barFrom (barKey a.step b) }) s1)
  else modRun p (fun q => { q with
    barr := tset q.barr (barKey a.step b) all
    barFrom := if first then tset q.barFrom (barKey a.step b) s.now else q.barFrom }) s1
/-- BARRIER (R152). -/
def execBarrier (a : At) (s : State) : Host.Outcome State Fault Refusal :=
  .next (issueAt a (isOp 9) (barrierHold a) (fun _ c t => arrive a c t) s)

/-- The next wave of a released barrier; after the eighth the lists run freely. -/
def nextWave (r : Run) : Run :=
  if r.waves = 0 then r else if 7 ≤ r.waves then { r with atBar := none, waves := 0 } else { r with waves := r.waves + 1 }
/-- STAMPEDE_WAVE_RELEASE (R90). -/
def execStampedeWaveRelease (part : Fin 32) (step : Nat) (bar : Fin 64) (s : State) : Host.Outcome State Fault Refusal :=
  .next (modAtBar part.val step bar.val nextWave s)

/-- A step hangs: the partition admits no more and the package fails; a step that was uncommitted at a barrier hang of the failed
package, and hangs again here, meets a program fault instead (R153, R221, R361). -/
def hang (p step : Nat) (s : State) : State :=
  if (p, step) ∈ s.cont.hung then
    let (k, s1) := draw s
    programFault p step ((Config.openWord k).toNat % 65536) 0 noOp s1
  else declareFailed 5 (imgStage (imgOf s p)) (modRun p (fun q => { q with stopped := true }) s)
/-- A barrier has not been released in time: the event names the first cluster missing, as a partition cluster (R167). -/
def barrierHang (p step b : Nat) (s : State) : State :=
  if arrived s p step b = [] then s
  else
    let missing := (barMembers (imgOf s p) b).filter fun c => !(decide (c ∈ arrived s p step b))
    hang p step (logEvent 0x0504 true p noOp step b (placeOf s p (missing.headD 0)) s)
/-- BARRIER_HANG_TIMEOUT (R153). -/
def execBarrierHangTimeout (part : Fin 32) (step : Nat) (bar : Fin 64) (s : State) : Host.Outcome State Fault Refusal :=
  .next (barrierHang part.val step bar.val s)

/-! Expansion (R146 to R150). -/

/-- Apply one patch to a body; none when the field is too narrow. -/
def applyPatch (param : Nat → Nat) (body : List Word) (q : List Word) : Option (List Word) :=
  let lsb := fld (wordAt q 0) 16 5
  let width := fld (wordAt q 0) 21 5 + 1
  let v := (param (fld (wordAt q 0) 26 6) * (wordAt q 1).toNat + (wordAt q 2).toNat) % 2 ^ 64
  let t := fld (wordAt q 0) 0 16
  if 2 ^ width ≤ v then none
  else
    let old := (wordAt body t).toNat
    some (setAt body t (w32 (old - fld (wordAt body t) lsb width * 2 ^ lsb + v * 2 ^ lsb)))
/-- The body of one instance. -/
def instanceBody (param : Nat → Nat) (t : Template) : Option (List Word) :=
  t.2.2.foldl (fun acc q => acc.bind fun b => applyPatch param b q) (some t.2.1)
/-- The expert queue that a template serves: that of its GATHER or RETURN. -/
def templateQueue (t : Template) : Option Nat :=
  ((bodyCmds t.2.1).find? fun c => cOp c == 5 && (rMode c == 2 || rMode c == 3)).map rQueue
/-- COUNT of an EXPAND. -/
def expandCount (s : State) (a : At) (c : List Word) : Nat :=
  if bitOf (wordAt c 1) 16 then
    natOfBytes (sramRead s (flatOf a.cluster.val (cCore c) (adr (wordAt c 2)).1 (adr (wordAt c 2)).2) 4)
  else (wordAt c 2).toNat
/-- Offset, space and bytes of the parameter records that an EXPAND reads. -/
def paramOpd (s : State) (a : At) (c : List Word) : Opd :=
  let n := expandCount s a c
  match templateOf (imgOf s a.part.val) (fld (wordAt c 1) 0 16) with
  | some t => (false, (adr (wordAt c 3)).1, (adr (wordAt c 3)).2, spanBytes n (fld (wordAt c 4) 0 16) (paramBytes t))
  | none => (false, 0, 0, 0)
/-- EXPAND waits for outstanding writes into its parameter records, once its count is known. -/
def expandHold (a : At) (c : List Word) (s : State) : List Nat :=
  let rd := ranges a.cluster.val (cCore c) false [paramOpd s a c]
  (if hazard (clusterOf s a.cluster.val) rd [] then [2] else []) ++ (if inboxHeld s a rd then [9] else []) ++
    (if scrubHeld s rd then [16] else [])
/-- The instances of an expansion, or none where a patch overflows. The manual does not say when an instance's parameter record
is read: all records are read when the EXPAND issues, before any instance runs (DESIGN CHOICE, log 117). -/
def instances (s : State) (x stride : Nat) (t : Template) (n : Nat) : Option (List Word) :=
  (List.range n).foldl (fun acc i => acc.bind fun done =>
    (instanceBody (fun k => natOfBytes (sramRead s (x + i * stride + 4 * k) 4)) t).map fun b => done ++ b) (some [])
/-- EXPAND: its instances stand before the rest of the list. One at a fifth level inside template bodies is a fault (R148, R150). -/
def expand (a : At) (k : Cmd) (c : List Word) (s : State) : State :=
  let p := a.part.val
  let n := expandCount s a c
  let o := paramOpd s a c
  match templateOf (imgOf s p) (fld (wordAt c 1) 0 16) with
  | none => faultAt a 1 noOp s
  | some t =>
    if 5 ≤ k.depth then faultAt a 1 noOp s
    else if 2 ^ 24 < n then faultAt a 3 noOp s
    else if ¬ opdOk o then faultAt a 1 noOp s
    else match instances s (flatOf a.cluster.val (cCore c) o.2.1 o.2.2.1) (fld (wordAt c 4) 0 16) t n with
      | none => faultAt a 2 noOp s
      | some ws =>
        let q := (templateQueue t).orElse fun _ => k.queue
        let new := (bodyCmds ws).map fun w => ({ words := w, expanded := true, depth := k.depth + 1, queue := q } : Cmd)
        let s1 := modRunAt a (fun r => { r with todo := new ++ r.todo }) (cntAdd p (cStage + 1) n s)
        let late := decide ((wordAt c 5).toNat < n)
        let before := ((stepRec s p a.step).map fun r => r.overran).getD true
        if late ∧ ¬ before then
          onceEvent 0x0503 false p noOp a.step n (wordAt c 5).toNat
            (cntAdd p (cStage + 2) 1 (modStep p a.step (fun r => { r with overran := true }) s1))
        else s1
/-- EXPAND (R148). -/
def execExpand (a : At) (s : State) : Host.Outcome State Fault Refusal :=
  .next (issueAt a (isOp 10) (expandHold a) (expand a) s)

/-! Inboxes (R144) and the end of a list (R145). -/

/-- Where a delivery to region r of image cluster c goes: package cluster, image cluster, slot and region; a folded cluster's
region r is region r + 8 of its host. -/
def inboxAt (s : State) (p step c r : Nat) : Nat × Nat × Nat × Nat :=
  let h := hostOf s p c
  (placeOf s p c, h, slotNo (imgOf s p) h step, if h = c then r else r + 8)
/-- Count one delivery. -/
def countPost (p step c r : Nat) (s : State) : State :=
  let i := inboxAt s p step c r
  modCluster i.1 (fun k => { k with inbox := tmod k.inbox (16 * i.2.2.1 + i.2.2.2) 0 (· + 1) }) (takeSlot i.1 i.2.2.1 p step s)
/-- POST waits for the earlier MOVEs of its list into that cluster, and for the receiver's slot. -/
def postHold (a : At) (c : List Word) (s : State) : List Nat :=
  let i := inboxAt s a.part.val a.step (fld (wordAt c 1) 0 8) (fld (wordAt c 1) 8 4)
  (if slotReady s i.1 i.2.2.1 a.part.val a.step then [] else [9]) ++
    (if (clusterOf s a.cluster.val).outst.any fun o => o.part == a.part.val && o.step == a.step && o.dst == some i.1 then [0] else [])
/-- POST (R144). -/
def execPost (a : At) (s : State) : Host.Outcome State Fault Refusal :=
  .next (issueAt a (isOp 11) (postHold a) (fun _ c t => countPost a.part.val a.step (fld (wordAt c 1) 0 8) (fld (wordAt c 1) 8 4) t) s)

/-- AWAIT waits until its region is complete. -/
def awaitHold (a : At) (c : List Word) (s : State) : List Nat :=
  let r := fld (wordAt c 1) 0 4
  if inboxCount s a.cluster.val (slotA s a) r < inPosts (imgOf s a.part.val) (imgC s a) r then [9] else []
/-- AWAIT (R144). -/
def execAwait (a : At) (s : State) : Host.Outcome State Fault Refusal :=
  .next (issueAt a (isOp 12) (awaitHold a) (fun _ _ t => t) s)

/-- The regions that an END_STEP answers for are complete to the count. -/
def postsExact (s : State) (a : At) (guest : Bool) : Bool :=
  (List.range 8).all fun i =>
    let r := if guest then i + 8 else i
    inboxCount s a.cluster.val (slotA s a) r == inPosts (imgOf s a.part.val) (imgC s a) r

/-- Heads of KV tables that a step must have extended, and has not to the token (R189). -/
def appendShort (s : State) (p : Nat) (r : StepRec) : Bool :=
  (tablesOf s p).any fun t => r.seqs.any fun u => (List.range t.2.2.1).any fun h =>
    ((r.appended.filter fun x => x.1 == u.slot && x.2.1 == t.1 && x.2.2.1 == h).map fun x => x.2.2.2).sum != u.newTokens

/-- END_STEP: the outputs are named; without AS_GUEST the step leaves the cluster, and the last cluster finishes it. -/
def endStep (a : At) (c : List Word) (s : State) : State :=
  let p := a.part.val
  let guest := bitOf (wordAt c 1) 25
  if ¬ postsExact s a guest then faultAt a 4 noOp s
  else
    let out : OutRec := { cluster := imgC s a, addr := flatOf a.cluster.val (cCore c) (adr (wordAt c 1)).1 (adr (wordAt c 1)).2
                          bytes := (wordAt c 2).toNat }
    let s1 := modStep p a.step (fun r => { r with
      outs := if out.bytes = 0 then r.outs else r.outs ++ [{ out with order := r.outs.length }] }) s
    if guest then s1
    else
      let s2 := modStep p a.step (fun r => { r with left := r.left ++ [imgC s a] }) s1
      let s3 := modCluster a.cluster.val (fun k => { k with runs := k.runs.filter fun r => !isRun a r }) s2
      match stepRec s3 p a.step with
      | none => s3
      | some r =>
        if (runners s p).all fun x => decide (x ∈ r.left) then
          if appendShort s3 p r then faultAt a 7 noOp s3 else modStep p a.step (fun r => { r with st := .finished }) s3
        else s3
/-- END_STEP waits for every earlier command, unless it stands for a guest. -/
def endHold (a : At) (c : List Word) (s : State) : List Nat := if bitOf (wordAt c 1) 25 then [] else afterAll a c s
/-- END_STEP (R144, R145, R189). -/
def execEndStep (a : At) (s : State) : Host.Outcome State Fault Refusal :=
  .next (issueAt a (isOp 13) (endHold a) (fun _ c t => endStep a c t) s)

/-- A wait for an append has lasted too long (R189). -/
def appendTimeout (a : At) (s : State) : State :=
  match (runAt s a).bind fun r => r.waitFrom with
  | some _ => faultAt a 7 noOp s
  | none => s
/-- APPEND_WAIT_TIMEOUT (R189). -/
def execAppendWaitTimeout (a : At) (s : State) : Host.Outcome State Fault Refusal := .next (appendTimeout a s)

/-! Completion (R142). -/

/-- An outstanding command has drained and passed its last check, when nothing else keeps it. -/
def complete (cluster id : Nat) (s : State) : State :=
  modCluster cluster (fun c => { c with
    outst := c.outst.filter fun o => !(o.id == id && o.probes == [] && !o.undrained && !engineHeld s o) }) s
/-- COMMAND_COMPLETE (R142). -/
def execCommandComplete (cluster : Fin 48) (id : Nat) (s : State) : Host.Outcome State Fault Refusal :=
  .next (complete cluster.val id s)

/-- The scrub of a macro has ended (R270). -/
def scrubDone (m : Nat) (bad : List Nat) (s : State) : State :=
  modTiers (fun t => { t with macros := t.macros.map fun e =>
    if e.1 = m ∧ e.2.scrub then (e.1, { e.2 with scrub := false, bad := (e.2.bad ++ bad).eraseDups }) else e }) s
/-- SRAM_SCRUB_DONE (R270). -/
def execSramScrubDone (macroNo : Nat) (bad : List Nat) (s : State) : Host.Outcome State Fault Refusal :=
  .next (scrubDone macroNo bad s)

end Sys2Proof.Machine
end

