-- ==== Sys2Proof/Machine/Array.lean ====
section
/-! DEFINITION. The matrix array, the Springbok path and batch gathering (R61 to R66, R69 to R96, R541), and the taking of
Chamois probes (R99 to R103, R107 to R109, R113). -/

namespace Sys2Proof.Machine

/-! Operands along the reduction axis (R541). -/

/-- The lines of an operand, decoded. -/
def decodeLines (f : Fmt) (n : Nat) (ls : List (List Byte)) : List Line := ls.map (readLine f n)

/-- The reduction vector of row or column i, with the scale of each of its segments: on a transposed read each element carries
its own scale (R63). -/
def sideVec (f : Fmt) (trans : Bool) (ls : List Line) (i : Nat) : List FV × List FV :=
  if trans then
    (ls.map fun l =>
      let e := l.elems.getD i FV.zero
      if f.isBlock then e.mul ((l.scales.getD (i / f.blockLen) (0, FV.zero)).2) else e, [])
  else match ls[i]? with
    | some l => (l.elems, if f.isBlock then l.scales.map fun x => x.2 else [])
    | none => ([], [])

/-- The factor of a segment: the product of the block scales there are (R74, step 3). -/
def segFactor (sa sb : List FV) : Option FV :=
  match sa.head?, sb.head? with
  | none, none => none
  | some x, none => some x
  | none, some y => some y
  | some x, some y => some (x.mul y)

/-- The scale byte of the segment is 0x00. -/
def zeroScale (ss : List FV) : Bool :=
  match ss.head? with
  | some (.fin _ m _) => m == 0
  | _ => false

/-- Segments added to an accumulator in ascending order, at most `fuel` of them; one whose scale byte is 0x00 adds exactly
zero (R74). -/
def accumulate (seg : Nat) : Nat → List FV → List FV → List FV → List FV → Word → Word
  | 0, _, _, _, _, acc => acc
  | _ + 1, [], _, _, _, acc => acc
  | fuel + 1, a :: as, b, sa, sb, acc =>
    let ps := List.zipWith FV.mul ((a :: as).take seg) (b.take seg)
    let v := (if seg = 1 then ps.headD FV.zero else FV.sum ps).toF32
    let w := match segFactor sa sb with
      | none => v
      | some f => fmul v f.toF32
    accumulate seg fuel ((a :: as).drop seg) (b.drop seg) (sa.drop 1) (sb.drop 1)
      (fadd acc (if zeroScale sa || zeroScale sb then 0 else w))

/-- The accumulators of a pass over its lines: cells outside its rows and columns keep theirs. Legacy gating changes nothing
here (R89): a product with a zero element is formed as in native mode, also against an infinity or a NaN, since the results of
both modes are the same bits; the manual says both this and that a skipped product counts as zero (DESIGN CHOICE, log 116). -/
def macTile (d : List Word) (a b : List (List Byte)) (acc : List Word) : List Word :=
  let la := decodeLines (pFmtA d) (pLinesA d).2 a
  let lb := decodeLines (pFmtB d) (pLinesB d).2 b
  let va := (List.range (pRows d)).map (sideVec (pFmtA d) (pTransA d) la)
  let vb := (List.range (pCols d)).map (sideVec (pFmtB d) (pTransB d) lb)
  let seg := segLen (pFmtA d) (pFmtB d) (pTransA d) (pTransB d)
  (List.range (max (64 * pRows d) acc.length)).map fun x =>
    let old := acc.getD x 0
    if x / 64 < pRows d ∧ x % 64 < pCols d then
      let p := va.getD (x / 64) ([], [])
      let q := vb.getD (x % 64) ([], [])
      accumulate seg (pK d) p.1 q.1 p.2 q.2 old
    else old

/-- One pass of a group into the accumulators: at rung 1 the base pass and then the residual pass (R65); at rung 2 the pass
holds the FP8 copy in place of the base (R66). `side` is true when the weight is operand B. -/
def groupStep (side : Bool) (acc : List Word) (g : GroupPass) : List Word :=
  let t := macTile g.words g.a g.b (if pAcc g.words then acc else [])
  if g.rung ≠ 1 then t
  else if side then macTile g.words g.a g.res t else macTile g.words g.res g.b t
/-- The accumulators that a group leaves. -/
def groupAcc (side : Bool) (gs : List GroupPass) : List Word := gs.foldl (groupStep side) []

/-- Parcels and TERN bytes of lines that fail their checks. -/
def badLines (f : Fmt) (n : Nat) (ls : List (List Byte)) : Nat × Nat :=
  if ¬ f.isBlock then (0, 0)
  else
    let xs := decodeLines f n ls
    ((xs.map fun l => l.badParcels).sum, (xs.map fun l => l.badTern).sum)

/-! Draining (R76). -/

/-- The FP32 scale of a row or column. -/
def scaleAt (s : State) (cluster core mode : Nat) (w : Word) (i : Nat) : Option Word :=
  match mode with
  | 1 => some w
  | 2 => some (w32 (natOfBytes (sramRead s (flatOf cluster core (adr w).1 (adr w).2 + 4 * i) 4)))
  | _ => none
/-- Multiply by a scale where there is one. -/
def scaleBy (v : Word) : Option Word → Word
  | none => v
  | some x => fmul v x
/-- The tile after steps 1 and 2 of the drain. -/
def scaledTile (s : State) (cluster core : Nat) (d acc : List Word) : List (List Word) :=
  (List.range (pRows d)).map fun i => (List.range (pCols d)).map fun j =>
    scaleBy (scaleBy (acc.getD (64 * i + j) 0) (scaleAt s cluster core (pScaleA d) (wordAt d 9) i))
      (scaleAt s cluster core (pScaleB d) (wordAt d 10) j)

/-- The seed of an operation's stochastic draws (R57). -/
def opSeed (s : State) (p op : Nat) : Nat := Nat.xor (imgSeed (imgOf s p) op) (recSeed (bank s p))
/-- The rounding of an element under a ROUND field. -/
def roundingOf (mode seed step op elem : Nat) : Rounding := if mode = 1 then .sr (srDraw seed step op elem) else .rne

/-- Rows converted into a wide format: bytes of each row, saturations, NaNs turned into zero. -/
def convertRows (f : Fmt) (rd : Nat → Nat → Rounding) (rows : List (List Word)) : List (List Byte) × Nat × Nat :=
  let cs := rows.mapIdx fun i r => r.mapIdx fun j w => convert f (rd i j) (f32 w)
  (cs.map fun r => r.flatMap fun c => elemBytes f c.code, (cs.map fun r => (r.filter fun c => c.saturated).length).sum,
    (cs.map fun r => (r.filter fun c => c.nanZero).length).sum)
/-- Count conversions (R54, R60). -/
def countConv (p sat nans : Nat) (s : State) : State := cntAdd p 2 sat (cntAdd p 1 nans s)

/-- The drained rows of a tile: flat address and bytes of each, saturations, NaNs. -/
def drainRows (s : State) (p step cluster core : Nat) (d : List Word) (rows : List (List Word)) :
    List (Nat × List Byte) × Nat × Nat :=
  let seed := opSeed s p (pOp d)
  let q := convertRows (pFmtOut d) (fun i j => roundingOf (pRound d) seed step (pOp d) ((pElem d + i * pPitch d + j) % 2 ^ 64)) rows
  let base := flatOf cluster core (adr (wordAt d 7)).1 (adr (wordAt d 7)).2
  (q.1.mapIdx fun i bs => (base + i * fld (wordAt d 8) 0 24, bs), q.2.1, q.2.2)

/-! Taking probes (R99 to R103, R108, R109). -/

/-- probe_pick of R101. -/
def probePick (seed step op elem rate rows groups : Nat) : Option (Nat × Nat) :=
  let z := mix (BitVec.ofNat 64 seed ^^^ BitVec.ofNat 64 step)
  let z := mix (z ^^^ BitVec.ofNat 64 op)
  let z := (mix (z ^^^ BitVec.ofNat 64 elem)).toNat
  if z / 2 ^ 48 < rate then some (z / 2 ^ 16 % 2 ^ 16 % rows, z % 2 ^ 16 % groups) else none
/-- The probe seed of an operation in a partition. -/
def probeSeed (s : State) (p : Nat) (r : List Word) : Nat := Nat.xor (sgSeed r) (recSeed (bank s p))

/-- The dies in the order in which their Chamois units stand in for one another, from die d (R108). -/
def chmOrder (d : Nat) : List Nat :=
  match d with
  | 0 => [0, 1, 3, 2]
  | 1 => [1, 3, 2, 0]
  | 3 => [3, 2, 0, 1]
  | _ => [2, 0, 1, 3]
/-- The unit that serves the probes of a die. -/
def chmServing (s : State) (d : Nat) : Option Nat := (chmOrder d).find? fun k => !(chmOf s k).out
/-- The queue of the unit that serves a cluster is full. -/
def chmFull (s : State) (cluster : Nat) : Bool :=
  match chmServing s (dieOfCluster cluster) with
  | some d => decide (32 ≤ (chmOf s d).queue.length)
  | none => false

/-- A probe enters a unit: its queue holds 32, and a core whose probe finds it full waits (R109). -/
def joinQueue (q : Probe) (u : Chamois) : Chamois :=
  if u.queue.length < 32 then { u with queue := u.queue ++ [q] } else { u with waiting := u.waiting ++ [q] }

/-- Queue a probe; tells its number, or none when no unit works: then it is lost. -/
def takeProbe (q : Probe) (s : State) : Option Nat × State :=
  match chmServing s (dieOfCluster q.cluster) with
  | none => (none, cntAdd q.part (cChamois + 5) 1 s)
  | some d =>
    let id := s.x.probeNo
    (some id, modChm d (joinQueue { q with id }) { s with x := { s.x with probeNo := id + 1 } })

/-- The weight is operand B, as the safeguard record says; B without one. -/
def weightB (s : State) (p op : Nat) : Bool := ((safeOf (imgOf s p) op).map sgSideB).getD true

/-- First channel of the weight that the output channels of a tile begin at, from its element base (R100). -/
def firstChannel (b : Bool) (d : List Word) : Nat := if b then pElem d % pPitch d else pElem d / max (pPitch d) 1

/-- The probe of a drained tile, if it is taken: row and group (R100, R101). The weight must come from the weight image: `img`
says so. The row and the group of channels are those of the tile whichever operand the weight is, as R101 gives them (log 37). -/
def tilePick (s : State) (p step : Nat) (d : List Word) (rung : Nat) (img : Bool) : Option (Nat × Nat) :=
  match safeOf (imgOf s p) (pOp d) with
  | none => none
  | some r =>
    let b := sgSideB r
    let f := if b then pFmtB d else pFmtA d
    let c := firstChannel b d / 64
    let first := fld (wordAt r 2) 0 16
    if img ∧ sgRef r ∧ (f.isBlock ∨ rung = 2) ∧ first ≤ c ∧ (c - first) % fld (wordAt r 2) 16 16 = 0 then
      probePick (probeSeed s p r) step (pOp d) (pElem d) (sgRate r) (pRows d) (cdiv (pCols d) 16)
    else none

/-- The narrow side of a product probe: up to 16 outputs of one row. -/
def narrowSide (rows : List (List Word)) (row first n : Nat) : List Word :=
  (List.range n).map fun j => (rows.getD row []).getD (first + j) 0

/-- The activation-side scale of each output of a probe (R105). -/
def actScales (s : State) (cluster core : Nat) (b : Bool) (d : List Word) (row first n : Nat) : List (Option Word) :=
  (List.range n).map fun j => if b then scaleAt s cluster core (pScaleA d) (wordAt d 9) row
    else scaleAt s cluster core (pScaleB d) (wordAt d 10) (first + j)

/-- Drain a finished group whose passes are the outstanding commands `ids`: its rows are written, or withheld under a product
probe, which every pass of the group waits for (R113). A reduction split over cores has its probe at each core's drain, and none
after VEC_MERGE, which names no operation and no tile (R99; DEDUCED, log 133). -/
def finishTile (p step cluster core : Nat) (ids : List Nat) (gs : List GroupPass) (acc : List Word) (s : State) : State :=
  match gs.getLast? with
  | none => s
  | some g =>
    let d := g.words
    let b := weightB s p (pOp d)
    let rows := scaledTile s cluster core d acc
    let q := drainRows s p step cluster core d rows
    let s1 := countConv p q.2.1 q.2.2 s
    match tilePick s p step d g.rung (gs.all fun x => x.src.isSome) with
    | none => storeRows q.1 s1
    | some (row, grp) =>
      let n := min 16 (pCols d - 16 * grp)
      let probe : Probe := { product := true, part := p, step, cluster, core := coreKey cluster core, op := pOp d, rung := g.rung, row
                             chans := (16 * grp, n), grp := gs, scales := actScales s cluster core b d row (16 * grp) n
                             y := narrowSide rows row (16 * grp) n, held := q.1, pass := d }
      match takeProbe probe s1 with
      | (none, t) => storeRows q.1 t
      | (some k, t) => cntAdd p cChamois 1 (modCluster cluster (fun c => { c with
          outst := c.outst.map fun o => if o.id ∈ ids then { o with probes := o.probes ++ [k] } else o }) t)

/-- Quantisation probes of a tile: forced ones for the rows that a range overflow marks, and the sampled row (R101, R102).
`rows` holds the source values and the decoded values of each row, padding left out. -/
def quantProbes (p step cluster core op elem : Nat) (rows : List (List Word × List Word)) (wide : List Nat) (s : State) : State :=
  match safeOf (imgOf s p) op with
  | none => s
  | some r =>
    let sampled := if sgQRate r = 0 ∨ rows = [] then [] else
      ((probePick (probeSeed s p r) step op elem (sgQRate r) rows.length 1).map fun x => x.1).toList
    (wide ++ sampled.filter fun i => !(decide (i ∈ wide))).foldl (fun t i =>
      let forced := decide (i ∈ wide)
      let q : Probe := { product := false, forced, part := p, step, cluster, core := coreKey cluster core, op, row := i
                         y := (rows.getD i ([], [])).2, z := (rows.getD i ([], [])).1 }
      match takeProbe q t with
      | (none, u) => u
      | (some _, u) => cntAdd p (cChamois + if forced then 2 else 1) 1 u) s

/-! Beats (R69, R72). -/

/-- Elements per beat and cycles per beat. -/
def beatOf (fa fb : Fmt) (ta tb : Bool) : Nat × Nat :=
  if fa.is16 || fb.is16 || (fa.isBlock && ta) || (fb.isBlock && tb) then (1, 2)
  else if fa == .int2 || fa == .tern || fb == .int2 || fb == .tern then (4, 1)
  else if fa.isBlock || fb.isBlock then (2, 1)
  else (1, 1)
/-- Cycles in which a pass issues beats at a rung; at rung 2 its words name the FP8 format, at rung 1 it runs twice (R65, R66). -/
def passCycles (d : List Word) (rung : Nat) : Nat :=
  let b := beatOf (pFmtA d) (pFmtB d) (pTransA d) (pTransB d)
  (if rung = 1 then 2 else 1) * (cdiv (pK d) b.1 * b.2)
/-- Bytes that a side of a pass takes from core SRAM: none where it is held or lies in cluster SRAM. -/
def sideBytes (sp : Nat) (hold : Bool) (f : Fmt) (l : Nat × Nat) : Nat := if sp = 0 ∧ ¬ hold then l.1 * lineBytes f l.2 else 0
/-- Bytes that each side of a pass takes from core SRAM. -/
def feedA (d : List Word) : Nat := sideBytes (adr (wordAt d 3)).1 (pHoldA d) (pFmtA d) (pLinesA d)
def feedB (d : List Word) : Nat := sideBytes (adr (wordAt d 5)).1 (pHoldB d) (pFmtB d) (pLinesB d)
/-- Cycles that a pass loses because core SRAM cannot feed it at full rate (R72): at rung 1 both of its passes read. -/
def feedLoss (rung bytes cycles : Nat) : Nat := cdiv ((if rung = 1 then 2 else 1) * bytes) 128 - cycles
/-- ACLK cycles of a die in nanoseconds. -/
def aclkNs (s : State) (die cycles : Nat) : Nat := cycles * 10 / max (s.dv.cur.getD die 33) 1

/-! Residue (R77). -/

/-- The n-th following mismatch of a group on a core: the group is re-run, which issues its beats again, and the second
mismatch fails the core, whose spare starts the count afresh. The event record of R77 is a service event (R373) of a code that
the manual does not give (log 39). -/
def residueMeet (p step core beats : Nat) : Nat → Nat → State → Nat × State
  | 0, count, s => (count, s)
  | n + 1, count, s =>
    let s1 := cntAdd p cArray beats (cntAdd p (cArray + 2) 1 (cntAdd p (cArray + 1) 1 s))
    if count = 0 then residueMeet p step core beats n 1 s1
    else
      let (k, s2) := draw s1
      residueMeet p step core beats n 0 (coreFails core
        (logEvent ((Config.openWord k).toNat % 65536) false p noOp step (Config.openWord (k + 1)).toNat (Config.openWord (k + 2)).toNat
          { s2 with free := s2.free + 2 }))

/-! Routing (R91) and slabs (R71). -/

/-- Where a pass runs. -/
def toGather (s : State) (p : Nat) (d : List Word) : Bool :=
  pThin d && !pHoldA d && !pHoldB d && recGather (bank s p) && decide (pRows d ≤ 32)
/-- The pass runs on the Springbok path, given that it does not enter the gather queue: operand A must be an activation. -/
def toSpringbok (s : State) (p : Nat) (d : List Word) : Bool :=
  pThin d && !pHoldA d && !pHoldB d && decide (pRows d ≤ 4) && !pTransA d && !pTransB d && (pFmtA d).is8 &&
    ((pFmtB d).isBlock || (pFmtB d).is8) && weightB s p (pOp d)

/-- The slab that a pass leaves in a stream buffer. -/
def slabOf (cluster core : Nat) (d : List Word) (west : Bool) : Slab :=
  let w := wordAt d (if west then 3 else 5)
  { addr := flatOf cluster core (adr w).1 (adr w).2, fmt := fld (wordAt d 0) (if west then 0 else 4) 4
    trans := if west then pTransA d else pTransB d, k := pK d, n := if west then pRows d else pCols d }
/-- Bytes of a slab. -/
def slabBytes (d : List Word) (west : Bool) : Nat :=
  if west then (pLinesA d).1 * lineBytes (pFmtA d) (pLinesA d).2 else (pLinesB d).1 * lineBytes (pFmtB d) (pLinesB d).2
/-- The hold flags of a pass are valid (R71). -/
def holdValid (c : Core) (cluster core : Nat) (d : List Word) : Bool :=
  (!pHoldA d || (c.west == some (slabOf cluster core d true) && decide (slabBytes d true ≤ 524288))) &&
  (!pHoldB d || (c.north == some (slabOf cluster core d false) && decide (slabBytes d false ≤ 524288)))

/-- The lines of an operand: those of the held slab, or those in SRAM. -/
def passLines (s : State) (cluster core : Nat) (d : List Word) (west : Bool) : List (List Byte) :=
  let c := coreOf s (coreKey cluster core)
  let w := wordAt d (if west then 3 else 5)
  let l := if west then pLinesA d else pLinesB d
  if west && pHoldA d then c.westData.lines
  else if !west && pHoldB d then c.northData.lines
  else readLines s (flatOf cluster core (adr w).1 (adr w).2) l.1 (fld (wordAt d (if west then 4 else 6)) 0 24)
    (if west then pFmtA d else pFmtB d) l.2

/-- The window buffer that the weight operand of a pass lies in: its stream entry and the offset within it. -/
def weightWin (s : State) (p cluster core : Nat) (d : List Word) : Option (Win × List Word × Nat) :=
  let w := wordAt d (if weightB s p (pOp d) then 5 else 3)
  let x := flatOf cluster core (adr w).1 (adr w).2
  match winAt s p cluster x with
  | none => none
  | some (_, win) =>
    let e := pfStream (imgOf s p) win.entry
    if seOp e = pOp d then some (win, e, x - flatOf cluster (seCore e) (seSpace e) (seAddr e)) else none

/-- The FP8 format code of an operation's rung 2 copy, as the manifest states it (R64, R278). -/
def fp8Code (s : State) (p op : Nat) : Nat :=
  if pieceFmt s.bnd.manifest 3 (manifestImage s p) op = 4 then 4 else 3
/-- A descriptor with the FP8 format in place of the weight operand's. -/
def fp8Words (b : Bool) (code : Nat) (d : List Word) : List Word :=
  let sh := if b then 4 else 0
  setAt d 0 (w32 ((wordAt d 0).toNat - fld (wordAt d 0) sh 4 * 2 ^ sh + code * 2 ^ sh))
/-- Where the elements of a base parcel stand in the FP8 copy: the elements of the copy follow one another in the order of the
base parcels, a byte each (log 14). -/
def fp8At (f : Fmt) (o : Nat) : Nat := if f.isBlock then o / 64 * (7 * f.blockLen) else o / f.bytes
/-- Lines and elements per line, stride, and format of the weight operand of a descriptor. -/
def weightSide (b : Bool) (d : List Word) : (Nat × Nat) × Nat × Fmt :=
  if b then (pLinesB d, fld (wordAt d 6) 0 24, pFmtB d) else (pLinesA d, fld (wordAt d 4) 0 24, pFmtA d)
/-- A pass with what it reads, at the rung that its weight operand was streamed at (R65, R66, R248); a held weight operand
brings its rung and residual from the slab (R71). -/
def takePass (s : State) (p cluster core : Nat) (d : List Word) : GroupPass :=
  let b := weightB s p (pOp d)
  let g : GroupPass := { words := d, a := passLines s cluster core d true, b := passLines s cluster core d false }
  let f8 := fp8Words b (fp8Code s p (pOp d)) d
  let c := coreOf s (coreKey cluster core)
  if (if b then pHoldB d else pHoldA d) then
    let w := if b then c.northData else c.westData
    { g with words := if w.rung = 2 then f8 else d, res := w.res, rung := w.rung, src := w.src }
  else match weightWin s p cluster core d with
    | none =>
      let w := adr (wordAt d (if b then 5 else 3))
      { g with src := copySrc s p cluster (flatOf cluster core w.1 w.2) }
    | some (w, e, off) =>
      let (l, stride, f) := weightSide b d
      let x := flatOf cluster (seCore e) (seSpace e) (seAddr e)
      let h := { g with rung := w.rung, src := some (seSrc e + off) }
      match w.rung with
      | 0 => h
      | 1 => { h with res := readLines s (x + seBase e + off) l.1 stride f l.2 }
      | _ =>
        let ls := readLines s (x + fp8At f off) l.1 (fp8At f stride) .e4m3 l.2
        if b then { h with words := f8, b := ls } else { h with words := f8, a := ls }

/-- Parcels and TERN bytes of a pass's operands that fail, and the address of the operand that holds them; a held operand is
not read again (R71). -/
def passBad (s : State) (a : At) (c : List Word) : Nat × Nat × Nat :=
  let d := c.drop 1
  let g := takePass s a.part.val a.cluster.val (cCore c) d
  let wa := flatOf a.cluster.val (cCore c) (adr (wordAt d 3)).1 (adr (wordAt d 3)).2
  let wb := flatOf a.cluster.val (cCore c) (adr (wordAt d 5)).1 (adr (wordAt d 5)).2
  let b := weightB s a.part.val (pOp d)
  let x := if pHoldA d then (0, 0) else badLines (pFmtA g.words) (pLinesA d).2 (g.a ++ if b then [] else g.res)
  let y := if pHoldB d then (0, 0) else badLines (pFmtB g.words) (pLinesB d).2 (g.b ++ if b then g.res else [])
  if x.1 + x.2 ≠ 0 then (x.1, x.2, wa) else (y.1, y.2, wb)

/-- The SRAM operands that a pass reads: a held side takes no bytes from SRAM (R71). -/
def passReads (d : List Word) : List Opd :=
  match pOpds d with
  | a :: b :: os => (if pHoldA d then [] else [a]) ++ (if pHoldB d then [] else [b]) ++ os
  | os => os

/-- What the reads of a pass meet. -/
def passMeets (a : At) (ev : RunEvent) (c : List Word) (s : State) : Bool × State :=
  if pEmpty (c.drop 1) then (true, s)
  else
    let q := meetParity a (ranges a.cluster.val (cCore c) false (passReads (c.drop 1))) ev.parity s
    if ¬ q.1 then q
    else
      let x := passBad q.2 a c
      meetBad a x.1 x.2.1 x.2.2 q.2

/-- A command may still take a product probe at one of some operations: a pass of it, or an expansion. -/
def mayTake (ops : List Nat) (z : Cmd) : Bool := cOp z.words == 10 || (cOp z.words == 1 && decide (cmdOpIndex z.words ∈ ops))
/-- A queued or waiting probe of a step stands at one of some operations. -/
def probeAt (s : State) (p step : Nat) (ops : List Nat) : Bool :=
  s.x.chm.any fun u => (u.2.queue ++ u.2.waiting).any fun q => q.product && q.part == p && q.step == step && decide (q.op ∈ ops)
/-- A gathered pass of a step at one of some operations will take a probe when it drains. -/
def gatherTakes (s : State) (p step : Nat) (ops : List Nat) : Bool :=
  s.x.cores.any fun k => k.2.gather.any fun e => e.part == p && e.step == step && decide (pOp e.words ∈ ops) &&
    (tilePick s p step (takePass s p (k.1 / 8) (k.1 % 8) e.words).words e.rung true).isSome
/-- A step may still take a product probe at one of some operations. -/
def mayProbe (s : State) (p : Nat) (ops : List Nat) (r : StepRec) : Bool :=
  r.st == .accepted || probeAt s p r.id ops || gatherTakes s p r.id ops ||
  s.x.clusters.any fun c => c.2.runs.any fun x => x.part == p && x.step == r.id && x.todo.any (mayTake ops)
/-- Operations of a partition's image that take product probes. -/
def probedOps (s : State) (p : Nat) (ops : List Nat) : List Nat :=
  ops.filter fun o => ((safeOf (imgOf s p) o).map sgRate).getD 0 != 0
/-- Some earlier step in flight may still take a product probe at an operation (R119). -/
def earlierProbes (s : State) (p op step : Nat) : Bool :=
  probedOps s p [op] != [] && (flying s p).any fun r => decide (r.id < step) && mayProbe s p [op] r

/-- A group of another list, still open on the unit that a pass would run on, keeps its accumulators until it drains. -/
def groupOpen (s : State) (cluster : Nat) (gs : List GroupPass) (of mine : Nat × Nat) : Bool :=
  gs != [] && of != mine && (clusterOf s cluster).runs.any fun r => r.part == of.1 && r.step == of.2

/-- What else holds a pass: a weight operand that is being streamed again, a full Chamois queue, probes of earlier steps at its
operation, a group of another list on its unit, and queued passes of its own group (R75, R109, R119, R264). -/
def passHold (a : At) (c : List Word) (s : State) : List Nat :=
  let d := c.drop 1
  if pEmpty d then []
  else
    let p := a.part.val
    let k := coreOf s (coreKey a.cluster.val (cCore c))
    let me := (p, a.step)
    let gat := toGather s p d
    (if (safeOf (imgOf s p) (pOp d)).isSome ∧ ((chmFull s a.cluster.val ∧ pDrain d) ∨ earlierProbes s p (pOp d) a.step) then [6]
      else []) ++
    (match weightWin s p a.cluster.val (cCore c) d with
      | some (w, _, _) => if w.landed then [] else [15]
      | none =>
        let w := adr (wordAt d (if weightB s p (pOp d) then 5 else 3))
        match copyAt s p a.cluster.val (flatOf a.cluster.val (cCore c) w.1 w.2) 1 with
        | some k => if flatFetching s (hbmFlat s p k.src) k.bytes then [15] else []
        | none => []) ++
    (if ¬ gat ∧ (if toSpringbok s p d then groupOpen s a.cluster.val k.sgrp k.sgrpOf me else groupOpen s a.cluster.val k.grp k.grpOf me)
      then [0] else []) ++
    (if ¬ gat ∧ pAcc d ∧ k.gather.any (fun e => e.part == p && e.step == a.step && !pDrain e.words) then [0] else [])

/-! The passes (R73 to R79, R81, R91 to R94). -/

/-- Commands whose passes form the open group of a unit of a core with the command `id`. -/
def groupIds (s : State) (p step cluster core : Nat) (sb : Bool) (id : Nat) : List Nat :=
  let queued := (coreOf s (coreKey cluster core)).gather.map fun e => e.id
  id :: ((clusterOf s cluster).outst.filter fun o =>
    o.core == core && o.part == p && o.step == step && o.undrained && o.springbok == sb && !(decide (o.id ∈ queued))).map fun o => o.id
/-- A group ends: the commands of its passes no longer wait for its drain. -/
def groupEnds (cluster : Nat) (ids : List Nat) (s : State) : State :=
  modCluster cluster (fun k => { k with outst := k.outst.map fun o => if o.id ∈ ids then { o with undrained := false } else o }) s
/-- A pass joins the group of its unit, and waits for its drain if it does not drain it. -/
def joinGroup (cluster id : Nat) (sb drain : Bool) (s : State) : State :=
  modCluster cluster (fun k => { k with
    outst := k.outst.map fun o => if o.id = id then { o with undrained := !drain, springbok := sb } else o }) s

/-- Run a pass on the Springbok path; the pass is a group of its own for the residue check (R77). -/
def springbokPass (p step cluster core id : Nat) (g : GroupPass) (residue : Nat) (s : State) : State :=
  let key := coreKey cluster core
  let d := g.words
  let c := coreOf s key
  let b := weightB s p (pOp d)
  let gs := (if pAcc d then c.sgrp else []) ++ [g]
  let ids := groupIds s p step cluster core true id
  let m := residueMeet p step key 0 residue 0 (cntAdd p (cArray + 3) 1 (if pAcc d then s else groupEnds cluster (ids.drop 1) s))
  let acc := groupStep b c.sacc g
  let s2 := modCore key (fun c => { c with
    sacc := acc, sgrp := gs, sgrpOf := (p, step), svecs := ((g.a ++ c.svecs).take 4) }) m.2
  if (clusterOf s2 cluster).out then s2
  else
    let s3 := joinGroup cluster id true (pDrain d) s2
    if pDrain d then
      groupEnds cluster ids (finishTile p step cluster core (if pAcc d then ids else [id]) gs acc (modCore key (fun c => { c with sgrp := [] }) s3))
    else s3

/-- Stall of a core's array before its next front: the hold after a short pass, and the beats lost to a slow feed (R72, R84). -/
def frontStall (p die key lost : Nat) (s : State) : State :=
  cntAdd p (cStall + 0x12 - 1) (aclkNs s die (coreOf s key).hold) (cntAdd p (cStall + 0x11 - 1) (aclkNs s die lost) s)

/-- Run a pass on the array; `d` is its descriptor as issued. -/
def arrayPass (p step cluster core id : Nat) (d : List Word) (g : GroupPass) (residue : Nat) (s : State) : State :=
  let key := coreKey cluster core
  let c := coreOf s key
  let b := weightB s p (pOp d)
  let gs := (if pAcc d then c.grp else []) ++ [g]
  let ids := groupIds s p step cluster core false id
  let n := passCycles g.words g.rung
  let s0 := frontStall p (dieOfCluster cluster) key (feedLoss g.rung (feedA g.words + feedB g.words) n)
    (cntAdd p cArray n (if pAcc d then s else groupEnds cluster (ids.drop 1) s))
  let m := residueMeet p step key ((gs.map fun x => passCycles x.words x.rung).sum) residue (if pAcc d then c.group else 0) s0
  let acc := groupStep b c.acc g
  let held (x : List (List Byte)) (w : Bool) : SlabData :=
    { lines := x, res := if w then g.res else [], rung := if w then g.rung else 0, src := if w then g.src else none }
  let s2 := modCore key (fun c => { c with
    acc := acc, acc1 := if pAcc d then c.acc1 else c.acc, grp := gs, grpOf := (p, step), group := m.1
    west := some (slabOf cluster core d true), westData := held g.a (!b)
    north := some (slabOf cluster core d false), northData := held g.b b
    hold := 64 - n }) m.2
  if (clusterOf s2 cluster).out then s2
  else
    let s3 := joinGroup cluster id false (pDrain d) s2
    if pDrain d then
      groupEnds cluster ids (finishTile p step cluster core (if pAcc d then ids else [id]) gs acc
        (modCore key (fun c => { c with grp := [], group := 0 }) s3))
    else s3

/-! Gathering (R91 to R95). -/

/-- What two gathered entries must share. -/
def gatherKey (e : GatherEntry) : List Nat :=
  let d := e.words
  [e.part, e.rung, fld (wordAt d 5) 0 25, fld (wordAt d 0) 0 12, b2n (pTransB d), pK d, pCols d, fld (wordAt d 0) 18 2,
    fld (wordAt d 0) 22 2, (wordAt d 10).toNat]
/-- The entry can match another at all. -/
def gatherable (d : List Word) : Bool := !pTransA d && !pAcc d && pDrain d
/-- Two entries match; an entry that can match no other still stands for itself. -/
def gatherMatch (x y : GatherEntry) : Bool :=
  x.id == y.id || (gatherable x.words && gatherable y.words && gatherKey x == gatherKey y)
/-- Rows of entries. -/
def rowsOf (es : List GatherEntry) : Nat := (es.map fun e => pRows e.words).sum

/-- Run matching entries as one array pass, rows stacked in arrival order (R94). Each row is formed from its own operands, so
that the tiles are computed entry by entry (R92); an accumulation group of the core that is still open keeps its accumulators. -/
def stackPass (key : Nat) (e : GatherEntry) (set : List GatherEntry) (s : State) : State :=
  let cluster := key / 8
  let core := key % 8
  let p := e.part
  let b := weightB s p (pOp e.words)
  let g := takePass s p cluster core e.words
  let n := passCycles g.words g.rung
  let c := coreOf s key
  let bytes := (set.map fun x => feedA x.words).sum + feedB g.words
  let s1 := frontStall p (dieOfCluster cluster) key (feedLoss g.rung bytes n) (cntAdd p cArray n s)
  let m := residueMeet p e.step key n ((set.map fun x => x.residue).sum) 0 s1
  if (clusterOf m.2 cluster).out then m.2
  else
    let s2 := modCore key (fun c => { c with
      acc := if c.grp = [] then [] else c.acc, acc1 := if c.grp = [] then c.acc else c.acc1
      west := none, westData := {}, north := some (slabOf cluster core e.words false)
      northData := { lines := g.b, res := if b then g.res else [], rung := if b then g.rung else 0, src := if b then g.src else none }
      hold := 64 - n }) m.2
    set.foldl (fun t x =>
      let y := takePass t x.part cluster core x.words
      let acc := groupStep b [] y
      groupEnds cluster [x.id] (finishTile x.part x.step cluster core [x.id] [y] acc
        (modCore key (fun k => { k with acc := if c.grp = [] then k.acc ++ acc else k.acc }) t))) s2

/-- Release entries from the gather queue as one array pass; `late` is a release by deadline or full queue. A pass that no
other can match runs alone, and continues or leaves open its accumulation group as its flags say (R74, R93, R94). -/
def releaseSet (key : Nat) (set : List GatherEntry) (late : Bool) (s : State) : State :=
  match set with
  | [] => s
  | e :: _ =>
    let s1 := cntAdd e.part (cArray + 4) 1 (if late then cntAdd e.part (cArray + 5) 1 s else s)
    let s2 := modCore key (fun c => { c with gather := c.gather.filter (fun x => !(decide (x ∈ set))) }) s1
    if gatherable e.words then stackPass key e set s2
    else modCore key (fun c => { c with west := none, westData := {} })
      (arrayPass e.part e.step (key / 8) (key % 8) e.id e.words (takePass s2 e.part (key / 8) (key % 8) e.words) e.residue s2)

/-- A thin pass enters the gather queue of its core (R93, R94). -/
def gatherIn (key : Nat) (e : GatherEntry) (deadline : Nat) (s : State) : State :=
  let q := (coreOf s key).gather
  let push (t : State) : State := modCore key (fun c => { c with gather := c.gather ++ [e] }) t
  if deadline = 0 then releaseSet key [e] true (push s)
  else
    let ms := q.filter fun x => gatherMatch x e
    let s1 := if 64 < rowsOf ms + pRows e.words then releaseSet key ms false s else s
    let s2 := push s1
    let now := (coreOf s2 key).gather
    let ms2 := now.filter fun x => gatherMatch x e
    if rowsOf ms2 = 64 then releaseSet key ms2 false s2
    else if 16 ≤ now.length then
      match now with
      | o :: _ => releaseSet key (now.filter fun x => gatherMatch x o) true s2
      | [] => s2
    else s2

/-- The deadline of the entry that is due first has expired: it is released with its matches. -/
def gatherExpire (key : Nat) (s : State) : State :=
  let q := (coreOf s key).gather
  match (q.map fun e => e.due).min? with
  | none => s
  | some t =>
    match q.find? fun e => e.due == t with
    | none => s
    | some o => releaseSet key (q.filter fun x => gatherMatch x o) true s
/-- GATHER_DEADLINE_EXPIRE (R94). -/
def execGatherDeadlineExpire (core : Fin 384) (s : State) : Host.Outcome State Fault Refusal := .next (gatherExpire core.val s)

/-- Issue a pass to its core. -/
def passGo (a : At) (ev : RunEvent) (c : List Word) (s : State) : State :=
  let p := a.part.val
  let cl := a.cluster.val
  let core := cCore c
  let d := c.drop 1
  if pEmpty d then s
  else if ¬ holdValid (coreOf s (coreKey cl core)) cl core d then faultAt a 1 (pOp d) s
  else
    let id := (clusterOf s cl).issued
    let gat := toGather s p d
    let s1 := enter a c (opdsAt s a c) { undrained := gat } s
    let g := takePass s p cl core d
    if gat then gatherIn (coreKey cl core) { part := p, step := a.step, rung := g.rung, words := d, id, residue := ev.residue
                                             due := s.now + recDeadline (bank s p) } (recDeadline (bank s p)) s1
    else if toSpringbok s p d then springbokPass p a.step cl core id g ev.residue s1
    else arrayPass p a.step cl core id d g ev.residue s1

/-- PASS (R69 to R95). -/
def execPass (a : At) (ev : RunEvent) (s : State) : Host.Outcome State Fault Refusal :=
  .next (issueWith a (isOp 1) (passHold a) (passMeets a ev) (fun _ c t => passGo a ev c t) s)

end Sys2Proof.Machine
end

