-- ==== Sys2Proof/Machine/Vector.lean ====
section
/-! DEFINITION. The vector unit: QUANT (R50 to R54, R139) and the functions of VEC (R140). -/

namespace Sys2Proof.Machine

/-! QUANT. -/

/-- FP32 words at a flat address. -/
def f32Read (s : State) (x n : Nat) : List Word := wordsOfBytes (sramRead s x (4 * n))
/-- Cut a list into runs of `n`, at most `fuel` of them. -/
def runsOf {α : Type} (n : Nat) : Nat → List α → List (List α)
  | 0, _ => []
  | _ + 1, [] => []
  | fuel + 1, x :: xs => (x :: xs).take n :: runsOf n fuel ((x :: xs).drop n)

/-- The decoded values of quantised blocks. -/
def blockValues (f : Fmt) (bs : List Block) : List Word :=
  bs.flatMap fun b => (List.range f.blockLen).map fun i => (b.value f i).toF32

/-- Quantise one row of FP32 words into blocks; `rd i` is the rounding of element i. -/
def quantRow (f : Fmt) (rd : Nat → Rounding) (ws : List Word) : List QBlock :=
  (runsOf f.blockLen ws.length ws).mapIdx fun b xs => quantBlock f (fun i => rd (b * f.blockLen + i)) xs

/-- Count what quantised rows met: range overflows with the event of the step's first, NaN elements (R53, R54, R68). -/
def countQuant (p step op : Nat) (rows : List (List QBlock)) (s : State) : State :=
  let hits := (List.range rows.length).flatMap fun i =>
    (List.range ((rows.getD i []).length)).filterMap fun j =>
      match (rows.getD i [])[j]? with
      | some b => if b.overflow then some (i, j) else none
      | none => none
  let s1 := cntAdd p 1 ((rows.map fun r => (r.map fun b => b.nans).sum).sum) (cntAdd p 0 hits.length s)
  match hits with
  | [] => s1
  | h :: _ => stepEvent 0x0401 p op step h.1 h.2 s1
/-- The rows in which a range overflow lies. -/
def overRows (rows : List (List QBlock)) : List Nat :=
  (List.range rows.length).filter fun i => (rows.getD i []).any fun b => b.overflow

/-- A quantisation probe that finds the queue full makes the core wait (R109). -/
def quantHold (a : At) (c : List Word) (s : State) : List Nat :=
  if (safeOf (imgOf s a.part.val) (qOp c)).isSome ∧ chmFull s a.cluster.val then [6] else []

/-- How many elements at the end of a row of FP32 source values are padding, which the compiler supplies as zero to fill the last
block (R107, R139; log 120). -/
def padCount (f : Fmt) (op elem r : Nat) (ws : List Word) : Nat :=
  min (Config.padding op elem r) (min (f.blockLen - 1) (ws.reverse.takeWhile (· == 0)).length)
/-- Run a QUANT. -/
def quantGo (a : At) (c : List Word) (s : State) : State :=
  let p := a.part.val
  let cl := a.cluster.val
  let f := qFmt c
  let n := qBlocks c * f.blockLen
  let src := flatOf cl (cCore c) (adr (wordAt c 1)).1 (adr (wordAt c 1)).2
  let dst := flatOf cl (cCore c) (adr (wordAt c 2)).1 (adr (wordAt c 2)).2
  let seed := opSeed s p (qOp c)
  if n = 0 then s
  else
    let srcs := (List.range (qRows c)).map fun r => f32Read s (src + r * fld (wordAt c 4) 0 24) n
    let rows := srcs.mapIdx fun r ws =>
      quantRow f (fun i => roundingOf (qRound c) seed a.step (qOp c) ((qElem c + r * n + i) % 2 ^ 64)) ws
    let out := rows.mapIdx fun r bs => (dst + r * fld (wordAt c 5) 0 24, packParcels bs.length (bs.map fun b => b.block))
    let s1 := storeRows out (enter a c (opdsAt s a c) {} s)
    let vals := srcs.mapIdx fun r ws =>
      let k := n - padCount f (qOp c) (qElem c) r ws
      (ws.take k, (blockValues f ((rows.getD r []).map fun b => b.block)).take k)
    quantProbes p a.step cl (cCore c) (qOp c) (qElem c) vals (overRows rows) (countQuant p a.step (qOp c) rows s1)

/-- QUANT (R50 to R54, R139). -/
def execQuant (a : At) (ev : RunEvent) (s : State) : Host.Outcome State Fault Refusal :=
  .next (issueWith a (isOp 2) (quantHold a) (meetReads a ev) (fun _ c t => quantGo a c t) s)

/-! VEC. -/

/-- Elements of a wide format at a flat address, as FP32 words. -/
def wideRead (s : State) (f : Fmt) (x n : Nat) : List Word := (wideElems f n (sramRead s x (f.bytes * n))).map fun v => v.toF32

/-- Run a VEC whose result rows are `f` of the rows of A and of the flat address of B. -/
def vecGo (a : At) (c : List Word) (f : List (List Word) → Nat → List (List Word)) (s : State) : State :=
  let p := a.part.val
  let cl := a.cluster.val
  let n := vLen c
  let x := flatOf cl (cCore c) (adr (wordAt c 2)).1 (adr (wordAt c 2)).2
  let y := flatOf cl (cCore c) (adr (wordAt c 3)).1 (adr (wordAt c 3)).2
  let z := flatOf cl (cCore c) (adr (wordAt c 4)).1 (adr (wordAt c 4)).2
  if n = 0 ∨ vRows c = 0 then s
  else
    let rows := (List.range (vRows c)).map fun r => wideRead s (vIn c) (x + r * n * (vIn c).bytes) n
    let seed := opSeed s p (vOp c)
    let q := convertRows (vOut c)
      (fun r i => roundingOf (vRound c) seed a.step (vOp c) ((vElem c + r * n + i) % 2 ^ 64)) (f rows y)
    countConv p q.2.1 q.2.2 (storeRows (q.1.mapIdx fun r bs => (z + r * n * (vOut c).bytes, bs)) (enter a c (opdsAt s a c) {} s))

/-- Issue a VEC of a function. -/
def vecIssue (func : Nat) (a : At) (ev : RunEvent) (f : List Word → State → List (List Word) → Nat → List (List Word))
    (s : State) : State :=
  issueWith a (fun c => cOp c == 3 && vFunc c == func) noHold (meetReads a ev) (fun _ c t => vecGo a c (f c t) t) s

/-- Rows of B that match those of A. -/
def rowsB (c : List Word) (s : State) (y : Nat) : List (List Word) :=
  (List.range (vRows c)).map fun r => wideRead s (vIn c) (y + r * vLen c * (vIn c).bytes) (vLen c)
/-- Combine the rows of A and B element by element. -/
def rowsWith (op : Word → Word → Word) (xs ys : List (List Word)) : List (List Word) := List.zipWith (List.zipWith op) xs ys

/-- A + B. -/
def vecAddRows (c : List Word) (s : State) (xs : List (List Word)) (y : Nat) : List (List Word) := rowsWith fadd xs (rowsB c s y)
/-- VEC_ADD (R140). -/
def execVecAdd (a : At) (ev : RunEvent) (s : State) : Host.Outcome State Fault Refusal := .next (vecIssue 1 a ev vecAddRows s)

/-- A × B. -/
def vecMulRows (c : List Word) (s : State) (xs : List (List Word)) (y : Nat) : List (List Word) := rowsWith fmul xs (rowsB c s y)
/-- VEC_MUL (R140). -/
def execVecMul (a : At) (ev : RunEvent) (s : State) : Host.Outcome State Fault Refusal := .next (vecIssue 2 a ev vecMulRows s)

/-- A × B[row]. -/
def vecScaleRows (c : List Word) (s : State) (xs : List (List Word)) (y : Nat) : List (List Word) :=
  let b := wideRead s (vIn c) y (vRows c)
  xs.mapIdx fun r row => row.map fun v => fmul v (b.getD r 0)
/-- VEC_ROW_SCALE (R140). -/
def execVecRowScale (a : At) (ev : RunEvent) (s : State) : Host.Outcome State Fault Refusal :=
  .next (vecIssue 3 a ev vecScaleRows s)

/-- The RMS norm of one row. -/
def rmsNorm (row w : List Word) (eps : Word) : List Word :=
  let ss := row.foldl (fun acc v => fadd acc (fmul v v)) 0
  let m := fdiv ss (FV.ofInt row.length).toF32
  let r := vrecip (vsqrt (fadd m eps))
  List.zipWith (fun v b => fmul (fmul v r) b) row w
/-- The RMS norm with weights B and ε, which follows them at the next 4-byte boundary. -/
def vecRmsRows (c : List Word) (s : State) (xs : List (List Word)) (y : Nat) : List (List Word) :=
  let w := wideRead s (vIn c) y (vLen c)
  let eps := w32 (natOfBytes (sramRead s (4 * cdiv (y + vLen c * (vIn c).bytes) 4) 4))
  xs.map fun row => rmsNorm row w eps
/-- VEC_RMS_NORM (R140). -/
def execVecRmsNorm (a : At) (ev : RunEvent) (s : State) : Host.Outcome State Fault Refusal := .next (vecIssue 4 a ev vecRmsRows s)

/-- SiLU: A × vrecip(1 + vexp(−A)) (log 18). -/
def silu (v : Word) : Word := fmul v (vrecip (fadd 0x3F800000 (vexp (fneg v))))
/-- SiLU(A) × B. -/
def vecSiluRows (c : List Word) (s : State) (xs : List (List Word)) (y : Nat) : List (List Word) :=
  rowsWith (fun v b => fmul (silu v) b) xs (rowsB c s y)
/-- VEC_SILU_MUL (R140). -/
def execVecSiluMul (a : At) (ev : RunEvent) (s : State) : Host.Outcome State Fault Refusal := .next (vecIssue 5 a ev vecSiluRows s)

/-- GELU, tanh form, in the order of R140. -/
def gelu (x : Word) : Word :=
  let t := fmul (fmul x x) x
  let t := fadd x (fmul 0x3D372713 t)
  let t := vtanh (fmul 0x3F4C422A t)
  fmul 0x3F000000 (fmul x (fadd 0x3F800000 t))
/-- GELU of A. -/
def vecGeluRows (_ : List Word) (_ : State) (xs : List (List Word)) (_ : Nat) : List (List Word) := xs.map fun r => r.map gelu
/-- VEC_GELU (R140). -/
def execVecGelu (a : At) (ev : RunEvent) (s : State) : Host.Outcome State Fault Refusal := .next (vecIssue 6 a ev vecGeluRows s)

/-- The rows of A added in ascending order, into one row (R75, log 18). -/
def vecMergeRows (_ : List Word) (_ : State) (xs : List (List Word)) (_ : Nat) : List (List Word) :=
  match xs with
  | [] => []
  | x :: rest => [rest.foldl (List.zipWith fadd) x]
/-- VEC_MERGE (R75, R140). -/
def execVecMerge (a : At) (ev : RunEvent) (s : State) : Host.Outcome State Fault Refusal := .next (vecIssue 7 a ev vecMergeRows s)

/-- A itself, for the conversion of R59. -/
def vecSameRows (_ : List Word) (_ : State) (xs : List (List Word)) (_ : Nat) : List (List Word) := xs
/-- VEC_CONVERT (R59, R140). -/
def execVecConvert (a : At) (ev : RunEvent) (s : State) : Host.Outcome State Fault Refusal := .next (vecIssue 8 a ev vecSameRows s)

end Sys2Proof.Machine
end

