-- ==== Sys2Proof/Machine/Attend.lean ====
section
/-! DEFINITION. ATTEND (R169 to R189, R200 to R203): allowed keys, the online softmax, partial records and their folds, the
append, the probability store and the Ferry source. -/

namespace Sys2Proof.Machine

/-- State of a query row (R179). -/
structure AttRow where
  m : Word
  l : Word
  o : List Word
  keys : Nat
  nonf : Bool
deriving DecidableEq, Repr

/-- Minus infinity in FP32. -/
def negInf : Word := 0xFF800000
/-- A fresh row state. -/
def freshRow (dim : Nat) : AttRow := { m := negInf, l := 0, o := List.replicate dim 0, keys := 0, nonf := false }
/-- Saturation of KEYS. -/
def satKeys (n : Nat) : Nat := min n (2 ^ 25 - 1)

/-- Format of the probabilities. -/
def probFmt (c : List Word) : Fmt := if aPFp8 c then .e4m3 else .bf16
/-- An FP32 value rounded to a format, as FP32. -/
def roundTo (f : Fmt) (w : Word) : Word := (decWide f (convert f .rne (f32 w)).code).toF32

/-! One tile of one row (R179). -/

/-- Probabilities × values of one tile: keys that are not allowed form no product. -/
def probValues (pf fv : Fmt) (dim : Nat) (ok : List Bool) (ps : List Word) (vs : List (List FV)) : List Word :=
  let p := ps.map f32
  (List.range dim).map fun k =>
    let col := List.zipWith (fun (b : Bool) (v : List FV) => if b then v.getD k FV.zero else FV.zero) ok vs
    accumulate (segLen pf fv false true) col.length p col [] [] 0

/-- One row over one computed tile: scores, allowed keys and values in ascending position; its state after, and the exact
probabilities with the running maximum used when the tile changed it. -/
def attendTile (pf fv : Fmt) (st : AttRow) (sc : List Word) (ok : List Bool) (vs : List (List FV)) :
    AttRow × Option (List Word × Word) :=
  let live := (List.zip ok sc).filterMap fun x => if x.1 then some x.2 else none
  let bad (w : Word) : Bool := fisNan w || w == 0x7F800000
  let keys := satKeys (st.keys + live.length)
  let nonf := st.nonf || live.any bad
  let mt := live.foldl (fun m w => if bad w then m else if flt m w then w else m) negInf
  if nonf ∨ mt = negInf then ({ st with keys, nonf }, none)
  else
    let mn := if flt mt st.m then st.m else mt
    let a := if st.m = negInf then 0 else vexp (fsub st.m mn)
    let es := List.zipWith (fun (b : Bool) (w : Word) => if b then vexp (fsub w mn) else 0) ok sc
    let ps := List.zipWith (fun (b : Bool) (w : Word) => if b then roundTo pf w else 0) ok es
    let sum := ps.foldl fadd 0
    let u := probValues pf fv st.o.length ok ps vs
    ({ m := mn, l := fadd (fmul st.l a) sum, o := List.zipWith (fun x y => fadd (fmul x a) y) st.o u, keys, nonf }, some (es, mn))

/-- Fold row state `b` into `st` (R182). -/
def foldRow (st b : AttRow) : AttRow :=
  let keys := satKeys (st.keys + b.keys)
  let nonf := st.nonf || b.nonf
  if nonf ∨ b.m = negInf then { st with keys, nonf }
  else if st.m = negInf then { b with keys, nonf }
  else
    let mn := if flt b.m st.m then st.m else b.m
    let a := vexp (fsub st.m mn)
    let c := vexp (fsub b.m mn)
    { m := mn, l := fadd (fmul st.l a) (fmul b.l c), o := List.zipWith (fun x y => fadd (fmul x a) (fmul y c)) st.o b.o, keys, nonf }

/-- The status word of a row (R180). -/
def rowStatus (r : AttRow) : Word := w32 (b2n (r.m == negInf) + 2 * b2n r.nonf + 128 * r.keys)
/-- The words of a partial record (R180). -/
def rowRecord (r : AttRow) : List Word := [r.m, r.l, rowStatus r, 0] ++ r.o
/-- A row state from its partial record. -/
def recordRow (dim : Nat) (ws : List Word) : AttRow :=
  { m := wordAt ws 0, l := wordAt ws 1, o := slice ws 4 dim, keys := fld (wordAt ws 2) 7 25, nonf := bitOf (wordAt ws 2) 1 }
/-- The row states of a partial record set at a flat SRAM address. -/
def recordSetAt (s : State) (rows dim x : Nat) : List AttRow :=
  (List.range rows).map fun r => recordRow dim (f32Read s (x + r * (4 + dim) * 4) (4 + dim))

/-- A row finalised (R181): output codes, log-sum-exp, state, saturations. -/
def finalRow (fo : Fmt) (r : AttRow) : List Nat × Word × AttRow × Nat :=
  if r.nonf then (List.replicate r.o.length fo.canonNaN, 0x7FC00000, r, 0)
  else if r.m = negInf then (List.replicate r.o.length 0, negInf, r, 0)
  else
    let k := vrecip r.l
    let cs := r.o.map fun w => convert fo .rne (f32 (fmul w k))
    let bad := cs.any fun c => (decWide fo c.code).nonFinite
    (cs.map fun c => c.code, fadd r.m (vln r.l), { r with nonf := bad }, (cs.filter fun c => c.saturated).length)

/-! Keys, values and their places (R174, R185, R200). -/

/-- The table that an ATTEND names. -/
def attTable (c : List Word) : Nat × Nat × Nat × Nat × Fmt × Fmt := kvParams c
/-- The step's record of a slot. -/
def seqUseOf (s : State) (p step slot : Nat) : Option SeqUse :=
  (stepRec s p step).bind fun r => r.seqs.find? fun u => u.slot == slot
/-- Tokens that a step has appended to a head so far. -/
def appendedTo (s : State) (p step slot table head : Nat) : Nat :=
  ((stepRec s p step).map fun r =>
    ((r.appended.filter fun x => x.1 == slot && x.2.1 == table && x.2.2.1 == head).map fun x => x.2.2.2).sum).getD 0
/-- First position and count of the keys that a source holds. -/
def heldRange (s : State) (p step : Nat) (c : List Word) : Nat × Nat :=
  if aFerry c then
    let h := wordsOfBytes (hbmRead s p (aFerryBuf c) 64)
    ((wordAt h 1).toNat, (wordAt h 2).toNat)
  else
    let e := slotAt s p (aSlot c)
    (e.basePos, e.length + appendedTo s p step (aSlot c) (aTable c) (aHead c))
/-- Positions that R174 admits: first, and one past the last. -/
def keyRange (s : State) (p step : Nat) (c : List Word) : Nat × Nat :=
  let h := heldRange s p step c
  (max (aKeyFirst c) h.1, min (aKeyFirst c + aKeyCount c) (h.1 + h.2))
/-- Index in the page list of the page that holds token i of a slot. -/
def pageIndex (s : State) (p : Nat) (c : List Word) (i : Nat) : Nat :=
  tableStart (tablesOf s p) (slotAt s p (aSlot c)).maxLen (aTable c) + i / pageTokens (aPageCode c)
/-- HBM offset of the head's K region in the page that holds token i of the source. -/
def headOff (s : State) (p : Nat) (c : List Word) (i : Nat) : Nat :=
  let t := attTable c
  (if aFerry c then aFerryBuf c + 64 + i / t.2.1 * (4096 * pageUnits t)
   else 4096 * (tgetD (slotAt s p (aSlot c)).pages (pageIndex s p c i) {}).frame) + aHead c * headBytes t
/-- First parcel and parcels that hold the key of a token of a page. -/
def keyParcels (c : List Word) (tk : Nat) : Nat × Nat :=
  let nb := aDim c / (aFmtK c).blockLen
  (tk * nb / 7, (tk * nb + nb - 1) / 7 + 1 - tk * nb / 7)
/-- The parcels that hold the key of token i. -/
def keyBytes (s : State) (p : Nat) (c : List Word) (i : Nat) : List (List Byte) :=
  let q := keyParcels c (i % pageTokens (aPageCode c))
  (List.range q.2).map fun j => hbmRead s p (headOff s p c i + 64 * (q.1 + j)) 64
/-- The key of token i: its elements and the scales of its blocks. -/
def keyOf (s : State) (p : Nat) (c : List Word) (i : Nat) : List FV × List FV :=
  let f := aFmtK c
  let tk := i % pageTokens (aPageCode c)
  if f.isBlock then
    let nb := aDim c / f.blockLen
    let ps := keyBytes s p c i
    let bs := (List.range nb).map fun j => parcelBlock (ps.getD ((tk * nb + j) / 7 - tk * nb / 7) []) ((tk * nb + j) % 7)
    (bs.flatMap fun b => (List.range f.blockLen).map (b.elem f), bs.map fun b => ue5m3Val b.scale.toNat)
  else (wideElems f (aDim c) (hbmRead s p (headOff s p c i + tk * aDim c * f.bytes) (aDim c * f.bytes)), [])
/-- HBM offset of the value of token i. -/
def valueOff (s : State) (p : Nat) (c : List Word) (i : Nat) : Nat :=
  headOff s p c i + roundUp (kBytes (pageTokens (aPageCode c)) (aDim c) (aFmtK c)) 64 +
    i % pageTokens (aPageCode c) * aDim c * (aFmtV c).bytes
/-- The value of token i. -/
def valueOf (s : State) (p : Nat) (c : List Word) (i : Nat) : List FV :=
  wideElems (aFmtV c) (aDim c) (hbmRead s p (valueOff s p c i) (aDim c * (aFmtV c).bytes))

/-! Allowed keys (R175, R176). -/

/-- Key k is allowed for a row at position q, the range and the bitmap apart. -/
def keyAllowed (c : List Word) (q k : Nat) : Bool :=
  (match aCausal c with
    | 1 => decide (k ≤ q)
    | 2 => decide (k < q)
    | _ => true) &&
  (!aWindow c || if aCausal c = 0 then decide (max q k - min q k < aWinLen c) else decide (q < k + aWinLen c))
/-- Flat address of an operand of an ATTEND. -/
def attAddr (a : At) (c : List Word) (w : Nat) : Nat := flatOf a.cluster.val (cCore c) (adr (wordAt c w)).1 (adr (wordAt c w)).2
/-- Positions of the query rows. -/
def rowPositions (s : State) (a : At) (c : List Word) : List Nat :=
  (f32Read s (attAddr a c 9) (aRows c)).map fun w => fld w 0 24
/-- Bit t of the key-tile bitmap. -/
def tileBit (s : State) (a : At) (c : List Word) (t : Nat) : Bool :=
  !aMaskOn c || bitOf (w32 (natOfBytes (sramRead s (attAddr a c 17 + t / 8) 1))) (t % 8)
/-- Which keys of tile t each row is allowed. -/
def tileMask (s : State) (a : At) (c : List Word) (qs : List Nat) (t : Nat) : List (List Bool) :=
  let r := keyRange s a.part.val a.step c
  let bit := tileBit s a c t
  qs.map fun q => (List.range 64).map fun j =>
    let k := aKeyFirst c + 64 * t + j
    bit && decide (r.1 ≤ k ∧ k < r.2) && keyAllowed c q k
/-- The tiles of an ATTEND that are computed, with their masks. -/
def liveTiles (s : State) (a : At) (c : List Word) : List (Nat × List (List Bool)) :=
  let qs := rowPositions s a c
  ((List.range (cdiv (aKeyCount c) 64)).map fun t => (t, tileMask s a c qs t)).filter fun x => x.2.any fun r => r.any id
/-- Keys of a tile that some row is allowed, as tokens of the source. -/
def liveKeys (s : State) (p step : Nat) (c : List Word) (x : Nat × List (List Bool)) : List Nat :=
  ((List.range 64).filter fun j => x.2.any fun r => r.getD j false).map fun j =>
    aKeyFirst c + 64 * x.1 + j - (heldRange s p step c).1

/-! Computation over the key range. -/

/-- Elements of the query rows. -/
def queryRows (s : State) (a : At) (c : List Word) : List (List FV) :=
  let n := aDim c * (aFmtQ c).bytes
  (List.range (aRows c)).map fun r => wideElems (aFmtQ c) (aDim c) (sramRead s (attAddr a c 8 + r * n) n)

/-- One computed tile for every row: the states after it, and per row what the probability store takes. -/
def tileStep (s : State) (a : At) (c : List Word) (qs : List (List FV)) (x : Nat × List (List Bool)) (rows : List AttRow) :
    List (AttRow × Option (List Word × Word)) :=
  let p := a.part.val
  let base := (heldRange s p a.step c).1
  let need := (List.range 64).map fun j => x.2.any fun r => r.getD j false
  let tok (j : Nat) : Nat := aKeyFirst c + 64 * x.1 + j - base
  let ks := (List.range 64).map fun j => if need.getD j false then keyOf s p c (tok j) else ([], [])
  let vs := (List.range 64).map fun j => if need.getD j false then valueOf s p c (tok j) else []
  (List.range rows.length).map fun r =>
    let q := qs.getD r []
    let ok := x.2.getD r []
    let sc := List.zipWith (fun (b : Bool) (k : List FV × List FV) =>
      if b then fmul (accumulate (segLen (aFmtQ c) (aFmtK c) false false) (aDim c) q k.1 [] k.2 0) (aScale c) else 0) ok ks
    attendTile (probFmt c) (aFmtV c) (rows.getD r (freshRow (aDim c))) sc ok vs

/-- The bytes of a probability record (R202). -/
def probRecord (out : List (AttRow × Option (List Word × Word))) : List Byte :=
  let row (r : Nat) : List Word := match (out[r]?).bind fun x => x.2 with
    | some (es, _) => es
    | none => []
  ((List.range 64).flatMap fun r => (List.range 64).flatMap fun j => natBytes 2 (convert .bf16 .rne (f32 ((row r).getD j 0))).code) ++
    bytesOfWords ((List.range 64).map fun r => match out[r]? with
      | some (_, some (_, mn)) => mn
      | some (st, none) => st.m
      | none => 0)

/-- The row states over the key range, and the probability records of the computed tiles. -/
def attendRange (s : State) (a : At) (c : List Word) (tiles : List (Nat × List (List Bool))) :
    List AttRow × List (Nat × List Byte) :=
  let qs := queryRows s a c
  tiles.foldl (fun (acc : List AttRow × List (Nat × List Byte)) x =>
    let out := tileStep s a c qs x acc.1
    (out.map fun y => y.1, acc.2 ++ if aStoreP c then [(x.1, probRecord out)] else [])) (List.replicate (aRows c) (freshRow (aDim c)), [])

/-! Append (R189). -/

/-- Replace blocks `n` onward of a K region by new ones, re-forming the parcels that hold them. -/
def putBlocks (p koff n : Nat) (bs : List Block) (s : State) : State :=
  (List.range ((n + bs.length - 1) / 7 + 1 - n / 7)).foldl (fun t i =>
    let k := n / 7 + i
    let old := hbmRead t p (koff + 64 * k) 64
    let new := (List.range 7).map fun j =>
      if n ≤ 7 * k + j ∧ 7 * k + j < n + bs.length then bs.getD (7 * k + j - n) Block.zero else parcelBlock old j
    hbmStore p (koff + 64 * k) (mkParcel new) t) s

/-- Write one appended token: its key as wide bytes or blocks, and its value. -/
def putToken (p : Nat) (c : List Word) (i : Nat) (key : List Byte) (blocks : List Block) (value : List Byte) (s : State) : State :=
  let tk := i % pageTokens (aPageCode c)
  let k := headOff s p c i
  let s1 := if (aFmtK c).isBlock then putBlocks p k (tk * (aDim c / (aFmtK c).blockLen)) blocks s
    else hbmStore p (k + tk * key.length) key s
  hbmStore p (valueOff s p c i) value s1

/-- Count the tokens that a head has gained. -/
def countAppend (p step slot table head n : Nat) (s : State) : State :=
  let old := appendedTo s p step slot table head
  modStep p step (fun r => { r with appended := (r.appended.filter fun x => !(x.1 == slot && x.2.1 == table && x.2.2.1 == head)) ++
    [(slot, table, head, old + n)] }) s

/-- Append the new rows of an ATTEND to its head. -/
def appendKeys (a : At) (c : List Word) (s : State) : State :=
  let p := a.part.val
  let n := aNew c
  let dim := aDim c
  let x := attAddr a c 18
  let start := (slotAt s p (aSlot c)).length + appendedTo s p a.step (aSlot c) (aTable c) (aHead c)
  let keys := (List.range n).map fun i => f32Read s (x + 4 * dim * i) dim
  let vals := (List.range n).map fun i => f32Read s (x + 4 * dim * (n + i)) dim
  let vq := convertRows (aFmtV c) (fun _ _ => .rne) vals
  let bq := if (aFmtK c).isBlock then keys.map (quantRow (aFmtK c) fun _ => .rne) else []
  let kq := if (aFmtK c).isBlock then ([], 0, 0) else convertRows (aFmtK c) (fun _ _ => .rne) keys
  let s1 := (List.range n).foldl (fun t i =>
    putToken p c (start + i) (kq.1.getD i []) ((bq.getD i []).map fun b => b.block) (vq.1.getD i []) t) s
  let s2 := countConv p (kq.2.1 + vq.2.1) (kq.2.2 + vq.2.2) s1
  let bytes := n * (aDim c * (aFmtV c).bytes + if (aFmtK c).isBlock then 9 * (dim / (aFmtK c).blockLen) else dim * (aFmtK c).bytes)
  let s3 := countAppend p a.step (aSlot c) (aTable c) (aHead c) n (cntAdd p (cMemory + 1) (cdiv bytes 64) s2)
  if ¬ (aFmtK c).isBlock then s3
  else
    let base := (slotAt s p (aSlot c)).basePos
    (List.range (cdiv n 64)).foldl (fun t i =>
      let rows := slice bq (64 * i) 64
      let elem := (aSlot c * 2 ^ 32 + aHead c * 2 ^ 24 + (base + start + 64 * i)) * dim % 2 ^ 64
      let pairs := List.zip (slice keys (64 * i) 64) (rows.map fun bs => blockValues (aFmtK c) (bs.map fun b => b.block))
      quantProbes p a.step a.cluster.val (cCore c) (aOp c) elem pairs (overRows rows) (countQuant p a.step (aOp c) rows t)) s3

/-! What an ATTEND waits for and meets. -/

/-- Header of the block in the Ferry slot of an ATTEND (R200). -/
def ferryHead (s : State) (p : Nat) (c : List Word) : List Word := wordsOfBytes (hbmRead s p (aFerryBuf c) 64)
/-- Bytes of the block in the Ferry slot: its header and its pages. -/
def ferryBytes (s : State) (p : Nat) (c : List Word) : Nat :=
  let t := attTable c
  64 + cdiv (wordAt (ferryHead s p c) 2).toNat t.2.1 * (4096 * pageUnits t)
/-- The landing that brought the header of a whole block in the Ferry slot: every page landed after it. -/
def ferryWhole (s : State) (p : Nat) (c : List Word) : Option Nat :=
  let x := (partOf s p).ex
  let first := hbmIn (aFerryBuf c) / 4096
  (tget x.bulkAt first).filter fun k =>
    (List.range (cdiv (ferryBytes s p c) 4096)).all fun i => decide (k ≤ tgetD x.bulkAt (first + i) 0)
/-- Its block is in the Ferry slot whole: the header names the step, and its range holds the keys of the ATTEND, whose KEY_FIRST
is that of its round's block (R200; DEDUCED, log 126). -/
def ferryThere (s : State) (p step : Nat) (c : List Word) : Bool :=
  let h := ferryHead s p c
  let first := (wordAt h 1).toNat
  (ferryWhole s p c).isSome && dwordAt h 4 == step && decide (first ≤ aKeyFirst c ∧ aKeyFirst c < first + max (wordAt h 2).toNat 1)

/-! Blocks that land in a Ferry slot (R200, R206). -/

/-- The ATTENDs of a partition's image that read Ferry slots. -/
def imgFerries (s : State) (p : Nat) : List (List Word) := (imgCmds (imgOf s p)).filter fun c => cOp c == 4 && aFerry c
/-- A command of a list reads the Ferry slot of an ATTEND: an ATTEND of it, or a PUSH that forwards its block. -/
def readsFerry (s : State) (p : Nat) (c k : List Word) : Bool :=
  (cOp k == 4 && aFerry k && aFerryBuf k == aFerryBuf c) ||
  (cOp k == 5 && rMode k == 5 && rFarKind k == 2 && meets (rFar k) (rBytes k) (aFerryBuf c) (ferryBytes s p c))
/-- A list still works on the block in a Ferry slot, before the next block of the slot: a command of it stands before an ATTEND
whose block is still to come, or in the list of a step before that of the block that lands. -/
def roundOpen (s : State) (p land : Nat) (c : List Word) (r : Run) : Bool :=
  let ks := r.todo.map fun k => k.words
  let mine := ks.takeWhile fun k => !(cOp k == 4 && aFerry k && aFerryBuf k == aFerryBuf c && !ferryThere s p r.step k)
  r.part == p && (decide (mine.length < ks.length) || decide (r.step < land)) && mine.any (readsFerry s p c)
/-- A push that brings the header of a block to a Ferry slot whose block is still in use must wait (R200). -/
def ferryBusy (s : State) (p off : Nat) (data : List Byte) : Bool :=
  (imgFerries s p).any fun c => aFerryBuf c == off && decide (64 ≤ data.length) &&
    s.x.clusters.any fun k => k.2.runs.any (roundOpen s p (dwordAt (wordsOfBytes (data.take 64)) 4) c)
/-- Count the blocks that a landing has made whole: `old` is the state before it. -/
def countFerry (p : Nat) (old s : State) : State :=
  let bufs := ((imgFerries s p).map fun c => (aFerryBuf c, c)).foldl (fun t x => if t.any (fun y => y.1 == x.1) then t else t ++ [x]) []
  cntAdd p (cAttend + 10) ((bufs.filter fun x => (ferryWhole s p x.2).isSome && ferryWhole old p x.2 != ferryWhole s p x.2).length) s
/-- Bytes land in a partition's data region as BULKs bring them (R200, R316). -/
def bulkLand (p off : Nat) (bs : List Byte) (s : State) : State :=
  countFerry p s (modEx p (fun e => { e with
    bulkN := e.bulkN + 1
    bulkAt := (chunkPages (hbmIn off) bs.length).foldl (fun t q => tset t q (e.bulkN + 1)) e.bulkAt }) (hbmStore p off bs s))
where
  /-- The 4 KiB pages that a range touches. -/
  chunkPages (x n : Nat) : List Nat :=
    if n = 0 then [] else (List.range ((x + n - 1) / 4096 + 1 - x / 4096)).map fun i => x / 4096 + i

/-- What else holds an ATTEND: its Ferry block, appends of its head that have not completed, the pages that are being fetched
again, and a full Chamois queue. -/
def attendHold (a : At) (c : List Word) (s : State) : List Nat :=
  let p := a.part.val
  if aRows c = 0 ∨ aMode c = 2 then []
  else if aFerry c then (if ferryThere s p a.step c then [] else [10])
  else match seqUseOf s p a.step (aSlot c) with
    | none => []
    | some u =>
      let e := slotAt s p (aSlot c)
      let beyond := decide (e.basePos + e.length < aKeyFirst c + aKeyCount c)
      let own := aAppend c && aNew c != 0
      let short := decide (appendedTo s p a.step (aSlot c) (aTable c) (aHead c) < u.newTokens)
      let open' := s.x.clusters.any fun k => k.2.outst.any fun o =>
        o.part == p && o.step == a.step && o.app == some (aSlot c, aTable c, aHead c)
      (if own && (aFmtK c).isBlock && (safeOf (imgOf s p) (aOp c)).isSome && chmFull s a.cluster.val then [6] else []) ++
      (if beyond && ((!own && short) || open') then [11] else []) ++
      (if (liveTiles s a c).any fun x => (liveKeys s p a.step c x).any fun i => pageFetching s p (aSlot c) (pageIndex s p c i)
        then [15] else [])

/-- Tokens whose key parcels an ATTEND reads, an append's neighbour in its parcel among them. -/
def keysRead (s : State) (a : At) (c : List Word) : List Nat :=
  let p := a.part.val
  let nb := aDim c / (aFmtK c).blockLen
  let start := (slotAt s p (aSlot c)).length + appendedTo s p a.step (aSlot c) (aTable c) (aHead c)
  (if aAppend c ∧ aNew c ≠ 0 ∧ start % pageTokens (aPageCode c) * nb % 7 ≠ 0 then [start - 1] else []) ++
    (liveTiles s a c).flatMap (liveKeys s p a.step c)

/-- What the reads of an ATTEND meet: SRAM parity failures, and key parcels that fail their checks, whose page is fetched from
the mirror when the position is committed and whose step is re-run otherwise (R49, R264). -/
def attendMeets (a : At) (ev : RunEvent) (c : List Word) (s : State) : Bool × State :=
  let q := meetReads a ev c s
  if ¬ q.1 ∨ aRows c = 0 ∨ aMode c = 2 ∨ ¬ (aFmtK c).isBlock ∨ (seqUseOf s a.part.val a.step (aSlot c)).isNone then q
  else
    let p := a.part.val
    let t := q.2
    match (keysRead t a c).find? fun i => (keyBytes t p c i).any fun b => !parcelOk b with
    | none => q
    | some i =>
      let t1 := cntAdd p 4 1 t
      if aFerry c ∨ (slotAt t p (aSlot c)).length ≤ i then
        let (k, t2) := draw t1
        (false, confirmedStep p a.step 3 (Config.openWord k).toNat t2)
      else (false, cntAdd p (cMemory + 6) 1 (kvPageLost p (aSlot c) (aTable c) (pageIndex t p c i) t1))

/-! The command. -/

/-- Write finalised rows with their log-sum-exps (R181), counting empty and non-finite rows. -/
def finalise (a : At) (c : List Word) (rows : List AttRow) (s : State) : State :=
  let p := a.part.val
  let fo := aFmtOut c
  let fs := rows.map (finalRow fo)
  let out := fs.mapIdx fun r f => (attAddr a c 10 + r * aDim c * fo.bytes, f.1.flatMap (elemBytes fo))
  let lse := fs.mapIdx fun r f => (attAddr a c 11 + 8 * r, bytesOfWords [f.2.1, rowStatus f.2.2.1])
  let s1 := countConv p ((fs.map fun f => f.2.2.2).sum) 0 (storeRows (out ++ lse) s)
  let n := (fs.filter fun f => f.2.2.1.nonf).length
  let s2 := cntAdd p (cAttend + 4) n (cntAdd p (cAttend + 3) ((fs.filter fun f => f.2.2.1.m == negInf).length) s1)
  if n = 0 then s2
  else onceEvent 0x0605 false p (aOp c) a.step (fs.findIdx fun f => f.2.2.1.nonf) (aHead c) s2

/-- Write a partial record set (R180). -/
def putRecords (a : At) (c : List Word) (rows : List AttRow) (s : State) : State :=
  let s1 := storeRows (rows.mapIdx fun r x => (attAddr a c 10 + r * (4 + aDim c) * 4, bytesOfWords (rowRecord x))) s
  if rows.any fun r => r.nonf then
    onceEvent 0x0605 false a.part.val (aOp c) a.step (rows.findIdx fun r => r.nonf) (aHead c) s1 else s1

/-- The share group of an ATTEND (R178). -/
def shareKey (a : At) (c : List Word) : List Nat :=
  [a.part.val, a.step, aTable c, aSlot c, aHead c, b2n (aFerry c), aKeyFirst c, aKeyCount c, aFerryBuf c]

/-- A fault of the probability store, or 0 (R202, R239). -/
def storeFault (s : State) (p : Nat) (c : List Word) (tiles : List (Nat × List (List Bool))) : Nat :=
  if ¬ aStoreP c ∨ tiles = [] then 0
  else if hbmRegion (aPStore c) ≠ 1 ∧ hbmRegion (aPStore c) < 6 then 1
  else if tiles.all fun x => mapped s p (aPStore c + 8448 * x.1) 8448 then 0 else 0xA

/-- Array cycles of one computed tile (R177): a pass of q · k, and the passes of P · V. -/
def tileCycles (c : List Word) : Nat :=
  let qk := beatOf (aFmtQ c) (aFmtK c) false false
  let pv := beatOf (probFmt c) (aFmtV c) false false
  cdiv (aDim c) qk.1 * qk.2 + aDim c / 64 * (cdiv 64 pv.1 * pv.2)
/-- A word of the accumulators after an ATTEND, which the manual leaves open: the same whenever the step runs (R154; log 46). -/
def openAcc (step op unit i : Nat) : Word :=
  w32 (natOfBytes ((List.range 4).map fun b => Config.openByte step op (2 ^ 60 + unit * 2 ^ 14 + 4 * i + b)))
/-- The core's buffers and accumulators after the passes of an ATTEND, whose first front waits for the hold of a short pass before
it (R84), and its scratch area (R71, R169). -/
def afterTiles (a : At) (c : List Word) (s : State) : State :=
  let p := a.part.val
  let key := coreKey a.cluster.val (cCore c)
  let unit := (p * 48 + imgC s a) * 8 + cCore c
  modCore key (fun q => { q with
    west := none, westData := {}, north := none, northData := {}, grp := [], group := 0, hold := 0
    acc := (List.range 4096).map (openAcc a.step (aOp c) unit) })
    (sramLoosen { start := flatOf a.cluster.val (cCore c) 0 (aScratch c), len := 262144, step := a.step, op := aOp c, unit }
      (frontStall p (dieOfCluster a.cluster.val) key 0 s))

/-- Attend over the key range: FULL and PARTIAL. -/
def attendGo (a : At) (ev : RunEvent) (c : List Word) (s : State) : State :=
  let p := a.part.val
  let cl := a.cluster.val
  let app := aAppend c && aNew c != 0
  if aRows c = 0 then s
  else match seqUseOf s p a.step (aSlot c) with
    | none => faultAt a 6 (aOp c) s
    | some u =>
      if app ∧ u.newTokens < appendedTo s p a.step (aSlot c) (aTable c) (aHead c) + aNew c then faultAt a 7 (aOp c) s
      else
        let s0 := enter a c (opdsAt s a c) { app := if app then some (aSlot c, aTable c, aHead c) else none } s
        let s1 := if app then appendKeys a c s0 else s0
        let tiles := liveTiles s1 a c
        let f := storeFault s1 p c tiles
        let beats := tiles.length * tileCycles c
        if f ≠ 0 then faultAt a f (aOp c) s1
        else
          let m := residueMeet p a.step (coreKey cl (cCore c)) beats ev.residue 0 (cntAdd p cArray beats s1)
          if (clusterOf m.2 cl).out then m.2
          else
            let t0 := m.2
            let q := attendRange t0 a c tiles
            let old := if aMode c = 1 ∧ ¬ aInit c then recordSetAt t0 (aRows c) (aDim c) (attAddr a c 12) else []
            let share := (clusterOf t0 cl).staging == shareKey a c
            let page := 64 * aDim c * (aFmtV c).bytes +
              if (aFmtK c).isBlock then 64 * cdiv (64 * (aDim c / (aFmtK c).blockLen)) 7 else 64 * aDim c * (aFmtK c).bytes
            let t1 := cntAdd p (cMemory) (if share then 0 else tiles.length * cdiv page 64)
              (modCluster cl (fun k => { k with staging := shareKey a c }) t0)
            let t2 := cntAdd p (cAttend + 2) (cdiv (aKeyCount c) 64 - tiles.length) (cntAdd p (cAttend + 1) tiles.length
              (cntAdd p cAttend 1 t1))
            let t3 := q.2.foldl (fun t x => hbmStore p (aPStore c + 8448 * x.1) x.2 t)
              (cntAdd p (cMemory + 1) (132 * q.2.length) (cntAdd p (cAttend + 11) q.2.length t2))
            let t4 := if tiles = [] then t3 else afterTiles a c t3
            if aMode c = 1 then putRecords a c (if old = [] then q.1 else List.zipWith foldRow old q.1) t4
            else finalise a c q.1 t4

/-- ATTEND of a mode. -/
def isAttend (mode : Nat) (c : List Word) : Bool := cOp c == 4 && aMode c == mode

/-- ATTEND FULL (R169 to R181). -/
def execAttendFull (a : At) (ev : RunEvent) (s : State) : Host.Outcome State Fault Refusal :=
  .next (issueWith a (isAttend 0) (attendHold a) (attendMeets a ev) (fun _ c t => attendGo a ev c t) s)
/-- ATTEND PARTIAL (R182). -/
def execAttendPartial (a : At) (ev : RunEvent) (s : State) : Host.Outcome State Fault Refusal :=
  .next (issueWith a (isAttend 1) (attendHold a) (attendMeets a ev) (fun _ c t => attendGo a ev c t) s)

/-- Fold the record sets of a MERGE in ascending order and finalise. -/
def mergeGo (a : At) (c : List Word) (s : State) : State :=
  if aRows c = 0 then s
  else
    let rows := (List.range (aPartCount c)).foldl (fun st i =>
      List.zipWith foldRow st (recordSetAt s (aRows c) (aDim c) (attAddr a c 12 + i * aPartStride c)))
      (List.replicate (aRows c) (freshRow (aDim c)))
    finalise a c rows (cntAdd a.part.val cAttend 1 (enter a c (opdsAt s a c) {} s))
/-- ATTEND MERGE (R182). -/
def execAttendMerge (a : At) (ev : RunEvent) (s : State) : Host.Outcome State Fault Refusal :=
  .next (issueWith a (isAttend 2) (attendHold a) (attendMeets a ev) (fun _ c t => mergeGo a c t) s)

end Sys2Proof.Machine
end

