-- ==== Sys2Proof/Machine/Chamois.lean ====
section
/-! DEFINITION. Judging Chamois probes: the reference and the error metric, tile fall-back, escalation and the storm governor
(R104 to R109, R113 to R119, R125). -/

namespace Sys2Proof.Machine

/-! The error (R105 to R107). -/

/-- Error of a probe as FP32 (R106): `ys` the narrow side, `zs` the reference side. -/
def probeError (ys zs : List Word) (floor : Word) : Word :=
  let n := zs.length
  if n = 0 then 0
  else
    let ss := zs.foldl (fun (acc : FV) z => (acc.add ((f32 z).mul (f32 z)).toF64).toF64) FV.zero
    let den0 := sqrt64 (div64 ss (FV.ofInt n))
    let den := if den0.lt (f32 floor) then f32 floor else den0
    let ds := List.zipWith (fun (y z : Word) =>
      match f32 y, f32 z with
      | .inf a, .inf b => if a = b then some FV.zero else none
      | u, v => if u.nonFinite || v.nonFinite then none else some ((u.add v.neg).toF64).abs) ys zs
    if ds.any (fun d => d.isNone) then 0x7F800000
    else
      let worst := ds.foldl (fun (w : FV) d => match d with
        | some x => if w.lt x then x else w
        | none => w) FV.zero
      (div64 worst den).toF32

/-- The activation vector of an output of a product probe, decoded exactly with its block scales: that of row `i` of operand A
or of column `i` of operand B. -/
def activationVec (b : Bool) (g : GroupPass) (i : Nat) : List FV :=
  let d := g.words
  let f := if b then pFmtA d else pFmtB d
  let t := if b then pTransA d else pTransB d
  let n := if b then (pLinesA d).2 else (pLinesB d).2
  let v := sideVec f t (decodeLines f n (if b then g.a else g.b)) i
  if v.2 = [] then v.1 else v.1.mapIdx fun k x => x.mul (v.2.getD (k / f.blockLen) FV.zero)

/-- Bytes of an operation's reference slice, as the restore has written them into the stage's reference region (R104): the
shards of the piece lie where their restore entries put them. -/
def refRead (s : State) (st : Stage) (op off n : Nat) : List Byte :=
  let mf := s.bnd.manifest
  let xs := pieceShards mf 4 (stageImage st) op 0
  match xs[off / 2 ^ 24]? with
  | none => List.replicate n 0
  | some sh =>
    match st.entries.find? fun e => reShard e == sh with
    | none => List.replicate n 0
    | some e => hbmReadFlat s ((64 + st.slot) * 2 ^ 52 + reDst e + off % 2 ^ 24) n
/-- The BF16 reference weight of an output channel at a reduction index (R104, R105). -/
def refWeight (s : State) (p op chan k : Nat) : Nat :=
  ((stageOf s p).map fun st => natOfBytes (refRead s st op (Config.refOffset op chan k) 2)).getD 0

/-- The reference side of a product probe (R105): each output is the sum of exact products of its activations and reference
weights, rounded once, times the activation-side scale, rounded once. -/
def referenceSide (s : State) (b : Bool) (q : Probe) : List Word :=
  (List.range q.chans.2).map fun j =>
    let col := q.chans.1 + j
    let act := q.grp.flatMap fun g => activationVec b g (if b then q.row else col)
    let chan := firstChannel b q.pass + if b then col else q.row
    let z := (FV.sum (act.mapIdx fun k a => a.mul (decWide .bf16 (refWeight s q.part q.op chan k)))).toF32
    scaleBy z (q.scales.getD j none)

/-! Tile fall-back (R113 to R116). -/

/-- Where the weight operand of a pass stands in the FP8 piece of its operation: in the part of the stream entry that covers it
(log 36). -/
def fp8Start (ws : List Word) (op w : Nat) (f : Fmt) : Nat :=
  match ((List.range (pfStreams ws)).map (pfStream ws)).find? fun x => seOp x == op && decide (seSrc x ≤ w ∧ w < seSrc x + seBase x) with
  | some x => fp8Offset ws x + fp8At f (w - seSrc x)
  | none => fp8At f w
/-- Offset and bytes in its piece of what a pass of a tile reads at a wider rung than the one it was streamed at. -/
def tileRange (s : State) (st : Stage) (p rung : Nat) (g : GroupPass) : Nat × Nat :=
  let q := weightSide (weightB s p (pOp g.words)) g.words
  match g.src with
  | none => (0, 0)
  | some w =>
    if rung = 1 then ((pieceOffset s st w).getD 0, spanBytes q.1.1 q.2.1 (lineBytes q.2.2 q.1.2))
    else (fp8Start (imgOf s p) (pOp g.words) w q.2.2, spanBytes q.1.1 (fp8At q.2.2 q.2.1) q.1.2)
/-- Chunks of a wider rung that a tile's weight operand covers. -/
def tileChunks (s : State) (p rung : Nat) (q : Probe) : List Nat :=
  match stageOf s p with
  | none => []
  | some st => (q.grp.flatMap fun g =>
      if g.rung = rung then [] else let r := tileRange s st p rung g; chunksOf r.1 r.2).eraseDups
/-- Lines of a pass's weight operand in a rung's own data, from where it stands there, as a die reads it. -/
def pieceLines (s : State) (st : Stage) (die rung op off count stride n : Nat) : List (List Byte) :=
  (List.range count).map fun i => rungRead s st die op rung (off + i * stride) n
/-- A pass of a tile as it runs again at a wider rung on a die, with its rung data read through the rung cache (R114). -/
def passAt (s : State) (p die rung : Nat) (g : GroupPass) : GroupPass :=
  let b := weightB s p (pOp g.words)
  let q := weightSide b g.words
  if g.rung = rung then g
  else match stageOf s p with
    | none => { g with rung }
    | some st =>
      let off := (tileRange s st p rung g).1
      if rung = 1 then { g with rung, res := pieceLines s st die 1 (pOp g.words) off q.1.1 q.2.1 (lineBytes q.2.2 q.1.2) }
      else
        let ls := pieceLines s st die 2 (pOp g.words) off q.1.1 (fp8At q.2.2 q.2.1) q.1.2
        let h := { g with rung, res := [], words := fp8Words b (fp8Code s p (pOp g.words)) g.words }
        if b then { h with b := ls } else { h with a := ls }

/-- The rung at which the tile ran first. -/
def firstRung (q : Probe) : Nat := (q.grp.getLast?.map fun g => g.rung).getD 0
/-- Compute die whose core runs a probe's tile. -/
def tileDie (q : Probe) : Nat := dieOfCluster q.cluster
/-- A probe can be judged: its tile's rung data is resident, and no unit of it is being fetched again (R266). -/
def probeReady (s : State) (q : Probe) : Bool :=
  !q.product || q.rung == firstRung q ||
    match stageOf s q.part with
    | some st =>
      let cs := tileChunks s q.part q.rung q
      allResident st (tileDie q) q.op q.rung cs && !rungFetching s st (tileDie q) q.op q.rung cs
    | none => true
/-- The passes of a probe's tile at its rung. -/
def tileGroup (s : State) (q : Probe) : List GroupPass := q.grp.map (passAt s q.part (tileDie q) q.rung)
/-- Parcels and TERN bytes of the rung data of a re-run tile that fail their checks (R41, R49). -/
def tileBad (s : State) (q : Probe) : Nat × Nat :=
  if q.rung = firstRung q then (0, 0)
  else
    let bs := (tileGroup s q).map fun g =>
      let w := weightSide (weightB s q.part q.op) g.words
      badLines w.2.2 w.1.2 g.res
    ((bs.map fun x => x.1).sum, (bs.map fun x => x.2).sum)
/-- The tile re-run at the probe's rung: narrow side, drained rows, saturations, NaNs. -/
def tileAt (s : State) (q : Probe) : List Word × List (Nat × List Byte) × Nat × Nat :=
  if q.rung = firstRung q then (q.y, q.held, 0, 0)
  else
    let rows := scaledTile s q.cluster (q.core % 8) q.pass (groupAcc (weightB s q.part q.op) (tileGroup s q))
    let d := drainRows s q.part q.step q.cluster (q.core % 8) q.pass rows
    (narrowSide rows q.row q.chans.1 q.chans.2, d.1, d.2.1, d.2.2)

/-- A probe leaves a unit's queue, and one that waits for room takes its place (R109). -/
def dequeue (die id : Nat) (s : State) : State := modChm die (fun u => refill { u with queue := u.queue.filter fun q => q.id != id }) s
/-- A tile has used its rung data: chunks that were streamed for it are dropped (R124), and its wait counts for its step. -/
def usedTile (q : Probe) (s : State) : State :=
  if q.rung = firstRung q then s
  else
    let s1 := modStep q.part q.step (fun r => { r with rungWaits := tmod r.rungWaits q.cluster 0 (· + (s.now - q.since)) }) s
    match stageOf s1 q.part with
    | some st => useChunks st.slot (tileDie q) q.op q.rung (tileChunks s1 q.part q.rung q) s1
    | none => s1
/-- A tile's results are released to their consumers. -/
def releaseTile (q : Probe) (rows : List (Nat × List Byte)) (s : State) : State :=
  storeRows rows (modCluster q.cluster (fun c => { c with
    outst := c.outst.map fun o => { o with probes := o.probes.filter fun k => k != q.id } }) s)

/-! Escalation and storms (R115, R117 to R119, R125). -/

/-- What a storm brings: the operations newly pinned are asked for, and event 0x0405 is written. The manual gives no rounding of the
pending 64 KiB chunks to MiB: it is free (DESIGN CHOICE, log 28). -/
def stormBegins (p step : Nat) (pinned : List Nat) (s : State) : State :=
  let im := manifestImage s p
  let s2 := pinned.foldl (fun t op => askRung p (step + 2) op (widerRung s.bnd.manifest im op 0) t) s
  let waits := ((stageOf s2 p).map fun st => (st.reqs.filter fun r => r.part == p).length).getD 0
  logEvent 0x0405 false p noOp step pinned.length (mibOf (65536 * waits) (2 ^ 20)) s2

/-- Operations that a storm from step + 2 would newly pin. -/
def newlyPinned (s : State) (p step : Nat) : List Nat :=
  let ws := imgOf s p
  (safeOps ws).filter fun op =>
    decide (widerRung s.bnd.manifest (manifestImage s p) op 0 ≤ ((safeOf ws op).map sgTop).getD 0) && rungOf s p op (step + 2) == 0

/-- A failed product probe of a step counts towards its layer's escalation, and may make it (R118, R119). A re-run of the step
meets the same failure and decides nothing anew (R103, R121). -/
def probeFailed (v : FbEvt) (p : Nat) (s : State) : State :=
  if v ∈ (partOf s p).fb.evts then s
  else
    let q := fbApply s p v (partOf s p).fb.cur
    let s1 := modFb p (fun f => { f with cur := q.1, evts := f.evts ++ [v] }) s
    match q.2.climb with
    | none => s1
    | some (new, big) =>
      let s2 := logEvent 0x0402 false p v.op v.step (new + 4 * b2n big) v.e.toNat (cntAdd p (cChamois + 7) 1 s1)
      let s3 := askRung p (v.step + 2) v.op new s2
      if ¬ q.2.storm then s3
      else
        let before := modFb p (fun f => { f with cur := { f.cur with storms := (partOf s p).fb.cur.storms } }) s3
        stormBegins p v.step (newlyPinned before p v.step) s3

/-- A failure at the top rung is counted, and reported once per operation and window (R115). -/
def topExceeded (p step op rung : Nat) (e : Word) (s : State) : State :=
  let s1 := cntAdd p (cChamois + 8) 1 s
  let key := (0x0403 + 2 ^ 16 * (op + 1), windowOf step)
  if key ∈ (partOf s1 p).run.fired then s1
  else logEvent 0x0403 false p op step rung e.toNat (modRun p (fun r => { r with fired := r.fired ++ [key] }) s1)

/-! PROBE_COMPLETE. -/

/-- A probe's tile waits for the chunks of its rung (R114, R116). -/
def awaitRung (die : Nat) (q : Probe) (s : State) : State :=
  let s1 := match stageOf s q.part with
    | some st => askChunks st.slot q.part true q.step (tileDie q) q.op q.rung (tileChunks s q.part q.rung q) s
    | none => s
  modChm die (fun u => { u with queue := u.queue.map fun x => if x.id = q.id then q else x }) s1

/-- The rung data of a tile fails its checks: it is counted, and its units are fetched again, each in the repair slot or, where it
was only streamed, as a chunk (R41, R49, R264). -/
def refetchTile (die : Nat) (q : Probe) (bad : Nat × Nat) (s : State) : State :=
  let cs := tileChunks s q.part q.rung q
  let s1 := cntAdd q.part (cMemory + 6) 1 (cntAdd q.part 4 bad.1 (cntAdd q.part 3 bad.2 s))
  let s2 := match stageOf s1 q.part with
    | some st => refetchChunks q.part st (tileDie q) q.op q.rung cs (modStage st.slot (fun x => { x with
        cache := x.cache.filter fun u => !(u.once && cs.any fun c => isChunk (tileDie q) q.op q.rung c u) }) s1)
    | none => s1
  awaitRung die q s2

/-- Judge a product probe. A failure at a rung that can be climbed re-runs the tile at the next one, in the probe's place in the
queue. The manual does not say whether a re-probe counts under probes_product: the tile's probe counts once, not again for each
rung (DESIGN CHOICE, log 134). -/
def judgeProduct (die : Nat) (q : Probe) (r : List Word) (s : State) : State :=
  let t := tileAt s q
  let e := probeError t.1 (referenceSide s (sgSideB r) q) (wordAt r 4)
  let s1 := usedTile q (countConv q.part t.2.2.1 t.2.2.2 s)
  if ¬ flt (wordAt r 3) e then releaseTile q t.2.1 (dequeue die q.id s1)
  else
    let s2 := probeFailed { step := q.step, op := q.op, elem := pElem q.pass, rung := q.rung, e } q.part
      (cntAdd q.part (cChamois + 3) 1 s1)
    let new := widerRung s.bnd.manifest (manifestImage s q.part) q.op q.rung
    if q.rung < new ∧ new ≤ sgTop r then
      awaitRung die { q with rung := new, since := s.now } (cntAdd q.part (cChamois + 6) 1 s2)
    else releaseTile q t.2.1 (dequeue die q.id (topExceeded q.part q.step q.op q.rung e s2))

/-- Judge a quantisation probe: source elements that are NaN are left out (R107). -/
def judgeQuant (die : Nat) (q : Probe) (r : List Word) (s : State) : State :=
  let live := (List.zip q.y q.z).filter fun x => !fisNan x.2
  let e := if live.any fun x => fnonFinite x.2 then 0x7F800000
    else probeError (live.map fun x => x.1) (live.map fun x => x.2) (wordAt r 7)
  let s1 := dequeue die q.id s
  if ¬ flt (wordAt r 6) e then s1
  else stepEvent 0x0404 q.part q.op q.step q.row e.toNat (cntAdd q.part (cChamois + 4) 1 s1)

/-- A lost probe's tile proceeds as if the probe had passed at the rung it had climbed to (R108). -/
def proceed (die : Nat) (q : Probe) (s : State) : State :=
  if ¬ q.product then dequeue die q.id s
  else
    let t := tileAt s q
    releaseTile q t.2.1 (dequeue die q.id (usedTile q (countConv q.part t.2.2.1 t.2.2.2 s)))

/-- A unit fails: the next working one takes its probes; without one they are lost, and their tiles proceed (R108), those that
wait for rung data once it is there. -/
def unitFails (die : Nat) (s : State) : State :=
  let u := chmOf s die
  let qs := u.queue ++ u.waiting
  let s1 := modChm die (fun u => { u with out := true, queue := [], waiting := [] }) s
  let next := chmServing s1 die
  let s2 := recordRepair 0x0B die 0 (logPkg 0x0408 true die (next.getD 0xFFFFFFFF) s1)
  match next with
  | some k => modChm k (fun u => qs.foldl (fun v q => joinQueue q v) u) s2
  | none =>
    let s3 := modChm die (fun u => { u with queue := qs.map fun q => { q with lost := true } }) s2
    qs.foldl (fun t q =>
      let t1 := cntAdd q.part (cChamois + 5) 1 t
      if probeReady t1 q then proceed die q t1 else t1) s3

/-- A probe of a unit finishes. The unit's residue check met a mismatch, for which the probe ran again, and the second run met one
`again`: then the unit has failed (R108). -/
def probeComplete (die : Nat) (mismatch again : Bool) (s : State) : State :=
  match (chmOf s die).queue.find? (probeReady s) with
  | none => s
  | some q =>
    if q.lost then proceed die q s
    else if mismatch && again then unitFails die s
    else match safeOf (imgOf s q.part) q.op with
      | none => dequeue die q.id s
      | some r =>
        if ¬ q.product then judgeQuant die q r s
        else
          let bad := tileBad s q
          if bad.1 + bad.2 ≠ 0 then refetchTile die q bad s else judgeProduct die q r s

/-- PROBE_COMPLETE (R106). -/
def execProbeComplete (die : Fin 4) (mismatch again : Bool) (s : State) : Host.Outcome State Fault Refusal :=
  .next (probeComplete die.val mismatch again s)

end Sys2Proof.Machine
end

