-- ==== Sys2Proof/Machine/Erasure.lean ====
section
/-! DEFINITION. Bond-store reads and their checks, the erasure code of a stripe group and the rebuild of a lost shard (R281 to
R287, R297). -/

namespace Sys2Proof.Machine

/-! GF(2^8) under 0x11D (R283). -/

/-- Times g = 2. -/
def gfDbl (x : Nat) : Nat := if 128 ≤ x then Nat.xor (2 * x % 256) 0x1D else 2 * x
/-- Product, by the bits of the first factor. -/
def gfMulBits : Nat → Nat → Nat → Nat
  | 0, _, _ => 0
  | k + 1, a, b => Nat.xor (if a % 2 = 1 then b else 0) (gfMulBits k (a / 2) (gfDbl b))
/-- Product. -/
def gfMul (a b : Nat) : Nat := gfMulBits 8 a b
/-- g to the power n. -/
def gfPow (n : Nat) : Nat := Nat.repeat gfDbl n 1
/-- Inverse: the power 254. -/
def gfInv (a : Nat) : Nat := Nat.repeat (fun x => gfMul (gfMul x x) a) 6 a |> fun x => gfMul x x

/-! The stripe (R283). -/

/-- Member that holds P of a stripe. -/
def parityP (stripe : Nat) : Nat := stripe % 8
/-- Member that holds Q of a stripe. -/
def parityQ (stripe : Nat) : Nat := (stripe + 1) % 8
/-- Members that hold data of a stripe, d0 first. -/
def dataMembers (stripe : Nat) : List Nat := (List.range 8).filter fun m => m != parityP stripe && m != parityQ stripe
/-- The order in which members are asked. -/
def askOrder (stripe me : Nat) : List Nat :=
  (dataMembers stripe ++ [parityP stripe, parityQ stripe]).filter (· != me)

/-- Byte j of a member's shard; bytes beyond its end are zero. -/
def shardByte (got : Tbl (List Byte)) (m j : Nat) : Option Nat := (tget got m).map fun bs => (bs.getD j 0).toNat

/-- Byte j of member `me`'s shard of a stripe, decoded from the shards of the others. -/
def decodeByte (stripe me : Nat) (got : Tbl (List Byte)) (j : Nat) : Byte :=
  let ds := (dataMembers stripe).mapIdx fun i m => (i, m)
  let known := ds.filterMap fun d => (shardByte got d.2 j).map fun b => (d.1, b)
  let x := known.foldl (fun a d => Nat.xor a d.2) 0
  let y := known.foldl (fun a d => Nat.xor a (gfMul (gfPow d.1) d.2)) 0
  let gone := (ds.filter fun d => d.2 != me && (tget got d.2).isNone).map fun d => d.1
  let a := (shardByte got (parityP stripe) j).map (Nat.xor x)
  let b := (shardByte got (parityQ stripe) j).map (Nat.xor y)
  if me = parityP stripe then
    match gone, b with
    | k :: _, some b => b8 (Nat.xor x (gfMul b (gfInv (gfPow k))))
    | _, _ => b8 x
  else if me = parityQ stripe then
    match gone, a with
    | k :: _, some a => b8 (Nat.xor y (gfMul (gfPow k) a))
    | _, _ => b8 y
  else
    let i := ((ds.find? fun d => d.2 = me).map fun d => d.1).getD 0
    match gone, a, b with
    | k :: _, some a, some b => b8 (gfMul (Nat.xor b (gfMul (gfPow k) a)) (gfInv (Nat.xor (gfPow i) (gfPow k))))
    | _, some a, _ => b8 a
    | _, none, some b => b8 (gfMul b (gfInv (gfPow i)))
    | _, none, none => 0

/-- The first `n` bytes of member `me`'s shard of a stripe. -/
def decodeShard (stripe me n : Nat) (got : Tbl (List Byte)) : List Byte := (List.range n).map (decodeByte stripe me got)

/-! Writes (R296, R297). -/

/-- Usable capacity in bytes (R1). -/
def capBytes (s : State) : Nat := if s.sec.ordering = 2 then 2 ^ 41 else 2 ^ 40
/-- CAP_WRITES: WRITTEN over the usable capacity, in thousandths. -/
def capWrites (s : State) : Nat := s.bnd.written * 1000 / capBytes s
/-- The install threshold is passed. -/
def overInstall (s : State) : Bool := decide (2000 * capBytes s < s.bnd.written)
/-- The repair threshold is passed. -/
def overRepair (s : State) : Bool := decide (2800 * capBytes s < s.bnd.written)
/-- Report a threshold that WRITTEN has crossed. -/
def crossings (s : State) : State :=
  let s1 := if s.bnd.crossed < 1 ∧ overInstall s then logPkg 0x0904 false 1 (capWrites s) (modBnd (fun b => { b with crossed := 1 }) s) else s
  if s1.bnd.crossed < 2 ∧ overRepair s1 then logPkg 0x0904 false 2 (capWrites s1) (modBnd (fun b => { b with crossed := 2 }) s1) else s1
/-- Count bytes programmed into the store. -/
def countWritten (n : Nat) (s : State) : State :=
  crossings (totAdd (tBond + 9) n (modBnd (fun b => { b with written := b.written + n }) s))

/-! Rebuild (R284 to R287). -/

/-- Readers of a shard are held: it is being rebuilt, or unrecoverable. -/
def shardHeld (s : State) (x : Nat) : Bool := decide (x ∈ s.bnd.lost) || s.bnd.rebuilds.any fun r => r.shard == x

/-- The stage that an unservable own image names: the first that the package holds for itself. -/
def ownStageId (s : State) : Nat := ((s.stages.find? fun st => !st.standby).map fun st => st.stageId).getD 0

/-- A shard is unrecoverable; `n` shards of its stripe are lost. -/
def shardGone (x n : Nat) (s : State) : State :=
  let mf := s.bnd.manifest
  let s1 := logPkg 0x0902 true x n (totAdd (tBond + 3) 1 (modBnd (fun b => { b with
    rebuilds := b.rebuilds.filter fun r => r.shard != x
    lost := if x ∈ b.lost then b.lost else b.lost ++ [x] }) s))
  if shKind mf x = 0 ∨ 6 ≤ shKind mf x then s1
  else if shImage mf x = 0 then declareFailed 2 (ownStageId s) s1
  else standbyLost 1 s1

/-- Ask one member for its shard of a stripe; tells whether the request is on its way. Word 9 names the position of this
package, which the member looks up in its own group table (R284, R315; log 54). -/
def askMember (x m : Nat) (s : State) : Bool × State :=
  let g := s.bnd.group.getD m 0
  if g < 128 then (false, s)
  else
    let data := bytesOfWords (w32 x :: mfTag s.bnd.manifest ++ [w32 (mfMember s.bnd.manifest)])
    let q := issue 0 (g % 128) serviceJob 0x06 1 none none (fabAddr (g % 128) 0 0) data.length data s
    (q.1 == 0, q.2)

/-- Change the rebuild in service. -/
def modFirst (f : Rebuild → Rebuild) (s : State) : State :=
  modBnd (fun b => { b with rebuilds := match b.rebuilds with
    | r :: rest => f r :: rest
    | [] => [] }) s

/-- The shards of a rebuild are there: decode, check and write back. -/
def finishRebuild (r : Rebuild) (s : State) : State :=
  let mf := s.bnd.manifest
  let data := decodeShard r.shard (mfMember mf) (shBytes mf r.shard) r.got
  if wordsOfBytes (sha256 data) ≠ shHash mf r.shard then shardGone r.shard (1 + r.failed.length) s
  else
    let used := (r.got.map fun g => 2 ^ g.1).sum
    let s1 := logPkg 0x0901 false r.shard used (totAdd (tBond + 2) 1 (modBnd (fun b => { b with
      rebuilds := b.rebuilds.filter fun q => q.shard != r.shard
      scrubBad := if r.scrub then b.scrubBad + 1 else b.scrubBad }) s))
    let s2 := bondWriteFlat (shardFlat r.shard) data s1
    if overRepair s then s2 else countWritten data.length (totAdd (tBond + 8) data.length s2)

/-- Carry the rebuild in service on: it ends, or asks the members that it still needs. -/
def pumpRebuild : Nat → State → State
  | 0, s => s
  | fuel + 1, s =>
    match s.bnd.rebuilds with
    | [] => s
    | r :: _ =>
      if 2 ≤ r.failed.length then pumpRebuild fuel (shardGone r.shard (1 + r.failed.length) s)
      else if 6 ≤ r.got.length then pumpRebuild fuel (finishRebuild r s)
      else if 6 ≤ r.asked.length - r.failed.length then s
      else match (askOrder r.shard (mfMember s.bnd.manifest)).find? fun m => !(decide (m ∈ r.asked)) with
        | none => s
        | some m =>
          let q := askMember r.shard m s
          pumpRebuild fuel (modFirst (fun r => { r with
            asked := r.asked ++ [m], failed := if q.1 then r.failed else r.failed ++ [m] }) q.2)
/-- As `pumpRebuild`, with fuel for every rebuild. -/
def runRebuilds (s : State) : State := pumpRebuild (12 * s.bnd.rebuilds.length + 1) s

/-- Start the rebuild of a shard, unless it is under way or gone; an unstriped manifest has none (R287). -/
def startRebuild (x : Nat) (scrub : Bool) (s : State) : State :=
  if shardHeld s x then s
  else if ¬ mfStriped s.bnd.manifest then shardGone x 1 s
  else runRebuilds (modBnd (fun b => { b with rebuilds := b.rebuilds ++ [{ shard := x, scrub }] }) s)

/-- A member's shard is lost to the rebuild in service: corrupt, unavailable or silent. -/
def memberFails (m : Nat) (s : State) : State :=
  match s.bnd.rebuilds with
  | [] => s
  | r :: _ =>
    if m ∈ r.asked ∧ m ∉ r.failed ∧ (tget r.got m).isNone then
      runRebuilds (modFirst (fun r => { r with failed := r.failed ++ [m], pieces := terase r.pieces m }) s)
    else s

/-- A 4 KiB piece of a member's shard arrives; the shard is whole with its 4,096 pieces. -/
def memberPiece (m i : Nat) (data : List Byte) (s : State) : State :=
  match s.bnd.rebuilds with
  | [] => s
  | r :: _ =>
    if m ∈ r.asked ∧ m ∉ r.failed ∧ (tget r.got m).isNone then
      let ps := tset (tgetD r.pieces m []) i data
      if ps.length < 4096 then modFirst (fun r => { r with pieces := tset r.pieces m ps }) s
      else runRebuilds (modFirst (fun r => { r with
        pieces := terase r.pieces m, got := tset r.got m (ps.flatMap fun q => q.2) }) s)
    else s

/-- A peer has been silent for 2 ms: the member asked first that has not answered (R285). -/
def peerTimeout (s : State) : State :=
  match s.bnd.rebuilds with
  | [] => s
  | r :: _ =>
    match r.asked.find? fun m => !(decide (m ∈ r.failed)) && (tget r.got m).isNone with
    | none => s
    | some m => memberFails m s
/-- REBUILD_PEER_TIMEOUT (R285). -/
def execRebuildPeerTimeout (s : State) : Host.Outcome State Fault Refusal := .next (peerTimeout s)

/-- The page checks of a chunk read of a shard (R281): counted; a failure that the second read confirms starts a rebuild. Tells
whether the chunk is good. -/
def chunkPages (x : Nat) (fails : PageFails) (s : State) : Bool × State :=
  let bad := (fails.filter fun f => f.2).length
  let s1 := totAdd (tBond + 1) bad (totAdd tBond fails.length s)
  if bad = 0 then (true, s1) else (false, startRebuild x false s1)

end Sys2Proof.Machine
end

