-- ==== Sys2Proof/Machine/Move.lean ====
section
/-! DEFINITION. MOVE (R139, R144, R239, R242): copies between SRAM, partition HBM and another cluster's inbox. -/

namespace Sys2Proof.Machine

/-- Some page that lies in a range of a partition's HBM is being fetched from the mirror. -/
def kvFetching (s : State) (p off n : Nat) : Bool :=
  s.tiers.refetch.any fun q => q.kind == 4 && q.part == p &&
    meets (4096 * (tgetD (slotAt s p q.slot).pages q.page {}).frame) (4096 * unitsOf s p q.slot q.page) off n

/-- What holds a read of a partition's HBM: a restore that has not reached it, or a unit that is being fetched again. -/
def hbmHold (s : State) (p off n : Nat) : List Nat :=
  if n = 0 then []
  else
    (if hbmRegion off = 0 ∧ ¬ ((stageOf s p).map fun st => restored st off n).getD true then [3] else []) ++
    (if flatFetching s (hbmFlat s p off) n ∨ kvFetching s p off n then [15] else [])

/-- Flat SRAM address of place `off` of inbox region r of an image cluster, for a step, with the package cluster and slot. -/
def inboxPlace (s : State) (p step c r off : Nat) : Nat × Nat × Nat :=
  let i := inboxAt s p step c r
  (i.1, i.2.2.1, (regionRng (imgOf s p) i.1 i.2.1 i.2.2.1 i.2.2.2).start + off)

/-- What else holds a MOVE: its source in HBM, and the receiver's slot (R144). -/
def moveHold (a : At) (c : List Word) (s : State) : List Nat :=
  let p := a.part.val
  let i := inboxPlace s p a.step (mDstCluster c) (mRegion c) 0
  (if mSrcKind c = 2 then hbmHold s p (mSrc c) (mBytes c) else []) ++
    (if mDstKind c = 3 ∧ mBytes c ≠ 0 ∧ ¬ slotReady s i.1 i.2.1 p a.step then [9] else [])

/-- What the reads of a MOVE meet: parcels of the weight region are checked as they arrive in SRAM (R49). -/
def moveMeets (a : At) (ev : RunEvent) (c : List Word) (s : State) : Bool × State :=
  let p := a.part.val
  let q := meetReads a ev c s
  if ¬ q.1 ∨ mSrcKind c ≠ 2 ∨ hbmRegion (mSrc c) ≠ 0 ∨ mDstKind c = 2 ∨ ¬ mapped s p (mSrc c) (mBytes c) then q
  else
    let fs := ((stageOf s p).map fun st => weightFaults q.2 p st (mSrc c) (mBytes c)).getD []
    if fs = [] then q else (false, weightFails p fs q.2)

/-- The weight-region offset that the source of a MOVE holds: its own, that of a copy, or that of the rung 0 bytes of a window
buffer. -/
def moveSrc (s : State) (a : At) (c : List Word) : Option Nat :=
  let p := a.part.val
  let x := flatOf a.cluster.val (cCore c) (mSrcKind c) (mSrc c)
  if mSrcKind c = 2 then (if hbmRegion (mSrc c) = 0 then some (mSrc c) else none)
  else match copyAt s p a.cluster.val x (mBytes c), winAt s p a.cluster.val x with
    | some k, _ => some (k.src + (x - k.at_))
    | none, some (_, w) =>
      let e := pfStream (imgOf s p) w.entry
      let off := x - flatOf a.cluster.val (seCore e) (seSpace e) (seAddr e)
      if w.rung ≤ 1 ∧ off + mBytes c ≤ seBase e then some (seSrc e + off) else none
    | none, none => none
/-- SRAM of a cluster has been filled from the weight region. -/
def noteCopy (p cluster x n : Nat) (src : Option Nat) (s : State) : State :=
  match src with
  | some k => modCluster cluster (fun c => { c with copies := c.copies ++ [{ part := p, at_ := x, bytes := n, src := k }] }) s
  | none => s

/-- Copy the bytes of a MOVE. -/
def moveGo (a : At) (c : List Word) (s : State) : State :=
  let p := a.part.val
  let n := mBytes c
  if n = 0 then s
  else if mSrcKind c = 2 ∧ ¬ mapped s p (mSrc c) n then faultAt a 0xA noOp s
  else if mDstKind c = 2 ∧ ¬ mapped s p (mDst c) n then faultAt a 0xA noOp s
  else
    let at_ (k off : Nat) : Nat := flatOf a.cluster.val (cCore c) k off
    let data := if mSrcKind c = 2 then hbmRead s p (mSrc c) n else sramRead s (at_ (mSrcKind c) (mSrc c)) n
    let i := inboxPlace s p a.step (mDstCluster c) (mRegion c) (mDst c)
    let s1 := enter a c (opdsAt s a c) { dst := if mDstKind c = 3 then some i.1 else none } s
    let s2 := if mSrcKind c = 2 then cntAdd p cMemory (cdiv n 64) s1 else s1
    match mDstKind c with
    | 2 => hbmStore p (mDst c) data (cntAdd p (cMemory + 1) (cdiv n 64) s2)
    | 3 => noteCopy p i.1 i.2.2 n (moveSrc s a c) (storeRows [(i.2.2, data)] (takeSlot i.1 i.2.1 p a.step s2))
    | k => noteCopy p a.cluster.val (at_ k (mDst c)) n (moveSrc s a c) (storeRows [(at_ k (mDst c), data)] s2)

/-- MOVE (R139). -/
def execMove (a : At) (ev : RunEvent) (s : State) : Host.Outcome State Fault Refusal :=
  .next (issueWith a (isOp 6) (moveHold a) (moveMeets a ev) (fun _ c t => moveGo a c t) s)

end Sys2Proof.Machine
end

