-- ==== Sys2Proof/Machine/Route.lean ====
section
/-! DEFINITION. Expert routing and token scatter (R207 to R236): selection, queue entries and closes, seals and rounds, returns,
combination and the push form. -/

namespace Sys2Proof.Machine

/-! Packages and partitions of a push. -/

/-- Package that a destination table and member name (R207, R232). -/
def memberPkg (s : State) (p table m : Nat) : Nat :=
  match table with
  | 0 => recEg (bank s p) m
  | 1 => recRingPkg (bank s p) m
  | _ => myPkg s
/-- The partition that serves a job on a package: the lowest one that the job entry names there, this one at home (log 22). -/
def partAt (s : State) (p dst : Nat) : Nat :=
  if dst = myPkg s then p
  else match jobOf s (recJob (bank s p)) with
    | none => p
    | some j => ((List.range 32).find? fun q => (tgetD j.parts dst 0).testBit q).getD p
/-- The plane that a cluster's traffic enters (R302). -/
def planeOf (a : At) : Nat := a.cluster.val / 12 % 2
/-- This member's number in its expert group. -/
def selfMember (s : State) (p : Nat) : Nat := recEgSelf (bank s p)

/-! Cold experts (R222, R229, R230). -/

/-- The cold slot that holds a cold expert whole. -/
def coldSlotOf (st : Stage) (x : Nat) : Option Nat := (st.cold.find? fun e => e.2.expert = x && e.2.resident).map fun e => e.1
/-- Change a cold slot. -/
def modCold (slot k : Nat) (f : ColdSlot → ColdSlot) (s : State) : State :=
  modStage slot (fun st => { st with cold := st.cold.map fun e => if e.1 = k then (k, f e.2) else e }) s
/-- An entry for a cold expert has arrived for a step: its fetch starts, or a resident copy is pinned (R229, R230). `x` is its
place in the cold-expert list, `index` its number in the map. -/
def needCold (p step x index : Nat) (s : State) : State :=
  match stageOf s p with
  | none => s
  | some st =>
    match st.cold.find? fun e => e.2.expert = x with
    | some (k, c) =>
      if (p, step) ∈ c.pins then s
      else
        let s1 := modCold st.slot k (fun c => { c with pins := c.pins ++ [(p, step)], used := s.now }) s
        if c.resident then cntAdd p (cExpert + 10) 1 s1 else s1
    | none =>
      if st.coldReqs.any (fun r => r.part == p && r.step == step && r.expert == x) then s
      else modStage st.slot (fun st => { st with coldReqs := st.coldReqs ++ [{ part := p, step, expert := x, index }] }) s
/-- A step no longer uses a cold expert. -/
def unpinCold (p step x : Nat) (s : State) : State :=
  match stageOf s p with
  | none => s
  | some st => modStage st.slot (fun st => { st with
      cold := st.cold.map fun e => if e.2.expert = x then (e.1, { e.2 with pins := e.2.pins.filter (· != (p, step)), used := s.now }) else e }) s

/-! Queues (R208, R220, R221). -/

/-- MAP of an expert map. -/
def emMap (m : EMap) : Nat := fld (wordAt m.1 0) 0 8
/-- Key of a queue of an image cluster for a step. -/
def queueKey (map step c q : Nat) : Nat := ((map * 16 + step % 16) * 48 + c) * 16 + q
/-- A queue. -/
def queueOf (s : State) (p map step c q : Nat) : Queue := tgetD (partOf s p).ex.queues (queueKey map step c q) {}
/-- Change a queue. -/
def modQueue (p map step c q : Nat) (f : Queue → Queue) (s : State) : State :=
  modEx p (fun e => { e with queues := tmod e.queues (queueKey map step c q) {} f }) s
/-- The SELECTs of an image, those of templates among them. -/
def allSelects (ws : List Word) : List (List Word) := (imgCmds ws).filter fun c => cOp c == 5 && rMode c == 0
/-- The map that an operation's SELECTs name. -/
def mapOfOp (ws : List Word) (op : Nat) : Option EMap :=
  match (allSelects ws).find? fun c => rOp c == op with
  | some c => mapOf ws (rMap c)
  | none => none
/-- HBM offset of the spill region of a map and step slot: the regions follow one another in the order of the maps (log 53). -/
def spillOff (ws : List Word) (m : EMap) (step k : Nat) : Nat :=
  let n := imgSlots ws
  let before := ((imgMaps ws).takeWhile fun x => emMap x != emMap m).map fun x => emSpill x * emEntry x * n
  4 * 2 ^ 48 + before.sum + (step % n * emSpill m + k) * emEntry m
/-- Flat SRAM address of entry i of queue q on an image cluster. -/
def queueAddr (ws : List Word) (m : EMap) (k c slot q i : Nat) : Nat :=
  clusterAddr k (cmSlotBase ws c + slot * cmSlotBytes ws c + emQueueOff m + (q * emQueueEntries m + i) * emEntry m)

/-- Place an entry in its queue, or in spill when the queue has no free slot (R220). -/
def placeEntry (p : Nat) (m : EMap) (step k q : Nat) (bs : List Byte) (s : State) : State :=
  let ws := imgOf s p
  let c := imgCluster s p k
  let map := emMap m
  let h := wordsOfBytes (bs.take 64)
  let x := fld (wordAt h 4) 0 12
  let here := ((queueOf s p map step c q).entries.filter fun e => !e.2.2).length
  let spill := decide (emQueueEntries m ≤ here)
  let sk := map * 16 + step % 16
  let n := tgetD (partOf s p).ex.spillN sk 0
  let addr := if spill then spillOff ws m step n else queueAddr ws m k c (slotNo ws c step) q here
  let s1 := modQueue p map step c q (fun z => { z with entries := z.entries ++ [(h, addr, spill)] })
    (cntAdd p (cExpert + 4) 1 (takeSlot k (slotNo ws c step) p step s))
  if spill then
      onceEvent 0x0701 false p (wordAt h 7).toNat step x (n + 1)
        (modEx p (fun e => { e with spillN := tset e.spillN sk (n + 1) })
          (cntAdd p (cMemory + 1) (cdiv bs.length 64) (cntAdd p (cExpert + 5) 1 (hbmStore p addr bs s1))))
    else storeRows [(addr, bs)] s1

/-- A whole entry has arrived for a step: the fetch of a cold expert starts then, placed or not (R229). -/
def entryArrives (p : Nat) (m : EMap) (bs : List Byte) (s : State) : State :=
  let h := wordsOfBytes (bs.take 64)
  let x := fld (wordAt h 4) 0 12
  if x < emExperts m ∧ exCold m x then needCold p (dwordAt h 0) (exWeight m x) x s else s
/-- An entry can be placed: its receiver's step slot is free for its step, or already its own (R220). -/
def entryReady (s : State) (p step k : Nat) : Bool := slotReady s k (slotNo (imgOf s p) (imgCluster s p k) step) p step
/-- An entry from this package: it is placed, or waits for the step slot. -/
def localEntry (p : Nat) (m : EMap) (step k q : Nat) (bs : List Byte) (s : State) : State :=
  let s1 := entryArrives p m bs s
  if entryReady s1 p step k then placeEntry p m step k q bs s1
  else modEx p (fun e => { e with qwait := e.qwait ++ [(emMap m, step, k, q, bs)] }) s1
/-- Counts of a close: entries sent to queues 0 to 15. -/
def closeCount (h : List Word) (q : Nat) : Nat := fld (wordAt h (4 + q / 2)) (16 * (q % 2)) 16
/-- A close has arrived at a cluster (R217, R221). -/
def recordClose (p k : Nat) (h : List Word) (s : State) : State :=
  match mapOfOp (imgOf s p) (wordAt h 3).toNat with
  | none => s
  | some m =>
    let step := dwordAt h 0
    let s := takeSlot k (slotNo (imgOf s p) (imgCluster s p k) step) p step s
    (List.range 16).foldl (fun t q => modQueue p (emMap m) step (imgCluster s p k) q (fun z => { z with
      closes := z.closes ++ [((wordAt h 2).toNat % 16, (wordAt h 3).toNat, closeCount h q)] }) t) s

/-- A close from this package: it is recorded, or waits for the step slot, as queue 16. -/
def localClose (p : Nat) (m : EMap) (k : Nat) (h : List Word) (s : State) : State :=
  if entryReady s p (dwordAt h 0) k then recordClose p k h s
  else modEx p (fun e => { e with qwait := e.qwait ++ [(emMap m, dwordAt h 0, k, 16, bytesOfWords h)] }) s
/-- Place the entries and closes that have waited and need wait no longer. -/
def drainWait (p : Nat) (s : State) : State :=
  (partOf s p).ex.qwait.foldl (fun t w =>
    match mapOf (imgOf t p) w.1 with
    | none => t
    | some m =>
      if entryReady t p w.2.1 w.2.2.1 then
        let t1 := modEx p (fun e => { e with qwait := e.qwait.erase w }) t
        if w.2.2.2.1 = 16 then recordClose p w.2.2.1 (wordsOfBytes w.2.2.2.2) t1
        else placeEntry p m w.2.1 w.2.2.1 w.2.2.2.1 w.2.2.2.2 t1
      else t) s

/-! Pushes of the scatter engine (R216 to R218, R317). -/

/-- Fragments of an entry: SUBOP and bytes. -/
def fragments (bs : List Byte) : List (Nat × List Byte) :=
  (runsOf 4096 (bs.length / 4096 + 1) bs).mapIdx fun i f => (if i = 0 then 0 else 2, f)
/-- Send queue pushes to a queue of another package: consecutive requests of one stream. -/
def sendQpush (plane p dst dp k q : Nat) (entry : List Byte) (fs : List (Nat × List Byte)) (s : State) : State :=
  (List.range fs.length).foldl (fun t i =>
    let f := fs.getD i (0, [])
    (issueKeep (if i + 1 = fs.length then entry else []) plane dst (recJob (bank t p)) 0x04 f.1 (some p) none
      (fabAddr dst dp (k * 4096 + q * 2 ^ 18)) f.2.length f.2 t).2) s
/-- Push credits in use towards a package (R218). -/
def creditsTo (s : State) (dst : Nat) : Nat := tgetD s.fab.credits dst 0
/-- Take a credit for an entry of partition `p` that its source does not turn away. -/
def takeCredit (p dst : Nat) (s : State) : State :=
  if sourceStatus s (recJob (bank s p)) dst = 0 then modFab (fun f => { f with credits := tset f.credits dst (creditsTo s dst + 1) }) s else s
/-- Push an entry to another package, or wait for a credit. -/
def pushEntry (plane p dst dp k q : Nat) (bs : List Byte) (s : State) : State :=
  if 256 ≤ creditsTo s dst ∨ s.fab.creditWait.any (fun w => !isClose w && wordAt w.2.1 0 == w32 dst) then
    cntAdd p (cExpert + 11) 1 (modFab (fun f => { f with creditWait := f.creditWait ++ [(p, [w32 dst, w32 dp, w32 k, w32 q, w32 plane], bs)] }) s)
  else sendQpush plane p dst dp k q bs (fragments bs) (takeCredit p dst s)
/-- Send a close to a queue cluster of another package, or record it on this one (R217). -/
def sendClose (plane p dst dp k : Nat) (bs : List Byte) (s : State) : State :=
  if dst = myPkg s then
    match mapOfOp (imgOf s p) (wordAt (wordsOfBytes bs) 3).toNat with
    | some m => localClose p m k (wordsOfBytes bs) s
    | none => s
  else sendQpush plane p dst dp k 0 [] [(1, bs)] s
/-- The first close that waits and whose SELECT has no entry left that waits leaves; at most `fuel` of them. -/
def releaseCloses : Nat → State → State
  | 0, s => s
  | fuel + 1, s =>
    match s.fab.creditWait.find? fun w => isClose w && !creditHeld s w.1 (dwordAt (wordsOfBytes w.2.2) 0) (wordAt (wordsOfBytes w.2.2) 3).toNat with
    | none => s
    | some w => releaseCloses fuel (sendClose (wordAt w.2.1 4).toNat w.1 (wordAt w.2.1 0).toNat (wordAt w.2.1 1).toNat (wordAt w.2.1 2).toNat w.2.2
        (modFab (fun f => { f with creditWait := f.creditWait.erase w }) s))
/-- The entry that goes next towards a package: the oldest of a latency-critical partition, else the oldest (R382). -/
def nextWaiting (s : State) (dst : Nat) : Option (Nat × List Word × List Byte) :=
  let ws := s.fab.creditWait.filter fun w => !isClose w && wordAt w.2.1 0 == w32 dst
  match ws.find? fun w => recClass (bank s w.1) with
  | some w => some w
  | none => ws.head?
/-- A credit towards a package has returned: the next entry that waits for it goes, and the closes that waited for it. -/
def creditBack (dst : Nat) (s : State) : State :=
  let s1 := modFab (fun f => { f with credits := tset f.credits dst (creditsTo s dst - 1) }) s
  match nextWaiting s1 dst with
  | none => s1
  | some w => releaseCloses s1.fab.creditWait.length
      (sendQpush (wordAt w.2.1 4).toNat w.1 dst (wordAt w.2.1 1).toNat (wordAt w.2.1 2).toNat (wordAt w.2.1 3).toNat w.2.2 (fragments w.2.2)
        (takeCredit w.1 dst (modFab (fun f => { f with creditWait := f.creditWait.erase w }) s1)))

/-! Selection (R213 to R215). -/

/-- Softmax of FP32 values in order. -/
def softmax (xs : List Word) : List Word :=
  let m := (xs.drop 1).foldl (fun m x => if flt m x then x else m) (xs.headD 0)
  let es := xs.map fun x => vexp (fsub x m)
  let k := vrecip (es.foldl fadd 0)
  es.map fun e => fmul e k
/-- Scores of a token's experts. -/
def scores (gate : Nat) (xs : List Word) : List Word :=
  match gate with
  | 0 => softmax xs
  | 1 => xs
  | _ => xs.map fun x => vrecip (fadd 0x3F800000 (vexp (fneg x)))
/-- Key a ranks before key b of a later index, or equal keys do (R214): NaN last. -/
def keyBefore (a b : Word) : Bool := if fisNan b then true else if fisNan a then false else !(flt a b)
/-- Equal keys: neither ranks before the other but by index. -/
def keyTie (a b : Word) : Bool := if fisNan a || fisNan b then fisNan a && fisNan b else !(flt a b) && !(flt b a)
/-- The best of a list of (index, key) in ascending index. -/
def bestKey (xs : List (Nat × Word)) : Option (Nat × Word) :=
  match xs with
  | [] => none
  | x :: rest => some (rest.foldl (fun b y => if keyBefore b.2 y.2 then b else y) x)
/-- The experts chosen, in rank order, each with whether the index rule decided it. -/
def chooseTop : Nat → List (Nat × Word) → List (Nat × Bool)
  | 0, _ => []
  | k + 1, xs =>
    match bestKey xs with
    | none => []
    | some b =>
      let rest := xs.filter fun x => x.1 != b.1
      (b.1, rest.any fun x => keyTie x.2 b.2) :: chooseTop k rest
/-- Gates of the chosen experts. -/
def gatesOf (gate : Nat) (renorm : Bool) (vs : List Word) : List Word :=
  if gate = 1 then (if vs = [] then [] else softmax vs)
  else if renorm then
    let k := vrecip (vs.foldl fadd 0)
    vs.map fun v => fmul v k
  else vs
/-- The choices and gates of one token. -/
def selectToken (c : List Word) (xs bias : List Word) : List (Nat × Bool) × List Word :=
  let vs := scores (rGate c) xs
  let keys := if rBias c then List.zipWith fadd vs bias else vs
  let top := chooseTop (rTopk c) (keys.mapIdx fun i k => (i, k))
  (top, gatesOf (rGate c) (rRenorm c) (top.map fun t => vs.getD t.1 0))
/-- A selection record (R215). -/
def selectRecord (top : List (Nat × Bool)) (gates : List Word) : List Word :=
  (List.range 8).map (fun r => match top[r]? with
    | some t => w32 (t.1 + 2 ^ 16)
    | none => 0) ++ (List.range 8).map fun r => if r < top.length then gates.getD r 0 else 0

/-- Flat address of an operand of a ROUTE. -/
def rAddr (a : At) (c : List Word) (w : Nat) : Nat := flatOf a.cluster.val (cCore c) (adr (wordAt c w)).1 (adr (wordAt c w)).2

/-- Header of a queue entry (R216). -/
def entryHeader (s : State) (a : At) (c : List Word) (m : EMap) (row rank x : Nat) : List Word :=
  let ret := rFar c + (row * rTopk c + rank) * rRetStride c
  w64 a.step ++ [w32 (selfMember s a.part.val + 256 * a.cluster.val), w32 (rTokenBase c + row + 65536 * rank),
    w32 (x + 4096 * exQueue m x), w32 ret, w32 (ret / 2 ^ 32 % 2 ^ 20 + 2 ^ 20 * rFarKind c), w32 (rOp c)] ++ List.replicate 8 0

/-- Push the entry of one choice to the queue of its expert. -/
def scatterOne (s0 : State) (a : At) (c : List Word) (m : EMap) (row rank x : Nat) (s : State) : State :=
  let p := a.part.val
  let dst := memberPkg s p 0 (exMember m x)
  let bs := bytesOfWords (entryHeader s a c m row rank x) ++ sramRead s0 (rAddr a c 8 + row * rRowStride c) (emRowBytes m)
  let k := placeOf s p (exCluster m x)
  if dst = myPkg s then localEntry p m a.step k (exQueue m x) bs s
  else pushEntry (planeOf a) p dst (partAt s p dst) k (exQueue m x) bs s

/-- Send the closes of a SELECT to every member and cluster that holds a queue of the map, after its last entry (R217). -/
def sendCloses (a : At) (c : List Word) (m : EMap) (chosen : List Nat) (s : State) : State :=
  let p := a.part.val
  (List.range (emMembers m)).foldl (fun t mem =>
    let xs := (List.range (emExperts m)).filter fun x => exMember m x == mem
    ((xs.map (exCluster m)).eraseDups).foldl (fun t cl =>
      let count (q : Nat) : Nat :=
        (chosen.filter fun x => exMember m x == mem && exCluster m x == cl && exQueue m x == q).length
      let h := w64 a.step ++ [w32 (selfMember t p), w32 (rOp c)] ++
        ((List.range 8).map fun i => w32 (count (2 * i) % 65536 + 65536 * (count (2 * i + 1) % 65536))) ++ List.replicate 4 0
      let dst := memberPkg t p 0 mem
      let k := placeOf t p cl
      if creditHeld t p a.step (rOp c) then modFab (fun f => { f with creditWait :=
        f.creditWait ++ [(p, [w32 dst, w32 (partAt t p dst), w32 k, 16, w32 (planeOf a)], bytesOfWords h)] }) t
      else sendClose (planeOf a) p dst (partAt t p dst) k (bytesOfWords h) t) t) s

/-- The record of a SELECT that runs. -/
def selRun (a : At) (c : List Word) (m : EMap) (sent : Nat) : SelRun :=
  { op := rOp c, base := rTokenBase c, map := emMap m, cluster := a.cluster.val, step := a.step, kind := rFarKind c, far := rFar c
    bytes := rTokens c * rTopk c * rRetStride c, sent }
/-- SELECTs of a map that a step has run on this member. -/
def selectsRun (s : State) (p step map : Nat) : Nat :=
  ((partOf s p).ex.sels.filter fun x => x.step == step && x.map == map).length
/-- Select and scatter (R213 to R219); an expanded SELECT beyond those of its map is a fault (R211). -/
def selectGo (a : At) (expanded : Bool) (c : List Word) (s : State) : State :=
  let p := a.part.val
  if rTokens c = 0 then s
  else match mapAt s a c with
    | none => faultAt a 1 (rOp c) s
    | some m =>
      if emTokens m < rTokenBase c + rTokens c then faultAt a 8 (rOp c) s
      else if expanded ∧ emSelects m ≤ selectsRun s p a.step (emMap m) then faultAt a 1 (rOp c) s
      else
        let n := rExperts c
        let bias := if rBias c then f32Read s (rAddr a c 7) n else []
        let rows := (List.range (rTokens c)).map fun r =>
          let xs := f32Read s (rAddr a c 5 + r * rInStride c) n
          (xs.any fnonFinite, selectToken c xs bias)
        let recs := rows.mapIdx fun r x => (rAddr a c 11 + 64 * r, bytesOfWords (selectRecord x.2.1 x.2.2))
        let bad := rows.findIdx? fun x => x.1
        let chosen := rows.flatMap fun x => x.2.1.map fun t => t.1
        let s1 := storeRows recs (enter a c (opdsAt s a c) { sel := some (rOp c) }
          (modEx p (fun e => { e with sels := e.sels ++ [selRun a c m chosen.length] }) s))
        let s2 := cntAdd p (cExpert + 3) ((rows.filter fun x => x.1).length) (cntAdd p (cExpert + 2)
          ((rows.map fun x => (x.2.1.filter fun t => t.2).length).sum)
          (cntAdd p (cExpert + 1) chosen.length (cntAdd p cExpert (rTokens c) s1)))
        let s3 := match bad with
          | none => s2
          | some r => onceEvent 0x0704 false p (rOp c) a.step (rTokenBase c + r)
              ((((rows.getD r (false, [], [])).2.1.head?).map fun t => t.1).getD 0xFFFFFFFF) s2
        let s4 := (List.range rows.length).foldl (fun t r =>
          let top := (rows.getD r (false, [], [])).2.1
          (List.range top.length).foldl (fun t k => scatterOne s1 a c m r k (top.getD k (0, false)).1 t) t) s3
        sendCloses a c m chosen s4

/-- ROUTE of a mode. -/
def isRoute (mode : Nat) (c : List Word) : Bool := cOp c == 5 && rMode c == mode

/-- ROUTE SELECT (R213 to R219). -/
def execRouteSelect (a : At) (ev : RunEvent) (s : State) : Host.Outcome State Fault Refusal :=
  .next (issueWith a (isRoute 0) noHold (meetReads a ev) (fun k c t => selectGo a k.expanded c t) s)

/-! SEAL (R221, R222). -/

/-- The expert whose queue q lies on this member's cluster of a position. -/
def queueExpert (s : State) (a : At) (m : EMap) (q : Nat) : Option Nat :=
  (List.range (emExperts m)).find? fun x => exMember m x == selfMember s a.part.val &&
    (exCluster m x == imgC s a || exCluster m x == guestC s a) && exQueue m x == q
/-- Image clusters of a position that hold a queue of a map on this member: each is sent closes of its own (R217). -/
def queueClusters (s : State) (a : At) (m : EMap) : Nat :=
  ([imgC s a, guestC s a].filter fun c => (List.range (emExperts m)).any fun x =>
    exMember m x == selfMember s a.part.val && exCluster m x == c).length
/-- Closes that a queue still misses. -/
def closesMissing (s : State) (a : At) (m : EMap) (z : Queue) : Nat :=
  emSelects m * emMembers m * max 1 (queueClusters s a m) - z.closes.length
/-- All closes and all their entries have arrived. -/
def sealable (s : State) (a : At) (m : EMap) (z : Queue) : Bool :=
  closesMissing s a m z == 0 && z.entries.length == (z.closes.map fun c => c.2.2).sum
/-- ORIGIN and TOKEN of an entry as one number. -/
def originToken (h : List Word) : Nat := fld (wordAt h 2) 0 4 * 65536 + fld (wordAt h 3) 0 16
/-- Insert an entry index by its origin and token. -/
def insertBy (key : Nat → Nat) (i : Nat) : List Nat → List Nat
  | [] => [i]
  | x :: xs => if key i < key x then i :: x :: xs else x :: insertBy key i xs
/-- The canonical order of a queue's entries. -/
def canonical (z : Queue) : List Nat :=
  let key (i : Nat) : Nat := ((z.entries[i]?).map fun e => originToken e.1).getD 0
  (List.range z.entries.length).foldl (fun acc i => insertBy key i acc) []
/-- The queue that a ROUTE of a position serves. -/
def queueAt (s : State) (a : At) (m : EMap) (q : Nat) : Queue := queueOf s a.part.val (emMap m) a.step (imgC s a) q
/-- The round records that a SEAL writes: offset, space and bytes. -/
def recordOpd (c : List Word) (z : Queue) : Opd :=
  (true, (adr (wordAt c 11)).1, (adr (wordAt c 11)).2, 32 + 32 * cdiv z.entries.length 64)

/-- What else holds a SEAL: its queue, its cold weights, and commands that work on its records. -/
def sealHold (a : At) (c : List Word) (s : State) : List Nat :=
  match mapAt s a c with
  | none => []
  | some m =>
    let z := queueAt s a m (rQueue c)
    if ¬ sealable s a m z then [8]
    else
      (if hazard (clusterOf s a.cluster.val) [] (ranges a.cluster.val (cCore c) true [recordOpd c z]) then [2] else []) ++
      match queueExpert s a m (rQueue c) with
      | none => []
      | some x =>
        if exCold m x ∧ z.entries ≠ [] ∧ (((stageOf s a.part.val).bind fun st => coldSlotOf st (exWeight m x)).isNone) then [7] else []

/-- Seal the queue and write its round records. -/
def sealGo (a : At) (c : List Word) (s : State) : State :=
  let p := a.part.val
  match mapAt s a c with
  | none => faultAt a 1 (rOp c) s
  | some m =>
    let z := queueAt s a m (rQueue c)
    let n := z.entries.length
    if ¬ opdOk (recordOpd c z) then faultAt a 1 (rOp c) s
    else
      let x := (queueExpert s a m (rQueue c)).getD 0
      let off := if exCold m x then
          (match stageOf s p with
            | some st => (((coldSlotOf st (exWeight m x)).bind (tget st.cold)).map fun k => k.place).getD 0
            | none => 0)
        else exWeight m x * 65536
      let head := [w32 (cdiv n 64), w32 n, w32 x] ++ List.replicate 5 0
      let rounds := (List.range (cdiv n 64)).flatMap fun i =>
        [w32 i, w32 (min 64 (n - 64 * i)), w32 (64 * i), w32 off, w32 (off / 2 ^ 32)] ++ List.replicate 3 0
      let os := (opdsAt s a c).filter (fun o => !o.1) ++ [recordOpd c z]
      storeRows [(rAddr a c 11, bytesOfWords (head ++ rounds))]
        (enter a c os {} (modRunAt a (fun r => { r with seals := tset r.seals (rQueue c) (emMap m), sealFrom := none })
          (modQueue p (emMap m) a.step (imgC s a) (rQueue c) (fun z => { z with sealed := true, order := canonical z }) s)))

/-- The next command of a position is a SEAL. -/
def sealNext (s : State) (a : At) : Option (List Word) :=
  match (runAt s a).bind fun r => r.todo.head? with
  | some k => if isRoute 1 k.words then some (relocAt s a k.words) else none
  | none => none
/-- A SEAL that its queue holds has been issued: its wait runs from then (R221); one that cold weights hold marks its step as
one that met a cold wait (R231). -/
def markSeal (a : At) (s : State) : State :=
  match sealNext s a with
  | some c =>
    let hs := sealHold a c s
    if 8 ∈ hs then modRunAt a (fun r => { r with sealFrom := some (r.sealFrom.getD s.now) }) s
    else if 7 ∈ hs then modStep a.part.val a.step (fun r => { r with coldOrSpill := true }) s
    else s
  | none => s
/-- ROUTE SEAL (R221, R222). -/
def execRouteSeal (a : At) (s : State) : Host.Outcome State Fault Refusal :=
  .next (markSeal a (issueAt a (isRoute 1) (sealHold a) (fun _ c t => sealGo a c t) (drainWait a.part.val s)))

/-- A seal has not been reached in time. -/
def sealHang (a : At) (s : State) : State :=
  match (runAt s a).bind (fun r => r.sealFrom), sealNext s a with
  | some _, some c =>
    let missing := ((mapAt s a c).map fun m => closesMissing s a m (queueAt s a m (rQueue c))).getD 0
    hang a.part.val a.step (logEvent 0x0703 true a.part.val (rOp c) a.step (rQueue c) missing s)
  | _, _ => s
/-- SEAL_HANG_TIMEOUT (R221). -/
def execSealHangTimeout (a : At) (s : State) : Host.Outcome State Fault Refusal := .next (sealHang a s)

/-! GATHER (R223). -/

/-- Entry k of a round in canonical order. -/
def roundEntry (z : Queue) (round k : Nat) : Option (List Word × Nat × Bool) := (z.order[64 * round + k]?).bind fun i => z.entries[i]?
/-- Rows of a round; none at or beyond ROUNDS. -/
def roundRows (z : Queue) (round : Nat) : Option Nat :=
  if z.sealed ∧ round < cdiv z.order.length 64 then some (min 64 (z.order.length - 64 * round)) else none
/-- The SRAM ranges of the entries of a round. -/
def entryRanges (m : EMap) (z : Queue) (round : Nat) : List Rng :=
  (List.range ((roundRows z round).getD 0)).filterMap fun k =>
    match roundEntry z round k with
    | some (_, x, spill) => if spill then none else some { start := x, len := emEntry m }
    | none => none
/-- What the reads of a GATHER meet: the entries of its queue. -/
def gatherMeets (a : At) (ev : RunEvent) (c : List Word) (s : State) : Bool × State :=
  match mapAt s a c with
  | none => (true, s)
  | some m => meetParity a (entryRanges m (queueAt s a m (rQueue c)) (rRound c)) ev.parity s

/-- Copy the entries of a round into the staging rows. -/
def gatherGo (a : At) (c : List Word) (s : State) : State :=
  let p := a.part.val
  match mapAt s a c with
  | none => faultAt a 1 (rOp c) s
  | some m =>
    let z := queueAt s a m (rQueue c)
    match roundRows z (rRound c) with
    | none => faultAt a 9 (rOp c) s
    | some n =>
      let spilled := ((List.range n).filter fun k => ((roundEntry z (rRound c) k).map fun e => e.2.2).getD false).length
      let rows := (List.range n).map fun k => (rAddr a c 8 + k * rRowStride c, match roundEntry z (rRound c) k with
        | some (_, x, true) => hbmRead s p x (emEntry m)
        | some (_, x, false) => sramRead s x (emEntry m)
        | none => [])
      let late := decide (emQueueEntries m / 64 ≤ rRound c)
      let s1 := storeRows rows (enter a c (opdsAt s a c) {} s)
      let s2 := cntAdd p cMemory (spilled * cdiv (emEntry m) 64) (cntAdd p (cExpert + 7) (b2n late) (cntAdd p (cExpert + 6) 1 s1))
      if late then modStep p a.step (fun r => { r with coldOrSpill := true }) s2 else s2
/-- ROUTE GATHER (R223). -/
def execRouteGather (a : At) (ev : RunEvent) (s : State) : Host.Outcome State Fault Refusal :=
  .next (issueWith a (isRoute 2) noHold (gatherMeets a ev) (fun _ c t => gatherGo a c t) s)

/-! RETURN (R224). -/

/-- The return area of a SELECT holds an offset. -/
def inReturn (x : SelRun) (kind off : Nat) : Bool := x.kind == kind && decide (x.far ≤ off ∧ off < x.far + max x.bytes 1)
/-- A return row has arrived whole for the first SELECT that `ok` picks: its counter counts it. -/
def countReturn (p : Nat) (ok : SelRun → Bool) (s : State) : State :=
  modEx p (fun e => match e.sels.find? ok with
    | some x => { e with sels := e.sels.map fun y => if y = x then { y with got := y.got + 1 } else y }
    | none => e) s
/-- Bytes of a return row land at their place in HBM, which is kind 2, or in the SRAM of a cluster; none at a place that does not
exist. -/
def landReturn (p k kind off : Nat) (bs : List Byte) (s : State) : Option State :=
  if kind = 2 then
    if bs = [] then some s
    else if storeStatus s p off bs.length ≠ 0 then none
    else some (cntAdd p (cMemory + 1) (cdiv bs.length 64) (bulkLand p off bs s))
  else if 2 ^ 24 < off + bs.length then none else some (storeRows [(clusterAddr k off, bs)] s)
/-- A return row lands at its origin and is counted for its SELECT (R224). -/
def returnRow (p k step op kind off : Nat) (bs : List Byte) (s : State) : State :=
  if ((stepRec s p step).map inFlight).getD false = false then s
  else match landReturn p k kind off bs s with
    | none => s
    | some t => countReturn p (fun x => x.op == op && x.step == step && x.cluster == k && inReturn x kind off) t
/-- A BULK of a return row into partition HBM ends it: it counts for the oldest step that still waits for a row there (log 128). -/
def hbmReturn (p off : Nat) (s : State) : State :=
  let xs := (partOf s p).ex.sels.filter fun x => inReturn x 2 off && decide (x.got < x.sent)
  match (xs.map fun x => x.step).min? with
  | some n => countReturn p (fun x => x.step == n && inReturn x 2 off && decide (x.got < x.sent)) s
  | none => s
/-- RETURN_ROW_ARRIVE (R224). -/
def execReturnRowArrive (part : Fin 32) (cluster : Fin 48) (step op : Nat) (kind off : Nat) (data : List Byte) (s : State) :
    Host.Outcome State Fault Refusal := .next (returnRow part.val cluster.val step op kind off data s)

/-- Push the result rows of a round to their origins; the last BULK of a row carries POST = 1, as R316 has it for a push, so that
the origin counts the row once, and one of no bytes too (R212, R224; log 128). -/
def returnGo (a : At) (c : List Word) (s : State) : State :=
  let p := a.part.val
  match mapAt s a c with
  | none => faultAt a 1 (rOp c) s
  | some m =>
    let z := queueAt s a m (rQueue c)
    match roundRows z (rRound c) with
    | none => faultAt a 9 (rOp c) s
    | some n =>
      let s1 := enter a c (opdsAt s a c) {} s
      let s2 := (List.range n).foldl (fun t k => match roundEntry z (rRound c) k with
        | none => t
        | some (h, _, _) =>
          let bs := sramRead s (rAddr a c 8 + k * rRowStride c) (rRowBytes c)
          let off := off52At h 5
          let kind := fld (wordAt h 6) 20 4
          let origin := fld (wordAt h 2) 8 6
          let dst := memberPkg t p 0 (fld (wordAt h 2) 0 4)
          if dst = myPkg t then returnRow p origin (dwordAt h 0) (wordAt h 7).toNat kind off bs t
          else (issuePush (planeOf a) dst (recJob (bank t p)) (some p) none (partAt t p dst)
            (if kind = 2 then off else Config.inboxOffset origin 16 off (dwordAt h 0)) bs true t).2) s1
      match queueExpert s a m (rQueue c) with
      | some x => if exCold m x ∧ rRound c + 1 = cdiv z.order.length 64 then unpinCold p a.step (exWeight m x) s2 else s2
      | none => s2
/-- ROUTE RETURN (R224). -/
def execRouteReturn (a : At) (ev : RunEvent) (s : State) : Host.Outcome State Fault Refusal :=
  .next (issueWith a (isRoute 3) noHold (meetReads a ev) (fun _ c t => returnGo a c t) s)

/-! COMBINE (R225). -/

/-- The selection record of a row. -/
def recordOf (s : State) (a : At) (c : List Word) (r : Nat) : List Word := f32Read s (rAddr a c 11 + 64 * r) 16
/-- Valid choices of a COMBINE's rows. -/
def validChoices (s : State) (a : At) (c : List Word) : Nat :=
  ((List.range (rTokens c)).map fun r =>
    ((List.range (rTopk c)).filter fun k => bitOf (wordAt (recordOf s a c r) k) 16).length).sum
/-- Rows that have returned for the SELECT of a COMBINE. -/
def returned (s : State) (a : At) (c : List Word) : Nat :=
  (((partOf s a.part.val).ex.sels.find? fun x =>
    x.op == rOp c && x.base == rTokenBase c && x.cluster == a.cluster.val && x.step == a.step).map fun x => x.got).getD 0
/-- COMBINE waits for every return of its SELECT. -/
def combineHold (a : At) (c : List Word) (s : State) : List Nat :=
  if rTokens c = 0 then [] else if returned s a c = validChoices s a c then [] else [8]
/-- One output row: the gated results added in ascending rank. -/
def combineRow (f : Fmt) (n : Nat) (base : List Word) (rows : List (Word × List Byte)) : List Word :=
  rows.foldl (fun acc x =>
    let ys := (wideElems f n x.2).map fun v => v.toF32
    List.zipWith (fun v y => fadd v (fmul x.1 y)) acc ys) base
/-- Form the output rows of a COMBINE. -/
def combineGo (a : At) (c : List Word) (s : State) : State :=
  let p := a.part.val
  if rTokens c = 0 then s
  else
    let f := rFmtRow c
    let n := (mapSizes (imgOf s p) c (mapAt s a c)).2
    if rFarKind c = 2 ∧ rTopk c ≠ 0 ∧ ¬ mapped s p (rFar c) (rTokens c * rTopk c * rRetStride c) then faultAt a 0xA (rOp c) s
    else
      let retRow (r k : Nat) : List Byte :=
        let off := rFar c + (r * rTopk c + k) * rRetStride c
        if rFarKind c = 2 then hbmRead s p off (f.bytes * n) else sramRead s (clusterAddr a.cluster.val off) (f.bytes * n)
      let rows := (List.range (rTokens c)).map fun r =>
        let rec' := recordOf s a c r
        let base := if rShared c then f32Read s (rAddr a c 5 + r * rInStride c) n else List.replicate n 0
        combineRow f n base (((List.range (rTopk c)).filter fun k => bitOf (wordAt rec' k) 16).map fun k =>
          (wordAt rec' (8 + k), retRow r k))
      let q := convertRows (rFmtOut c) (fun _ _ => .rne) rows
      let reads := if rFarKind c = 2 then validChoices s a c * cdiv (f.bytes * n) 64 else 0
      countConv p q.2.1 q.2.2 (storeRows (q.1.mapIdx fun r bs => (rAddr a c 8 + r * rRowStride c, bs))
        (cntAdd p cMemory reads (enter a c (opdsAt s a c) {} s)))
/-- ROUTE COMBINE (R225). -/
def execRouteCombine (a : At) (ev : RunEvent) (s : State) : Host.Outcome State Fault Refusal :=
  .next (issueWith a (isRoute 4) (combineHold a) (meetReads a ev) (fun _ c t => combineGo a c t) s)

/-! PUSH (R232). -/

/-- The package that a PUSH names. -/
def pushDst (s : State) (a : At) (c : List Word) : Nat := memberPkg s a.part.val (rDestTable c) (rDestMember c)
/-- The bytes of a PUSH. -/
def pushData (s : State) (a : At) (c : List Word) : List Byte :=
  if rFarKind c = 2 then hbmRead s a.part.val (rFar c) (rBytes c) else sramRead s (rAddr a c 5) (rBytes c)
/-- What else holds a PUSH: its source in HBM, and the step slot or Ferry slot of a receiver on this package. -/
def pushHold (a : At) (c : List Word) (s : State) : List Nat :=
  let p := a.part.val
  let i := inboxPlace s p a.step (rDstCluster c) (rRegion c) 0
  (if rFarKind c = 2 then hbmHold s p (rFar c) (rBytes c) else []) ++
    (if rDstKind c = 3 ∧ pushDst s a c = myPkg s ∧ ¬ slotReady s i.1 i.2.1 p a.step then [9] else []) ++
    (if rDstKind c = 2 ∧ pushDst s a c = myPkg s ∧ ferryBusy s p (rDst c) (pushData s a c) then [10] else [])
/-- Copy the bytes of a PUSH to where it names. -/
def pushGo (a : At) (c : List Word) (s : State) : State :=
  let p := a.part.val
  let n := rBytes c
  let reg := hbmRegion (rDst c)
  let dst := pushDst s a c
  let home := decide (dst = myPkg s)
  if n ≠ 0 ∧ rFarKind c = 2 ∧ ¬ mapped s p (rFar c) n then faultAt a 0xA (rOp c) s
  else if n ≠ 0 ∧ rDstKind c = 2 ∧ (reg = 0 ∨ (2 ≤ reg ∧ reg ≤ 5)) then faultAt a 1 (rOp c) s
  else if n ≠ 0 ∧ rDstKind c = 2 ∧ home ∧ ¬ mapped s p (rDst c) n then faultAt a 0xA (rOp c) s
  else
    let data := pushData s a c
    let s1 := if n = 0 then s else enter a c (opdsAt s a c) {} (if rFarKind c = 2 then cntAdd p cMemory (cdiv n 64) s else s)
    if ¬ home then
      if n = 0 ∧ ¬ rPost c then s1
      else (issuePush (planeOf a) dst (recJob (bank s p)) (some p) none (partAt s p dst)
        (if rDstKind c = 2 then rDst c else Config.inboxOffset (rDstCluster c) (rRegion c) (rDst c) a.step) data (rPost c) s1).2
    else if rDstKind c = 2 then (if n = 0 then s1 else cntAdd p (cMemory + 1) (cdiv n 64) (bulkLand p (rDst c) data s1))
    else
      let i := inboxPlace s p a.step (rDstCluster c) (rRegion c) (rDst c)
      let s2 := if n = 0 then s1 else storeRows [(i.2.2, data)] (takeSlot i.1 i.2.1 p a.step s1)
      if rPost c then countPost p a.step (rDstCluster c) (rRegion c) s2 else s2
/-- ROUTE PUSH (R232). -/
def execRoutePush (a : At) (ev : RunEvent) (s : State) : Host.Outcome State Fault Refusal :=
  .next (issueWith a (isRoute 5) (pushHold a) (meetReads a ev) (fun _ c t => pushGo a c t) s)

end Sys2Proof.Machine
end

