-- ==== Sys2Proof/Machine/Tiers.lean ====
section
/-! DEFINITION. The memory tiers at work: the bond-store read wheel, rung and cold fetches, restores, weight streams, and errors
and repairs in HBM (R122 to R124, R229, R230, R243, R246 to R254, R259, R263 to R269). -/

namespace Sys2Proof.Machine

/-! What waits for a bond-store chunk (R254). -/

/-- Shard that holds a chunk of a rung. -/
def rungShard (s : State) (st : Stage) (r : RungReq) : Nat :=
  (pieceShards s.bnd.manifest (rungKind r.rung) (stageImage st) r.op 0).getD (r.chunk / 256) 0
/-- Shard that holds a chunk of a cold expert. -/
def coldShard (s : State) (st : Stage) (x c : Nat) : Nat := (coldShards s.bnd.manifest (stageImage st) x).getD (c / 256) 0
/-- 64 KiB chunks of a cold expert. -/
def coldTotal (s : State) (st : Stage) (x : Nat) : Nat :=
  cdiv ((coldShards s.bnd.manifest (stageImage st) x).map (shBytes s.bnd.manifest)).sum 65536
/-- A partition has used up BOND_CHUNKS in the current window; zero demotes it from its first chunk (R254, R256). -/
def demoted (s : State) (p : Nat) : Bool := decide (recQuota (bank s p) 4 ≤ (partOf s p).fb.chunks)

/-- Rung chunks that can be read, with their stages; `strict` leaves out those of demoted partitions. -/
def rungJobs (s : State) (strict : Bool) : List (Stage × RungReq) :=
  s.stages.flatMap fun st => (st.reqs.filter fun r =>
    !shardHeld s (rungShard s st r) && !(strict && !st.standby && demoted s r.part)).map fun r => (st, r)
/-- The element of a list with the least key. -/
def leastBy {α : Type} (key : α → Nat) (xs : List α) : Option α :=
  match (xs.map key).min? with
  | none => none
  | some k => xs.find? fun x => key x == k
/-- Compute die whose clusters read a cold expert of a partition's image. -/
def coldDie (s : State) (p x : Nat) : Nat :=
  let es := (imgMaps (imgOf s p)).flatMap fun m => (List.range (emExperts m)).filterMap fun e =>
    if exCold m e && exWeight m e == x && exMember m e == selfMember s p then some (exCluster m e) else none
  dieOfCluster (es.headD 0)
/-- Weight-region offset of a new cold slot of a request. -/
def slotPlace (s : State) (st : Stage) (r : ColdReq) : Option Nat :=
  let ws := stageWords s st
  cachePlace st ws (coldDie s r.part r.expert) (coldBytes ws)
/-- The slot for a new cold expert and its place: an unused one, or that of the least recently used expert that no step pins or
waits for, the lower expert on a tie, whose removal makes room (R230, R237). -/
def coldRoom (s : State) (st : Stage) (r : ColdReq) : Option (Nat × Nat) :=
  let fresh := if st.cold.length < st.coldSlots then
      ((List.range (st.cold.length + 1)).find? fun k => (tget st.cold k).isNone).bind fun k => (slotPlace s st r).map fun a => (k, a)
    else none
  let after (e : Nat × ColdSlot) : Option (Nat × Nat) := (slotPlace s { st with cold := terase st.cold e.1 } r).map fun a => (e.1, a)
  match fresh with
  | some x => some x
  | none =>
    (leastBy (fun e : Nat × ColdSlot => e.2.used * 4096 + e.2.index) (st.cold.filter fun e =>
      e.2.pins == [] && !(st.coldReqs.any fun q => q.expert == e.2.expert) && (after e).isSome)).bind after
/-- Chunks of a cold fetch that have landed. -/
def coldGot (st : Stage) (r : ColdReq) : Nat := (((r.slot.bind (tget st.cold))).map fun c => c.got).getD 0
/-- Cold fetches that can be served. -/
def coldJobs (s : State) (strict : Bool) : List (Stage × ColdReq) :=
  s.stages.flatMap fun st => (st.coldReqs.filter fun r =>
    (r.slot.isSome || (coldRoom s st r).isSome) && !shardHeld s (coldShard s st r.expert (coldGot st r)) &&
      !(strict && demoted s r.part)).map fun r => (st, r)
/-- A stage is being restored. -/
def restoring (st : Stage) : Bool := decide (st.done < (restoreUnits st.entries).length)
/-- Entry, first byte and bytes of a restore unit. -/
def unitAt (st : Stage) (u : Nat) : Nat × Nat × Nat := (restoreUnits st.entries).getD u (0, 0, 0)
/-- A restore unit can be read. -/
def unitReady (s : State) (st : Stage) (u : Nat) : Bool := !shardHeld s (reShard (st.entries.getD (unitAt st u).1 []))
/-- The next unit of a partial restore, in entry order (R253). -/
def lostUnit (s : State) : Option (Stage × Nat) :=
  s.stages.findSome? fun st => (st.lost.min?).bind fun u => if unitReady s st u then some (st, u) else none
/-- The next unit of a full restore: the package's own stages first (R251). -/
def nextUnit (s : State) : Option (Stage × Nat) :=
  let xs := (s.stages.filter fun st => !st.standby) ++ s.stages.filter fun st => st.standby
  (xs.find? restoring).bind fun st => if unitReady s st st.done then some (st, st.done) else none
/-- The stage in whose weight or standby region a flat HBM address lies. -/
def stageOfAddr (s : State) (addr : Nat) : Option Stage := s.stages.find? fun st => stageFlat st 0 ≤ addr && addr < stageFlat st 0 + 2 ^ 52
/-- What fills a 64 KiB unit of a stage's weight region: its first byte, the shard that holds its bytes, and the bytes: a restore
entry's, a rung-cache unit's, whose piece and offset are its operation, rung and chunk, or a cold slot's (R264). -/
def unitSource (s : State) (st : Stage) (off : Nat) : Option (Nat × Nat × List Byte) :=
  match (List.range (restoreUnits st.entries).length).find? fun u => (unitAt st u).2.1 / 65536 == off / 65536 with
  | some u =>
    let q := unitAt st u
    let e := st.entries.getD q.1 []
    some (q.2.1, reShard e, memRead s.x.bond (shardFlat (reShard e) + (q.2.1 - reDst e)) q.2.2)
  | none => match st.cache.find? fun u => !u.once && u.place / 65536 == off / 65536 with
    | some u =>
      let r : RungReq := { op := u.op, rung := u.rung, chunk := u.chunk }
      some (u.place, rungShard s st r, pieceRead s (rungKind u.rung) (stageImage st) u.op (65536 * u.chunk) 65536)
    | none => match st.cold.find? fun e => decide (e.2.place ≤ off ∧ off < e.2.place + 65536 * coldTotal s st e.2.expert) with
      | some e =>
        let n := (off - e.2.place) / 65536
        some (e.2.place + 65536 * n, coldShard s st e.2.expert n,
          shardsRead s.x.bond s.bnd.manifest (coldShards s.bnd.manifest (stageImage st) e.2.expert) (65536 * n) 65536)
      | none => none
/-- What fills the unit at a flat HBM address. -/
def unitOfAddr (s : State) (addr : Nat) : Option (Stage × Nat × Nat × List Byte) :=
  (stageOfAddr s addr).bind fun st => (unitSource s st (addr % 2 ^ 52)).map fun x => (st, x)
/-- A detection re-fetch reads the bond store and its shard can be read. -/
def refetchReady (s : State) (r : Refetch) : Bool :=
  (r.kind == 2 || r.kind == 3) && match unitOfAddr s r.addr with
    | some (_, _, shard, _) => !shardHeld s shard
    | none => true
/-- Such a re-fetch is pending. -/
def refetchJob (s : State) : Bool := s.tiers.refetch.any (refetchReady s)

/-- Classes of the read wheel (R254). -/
def clRepair : Nat := 0
def clRung : Nat := 1
def clCold : Nat := 2
def clRestore : Nat := 3
/-- The class that a slot of the wheel belongs to. -/
def wheelClass (k : Nat) : Nat := if k = 1 then clCold else if k = 3 then clRepair else clRung
/-- A class has a chunk pending. -/
def classPending (s : State) (strict : Bool) (c : Nat) : Bool :=
  match c with
  | 0 => refetchJob s || (lostUnit s).isSome
  | 1 => rungJobs s strict != []
  | 2 => coldJobs s strict != []
  | _ => (nextUnit s).isSome
/-- The class that the next slot serves: its own when it has a chunk pending, else the first that has in the order repair,
rung, cold, restore; demoted partitions only when nothing else but a full restore wants the slot. -/
def wheelPick (s : State) : Option Nat :=
  let own := wheelClass s.tiers.wheel
  let order := [own, clRepair, clRung, clCold]
  match order.find? (classPending s true) with
  | some c => some c
  | none => (order ++ [clRestore]).find? (classPending s false)
/-- A slot of the wheel has been used. -/
def turnWheel (s : State) : State := modTiers (fun t => { t with wheel := (t.wheel + 1) % 4 }) s

/-! Rung chunks (R122 to R124). -/

/-- The commands of a list in the order in which they issue, each EXPAND replaced by one instance of its template. -/
def inlineCmds (ws : List Word) : Nat → List (List Word) → List (List Word)
  | 0, cs => cs
  | n + 1, cs => cs.flatMap fun c =>
    if cOp c = 10 then ((templateOf ws (fld (wordAt c 1) 0 16)).map fun t => inlineCmds ws n (bodyCmds t.2.1)).getD [] else [c]
/-- Place of an operation in the execution order of a partition's lists: the earliest place at which a list names it (log 55). -/
def opPlace (s : State) (p op : Nat) : Nat :=
  let ws := imgOf s p
  ((runners s p).map fun c => ((inlineCmds ws 6 (listCmds ws ((listOfCluster s p c).getD 0))).findIdx fun k =>
    cOp k == 1 && cmdOpIndex k == op)).foldl min (2 ^ 24)
/-- The rung chunk that the next rung slot reads for own or standby stages: partitions in turn, in ascending number from the one
after that served last, and within one the order of R122. -/
def pickRung (s : State) (standby : Bool) : Option (Stage × RungReq) :=
  let all (strict : Bool) : List (Stage × RungReq) := (rungJobs s strict).filter fun j => j.1.standby == standby
  let js := if all true = [] then all false else all true
  let last := ((s.stages.find? fun st => st.standby == standby).map fun st => st.lastServed).getD 31
  match leastBy (fun j : Stage × RungReq => (j.2.part + 31 - last) % 32) js with
  | none => none
  | some j => leastBy (fun j : Stage × RungReq =>
      ((((b2n (!j.2.tile)) * 2 ^ 64 + j.2.step) * 2 ^ 25 + opPlace s j.2.part j.2.op) * 2 ^ 32 + j.2.op) * 2 ^ 32 + j.2.chunk)
      (js.filter fun i => i.2.part == j.2.part)

/-- Rungs of an operation that a partition uses in its current window or will. -/
def rungsUsed (s : State) (p op : Nat) : List Nat :=
  let f := (partOf s p).fb.cur
  let now := (partOf s p).run.committed + 1
  rungOf s p op now :: (((tgetD f.ops op {}).pend.map fun d => d.2) ++ f.storms.map fun w => rungOf s p op (max w.1 now))
/-- A waiting probe's tile runs again over a unit of rung data. -/
def tileUses (s : State) (st : Stage) (u : RungUnit) (q : Probe) : Bool :=
  q.product && q.rung != firstRung q && isChunk (tileDie q) q.op q.rung u.chunk u &&
    ((stageOf s q.part).map fun x => x.slot) == some st.slot && decide (u.chunk ∈ tileChunks s q.part q.rung q)
/-- A unit of rung data is in use: some partition runs its operation at its rung, or a tile that fell back waits for it. -/
def unitUsed (s : State) (st : Stage) (u : RungUnit) : Bool :=
  ((servers s st).any fun p => decide (u.rung ∈ rungsUsed s p u.op)) ||
    s.x.chm.any fun c => (c.2.queue ++ c.2.waiting).any (tileUses s st u)
/-- Units of an area of the rung cache: the tile area of 64 MiB, or the rest. -/
def areaUnits (st : Stage) (tile : Bool) : Nat := if tile then min 1024 (16 * st.cacheMib) else 16 * st.cacheMib - 1024
/-- Units of an area that stay in HBM. -/
def areaOf (st : Stage) (tile : Bool) : List RungUnit := st.cache.filter fun x => x.tile == tile && !x.once
/-- A stage with a unit placed in free room of its area and of its die's cache part. -/
def placeUnit (s : State) (st : Stage) (u : RungUnit) : Option Stage :=
  if (areaOf st u.tile).length < areaUnits st u.tile then
    (cachePlace st (stageWords s st) u.die 65536).map fun a => { st with cache := st.cache ++ [{ u with place := a }] }
  else none
/-- Place a chunk in the cache: in free room, in place of the least recently used unit that is not in use and whose removal makes
room, or streamed. Tells whether it is streamed. The manual does not say how the last use is measured: by the time of the last
stream or tile that read the unit, whichever partition's it was (DESIGN CHOICE, log 130). -/
def cachePut (s : State) (st : Stage) (u : RungUnit) : Bool × Stage :=
  let after (v : RungUnit) : Option Stage := placeUnit s { st with cache := st.cache.erase v } u
  match placeUnit s st u with
  | some t => (false, t)
  | none =>
    match (leastBy (fun x : RungUnit => x.used) ((areaOf st u.tile).filter fun x => !unitUsed s st x && (after x).isSome)).bind after with
    | some t => (false, t)
    | none => (true, { st with cache := st.cache ++ [{ u with once := true }] })

/-- Count a chunk read for a partition. -/
def countChunk (p : Nat) (s : State) : State :=
  let s1 := cntAdd p (cMemory + 2) 1 s
  let s2 := if demoted s p then cntAdd p (cMemory + 3) 1 s1 else s1
  cntAdd p (cMemory + 1) 1024 (modFb p (fun f => { f with chunks := f.chunks + 1 }) s2)
/-- Bytes of the weight region of a stage are written by a fetch. -/
def fillStage (st : Stage) (off : Nat) (bs : List Byte) (s : State) : State :=
  rewriteDead (stageFlat st off) bs.length (hbmWriteFlat (stageFlat st off) bs s)

/-- A rung chunk has been read: it serves every partition that asked for it. -/
def rungChunk (standby : Bool) (fails : PageFails) (s : State) : State :=
  if wheelPick s ≠ some clRung then s
  else match pickRung s standby with
    | none => s
    | some (st, r) =>
      let q := chunkPages (rungShard s st r) fails (turnWheel s)
      if ¬ q.1 then q.2
      else
        let put := cachePut q.2 st { op := r.op, rung := r.rung, chunk := r.chunk, tile := r.tile, used := s.now, die := r.die }
        let s1 := { q.2 with stages := q.2.stages.map fun x =>
          let y := if x.slot = st.slot then { x with cache := put.2.cache, reqs := x.reqs.filter fun z => !asksFor r.die r.op r.rung r.chunk z }
            else x
          if x.standby = standby then { y with lastServed := r.part } else y }
        let s2 := match put.2.cache.find? fun u => isChunk r.die r.op r.rung r.chunk u && !u.once with
          | some u => fillStage st u.place (pieceRead s (rungKind r.rung) (stageImage st) r.op (65536 * r.chunk) 65536) s1
          | none => s1
        if standby then s2
        else
          let s3 := cntAdd r.part (cChamois + 9) 1 (modFb r.part (fun f => { f with rungChunks := f.rungChunks + 1 }) (countChunk r.part s2))
          if put.1 then cntAdd r.part (cChamois + 10) 1 s3 else s3
/-- RUNG_CHUNK_DONE (R122). -/
def execRungChunkDone (standby : Bool) (fails : PageFails) (s : State) : Host.Outcome State Fault Refusal :=
  .next (rungChunk standby fails s)

/-! Cold chunks (R229, R230). -/

/-- The cold fetch that the next cold slot serves: one that has begun, or the earliest step, then the lower expert. -/
def pickCold (s : State) (standby : Bool) : Option (Stage × ColdReq) :=
  let all (strict : Bool) : List (Stage × ColdReq) := (coldJobs s strict).filter fun j => j.1.standby == standby
  let js := if all true = [] then all false else all true
  leastBy (fun j : Stage × ColdReq => (b2n j.2.slot.isNone * 2 ^ 64 + j.2.step) * 4096 + j.2.index) js

/-- A cold fetch begins: it takes a slot, pinned for every step that asks for the expert. -/
def coldBegin (s : State) (st : Stage) (r : ColdReq) : Stage :=
  match r.slot, coldRoom s st r with
  | none, some (k, a) =>
    let same := st.coldReqs.filter fun q => q.expert == r.expert
    { st with
      cold := tset st.cold k { expert := r.expert, index := r.index, place := a, pins := same.map fun q => (q.part, q.step), used := s.now }
      coldReqs := (st.coldReqs.filter fun q => q.expert != r.expert) ++ [{ r with slot := some k }] }
  | _, _ => st
/-- Event 0x0702, once per expert and window: word 4 is the expert's number in the map (R235). -/
def coldEvent (p step x n : Nat) (s : State) : State :=
  let key := (0x0702 + 2 ^ 16 * (x + 1), windowOf step)
  if key ∈ (partOf s p).run.fired then s
  else logEvent 0x0702 false p noOp step x n (modRun p (fun r => { r with fired := r.fired ++ [key] }) s)

/-- A cold chunk has been read. -/
def coldChunk (standby : Bool) (fails : PageFails) (s : State) : State :=
  if wheelPick s ≠ some clCold then s
  else match pickCold s standby with
    | none => s
    | some (st0, r0) =>
      let st := coldBegin s st0 r0
      let s0 := modStage st0.slot (fun _ => st) (turnWheel s)
      match st.coldReqs.find? fun q => q.expert == r0.expert with
      | none => s0
      | some r =>
        let k := r.slot.getD 0
        let n := coldGot st r
        let q := chunkPages (coldShard s st r.expert n) fails s0
        if ¬ q.1 then q.2
        else
          let total := coldTotal s st r.expert
          let shards := coldShards s.bnd.manifest (stageImage st) r.expert
          let at_ := ((tget st.cold k).map fun c => c.place).getD 0 + 65536 * n
          let last := decide (total ≤ n + 1)
          let s1 := fillStage st at_ (shardsRead s.x.bond s.bnd.manifest shards (65536 * n) 65536) q.2
          let s2 := modStage st.slot (fun x => { x with
            cold := x.cold.map fun e => if e.1 = k then (k, { e.2 with got := n + 1, resident := last }) else e
            coldReqs := if last then x.coldReqs.filter fun z => z.expert != r.expert else x.coldReqs }) s1
          let s3 := cntAdd r.part (cExpert + 9) 1 (countChunk r.part s2)
          if last then coldEvent r.part r.step r.index total (cntAdd r.part (cExpert + 8) 1 s3) else s3
/-- COLD_CHUNK_DONE (R229). -/
def execColdChunkDone (standby : Bool) (fails : PageFails) (s : State) : Host.Outcome State Fault Refusal :=
  .next (coldChunk standby fails s)

/-! Restores (R251 to R253). -/

/-- Bytes of a restore unit in the bond store. -/
def unitData (s : State) (st : Stage) (u : Nat) : List Byte :=
  let q := unitAt st u
  let e := st.entries.getD q.1 []
  memRead s.x.bond (shardFlat (reShard e) + (q.2.1 - reDst e)) q.2.2
/-- MiB of a stage's restore entries. -/
def restoreMib (st : Stage) : Nat := mibOf (st.entries.map reBytes).sum (2 ^ 20)
/-- Write a restore unit and mark it restored; the last one ends the restore of its target. -/
def restoreUnit (st : Stage) (u : Nat) (again : Bool) (s : State) : State :=
  let s1 := fillStage st (unitAt st u).2.1 (unitData s st u) s
  if again then modStage st.slot (fun x => { x with lost := x.lost.filter (· != u) }) s1
  else
    let ends := decide ((restoreUnits st.entries).length ≤ u + 1)
    let s2 := modStage st.slot (fun x => { x with done := u + 1, complete := x.complete || ends }) s1
    if ends then standbyCheck (logPkg 0x0809 false (b2n st.standby) (restoreMib st) s2) else s2
/-- A restore unit has been read: one of a partial restore in the repair slot, or the next of a full one. -/
def restoreDone (fails : PageFails) (s : State) : State :=
  let go (j : Option (Stage × Nat)) (again : Bool) : State :=
    match j with
    | none => s
    | some (st, u) =>
      let q := chunkPages (reShard (st.entries.getD (unitAt st u).1 [])) fails (turnWheel s)
      if q.1 then restoreUnit st u again q.2 else q.2
  match wheelPick s with
  | some 0 => go (lostUnit s) true
  | some 3 => go (nextUnit s) false
  | _ => s
/-- RESTORE_UNIT_DONE (R251). -/
def execRestoreUnitDone (fails : PageFails) (s : State) : Host.Outcome State Fault Refusal := .next (restoreDone fails s)

/-! Weight streams (R246 to R249). -/

/-- The stream entries that a package cluster takes: those of its image cluster and of the guest that it hosts. -/
def streamEntries (s : State) (p k : Nat) : List Nat :=
  let ws := imgOf s p
  let c := imgCluster s p k
  let g := guestOf s p c
  (List.range (pfStreams ws)).filter fun e =>
    (cmUsed ws c && seCluster (pfStream ws e) == c) || some (seCluster (pfStream ws e)) == g
/-- A stream is still wanted by its step: the step is not admitted yet, or its list has still to wait for or release the
entry. -/
def streamWanted (s : State) (p k id e : Nat) : Bool :=
  match (clusterOf s k).runs.find? fun r => r.part == p && r.step == id with
  | some r => r.todo.any fun c => (cOp c.words == 7 || cOp c.words == 8) && layerOf c.words == e
  | none => (accepted s p).any fun r => r.id == id
/-- The next stream of a cluster: step and entry (R248). -/
def nextStream (s : State) (p k : Nat) : Option (Nat × Nat) :=
  let ws := imgOf s p
  let c := imgCluster s p k
  let begun (id e : Nat) : Bool := match tget (clusterOf s k).wins (winKey ws c e) with
    | some w => w.entry == e && w.step == id
    | none => false
  let steps := (flying s p ++ accepted s p).map fun r => r.id
  (steps.flatMap fun id => (streamEntries s p k).map fun e => (id, e)).find? fun x =>
    streamWanted s p k x.1 x.2 && !begun x.1 x.2
/-- Streams of a cluster in flight. -/
def streamsInFlight (c : Cluster) : Nat := (c.wins.filter fun w => !w.2.landed && !w.2.released).length
/-- The rung of an operation for a step is fixed: every probe that could still change it has resolved (R119, R125). -/
def rungFixed (s : State) (p op id : Nat) : Bool :=
  let ws := imgOf s p
  let ops := probedOps s p (if gvThreshold ws = 0 then [op] else safeOps ws)
  ops == [] || !((flying s p ++ accepted s p).any fun r => decide (r.id + 2 ≤ id) && mayProbe s p ops r)
/-- Compute die whose clusters take a stream entry. -/
def entryDie (e : List Word) : Nat := dieOfCluster (seCluster e)
/-- Chunks of rung data that a stream entry lands at a rung. -/
def entryChunks (s : State) (st : Stage) (ws e : List Word) (rung : Nat) : List Nat :=
  let r := rungRange s st ws e rung
  if rung = 0 then [] else chunksOf r.1 r.2
/-- What a stream reads is under re-fetch (R266): the stream keeps what has landed and waits for the rest. -/
def streamFetching (s : State) (p : Nat) (st : Stage) (e : List Word) (rung : Nat) : Bool :=
  (decide (rung ≤ 1) && flatFetching s (stageFlat st (seSrc e)) (seBase e)) ||
    rungFetching s st (entryDie e) (seOp e) rung (entryChunks s st (imgOf s p) e rung)
/-- The bytes of a stream. -/
def streamData (s : State) (p : Nat) (st : Stage) (e : List Word) (rung : Nat) : List Byte :=
  let r := rungRange s st (imgOf s p) e rung
  match rung with
  | 0 => hbmRead s p (seSrc e) (seBase e)
  | 1 => hbmRead s p (seSrc e) (seBase e) ++ rungRead s st (entryDie e) (seOp e) 1 r.1 r.2
  | _ => rungRead s st (entryDie e) (seOp e) 2 r.1 r.2

/-- The stream of an entry for a step begins. -/
def streamStart (p k id e rung : Nat) (s : State) : State :=
  let ws := imgOf s p
  let en := pfStream ws e
  let s1 := match (clusterOf s k).rungWait with
    | some t => modStep p id (fun x => { x with rungWaits := tmod x.rungWaits k 0 (· + (s.now - t)) }) s
    | none => s
  modCluster k (fun c => { c with
    rungWait := none
    wins := tset c.wins (winKey ws (imgCluster s p k) e) { entry := e, step := id, rung, landed := seLen en rung == 0, released := false } }) s1
/-- STREAM_BEGIN: the next stream of a cluster begins, or its wait is noted. -/
def streamBegin (k : Nat) (s : State) : State :=
  match ownerOf s k with
  | none => s
  | some p =>
    match nextStream s p k, stageOf s p with
    | some (id, e), some st =>
      let ws := imgOf s p
      let en := pfStream ws e
      let s1 := modCluster k (fun c => { c with stream := (id, e) }) s
      let c := clusterOf s k
      let free := ((tget c.wins (winKey ws (imgCluster s p k) e)).map fun w => w.released).getD true
      if c.out ∨ ¬ free ∨ 2 ≤ streamsInFlight c ∨ ¬ rungFixed s p (seOp en) id then s1
      else
        let rung := rungOf s p (seOp en) id
        if rung ≤ 1 ∧ ¬ restored st (seSrc en) (seBase en) then s1
        else
          let cs := entryChunks s st ws en rung
          if allResident st (entryDie en) (seOp en) rung cs then streamStart p k id e rung s1
          else modCluster k (fun c => { c with rungWait := some (c.rungWait.getD s.now) })
            (askChunks st.slot p false id (entryDie en) (seOp en) rung cs s1)
    | _, _ => s
/-- STREAM_BEGIN (R248). -/
def execStreamBegin (cluster : Fin 48) (s : State) : Host.Outcome State Fault Refusal := .next (streamBegin cluster.val s)

/-- The window of a buffer, or of the guest's buffer beside it, that waits for its stream. -/
def winOpen (buf : Nat) (w : Nat × Win) : Bool := (w.1 == buf || w.1 == buf + 4) && !w.2.landed && !w.2.released
/-- The failing parcels of what a stream lands: of the weight region by offset, and of its rung 1 piece by offset there. -/
def streamFaults (s : State) (p : Nat) (st : Stage) (e : List Word) (rung : Nat) :
    List (Nat × Nat × Nat) × List (Nat × Nat × Nat) :=
  let r := rungRange s st (imgOf s p) e rung
  (if rung ≤ 1 then weightFaults s p st (seSrc e) (seBase e) else [],
    if rung = 1 then (parcelFaults (pieceFmt s.bnd.manifest 2 (manifestImage s p) (seOp e))
      (rungRead s st (entryDie e) (seOp e) 1 r.1 r.2)).map fun x => (r.1 + x.1, x.2) else [])
/-- Parcels of rung data fail as they arrive: each is counted, and its unit is fetched again. -/
def rungFails (p : Nat) (st : Stage) (die op rung : Nat) (fs : List (Nat × Nat × Nat)) (s : State) : State :=
  let cs := (fs.map fun x => x.1 / 65536).eraseDups
  refetchChunks p st die op rung cs (cntAdd p (cMemory + 6) cs.length
    (cntAdd p 4 ((fs.map fun x => x.2.1).sum) (cntAdd p 3 ((fs.map fun x => x.2.2).sum) s)))
/-- A stream has landed in a buffer, unless what it reads is being fetched again: `bad` are the parcels of the landing that fail on
their way, whose 4 KiB are streamed again, and those that fail as they are stored have their units fetched again (R49, R264,
R266). -/
def streamLanded (k buf : Nat) (bad : List Nat) (s : State) : State :=
  match ownerOf s k, (clusterOf s k).wins.find? (winOpen buf) with
  | some p, some (key, w) =>
    match stageOf s p with
    | none => s
    | some st =>
      let en := pfStream (imgOf s p) w.entry
      if streamFetching s p st en w.rung then s
      else
        let s1 := cntAdd p cMemory (cdiv (seLen en w.rung) 64) s
        let fs := streamFaults s p st en w.rung
        let bs := bad.eraseDups
        let n := ((bs.map fun i => i / 64).eraseDups).length
        if fs.1 ≠ [] ∨ fs.2 ≠ [] then rungFails p st (entryDie en) (seOp en) w.rung fs.2 (weightFails p fs.1 s1)
        else if bs ≠ [] then cntAdd p (cMemory + 7) n (cntAdd p (cMemory + 6) n (cntAdd p (cFormat + 4) bs.length s1))
        else useChunks st.slot (entryDie en) (seOp en) w.rung (entryChunks s st (imgOf s p) en w.rung)
          (modCluster k (fun c => { c with wins := tset c.wins key { w with landed := true } })
            (storeRows [(flatOf k (seCore en) (seSpace en) (seAddr en), streamData s p st en w.rung)] s1))
  | _, _ => s
/-- STREAM_LANDED (R249). -/
def execStreamLanded (cluster : Fin 48) (buf : Fin 4) (bad : List Nat) (s : State) : Host.Outcome State Fault Refusal :=
  .next (streamLanded cluster.val buf.val bad s)

/-- What holds a WINDOW_WAIT (R249, R260): the re-fetch of what its stream reads, or, for a stream that has not begun, probes that
may still change its rung, rung data that is not resident, a source that is not restored; else the stream itself. -/
def windowHold (a : At) (c : List Word) (s : State) : List Nat :=
  let e := layerOf c
  if landed s a e then []
  else
    let p := a.part.val
    let cl := clusterOf s a.cluster.val
    let ws := imgOf s p
    let en := pfStream ws e
    match stageOf s p, tget cl.wins (winKey ws (imgC s a) e) with
    | none, _ => [4]
    | some st, w =>
      if (w.map fun w => (w.entry, w.step, w.released)) = some (e, a.step, false) then
        [if streamFetching s p st en ((w.map fun w => w.rung).getD 0) then 15 else 4]
      else if cl.stream ≠ (a.step, e) then [4]
      else if ¬ rungFixed s p (seOp en) a.step then [6]
      else if cl.rungWait.isSome then [5]
      else if rungOf s p (seOp en) a.step ≤ 1 ∧ ¬ restored st (seSrc en) (seBase en) then [3]
      else [4]
/-- WINDOW_WAIT (R249). -/
def execWindowWait (a : At) (s : State) : Host.Outcome State Fault Refusal :=
  .next (issueAt a (isOp 7) (windowHold a) (fun _ _ t => t) s)

/-! Capacity (R258, R259). -/

/-- MiB of the data and spill quotas beyond what the images need (R258). -/
def dataSpare (s : State) : Nat :=
  (s.parts.map fun q =>
    let ws (b : List Word) : List Word := ((recImg s b).map fun i => i.words).getD []
    let a := activeBank q.2
    let b := shadowClaim q.2
    max (recQuota a 1) (recQuota b 1) - max (need (ws a) 1) (need (ws b) 1)).sum
/-- 4 KiB units that the commitment exceeds the usable HBM by, less the frames that nothing has mapped and what recoveries have
gained. -/
def shortUnits (s : State) : Nat := 256 * (commitMib s 32 [] - dataSpare s - usableMib s) - s.tiers.taken
/-- A recovery gains units. -/
def gain (n : Nat) (s : State) : State := modTiers (fun t => { t with taken := t.taken + n }) s
/-- Free units of the partitions' KV quotas are taken, as many as are short. -/
def takeKv (s : State) : State :=
  (List.range 32).foldl (fun t p =>
    let n := min (shortUnits t) (kvFree t p)
    if n = 0 then t else gain n (modKv p (fun k => { k with taken := k.taken + n }) t)) s
/-- Rung-cache units beyond the tile area that leave so that at most `n` stay: the least recently used that are not in use. -/
def evictTo (s : State) (n : Nat) : Nat → Stage → Stage
  | 0, st => st
  | fuel + 1, st =>
    if (areaOf st false).length ≤ n then st
    else match leastBy (fun x : RungUnit => x.used) ((areaOf st false).filter fun x => !unitUsed s st x) with
      | none => st
      | some u => evictTo s n fuel { st with cache := st.cache.erase u }
/-- A stage's rung cache beyond its tile area shrinks by what is short, as far as the units in use let it (R123). -/
def takeCache (slot : Nat) (s : State) : State :=
  match s.stages.find? fun st => st.slot == slot with
  | none => s
  | some st =>
    let want := min (cdiv (shortUnits s) 256) (st.cacheMib - 64)
    let y := evictTo s (16 * (st.cacheMib - want) - 1024) (areaOf st false).length st
    let keep := max (st.cacheMib - want) (64 + cdiv (areaOf y false).length 16)
    if want = 0 then s
    else gain (256 * (st.cacheMib - keep)) (modStage slot (fun x => { x with cache := y.cache, cacheMib := min st.cacheMib keep }) s)
/-- Unpinned cold slots of a stage are taken, empty ones first and then the least recently used, as many as are short (R230). -/
def takeCold (slot : Nat) : Nat → State → State
  | 0, s => s
  | fuel + 1, s =>
    match s.stages.find? fun st => st.slot == slot with
    | none => s
    | some st =>
      let free := decide (st.cold.length < st.coldSlots)
      let v := leastBy (fun e : Nat × ColdSlot => e.2.used * 4096 + e.2.index) (st.cold.filter fun e =>
        e.2.pins == [] && !(st.coldReqs.any fun q => q.expert == e.2.expert))
      if shortUnits s = 0 ∨ (!free && v.isNone) then s
      else takeCold slot fuel (gain (coldBytes (stageWords s st) / 4096) (modStage slot (fun x => { x with
        coldSlots := x.coldSlots - 1
        cold := if free then x.cold else terase x.cold ((v.map fun e => e.1).getD 0) }) s))
/-- Victims of best-effort partitions are pre-empted one at a time until nothing is short (R193 to R195). -/
def takePages : Nat → State → State
  | 0, s => s
  | fuel + 1, s =>
    let vs : List (Nat × Nat) := (List.range 32).filterMap fun p =>
      if recClass (bank s p) ∨ (partOf s p).cfg.st ≠ .serving ∨ ¬ dmaOpen s p then none
      else ((victims s p []).head?).bind fun v => if swapFits s p v then some (p, v) else none
    match vs with
    | [] => s
    | (p, v) :: _ =>
      if shortUnits s = 0 then s
      else
        let n := ((seqPages s p v).map fun q => unitsOf s p q.1 q.2).sum
        takePages fuel (gain n (modKv p (fun k => { k with taken := k.taken + n }) (takeVictim p noStep v s)))
/-- Frames are recovered in the order of R259, each source only while something is short. -/
def recoverAll (s : State) : State :=
  let slots := s.stages.map fun st => st.slot
  let s2 := slots.foldl (fun t k => takeCache k t) (takeKv s)
  let s3 := slots.foldl (fun t k => takeCold k 255 t) s2
  takePages ((s3.parts.map fun q => q.2.kv.slots.length).sum) s3
/-- A repair has left the total above usable HBM: frames are recovered; a shortfall that remains makes the stage unservable. -/
def recoverFrames (die : Nat) (s : State) : State :=
  let t := recoverAll s
  if shortUnits t = 0 then modTiers (fun t => { t with short := false }) t
  else declareFailed 2 (ownStageId t) (logPkg 0x0807 true (cdiv (shortUnits t) 256) die (modTiers (fun t => { t with short := true }) t))

/-! Retirement and repair (R243, R267 to R269). -/

/-- KV frames of a die that no page lies in leave the frame map; a page that needs one maps it again. -/
def releaseKv (die : Nat) (s : State) : State :=
  modTiers (fun t => { t with frames := t.frames.filter fun x =>
    !(x.die == die && x.region == 2) || (partOf s x.space).kv.used.any fun u => meets (512 * x.n) 512 u.1 u.2 }) s
/-- A withdrawn frame that is in use starts to move to a free frame of its die; when there is none, frames are recovered first. -/
def moveFrame (die f : Nat) (s : State) : State :=
  let go (t : State) (g : Nat) : State :=
    modTiers (fun x => { x with moves := x.moves ++ [{ die, fromF := f, toF := g }] }) { t with free := t.free + 1 }
  if ¬ s.tiers.frames.any (fun x => x.die == die && x.phys == f) ∨ s.tiers.moves.any (fun m => m.die == die && m.fromF == f) then s
  else match freeFrame s die with
    | some g => go s g
    | none =>
      let t := releaseKv die (recoverFrames die s)
      match freeFrame t die with
      | some g => go t g
      | none => t
/-- Withdraw a frame of a die (R269). -/
def withdrawFrame (die f : Nat) (s : State) : State :=
  if (die, f) ∈ s.tiers.framesOut then s
  else recoverFrames die (moveFrame die f (modTiers (fun t => { t with framesOut := t.framesOut ++ [(die, f)] }) s))

/-- Units of a restored weight or standby region that hold granules of a pseudo-channel (R253). -/
def unitsInPc (s : State) (st : Stage) (pc : Nat) : List Nat :=
  (List.range st.done).filter fun u => inPc s (64 + st.slot) 0 (unitAt st u).2.1 (unitAt st u).2.2 pc
/-- 64 KiB units of the rung cache and the cold slots that hold granules of a pseudo-channel. -/
def fillsInPc (s : State) (st : Stage) (pc : Nat) : List Nat :=
  let units : List Nat := (st.cache.filter fun u => !u.once).map fun u => u.place
  let slots : List Nat := st.cold.flatMap fun e => (List.range e.2.got).map fun n => e.2.place + 65536 * n
  (units ++ slots).filter fun a => inPc s (64 + st.slot) 0 a 65536 pc
/-- Pages in HBM with positions below LENGTH that hold granules of a pseudo-channel: partition, slot, table and index. -/
def pagesInPc (s : State) (pc : Nat) : List (Nat × Nat × Nat × Nat) :=
  s.parts.flatMap fun q => q.2.kv.slots.flatMap fun e => (e.2.pages.filter fun g =>
      let t := tableOfPage s q.1 e.1 g.1
      let first := ((tableAt (tablesOf s q.1) e.2.maxLen g.1).map fun k => (g.1 - tableStart (tablesOf s q.1) e.2.maxLen t) * k.2.1).getD 0
      g.2.valid && g.2.loc == 0 && decide (first < e.2.length) &&
        inPc s q.1 2 (4096 * (g.2.frame % 2 ^ 36)) (4096 * unitsOf s q.1 e.1 g.1) pc).map fun g =>
    (q.1, e.1, tableOfPage s q.1 e.1 g.1, g.1)
/-- What a retired pseudo-channel held is fetched again: restored units, the units of rung cache and cold slots, and KV pages
(R253, R268). Other data takes R264 at its next read. -/
def refetchPc (pc : Nat) (s : State) : State :=
  let s1 := { s with stages := s.stages.map fun st => { st with lost := (st.lost ++ unitsInPc s st pc).eraseDups } }
  let s2 := s.stages.foldl (fun t st => (fillsInPc s st pc).foldl (fun u a => refetchRange ((servers s st).headD 0) st a 65536 u) t) s1
  (pagesInPc s pc).foldl (fun t q => kvPageLost q.1 q.2.1 q.2.2.1 q.2.2.2 t) s2
/-- The 384 frames that a retirement withdraws are the die's last ones: those of them in use move. The manual does not say which
frames the firmware withdraws (DESIGN CHOICE, log 107). -/
def withdrawLast (die : Nat) (s : State) : State :=
  (s.tiers.frames.filter fun x => x.die == die && decide (dieFrames s die ≤ x.phys)).foldl (fun t x => moveFrame die x.phys t) s
/-- Pseudo-channels are retired (R268). -/
def retirePcs (pcs : List Nat) (s : State) : State :=
  pcs.foldl (fun t pc =>
    if pc ∈ t.tiers.pcsOut then t
    else
      let t1 := modTiers (fun x => { x with
        pcsOut := x.pcsOut ++ [pc]
        repairs := x.repairs.filter fun r => r.pc != pc
        rowErrs := x.rowErrs.filter fun r => r.1 != pc }) (refetchPc pc t)
      recordRepair 6 pc 0 (logPkg 0x0803 true pc 384 (totAdd (tMemory + 2) 1 (withdrawLast (pc / 128) t1)))) s
/-- A pseudo-channel is retired, and what follows for its stack, the serving set and the capacity. -/
def retirePc (pc : Nat) (s : State) : State :=
  if pc ∈ s.tiers.pcsOut then s
  else
    let s1 := retirePcs [pc] s
    let stack := pc / 32
    let s2 := if 8 < (s1.tiers.pcsOut.filter fun q => q / 32 == stack).length ∧ stack ∉ s1.tiers.stacksLost then
        checkSet (modTiers (fun t => { t with stacksLost := t.stacksLost ++ [stack] })
          (retirePcs ((List.range 32).map fun i => 32 * stack + i) s1))
      else s1
    recoverFrames (pc / 128) s2
/-- A pseudo-channel that has lost its training is not tested in service: its block is marked by 256 (R506). -/
def trainingLost (pc : Nat) (s : State) : State :=
  let s1 := retirePc pc s
  modCar (fun c => { c with queue := c.queue.map fun e => if e = (6, pc) then (262, pc) else e }) s1
/-- PC_TRAINING_LOST (R268). -/
def execPcTrainingLost (pc : Fin 512) (s : State) : Host.Outcome State Fault Refusal := .next (trainingLost pc.val s)

/-- A row has met a confirmed error: its soft repair starts, and 33 rows within 3,600 s retire the pseudo-channel. -/
def rowError (pc row : Nat) (s : State) : State :=
  if pc ∈ s.tiers.pcsOut then s
  else
    let t := s.now / 10 ^ 9
    let s1 := modTiers (fun x => { x with
      rowErrs := (x.rowErrs.filter fun r => decide (t ≤ r.2.2 + 3600) && !(r.1 == pc && r.2.1 == row)) ++ [(pc, row, t)]
      repairs := if x.repairs.any (fun r => r.pc == pc && r.row == row) then x.repairs else x.repairs ++ [{ pc, row }] }) s
    if 32 < (s1.tiers.rowErrs.filter fun r => r.1 == pc).length then retirePc pc s1 else s1

/-- The soft repair of a row has ended: a spare row took its place, or the row is retired and its frame withdrawn. The four
granules of a row lie in one frame (R241). -/
def rowRepaired (i : Nat) (spareLeft : Bool) (s : State) : State :=
  match s.tiers.repairs[i]? with
  | none => s
  | some r =>
    let s1 := modTiers (fun t => { t with repairs := t.repairs.eraseIdx i }) s
    if spareLeft then recordRepair 4 r.pc r.row (logPkg 0x0801 false r.pc r.row (totAdd tMemory 1 s1))
    else
      let s2 := modTiers (fun t => { t with rowsOut := t.rowsOut ++ [(r.pc, r.row)] }) s1
      withdrawFrame (r.pc / 128) (r.row / 16)
        (recordRepair 5 r.pc r.row (logPkg 0x0802 false r.pc 1 (totAdd (tMemory + 1) 1 s2)))
/-- HBM_ROW_REPAIR_DONE (R267). -/
def execHbmRowRepairDone (i : Nat) (spareLeft : Bool) (s : State) : Host.Outcome State Fault Refusal :=
  .next (rowRepaired i spareLeft s)

/-- Something in the frame of a map entry is under re-fetch. -/
def frameFetching (s : State) (x : Frame) : Bool :=
  s.tiers.refetch.any fun r =>
    if r.kind = 4 then
      x.space == r.part && x.region == 2 && meets (512 * x.n) 512 ((tgetD (slotAt s r.part r.slot).pages r.page {}).frame % 2 ^ 36)
        (unitsOf s r.part r.slot r.page)
    else if r.kind = 2 ∨ r.kind = 3 then
      x.region == 0 && x.space * 2 ^ 52 == r.addr / 2 ^ 52 * 2 ^ 52 && meets (x.n * 2 ^ 21) (2 ^ 21) (r.addr % 2 ^ 52) 65536
    else false
/-- The copy of a withdrawn frame is complete: the frame map switches, once no re-fetch in the frame is pending (R266). -/
def frameMoved (i : Nat) (s : State) : State :=
  match s.tiers.moves[i]? with
  | none => s
  | some m =>
    let here (x : Frame) : Bool := x.die == m.die && x.phys == m.fromF
    if (s.tiers.frames.filter here).any (frameFetching s) then s
    else modTiers (fun t => { t with
      moves := t.moves.eraseIdx i
      frames := t.frames.map fun x => if here x then { x with phys := m.toF } else x }) s
/-- FRAME_MOVE_DONE (R269). -/
def execFrameMoveDone (i : Nat) (s : State) : Host.Outcome State Fault Refusal := .next (frameMoved i s)

/-! Reads that fail (R263, R264). -/

/-- The stage that a lost unit of the weight or standby region belongs to: the one that something has filled there. -/
def stageOfUnit (s : State) (standby : Bool) (unit : Nat) : Option Stage :=
  let xs := s.stages.filter fun st => st.standby == standby
  (xs.find? fun st => (unitSource s st (65536 * unit)).isSome).orElse fun _ => xs.head?
/-- The partition that a failed read is counted for. -/
def readerOf (s : State) (lost : LostData) : Nat :=
  match lost with
  | .weightUnit standby unit => ((stageOfUnit s standby unit).bind fun st => (servers s st).head?).getD 0
  | .kvPage p _ _ => p.val
  | .tableCopy p _ => p.val
  | .mirrorPage p _ _ _ => p.val
  | .stepData p _ => p.val
  | .idleData p _ _ _ => p.val
/-- What a confirmed HBM error does by the data that it has lost (R264). -/
def actOnLoss (pc : Nat) (lost : LostData) (s : State) : State :=
  let p := readerOf s lost
  match lost with
  | .weightUnit standby unit =>
    match stageOfUnit s standby unit with
    | none => cntAdd p (cMemory + 6) 1 s
    | some st => addRefetch { kind := if standby then 3 else 2, part := p, addr := stageFlat st (65536 * unit) }
        (cntAdd p (cMemory + 6) 1 s)
  | .kvPage q slot page => kvPageLost q.val slot (tableOfPage s q.val slot page) page (cntAdd p (cMemory + 6) 1 s)
  | .tableCopy q good =>
    let s1 := cntAdd p (cMemory + 6) 1 s
    if good then s1 else declareFailed 4 (imgStage (imgOf s q.val)) s1
  | .mirrorPage q slot table page =>
    let s1 := modMirror q.val (fun m => { m with
      badPages := (m.badPages.filter (· != mirrorKey slot table page)) ++ [mirrorKey slot table page] }) (cntAdd p (cMemory + 6) 1 s)
    match s.cont.peer with
    | none => s1
    | some o => (pairSend o 4 none (resendData q.val (tgetD s1.cont.mirror q.val {}).committed slot table page) s1).2
  | .stepData q step => confirmedStep q.val step 2 pc s
  | .idleData q carried addr len =>
    let s1 := cntAdd p (cMemory + 6) 1 s
    if carried then declareFailed 4 (imgStage (imgOf s q.val)) s1
    else modTiers (fun t => { t with dead := t.dead ++ [(hbmFlat s q.val addr, len)] }) s1
/-- An HBM read has ended. -/
def hbmReadDone (pc row : Nat) (lost : LostData) (outcome : ReadOutcome) (s : State) : State :=
  match outcome with
  | .clean => s
  | .transient => cntAdd (readerOf s lost) (cMemory + 5) 1 s
  | .confirmed => rowError pc row (actOnLoss pc lost (cntAdd (readerOf s lost) (cMemory + 5) 1 s))
/-- HBM_READ_DONE (R263, R264). -/
def execHbmReadDone (pc : Fin 512) (row : Nat) (lost : LostData) (outcome : ReadOutcome) (s : State) :
    Host.Outcome State Fault Refusal := .next (hbmReadDone pc.val row lost outcome s)

/-- Write a unit of the weight or standby region again from what had filled it, when something has. -/
def rewriteUnit (addr : Nat) (s : State) : State :=
  match unitOfAddr s addr with
  | none => s
  | some (st, off, _, bs) => fillStage st off bs s
/-- A detection re-fetch from the bond store is written; its readers go on. One from the mirror ends with its pieces (R357). -/
def refetchDone (i : Nat) (s : State) : State :=
  match s.tiers.refetch[i]? with
  | none => s
  | some r =>
    if ¬ refetchReady s r ∨ wheelPick s ≠ some clRepair then s
    else cntAdd r.part (cMemory + 7) 1 (rewriteUnit r.addr
      (modTiers (fun t => { t with refetch := t.refetch.eraseIdx i }) (turnWheel s)))
/-- REFETCH_DONE (R266). -/
def execRefetchDone (i : Nat) (s : State) : Host.Outcome State Fault Refusal := .next (refetchDone i s)

end Sys2Proof.Machine
end

