-- ==== Sys2Proof/Machine/Bond.lean ====
section
/-! DEFINITION. Installing weights and scrubbing the bond store (R278, R280, R284, R289 to R292, R297, R298). -/

namespace Sys2Proof.Machine

/-- Bits of a manifest's header and records that carry fields: word, lowest bit, width. -/
def mfFields (stripes : Nat) : List (Nat × Nat × Nat) :=
  [(0, 0, 32), (1, 0, 12), (2, 0, 32), (3, 0, 24), (4, 0, 32), (5, 0, 32)] ++ wholeWords 8 16 ++
    (List.range stripes).flatMap fun x =>
      let o := 32 + 16 * x
      [(o, 0, 13), (o + 1, 0, 32), (o + 2, 0, 12), (o + 3, 0, 32), (o + 4, 0, 32)] ++ wholeWords (o + 8) 8
/-- The pieces of a manifest count their shards from 0 upward without gaps; empty and parity records carry 0 (R278). -/
def piecesOk (mf : List Word) : Bool :=
  (List.range (mfStripes mf)).all fun x =>
    if shKind mf x = 0 ∨ 6 ≤ shKind mf x then shPiece mf x == 0
    else
      let mine := (List.range (mfStripes mf)).filter fun y => shKind mf y == shKind mf x && shImage mf y == shImage mf x &&
        shOp mf y == shOp mf x && (shKind mf x != 5 || shCold mf y == shCold mf x)
      decide (shPiece mf x < mine.length) && (mine.filter fun y => shPiece mf y == shPiece mf x).length == 1
/-- The KIND of a record agrees with the parity position of its stripe (R283). -/
def kindOk (mf : List Word) (x : Nat) : Bool :=
  if mfMember mf = parityP x then shKind mf x == 6
  else if mfMember mf = parityQ x then shKind mf x == 7
  else decide (shKind mf x ≤ 5)
/-- Stripes that the shard area holds (R275). -/
def areaStripes (s : State) : Nat := if s.sec.ordering = 2 then 131024 else 65488
/-- The status with which BEGIN turns a manifest of `bytes` bytes away, or 0 (R280). The form comes first, then the capacity,
the signature and the version (log 56). -/
def manifestStatus (s : State) (bytes : Nat) (mf : List Word) : Nat :=
  let n := mfStripes mf
  let sig := mf.drop (32 + 16 * n)
  if 2 ^ 26 < bytes then 0x0903
  else if wordAt mf 0 ≠ 0x574D4C56 ∨ fld (wordAt mf 1) 0 8 ≠ 1 ∨ (wordAt mf 2).toNat ≠ bytes ∨ bytes ≠ 128 + 64 * n + 128 ∨
    mf.length ≠ bytes / 4 then 0x0903
  else if areaStripes s < n then 0x0908
  else if ¬ reservedOk mf 0 (32 + 16 * n) (mfFields n) ∨ sigReserved sig ∨
    !((List.range n).all fun x => decide (shKind mf x ≤ 7) && decide (shFmt mf x ≤ 10) && decide (shBytes mf x ≤ 2 ^ 24) && shBytes mf x % 64 == 0) ∨
    ¬ piecesOk mf ∨ (mfStriped mf ∧ (n % 8 ≠ 0 ∨ !((List.range n).all (kindOk mf)))) then 0x0903
  else if ¬ ownerSigOk s (mfBody mf) sig then 0x0903
  else if s.bnd.everSealed ∧ mfVersion mf ≤ s.bnd.sealedVersion then 0x090B
  else 0

/-- BEGIN, SHARD, FINISH and ABORT are taken in Manufacturing and Provisioned only (R290). -/
def installState (s : State) : Bool := decide (s.sec.lifecycle ≤ 1)

/-- The state of a manifest that has been written: one of no stripes is complete (R280). -/
def openedOrDone (mf : List Word) : ManState := if mfStripes mf = 0 then .complete else .opened
/-- weights.install BEGIN. -/
def weightsBegin (dma : Option (List Word)) (r : Request) (s : State) : State :=
  let bytes := (argOf r 3).toNat
  if ¬ installState s then reply r 0x0902 [] s
  else if overInstall s then reply r 0x0907 [] s
  else if 2 ^ 26 < bytes then reply r 0x0903 [] s
  else if ¬ dmaOpen s (dmaFn r) then dmaFailed r s
  else match dma with
    | none => dmaFailed r s
    | some all =>
      let mf := all.take (bytes / 4)
      let s0 := countRead bytes s
      if s.bnd.st = .opened ∧ s.bnd.manifest = mf then reply r 0 [] s0
      else if manifestStatus s bytes mf ≠ 0 then reply r (manifestStatus s bytes mf) [] s0
      else reply r 0 [] (countWritten (2 * bytes) (modBnd (fun b => { b with
        manifest := mf, st := openedOrDone mf, bitmap := [], rebuilds := [], lost := [], scrubAt := 0, scrubOk := 0, scrubBad := 0
        tagsDiffer := [] }) s0))
/-- WEIGHTS_BEGIN (R280, R290). -/
def execWeightsBegin (m : MbxId) (dma : Option (List Word)) (s : State) : Host.Outcome State Fault Refusal :=
  .next (takeSub m 0x0901 1 (weightsBegin dma) s)

/-- weights.install SHARD: `readBackOk` says that every page passes its check when it is read back. -/
def weightsShard (dma : Option (List Byte)) (readBackOk : Bool) (r : Request) (s : State) : State :=
  let x := fld (argOf r 1) 0 24
  let bytes := (argOf r 4).toNat
  let mf := s.bnd.manifest
  let put (t : State) : State := modBnd (fun b => { b with bitmap := b.bitmap ++ [x] }) t
  if ¬ installState s then reply r 0x0902 [] s
  else if overInstall s then reply r 0x0907 [] s
  else if s.bnd.st ≠ .opened then reply r 0x0909 [] s
  else if mfStripes mf ≤ x ∨ bytes ≠ shBytes mf x then reply r 0x0905 [] s
  else if x ∈ s.bnd.bitmap then reply r 0 [] s
  else if shKind mf x = 0 then reply r 0 [] (put s)
  else if ¬ dmaOpen s (dmaFn r) then dmaFailed r s
  else match dma with
    | none => dmaFailed r s
    | some all =>
      let data := all.take bytes
      let s1 := countWritten bytes (totAdd (tBond + 7) bytes (bondWriteFlat (shardFlat x) data (countRead bytes s)))
      if readBackOk ∧ wordsOfBytes (sha256 data) = shHash mf x ∧ data.length = bytes then reply r 0 [] (put s1)
      else reply r 0x0904 [] s1
/-- WEIGHTS_SHARD (R291). -/
def execWeightsShard (m : MbxId) (dma : Option (List Byte)) (readBackOk : Bool) (s : State) : Host.Outcome State Fault Refusal :=
  .next (takeSub m 0x0901 2 (weightsShard dma readBackOk) s)

/-- weights.install FINISH: a missing stripe is named in reply word 1. -/
def weightsFinish (r : Request) (s : State) : State :=
  let mf := s.bnd.manifest
  if ¬ installState s then reply r 0x0902 [] s
  else if s.bnd.st ≠ .opened then reply r 0x0909 [] s
  else match (List.range (mfStripes mf)).find? fun x => !(decide (x ∈ s.bnd.bitmap)) with
    | some x => reply r 0x0906 [0, w32 x] s
    | none => reply r 0 [] (logPkg 0x0905 false (mfStripes mf) (mfVersion mf % 2 ^ 32)
        (modBnd (fun b => { b with st := .complete }) s))
/-- WEIGHTS_FINISH (R292). -/
def execWeightsFinish (m : MbxId) (s : State) : Host.Outcome State Fault Refusal := .next (takeSub m 0x0901 3 weightsFinish s)

/-- weights.install ABORT. -/
def weightsAbort (r : Request) (s : State) : State :=
  if ¬ installState s then reply r 0x0902 [] s
  else if s.bnd.st ≠ .opened then reply r 0x0909 [] s
  else reply r 0 [] (modBnd (fun b => { b with manifest := [], st := .none, bitmap := [] }) s)
/-- WEIGHTS_ABORT (R292). -/
def execWeightsAbort (m : MbxId) (s : State) : Host.Outcome State Fault Refusal := .next (takeSub m 0x0901 4 weightsAbort s)

/-- STATE of the QUERY reply. -/
def manCode : ManState → Nat
  | .none => 0
  | .opened => 1
  | .complete => 2
/-- QUERY and GROUP are taken in every state but Returned and Retired (R290). -/
def queryState (s : State) : Bool := decide (s.sec.lifecycle ≤ 2)
/-- weights.install QUERY. -/
def weightsQuery (r : Request) (s : State) : State :=
  if ¬ queryState s then reply r 0x0902 [] s
  else reply r 0 ([w32 (manCode s.bnd.st), w32 s.bnd.bitmap.length, w32 (mfStripes s.bnd.manifest)] ++ w64 s.bnd.written ++
    [w32 (capWrites s)]) s
/-- WEIGHTS_QUERY (R289). -/
def execWeightsQuery (m : MbxId) (s : State) : Host.Outcome State Fault Refusal := .next (takeSub m 0x0901 5 weightsQuery s)

/-- A group table is invalid: this package's own position names another, or two positions share an identifier (R299). -/
def groupBad (s : State) (g : List Nat) : Bool :=
  let valid := g.filter fun x => decide (128 ≤ x)
  let own := g.getD (mfMember s.bnd.manifest) 0
  (s.bnd.st != .none && decide (128 ≤ own) && own % 128 != myPkg s) || !(pairwise (fun x y => x != y) valid)
/-- weights.install GROUP. -/
def weightsGroup (r : Request) (s : State) : State :=
  let g := (List.range 8).map fun i => fld (argOf r (1 + i)) 0 8
  if ¬ queryState s then reply r 0x0902 [] s
  else if groupBad s g then reply r 0x090A [] s
  else reply r 0 [] (modBnd (fun b => { b with group := g }) s)
/-- WEIGHTS_GROUP (R284). -/
def execWeightsGroup (m : MbxId) (s : State) : Host.Outcome State Fault Refusal := .next (takeSub m 0x0901 6 weightsGroup s)

/-! Patrol scrub (R298). -/

/-- The next installed shard of the pass. -/
def scrubNext (s : State) : Option Nat := (s.bnd.bitmap.filter fun x => decide (s.bnd.scrubAt ≤ x)).min?
/-- The scrub runs in Run and Quayside, in a slot that no other class wants. -/
def scrubOpen (s : State) : Bool := (s.pw.st == .run || s.pw.st == .quayside) && s.host.hm.ready && (wheelPick s).isNone
/-- The pass ends when no installed shard is left in it. -/
def scrubEnd (s : State) : State :=
  if (scrubNext s).isSome then s
  else modBnd (fun b => { b with scrubAt := 0, scrubOk := 0, scrubBad := 0 }) (logPkg 0x0903 false s.bnd.scrubOk s.bnd.scrubBad s)
/-- A shard has been read in full. -/
def scrubShard (fails : PageFails) (s : State) : State :=
  match scrubNext s with
  | none => s
  | some x =>
    if ¬ scrubOpen s then s
    else
      let bad := (fails.filter fun f => f.2).length
      let data := memRead s.x.bond (shardFlat x) (shBytes s.bnd.manifest x)
      let whole := shKind s.bnd.manifest x = 0 ∨ wordsOfBytes (sha256 data) = shHash s.bnd.manifest x
      let s1 := totAdd (tBond + 6) 1 (totAdd (tBond + 1) bad (totAdd tBond fails.length
        (modBnd (fun b => { b with scrubAt := x + 1, scrubOk := b.scrubOk + 1 }) s)))
      scrubEnd (if bad = 0 ∧ whole then s1 else startRebuild x true s1)
/-- PATROL_SCRUB_SHARD (R298). -/
def execPatrolScrubShard (fails : PageFails) (s : State) : Host.Outcome State Fault Refusal := .next (scrubShard fails s)

end Sys2Proof.Machine
end

