-- ==== Sys2Proof/Machine/Steps.lean ====
section
/-! DEFINITION. Steps: submission, query, abort, admission and commit (R28 to R30, R157 to R161, R190 to R196, R352, R354,
R395, R419 to R424, R538, R542). -/

namespace Sys2Proof.Machine

/-! The input journal (R542). -/

/-- Bytes of the ring. -/
def ringBytes (s : State) (p : Nat) : Nat := journalMib (imgOf s p) * 2 ^ 20
/-- Bytes of an entry for an input of `n` bytes. -/
def entryBytes (n : Nat) : Nat := roundUp (64 + n) 4096
/-- Where an entry of `n` bytes is placed, if the ring has room. -/
def ringPlace (s : State) (p n : Nat) : Option Nat :=
  let j := (partOf s p).jr
  let a := if ringBytes s p < j.jnext + n then 0 else j.jnext
  if ringBytes s p < n ∨ j.jring.any (fun e => meets e.1 e.2.1 a n) then none else some a
/-- The bytes of an entry: header, input, padding. -/
def entryOf (step : Nat) (input : List Byte) : List Byte :=
  let b := bytesOfWords (w64 step ++ [w32 input.length] ++ List.replicate 13 0) ++ input
  b ++ List.replicate (entryBytes input.length - b.length) 0

/-- Place an entry in both copies of the ring. -/
def journalPut (p step a : Nat) (entry : List Byte) (s : State) : State :=
  let off := 2 ^ 48 + a
  let s1 := hbmWrite p (off + ringBytes s p) entry (hbmWrite p off entry s)
  modJr p (fun j => { j with jring := j.jring ++ [(a, entry.length, step)], jnext := a + entry.length }) s1

/-- The bytes of a step's entry. -/
def journalRead (s : State) (p step : Nat) : List Byte :=
  match (partOf s p).jr.jring.find? fun e => e.2.2 = step with
  | some e => hbmRead s p (2 ^ 48 + e.1) e.2.1
  | none => []

/-- A request that carries a step's input or outputs to a holder, or its outputs to the next member, is outstanding. -/
def relPending (s : State) (p id : Nat) : Bool :=
  s.fab.src.any fun x => (x.outs ++ x.waiting).any fun o => o.rel == some (p, id)

/-- Answer the submissions whose input records the holder has acknowledged (R352). -/
def answerInputs (s : State) : State :=
  (List.range 32).foldl (fun t p => ((partOf t p).run.steps.filter fun r => r.submit.isSome && !relPending t p r.id).foldl (fun u r =>
    match r.submit with
    | some q => reply q 0 (w64 r.id ++ [0]) (modStep p r.id (fun x => { x with submit := none }) u)
    | none => u) t) s

/-- Send a step's input to the package's holder (R352). -/
def mirrorInput (p step : Nat) (s : State) : State :=
  match activeHolder s with
  | none => s
  | some h => mirrorSend h (some (p, step)) (inputRecords p step (partOf s p).run.committed (journalRead s p step)) s

/-- Keep a newly accepted step; the last 1,024 are kept (R423). -/
def pushStep (p : Nat) (r : StepRec) (s : State) : State :=
  modRun p (fun q => { q with
    steps := (q.steps ++ [r]).drop (q.steps.length + 1 - 1024), last := max q.last r.id }) s

/-! step.submit (R419 to R421, R538). -/

/-- A sequence record of the submission: identifier, new tokens, MAX_LEN. -/
abbrev SeqArg := Nat × Nat × Nat

/-- The sequence records of a submission. -/
def seqArgs (n : Nat) (ws : List Word) : List SeqArg :=
  (List.range n).map fun i => ((wordAt ws (4 * i)).toNat, fld (wordAt ws (4 * i + 1)) 0 13, fld (wordAt ws (4 * i + 2)) 0 25)
/-- Reserved bits of the sequence records are zero. -/
def seqArgsClean (n : Nat) (ws : List Word) : Bool :=
  (List.range n).all fun i => reservedOk (slice ws (4 * i) 4) 0 4 [(0, 0, 32), (1, 0, 13), (2, 0, 25)]

/-- Tokens that accepted and admitted steps will add to a sequence. -/
def tokensComing (s : State) (p seq : Nat) : Nat :=
  ((accepted s p ++ flying s p).map fun r => ((r.seqs.filter fun u => u.seqId == seq).map fun u => u.newTokens).foldl max 0).sum

/-- The MAX_LEN rule of a Ferry ring member (R199). -/
def ringLenOk (b : List Word) (n : Nat) : Bool :=
  !recRing b || n % ((if recRingLayout b = 1 then 128 else 64) * recRingSize b) == 0

/-- Units that opening a slot of a sequence takes from the quota: its page list, and, for the first slot of a latency-critical
sequence, the reservation of the whole sequence (R192). -/
def openUnits (s : State) (p maxLen : Nat) (first : Bool) : Nat × Nat :=
  let ts := tablesOf s p
  (listUnits ts maxLen, if first ∧ recClass (bank s p) then (ts.map fun t => pagesFor t maxLen * pageUnits t).sum else 0)

/-- The check of one sequence record: 0, or the status that refuses the step. -/
def seqStatus (s : State) (p : Nat) (a : SeqArg) : Nat :=
  let b := bank s p
  if 4096 < a.2.1 then 0x0D09
  else match slotsOfSeq (partOf s p).kv a.1 with
    | i :: more =>
      let e := slotAt s p i
      if a.2.2 ≠ 0 ∧ a.2.2 ≠ e.maxLen then 0x0D09
      else if (i :: more).any fun k => (slotAt s p k).st == .lost then 0x0605
      else if e.maxLen < e.length + tokensComing s p a.1 + a.2.1 then 0x0602 else 0
    | [] =>
      if a.2.2 = 0 then 0x0603
      else if 16777216 < a.2.2 ∨ ¬ ringLenOk b a.2.2 then 0x0D09
      else if (partOf s p).cfg.shadow = .staged ∧ (recClass (shadowBank (partOf s p)) ≠ recClass b ∨
          kvTables (((recImg s (shadowBank (partOf s p))).map fun i => i.words).getD []) ≠ kvTables (imgOf s p)) then 0x1301
      else if a.2.2 < a.2.1 then 0x0602 else 0

/-- Room for a page list in the KV-table region, lowest first. -/
def listPlace (s : State) (p n : Nat) : Nat :=
  let ts := tablesOf s p
  let runs := ((partOf s p).kv.slots.map fun e => (hbmIn e.2.listBase / 4096, cdiv (8 * listEntries ts e.2.maxLen) 4096)).foldl
    (fun l r => insertRun r l) []
  3 * 2 ^ 48 + 4096 * gapFrom (max n 1) 0x1000 runs

/-- First positions of the slots of a new sequence (R186, R199). -/
def basePositions (b : List Word) (maxLen : Nat) : List Nat :=
  if ¬ recRing b then [0]
  else
    let r := recRingSize b
    let q := recRingPos b
    if recRingLayout b = 1 then [q * (maxLen / (2 * r)), (2 * r - 1 - q) * (maxLen / (2 * r))] else [q * (maxLen / r)]

/-- Open a sequence: a slot for each of its shards; none without a free slot or without the units it takes. Its reservation is
made once, in its first slot (R192). -/
def openSeq (p : Nat) (a : SeqArg) (s : State) : Option State :=
  let ts := tablesOf s p
  let bps := basePositions (bank s p) a.2.2
  (List.range bps.length).foldl (fun acc k =>
    match acc with
    | none => none
    | some t =>
      match allocFrom ((partOf t p).kv.slots.map fun e => e.1) 65536 0 with
      | none => none
      | some i =>
        let u := openUnits t p a.2.2 (k == 0)
        if kvFree t p < u.1 + u.2 then none
        else
          let lb := listPlace t p (cdiv (8 * listEntries ts a.2.2) 4096)
          some (modSlot p i (fun _ => { seqId := a.1, st := .resident, basePos := bps.getD k 0, maxLen := a.2.2, listBase := lb
                                        reserved := u.2 }) t))
    (some s)

/-- Open the new sequences of a step; none when one cannot be opened (R192). -/
def openAll (p : Nat) (as : List SeqArg) (s : State) : Option State :=
  as.foldl (fun acc a => match acc with
    | none => none
    | some t => if (slotOfSeq (partOf t p).kv a.1).isSome then some t else openSeq p a t) (some s)

/-- Output bytes that the lists of the active image name at END_STEP. -/
def outBytes (s : State) (p : Nat) : Nat :=
  let ws := imgOf s p
  ((runners s p).map fun c => ((listOfCluster s p c).map fun l =>
    ((listCmds ws l).map fun k => if cOp k = 13 then (wordAt k 2).toNat else 0).sum).getD 0).sum

/-- A duplicate of an accepted step: a held result is written to the new addresses (R421, R422). -/
def resubmit (p : Nat) (r : Request) (s : State) : State :=
  let id := dwordAt r.words 2
  let fn := p
  let out := dwordAt r.words 10
  let cpl := dwordAt r.words 13
  let vec := fld (argOf r 2) 16 5
  let give (data : List Byte) (rec : List Word) (t : State) : State :=
    let t1 := hostWrite fn cpl (bytesOfWords rec) (hostWrite fn out data t)
    if vec = 0 then t1 else raiseMsix fn vec t1
  let s1 := match (partOf s p).run.hold.find? fun h => h.id = id with
    | some h =>
      if dmaOpen s fn then give h.data h.record (modRun p (fun q => { q with hold := q.hold.filter fun x => x.id != id }) s) else s
    | none =>
      match stepRec s p id with
      | some x => if (x.st = .completed ∨ x.st = .withdrawn) ∧ dmaOpen s fn then give [] (cplRecord { id, status := 0x0D11 } 0) s else s
      | none => if dmaOpen s fn then give [] (cplRecord { id, status := 0x0D11 } 0) s else s
  reply r 0 (w64 id ++ [1]) s1

/-- The refusals of step.submit that depend on the partition and the package: 0, or the status (R293, R379, R420, R446). -/
def submitGate (s : State) (p : Nat) : Nat :=
  let q := partOf s p
  if ¬ sealedOk s then 0x0901
  else if (s.pw.st = .berth ∨ s.pw.st = .mooring) ∧ ¬ s.pw.autoWake then 0x0E03
  else match q.cfg.st with
    | .closed => 0x0C07
    | .opened => 0x0C07
    | .halted => 0x0503
    | .serving => if q.run.freeDrop then 0x0C07 else 0

/-- step.submit for a new step, its DMA reads done. -/
def acceptStep (p : Nat) (r : Request) (ws : List Word) (input : List Byte) (s : State) : State :=
  let id := dwordAt r.words 2
  let n := fld (argOf r 2) 0 16
  let as := seqArgs n ws
  let nb := (argOf r 7).toNat
  let bad := (as.map (seqStatus s p)).find? (· != 0)
  if ¬ seqArgsClean n ws then reply r 0x0D02 [] s
  else if ¬ pairwise (fun (a b : SeqArg) => a.1 != b.1) as then reply r 0x0D09 [] s
  else if (argOf r 10).toNat < outBytes s p then reply r 0x0D0D [] s
  else if ringBytes s p < entryBytes nb then reply r 0x0D09 [] s
  else if bad.isSome then reply r (bad.getD 0) [] s
  else if s.host.hm.cutOff ∧ (activeHolder s).any (fun h => h != myPkg s) then reply r 0x0A0A [] s
  else match ringPlace s p (entryBytes nb), openAll p as s with
    | none, _ => reply r 0x0D0C [] s
    | _, none => reply r 0x0601 [] s
    | some a, some s1 =>
      let uses := as.flatMap fun x => (slotsOfSeq (partOf s1 p).kv x.1).map fun i => ({ seqId := x.1, slot := i, newTokens := x.2.1 } : SeqUse)
      let rec' : StepRec := { id, host := true, fn := p, vector := fld (argOf r 2) 16 5, outAddr := dwordAt r.words 10
                              outCap := (argOf r 10).toNat, cplAddr := dwordAt r.words 13, seqs := uses, inAt := a, inBytes := nb
                              arrivedNs := s.now }
      let s2 := journalPut p id a (entryOf id input) (pushStep p rec' s1)
      let s3 := mirrorInput p id s2
      if relPending s3 p id then modStep p id (fun x => { x with submit := some r }) s3 else reply r 0 (w64 id ++ [0]) s3

/-- step.submit. -/
def stepSubmit (seqs : Option (List Word)) (input : Option (List Byte)) (r : Request) (s : State) : State :=
  let p := partArg r
  let id := dwordAt r.words 2
  let n := fld (argOf r 2) 0 16
  let vec := fld (argOf r 2) 16 5
  let nb := (argOf r 7).toNat
  let last := (partOf s p).run.last
  let fn := p
  if submitGate s p ≠ 0 then reply r (submitGate s p) [] s
  else if (1 ≤ vec ∧ vec ≤ 4) ∨ dwordAt r.words 5 % 16 ≠ 0 ∨ dwordAt r.words 7 % 64 ≠ 0 ∨ dwordAt r.words 10 % 64 ≠ 0 ∨
    dwordAt r.words 13 % 64 ≠ 0 then reply r 0x0D09 [] s
  else if last + 1 < id then reply r 0x0D07 [] s
  else if id ≤ last then resubmit p r s
  else if 16380 < n then reply r 0x0803 [] s
  else if 64 ≤ (accepted s p).length then reply r 0x0D0C [] s
  else if (n ≠ 0 ∨ nb ≠ 0) ∧ ¬ dmaOpen s fn then dmaFailed r s
  else match (if n = 0 then some [] else seqs), (if nb = 0 then some [] else input) with
    | some ws, some bs =>
      acceptStep p r ws ((bs ++ List.replicate (nb - bs.length) 0).take nb) (countRead nb (countRead (16 * n) s))
    | _, _ => dmaFailed r s

/-- A step.submit that arrives in Berth or Mooring with AUTO_WAKE set starts the exit and is answered after it (R446). -/
def submitOrWake (seqs : Option (List Word)) (input : Option (List Byte)) (r : Request) (s : State) : State :=
  if (s.pw.st = .berth ∨ s.pw.st = .mooring) ∧ s.pw.autoWake then
    modPw (fun w => { w with target := some .run }) (modJournal (fun j => r :: j) s)
  else stepSubmit seqs input r (if s.pw.st = .quayside ∧ s.pw.autoWake ∧ s.pw.target.isNone
    then modPw (fun w => { w with target := some .run }) s else s)

/-- STEP_SUBMIT. -/
def execStepSubmit (m : MbxId) (seqs : Option (List Word)) (input : Option (List Byte)) (s : State) :
    Host.Outcome State Fault Refusal := .next (takeCmd m 0x0401 (submitOrWake seqs input) s)

/-! step.query and step.abort (R423, R424). -/

/-- STATE of step.query. -/
def stepCode : StepState → Nat
  | .accepted => 1
  | .admitted => 2
  | .finished => 2
  | .completed => 3
  | .withdrawn => 4

/-- step.query. -/
def stepQuery (r : Request) (s : State) : State :=
  match stepRec s (partArg r) (dwordAt r.words 2) with
  | none => reply r 0 (List.replicate 7 0) s
  | some x => reply r 0 ([w32 (stepCode x.st), w32 (x.status + 65536 * x.cause)] ++ w64 x.admitNs ++ w64 x.doneNs ++ [w32 x.latencyNs]) s

/-- STEP_QUERY. -/
def execStepQuery (m : MbxId) (s : State) : Host.Outcome State Fault Refusal := .next (takeCmd m 0x0402 stepQuery s)

/-- step.abort. -/
def stepAbort (r : Request) (s : State) : State :=
  let p := partArg r
  let id := dwordAt r.words 2
  let ids := ((accepted s p).filter fun x => id == 2 ^ 64 - 1 || x.id == id).map fun x => x.id
  reply r 0 [w32 ids.length] (ids.foldl (fun t i => withdrawStep p i false t) s)

/-- STEP_ABORT. -/
def execStepAbort (m : MbxId) (s : State) : Host.Outcome State Fault Refusal := .next (takeCmd m 0x0403 stepAbort s)

/-! Admission (R157, R190 to R196, R252). -/

/-- Admission to a partition is open: the package serves and runs, no swap or power drain is in progress, no barrier has hung. -/
def admitOpen (s : State) (p : Nat) : Bool :=
  let q := partOf s p
  q.cfg.st == .serving && q.cfg.shadow != .staged && !q.run.stopped && !q.run.freeDrop && !s.host.hm.failed &&
    s.pw.st == .run && s.pw.target.isNone && s.car.run.isNone && !s.car.starting && s.sec.stopping.isNone

/-- MIN_INTERVAL_NS has passed since the last admission, for a latency-critical partition (R157, R162). -/
def intervalOk (s : State) (p : Nat) : Bool :=
  !recClass (bank s p) || match (partOf s p).run.lastAdmit with
    | none => true
    | some t => decide (t + (tmWord (imgOf s p) 3).toNat ≤ s.now)

/-- The sequence table of a step (R188, R240). -/
def writeSeqTable (p : Nat) (r : StepRec) (s : State) : State :=
  modKv p (fun k => { k with seqTables := tset k.seqTables (r.id % 16) {
    step := r.id
    records := r.seqs.map fun u => [u.seqId, u.slot, (slotAt s p u.slot).length, u.newTokens] } }) s

/-- Admit a step whose pages are there. -/
def admitNow (p : Nat) (r : StepRec) (pages : List (Nat × Nat)) (s : State) : State :=
  let s1 := modStep p r.id (fun x => { x with st := .admitted, admitNs := s.now, newPages := pages }) (writeSeqTable p r (chargeFrames p s))
  let s2 := cntAdd p (cStage + 3) (s.now - r.arrivedNs) (cntAdd p (cAttend + 5) pages.length s1)
  let d := (partOf s p).cfg.drainNs
  let s4 := if d = 0 then s2 else modCfg p (fun c => { c with drainNs := 0 }) (cntAdd p cConfig d s2)
  startRuns p r.id (modRun p (fun q => { q with lastAdmit := some s.now }) s4)

/-- Allocate the pages of a step one after another. -/
def allocAll (p : Nat) : List (Nat × Nat × Nat) → State → Option State
  | [], s => some s
  | q :: qs, s => match allocPage p q.1 q.2.1 q.2.2 s with
    | none => none
    | some t => allocAll p qs t

/-- Admit the oldest accepted step of a partition, or bring it nearer to its admission; what has left service folds first. -/
def stepAdmit (p : Nat) (s0 : State) : State :=
  let s := foldBoundary p s0
  match accepted s p with
  | [] => s
  | r :: _ =>
    let busy := (flying s p).flatMap fun x => x.seqs.map fun u => u.slot
    let restored := !recClass (bank s p) || ((stageOf s p).map fun st => st.complete).getD true
    if ¬ admitOpen s p ∨ ¬ intervalOk s p ∨ ¬ restored ∨ relPending s p r.id ∨ r.seqs.any (fun u => decide (u.slot ∈ busy)) then s
    else if r.seqs.any (fun u => (slotAt s p u.slot).st == .lost) then endStepWith p r.id 0x0605 0 0 s
    else
      let named := r.seqs.map fun u => u.slot
      let away := named.filter fun i => (slotAt s p i).st == .swapped
      if away ≠ [] then away.foldl (fun t i => startReturn p i t) s
      else if named.any (fun i => (slotAt s p i).swapOut != []) then s
      else
        let need := pagesNeeded s p r.seqs
        let units := (need.map fun q => q.2.2).sum
        match allocAll p need s with
        | some t => admitNow p r (need.map fun q => (q.1, q.2.1)) t
        | none =>
          let pr := preempt p r.id named s
          if pr.1 then awaitFrames p pr.2
          else if flying s p ≠ [] then pr.2
          else kvExhausted p r.id units pr.2

/-- STEP_ADMIT. -/
def execStepAdmit (part : Fin 32) (s : State) : Host.Outcome State Fault Refusal := .next (stepAdmit part.val s)

/-! Commit (R28 to R30). -/

/-- W of R158 in nanoseconds. -/
def worstCase (s : State) (p : Nat) : Nat :=
  let ws := imgOf s p
  let b := bank s p
  let n := (partOf s p).cfg.folded.length
  let a := (tmWord ws 0).toNat + n * (tmWord ws 2).toNat
  let ratio := if s.pw.mode then s.pw.ratio else 33
  cdiv (a * 33 * (if imgLegacy ws then 1020 else 1005)) (ratio * 1000) + (tmWord ws 1).toNat + gvAllowance ws +
    fld (tmWord ws 5) 0 16 * (if recGather b then recDeadline b else 0)

/-- The storm delay of a step that completes action 3 now (R126): its own waits for rung data, those of its clusters side by side
counted once, and what it inherits behind earlier stalled steps, measured against when it would have completed without any
(log 35). -/
def stormDelay (s : State) (p : Nat) (r : StepRec) : Nat × Nat :=
  let q := (partOf s p).run
  let own := (r.rungWaits.map fun w => w.2).foldl max 0
  let exec := s.now - max r.admitNs q.doneAt - own
  let free := max r.admitNs q.freeAt + exec
  (s.now - free, free)
/-- A step was run under a storm pin (R125, R128). -/
def pinnedAt (s : State) (p id : Nat) : Bool := (partOf s p).fb.cur.storms.any fun w => decide (w.1 ≤ id ∧ id ≤ w.2)
/-- The latency counts of a step (R126, R128, R161, R231). The manual gives no rounding of the times of event 0x0406 to
microseconds: they are rounded down (DESIGN CHOICE, log 131). -/
def countLatency (p : Nat) (r : StepRec) (lat : Nat) (s : State) : State :=
  let ws := imgOf s p
  let d := stormDelay s p r
  let s0 := modStep p r.id (fun x => { x with stormNs := d.1 }) (modRun p (fun q => { q with doneAt := s.now, freeAt := d.2 }) s)
  let s1 := cntAdd p (cStage + 6) (partOf s p).cfg.folded.length (cntAdd p (cStage + 4) lat
    (if pinnedAt s p r.id then cntAdd p (cChamois + 11) 1 s0 else s0))
  let storm := decide (gvAllowance ws < d.1)
  let s2 := if storm then
      modFb p (fun f => { f with stormOverruns := f.stormOverruns + 1 })
        (onceEvent 0x0406 false p noOp r.id (d.1 / 1000) (gvAllowance ws / 1000) (cntAdd p (cChamois + 12) 1 s1))
    else s1
  if ¬ recClass (bank s p) ∨ lat ≤ worstCase s p ∨ storm then s2
  else if r.coldOrSpill then
    onceEvent 0x0705 false p noOp r.id (min lat 0xFFFFFFFF) (min (worstCase s p) 0xFFFFFFFF) (cntAdd p (cExpert + 12) 1 s2)
  else if r.overran then s2
  else onceEvent 0x0502 false p noOp r.id (min lat 0xFFFFFFFF) (min (worstCase s p) 0xFFFFFFFF) (cntAdd p (cStage + 5) 1 s2)

/-- The outputs of a step, in ascending cluster order and list order (R145). -/
def outputs (s : State) (r : StepRec) : List Byte :=
  ((List.range 48).flatMap fun c => r.outs.filter fun o => o.cluster == c).flatMap fun o => sramRead s o.addr o.bytes

/-- The member that follows this package in a job, and its partition (log 22). -/
def nextMember (s : State) (job : Nat) : Option (Nat × Nat) :=
  match jobOf s job with
  | none => none
  | some j =>
    match (j.members.filter fun m => decide (myPkg s < m)).min? with
    | none => none
    | some m => some (m, ((List.range 32).find? fun p => (tgetD j.parts m 0).testBit p).getD 0)

/-- Action 3 sends a step's outputs to the next member and to its holder (R29, R352). -/
def release (p : Nat) (r : StepRec) (s : State) : State :=
  let data := outputs s r
  let s1 := modStep p r.id (fun x => { x with released := true }) s
  match nextMember s (recJob (bank s p)) with
  | none => s1
  | some (dst, dp) =>
    let body := bytesOfWords (w64 r.id ++ [w32 data.length] ++ List.replicate 13 0) ++ data
    let q := issuePush 0 dst (recJob (bank s p)) (some p) (some (p, r.id)) dp (5 * 2 ^ 48) (body ++ List.replicate ((4 - body.length % 4) % 4) 0) true s1
    match holderOf s dst with
    | none => q.2
    | some h => mirrorSend h (some (p, r.id)) (inputRecords dp r.id (partOf s p).run.committed (entryOf r.id data)) q.2

/-- The clusters free a step's slots, with its expert queues, return counters and cold-slot pins (R143, R220, R230). -/
def freeSlots (p id : Nat) (s : State) : State :=
  let s := clearExchange p id s
  { s with
    stages := s.stages.map fun st => { st with cold := st.cold.map fun e => (e.1, { e.2 with pins := e.2.pins.filter (· != (p, id)) }) }
    x := { s.x with clusters := s.x.clusters.map fun e =>
      let mine := (e.2.slots.filter fun q => q.2 == (p, id)).map fun q => q.1
      (e.1, { e.2 with
        slots := e.2.slots.filter (fun q => q.2 != (p, id))
        inbox := e.2.inbox.filter (fun q => !(decide (q.1 / 16 ∈ mine)))
        runs := e.2.runs.filter fun q => !(q.part == p && q.step == id) }) } }

/-- Action 3 ends: every acknowledgement is there, the results go to the host, and the latency of the step runs to here (R157,
R352, R422). -/
def releaseEnds (p : Nat) (r : StepRec) (s : State) : State :=
  let lat := min (s.now - r.admitNs) 0xFFFFFFFF
  countLatency p r lat (freeSlots p r.id (deliver p { r with latencyNs := lat, status := 0 } (outputs s r)
    (modStep p r.id (fun x => { x with action := 3, latencyNs := lat }) s)))

/-- Action 4: latch the step's statistics and restart its counts (R395). -/
def latchStats (p : Nat) (r : StepRec) (s : State) : State :=
  let q := partOf s p
  let e := tgetD q.stat.cum cEnergy 0 + tgetD q.stat.cum (cEnergy + 1) 0 + tgetD q.stat.cum (cEnergy + 2) 0
  let per := (List.range nCounters).filter fun k => k != cConfig + 3 && k != cConfig + 4
  let words := w64 r.id ++ w64 r.admitNs ++ w64 s.now ++
    [w32 (b2n q.cfg.active + 2 * b2n (recClass (activeBank q)) + 4 * b2n r.replayed), 0] ++ w64 (e - q.stat.energyMark) ++
    per.map fun k => w32 (tgetD q.stat.cnt k 0)
  let lost := match q.stat.latch with
    | o :: _ => decide (16 ≤ q.stat.latch.length) && !o.seen
    | [] => false
  let s1 := if lost then cumAdd p (cConfig + 3) 1 s else s
  modStat p (fun t => { t with
    latch := (ringPush 16 t.latch { id := r.id, words }).1, cnt := [], energyMark := e }) s1

/-- Action 5: the step is committed (R29, R121, R127, R191, R355, R542). Where a pin carried over from the last window and a
storm of this one end with the same step, the manual does not say how many storm-end events are written: one for each (DESIGN
CHOICE, log 132). -/
def commitStep (p : Nat) (r : StepRec) (s : State) : State :=
  let s1 := r.seqs.foldl (fun t u => modSlot p u.slot (fun e => { e with length := e.length + u.newTokens, lastStep := r.id }) t) s
  let s2 := modRun p (fun q => { q with
    committed := r.id, fired := q.fired.filter fun f => decide (windowOf r.id ≤ f.2) }) s1
  let s3 := modStep p r.id (fun x => { x with st := .completed, status := 0, doneNs := s.now, action := 5 }) s2
  let s4 := modJr p (fun j => { j with jring := j.jring.filter fun e => e.2.2 != r.id }) s3
  let f := (partOf s p).fb
  let gone := f.cur.storms.filter fun w => w.2 == r.id
  let s5 := gone.foldl (fun t _ => logEvent 0x0407 false p noOp r.id f.stormOverruns f.rungChunks t) s4
  let turn := windowOf (r.id + 1) != windowOf r.id
  modFb p (fun f => { f with
    com := fbTurn s p r.id (fbAsOf s p r.id)
    cur := fbTurn s p r.id f.cur
    evts := f.evts.filter fun v => decide (r.id < v.step)
    stormOverruns := if turn then 0 else f.stormOverruns
    rungChunks := if turn then 0 else f.rungChunks
    chunks := if turn then 0 else f.chunks }) s5

/-- Action 6 and what a step boundary brings: a staged swap, freed sequences, the close that a reset awaits (R29, R197, R390,
R407). -/
def boundary (p : Nat) (s : State) : State :=
  let s1 := modCfg p (fun c => if c.shadow = .staged then { c with drained := c.drained + 1 } else c) s
  let s2 := trySwap p (freeEvicted p (foldBoundary p s1))
  let s3 := if s2.sec.stopping.isSome then modSec (fun x => { x with stopCommits := x.stopCommits + 1 }) s2 else s2
  if (partOf s3 p).run.freeDrop ∧ flying s3 p = [] then closePart p true s3 else s3

/-- No probe, outstanding command or gathered pass of a step is left (R28). -/
def stepQuiet (s : State) (p id : Nat) : Bool :=
  (s.x.clusters.all fun e => !(e.2.outst.any fun o => o.part == p && o.step == id)) &&
  (s.x.cores.all fun e => !(e.2.gather.any fun g => g.part == p && g.step == id)) &&
  (s.x.chm.all fun e => !((e.2.queue ++ e.2.waiting).any fun q => q.part == p && q.step == id))

/-- Action 1: the step's pages are in HBM; its records go to the holder (R29, R354). -/
def commitMirror (p : Nat) (r : StepRec) (s : State) : State :=
  match activeHolder s with
  | none => modStep p r.id (fun x => { x with action := 1, acked := true }) s
  | some h =>
    let recs := stepRecords s p r
    let all := recs ++ [mirrorRec 6 p r.id (partOf s p).run.committed 0 0 0 0 [] recs.length]
    let s1 := mirrorSend h none all s
    modStep p r.id (fun x => { x with action := 1, records := all.length })
      (modCont (fun c => { c with
        sent := c.sent ++ [(p, r.id, all)], resend := c.resend.filter fun q => q.1 != p }) s1)

/-- One action of the commit of a step, or nothing while it waits. -/
def commitAction (p : Nat) (r : StepRec) (s : State) : State :=
  match r.action with
  | 0 => commitMirror p r s
  | 1 => if r.acked then modStep p r.id (fun x => { x with action := 2 }) s else s
  | 2 => if ¬ r.released then release p r s
    else if relPending s p r.id then s else releaseEnds p r s
  | 3 => modStep p r.id (fun x => { x with action := 4 }) (latchStats p r s)
  | _ => boundary p (commitStep p r s)

/-- The oldest step of a partition, when it has finished and the package may commit (R28, R30, R337, R348). -/
def toCommit (s : State) (p : Nat) : Option StepRec :=
  match flying s p with
  | r :: _ => if r.st = .finished ∧ stepQuiet s p r.id ∧ ¬ s.host.hm.failed ∧ ¬ s.host.hm.cutOff then some r else none
  | [] => none

/-- Carry the commit of the oldest step as far as it goes: at most `fuel` actions. -/
def stepCommit (p : Nat) : Nat → State → State
  | 0, s => s
  | fuel + 1, s =>
    match toCommit s p with
    | none => s
    | some r =>
      let t := commitAction p r s
      match stepRec t p r.id with
      | some q => if q.st = .finished ∧ (q.action ≠ r.action ∨ q.released ≠ r.released) then stepCommit p fuel t else t
      | none => t

end Sys2Proof.Machine
end

