-- ==== Sys2Proof/Machine/Fabric.lean ====
section
/-! DEFINITION. The fabric at a destination and at a source: streams in order, checks, loads, stores, atomics, queue pushes, bulk
pushes, releases, services, responses and the timers of a stream (R302, R312 to R327, R353 to R357, R446, R542). -/

namespace Sys2Proof.Machine

/-! Streams at their destination (R320 to R322). -/

/-- The stream of a plane, source and job. -/
def dstOf (s : State) (plane src job : Nat) : DstStream :=
  (s.fab.dst.find? fun x => x.plane = plane ∧ x.src = src ∧ x.job = job).getD { plane, src, job }
/-- Replace a stream. -/
def putDst (x : DstStream) (s : State) : State :=
  let same : DstStream → Bool := fun y => y.plane == x.plane && y.src == x.src && y.job == x.job
  let xs := s.fab.dst
  modFab (fun f => { f with dst := if xs.any same then xs.map (fun y => if same y then x else y) else xs ++ [x] }) s

/-- Send an ACK of everything applied before `upto`, with SEQ of the last request applied in order (R322). -/
def sendAck (plane src job upto : Nat) (s : State) : State :=
  let h := mkHdr 0x11 0 1 job (myPkg s) 0 (genOf s job) 0 ((upto + 2 ^ 32 - 1) % 2 ^ 32) 0 0 0
  transmit plane src 0 h [] (putDst { dstOf s plane src job with acked := upto } s)

/-- Answer request `h` of a stream; what was applied before it is acknowledged first (R313, R322). -/
def respond (plane upto : Nat) (h : List Word) (op status addr : Nat) (data : List Byte) (s : State) : State :=
  let s1 := if (dstOf s plane (hSrc h) (hJob h)).acked = upto then s else sendAck plane (hSrc h) (hJob h) upto s
  let r := mkHdr op 0 1 (hJob h) (myPkg s) (hDstPart h) (hGen h) addr (hSeq h) data.length (hTag h) status
  let s2 := transmit plane (hSrc h) 0 r data s1
  if data = [] then s2 else cntAdd (hDstPart h) (cJeren + 1) (cdiv data.length 64) s2

/-! Checks of a request (R312, R313, R315, R316, R331). -/

/-- The local page and offset: bytes of a request lie within one 4 KiB page. -/
def inPage (h : List Word) : Bool := decide (hOff h % 4096 + hLen h ≤ 4096)
/-- Reserved header bits are zero. -/
def hdrClean (h : List Word) : Bool :=
  reservedOk h 0 8 ([(0, 0, 32), (1, 0, 7), (1, 8, 5), (1, 16, 8), (5, 0, 13), (5, 16, 16)] ++ [2, 3, 4, 6, 7].map fun i => (i, 0, 32))
/-- Bytes of the operand of an atomic. -/
def atomicWidth (h : List Word) : Nat := if 8 ≤ hSub h then 8 else 4
/-- The form of a request is right. -/
def formOk (h : List Word) (data : List Byte) : Bool :=
  let op := hOp h
  let n := hLen h
  let sub := hSub h
  hdrClean h && decide (1 ≤ op ∧ op ≤ 6 ∧ hVc h = 0 ∧ n % 4 = 0 ∧ n ≤ 4096 ∧ hAddr h % 4 = 0) &&
    (op == 1 || data.length == n) &&
    (match op with
    | 1 | 2 => sub == 0 && inPage h
    | 3 => decide (n = if sub % 8 = 7 then 16 else 8) && inPage h && hOff h % atomicWidth h == 0
    | 4 => decide (sub ≤ 2) && hOff h % 4096 == 0 && decide (hOff h / 4096 % 64 < 48) && hOff h / 2 ^ 22 == 0 &&
        (sub != 1 || (n == 64 && hOff h / 2 ^ 18 == 0))
    | 5 => decide (sub ≤ 1) && inPage h
    | _ => decide (1 ≤ sub ∧ sub ≤ 4))
/-- Partition `p` of a package is a member of a job entry. -/
def isMember (e : Job) (pkg p : Nat) : Bool := decide (pkg ∈ e.members) && (tgetD e.parts pkg 0).testBit p
/-- The status with which a request is turned away before its effect, or 0. -/
def reqStatus (s : State) (h : List Word) (data : List Byte) : Nat :=
  if ¬ formOk h data then 0x0A05
  else if hJob h = serviceJob then 0
  else match jobOf s (hJob h) with
    | none => 0x0A03
    | some e =>
      if hOp h = 6 then (if hSrc h ∈ e.members then 0 else 0x0A03)
      else if isMember e (hSrc h) (hSrcPart h) && isMember e (myPkg s) (hDstPart h) then 0 else 0x0A03
/-- An ACK-only request (R326). -/
def ackOnly (h : List Word) (data : List Byte) : Bool :=
  hdrClean h && hOp h == 2 && hSub h == 0 && hLen h == 0 && hDstPart h == 0 && hOff h == 0 && data == []

/-! Effects (R220, R221, R224, R232, R239, R324, R325, R542). -/

/-- A store that the region table refuses is counted and reported (R239, R273, R274). -/
def storeRefused (p off : Nat) (s : State) : State :=
  let step := ((flying s p).head?.map fun r => r.id).getD noStep
  let w := windowOf (((flying s p).head?.map fun r => r.id).getD (partOf s p).run.committed)
  let s1 := cntAdd p (cMemory + 10) 1 s
  if (0x0808, w) ∈ (partOf s p).run.fired then s1
  else logEvent 0x0808 false p noOp step (hbmRegion off) (off % 2 ^ 32)
    (modRun p (fun r => { r with fired := r.fired ++ [(0x0808, w)] }) s1)

/-- The result of an atomic on an old value, in `w` bytes. -/
def atomicNew (op w old : Nat) (data : List Byte) : Nat :=
  let m := 2 ^ (8 * w)
  let a := natOfBytes (data.take 8) % m
  let b := natOfBytes ((data.drop 8).take 8) % m
  match op % 8 with
  | 0 => (old + a) % m
  | 1 => Nat.land old a
  | 2 => Nat.lor old a
  | 3 => Nat.xor old a
  | 4 => max old a
  | 5 => min old a
  | 6 => a
  | _ => if old = a then b else old

/-- The replay slot of a source: the manager's, or an unused one (R325, log 58). -/
def replaySlotOf (src : Nat) (s : State) : Nat × State :=
  match tget s.fab.replaySlots src with
  | some k => (k, s)
  | none =>
    let d := draw s
    let k := (allocFrom (s.fab.replaySlots.map fun e => e.2) 72 (Config.choice d.1)).getD 0
    (k, modFab (fun f => { f with replaySlots := tset f.replaySlots src k }) d.2)
/-- Key of a replay-table entry. -/
def replayKey (plane slot tag : Nat) : Nat := 9216 * plane + 128 * slot + tag % 128
/-- Write the replay-table entry of an atomic. -/
def keepAtomic (plane : Nat) (h : List Word) (status result : Nat) (s : State) : State :=
  let q := replaySlotOf (hSrc h) s
  let e : Replay := { src := hSrc h, tag := hTag h, job := hJob h, status, seq := hSeq h, result }
  modFab (fun f => { f with replay := tset f.replay (replayKey plane q.1 (hTag h)) e }) q.2
/-- The live entry of an atomic. -/
def replayOf (s : State) (plane : Nat) (h : List Word) : Option Replay :=
  match tget s.fab.replaySlots (hSrc h) with
  | none => none
  | some k => (tget s.fab.replay (replayKey plane k (hTag h))).filter fun e =>
      e.src == hSrc h && e.job == hJob h && e.tag == hTag h && e.seq == hSeq h
/-- `a` is at or after `b` in serial arithmetic (R321). -/
def seqGe (a b : Nat) : Bool := decide (serialDiff a b (2 ^ 32) < 2 ^ 31)
/-- RESULT_ACK frees the entries of its stream at or before it (R327). -/
def freeReplay (plane : Nat) (h : List Word) (s : State) : State :=
  modFab (fun f => { f with replay := f.replay.filter fun e =>
    !(e.1 / 9216 == plane && e.2.src == hSrc h && e.2.job == hJob h && seqGe (hW6 h) e.2.seq) }) s

/-- A request fails: ERROR with its status; an atomic's is kept in the replay table (R322, R326). -/
def refuse (plane : Nat) (h : List Word) (status : Nat) (s : State) : State :=
  respond plane (hSeq h) h 0x13 status (hAddr h) [] (if hOp h = 3 then keepAtomic plane h status 0 s else s)

/-- LOAD. -/
def applyLoad (plane : Nat) (h : List Word) (s : State) : State :=
  let p := hDstPart h
  let n := hLen h
  let st := if n = 0 then 0 else loadStatus s p (hOff h) n
  if st ≠ 0 then refuse plane h st s
  else respond plane (hSeq h) h 0x10 0 (hAddr h) (if n = 0 then [] else hbmRead s p (hOff h) n) (cntAdd p cMemory (cdiv n 64) s)

/-- STORE. -/
def applyStore (plane : Nat) (h : List Word) (data : List Byte) (s : State) : State :=
  let p := hDstPart h
  let st := if data = [] then 0 else storeStatus s p (hOff h) data.length
  if st ≠ 0 then refuse plane h st (storeRefused p (hOff h) s)
  else if data = [] then s
  else hbmStore p (hOff h) data (cntAdd p (cMemory + 1) (cdiv data.length 64) s)

/-- ATOMIC. -/
def applyAtomic (plane : Nat) (h : List Word) (data : List Byte) (s : State) : State :=
  let p := hDstPart h
  let w := atomicWidth h
  let st := storeStatus s p (hOff h) w
  if st ≠ 0 then refuse plane h st (storeRefused p (hOff h) s)
  else
    let old := natOfBytes (hbmRead s p (hOff h) w)
    let s1 := hbmStore p (hOff h) (natBytes w (atomicNew (hSub h) w old data)) (cntAdd p (cMemory + 1) 1 (cntAdd p cMemory 1 s))
    respond plane (hSeq h) h 0x12 0 (hAddr h) (natBytes 8 old) (keepAtomic plane h 0 old s1)

/-- BULK to an inbox or to a return place in cluster SRAM, by the local offset of log 47; none while the receiver's step slot is
not free. The BULK with POST set ends a return row, which counts once (R224, R316). -/
def applyInbox (plane : Nat) (h : List Word) (data : List Byte) (s : State) : Option State :=
  let p := hDstPart h
  let post := bitOf (w32 (hSub h)) 0
  match Config.inboxTarget (hOff h) with
  | none => some (refuse plane h 0x0802 (storeRefused p (hOff h) s))
  | some (c, r, o, step) =>
    if step ≤ (partOf s p).run.committed then some s
    else if r = 16 then
      match landReturn p c 1 o data s with
      | none => some (refuse plane h 0x0802 (storeRefused p (hOff h) s))
      | some t => some (if post then countReturn p (fun x => x.step == step && x.cluster == c && inReturn x 1 o) t else t)
    else
      let i := inboxPlace s p step c r o
      if 48 ≤ c ∨ 1024 * inKib (imgOf s p) (hostOf s p c) r < o + data.length then
        some (refuse plane h 0x0802 (storeRefused p (hOff h) s))
      else if ¬ slotReady s i.1 i.2.1 p step then none
      else
        let s1 := if data = [] then s else storeRows [(i.2.2, data)] (takeSlot i.1 i.2.1 p step s)
        some (if post then countPost p step c r s1 else s1)

/-- A BULK outside the journal window; none while it would overwrite a Ferry block in use (R200). -/
def applyBulk (plane : Nat) (h : List Word) (data : List Byte) (s : State) : Option State :=
  let p := hDstPart h
  let ends (t : State) : State := if bitOf (w32 (hSub h)) 0 then hbmReturn p (hOff h) t else t
  if 5 < hbmRegion (hOff h) then applyInbox plane h data s
  else
    let st := if data = [] then 0 else storeStatus s p (hOff h) data.length
    if st ≠ 0 then some (refuse plane h st (storeRefused p (hOff h) s))
    else if data = [] then some (ends s)
    else if ferryBusy s p (hOff h) data then none
    else some (ends (bulkLand p (hOff h) data (cntAdd p (cMemory + 1) (cdiv data.length 64) s)))

/-- A whole release: it is placed as a journal entry and its step accepted; none while the ring has no room (R542). A step
that the partition holds already is a duplicate. -/
def applyRelease (plane : Nat) (h : List Word) (body : List Byte) (s : State) : Option State :=
  let p := hDstPart h
  let ws := wordsOfBytes (body.take 64)
  let id := dwordAt ws 0
  let n := (wordAt ws 2).toNat
  let done (t : State) : State := modJr p (fun j => { j with jasm := j.jasm.filter fun e => e.1 != hSrc h }) t
  if body.length < 64 + n ∨ ringBytes s p < entryBytes n then some (refuse plane h 0x0A05 (done s))
  else if id ≤ (partOf s p).run.last then some (done s)
  else match ringPlace s p (entryBytes n) with
    | none => none
    | some a =>
      some (done (journalPut p id a (entryOf id ((body.drop 64).take n))
        (pushStep p { id, inAt := a, inBytes := n, arrivedNs := s.now } s)))
/-- A BULK into the journal window: the release of a source is assembled in order; the BULK that carries POST completes it. One of
no bytes that does not post moves nothing (R10, R316). -/
def applyJournal (plane : Nat) (h : List Word) (data : List Byte) (s : State) : Option State :=
  let p := hDstPart h
  let off := hbmIn (hOff h)
  let got := if off = 0 then [] else (((partOf s p).jr.jasm.find? fun e => e.1 = hSrc h).map fun e => e.2.2).getD []
  let body := got ++ data
  if data = [] ∧ hSub h ≠ 1 then some s
  else if got.length ≠ off then some (refuse plane h 0x0A05 s)
  else if hSub h = 1 then applyRelease plane h body s
  else
    let n := if 16 ≤ body.length then 64 + (wordAt (wordsOfBytes (body.take 16)) 2).toNat else 0
    some (modJr p (fun j => { j with jasm := (j.jasm.filter fun e => e.1 != hSrc h) ++ [(hSrc h, n, body)] }) s)

/-! Queue pushes (R216, R217, R220, R221, R317). -/

/-- The step of an entry or close has committed here already. -/
def stepPast (s : State) (p step : Nat) : Bool := decide (step ≤ (partOf s p).run.committed)
/-- Place a whole entry; none while its step slot is not free. -/
def applyEntry (h : List Word) (m : EMap) (bs : List Byte) (s : State) : Option State :=
  let p := hDstPart h
  let step := dwordAt (wordsOfBytes (bs.take 64)) 0
  let k := hOff h / 4096 % 64
  if stepPast s p step then some s
  else if entryReady s p step k then some (placeEntry p m step k (hOff h / 2 ^ 18 % 16) bs (entryArrives p m bs s)) else none
/-- Set the partial entry of a stream. -/
def setFrag (plane : Nat) (h : List Word) (f : Option (List Word × List Byte)) (s : State) : State :=
  putDst { dstOf s plane (hSrc h) (hJob h) with frag := f } s
/-- QPUSH SUBOP 0x0: an entry, or its first fragment. -/
def applyFirst (plane : Nat) (h : List Word) (data : List Byte) (s : State) : Option State :=
  match mapOfOp (imgOf s (hDstPart h)) (wordAt (wordsOfBytes (data.take 64)) 7).toNat with
  | none => some (refuse plane h 0x0A05 s)
  | some m =>
    if data.length ≠ min (emEntry m) 4096 then some (refuse plane h 0x0A05 s)
    else if emEntry m ≤ 4096 then applyEntry h m data s
    else some (setFrag plane h (some (h, data)) s)
/-- QPUSH SUBOP 0x2: a further fragment of the partial entry `f`. -/
def applyFurther (plane : Nat) (h : List Word) (data : List Byte) (f : Option (List Word × List Byte)) (s : State) : Option State :=
  match f with
  | none => some (refuse plane h 0x0A05 s)
  | some (h0, got) =>
    match mapOfOp (imgOf s (hDstPart h)) (wordAt (wordsOfBytes (got.take 64)) 7).toNat with
    | none => some (refuse plane h 0x0A05 s)
    | some m =>
      if hAddr h0 ≠ hAddr h ∨ data.length ≠ min (emEntry m - got.length) 4096 then some (refuse plane h 0x0A05 s)
      else if emEntry m ≤ got.length + data.length then applyEntry h m (got ++ data) s
      else some (setFrag plane h (some (h0, got ++ data)) s)
/-- QPUSH SUBOP 0x1: a close; none while its step slot is not free. -/
def applyClose (h : List Word) (data : List Byte) (s : State) : Option State :=
  let p := hDstPart h
  let ws := wordsOfBytes data
  let k := hOff h / 4096 % 64
  if stepPast s p (dwordAt ws 0) then some s
  else if entryReady s p (dwordAt ws 0) k then some (recordClose p k ws s) else none

/-! Services (R284, R295, R315, R350, R353 to R357). -/

/-- The members whose SET_TAG differs, as a bitmap. -/
def differBits (s : State) : Nat := (s.bnd.tagsDiffer.map fun m => 2 ^ m).sum
/-- A member's SET_TAG differs: the stripes are unprotected, reported once per start (R295). -/
def tagDiffers (m : Nat) (s : State) : State :=
  if m ∈ s.bnd.tagsDiffer then s
  else
    let s1 := modBnd (fun b => { b with tagsDiffer := b.tagsDiffer ++ [m] }) s
    if s.bnd.tagsDiffer = [] then logPkg 0x0906 false (differBits s1) 0 s1 else s1
/-- The position of a package in the group table. -/
def positionOf (s : State) (pkg : Nat) : Option Nat := (List.range 8).find? fun m => s.bnd.group.getD m 0 == 128 + pkg

/-- Shard read: 4,096 replies, or one that says unavailable. -/
def applyShardRead (plane : Nat) (h : List Word) (data : List Byte) (s : State) : State :=
  let ws := wordsOfBytes data
  let x := (wordAt ws 0).toNat
  let m := (wordAt ws 9).toNat
  let mf := s.bnd.manifest
  let same := slice ws 1 8 == mfTag mf
  let s0 := if ¬ same ∧ m < 8 ∧ (manifest s).isSome then tagDiffers m s else s
  if s.sec.lifecycle == 2 && (manifest s).isSome && same && data.length == 40 && s.bnd.group.getD m 0 == 128 + hSrc h && decide (x < mfStripes mf) && !shardHeld s x then
    let bs := memRead s.x.bond (shardFlat x) (shBytes mf x)
    let piece (i : Nat) : List Byte := (slice bs (4096 * i) 4096) ++ List.replicate (4096 - (slice bs (4096 * i) 4096).length) 0
    let base := hAddr h / 2 ^ 24 * 2 ^ 24
    (List.range 4096).foldl (fun t i => respond plane (hSeq h) h 0x14 0 (base + 4096 * i) (piece i) t) (totAdd (tBond + 4) 1 s0)
  else respond plane (hSeq h) h 0x14 0x0A09 (hAddr h) [] (totAdd (tBond + 5) 1 s0)

/-- A mirror record is well formed. -/
def recordFormOk (data : List Byte) : Bool :=
  let ws := wordsOfBytes (data.take 64)
  let kind := fld (wordAt ws 0) 0 4
  let fields := [(0, 0, 9), (1, 0, 32), (2, 0, 32), (3, 0, 32), (4, 0, 32), (5, 0, 24), (6, 0, 32), (7, 0, 24), (8, 0, 12), (9, 0, 32)]
  decide (64 ≤ data.length) && reservedOk ws 0 16 fields && decide (1 ≤ kind ∧ kind ≤ 6) && fld (wordAt ws 7) 0 24 % 64 == 0 &&
    data.length == 64 + roundUp (fld (wordAt ws 8) 0 12) 4
/-- The partition that the holder keeps for its peer: the one whose shadow or active bank is the standby record. -/
def standbyPart (s : State) : Nat :=
  ((List.range 32).find? fun p => recStandby (bank s p) || recStandby (shadowClaim (partOf s p))).getD 0
/-- The holder keeps warm every rung that a mirrored fall-back state names (R350). -/
def warmRungs (data : List Byte) (s : State) : State :=
  match s.stages.find? fun st => st.standby with
  | none => s
  | some st =>
    let f := fbDecode (wordsOfBytes data)
    (f.ops.flatMap fun o => (o.2.rung :: o.2.pend.map fun d => d.2).map fun r => (o.1, r)).foldl (fun t x =>
      askStage st (stageWords t st) (standbyPart t) 0 x.1 x.2 t) s
/-- Mirror write: a mark with every record there is acknowledged by a request of its own (R354, R357). -/
def applyMirrorWrite (plane : Nat) (h : List Word) (data : List Byte) (s : State) : State :=
  if ¬ recordFormOk data then refuse plane h 0x0A05 s
  else
    let q := mirrorWrite data s
    let s1 := respond plane (hSeq h) h 0x14 0 (hAddr h) [] q.2
    let s2 := if fld (wordAt (wordsOfBytes (data.take 64)) 0) 0 4 = 4 then warmRungs (data.drop 64) s1 else s1
    match q.1 with
    | some (part, step) => (pairSend (hSrc h) 4 none (ackData part step) s2).2
    | none => s2

/-- The bytes of a mirrored page, whole 4 KiB units. -/
def mirrorPage (m : MirrorPart) (key : Nat) : List Byte :=
  let rs := tgetD m.pages key []
  let n := roundUp (rs.foldl (fun n r => max n (r.1 + r.2.length)) 0) 4096
  let mem := rs.foldl (fun t r => memWrite t r.1 r.2) ([] : Mem)
  memRead mem 0 n
/-- Mirror fetch: the page in 4 KiB replies, or one that says it cannot be served (R356, R357). -/
def applyMirrorFetch (plane : Nat) (h : List Word) (data : List Byte) (s : State) : State :=
  let ws := wordsOfBytes data
  let m := tgetD s.cont.mirror (fld (wordAt ws 0) 4 5) {}
  let key := mirrorKey (fld (wordAt ws 1) 0 16) (fld (wordAt ws 1) 16 8) (wordAt ws 2).toNat
  if data.length ≠ 64 ∨ ¬ reservedOk ws 0 16 [(0, 4, 5), (1, 0, 24), (2, 0, 32)] then refuse plane h 0x0A05 s
  else
    let bs := mirrorPage m key
    if bs = [] ∨ key ∈ m.badPages then respond plane (hSeq h) h 0x14 0x0A09 (hAddr h) [] s
    else (List.range (bs.length / 4096)).foldl (fun t i =>
      respond plane (hSeq h) h 0x14 0 (hAddr h / 2 ^ 24 * 2 ^ 24 + 4096 * i) (slice bs (4096 * i) 4096) t) s

/-- Mirror acknowledgement: action 2 of a step ends, or a page is to be sent again with the next commit (R354, R356, R357). -/
def applyMirrorAck (plane : Nat) (h : List Word) (data : List Byte) (s : State) : State :=
  let ws := wordsOfBytes data
  let p := fld (wordAt ws 0) 4 5
  let again := bitOf (wordAt ws 0) 0
  let fields := [(0, 0, 1), (0, 4, 5), (1, 0, 32), (2, 0, 32)] ++ if again then [(3, 0, 24), (4, 0, 32)] else []
  if data.length ≠ 64 ∨ ¬ reservedOk ws 0 16 fields then refuse plane h 0x0A05 s
  else
    let s1 := respond plane (hSeq h) h 0x14 0 (hAddr h) [] s
    let page := (p, fld (wordAt ws 3) 0 16, fld (wordAt ws 3) 16 8, (wordAt ws 4).toNat)
    if again then modCont (fun c => { c with resend := if page ∈ c.resend then c.resend else c.resend ++ [page] }) s1
    else
      let id := dwordAt ws 1
      modStep p id (fun r => { r with acked := true })
        (modCont (fun c => { c with sent := c.sent.filter fun e => !(e.1 == p && e.2.1 == id) }) s1)

/-! In order (R320, R321, R446). -/

/-- A package in Quayside with AUTO_WAKE set wakes (R446). -/
def wakeQuay (s : State) : State :=
  if s.pw.st = .quayside ∧ s.pw.autoWake ∧ s.pw.target.isNone then modPw (fun w => { w with target := some .run }) s else s

/-- Apply a request whose turn it is; none while it must wait. Any request but a further fragment ends a partial entry. -/
def applyReq (plane : Nat) (h : List Word) (data : List Byte) (s : State) : Option State :=
  let f := (dstOf s plane (hSrc h) (hJob h)).frag
  let s0 := if f.isSome then setFrag plane h none s else s
  if ackOnly h data then some s0
  else if reqStatus s h data ≠ 0 then some (refuse plane h (reqStatus s h data) s0)
  else if s.pw.st ≠ .run ∧ s.pw.st ≠ .quayside then some (refuse plane h 0x0E03 s0)
  else
    let s1 := wakeQuay s0
    match hOp h with
    | 1 => some (applyLoad plane h s1)
    | 2 => some (applyStore plane h data s1)
    | 3 => some (applyAtomic plane h data s1)
    | 4 => match hSub h with
      | 0 => applyFirst plane h data s1
      | 1 => applyClose h data s1
      | _ => applyFurther plane h data f s1
    | 5 => if hbmRegion (hOff h) = 5 then applyJournal plane h data s1 else applyBulk plane h data s1
    | _ => match hSub h with
      | 1 => some (applyShardRead plane h data s1)
      | 2 => some (applyMirrorWrite plane h data s1)
      | 3 => some (applyMirrorFetch plane h data s1)
      | _ => some (applyMirrorAck plane h data s1)

/-- A request waits. Where it ends an entry, the entry has arrived all the same, and the fetch of its cold expert starts (R229). -/
def noteArrival (plane : Nat) (h : List Word) (data : List Byte) (s : State) : State :=
  let got := if hSub h = 2 then (((dstOf s plane (hSrc h) (hJob h)).frag).map fun f => f.2).getD [] else []
  if hOp h ≠ 4 ∨ hSub h = 1 then s
  else match mapOfOp (imgOf s (hDstPart h)) (wordAt (wordsOfBytes ((got ++ data).take 64)) 7).toNat with
    | some m => entryArrives (hDstPart h) m (got ++ data) s
    | none => s
/-- Apply the held requests of a stream whose turn it is, at most `fuel`. -/
def advance (plane src job : Nat) : Nat → State → State
  | 0, s => s
  | fuel + 1, s =>
    let x := dstOf s plane src job
    match x.held.find? fun e => e.1 = x.expect with
    | none => s
    | some e =>
      match applyReq plane e.2.1 e.2.2 s with
      | none => noteArrival plane e.2.1 e.2.2 s
      | some t =>
        let y := dstOf t plane src job
        advance plane src job fuel (putDst { y with expect := (x.expect + 1) % 2 ^ 32, held := y.held.filter fun q => q.1 != x.expect } t)
/-- Let every stream and every entry of this package that waited go on. -/
def pumpStreams (s : State) : State :=
  let s1 := (s.parts.map fun q => q.1).foldl (fun t p => drainWait p t) s
  s1.fab.dst.foldl (fun t x => if x.held = [] then t else advance x.plane x.src x.job x.held.length t) s1

/-- Reorder entries in use on a plane (R321). -/
def heldCount (s : State) (plane : Nat) : Nat := ((s.fab.dst.filter fun x => x.plane == plane).map fun x => x.held.length).sum
/-- A duplicate behind the expected SEQ (R326). -/
def duplicate (plane : Nat) (h : List Word) (s : State) : State :=
  let x := dstOf s plane (hSrc h) (hJob h)
  if hOp h = 3 then
    match replayOf s plane h with
    | some e => cntAdd (hDstPart h) (cJeren + 3) 1 (respond plane x.expect h 0x12 e.status (hAddr h) (natBytes 8 e.result) s)
    | none => totAdd (tLanes + 5) 1 s
  else sendAck plane (hSrc h) (hJob h) x.expect s

/-- A packet for this package is whole (R313). -/
def wholePacket (p : Packet) : Bool := crc32c (bytesOfWords (p.hdr.take 7) ++ p.data) == (wordAt p.hdr 7).toNat
/-- The generation of a request is not the current one, or its job is torn down or unmapped here (R331, R339). -/
def genStale (s : State) (h : List Word) : Bool :=
  hJob h != serviceJob && match jobOf s (hJob h) with
    | none => false
    | some e => e.gen != hGen h || e.st == .tornDown || e.st == .unmapped
/-- A request arrives. -/
def arriveReq (p : Packet) (s : State) : State :=
  let h := p.hdr
  let plane := p.plane.val
  if ¬ wholePacket p then totAdd (tLanes + 2) 1 s
  else if genStale s h then totAdd (tLanes + 3) 1 s
  else
    let s1 := freeReplay plane h s
    let x := dstOf s1 plane (hSrc h) (hJob h)
    let d := serialDiff (hSeq h) x.expect (2 ^ 32)
    if 2 ^ 31 ≤ d then duplicate plane h s1
    else if 256 ≤ d then totAdd (tLanes + 4) 1 s1
    else if x.held.any (fun e => e.1 == hSeq h) ∨ (d ≠ 0 ∧ 4096 ≤ heldCount s plane) then s1
    else advance plane (hSrc h) (hJob h) (x.held.length + 1) (putDst { x with held := x.held ++ [(hSeq h, h, p.data)] } s1)

/-- A packet is for this package and arrives through a plane with an Active port (R306, R312). A response carries its request's
address, which does not name its destination; it is taken as one for this package (R313). A management packet must reach the
Harbourmaster (R19). -/
def forMe (s : State) (p : Packet) : Bool :=
  (decide (0x10 ≤ hOp p.hdr ∧ hOp p.hdr ≤ 0x14) || decide (hDstPkg p.hdr = myPkg s)) && activePorts s p.plane.val != [] &&
    (decide (hOp p.hdr < 0x20) || mgmtReach s p.plane.val)
/-- Run `f` when the packet is for this package and `ok`. -/
def takePacket (p : Packet) (ok : Bool) (f : Packet → State → State) (s : State) : State := if forMe s p && ok then f p s else s

/-- The opcodes of R314. -/
def knownOps : List Nat := [1, 2, 3, 4, 5, 6] ++ [0x10, 0x11, 0x12, 0x13, 0x14] ++ (List.range 11).map (· + 0x20)
/-- A packet with a reserved opcode is dropped and counted; a request is answered with ERROR in its turn as well (R314, log 57). -/
def arriveUnknown (p : Packet) (s : State) : State :=
  if ¬ wholePacket p then totAdd (tLanes + 2) 1 s
  else if hVc p.hdr = 0 then arriveReq p (totAdd (tLanes + 4) 1 s)
  else totAdd (tLanes + 4) 1 s

/-- QPUSH_ENTRY (R220, R317); reserved SUBOPs are turned away here. -/
def execQpushEntry (p : Packet) (s : State) : Host.Outcome State Fault Refusal :=
  .next (takePacket p (hOp p.hdr == 4 && hSub p.hdr != 1 && hSub p.hdr != 2) arriveReq s)
/-- QPUSH_FRAGMENT (R317). -/
def execQpushFragment (p : Packet) (s : State) : Host.Outcome State Fault Refusal :=
  .next (takePacket p (hOp p.hdr == 4 && hSub p.hdr == 2) arriveReq s)
/-- QPUSH_CLOSE (R217, R221). -/
def execQpushClose (p : Packet) (s : State) : Host.Outcome State Fault Refusal :=
  .next (takePacket p (hOp p.hdr == 4 && hSub p.hdr == 1) arriveReq s)
/-- JOURNAL_RELEASE (R542). -/
def execJournalRelease (p : Packet) (s : State) : Host.Outcome State Fault Refusal :=
  .next (takePacket p (hOp p.hdr == 5 && hbmRegion (hOff p.hdr) == 5) arriveReq s)
/-- BULK (R232, R316). -/
def execBulk (p : Packet) (s : State) : Host.Outcome State Fault Refusal :=
  .next (takePacket p (hOp p.hdr == 5 && hbmRegion (hOff p.hdr) != 5) arriveReq s)
/-- LOAD (R314, R316); packets with a reserved opcode come in here. -/
def execLoad (p : Packet) (s : State) : Host.Outcome State Fault Refusal :=
  .next (takePacket p true (fun q => if hOp q.hdr = 1 then arriveReq q else if hOp q.hdr ∈ knownOps then id else arriveUnknown q) s)
/-- STORE (R316, R326). -/
def execStore (p : Packet) (s : State) : Host.Outcome State Fault Refusal := .next (takePacket p (hOp p.hdr == 2) arriveReq s)
/-- ATOMIC (R324 to R326). -/
def execAtomic (p : Packet) (s : State) : Host.Outcome State Fault Refusal := .next (takePacket p (hOp p.hdr == 3) arriveReq s)
/-- SERVICE_SHARD_READ (R284, R315); reserved SUBOPs are turned away here. -/
def execServiceShardRead (p : Packet) (s : State) : Host.Outcome State Fault Refusal :=
  .next (takePacket p (hOp p.hdr == 6 && !(decide (2 ≤ hSub p.hdr ∧ hSub p.hdr ≤ 4))) arriveReq s)
/-- SERVICE_MIRROR_WRITE (R353 to R355). -/
def execServiceMirrorWrite (p : Packet) (s : State) : Host.Outcome State Fault Refusal :=
  .next (takePacket p (hOp p.hdr == 6 && hSub p.hdr == 2) arriveReq s)
/-- SERVICE_MIRROR_FETCH (R356, R357). -/
def execServiceMirrorFetch (p : Packet) (s : State) : Host.Outcome State Fault Refusal :=
  .next (takePacket p (hOp p.hdr == 6 && hSub p.hdr == 3) arriveReq s)
/-- SERVICE_MIRROR_ACK (R354, R357). -/
def execServiceMirrorAck (p : Packet) (s : State) : Host.Outcome State Fault Refusal :=
  .next (takePacket p (hOp p.hdr == 6 && hSub p.hdr == 4) arriveReq s)

/-! Responses at the source (R322, R326, R345). -/

/-- What the completion of a request with a status does beyond the stream. -/
def completion (dst : Nat) (r : OutReq) (status : Nat) (s : State) : State :=
  let p := r.part.getD 0
  let s1 := if r.part.isNone ∨ status = 0 then s
    else if status = 0x0A01 then cntAdd p (cJeren + 5) 1 s
    else if (0x0A02 ≤ status ∧ status ≤ 0x0A05) ∨ status = 0x0A0A then cntAdd p (cJeren + 6) 1 s else s
  match hOp r.hdr with
  | 4 =>
    if r.entry = [] then s1
    else if status = 0x0A05 ∧ hSub r.hdr = 2 then
      sendQpush r.home p dst (hDstPart r.hdr) (hOff r.hdr / 4096 % 64) (hOff r.hdr / 2 ^ 18 % 16) r.entry (fragments r.entry) s1
    else creditBack dst s1
  | 5 =>
    match r.rel with
    | some (q, id) =>
      if status = 0 then s1
      else if status = 0x0A05 then programFault q id 0x000B 0 noOp s1
      else modStep q id (fun x => { x with released := false }) s1
    | none => s1
  | 6 =>
    if status = 0 then s1
    else match hSub r.hdr with
      | 1 => match positionOf s1 dst with
        | some m => memberFails m s1
        | none => s1
      | 3 => match s1.cont.fetches with
        | [] => s1
        | (q, slot, _, i) :: _ => sendFetch s1.cont.fetches.length (dropFetch (pageUnfetched q slot i s1))
      | _ => s1
  | _ => s1
/-- Complete an outstanding request of a stream. -/
def finishReq (plane dst job : Nat) (r : OutReq) (status : Nat) (s : State) : State :=
  let x := streamOf s plane dst job
  let t := completion dst r status (putStream { x with outs := x.outs.filter fun o => o.seq != r.seq } s)
  if r.rel.isSome then answerInputs t else t
/-- A response of any kind has been received: RESULT_ACK is to be stated. -/
def noteResponse (plane dst job : Nat) (s : State) : State := putStream { streamOf s plane dst job with resultDue := true } s

/-- A response arrives for a request that it may answer: `f` gets the request, or none (R322, R331). -/
def arriveResp (ops : List Nat) (f : OutReq → Packet → State → State) (p : Packet) (s : State) : State :=
  let h := p.hdr
  let plane := p.plane.val
  if ¬ wholePacket p then totAdd (tLanes + 2) 1 s
  else if hJob h ≠ serviceJob ∧ genOf s (hJob h) ≠ hGen h then totAdd (tLanes + 3) 1 s
  else match (streamOf s plane (hSrc h) (hJob h)).outs.find? fun o => o.seq == hSeq h && decide (hOp o.hdr ∈ ops) with
    | none => s
    | some r => pumpDst (hSrc h) (hJob h) (noteResponse plane (hSrc h) (hJob h) (f r p s))
/-- Complete the request that a response names with the status it carries. -/
def byStatus (r : OutReq) (p : Packet) (s : State) : State :=
  finishReq p.plane.val (hSrc p.hdr) (hJob p.hdr) r (hW6 p.hdr % 65536) s

/-- ACK: every STORE, QPUSH and BULK that it covers completes with success. -/
def arriveAck (p : Packet) (s : State) : State :=
  let h := p.hdr
  let plane := p.plane.val
  if ¬ wholePacket p then totAdd (tLanes + 2) 1 s
  else if hJob h ≠ serviceJob ∧ genOf s (hJob h) ≠ hGen h then totAdd (tLanes + 3) 1 s
  else
    let done := (streamOf s plane (hSrc h) (hJob h)).outs.filter fun o =>
      decide (hOp o.hdr ∈ [2, 4, 5]) && seqGe (hSeq h) o.seq
    pumpDst (hSrc h) (hJob h) (done.foldl (fun t r => finishReq plane (hSrc h) (hJob h) r 0 t) s)

/-- A piece of a mirrored page: the page is whole with its last (R264, R357). -/
def fetchPiece (r : OutReq) (p : Packet) (s : State) : State :=
  let h := p.hdr
  match s.cont.fetches with
  | [] => byStatus r p s
  | (q, slot, _, i) :: _ =>
    let k := hAddr h / 4096 % 4096
    let got := (s.cont.fetched.filter fun e => e.1 != k) ++ [(k, p.data)]
    let n := unitsOf s q slot i
    let s1 := modCont (fun c => { c with fetched := got }) s
    if got.length < n then s1
    else
      let frame := (tgetD (slotAt s q slot).pages i {}).frame
      let s2 := got.foldl (fun t e => hbmStore q (4096 * (frame + e.1)) e.2 t) (cntAdd q (cMemory + 8) 1 (cntAdd q (cMemory + 7) n s1))
      let s3 := finishReq p.plane.val (hSrc h) (hJob h) r 0 (dropFetch s2)
      sendFetch s3.cont.fetches.length s3
/-- SERVICE_RESP: a piece of a shard or of a mirrored page, or the end of a service request. -/
def serviceReply (r : OutReq) (p : Packet) (s : State) : State :=
  let h := p.hdr
  let status := hW6 h % 65536
  if status ≠ 0 ∨ p.data = [] then byStatus r p s
  else match hSub r.hdr with
    | 1 =>
      match positionOf s (hSrc h) with
      | none => byStatus r p s
      | some m =>
        let s1 := memberPiece m (hAddr h / 4096 % 4096) p.data s
        let wait := s1.bnd.rebuilds.head?.any fun b => (tget b.pieces m).isSome
        if wait then s1 else byStatus r p s1
    | 3 => fetchPiece r p s
    | _ => byStatus r p s

/-- LOAD_RESP (R322). -/
def execLoadResp (p : Packet) (s : State) : Host.Outcome State Fault Refusal :=
  .next (takePacket p (hOp p.hdr == 0x10) (arriveResp [1] byStatus) s)
/-- ACK (R322). -/
def execAck (p : Packet) (s : State) : Host.Outcome State Fault Refusal := .next (takePacket p (hOp p.hdr == 0x11) arriveAck s)
/-- ATOMIC_RESP (R322, R326). -/
def execAtomicResp (p : Packet) (s : State) : Host.Outcome State Fault Refusal :=
  .next (takePacket p (hOp p.hdr == 0x12) (arriveResp [3] byStatus) s)
/-- ERROR (R322). -/
def execError (p : Packet) (s : State) : Host.Outcome State Fault Refusal :=
  .next (takePacket p (hOp p.hdr == 0x13) (arriveResp [1, 2, 3, 4, 5, 6] byStatus) s)
/-- SERVICE_RESP (R315). -/
def execServiceResp (p : Packet) (s : State) : Host.Outcome State Fault Refusal :=
  .next (takePacket p (hOp p.hdr == 0x14) (arriveResp [6] serviceReply) s)

/-! Timers of a stream (R322, R323, R326). -/

/-- A stream that has waited since its last ACK gets one. -/
def ackTimer (plane src job : Nat) (s : State) : State :=
  let x := dstOf s plane src job
  if x.acked = x.expect then s else sendAck plane src job x.expect s
/-- ACK_SEND_TIMER (R322). -/
def execAckSendTimer (plane : Fin 2) (src : Fin 128) (job : Fin 65536) (s : State) : Host.Outcome State Fault Refusal :=
  .next (ackTimer plane.val src.val job.val s)

/-- Send an outstanding request again, on attempt `n`. -/
def resendReq (plane dst job n : Nat) (r : OutReq) (s : State) : State :=
  let x := streamOf s plane dst job
  let h := stampHdr r.hdr r.seq (resultAck x)
  let r' := { r with hdr := h, sends := n + 1 }
  transmit plane dst n h r.data
    (putStream { x with outs := x.outs.map (fun o => if o.seq = r.seq then r' else o), resultDue := false } s)
/-- A request is still outstanding 20 microseconds after its last send. -/
def resendTimeout (plane dst job seq : Nat) (s : State) : State :=
  let x := streamOf s plane dst job
  match x.outs.find? fun o => o.seq = seq with
  | none => s
  | some r =>
    if x.paused then s
    else if r.sends < 4 then resendReq plane dst job r.sends r (match r.part with
      | some p => cntAdd p (cJeren + 2) 1 s
      | none => s)
    else logPkg 0x0A0A false dst plane (modMgr (fun m => { m with
        unreachable := if (dst, plane) ∈ m.unreachable then m.unreachable else m.unreachable ++ [(dst, plane)] })
      (putStream { x with paused := true } s))
/-- REQUEST_RESEND_TIMEOUT (R323). -/
def execRequestResendTimeout (plane : Fin 2) (dst : Fin 128) (job : Fin 65536) (seq : Word) (s : State) :
    Host.Outcome State Fault Refusal := .next (resendTimeout plane.val dst.val job.val seq.toNat s)

/-- Paused streams resume: their outstanding requests are resent in SEQ order, and what waited goes (R323). -/
def resumeStreams (plane : Nat) (s : State) : State :=
  (s.fab.src.filter fun x => x.plane == plane && x.paused).foldl (fun t x =>
    let t1 := x.outs.foldl (fun u r => resendReq x.plane x.dst x.job 0 r u) (putStream { streamOf t x.plane x.dst x.job with paused := false } t)
    pumpDst x.dst x.job t1) s
/-- Send what waits at the source on every stream. -/
def pumpSources (s : State) : State := s.fab.src.foldl (fun t x => pumpDst x.dst x.job t) s

/-- A source with no request to send states RESULT_ACK in an ACK-only request. -/
def resultTimer (plane dst job : Nat) (s : State) : State :=
  if (streamOf s plane dst job).resultDue then (issue plane dst job 0x02 0 none none (fabAddr dst 0 0) 0 [] s).2 else s
/-- RESULT_ACK_TIMER (R326). -/
def execResultAckTimer (plane : Fin 2) (dst : Fin 128) (job : Fin 65536) (s : State) : Host.Outcome State Fault Refusal :=
  .next (resultTimer plane.val dst.val job.val s)

end Sys2Proof.Machine
end

