-- ==== Sys2Proof/Machine/Failover.lean ====
section
/-! DEFINITION. Standby pairing, what a teardown discards, the replay after it, and the activation of a standby copy (R349, R350,
R354, R355, R358 to R364, R393, R421). -/

namespace Sys2Proof.Machine

/-! Pairing (R349; log 33). -/

/-- A job map in which no member names a partition. -/
def isPairing (e : Job) : Bool := e.st == .active && e.members.all fun m => tgetD e.parts m 0 == 0
/-- Take up the pairing that a job map sets. -/
def setPairing (e : Job) (s : State) : State :=
  let mine := decide (myPkg s ∈ e.members)
  let holder := if mine then nextOf e.members (myPkg s) else none
  let peer := if mine then prevOf e.members (myPkg s) else none
  let s1 := modCont (fun c => { c with
    pairJob := some e.job, holder, peer, unmirrored := false
    mirror := if c.peer = peer then c.mirror else [] }) s
  if peer.isSome && !s1.cont.armed then standbyLost 3 s1 else standbyCheck s1

/-! What a teardown discards, and the replay (R339, R354, R360). -/

/-- The discarded steps of a partition run again from its input journal. -/
def replaySteps (p : Nat) (s : State) : State :=
  let rs := (flying s p).filter fun r => decide ((p, r.id) ∈ s.cont.replays)
  rs.foldl (fun t r => totAdd (tCont + 1) 1 (rerunStep p r.id t)) s

/-- The pairing job is torn down: the stage runs unmirrored, and action 2 of a waiting step completes (R354). -/
def loseHolder (s : State) : State :=
  let s1 := s.cont.sent.foldl (fun t e => modStep e.1 e.2.1 (fun r => { r with acked := true }) t) s
  let s2 := modCont (fun c => { c with unmirrored := true, sent := [] }) s1
  match s.cont.holder with
  | none => answerInputs s2
  | some h => logPkg 0x0B03 false h 0 (answerInputs s2)

/-! Activation (R358, R359, R363). -/

/-- MAX_LEN of a mirrored slot, which no record carries: the second table's first page tells it, else the largest (log 62). -/
def mirrorMaxLen (ts : List (Nat × Nat × Nat × Nat × Fmt × Fmt)) (m : MirrorPart) (slot : Nat) : Nat :=
  match ts with
  | t0 :: t1 :: _ =>
    match ((m.pages.filter fun e => e.1 / 2 ^ 32 == slot * 256 + t1.1).map fun e => e.1 % 2 ^ 32).min? with
    | some k => k * t0.2.1
    | none => 16777216
  | _ => 16777216
/-- One mirrored page becomes a page of the standby partition. -/
def takePage (sp : Nat) (key : Nat) (rs : List (Nat × List Byte)) (s : State) : State :=
  let slot := key / 2 ^ 40
  let i := key % 2 ^ 32
  match allocPage sp slot i (max 1 (unitsOf s sp slot i)) s with
  | none => s
  | some t => rs.foldl (fun u r => hbmStore sp (4096 * (tgetD (slotAt u sp slot).pages i {}).frame + r.1) r.2 u) t
/-- The mirrored slots and pages become those of the standby partition. A sequence of a best-effort partition whose pages lay in
the failed package's swap window is lost (R198); no mirror record says which did, so that a free value does (log 119). -/
def takeSlots (sp : Nat) (m : MirrorPart) (s : State) : State :=
  let ts := tablesOf s sp
  let s1 := m.slots.foldl (fun t e =>
    let d := draw t
    let lost := !recClass (bank s sp) && Config.sequenceAway d.1 e.1
    let q : SeqSlot := { seqId := (Config.openWord d.1).toNat, length := (wordAt e.2 0).toNat, st := if lost then .lost else .resident
                         maxLen := mirrorMaxLen ts m e.1, lastStep := dwordAt e.2 1 }
    let u := modSlot sp e.1 (fun _ => q) d.2
    if lost then logEvent 0x0602 false sp noOp m.committed e.1 q.seqId u else u) s
  m.pages.foldl (fun t e => if (tget m.slots (e.1 / 2 ^ 40)).isSome ∧ (slotAt t sp (e.1 / 2 ^ 40)).st = .resident then takePage sp e.1 e.2 t else t) s1
/-- The mirrored fall-back state (log 31). -/
def takeFallback (next : Nat) (bs : List Byte) : Fallback :=
  let f := if bs = [] then { win := windowOf next } else fbDecode (wordsOfBytes bs)
  { cur := f, com := f }
/-- The journal entry of a mirrored input. -/
def mirrorEntry (m : MirrorPart) (step : Nat) : List Byte :=
  let rs := m.inputs.filter fun i => i.1 == step
  let n := rs.foldl (fun n r => max n (4096 * r.2.1 + r.2.2.1 + r.2.2.2.length)) 0
  memRead (rs.foldl (fun t r => memWrite t (4096 * r.2.1 + r.2.2.1) r.2.2.2) ([] : Mem)) 0 n
/-- The steps above COMMITTED are accepted again, from the mirrored inputs and in identifier order. -/
def takeInputs (sp : Nat) (m : MirrorPart) (s : State) : State :=
  let ids := ((m.inputs.map fun i => i.1).filter fun i => decide (m.committed < i)).eraseDups.mergeSort
  ids.foldl (fun t id =>
    let e := mirrorEntry m id
    let n := (wordAt (wordsOfBytes (e.take 16)) 2).toNat
    match ringPlace t sp (entryBytes n) with
    | none => t
    | some a =>
      modCont (fun c => { c with replays := c.replays ++ [(sp, id)] }) (totAdd (tCont + 1) 1
        (journalPut sp id a (entryOf id ((e.drop 64).take n))
          (pushStep sp { id, inAt := a, inBytes := n, arrivedNs := t.now, replayed := true } t)))) s

/-- The standby partition takes over the failed package's stage. -/
def takeStage2 (sp : Nat) (m : MirrorPart) (s : State) : State :=
  let s1 := modCfg sp (fun c => { c with st := .serving })
    (modRun sp (fun r => { r with last := m.committed, committed := m.committed, steps := [] }) (modKv sp (fun _ => {}) s))
  let s2 := m.carried.foldl (fun t e => hbmStore sp (2 ^ 48 + e.1) e.2 t)
    (modFb sp (fun _ => takeFallback (m.committed + 1) m.fb) s1)
  takeInputs sp m (takeSlots sp m s2)

/-- The mirrored partition that the standby partition continues: the lowest (log 62). -/
def mirrorOf (s : State) : MirrorPart := ((s.cont.mirror.head?).map fun e => e.2).getD {}

/-- A commit of the own half's partition has begun and not ended. -/
def commitBusy (s : State) : Bool :=
  match setHalves s with
  | none => false
  | some (_, op) => (flying s op).any fun r => r.action != 0
/-- That commit goes as far as it can (R363). -/
def settleCommit (s : State) : State :=
  match setHalves s with
  | none => s
  | some (_, op) => if commitBusy s then stepCommit op 8 s else s

/-- An activation overrides a swap that is staged in one of its partitions (R393). -/
def dropStaged (p : Nat) (s : State) : State :=
  let c := (partOf s p).cfg
  if c.shadow ≠ .staged then s
  else logEvent 0x0C02 false p noOp noStep p (b2n (!c.active))
    (c.linked.foldl (fun t q => modCfg q (fun x => { x with shadow := .ready, linked := [] }) t) s)
/-- Activation of the standby copy of package P, after a commit in progress. It carries the cause that the manager recorded, and no message of the manual has a
place for it: whether that was a barrier hang is a free value, and then each step that the standby partition replays may hang
again without failing this package (R361; log 127). -/
def activate (P : Nat) (s0 : State) : State :=
  let s := settleCommit s0
  match setHalves s with
  | none => s
  | some (sp, op) =>
    let m := mirrorOf s
    let n := ((m.inputs.map fun i => i.1).filter fun i => decide (m.committed < i)).eraseDups.length
    let own := flying s op
    let s1 := swapBank sp (swapBank op (dropStaged sp (dropStaged op s)))
    let s2 := own.foldl (fun t r => totAdd (tCont + 1) 1 (rerunStep op r.id
      (modCont (fun c => { c with replays := c.replays.filter (· != (op, r.id)) ++ [(op, r.id)] }) t))) s1
    let d := draw (takeStage2 sp m s2)
    let s3 := d.2
    let again := if Config.hungPeer d.1 then (flying s3 sp ++ accepted s3 sp).map fun r => (sp, r.id) else []
    let s4 := modCont (fun c => { c with
      hung := again
      armed := false, setParts := [], peer := none, mirror := [], activated := some P
      activeNs := if c.activeNs = 0 then s.now else c.activeNs }) (standbyLost 3 s3)
    let s5 := if s4.pw.st = .quayside ∧ s4.pw.target.isNone then modPw (fun w => { w with target := some .run }) s4 else s4
    logPkg 0x0B04 false P (own.length + n) (totAdd tCont 1 s5)

/-- A job map is the activation of this package's standby copy: the peer, a member before, is one no longer, and this package is
(R363). -/
def activates (s : State) (old : Option Job) (e : Job) : Option Nat :=
  match s.cont.peer with
  | none => none
  | some P =>
    let gone := match old with
      | some o => decide (P ∈ o.members)
      | none => (s.cont.pairJob.bind (jobOf s)).any fun j => j.st == .tornDown
    if s.cont.armed && e.st == .active && !(decide (P ∈ e.members)) && decide (myPkg s ∈ e.members) && gone then some P else none

/-- The first condition of R364 that a replayed step over the bound breaks, as far as the package can tell (log 63). -/
def overCause (s : State) (p : Nat) (r : StepRec) : Nat :=
  if recRing (bank s p) then 6 else if r.coldOrSpill then 5 else if r.stormNs ≠ 0 then 4
  else if 450000 < worstCase s p - gvAllowance (imgOf s p) then 3 else 1
/-- Replayed steps that have committed are held against the bound of R364, counted from the teardown. -/
def checkReplays (s : State) : State :=
  s.cont.replays.foldl (fun t e =>
    match stepRec t e.1 e.2 with
    | none => modCont (fun c => { c with replays := c.replays.erase e }) t
    | some r =>
      if r.st ≠ .completed ∧ r.st ≠ .withdrawn then t
      else
        let us := (r.doneNs - t.cont.activeNs) / 1000
        let t1 := modCont (fun c => { c with replays := c.replays.erase e }) t
        if 950 < us then logPkg 0x0B05 false us (overCause t e.1 r) (totAdd (tCont + 2) 1 t1) else t1) s

/-- The oldest step's commit goes as far as it can; what waited for room in the journal or for a step slot goes on. -/
def commitOn (p : Nat) (s : State) : State := checkReplays (pumpStreams (stepCommit p 8 s))

end Sys2Proof.Machine
end

