-- ==== Sys2Proof/Machine/Ident.lean ====
section
/-! DEFINITION. Identity, measurements and the evidence of a JOIN (R480, R483, R487, R488, R491, R495). -/

namespace Sys2Proof.Machine

/-! Firmware images (R483, R484). -/

/-- The image of a firmware slot; true is slot B. -/
def slotImg (s : State) (b : Bool) : List Word := if b then s.boot.slotB else s.boot.slotA
/-- SVN of a firmware image. -/
def fwSvn (ws : List Word) : Nat := fld (wordAt ws 2) 0 6

/-- The check of R484 on an image: 0 where it passes, else the cause of event 0x1002: 1 signature, 2 SVN, 3 format. -/
def fwCheck (s : State) (ws : List Word) : Nat :=
  let n := (wordAt ws 3).toNat
  let endo := slice ws 20 32
  let sig := ws.drop (ws.length - 32)
  if wordAt ws 0 ≠ 0x57464C56 ∨ ¬ reservedOk ws 0 4 [(0, 0, 32), (1, 0, 24), (2, 0, 6), (3, 0, 32)] ∨
    slice ws 52 12 ≠ List.replicate 12 0 ∨ n ≠ 4 * ws.length ∨ n % 64 ≠ 0 ∨ n < 384 ∨ 2 ^ 26 < n ∨ sigReserved endo ∨ sigReserved sig then 3
  else if ¬ sigOk (ws.take 20) endo 1 s.boot.rootKey ∨ ¬ sigOk (ws.take (ws.length - 32)) sig 1 (bytesOfWords (slice ws 4 16)) then 1
  else if fwSvn ws < s.boot.rollback then 2 else 0
/-- Set the image of a firmware slot. -/
def setSlot (b : Bool) (ws : List Word) (s : State) : State :=
  modBoot (fun x => if b then { x with slotB := ws } else { x with slotA := ws }) s

/-! Measurements (R488; log 61). -/

/-- The owner root digest in the fuses; zeros while it is unset. -/
def ownerRootBytes (s : State) : List Byte := s.sec.ownerRoot.getD (List.replicate 32 0)
/-- What measurement 4 covers. -/
def hardwareContent (life : Nat) (root : List Byte) : List Byte := wordBytes (w32 life) ++ root
/-- The bytes that a measurement covers. -/
def measureContent (s : State) (i : Nat) : List Byte :=
  let booted := s.boot.booted.getD false
  match i with
  | 2 => if s.boot.booted.isSome then bytesOfWords (slotImg s booted) else []
  | 3 => bytesOfWords [w32 (b2n booted), w32 (fwSvn (slotImg s booted)), w32 s.boot.rollback]
  | 4 => hardwareContent s.sec.lifecycle (ownerRootBytes s)
  | 5 => bytesOfWords [w32 s.sec.ordering, w32 s.sec.stepping] ++ s.sec.fuses
  | 6 => match manifest s with
    | some m => bytesOfWords (digestWords (mfBody m) ++ mfStandby m)
    | none => List.replicate 64 0
  | 7 => bytesOfWords s.sec.keyTable
  | _ => (List.range 64).flatMap fun h => ((tget s.images h).map fun x => x.digest).getD (List.replicate 32 0)
/-- A measurement: the digest of the ROM image is held as such. -/
def measurement (s : State) (i : Nat) : List Byte := if i = 1 then s.sec.romDigest else sha256 (measureContent s i)
/-- Measurements 1 to 8 in order. -/
def measurements (s : State) : List Byte := (List.range 8).flatMap fun i => measurement s (i + 1)

/-! The identity chain: X.509 v3 in DER (R487). -/

/-- The head of a DER item: tag, bytes of the head, bytes of the content. -/
def derHead : List Byte → Option (Nat × Nat × Nat)
  | t :: l :: rest =>
    if l.toNat < 128 then some (t.toNat, 2, l.toNat)
    else if l = 0x81 then some (t.toNat, 3, (rest.getD 0 0).toNat)
    else if l = 0x82 then some (t.toNat, 4, (rest.getD 0 0).toNat * 256 + (rest.getD 1 0).toNat)
    else none
  | _ => none
/-- A DER item at the front: tag, content, the whole item, and what follows. -/
def derItem (bs : List Byte) : Option (Nat × List Byte × List Byte × List Byte) :=
  match derHead bs with
  | none => none
  | some (t, h, n) => if bs.length < h + n then none else some (t, slice bs h n, bs.take (h + n), bs.drop (h + n))
/-- The items of a content: tag, content, whole; at most `fuel`. -/
def derItems : Nat → List Byte → List (Nat × List Byte × List Byte)
  | 0, _ => []
  | fuel + 1, bs =>
    match derItem bs with
    | none => []
    | some (t, c, w, rest) => (t, c, w) :: derItems fuel rest
/-- The content of item i, empty when it is absent. -/
def derAt (xs : List (Nat × List Byte × List Byte)) (i : Nat) : List Byte := ((xs[i]?).map fun x => x.2.1).getD []
/-- A big-endian number. -/
def bigNat (bs : List Byte) : Nat := bs.foldl (fun a b => a * 256 + b.toNat) 0

/-- A certificate: the signed part, its public key as x then y little-endian, r and s. -/
structure Cert where
  tbs : List Byte
  key : List Byte
  r : Nat
  s : Nat

/-- Read one certificate. -/
def readCert (body : List Byte) : Cert :=
  let top := derItems 3 body
  let fields := derItems 12 (derAt top 0)
  let fields := if (fields.head?.map fun f => f.1) = some 0xA0 then fields.drop 1 else fields
  let point := (derAt (derItems 2 (derAt fields 5)) 1).drop 2
  let sig := derItems 2 (derAt ((derItem ((derAt top 2).drop 1)).map (fun q => (q.1, q.2.1, q.2.2.1))).toList 0)
  { tbs := ((top[0]?).map fun x => x.2.2).getD []
    key := (point.take 32).reverse ++ ((point.drop 32).take 32).reverse
    r := bigNat (derAt sig 0), s := bigNat (derAt sig 1) }
/-- A certificate is signed under a key. -/
def certOk (c : Cert) (key : List Byte) : Bool := verifySig c.tbs key c.r c.s
/-- The identity public key at the leaf of a chain that reaches the Dravroth root. -/
def chainKey (root chain : List Byte) : Option (List Byte) :=
  match (derItems 3 chain).map fun c => readCert c.2.1 with
  | [a, b, c] => if a.key == root && certOk a root && certOk b a.key && certOk c b.key then some c.key else none
  | _ => none

/-! Signatures by the identity key (R480, R491; log 11). -/

/-- A signature section over bytes, made by the identity key with free value k. -/
def idSection (s : State) (k : Nat) (msg : List Byte) : List Word :=
  let q := Config.sign k msg
  [sigMagic, w32 (1 + 4 * 256)] ++ wordsOfBytes (sha256 s.sec.idKey) ++ wordsOfBytes (natBytes 32 q.1) ++
    wordsOfBytes (natBytes 32 q.2) ++ List.replicate 6 0

/-- The evidence of a JOIN sent to manager m, and the state with the free value drawn. -/
def evidence (m : Nat) (s : State) : List Byte × State :=
  let body := (s.sec.chain ++ List.replicate (4096 - s.sec.chain.length) 0) ++ measurements s ++
    (s.sec.startValue ++ List.replicate (32 - s.sec.startValue.length) 0)
  let d := draw s
  (body ++ bytesOfWords (idSection s d.1 (body ++ [b8 s.host.hm.pkgId.toNat, b8 m])), d.2)

/-- The evidence of joiner j is accepted by this manager (R491). -/
def evidenceOk (s : State) (j : Nat) (ev : List Byte) : Bool :=
  let body := ev.take 4384
  let sig := wordsOfBytes (slice ev 4384 128)
  match chainKey s.boot.rootKey (body.take 4096) with
  | none => false
  | some key =>
    ev.length == 4512 && !sigReserved sig && wordAt sig 0 == sigMagic && fld (wordAt sig 1) 8 8 == 4 &&
      bytesOfWords (slice sig 2 8) == sha256 key &&
      verifySig (body ++ [b8 j, b8 s.host.hm.pkgId.toNat]) key (natOfBytes (bytesOfWords (slice sig 10 8)))
        (natOfBytes (bytesOfWords (slice sig 18 8))) &&
      slice body (4096 + 96) 32 == sha256 (hardwareContent 2 (ownerRootBytes s))

end Sys2Proof.Machine
end

