-- ==== Sys2Proof/Machine/Unseal.lean ====
section
/-! DEFINITION. The stop of service before an UNSEAL or a RETURN, and changes of the life-cycle state (R293 to R295, R300, R493,
R496, R499). -/

namespace Sys2Proof.Machine

/-- Enter a life-cycle state (R494, R499). -/
def enterLife (n : Nat) (s : State) : State :=
  setInt 2 (logPkg 0x1001 false n s.sec.lifecycle (modSec (fun x => { x with lifecycle := n }) s))

/-- What RETURN erases: the shard area, both manifests, the owner key table and the preference record (R496). -/
def eraseReturn (s : State) : State :=
  modBoot (fun b => { b with prefer := none }) (modSec (fun x => { x with keyTable := [] })
    (modBnd (fun b => { b with
      manifest := [], st := .none, bitmap := [], rebuilds := [], lost := [], scrubAt := 0, scrubOk := 0, scrubBad := 0
      pageBad := [], tagsDiffer := [] }) { s with x := { s.x with bond := [] } }))

/-- Every admitted step of the package that has not committed. -/
def allFlying (s : State) : List (Nat × Nat) := s.parts.flatMap fun q => (flying s q.1).map fun r => (q.1, r.id)
/-- The admitted steps complete with status 0x0901 and none of them commits (R295). -/
def stopSteps (s : State) : State :=
  (allFlying s).foldl (fun t e => endStepWith e.1 e.2 0x0901 0 0 t)
    (modSec (fun x => { x with stopStopped := x.stopStopped + (allFlying s).length }) s)

/-- A partition loses its sequences, pages and both banks; steps that were only accepted are withdrawn (R295; log 20). -/
def clearPart (p : Nat) (s : State) : State :=
  let s1 := answerEvicts p ((accepted s p).foldl (fun t r => withdrawStep p r.id false t) s)
  modPart p (fun q => { q with
    cfg := { q.cfg with
      ebb := [], flood := [], shadow := .empty, linked := [], folded := []
      st := if q.cfg.st = .serving then .opened else q.cfg.st }
    kv := {}, ex := {}, jr := {}, fb := {} }) s1

/-- Service has been stopped: nothing is left that runs on the old weights. -/
def endService (s : State) : State :=
  let s1 := (s.parts.map fun q => q.1).foldl (fun t p => clearPart p t) s
  let s2 := modBnd (fun b => { b with rebuilds := [] }) { s1 with stages := [], cont := {} }
  logPkg 0x0907 false s.sec.stopCommits s.sec.stopStopped s2

/-- Record the state that UNSEAL or RETURN leads to. -/
def recordLife (n : Nat) (s : State) : State := if n = 3 then eraseReturn (enterLife 3 s) else enterLife n s

/-- The stop of service ends once no admitted step is left and the package has left its fabric jobs: the new state is recorded and the
command answered (R295, R496). -/
def finishStop (s : State) : State :=
  match s.sec.stopping with
  | none => s
  | some (n, r) =>
    if s.host.hm.joined ∨ (allFlying s ≠ [] ∧ ¬ s.host.hm.failed) then s
    else
      let s1 := endService (stopSteps s)
      reply r 0 [] (recordLife n (modSec (fun x => { x with stopping := none, stopCommits := 0, stopStopped := 0 }) s1))

end Sys2Proof.Machine
end

