-- ==== Sys2Proof/Machine/Manager.lean ====
section
/-! DEFINITION. Fabric jobs at a member, joining, leaving, heartbeats and the manager's role (R302, R314, R318, R328 to R342, R349,
R360, R362). -/

namespace Sys2Proof.Machine

/-! Job entries on the wire (R330). -/

/-- STATE of a job entry. -/
def jobCode : JobState → Nat
  | .active => 0
  | .draining => 1
  | .tornDown => 2
  | .unmapped => 3
/-- The state that a code names. -/
def jobStateOf : Nat → JobState
  | 0 => .active
  | 1 => .draining
  | 2 => .tornDown
  | _ => .unmapped
/-- A job entry as words. -/
def jobWords (e : Job) : List Word :=
  w32 (e.job + 65536 * e.gen + 2 ^ 24 * jobCode e.st) ::
    ((List.range 4).map fun i => w32 ((e.members.filter fun m => m / 32 == i).map fun m => 2 ^ (m % 32)).sum) ++
    e.members.map fun m => w32 (tgetD e.parts m 0)
/-- The job entry that words give. -/
def jobFrom (ws : List Word) : Job :=
  let ms := (List.range 128).filter fun m => bitOf (wordAt ws (1 + m / 32)) (m % 32)
  { job := fld (wordAt ws 0) 0 16, gen := fld (wordAt ws 0) 16 8, st := jobStateOf (fld (wordAt ws 0) 24 2), members := ms
    parts := ms.mapIdx fun i m => (m, (wordAt ws (5 + i)).toNat) }
/-- Job and generation as words. -/
def jobGen (j g : Nat) : List Byte := wordBytes (w32 (j + 65536 * g))
/-- Job and generation of the data of a job packet. -/
def jobGenOf (bs : List Byte) : Nat × Nat :=
  let w := wordAt (wordsOfBytes (bs.take 4)) 0
  (fld w 0 16, fld w 16 8)

/-! Jobs at a member (R329 to R331, R339). -/

/-- Replace or add a job entry. -/
def putJob (e : Job) (s : State) : State :=
  modFab (fun f => { f with
    jobs := if f.jobs.any (fun x => x.job == e.job) then f.jobs.map (fun x => if x.job = e.job then e else x) else f.jobs ++ [e] }) s
/-- Complete every request of a job at its source with a status, and forget its streams, its replay-table entries and the pushes
that wait for a credit (R339). -/
def clearJob (j status : Nat) (s : State) : State :=
  let s0 := modFab (fun f => { f with creditWait := f.creditWait.filter fun w => recJob (bank s w.1) != j }) s
  let s1 := (s0.fab.src.filter fun x => x.job == j).foldl (fun t x =>
    (x.outs ++ x.waiting).foldl (fun u r => finishReq x.plane x.dst j r status u) t) s0
  answerInputs (modFab (fun f => { f with
    src := f.src.filter fun x => x.job != j
    dst := f.dst.filter fun x => x.job != j
    replay := f.replay.filter fun e => e.2.job != j }) s1)
/-- TEARDOWN of job j at generation g takes effect at this member, once (R339, R354, R360). -/
def teardownHere (j g : Nat) (s : State) : State :=
  match jobOf s j with
  | none => s
  | some e =>
    if e.gen ≠ g ∨ e.st = .tornDown then s
    else
      let s1 := modCont (fun c => { c with activeNs := s.now }) (putJob { e with st := .tornDown } s)
      let s2 := (jobParts s j).foldl (fun t p => discardSteps p t) (clearJob j 0x0A01 s1)
      let s3 := if s.cont.pairJob = some j then loseHolder s2 else s2
      logPkg 0x0A06 false j g s3

/-- This source has no request of a job outstanding. -/
def jobIdle (s : State) (j : Nat) : Bool := s.fab.src.all fun x => x.job != j || (x.outs == [] && x.waiting == [])
/-- A job map names this package no longer (R342). -/
def leaveJob (e : Job) (s : State) : State :=
  match jobOf s e.job with
  | none => s
  | some o =>
    let s1 := modFab (fun f => { f with jobs := f.jobs.filter fun x => x.job != e.job }) (clearJob e.job 0x0A02 s)
    let s2 := if o.gen = e.gen then s1 else logPkg 0x0A07 false e.job e.gen s1
    let s3 := if s.cont.pairJob = some e.job then
        modCont (fun c => { c with pairJob := none, holder := none, peer := none, mirror := [] }) s2 else s2
    if s3.fab.leaving ∧ s3.fab.jobs = [] then
      finishStop (modHm (fun h => { h with joined := false })
        (modFab (fun f => { f with leaving := false, mgmt := f.mgmt.filter fun m => hOp m.hdr != 0x28 }) s3))
    else s3
/-- A job map takes effect at this member: an activation first, then the entry, its fresh streams, the pairing, and the replay. -/
def enterJob (e : Job) (s : State) : State :=
  let old := jobOf s e.job
  let fresh := (old.map fun o => o.gen) != some e.gen
  let s1 := match activates s old e with
    | some P => activate P s
    | none => s
  let s2 := putJob e (if fresh ∧ old.isSome then logPkg 0x0A07 false e.job e.gen (clearJob e.job 0x0A02 s1) else s1)
  let s3 := if isPairing e then setPairing e s2 else s2
  if e.st = .active ∧ fresh then (jobParts s3 e.job).foldl (fun t p => replaySteps p t) s3 else s3
/-- A JOB_MAP at a member: the status of its acknowledgement, or none while the job still drains here (R329, R330, R342). One that
activates the standby copy lets a commit in progress finish: unanswered, it is sent again and takes effect then (`wait`; R363, R314). -/
def mapHere (wait : Bool) (ws : List Word) (len : Nat) (s : State) : Option Nat × State :=
  let e := jobFrom ws
  let old := jobOf s e.job
  if e.job = serviceJob ∨ len ≠ 20 + 4 * e.members.length ∨ fld (wordAt ws 0) 26 6 ≠ 0 then (some 0x0A05, s)
  else if myPkg s ∉ e.members then (some 0, leaveJob e s)
  else if old.isNone ∧ 64 ≤ s.fab.jobs.length then (some 0x0A05, s)
  else if (old.map fun o => (o.gen, o.st)) = some (e.gen, .tornDown) then (some 0, s)
  else if wait ∧ (activates s old e).isSome ∧ old ≠ some e ∧ commitBusy (settleCommit s) then (none, settleCommit s)
  else
    let s1 := if old = some e then s else enterJob e s
    (if e.st = .draining ∧ ¬ jobIdle s1 e.job then none else some 0, s1)

/-! Joining (R341, R491) and leaving (R342). -/

/-- The data of a JOIN to manager m. -/
def joinData (m : Nat) (s : State) : List Byte × State :=
  let q := evidence m s
  (bytesOfWords [w32 (myPkg s + 256 * s.sec.lifecycle), s.host.hm.fwVersion] ++ q.1, q.2)
/-- A JOIN is on its way. -/
def joining (s : State) : Bool := s.fab.mgmt.any fun m => hOp m.hdr == 0x25
/-- The package may send JOIN: it is ready, has an Active port, knows a manager, and has neither joined nor been refused. -/
def canJoin (s : State) : Bool :=
  s.host.hm.ready && !s.host.hm.failed && (!s.host.hm.joined || s.host.hm.cutOff) && !s.fab.refused && !joining s &&
    (activePorts s 0 != [] || activePorts s 1 != []) && (s.fab.knownMgr.map fun m => m != myPkg s) == some true
/-- Send JOIN, in its two packets. -/
def sendJoin (s : State) : State :=
  match s.fab.knownMgr with
  | none => s
  | some m =>
    let q := joinData m s
    mgmtAsk 0x25 1 m 0 (q.1.drop 4096) (mgmtAsk 0x25 0 m 0 (q.1.take 4096) q.2)
/-- Send JOIN where it may be sent. -/
def tryJoin (s : State) : State := if canJoin s then sendJoin s else s

/-- fabric.join: answered when JOIN_REPLY arrives, at once when the package has joined. A JOIN that cannot be sent is answered with
status 0x0A0A (log 65). -/
def fabricJoin (r : Request) (s : State) : State :=
  if s.host.hm.joined ∧ ¬ s.host.hm.cutOff then reply r 0 [] s
  else
    let s1 := tryJoin (modFab (fun f => { f with refused := false }) s)
    if joining s1 then modFab (fun f => { f with joinFor := f.joinFor ++ [r] }) s1 else reply r 0x0A0A [] s1
/-- FABRIC_JOIN (R341). -/
def execFabricJoin (m : MbxId) (s : State) : Host.Outcome State Fault Refusal := .next (takeCmd m 0x0B01 fabricJoin s)

/-- JOIN_REPLY at the joiner. -/
def arriveJoinReply (p : Packet) (s : State) : State :=
  let w := wordAt (wordsOfBytes (p.data.take 4)) 0
  let st := fld w 0 16
  if ¬ joining s then s
  else
    let rs := s.fab.joinFor
    let s1 := modFab (fun f => { f with
      mgmt := f.mgmt.filter fun m => hOp m.hdr != 0x25
      joinFor := [], refused := st != 0
      mySlot := if st = 0 then some (fld w 16 7) else f.mySlot
      echoNs := s.now }) s
    let s2 := if st = 0 then modHm (fun h => { h with joined := true, cutOff := false }) s1
      else
        let s3 := logPkg 0x0A09 false st (myPkg s) s1
        if s3.pw.st = .run then enterState .quayside s3 else s3
    rs.foldl (fun t r => reply r st [] t) s2

/-- Send LEAVE: with no job entry left the departure ends at once. The service-job streams end with it (R328, R342). -/
def startLeave (s : State) : State :=
  if ¬ s.host.hm.joined ∨ s.fab.leaving then s
  else match s.fab.knownMgr with
    | none => modHm (fun h => { h with joined := false }) s
    | some m =>
      if s.fab.jobs = [] then modHm (fun h => { h with joined := false }) (mgmtSend 0x28 0 m 0 [] s)
      else mgmtAsk 0x28 0 m 0 [] (modFab (fun f => { f with leaving := true }) s)

/-! The manager's record (R332). -/

/-- Change the record of a joined package. -/
def modJoined (pkg : Nat) (f : JoinedPkg → JoinedPkg) (s : State) : State :=
  modMgr (fun m => { m with joined := m.joined.map fun e => if e.pkg = pkg then f e else e }) s
/-- A package has joined. -/
def hasJoined (s : State) (pkg : Nat) : Bool := s.mgr.joined.any fun e => e.pkg == pkg
/-- Every job that the manager knows: its tables, and the entries of its own package. -/
def allJobs (s : State) : List Job := s.mgr.jobs ++ s.fab.jobs.filter fun e => !(s.mgr.jobs.any fun x => x.job == e.job)
/-- Enter a job in the manager's tables. -/
def recordJob (e : Job) (s : State) : State :=
  modMgr (fun m => { m with jobs := (m.jobs.filter fun x => x.job != e.job) ++ [e] }) s
/-- The data of a journal record (log 60). -/
def recordData (c : Change) : List Byte := bytesOfWords ([w32 c.id, w32 c.kind, w32 c.pkg, w32 c.job] ++ c.words)
/-- The journal record that data give. -/
def recordFrom (bs : List Byte) : Change :=
  let ws := wordsOfBytes bs
  { id := (wordAt ws 0).toNat, kind := (wordAt ws 1).toNat, pkg := (wordAt ws 2).toNat, job := (wordAt ws 3).toNat, words := ws.drop 4 }
/-- A record's effect on a copy of the manager's state. -/
def applyRecord (c : Change) (s : State) : State :=
  match c.kind with
  | 1 => modMgr (fun m => { m with jobs := m.jobs.map fun e => if e.job = c.job then { e with st := .tornDown } else e }) s
  | 2 => recordJob (jobFrom c.words) s
  | 3 => modMgr (fun m => { m with joined := (m.joined.filter fun e => e.pkg != c.pkg) ++
      [{ pkg := c.pkg, slot := (wordAt c.words 0).toNat, seenNs := s.now, sealed := true, evid := bytesOfWords (slice c.words 1 8) }] }) s
  | 4 => modMgr (fun m => { m with joined := m.joined.filter fun e => e.pkg != c.pkg }) s
  | _ => s

/-- Send a packet to every neighbour. -/
def toNeighbours (op : Nat) (data : List Byte) (s : State) : State :=
  ((List.range 18).filter (portActive s)).foldl (fun t p =>
    let far := ((portOf t p).far.map fun f => f.1).getD 0
    let h := sealHdr (mgmtHdr t op 0 far data.length 0) 0 data
    portSend p h data t) s
/-- Data of MANAGER. -/
def managerData (m : Nat) (stby : Option Nat) : List Byte := bytesOfWords [w32 m, w32 (stby.getD 0xFFFFFFFF)]
/-- Announce the manager and the standby to every joined package and every neighbour (R333, R336). -/
def announceManager (s : State) : State :=
  let d := managerData (myPkg s) s.mgr.stby
  s.mgr.joined.foldl (fun t e => if e.pkg = myPkg t then t else mgmtSend 0x27 0 e.pkg 0 d t) (toNeighbours 0x27 d s)
/-- Send route tables of both planes to a package. How the manager learns the cabling is not given, so the tables' entries are
free values (log 66). -/
def sendRoutes (pkg : Nat) (s : State) : State :=
  if pkg = myPkg s then s
  else [0, 1].foldl (fun t plane =>
    let d := draw t
    mgmtAsk 0x2A plane pkg 0 (bytesOfWords ((List.range 72).map fun i => Config.openWord (d.1 * 72 + i))) d.2) s
/-- Send route tables to every joined package; paused streams of the manager's own package resume (R323). -/
def routesAll (s : State) : State := resumeStreams 1 (resumeStreams 0 (s.mgr.joined.foldl (fun t e => sendRoutes e.pkg t) s))

/-- Live members of a job but this package. -/
def others (s : State) (ms : List Nat) : List Nat := ms.filter fun m => m != myPkg s && hasJoined s m

/-- Act on a job map: it goes to every package that it concerns. -/
def commitMap (e : Job) (s : State) : State :=
  let old := (allJobs s).find? fun x => x.job = e.job
  let who := others s (((old.map fun o => o.members).getD [] ++ e.members).eraseDups)
  let data := bytesOfWords (jobWords e)
  let s1 := modMgr (fun m => { m with
    mapWait := (m.mapWait.filter fun w => w.1 != e.job) ++ if who = [] then [] else [(e.job, e.gen, who)] }) (recordJob e s)
  let s2 := who.foldl (fun t m => mgmtAsk 0x23 0 m 0 data t) s1
  if myPkg s ∈ e.members ∨ myPkg s ∈ (old.map fun o => o.members).getD [] then (mapHere false (jobWords e) data.length s2).2 else s2

/-- Act on a teardown: TEARDOWN goes to every live member (R338). -/
def commitTeardown (c : Change) (s : State) : State :=
  match (allJobs s).find? fun x => x.job = c.job with
  | none => s
  | some e =>
    let who := others s (e.members.filter (· != c.pkg))
    let s1 := modMgr (fun m => { m with tds := m.tds ++ [{ job := e.job, gen := e.gen, pkg := c.pkg, wait := who }] })
      (recordJob { e with st := .tornDown } s)
    teardownHere e.job e.gen (who.foldl (fun t m => mgmtAsk 0x21 0 m 0 (jobGen e.job e.gen) t) s1)

/-- The packets that a package receives when it has joined. -/
def welcome (pkg slot : Nat) (s : State) : State :=
  let s1 := sendRoutes pkg (mgmtSend 0x26 0 pkg 0 (wordBytes (w32 (65536 * slot))) s)
  ((allJobs s).filter fun e => decide (pkg ∈ e.members)).foldl (fun t e => mgmtAsk 0x23 0 pkg 0 (bytesOfWords (jobWords e)) t) s1

/-- Act on a change whose echo has arrived, or that needs none. -/
def commitChange (c : Change) (s : State) : State :=
  match c.kind with
  | 1 => commitTeardown c s
  | 2 => commitMap (jobFrom c.words) s
  | 3 => welcome c.pkg (wordAt c.words 0).toNat (modFab (fun f => { f with
      replaySlots := tset f.replaySlots c.pkg (wordAt c.words 0).toNat }) (applyRecord c s))
  | 4 => applyRecord c s
  | 5 => routesAll s
  | _ => announceManager s
/-- Make a change: the standby copies it first, where there is one (R332). -/
def propose (kind pkg job : Nat) (words : List Word) (s : State) : State :=
  let c : Change := { id := s.mgr.nextChange, kind, pkg, job, words }
  let s1 := modMgr (fun m => { m with nextChange := m.nextChange + 1 }) s
  match s.mgr.stby with
  | none => commitChange c s1
  | some b => mgmtAsk 0x29 0 b 0 (recordData c) (modMgr (fun m => { m with changes := m.changes ++ [c] }) s1)

/-- The package that should be standby: the lowest eligible one but the manager (R332, R333). -/
def nextStandby (s : State) : Option Nat :=
  ((s.mgr.joined.filter fun e => e.pkg != myPkg s && e.sealed && !bitOf e.state 1).map fun e => e.pkg).min?
/-- The whole record, for a new standby; an identifier of 2^32 - 1 marks a copy that nothing awaits. -/
def copyAll (b : Nat) (s : State) : State :=
  let cs := (s.mgr.joined.map fun e => ({ id := 0xFFFFFFFF, kind := 3, pkg := e.pkg, words := w32 e.slot :: wordsOfBytes e.evid } : Change)) ++
    (allJobs s).map fun e => { id := 0xFFFFFFFF, kind := 2, job := e.job, words := jobWords e }
  cs.foldl (fun t c => mgmtAsk 0x29 0 b 0 (recordData c) t) s
/-- Name the standby: a new one is announced and receives a copy of the record; changes that waited for an echo go to it, or take
effect where there is none. -/
def nameStandby (s : State) : State :=
  let b := nextStandby s
  if b = s.mgr.stby then s
  else
    let wait := s.mgr.changes
    let s1 := modFab (fun f => { f with knownStby := b, mgmt := f.mgmt.filter fun m => hOp m.hdr != 0x29 })
      (modMgr (fun m => { m with stby := b }) s)
    let s2 := announceManager (logPkg 0x0A08 false (myPkg s) (b.getD 0xFFFFFFFF) s1)
    match b with
    | some k => wait.foldl (fun t c => mgmtAsk 0x29 0 k 0 (recordData c) t) (copyAll k s2)
    | none => wait.foldl (fun t c => commitChange c t) (modMgr (fun m => { m with changes := [] }) s2)

/-- Forget a package that is dead or has left: its replay slot, its table entries and its service-job streams (R325, R327, R328). -/
def forgetPkg (pkg : Nat) (s : State) : State :=
  let s1 := (s.fab.src.filter fun x => x.dst == pkg && x.job == serviceJob).foldl (fun t x =>
    (x.outs ++ x.waiting).foldl (fun u r => finishReq x.plane pkg serviceJob r 0x0A01 u) t) s
  modFab (fun f => { f with
    src := f.src.filter fun x => !(x.dst == pkg && x.job == serviceJob)
    dst := f.dst.filter fun x => !(x.src == pkg && x.job == serviceJob)
    replay := f.replay.filter fun e => e.2.src != pkg
    replaySlots := terase f.replaySlots pkg
    mgmt := f.mgmt.filter fun m => m.dst != pkg }) s1

/-- Where a package's position goes: its holder in the pairing job, while that has joined (R362; log 67). -/
def successor (s : State) (P : Nat) : Option Nat :=
  match (allJobs s).find? fun e => decide (P ∈ e.members) && e.members.all fun m => tgetD e.parts m 0 == 0 with
  | none => none
  | some e => (nextOf e.members P).filter fun h => h != P && hasJoined s h
/-- The map that re-maps a torn-down job after the loss of package P. -/
def remap (e : Job) (P h : Nat) : Job :=
  let ms := ((e.members.filter fun m => m != P && m != h) ++ [h]).mergeSort
  { e with gen := (e.gen + 1) % 256, st := .active, members := ms
           parts := ms.map fun m => (m, if m = h then Nat.lor (tgetD e.parts h 0) (tgetD e.parts P 0) else tgetD e.parts m 0) }
/-- A teardown is complete: the job is mapped again where the lost package has a holder. -/
def endTeardown (d : Td) (s : State) : State :=
  let s1 := modMgr (fun m => { m with tds := m.tds.filter fun x => x.job != d.job }) s
  match successor s d.pkg, (allJobs s).find? fun e => e.job = d.job with
  | some h, some e => propose 2 h d.job (jobWords (remap e d.pkg h)) s1
  | _, _ => s1
/-- Teardowns that wait for nobody are complete. -/
def endTeardowns (s : State) : State := (s.mgr.tds.filter fun d => d.wait == []).foldl (fun t d => endTeardown d t) s

/-- Declare a package dead: every job of which it is a member is torn down (R335, R338). -/
def declareDead (pkg : Nat) (s : State) : State :=
  if ¬ s.mgr.active ∨ pkg = myPkg s ∨ ¬ hasJoined s pkg then s
  else
    let js := (allJobs s).filter fun e => decide (pkg ∈ e.members) && e.st != .tornDown && e.st != .unmapped
    let s1 := logPkg 0x0A05 true pkg js.length (forgetPkg pkg s)
    let s2 := modMgr (fun m => { m with
      joined := m.joined.filter fun e => e.pkg != pkg
      tds := m.tds.map fun d => { d with wait := d.wait.filter (· != pkg) }
      mapWait := m.mapWait.map fun w => (w.1, w.2.1, w.2.2.filter (· != pkg)) }) s1
    let s3 := nameStandby s2
    let s4 := js.foldl (fun t e => propose 1 pkg e.job [w32 e.gen] t) (propose 4 pkg 0 [] s3)
    endTeardowns (propose 5 pkg 0 [] s4)

/-! Heartbeats (R334 to R337). -/

/-- Echo a management packet to its source on its plane. -/
def echo (p : Packet) (s : State) : State :=
  let h := p.hdr
  transmit (mgmtPlane s p.plane.val (hSrc h)) (hSrc h) 0 (mgmtHdr s (hOp h) (hSub h) (hSrc h) p.data.length 0) p.data s
/-- The packet repeats the count of this package's last heartbeat: it is an echo of it (log 59). -/
def ownCount (s : State) (p : Packet) : Bool := dwordAt (wordsOfBytes p.data) 1 == (s.fab.hbCount + 2 ^ 64 - 1) % 2 ^ 64
/-- HEARTBEAT arrives. -/
def arriveHeartbeat (p : Packet) (s : State) : State :=
  let src := hSrc p.hdr
  let w0 := wordAt (wordsOfBytes p.data) 0
  let fromRole := decide (s.fab.knownMgr = some src ∨ s.fab.knownStby = some src)
  let s1 := if fromRole then modFab (fun f => { f with echoNs := s.now }) s else s
  let s2 := if fromRole ∧ s.host.hm.cutOff then tryJoin s1 else s1
  let s3 := if s.mgr.standby ∧ s.fab.knownMgr = some src then modMgr (fun m => { m with mgrSeenNs := s.now }) s2 else s2
  if (s.mgr.active ∨ s.mgr.standby) ∧ ¬ (fromRole ∧ ownCount s p) then
    let s4 := echo p (modJoined src (fun e => { e with seenNs := s.now, state := w0 }) s3)
    if bitOf w0 1 then declareDead src s4 else s4
  else s3
/-- The manager acts on destinations reported unreachable that have not been declared dead: fresh route tables (R323). -/
def freshRoutes (s : State) : State :=
  if s.mgr.active ∧ s.mgr.unreachable ≠ [] then propose 5 0 0 [] (modMgr (fun m => { m with unreachable := [] }) s) else s
/-- A heartbeat falls due on a joined package; the manager counts the packages that have missed the last interval (R334, R346). -/
def heartbeatDue (s : State) : State :=
  let missed := if s.mgr.active then (s.mgr.joined.filter fun e => e.pkg != myPkg s && decide (e.seenNs + 50000 < s.now)).length else 0
  let s1 := freshRoutes (totAdd (tLanes + 6) missed s)
  if s.host.hm.joined then sendHeartbeat s1 else s1
/-- HEARTBEAT (R334, R335). -/
def execHeartbeat (p : Packet) (s : State) : Host.Outcome State Fault Refusal :=
  .next (takePacket p (hOp p.hdr == 0x20 && wholePacket p) arriveHeartbeat s)
/-- HEARTBEAT_TIMER (R334). -/
def execHeartbeatTimer (s : State) : Host.Outcome State Fault Refusal := .next (heartbeatDue s)
/-- HEARTBEAT_TIMEOUT (R335). -/
def execHeartbeatTimeout (pkg : Fin 128) (s : State) : Host.Outcome State Fault Refusal := .next (declareDead pkg.val s)

/-- The standby becomes manager: it announces itself. -/
def takeRole (s : State) : State :=
  announceManager (modHm (fun h => { h with manager := true }) (modFab (fun f => { f with knownMgr := some (myPkg s), knownStby := none })
    (modMgr (fun m => { m with active := true, standby := false, stby := none }) s)))
/-- A manager without a standby names one, or reports that there is none. -/
def seekStandby (s : State) : State :=
  if s.mgr.stby.isSome then s
  else
    let t := nameStandby s
    if t.mgr.stby.isSome then t else logPkg 0x0A08 false (myPkg s) 0xFFFFFFFF t
/-- The standby takes over: it declares the old manager dead and names a new standby (R336). -/
def takeOver (s : State) : State :=
  if ¬ s.mgr.standby then s
  else
    let s1 := takeRole s
    seekStandby (match s.fab.knownMgr with
      | some k => declareDead k s1
      | none => s1)
/-- MANAGER_HEARTBEAT_TIMEOUT (R336). -/
def execManagerHeartbeatTimeout (s : State) : Host.Outcome State Fault Refusal := .next (takeOver s)

/-- No echo for 400 microseconds: the package is cut off (R337). -/
def cutOff (s : State) : State :=
  if ¬ s.host.hm.joined ∨ s.host.hm.cutOff ∨ (s.fab.knownMgr.toList ++ s.fab.knownStby.toList).all (· == myPkg s) then s
  else logPkg 0x0A0B true (s.fab.knownMgr.getD 0xFFFFFFFF) ((s.now - s.fab.echoNs) / 1000)
    (setSticky 3 (modHm (fun h => { h with cutOff := true }) s))
/-- CUT_OFF_TIMEOUT (R337). -/
def execCutOffTimeout (s : State) : Host.Outcome State Fault Refusal := .next (cutOff s)

/-! Teardown, job maps and their acknowledgements (R330, R338, R339, R342). -/

/-- TEARDOWN at a member. -/
def arriveTeardown (p : Packet) (s : State) : State :=
  let q := jobGenOf p.data
  mgmtSend 0x22 0 (hSrc p.hdr) 0 (jobGen q.1 q.2) (teardownHere q.1 q.2 s)
/-- TEARDOWN (R339). -/
def execTeardown (p : Packet) (s : State) : Host.Outcome State Fault Refusal :=
  .next (takePacket p (hOp p.hdr == 0x21 && wholePacket p) arriveTeardown s)

/-- TEARDOWN_ACK at the manager. -/
def arriveTeardownAck (p : Packet) (s : State) : State :=
  let q := jobGenOf p.data
  let src := hSrc p.hdr
  let s1 := mgmtDone 0x21 src (fun d => jobGenOf d == q) s
  endTeardowns (modMgr (fun m => { m with tds := m.tds.map fun d =>
    if d.job = q.1 ∧ d.gen = q.2 then { d with wait := d.wait.filter (· != src) } else d }) s1)
/-- TEARDOWN_ACK (R338). -/
def execTeardownAck (p : Packet) (s : State) : Host.Outcome State Fault Refusal :=
  .next (takePacket p (hOp p.hdr == 0x22 && wholePacket p) arriveTeardownAck s)

/-- 150 microseconds after the declaration: members that have not acknowledged are dead, and the teardown is complete. -/
def teardownOver (job : Nat) (s : State) : State :=
  match s.mgr.tds.find? fun d => d.job = job with
  | none => s
  | some d =>
    let s1 := modMgr (fun m => { m with tds := m.tds.map fun x => if x.job = job then { x with wait := [] } else x }) s
    endTeardowns (d.wait.foldl (fun t m => declareDead m t) s1)
/-- TEARDOWN_DEADLINE (R338). -/
def execTeardownDeadline (job : Fin 65536) (s : State) : Host.Outcome State Fault Refusal := .next (teardownOver job.val s)

/-- JOB_MAP at a member; its acknowledgement carries the status in word 6 (log 68). -/
def arriveJobMap (p : Packet) (s : State) : State :=
  let ws := wordsOfBytes p.data
  let q := mapHere true ws p.data.length s
  match q.1 with
  | none => q.2
  | some st => mgmtSend 0x24 0 (hSrc p.hdr) st (jobGen (jobFrom ws).job (jobFrom ws).gen) q.2
/-- JOB_MAP (R330). -/
def execJobMap (p : Packet) (s : State) : Host.Outcome State Fault Refusal :=
  .next (takePacket p (hOp p.hdr == 0x23 && wholePacket p) arriveJobMap s)

/-- The map without a departing package (R342). -/
def without (e : Job) (X : Nat) : Job :=
  { e with gen := (e.gen + 1) % 256, st := .active, members := e.members.filter (· != X), parts := e.parts.filter fun q => q.1 != X }
/-- A departing package that is a member of no job has left. -/
def endLeave (X : Nat) (s : State) : State :=
  if X ∉ s.mgr.leaves ∨ (allJobs s).any (fun e => decide (X ∈ e.members)) then s
  else
    let s1 := modMgr (fun m => { m with leaves := m.leaves.filter (· != X) }) (forgetPkg X s)
    propose 5 X 0 [] (nameStandby (propose 4 X 0 [] s1))
/-- Every member of a job map has acknowledged it: a drained job is mapped again without the departing package. -/
def mapDone (j : Nat) (s : State) : State :=
  match (allJobs s).find? fun e => e.job = j with
  | none => s
  | some e =>
    match e.st, s.mgr.leaves.find? fun X => decide (X ∈ e.members) with
    | .draining, some X => propose 2 X j (jobWords (without e X)) s
    | _, _ => s.mgr.leaves.foldl (fun t X => endLeave X t) s
/-- JOB_MAP_ACK at the manager: a member that has no room makes the job unmappable (R329). -/
def arriveJobMapAck (p : Packet) (s : State) : State :=
  let q := jobGenOf p.data
  let src := hSrc p.hdr
  let s1 := mgmtDone 0x23 src (fun d => jobGenOf d == q) s
  let s2 := if hW6 p.hdr % 65536 = 0 then s1
    else modMgr (fun m => { m with jobs := m.jobs.map fun e => if e.job = q.1 then { e with st := .unmapped } else e }) s1
  match s2.mgr.mapWait.find? fun w => w.1 = q.1 ∧ w.2.1 = q.2 with
  | none => s2
  | some w =>
    let left := w.2.2.filter (· != src)
    let s3 := modMgr (fun m => { m with
      mapWait := (m.mapWait.filter fun x => x.1 != q.1) ++ if left = [] then [] else [(q.1, q.2, left)] }) s2
    if left = [] then mapDone q.1 s3 else s3
/-- JOB_MAP_ACK (R338, R342). -/
def execJobMapAck (p : Packet) (s : State) : Host.Outcome State Fault Refusal :=
  .next (takePacket p (hOp p.hdr == 0x24 && wholePacket p) arriveJobMapAck s)

/-- LEAVE at the manager: every job of the package drains. -/
def arriveLeave (p : Packet) (s : State) : State :=
  let X := hSrc p.hdr
  if ¬ s.mgr.active ∨ ¬ hasJoined s X ∨ X ∈ s.mgr.leaves then s
  else
    let s1 := modMgr (fun m => { m with leaves := m.leaves ++ [X] }) s
    let js := (allJobs s).filter fun e => decide (X ∈ e.members)
    endLeave X (js.foldl (fun t e => propose 2 X e.job (jobWords { e with st := .draining }) t) s1)
/-- LEAVE (R342). -/
def execLeave (p : Packet) (s : State) : Host.Outcome State Fault Refusal :=
  .next (takePacket p (hOp p.hdr == 0x28 && wholePacket p) arriveLeave s)

/-! JOIN at the manager (R341, R491). -/

/-- Packages that have joined, and others whose join waits for its echo (R3, R332). -/
def joinedWith (s : State) (pkg : Nat) : Nat :=
  s.mgr.joined.length + (((s.mgr.changes.filter fun c => c.kind == 3 && c.pkg != pkg).map fun c => c.pkg).eraseDups).length
/-- The status of a JOIN. -/
def joinStatus (s : State) (data : List Byte) : Nat :=
  let ws := wordsOfBytes (data.take 8)
  let pkg := fld (wordAt ws 0) 0 7
  if 72 ≤ joinedWith s pkg then 0x0A06
  else if hasJoined s pkg then 0x0A07
  else if data.length ≠ 4520 ∨ fld (wordAt ws 0) 8 3 ≠ 2 ∨ ¬ evidenceOk s pkg (data.drop 8) then 0x0A08 else 0
/-- Both packets of a JOIN are there: answer it. A repeat of the JOIN that admitted a package is answered as that was (R314). -/
def judgeJoin (src : Nat) (data : List Byte) (s : State) : State :=
  let pkg := fld (wordAt (wordsOfBytes (data.take 4)) 0) 0 7
  let dig := sha256 data
  match s.mgr.joined.find? fun e => e.pkg = pkg ∧ e.evid = dig with
  | some e => mgmtSend 0x26 0 src 0 (wordBytes (w32 (65536 * e.slot))) s
  | none =>
    let st := joinStatus s data
    if st ≠ 0 then logPkg 0x0A09 false st pkg (mgmtSend 0x26 0 src st (wordBytes (w32 st)) s)
    else if s.mgr.changes.any fun c => c.kind == 3 && c.pkg == pkg then s
    else
      let d := draw s
      let used := (s.mgr.joined.map fun e => e.slot) ++ (s.mgr.changes.filter fun c => c.kind == 3).map fun c => (wordAt c.words 0).toNat
      let slot := (allocFrom used 72 (Config.choice d.1)).getD 0
      nameStandby (propose 3 pkg 0 (w32 slot :: wordsOfBytes dig) d.2)
/-- JOIN arrives. -/
def arriveJoin (p : Packet) (s : State) : State :=
  let src := hSrc p.hdr
  if ¬ s.mgr.active then s
  else if hSub p.hdr = 0 then modMgr (fun m => { m with joins := tset m.joins src p.data }) s
  else match tget s.mgr.joins src with
    | none => s
    | some first => judgeJoin src (first ++ p.data) (modMgr (fun m => { m with joins := terase m.joins src }) s)
/-- JOIN (R341). -/
def execJoin (p : Packet) (s : State) : Host.Outcome State Fault Refusal :=
  .next (takePacket p (hOp p.hdr == 0x25 && wholePacket p) arriveJoin s)
/-- JOIN_REPLY (R341). -/
def execJoinReply (p : Packet) (s : State) : Host.Outcome State Fault Refusal :=
  .next (takePacket p (hOp p.hdr == 0x26 && wholePacket p) arriveJoinReply s)

/-! Election and the manager's announcements (R333). -/

/-- The package may claim the role: R332 apart from the joined condition. -/
def canClaim (s : State) : Bool :=
  s.sec.lifecycle == 2 && s.host.hm.ready && !s.host.hm.failed &&
    (s.pw.st == .run || s.pw.st == .quayside || s.pw.st == .berth) && (activePorts s 0 != [] || activePorts s 1 != [])
/-- MANAGER arrives. One that names this standby package hands it the role (R445). -/
def arriveManager (p : Packet) (s : State) : State :=
  let ws := wordsOfBytes p.data
  let m := fld (wordAt ws 0) 0 7
  let b := if wordAt ws 1 = 0xFFFFFFFF then none else some (fld (wordAt ws 1) 0 7)
  let lower : Bool := match s.mgr.lowest with
    | none => true
    | some k => decide (m < k)
  let s1 := if lower = true ∧ ¬ s.mgr.active ∧ ¬ s.host.hm.joined then
      toNeighbours 0x27 (managerData m none) (modMgr (fun x => { x with lowest := some m, electing := x.electing && decide (myPkg s < m) }) s) else s
  if s.mgr.electing ∧ myPkg s < m then s1
  else if m = myPkg s then (if s.mgr.standby then seekStandby (takeRole s1) else s1)
  else
    let s2 := modFab (fun f => { f with knownMgr := some m, knownStby := b })
      (modMgr (fun x => { x with active := false, standby := decide (b = some (myPkg s)), mgrSeenNs := s.now }) s1)
    tryJoin (modHm (fun h => { h with manager := false }) s2)
/-- MANAGER (R333, R336). -/
def execManager (p : Packet) (s : State) : Host.Outcome State Fault Refusal :=
  .next (takePacket p (hOp p.hdr == 0x27 && wholePacket p) arriveManager s)

/-- A package that has heard of no manager announces itself. -/
def claim (s : State) : State :=
  if s.fab.knownMgr.isSome ∨ ¬ canClaim s then s
  else
    let low := match s.mgr.lowest with
      | some k => min k (myPkg s)
      | none => myPkg s
    toNeighbours 0x27 (managerData low none) (modMgr (fun m => { m with electing := true, lowest := some low }) s)
/-- ELECTION_ANNOUNCE_TIMER (R333). -/
def execElectionAnnounceTimer (s : State) : Host.Outcome State Fault Refusal := .next (claim s)
/-- The lowest claimant takes the role and counts as joined; it runs without a standby until a package has joined. -/
def settle (s : State) : State :=
  if ¬ s.mgr.electing then s
  else if s.mgr.lowest ≠ some (myPkg s) ∨ ¬ canClaim s then modMgr (fun m => { m with electing := false }) s
  else
    let d := draw s
    let slot := (allocFrom [] 72 (Config.choice d.1)).getD 0
    let s1 := modMgr (fun m => { m with
      active := true, electing := false, stby := none
      joined := [{ pkg := myPkg s, slot, seenNs := s.now, sealed := true }] }) d.2
    let s2 := modFab (fun f => { f with
      knownMgr := some (myPkg s), knownStby := none, mySlot := some slot, replaySlots := tset f.replaySlots (myPkg s) slot }) s1
    announceManager (logPkg 0x0A08 false (myPkg s) 0xFFFFFFFF (modHm (fun h => { h with manager := true, joined := true }) s2))
/-- ELECTION_SETTLE_TIMER (R333). -/
def execElectionSettleTimer (s : State) : Host.Outcome State Fault Refusal := .next (settle s)

/-- The manager hands its role to its standby before it leaves: a copy of its record, then MANAGER (R445). -/
def handOver (s : State) : State :=
  if ¬ s.mgr.active then s
  else
    let off (t : State) : State := modHm (fun h => { h with manager := false }) (modMgr (fun m => { m with active := false, stby := none }) t)
    match s.mgr.stby with
    | none => off (modFab (fun f => { f with knownMgr := none }) s)
    | some b => modFab (fun f => { f with knownMgr := some b, knownStby := none })
        (off (mgmtSend 0x27 0 b 0 (managerData b none) (copyAll b s)))

/-! The standby's copy (R332). -/

/-- STATE_COPY at the standby: the record is applied and echoed. -/
def arriveStateCopy (p : Packet) (s : State) : State :=
  if s.mgr.active then s else echo p (applyRecord (recordFrom p.data) s)
/-- STATE_COPY (R332). -/
def execStateCopy (p : Packet) (s : State) : Host.Outcome State Fault Refusal :=
  .next (takePacket p (hOp p.hdr == 0x29 && wholePacket p) arriveStateCopy s)
/-- The echo of a STATE_COPY: the manager acts on the change. -/
def arriveCopyEcho (p : Packet) (s : State) : State :=
  if ¬ s.mgr.active ∨ s.mgr.stby ≠ some (hSrc p.hdr) then s
  else
    let s1 := mgmtDone 0x29 (hSrc p.hdr) (fun d => d == p.data) s
    match s1.mgr.changes.find? fun c => recordData c == p.data with
    | none => s1
    | some c => endTeardowns (commitChange c (modMgr (fun m => { m with changes := m.changes.filter fun x => x.id != c.id }) s1))
/-- STATE_COPY_ECHO (R332). -/
def execStateCopyEcho (p : Packet) (s : State) : Host.Outcome State Fault Refusal :=
  .next (takePacket p (hOp p.hdr == 0x29 && wholePacket p) arriveCopyEcho s)

/-! Route tables and forwarding (R302, R306, R318, R341). -/

/-- One entry of a route table: destination in [6:0], 1 to 4 in [10:8], and that many ports of the plane, four bits each from [12]
(log 60). -/
def routeEntry (plane : Nat) (w : Word) (t : Tbl (List Nat)) : Tbl (List Nat) :=
  let n := fld w 8 3
  let ports := (List.range n).map fun i => 9 * plane + fld w (12 + 4 * i) 4
  if 1 ≤ n ∧ n ≤ 4 ∧ ports.all (fun p => decide (p < 9 * plane + 9)) then tset t (128 * plane + fld w 0 7) ports else t
/-- ROUTE_TABLE: the table of the plane that SUBOP names is replaced and echoed; paused streams resume (R318, R323). An echo comes
back to the manager. -/
def arriveRoutes (p : Packet) (s : State) : State :=
  let plane := hSub p.hdr % 2
  if s.mgr.active then mgmtDone 0x2A (hSrc p.hdr) (fun d => d == p.data) s
  else
    let t := (wordsOfBytes p.data).foldl (fun t w => routeEntry plane w t) (s.fab.routes.filter fun e => e.1 / 128 != plane)
    pumpSources (resumeStreams plane (echo p (modMgr (fun m => { m with unreachable := m.unreachable.filter fun u => u.2 != plane })
      (modFab (fun f => { f with routes := t }) s))))
/-- ROUTE_TABLE (R318). -/
def execRouteTable (p : Packet) (s : State) : Host.Outcome State Fault Refusal :=
  .next (takePacket p (hOp p.hdr == 0x2A && wholePacket p) arriveRoutes s)

/-- A packet for another package leaves by its destination and PATH, untouched. What a response's destination is, its header does
not say: a free value (log 69). -/
def forward (p : Packet) (s : State) : State :=
  let h := p.hdr
  let resp := decide (0x10 ≤ hOp h ∧ hOp h ≤ 0x14)
  let awake := s.pw.st = .run ∨ s.pw.st = .quayside ∨ s.pw.st = .berth
  if s.fab.refused ∨ ¬ awake ∨ activePorts s p.plane.val = [] ∨ (¬ resp ∧ hDstPkg h = myPkg s) then s
  else
    let d := draw s
    let dst := if resp then Config.choice d.1 % 128 else hDstPkg h
    let s1 := if resp then d.2 else s
    match pathPort s1 (routeOf s1 p.plane.val dst) (hPath h) with
    | none => s1
    | some k => portSend k h p.data s1
/-- PACKET_FORWARD (R318). -/
def execPacketForward (p : Packet) (s : State) : Host.Outcome State Fault Refusal := .next (forward p s)

/-- A management packet without its answer is sent again (R314). -/
def mgmtResend (i : Nat) (s : State) : State :=
  match s.fab.mgmt[i]? with
  | none => s
  | some m => transmit (mgmtPlane s m.plane m.dst) m.dst 0 m.hdr m.data s
/-- MGMT_RESEND_TIMER (R314). -/
def execMgmtResendTimer (i : Nat) (s : State) : Host.Outcome State Fault Refusal := .next (mgmtResend i s)

end Sys2Proof.Machine
end

