-- ==== Sys2Proof/Machine/Link.lean ====
section
/-! DEFINITION. Jeren ports: flits, error correction, retry, training, lane sparing and narrowing, and the packets that flits carry
(R303 to R311). -/

namespace Sys2Proof.Machine

/-! Flits as received (R304, R307). -/

/-- Syndrome k of a codeword: its value at g^k, byte 0 the highest term (log 70). -/
def rsSyndrome (k : Nat) (ws : List Byte) : Nat := ws.foldl (fun a b => Nat.xor (gfMul a (gfPow k)) b.toNat) 0
/-- Error positions and values of a codeword of RS(136,132): none when more than two bytes are wrong. -/
def rsErrors (ws : List Byte) : Option (List (Nat × Nat)) :=
  let s0 := rsSyndrome 0 ws
  let s1 := rsSyndrome 1 ws
  let s2 := rsSyndrome 2 ws
  let s3 := rsSyndrome 3 ws
  let xs := (List.range 136).map fun i => (i, gfPow (135 - i))
  if s0 = 0 ∧ s1 = 0 ∧ s2 = 0 ∧ s3 = 0 then some []
  else
    let det := Nat.xor (gfMul s1 s1) (gfMul s0 s2)
    if det = 0 then
      match xs.find? fun x => gfMul s0 x.2 == s1 && gfMul s1 x.2 == s2 && gfMul s2 x.2 == s3 with
      | some x => if s0 = 0 then none else some [(x.1, s0)]
      | none => none
    else
      let inv := gfInv det
      let sum := gfMul (Nat.xor (gfMul s1 s2) (gfMul s0 s3)) inv
      let prod := gfMul (Nat.xor (gfMul s2 s2) (gfMul s1 s3)) inv
      match xs.filter fun x => Nat.xor (Nat.xor (gfMul x.2 x.2) (gfMul sum x.2)) prod == 0 with
      | [x, y] =>
        let e := gfMul (Nat.xor s1 (gfMul s0 y.2)) (gfInv (Nat.xor x.2 y.2))
        some [(x.1, e), (y.1, Nat.xor s0 e)]
      | _ => none
/-- Correct a codeword. -/
def rsFix (ws : List Byte) : List Byte × List Nat :=
  match rsErrors ws with
  | none => (ws, [])
  | some es => (es.foldl (fun a e => setAt a e.1 (b8 (Nat.xor ((a.getD e.1 0).toNat) e.2))) ws, es.map fun e => e.1)
/-- Bytes 0 to 263 of a flit after error correction, and the bytes of the flit that were corrected. -/
def flitFix (bs : List Byte) : List Byte × List Nat :=
  let a := rsFix (bs.take 132 ++ slice bs 264 4)
  let b := rsFix (slice bs 132 132 ++ slice bs 268 4)
  let place (base par : Nat) (i : Nat) : Nat := if i < 132 then base + i else par + (i - 132)
  (a.1.take 132 ++ b.1.take 132, a.2.map (place 0 264) ++ b.2.map (place 132 268))
/-- The CRC-32C of a corrected flit is right. -/
def flitGood (bs : List Byte) : Bool := crc32c (bs.take 260) == natOfBytes (slice bs 260 4)
/-- Link header of a flit. -/
def flitHead (bs : List Byte) : Word := wordAt (wordsOfBytes (bs.take 4)) 0
/-- Words of a flit's payload. -/
def flitWords (bs : List Byte) : List Word := wordsOfBytes (slice bs 4 256)

/-- The lane that carries a lane position. -/
def laneAt (q : Port) (i : Nat) : Nat := if q.spared = some i then 8 else i
/-- The lane that carries byte b of a flit (R303, R310). -/
def laneOf (q : Port) (b : Nat) : Nat :=
  match q.narrowed with
  | some g => laneAt q (4 * g + b % 4)
  | none => laneAt q (b % 8)

/-! Ports going down (R305, R308, R310, R311). -/

/-- An Active port goes down and returns to Detect. Only a link that the retry limit brought down retrains fast. -/
def portDown (p cause : Nat) (s : State) : State :=
  if ¬ portActive s p then s
  else
    let s1 := modPort p (fun q => { q with
      st := .detect, replay := [], credits := [], txWait := [], rx := [], nak := false, sparing := false, savedEq := cause == 1 }) s
    let s2 := checkSet (logPkg 0x0A02 false p cause (totAdd (tDowns + p) 1 s1))
    if s2.mgr.active then propose 5 0 0 [] s2 else s2
/-- Every port leaves service: its lanes go to electrical idle (R306). -/
def portsOff (s : State) : State :=
  (List.range 18).foldl (fun t p => modPort p (fun q => { q with
    st := .idle, replay := [], credits := [], txWait := [], rx := [], nak := false, sparing := false, savedEq := false }) t) s
/-- The package leaves reset, Mooring or Drydock: idle ports begin to train (R305). -/
def portsDetect (s : State) : State :=
  (List.range 18).foldl (fun t p => if (portOf t p).st = .idle ∧ ¬ (portOf t p).dead then modPort p (fun q => { q with st := .detect }) t else t) s

/-! Retry (R307, R308). -/

/-- Resend every unacknowledged flit from a position on; after eight resends of the first the link goes down. -/
def resendFrom (p k : Nat) (s : State) : State :=
  let q := portOf s p
  match q.replay[k]? with
  | none => s
  | some f =>
    if 8 ≤ f.resends then portDown p 1 s
    else
      let s1 := modPort p (fun q => { q with replay := q.replay.mapIdx fun i g => if k ≤ i then { g with resends := g.resends + 1 } else g }) s
      (q.replay.drop k).foldl (fun t g => emit (.flit p g.fseq g.payload) t) (totAdd (tRetries + p) 1 s1)
/-- The ACK field of a flit: what it covers leaves the replay buffer. -/
def takeAckField (p ack : Nat) (s : State) : State :=
  portDrain p (modPort p (fun q => { q with replay := q.replay.filter fun f => !(decide (serialDiff ack f.fseq 4096 < 2048)) }) s)
/-- Send a NAK for the FSEQ expected. -/
def sendNak (p : Nat) (s : State) : State :=
  emit (.control p [w32 ((portOf s p).rxSeq + 4096), 0, 0, 0]) (modPort p (fun q => { q with nak := true }) s)

/-! Lane sparing and narrowing (R310). -/

/-- A four-lane group holds no faulty lane. -/
def groupWhole (q : Port) (g : Nat) : Bool := (List.range 4).all fun i => !(decide (laneAt q (4 * g + i) ∈ q.faulty))
/-- Position that a lane carries; none for an unused lane. -/
def lanePos (q : Port) (lane : Nat) : Option Nat := if lane = 8 then q.spared else if q.spared = some lane then none else some lane
/-- Flits in flight are resent once the lanes have moved. -/
def resendAll (p : Nat) (s : State) : State := if portActive s p then resendFrom p 0 s else s
/-- Narrow a port, or take it down until the next cold start. -/
def narrow (p : Nat) (s : State) : State :=
  let q := portOf s p
  match q.narrowed with
  | some g =>
    if groupWhole q g then s
    else modPort p (fun q => { q with st := .idle, dead := true }) (portDown p 3 (recordRepair 9 p 0 s))
  | none =>
    match [0, 1].find? (groupWhole q) with
    | some g =>
      resendAll p (logPkg 0x0A04 false p g (totAdd (tLanes + 1) 1 (recordRepair 8 p g
        (modPort p (fun q => { q with narrowed := some g, sparing := false }) s))))
    | none => modPort p (fun q => { q with st := .idle, dead := true }) (portDown p 3 (recordRepair 9 p 0 s))
/-- A lane is faulty. -/
def laneFaulty (p lane : Nat) (s : State) : State :=
  let q := portOf s p
  if lane ∈ q.faulty ∨ q.dead then s
  else
    let s1 := modPort p (fun q => { q with faulty := q.faulty ++ [lane] }) s
    match lanePos q lane with
    | none => s1
    | some i =>
      if q.spared.isNone ∧ q.narrowed.isNone ∧ 8 ∉ (portOf s1 p).faulty then
        logPkg 0x0A03 false p i (totAdd tLanes 1 (recordRepair 7 p i
          (modPort p (fun q => { q with spared := some i, sparing := q.st == .active }) s1)))
      else narrow p s1
/-- Bytes corrected on lanes are counted; a lane with more than 10^6 in a second is faulty (R309, R310). -/
def countFixes (p : Nat) (fixed : List Nat) (s : State) : State :=
  (fixed.map (laneOf (portOf s p))).foldl (fun t l =>
    let n := tgetD (portOf t p).corrected l 0 + 1
    let t1 := totAdd (tFec + 9 * p + l) 1 (modPort p (fun q => { q with corrected := tset q.corrected l n }) t)
    if 10 ^ 6 < n then laneFaulty p l t1 else t1) s
/-- A flit fails its CRC: it is attributed to the lanes that were corrected in it; 16 in a millisecond make a lane faulty. -/
def crcFailed (p : Nat) (fixed : List Nat) (s : State) : State :=
  let ls := (fixed.map (laneOf (portOf s p))).eraseDups
  let s1 := totAdd (tCrc + p) 1 (modPort p (fun q => { q with
    crcFails := (q.crcFails.filter fun e => decide (s.now < e.2 + 10 ^ 6)) ++ ls.map fun l => (l, s.now) }) s)
  let s2 := ls.foldl (fun t l =>
    if 16 ≤ ((portOf t p).crcFails.filter fun e => e.1 == l).length then laneFaulty p l t else t) s1
  if portActive s2 p then sendNak p s2 else s2

/-! Packets out of the payload stream (R304). -/

/-- Bytes that a packet takes: its header, and its data up to a multiple of 32; a LOAD request carries none. -/
def packetBytes (h : List Word) : Nat := 32 + (if hOp h = 1 then 0 else cdiv (hLen h) 32 * 32)
/-- A payload stream without its leading fill: 32-byte blocks whose word 0 is zero (log 70). -/
def dropFill : Nat → List Byte → List Byte
  | 0, bs => bs
  | fuel + 1, bs => if 32 ≤ bs.length ∧ wordAt (wordsOfBytes (bs.take 4)) 0 = 0 then dropFill fuel (bs.drop 32) else bs
/-- The packet at the front of a payload stream, and the rest, once all of it is there. -/
def nextPacket (plane : Fin 2) (bs : List Byte) : Option (Packet × List Byte) :=
  let h := wordsOfBytes (bs.take 32)
  if bs.length < 32 ∨ bs.length < packetBytes h then none
  else some ({ plane, hdr := h, data := (bs.drop 32).take (if hOp h = 1 then 0 else hLen h) }, bs.drop (packetBytes h))
/-- A response answers an outstanding request of this package. -/
def answersMe (s : State) (p : Packet) : Bool :=
  let h := p.hdr
  let outs := (streamOf s p.plane.val (hSrc h) (hJob h)).outs
  if hOp h = 0x11 then outs != [] else outs.any fun o => o.seq == hSeq h
/-- A packet arrives whole at a port: it is taken here or forwarded (R312 to R318). -/
def arrivePacket (p : Packet) (s : State) : State :=
  let op := hOp p.hdr
  let resp := decide (0x10 ≤ op ∧ op ≤ 0x14)
  if (resp && !(answersMe s p)) || (!resp && decide (hDstPkg p.hdr ≠ myPkg s)) then forward p s
  else if 0x20 ≤ op ∧ op ≤ 0x2A ∧ ¬ wholePacket p then totAdd (tLanes + 2) 1 s
  else match op with
    | 1 | 2 | 3 | 4 | 5 | 6 => arriveReq p s
    | 0x10 => arriveResp [1] byStatus p s
    | 0x11 => arriveAck p s
    | 0x12 => arriveResp [3] byStatus p s
    | 0x13 => arriveResp [1, 2, 3, 4, 5, 6] byStatus p s
    | 0x14 => arriveResp [6] serviceReply p s
    | 0x20 => arriveHeartbeat p s
    | 0x21 => arriveTeardown p s
    | 0x22 => arriveTeardownAck p s
    | 0x23 => arriveJobMap p s
    | 0x24 => arriveJobMapAck p s
    | 0x25 => arriveJoin p s
    | 0x26 => arriveJoinReply p s
    | 0x27 => arriveManager p s
    | 0x28 => arriveLeave p s
    | 0x29 => if s.mgr.active then arriveCopyEcho p s else arriveStateCopy p s
    | 0x2A => arriveRoutes p s
    | _ => arriveUnknown p s
/-- Take the whole packets of a port's payload stream, at most `fuel`. -/
def takePackets (p : Nat) (plane : Fin 2) : Nat → State → State
  | 0, s => s
  | fuel + 1, s =>
    let bs := dropFill ((portOf s p).rx.length / 32) (portOf s p).rx
    match nextPacket plane bs with
    | none => modPort p (fun q => { q with rx := bs }) s
    | some (k, rest) => takePackets p plane fuel (arrivePacket k (modPort p (fun q => { q with rx := rest }) s))
/-- Virtual channel that a data flit's slot is charged to: that of the packet under way, or of the first packet in it (log 70). -/
def slotVc (q : Port) (bs : List Byte) : Nat := hVc (wordsOfBytes ((q.rx ++ dropFill 8 (slice bs 4 256)).take 32))
/-- A data flit with the FSEQ expected: its payload joins the stream, its slot is returned, its packets are taken. -/
def acceptData (p : Nat) (plane : Fin 2) (bs : List Byte) (s : State) : State :=
  let vc := slotVc (portOf s p) bs
  let s1 := totAdd (tFlitsRx + p) 1 (modPort p (fun q => { q with
    rxSeq := (q.rxSeq + 1) % 4096, nak := false, rx := q.rx ++ slice bs 4 256 }) s)
  let s2 := emit (.control p (0 :: (List.range 3).map fun i => w32 (b2n (i == vc)))) s1
  takePackets p plane 9 s2

/-- Credits that a control flit returns for the three virtual channels. -/
def takeCredits (p : Nat) (ws : List Word) (s : State) : State :=
  portDrain p (modPort p (fun q => { q with
    credits := (List.range 3).foldl (fun t i => tset t i (tgetD t i 0 - (wordAt ws (1 + i)).toNat)) q.credits }) s)
/-- The NAK of a control flit: flits before the one it names have arrived; the rest is resent. -/
def takeNak (p : Nat) (w : Word) (s : State) : State :=
  if ¬ bitOf w 12 then s
  else
    let s1 := takeAckField p ((fld w 0 12 + 4095) % 4096) s
    match (portOf s1 p).replay.findIdx? fun f => f.fseq == fld w 0 12 with
    | some k => resendFrom p k s1
    | none => s1

/-- A flit of 272 bytes arrives at a port. -/
def flitIn (p : Nat) (plane : Fin 2) (control : Bool) (bs : List Byte) (s : State) : State :=
  if ¬ portActive s p ∨ bs.length ≠ 272 then s
  else
    let r := flitFix bs
    let s1 := countFixes p r.2 s
    if ¬ flitGood r.1 then crcFailed p r.2 s1
    else
      let w := flitHead r.1
      let ty := fld w 24 4
      if (ty == 2) != control ∨ 2 < ty then s1
      else
        let s2 := takeAckField p (fld w 12 12) s1
        if control then takeNak p (wordAt (flitWords r.1) 0) (takeCredits p (flitWords r.1) s2)
        else if ty = 1 then s2
        else
          let q := portOf s2 p
          if fld w 0 12 = q.rxSeq then acceptData p plane r.1 s2
          else if q.nak ∨ 2048 ≤ serialDiff (fld w 0 12) q.rxSeq 4096 then s2
          else sendNak p s2
/-- The plane of a port. -/
def portPlane (p : Fin 18) : Fin 2 := if p.val < 9 then 0 else 1
/-- FLIT_RECEIVE (R304, R307, R309, R310): data and idle flits. -/
def execFlitReceive (port : Fin 18) (bytes : List Byte) (s : State) : Host.Outcome State Fault Refusal :=
  .next (flitIn port.val (portPlane port) false bytes s)
/-- CONTROL_FLIT_RECEIVE (R304, R307). -/
def execControlFlitReceive (port : Fin 18) (bytes : List Byte) (s : State) : Host.Outcome State Fault Refusal :=
  .next (flitIn port.val (portPlane port) true bytes s)

/-- ACK has not advanced for 2 microseconds. -/
def ackStalled (p : Nat) (s : State) : State := if portActive s p then resendFrom p 0 s else s
/-- ACK_STALL_TIMEOUT (R307, R308). -/
def execAckStallTimeout (port : Fin 18) (s : State) : Host.Outcome State Fault Refusal := .next (ackStalled port.val s)

/-- Lane 8 has equalised, or has failed to: then it is faulty and the port narrows. -/
def spareDone (p : Nat) (good : Bool) (s : State) : State :=
  if ¬ (portOf s p).sparing then s
  else
    let s1 := modPort p (fun q => { q with sparing := false }) s
    if good then portDrain p (resendAll p s1) else portDrain p (laneFaulty p 8 s1)
/-- LANE_SPARE_DONE (R310). -/
def execLaneSpareDone (port : Fin 18) (good : Bool) (s : State) : Host.Outcome State Fault Refusal :=
  .next (spareDone port.val good s)

/-! Training (R305). -/

/-- A port in Detect sends its training burst. -/
def detectBurst (p : Nat) (s : State) : State := if (portOf s p).st = .detect then emit (.burst p) s else s
/-- DETECT_BURST_TIMER (R305). -/
def execDetectBurstTimer (port : Fin 18) (s : State) : Host.Outcome State Fault Refusal := .next (detectBurst port.val s)

/-- A port reaches Active: FSEQ and the credits start afresh (log 71), what waits for a path goes, and the manager writes tables. -/
def portUp (p pkg farPort : Nat) (s : State) : State :=
  let s1 := modPort p (fun q => { q with
    st := .active, savedEq := false, far := some (pkg, farPort), txSeq := 0, rxSeq := 0
    replay := [], credits := [], txWait := [], rx := [], nak := false, sparing := false }) s
  let s2 := pumpSources (logPkg 0x0A01 false p pkg s1)
  tryJoin (if s2.mgr.active then propose 5 0 0 [] s2 else s2)
/-- A training pattern arrives at a port in Detect: a fast retrain goes straight back to Active. -/
def patternIn (p : Nat) (s : State) : State :=
  let q := portOf s p
  if q.st ≠ .detect ∨ q.dead then s
  else match q.savedEq, q.far with
    | true, some f => portUp p f.1 f.2 s
    | _, _ => modPort p (fun q => { q with st := .equalise }) s
/-- TRAINING_PATTERN_RECEIVED (R305). -/
def execTrainingPatternReceived (port : Fin 18) (s : State) : Host.Outcome State Fault Refusal := .next (patternIn port.val s)

/-- Equalisation ends: lanes that failed it are faulty; a port that has not met its error rate in 20 ms returns to Detect. -/
def equalised (p : Nat) (bad : List Nat) (inTime : Bool) (s : State) : State :=
  if (portOf s p).st ≠ .equalise then s
  else
    let s1 := (bad.mergeSort (fun a b => decide (b ≤ a))).foldl (fun t l => laneFaulty p l t) s
    if (portOf s1 p).dead then s1
    else if ¬ inTime then modPort p (fun q => { q with st := .detect }) s1
    else modPort p (fun q => { q with st := .verify }) s1
/-- EQUALISE_DONE (R305, R310). -/
def execEqualiseDone (port : Fin 18) (badLanes : List (Fin 9)) (inTime : Bool) (s : State) : Host.Outcome State Fault Refusal :=
  .next (equalised port.val (badLanes.map fun l => l.val) inTime s)

/-- The ends have exchanged identity: a port of the other plane or of this package stays down (R302, R305). -/
def verified (p pkg farPort : Nat) (mgr : Option Nat) (s : State) : State :=
  if (portOf s p).st ≠ .verify then s
  else if farPort / 9 ≠ p / 9 ∨ pkg = myPkg s then logPkg 0x0A0C false p farPort s
  else
    let s1 := if s.fab.knownMgr.isNone then modFab (fun f => { f with knownMgr := mgr }) s else s
    portUp p pkg farPort s1
/-- VERIFY_EXCHANGE (R302, R305); the far end's life-cycle state is exchanged and decides nothing here. -/
def execVerifyExchange (port : Fin 18) (pkg : Fin 128) (farPort : Fin 18) (_life : Fin 5) (mgr : Option (Fin 128)) (s : State) :
    Host.Outcome State Fault Refusal :=
  .next (verified port.val pkg.val farPort.val (mgr.map fun m => m.val) s)

/-- The signal of a port is lost: an Active port goes down; one in training listens again. -/
def signalLost (p : Nat) (s : State) : State :=
  match (portOf s p).st with
  | .active => portDown p 2 s
  | .equalise | .verify => modPort p (fun q => { q with st := .detect }) s
  | _ => s
/-- LINK_SIGNAL_LOST (R305). -/
def execLinkSignalLost (port : Fin 18) (s : State) : Host.Outcome State Fault Refusal := .next (signalLost port.val s)

end Sys2Proof.Machine
end

