-- ==== Sys2Proof/Machine/Continuity.lean ====
section
/-! DEFINITION. Mirror resends, the two Harbourmaster instances, and the loss of links and dies (R13 to R19, R354, R365 to R367,
R371). -/

namespace Sys2Proof.Machine

/-! Mirror records without an answer (R354). -/

/-- Every record of the steps that wait for the holder is sent again. -/
def mirrorAgain (s : State) : State :=
  match activeHolder s with
  | none => s
  | some h => s.cont.sent.foldl (fun t e => totAdd (tCont + 5) 1 (mirrorSend h none e.2.2 t)) s
/-- MIRROR_ACK_TIMEOUT (R354). -/
def execMirrorAckTimeout (s : State) : Host.Outcome State Fault Refusal := .next (mirrorAgain s)

/-! The journal between the instances (R365, R366, R367). -/

/-- The standby instance applies a journal entry. -/
def journalEntry (ws : List Word) (s : State) : State :=
  if hmFollowed s then modHm (fun h => { h with standbyJournal := h.standbyJournal ++ [ws] }) s else s
/-- HM_JOURNAL_ENTRY (R365). -/
def execHmJournalEntry (words : List Word) (s : State) : Host.Outcome State Fault Refusal := .next (journalEntry words s)
/-- HM_JOURNAL_HEARTBEAT_TIMER: an entry that says only that the active instance runs (R365). -/
def execHmJournalHeartbeatTimer (s : State) : Host.Outcome State Fault Refusal :=
  .next (if s.host.hm.gone then s else hmJournal [] s)

/-- Complete the commits that had begun (R366). -/
def finishCommits (s : State) : State :=
  (s.parts.map fun q => q.1).foldl (fun t p =>
    match flying t p with
    | r :: _ => if r.action = 0 then t else stepCommit p 8 t
    | [] => t) s
/-- The standby instance takes over. Requests that were journaled and not answered stay to be answered, once. -/
def takeoverHm (cause : Nat) (s : State) : State :=
  let old := s.host.hm.hmInst
  let s1 := modHm (fun h => { h with hmInst := !old, instOut := true, redundancyLost := true, standbyJournal := [] }) s
  let s2 := recordRepair 12 (b2n old) 0 (sendHeartbeat s1)
  let s3 := logPkg 0x0B06 true (b2n (!old)) cause (totAdd (tCont + 6) 1 (finishCommits s2))
  setInt 3 (setSticky 1 s3)
/-- The package is left with no Harbourmaster: it falls silent (R367). -/
def fallSilent (s : State) : State := portsOff (modHm (fun h => { h with gone := true, failed := true, ready := false }) s)
/-- The active instance is lost. -/
def loseActive (cause : Nat) (s : State) : State :=
  if s.host.hm.gone then s else if hmFollowed s then takeoverHm cause s else fallSilent s
/-- HM_JOURNAL_TIMEOUT: with the IOD0-IOD1 link down or one instance out, nobody watches the journal (R366, R367). -/
def execHmJournalTimeout (s : State) : Host.Outcome State Fault Refusal :=
  .next (if hmFollowed s then takeoverHm 1 s else s)
/-- The active instance's own fault, cause 2, or its confirmed residue or parity failure, cause 3: which it is, the command does not
say (log 72). -/
def hmFault (s : State) : State :=
  let d := draw s
  loseActive (2 + Config.choice d.1 % 2) d.2
/-- HM_FAULT_SIGNAL (R366, R367). -/
def execHmFaultSignal (s : State) : Host.Outcome State Fault Refusal := .next (hmFault s)

/-! Links and dies (R13, R15, R19, R371). -/

/-- A compute die leaves service: its 12 clusters and four stacks, which leaves the package below the minimum serving set. -/
def dieOut (d : Nat) (s : State) : State :=
  if d ∈ s.health.diesOut then s
  else
    let s1 := modHealth (fun h => { h with diesOut := h.diesOut ++ [d] }) s
    let s2 := (List.range 12).foldl (fun t i => recordRepair 2 (12 * d + i) d (modCluster (12 * d + i) (fun c => { c with out := true }) t)) s1
    let s3 := modTiers (fun x => { x with
      stacksLost := x.stacksLost ++ ((List.range 4).map (4 * d + ·)).filter fun k => !(decide (k ∈ x.stacksLost)) }) s2
    checkSet s3
/-- COMPUTE_DIE_FAIL (R15). -/
def execComputeDieFail (die : Fin 4) (s : State) : Host.Outcome State Fault Refusal := .next (dieOut die.val s)

/-- A link between a compute die and an I/O die fails; a die that has lost both leaves service. -/
def dieLink (d i : Nat) (s : State) : State :=
  if 2 * d + i ∈ s.health.links then s
  else
    let s1 := recordRepair 10 d i (modHealth (fun h => { h with links := h.links ++ [2 * d + i] }) s)
    if 2 * d + (1 - i) ∈ s1.health.links then dieOut d s1 else s1
/-- DIE_LINK_FAIL (R15). -/
def execDieLinkFail (die : Fin 4) (iod : Fin 2) (s : State) : Host.Outcome State Fault Refusal := .next (dieLink die.val iod.val s)

/-- The IOD0-IOD1 link fails: the standby instance no longer follows. -/
def iodLink (s : State) : State :=
  if 12 ∈ s.health.links then s
  else modHm (fun h => { h with redundancyLost := true })
    (recordRepair 10 4 5 (modHealth (fun h => { h with links := h.links ++ [12] }) s))
/-- IOD_LINK_FAIL (R19). -/
def execIodLinkFail (s : State) : Host.Outcome State Fault Refusal := .next (iodLink s)

/-- IOD0 fails: its ports, the endpoint and its Harbourmaster instance are lost. -/
def iod0Lost (s : State) : State :=
  if s.health.iod0Out then s
  else
    let s1 := if s.host.ep.linkUp then linkDown s else s
    let s2 := modHealth (fun h => { h with iod0Out := true }) s1
    let s3 := (List.range 9).foldl (fun t p => modPort p (fun q => { q with st := .idle, dead := true }) (portDown p 2 t)) s2
    let s4 := if s.host.hm.hmInst then modHm (fun h => { h with instOut := true, redundancyLost := true }) s3 else loseActive 1 s3
    checkSet s4
/-- IOD0_FAIL (R19). -/
def execIod0Fail (s : State) : Host.Outcome State Fault Refusal := .next (iod0Lost s)

end Sys2Proof.Machine
end

