-- ==== Sys2Proof/Machine/Power.lean ====
section
/-! DEFINITION. Power, clocks, the state ladder, temperature and energy accounts (R437 to R459, R476, R520). -/

namespace Sys2Proof.Machine

/-! Rails (R439, R443, R453, R477). -/

/-- The compute, HBM and SerDes rails are switched off, and the package declares itself failed. -/
def railsOff (s : State) : State := declareFailed 1 0 (modPw (fun w => { w with rails := false }) s)

/-- How an input voltage lies: 0 in the window, 1 beyond it, 2 beyond 35 or 48 V. -/
def inputKind (mv : Nat) : Nat :=
  if 38000 ≤ mv ∧ mv ≤ 46000 then 0 else if 35000 ≤ mv ∧ mv ≤ 48000 then 1 else 2
/-- The input is sampled, every microsecond: once it has lain in one way for 50 microseconds a started
package acts. -/
def sampleInput (mv : Nat) (s : State) : State :=
  let k := inputKind mv
  let n := if s.pw.outKind = k then s.pw.outFor + 1 else 1
  let s1 := modPw (fun w => { w with millivolts := mv, outKind := k, outFor := n }) s
  if n ≠ 50 ∨ s.boot.stage = .unpowered ∨ s.boot.stage = .holdup then s1
  else match k with
    | 0 => s1
    | 1 => logPkg 0x0E05 true mv 1 (modPw (fun w => { w with lowCap := true }) s1)
    | _ => railsOff (logPkg 0x0E05 true mv 2 s1)
/-- VOLTAGE_SAMPLE (R439). -/
def execVoltageSample (millivolts : Nat) (s : State) : Host.Outcome State Fault Refusal := .next (sampleInput millivolts s)

/-- The input has been back inside its window for 10 ms. -/
def inputBack (s : State) : State :=
  if s.pw.outKind = 0 then modPw (fun w => { w with lowCap := false }) s else s
/-- VOLTAGE_RECOVERY_TIMER (R439). -/
def execVoltageRecoveryTimer (s : State) : Host.Outcome State Fault Refusal := .next (inputBack s)

/-- A start is under way: its repeat is a recovery start (R519). -/
def midStart (s : State) : Bool :=
  match s.boot.stage with
  | .island | .rom | .firmware | .repairs => true
  | .training => !s.boot.warm
  | _ => false
/-- The input falls below 30 V: rails off; the island runs on its hold-up and writes nothing new (R477). -/
def below30 (mv : Nat) (s : State) : State :=
  if 30000 ≤ mv ∨ s.boot.stage = .unpowered then s
  else
    let s1 := portsOff (modPw (fun w => { w with rails := false, millivolts := mv, outKind := 2, outFor := 1 }) s)
    modBoot (fun b => { b with stage := .holdup, cleanStop := b.cleanStop && !midStart s }) (modPins (fun p => { p with faultN := true, vinOk := false })
      (modHm (fun h => { h with failed := true }) s1))
/-- INPUT_BELOW_30V (R477). -/
def execInputBelow30V (millivolts : Nat) (s : State) : Host.Outcome State Fault Refusal := .next (below30 millivolts s)

/-- The root clock is lost. Before the firmware runs the event waits for it (R473). -/
def rootLost (ppm : Nat) (s : State) : State :=
  let s1 := modPins (fun p => { p with rootOk := false, rootPpm := min ppm 0xFFFFFFFF }) s
  match s.boot.stage with
  | .unpowered | .holdup | .island | .rom | .recovery | .retired =>
    modPw (fun w => { w with rails := false }) (modBoot (fun b => { b with pllOk := false }) s1)
  | _ => railsOff (logPkg 0x0E07 true (min ppm 0xFFFFFFFF) 0 (modBoot (fun b => { b with pllOk := false }) s1))
/-- ROOT_CLOCK_LOST (R443). -/
def execRootClockLost (ppm : Nat) (s : State) : Host.Outcome State Fault Refusal := .next (rootLost ppm s)

/-! The state ladder (R444 to R446, R520). -/

/-- No partition has an admitted step, or none will commit. -/
def drained (s : State) : Bool := s.host.hm.failed || s.parts.all fun q => flying s q.1 == []
/-- State t is deeper than state u. -/
def deeper (t u : PState) : Bool := decide (pstateCode u < pstateCode t)
/-- Mooring and Drydock, before which the package leaves its fabric jobs. -/
def deepRest (t : PState) : Bool := t == .mooring || t == .drydock
/-- The planned departure: the role is handed over, then LEAVE is sent. -/
def depart (s : State) : State := startLeave (handOver s)
/-- A drain that has ended before Mooring or Drydock starts the departure. -/
def moveOn (s : State) : State :=
  match s.pw.target with
  | some t => if deeper t s.pw.st ∧ deepRest t ∧ drained s ∧ s.host.hm.joined then depart s else s
  | none => s
/-- The stop of service goes on once its drain has ended: the departure, and then its end (R295). -/
def stopOn (s : State) : State :=
  if s.sec.stopping.isNone ∨ ¬ drained s then s else finishStop (if s.host.hm.joined then depart s else s)
/-- STEP_COMMIT: the oldest step's commit (R28 to R30, R320, R364), and the drain that it may end (R295, R445). -/
def execStepCommit (part : Fin 32) (s : State) : Host.Outcome State Fault Refusal := .next (stopOn (moveOn (commitOn part.val s)))

/-- The refusals of R445 as a bitmap. -/
def stateRefusals (s : State) (t : PState) : Nat :=
  let deep := deeper t .quayside
  b2n (deep && s.parts.any fun q => recClass (bank s q.1) && imgOf s q.1 != []) +
    2 * b2n (deep && (s.cont.armed || s.cont.peer.isSome)) +
    4 * b2n (t == .drydock && s.parts.any fun q => q.2.cfg.st != .closed) +
    8 * b2n (!(deepRest t) && s.host.hm.failed)
/-- The state that a code names. -/
def pstateOf : Nat → Option PState
  | 0 => some .run
  | 1 => some .quayside
  | 2 => some .berth
  | 3 => some .mooring
  | 4 => some .drydock
  | _ => none
/-- state.set STATE. An exit from Drydock starts with the verification of the stored training (R520). -/
def setState (r : Request) (s : State) : State :=
  match pstateOf (fld (argOf r 1) 0 3) with
  | none => reply r 0x0D02 [] s
  | some t =>
    let no := stateRefusals s t
    if no ≠ 0 then reply r 0x0E01 [w32 no] s
    else
      let s1 := modPw (fun w => { w with autoWake := bitOf (argOf r 1) 8 }) s
      if t = s.pw.st ∧ s.pw.target.isNone then reply r 0 [] s1
      else
        let s2 := modPw (fun w => { w with target := some t, waiting := w.waiting ++ [r] }) s1
        if s.pw.st = .drydock ∧ t ≠ .drydock then modBoot (fun b => { b with warm := true, stage := .training }) s2
        else moveOn s2
/-- STATE_SET_STATE (R445, R446). -/
def execStateSetState (m : MbxId) (s : State) : Host.Outcome State Fault Refusal := .next (takeSub m 0x0701 1 setState s)

/-- What the compute dies lose with their rails: SRAM, buffers and what the Pilots and cores hold. -/
def loseSram (s : State) : State :=
  { s with x := { s.x with
      sram := [], loose := []
      cores := s.x.cores.map fun e => (e.1, { failed := e.2.failed })
      clusters := s.x.clusters.map fun e => (e.1, { out := e.2.out })
      chm := s.x.chm.map fun e => (e.1, { out := e.2.out }) } }
/-- What the fabric state of a package that has left keeps: the requests that await a join. -/
def forgetFabric (s : State) : State :=
  { modHm (fun h => { h with manager := false, joined := false }) s with
    fab := { joinFor := s.fab.joinFor, hbCount := s.fab.hbCount, tags := s.fab.tags }, mgr := {} }
/-- Entry to Drydock: the endpoint is unpowered, HBM is empty, every image handle is free and both banks of every partition hold the
zero record; the clean-stop mark and a fresh training record are written (R445, R514, R520). -/
def dryOut (s : State) : State :=
  let s1 := modEp (fun e => { e with canTrain := false }) (if s.host.ep.linkUp then linkDown s else s)
  let s2 := { s1 with
    x := { s1.x with hbm := [] }, images := [], stages := [], cont := {}
    parts := s1.parts.map fun q => (q.1, { q.2 with
      cfg := { q.2.cfg with ebb := [], flood := [], shadow := .empty, linked := [], folded := [] }, kv := {}, jr := {}, ex := {} })
    tiers := { s1.tiers with refetch := [], dead := [], moves := [], repairs := [] } }
  modBoot (fun b => { b with cleanStop := true, trained := List.range 16 }) s2
/-- Enter a deeper state. -/
def goDown (t : PState) (s : State) : State :=
  let s1 := if deepRest t then loseSram (forgetFabric (portsOff s)) else s
  enterState t (if t = .drydock then dryOut s1 else s1)
/-- Reach a state: requests for it are answered. -/
def arriveAt (t : PState) (s : State) : State :=
  let mine (r : Request) : Bool := decide (pstateOf (fld (argOf r 1) 0 3) = some t)
  let rs := s.pw.waiting.filter mine
  rs.foldl (fun u r => reply r 0 [] u) (modPw (fun w => { w with
    target := if w.target = some t then none else w.target, waiting := w.waiting.filter fun r => !(mine r) }) s)
/-- Exit to Quayside. From Mooring and Drydock it is a warm restart (R520). -/
def wakeUp (s : State) : State :=
  if deepRest s.pw.st then
    let s1 := logPkg 0x1201 false 3 s.host.log.coldStarts (enterState .quayside { s with warmRestarts := (s.warmRestarts + 1) % 2 ^ 64 })
    portsDetect (modEp (fun e => { e with canTrain := true }) (modBoot (fun b => { b with warm := false }) s1))
  else enterState .quayside s
/-- An entry or an exit is complete. An entry waits for the drain and the departure; every exit passes through Quayside, from Drydock
after the verification of the stored training. -/
def stateReached (s : State) : State :=
  match s.pw.target with
  | none => s
  | some t =>
    if t = s.pw.st then arriveAt t s
    else if deeper t s.pw.st then
      (if ¬ drained s then s
      else if deepRest t ∧ s.host.hm.joined then depart s
      else arriveAt t (goDown t s))
    else if s.pw.st = .quayside then arriveAt .run (enterState .run s)
    else if s.pw.st = .drydock ∧ s.boot.stage = .training then s
    else arriveAt .quayside (wakeUp s)
/-- POWER_STATE_REACHED (R444 to R446). -/
def execPowerStateReached (s : State) : Host.Outcome State Fault Refusal := .next (stateReached s)

/-! The cap and its shares (R447 to R449). -/

/-- A latency-critical partition's POWER_W exceeds its share under a cap and a compute fraction. -/
def shareBroken (s : State) (cap fr : Nat) : Bool :=
  s.parts.any fun q => recClass (bank s q.1) && imgOf s q.1 != [] &&
    decide (cap * fr * recPower (bank s q.1) < 65536 * powerW (imgOf s q.1))
/-- state.set CAP. -/
def setCap (r : Request) (s : State) : State :=
  let c := fld (argOf r 1) 0 12
  if c < 1200 ∨ 3000 < c then reply r 0x0E02 [] s
  else if shareBroken s c s.pw.frCompute then reply r 0x0E04 [] s
  else reply r 0 [] (modPw (fun w => { w with cap := c }) s)
/-- STATE_SET_CAP (R447, R449). -/
def execStateSetCap (m : MbxId) (s : State) : Host.Outcome State Fault Refusal := .next (takeSub m 0x0701 2 setCap s)
/-- state.set FRACTIONS. -/
def setFractions (r : Request) (s : State) : State :=
  let c := fld (argOf r 1) 0 9
  let h := fld (argOf r 1) 16 9
  let i := fld (argOf r 2) 0 9
  if c + h + i ≠ 256 then reply r 0x0E02 [] s
  else if shareBroken s s.pw.cap c then reply r 0x0E04 [] s
  else reply r 0 [] (modPw (fun w => { w with frCompute := c, frHbm := h, frIo := i }) s)
/-- STATE_SET_FRACTIONS (R447, R449). -/
def execStateSetFractions (m : MbxId) (s : State) : Host.Outcome State Fault Refusal := .next (takeSub m 0x0701 3 setFractions s)

/-- Share of a partition and its draw, in units of 1/65,536 W. -/
def shareOf (s : State) (p : Nat) : Nat := capNow s * s.pw.frCompute * recPower (bank s p)
/-- Draw of a partition at full rate, in the same units. -/
def drawOf (ps : List (Nat × Nat)) (p : Nat) : Nat := 65536 * (((ps.find? fun e => e.1 = p).map fun e => e.2).getD 0)
/-- Power lent to partition p (R383, R448). -/
def lentTo (s : State) (ps : List (Nat × Nat)) (p : Nat) : Nat :=
  let all := List.range 32
  let pool := (all.map fun q => shareOf s q - drawOf ps q).sum
  let needs (q : Nat) : Nat := if recClass (bank s q) then 0 else drawOf ps q - shareOf s q
  let a := all.filter fun q => needs q != 0 && recPower (bank s q) != 0
  let b := all.filter fun q => needs q != 0 && recPower (bank s q) == 0
  let fr := (a.map fun q => recPower (bank s q)).sum
  let got (q : Nat) : Nat := min (needs q) (pool * recPower (bank s q) / max fr 1)
  if p ∈ a then got p
  else if p ∈ b then (pool - (a.map got).sum) / b.length
  else 0
/-- Eighths at which a partition issues. -/
def eighthsOf (draw fits : Nat) : Nat := ((List.range 8).map (8 - ·)).find? (fun n => decide (draw * n ≤ 8 * fits)) |>.getD 1
/-- One partition in a control interval of 10 microseconds. -/
def controlPart (s0 : State) (ps : List (Nat × Nat)) (p : Nat) (s : State) : State :=
  let lent := lentTo s0 ps p
  let n := eighthsOf (drawOf ps p) (shareOf s0 p + lent)
  let borrowed := min lent (drawOf ps p * n / 8 - shareOf s0 p)
  let s1 := cntAdd p (cConfig + 2) (borrowed * 10 / 65536) (modStat p (fun t => { t with throttle := n }) s)
  if n < 8 then cntAdd p (cEnergy + 3) 10000 s1 else s1
/-- A control interval ends: partitions and domains above their shares are throttled, and a new span of stretched cycles begins
(log 74). -/
def controlStep (draw : Nat) (domains : List Nat) (ps : List (Nat × Nat)) (s : State) : State :=
  let above (i fr : Nat) : Bool := decide (capNow s * fr < 256 * domains.getD i 0)
  let held := (if above 1 s.pw.frHbm then [1] else []) ++ if above 2 s.pw.frIo then [2] else []
  let s1 := modDv (fun d => { d with draw, domain := (List.range 3).map fun i => domains.getD i 0, capHeld := held, spans := [] }) s
  (ps.map fun e => e.1).eraseDups.foldl (fun t p => controlPart s ps p t) s1
/-- POWER_CONTROL_INTERVAL (R383, R448). -/
def execPowerControlInterval (draw : Nat) (domains : List Nat) (parts : List (Fin 32 × Nat)) (s : State) :
    Host.Outcome State Fault Refusal :=
  .next (controlStep draw domains (parts.map fun e => (e.1.val, e.2)) s)

/-! Energy accounts (R454, R455). -/

/-- One sample of energy, in microjoules. -/
def countEnergy (input loss : Nat) (parts : List PartEnergy) (queues : List (Nat × Nat)) (s : State) : State :=
  let charged := (parts.map fun e => e.compute + e.hbm + e.io).sum
  let s1 := totAdd (tPower + 2) (input - loss - charged) (totAdd (tPower + 1) loss (totAdd tPower input s))
  let s2 := parts.foldl (fun t e =>
    cntAdd e.part.val (cEnergy + 2) e.io (cntAdd e.part.val (cEnergy + 1) e.hbm (cntAdd e.part.val cEnergy e.compute t))) s1
  modDv (fun d => { d with queueUj := queues.foldl (fun t q =>
    if q.1 < 768 then tset t q.1 ((tgetD t q.1 0 + q.2) % 2 ^ 64) else t) d.queueUj }) s2
/-- ENERGY_SAMPLE (R454, R455, R459). -/
def execEnergySample (input loss : Nat) (parts : List PartEnergy) (queues : List (Nat × Nat)) (s : State) :
    Host.Outcome State Fault Refusal := .next (countEnergy input loss parts queues s)

/-- state.set ENERGY; a cluster beyond 47 does not exist. -/
def readEnergy (r : Request) (s : State) : State :=
  let c := fld (argOf r 1) 0 6
  if 48 ≤ c then reply r 0x0E02 [] s
  else reply r 0 ((List.range 16).flatMap fun q => w64 (tgetD s.dv.queueUj (16 * c + q) 0)) s
/-- STATE_SET_ENERGY (R455, R456). -/
def execStateSetEnergy (m : MbxId) (s : State) : Host.Outcome State Fault Refusal := .next (takeSub m 0x0701 6 readEnergy s)

/-- state.set READ (log 73). -/
def readPower (r : Request) (s : State) : State :=
  reply r 0 [w32 (pstateCode s.pw.st + 256 * b2n s.pw.autoWake), w32 s.pw.cap,
    w32 (s.pw.frCompute + 2 ^ 9 * s.pw.frHbm + 2 ^ 18 * s.pw.frIo), w32 (b2n s.pw.mode + 256 * s.pw.ratio),
    w32 (((List.range 4).map fun d => s.dv.cur.getD d 33 * 2 ^ (8 * d)).sum)] s
/-- STATE_SET_READ (R456). -/
def execStateSetRead (m : MbxId) (s : State) : Host.Outcome State Fault Refusal := .next (takeSub m 0x0701 5 readPower s)

/-! Clocks (R440 to R442, R456). -/

/-- The ratio of the clock mode without boost. -/
def baseRatio (s : State) : Nat := if s.pw.mode then s.pw.ratio else 33
/-- Die d is throttled for its temperature. -/
def dieHot (s : State) (d : Nat) : Bool := decide (d ∈ s.dv.throttled)
/-- Answer clock requests whose slew is complete on every die. -/
def slewDone (s : State) : State :=
  if s.dv.cur = s.dv.goal then
    s.pw.slewing.foldl (fun t r => reply r 0 [] t) (modPw (fun w => { w with slewing := [] }) s)
  else s
/-- state.set CLOCK. -/
def setClock (r : Request) (s : State) : State :=
  let mode := bitOf (argOf r 1) 0
  let ratio := fld (argOf r 1) 8 6
  if mode ∧ (ratio < 20 ∨ 33 < ratio) then reply r 0x0E02 [] s
  else
    let s1 := modPw (fun w => { w with mode, ratio, slewing := w.slewing ++ [r] }) s
    slewDone (modDv (fun d => { d with goal := (List.range 4).map fun i => if dieHot s i then d.goal.getD i 20 else baseRatio s1 }) s1)
/-- STATE_SET_CLOCK (R441, R456). -/
def execStateSetClock (m : MbxId) (s : State) : Host.Outcome State Fault Refusal := .next (takeSub m 0x0701 4 setClock s)

/-- A die's ratio moves one step towards its goal. -/
def slewStep (d : Nat) (s : State) : State :=
  let c := s.dv.cur.getD d 33
  let g := s.dv.goal.getD d 33
  slewDone (modDv (fun v => { v with cur := setAt v.cur d (if c < g then c + 1 else if g < c then c - 1 else c) }) s)
/-- PLL_SLEW_STEP (R440). -/
def execPllSlewStep (die : Fin 4) (s : State) : Host.Outcome State Fault Refusal := .next (slewStep die.val s)

/-- The cluster's image is built for legacy gating (R163). -/
def legacyMode (s : State) (k : Nat) : Bool := ((ownerOf s k).map fun p => imgLegacy (imgOf s p)).getD false
/-- Stretched cycles that a cluster may use in 10 microseconds: 0.5 % of its cycles, or 2 %. -/
def stretchBudget (s : State) (k : Nat) : Nat := s.dv.cur.getD (k / 12) 33 * (if legacyMode s k then 20 else 5)
/-- The compute die that a block lies on, by the kind and element of its isolation. -/
def blockDie (b : Nat × Nat) : Option Nat :=
  match b.1 with
  | 1 => some (coreDie b.2)
  | 2 => some (b.2 / 12)
  | 6 => some (b.2 / 128)
  | 11 => some b.2
  | _ => none
/-- Careen pins a die at ratio 33: a shutdown or engine run pins every die, an in-service test its own (R503, R507). -/
def pinned (s : State) (d : Nat) : Bool :=
  s.car.run.isSome || s.car.starting || (s.car.inService.bind fun r => blockDie r.block) == some d
/-- The conditions of boost on a die; the setpoint of every ratio up to 36 fits R437. -/
def mayBoost (s : State) (d : Nat) : Bool :=
  !s.pw.mode && !pinned s d && ((tget s.dv.temps d).map fun t => decide (t < 90)) == some true && decide (s.dv.draw + 200 ≤ capNow s) &&
    ((List.range 12).all fun i => decide (4 * tgetD s.dv.spans (12 * d + i) 0 ≤ stretchBudget s (12 * d + i)))
/-- A die steps towards ratio 36, or back to 33. A goal below the ratio, which a fixed mode or a hot die has set, stands. -/
def boost (d : Nat) (s : State) : State :=
  let c := s.dv.cur.getD d 33
  let g := s.dv.goal.getD d 33
  let n := if mayBoost s d then (if 33 ≤ c ∧ c < 36 ∧ g = c then c + 1 else c) else if 33 < c then c - 1 else c
  if n = c then s
  else slewDone (modDv (fun v => { v with cur := setAt v.cur d n, goal := setAt v.goal d (if g < c then g else n) }) s)
/-- BOOST_STEP (R442). -/
def execBoostStep (die : Fin 4) (s : State) : Host.Outcome State Fault Refusal := .next (boost die.val s)

/-! Droop (R450, R451). -/

/-- A droop stretches the cluster's next cycle. -/
def droop (k : Nat) (s : State) : State :=
  let n := tgetD s.dv.spans k 0 + 1
  let b := stretchBudget s k
  let d := k / 12
  let s1 := totAdd (tPower + 10) 1 (modDv (fun v => { v with spans := tset v.spans k n }) s)
  let s2 := match ownerOf s k with
    | some p => cntAdd p (cEnergy + 4) 1 s1
    | none => s1
  let up := decide (b < 2 * n ∧ 2 * (n - 1) ≤ b ∧ s.dv.raise.getD d 0 < 6)
  let s3 := if up then totAdd (tPower + 12) 1 (modDv (fun v => { v with raise := setAt v.raise d (v.raise.getD d 0 + 1) }) s2) else s2
  if n ≤ b then s3
  else
    let s4 := totAdd (tPower + 11) 1 s3
    match ownerOf s k with
    | some p =>
      let step := ((flying s p).head?.map fun r => r.id).getD (partOf s p).run.committed
      onceEvent 0x0E06 false p noOp step k n s4
    | none => s4
/-- DROOP_DETECTED (R450, R451). -/
def execDroopDetected (cluster : Fin 48) (s : State) : Host.Outcome State Fault Refusal := .next (droop cluster.val s)
/-- A millisecond with no cluster of the die above a quarter of its budget. -/
def decay (d : Nat) (s : State) : State := modDv (fun v => { v with raise := setAt v.raise d (v.raise.getD d 0 - 1) }) s
/-- VCORE_DECAY_TIMER (R450). -/
def execVcoreDecayTimer (die : Fin 4) (s : State) : Host.Outcome State Fault Refusal := .next (decay die.val s)

/-! Temperature (R452, R453, R510). -/

/-- Throttle, release and trip thresholds of a zone; a zone short of sensors has them 10 K lower. -/
def zoneLimits (s : State) (z : Nat) : Nat × Nat × Nat :=
  let l := if z < 6 then (100, 97, 110) else (92, 89, 100)
  if z ∈ s.dv.lowered then (l.1 - 10, l.2.1 - 10, l.2.2 - 10) else l
/-- The zones of R452. -/
def isZone (z : Nat) : Bool := decide (z < 6 ∨ (16 ≤ z ∧ z < 32))
/-- Eighths at which a zone's throttle holds issue or transfers, which the manual does not fix: a free value (log 75). -/
def throttleRate (z : Nat) (s : State) : State :=
  let d := draw s
  modDv (fun v => { v with eighths := tset v.eighths z (1 + Config.choice d.1 % 8) }) d.2
/-- The hottest sensor of a zone reads t. -/
def zoneReads (z t : Nat) (s : State) : State :=
  let l := zoneLimits s z
  let s1 := modDv (fun v => { v with temps := tset v.temps z t }) s
  if l.2.2 ≤ t then
    railsOff (logPkg 0x0E04 true z t (modPins (fun p => { p with thermN := true }) (modDv (fun v => { v with tripped := true }) s1)))
  else if l.1 ≤ t then
    let s2 := if z ∈ s.dv.throttled then s1
      else logPkg 0x0E03 false z t (modDv (fun v => { v with
        throttled := v.throttled ++ [z], goal := if z < 4 then setAt v.goal z 20 else v.goal }) s1)
    if 16 ≤ z ∨ (z < 4 ∧ s.dv.cur.getD z 33 ≠ 20) then s2 else throttleRate z s2
  else if t < l.2.1 ∧ z ∈ s.dv.throttled then
    modDv (fun v => { v with
      throttled := v.throttled.filter (· != z), eighths := terase v.eighths z
      goal := if z < 4 then setAt v.goal z (baseRatio s) else v.goal }) s1
  else s1
/-- The sensors are read; a trip needs to be acted on once. -/
def thermal (temps : List (Nat × Nat)) (s : State) : State :=
  (temps.filter fun e => isZone e.1).foldl (fun t e => if t.dv.tripped then t else zoneReads e.1 e.2 t) s
/-- THERMAL_SAMPLE (R452, R453). -/
def execThermalSample (temps : List (Nat × Nat)) (s : State) : Host.Outcome State Fault Refusal := .next (thermal temps s)

end Sys2Proof.Machine
end

