-- ==== Sys2Proof/Machine/Startup.lean ====
section
/-! DEFINITION. Power-up, resets, the boot ROM and the start of the package (R407, R462, R473 to R479, R484, R485, R510, R514 to
R520). -/

namespace Sys2Proof.Machine

/-! What a cold start keeps (R370, R475, R478, R493, R517, R524, R525). -/

/-- The package as a cold start finds it: what lies in fuses, in the record area, in the firmware slots and in the bond store is
kept, and everything else is as at reset; the ports of a lost IOD0 stay dead (R17, R19). A start that was under way leaves no clean-stop mark (R519). -/
def coldState (s : State) : State :=
  { pending := s.pending, free := s.free, out := s.out, bus := s.bus
    host := { log := { prot := s.host.log.prot, coldStarts := s.host.log.coldStarts }, ep := { lanesOut := s.host.ep.lanesOut } }
    x := { bond := s.x.bond }
    health := { repairs := s.health.repairs, repairFull := s.health.repairFull, iod0Out := s.health.iod0Out }
    bnd := { manifest := s.bnd.manifest, st := s.bnd.st, bitmap := s.bnd.bitmap, written := s.bnd.written, crossed := s.bnd.crossed
             sealedVersion := s.bnd.sealedVersion, everSealed := s.bnd.everSealed, group := s.bnd.group, pageBad := s.bnd.pageBad }
    ports := if s.health.iod0Out then (List.range 9).map fun p => (p, { dead := true }) else []
    pw := { millivolts := s.pw.millivolts, outKind := s.pw.outKind, outFor := s.pw.outFor }
    dv := { sensorsOut := s.dv.sensorsOut, lowered := s.dv.lowered }
    pins := { vinOk := s.pins.vinOk, pkgRst := s.pins.pkgRst }
    boot := { slotA := s.boot.slotA, slotB := s.boot.slotB, prefer := s.boot.prefer, rollback := s.boot.rollback
              rootKey := s.boot.rootKey, cleanStop := s.boot.cleanStop && !midStart s, quickOk := s.boot.quickOk
              trained := s.boot.trained }
    sec := { lifecycle := s.sec.lifecycle, serial := s.sec.serial, ordering := s.sec.ordering, stepping := s.sec.stepping
             romDigest := s.sec.romDigest, fuses := s.sec.fuses, ownerRoot := s.sec.ownerRoot, keyTable := s.sec.keyTable
             chain := s.sec.chain, certified := s.sec.certified, idKey := s.sec.idKey }
    car := { ring := s.car.ring, dropped := s.car.dropped, summaries := s.car.summaries, runId := s.car.runId
             blocksOut := s.car.blocksOut, repairable := s.car.repairable } }

/-! Contacts (R473 to R477). -/

/-- The input reaches 38.0 V. -/
def inputUp (mv : Nat) (s : State) : State :=
  if mv < 38000 ∨ s.pins.vinOk then s
  else
    let s1 := if s.boot.stage = .holdup then coldState s else s
    modPw (fun w => { w with millivolts := mv, outKind := 0, outFor := 1 }) (modPins (fun p => { p with vinOk := true }) s1)
/-- VIN_REACH_38V (R473). -/
def execVinReach38V (millivolts : Nat) (s : State) : Host.Outcome State Fault Refusal := .next (inputUp millivolts s)

/-- PKG_RST_N goes high. -/
def resetReleased (s : State) : State := modPins (fun p => { p with pkgRst := true }) s
/-- PKG_RST_RELEASE (R473). -/
def execPkgRstRelease (s : State) : Host.Outcome State Fault Refusal := .next (resetReleased s)

/-- PKG_RST_N has been low for a time: from 10 microseconds on it is a cold start, below 1 it is ignored, and between the two it is
either, which the package does not fix (R475; log 12). -/
def resetAsserted (ns : Nat) (s : State) : State :=
  let d := draw s
  let held (t : State) : State := modPins (fun p => { p with pkgRst := false }) (coldState t)
  if ns < 1000 then s
  else if 10000 ≤ ns then held s
  else if Config.pulseResets d.1 then held d.2 else d.2
/-- PKG_RST_ASSERT (R475). -/
def execPkgRstAssert (lowNs : Nat) (s : State) : Host.Outcome State Fault Refusal := .next (resetAsserted lowNs s)

/-- The hold-up storage is exhausted: the package is unpowered. -/
def holdupOver (s : State) : State := if s.boot.stage = .holdup then coldState s else s
/-- HOLDUP_EXHAUSTED (R477). -/
def execHoldupExhausted (s : State) : Host.Outcome State Fault Refusal := .next (holdupOver s)

/-- The island rails become good: ISL_OK_N goes low and the straps are latched (R465). -/
def islandUp (straps : BitVec 10) (s : State) : State :=
  if ¬ s.pins.vinOk ∨ ¬ s.pins.pkgRst ∨ s.boot.stage ≠ .unpowered then s
  else
    let s1 := modPins (fun p => { p with islOk := true, straps }) (modBoot (fun b => { b with stage := .island }) s)
    modSb (fun b => { b with smbAddr := 0x60 + straps.toNat / 128 }) (modHm (fun h => { h with pkgId := straps.setWidth 7 }) s1)
/-- ISLAND_RAILS_GOOD (R473). -/
def execIslandRailsGood (straps : BitVec 10) (s : State) : Host.Outcome State Fault Refusal := .next (islandUp straps s)

/-- The rails are up and the PLLs locked: ports leave Idle and the endpoint can train. Without a root clock, in boot recovery and in
Retired no rail beyond the island's rises (R473, R485, R496). -/
def railsUp (s : State) : State :=
  if ¬ s.pins.rootOk ∨ s.boot.pllOk ∨ (s.boot.stage ≠ .rom ∧ s.boot.stage ≠ .firmware) then s
  else
    let s1 := modEp (fun e => { e with canTrain := true }) (modPw (fun w => { w with rails := true }) s)
    portsDetect (modBoot (fun b => { b with pllOk := true, stage := if b.stage = .firmware then .training else b.stage }) s1)
/-- PLL_LOCKED (R473). -/
def execPllLocked (s : State) : Host.Outcome State Fault Refusal := .next (railsUp s)

/-- PERST_N low: shorter than 1 microsecond it is ignored; else it is a fundamental reset of the endpoint, with the effects of a hot
reset (R474). -/
def perstLow (ns : Nat) (s : State) : State :=
  if ns < 1000 then s
  else
    let s1 := modEp (fun e => { e with perst := false }) s
    if s.host.ep.linkUp then modEp (fun e => { e with linkUp := false }) (hotReset s1) else s1
/-- PERST_ASSERT (R474). -/
def execPerstAssert (lowNs : Nat) (s : State) : Host.Outcome State Fault Refusal := .next (perstLow lowNs s)
/-- PERST_RELEASE (R474). -/
def execPerstRelease (s : State) : Host.Outcome State Fault Refusal := .next (modEp (fun e => { e with perst := true }) s)

/-- The link trains: not before the rails are settled, nor under PERST_N, in a careen loopback, or with IOD0 lost. -/
def linkTrains (s : State) : State :=
  let e := s.host.ep
  if e.canTrain ∧ e.perst ∧ ¬ e.loopback ∧ ¬ s.health.iod0Out then modEp (fun e => { e with linkUp := true }) s else s
/-- PCIE_LINK_UP (R400, R474). -/
def execPcieLinkUp (s : State) : Host.Outcome State Fault Refusal := .next (linkTrains s)

/-- The host sets or clears a function's Bus Master Enable. -/
def busMaster (fn : Nat) (enable : Bool) (s : State) : State :=
  if ¬ s.host.ep.linkUp then s
  else modEp (fun e => { e with bme := if enable then fn :: e.bme.filter (· != fn) else e.bme.filter (· != fn) }) s
/-- BUS_MASTER_ENABLE_WRITE (R429). -/
def execBusMasterEnableWrite (fn : FnId) (enable : Bool) (s : State) : Host.Outcome State Fault Refusal :=
  .next (busMaster (fnNo fn) enable s)

/-- A new second of package time: the log's rate cap and the ports' corrected-byte counts begin again (R309, R310, R526). -/
def newSecond (s : State) : State :=
  let s1 := modLog (fun l => { l with inSecond := 0, droppedBefore := l.droppedNow, droppedNow := 0 }) s
  { s1 with ports := s1.ports.map fun q => (q.1, { q.2 with corrected := [] }) }
/-- LOG_RATE_SECOND (R526). -/
def execLogRateSecond (s : State) : Host.Outcome State Fault Refusal := .next (newSecond s)

/-! The boot ROM and the hand-over (R484, R485, R514, R516). -/

/-- A package that runs nothing: in boot recovery or Retired. -/
def holdDead (st : BootStage) (s : State) : State :=
  modPins (fun p => { p with faultN := true }) (modBoot (fun b => { b with stage := st }) s)
/-- The boot ROM tries the preferred slot and then the other. -/
def romStart (s : State) : State :=
  if s.boot.stage ≠ .island then s
  else if s.sec.lifecycle = 4 then holdDead .retired s
  else
    let first := s.boot.prefer.getD false
    let no := fwCheck s (slotImg s first)
    if no = 0 then modBoot (fun b => { b with stage := .rom, booted := some first }) s
    else if fwCheck s (slotImg s (!first)) = 0 then
      modBoot (fun b => { b with stage := .rom, booted := some (!first), rejected := some (first, no) }) s
    else holdDead .recovery s
/-- BOOT_ROM_START (R484, R485). -/
def execBootRomStart (s : State) : Host.Outcome State Fault Refusal := .next (romStart s)

/-- The start type (R514): 0 quick, 1 normal, 2 recovery. -/
def startTypeOf (b : Boot) : Nat := if ¬ b.cleanStop then 2 else if b.quickOk then 0 else 1
/-- The firmware receives control. -/
def handOverFw (s : State) : State :=
  match s.boot.stage, s.boot.booted with
  | .rom, some slot =>
    let d := draw s
    let s1 := modBoot (fun b => { b with
      startType := startTypeOf b, quickOk := false, stage := if b.pllOk then .training else .firmware }) d.2
    let s2 := modHm (fun h => { h with fwVersion := w32 (fld (wordAt (slotImg s slot) 1) 0 24 + 2 ^ 24 * b2n slot) }) s1
    let s3 := modLog (fun l => { l with coldStarts := min (l.coldStarts + 1) 0xFFFF })
      (modSec (fun x => { x with startValue := natBytes 32 (Config.entropy d.1).toNat, nonce := none }) s2)
    let s4 := match s.boot.rejected with
      | some (bad, cause) => logPkg 0x1002 true (b2n bad) cause s3
      | none => s3
    if s.pins.rootOk then s4 else railsOff (logPkg 0x0E07 true s.pins.rootPpm 0 s4)
  | _, _ => s
/-- FIRMWARE_HANDOVER (R516). -/
def execFirmwareHandover (s : State) : Host.Outcome State Fault Refusal := .next (handOverFw s)

/-- HBM training, or the verification of the stored training, is complete. -/
def trainingDone (failed : List Nat) (s : State) : State :=
  if s.boot.stage ≠ .training then s
  else
    let bad := (List.range 16).filter fun k => decide (k ∈ failed ∨ k ∉ s.boot.trained)
    let s1 := if s.boot.warm ∨ s.boot.startType = 0 then bad.foldl (fun t k => logPkg 0x1203 false k 0 t) s else s
    modBoot (fun b => { b with stage := if b.warm then .ready else .repairs }) s1
/-- HBM_TRAINING_DONE (R515, R516, R520). -/
def execHbmTrainingDone (failed : List (Fin 16)) (s : State) : Host.Outcome State Fault Refusal :=
  .next (trainingDone (failed.map fun k => k.val) s)

/-! The repair record applied (R370, R510). -/

/-- A row is retired with the frame that its granules lie in. -/
def retireRow (pc row : Nat) (t : Tiers) : Tiers :=
  { t with rowsOut := t.rowsOut ++ [(pc, row)], framesOut := (t.framesOut ++ [(pc / 128, row / 16)]).eraseDups }
/-- A pseudo-channel is out, and with more than 8 of its stack the stack is lost. -/
def pcOut (pc : Nat) (t : Tiers) : Tiers :=
  let out := (t.pcsOut ++ [pc]).eraseDups
  { t with pcsOut := out
           stacksLost := if 8 < (out.filter fun q => q / 32 == pc / 32).length then (t.stacksLost ++ [pc / 32]).eraseDups else t.stacksLost }
/-- A compute die whose links to both I/O dies are out takes its clusters and stacks with it (R15). -/
def dieGone (d : Nat) (s : State) : State :=
  if 2 * d ∈ s.health.links ∧ 2 * d + 1 ∈ s.health.links ∧ d < 4 then
    modTiers (fun t => { t with stacksLost := (t.stacksLost ++ (List.range 4).map (4 * d + ·)).eraseDups })
      (modHealth (fun h => { h with diesOut := (h.diesOut ++ [d]).eraseDups })
        ((List.range 12).foldl (fun t i => modCluster (12 * d + i) (fun c => { c with out := true }) t) s))
  else s
/-- Apply one entry of the repair record; `noSpare` lists the rows for which hard repair found no spare row. -/
def applyRepair (noSpare : List (Nat × Nat)) (s : State) (e : List Word) : State :=
  let kind := fld (wordAt e 0) 0 8
  let n := (wordAt e 1).toNat
  let x := (wordAt e 2).toNat
  if blockOf kind n x ∈ s.car.repairable then s
  else match kind with
    | 1 => modHealth (fun h => { h with
        spares := tset h.spares (trioOf n) n, isolated := (h.isolated ++ [n]).eraseDups }) s
    | 2 => modCluster n (fun c => { c with out := true }) s
    | 3 => modTiers (fun t => { t with macros := tset t.macros n { spares := min 4 ((tgetD t.macros n {}).spares + 1), column := x } }) s
    | 4 => if (n, x) ∈ noSpare then modTiers (retireRow n x) s else s
    | 5 => modTiers (retireRow n x) s
    | 6 => modTiers (pcOut n) s
    | 7 => modPort n (fun q => { q with spared := some x, faulty := (q.faulty ++ [x]).eraseDups }) s
    | 8 => modPort n (fun q => { q with narrowed := some x }) s
    | 10 => if n = 4 then modHm (fun h => { h with redundancyLost := true }) (modHealth (fun h => { h with links := (h.links ++ [12]).eraseDups }) s)
        else dieGone n (modHealth (fun h => { h with links := (h.links ++ [2 * n + x]).eraseDups }) s)
    | 11 => modChm n (fun c => { c with out := true }) s
    | 12 => modHm (fun h => { h with hmInst := decide (n = 0), instOut := true, redundancyLost := true }) s
    | _ => s

/-! Careen results applied (R510). -/

/-- A core or cluster leaves service for the macro that it holds. -/
def macroOut (m : Nat) (s : State) : State :=
  if m < 0x8000 then coreFails (m / 64) s else clusterOut ((m - 0x8000) / 256) ((m - 0x8000) / 256) s
/-- The element that a PLL or rail feeds, whose numbering the manual does not give, is taken out: a die's clusters, a stack, a die's
ports or the package (a free value). -/
def feederOut (s : State) : State :=
  let d := draw s
  let k := Config.choice d.1
  match k % 4 with
  | 0 => (List.range 12).foldl (fun t i => clusterOut (12 * (k / 4 % 4) + i) (12 * (k / 4 % 4) + i) t) d.2
  | 1 => (List.range 32).foldl (fun t i => recordRepair 6 (32 * (k / 4 % 16) + i) 0 (modTiers (pcOut (32 * (k / 4 % 16) + i)) t)) d.2
  | 2 => (List.range 9).foldl (fun t i => modPort (9 * (k / 4 % 2) + i) (fun q => { q with st := .idle, dead := true }) t) d.2
  | _ => declareFailed 1 0 d.2
/-- Sensors of a zone: 16 per compute die from 0, 8 per I/O die from 64, one per stack from 80. -/
def sensorZone (n : Nat) : Nat × Nat := if n < 64 then (n / 16, 16) else if n < 80 then (4 + (n - 64) / 8, 8) else (16 + (n - 80), 1)
/-- A sensor is excluded; a zone with fewer than half its sensors lowers its thresholds. -/
def sensorOut (n : Nat) (s : State) : State :=
  let z := sensorZone n
  let out := (s.dv.sensorsOut ++ [n]).eraseDups
  let left := z.2 - (out.filter fun q => sensorZone q == z).length
  modDv (fun v => { v with sensorsOut := out, lowered := if 2 * left < z.2 then (v.lowered ++ [z.1]).eraseDups else v.lowered }) s
/-- Unapplied failures of test 0x06 on a pseudo-channel, by row. -/
def failedRows (s : State) (pc : Nat) : List Nat :=
  ((s.car.ring.filter fun r => fld (wordAt r 0) 0 8 == 6 && fld (wordAt r 0) 8 3 == 1 && !bitOf (wordAt r 0) 13 &&
    (wordAt r 1).toNat == pc).map fun r => (wordAt r 2).toNat).eraseDups
/-- A port's lane is taken out, by its number 16 x port + lane. -/
def laneOut (n : Nat) (s : State) : State := if n / 16 < 18 ∧ n % 16 < 9 then laneFaulty (n / 16) (n % 16) s else s
/-- A pseudo-channel is retired by a careen result, and recorded as retired. -/
def retireAtStart (pc : Nat) (s : State) : State :=
  if pc ∈ s.tiers.pcsOut then s else recordRepair 6 pc 0 (modTiers (pcOut pc) s)
/-- Act on a failure that careen found; `whole` takes the element out whole (R509). -/
def actOnCareen (noSpare : List (Nat × Nat)) (test elem addr bit : Nat) (whole : Bool) (s : State) : State :=
  match test with
  | 1 =>
    let m := tgetD s.tiers.macros elem {}
    if ¬ whole ∧ m.spares < 4 then
      recordRepair 3 elem bit (modTiers (fun t => { t with macros := tset t.macros elem { m with spares := m.spares + 1, column := bit } }) s)
    else macroOut elem s
  | 2 => macroOut elem s
  | 3 | 4 => coreFails elem s
  | 5 => recordRepair 11 elem 0 (modChm elem (fun c => { c with out := true }) s)
  | 6 =>
    if whole ∨ 32 < (failedRows s elem).length then retireAtStart elem s
    else if (elem, addr) ∈ noSpare then recordRepair 5 elem addr (modTiers (retireRow elem addr) s) else s
  | 7 => modCar (fun c => { c with blocksOut := (c.blocksOut ++ [(elem, addr)]).eraseDups }) s
  | 8 => laneOut elem s
  | 9 => modEp (fun e => { e with lanesOut := (e.lanesOut ++ [elem % 16]).eraseDups }) s
  | 10 | 11 => feederOut s
  | 12 => sensorOut elem s
  | _ => s
/-- Act on one record of the result ring. -/
def applyResult (noSpare : List (Nat × Nat)) (i : Nat) (s : State) : State :=
  match s.car.ring[i]? with
  | none => s
  | some r =>
    let w := wordAt r 0
    if fld w 8 3 ≠ 1 ∨ bitOf w 13 then s
    else
      let elem := (wordAt r 1).toNat
      recordRepair 13 elem i (actOnCareen noSpare (fld w 0 8) elem (wordAt r 2).toNat (fld (wordAt r 4) 0 8) false s)
/-- Every record of the ring is applied. -/
def markApplied (r : List Word) : List Word :=
  if fld (wordAt r 0) 8 3 = 1 then (wordAt r 0 ||| 0x2000) :: r.drop 1 else r
/-- The careen results take effect, and the elements whose failures were dropped are taken out whole. -/
def applyCareen (noSpare : List (Nat × Nat)) (s : State) : State :=
  let s1 := (List.range s.car.ring.length).foldl (fun t i => applyResult noSpare i t) s
  let s2 := s.car.dropped.foldl (fun t e => actOnCareen noSpare e.1 e.2 0 0 true t) s1
  modCar (fun c => { c with ring := c.ring.map markApplied, dropped := [] }) s2

/-- Hard repairs are complete: repairs and careen results are applied and the serving set is checked; the package is ready, or has
failed. -/
def startReady (noSpare : List (Nat × Nat)) (s : State) : State :=
  if s.boot.stage ≠ .repairs then s
  else
    let s1 := applyCareen noSpare (s.health.repairs.foldl (applyRepair noSpare) s)
    let s2 := modBoot (fun b => { b with stage := .ready }) s1
    if s2.host.hm.failed then s2
    else match setLacks s2 with
      | some e => declareFailed 1 e s2
      | none =>
        let s3 := modHm (fun h => { h with ready := true }) (modBoot (fun b => { b with cleanStop := false }) s2)
        tryJoin (logPkg 0x1201 false s3.boot.startType s3.host.log.coldStarts s3)
/-- HARD_REPAIRS_DONE (R371, R510, R516). -/
def execHardRepairsDone (noSpare : List (Nat × Nat)) (s : State) : Host.Outcome State Fault Refusal := .next (startReady noSpare s)

end Sys2Proof.Machine
end

