-- ==== Sys2Proof/Machine/Security.lean ====
section
/-! DEFINITION. attest.get, lc.set, firmware update and the SPDM responder (R480 to R499). -/

namespace Sys2Proof.Machine

/-! attest.get (R492). -/

/-- A signature of the identity key over bytes, as SIG_R then SIG_S, and the state with the free value drawn. -/
def idSign (msg : List Byte) (s : State) : List Byte × State :=
  let d := draw s
  let q := Config.sign d.1 msg
  (natBytes 32 q.1 ++ natBytes 32 q.2, d.2)

/-- attest.get MEASURE. -/
def attestMeasure (r : Request) (s : State) : State :=
  let i := fld (argOf r 1) 0 4
  if i < 1 ∨ 8 < i then reply r 0x0D09 [] s else reply r 0 (wordsOfBytes (measurement s i)) s
/-- ATTEST_MEASURE (R492). -/
def execAttestMeasure (m : MbxId) (s : State) : Host.Outcome State Fault Refusal := .next (takeSub m 0x0801 1 attestMeasure s)
/-- attest.get QUOTE. -/
def attestQuote (r : Request) (s : State) : State :=
  let d := sha256 (measurements s)
  let q := idSign (bytesOfWords (slice r.words 3 8) ++ d) s
  reply r 0 (wordsOfBytes (d ++ q.1)) q.2
/-- ATTEST_QUOTE (R492). -/
def execAttestQuote (m : MbxId) (s : State) : Host.Outcome State Fault Refusal := .next (takeSub m 0x0801 2 attestQuote s)
/-- attest.get CERT. -/
def attestCert (r : Request) (s : State) : State :=
  let o := fld (argOf r 1) 0 12
  let bs := slice s.sec.chain o 240
  if s.sec.chain.length ≤ o then reply r 0x0D09 [] s
  else reply r 0 (w32 s.sec.chain.length :: wordsOfBytes (bs ++ List.replicate (240 - bs.length) 0)) s
/-- ATTEST_CERT (R492). -/
def execAttestCert (m : MbxId) (s : State) : Host.Outcome State Fault Refusal := .next (takeSub m 0x0801 3 attestCert s)

/-! Life cycle (R493 to R496). -/

/-- lc.set NONCE: the reply carries the nonce. -/
def lcNonce (r : Request) (s : State) : State :=
  let d := draw s
  let n := natBytes 32 (Config.entropy d.1).toNat
  reply r 0 (wordsOfBytes n) (modSec (fun x => { x with nonce := some n }) d.2)
/-- LC_NONCE (R495). -/
def execLcNonce (m : MbxId) (s : State) : Host.Outcome State Fault Refusal := .next (takeSub m 0x0802 1 lcNonce s)

/-- The nonce is spent. -/
def spendNonce (s : State) : State := modSec (fun x => { x with nonce := none }) s
/-- The authorisation of a request with SUB `sub` is valid (R495). -/
def authOk (s : State) (r : Request) (sub : Nat) : Bool :=
  match s.sec.nonce, s.sec.ownerRoot with
  | some n, some root =>
    let key := bytesOfWords (slice r.words 3 16)
    sha256 key == root && verifySig (natBytes 8 s.sec.serial ++ n ++ [b8 sub]) key
      (natOfBytes (bytesOfWords (slice r.words 19 8))) (natOfBytes (bytesOfWords (slice r.words 27 8)))
  | _, _ => false

/-- lc.set PROVISION. -/
def lcProvision (r : Request) (s : State) : State :=
  if s.sec.lifecycle ≠ 0 ∨ ¬ s.sec.certified then reply r 0x1003 [] s
  else reply r 0 [] (enterLife 1 (modSec (fun x => { x with ownerRoot := some (bytesOfWords (slice r.words 3 8)) }) s))
/-- LC_PROVISION (R494). -/
def execLcProvision (m : MbxId) (s : State) : Host.Outcome State Fault Refusal := .next (takeSub m 0x0802 2 lcProvision s)

/-- The conditions of SEAL that fail, as its reply word. -/
def sealLacks (s : State) : Nat :=
  b2n (manifest s).isNone + 2 * b2n (s.sec.keyTable == []) + 4 * b2n (s.bnd.st == .opened)
/-- lc.set SEAL: the highest VERSION sealed is recorded, and loaded images that match the manifest take their stages (R293, R295). -/
def lcSeal (r : Request) (s : State) : State :=
  if s.sec.lifecycle ≠ 1 then reply r 0x1003 [] s
  else if sealLacks s ≠ 0 then reply r 0x1008 [w32 (sealLacks s)] s
  else
    let s1 := modBnd (fun b => { b with sealedVersion := max b.sealedVersion (mfVersion b.manifest), everSealed := true }) s
    reply r 0 [] (settleStages (enterLife 2 s1))
/-- LC_SEAL (R494). -/
def execLcSeal (m : MbxId) (s : State) : Host.Outcome State Fault Refusal := .next (takeSub m 0x0802 3 lcSeal s)

/-- The stop of service that UNSEAL or RETURN starts in Sealed. -/
def lcStop (n : Nat) (r : Request) (s : State) : State :=
  let s1 := modSec (fun x => { x with stopping := some (n, r), stopCommits := 0, stopStopped := 0 }) s
  stopOn (if bitOf (argOf r 0) 8 then stopSteps s1 else s1)
/-- lc.set UNSEAL; a second one while service stops is no transition. -/
def lcUnseal (r : Request) (s : State) : State :=
  if s.sec.lifecycle ≠ 2 ∨ s.sec.stopping.isSome then reply r 0x1003 [] s
  else if ¬ authOk s r 4 then reply r 0x1004 [] (spendNonce s)
  else lcStop 1 r (spendNonce s)
/-- LC_UNSEAL (R295, R494, R496). -/
def execLcUnseal (m : MbxId) (s : State) : Host.Outcome State Fault Refusal := .next (takeSub m 0x0802 4 lcUnseal s)
/-- lc.set RETURN. -/
def lcReturn (r : Request) (s : State) : State :=
  if (s.sec.lifecycle ≠ 1 ∧ s.sec.lifecycle ≠ 2) ∨ s.sec.stopping.isSome then reply r 0x1003 [] s
  else if ¬ authOk s r 5 then reply r 0x1004 [] (spendNonce s)
  else if s.sec.lifecycle = 1 then reply r 0 [] (recordLife 3 (spendNonce s))
  else lcStop 3 r (spendNonce s)
/-- LC_RETURN (R494, R496). -/
def execLcReturn (m : MbxId) (s : State) : Host.Outcome State Fault Refusal := .next (takeSub m 0x0802 5 lcReturn s)

/-- What RETIRE erases: the whole record area and the identity. -/
def eraseRecords (s : State) : State :=
  let s1 := modLog (fun l => { l with prot := [] }) (modHealth (fun h => { h with repairs := [], repairFull := false }) s)
  let s2 := modBnd (fun b => { b with bitmap := [], group := [], written := 0, crossed := 0, sealedVersion := 0, everSealed := false }) s1
  let s3 := modBoot (fun b => { b with prefer := none, cleanStop := false, quickOk := false, trained := [] }) s2
  modSec (fun x => { x with keyTable := [], chain := [], certified := false, idKey := [], nonce := none, stopping := none })
    (modCar (fun _ => {}) s3)
/-- The package is held dead: no rail beyond the island's is up, and nothing runs. -/
def holdRetired (s : State) : State :=
  let s1 := dryOut (loseSram (forgetFabric (portsOff s)))
  let s2 := modHm (fun h => { h with ready := false }) (modPw (fun w => { w with rails := false, target := none, waiting := [], slewing := [] }) s1)
  holdDead .retired (eraseRecords { modJournal (fun _ => []) s2 with parts := [] })
/-- lc.set RETIRE. -/
def lcRetire (r : Request) (s : State) : State :=
  if s.sec.lifecycle = 4 then reply r 0x1003 [] s
  else if s.sec.lifecycle ≠ 0 ∧ ¬ authOk s r 6 then reply r 0x1004 [] (spendNonce s)
  else holdRetired (reply r 0 [] (enterLife 4 s))
/-- LC_RETIRE (R494, R496). -/
def execLcRetire (m : MbxId) (s : State) : Host.Outcome State Fault Refusal := .next (takeSub m 0x0802 6 lcRetire s)

/-- An owner key table is acceptable (R482). -/
def tableOk (s : State) (bytes : Nat) (t : List Word) : Bool :=
  let k := ktKeys t
  let body := t.take (24 + 16 * k)
  let sig := t.drop (24 + 16 * k)
  let root := bytesOfWords (slice t 2 16)
  bytes == 4 * (24 + 16 * k + 32) && t.length == 24 + 16 * k + 32 && decide (k ≤ 8) && reservedOk t 0 2 [(0, 0, 32), (1, 0, 4)] &&
    slice t 18 6 == List.replicate 6 0 && !sigReserved sig && s.sec.ownerRoot == some (sha256 root) && sigOk body sig 2 root &&
    (s.sec.keyTable == [] || decide (wordAt s.sec.keyTable 0 < wordAt t 0))
/-- lc.set KEYS: the table at the host address of words 1 and 2, of the length of word 3 (log 77). -/
def lcKeys (dma : Option (List Word)) (r : Request) (s : State) : State :=
  let bytes := (argOf r 3).toNat
  if ¬ dmaOpen s (dmaFn r) then dmaFailed r s
  else match dma with
    | none => dmaFailed r s
    | some all =>
      let t := all.take (bytes / 4)
      let s1 := countRead bytes s
      if ¬ tableOk s bytes t then reply r 0x1007 [] s1
      else reply r 0 [] (logPkg 0x1005 false (wordAt t 0).toNat (ktKeys t) (modSec (fun x => { x with keyTable := t }) s1))
/-- LC_KEYS (R482). -/
def execLcKeys (m : MbxId) (dma : Option (List Word)) (s : State) : Host.Outcome State Fault Refusal :=
  .next (takeSub m 0x0802 7 (lcKeys dma) s)

/-! Firmware update (R485, R486, R497). -/

/-- The status of a firmware image. -/
def fwStatus (s : State) (ws : List Word) : Nat :=
  match fwCheck s ws with
  | 0 => 0
  | 2 => 0x1002
  | _ => 0x1001
/-- A whole image has been written to a slot: it stands where it passes, and the slot is left invalid where it fails. In boot recovery
a passing image starts the package again. -/
def fwWritten (r : Request) (b : Bool) (ws : List Word) (s : State) : State :=
  let st := fwStatus s ws
  let s1 := reply r st [] (setSlot b (if st = 0 then ws else []) (countWritten (4 * ws.length) s))
  if st = 0 ∧ s.boot.stage = .recovery then coldState s1 else s1
/-- lc.set FW_WRITE. -/
def fwWrite (dma : Option (List Word)) (r : Request) (s : State) : State :=
  let b := bitOf (argOf r 1) 0
  let bytes := (argOf r 4).toNat
  if s.boot.booted = some b ∨ s.sec.fw.isSome then reply r 0x1005 [] s
  else if 2 ^ 26 < bytes then reply r 0x1001 [] s
  else if bitOf (argOf r 1) 1 then
    reply r 0 [] (setSlot b [] (modSec (fun x => { x with fw := some { slotB := b, bytes } }) s))
  else if ¬ dmaOpen s (dmaFn r) then dmaFailed r s
  else match dma with
    | none => dmaFailed r s
    | some all => fwWritten r b (all.take (bytes / 4)) (countRead bytes s)
/-- FW_WRITE (R497). -/
def execFwWrite (m : MbxId) (dma : Option (List Word)) (s : State) : Host.Outcome State Fault Refusal :=
  .next (takeSub m 0x0802 8 (fwWrite dma) s)

/-- lc.set FW_DATA. -/
def fwData (r : Request) (s : State) : State :=
  let n := fld (argOf r 0) 16 16
  match s.sec.fw with
  | none => reply r 0x0D09 [] s
  | some f =>
    if n % 4 ≠ 0 ∨ n < 4 ∨ 224 < n ∨ (argOf r 1).toNat ≠ 4 * f.got.length ∨ f.bytes < 4 * f.got.length + n then reply r 0x0D09 [] s
    else
      let got := f.got ++ slice r.words 4 (n / 4)
      if 4 * got.length < f.bytes then
        reply r 0 [] (countWritten n (modSec (fun x => { x with fw := some { f with got } }) s))
      else fwWritten r f.slotB got (modSec (fun x => { x with fw := none }) s)
/-- FW_DATA (R497). -/
def execFwData (m : MbxId) (s : State) : Host.Outcome State Fault Refusal := .next (takeSub m 0x0802 11 fwData s)

/-- lc.set FW_PREFER. -/
def fwPrefer (r : Request) (s : State) : State :=
  let b := bitOf (argOf r 1) 0
  if fwCheck s (slotImg s b) ≠ 0 then reply r 0x1001 [] s
  else reply r 0 [] (modBoot (fun x => { x with prefer := some b }) s)
/-- FW_PREFER (R497). -/
def execFwPrefer (m : MbxId) (s : State) : Host.Outcome State Fault Refusal := .next (takeSub m 0x0802 9 fwPrefer s)

/-- lc.set FW_COMMIT. -/
def fwCommit (r : Request) (s : State) : State :=
  let n := ((s.boot.booted.map fun b => fwSvn (slotImg s b))).getD 0
  if n ≤ s.boot.rollback then reply r 0 [] s
  else if 63 < n then reply r 0x1006 [] s
  else reply r 0 [] (logPkg 0x1004 false n 0 (modBoot (fun b => { b with rollback := n }) s))
/-- FW_COMMIT (R486). -/
def execFwCommit (m : MbxId) (s : State) : Host.Outcome State Fault Refusal := .next (takeSub m 0x0802 10 fwCommit s)

/-! The SPDM responder (R489; message codes and layouts of the DMTF specification, log 13). -/

/-- The transport's responder. -/
def spdmOf (s : State) (doe : Bool) : Spdm := if doe then s.sec.doe else s.sec.mctp
/-- Change the transport's responder. -/
def modSpdm (doe : Bool) (f : Spdm → Spdm) (s : State) : State :=
  modSec (fun x => if doe then { x with doe := f x.doe } else { x with mctp := f x.mctp }) s
/-- The firmware runs. -/
def firmwareRuns (s : State) : Bool :=
  !s.host.hm.gone && match s.boot.stage with
    | .firmware | .training | .repairs | .ready => true
    | _ => false
/-- The transport answers: DOE while the link is up, MCTP while the island runs, and the instance reaches IOD0 (R19). -/
def spdmUp (s : State) (doe : Bool) : Bool := firmwareRuns s && iod0Reach s && if doe then s.host.ep.linkUp else s.pins.islOk
/-- Send a response. -/
def spdmSend (doe : Bool) (bs : List Byte) (s : State) : State :=
  emit (if doe then .doe bs else .smbus bs) (modSpdm doe (fun p => { p with reply := bs }) s)
/-- A response: version, code, two parameters, what the manual gives, and `n` bytes that it leaves to the specification of SPDM. -/
def spdmAnswer (doe : Bool) (code p1 p2 : Nat) (known : List Byte) (n : Nat) (s : State) : State :=
  let d := draw s
  spdmSend doe ([b8 (spdmOf s doe).version, b8 code, b8 p1, b8 p2] ++ known ++ (List.range n).map (Config.spdmBody d.1)) d.2
/-- An ERROR response. -/
def spdmError (doe : Bool) (why : Nat) (s : State) : State := spdmAnswer doe 0x7F why 0 [] 0 s
/-- A byte of a message. -/
def byteAt (bs : List Byte) (i : Nat) : Nat := (bs.getD i 0).toNat
/-- Run `f` on a transport that answers and has settled its algorithms. -/
def spdmReady (doe : Bool) (f : State → State) (s : State) : State :=
  if ¬ spdmUp s doe then s else if ¬ (spdmOf s doe).algs then spdmError doe 4 s else f s

/-- GET_VERSION: 1.2 and 1.3; the connection begins anew. -/
def spdmVersion (doe : Bool) (s : State) : State :=
  if ¬ spdmUp s doe then s
  else spdmSend doe [0x10, 0x04, 0, 0, 0, 2, 0x00, 0x12, 0x00, 0x13] (modSpdm doe (fun _ => {}) s)
/-- SPDM_GET_VERSION (R489). -/
def execSpdmGetVersion (onDoe : Bool) (_msg : List Byte) (s : State) : Host.Outcome State Fault Refusal := .next (spdmVersion onDoe s)

/-- GET_CAPABILITIES settles the version. -/
def spdmCaps (doe : Bool) (msg : List Byte) (s : State) : State :=
  let v := byteAt msg 0
  if ¬ spdmUp s doe then s
  else if v ≠ 0x12 ∧ v ≠ 0x13 then spdmError doe 0x41 s
  else spdmAnswer doe 0x61 0 0 [] 16 (modSpdm doe (fun p => { p with version := v, caps := true, algs := false }) s)
/-- SPDM_GET_CAPABILITIES (R489). -/
def execSpdmGetCapabilities (onDoe : Bool) (msg : List Byte) (s : State) : Host.Outcome State Fault Refusal :=
  .next (spdmCaps onDoe msg s)

/-- NEGOTIATE_ALGORITHMS. -/
def spdmAlgs (doe : Bool) (s : State) : State :=
  if ¬ spdmUp s doe then s
  else if ¬ (spdmOf s doe).caps then spdmError doe 4 s
  else spdmAnswer doe 0x63 0 0 [] 32 (modSpdm doe (fun p => { p with algs := true }) s)
/-- SPDM_NEGOTIATE_ALGORITHMS (R489). -/
def execSpdmNegotiateAlgorithms (onDoe : Bool) (_msg : List Byte) (s : State) : Host.Outcome State Fault Refusal :=
  .next (spdmAlgs onDoe s)

/-- SPDM_GET_DIGESTS (R489): slot 0 holds the chain of R487. -/
def execSpdmGetDigests (onDoe : Bool) (_msg : List Byte) (s : State) : Host.Outcome State Fault Refusal :=
  .next (spdmReady onDoe (fun t => spdmAnswer onDoe 0x01 0 1 (sha256 t.sec.chain) 0 t) s)

/-- GET_CERTIFICATE: a piece of the chain in slot 0. -/
def spdmCert (doe : Bool) (msg : List Byte) (s : State) : State :=
  let o := byteAt msg 4 + 256 * byteAt msg 5
  let n := byteAt msg 6 + 256 * byteAt msg 7
  let bs := slice s.sec.chain o n
  if byteAt msg 2 % 16 ≠ 0 ∨ s.sec.chain.length ≤ o then spdmError doe 1 s
  else spdmAnswer doe 0x02 0 0 (natBytes 2 bs.length ++ natBytes 2 (s.sec.chain.length - o - bs.length) ++ bs) 0 s
/-- SPDM_GET_CERTIFICATE (R489). -/
def execSpdmGetCertificate (onDoe : Bool) (msg : List Byte) (s : State) : Host.Outcome State Fault Refusal :=
  .next (spdmReady onDoe (spdmCert onDoe msg) s)

/-- A response signed by the identity key: a nonce, then the signature over the request and all that goes before. -/
def spdmSigned (doe : Bool) (msg : List Byte) (code p1 p2 : Nat) (known : List Byte) (s : State) : State :=
  let d := draw s
  let body := known ++ natBytes 32 (Config.entropy d.1).toNat
  let q := idSign (msg ++ [b8 (spdmOf s doe).version, b8 code, b8 p1, b8 p2] ++ body) d.2
  spdmAnswer doe code p1 p2 (body ++ q.1) 0 q.2
/-- SPDM_CHALLENGE (R489). -/
def execSpdmChallenge (onDoe : Bool) (msg : List Byte) (s : State) : Host.Outcome State Fault Refusal :=
  .next (spdmReady onDoe (fun t => spdmSigned onDoe msg 0x03 0 1 (sha256 t.sec.chain) t) s)

/-- DMTF value type of a measurement (R488). -/
def measureType (i : Nat) : Nat := match i with
  | 1 => 0
  | 2 => 1
  | 4 | 5 => 2
  | _ => 3
/-- A measurement block: index, DMTF form, size, value type, size, digest. -/
def measureBlock (s : State) (i : Nat) : List Byte :=
  [b8 i, 1, 35, 0, b8 (measureType i), 32, 0] ++ measurement s i
/-- GET_MEASUREMENTS: their number, one, or all; signed when asked. -/
def spdmMeasure (doe : Bool) (msg : List Byte) (s : State) : State :=
  let op := byteAt msg 3
  let which := if op = 0 then [] else if op = 255 then (List.range 8).map (· + 1) else [op]
  let known := b8 which.length :: natBytes 3 (43 * which.length) ++ which.flatMap (measureBlock s)
  if 8 < op ∧ op ≠ 255 then spdmError doe 1 s
  else if bitOf (w32 (byteAt msg 2)) 0 then spdmSigned doe msg 0x60 8 0 known s
  else spdmAnswer doe 0x60 8 0 known 0 s
/-- SPDM_GET_MEASUREMENTS (R489). -/
def execSpdmGetMeasurements (onDoe : Bool) (msg : List Byte) (s : State) : Host.Outcome State Fault Refusal :=
  .next (spdmReady onDoe (spdmMeasure onDoe msg) s)

/-- Run `f` where sessions are supported: on DOE only. -/
def spdmSession (doe : Bool) (f : State → State) (s : State) : State := spdmReady doe (if doe then f else spdmError doe 7) s
/-- KEY_EXCHANGE: a new session in place of the one held. -/
def spdmKeyExchange (doe : Bool) (msg : List Byte) (s : State) : State :=
  let d := draw s
  let id := byteAt msg 4 + 256 * byteAt msg 5 + 65536 * (Config.choice d.1 % 65536)
  spdmSigned doe msg 0x64 0 0 (natBytes 2 (id / 65536))
    (modSpdm doe (fun p => { p with session := some id, finished := false, keyUpdates := 0 }) d.2)
/-- SPDM_KEY_EXCHANGE (R489). -/
def execSpdmKeyExchange (onDoe : Bool) (msg : List Byte) (s : State) : Host.Outcome State Fault Refusal :=
  .next (spdmSession onDoe (spdmKeyExchange onDoe msg) s)
/-- FINISH; `good` says that the requester's verification data is right. -/
def spdmFinish (doe good : Bool) (s : State) : State :=
  let p := spdmOf s doe
  if p.session.isNone ∨ p.finished then spdmError doe 4 s
  else if good then spdmAnswer doe 0x65 0 0 [] 0 (modSpdm doe (fun p => { p with finished := true }) s)
  else spdmError doe 6 (modSpdm doe (fun p => { p with session := none }) s)
/-- SPDM_FINISH (R489). -/
def execSpdmFinish (onDoe : Bool) (_msg : List Byte) (good : Bool) (s : State) : Host.Outcome State Fault Refusal :=
  .next (spdmSession onDoe (spdmFinish onDoe good) s)
/-- KEY_UPDATE. -/
def spdmKeyUpdate (doe : Bool) (msg : List Byte) (s : State) : State :=
  let p := spdmOf s doe
  if p.session.isNone ∨ ¬ p.finished then spdmError doe 4 s
  else spdmAnswer doe 0x69 (byteAt msg 2) (byteAt msg 3) [] 0 (modSpdm doe (fun p => { p with keyUpdates := p.keyUpdates + 1 }) s)
/-- SPDM_KEY_UPDATE (R489). -/
def execSpdmKeyUpdate (onDoe : Bool) (msg : List Byte) (s : State) : Host.Outcome State Fault Refusal :=
  .next (spdmSession onDoe (spdmKeyUpdate onDoe msg) s)
/-- END_SESSION. -/
def spdmEnd (doe : Bool) (s : State) : State :=
  if (spdmOf s doe).session.isNone then spdmError doe 4 s
  else spdmAnswer doe 0x6C 0 0 [] 0 (modSpdm doe (fun p => { p with session := none, finished := false }) s)
/-- SPDM_END_SESSION (R489). -/
def execSpdmEndSession (onDoe : Bool) (_msg : List Byte) (s : State) : Host.Outcome State Fault Refusal :=
  .next (spdmSession onDoe (spdmEnd onDoe) s)

/-! Link IDE (R490; object identifiers of IDE_KM, log 13). -/

/-- An IDE_KM message within the session on DOE: keys are programmed, the stream starts, or it stops. -/
def ideKm (msg : List Byte) (s : State) : State :=
  let p := s.sec.doe
  let answer (bs : List Byte) (t : State) : State :=
    let d := draw t
    spdmSend true ([0] ++ bs ++ (List.range 5).map (Config.spdmBody d.1)) d.2
  if ¬ spdmUp s true ∨ p.session.isNone ∨ ¬ p.finished then s
  else match byteAt msg 1 with
    | 0 => answer [1] s
    | 2 => answer [3] (modEp (fun e => { e with ide := if e.ide = .secure then .secure else .keyed }) s)
    | 4 => answer [6] (modEp (fun e => { e with ide := if e.ide = .keyed then .secure else e.ide }) s)
    | 5 => answer [6] (modEp (fun e => { e with ide := .none }) s)
    | _ => s
/-- IDE_KM (R490). -/
def execIdeKm (msg : List Byte) (s : State) : Host.Outcome State Fault Refusal := .next (ideKm msg s)
/-- The integrity check of a TLP on the stream fails. -/
def ideFails (stream : Nat) (s : State) : State :=
  if s.host.ep.ide ≠ .secure then s else logPkg 0x1003 false stream 0 (modEp (fun e => { e with ide := .insecure }) s)
/-- IDE_INTEGRITY_FAILURE (R490). -/
def execIdeIntegrityFailure (stream : Byte) (s : State) : Host.Outcome State Fault Refusal := .next (ideFails stream.toNat s)

end Sys2Proof.Machine
end

