-- ==== Sys2Proof/Machine/Sideband.lean ====
section
/-! DEFINITION. The sideband port: the mailbox channel, MCTP control and PLDM (R431 to R433, R466). -/

namespace Sys2Proof.Machine

/-- A message arrives on the type 0x7E channel. A second request before the reply is answered with status 0x0D04. -/
def sidebandMsg (msg : List Word) (s : State) : State :=
  let r : Request := { mbx := .sideband, words := msg, bytes := 4 * msg.length }
  if ¬ s.pins.islOk ∨ s.host.hm.gone ∨ ¬ iod0Reach s then s
  else if (mbxOf s .sideband).st ≠ .free then
    emit (.smbus (bytesOfWords (replyWords r 0x0D04 []))) (totAdd (tHost + 1) 1 (totAdd tHost 1 s))
  else receive r (modMbx .sideband (fun b => { b with st := .posted, req := msg }) s)
/-- SIDEBAND_MAILBOX (R432). -/
def execSidebandMailbox (msg : List Word) (s : State) : Host.Outcome State Fault Refusal := .next (sidebandMsg msg s)

/-- Send a message on the sideband. -/
def sidebandSend (bs : List Byte) (s : State) : State := emit (.smbus bs) (modSb (fun b => { b with reply := bs }) s)

/-! MCTP control (R431; codes of the DMTF specification, log 78). -/

/-- The answer to an MCTP control message: command, completion code and data. -/
def mctpAnswer (s : State) (cmd : Nat) (data : List Byte) : List Byte :=
  match cmd with
  | 1 => if (byteAt data 1 = 0 ∨ byteAt data 1 = 255) ∧ byteAt data 0 < 2 then [2] else [0, 0, b8 s.host.sb.eid, 0]
  | 2 => [0, b8 s.host.sb.eid, 0, 0]
  | 4 => [0, 1, 0xF1, 0xF3, 0xF1, 0]
  | 5 => [0, 4, 0, 1, 5, 0x7E]
  | 6 => if byteAt data 0 = 0 then [0, 255, 0, 0x1F, 0x8B, 0, 0] else [2]
  | _ => [5]
/-- An MCTP control message: Set Endpoint ID takes the identifier that it gives. -/
def mctpMsg (cmd : Nat) (data : List Byte) (s : State) : State :=
  if ¬ s.pins.islOk ∨ ¬ iod0Reach s then s
  else
    let e := byteAt data 1
    let s1 := if cmd = 1 ∧ byteAt data 0 < 2 ∧ e ≠ 0 ∧ e ≠ 255 then modSb (fun b => { b with eid := e }) s else s
    sidebandSend ([0, b8 cmd] ++ mctpAnswer s1 cmd data) s1
/-- MCTP_CONTROL (R431). -/
def execMctpControl (cmd : Byte) (data : List Byte) (s : State) : Host.Outcome State Fault Refusal := .next (mctpMsg cmd.toNat data s)

/-! PLDM (R433; codes of the DMTF specification, log 78). -/

/-- The package serves with less than it was made with (R372). -/
def derated (s : State) : Bool :=
  decide (clustersIn s < 48) || s.tiers.pcsOut != [] || s.health.links != [] || s.host.hm.redundancyLost || s.health.iod0Out ||
    ((List.range 18).any fun p => (portOf s p).spared.isSome || (portOf s p).narrowed.isSome || (portOf s p).dead) ||
    ((List.range 4).any fun d => (chmOf s d).out) || s.health.spares != []
/-- Reading of a sensor. -/
def sensorReading (s : State) (n : Nat) : Nat :=
  if n = 11 then shownState s
  else if n = 12 then (if s.host.hm.failed then 2 else b2n (derated s))
  else s.host.sb.sensors.getD (n - 1) 0
/-- The answer to a PLDM request: completion code and what the manual gives, with the free bytes of what it leaves to PLDM. -/
def pldmAnswer (s : State) (k ty cmd : Nat) (data : List Byte) : List Byte :=
  let rest (n : Nat) : List Byte := (List.range n).map (Config.spdmBody k)
  let id := byteAt data 0 + 256 * byteAt data 1
  match ty, cmd with
  | 0, 2 => 0 :: rest 1
  | 0, 3 => 0 :: rest 9
  | 0, 4 => [0, 0x15, 0, 0, 0, 0, 0, 0, 0]
  | 0, 5 => 0 :: rest 32
  | 2, 0x11 => if 1 ≤ id ∧ id ≤ 10 then [0, 5, 0, 0, 0, 0, 0] ++ natBytes 4 (sensorReading s id) else [0x80]
  | 2, 0x21 => if id = 11 ∨ id = 12 then [0, 1, 0, b8 (sensorReading s id), 0, 0] else [0x80]
  | 4, 1 => 0 :: rest 18
  | 4, 2 => 0 :: rest 64
  | _, _ => [5]
/-- A PLDM request of type 0, 2 or 4; the others are not supported. -/
def pldmMsg (ty cmd : Nat) (data : List Byte) (s : State) : State :=
  if ¬ s.pins.islOk ∨ ¬ firmwareRuns s ∨ ¬ iod0Reach s then s
  else
    let d := draw s
    let ans := if ty = 0 ∨ ty = 2 ∨ ty = 4 then pldmAnswer s d.1 ty cmd data else [0x20]
    sidebandSend ([1, b8 ty, b8 cmd] ++ ans) d.2
/-- PLDM_REQUEST (R433). -/
def execPldmRequest (ty cmd : Byte) (data : List Byte) (s : State) : Host.Outcome State Fault Refusal :=
  .next (pldmMsg ty.toNat cmd.toNat data s)

/-- How far a sensor's reading lies beyond its thresholds: 0, 1 warning, 2 critical. The temperatures have those of R452, the input
voltage those of R439; the others have none (log 79). -/
def sensorLevel (s : State) (n v : Nat) : Nat :=
  let zone (z : Nat) : Nat := if (zoneLimits s z).2.2 ≤ v then 2 else b2n (decide ((zoneLimits s z).1 ≤ v))
  if n = 2 then inputKind (1000 * v)
  else if 4 ≤ n ∧ n ≤ 9 then zone (n - 4)
  else if n = 10 then (if 100 ≤ v then 2 else b2n (decide (92 ≤ v))) else 0
/-- The sensors are refreshed; one that crosses a threshold pulls SMB_ALERT_N low. -/
def sensorsIn (rs : List Nat) (s : State) : State :=
  if ¬ s.pins.islOk ∨ ¬ iod0Reach s then s
  else
    let now := ((List.range 10).map (· + 1)).flatMap fun n =>
      let l := sensorLevel s n (rs.getD (n - 1) 0)
      (if 1 ≤ l then [n] else []) ++ if l = 2 then [16 + n] else []
    let new := now.any fun n => !(decide (n ∈ s.host.sb.crossed))
    modSb (fun b => { b with sensors := rs, crossed := now, alert := b.alert || new }) s
/-- PLDM_SENSOR_UPDATE (R433, R466). -/
def execPldmSensorUpdate (readings : List Nat) (s : State) : Host.Outcome State Fault Refusal := .next (sensorsIn readings s)
/-- SMB_ALERT_RESPONSE (R466). -/
def execSmbAlertResponse (s : State) : Host.Outcome State Fault Refusal := .next (modSb (fun b => { b with alert := false }) s)

end Sys2Proof.Machine
end

