-- ==== Sys2Proof/Machine/Careen.lean ====
section
/-! DEFINITION. Careen self-test (R500 to R513). -/

namespace Sys2Proof.Machine

/-! Results (R509, R513). -/

/-- The words of a result record. -/
def findingWords (kind run : Nat) (f : Finding) : List Word :=
  [w32 (f.test % 256 + 256 * (f.outcome % 8) + 2048 * kind), w32 f.element, w32 f.address, w32 f.offset, w32 (f.bit % 256),
   f.expected, f.observed, w32 run]
/-- Put a record into the ring: at its end, or over the oldest record that has been applied; none when there is no such place. -/
def ringPut (ring : List (List Word)) (r : List Word) : Option (List (List Word)) :=
  if ring.length < 4096 then some (ring ++ [r])
  else (ring.findIdx? fun x => bitOf (wordAt x 0) 13).map fun i => setAt ring i r
/-- The number under which a failure is reported once in a run: test and element. -/
def failKey (f : Finding) : Nat := f.test % 256 * 2 ^ 32 + f.element
/-- Record one finding of a run: the run's counts, and the state. -/
def recordFinding (q : CareenRun × State) (f : Finding) : CareenRun × State :=
  let run := q.1
  let s := q.2
  let fail := decide (f.outcome = 1)
  let run1 := { run with
    fails := run.fails + b2n fail, deferred := run.deferred + b2n (f.outcome == 2)
    named := if fail ∧ failKey f ∉ run.named then run.named ++ [failKey f] else run.named }
  let s1 := if fail ∧ failKey f ∉ run.named then logPkg 0x1103 false f.element f.test s else s
  if f.outcome < 1 ∨ 4 < f.outcome then q
  else match ringPut s.car.ring (findingWords run.kind run.id f) with
    | some ring => ({ run1 with records := run1.records + 1 }, modCar (fun c => { c with ring }) s1)
    | none =>
      if ¬ fail then (run1, s1)
      else
        let n := run1.dropped + 1
        ({ run1 with dropped := n }, logPkg 0x1104 false f.element n
          (modCar (fun c => { c with dropped := c.dropped ++ [(f.test % 256, f.element)] }) s1))
/-- Record the findings of a phase or run. -/
def recordAll (fs : List Finding) (run : CareenRun) (s : State) : CareenRun × State := fs.foldl recordFinding (run, s)

/-- The summary of a run. -/
def summaryWords (s : State) (r : CareenRun) (complete : Bool) : List Word :=
  [w32 r.id, w32 (r.kind + 4 * b2n complete + 256 * min r.deferred 255)] ++ w64 (r.startNs / 10 ^ 9) ++
    w64 ((s.now - r.startNs) / 1000) ++ [w32 r.records, w32 r.fails, w32 r.dropped, w32 r.peak] ++ List.replicate 6 0
/-- The summary is written last, and the run reported finished. -/
def finishRun (r : CareenRun) (complete : Bool) (s : State) : State :=
  logPkg 0x1102 false r.fails (b2n complete)
    (modCar (fun c => { c with summaries := tset c.summaries r.kind (summaryWords s r complete) }) s)
/-- A new run: its number, and the report that it has started. -/
def newRun (kind tests elem : Nat) (block : Nat × Nat) (s : State) : CareenRun × State :=
  let id := (s.car.runId + 1) % 2 ^ 32
  ({ kind, id, tests, element := elem, block, startNs := s.now, peak := 0 },
    logPkg 0x1101 false kind id (modCar (fun c => { c with runId := id }) s))

/-! careen.report (R501, R502, R511). -/

/-- careen.report SUMMARY. -/
def careenSummary (r : Request) (s : State) : State :=
  reply r 0 (tgetD s.car.summaries (fld (argOf r 1) 0 2) (List.replicate 16 0)) s
/-- CAREEN_SUMMARY (R511). -/
def execCareenSummary (m : MbxId) (s : State) : Host.Outcome State Fault Refusal := .next (takeSub m 0x0A01 1 careenSummary s)
/-- careen.report RESULTS. -/
def careenResults (r : Request) (s : State) : State :=
  let first := fld (argOf r 1) 0 12
  let rs := slice s.car.ring first 7
  reply r 0 ([w32 s.car.ring.length, w32 (first + rs.length)] ++ rs.flatten) s
/-- CAREEN_RESULTS (R511). -/
def execCareenResults (m : MbxId) (s : State) : Host.Outcome State Fault Refusal := .next (takeSub m 0x0A01 2 careenResults s)

/-- Every die's ratio goes to 33. -/
def pinRatios (s : State) : State := modDv (fun d => { d with goal := [33, 33, 33, 33] }) s
/-- An in-service test is ended; the shutdown run covers its block (R507). -/
def endInService (s : State) : State :=
  match s.car.inService with
  | none => modCar (fun c => { c with queue := [] }) s
  | some r => finishRun r false (modCar (fun c => { c with inService := none, queue := [] }) s)
/-- The shutdown run begins: fabric and SRAM are given up, droop raises taken back, ports go idle. -/
def shutdownBegins (s : State) : State :=
  let s1 := loseSram (forgetFabric (portsOff (modDv (fun d => { d with raise := [0, 0, 0, 0] }) s)))
  let q := newRun 0 0 0 (0, 0) s1
  modCar (fun c => { c with run := some q.1, starting := false }) q.2
/-- An accepted SHUTDOWN goes on: the drain, the departure, and the run once every die is at ratio 33. -/
def careenOn (s : State) : State :=
  if ¬ s.car.starting ∨ ¬ drained s then s
  else
    let s1 := if s.host.hm.joined then depart s else s
    if s1.host.hm.joined ∨ s1.dv.cur.any (· != 33) then s1 else shutdownBegins s1
/-- careen.report SHUTDOWN. -/
def careenShutdown (r : Request) (s : State) : State :=
  if s.car.run.isSome ∨ s.car.starting then reply r 0x1102 [] s
  else if ¬ s.pw.rails ∨ s.sec.lifecycle = 4 then reply r 0x1103 [] s
  else if stateRefusals s .drydock ≠ 0 then reply r 0x0E01 [w32 (stateRefusals s .drydock)] s
  else careenOn (modCar (fun c => { c with starting := true }) (pinRatios (endInService (reply r 0 [] s))))
/-- CAREEN_SHUTDOWN (R501). -/
def execCareenShutdown (m : MbxId) (s : State) : Host.Outcome State Fault Refusal := .next (takeSub m 0x0A01 3 careenShutdown s)

/-- The engine runs in Manufacturing and Returned only. -/
def engineOpen (s : State) : Bool := s.sec.lifecycle == 0 || s.sec.lifecycle == 3
/-- careen.report RUN: with an empty bitmap the run ends at once. -/
def careenRun (r : Request) (s : State) : State :=
  let tests := fld (argOf r 1) 1 12
  if ¬ engineOpen s then reply r 0x1101 [] s
  else if s.car.run.isSome ∨ s.car.starting then reply r 0x1102 [] s
  else if ¬ s.pw.rails then reply r 0x1103 [] s
  else
    let q := newRun 2 (2 * tests) (argOf r 2).toNat (0, 0) s
    if tests = 0 then reply r 0 [] (finishRun q.1 true q.2)
    else
      let s1 := loseSram (portsOff (pinRatios (reply r 0 [] q.2)))
      let s2 := if bitOf (argOf r 1) 9 then modEp (fun e => { e with loopback := true }) (if s1.host.ep.linkUp then linkDown s1 else s1) else s1
      modCar (fun c => { c with run := some q.1 }) s2
/-- CAREEN_RUN (R511). -/
def execCareenRun (m : MbxId) (s : State) : Host.Outcome State Fault Refusal := .next (takeSub m 0x0A01 4 careenRun s)
/-- careen.report ABORT. -/
def careenAbort (r : Request) (s : State) : State :=
  reply r 0 [] (modCar (fun c => { c with run := c.run.map fun x => { x with abort := true } }) s)
/-- CAREEN_ABORT (R511). -/
def execCareenAbort (m : MbxId) (s : State) : Host.Outcome State Fault Refusal := .next (takeSub m 0x0A01 5 careenAbort s)
/-- careen.report CLEAR. -/
def careenClear (r : Request) (s : State) : State :=
  if ¬ engineOpen s then reply r 0x1101 [] s else reply r 0 [] (modCar (fun c => { c with ring := [], summaries := [] }) s)
/-- CAREEN_CLEAR (R511). -/
def execCareenClear (m : MbxId) (s : State) : Host.Outcome State Fault Refusal := .next (takeSub m 0x0A01 6 careenClear s)

/-! The shutdown run (R504): phases 0 to 3 SRAM waves, 4 to 7 pattern waves, 8 and 9 HBM waves, 10 PLL, converter and thermal checks,
11 Jeren loopbacks, 12 PCI Express loopback, 13 results. -/

/-- The shutdown run ends in Drydock. -/
def shutdownEnds (r : CareenRun) (s : State) : State :=
  let done := !r.abort
  let s1 := modBoot (fun b => { b with quickOk := done }) (modCar (fun c => { c with run := none }) (finishRun r done s))
  arriveAt .drydock (goDown .drydock (modEp (fun e => { e with loopback := false }) s1))
/-- A phase is complete. -/
def phaseDone (fs : List Finding) (peak : Nat) (s : State) : State :=
  match s.car.run with
  | none => careenOn s
  | some r =>
    if r.kind ≠ 0 then s
    else
      let q := recordAll fs { r with peak := max r.peak peak } s
      if r.abort ∨ 13 ≤ r.phase then shutdownEnds q.1 q.2
      else
        let s1 := if r.phase = 11 then modEp (fun e => { e with loopback := true })
          (if q.2.host.ep.linkUp then linkDown q.2 else q.2) else q.2
        modCar (fun c => { c with run := some { q.1 with phase := r.phase + 1 } }) s1
/-- CAREEN_PHASE_DONE (R504). -/
def execCareenPhaseDone (findings : List Finding) (peak : Nat) (s : State) : Host.Outcome State Fault Refusal :=
  .next (phaseDone findings peak s)

/-- The engine run has ended: the package is left in Quayside. -/
def engineDone (fs : List Finding) (peak : Nat) (s : State) : State :=
  match s.car.run with
  | none => s
  | some r =>
    if r.kind ≠ 2 then s
    else
      let q := recordAll fs { r with peak := max r.peak peak } s
      let s1 := modCar (fun c => { c with run := none }) (finishRun q.1 (!r.abort) q.2)
      enterState .quayside (portsDetect (modEp (fun e => { e with loopback := false }) s1))
/-- CAREEN_ENGINE_RUN_DONE (R500). -/
def execCareenEngineRunDone (findings : List Finding) (peak : Nat) (s : State) : Host.Outcome State Fault Refusal :=
  .next (engineDone findings peak s)

/-! In-service tests (R506 to R508). -/

/-- Tests of an isolation. -/
def testsOf (kind : Nat) : List Nat :=
  match kind with
  | 1 | 2 => [1, 2, 3, 4]
  | 6 | 262 => [6]
  | 7 | 8 | 9 => [8]
  | 11 => [5]
  | _ => [0]
/-- Test draw in half watts. -/
def testDraw (kind : Nat) : Nat :=
  match kind with
  | 1 | 11 => 10
  | 2 => 90
  | 6 => 4
  | 7 => 1
  | _ => 4
/-- The unassigned remainder of the partition pool holds the draw of a test. -/
def testPower (s : State) (kind : Nat) : Bool :=
  let used := ((List.range 32).map fun p => recPower (bank s p)).sum
  decide (65536 * testDraw kind ≤ 2 * (capNow s * s.pw.frCompute * (256 - used)))
/-- A block that cannot be tested is recorded so, in a run of its own. -/
def recordUntested (b : Nat × Nat) (outcome : Nat) (s : State) : State :=
  let q := newRun 1 0 b.2 b s
  let fs := (testsOf b.1).map fun t =>
    ({ test := t, outcome, element := b.2, address := 0, offset := 0, bit := 0, expected := 0, observed := 0 } : Finding)
  let q1 := recordAll fs q.1 q.2
  finishRun q1.1 true q1.2
/-- The next in-service test starts once it has its power and its die is at ratio 33. -/
def inServiceStart (s : State) : State :=
  match s.car.queue with
  | [] => s
  | b :: rest =>
    if s.car.inService.isSome ∨ s.car.run.isSome ∨ s.car.starting ∨ ¬ s.host.hm.ready ∨ s.host.hm.gone ∨ s.sec.lifecycle = 4 then s
    else
      let s1 := modCar (fun c => { c with queue := rest }) s
      let ratio := ((blockDie b).map fun d => s.dv.cur.getD d 33).getD 33
      if b.1 = 12 ∨ b.1 = 262 then recordUntested b 3 s1
      else if (blockDie b).isSome ∧ s.pw.mode ∧ s.pw.ratio ≠ 33 then recordUntested b 2 s1
      else if ¬ testPower s b.1 ∨ ratio < 33 then s
      else
        let q := newRun 1 0 b.2 b s1
        let s2 := modCar (fun c => { c with inService := some { q.1 with peak := s.dv.draw } }) q.2
        match blockDie b with
        | none => s2
        | some d => modDv (fun v => { v with cur := setAt v.cur d 33, goal := setAt v.goal d 33 }) s2
/-- CAREEN_INSERVICE_START (R506, R507). -/
def execCareenInserviceStart (s : State) : Host.Outcome State Fault Refusal := .next (inServiceStart s)

/-- The block is re-initialised before its fence opens: the SRAM of a cluster reads zero and its accumulators are clear. A core that
was spared has no number, and its memory no address. -/
def reinit (b : Nat × Nat) (s : State) : State :=
  if b.1 ≠ 2 then s
  else
    let k := b.2
    { s with x := { s.x with
        sram := memClear (memClear s.x.sram (coreAddr (8 * k) 0) (8 * 2 ^ 22)) (clusterAddr k 0) (2 ^ 24)
        loose := (s.x.loose.flatMap (cutLoose (coreAddr (8 * k) 0) (8 * 2 ^ 22))).flatMap (cutLoose (clusterAddr k 0) (2 ^ 24))
        cores := s.x.cores.map fun e => if e.1 / 8 = k then (e.1, { failed := e.2.failed }) else e } }
/-- An in-service test has ended; `repairable` says that its block's own spares can repair every fault found. -/
def inServiceDone (fs : List Finding) (repairable : Bool) (s : State) : State :=
  match s.car.inService with
  | none => s
  | some r =>
    let q := recordAll fs r s
    let s1 := finishRun q.1 true (modCar (fun c => { c with
      inService := none, repairable := if repairable then c.repairable ++ [r.block] else c.repairable }) q.2)
    reinit r.block s1
/-- CAREEN_INSERVICE_DONE (R508). -/
def execCareenInserviceDone (findings : List Finding) (repairable : Bool) (s : State) : Host.Outcome State Fault Refusal :=
  .next (inServiceDone findings repairable s)

end Sys2Proof.Machine
end

