-- ==== Sys2Proof/Machine/Stats.lean ====
section
/-! DEFINITION. stats.read and log.read (R395, R396, R426 to R428, R527). -/

namespace Sys2Proof.Machine

/-- 64-bit numbers as words. -/
def dwords (ns : List Nat) : List Word := ns.flatMap w64

/-- Cumulative totals of a partition in KIND 1 order. -/
def cumWords (s : State) (p : Nat) : List Word :=
  dwords ((List.range nCounters).map fun k => tgetD (partOf s p).stat.cum k 0)
/-- Package totals in KIND 3 order. -/
def totWords (s : State) : List Word := dwords ((List.range nTotals).map fun k => tgetD s.tot k 0)

/-- Occupancy (KIND 5): resident and swapped MiB, free slots, reserved and unallocated units. -/
def occupancy (s : State) (p : Nat) : List Word :=
  let k := (partOf s p).kv
  let units (loc1 : Bool) : Nat := (k.slots.map fun e =>
    ((e.2.pages.filter fun q => q.2.valid && (q.2.loc == 1) == loc1).map fun q => unitsOf s p e.1 q.1).sum).sum
  [w32 (mibOf (units false) 256), w32 (mibOf (units true) 256), w32 (65536 - k.slots.length), w32 ((k.slots.map fun e => e.2.reserved).sum)]

/-- The long-run record (KIND 6). -/
def longRun (s : State) : List Word :=
  let l := s.host.log
  [w32 s.boot.startType, w32 l.coldStarts] ++ dwords s.aclk ++ dwords [l.overwritten, l.protOverwritten, l.rateDropped, s.warmRestarts]

/-- The latched record that a request names: none when it is not in the ring. -/
def latchedOf (s : State) (p step : Nat) : Option Latched :=
  if step = 2 ^ 64 - 1 then (partOf s p).stat.latch.getLast? else (partOf s p).stat.latch.find? fun l => l.id = step

/-- The reply of stats.read for an item. -/
def statsReply (r : Request) (item : List Word) (s : State) : State :=
  let first := fld (argOf r 3) 0 16
  reply r 0 ([w32 item.length, w32 first] ++ slice item first 60) s

/-- stats.read. -/
def statsRead (r : Request) (s : State) : State :=
  let p := partArg r
  let kind := fld (argOf r 0) 0 3
  let step := dwordAt r.words 3
  if r.mbx = .sideband ∧ kind ≠ 3 ∧ kind ≠ 6 then reply r 0x0D04 [] s
  else match kind with
    | 0 =>
      match latchedOf s p step with
      | some l => statsReply r l.words (modStat p (fun t => { t with
          latch := t.latch.map fun x => if x.id = l.id then { x with seen := true } else x }) s)
      | none => if step = 2 ^ 64 - 1 then statsReply r [] s else reply r 0x0C0C [] s
    | 1 => statsReply r (cumWords s p) s
    | 2 => statsReply r (dwords ((List.range nCounters).map fun k => (partOf s p).cfg.openSnap.getD k 0)) s
    | 3 => statsReply r (totWords s) s
    | 4 => statsReply r (fbWords s p ((partOf s p).run.committed + 1)) s
    | 5 => statsReply r (occupancy s p) s
    | _ => statsReply r (longRun s) s

/-- STATS_READ. -/
def execStatsRead (m : MbxId) (s : State) : Host.Outcome State Fault Refusal := .next (takeCmd m 0x0601 statsRead s)

/-- The words of an event record. -/
def logRecWords (l : LogRec) : List Word :=
  [w32 (l.code + 65536 * b2n l.fault)] ++ w64 l.seq ++ w64 l.time ++ (List.range 6).map (wordAt l.payload)

/-- SEQ of the next record. -/
def nextSeq (s : State) : Nat := s.host.log.coldStarts * 2 ^ 48 + s.host.log.next

/-- log.read. -/
def logRead (r : Request) (s : State) : State :=
  let ring := if bitOf (argOf r 0) 0 then s.host.log.prot else s.host.log.main
  let first := dwordAt r.words 3
  let n := fld (argOf r 3) 0 3
  if 5 < n then reply r 0x0D09 [] s
  else
    let at_ := ring.filter fun l => decide (first ≤ l.seq)
    let next := ((at_.drop n).head?.map fun l => l.seq).getD (nextSeq s)
    let lost := match ring.head? with
      | some l => decide (first < l.seq)
      | none => false
    let out := at_.take n
    reply r 0 (w64 next ++ [w32 (out.length + 256 * b2n lost)] ++ out.flatMap logRecWords) s

/-- LOG_READ. -/
def execLogRead (m : MbxId) (s : State) : Host.Outcome State Fault Refusal := .next (takeCmd m 0x0602 logRead s)

end Sys2Proof.Machine
end

