-- ==== Sys2Proof/Machine/Dispatch.lean ====
section
/-! DEFINITION. The dispatch: one arm per command, each one call of its meaning. -/

namespace Sys2Proof.Machine

def exec (i : Instr) (s : State) : Host.Outcome State Fault Refusal :=
  match i with
  | .mbxPost m len => Sys2Proof.Machine.execMbxPost m len s
  | .mbxAck m val => Sys2Proof.Machine.execMbxAck m val s
  | .hmIntStatusClear val => Sys2Proof.Machine.execHmIntStatusClear val s
  | .mbxVfEventClear vf val => Sys2Proof.Machine.execMbxVfEventClear vf val s
  | .hmTimeLoRead => Sys2Proof.Machine.execHmTimeLoRead s
  | .hmLogSeqLoRead => Sys2Proof.Machine.execHmLogSeqLoRead s
  | .registerWrite fn bar2 off val => Sys2Proof.Machine.execRegisterWrite fn bar2 off val s
  | .partOpen m => Sys2Proof.Machine.execPartOpen m s
  | .partClose m => Sys2Proof.Machine.execPartClose m s
  | .imageLoad m dma => Sys2Proof.Machine.execImageLoad m dma s
  | .imageFree m => Sys2Proof.Machine.execImageFree m s
  | .configStage m => Sys2Proof.Machine.execConfigStage m s
  | .configStageFailover m => Sys2Proof.Machine.execConfigStageFailover m s
  | .configSwap m => Sys2Proof.Machine.execConfigSwap m s
  | .configSwapCancel m => Sys2Proof.Machine.execConfigSwapCancel m s
  | .configSet m => Sys2Proof.Machine.execConfigSet m s
  | .configRead m => Sys2Proof.Machine.execConfigRead m s
  | .stepSubmit m seqs input => Sys2Proof.Machine.execStepSubmit m seqs input s
  | .stepQuery m => Sys2Proof.Machine.execStepQuery m s
  | .stepAbort m => Sys2Proof.Machine.execStepAbort m s
  | .kvEvictFree m => Sys2Proof.Machine.execKvEvictFree m s
  | .kvEvictSwap m => Sys2Proof.Machine.execKvEvictSwap m s
  | .statsRead m => Sys2Proof.Machine.execStatsRead m s
  | .logRead m => Sys2Proof.Machine.execLogRead m s
  | .stateSetState m => Sys2Proof.Machine.execStateSetState m s
  | .stateSetCap m => Sys2Proof.Machine.execStateSetCap m s
  | .stateSetFractions m => Sys2Proof.Machine.execStateSetFractions m s
  | .stateSetClock m => Sys2Proof.Machine.execStateSetClock m s
  | .stateSetRead m => Sys2Proof.Machine.execStateSetRead m s
  | .stateSetEnergy m => Sys2Proof.Machine.execStateSetEnergy m s
  | .attestMeasure m => Sys2Proof.Machine.execAttestMeasure m s
  | .attestQuote m => Sys2Proof.Machine.execAttestQuote m s
  | .attestCert m => Sys2Proof.Machine.execAttestCert m s
  | .lcNonce m => Sys2Proof.Machine.execLcNonce m s
  | .lcProvision m => Sys2Proof.Machine.execLcProvision m s
  | .lcSeal m => Sys2Proof.Machine.execLcSeal m s
  | .lcUnseal m => Sys2Proof.Machine.execLcUnseal m s
  | .lcReturn m => Sys2Proof.Machine.execLcReturn m s
  | .lcRetire m => Sys2Proof.Machine.execLcRetire m s
  | .lcKeys m dma => Sys2Proof.Machine.execLcKeys m dma s
  | .fwWrite m dma => Sys2Proof.Machine.execFwWrite m dma s
  | .fwData m => Sys2Proof.Machine.execFwData m s
  | .fwPrefer m => Sys2Proof.Machine.execFwPrefer m s
  | .fwCommit m => Sys2Proof.Machine.execFwCommit m s
  | .weightsBegin m dma => Sys2Proof.Machine.execWeightsBegin m dma s
  | .weightsShard m dma readBackOk => Sys2Proof.Machine.execWeightsShard m dma readBackOk s
  | .weightsFinish m => Sys2Proof.Machine.execWeightsFinish m s
  | .weightsAbort m => Sys2Proof.Machine.execWeightsAbort m s
  | .weightsQuery m => Sys2Proof.Machine.execWeightsQuery m s
  | .weightsGroup m => Sys2Proof.Machine.execWeightsGroup m s
  | .careenSummary m => Sys2Proof.Machine.execCareenSummary m s
  | .careenResults m => Sys2Proof.Machine.execCareenResults m s
  | .careenShutdown m => Sys2Proof.Machine.execCareenShutdown m s
  | .careenRun m => Sys2Proof.Machine.execCareenRun m s
  | .careenAbort m => Sys2Proof.Machine.execCareenAbort m s
  | .careenClear m => Sys2Proof.Machine.execCareenClear m s
  | .fabricJoin m => Sys2Proof.Machine.execFabricJoin m s
  | .sidebandMailbox msg => Sys2Proof.Machine.execSidebandMailbox msg s
  | .mctpControl cmd data => Sys2Proof.Machine.execMctpControl cmd data s
  | .pldmRequest ty cmd data => Sys2Proof.Machine.execPldmRequest ty cmd data s
  | .pldmSensorUpdate readings => Sys2Proof.Machine.execPldmSensorUpdate readings s
  | .smbAlertResponse => Sys2Proof.Machine.execSmbAlertResponse s
  | .spdmGetVersion onDoe msg => Sys2Proof.Machine.execSpdmGetVersion onDoe msg s
  | .spdmGetCapabilities onDoe msg => Sys2Proof.Machine.execSpdmGetCapabilities onDoe msg s
  | .spdmNegotiateAlgorithms onDoe msg => Sys2Proof.Machine.execSpdmNegotiateAlgorithms onDoe msg s
  | .spdmGetDigests onDoe msg => Sys2Proof.Machine.execSpdmGetDigests onDoe msg s
  | .spdmGetCertificate onDoe msg => Sys2Proof.Machine.execSpdmGetCertificate onDoe msg s
  | .spdmChallenge onDoe msg => Sys2Proof.Machine.execSpdmChallenge onDoe msg s
  | .spdmGetMeasurements onDoe msg => Sys2Proof.Machine.execSpdmGetMeasurements onDoe msg s
  | .spdmKeyExchange onDoe msg => Sys2Proof.Machine.execSpdmKeyExchange onDoe msg s
  | .spdmFinish onDoe msg good => Sys2Proof.Machine.execSpdmFinish onDoe msg good s
  | .spdmKeyUpdate onDoe msg => Sys2Proof.Machine.execSpdmKeyUpdate onDoe msg s
  | .spdmEndSession onDoe msg => Sys2Proof.Machine.execSpdmEndSession onDoe msg s
  | .ideKm msg => Sys2Proof.Machine.execIdeKm msg s
  | .ideIntegrityFailure stream => Sys2Proof.Machine.execIdeIntegrityFailure stream s
  | .flrVf n => Sys2Proof.Machine.execFlrVf n s
  | .flrPf => Sys2Proof.Machine.execFlrPf s
  | .hotReset => Sys2Proof.Machine.execHotReset s
  | .pcieLinkDown => Sys2Proof.Machine.execPcieLinkDown s
  | .dmaReadFailure m => Sys2Proof.Machine.execDmaReadFailure m s
  | .nop a => Sys2Proof.Machine.execNop a s
  | .pass a ev => Sys2Proof.Machine.execPass a ev s
  | .gatherDeadlineExpire core => Sys2Proof.Machine.execGatherDeadlineExpire core s
  | .sramScrubDone macroNo bad => Sys2Proof.Machine.execSramScrubDone macroNo bad s
  | .quant a ev => Sys2Proof.Machine.execQuant a ev s
  | .vecAdd a ev => Sys2Proof.Machine.execVecAdd a ev s
  | .vecMul a ev => Sys2Proof.Machine.execVecMul a ev s
  | .vecRowScale a ev => Sys2Proof.Machine.execVecRowScale a ev s
  | .vecRmsNorm a ev => Sys2Proof.Machine.execVecRmsNorm a ev s
  | .vecSiluMul a ev => Sys2Proof.Machine.execVecSiluMul a ev s
  | .vecGelu a ev => Sys2Proof.Machine.execVecGelu a ev s
  | .vecMerge a ev => Sys2Proof.Machine.execVecMerge a ev s
  | .vecConvert a ev => Sys2Proof.Machine.execVecConvert a ev s
  | .attendFull a ev => Sys2Proof.Machine.execAttendFull a ev s
  | .attendPartial a ev => Sys2Proof.Machine.execAttendPartial a ev s
  | .attendMerge a ev => Sys2Proof.Machine.execAttendMerge a ev s
  | .appendWaitTimeout a => Sys2Proof.Machine.execAppendWaitTimeout a s
  | .routeSelect a ev => Sys2Proof.Machine.execRouteSelect a ev s
  | .routeSeal a => Sys2Proof.Machine.execRouteSeal a s
  | .routeGather a ev => Sys2Proof.Machine.execRouteGather a ev s
  | .routeReturn a ev => Sys2Proof.Machine.execRouteReturn a ev s
  | .routeCombine a ev => Sys2Proof.Machine.execRouteCombine a ev s
  | .routePush a ev => Sys2Proof.Machine.execRoutePush a ev s
  | .move a ev => Sys2Proof.Machine.execMove a ev s
  | .windowWait a => Sys2Proof.Machine.execWindowWait a s
  | .windowRelease a => Sys2Proof.Machine.execWindowRelease a s
  | .barrier a => Sys2Proof.Machine.execBarrier a s
  | .stampedeWaveRelease part step bar => Sys2Proof.Machine.execStampedeWaveRelease part step bar s
  | .barrierHangTimeout part step bar => Sys2Proof.Machine.execBarrierHangTimeout part step bar s
  | .expand a => Sys2Proof.Machine.execExpand a s
  | .post a => Sys2Proof.Machine.execPost a s
  | .await a => Sys2Proof.Machine.execAwait a s
  | .endStep a => Sys2Proof.Machine.execEndStep a s
  | .commandComplete cluster id => Sys2Proof.Machine.execCommandComplete cluster id s
  | .probeComplete die mismatch again => Sys2Proof.Machine.execProbeComplete die mismatch again s
  | .rungChunkDone standby fails => Sys2Proof.Machine.execRungChunkDone standby fails s
  | .coldChunkDone standby fails => Sys2Proof.Machine.execColdChunkDone standby fails s
  | .restoreUnitDone fails => Sys2Proof.Machine.execRestoreUnitDone fails s
  | .stepAdmit part => Sys2Proof.Machine.execStepAdmit part s
  | .stepCommit part => Sys2Proof.Machine.execStepCommit part s
  | .streamBegin cluster => Sys2Proof.Machine.execStreamBegin cluster s
  | .streamLanded cluster buf bad => Sys2Proof.Machine.execStreamLanded cluster buf bad s
  | .hbmReadDone pc row lost outcome => Sys2Proof.Machine.execHbmReadDone pc row lost outcome s
  | .refetchDone idx => Sys2Proof.Machine.execRefetchDone idx s
  | .hbmRowRepairDone idx spareLeft => Sys2Proof.Machine.execHbmRowRepairDone idx spareLeft s
  | .pcTrainingLost pc => Sys2Proof.Machine.execPcTrainingLost pc s
  | .frameMoveDone idx => Sys2Proof.Machine.execFrameMoveDone idx s
  | .swapOutPageDone part => Sys2Proof.Machine.execSwapOutPageDone part s
  | .swapInPageDone part data => Sys2Proof.Machine.execSwapInPageDone part data s
  | .patrolScrubShard fails => Sys2Proof.Machine.execPatrolScrubShard fails s
  | .rebuildPeerTimeout => Sys2Proof.Machine.execRebuildPeerTimeout s
  | .qpushEntry p => Sys2Proof.Machine.execQpushEntry p s
  | .qpushFragment p => Sys2Proof.Machine.execQpushFragment p s
  | .qpushClose p => Sys2Proof.Machine.execQpushClose p s
  | .sealHangTimeout a => Sys2Proof.Machine.execSealHangTimeout a s
  | .returnRowArrive part cluster step op kind off data => Sys2Proof.Machine.execReturnRowArrive part cluster step op kind off data s
  | .journalRelease p => Sys2Proof.Machine.execJournalRelease p s
  | .load p => Sys2Proof.Machine.execLoad p s
  | .store p => Sys2Proof.Machine.execStore p s
  | .atomic p => Sys2Proof.Machine.execAtomic p s
  | .bulk p => Sys2Proof.Machine.execBulk p s
  | .serviceShardRead p => Sys2Proof.Machine.execServiceShardRead p s
  | .serviceMirrorWrite p => Sys2Proof.Machine.execServiceMirrorWrite p s
  | .serviceMirrorFetch p => Sys2Proof.Machine.execServiceMirrorFetch p s
  | .serviceMirrorAck p => Sys2Proof.Machine.execServiceMirrorAck p s
  | .loadResp p => Sys2Proof.Machine.execLoadResp p s
  | .ack p => Sys2Proof.Machine.execAck p s
  | .atomicResp p => Sys2Proof.Machine.execAtomicResp p s
  | .error p => Sys2Proof.Machine.execError p s
  | .serviceResp p => Sys2Proof.Machine.execServiceResp p s
  | .heartbeat p => Sys2Proof.Machine.execHeartbeat p s
  | .teardown p => Sys2Proof.Machine.execTeardown p s
  | .teardownAck p => Sys2Proof.Machine.execTeardownAck p s
  | .jobMap p => Sys2Proof.Machine.execJobMap p s
  | .jobMapAck p => Sys2Proof.Machine.execJobMapAck p s
  | .join p => Sys2Proof.Machine.execJoin p s
  | .joinReply p => Sys2Proof.Machine.execJoinReply p s
  | .manager p => Sys2Proof.Machine.execManager p s
  | .leave p => Sys2Proof.Machine.execLeave p s
  | .stateCopy p => Sys2Proof.Machine.execStateCopy p s
  | .routeTable p => Sys2Proof.Machine.execRouteTable p s
  | .packetForward p => Sys2Proof.Machine.execPacketForward p s
  | .flitReceive port bytes => Sys2Proof.Machine.execFlitReceive port bytes s
  | .laneSpareDone port good => Sys2Proof.Machine.execLaneSpareDone port good s
  | .controlFlitReceive port bytes => Sys2Proof.Machine.execControlFlitReceive port bytes s
  | .ackStallTimeout port => Sys2Proof.Machine.execAckStallTimeout port s
  | .detectBurstTimer port => Sys2Proof.Machine.execDetectBurstTimer port s
  | .trainingPatternReceived port => Sys2Proof.Machine.execTrainingPatternReceived port s
  | .equaliseDone port badLanes inTime => Sys2Proof.Machine.execEqualiseDone port badLanes inTime s
  | .verifyExchange port pkg farPort life mgr => Sys2Proof.Machine.execVerifyExchange port pkg farPort life mgr s
  | .linkSignalLost port => Sys2Proof.Machine.execLinkSignalLost port s
  | .ackSendTimer plane src job => Sys2Proof.Machine.execAckSendTimer plane src job s
  | .requestResendTimeout plane dst job seq => Sys2Proof.Machine.execRequestResendTimeout plane dst job seq s
  | .mgmtResendTimer idx => Sys2Proof.Machine.execMgmtResendTimer idx s
  | .resultAckTimer plane dst job => Sys2Proof.Machine.execResultAckTimer plane dst job s
  | .heartbeatTimer => Sys2Proof.Machine.execHeartbeatTimer s
  | .heartbeatTimeout pkg => Sys2Proof.Machine.execHeartbeatTimeout pkg s
  | .managerHeartbeatTimeout => Sys2Proof.Machine.execManagerHeartbeatTimeout s
  | .cutOffTimeout => Sys2Proof.Machine.execCutOffTimeout s
  | .teardownDeadline job => Sys2Proof.Machine.execTeardownDeadline job s
  | .electionAnnounceTimer => Sys2Proof.Machine.execElectionAnnounceTimer s
  | .electionSettleTimer => Sys2Proof.Machine.execElectionSettleTimer s
  | .mirrorAckTimeout => Sys2Proof.Machine.execMirrorAckTimeout s
  | .hmJournalEntry words => Sys2Proof.Machine.execHmJournalEntry words s
  | .hmJournalHeartbeatTimer => Sys2Proof.Machine.execHmJournalHeartbeatTimer s
  | .hmJournalTimeout => Sys2Proof.Machine.execHmJournalTimeout s
  | .hmFaultSignal => Sys2Proof.Machine.execHmFaultSignal s
  | .dieLinkFail die iod => Sys2Proof.Machine.execDieLinkFail die iod s
  | .computeDieFail die => Sys2Proof.Machine.execComputeDieFail die s
  | .iodLinkFail => Sys2Proof.Machine.execIodLinkFail s
  | .iod0Fail => Sys2Proof.Machine.execIod0Fail s
  | .voltageSample millivolts => Sys2Proof.Machine.execVoltageSample millivolts s
  | .voltageRecoveryTimer => Sys2Proof.Machine.execVoltageRecoveryTimer s
  | .inputBelow30V millivolts => Sys2Proof.Machine.execInputBelow30V millivolts s
  | .holdupExhausted => Sys2Proof.Machine.execHoldupExhausted s
  | .rootClockLost ppm => Sys2Proof.Machine.execRootClockLost ppm s
  | .thermalSample temps => Sys2Proof.Machine.execThermalSample temps s
  | .powerControlInterval draw domains parts => Sys2Proof.Machine.execPowerControlInterval draw domains parts s
  | .energySample input loss parts queues => Sys2Proof.Machine.execEnergySample input loss parts queues s
  | .boostStep die => Sys2Proof.Machine.execBoostStep die s
  | .pllSlewStep die => Sys2Proof.Machine.execPllSlewStep die s
  | .droopDetected cluster => Sys2Proof.Machine.execDroopDetected cluster s
  | .vcoreDecayTimer die => Sys2Proof.Machine.execVcoreDecayTimer die s
  | .powerStateReached => Sys2Proof.Machine.execPowerStateReached s
  | .vinReach38V millivolts => Sys2Proof.Machine.execVinReach38V millivolts s
  | .pkgRstAssert lowNs => Sys2Proof.Machine.execPkgRstAssert lowNs s
  | .pkgRstRelease => Sys2Proof.Machine.execPkgRstRelease s
  | .perstAssert lowNs => Sys2Proof.Machine.execPerstAssert lowNs s
  | .perstRelease => Sys2Proof.Machine.execPerstRelease s
  | .islandRailsGood straps => Sys2Proof.Machine.execIslandRailsGood straps s
  | .bootRomStart => Sys2Proof.Machine.execBootRomStart s
  | .pllLocked => Sys2Proof.Machine.execPllLocked s
  | .firmwareHandover => Sys2Proof.Machine.execFirmwareHandover s
  | .hbmTrainingDone failed => Sys2Proof.Machine.execHbmTrainingDone failed s
  | .hardRepairsDone noSpare => Sys2Proof.Machine.execHardRepairsDone noSpare s
  | .careenPhaseDone findings peak => Sys2Proof.Machine.execCareenPhaseDone findings peak s
  | .careenInserviceStart => Sys2Proof.Machine.execCareenInserviceStart s
  | .careenInserviceDone findings repairable => Sys2Proof.Machine.execCareenInserviceDone findings repairable s
  | .logRateSecond => Sys2Proof.Machine.execLogRateSecond s
  | .stateCopyEcho p => Sys2Proof.Machine.execStateCopyEcho p s
  | .pcieLinkUp => Sys2Proof.Machine.execPcieLinkUp s
  | .busMasterEnableWrite fn enable => Sys2Proof.Machine.execBusMasterEnableWrite fn enable s
  | .careenEngineRunDone findings peak => Sys2Proof.Machine.execCareenEngineRunDone findings peak s

end Sys2Proof.Machine
end

