-- ==== Sys2Proof/Machine/Tick.lean ====
section
/-! DEFINITION. What passes with time when no command waits: one period of the 100 MHz root (R26, R403, R459, R527). -/

namespace Sys2Proof.Machine

/-- Times and cycles of 10 ns: the time in each state, the boost and throttle times, and the ACLK cycles of each die, which run in
Run and Quayside (R444, R459, R527). -/
def countTime (s : State) : State :=
  let aclkRuns := s.pw.rails && (s.pw.st == .run || s.pw.st == .quayside)
  let s1 := totAdd (tPower + 3 + pstateCode s.pw.st) 10 s
  let s2 := if aclkRuns ∧ s.dv.cur.any (fun c => decide (33 < c)) then totAdd (tPower + 8) 10 s1 else s1
  let s3 := if s.dv.throttled = [] then s2 else totAdd (tPower + 9) 10 s2
  if aclkRuns then { s3 with aclk := (List.range 4).map fun d => (s.aclk.getD d 0 + s.dv.cur.getD d 33) % 2 ^ 64 } else s3
/-- HM.ALIVE advances every 10 microseconds while an instance runs (R403). -/
def countAlive (s : State) : State :=
  if firmwareRuns s ∧ s.now % 10000 = 0 then modHm (fun h => { h with alive := h.alive + 1 }) s else s
/-- 10 ns pass: times advance, and what the package does of itself once its conditions hold goes on. -/
def tick (s : State) : State :=
  if s.boot.stage = .unpowered then s
  else
    let s1 := countAlive (countTime { s with now := s.now + 10 })
    if firmwareRuns s1 then careenOn (stopOn (moveOn (pumpStreams s1))) else s1

end Sys2Proof.Machine
end

