-- ==== Sys2Proof/Safety.lean ====
section
/-! DEFINITION. What counts as a safe run, and the invariants of the state, in the terms that statements use. -/

namespace Sys2Proof.Machine

/-- The step from `s` goes on: it neither faults nor is refused. -/
def Safe (s : State) : Prop := ∃ t, step s = .next t

/-- The byte memories have their canonical form: SRAM, HBM and the bond store. -/
def MemOk (s : State) : Prop := memWf s.x.sram = true ∧ memWf s.x.hbm = true ∧ memWf s.x.bond = true

/-- The rings and records of fixed size hold no more than the spec gives them: the main log 8,192 records (R523), the protected
region 512 (R524), the repair record 4,096 entries (R370), the careen results 4,096 records (R509). -/
def RingsOk (s : State) : Prop :=
  s.host.log.main.length ≤ 8192 ∧ s.host.log.prot.length ≤ 512 ∧ s.health.repairs.length ≤ 4096 ∧ s.car.ring.length ≤ 4096

/-- The package totals are 64-bit counts (R522), and the cold-start count saturates at 0xFFFF (R525). -/
def CountsOk (s : State) : Prop := (∀ e ∈ s.tot, e.2 < 2 ^ 64) ∧ s.host.log.coldStarts ≤ 0xFFFF

/-- The life-cycle state is one of the five of R493, and a stop of service leads to Provisioned or Returned (R295, R496). -/
def LifeOk (s : State) : Prop :=
  s.sec.lifecycle ≤ 4 ∧ ∀ n r, s.sec.stopping = some (n, r) → n = 1 ∨ n = 3

/-- The package is Retired and no stop of service is under way. -/
def Retired (s : State) : Prop := s.sec.lifecycle = 4 ∧ s.sec.stopping = none

/-- The fuses and the mask that no command writes: serial number, ordering code, stepping, the ROM digest, the remaining fuses and the
Dravroth root key (R403, R481, R488). -/
def FusedAs (s t : State) : Prop :=
  t.sec.serial = s.sec.serial ∧ t.sec.ordering = s.sec.ordering ∧ t.sec.stepping = s.sec.stepping ∧
    t.sec.romDigest = s.sec.romDigest ∧ t.sec.fuses = s.sec.fuses ∧ t.boot.rootKey = s.boot.rootKey

/-- The anti-rollback count is a thermometer of 63 fuses (R486). -/
def RollbackOk (s : State) : Prop := s.boot.rollback ≤ 63

end Sys2Proof.Machine
end

