-- ==== Sys2Proof/Certificates/Slice0/Obligations.lean ====
section
/-! DEFINITION. The statements for the provers. Each says what commands do, by the rules of the manual: its conclusion is the
whole state that follows, or what that state holds, for every state and operands that meet its hypotheses. -/

namespace Sys2Proof.Claim

open Sys2Proof.Machine

/-- The request at the head of the journal is `r`: it was posted on mailbox `m`, carries command `code`, and its reply is
still wanted (R410). -/
def Heads (s : State) (m : MbxId) (code : Nat) (r : Request) : Prop :=
  s.host.journal.head? = some r ∧ r.mbx = m ∧ cmdOf r = code ∧ s.host.hm.gone = false

/-- The state in which the firmware has taken the head of the journal (R410). -/
def taken (s : State) : State := modJournal (fun j => j.drop 1) s

/-- The request that a post of `len` bytes on mailbox `m` makes (R408). -/
def posting (s : State) (m : MbxId) (len : Nat) : Request := { mbx := m, words := (mbxOf s m).req.take (len / 4), bytes := len }

end Sys2Proof.Claim

open Sys2Proof Sys2Proof.Machine Sys2Proof.Claim

/-- A step runs the command at the front of the queue on the state with the queue's rest (R410; log 4). -/
def Obligations.StepRunsFrontCommand : Prop :=
  ∀ (s : State) (c : Instr) (rest : List Instr), step { s with pending := c :: rest } = exec c { s with pending := rest }

/-- On an empty queue a step is one tick of the root clock, and no command runs: nothing happens to an unpowered package; in
one whose firmware does not run, 10 ns of package time pass and only times and cycle counts advance. The tick is the model's
choice (log 4). -/
def Obligations.IdleStepIsOneTick : Prop :=
  ∀ s : State, s.pending = [] →
    (s.boot.stage = .unpowered → step s = .next s) ∧
    (s.boot.stage ≠ .unpowered → firmwareRuns s = false →
      ∃ tot aclk, step s = .next { s with now := s.now + 10, tot := tot, aclk := aclk }) ∧
    ∃ t, step s = .next t ∧ t.pending = []

/-- What the manual gives for reset (R379, R403, R404, R437, R441, R447). -/
def Obligations.ResetValues : Prop :=
  let s := State.reset
  s.host.hm.ready = false ∧ s.host.hm.failed = false ∧ s.host.hm.intStatus = 0 ∧ s.host.hm.intEnable = 0 ∧
    s.host.hm.faultSticky = 0 ∧ s.host.hm.alive = 0 ∧ s.now = 0 ∧ s.pending = [] ∧
    s.pw.cap = 3000 ∧ s.pw.frCompute = 192 ∧ s.pw.frHbm = 40 ∧ s.pw.frIo = 24 ∧ s.pw.mode = false ∧ s.dv.cur = [33, 33, 33, 33] ∧
    (∀ p, (partOf s p).cfg.st = .closed ∧ (partOf s p).vfEvent = 0 ∧ (partOf s p).vfEventEn = 0) ∧
    (∀ m, (mbxOf s m).st = .free ∧ (mbxOf s m).rspBytes = 0 ∧ (mbxOf s m).ignored = false) ∧
    (∀ p, (portOf s p).st = .idle)

/-- The state after reset meets every invariant of Safety.lean. -/
def Obligations.ResetMeetsInvariants : Prop :=
  MemOk State.reset ∧ RingsOk State.reset ∧ CountsOk State.reset ∧ LifeOk State.reset ∧ RollbackOk State.reset

/-- Every step keeps the byte memories in their canonical form: addresses strictly rising, and no entry equal to what an
unlisted byte reads as. -/
def Obligations.StepKeepsMemoryForm : Prop := ∀ s t : State, MemOk s → step s = .next t → MemOk t

/-- Every step keeps the rings and the repair record within their sizes (R370, R509, R523, R524). -/
def Sys2Proof.Claim.StepKeepsRingBounds : Prop := ∀ s t : State, RingsOk s → step s = .next t → RingsOk t

/-- Every step keeps the package totals below 2^64 and the cold-start count at most 0xFFFF (R522, R525). -/
def Sys2Proof.Claim.StepKeepsCountBounds : Prop := ∀ s t : State, CountsOk s → step s = .next t → CountsOk t

/-- Every step keeps a legal life-cycle state, and a Retired package stays Retired (R493). -/
def Obligations.RetiredForever : Prop :=
  ∀ s t : State, LifeOk s → step s = .next t → LifeOk t ∧ (Retired s → Retired t)

/-- No step changes the fuses that identify the package or the ROM mask, and the anti-rollback count, once within its 63
fuses, never falls and never leaves them (R403, R481, R486, R488). -/
def Obligations.StepKeepsFuses : Prop :=
  ∀ s t : State, step s = .next t → FusedAs s t ∧ (RollbackOk s → RollbackOk t ∧ s.boot.rollback ≤ t.boot.rollback)

/-- No command touches the queue, and nothing that has been put out on a link is taken back. -/
def Obligations.CommandsOnlyAddOutputs : Prop :=
  ∀ (c : Instr) (s t : State), exec c s = .next t → t.pending = s.pending ∧ ∃ es, t.out = s.out ++ es

/-- Every step keeps the sizes of the rings and records and the bounds of the counts (R370, R509, R522 to R525). -/
def Obligations.StepKeepsBounds : Prop := StepKeepsRingBounds ∧ StepKeepsCountBounds

/-- A request posted on a free mailbox, when no check turns it away, is counted, journaled after those before it, and the mailbox
is then posted (R408, R410); one posted on a mailbox that is not free is ignored and counted (R408). An acknowledgement frees
an answered mailbox and does nothing to another (R409). -/
def Obligations.MailboxPostAndAck : Prop :=
  ∀ (s : State) (m : MbxId) (len : Nat) (val : Word), s.host.ep.linkUp = true → iod0Reach s = true →
    (m ≠ .sideband → len ≠ 0 → (mbxOf s m).st = .free → s.host.hm.gone = false → postStatus s (posting s m len) = 0 →
      exec (.mbxPost m len) s = .next (modJournal
        (fun j => j ++ [{ posting s m len with due := (replyBound s (posting s m len)).map (s.now + ·) }])
        (hmJournal (posting s m len).words (totAdd tHost 1
          (modMbx m (fun b => { b with st := .posted, ignored := false }) s))))) ∧
    (m ≠ .sideband → len ≠ 0 → (mbxOf s m).st ≠ .free →
      exec (.mbxPost m len) s = .next (totAdd (tHost + 3) 1 (modMbx m (fun b => { b with ignored := true }) s))) ∧
    ((mbxOf s m).st = .answered → bitOf val 0 = true →
      exec (.mbxAck m val) s = .next (modMbx m (fun b => { b with st := .free }) s)) ∧
    ((mbxOf s m).st ≠ .answered ∨ bitOf val 0 = false → exec (.mbxAck m val) s = .next s)

/-- A write of ones clears those bits of HM.INT_STATUS and of MBX.VF_EVENT, and no other bit of either (R11, R403, R405). -/
def Sys2Proof.Claim.WriteOneToClear : Prop :=
  ∀ (s : State) (vf : Fin 32) (val : Word), ∃ t u,
    exec (.hmIntStatusClear val) s = .next t ∧ exec (.mbxVfEventClear vf val) s = .next u ∧
    (∀ i, t.host.hm.intStatus.getLsbD i = (s.host.hm.intStatus.getLsbD i && !val.getLsbD i)) ∧
    t = modHm (fun h => { h with intStatus := t.host.hm.intStatus }) s ∧
    (∀ i, (partOf u vf.val).vfEvent.getLsbD i = ((partOf s vf.val).vfEvent.getLsbD i && !val.getLsbD i)) ∧
    u = modPart vf.val (fun q => { q with vfEvent := (partOf u vf.val).vfEvent }) s

/-- A read of the low word of HM.TIME or HM.LOG_SEQ returns it and latches the high word; both words are those of one moment,
and the read changes nothing else (R403). -/
def Sys2Proof.Claim.LowReadsLatchHigh : Prop :=
  ∀ s : State,
    (s.now < 2 ^ 64 → ∃ t, exec .hmTimeLoRead s = .next t ∧ t.bus.toNat + 2 ^ 32 * t.host.hm.timeHi.toNat = s.now ∧
      t = { modHm (fun h => { h with timeHi := t.host.hm.timeHi }) s with bus := t.bus }) ∧
    (s.host.log.next < 2 ^ 48 → s.host.log.coldStarts ≤ 0xFFFF → ∃ t, exec .hmLogSeqLoRead s = .next t ∧
      t.bus.toNat + 2 ^ 32 * t.host.hm.logSeqHi.toNat =
        (if s.host.hm.ready then s.host.log.coldStarts * 2 ^ 48 + s.host.log.next else 0) ∧
      t = { modHm (fun h => { h with logSeqHi := t.host.hm.logSeqHi }) s with bus := t.bus })

/-- A register write of the host sets the enables, whose reserved bits it ignores, and a word of a free mailbox's request area; a
write to a read-only or unassigned offset does nothing, and no register answers while the link is down (R9, R11, R402 to
R406). -/
def Sys2Proof.Claim.RegisterWrites : Prop :=
  ∀ (s : State) (fn : FnId) (bar2 : Bool) (off : Nat) (n : Fin 32) (k : Fin 8) (val : Word),
    (s.host.ep.linkUp = true →
      exec (.registerWrite .pf false 0x001C val) s =
        .next (modHm (fun h => { h with intEnable := val.setWidth 4 }) s) ∧
      exec (.registerWrite (.vf n) false 0x0008 val) s =
        .next (modPart n.val (fun q => { q with vfEventEn := val.setWidth 4 }) s) ∧
      (∀ i, i < 64 → (mbxOf s (.pf k)).st = .free → (mbxOf s (.pf k)).req.length = 64 →
        exec (.registerWrite .pf false (0x1000 + 0x400 * k.val + 4 * i) val) s =
          .next (modMbx (.pf k) (fun b => { b with req := b.req.set i val }) s)) ∧
      (off ∉ [0x0018, 0x001C] → off < 0x1000 → exec (.registerWrite .pf false off val) s = .next s) ∧
      (0x4000 ≤ off → exec (.registerWrite .pf true off val) s = .next s)) ∧
    (s.host.ep.linkUp = false → exec (.registerWrite fn bar2 off val) s = .next s)

/-- An interrupt condition sets its bit of HM.INT_STATUS; its vector, 8 plus the bit's number, is sent only when the bit was
clear and enabled, the vector is unmasked, and the function's writes can leave; a masked vector becomes pending (R403, R406;
the last condition is PRESUMED, log 80). -/
def Sys2Proof.Claim.InterruptsAreRaisedOnce : Prop :=
  ∀ (s : State) (b : Fin 4), (setInt b.val s).host.hm.intStatus = s.host.hm.intStatus ||| (1#4 <<< b.val) ∧
    (s.host.hm.intStatus.getLsbD b.val = true ∨ s.host.hm.intEnable.getLsbD b.val = false → (setInt b.val s).out = s.out ∧
      (setInt b.val s).host.ep = s.host.ep) ∧
    (s.host.hm.intStatus.getLsbD b.val = false → s.host.hm.intEnable.getLsbD b.val = true → s.host.ep.linkUp = true →
      (bitOf (tgetD s.host.ep.msix (1024 * 32 + (8 + b.val)) {}).ctrl 0 = true → (setInt b.val s).out = s.out ∧
        (1024 * 32 + (8 + b.val)) ∈ (setInt b.val s).host.ep.pending) ∧
      (bitOf (tgetD s.host.ep.msix (1024 * 32 + (8 + b.val)) {}).ctrl 0 = false → 32 ∈ s.host.ep.bme →
        (setInt b.val s).out = s.out ++ [.msix 32 (8 + b.val)]))

/-- A reply echoes TAG, COMMAND and PARTITION, stands in MBX.RSP with its length, and leaves a function's mailbox answered and
the sideband channel free; the package never looks at TAG (R409, R411, R413, R432). -/
def Sys2Proof.Claim.ReplyForm : Prop :=
  ∀ (s : State) (r : Request) (status : Nat) (body : List Word), status < 2 ^ 16 → r.discard = false → iod0Reach s = true →
    (mbxOf (reply r status body s) r.mbx).rsp.take (2 + body.length) = replyWords r status body ∧
    fld (wordAt (replyWords r status body) 0) 0 16 = status ∧ fld (wordAt (replyWords r status body) 0) 16 16 = tagOf r ∧
    fld (wordAt (replyWords r status body) 1) 0 16 = cmdOf r ∧ fld (wordAt (replyWords r status body) 1) 16 5 = partArg r ∧
    (mbxOf (reply r status body s) r.mbx).rspBytes = 4 * (2 + body.length) ∧
    (mbxOf (reply r status body s) r.mbx).st = (if r.mbx = .sideband then .free else .answered) ∧
    (reply r status body s).host.journal = s.host.journal ∧ (reply r status body s).parts = s.parts ∧
    (reply r status body s).x = s.x ∧ (reply r status body s).host.log = s.host.log

/-- The host chooses each request's TAG: two requests that differ in TAG alone pass the same checks. -/
def Obligations.TagIsNeverInterpreted : Prop :=
  ∀ (s : State) (r : Request) (w : Word) (ws : List Word) (tag : BitVec 16) (body : List Word) (status : Nat), r.words = w :: ws →
    postStatus s { r with words := ((tag ++ w.setWidth 16 : BitVec 32)) :: ws } = postStatus s r ∧
    tagOf { r with words := ((tag ++ w.setWidth 16 : BitVec 32)) :: ws } = tag.toNat ∧
    (status < 2 ^ 16 → fld (wordAt (replyWords { r with words := ((tag ++ w.setWidth 16 : BitVec 32)) :: ws } status body) 0) 16 16
      = tag.toNat)

/-- While the package is not ready, or has failed, only stats.read, log.read, attest.get, careen.report and state.set are
answered; every other command that passes the form, function, partition and argument checks gets status 0x0D06. -/
def Sys2Proof.Claim.NotReadyRefuses : Prop :=
  ∀ (s : State) (r : Request), s.host.hm.ready = false ∨ s.host.hm.failed = true → s.boot.stage ≠ .recovery → s.boot.stage ≠ .retired →
    r.bytes % 4 = 0 → 8 ≤ r.bytes → r.bytes ≤ 256 → cmdOf r ∈ commandCodes →
    functionStatus r = 0 → partitionStatus r = 0 → argumentStatus r = 0 → s.car.run = none →
    (cmdOf r ∈ [0x0601, 0x0602, 0x0701, 0x0801, 0x0A01] → postStatus s r = 0) ∧
    (cmdOf r ∉ [0x0601, 0x0602, 0x0701, 0x0801, 0x0A01] → postStatus s r = 0x0D06)

/-- The registers of the BARs: write-one-to-clear, latched pairs, and what a write of a window, a doorbell or any other
offset does (R9, R11, R402 to R406). -/
def Obligations.RegisterRules : Prop := WriteOneToClear ∧ LowReadsLatchHigh ∧ RegisterWrites

/-- The form of a reply, the interrupt it raises, and the refusals of a package that is not ready (R403, R406, R409, R411,
R413, R432). -/
def Obligations.MailboxReplies : Prop := ReplyForm ∧ InterruptsAreRaisedOnce ∧ NotReadyRefuses

/-- part.open opens a closed partition: it takes the swap window, snapshots the cumulative totals, and is Serving at once when its
active bank names an image that it may run; part.close releases the partition's sequences, pages, swap window and held results
once no admitted step is uncommitted, and leaves it Closed (R379, R396, R416). -/
def Obligations.PartitionOpenAndClose : Prop :=
  ∀ (s : State) (m : MbxId) (r : Request),
    (Heads s m 0x0101 r → (partOf s (partArg r)).cfg.st = .closed → dwordAt r.words 2 % 4096 = 0 →
      exec (.partOpen m) s = .next (reply r 0 (w64 s.now) (logEvent 0x0C03 false (partArg r) noOp noStep 1 0
        (modCfg (partArg r) (fun c => { c with
          st := if (recImg s (activeBank (partOf s (partArg r)))).isSome = true ∧ recStandby (activeBank (partOf s (partArg r))) = false
            then .serving else .opened
          swapAddr := dwordAt r.words 2
          swapMib := fld (argOf r 2) 0 24
          openSnap := (List.range nCounters).map fun k => tgetD (partOf s (partArg r)).stat.cum k 0 }) (taken s))))) ∧
    (Heads s m 0x0102 r → flying s (partArg r) = [] → (partOf s (partArg r)).cfg.st = .closed →
      exec (.partClose m) s = .next (reply r 0 [] (taken s))) ∧
    (Heads s m 0x0102 r → flying s (partArg r) = [] → (partOf s (partArg r)).cfg.st ≠ .closed →
      ∃ t, exec (.partClose m) s = .next t ∧ t = reply r 0 [] (closePart (partArg r) false (taken s)) ∧
        (partOf t (partArg r)).cfg.st = .closed ∧ (partOf t (partArg r)).cfg.swapMib = 0 ∧
        (partOf t (partArg r)).kv = {} ∧ (partOf t (partArg r)).run.hold = []) ∧
    (Heads s m 0x0102 r → flying s (partArg r) ≠ [] → exec (.partClose m) s = .next (reply r 0x0C0A [] (taken s)))

/-- image.load keeps an image that passes every check of R130 under a handle that no image has, and image.free drops an image that
no bank names; a refused image leaves nothing (R130, R417). -/
def Obligations.ImageLoadAndFree : Prop :=
  ∀ (s : State) (m : MbxId) (r : Request) (all : List Word),
    (Heads s m 0x0201 r → sealedOk s = true → dwordAt r.words 2 % 64 = 0 → dmaOpen s 32 = true →
      imageBad s (bitOf (argOf r 3) 0) (all.take ((argOf r 2).toNat / 4)) = none →
      storeBytes s + 4 * (all.take ((argOf r 2).toNat / 4)).length ≤ 384 * 2 ^ 20 → s.images.length < 64 →
      ∃ h, h < 64 ∧ tget s.images h = none ∧
        exec (.imageLoad m (some all)) s = .next (reply r 0 [w32 h] (settleStages
          { countRead (argOf r 2).toNat (taken s) with
            free := s.free + 1
            images := tset s.images h { words := all.take ((argOf r 2).toNat / 4)
                                        digest := sha256 (bytesOfWords (all.take ((argOf r 2).toNat / 4)))
                                        standby := bitOf (argOf r 3) 0 } }))) ∧
    (∀ b, Heads s m 0x0201 r → sealedOk s = true → dwordAt r.words 2 % 64 = 0 → dmaOpen s 32 = true →
      imageBad s (bitOf (argOf r 3) 0) (all.take ((argOf r 2).toNat / 4)) = some b →
      exec (.imageLoad m (some all)) s = .next (reply r 0x0501 [w32 b.1, w32 b.2.1, w32 b.2.2]
        (countRead (argOf r 2).toNat (taken s)))) ∧
    (Heads s m 0x0202 r → (tget s.images (fld (argOf r 0) 0 6)).isSome = true → imageUsed s (fld (argOf r 0) 0 6) = false →
      exec (.imageFree m) s =
        .next (reply r 0 [] (settleStages { taken s with images := terase s.images (fld (argOf r 0) 0 6) }))) ∧
    (Heads s m 0x0202 r → (tget s.images (fld (argOf r 0) 0 6)).isSome = true → imageUsed s (fld (argOf r 0) 0 6) = true →
      exec (.imageFree m) s = .next (reply r 0x0D0F [] (taken s)))

/-- config.stage writes a record that passes every check, relocated, into the shadow bank, which becomes Ready; with FAILOVER it
becomes half of a failover set (R350, R381, R385, R387). The frames that the image needs are mapped (R238). -/
def Sys2Proof.Claim.ConfigStaging : Prop :=
  ∀ (s : State) (m : MbxId) (r : Request) (failover : Bool) (b b' : List Word) (sh : Shadow) (u : State),
    Heads s m 0x0301 r → bitOf (argOf r 0) 0 = failover → b = slice r.words 3 56 →
    sealedOk s = true → (partOf s (partArg r)).cfg.shadow ≠ .staged → (partOf s (partArg r)).cfg.shadow ≠ .armed →
    recRingLayout b < 2 → recordOk b = true → claimStatus s (partArg r) b = 0 →
    (recImageValid b = true → ∃ i, recImg s b = some i ∧ imageFits s (partArg r) i.words b = (0, 0, 0) ∧
      relocate s (partArg r) i.words b = some b' ∧ u = mapPartition (partArg r) i.words b (taken s)) →
    (recImageValid b = false → b' = b ∧ u = taken s) →
    sh = (if failover then .armed else .ready) →
    (failover = false →
      exec (.configStage m) s = .next (reply r 0 [] (modCont (fun c => { c with setParts := c.setParts.filter (· != partArg r) })
        (modCfg (partArg r) (fun c => { c with
          ebb := if c.active then b' else c.ebb, flood := if c.active then c.flood else b', shadow := sh }) u)))) ∧
    (failover = true → s.cont.setParts.filter (· != partArg r) = [] →
      exec (.configStageFailover m) s = .next (reply r 0 [] (modCont (fun c => { c with setParts := [partArg r], armed := false })
        (modCfg (partArg r) (fun c => { c with
          ebb := if c.active then b' else c.ebb, flood := if c.active then c.flood else b', shadow := sh }) u))))

/-- config.swap stages the swap of its partitions together and answers; the banks change places as soon as none of them has an
uncommitted step. CANCEL takes every partition linked with the named ones back to Ready (R390, R391, R532). -/
def Sys2Proof.Claim.ConfigSwapping : Prop :=
  ∀ (s : State) (m : MbxId) (r : Request) (p : Nat),
    (Heads s m 0x0302 r → bitOf (argOf r 1) 0 = false → (∀ q ∈ bitmapOf (argOf r 0), (partOf s q).cfg.shadow = .ready) →
      swapOverlaps s (bitmapOf (argOf r 0)) = false → (∀ q ∈ bitmapOf (argOf r 0), swapBlocked s q = false) →
      exec (.configSwap m) s = .next (((bitmapOf (argOf r 0)).take 1).foldl (fun t q => trySwap q t) (reply r 0 [argOf r 0]
        ((bitmapOf (argOf r 0)).foldl (fun t q => modCfg q (fun c => { c with
          shadow := .staged, linked := bitmapOf (argOf r 0), stagedAt := s.now, drained := 0 }) t) (taken s))))) ∧
    (Heads s m 0x0302 r → bitOf (argOf r 1) 0 = false → bitmapOf (argOf r 0) = [p] → (partOf s p).cfg.shadow = .ready →
      swapOverlaps s [p] = false → swapBlocked s p = false →
      ∃ t, exec (.configSwap m) s = .next t ∧ (partOf t p).cfg.ebb = (partOf s p).cfg.ebb ∧
        (partOf t p).cfg.flood = (partOf s p).cfg.flood ∧
        (flying s p = [] → (partOf t p).cfg.active = !(partOf s p).cfg.active ∧ (partOf t p).cfg.shadow = .ready) ∧
        (flying s p ≠ [] → (partOf t p).cfg.active = (partOf s p).cfg.active ∧ (partOf t p).cfg.shadow = .staged)) ∧
    (Heads s m 0x0302 r → bitOf (argOf r 1) 0 = true → (∀ q ∈ bitmapOf (argOf r 0), (partOf s q).cfg.shadow = .staged) →
      exec (.configSwapCancel m) s = .next (reply r 0 [0]
        (((bitmapOf (argOf r 0)).flatMap fun q => (partOf s q).cfg.linked).eraseDups.foldl
          (fun t q => modCfg q (fun c => { c with shadow := .ready, linked := [] }) t) (taken s))))

/-- config.set writes the unpaired bits that its mask names into both banks alike, and refuses a paired bit and a fraction above
256; config.read returns the state of the banks and the 56 words of the one asked for (R388, R389, R418). -/
def Obligations.ConfigSetAndRead : Prop :=
  ∀ (s : State) (m : MbxId) (r : Request) (w : Nat),
    (Heads s m 0x0303 r → (argOf r 0).toNat = w → w ∈ [33, 34, 35] → argOf r 1 &&& ~~~ unpairedBits w = 0 →
      (w = 35 → (wordAt (setRecWord (bank s (partArg r)) w (argOf r 1) (argOf r 2)) w).toNat ≤ 256) →
      exec (.configSet m) s = .next (reply r 0 [] (modCfg (partArg r) (fun c => { c with
        ebb := setRecWord c.ebb w (argOf r 1) (argOf r 2), flood := setRecWord c.flood w (argOf r 1) (argOf r 2) }) (taken s)))) ∧
    (Heads s m 0x0303 r → (argOf r 0).toNat = w → w < 56 → w ∉ [33, 34, 35] → argOf r 1 ≠ 0 → argOf r 1 &&& ~~~ namedBits w = 0 →
      exec (.configSet m) s = .next (reply r 0x0C01 [] (cumAdd (partArg r) (cConfig + 4) 1 (taken s)))) ∧
    (Heads s m 0x0304 r → fld (argOf r 0) 0 2 ≠ 3 →
      exec (.configRead m) s = .next (reply r 0
        (w32 (b2n (partOf s (partArg r)).cfg.active + 2 * shadowCode (partOf s (partArg r)).cfg.shadow) ::
          (List.range 56).map (wordAt (if fld (argOf r 0) 0 2 = 2 then activeBank (partOf s (partArg r))
            else if fld (argOf r 0) 0 2 = 1 then (partOf s (partArg r)).cfg.flood else (partOf s (partArg r)).cfg.ebb)))
        (taken s)))

/-- Staging a configuration and swapping it in (R238, R350, R381, R385, R387, R390, R391, R532). -/
def Obligations.ConfigurationChanges : Prop := ConfigStaging ∧ ConfigSwapping

/-- step.submit accepts the next step of a Serving partition when every check passes: its input is journaled in both copies of the
ring, its new sequences are open, and the reply gives its identifier with DUPLICATE 0. An identifier above the next is refused,
and step.submit for a step already accepted is answered with DUPLICATE 1 (R379, R419 to R421, R538, R542). -/
def Obligations.StepSubmission : Prop :=
  ∀ (s u : State) (m : MbxId) (r : Request) (seqs : Option (List Word)) (input : Option (List Byte)) (ws : List Word)
    (bs : List Byte) (p id n nb a : Nat),
    Heads s m 0x0401 r → p = partArg r → id = dwordAt r.words 2 → n = fld (argOf r 2) 0 16 → nb = (argOf r 7).toNat →
    s.pw.st = .run → submitGate s p = 0 → fld (argOf r 2) 16 5 ∉ [1, 2, 3, 4] →
    dwordAt r.words 5 % 16 = 0 → dwordAt r.words 7 % 64 = 0 → dwordAt r.words 10 % 64 = 0 → dwordAt r.words 13 % 64 = 0 →
    ((partOf s p).run.last + 1 < id → exec (.stepSubmit m seqs input) s = .next (reply r 0x0D07 [] (taken s))) ∧
    (id ≤ (partOf s p).run.last → ∃ t, exec (.stepSubmit m seqs input) s = .next (reply r 0 (w64 id ++ [1]) t)) ∧
    (id = (partOf s p).run.last + 1 → n ≤ 16380 → (accepted s p).length < 64 → dmaOpen s p = true →
      seqs = some ws → input = some bs → n ≠ 0 → nb ≠ 0 → bs.length = nb →
      seqArgsClean n ws = true → pairwise (fun (x y : SeqArg) => x.1 != y.1) (seqArgs n ws) = true →
      outBytes s p ≤ (argOf r 10).toNat → entryBytes nb ≤ ringBytes s p → (∀ x ∈ seqArgs n ws, seqStatus s p x = 0) →
      activeHolder s = none → relPending s p id = false → ringPlace s p (entryBytes nb) = some a →
      openAll p (seqArgs n ws) (countRead nb (countRead (16 * n) (taken s))) = some u →
      exec (.stepSubmit m seqs input) s = .next (reply r 0 (w64 id ++ [0]) (journalPut p id a (entryOf id bs) (pushStep p
        { id, host := true, fn := p, vector := fld (argOf r 2) 16 5, outAddr := dwordAt r.words 10, outCap := (argOf r 10).toNat
          cplAddr := dwordAt r.words 13
          seqs := (seqArgs n ws).flatMap fun x => (slotsOfSeq (partOf u p).kv x.1).map fun i =>
            ({ seqId := x.1, slot := i, newTokens := x.2.1 } : SeqUse)
          inAt := a, inBytes := nb, arrivedNs := s.now } u))))

/-- step.query reports a known step and all zeros for an unknown one; step.abort withdraws the accepted steps it names, with status
0x0D0A, and leaves admitted ones alone (R423, R424). -/
def Obligations.StepQueryAndAbort : Prop :=
  ∀ (s : State) (m : MbxId) (r : Request),
    (∀ x, Heads s m 0x0402 r → stepRec s (partArg r) (dwordAt r.words 2) = some x →
      exec (.stepQuery m) s = .next (reply r 0 ([w32 (stepCode x.st), w32 (x.status + 65536 * x.cause)] ++ w64 x.admitNs ++
        w64 x.doneNs ++ [w32 x.latencyNs]) (taken s))) ∧
    (Heads s m 0x0402 r → stepRec s (partArg r) (dwordAt r.words 2) = none →
      exec (.stepQuery m) s = .next (reply r 0 (List.replicate 7 0) (taken s))) ∧
    (Heads s m 0x0403 r → dwordAt r.words 2 = 2 ^ 64 - 1 →
      exec (.stepAbort m) s = .next (reply r 0 [w32 (accepted s (partArg r)).length]
        ((accepted s (partArg r)).foldl (fun t x => withdrawStep (partArg r) x.id false t) (taken s)))) ∧
    (Heads s m 0x0403 r → (∀ x ∈ accepted s (partArg r), x.id ≠ dwordAt r.words 2) → dwordAt r.words 2 ≠ 2 ^ 64 - 1 →
      exec (.stepAbort m) s = .next (reply r 0 [0] (taken s)))

/-- kv.evict FREE releases a sequence that no uncommitted step names, at once when the partition has no step in flight; SWAP starts
to copy a resident sequence of a best-effort partition out, in every slot that the sequence has, and is answered when the last
page is out; a SWAP of a sequence that is going out already waits for that. A sequence of an uncommitted step is refused, and so
is a swap in a latency-critical partition (R194, R197, R425). -/
def Sys2Proof.Claim.KvEviction : Prop :=
  ∀ (s : State) (m : MbxId) (r : Request) (slot : Nat) (more : List Nat), Heads s m 0x0501 r →
    slotsOfSeq (partOf s (partArg r)).kv (argOf r 0).toNat = slot :: more →
    (bitOf (argOf r 1) 0 = false → seqBusy s (partArg r) (argOf r 0).toNat = false →
      exec (.kvEvictFree m) s = .next (reply r 0 [] ((if flying s (partArg r) = [] then freeEvicted (partArg r) else id)
        ((slot :: more).foldl (fun t i =>
          modSlot (partArg r) i (fun q => { q with freeing := true, swapOut := [], swapIn := [] }) t)
          (answerMates (partArg r) slot 0x0603 (taken s)))))) ∧
    (bitOf (argOf r 1) 0 = true → seqBusy s (partArg r) (argOf r 0).toNat = false → recClass (bank s (partArg r)) = false →
      (slotAt s (partArg r) slot).st = .resident → (partOf s (partArg r)).cfg.swapMib ≠ 0 → swapFits s (partArg r) slot = true →
      dmaOpen s (partArg r) = true → ((slotAt s (partArg r) slot).pages.any fun q => q.2.valid && q.2.loc == 0) = true →
      seqLeaving s (partArg r) slot = false → slot ∈ mates s (partArg r) slot → (mates s (partArg r) slot).Nodup →
      ∃ t, exec (.kvEvictSwap m) s = .next t ∧
        (slotAt t (partArg r) slot).evicting = (slotAt s (partArg r) slot).evicting ++ [r] ∧
        (∀ i ∈ mates s (partArg r) slot, (slotAt t (partArg r) i).swapOut =
          ((slotAt s (partArg r) i).pages.filter fun q => q.2.valid && q.2.loc == 0).map (fun q => q.1)) ∧
        t = (mates s (partArg r) slot).foldl (fun u i => modSlot (partArg r) i (fun _ => slotAt t (partArg r) i) u) (taken s)) ∧
    (bitOf (argOf r 1) 0 = true → seqBusy s (partArg r) (argOf r 0).toNat = false → recClass (bank s (partArg r)) = false →
      (slotAt s (partArg r) slot).st ≠ .lost → seqLeaving s (partArg r) slot = true →
      exec (.kvEvictSwap m) s = .next (modSlot (partArg r) slot (fun q => { q with evicting := q.evicting ++ [r] }) (taken s))) ∧
    (bitOf (argOf r 1) 0 = true → seqBusy s (partArg r) (argOf r 0).toNat = true →
      exec (.kvEvictSwap m) s = .next (reply r 0x0604 [] (taken s))) ∧
    (bitOf (argOf r 1) 0 = true → seqBusy s (partArg r) (argOf r 0).toNat = false → recClass (bank s (partArg r)) = true →
      exec (.kvEvictSwap m) s = .next (reply r 0x0607 [] (taken s)))

/-- A page that has been copied out lies in the swap window at SWAP_ADDR + 4,096 x FRAME, with its CRC-32 kept and its generation
advanced, and the last one answers the requests that wait; a page that comes back with that CRC returns to HBM at a frame of its
own, and one that does not is read once more, and a second time the sequence is lost (R187, R194, R195, R197, R430). -/
def Sys2Proof.Claim.PagesMoveWhole : Prop :=
  ∀ (s : State) (part : Fin 32) (slot i units : Nat) (e : SeqSlot) (is : List Nat), slotAt s part.val slot = e →
    units = unitsOf s part.val slot i → units ≠ 0 → dmaOpen s part.val = true → e.st ≠ .empty →
    ((partOf s part.val).kv.slots.find? (fun q => q.2.swapOut != []) = some (slot, e) → e.swapOut = i :: is →
      (∀ k ∈ mates s part.val slot, (slotAt s part.val k).evicting = []) → pageFetching s part.val slot i = false →
      gapFrom units 0 (partOf s part.val).kv.swapUsed + units ≤ 256 * (partOf s part.val).cfg.swapMib →
      ∃ t, exec (.swapOutPageDone part) s = .next t ∧
        t.out = s.out ++ [.hostWrite part.val
          ((partOf s part.val).cfg.swapAddr + 4096 * gapFrom units 0 (partOf s part.val).kv.swapUsed)
          (pageRead s part.val slot i 0 (4096 * units))] ∧
        (slotAt t part.val slot).swapOut = is ∧
        tget (slotAt t part.val slot).crcs i = some (crc32 (pageRead s part.val slot i 0 (4096 * units))) ∧
        tget (slotAt t part.val slot).pages i = some { tgetD e.pages i {} with
          loc := 1, frame := gapFrom units 0 (partOf s part.val).kv.swapUsed, gen := ((tgetD e.pages i {}).gen + 1) % 256 } ∧
        (slotAt t part.val slot).st = (if is = [] then .swapped else e.st) ∧ t.x = s.x) ∧
    (∀ q, (partOf s part.val).kv.slots.find? (fun q => q.2.swapOut != []) = some (slot, e) → e.swapOut = [i] →
      mates s part.val slot = [slot] → e.evicting = [q] → pageFetching s part.val slot i = false →
      gapFrom units 0 (partOf s part.val).kv.swapUsed + units ≤ 256 * (partOf s part.val).cfg.swapMib →
      ∃ u, exec (.swapOutPageDone part) s = .next (reply q 0 [] u) ∧ (slotAt u part.val slot).st = .swapped ∧
        (slotAt u part.val slot).evicting = [] ∧ (slotAt u part.val slot).swapOut = []) ∧
    (∀ data : List Byte, (partOf s part.val).kv.slots.find? (fun q => q.2.swapIn != []) = some (slot, e) → e.swapIn = i :: is →
      (allocPage part.val slot i units s).isSome = true → data.length = 4096 * units →
      (some (crc32 data) = tget e.crcs i →
        ∃ t, exec (.swapInPageDone part (some data)) s = .next t ∧ (slotAt t part.val slot).swapIn = is ∧
          tget (slotAt t part.val slot).crcs i = none ∧ (slotAt t part.val slot).retry = false ∧
          tget (slotAt t part.val slot).pages i = some { valid := true, loc := 0, resv := recClass (bank s part.val)
                                                         gen := ((tgetD e.pages i {}).gen + 1) % 256
                                                         frame := 2 * 2 ^ 36 + gapFrom units 0 (partOf s part.val).kv.used } ∧
          t.x.hbm = memWrite s.x.hbm (hbmFlat s part.val (4096 * (2 * 2 ^ 36 + gapFrom units 0 (partOf s part.val).kv.used))) data) ∧
      (some (crc32 data) ≠ tget e.crcs i → e.retry = false →
        ∃ t, exec (.swapInPageDone part (some data)) s = .next t ∧ (slotAt t part.val slot).retry = true ∧
          (slotAt t part.val slot).swapIn = i :: is ∧ t.x = s.x) ∧
      (some (crc32 data) ≠ tget e.crcs i → e.retry = true →
        ∃ t, exec (.swapInPageDone part (some data)) s = .next t ∧ (slotAt t part.val slot).st = .lost ∧ t.x = s.x))

/-- The oldest accepted step is admitted when its partition admits, its interval has passed, and every page it needs can be
allocated; with a swap staged, a power state called for, a careen run or a stop of service under way, nothing is admitted. First
what has left service is folded, where a step boundary stands (R137, R157, R190, R191, R445, R502). -/
def Obligations.StepAdmission : Prop :=
  ∀ (s0 s t : State) (part : Fin 32) (r : StepRec) (rest : List StepRec), s = foldBoundary part.val s0 →
    accepted s part.val = r :: rest →
    (admitOpen s part.val = true → intervalOk s part.val = true →
      (recClass (bank s part.val) = true → ∃ st, stageOf s part.val = some st ∧ st.complete = true) →
      relPending s part.val r.id = false →
      (∀ u ∈ r.seqs, (slotAt s part.val u.slot).st = .resident ∧ (slotAt s part.val u.slot).swapOut = [] ∧
        ∀ x ∈ flying s part.val, ∀ v ∈ x.seqs, v.slot ≠ u.slot) →
      allocAll part.val (pagesNeeded s part.val r.seqs) s = some t →
      exec (.stepAdmit part) s0 = .next (admitNow part.val r ((pagesNeeded s part.val r.seqs).map fun q => (q.1, q.2.1)) t)) ∧
    ((partOf s part.val).cfg.st ≠ .serving ∨ (partOf s part.val).cfg.shadow = .staged ∨ s.pw.st ≠ .run ∨ s.pw.target.isSome = true ∨
      s.car.run.isSome = true ∨ s.sec.stopping.isSome = true ∨ s.host.hm.failed = true → exec (.stepAdmit part) s0 = .next s)

/-- The oldest step of a partition commits once every cluster has left it and no check of it is left, carrying out the actions of
R29 in order; where no holder and no next member must answer, the commit ends in one go: the step is the last committed, its
record says completed with status 0, and its journal entry is gone (R28 to R30, R542). No cluster of the partition waits to be
folded (R137). -/
def Obligations.StepCommitment : Prop :=
  ∀ (s : State) (part : Fin 32) (r : StepRec), toCommit s part.val = some r → stepRec s part.val r.id = some r → r.action = 0 →
    activeHolder s = none → nextMember s (recJob (bank s part.val)) = none → relPending s part.val r.id = false →
    (partOf s part.val).cfg.shadow ≠ .staged → (partOf s part.val).run.freeDrop = false → unfolded s part.val = [] →
    ∃ u, exec (.stepCommit part) s = .next (stopOn (moveOn (checkReplays (pumpStreams u)))) ∧
      (partOf u part.val).run.committed = r.id ∧ (∃ x, stepRec u part.val r.id = some x ∧ x.st = .completed ∧ x.status = 0) ∧
      (∀ e ∈ (partOf u part.val).jr.jring, e.2.2 ≠ r.id) ∧ (partOf u part.val).cfg.active = (partOf s part.val).cfg.active

/-- Pages of the key-value cache leave and come back whole (R187, R194, R195, R197, R425, R430). -/
def Obligations.KvPaging : Prop := KvEviction ∧ PagesMoveWhole

/-- stats.read and log.read answer with at most 60 words of the item, or at most five records, and change nothing but the mark of a
latched record that was read; a cut-short log is told by LOST (R395, R426 to R428). -/
def Obligations.StatsAndLogRead : Prop :=
  ∀ (s : State) (m : MbxId) (r : Request) (ring : List LogRec),
    (Heads s m 0x0601 r → m ≠ .sideband → fld (argOf r 0) 0 3 = 1 →
      exec (.statsRead m) s = .next (reply r 0 ([w32 (2 * nCounters), w32 (fld (argOf r 3) 0 16)] ++
        slice (cumWords s (partArg r)) (fld (argOf r 3) 0 16) 60) (taken s))) ∧
    (Heads s m 0x0601 r → fld (argOf r 0) 0 3 = 3 →
      exec (.statsRead m) s = .next (reply r 0 ([w32 (2 * nTotals), w32 (fld (argOf r 3) 0 16)] ++
        slice (totWords s) (fld (argOf r 3) 0 16) 60) (taken s))) ∧
    (∀ l, Heads s m 0x0601 r → m ≠ .sideband → fld (argOf r 0) 0 3 = 0 →
      latchedOf s (partArg r) (dwordAt r.words 3) = some l →
      exec (.statsRead m) s = .next (statsReply r l.words (modStat (partArg r) (fun t => { t with
        latch := t.latch.map fun x => if x.id = l.id then { x with seen := true } else x }) (taken s)))) ∧
    (Heads s m 0x0602 r → fld (argOf r 3) 0 3 ≤ 5 → ring = (if bitOf (argOf r 0) 0 then s.host.log.prot else s.host.log.main) →
      exec (.logRead m) s = .next (reply r 0
        (w64 ((((ring.filter fun l => decide (dwordAt r.words 3 ≤ l.seq)).drop (fld (argOf r 3) 0 3)).head?.map fun l => l.seq).getD
            (s.host.log.coldStarts * 2 ^ 48 + s.host.log.next)) ++
          [w32 (((ring.filter fun l => decide (dwordAt r.words 3 ≤ l.seq)).take (fld (argOf r 3) 0 3)).length +
            256 * b2n ((ring.head?.map fun l => decide (dwordAt r.words 3 < l.seq)).getD false))] ++
          ((ring.filter fun l => decide (dwordAt r.words 3 ≤ l.seq)).take (fld (argOf r 3) 0 3)).flatMap logRecWords) (taken s)))

/-- state.set sets the power cap between 1,200 and 3,000 W and the fractions that sum to 256 unless a latency-critical partition
would lose its share, sets the clock mode, and reads the power state and the energy of a cluster's queues; what breaks a bound
changes nothing (R441, R447, R449, R455, R456; the layout of READ is the model's, log 73). -/
def Sys2Proof.Claim.PowerSettings : Prop :=
  ∀ (s : State) (m : MbxId) (r : Request) (sub : Nat), Heads s m 0x0701 r → subOf r = sub →
    (sub = 2 → 1200 ≤ fld (argOf r 1) 0 12 → fld (argOf r 1) 0 12 ≤ 3000 →
      shareBroken s (fld (argOf r 1) 0 12) s.pw.frCompute = false →
      exec (.stateSetCap m) s = .next (reply r 0 [] (modPw (fun w => { w with cap := fld (argOf r 1) 0 12 }) (taken s)))) ∧
    (sub = 2 → fld (argOf r 1) 0 12 < 1200 ∨ 3000 < fld (argOf r 1) 0 12 →
      exec (.stateSetCap m) s = .next (reply r 0x0E02 [] (taken s))) ∧
    (sub = 3 → fld (argOf r 1) 0 9 + fld (argOf r 1) 16 9 + fld (argOf r 2) 0 9 = 256 →
      shareBroken s s.pw.cap (fld (argOf r 1) 0 9) = false →
      exec (.stateSetFractions m) s = .next (reply r 0 [] (modPw (fun w => { w with
        frCompute := fld (argOf r 1) 0 9, frHbm := fld (argOf r 1) 16 9, frIo := fld (argOf r 2) 0 9 }) (taken s)))) ∧
    (sub = 3 → fld (argOf r 1) 0 9 + fld (argOf r 1) 16 9 + fld (argOf r 2) 0 9 ≠ 256 →
      exec (.stateSetFractions m) s = .next (reply r 0x0E02 [] (taken s))) ∧
    (sub = 4 → bitOf (argOf r 1) 0 = true → 20 ≤ fld (argOf r 1) 8 6 → fld (argOf r 1) 8 6 ≤ 33 → s.dv.throttled = [] →
      s.dv.cur.length = 4 → s.dv.cur ≠ List.replicate 4 (fld (argOf r 1) 8 6) →
      exec (.stateSetClock m) s = .next (modDv (fun d => { d with goal := List.replicate 4 (fld (argOf r 1) 8 6) })
        (modPw (fun w => { w with mode := true, ratio := fld (argOf r 1) 8 6, slewing := w.slewing ++ [r] }) (taken s)))) ∧
    (sub = 5 → exec (.stateSetRead m) s = .next (readPower r (taken s))) ∧
    (sub = 6 → fld (argOf r 1) 0 6 < 48 →
      exec (.stateSetEnergy m) s = .next (reply r 0
        ((List.range 16).flatMap fun q => w64 (tgetD s.dv.queueUj (16 * fld (argOf r 1) 0 6 + q) 0)) (taken s)))

/-- state.set STATE calls for a state of the ladder: one that is already reached is answered at once, and one whose entry R445
forbids is refused with a bitmap of the reasons. The state is reached only after the drain: the request is then answered, and
an exit from Berth passes through Quayside (R444 to R446). -/
def Sys2Proof.Claim.PowerStateLadder : Prop :=
  ∀ (s : State) (m : MbxId) (r : Request) (t : PState),
    (Heads s m 0x0701 r → subOf r = 1 → pstateOf (fld (argOf r 1) 0 3) = some t →
      (stateRefusals s t ≠ 0 → exec (.stateSetState m) s = .next (reply r 0x0E01 [w32 (stateRefusals s t)] (taken s))) ∧
      (stateRefusals s t = 0 → t = s.pw.st → s.pw.target = none → exec (.stateSetState m) s =
        .next (reply r 0 [] (modPw (fun w => { w with autoWake := bitOf (argOf r 1) 8 }) (taken s)))) ∧
      (stateRefusals s t = 0 → t ≠ s.pw.st → s.pw.st ≠ .drydock → t ∈ [.run, .quayside, .berth] →
        exec (.stateSetState m) s = .next (modPw (fun w => { w with
          autoWake := bitOf (argOf r 1) 8, target := some t, waiting := w.waiting ++ [r] }) (taken s)))) ∧
    (s.pw.target = some .berth → s.pw.st = .run → s.pw.waiting = [] → drained s = true →
      exec .powerStateReached s = .next (modPw (fun w => { w with target := none }) (enterState .berth s))) ∧
    (s.pw.target = some t → deeper t s.pw.st = true → drained s = false → exec .powerStateReached s = .next s) ∧
    (s.pw.target = some .run → s.pw.st = .berth → s.pw.waiting = [] →
      exec .powerStateReached s = .next (enterState .quayside s)) ∧
    (s.pw.target = some .run → s.pw.st = .quayside → s.pw.waiting = [] →
      exec .powerStateReached s = .next (modPw (fun w => { w with target := none }) (enterState .run s)))

/-- The input voltage: 50 samples in a row outside 38 to 46 V lower the cap to 1,200 W and 50 beyond 35 or 48 V switch the rails
off; 10 ms inside the window restore the cap; below 30 V the package is held up, and at the end of the hold-up it is unpowered
(R439, R477). -/
def Sys2Proof.Claim.InputVoltage : Prop :=
  ∀ (s : State) (mv : Nat),
    (38000 ≤ mv → mv ≤ 46000 → exec (.voltageSample mv) s = .next (modPw (fun w => { w with
      millivolts := mv, outKind := 0, outFor := if w.outKind = 0 then w.outFor + 1 else 1 }) s)) ∧
    (35000 ≤ mv → mv ≤ 48000 → mv < 38000 ∨ 46000 < mv → s.pw.outKind = 1 → s.pw.outFor = 49 → s.boot.stage = .ready →
      exec (.voltageSample mv) s = .next (logPkg 0x0E05 true mv 1
        (modPw (fun w => { w with millivolts := mv, outKind := 1, outFor := 50, lowCap := true }) s))) ∧
    (mv < 35000 ∨ 48000 < mv → s.pw.outKind = 2 → s.pw.outFor = 49 → s.boot.stage = .ready →
      ∃ t, exec (.voltageSample mv) s = .next t ∧ t.pw.rails = false ∧ t.host.hm.failed = true ∧ t.x = s.x ∧ t.parts = s.parts) ∧
    (s.pw.outKind = 0 → exec .voltageRecoveryTimer s = .next (modPw (fun w => { w with lowCap := false }) s)) ∧
    (s.pw.outKind ≠ 0 → exec .voltageRecoveryTimer s = .next s) ∧
    (mv < 30000 → s.boot.stage ≠ .unpowered → ∃ t, exec (.inputBelow30V mv) s = .next t ∧ t.boot.stage = .holdup ∧
      t.pw.rails = false ∧ t.pins.faultN = true ∧ t.pins.vinOk = false ∧ t.host.hm.failed = true ∧ t.host.log = s.host.log ∧
      t.x.bond = s.x.bond)

/-- A zone at its trip threshold switches the rails off, drives THERMTRIP_N and fails the package; at its throttle threshold it is
throttled, and it is released below its release threshold (R452, R453). -/
def Sys2Proof.Claim.ThermalLimits : Prop :=
  ∀ (s : State) (z k : Nat), s.dv.tripped = false → s.dv.lowered = [] → isZone z = true →
    ((if z < 6 then 110 else 100) ≤ k → s.host.hm.failed = false →
      ∃ t, exec (.thermalSample [(z, k)]) s = .next t ∧ t.pw.rails = false ∧ t.pins.thermN = true ∧ t.dv.tripped = true ∧
        t.host.hm.failed = true ∧ t.x = s.x) ∧
    ((if z < 6 then 100 else 92) ≤ k → k < (if z < 6 then 110 else 100) → z ∉ s.dv.throttled →
      ∃ t, exec (.thermalSample [(z, k)]) s = .next t ∧ t.dv.throttled = s.dv.throttled ++ [z] ∧
        (z < 4 → s.dv.goal.length = 4 → t.dv.goal.getD z 0 = 20) ∧ tget t.dv.temps z = some k ∧ t.pw = s.pw ∧ t.x = s.x) ∧
    (k < (if z < 6 then 97 else 89) → z ∈ s.dv.throttled →
      ∃ t, exec (.thermalSample [(z, k)]) s = .next t ∧ z ∉ t.dv.throttled ∧
        (z < 4 → s.dv.goal.length = 4 → t.dv.goal.getD z 0 = baseRatio s) ∧
        t = modDv (fun v => { v with throttled := t.dv.throttled, temps := t.dv.temps, eighths := t.dv.eighths, goal := t.dv.goal }) s) ∧
    ((if z < 6 then 97 else 89) ≤ k → k < (if z < 6 then 100 else 92) →
      exec (.thermalSample [(z, k)]) s = .next (modDv (fun v => { v with temps := tset v.temps z k }) s))

/-- Each control interval sets the rate of every partition it measures and begins a new span; an energy sample charges partitions,
queues and the package, and what no partition is charged for is counted apart (R383, R448, R454, R455, R459). -/
def Sys2Proof.Claim.PowerAccounting : Prop :=
  ∀ (s : State) (draw c h i input loss q : Nat) (p : Fin 32) (e : PartEnergy),
    (∃ t, exec (.powerControlInterval draw [c, h, i] [(p, q)]) s = .next t ∧ t.dv.draw = draw ∧ t.dv.domain = [c, h, i] ∧
      t.dv.spans = [] ∧ (partOf t p.val).stat.throttle = eighthsOf (65536 * q) (shareOf s p.val + lentTo s [(p.val, q)] p.val) ∧
      (1 ∈ t.dv.capHeld ↔ capNow s * s.pw.frHbm < 256 * h) ∧ (2 ∈ t.dv.capHeld ↔ capNow s * s.pw.frIo < 256 * i) ∧
      t.x = s.x ∧ t.host = s.host) ∧
    (∃ t, exec (.energySample input loss [e] []) s = .next t ∧
      tgetD t.tot tPower 0 = (tgetD s.tot tPower 0 + input) % 2 ^ 64 ∧
      tgetD t.tot (tPower + 1) 0 = (tgetD s.tot (tPower + 1) 0 + loss) % 2 ^ 64 ∧
      tgetD t.tot (tPower + 2) 0 = (tgetD s.tot (tPower + 2) 0 + (input - loss - (e.compute + e.hbm + e.io))) % 2 ^ 64 ∧
      tgetD (partOf t e.part.val).stat.cum cEnergy 0 = (tgetD (partOf s e.part.val).stat.cum cEnergy 0 + e.compute) % 2 ^ 64 ∧
      tgetD (partOf t e.part.val).stat.cum (cEnergy + 1) 0 = (tgetD (partOf s e.part.val).stat.cum (cEnergy + 1) 0 + e.hbm) % 2 ^ 64 ∧
      tgetD (partOf t e.part.val).stat.cum (cEnergy + 2) 0 = (tgetD (partOf s e.part.val).stat.cum (cEnergy + 2) 0 + e.io) % 2 ^ 64 ∧
      t.x = s.x ∧ t.host = s.host ∧ t.pw = s.pw)

/-- A die's clock steps by one ratio: towards ratio 36 while boost is allowed and no goal is set, back to 33 or to a lower goal when
it is not, and towards its goal while its PLL slews. A droop stretches one cycle of its cluster and is counted whatever the budget; the core supply's raise
decays by one step (R440 to R442, R450, R451). -/
def Sys2Proof.Claim.ClocksAndDroop : Prop :=
  ∀ (s : State) (d : Fin 4) (k : Fin 48), s.dv.cur.length = 4 → s.dv.goal.length = 4 →
    (mayBoost s d.val = true → 33 ≤ s.dv.cur.getD d.val 33 → s.dv.cur.getD d.val 33 < 36 →
      (s.dv.goal.getD d.val 33 = s.dv.cur.getD d.val 33 → s.pw.slewing = [] →
        ∃ t, exec (.boostStep d) s = .next t ∧ t.dv.cur.getD d.val 0 = s.dv.cur.getD d.val 33 + 1 ∧
          t = modDv (fun v => { v with cur := t.dv.cur, goal := t.dv.goal }) s ∧
          ∀ j, j ≠ d.val → t.dv.cur.getD j 0 = s.dv.cur.getD j 0) ∧
      (s.dv.goal.getD d.val 33 ≠ s.dv.cur.getD d.val 33 → exec (.boostStep d) s = .next s)) ∧
    (mayBoost s d.val = false → 33 < s.dv.cur.getD d.val 33 →
      ∃ t, exec (.boostStep d) s = .next t ∧ t.dv.cur.getD d.val 0 = s.dv.cur.getD d.val 33 - 1 ∧
        t.dv.goal.getD d.val 0 = (if s.dv.goal.getD d.val 33 < s.dv.cur.getD d.val 33 then s.dv.goal.getD d.val 33
          else s.dv.cur.getD d.val 33 - 1)) ∧
    (mayBoost s d.val = false → s.dv.cur.getD d.val 33 ≤ 33 → exec (.boostStep d) s = .next s) ∧
    (s.pw.slewing = [] → s.dv.cur.getD d.val 33 < s.dv.goal.getD d.val 33 →
      ∃ t, exec (.pllSlewStep d) s = .next t ∧ t.dv.cur.getD d.val 0 = s.dv.cur.getD d.val 33 + 1 ∧
        t = modDv (fun v => { v with cur := t.dv.cur }) s) ∧
    (s.pw.slewing = [] → s.dv.goal.getD d.val 33 < s.dv.cur.getD d.val 33 →
      ∃ t, exec (.pllSlewStep d) s = .next t ∧ t.dv.cur.getD d.val 0 = s.dv.cur.getD d.val 33 - 1 ∧
        t = modDv (fun v => { v with cur := t.dv.cur }) s) ∧
    (∃ t, exec (.droopDetected k) s = .next t ∧ tget t.dv.spans k.val = some (tgetD s.dv.spans k.val 0 + 1) ∧
      tgetD t.tot (tPower + 10) 0 = (tgetD s.tot (tPower + 10) 0 + 1) % 2 ^ 64 ∧
      tgetD t.tot (tPower + 11) 0 = (if tgetD s.dv.spans k.val 0 + 1 ≤ stretchBudget s k.val then tgetD s.tot (tPower + 11) 0
        else (tgetD s.tot (tPower + 11) 0 + 1) % 2 ^ 64) ∧ t.dv.cur = s.dv.cur ∧ t.x = s.x) ∧
    exec (.vcoreDecayTimer d) s = .next (modDv (fun v => { v with raise := setAt v.raise d.val (v.raise.getD d.val 0 - 1) }) s)

/-- state.set, and the ladder of power states (R441, R444 to R447, R449, R455, R456). -/
def Obligations.PowerCommands : Prop := PowerSettings ∧ PowerStateLadder

/-- The input supply, the root clock, droop and the PLLs (R439 to R442, R450, R451, R477). -/
def Obligations.SupplyAndClocks : Prop := InputVoltage ∧ ClocksAndDroop

/-- Temperatures, power control and energy (R383, R448, R452 to R455, R459). -/
def Obligations.HeatAndPower : Prop := ThermalLimits ∧ PowerAccounting

/-- attest.get: MEASURE gives one of the eight measurements, QUOTE the digest of all of them with 64 bytes of signature, and CERT a
piece of the identity chain; what the identity key signs is a free value (R488, R492; log 11). -/
def Obligations.Attestation : Prop :=
  ∀ (s : State) (m : MbxId) (r : Request), Heads s m 0x0801 r →
    (subOf r = 1 → 1 ≤ fld (argOf r 1) 0 4 → fld (argOf r 1) 0 4 ≤ 8 →
      exec (.attestMeasure m) s = .next (reply r 0 (wordsOfBytes (measurement s (fld (argOf r 1) 0 4))) (taken s))) ∧
    (subOf r = 1 → fld (argOf r 1) 0 4 = 0 ∨ 8 < fld (argOf r 1) 0 4 →
      exec (.attestMeasure m) s = .next (reply r 0x0D09 [] (taken s))) ∧
    (subOf r = 2 → ∃ sg : List Byte, sg.length = 64 ∧ exec (.attestQuote m) s =
      .next (reply r 0 (wordsOfBytes (sha256 (measurements s) ++ sg)) { taken s with free := s.free + 1 })) ∧
    (subOf r = 3 → fld (argOf r 1) 0 12 < s.sec.chain.length → ∃ bs : List Byte, bs.length = 240 ∧
      bs.take (s.sec.chain.length - fld (argOf r 1) 0 12) = slice s.sec.chain (fld (argOf r 1) 0 12) 240 ∧
      (∀ b ∈ bs.drop (s.sec.chain.length - fld (argOf r 1) 0 12), b = 0) ∧
      exec (.attestCert m) s = .next (reply r 0 (w32 s.sec.chain.length :: wordsOfBytes bs) (taken s)))

/-- lc.set: NONCE draws 32 bytes; PROVISION takes a certified Manufacturing package to Provisioned with its owner root; KEYS takes an
acceptable owner key table; SEAL takes a Provisioned package whose conditions hold to Sealed and records the version (R482, R494,
R495). -/
def Sys2Proof.Claim.LifeCycleForward : Prop :=
  ∀ (s : State) (m : MbxId) (r : Request) (all : List Word), Heads s m 0x0802 r →
    (subOf r = 1 → ∃ n : List Byte, n.length = 32 ∧ exec (.lcNonce m) s =
      .next (reply r 0 (wordsOfBytes n) (modSec (fun x => { x with nonce := some n }) { taken s with free := s.free + 1 }))) ∧
    (subOf r = 2 → s.sec.lifecycle = 0 → s.sec.certified = true → exec (.lcProvision m) s =
      .next (reply r 0 [] (enterLife 1 (modSec (fun x => { x with ownerRoot := some (bytesOfWords (slice r.words 3 8)) }) (taken s))))) ∧
    (subOf r = 2 → s.sec.lifecycle ≠ 0 → exec (.lcProvision m) s = .next (reply r 0x1003 [] (taken s))) ∧
    (subOf r = 3 → s.sec.lifecycle = 1 → sealLacks s = 0 → exec (.lcSeal m) s =
      .next (reply r 0 [] (settleStages (enterLife 2 (modBnd (fun b => { b with
        sealedVersion := max b.sealedVersion (mfVersion b.manifest), everSealed := true }) (taken s)))))) ∧
    (subOf r = 3 → s.sec.lifecycle = 1 → sealLacks s ≠ 0 →
      exec (.lcSeal m) s = .next (reply r 0x1008 [w32 (sealLacks s)] (taken s))) ∧
    (subOf r = 7 → dmaOpen s 32 = true → tableOk s (argOf r 3).toNat (all.take ((argOf r 3).toNat / 4)) = true →
      exec (.lcKeys m (some all)) s = .next (reply r 0 [] (logPkg 0x1005 false
        (wordAt (all.take ((argOf r 3).toNat / 4)) 0).toNat (ktKeys (all.take ((argOf r 3).toNat / 4)))
        (modSec (fun x => { x with keyTable := all.take ((argOf r 3).toNat / 4) }) (countRead (argOf r 3).toNat (taken s))))))

/-- UNSEAL, RETURN and RETIRE need an authorisation of the owner and spend the nonce. With no step admitted and the package out of
its fabric, UNSEAL leads from Sealed to Provisioned; RETURN erases the weights and the keys and leads to Returned; RETIRE
leaves nothing running (R295, R494 to R496). -/
def Sys2Proof.Claim.LifeCycleBackward : Prop :=
  ∀ (s : State) (m : MbxId) (r : Request), Heads s m 0x0802 r → s.sec.stopping = none →
    (subOf r = 4 → s.sec.lifecycle = 2 → authOk s r 4 = true → allFlying s = [] → s.host.hm.joined = false →
      ∃ t, exec (.lcUnseal m) s = .next t ∧ t.sec.lifecycle = 1 ∧ t.sec.stopping = none ∧ t.sec.nonce = none ∧ t.stages = [] ∧
        t.sec.keyTable = s.sec.keyTable ∧ t.bnd.manifest = s.bnd.manifest ∧ t.x.bond = s.x.bond) ∧
    (subOf r = 4 → s.sec.lifecycle = 2 → authOk s r 4 = false →
      exec (.lcUnseal m) s = .next (reply r 0x1004 [] (modSec (fun x => { x with nonce := none }) (taken s)))) ∧
    (subOf r = 4 → s.sec.lifecycle ≠ 2 → exec (.lcUnseal m) s = .next (reply r 0x1003 [] (taken s))) ∧
    (subOf r = 5 → s.sec.lifecycle = 1 → authOk s r 5 = true →
      ∃ t, exec (.lcReturn m) s = .next t ∧ t.sec.lifecycle = 3 ∧ t.sec.nonce = none ∧ t.sec.keyTable = [] ∧ t.bnd.manifest = [] ∧
        t.bnd.st = .none ∧ t.x.bond = [] ∧ t.boot.prefer = none ∧ t.sec.ownerRoot = s.sec.ownerRoot) ∧
    (subOf r = 5 → s.sec.lifecycle = 0 → exec (.lcReturn m) s = .next (reply r 0x1003 [] (taken s))) ∧
    (subOf r = 6 → s.sec.lifecycle = 0 →
      ∃ t, exec (.lcRetire m) s = .next t ∧ t.sec.lifecycle = 4 ∧ t.boot.stage = .retired ∧ t.pw.rails = false ∧
        t.host.hm.ready = false ∧ t.pins.faultN = true ∧ t.sec.keyTable = [] ∧ t.sec.certified = false ∧ t.host.journal = [] ∧
        t.parts = [] ∧ t.x.sram = [] ∧ t.x.hbm = [])

/-- Firmware: an image is written to the slot that was not booted, in one read or in pieces, and stands only if it passes the
check of R484; a preference names a slot whose image passes; FW_COMMIT raises the anti-rollback count to the booted image's SVN
(R484, R486, R497). -/
def Obligations.FirmwareUpdate : Prop :=
  ∀ (s : State) (m : MbxId) (r : Request) (all : List Word) (b : Bool), Heads s m 0x0802 r →
    (subOf r = 8 → b = bitOf (argOf r 1) 0 → s.boot.booted ≠ some b → s.sec.fw = none → (argOf r 4).toNat ≤ 2 ^ 26 →
      (bitOf (argOf r 1) 1 = true → exec (.fwWrite m none) s = .next (reply r 0 [] (setSlot b []
        (modSec (fun x => { x with fw := some { slotB := b, bytes := (argOf r 4).toNat } }) (taken s))))) ∧
      (bitOf (argOf r 1) 1 = false → dmaOpen s 32 = true → s.boot.stage ≠ .recovery →
        exec (.fwWrite m (some all)) s = .next (reply r (fwStatus s (all.take ((argOf r 4).toNat / 4))) []
          (setSlot b (if fwStatus s (all.take ((argOf r 4).toNat / 4)) = 0 then all.take ((argOf r 4).toNat / 4) else [])
            (countWritten (4 * (all.take ((argOf r 4).toNat / 4)).length) (countRead (argOf r 4).toNat (taken s))))))) ∧
    (subOf r = 8 → s.boot.booted = some (bitOf (argOf r 1) 0) → exec (.fwWrite m (some all)) s = .next (reply r 0x1005 [] (taken s))) ∧
    (∀ f n, subOf r = 11 → s.sec.fw = some f → n = fld (argOf r 0) 16 16 → n % 4 = 0 → 4 ≤ n → n ≤ 224 →
      (argOf r 1).toNat = 4 * f.got.length → r.words.length = 64 →
      (4 * f.got.length + n < f.bytes → exec (.fwData m) s = .next (reply r 0 [] (countWritten n
        (modSec (fun x => { x with fw := some { f with got := f.got ++ slice r.words 4 (n / 4) } }) (taken s))))) ∧
      (4 * f.got.length + n = f.bytes → s.boot.stage ≠ .recovery →
        exec (.fwData m) s = .next (reply r (fwStatus s (f.got ++ slice r.words 4 (n / 4))) []
          (setSlot f.slotB (if fwStatus s (f.got ++ slice r.words 4 (n / 4)) = 0 then f.got ++ slice r.words 4 (n / 4) else [])
            (countWritten f.bytes (modSec (fun x => { x with fw := none }) (taken s))))))) ∧
    (subOf r = 9 → fwCheck s (slotImg s (bitOf (argOf r 1) 0)) = 0 →
      exec (.fwPrefer m) s = .next (reply r 0 [] (modBoot (fun x => { x with prefer := some (bitOf (argOf r 1) 0) }) (taken s)))) ∧
    (subOf r = 9 → fwCheck s (slotImg s (bitOf (argOf r 1) 0)) ≠ 0 →
      exec (.fwPrefer m) s = .next (reply r 0x1001 [] (taken s))) ∧
    (subOf r = 10 → s.boot.booted = some b → s.boot.rollback < fwSvn (slotImg s b) →
      exec (.fwCommit m) s = .next (reply r 0 [] (logPkg 0x1004 false (fwSvn (slotImg s b)) 0
        (modBoot (fun x => { x with rollback := fwSvn (slotImg s b) }) (taken s))))) ∧
    (subOf r = 10 → s.boot.booted = some b → fwSvn (slotImg s b) ≤ s.boot.rollback →
      exec (.fwCommit m) s = .next (reply r 0 [] (taken s)))

/-- weights.install: BEGIN opens an acceptable manifest (one of no stripes is complete at once), SHARD writes one stripe of it and
keeps it when its SHA-256 matches, FINISH completes an installation with no stripe missing, ABORT drops it, QUERY reports it, and
GROUP sets the stripe group; outside Manufacturing and Provisioned the first four are refused (R280, R284, R289 to R292). -/
def Obligations.WeightInstallation : Prop :=
  ∀ (s : State) (m : MbxId) (r : Request) (all : List Word) (data : List Byte) (x : Nat), Heads s m 0x0901 r →
    (subOf r = 1 → installState s = true → overInstall s = false → (argOf r 3).toNat ≤ 2 ^ 26 → dmaOpen s 32 = true →
      s.bnd.st = .none → manifestStatus s (argOf r 3).toNat (all.take ((argOf r 3).toNat / 4)) = 0 →
      exec (.weightsBegin m (some all)) s = .next (reply r 0 [] (countWritten (2 * (argOf r 3).toNat) (modBnd (fun b => { b with
        manifest := all.take ((argOf r 3).toNat / 4), st := openedOrDone (all.take ((argOf r 3).toNat / 4)), bitmap := []
        rebuilds := [], lost := [], scrubAt := 0, scrubOk := 0, scrubBad := 0, tagsDiffer := [] }) (countRead (argOf r 3).toNat (taken s)))))) ∧
    (subOf r = 2 → x = fld (argOf r 1) 0 24 → installState s = true → overInstall s = false → s.bnd.st = .opened →
      x < mfStripes s.bnd.manifest → data.length = shBytes s.bnd.manifest x → (argOf r 4).toNat = data.length →
      x ∉ s.bnd.bitmap → shKind s.bnd.manifest x ≠ 0 → dmaOpen s 32 = true →
      ∃ t, exec (.weightsShard m (some data) true) s = .next t ∧ t.x.bond = memWrite s.x.bond (shardFlat x) data ∧
        (wordsOfBytes (sha256 data) = shHash s.bnd.manifest x → t.bnd.bitmap = s.bnd.bitmap ++ [x]) ∧
        (wordsOfBytes (sha256 data) ≠ shHash s.bnd.manifest x → t.bnd.bitmap = s.bnd.bitmap) ∧ t.bnd.manifest = s.bnd.manifest ∧
        t.x.hbm = s.x.hbm ∧ t.parts = s.parts) ∧
    (subOf r = 3 → installState s = true → s.bnd.st = .opened → (∀ y, y < mfStripes s.bnd.manifest → y ∈ s.bnd.bitmap) →
      exec (.weightsFinish m) s = .next (reply r 0 [] (logPkg 0x0905 false (mfStripes s.bnd.manifest)
        (mfVersion s.bnd.manifest % 2 ^ 32) (modBnd (fun b => { b with st := .complete }) (taken s))))) ∧
    (subOf r = 4 → installState s = true → s.bnd.st = .opened →
      exec (.weightsAbort m) s = .next (reply r 0 [] (modBnd (fun b => { b with manifest := [], st := .none, bitmap := [] }) (taken s)))) ∧
    (subOf r = 5 → s.sec.lifecycle ≤ 2 → exec (.weightsQuery m) s = .next (reply r 0
      ([w32 (manCode s.bnd.st), w32 s.bnd.bitmap.length, w32 (mfStripes s.bnd.manifest)] ++ w64 s.bnd.written ++ [w32 (capWrites s)])
      (taken s))) ∧
    (subOf r = 6 → s.sec.lifecycle ≤ 2 → groupBad s ((List.range 8).map fun i => fld (argOf r (1 + i)) 0 8) = false →
      exec (.weightsGroup m) s = .next (reply r 0 []
        (modBnd (fun b => { b with group := (List.range 8).map fun i => fld (argOf r (1 + i)) 0 8 }) (taken s)))) ∧
    (subOf r = 1 → installState s = false → exec (.weightsBegin m (some all)) s = .next (reply r 0x0902 [] (taken s)))

/-- lc.set, towards service and out of it (R295, R482, R494 to R496). -/
def Obligations.LifeCycle : Prop := LifeCycleForward ∧ LifeCycleBackward

/-- From the input to the hand-over: VIN42 at 38 V, PKG_RST_N released, island rails good, the boot ROM, PLL lock and the
firmware, each only from the state before it; the cold start is counted, and a first image that fails is reported (R465, R473,
R484, R485, R514, R516). -/
def Sys2Proof.Claim.StartSequence : Prop :=
  ∀ (s : State) (mv : Nat) (straps : BitVec 10) (slot : Bool),
    (38000 ≤ mv → s.pins.vinOk = false → s.boot.stage ≠ .holdup → exec (.vinReach38V mv) s =
      .next (modPw (fun w => { w with millivolts := mv, outKind := 0, outFor := 1 }) (modPins (fun p => { p with vinOk := true }) s))) ∧
    (mv < 38000 → exec (.vinReach38V mv) s = .next s) ∧
    exec .pkgRstRelease s = .next (modPins (fun p => { p with pkgRst := true }) s) ∧
    (s.pins.vinOk = true → s.pins.pkgRst = true → s.boot.stage = .unpowered →
      ∃ t, exec (.islandRailsGood straps) s = .next t ∧ t.boot.stage = .island ∧ t.pins.islOk = true ∧ t.pins.straps = straps ∧
        t.host.hm.pkgId = straps.setWidth 7 ∧ t.host.sb.smbAddr = 0x60 + straps.toNat / 128 ∧ t.x = s.x ∧ t.sec = s.sec) ∧
    (s.pins.vinOk = false ∨ s.pins.pkgRst = false → exec (.islandRailsGood straps) s = .next s) ∧
    (s.boot.stage = .island → s.sec.lifecycle ≠ 4 → fwCheck s (slotImg s (s.boot.prefer.getD false)) = 0 →
      exec .bootRomStart s = .next (modBoot (fun b => { b with stage := .rom, booted := some (s.boot.prefer.getD false) }) s)) ∧
    (s.boot.stage = .island → s.sec.lifecycle ≠ 4 → fwCheck s s.boot.slotA ≠ 0 → fwCheck s s.boot.slotB ≠ 0 →
      exec .bootRomStart s =
        .next (modPins (fun p => { p with faultN := true }) (modBoot (fun b => { b with stage := .recovery }) s))) ∧
    (s.boot.stage = .island → s.sec.lifecycle = 4 → exec .bootRomStart s =
      .next (modPins (fun p => { p with faultN := true }) (modBoot (fun b => { b with stage := .retired }) s))) ∧
    (s.pins.rootOk = true → s.boot.pllOk = false → s.boot.stage = .rom →
      ∃ t, exec .pllLocked s = .next t ∧ t.boot.pllOk = true ∧ t.boot.stage = .rom ∧ t.pw.rails = true ∧ t.host.ep.canTrain = true ∧
        (∀ p, p < 18 → (portOf s p).st = .idle → (portOf s p).dead = false → (portOf t p).st = .detect) ∧ t.x = s.x) ∧
    (s.boot.stage = .rom → s.boot.booted = some slot → s.boot.rejected = none → s.pins.rootOk = true →
      ∃ t, exec .firmwareHandover s = .next t ∧ t.boot.stage = (if s.boot.pllOk then .training else .firmware) ∧
        t.host.log.coldStarts = min (s.host.log.coldStarts + 1) 0xFFFF ∧ t.boot.startType = startTypeOf s.boot ∧
        t.sec.nonce = none ∧ t.sec.startValue.length = 32 ∧ t.host.log.main = s.host.log.main ∧ t.x = s.x)

/-- The package becomes ready once training is done and the repairs of the record are applied, provided the minimum serving set is
whole, and reports it by event 0x1201; otherwise it declares itself failed (R371, R515, R516). -/
def Sys2Proof.Claim.StartCompletes : Prop :=
  ∀ (s : State) (failed : List (Fin 16)),
    (s.boot.stage = .training → s.boot.warm = false → s.boot.startType ≠ 0 →
      exec (.hbmTrainingDone failed) s = .next (modBoot (fun b => { b with stage := .repairs }) s)) ∧
    (s.boot.stage = .training → s.boot.warm = true → failed = [] → (∀ k, k < 16 → k ∈ s.boot.trained) →
      exec (.hbmTrainingDone failed) s = .next (modBoot (fun b => { b with stage := .ready }) s)) ∧
    (s.boot.stage = .repairs → s.health.repairs = [] → s.car.ring = [] → s.car.dropped = [] → s.host.hm.failed = false →
      (setLacks s = none → ∃ t, exec (.hardRepairsDone []) s = .next (tryJoin t) ∧
        t = logPkg 0x1201 false s.boot.startType s.host.log.coldStarts (modHm (fun h => { h with ready := true })
          (modBoot (fun b => { b with stage := .ready, cleanStop := false }) s))) ∧
      (∀ e, setLacks s = some e → ∃ t, exec (.hardRepairsDone []) s = .next t ∧ t.host.hm.failed = true ∧ t.host.hm.failCause = 1 ∧
        t.host.hm.ready = s.host.hm.ready)) ∧
    (s.boot.stage ≠ .repairs → exec (.hardRepairsDone []) s = .next s)

/-- PKG_RST_N low for 10 microseconds or more, and the end of the hold-up, are a cold start: fuses, the record area, firmware slots
and bond store are kept and all else is as at reset; a pulse below 1 microsecond is ignored. A root clock lost before the
firmware runs takes the rails down (R443, R473, R475, R477, R478). -/
def Sys2Proof.Claim.ColdStartKeeps : Prop :=
  ∀ (s : State) (ns ppm : Nat),
    (10000 ≤ ns → ∃ t, exec (.pkgRstAssert ns) s = .next t ∧ t.pins.pkgRst = false ∧ t.boot.stage = .unpowered ∧ FusedAs s t ∧
      t.boot.rollback = s.boot.rollback ∧ t.sec.lifecycle = s.sec.lifecycle ∧ t.sec.ownerRoot = s.sec.ownerRoot ∧
      t.sec.keyTable = s.sec.keyTable ∧ t.x.bond = s.x.bond ∧ t.bnd.manifest = s.bnd.manifest ∧ t.boot.slotA = s.boot.slotA ∧
      t.boot.slotB = s.boot.slotB ∧ t.health.repairs = s.health.repairs ∧ t.host.log.prot = s.host.log.prot ∧
      t.host.log.coldStarts = s.host.log.coldStarts ∧ t.host.log.main = [] ∧ t.x.sram = [] ∧ t.x.hbm = [] ∧ t.parts = [] ∧
      t.host.mbx = [] ∧ t.host.journal = [] ∧ t.host.hm.intStatus = 0 ∧ t.tot = []) ∧
    (ns < 1000 → exec (.pkgRstAssert ns) s = .next s) ∧
    (s.boot.stage = .holdup → ∃ t, exec .holdupExhausted s = .next t ∧ t.boot.stage = .unpowered ∧ FusedAs s t ∧
      t.host.log.prot = s.host.log.prot ∧ t.x.bond = s.x.bond ∧ t.x.sram = [] ∧ t.pins.faultN = false) ∧
    (s.boot.stage = .island → exec (.rootClockLost ppm) s = .next (modPw (fun w => { w with rails := false })
      (modBoot (fun b => { b with pllOk := false })
        (modPins (fun p => { p with rootOk := false, rootPpm := min ppm 0xFFFFFFFF }) s)))) ∧
    (s.boot.stage = .ready → s.host.hm.failed = false → ∃ t, exec (.rootClockLost ppm) s = .next t ∧ t.pw.rails = false ∧
      t.host.hm.failed = true ∧ t.pins.rootOk = false ∧ t.pins.faultN = true ∧ t.x = s.x)

/-- The endpoint: PERST_N low for 1 microsecond takes the link down, the link comes up only when it can train and PERST_N is high,
and Bus Master Enable is set and cleared per function (R400, R429, R474). -/
def Sys2Proof.Claim.EndpointPins : Prop :=
  ∀ (s : State) (ns : Nat) (fn : FnId),
    (ns < 1000 → exec (.perstAssert ns) s = .next s) ∧
    (1000 ≤ ns → s.host.ep.linkUp = false → exec (.perstAssert ns) s = .next (modEp (fun e => { e with perst := false }) s)) ∧
    (1000 ≤ ns → s.host.ep.linkUp = true → ∃ t, exec (.perstAssert ns) s = .next t ∧ t.host.ep.linkUp = false ∧
      t.host.ep.perst = false ∧ t.host.ep.bme = [] ∧ t.host.ep.ide = .none) ∧
    exec .perstRelease s = .next (modEp (fun e => { e with perst := true }) s) ∧
    (s.host.ep.canTrain = true → s.host.ep.perst = true → s.host.ep.loopback = false → s.health.iod0Out = false →
      exec .pcieLinkUp s = .next (modEp (fun e => { e with linkUp := true }) s)) ∧
    (s.host.ep.canTrain = false ∨ s.host.ep.perst = false ∨ s.host.ep.loopback = true ∨ s.health.iod0Out = true →
      exec .pcieLinkUp s = .next s) ∧
    (s.host.ep.linkUp = true → ∃ t, exec (.busMasterEnableWrite fn true) s = .next t ∧ (∀ f, f ∈ t.host.ep.bme ↔ f = fnNo fn ∨ f ∈ s.host.ep.bme) ∧
      t = modEp (fun e => { e with bme := t.host.ep.bme }) s) ∧
    (s.host.ep.linkUp = true → ∃ t, exec (.busMasterEnableWrite fn false) s = .next t ∧ (∀ f, f ∈ t.host.ep.bme ↔ f ≠ fnNo fn ∧ f ∈ s.host.ep.bme) ∧
      t = modEp (fun e => { e with bme := t.host.ep.bme }) s)

/-- Function resets: the reset function's mailboxes are free, its requests run to their end with their replies discarded, Bus Master
Enable is clear, and a partition with no step in flight is closed; a reset of the physical function, a hot reset and the loss
of the link reset every function, and the latter two end the IDE stream (R407, R474; log 76). -/
def Sys2Proof.Claim.FunctionResets : Prop :=
  ∀ (s : State) (n : Fin 32),
    (∃ t, exec (.flrVf n) s = .next t ∧ (∀ j : Fin 4, mbxOf t (.vf n j) = {}) ∧ n.val ∉ t.host.ep.bme ∧
      (∀ r ∈ t.host.journal, ∀ j : Fin 4, r.mbx = .vf n j → r.discard = true) ∧ t.host.journal.length = s.host.journal.length ∧
      t.x.bond = s.x.bond ∧ t.sec.lifecycle = s.sec.lifecycle) ∧
    (∃ t, exec .flrPf s = .next t ∧ (∀ j : Fin 8, mbxOf t (.pf j) = {}) ∧ t.host.ep.bme = [] ∧
      (∀ r ∈ t.host.journal, r.mbx ≠ .sideband → r.discard = true)) ∧
    (∃ t, exec .hotReset s = .next t ∧ (∀ j : Fin 8, mbxOf t (.pf j) = {}) ∧ t.host.ep.bme = [] ∧ t.host.ep.ide = .none ∧ t.sec.doe = {}) ∧
    (∃ t, exec .pcieLinkDown s = .next t ∧ t.host.ep.linkUp = false ∧ t.host.ep.bme = [] ∧ t.host.ep.ide = .none)

/-- The DMA read of a command fails: it is answered with status 0x0D08, and the failure is counted and reported by event 0x0D01
(R429). -/
def Sys2Proof.Claim.DmaReadFails : Prop :=
  ∀ (s : State) (m : MbxId) (r : Request) (rest : List Request), s.host.journal = r :: rest → r.mbx = m →
    (cmdOf r = 0x0201 → dmaOpen s 32 = true → exec (.dmaReadFailure m) s =
      .next (reply r 0x0D08 [] (logPkg 0x0D01 false 32 0x0201 (totAdd (tHost + 6) 1 (taken s))))) ∧
    (cmdOf r = 0x0401 → dmaOpen s (partArg r) = true → exec (.dmaReadFailure m) s =
      .next (reply r 0x0D08 [] (logPkg 0x0D01 false (partArg r) 0x0401 (totAdd (tHost + 6) 1 (taken s)))))

/-- A start from its pins to Ready, and what a cold start keeps (R371, R443, R465, R473, R475, R477, R478, R484, R485, R514
to R516). -/
def Obligations.StartUp : Prop := StartSequence ∧ StartCompletes ∧ ColdStartKeeps

/-- Resets and events of the PCI Express endpoint (R400, R407, R429, R474). -/
def Obligations.EndpointEvents : Prop := EndpointPins ∧ FunctionResets ∧ DmaReadFails

/-- The SPDM responder: GET_VERSION begins a connection anew on either transport, GET_CAPABILITIES settles the version and
NEGOTIATE_ALGORITHMS the algorithms; each is answered, and before them a request that needs them gets an error (R489; codes and
layouts of the DMTF specification, log 13). -/
def Sys2Proof.Claim.SpdmConnection : Prop :=
  ∀ (s : State) (doe : Bool) (msg : List Byte), spdmUp s doe = true →
    (exec (.spdmGetVersion doe msg) s = .next (spdmSend doe [0x10, 0x04, 0, 0, 0, 2, 0x00, 0x12, 0x00, 0x13] (modSpdm doe (fun _ => {}) s))) ∧
    (byteAt msg 0 = 0x12 ∨ byteAt msg 0 = 0x13 → ∃ t, exec (.spdmGetCapabilities doe msg) s = .next t ∧
      (spdmOf t doe).version = byteAt msg 0 ∧ (spdmOf t doe).caps = true ∧ (spdmOf t doe).algs = false ∧
      (spdmOf t doe).reply.take 2 = [b8 (byteAt msg 0), 0x61] ∧ spdmOf t (!doe) = spdmOf s (!doe) ∧ t.host.mbx = s.host.mbx) ∧
    ((spdmOf s doe).caps = true → ∃ t, exec (.spdmNegotiateAlgorithms doe msg) s = .next t ∧ (spdmOf t doe).algs = true ∧
      (spdmOf t doe).reply.take 2 = [b8 (spdmOf s doe).version, 0x63] ∧ spdmOf t (!doe) = spdmOf s (!doe)) ∧
    ((spdmOf s doe).caps = false → ∃ t, exec (.spdmNegotiateAlgorithms doe msg) s = .next t ∧
      (spdmOf t doe).reply = [b8 (spdmOf s doe).version, 0x7F, 4, 0] ∧ (spdmOf t doe).algs = (spdmOf s doe).algs)

/-- After the algorithms are settled: digests and certificates come from the identity chain, a challenge and a measurement report are
signed by the identity key, whose signature is a free value (R487 to R489; log 11, 13). -/
def Sys2Proof.Claim.SpdmAuthentication : Prop :=
  ∀ (s : State) (doe : Bool) (msg : List Byte), spdmUp s doe = true → (spdmOf s doe).algs = true →
    (exec (.spdmGetDigests doe msg) s = .next (spdmSend doe ([b8 (spdmOf s doe).version, 0x01, 0, 1] ++ sha256 s.sec.chain)
      { s with free := s.free + 1 })) ∧
    (∀ o n bs, byteAt msg 2 % 16 = 0 → o = byteAt msg 4 + 256 * byteAt msg 5 → n = byteAt msg 6 + 256 * byteAt msg 7 →
      o < s.sec.chain.length → bs = slice s.sec.chain o n →
      exec (.spdmGetCertificate doe msg) s = .next (spdmSend doe ([b8 (spdmOf s doe).version, 0x02, 0, 0] ++
        (natBytes 2 bs.length ++ natBytes 2 (s.sec.chain.length - o - bs.length) ++ bs)) { s with free := s.free + 1 })) ∧
    (∃ nonce sg : List Byte, nonce.length = 32 ∧ sg.length = 64 ∧
      exec (.spdmChallenge doe msg) s = .next (spdmSend doe ([b8 (spdmOf s doe).version, 0x03, 0, 1] ++
        (sha256 s.sec.chain ++ nonce ++ sg)) { s with free := s.free + 3 })) ∧
    (∀ i, 1 ≤ i → i ≤ 8 → byteAt msg 3 = i → bitOf (w32 (byteAt msg 2)) 0 = false →
      exec (.spdmGetMeasurements doe msg) s = .next (spdmSend doe ([b8 (spdmOf s doe).version, 0x60, 8, 0] ++
        (1 :: natBytes 3 43 ++ ([b8 i, 1, 35, 0, b8 (measureType i), 32, 0] ++ measurement s i))) { s with free := s.free + 1 }))

/-- A session on DOE: KEY_EXCHANGE holds one in place of any other, FINISH completes it when the requester's data is right and ends it
when not, KEY_UPDATE counts, END_SESSION ends it; on MCTP sessions are refused (R489; log 13). -/
def Sys2Proof.Claim.SpdmSessions : Prop :=
  ∀ (s : State) (msg : List Byte), spdmUp s true = true → s.sec.doe.algs = true →
    (∃ t id, exec (.spdmKeyExchange true msg) s = .next t ∧ t.sec.doe.session = some id ∧ t.sec.doe.finished = false ∧
      id % 65536 = byteAt msg 4 + 256 * byteAt msg 5 ∧ t.sec.mctp = s.sec.mctp ∧ t.host.ep = s.host.ep) ∧
    (s.sec.doe.session.isSome = true → s.sec.doe.finished = false →
      (∃ t, exec (.spdmFinish true msg true) s = .next t ∧ t.sec.doe.finished = true ∧ t.sec.doe.session = s.sec.doe.session) ∧
      (∃ t, exec (.spdmFinish true msg false) s = .next t ∧ t.sec.doe.session = none)) ∧
    (s.sec.doe.session.isSome = true → s.sec.doe.finished = true →
      ∃ t, exec (.spdmKeyUpdate true msg) s = .next t ∧ t.sec.doe.keyUpdates = s.sec.doe.keyUpdates + 1 ∧
        t.sec.doe.session = s.sec.doe.session) ∧
    (s.sec.doe.session.isSome = true →
      ∃ t, exec (.spdmEndSession true msg) s = .next t ∧ t.sec.doe.session = none ∧ t.sec.doe.finished = false) ∧
    (spdmUp s false = true → s.sec.mctp.algs = true → ∃ t, exec (.spdmKeyExchange false msg) s = .next t ∧
      t.sec.mctp.session = s.sec.mctp.session ∧ t.sec.mctp.reply.getD 2 0 = 7)

/-- The link IDE stream: keys are programmed and the stream starts and stops only within a finished session; an integrity failure
makes a secure stream insecure and is reported by event 0x1003 (R490; log 13). -/
def Obligations.LinkIde : Prop :=
  ∀ (s : State) (msg : List Byte) (id : Byte),
    (spdmUp s true = true → s.sec.doe.session.isSome = true → s.sec.doe.finished = true →
      (byteAt msg 1 = 2 → s.host.ep.ide ≠ .secure → ∃ t, exec (.ideKm msg) s = .next t ∧ t.host.ep.ide = .keyed ∧ t.sec.mctp = s.sec.mctp) ∧
      (byteAt msg 1 = 4 → s.host.ep.ide = .keyed → ∃ t, exec (.ideKm msg) s = .next t ∧ t.host.ep.ide = .secure) ∧
      (byteAt msg 1 = 5 → ∃ t, exec (.ideKm msg) s = .next t ∧ t.host.ep.ide = .none)) ∧
    (s.sec.doe.session = none → exec (.ideKm msg) s = .next s) ∧
    (s.host.ep.ide = .secure → exec (.ideIntegrityFailure id) s =
      .next (logPkg 0x1003 false id.toNat 0 (modEp (fun e => { e with ide := .insecure }) s))) ∧
    (s.host.ep.ide ≠ .secure → exec (.ideIntegrityFailure id) s = .next s)

/-- The type 0x7E channel acts as one further PF mailbox that holds one message at a time: a message that passes every check is
journaled and the channel is taken until the reply; a second request before the reply is answered with status 0x0D04; and a
command whose Functions column does not name the sideband is answered with status 0x0C03. -/
def Obligations.SidebandMailbox : Prop :=
  ∀ (s : State) (msg : List Word) (r : Request), r = { mbx := .sideband, words := msg, bytes := 4 * msg.length } →
    s.pins.islOk = true → iod0Reach s = true → s.host.hm.gone = false →
    ((mbxOf s .sideband).st = .free → postStatus s r = 0 → exec (.sidebandMailbox msg) s = .next (modJournal
      (fun j => j ++ [{ r with due := (replyBound s r).map (s.now + ·) }]) (hmJournal msg (totAdd tHost 1
        (modMbx .sideband (fun b => { b with st := .posted, req := msg }) s))))) ∧
    ((mbxOf s .sideband).st ≠ .free → exec (.sidebandMailbox msg) s = .next (emit (.smbus (bytesOfWords (replyWords r 0x0D04 [])))
      (totAdd (tHost + 1) 1 (totAdd tHost 1 s)))) ∧
    (cmdOf r ∈ commandCodes → cmdOf r ∉ [0x0601, 0x0602, 0x0701, 0x0801, 0x0A01, 0x0B01] → 2 ≤ msg.length → msg.length ≤ 64 →
      s.boot.stage ≠ .recovery → s.boot.stage ≠ .retired → (mbxOf s .sideband).st = .free →
      exec (.sidebandMailbox msg) s = .next (reply r 0x0C03 [] (hmJournal msg (totAdd tHost 1
        (modMbx .sideband (fun b => { b with st := .posted, req := msg }) s)))))

/-- MCTP control and PLDM are answered on the sideband and change nothing else but the endpoint identifier; a sensor that crosses a
threshold pulls SMB_ALERT_N low until the alert response (R431, R433, R466; codes and layouts of the DMTF, log 78). -/
def Obligations.SidebandManagement : Prop :=
  ∀ (s : State) (cmd ty : Byte) (data : List Byte) (rs : List Nat),
    (s.pins.islOk = true → iod0Reach s = true → cmd = 2 → exec (.mctpControl cmd data) s = .next (emit (.smbus [0, 2, 0, b8 s.host.sb.eid, 0, 0])
      (modSb (fun b => { b with reply := [0, 2, 0, b8 s.host.sb.eid, 0, 0] }) s))) ∧
    (s.pins.islOk = true → iod0Reach s = true → cmd = 1 → byteAt data 0 < 2 → byteAt data 1 ≠ 0 → byteAt data 1 ≠ 255 →
      ∃ t, exec (.mctpControl cmd data) s = .next t ∧ t.host.sb.eid = byteAt data 1 ∧
        t.host.sb.reply = [0, 1, 0, 0, b8 (byteAt data 1), 0] ∧ t.host.mbx = s.host.mbx ∧ t.x = s.x ∧ t.parts = s.parts) ∧
    (s.pins.islOk = true → iod0Reach s = true → firmwareRuns s = true → ty = 2 → cmd = 0x21 → byteAt data 0 + 256 * byteAt data 1 = 11 →
      exec (.pldmRequest ty cmd data) s = .next (emit (.smbus [1, 2, 0x21, 0, 1, 0, b8 (shownState s), 0, 0])
        { modSb (fun b => { b with reply := [1, 2, 0x21, 0, 1, 0, b8 (shownState s), 0, 0] }) s with free := s.free + 1 })) ∧
    (s.pins.islOk = true → iod0Reach s = true → s.dv.lowered = [] → (∀ n, n < 10 → rs.getD n 0 < 80) → 38 ≤ rs.getD 1 0 → rs.getD 1 0 ≤ 46 →
      exec (.pldmSensorUpdate rs) s = .next (modSb (fun b => { b with sensors := rs, crossed := [] }) s)) ∧
    (s.pins.islOk = true → iod0Reach s = true → s.dv.lowered = [] → 110 ≤ rs.getD 3 0 → s.host.sb.crossed = [] →
      ∃ t, exec (.pldmSensorUpdate rs) s = .next t ∧ t.host.sb.alert = true ∧ t.host.sb.sensors = rs) ∧
    exec .smbAlertResponse s = .next (modSb (fun b => { b with alert := false }) s)

/-- SPDM from a connection to a session (R487 to R489). -/
def Obligations.SecureSessions : Prop := SpdmConnection ∧ SpdmAuthentication ∧ SpdmSessions

/-- careen.report: SUMMARY and RESULTS read what was found; SHUTDOWN and RUN are accepted with nothing under way and the rails up,
RUN and CLEAR in Manufacturing and Returned only; ABORT marks the run; CLEAR empties ring and summaries (R500 to R502, R509,
R511). -/
def Obligations.CareenCommands : Prop :=
  ∀ (s : State) (m : MbxId) (r : Request), Heads s m 0x0A01 r →
    (subOf r = 1 → exec (.careenSummary m) s =
      .next (reply r 0 (tgetD s.car.summaries (fld (argOf r 1) 0 2) (List.replicate 16 0)) (taken s))) ∧
    (subOf r = 2 → exec (.careenResults m) s = .next (reply r 0
      ([w32 s.car.ring.length, w32 (fld (argOf r 1) 0 12 + (slice s.car.ring (fld (argOf r 1) 0 12) 7).length)] ++
        (slice s.car.ring (fld (argOf r 1) 0 12) 7).flatten) (taken s))) ∧
    (subOf r = 3 → s.car.run = none → s.car.starting = false → s.pw.rails = true → s.sec.lifecycle ≠ 4 → stateRefusals s .drydock = 0 →
      s.car.inService = none → drained s = false → exec (.careenShutdown m) s =
        .next (modCar (fun c => { c with starting := true, queue := [] }) (modDv (fun d => { d with goal := [33, 33, 33, 33] })
          (reply r 0 [] (taken s))))) ∧
    (subOf r = 3 → s.car.run = none → s.car.starting = false → s.pw.rails = true → s.sec.lifecycle ≠ 4 → stateRefusals s .drydock ≠ 0 →
      exec (.careenShutdown m) s = .next (reply r 0x0E01 [w32 (stateRefusals s .drydock)] (taken s))) ∧
    (subOf r = 4 → s.sec.lifecycle = 0 ∨ s.sec.lifecycle = 3 → s.car.run = none → s.car.starting = false → s.pw.rails = true →
      fld (argOf r 1) 1 12 ≠ 0 → bitOf (argOf r 1) 9 = false →
      ∃ t q, exec (.careenRun m) s = .next t ∧ t.car.run = some q ∧ q.kind = 2 ∧ q.tests = 2 * fld (argOf r 1) 1 12 ∧
        q.element = (argOf r 2).toNat ∧ q.startNs = s.now ∧ t.car.runId = (s.car.runId + 1) % 2 ^ 32 ∧ t.x.sram = [] ∧
        (∀ p, p < 18 → (portOf t p).st = .idle) ∧ t.dv.goal = [33, 33, 33, 33]) ∧
    (subOf r = 4 → s.sec.lifecycle ≠ 0 → s.sec.lifecycle ≠ 3 → exec (.careenRun m) s = .next (reply r 0x1101 [] (taken s))) ∧
    (subOf r = 5 → exec (.careenAbort m) s =
      .next (reply r 0 [] (modCar (fun c => { c with run := c.run.map fun x => { x with abort := true } }) (taken s)))) ∧
    (subOf r = 6 → s.sec.lifecycle = 0 ∨ s.sec.lifecycle = 3 → exec (.careenClear m) s =
      .next (reply r 0 [] (modCar (fun c => { c with ring := [], summaries := [] }) (taken s))))

/-- The shutdown run goes through its phases one after another and ends in Drydock with a summary whose COMPLETE says that it was not
aborted; the engine run leaves the package in Quayside (R500, R504, R509). -/
def Sys2Proof.Claim.CareenRuns : Prop :=
  ∀ (s : State) (run : CareenRun) (peak : Nat), s.car.run = some run →
    (run.kind = 0 → run.phase < 13 → run.phase ≠ 11 → run.abort = false → exec (.careenPhaseDone [] peak) s =
      .next (modCar (fun c => { c with run := some { run with peak := max run.peak peak, phase := run.phase + 1 } }) s)) ∧
    (run.kind = 0 → run.phase = 13 → ∃ t, exec (.careenPhaseDone [] peak) s = .next t ∧ t.car.run = none ∧ t.pw.st = .drydock ∧
      tget t.car.summaries 0 = some (summaryWords s { run with peak := max run.peak peak } (!run.abort)) ∧
      t.boot.quickOk = !run.abort ∧ t.boot.cleanStop = true) ∧
    (run.kind = 2 → ∃ t, exec (.careenEngineRunDone [] peak) s = .next t ∧ t.car.run = none ∧ t.pw.st = .quayside ∧
      tget t.car.summaries 2 = some (summaryWords s { run with peak := max run.peak peak } (!run.abort)) ∧
      t.host.ep.loopback = false) ∧
    (run.kind ≠ 2 → exec (.careenEngineRunDone [] peak) s = .next s) ∧
    exec .careenInserviceStart s = .next s

/-- An in-service test of an isolated block starts when none runs, a block of the serving die is at ratio 33 and the pool holds its
draw; when it ends, its summary is written and a tested cluster's memory reads zero (R506 to R508). -/
def Sys2Proof.Claim.CareenInService : Prop :=
  ∀ (s : State) (k : Fin 48) (rest : List (Nat × Nat)) (run : CareenRun) (ok : Bool),
    (s.car.queue = (2, k.val) :: rest → s.car.inService = none → s.car.run = none → s.car.starting = false → s.host.hm.ready = true →
      s.host.hm.gone = false → s.sec.lifecycle ≠ 4 → s.pw.mode = false → testPower s 2 = true → s.dv.cur.length = 4 →
      33 ≤ s.dv.cur.getD (k.val / 12) 33 →
      ∃ t q, exec .careenInserviceStart s = .next t ∧ t.car.inService = some q ∧ q.kind = 1 ∧ q.block = (2, k.val) ∧ q.startNs = s.now ∧
        t.car.queue = rest ∧ t.dv.cur.getD (k.val / 12) 0 = 33 ∧ t.x = s.x ∧ t.parts = s.parts) ∧
    (s.car.queue = [] → exec .careenInserviceStart s = .next s) ∧
    (s.car.inService = some run → run.block = (2, k.val) →
      ∃ t, exec (.careenInserviceDone [] ok) s = .next t ∧ t.car.inService = none ∧
        tget t.car.summaries run.kind = some (summaryWords s run true) ∧
        t.car.repairable = (if ok then s.car.repairable ++ [run.block] else s.car.repairable) ∧
        (∀ a, a < 2 ^ 24 → sramByte t (clusterAddr k.val a) = 0) ∧
        (MemOk s → ∀ a, (∀ i, i < 8 * 2 ^ 22 → a ≠ coreAddr (8 * k.val) 0 + i) → (∀ i, i < 2 ^ 24 → a ≠ clusterAddr k.val 0 + i) →
          memGet t.x.sram a = memGet s.x.sram a)) ∧
    (s.car.inService = none → exec (.careenInserviceDone [] ok) s = .next s)

/-- The runs of the careen engine, out of service and in it (R500, R504, R506 to R509). -/
def Obligations.CareenRunsAndTests : Prop := CareenRuns ∧ CareenInService

namespace Sys2Proof.Claim

/-- The stream on which packet `p` arrives. -/
def inStream (s : State) (p : Packet) : DstStream := dstOf s p.plane.val (hSrc p.hdr) (hJob p.hdr)
/-- Request `p` is for this package, whole, of a live generation, and next on its stream, which holds nothing ahead (R313,
R321, R331). -/
def Due (s : State) (p : Packet) : Prop :=
  forMe s p = true ∧ wholePacket p = true ∧ genStale s p.hdr = false ∧ (inStream s p).expect = hSeq p.hdr ∧ (inStream s p).held = []
/-- It passes the checks of a request, in a package that runs or waits at the quay (R312, R446). -/
def Right (s : State) (p : Packet) : Prop :=
  ackOnly p.hdr p.data = false ∧ reqStatus s p.hdr p.data = 0 ∧ (s.pw.st = .run ∨ s.pw.st = .quayside)
/-- The request has entered its stream, and its RESULT_ACK has freed replay entries (R321, R327). -/
def entered (p : Packet) (s : State) : State :=
  putDst { inStream s p with held := [(hSeq p.hdr, p.hdr, p.data)] } (freeReplay p.plane.val p.hdr s)
/-- The stream has moved past the request (R321). -/
def moved (p : Packet) (t : State) : State :=
  putDst { inStream t p with expect := (hSeq p.hdr + 1) % 2 ^ 32, held := (inStream t p).held.filter fun e => e.1 != hSeq p.hdr } t
/-- An answer to the request: opcode, status and data. -/
def answer (p : Packet) (op status : Nat) (data : List Byte) (t : State) : State :=
  respond p.plane.val (hSeq p.hdr) p.hdr op status (hAddr p.hdr) data t
/-- The command that a request's opcode and SUBOP make it (R314, R317). -/
def asRequest (p : Packet) : Instr :=
  match hOp p.hdr with
  | 1 => .load p
  | 2 => .store p
  | 3 => .atomic p
  | 4 => if hSub p.hdr = 1 then .qpushClose p else if hSub p.hdr = 2 then .qpushFragment p else .qpushEntry p
  | 5 => if hbmRegion (hOff p.hdr) = 5 then .journalRelease p else .bulk p
  | _ => if hSub p.hdr = 2 then .serviceMirrorWrite p else if hSub p.hdr = 3 then .serviceMirrorFetch p
         else if hSub p.hdr = 4 then .serviceMirrorAck p else .serviceShardRead p

end Sys2Proof.Claim

/-- What a destination does with any request that is for it: a damaged packet and a stale generation are counted and dropped; a
request outside the window is counted, one ahead is held and one behind is not applied again: it gets the ACK of the stream, or
an atomic its kept result. A request that fails a check is answered with ERROR in its turn, and an ACK-only request is only
passed (R313, R321, R322, R326, R331). -/
def Obligations.RequestsRunInOrder : Prop :=
  ∀ (s : State) (p : Packet) (x : DstStream) (d : Nat), forMe s p = true → 1 ≤ hOp p.hdr → hOp p.hdr ≤ 6 → x = inStream s p →
    d = serialDiff (hSeq p.hdr) x.expect (2 ^ 32) →
    (wholePacket p = false → exec (asRequest p) s = .next (totAdd (tLanes + 2) 1 s)) ∧
    (wholePacket p = true → genStale s p.hdr = true → exec (asRequest p) s = .next (totAdd (tLanes + 3) 1 s)) ∧
    (wholePacket p = true → genStale s p.hdr = false →
      (256 ≤ d → d < 2 ^ 31 → exec (asRequest p) s = .next (totAdd (tLanes + 4) 1 (freeReplay p.plane.val p.hdr s))) ∧
      (d ≠ 0 → d < 256 → (∀ e ∈ x.held, e.1 ≠ hSeq p.hdr ∧ e.1 ≠ x.expect) → heldCount s p.plane.val < 4096 →
        exec (asRequest p) s = .next (putDst { x with held := x.held ++ [(hSeq p.hdr, p.hdr, p.data)] }
          (freeReplay p.plane.val p.hdr s))) ∧
      (2 ^ 31 ≤ d → hOp p.hdr ≠ 3 → exec (asRequest p) s = .next
        (sendAck p.plane.val (hSrc p.hdr) (hJob p.hdr) x.expect (freeReplay p.plane.val p.hdr s))) ∧
      (2 ^ 31 ≤ d → hOp p.hdr = 3 → ∀ e, replayOf (freeReplay p.plane.val p.hdr s) p.plane.val p.hdr = some e →
        ∃ t, exec (asRequest p) s = .next t ∧ t.x = s.x ∧ t = cntAdd (hDstPart p.hdr) (cJeren + 3) 1 (respond p.plane.val x.expect
          p.hdr 0x12 e.status (hAddr p.hdr) (natBytes 8 e.result) (freeReplay p.plane.val p.hdr s))) ∧
      (x.expect = hSeq p.hdr → x.held = [] → x.frag = none → ackOnly p.hdr p.data = true →
        exec (asRequest p) s = .next (moved p (entered p s))) ∧
      (x.expect = hSeq p.hdr → x.held = [] → x.frag = none → ackOnly p.hdr p.data = false → reqStatus s p.hdr p.data ≠ 0 → hOp p.hdr ≠ 3 →
        exec (asRequest p) s = .next (moved p (answer p 0x13 (reqStatus s p.hdr p.data) [] (entered p s)))))

/-- LOAD, STORE and ATOMIC in their turn: a load answers the bytes there, a store writes its data and nothing else, an atomic
answers the old value, writes the new one and keeps its answer for a duplicate; an access that its region refuses is answered
with its status and changes no memory (R239, R314, R316, R324, R326). -/
def Obligations.FabricMemoryAccess : Prop :=
  ∀ (s u : State) (p : Packet) (k off old w : Nat), Due s p → (inStream s p).frag = none → Right s p → u = wakeQuay (entered p s) →
    k = hDstPart p.hdr → off = hOff p.hdr → w = atomicWidth p.hdr → old = natOfBytes (hbmRead s k off w) →
    (hOp p.hdr = 1 → hLen p.hdr ≠ 0 → loadStatus s k off (hLen p.hdr) = 0 → exec (.load p) s =
      .next (moved p (answer p 0x10 0 (hbmRead s k off (hLen p.hdr)) (cntAdd k cMemory (cdiv (hLen p.hdr) 64) u)))) ∧
    (hOp p.hdr = 1 → hLen p.hdr ≠ 0 → loadStatus s k off (hLen p.hdr) ≠ 0 → exec (.load p) s =
      .next (moved p (answer p 0x13 (loadStatus s k off (hLen p.hdr)) [] u))) ∧
    (hOp p.hdr = 2 → p.data ≠ [] → storeStatus s k off p.data.length = 0 → ∃ t, exec (.store p) s = .next t ∧
      t = moved p (hbmStore k off p.data (cntAdd k (cMemory + 1) (cdiv p.data.length 64) u)) ∧
      (MemOk s → ∀ a, memGet t.x.hbm (hbmFlat s k off + a) =
        (if a < p.data.length then p.data.getD a 0 else memGet s.x.hbm (hbmFlat s k off + a))) ∧
      (MemOk s → ∀ a, a < hbmFlat s k off → memGet t.x.hbm a = memGet s.x.hbm a)) ∧
    (hOp p.hdr = 2 → p.data ≠ [] → storeStatus s k off p.data.length ≠ 0 → exec (.store p) s =
      .next (moved p (answer p 0x13 (storeStatus s k off p.data.length) [] (storeRefused k off u)))) ∧
    (hOp p.hdr = 3 → storeStatus s k off w = 0 → ∃ t v, exec (.atomic p) s =
      .next (moved p (answer p 0x12 0 (natBytes 8 old) (keepAtomic p.plane.val p.hdr 0 old t))) ∧
      t = hbmStore k off (natBytes w v) (cntAdd k (cMemory + 1) 1 (cntAdd k cMemory 1 u)) ∧
      (hSub p.hdr % 8 = 0 → v = (old + natOfBytes (p.data.take 8)) % 2 ^ (8 * w)) ∧
      (hSub p.hdr % 8 = 1 → v = Nat.land old (natOfBytes (p.data.take 8) % 2 ^ (8 * w))) ∧
      (hSub p.hdr % 8 = 2 → v = Nat.lor old (natOfBytes (p.data.take 8) % 2 ^ (8 * w))) ∧
      (hSub p.hdr % 8 = 3 → v = Nat.xor old (natOfBytes (p.data.take 8) % 2 ^ (8 * w))) ∧
      (hSub p.hdr % 8 = 4 → v = max old (natOfBytes (p.data.take 8) % 2 ^ (8 * w))) ∧
      (hSub p.hdr % 8 = 5 → v = min old (natOfBytes (p.data.take 8) % 2 ^ (8 * w))) ∧
      (hSub p.hdr % 8 = 6 → v = natOfBytes (p.data.take 8) % 2 ^ (8 * w)) ∧
      (hSub p.hdr % 8 = 7 → v = if old = natOfBytes (p.data.take 8) % 2 ^ (8 * w)
        then natOfBytes ((p.data.drop 8).take 8) % 2 ^ (8 * w) else old))

/-- Queue pushes in their turn: a whole entry is placed in its queue, a first fragment is kept and the last one places the entry,
a close is recorded; entry and close wait while the receiver's step slot serves another step, and are passed over for a step
that has committed. An entry that arrives starts the fetch of its cold expert, placed or not (R217, R220, R221, R229, R317). -/
def Obligations.QueuePushes : Prop :=
  ∀ (s u : State) (p : Packet) (m : EMap) (k c q step : Nat), Due s p → Right s p → u = wakeQuay (entered p s) →
    hOp p.hdr = 4 → k = hDstPart p.hdr → c = hOff p.hdr / 4096 % 64 → q = hOff p.hdr / 2 ^ 18 % 16 →
    ((inStream s p).frag = none → hSub p.hdr = 0 → mapOfOp (imgOf s k) (wordAt (wordsOfBytes (p.data.take 64)) 7).toNat = some m →
      step = dwordAt (wordsOfBytes (p.data.take 64)) 0 →
      (p.data.length = emEntry m → emEntry m ≤ 4096 → (partOf s k).run.committed < step → entryReady s k step c = true →
        exec (.qpushEntry p) s = .next (moved p (placeEntry k m step c q p.data (entryArrives k m p.data u)))) ∧
      (p.data.length = emEntry m → emEntry m ≤ 4096 → (partOf s k).run.committed < step → entryReady s k step c = false →
        exec (.qpushEntry p) s = .next (entryArrives k m p.data (entered p s))) ∧
      (p.data.length = emEntry m → emEntry m ≤ 4096 → step ≤ (partOf s k).run.committed →
        exec (.qpushEntry p) s = .next (moved p u)) ∧
      (p.data.length = 4096 → 4096 < emEntry m → exec (.qpushEntry p) s =
        .next (moved p (setFrag p.plane.val p.hdr (some (p.hdr, p.data)) u)))) ∧
    (∀ h0 got, (inStream s p).frag = some (h0, got) → hSub p.hdr = 2 → hAddr h0 = hAddr p.hdr →
      mapOfOp (imgOf s k) (wordAt (wordsOfBytes (got.take 64)) 7).toNat = some m → p.data.length = min (emEntry m - got.length) 4096 →
      step = dwordAt (wordsOfBytes ((got ++ p.data).take 64)) 0 → (partOf s k).run.committed < step → entryReady s k step c = true →
      emEntry m ≤ got.length + p.data.length → exec (.qpushFragment p) s =
        .next (moved p (placeEntry k m step c q (got ++ p.data)
          (entryArrives k m (got ++ p.data) (wakeQuay (setFrag p.plane.val p.hdr none (entered p s))))))) ∧
    ((inStream s p).frag = none → hSub p.hdr = 2 → exec (.qpushFragment p) s = .next (moved p (answer p 0x13 0x0A05 [] u))) ∧
    ((inStream s p).frag = none → hSub p.hdr = 1 → step = dwordAt (wordsOfBytes p.data) 0 → (partOf s k).run.committed < step →
      (entryReady s k step c = true → exec (.qpushClose p) s = .next (moved p (recordClose k c (wordsOfBytes p.data) u))) ∧
      (entryReady s k step c = false → exec (.qpushClose p) s = .next (entered p s)))

/-- BULK in its turn: into the data region its bytes are stored where it says, except into a Ferry buffer whose round is not over,
where it waits; into an inbox region they are stored in the receiver's step slot, and a POST is counted; into a return area they
are a row, which a POST counts; one that nothing maps is refused, and an empty one moves nothing. A release of a next member is written to the input
journal and its step accepted, a step accepted already is passed over, and a release without room waits (R200, R232, R316, R542).
The inbox that an address above the regions names is the model's open value (log 47). -/
def Obligations.BulkAndReleases : Prop :=
  ∀ (s u : State) (p : Packet) (k off n id : Nat), Due s p → (inStream s p).frag = none → Right s p → u = wakeQuay (entered p s) →
    hOp p.hdr = 5 → k = hDstPart p.hdr → off = hOff p.hdr →
    (hbmRegion off = 1 → p.data ≠ [] → storeStatus s k off p.data.length = 0 → ferryBusy u k off p.data = false →
      ∃ t, exec (.bulk p) s = .next t ∧ t = moved p ((if hSub p.hdr = 1 then hbmReturn k off else fun v => v)
        (bulkLand k off p.data (cntAdd k (cMemory + 1) (cdiv p.data.length 64) u))) ∧
      (MemOk s → ∀ a, memGet t.x.hbm (hbmFlat s k off + a) =
        (if a < p.data.length then p.data.getD a 0 else memGet s.x.hbm (hbmFlat s k off + a)))) ∧
    (hbmRegion off = 1 → p.data ≠ [] → storeStatus s k off p.data.length = 0 → ferryBusy u k off p.data = true →
      exec (.bulk p) s = .next (entered p s)) ∧
    (hbmRegion off < 5 → p.data = [] → hSub p.hdr = 0 → exec (.bulk p) s = .next (moved p u)) ∧
    (∀ c o step t, 5 < hbmRegion off → Config.inboxTarget off = some (c, 16, o, step) → (partOf s k).run.committed < step →
      landReturn k c 1 o p.data u = some t → exec (.bulk p) s = .next (moved p
        ((if hSub p.hdr = 1 then countReturn k (fun x => x.step == step && x.cluster == c && inReturn x 1 o) else fun v => v) t))) ∧
    (hbmRegion off < 5 → hbmRegion off ≠ 1 → p.data ≠ [] →
      exec (.bulk p) s = .next (moved p (answer p 0x13 0x0801 [] (storeRefused k off u)))) ∧
    (5 < hbmRegion off → Config.inboxTarget off = none →
      exec (.bulk p) s = .next (moved p (answer p 0x13 0x0802 [] (storeRefused k off u)))) ∧
    (∀ c r o step, 5 < hbmRegion off → Config.inboxTarget off = some (c, r, o, step) → r < 16 → c < 48 →
      (partOf s k).run.committed < step → o + p.data.length ≤ 1024 * inKib (imgOf s k) (hostOf s k c) r → p.data ≠ [] →
      slotReady s (inboxPlace s k step c r o).1 (inboxPlace s k step c r o).2.1 k step = true →
      exec (.bulk p) s = .next (moved p ((if hSub p.hdr = 1 then countPost k step c r else fun t => t)
        (storeRows [((inboxPlace s k step c r o).2.2, p.data)]
          (takeSlot (inboxPlace s k step c r o).1 (inboxPlace s k step c r o).2.1 k step u))))) ∧
    (hbmRegion off = 5 → hbmIn off = 0 → hSub p.hdr = 1 → 64 ≤ p.data.length → id = dwordAt (wordsOfBytes (p.data.take 64)) 0 →
      n = (wordAt (wordsOfBytes (p.data.take 64)) 2).toNat → 64 + n ≤ p.data.length → entryBytes n ≤ ringBytes s k →
      (∀ a, (partOf s k).run.last < id → ringPlace s k (entryBytes n) = some a → ∃ t, exec (.journalRelease p) s = .next (moved p t) ∧
        t = modJr k (fun j => { j with jasm := j.jasm.filter fun e => e.1 != hSrc p.hdr })
          (journalPut k id a (entryOf id ((p.data.drop 64).take n)) (pushStep k { id, inAt := a, inBytes := n, arrivedNs := s.now } u))) ∧
      ((partOf s k).run.last < id → ringPlace s k (entryBytes n) = none → exec (.journalRelease p) s = .next (entered p s)) ∧
      (id ≤ (partOf s k).run.last → exec (.journalRelease p) s =
        .next (moved p (modJr k (fun j => { j with jasm := j.jasm.filter fun e => e.1 != hSrc p.hdr }) u)))) ∧
    (hbmRegion off = 5 → hSub p.hdr = 0 → p.data = [] → exec (.journalRelease p) s = .next (moved p u)) ∧
    (hbmRegion off = 5 → hbmIn off = 0 → hSub p.hdr = 0 → 16 ≤ p.data.length → exec (.journalRelease p) s =
      .next (moved p (modJr k (fun j => { j with jasm := (j.jasm.filter fun e => e.1 != hSrc p.hdr) ++
        [(hSrc p.hdr, 64 + (wordAt (wordsOfBytes (p.data.take 16)) 2).toNat, p.data)] }) u)))

/-- Service requests in their turn. A shard read by a member with this package's manifest is answered with the shard in 4,096
pieces, and one for a shard that cannot be served with 0x0A09. A mirror write that is well formed is written and answered; a
mirror fetch is answered with the page in 4 KiB pieces, or with 0x0A09; an acknowledgement ends action 2 of its step, or marks a
page to be sent again (R284, R315, R350, R353 to R357). -/
def Obligations.ServiceRequests : Prop :=
  ∀ (s u : State) (p : Packet) (ws : List Word), Due s p → (inStream s p).frag = none → Right s p → u = wakeQuay (entered p s) →
    hOp p.hdr = 6 → ws = wordsOfBytes p.data →
    (hSub p.hdr = 1 → s.sec.lifecycle = 2 → (manifest s).isSome = true → slice ws 1 8 = mfTag s.bnd.manifest → p.data.length = 40 →
      s.bnd.group.getD (wordAt ws 9).toNat 0 = 128 + hSrc p.hdr → (wordAt ws 0).toNat < mfStripes s.bnd.manifest →
      shardHeld s (wordAt ws 0).toNat = false → ∃ pieces : List (List Byte), pieces.length = 4096 ∧ (∀ b ∈ pieces, b.length = 4096) ∧
        pieces.flatten.take (shBytes s.bnd.manifest (wordAt ws 0).toNat) = (memRead s.x.bond (shardFlat (wordAt ws 0).toNat)
          (shBytes s.bnd.manifest (wordAt ws 0).toNat)).take (2 ^ 24) ∧
        exec (.serviceShardRead p) s = .next (moved p ((List.range 4096).foldl (fun t i => respond p.plane.val (hSeq p.hdr) p.hdr 0x14 0
          (hAddr p.hdr / 2 ^ 24 * 2 ^ 24 + 4096 * i) (pieces.getD i []) t) (totAdd (tBond + 4) 1 u)))) ∧
    (hSub p.hdr = 1 → s.sec.lifecycle ≠ 2 → slice ws 1 8 = mfTag s.bnd.manifest →
      exec (.serviceShardRead p) s = .next (moved p (answer p 0x14 0x0A09 [] (totAdd (tBond + 5) 1 u)))) ∧
    (hSub p.hdr = 2 → recordFormOk p.data = true → fld (wordAt (wordsOfBytes (p.data.take 64)) 0) 0 4 ≤ 3 →
      exec (.serviceMirrorWrite p) s = .next (moved p (answer p 0x14 0 [] (mirrorWrite p.data u).2))) ∧
    (hSub p.hdr = 2 → recordFormOk p.data = false →
      exec (.serviceMirrorWrite p) s = .next (moved p (answer p 0x13 0x0A05 [] u))) ∧
    (∀ m key, hSub p.hdr = 3 → p.data.length = 64 → reservedOk ws 0 16 [(0, 4, 5), (1, 0, 24), (2, 0, 32)] = true →
      m = tgetD s.cont.mirror (fld (wordAt ws 0) 4 5) {} →
      key = mirrorKey (fld (wordAt ws 1) 0 16) (fld (wordAt ws 1) 16 8) (wordAt ws 2).toNat →
      (mirrorPage m key ≠ [] → key ∉ m.badPages → exec (.serviceMirrorFetch p) s = .next (moved p
        ((List.range ((mirrorPage m key).length / 4096)).foldl (fun t i => respond p.plane.val (hSeq p.hdr) p.hdr 0x14 0
          (hAddr p.hdr / 2 ^ 24 * 2 ^ 24 + 4096 * i) (slice (mirrorPage m key) (4096 * i) 4096) t) u))) ∧
      (mirrorPage m key = [] ∨ key ∈ m.badPages →
        exec (.serviceMirrorFetch p) s = .next (moved p (answer p 0x14 0x0A09 [] u)))) ∧
    (hSub p.hdr = 4 → p.data.length = 64 → bitOf (wordAt ws 0) 0 = false → reservedOk ws 0 16 [(0, 0, 1), (0, 4, 5), (1, 0, 32), (2, 0, 32)] = true →
      exec (.serviceMirrorAck p) s = .next (moved p (modStep (fld (wordAt ws 0) 4 5) (dwordAt ws 1) (fun r => { r with acked := true })
        (modCont (fun c => { c with sent := c.sent.filter fun e => !(e.1 == fld (wordAt ws 0) 4 5 && e.2.1 == dwordAt ws 1) })
          (answer p 0x14 0 [] u))))) ∧
    (hSub p.hdr = 4 → p.data.length = 64 → bitOf (wordAt ws 0) 0 = true →
      reservedOk ws 0 16 [(0, 0, 1), (0, 4, 5), (1, 0, 32), (2, 0, 32), (3, 0, 24), (4, 0, 32)] = true →
      ∃ t, exec (.serviceMirrorAck p) s = .next (moved p t) ∧
        (fld (wordAt ws 0) 4 5, fld (wordAt ws 3) 0 16, fld (wordAt ws 3) 16 8, (wordAt ws 4).toNat) ∈ t.cont.resend ∧
        t.cont.sent = s.cont.sent)

namespace Sys2Proof.Claim

/-- The stream of this source that a response `p` speaks of. -/
def outStream (s : State) (p : Packet) : SrcStream := streamOf s p.plane.val (hSrc p.hdr) (hJob p.hdr)
/-- Response `p` is taken here, whole, of the current generation of its job (R313, R322, R331). -/
def Answers (s : State) (p : Packet) : Prop :=
  activePorts s p.plane.val ≠ [] ∧ wholePacket p = true ∧ (hJob p.hdr = serviceJob ∨ genOf s (hJob p.hdr) = hGen p.hdr)
/-- The request of `p`'s stream with `p`'s SEQ, of an opcode in `ops`, is `r`. -/
def Asked (s : State) (p : Packet) (ops : List Nat) (r : OutReq) : Prop :=
  (outStream s p).outs.find? (fun o => o.seq == hSeq p.hdr && decide (hOp o.hdr ∈ ops)) = some r
/-- Request `r` has completed with a status, and the source may send on. -/
def completed (p : Packet) (r : OutReq) (status : Nat) (s : State) : State :=
  pumpDst (hSrc p.hdr) (hJob p.hdr) (noteResponse p.plane.val (hSrc p.hdr) (hJob p.hdr)
    (finishReq p.plane.val (hSrc p.hdr) (hJob p.hdr) r status s))
/-- The command that a response's opcode makes it. -/
def asResponse (p : Packet) : Instr :=
  match hOp p.hdr with
  | 0x10 => .loadResp p
  | 0x11 => .ack p
  | 0x12 => .atomicResp p
  | 0x13 => .error p
  | _ => .serviceResp p

end Sys2Proof.Claim

/-- A response completes the request that it names, with the status that it carries; an ACK completes every STORE, QPUSH and BULK
that it covers; a shard or mirror reply without its last piece leaves its request open. A response that answers nothing is
dropped; a damaged one and one of an old generation are counted (R313, R315, R322, R326, R331, R357). -/
def Obligations.ResponsesCompleteRequests : Prop :=
  ∀ (s : State) (p : Packet) (r : OutReq),
    (Answers s p → hOp p.hdr = 0x10 → Asked s p [1] r → exec (.loadResp p) s = .next (completed p r (hW6 p.hdr % 65536) s)) ∧
    (Answers s p → hOp p.hdr = 0x12 → Asked s p [3] r → exec (.atomicResp p) s = .next (completed p r (hW6 p.hdr % 65536) s)) ∧
    (Answers s p → hOp p.hdr = 0x13 → Asked s p [1, 2, 3, 4, 5, 6] r →
      exec (.error p) s = .next (completed p r (hW6 p.hdr % 65536) s)) ∧
    (Answers s p → hOp p.hdr = 0x11 → exec (.ack p) s = .next (pumpDst (hSrc p.hdr) (hJob p.hdr)
      (((outStream s p).outs.filter fun o => decide (hOp o.hdr ∈ [2, 4, 5]) && seqGe (hSeq p.hdr) o.seq).foldl
        (fun t o => finishReq p.plane.val (hSrc p.hdr) (hJob p.hdr) o 0 t) s))) ∧
    (Answers s p → hOp p.hdr = 0x14 → Asked s p [6] r → hW6 p.hdr % 65536 ≠ 0 ∨ p.data = [] →
      exec (.serviceResp p) s = .next (completed p r (hW6 p.hdr % 65536) s)) ∧
    (∀ m, Answers s p → hOp p.hdr = 0x14 → Asked s p [6] r → hW6 p.hdr % 65536 = 0 → p.data ≠ [] → hSub r.hdr = 1 →
      positionOf s (hSrc p.hdr) = some m →
      (((memberPiece m (hAddr p.hdr / 4096 % 4096) p.data s).bnd.rebuilds.head?.any fun b => (tget b.pieces m).isSome) = true →
        exec (.serviceResp p) s = .next (pumpDst (hSrc p.hdr) (hJob p.hdr) (noteResponse p.plane.val (hSrc p.hdr) (hJob p.hdr)
          (memberPiece m (hAddr p.hdr / 4096 % 4096) p.data s)))) ∧
      (((memberPiece m (hAddr p.hdr / 4096 % 4096) p.data s).bnd.rebuilds.head?.any fun b => (tget b.pieces m).isSome) = false →
        exec (.serviceResp p) s = .next (completed p r 0 (memberPiece m (hAddr p.hdr / 4096 % 4096) p.data s)))) ∧
    (∀ q slot tbl i fs, Answers s p → hOp p.hdr = 0x14 → Asked s p [6] r → hW6 p.hdr % 65536 = 0 → p.data ≠ [] → hSub r.hdr = 3 →
      s.cont.fetches = (q, slot, tbl, i) :: fs →
      ((s.cont.fetched.filter fun e => e.1 != hAddr p.hdr / 4096 % 4096).length + 1 < unitsOf s q slot i →
        exec (.serviceResp p) s = .next (pumpDst (hSrc p.hdr) (hJob p.hdr) (noteResponse p.plane.val (hSrc p.hdr) (hJob p.hdr)
          (modCont (fun c => { c with fetched := (s.cont.fetched.filter fun e => e.1 != hAddr p.hdr / 4096 % 4096) ++
            [(hAddr p.hdr / 4096 % 4096, p.data)] }) s))))) ∧
    (activePorts s p.plane.val ≠ [] → 0x10 ≤ hOp p.hdr → hOp p.hdr ≤ 0x14 →
      (wholePacket p = false → exec (asResponse p) s = .next (totAdd (tLanes + 2) 1 s)) ∧
      (wholePacket p = true → hJob p.hdr ≠ serviceJob → genOf s (hJob p.hdr) ≠ hGen p.hdr →
        exec (asResponse p) s = .next (totAdd (tLanes + 3) 1 s)) ∧
      (Answers s p → hOp p.hdr ≠ 0x11 → (∀ o ∈ (outStream s p).outs, o.seq ≠ hSeq p.hdr) → exec (asResponse p) s = .next s))

/-- The timers of a stream: a destination acknowledges what it has applied since its last ACK; a source without a request to carry it
states RESULT_ACK in a STORE of length 0; a request that is still outstanding is sent again with the same SEQ on the next path,
up to four times in all, after which the stream pauses and the destination is unreachable on that plane; a management packet is
sent again until its answer arrives (R314, R322, R323, R326). -/
def Obligations.StreamTimers : Prop :=
  ∀ (s : State) (plane : Fin 2) (peer : Fin 128) (job : Fin 65536),
    ((dstOf s plane.val peer.val job.val).acked = (dstOf s plane.val peer.val job.val).expect →
      exec (.ackSendTimer plane peer job) s = .next s) ∧
    ((dstOf s plane.val peer.val job.val).acked ≠ (dstOf s plane.val peer.val job.val).expect →
      exec (.ackSendTimer plane peer job) s = .next (transmit plane.val peer.val 0
        (mkHdr 0x11 0 1 job.val (myPkg s) 0 (genOf s job.val) 0 (((dstOf s plane.val peer.val job.val).expect + 2 ^ 32 - 1) % 2 ^ 32) 0 0 0) []
        (putDst { dstOf s plane.val peer.val job.val with acked := (dstOf s plane.val peer.val job.val).expect } s))) ∧
    ((streamOf s plane.val peer.val job.val).resultDue = false → exec (.resultAckTimer plane peer job) s = .next s) ∧
    ((streamOf s plane.val peer.val job.val).resultDue = true → sourceStatus s job.val peer.val = 0 →
      exec (.resultAckTimer plane peer job) s = .next (streamSend plane.val peer.val job.val
        { hdr := mkHdr 0x02 0 0 job.val (myPkg s) 0 (genOf s job.val) (fabAddr peer.val 0 0) 0 0 s.fab.tags 0 }
        (modFab (fun f => { f with tags := (f.tags + 1) % 65536 }) s))) ∧
    (∀ (seq : Word) (r : OutReq) (x : SrcStream), x = streamOf s plane.val peer.val job.val →
      x.outs.find? (fun o => o.seq = seq.toNat) = some r → x.paused = false →
      (r.sends < 4 → exec (.requestResendTimeout plane peer job seq) s =
        .next (transmit plane.val peer.val r.sends (stampHdr r.hdr r.seq (resultAck x)) r.data (putStream { x with
          outs := x.outs.map fun o => if o.seq = r.seq then
            { r with hdr := stampHdr r.hdr r.seq (resultAck x), sends := r.sends + 1 } else o
          resultDue := false } (r.part.elim s fun q => cntAdd q (cJeren + 2) 1 s)))) ∧
      (4 ≤ r.sends → ∃ t, exec (.requestResendTimeout plane peer job seq) s = .next t ∧ (peer.val, plane.val) ∈ t.mgr.unreachable ∧
        (streamOf t plane.val peer.val job.val).paused = true ∧ (streamOf t plane.val peer.val job.val).outs = x.outs ∧ t.x = s.x)) ∧
    (∀ i m, s.fab.mgmt[i]? = some m →
      exec (.mgmtResendTimer i) s = .next (transmit (mgmtPlane s m.plane m.dst) m.dst 0 m.hdr m.data s)) ∧
    (∀ i, s.fab.mgmt.length ≤ i → exec (.mgmtResendTimer i) s = .next s)

namespace Sys2Proof.Claim

/-- Management packet `p` with opcode `op` is for this package and whole (R313, R314). -/
def Managed (s : State) (p : Packet) (op : Nat) : Prop := forMe s p = true ∧ hOp p.hdr = op ∧ wholePacket p = true
/-- The job entry that a JOB_MAP carries. -/
def mapEntry (p : Packet) : Job := jobFrom (wordsOfBytes p.data)
/-- An answer with job and generation to the sender of `p`. -/
def jobAck (p : Packet) (op status j g : Nat) (s : State) : State := mgmtSend op 0 (hSrc p.hdr) status (jobGen j g) s

end Sys2Proof.Claim

/-- What a member does with its manager's packets. TEARDOWN closes the job once and is acknowledged each time; a JOB_MAP adds or
replaces the entry of its job and is acknowledged with a status; JOIN_REPLY ends the wait for a join; MANAGER names the manager
and the standby; ROUTE_TABLE replaces the table of its plane; a packet for another package leaves untouched on its path (R314,
R318, R329, R330, R333, R339, R341). -/
def Obligations.MemberManagement : Prop :=
  ∀ (s : State) (p : Packet) (e : Job) (j g : Nat),
    (Managed s p 0x21 → jobGenOf p.data = (j, g) → jobOf s j = some e → e.gen = g → e.st ≠ .tornDown →
      ∃ t, exec (.teardown p) s = .next (jobAck p 0x22 0 j g t) ∧ t = teardownHere j g s ∧
        jobOf t j = some { e with st := .tornDown }) ∧
    (Managed s p 0x21 → jobGenOf p.data = (j, g) → jobOf s j = none ∨ (∃ x, jobOf s j = some x ∧ (x.gen ≠ g ∨ x.st = .tornDown)) →
      exec (.teardown p) s = .next (jobAck p 0x22 0 j g s)) ∧
    (Managed s p 0x23 → e = mapEntry p → e.job ≠ serviceJob → p.data.length = 20 + 4 * e.members.length →
      fld (wordAt (wordsOfBytes p.data) 0) 26 6 = 0 →
      (myPkg s ∈ e.members → jobOf s e.job = none → s.fab.jobs.length < 64 → activates s none e = none → isPairing e = false →
        jobParts (putJob e s) e.job = [] → e.st = .active → exec (.jobMap p) s = .next (jobAck p 0x24 0 e.job e.gen (putJob e s))) ∧
      (myPkg s ∈ e.members → jobOf s e.job = some e → e.st = .active →
        exec (.jobMap p) s = .next (jobAck p 0x24 0 e.job e.gen s)) ∧
      (myPkg s ∈ e.members → jobOf s e.job = none → 64 ≤ s.fab.jobs.length →
        exec (.jobMap p) s = .next (jobAck p 0x24 0x0A05 e.job e.gen s)) ∧
      (myPkg s ∉ e.members → jobOf s e.job = none → exec (.jobMap p) s = .next (jobAck p 0x24 0 e.job e.gen s))) ∧
    (Managed s p 0x26 → joining s = true →
      (fld (wordAt (wordsOfBytes (p.data.take 4)) 0) 0 16 = 0 → exec (.joinReply p) s = .next (s.fab.joinFor.foldl (fun t r => reply r 0 [] t)
        (modHm (fun h => { h with joined := true, cutOff := false }) (modFab (fun f => { f with
          mgmt := f.mgmt.filter fun m => hOp m.hdr != 0x25
          joinFor := [], refused := false, mySlot := some (fld (wordAt (wordsOfBytes (p.data.take 4)) 0) 16 7), echoNs := s.now }) s)))) ∧
      (∀ st, fld (wordAt (wordsOfBytes (p.data.take 4)) 0) 0 16 = st → st ≠ 0 → s.pw.st ≠ .run →
        exec (.joinReply p) s = .next (s.fab.joinFor.foldl (fun t r => reply r st [] t) (logPkg 0x0A09 false st (myPkg s)
          (modFab (fun f => { f with
            mgmt := f.mgmt.filter fun m => hOp m.hdr != 0x25
            joinFor := [], refused := true, echoNs := s.now }) s))))) ∧
    (Managed s p 0x26 → joining s = false → exec (.joinReply p) s = .next s) ∧
    (∀ k b, Managed s p 0x27 → s.host.hm.joined = true → s.mgr.electing = false → k = fld (wordAt (wordsOfBytes p.data) 0) 0 7 →
      k ≠ myPkg s → b = fld (wordAt (wordsOfBytes p.data) 1) 0 7 → wordAt (wordsOfBytes p.data) 1 ≠ 0xFFFFFFFF → s.host.hm.cutOff = false →
      exec (.manager p) s = .next (modHm (fun h => { h with manager := false }) (modFab (fun f => { f with
        knownMgr := some k, knownStby := some b }) (modMgr (fun x => { x with
          active := false, standby := decide (b = myPkg s), mgrSeenNs := s.now }) s)))) ∧
    (∀ plane, Managed s p 0x2A → s.mgr.active = false → plane = hSub p.hdr % 2 → exec (.routeTable p) s =
      .next (pumpSources (resumeStreams plane (echo p (modFab (fun f => { f with
        routes := (wordsOfBytes p.data).foldl (fun t w => routeEntry plane w t) (f.routes.filter fun q => q.1 / 128 != plane) }) s))))) ∧
    (∀ k, hOp p.hdr < 0x10 ∨ 0x14 < hOp p.hdr → hDstPkg p.hdr ≠ myPkg s → activePorts s p.plane.val ≠ [] → s.fab.refused = false →
      s.pw.st = .run ∨ s.pw.st = .quayside ∨ s.pw.st = .berth →
      (pathPort s (routeOf s p.plane.val (hDstPkg p.hdr)) (hPath p.hdr) = some k →
        exec (.packetForward p) s = .next (portSend k p.hdr p.data s)) ∧
      (pathPort s (routeOf s p.plane.val (hDstPkg p.hdr)) (hPath p.hdr) = none → exec (.packetForward p) s = .next s))

/-- What the manager and its standby do. A TEARDOWN_ACK or JOB_MAP_ACK settles the packet that it answers and is one member less to
wait for; a JOIN is judged when both its packets are there, and turned away with its status; a LEAVE drains the package's jobs; a
record is applied and echoed by the standby, and the manager acts on the change that the echo names; members that have not
acknowledged in time are declared dead (R329, R332, R338, R341, R342, R491). -/
def Obligations.ManagerRole : Prop :=
  ∀ (s : State) (p : Packet) (src j g : Nat), src = hSrc p.hdr →
    (Managed s p 0x22 → jobGenOf p.data = (j, g) → exec (.teardownAck p) s =
      .next (endTeardowns (modMgr (fun m => { m with tds := m.tds.map fun d =>
        if d.job = j ∧ d.gen = g then { d with wait := d.wait.filter (· != src) } else d })
        (mgmtDone 0x21 src (fun d => jobGenOf d == (j, g)) s)))) ∧
    (∀ w, Managed s p 0x24 → jobGenOf p.data = (j, g) → s.mgr.mapWait.find? (fun w => w.1 = j ∧ w.2.1 = g) = some w →
      (hW6 p.hdr % 65536 = 0 → w.2.2.filter (· != src) ≠ [] → exec (.jobMapAck p) s =
        .next (modMgr (fun m => { m with mapWait := (m.mapWait.filter fun x => x.1 != j) ++ [(j, g, w.2.2.filter (· != src))] })
          (mgmtDone 0x23 src (fun d => jobGenOf d == (j, g)) s))) ∧
      (hW6 p.hdr % 65536 = 0 → w.2.2.filter (· != src) = [] → exec (.jobMapAck p) s =
        .next (mapDone j (modMgr (fun m => { m with mapWait := m.mapWait.filter fun x => x.1 != j })
          (mgmtDone 0x23 src (fun d => jobGenOf d == (j, g)) s))))) ∧
    (Managed s p 0x24 → jobGenOf p.data = (j, g) → hW6 p.hdr % 65536 ≠ 0 → s.mgr.mapWait = [] →
      ∃ t, exec (.jobMapAck p) s = .next t ∧ (∀ e ∈ t.mgr.jobs, e.job = j → e.st = .unmapped)) ∧
    (Managed s p 0x25 → s.mgr.active = true → hSub p.hdr = 0 →
      exec (.join p) s = .next (modMgr (fun m => { m with joins := tset m.joins src p.data }) s)) ∧
    (∀ first pkg st, Managed s p 0x25 → s.mgr.active = true → hSub p.hdr ≠ 0 → tget s.mgr.joins src = some first →
      pkg = fld (wordAt (wordsOfBytes ((first ++ p.data).take 4)) 0) 0 7 → st = joinStatus s (first ++ p.data) →
      (∀ e ∈ s.mgr.joined, e.pkg = pkg → e.evid ≠ sha256 (first ++ p.data)) →
      (st ≠ 0 → exec (.join p) s = .next (logPkg 0x0A09 false st pkg (mgmtSend 0x26 0 src st (wordBytes (w32 st))
        (modMgr (fun m => { m with joins := terase m.joins src }) s)))) ∧
      (72 ≤ joinedWith s pkg → st = 0x0A06) ∧ (joinedWith s pkg < 72 → hasJoined s pkg = true → st = 0x0A07)) ∧
    (Managed s p 0x28 → s.mgr.active = true → hasJoined s src = true → src ∉ s.mgr.leaves → exec (.leave p) s =
      .next (endLeave src (((allJobs s).filter fun e => decide (src ∈ e.members)).foldl
        (fun t e => propose 2 src e.job (jobWords { e with st := .draining }) t)
        (modMgr (fun m => { m with leaves := m.leaves ++ [src] }) s)))) ∧
    (Managed s p 0x28 → s.mgr.active = false → exec (.leave p) s = .next s) ∧
    (Managed s p 0x29 → s.mgr.active = false → exec (.stateCopy p) s = .next (echo p (applyRecord (recordFrom p.data) s))) ∧
    (∀ c, Managed s p 0x29 → s.mgr.active = true → s.mgr.stby = some src →
      s.mgr.changes.find? (fun c => recordData c == p.data) = some c → exec (.stateCopyEcho p) s =
        .next (endTeardowns (commitChange c (modMgr (fun m => { m with changes := m.changes.filter fun x => x.id != c.id })
          (mgmtDone 0x29 src (fun d => d == p.data) s))))) ∧
    (∀ (job : Fin 65536) (d : Td), s.mgr.tds.find? (fun d => d.job = job.val) = some d → exec (.teardownDeadline job) s =
      .next (endTeardowns (d.wait.foldl (fun t m => declareDead m t) (modMgr (fun m => { m with
        tds := m.tds.map fun x => if x.job = job.val then { x with wait := [] } else x }) s)))) ∧
    (∀ job : Fin 65536, (∀ d ∈ s.mgr.tds, d.job ≠ job.val) → exec (.teardownDeadline job) s = .next s)

/-- fabric.join of a package that has joined is answered at once, one that can send no JOIN with 0x0A0A, and any other when the
JOIN_REPLY arrives (R341). The status of a JOIN that cannot be sent is the model's choice (log 65). -/
def Obligations.FabricJoining : Prop :=
  ∀ (s : State) (m : MbxId) (r : Request), Heads s m 0x0B01 r →
    (s.host.hm.joined = true → s.host.hm.cutOff = false → exec (.fabricJoin m) s = .next (reply r 0 [] (taken s))) ∧
    (s.host.hm.joined = false → s.fab.knownMgr = none → joining s = false →
      exec (.fabricJoin m) s = .next (reply r 0x0A0A [] (modFab (fun f => { f with refused := false }) (taken s)))) ∧
    (s.host.hm.joined = false → joining s = true → exec (.fabricJoin m) s =
      .next (modFab (fun f => { f with refused := false, joinFor := f.joinFor ++ [r] }) (taken s))) ∧
    (∀ k, s.host.hm.joined = false → canJoin (modFab (fun f => { f with refused := false }) s) = true → s.fab.knownMgr = some k →
      ∃ t, exec (.fabricJoin m) s = .next t ∧ joining t = true ∧ r ∈ t.fab.joinFor ∧
        (t.fab.mgmt.filter fun q => hOp q.hdr == 0x25 && q.dst == k).length = 2 ∧ t.x = s.x)

/-- Heartbeats and elections. A joined package sends its heartbeat at every interval and the manager counts those it misses; the
manager notes a heartbeat and echoes it, and a member notes the echo; a package that is not heard is declared dead, one that
hears nothing is cut off, and the standby that hears nothing of the manager takes its role. A package that has heard of no
manager announces the lowest claimant it knows, and the lowest takes the role when the election settles (R333 to R337, R346). -/
def Obligations.HeartbeatsAndElections : Prop :=
  ∀ (s : State) (p : Packet) (src : Nat) (w : Word), src = hSrc p.hdr → w = wordAt (wordsOfBytes p.data) 0 →
    (Managed s p 0x20 → s.mgr.active = true → s.fab.knownMgr ≠ some src → s.fab.knownStby ≠ some src → bitOf w 1 = false →
      exec (.heartbeat p) s = .next (echo p (modJoined src (fun e => { e with seenNs := s.now, state := w }) s))) ∧
    (Managed s p 0x20 → s.mgr.active = false → s.mgr.standby = false → s.fab.knownMgr = some src → s.host.hm.cutOff = false →
      exec (.heartbeat p) s = .next (modFab (fun f => { f with echoNs := s.now }) s)) ∧
    (s.host.hm.joined = true → s.mgr.active = false →
      exec .heartbeatTimer s = .next (sendHeartbeat (totAdd (tLanes + 6) 0 s))) ∧
    (s.host.hm.joined = true → s.mgr.active = true → exec .heartbeatTimer s = .next (sendHeartbeat (totAdd (tLanes + 6)
      (s.mgr.joined.filter fun e => e.pkg != myPkg s && decide (e.seenNs + 50000 < s.now)).length s))) ∧
    (∀ pkg : Fin 128, s.mgr.active = false ∨ pkg.val = myPkg s ∨ hasJoined s pkg.val = false →
      exec (.heartbeatTimeout pkg) s = .next s) ∧
    (∀ pkg : Fin 128, s.mgr.active = true → pkg.val ≠ myPkg s → hasJoined s pkg.val = true →
      ∃ t, exec (.heartbeatTimeout pkg) s = .next t ∧ hasJoined t pkg.val = false) ∧
    (∀ k, s.mgr.standby = true → s.fab.knownMgr = some k → exec .managerHeartbeatTimeout s =
      .next (seekStandby (declareDead k (takeRole s)))) ∧
    (takeRole s).mgr.active = true ∧ (takeRole s).mgr.standby = false ∧ (takeRole s).fab.knownMgr = some (myPkg s) ∧
    (s.mgr.standby = false → exec .managerHeartbeatTimeout s = .next s) ∧
    (∀ k, s.host.hm.joined = true → s.host.hm.cutOff = false → s.fab.knownMgr = some k → k ≠ myPkg s → exec .cutOffTimeout s =
      .next (logPkg 0x0A0B true k ((s.now - s.fab.echoNs) / 1000) (setSticky 3 (modHm (fun h => { h with cutOff := true }) s)))) ∧
    (s.host.hm.joined = false ∨ s.host.hm.cutOff = true → exec .cutOffTimeout s = .next s) ∧
    (s.fab.knownMgr = none → canClaim s = true → s.mgr.lowest = none → exec .electionAnnounceTimer s =
      .next (toNeighbours 0x27 (managerData (myPkg s) none) (modMgr (fun m => { m with electing := true, lowest := some (myPkg s) }) s))) ∧
    (∀ k, s.fab.knownMgr = none → canClaim s = true → s.mgr.lowest = some k → exec .electionAnnounceTimer s =
      .next (toNeighbours 0x27 (managerData (min k (myPkg s)) none) (modMgr (fun m => { m with
        electing := true, lowest := some (min k (myPkg s)) }) s))) ∧
    (s.mgr.electing = true → s.mgr.lowest = some (myPkg s) → canClaim s = true → ∃ t, exec .electionSettleTimer s = .next t ∧
      t.mgr.active = true ∧ t.mgr.electing = false ∧ t.mgr.stby = none ∧ t.mgr.joined.map (fun e => e.pkg) = [myPkg s] ∧
      t.fab.knownMgr = some (myPkg s) ∧ t.host.hm.manager = true ∧ t.host.hm.joined = true ∧ t.x = s.x) ∧
    (s.mgr.electing = true → s.mgr.lowest ≠ some (myPkg s) →
      exec .electionSettleTimer s = .next (modMgr (fun m => { m with electing := false }) s))

/-- Training of a port: in Detect it sends bursts, a pattern takes it to Equalise, equalisation to Verify, and the exchange of
identities to Active, which is logged; a port of the other plane or of this package stays down. A fast retrain goes straight
back. A lost signal takes an Active port down, and one in training back to Detect (R302, R305, R311). -/
def Obligations.LinkTraining : Prop :=
  ∀ (s : State) (port : Fin 18) (pkg : Fin 128) (far : Fin 18) (life : Fin 5) (mgr : Option (Fin 128)) (q : Port), q = portOf s port.val →
    (q.st = .detect → exec (.detectBurstTimer port) s = .next (emit (.burst port.val) s)) ∧
    (q.st ≠ .detect → exec (.detectBurstTimer port) s = .next s ∧ exec (.trainingPatternReceived port) s = .next s) ∧
    (q.st = .detect → q.dead = false → q.savedEq = false →
      exec (.trainingPatternReceived port) s = .next (modPort port.val (fun x => { x with st := .equalise }) s)) ∧
    (∀ f, q.st = .detect → q.dead = false → q.savedEq = true → q.far = some f → ∃ t, exec (.trainingPatternReceived port) s = .next t ∧
      (portOf t port.val).st = .active ∧ (portOf t port.val).far = some f ∧ (portOf t port.val).savedEq = false ∧ t.x = s.x) ∧
    (q.st = .detect → q.dead = true → exec (.trainingPatternReceived port) s = .next s) ∧
    (q.st = .equalise → q.dead = false →
      exec (.equaliseDone port [] true) s = .next (modPort port.val (fun x => { x with st := .verify }) s) ∧
      exec (.equaliseDone port [] false) s = .next (modPort port.val (fun x => { x with st := .detect }) s)) ∧
    (∀ l : Fin 9, q.st = .equalise → q.dead = false → q.spared = none → q.narrowed = none → q.faulty = [] → l.val ≠ 8 →
      ∃ t, exec (.equaliseDone port [l] true) s = .next t ∧ (portOf t port.val).st = .verify ∧ (portOf t port.val).spared = some l.val ∧
        (portOf t port.val).faulty = [l.val] ∧ (portOf t port.val).narrowed = none ∧ t.x = s.x) ∧
    (q.st ≠ .equalise → exec (.equaliseDone port [] true) s = .next s) ∧
    (q.st = .verify → (far.val / 9 ≠ port.val / 9 ∨ pkg.val = myPkg s) →
      exec (.verifyExchange port pkg far life mgr) s = .next (logPkg 0x0A0C false port.val far.val s)) ∧
    (q.st = .verify → far.val / 9 = port.val / 9 → pkg.val ≠ myPkg s → ∃ t, exec (.verifyExchange port pkg far life mgr) s = .next t ∧
      (portOf t port.val).st = .active ∧ (portOf t port.val).far = some (pkg.val, far.val) ∧ t.x = s.x ∧
      (s.fab.knownMgr = none → t.fab.knownMgr = mgr.map fun m => m.val) ∧ (s.fab.knownMgr ≠ none → t.fab.knownMgr = s.fab.knownMgr)) ∧
    (q.st ≠ .verify → exec (.verifyExchange port pkg far life mgr) s = .next s) ∧
    (q.st = .equalise ∨ q.st = .verify → exec (.linkSignalLost port) s = .next (modPort port.val (fun x => { x with st := .detect }) s)) ∧
    (q.st = .detect ∨ q.st = .idle → exec (.linkSignalLost port) s = .next s) ∧
    (q.st = .active → ∃ t, exec (.linkSignalLost port) s = .next t ∧ (portOf t port.val).st ≠ .active ∧
      (portOf t port.val).replay = [] ∧ (portOf t port.val).txWait = [] ∧ (portOf t port.val).savedEq = false ∧
      tgetD t.tot (tDowns + port.val) 0 = (tgetD s.tot (tDowns + port.val) 0 + 1) % 2 ^ 64)

/-- Flits at an Active port. A good data flit with the FSEQ expected joins the stream and its packets are taken; a gap in FSEQ is
answered with one NAK; a flit that fails its CRC is counted and dropped; ACK fields and NAKs empty or resend the replay buffer. An
ACK that does not advance resends every unacknowledged flit, and the ninth time takes the link down. A spared lane carries
flits once it has equalised (R304, R307 to R310). -/
def Obligations.LinkFlits : Prop :=
  ∀ (s : State) (port : Fin 18) (bytes r : List Byte) (q : Port), q = portOf s port.val →
    (q.st ≠ .active ∨ bytes.length ≠ 272 →
      exec (.flitReceive port bytes) s = .next s ∧ exec (.controlFlitReceive port bytes) s = .next s) ∧
    (q.st = .active → bytes.length = 272 → flitFix bytes = (r, []) →
      (flitGood r = false → exec (.flitReceive port bytes) s = .next (crcFailed port.val [] s)) ∧
      (flitGood r = true → fld (flitHead r) 24 4 = 0 → fld (flitHead r) 0 12 = q.rxSeq → exec (.flitReceive port bytes) s =
        .next (acceptData port.val (portPlane port) r (takeAckField port.val (fld (flitHead r) 12 12) s))) ∧
      (flitGood r = true → fld (flitHead r) 24 4 = 0 → fld (flitHead r) 0 12 ≠ q.rxSeq → q.nak = false →
        serialDiff (fld (flitHead r) 0 12) q.rxSeq 4096 < 2048 → exec (.flitReceive port bytes) s =
          .next (sendNak port.val (takeAckField port.val (fld (flitHead r) 12 12) s))) ∧
      (flitGood r = true → fld (flitHead r) 24 4 = 0 → fld (flitHead r) 0 12 ≠ q.rxSeq →
        (q.nak = true ∨ 2048 ≤ serialDiff (fld (flitHead r) 0 12) q.rxSeq 4096) → exec (.flitReceive port bytes) s =
          .next (takeAckField port.val (fld (flitHead r) 12 12) s)) ∧
      (flitGood r = true → fld (flitHead r) 24 4 = 1 →
        exec (.flitReceive port bytes) s = .next (takeAckField port.val (fld (flitHead r) 12 12) s)) ∧
      (flitGood r = true → fld (flitHead r) 24 4 = 2 → exec (.controlFlitReceive port bytes) s =
        .next (takeNak port.val (wordAt (flitWords r) 0) (takeCredits port.val (flitWords r)
          (takeAckField port.val (fld (flitHead r) 12 12) s)))) ∧
      (flitGood r = true → fld (flitHead r) 24 4 = 2 → exec (.flitReceive port bytes) s = .next s)) ∧
    (∀ f fs, q.st = .active → q.replay = f :: fs →
      (f.resends < 8 → ∃ t, exec (.ackStallTimeout port) s = .next t ∧
        t.out = s.out ++ (f :: fs).map (fun g => .flit port.val g.fseq g.payload) ∧
        (portOf t port.val).replay = (f :: fs).map (fun g => { g with resends := g.resends + 1 }) ∧
        (portOf t port.val).st = .active ∧ t.x = s.x) ∧
      (8 ≤ f.resends → ∃ t, exec (.ackStallTimeout port) s = .next t ∧ (portOf t port.val).st ≠ .active ∧
        (portOf t port.val).replay = [])) ∧
    (q.replay = [] ∨ q.st ≠ .active → exec (.ackStallTimeout port) s = .next s) ∧
    (q.sparing = false → exec (.laneSpareDone port true) s = .next s ∧ exec (.laneSpareDone port false) s = .next s) ∧
    (q.sparing = true → exec (.laneSpareDone port true) s =
      .next (portDrain port.val (resendAll port.val (modPort port.val (fun x => { x with sparing := false }) s)))) ∧
    (q.sparing = true → q.dead = false → 8 ∉ q.faulty → q.spared ≠ none →
      exec (.laneSpareDone port false) s = .next (portDrain port.val (narrow port.val (modPort port.val (fun x => { x with
        sparing := false, faulty := x.faulty ++ [8] }) s))))

/-- The two Harbourmaster instances and the loss of links and dies. The standby instance keeps the journal entries and takes over
when they stop or the active instance reports a fault; without a standby the package falls silent. A die that has lost both its
links, or fails, leaves service with its 12 clusters and four stacks; with IOD0 its ports and the endpoint are lost. Mirror
records without an answer are sent again (R13, R15, R19, R354, R365 to R367). -/
def Obligations.ContinuityOfService : Prop :=
  ∀ (s : State) (die : Fin 4) (iod : Fin 2) (ws : List Word),
    (hmFollowed s = true → exec (.hmJournalEntry ws) s = .next (modHm (fun h => { h with standbyJournal := h.standbyJournal ++ [ws] }) s)) ∧
    (hmFollowed s = false → exec (.hmJournalEntry ws) s = .next s ∧ exec .hmJournalTimeout s = .next s) ∧
    (s.host.hm.gone = false → exec .hmJournalHeartbeatTimer s = .next (hmJournal [] s)) ∧
    (s.host.hm.gone = true → exec .hmJournalHeartbeatTimer s = .next s) ∧
    (hmFollowed s = true → ∃ t, exec .hmJournalTimeout s = .next t ∧ t.host.hm.hmInst = !s.host.hm.hmInst ∧
      t.host.hm.instOut = true ∧ t.host.hm.redundancyLost = true ∧
      ((∀ e ∈ s.parts, flying s e.1 = []) → t.host.journal = s.host.journal ∧ t.x = s.x ∧ t.host.mbx = s.host.mbx)) ∧
    (hmFollowed s = true → s.host.hm.gone = false → ∃ cause, (cause = 2 ∨ cause = 3) ∧
      exec .hmFaultSignal s = .next (takeoverHm cause (draw s).2)) ∧
    (hmFollowed s = false → s.host.hm.gone = false → ∃ t, exec .hmFaultSignal s = .next t ∧ t.host.hm.gone = true ∧
      t.host.hm.ready = false ∧ t.host.hm.failed = true ∧ (∀ p, p < 18 → (portOf t p).st = .idle) ∧ t.x = s.x) ∧
    (2 * die.val + iod.val ∈ s.health.links → exec (.dieLinkFail die iod) s = .next s) ∧
    (2 * die.val + iod.val ∉ s.health.links → 2 * die.val + (1 - iod.val) ∉ s.health.links → exec (.dieLinkFail die iod) s =
      .next (recordRepair 10 die.val iod.val (modHealth (fun h => { h with links := h.links ++ [2 * die.val + iod.val] }) s))) ∧
    (2 * die.val + iod.val ∉ s.health.links → 2 * die.val + (1 - iod.val) ∈ s.health.links → die.val ∉ s.health.diesOut →
      ∃ t, exec (.dieLinkFail die iod) s = .next t ∧ die.val ∈ t.health.diesOut ∧
        ∀ k, k < 12 → (clusterOf t (12 * die.val + k)).out = true) ∧
    (die.val ∉ s.health.diesOut → ∃ t, exec (.computeDieFail die) s = .next t ∧ die.val ∈ t.health.diesOut ∧
      (∀ k, k < 12 → (clusterOf t (12 * die.val + k)).out = true) ∧ ∀ k, k < 4 → 4 * die.val + k ∈ t.tiers.stacksLost) ∧
    (die.val ∈ s.health.diesOut → exec (.computeDieFail die) s = .next s) ∧
    (12 ∉ s.health.links → ∃ t, exec .iodLinkFail s = .next t ∧ t.host.hm.redundancyLost = true ∧ hmFollowed t = false ∧
      t.host.hm.hmInst = s.host.hm.hmInst ∧ t.x = s.x) ∧
    (12 ∈ s.health.links → exec .iodLinkFail s = .next s) ∧
    (s.health.iod0Out = false → ∃ t, exec .iod0Fail s = .next t ∧ t.health.iod0Out = true ∧ t.host.ep.linkUp = false ∧
      ∀ p, p < 9 → (portOf t p).st = .idle ∧ (portOf t p).dead = true) ∧
    (s.health.iod0Out = true → exec .iod0Fail s = .next s) ∧
    (activeHolder s = none → exec .mirrorAckTimeout s = .next s) ∧
    (∀ h, activeHolder s = some h → exec .mirrorAckTimeout s =
      .next (s.cont.sent.foldl (fun t e => totAdd (tCont + 5) 1 (mirrorSend h none e.2.2 t)) s)) ∧
    (∃ t, exec .logRateSecond s = .next t ∧ t.host.log.inSecond = 0 ∧ t.host.log.droppedBefore = s.host.log.droppedNow ∧
      t.host.log.droppedNow = 0 ∧ (∀ p, (portOf t p).corrected = []) ∧ t.x = s.x ∧ t.host.log.main = s.host.log.main)

namespace Sys2Proof.Claim

/-- The row of the table that a command's words make it, at a position (R139, R140, R182, R214). -/
def rowOf (a : At) (ev : RunEvent) (c : List Word) : Instr :=
  match cOp c with
  | 0 => .nop a
  | 1 => .pass a ev
  | 2 => .quant a ev
  | 3 => match vFunc c with
    | 1 => .vecAdd a ev
    | 2 => .vecMul a ev
    | 3 => .vecRowScale a ev
    | 4 => .vecRmsNorm a ev
    | 5 => .vecSiluMul a ev
    | 6 => .vecGelu a ev
    | 7 => .vecMerge a ev
    | _ => .vecConvert a ev
  | 4 => match aMode c with
    | 0 => .attendFull a ev
    | 1 => .attendPartial a ev
    | _ => .attendMerge a ev
  | 5 => match rMode c with
    | 0 => .routeSelect a ev
    | 1 => .routeSeal a
    | 2 => .routeGather a ev
    | 3 => .routeReturn a ev
    | 4 => .routeCombine a ev
    | _ => .routePush a ev
  | 6 => .move a ev
  | 7 => .windowWait a
  | 8 => .windowRelease a
  | 9 => .barrier a
  | 10 => .expand a
  | 11 => .post a
  | 12 => .await a
  | _ => .endStep a
/-- The words are those of a command of the table other than SEAL. -/
def Plain (c : List Word) : Prop :=
  cOp c ≤ 13 ∧ (cOp c = 3 → 1 ≤ vFunc c ∧ vFunc c ≤ 8) ∧ (cOp c = 4 → aMode c ≤ 2) ∧ (cOp c = 5 → rMode c ≠ 1 ∧ rMode c ≤ 5)
/-- Command `k` stands next in run `r` at position `a`, before `rest`, its list is open, and the cluster is in service (R95,
R138, R143, R24). -/
def Stands (s : State) (a : At) (r : Run) (k : Cmd) (rest : List Cmd) : Prop :=
  runAt s a = some r ∧ r.todo = k :: rest ∧ listOpen s a = true ∧ (clusterOf s a.cluster.val).out = false
/-- The cause for which a command that came from an expansion is refused at issue, or 0 (R150). -/
def refusedFor (s : State) (a : At) (k : Cmd) : Nat :=
  if k.expanded then issueCause (imgOf s a.part.val) (imgC s a) (guestC s a) k.words else 0
/-- It stands next and may issue: nothing that R142 to R144 name holds it. -/
def Ready (s : State) (a : At) (r : Run) (k : Cmd) (rest : List Cmd) (c : List Word) : Prop :=
  Stands s a r k rest ∧ refusedFor s a k = 0 ∧ c = relocAt s a k.words ∧ holds s a r c = []
/-- It has left its list: its slot is taken, its stall charged and its issue counted (R142, R143, R260, R274). -/
def issued (a : At) (rest : List Cmd) (s : State) : State :=
  cntAdd a.part.val cStage 1 (modRunAt a (fun r => { r with todo := rest, waitFrom := none })
    (takeSlot a.cluster.val (slotA s a) a.part.val a.step (chargeStall a.cluster.val s)))
/-- Its reads meet no parity failure (R263). -/
def ReadsGood (s : State) (a : At) (ev : RunEvent) (c : List Word) : Prop :=
  ev.parity = none ∧ badWords s (ranges a.cluster.val (cCore c) false (opdsAt s a c)) = []

end Sys2Proof.Claim

/-- The Pilot runs its list in order: without a run, with another command next, with the list of an earlier step before it, or
out of service, a row does nothing; a command from an expansion that is not allowed is a program fault; a command that is held stays where it
is and no memory changes (R95, R138, R142, R149, R150). -/
def Obligations.PilotRunsInOrder : Prop :=
  ∀ (s : State) (a : At) (ev : RunEvent) (c : List Word), Plain c →
    (runAt s a = none → exec (rowOf a ev c) s = .next s) ∧
    (∀ r k rest, Stands s a r k rest → cOp c ≠ cOp k.words → exec (rowOf a ev c) s = .next s) ∧
    (∀ r k rest, runAt s a = some r → r.todo = k :: rest → listOpen s a = false ∨ (clusterOf s a.cluster.val).out = true →
      exec (rowOf a ev c) s = .next s) ∧
    (∀ r k rest, Stands s a r k rest → k.words = c → refusedFor s a k ≠ 0 →
      exec (rowOf a ev c) s = .next (faultAt a (refusedFor s a k) (cmdOpIndex (relocAt s a c)) s)) ∧
    (∀ r k rest, Stands s a r k rest → k.words = c → refusedFor s a k = 0 → holds s a r (relocAt s a c) ≠ [] →
      ∃ t, exec (rowOf a ev c) s = .next t ∧ t.x.sram = s.x.sram ∧ t.x.hbm = s.x.hbm ∧
        (runAt t a).map (fun q => q.todo) = some (k :: rest))

/-- The commands that the Pilot acts on itself. NOP issues; WINDOW_WAIT issues once its stream has landed and WINDOW_RELEASE frees
the buffer; BARRIER arrives, and the last arrival releases wave 0; EXPAND puts its instances before the rest of the list; POST
counts a delivery once the list's MOVEs there are done, AWAIT issues when its region is complete; END_STEP names the output,
takes the step out of the cluster, and the last cluster finishes it (R90, R139, R144 to R149, R152, R249). -/
def Obligations.PilotCommands : Prop :=
  ∀ (s u : State) (a : At) (r : Run) (k : Cmd) (rest : List Cmd) (c : List Word) (p : Nat), Ready s a r k rest c → u = issued a rest s →
    p = a.part.val →
    (cOp k.words = 0 → exec (.nop a) s = .next u) ∧
    (cOp k.words = 7 → landed s a (layerOf c) = true → exec (.windowWait a) s = .next u) ∧
    (cOp k.words = 7 → landed s a (layerOf c) = false → exec (.windowWait a) s = .next (holdOn a (windowHold a c s) s)) ∧
    (cOp k.words = 8 → releaseHold a c s = [] → ∃ t, exec (.windowRelease a) s = .next t ∧ t = releaseWin a c u ∧
      ∀ w, tget (clusterOf s a.cluster.val).wins (winKey (imgOf s p) (imgC s a) (layerOf c)) = some w → w.entry = layerOf c →
        w.step = a.step → tget (clusterOf t a.cluster.val).wins (winKey (imgOf s p) (imgC s a) (layerOf c)) = some { w with released := true }) ∧
    (∀ b, cOp k.words = 9 → earlierDone s a = true → r.atBar = none → b = fld (wordAt c 1) 0 6 →
      ∃ t, exec (.barrier a) s = .next t ∧ t = arrive a c u ∧
        ((∀ x ∈ barMembers (imgOf s p) b, x ∈ arrived s p a.step b ∨ (barHas (imgOf s p) b x = true ∧ x < 48 ∧ (x = imgC s a ∨ x = guestC s a))) →
          arrived t p a.step b = [] ∧ (runAt t a).map (fun q => (q.atBar, q.waves)) = some (some b, 1)) ∧
        ((∃ x ∈ barMembers (imgOf s p) b, x ∉ arrived s p a.step b ∧ x ≠ imgC s a ∧ x ≠ guestC s a) →
          (runAt t a).map (fun q => (q.atBar, q.waves)) = some (some b, 0) ∧
          ∀ x ∈ arrived s p a.step b, x ∈ arrived t p a.step b)) ∧
    (∀ t ws, cOp k.words = 10 → expandHold a c s = [] → templateOf (imgOf s p) (fld (wordAt c 1) 0 16) = some t →
      expandCount s a c ≤ 2 ^ 24 → opdOk (paramOpd s a c) = true →
      instances s (flatOf a.cluster.val (cCore c) (paramOpd s a c).2.1 (paramOpd s a c).2.2.1) (fld (wordAt c 4) 0 16) t (expandCount s a c) =
        some ws →
      ∃ v, exec (.expand a) s = .next v ∧ v.x.sram = s.x.sram ∧ (runAt v a).map (fun q => q.todo.map fun d => d.words) =
        some (bodyCmds ws ++ rest.map fun d => d.words) ∧
        (runAt v a).map (fun q => q.todo.drop (bodyCmds ws).length) = some rest ∧
        ∀ d ∈ ((runAt v a).map fun q => q.todo.take (bodyCmds ws).length).getD [], d.expanded = true ∧ d.depth = k.depth + 1) ∧
    (cOp k.words = 11 → postHold a c s = [] →
      exec (.post a) s = .next (countPost p a.step (fld (wordAt c 1) 0 8) (fld (wordAt c 1) 8 4) u)) ∧
    (cOp k.words = 12 → inPosts (imgOf s p) (imgC s a) (fld (wordAt c 1) 0 4) ≤ inboxCount s a.cluster.val (slotA s a) (fld (wordAt c 1) 0 4) →
      exec (.await a) s = .next u) ∧
    (cOp k.words = 12 → inboxCount s a.cluster.val (slotA s a) (fld (wordAt c 1) 0 4) < inPosts (imgOf s p) (imgC s a) (fld (wordAt c 1) 0 4) →
      exec (.await a) s = .next (holdOn a [9] s)) ∧
    (cOp k.words = 13 → bitOf (wordAt c 1) 25 = false → earlierDone s a = true → postsExact s a false = true →
      ∃ t, exec (.endStep a) s = .next t ∧ t = endStep a c u ∧
        (∀ x, stepRec s p a.step = some x → (∃ y ∈ runners s p, y ∉ x.left ∧ y ≠ imgC s a) → runAt t a = none ∧ t.x.sram = s.x.sram ∧
          (stepRec t p a.step).map (fun y => (y.st, y.left)) = some (x.st, x.left ++ [imgC s a])) ∧
        (∀ x, stepRec s p a.step = some x → (∀ y ∈ runners s p, y ∈ x.left ∨ y = imgC s a) → appendShort s p x = false →
          runAt t a = none ∧ t.x.sram = s.x.sram ∧ (stepRec t p a.step).map (fun y => y.st) = some .finished)) ∧
    (cOp k.words = 13 → bitOf (wordAt c 1) 25 = true → postsExact s a true = true →
      ∃ t, exec (.endStep a) s = .next t ∧ t = endStep a c u ∧ (runAt t a).map (fun q => q.todo) = some rest ∧ t.x.sram = s.x.sram)

/-- The commands that the array, the vector unit and ATTEND run: each issues when its own conditions hold too, and has its effect on
the state in which it has left its list; a VEC of no rows or no elements, and a MOVE of no bytes, only issue; a MOVE between SRAM
places copies its bytes and changes no other. A PASS or a MOVE whose operand fails its checks does not issue: what it read is
fetched again (R69 to R95, R139, R140, R169 to R182, R50 to R54, R49, R264). -/
def Obligations.ArithmeticCommands : Prop :=
  ∀ (s u : State) (a : At) (ev : RunEvent) (r : Run) (k : Cmd) (rest : List Cmd) (c : List Word), Ready s a r k rest c →
    u = issued a rest s → ReadsGood s a ev c →
    (cOp k.words = 1 → passHold a c s = [] → (pEmpty (c.drop 1) = true ∨ (passBad s a c).1 + (passBad s a c).2.1 = 0) →
      exec (.pass a ev) s = .next (passGo a ev c u)) ∧
    (cOp k.words = 1 → passHold a c s = [] → (passMeets a ev c s).1 = false → exec (.pass a ev) s = .next (passMeets a ev c s).2) ∧
    (cOp k.words = 2 → quantHold a c s = [] → exec (.quant a ev) s = .next (quantGo a c u)) ∧
    (cOp k.words = 3 →
      (vFunc k.words = 1 → exec (.vecAdd a ev) s = .next (vecGo a c (vecAddRows c u) u)) ∧
      (vFunc k.words = 2 → exec (.vecMul a ev) s = .next (vecGo a c (vecMulRows c u) u)) ∧
      (vFunc k.words = 3 → exec (.vecRowScale a ev) s = .next (vecGo a c (vecScaleRows c u) u)) ∧
      (vFunc k.words = 4 → exec (.vecRmsNorm a ev) s = .next (vecGo a c (vecRmsRows c u) u)) ∧
      (vFunc k.words = 5 → exec (.vecSiluMul a ev) s = .next (vecGo a c (vecSiluRows c u) u)) ∧
      (vFunc k.words = 6 → exec (.vecGelu a ev) s = .next (vecGo a c (vecGeluRows c u) u)) ∧
      (vFunc k.words = 7 → exec (.vecMerge a ev) s = .next (vecGo a c (vecMergeRows c u) u)) ∧
      (vFunc k.words = 8 → exec (.vecConvert a ev) s = .next (vecGo a c (vecSameRows c u) u)) ∧
      (vLen c = 0 ∨ vRows c = 0 → ∀ f, vecGo a c f u = u) ∧ (∀ f, (vecGo a c f u).x.hbm = s.x.hbm)) ∧
    (cOp k.words = 4 → attendHold a c s = [] → attendMeets a ev c s = (true, s) →
      (aMode k.words = 0 → exec (.attendFull a ev) s = .next (attendGo a ev c u)) ∧
      (aMode k.words = 1 → exec (.attendPartial a ev) s = .next (attendGo a ev c u)) ∧
      (aMode k.words = 2 → exec (.attendMerge a ev) s = .next (mergeGo a c u))) ∧
    (cOp k.words = 6 → moveHold a c s = [] →
      (mBytes c = 0 → exec (.move a ev) s = .next u) ∧
      (mSrcKind c ≤ 1 → mDstKind c ≤ 1 → mBytes c ≠ 0 → ∃ t, exec (.move a ev) s = .next t ∧ t.x.hbm = s.x.hbm ∧
        (MemOk s → ∀ x, sramByte t x =
          (if flatOf a.cluster.val (cCore c) (mDstKind c) (mDst c) ≤ x ∧ x < flatOf a.cluster.val (cCore c) (mDstKind c) (mDst c) + mBytes c
            then sramByte s (flatOf a.cluster.val (cCore c) (mSrcKind c) (mSrc c) + (x - flatOf a.cluster.val (cCore c) (mDstKind c) (mDst c)))
            else sramByte s x))) ∧
      ((moveMeets a ev c s).1 = false → exec (.move a ev) s = .next (moveMeets a ev c s).2) ∧
      (mSrcKind c = 2 → mDstKind c ≤ 1 → mBytes c ≠ 0 → mapped s a.part.val (mSrc c) (mBytes c) = true →
        (moveMeets a ev c s).1 = true →
        ∃ t, exec (.move a ev) s = .next t ∧ t.x.hbm = s.x.hbm ∧
          (MemOk s → sramRead t (flatOf a.cluster.val (cCore c) (mDstKind c) (mDst c)) (mBytes c) =
            hbmRead s a.part.val (mSrc c) (mBytes c))) ∧
      (mSrcKind c = 2 → mBytes c ≠ 0 → mapped s a.part.val (mSrc c) (mBytes c) = false →
        exec (.move a ev) s = .next (faultAt a 0xA noOp u)))

/-- The ROUTE commands. SELECT, GATHER, RETURN, COMBINE and PUSH issue when their own conditions hold and have their effect on the
state in which they have left their list; a SEAL whose closes and entries have all arrived seals its queue in its canonical order,
and one that misses some waits; a GATHER beyond the last round is a program fault (R213 to R225, R232). -/
def Obligations.RoutingCommands : Prop :=
  ∀ (s u : State) (a : At) (ev : RunEvent) (r : Run) (k : Cmd) (rest : List Cmd) (c : List Word), Ready s a r k rest c →
    u = issued a rest s → cOp k.words = 5 →
    (ReadsGood s a ev c →
      (rMode k.words = 0 → exec (.routeSelect a ev) s = .next (selectGo a k.expanded c u)) ∧
      (rMode k.words = 3 → exec (.routeReturn a ev) s = .next (returnGo a c u)) ∧
      (rMode k.words = 4 → rTokens c = 0 ∨ returned s a c = validChoices s a c →
        exec (.routeCombine a ev) s = .next (combineGo a c u)) ∧
      (rMode k.words = 4 → rTokens c ≠ 0 → returned s a c ≠ validChoices s a c →
        exec (.routeCombine a ev) s = .next (holdOn a [8] s)) ∧
      (rMode k.words = 5 → pushHold a c s = [] → exec (.routePush a ev) s = .next (pushGo a c u))) ∧
    (∀ m, rMode k.words = 2 → mapAt s a c = some m → gatherMeets a ev c s = (true, s) →
      (roundRows (queueAt s a m (rQueue c)) (rRound c) = none → exec (.routeGather a ev) s = .next (faultAt a 9 (rOp c) u)) ∧
      (roundRows (queueAt s a m (rQueue c)) (rRound c) ≠ none → exec (.routeGather a ev) s = .next (gatherGo a c u))) ∧
    (∀ m z, rMode k.words = 1 → mapAt s a c = some m → z = queueAt s a m (rQueue c) → (partOf s a.part.val).ex.qwait = [] →
      (sealHold a c s = [] → opdOk (recordOpd c z) = true → ∃ t, exec (.routeSeal a) s = .next t ∧ t = markSeal a (sealGo a c u) ∧
        (queueAt t a m (rQueue c)).sealed = true ∧ (queueAt t a m (rQueue c)).order = canonical z ∧
        (queueAt t a m (rQueue c)).entries = z.entries) ∧
      (sealable s a m z = false → ∃ t, exec (.routeSeal a) s = .next t ∧ (runAt t a).map (fun q => q.todo) = some (k :: rest) ∧
        (runAt t a).map (fun q => q.sealFrom) = some (some (r.sealFrom.getD s.now)) ∧ t.x.sram = s.x.sram ∧ t.x.hbm = s.x.hbm))

/-- What time and other units do to lists under way: a gather deadline releases its entry with its matches; a wave of a released
barrier goes one on and the eighth frees the lists; a hung barrier or seal stops the partition and fails the package, and a step that hung before is a program fault; an append
that is waited for too long is a program fault; a completed command leaves the outstanding ones; a scrubbed macro may be used
again; a return row lands at its origin and is counted; a probe is judged, and a unit that fails its own check is taken out
(R90, R94, R106, R108, R142, R153, R189, R221, R224, R270). -/
def Obligations.WorkUnderWay : Prop :=
  ∀ (s : State) (a : At),
    (∀ core : Fin 384, (coreOf s core.val).gather = [] → exec (.gatherDeadlineExpire core) s = .next s) ∧
    (∀ (core : Fin 384) (o : GatherEntry), (coreOf s core.val).gather.find? (fun e =>
        e.due == (((coreOf s core.val).gather.map fun e => e.due).min?).getD 0) = some o → exec (.gatherDeadlineExpire core) s =
      .next (releaseSet core.val ((coreOf s core.val).gather.filter fun x => gatherMatch x o) true s)) ∧
    (∀ (bar : Fin 64) (r : Run), runAt s a = some r → r.atBar = some bar.val →
      ∃ t, exec (.stampedeWaveRelease a.part a.step bar) s = .next t ∧ t.x.sram = s.x.sram ∧
        (1 ≤ r.waves → r.waves < 7 → runAt t a = some { r with waves := r.waves + 1 }) ∧
        (r.waves = 7 → runAt t a = some { r with atBar := none, waves := 0 }) ∧ (r.waves = 0 → runAt t a = some r)) ∧
    (∀ bar : Fin 64, arrived s a.part.val a.step bar.val = [] → exec (.barrierHangTimeout a.part a.step bar) s = .next s) ∧
    (∀ bar : Fin 64, arrived s a.part.val a.step bar.val ≠ [] →
      exec (.barrierHangTimeout a.part a.step bar) s = .next (hang a.part.val a.step (logEvent 0x0504 true a.part.val noOp a.step bar.val
        (placeOf s a.part.val
          (((barMembers (imgOf s a.part.val) bar.val).filter fun c => !(decide (c ∈ arrived s a.part.val a.step bar.val))).headD 0)) s))) ∧
    ((a.part.val, a.step) ∉ s.cont.hung →
      (hang a.part.val a.step s).host.hm.failed = true ∧ (partOf (hang a.part.val a.step s) a.part.val).run.stopped = true) ∧
    ((a.part.val, a.step) ∈ s.cont.hung → ∃ cause,
      hang a.part.val a.step s = programFault a.part.val a.step cause 0 noOp { s with free := s.free + 1 }) ∧
    (∀ (t0 : Nat) (c : List Word), (runAt s a).bind (fun r => r.sealFrom) = some t0 → sealNext s a = some c →
      exec (.sealHangTimeout a) s = .next (hang a.part.val a.step (logEvent 0x0703 true a.part.val (rOp c) a.step (rQueue c)
        (((mapAt s a c).map fun m => closesMissing s a m (queueAt s a m (rQueue c))).getD 0) s))) ∧
    ((runAt s a).bind (fun r => r.sealFrom) = none → exec (.sealHangTimeout a) s = .next s) ∧
    (((runAt s a).bind fun r => r.waitFrom) = none → exec (.appendWaitTimeout a) s = .next s) ∧
    (∀ t0, ((runAt s a).bind fun r => r.waitFrom) = some t0 → exec (.appendWaitTimeout a) s = .next (faultAt a 7 noOp s)) ∧
    (∀ id, ∃ t, exec (.commandComplete a.cluster id) s = .next t ∧ (clusterOf t a.cluster.val).outst =
      (clusterOf s a.cluster.val).outst.filter (fun o => !(o.id == id && o.probes == [] && !o.undrained && !engineHeld s o)) ∧
      (clusterOf t a.cluster.val).runs = (clusterOf s a.cluster.val).runs ∧ t.x.sram = s.x.sram ∧ t.x.hbm = s.x.hbm) ∧
    (∀ (m : Nat) (bad : List Nat) (x : Macro), tget s.tiers.macros m = some x → x.scrub = true → ∃ t, exec (.sramScrubDone m bad) s = .next t ∧
      (tget t.tiers.macros m).map (fun y => (y.scrub, y.spares, y.column)) = some (false, x.spares, x.column) ∧
      (∀ w, (w ∈ x.bad ∨ w ∈ bad) ↔ w ∈ ((tget t.tiers.macros m).map fun y => y.bad).getD []) ∧
      (∀ n, n ≠ m → tget t.tiers.macros n = tget s.tiers.macros n) ∧ t.x = s.x) ∧
    (∀ (x : StepRec) (op off : Nat) (data : List Byte), stepRec s a.part.val a.step = some x → inFlight x = true → off + data.length ≤ 2 ^ 24 →
      ∃ t, exec (.returnRowArrive a.part a.cluster a.step op 1 off data) s = .next t ∧ t = modEx a.part.val (fun e => { e with
        sels := (partOf t a.part.val).ex.sels }) (storeRows [(clusterAddr a.cluster.val off, data)] s) ∧
        ∀ y, (partOf s a.part.val).ex.sels.find? (fun z =>
            z.op == op && z.step == a.step && z.cluster == a.cluster.val && inReturn z 1 off) = some y →
          (partOf t a.part.val).ex.sels =
            (partOf s a.part.val).ex.sels.map fun z => if z = y then { z with got := z.got + 1 } else z) ∧
    (∀ (op kind off : Nat) (data : List Byte), stepRec s a.part.val a.step = none →
      exec (.returnRowArrive a.part a.cluster a.step op kind off data) s = .next s) ∧
    (∀ (die : Fin 4) (m n : Bool), (chmOf s die.val).queue.find? (probeReady s) = none → exec (.probeComplete die m n) s = .next s) ∧
    (∀ (die : Fin 4) (m n : Bool) (q : Probe) (w : List Word), (chmOf s die.val).queue.find? (probeReady s) = some q →
      (q.lost = true → exec (.probeComplete die m n) s = .next (proceed die.val q s)) ∧
      (q.lost = false →
        exec (.probeComplete die true true) s = .next (unitFails die.val s) ∧ (chmOf (unitFails die.val s) die.val).out = true) ∧
      (q.lost = false → (m && n) = false → safeOf (imgOf s q.part) q.op = some w →
        (q.product = false → exec (.probeComplete die m n) s = .next (judgeQuant die.val q w s)) ∧
        (q.product = true → (tileBad s q).1 + (tileBad s q).2 = 0 →
          exec (.probeComplete die m n) s = .next (judgeProduct die.val q w s)) ∧
        (q.product = true → (tileBad s q).1 + (tileBad s q).2 ≠ 0 →
          exec (.probeComplete die m n) s = .next (refetchTile die.val q (tileBad s q) s))))

/-- Weight streams and fetches. A stream begins when its buffer is free, its rung fixed and its data there, and otherwise waits; one
that has landed is written and its window opens, one with parcels that fail is not, and one whose source fails its checks has
that fetched again. The read wheel serves a rung
chunk, a cold chunk or a restore unit in its own slot: read whole it is placed, and one whose pages fail starts a rebuild
(R122, R229, R246 to R254, R264, R281). -/
def Obligations.WeightStreams : Prop :=
  ∀ (s : State) (k : Fin 48) (p : Nat),
    (ownerOf s k.val = none → exec (.streamBegin k) s = .next s ∧ ∀ buf bad, exec (.streamLanded k buf bad) s = .next s) ∧
    (∀ id e st rung cs die, ownerOf s k.val = some p → nextStream s p k.val = some (id, e) → stageOf s p = some st →
      (clusterOf s k.val).out = false → tget (clusterOf s k.val).wins (winKey (imgOf s p) (imgCluster s p k.val) e) = none →
      streamsInFlight (clusterOf s k.val) < 2 → rungFixed s p (seOp (pfStream (imgOf s p) e)) id = true →
      rung = rungOf s p (seOp (pfStream (imgOf s p) e)) id →
      (rung ≤ 1 → restored st (seSrc (pfStream (imgOf s p) e)) (seBase (pfStream (imgOf s p) e)) = false →
        exec (.streamBegin k) s = .next (modCluster k.val (fun c => { c with stream := (id, e) }) s)) ∧
      ((rung ≤ 1 → restored st (seSrc (pfStream (imgOf s p) e)) (seBase (pfStream (imgOf s p) e)) = true) →
        cs = entryChunks s st (imgOf s p) (pfStream (imgOf s p) e) rung → die = entryDie (pfStream (imgOf s p) e) →
        (allResident st die (seOp (pfStream (imgOf s p) e)) rung cs = true → exec (.streamBegin k) s =
          .next (streamStart p k.val id e rung (modCluster k.val (fun c => { c with stream := (id, e) }) s))) ∧
        (allResident st die (seOp (pfStream (imgOf s p) e)) rung cs = false → exec (.streamBegin k) s =
          .next (modCluster k.val (fun c => { c with rungWait := some (c.rungWait.getD s.now) })
            (askChunks st.slot p false id die (seOp (pfStream (imgOf s p) e)) rung cs
              (modCluster k.val (fun c => { c with stream := (id, e) }) s)))))) ∧
    (∀ (buf : Fin 4) (key : Nat) (bad : List Nat) (w : Win) (st : Stage) (en : List Word), ownerOf s k.val = some p →
      (clusterOf s k.val).wins.find? (winOpen buf.val) = some (key, w) → stageOf s p = some st → en = pfStream (imgOf s p) w.entry →
      (streamFetching s p st en w.rung = true → exec (.streamLanded k buf bad) s = .next s) ∧
      (streamFetching s p st en w.rung = false →
        (streamFaults s p st en w.rung ≠ ([], []) → exec (.streamLanded k buf bad) s =
          .next (rungFails p st (entryDie en) (seOp en) w.rung (streamFaults s p st en w.rung).2
            (weightFails p (streamFaults s p st en w.rung).1 (cntAdd p cMemory (cdiv (seLen en w.rung) 64) s)))) ∧
        (streamFaults s p st en w.rung = ([], []) →
          (bad = [] → ∃ t, exec (.streamLanded k buf bad) s = .next t ∧
            tget (clusterOf t k.val).wins key = some { w with landed := true } ∧ t.x.hbm = s.x.hbm ∧
            t.x.sram = memWrite s.x.sram (flatOf k.val (seCore en) (seSpace en) (seAddr en)) (streamData s p st en w.rung)) ∧
          (bad ≠ [] → ∃ t, exec (.streamLanded k buf bad) s = .next t ∧
            (clusterOf t k.val).wins = (clusterOf s k.val).wins ∧ t.x = s.x)))) ∧
    (∀ (standby : Bool) (fails : PageFails) (st : Stage) (r : RungReq),
      (wheelPick s ≠ some clRung → exec (.rungChunkDone standby fails) s = .next s) ∧
      (wheelPick s = some clRung → pickRung s standby = some (st, r) →
        ((∃ f ∈ fails, f.2 = true) → exec (.rungChunkDone standby fails) s =
          .next (chunkPages (rungShard s st r) fails (turnWheel s)).2) ∧
        ((∀ f ∈ fails, f.2 = false) → ∃ t, exec (.rungChunkDone standby fails) s = .next t ∧
          (∀ x ∈ t.stages, x.slot = st.slot → hasChunk x r.die r.op r.rung r.chunk = true) ∧
          t.tiers.wheel = (s.tiers.wheel + 1) % 4 ∧ t.x.sram = s.x.sram ∧ t.x.bond = s.x.bond ∧
          (t.x.hbm = s.x.hbm ∨ ∃ place, t.x.hbm = memWrite s.x.hbm (stageFlat st place)
            (pieceRead s (rungKind r.rung) (stageImage st) r.op (65536 * r.chunk) 65536))))) ∧
    (∀ (standby : Bool) (fails : PageFails),
      (wheelPick s ≠ some clCold → exec (.coldChunkDone standby fails) s = .next s) ∧
      (∀ st r c n, wheelPick s = some clCold → pickCold s standby = some (st, r) → r.slot = some c → n = coldGot st r →
        st.coldReqs.find? (fun q => q.expert == r.expert) = some r → (∀ f ∈ fails, f.2 = false) →
        ∃ t, exec (.coldChunkDone standby fails) s = .next t ∧ t.x.sram = s.x.sram ∧
          t.x.hbm = memWrite s.x.hbm (stageFlat st (((tget st.cold c).map fun x => x.place).getD 0 + 65536 * n))
            (shardsRead s.x.bond s.bnd.manifest (coldShards s.bnd.manifest (stageImage st) r.expert) (65536 * n) 65536))) ∧
    (∀ (fails : PageFails) (st : Stage) (u : Nat),
      (wheelPick s ≠ some clRepair → wheelPick s ≠ some clRestore → exec (.restoreUnitDone fails) s = .next s) ∧
      (wheelPick s = some clRestore → nextUnit s = some (st, u) → (∀ f ∈ fails, f.2 = false) →
        ∃ t, exec (.restoreUnitDone fails) s = .next t ∧ t.tiers.wheel = (s.tiers.wheel + 1) % 4 ∧
          t.x.hbm = memWrite s.x.hbm (stageFlat st (unitAt st u).2.1) (unitData s st u)) ∧
      (wheelPick s = some clRepair → lostUnit s = some (st, u) → (∀ f ∈ fails, f.2 = false) →
        ∃ t, exec (.restoreUnitDone fails) s = .next t ∧ (∀ x ∈ t.stages, x.slot = st.slot → u ∉ x.lost) ∧
          t.x.hbm = memWrite s.x.hbm (stageFlat st (unitAt st u).2.1) (unitData s st u)))

/-- Errors and repairs in HBM and in the bond store. A clean read changes nothing and a transient one is counted; a confirmed error
repairs its row and acts on the data lost; a repaired row takes a spare or leaves service with its frame; a pseudo-channel
without training is retired; a moved frame is mapped once nothing in it is being fetched again; a re-fetched unit is written again; a patrolled shard that fails its
check is rebuilt; a peer that is silent has lost its shard to the rebuild (R263 to R269, R284, R285, R298). -/
def Obligations.MemoryRepairs : Prop :=
  ∀ (s : State) (pc : Fin 512) (row : Nat) (lost : LostData),
    exec (.hbmReadDone pc row lost .clean) s = .next s ∧
    exec (.hbmReadDone pc row lost .transient) s = .next (cntAdd (readerOf s lost) (cMemory + 5) 1 s) ∧
    exec (.hbmReadDone pc row lost .confirmed) s =
      .next (rowError pc.val row (actOnLoss pc.val lost (cntAdd (readerOf s lost) (cMemory + 5) 1 s))) ∧
    (pc.val ∉ s.tiers.pcsOut → (s.tiers.rowErrs.filter fun r => r.1 == pc.val).length < 32 →
      (rowError pc.val row s).tiers.repairs.any (fun r => r.pc == pc.val && r.row == row) = true ∧ (rowError pc.val row s).x = s.x) ∧
    (∀ (p : Fin 32) (addr len : Nat), actOnLoss pc.val (.idleData p false addr len) s = modTiers (fun t => { t with
      dead := t.dead ++ [(hbmFlat s p.val addr, len)] }) (cntAdd p.val (cMemory + 6) 1 s)) ∧
    (∀ (i : Nat) (r : RowRepair), s.tiers.repairs[i]? = some r →
      exec (.hbmRowRepairDone i true) s = .next (recordRepair 4 r.pc r.row (logPkg 0x0801 false r.pc r.row (totAdd tMemory 1
        (modTiers (fun t => { t with repairs := t.repairs.eraseIdx i }) s)))) ∧
      ∃ t, exec (.hbmRowRepairDone i false) s = .next t ∧ (r.pc, r.row) ∈ t.tiers.rowsOut ∧ (r.pc / 128, r.row / 16) ∈ t.tiers.framesOut) ∧
    (∀ (i : Nat) (spare : Bool), s.tiers.repairs.length ≤ i → exec (.hbmRowRepairDone i spare) s = .next s) ∧
    (∃ t, exec (.pcTrainingLost pc) s = .next t ∧ pc.val ∈ t.tiers.pcsOut ∧ (6, pc.val) ∉ t.car.queue ∧
      ∀ x ∈ s.tiers.pcsOut, x ∈ t.tiers.pcsOut) ∧
    (∀ (i : Nat) (m : FrameMove), s.tiers.moves[i]? = some m →
      ((∀ x ∈ s.tiers.frames, x.die = m.die → x.phys = m.fromF → frameFetching s x = false) → exec (.frameMoveDone i) s =
        .next (modTiers (fun t => { t with
          moves := t.moves.eraseIdx i
          frames := t.frames.map fun x => if x.die = m.die ∧ x.phys = m.fromF then { x with phys := m.toF } else x }) s)) ∧
      ((∃ x ∈ s.tiers.frames, x.die = m.die ∧ x.phys = m.fromF ∧ frameFetching s x = true) →
        exec (.frameMoveDone i) s = .next s)) ∧
    (∀ i, s.tiers.moves.length ≤ i → exec (.frameMoveDone i) s = .next s) ∧
    (∀ (i : Nat) (r : Refetch), s.tiers.refetch[i]? = some r →
      (refetchReady s r = true → wheelPick s = some clRepair → ∃ t, exec (.refetchDone i) s = .next t ∧
        t.tiers.refetch = s.tiers.refetch.eraseIdx i ∧ t.tiers.wheel = (s.tiers.wheel + 1) % 4 ∧
        (∀ st off shard bs, unitOfAddr s r.addr = some (st, off, shard, bs) →
          t.x.hbm = memWrite s.x.hbm (stageFlat st off) bs) ∧
        (unitOfAddr s r.addr = none → t.x = s.x)) ∧
      (refetchReady s r = false ∨ wheelPick s ≠ some clRepair → exec (.refetchDone i) s = .next s)) ∧
    (∀ (fails : PageFails) (x : Nat), scrubNext s = some x →
      (scrubOpen s = false → exec (.patrolScrubShard fails) s = .next s) ∧
      (scrubOpen s = true → (∀ f ∈ fails, f.2 = false) → wordsOfBytes (sha256 (memRead s.x.bond (shardFlat x) (shBytes s.bnd.manifest x))) =
          shHash s.bnd.manifest x → (∃ y ∈ s.bnd.bitmap, x < y) →
        ∃ t, exec (.patrolScrubShard fails) s = .next t ∧ t.bnd.scrubAt = x + 1 ∧ t.bnd.scrubOk = s.bnd.scrubOk + 1 ∧
          t.bnd.rebuilds = s.bnd.rebuilds ∧ t.x = s.x) ∧
      (scrubOpen s = true → (∃ f ∈ fails, f.2 = true) → shardHeld s x = false → mfStriped s.bnd.manifest = false →
        ∃ t, exec (.patrolScrubShard fails) s = .next t ∧ x ∈ t.bnd.lost)) ∧
    (s.bnd.rebuilds = [] → exec .rebuildPeerTimeout s = .next s) ∧
    (∀ (r : Rebuild) (rest : List Rebuild) (m : Nat), s.bnd.rebuilds = r :: rest →
      r.asked.find? (fun m => !(decide (m ∈ r.failed)) && (tget r.got m).isNone) = some m →
      exec .rebuildPeerTimeout s = .next (runRebuilds (modFirst (fun r => { r with
        failed := r.failed ++ [m], pieces := terase r.pieces m }) s)))

/-- A TERN byte holds five trits as a base-3 number: element 5j + k of a block has digit k of byte j, a digit is 0 for zero, 1 for +1
and 2 for -1, and the valid bytes are 0 to 242. -/
def Obligations.TernBytes : Prop :=
  (∀ (data : List Byte) (j : Nat) (d0 d1 d2 d3 d4 : Fin 3),
    data.getD j 0 = b8 (d0.val + 3 * d1.val + 9 * d2.val + 27 * d3.val + 81 * d4.val) →
    blockCode .tern data (5 * j) = d0.val ∧ blockCode .tern data (5 * j + 1) = d1.val ∧ blockCode .tern data (5 * j + 2) = d2.val ∧
      blockCode .tern data (5 * j + 3) = d3.val ∧ blockCode .tern data (5 * j + 4) = d4.val ∧ ternInvalid (data.getD j 0) = false) ∧
  (∀ b : Byte, ternInvalid b = decide (242 < b.toNat)) ∧
  (∀ b : Byte, b.toNat ≤ 242 → ∃ d0 d1 d2 d3 d4 : Fin 3,
    b.toNat = d0.val + 3 * d1.val + 9 * d2.val + 27 * d3.val + 81 * d4.val) ∧
  elemVal .tern 0 = FV.ofInt 0 ∧ elemVal .tern 1 = FV.ofInt 1 ∧ elemVal .tern 2 = FV.ofInt (-1)
end

