-- ==== Sys2Proof/Laws/Memory.lean ====
section
/-! SUPPORT. Memory: the canonical form is kept by every operation, a read after a write gives the byte written, and a write leaves
every other byte alone. -/

namespace Sys2Proof.Machine

/-- The addresses of a memory all lie above `a`. -/
def Above (a : Nat) (m : Mem) : Prop := ∀ c ∈ m, a < c.1

theorem memWf_nil : memWf [] = true := rfl

theorem memWf_cons {a : Nat} {b : Byte} {m : Mem} :
    memWf ((a, b) :: m) = true ↔ b ≠ emptyByte ∧ Above a m ∧ memWf m = true := by
  induction m generalizing a b with
  | nil => simp [memWf, Above]
  | cons c m ih =>
    obtain ⟨k, d⟩ := c
    simp only [memWf, Bool.and_eq_true, decide_eq_true_eq, bne_iff_ne, ne_eq]
    constructor
    · rintro ⟨⟨h1, h2⟩, h3⟩
      refine ⟨h2, ?_, h3⟩
      intro e he
      rcases List.mem_cons.mp he with rfl | he
      · exact h1
      · exact Nat.lt_trans h1 ((ih.mp h3).2.1 e he)
    · rintro ⟨h1, h2, h3⟩
      exact ⟨⟨h2 (k, d) (List.mem_cons_self ..), h1⟩, h3⟩

theorem memGet_above {a : Nat} {m : Mem} (h : Above a m) : memGet m a = emptyByte := by
  cases m with
  | nil => rfl
  | cons c m =>
    have := h c (List.mem_cons_self ..)
    obtain ⟨k, d⟩ := c
    simp only [memGet]
    rw [if_neg (by omega), if_pos this]

theorem above_trans {a b : Nat} {m : Mem} (hab : a ≤ b) (h : Above b m) : Above a m :=
  fun c hc => Nat.lt_of_le_of_lt hab (h c hc)

theorem above_put {a k : Nat} {b : Byte} {m : Mem} (h : Above a m) (hk : a < k) : Above a (memPut m k b) := by
  induction m with
  | nil => intro c hc; simp only [memPut, memCons] at hc; split at hc <;> simp_all
  | cons c m ih =>
    obtain ⟨j, d⟩ := c
    have hj : a < j := h (j, d) (List.mem_cons_self ..)
    have hm : Above a m := fun e he => h e (List.mem_cons_of_mem _ he)
    intro e he
    simp only [memPut, memCons] at he
    split at he
    · split at he
      · exact h e he
      · rcases List.mem_cons.mp he with rfl | he
        · exact hk
        · exact h e he
    · split at he
      · split at he
        · exact hm e he
        · rcases List.mem_cons.mp he with rfl | he
          · exact hk
          · exact hm e he
      · rcases List.mem_cons.mp he with rfl | he
        · exact hj
        · exact ih hm e he

/-- One byte written keeps the canonical form. -/
theorem memWf_put {m : Mem} (h : memWf m = true) (a : Nat) (b : Byte) : memWf (memPut m a b) = true := by
  induction m with
  | nil => simp only [memPut, memCons]; split <;> simp_all [memWf]
  | cons c m ih =>
    obtain ⟨k, d⟩ := c
    have hw := memWf_cons.mp h
    simp only [memPut, memCons]
    split
    · rename_i hlt
      split
      · exact h
      · rename_i hb
        refine memWf_cons.mpr ⟨hb, ?_, h⟩
        intro e he
        rcases List.mem_cons.mp he with rfl | he
        · exact hlt
        · exact Nat.lt_trans hlt (hw.2.1 e he)
    · split
      · rename_i hk
        subst hk
        split
        · exact hw.2.2
        · rename_i hb
          exact memWf_cons.mpr ⟨hb, hw.2.1, hw.2.2⟩
      · rename_i h1 h2
        exact memWf_cons.mpr ⟨hw.1, above_put hw.2.1 (by omega), ih hw.2.2⟩

/-- A run of bytes written keeps the canonical form. -/
theorem memWf_write {m : Mem} (h : memWf m = true) (a : Nat) (bs : List Byte) : memWf (memWrite m a bs) = true := by
  induction bs generalizing m a with
  | nil => exact h
  | cons b bs ih => exact ih (memWf_put h a b) (a + 1)

/-- Clearing keeps the canonical form. -/
theorem memWf_clear {m : Mem} (h : memWf m = true) (a n : Nat) : memWf (memClear m a n) = true := by
  induction m with
  | nil => rfl
  | cons c m ih =>
    obtain ⟨k, d⟩ := c
    have hw := memWf_cons.mp h
    simp only [memClear, List.filter]
    split
    · exact memWf_cons.mpr ⟨hw.1, fun e he => hw.2.1 e ((List.mem_filter.mp he).1), ih hw.2.2⟩
    · exact ih hw.2.2

/-- A byte reads back as it was written. -/
theorem memGet_put {m : Mem} (h : memWf m = true) (a : Nat) (b : Byte) : memGet (memPut m a b) a = b := by
  induction m with
  | nil => simp only [memPut, memCons]; split <;> simp_all [memGet]
  | cons c m ih =>
    obtain ⟨k, d⟩ := c
    have hw := memWf_cons.mp h
    simp only [memPut, memCons]
    split
    · rename_i hlt
      split
      · rename_i hb
        simp only [memGet, hb]
        rw [if_neg (by omega), if_pos hlt]
      · simp [memGet]
    · split
      · rename_i hk
        subst hk
        split
        · rename_i hb
          rw [hb]; exact memGet_above hw.2.1
        · simp [memGet]
      · rename_i h1 h2
        simp only [memGet]
        rw [if_neg (by omega), if_neg (by omega)]
        exact ih hw.2.2

/-- A byte written leaves every other byte alone. -/
theorem memGet_put_other {m : Mem} (h : memWf m = true) {a c : Nat} (b : Byte) (hne : c ≠ a) :
    memGet (memPut m a b) c = memGet m c := by
  induction m with
  | nil =>
    simp only [memPut, memCons]
    split
    · rfl
    · simp only [memGet]; rw [if_neg (Ne.symm hne)]; split <;> rfl
  | cons e m ih =>
    obtain ⟨k, d⟩ := e
    have hw := memWf_cons.mp h
    simp only [memPut, memCons]
    split
    · rename_i hlt
      split
      · rfl
      · rw [memGet, if_neg (Ne.symm hne)]
        split
        · rename_i hca
          simp only [memGet]
          rw [if_neg (by omega), if_pos (by omega)]
        · rfl
    · split
      · rename_i hk
        subst hk
        split
        · simp only [memGet]
          rw [if_neg (Ne.symm hne)]
          split
          · rename_i hca
            exact memGet_above (above_trans (Nat.le_of_lt hca) hw.2.1)
          · rfl
        · simp only [memGet]
          rw [if_neg (Ne.symm hne), if_neg (Ne.symm hne)]
      · simp only [memGet]
        split
        · rfl
        · split
          · rfl
          · exact ih hw.2.2

/-- Bytes outside a run that is written keep their values. -/
theorem memGet_write_other {m : Mem} (h : memWf m = true) (a : Nat) (bs : List Byte) {c : Nat}
    (hc : c < a ∨ a + bs.length ≤ c) : memGet (memWrite m a bs) c = memGet m c := by
  induction bs generalizing m a with
  | nil => rfl
  | cons b bs ih =>
    simp only [List.length_cons] at hc
    rw [memWrite, ih (memWf_put h a b) (a + 1) (by omega), memGet_put_other h b (by omega)]

/-- A run that is written reads back. -/
theorem memGet_write {m : Mem} (h : memWf m = true) (a : Nat) (bs : List Byte) {i : Nat} (hi : i < bs.length) :
    memGet (memWrite m a bs) (a + i) = bs[i] := by
  induction bs generalizing m a i with
  | nil => simp at hi
  | cons b bs ih =>
    rw [memWrite]
    cases i with
    | zero =>
      rw [memGet_write_other (memWf_put h a b) (a + 1) bs (by omega)]
      exact memGet_put h a b
    | succ i =>
      have := ih (memWf_put h a b) (a + 1) (i := i) (by simpa using hi)
      rw [show a + (i + 1) = a + 1 + i by omega, this]
      rfl

/-- The memory right after reset has the canonical form. -/
theorem memWf_reset : memWf State.reset.x.sram = true ∧ memWf State.reset.x.hbm = true ∧ memWf State.reset.x.bond = true :=
  ⟨rfl, rfl, rfl⟩

end Sys2Proof.Machine
end

