-- ==== Sys2Proof/Laws/Keeps.lean ====
section
/-! SUPPORT. What no command takes away, as one relation between the state before and after, and the same of each primitive update of
the state. Later files say it of every shared operation, once. -/

namespace Sys2Proof.Machine

/-- What every operation of the block keeps. -/
structure Keeps (s t : State) : Prop where
  queue : t.pending = s.pending
  sent : s.out <+: t.out
  mem : MemOk s → MemOk t
  rings : RingsOk s → RingsOk t
  counts : CountsOk s → CountsOk t
  life : LifeOk s → LifeOk t
  retired : Retired s → Retired t
  fused : FusedAs s t
  rollback : s.boot.rollback ≤ t.boot.rollback
  rollbackOk : RollbackOk s → RollbackOk t

theorem keeps_refl (s : State) : Keeps s s :=
  ⟨rfl, List.prefix_refl _, id, id, id, id, id, ⟨rfl, rfl, rfl, rfl, rfl, rfl⟩, Nat.le_refl _, id⟩

theorem keeps_trans {s t u : State} (h : Keeps s t) (k : Keeps t u) : Keeps s u :=
  ⟨k.queue.trans h.queue, h.sent.trans k.sent, k.mem ∘ h.mem, k.rings ∘ h.rings, k.counts ∘ h.counts, k.life ∘ h.life,
   k.retired ∘ h.retired,
   ⟨k.fused.1.trans h.fused.1, k.fused.2.1.trans h.fused.2.1, k.fused.2.2.1.trans h.fused.2.2.1,
    k.fused.2.2.2.1.trans h.fused.2.2.2.1, k.fused.2.2.2.2.1.trans h.fused.2.2.2.2.1, k.fused.2.2.2.2.2.trans h.fused.2.2.2.2.2⟩,
   Nat.le_trans h.rollback k.rollback, k.rollbackOk ∘ h.rollbackOk⟩

/-- The parts of the state that the relation speaks of. -/
structure SameHot (s t : State) : Prop where
  pending : t.pending = s.pending
  out : t.out = s.out
  sram : t.x.sram = s.x.sram
  hbm : t.x.hbm = s.x.hbm
  bond : t.x.bond = s.x.bond
  main : t.host.log.main = s.host.log.main
  prot : t.host.log.prot = s.host.log.prot
  starts : t.host.log.coldStarts = s.host.log.coldStarts
  repairs : t.health.repairs = s.health.repairs
  ring : t.car.ring = s.car.ring
  tot : t.tot = s.tot
  life : t.sec.lifecycle = s.sec.lifecycle
  stopping : t.sec.stopping = s.sec.stopping
  fused : FusedAs s t
  rollback : t.boot.rollback = s.boot.rollback

theorem keeps_same {s0 s t : State} (h : Keeps s0 s) (e : SameHot s t) : Keeps s0 t := by
  refine keeps_trans h ⟨e.pending, e.out ▸ List.prefix_refl _, ?_, ?_, ?_, ?_, ?_, e.fused, Nat.le_of_eq e.rollback.symm, ?_⟩
  · simp only [MemOk, e.sram, e.hbm, e.bond]; exact id
  · simp only [RingsOk, e.main, e.prot, e.repairs, e.ring]; exact id
  · simp only [CountsOk, e.tot, e.starts]; exact id
  · simp only [LifeOk, e.life, e.stopping]; exact id
  · simp only [Retired, e.life, e.stopping]; exact id
  · simp only [RollbackOk, e.rollback]; exact id

/-! Control structure. -/

theorem keeps_ite {s0 a b : State} {c : Prop} [Decidable c] (ha : c → Keeps s0 a) (hb : ¬ c → Keeps s0 b) :
    Keeps s0 (if c then a else b) := by 
  split
  · exact ha ‹_›
  · exact hb ‹_›

theorem keeps_foldl {α : Type} {s0 s : State} {f : State → α → State} {xs : List α}
    (hf : ∀ t x, Keeps s0 t → Keeps s0 (f t x)) (h : Keeps s0 s) : Keeps s0 (xs.foldl f s) := by
  induction xs generalizing s with
  | nil => exact h
  | cons x xs ih => exact ih (hf s x h)

theorem keeps_foldl_snd {α β : Type} {s0 : State} {q : β × State} {f : β × State → α → β × State} {xs : List α}
    (hf : ∀ t x, Keeps s0 t.2 → Keeps s0 (f t x).2) (h : Keeps s0 q.2) : Keeps s0 (xs.foldl f q).2 := by
  induction xs generalizing q with
  | nil => exact h
  | cons x xs ih => exact ih (hf q x h)

theorem apply_ite_keeps {β : Type} {s0 : State} {a b : β × State} {c : Prop} [Decidable c] (ha : Keeps s0 a.2) (hb : Keeps s0 b.2) :
    Keeps s0 (if c then a else b).2 := by
  split
  · exact ha
  · exact hb

theorem keeps_of_snd {β : Type} {s0 t : State} {p : β × State} {b : β} (e : p = (b, t)) (h : Keeps s0 p.2) : Keeps s0 t := by
  subst e; exact h

/-- The same of a result that may be absent. -/
structure KeepsO (s0 : State) (o : Option State) : Prop where
  get : ∀ t, o = some t → Keeps s0 t

theorem keepsO_none {s0 : State} : KeepsO s0 none := ⟨fun _ e => nomatch e⟩
theorem keepsO_some {s0 t : State} (h : Keeps s0 t) : KeepsO s0 (some t) := ⟨fun _ e => Option.some.inj e ▸ h⟩
theorem keepsO_get {s0 t : State} {o : Option State} (e : o = some t) (h : KeepsO s0 o) : Keeps s0 t := h.get t e
theorem keepsO_ite {s0 : State} {a b : Option State} {c : Prop} [Decidable c] (ha : c → KeepsO s0 a) (hb : ¬ c → KeepsO s0 b) :
    KeepsO s0 (if c then a else b) := by
  split
  · exact ha ‹_›
  · exact hb ‹_›

theorem keepsO_val {s0 t : State} (h : KeepsO s0 (some t)) : Keeps s0 t := h.get t rfl
theorem keepsO_foldl {α : Type} {s0 : State} {o : Option State} {f : Option State → α → Option State} {xs : List α}
    (hf : ∀ o x, KeepsO s0 o → KeepsO s0 (f o x)) (h : KeepsO s0 o) : KeepsO s0 (xs.foldl f o) := by
  induction xs generalizing o with
  | nil => exact h
  | cons x xs ih => exact ih (hf o x h)

/-! Primitive updates. -/

theorem emit_keeps {s0 s : State} (e : Emit) (h : Keeps s0 s) : Keeps s0 (emit e s) :=
  keeps_trans h ⟨rfl, List.prefix_append _ _, id, id, id, id, id, ⟨rfl, rfl, rfl, rfl, rfl, rfl⟩, Nat.le_refl _, id⟩
theorem modHm_keeps {s0 s : State} (f : Hm → Hm) (h : Keeps s0 s) : Keeps s0 (modHm f s) :=
  keeps_same h ⟨rfl, rfl, rfl, rfl, rfl, rfl, rfl, rfl, rfl, rfl, rfl, rfl, rfl, ⟨rfl, rfl, rfl, rfl, rfl, rfl⟩, rfl⟩
theorem modEp_keeps {s0 s : State} (f : Endpoint → Endpoint) (h : Keeps s0 s) : Keeps s0 (modEp f s) :=
  keeps_same h ⟨rfl, rfl, rfl, rfl, rfl, rfl, rfl, rfl, rfl, rfl, rfl, rfl, rfl, ⟨rfl, rfl, rfl, rfl, rfl, rfl⟩, rfl⟩
theorem modSb_keeps {s0 s : State} (f : Sideband → Sideband) (h : Keeps s0 s) : Keeps s0 (modSb f s) :=
  keeps_same h ⟨rfl, rfl, rfl, rfl, rfl, rfl, rfl, rfl, rfl, rfl, rfl, rfl, rfl, ⟨rfl, rfl, rfl, rfl, rfl, rfl⟩, rfl⟩
theorem modJournal_keeps {s0 s : State} (f : List Request → List Request) (h : Keeps s0 s) : Keeps s0 (modJournal f s) :=
  keeps_same h ⟨rfl, rfl, rfl, rfl, rfl, rfl, rfl, rfl, rfl, rfl, rfl, rfl, rfl, ⟨rfl, rfl, rfl, rfl, rfl, rfl⟩, rfl⟩
theorem modTiers_keeps {s0 s : State} (f : Tiers → Tiers) (h : Keeps s0 s) : Keeps s0 (modTiers f s) :=
  keeps_same h ⟨rfl, rfl, rfl, rfl, rfl, rfl, rfl, rfl, rfl, rfl, rfl, rfl, rfl, ⟨rfl, rfl, rfl, rfl, rfl, rfl⟩, rfl⟩
theorem modBnd_keeps {s0 s : State} (f : BondState → BondState) (h : Keeps s0 s) : Keeps s0 (modBnd f s) :=
  keeps_same h ⟨rfl, rfl, rfl, rfl, rfl, rfl, rfl, rfl, rfl, rfl, rfl, rfl, rfl, ⟨rfl, rfl, rfl, rfl, rfl, rfl⟩, rfl⟩
theorem modFab_keeps {s0 s : State} (f : Fabric → Fabric) (h : Keeps s0 s) : Keeps s0 (modFab f s) :=
  keeps_same h ⟨rfl, rfl, rfl, rfl, rfl, rfl, rfl, rfl, rfl, rfl, rfl, rfl, rfl, ⟨rfl, rfl, rfl, rfl, rfl, rfl⟩, rfl⟩
theorem modMgr_keeps {s0 s : State} (f : Manager → Manager) (h : Keeps s0 s) : Keeps s0 (modMgr f s) :=
  keeps_same h ⟨rfl, rfl, rfl, rfl, rfl, rfl, rfl, rfl, rfl, rfl, rfl, rfl, rfl, ⟨rfl, rfl, rfl, rfl, rfl, rfl⟩, rfl⟩
theorem modCont_keeps {s0 s : State} (f : Cont → Cont) (h : Keeps s0 s) : Keeps s0 (modCont f s) :=
  keeps_same h ⟨rfl, rfl, rfl, rfl, rfl, rfl, rfl, rfl, rfl, rfl, rfl, rfl, rfl, ⟨rfl, rfl, rfl, rfl, rfl, rfl⟩, rfl⟩
theorem modPw_keeps {s0 s : State} (f : Power → Power) (h : Keeps s0 s) : Keeps s0 (modPw f s) :=
  keeps_same h ⟨rfl, rfl, rfl, rfl, rfl, rfl, rfl, rfl, rfl, rfl, rfl, rfl, rfl, ⟨rfl, rfl, rfl, rfl, rfl, rfl⟩, rfl⟩
theorem modDv_keeps {s0 s : State} (f : Dvfs → Dvfs) (h : Keeps s0 s) : Keeps s0 (modDv f s) :=
  keeps_same h ⟨rfl, rfl, rfl, rfl, rfl, rfl, rfl, rfl, rfl, rfl, rfl, rfl, rfl, ⟨rfl, rfl, rfl, rfl, rfl, rfl⟩, rfl⟩
theorem modPins_keeps {s0 s : State} (f : Pins → Pins) (h : Keeps s0 s) : Keeps s0 (modPins f s) :=
  keeps_same h ⟨rfl, rfl, rfl, rfl, rfl, rfl, rfl, rfl, rfl, rfl, rfl, rfl, rfl, ⟨rfl, rfl, rfl, rfl, rfl, rfl⟩, rfl⟩
theorem modMbx_keeps {s0 s : State} (k : MbxId) (f : Mailbox → Mailbox) (h : Keeps s0 s) : Keeps s0 (modMbx k f s) :=
  keeps_same h ⟨rfl, rfl, rfl, rfl, rfl, rfl, rfl, rfl, rfl, rfl, rfl, rfl, rfl, ⟨rfl, rfl, rfl, rfl, rfl, rfl⟩, rfl⟩
theorem modPart_keeps {s0 s : State} (k : Nat) (f : Part → Part) (h : Keeps s0 s) : Keeps s0 (modPart k f s) :=
  keeps_same h ⟨rfl, rfl, rfl, rfl, rfl, rfl, rfl, rfl, rfl, rfl, rfl, rfl, rfl, ⟨rfl, rfl, rfl, rfl, rfl, rfl⟩, rfl⟩
theorem modCfg_keeps {s0 s : State} (k : Nat) (f : PartCfg → PartCfg) (h : Keeps s0 s) : Keeps s0 (modCfg k f s) :=
  keeps_same h ⟨rfl, rfl, rfl, rfl, rfl, rfl, rfl, rfl, rfl, rfl, rfl, rfl, rfl, ⟨rfl, rfl, rfl, rfl, rfl, rfl⟩, rfl⟩
theorem modRun_keeps {s0 s : State} (k : Nat) (f : PartRun → PartRun) (h : Keeps s0 s) : Keeps s0 (modRun k f s) :=
  keeps_same h ⟨rfl, rfl, rfl, rfl, rfl, rfl, rfl, rfl, rfl, rfl, rfl, rfl, rfl, ⟨rfl, rfl, rfl, rfl, rfl, rfl⟩, rfl⟩
theorem modStat_keeps {s0 s : State} (k : Nat) (f : PartStat → PartStat) (h : Keeps s0 s) : Keeps s0 (modStat k f s) :=
  keeps_same h ⟨rfl, rfl, rfl, rfl, rfl, rfl, rfl, rfl, rfl, rfl, rfl, rfl, rfl, ⟨rfl, rfl, rfl, rfl, rfl, rfl⟩, rfl⟩
theorem modKv_keeps {s0 s : State} (k : Nat) (f : Kv → Kv) (h : Keeps s0 s) : Keeps s0 (modKv k f s) :=
  keeps_same h ⟨rfl, rfl, rfl, rfl, rfl, rfl, rfl, rfl, rfl, rfl, rfl, rfl, rfl, ⟨rfl, rfl, rfl, rfl, rfl, rfl⟩, rfl⟩
theorem modEx_keeps {s0 s : State} (k : Nat) (f : PartEx → PartEx) (h : Keeps s0 s) : Keeps s0 (modEx k f s) :=
  keeps_same h ⟨rfl, rfl, rfl, rfl, rfl, rfl, rfl, rfl, rfl, rfl, rfl, rfl, rfl, ⟨rfl, rfl, rfl, rfl, rfl, rfl⟩, rfl⟩
theorem modJr_keeps {s0 s : State} (k : Nat) (f : PartJr → PartJr) (h : Keeps s0 s) : Keeps s0 (modJr k f s) :=
  keeps_same h ⟨rfl, rfl, rfl, rfl, rfl, rfl, rfl, rfl, rfl, rfl, rfl, rfl, rfl, ⟨rfl, rfl, rfl, rfl, rfl, rfl⟩, rfl⟩
theorem modFb_keeps {s0 s : State} (k : Nat) (f : Fallback → Fallback) (h : Keeps s0 s) : Keeps s0 (modFb k f s) :=
  keeps_same h ⟨rfl, rfl, rfl, rfl, rfl, rfl, rfl, rfl, rfl, rfl, rfl, rfl, rfl, ⟨rfl, rfl, rfl, rfl, rfl, rfl⟩, rfl⟩
theorem modCluster_keeps {s0 s : State} (k : Nat) (f : Cluster → Cluster) (h : Keeps s0 s) : Keeps s0 (modCluster k f s) :=
  keeps_same h ⟨rfl, rfl, rfl, rfl, rfl, rfl, rfl, rfl, rfl, rfl, rfl, rfl, rfl, ⟨rfl, rfl, rfl, rfl, rfl, rfl⟩, rfl⟩
theorem modCore_keeps {s0 s : State} (k : Nat) (f : Core → Core) (h : Keeps s0 s) : Keeps s0 (modCore k f s) :=
  keeps_same h ⟨rfl, rfl, rfl, rfl, rfl, rfl, rfl, rfl, rfl, rfl, rfl, rfl, rfl, ⟨rfl, rfl, rfl, rfl, rfl, rfl⟩, rfl⟩
theorem modChm_keeps {s0 s : State} (k : Nat) (f : Chamois → Chamois) (h : Keeps s0 s) : Keeps s0 (modChm k f s) :=
  keeps_same h ⟨rfl, rfl, rfl, rfl, rfl, rfl, rfl, rfl, rfl, rfl, rfl, rfl, rfl, ⟨rfl, rfl, rfl, rfl, rfl, rfl⟩, rfl⟩
theorem modPort_keeps {s0 s : State} (k : Nat) (f : Port → Port) (h : Keeps s0 s) : Keeps s0 (modPort k f s) :=
  keeps_same h ⟨rfl, rfl, rfl, rfl, rfl, rfl, rfl, rfl, rfl, rfl, rfl, rfl, rfl, ⟨rfl, rfl, rfl, rfl, rfl, rfl⟩, rfl⟩

/-- The health record: its repair record is changed only within its size. -/
theorem modHealth_keeps {s0 s : State} (f : Health → Health)
    (hf : s.health.repairs.length ≤ 4096 → (f s.health).repairs.length ≤ 4096) (h : Keeps s0 s) : Keeps s0 (modHealth f s) :=
  keeps_trans h ⟨rfl, List.prefix_refl _, id, fun r => ⟨r.1, r.2.1, hf r.2.2.1, r.2.2.2⟩, id, id, id, ⟨rfl, rfl, rfl, rfl, rfl, rfl⟩,
    Nat.le_refl _, id⟩
/-- The careen state: its result ring is changed only within its size. -/
theorem modCar_keeps {s0 s : State} (f : Careen → Careen)
    (hf : s.car.ring.length ≤ 4096 → (f s.car).ring.length ≤ 4096) (h : Keeps s0 s) : Keeps s0 (modCar f s) :=
  keeps_trans h ⟨rfl, List.prefix_refl _, id, fun r => ⟨r.1, r.2.1, r.2.2.1, hf r.2.2.2⟩, id, id, id, ⟨rfl, rfl, rfl, rfl, rfl, rfl⟩,
    Nat.le_refl _, id⟩
/-- The event log: its rings are changed only within their sizes, and the cold-start count within its own. -/
theorem modLog_keeps {s0 s : State} (f : EventLog → EventLog)
    (hm : s.host.log.main.length ≤ 8192 → (f s.host.log).main.length ≤ 8192)
    (hp : s.host.log.prot.length ≤ 512 → (f s.host.log).prot.length ≤ 512)
    (hc : s.host.log.coldStarts ≤ 0xFFFF → (f s.host.log).coldStarts ≤ 0xFFFF) (h : Keeps s0 s) : Keeps s0 (modLog f s) :=
  keeps_trans h ⟨rfl, List.prefix_refl _, id, fun r => ⟨hm r.1, hp r.2.1, r.2.2.1, r.2.2.2⟩, fun c => ⟨c.1, hc c.2⟩, id, id,
    ⟨rfl, rfl, rfl, rfl, rfl, rfl⟩, Nat.le_refl _, id⟩
/-- The boot chain: the root key stays, and the anti-rollback count rises within its fuses. -/
theorem modBoot_keeps {s0 s : State} (f : Boot → Boot) (hk : (f s.boot).rootKey = s.boot.rootKey)
    (hr : s.boot.rollback ≤ (f s.boot).rollback) (h63 : s.boot.rollback ≤ 63 → (f s.boot).rollback ≤ 63) (h : Keeps s0 s) :
    Keeps s0 (modBoot f s) :=
  keeps_trans h ⟨rfl, List.prefix_refl _, id, id, id, id, id, ⟨rfl, rfl, rfl, rfl, rfl, hk⟩, hr, h63⟩
/-- Fields of the security block that no command writes. -/
def SecAs (a b : Sec) : Prop :=
  b.serial = a.serial ∧ b.ordering = a.ordering ∧ b.stepping = a.stepping ∧ b.romDigest = a.romDigest ∧ b.fuses = a.fuses
/-- The security block: its fuses stay, and its life-cycle state moves as stated. -/
theorem modSec_keeps {s0 s : State} (f : Sec → Sec) (hs : SecAs s.sec (f s.sec)) (hl : LifeOk s → LifeOk (modSec f s))
    (hr : Retired s → Retired (modSec f s)) (h : Keeps s0 s) : Keeps s0 (modSec f s) :=
  keeps_trans h ⟨rfl, List.prefix_refl _, id, id, id, hl, hr, ⟨hs.1, hs.2.1, hs.2.2.1, hs.2.2.2.1, hs.2.2.2.2, rfl⟩, Nat.le_refl _, id⟩

/-- As `modSec_keeps`, where the move of the life-cycle state depends on the state at the start. -/
theorem modSec_keeps_from {s0 s : State} (f : Sec → Sec) (hs : SecAs s.sec (f s.sec)) (hl : LifeOk s0 → LifeOk s → LifeOk (modSec f s))
    (hr : Retired s0 → Retired s → Retired (modSec f s)) (h : Keeps s0 s) : Keeps s0 (modSec f s) :=
  ⟨h.queue, h.sent, h.mem, h.rings, h.counts, fun l => hl l (h.life l), fun r => hr r (h.retired r),
   ⟨hs.1.trans h.fused.1, hs.2.1.trans h.fused.2.1, hs.2.2.1.trans h.fused.2.2.1, hs.2.2.2.1.trans h.fused.2.2.2.1,
    hs.2.2.2.2.trans h.fused.2.2.2.2.1, h.fused.2.2.2.2.2⟩, h.rollback, h.rollbackOk⟩

theorem tset_bound {t : Tbl Nat} {n : Nat} (h : ∀ e ∈ t, e.2 < n) (k v : Nat) (hv : v < n) : ∀ e ∈ tset t k v, e.2 < n := by
  induction t with
  | nil => intro e he; simp only [tset, List.mem_singleton] at he; subst he; exact hv
  | cons c t ih =>
    obtain ⟨j, w⟩ := c
    intro e he
    simp only [tset] at he
    split at he
    · rcases List.mem_cons.mp he with rfl | he
      · exact hv
      · exact h e he
    · split at he
      · rcases List.mem_cons.mp he with rfl | he
        · exact hv
        · exact h e (List.mem_cons_of_mem _ he)
      · rcases List.mem_cons.mp he with rfl | he
        · exact h _ (List.mem_cons_self ..)
        · exact ih (fun e he => h e (List.mem_cons_of_mem _ he)) e he

theorem totAdd_keeps {s0 s : State} (k n : Nat) (h : Keeps s0 s) : Keeps s0 (totAdd k n s) :=
  keeps_trans h ⟨rfl, List.prefix_refl _, id, id,
    fun c => ⟨tset_bound c.1 _ _ (Nat.mod_lt _ (by decide)), c.2⟩, id, id, ⟨rfl, rfl, rfl, rfl, rfl, rfl⟩, Nat.le_refl _, id⟩

theorem now_keeps {s0 s : State} (v : Nat) (hk : Keeps s0 s) : Keeps s0 { s with now := v } :=
  keeps_same hk ⟨rfl, rfl, rfl, rfl, rfl, rfl, rfl, rfl, rfl, rfl, rfl, rfl, rfl, ⟨rfl, rfl, rfl, rfl, rfl, rfl⟩, rfl⟩
theorem free_keeps {s0 s : State} (v : Nat) (hk : Keeps s0 s) : Keeps s0 { s with free := v } :=
  keeps_same hk ⟨rfl, rfl, rfl, rfl, rfl, rfl, rfl, rfl, rfl, rfl, rfl, rfl, rfl, ⟨rfl, rfl, rfl, rfl, rfl, rfl⟩, rfl⟩
theorem bus_keeps {s0 s : State} (v : Word) (hk : Keeps s0 s) : Keeps s0 { s with bus := v } :=
  keeps_same hk ⟨rfl, rfl, rfl, rfl, rfl, rfl, rfl, rfl, rfl, rfl, rfl, rfl, rfl, ⟨rfl, rfl, rfl, rfl, rfl, rfl⟩, rfl⟩
theorem parts_keeps {s0 s : State} (v : Tbl Part) (hk : Keeps s0 s) : Keeps s0 { s with parts := v } :=
  keeps_same hk ⟨rfl, rfl, rfl, rfl, rfl, rfl, rfl, rfl, rfl, rfl, rfl, rfl, rfl, ⟨rfl, rfl, rfl, rfl, rfl, rfl⟩, rfl⟩
theorem images_keeps {s0 s : State} (v : Tbl Image) (hk : Keeps s0 s) : Keeps s0 { s with images := v } :=
  keeps_same hk ⟨rfl, rfl, rfl, rfl, rfl, rfl, rfl, rfl, rfl, rfl, rfl, rfl, rfl, ⟨rfl, rfl, rfl, rfl, rfl, rfl⟩, rfl⟩
theorem stages_keeps {s0 s : State} (v : List Stage) (hk : Keeps s0 s) : Keeps s0 { s with stages := v } :=
  keeps_same hk ⟨rfl, rfl, rfl, rfl, rfl, rfl, rfl, rfl, rfl, rfl, rfl, rfl, rfl, ⟨rfl, rfl, rfl, rfl, rfl, rfl⟩, rfl⟩
theorem ports_keeps {s0 s : State} (v : Tbl Port) (hk : Keeps s0 s) : Keeps s0 { s with ports := v } :=
  keeps_same hk ⟨rfl, rfl, rfl, rfl, rfl, rfl, rfl, rfl, rfl, rfl, rfl, rfl, rfl, ⟨rfl, rfl, rfl, rfl, rfl, rfl⟩, rfl⟩
theorem cont_keeps {s0 s : State} (v : Cont) (hk : Keeps s0 s) : Keeps s0 { s with cont := v } :=
  keeps_same hk ⟨rfl, rfl, rfl, rfl, rfl, rfl, rfl, rfl, rfl, rfl, rfl, rfl, rfl, ⟨rfl, rfl, rfl, rfl, rfl, rfl⟩, rfl⟩
theorem aclk_keeps {s0 s : State} (v : List Nat) (hk : Keeps s0 s) : Keeps s0 { s with aclk := v } :=
  keeps_same hk ⟨rfl, rfl, rfl, rfl, rfl, rfl, rfl, rfl, rfl, rfl, rfl, rfl, rfl, ⟨rfl, rfl, rfl, rfl, rfl, rfl⟩, rfl⟩
theorem warmRestarts_keeps {s0 s : State} (v : Nat) (hk : Keeps s0 s) : Keeps s0 { s with warmRestarts := v } :=
  keeps_same hk ⟨rfl, rfl, rfl, rfl, rfl, rfl, rfl, rfl, rfl, rfl, rfl, rfl, rfl, ⟨rfl, rfl, rfl, rfl, rfl, rfl⟩, rfl⟩
theorem mbx_keeps {s0 s : State} (v : Tbl Mailbox) (hk : Keeps s0 s) : Keeps s0 { s with host := { s.host with mbx := v } } :=
  keeps_same hk ⟨rfl, rfl, rfl, rfl, rfl, rfl, rfl, rfl, rfl, rfl, rfl, rfl, rfl, ⟨rfl, rfl, rfl, rfl, rfl, rfl⟩, rfl⟩

/-! Memory. -/

theorem sramWrite_keeps {s0 s : State} (a : Nat) (bs : List Byte) (h : Keeps s0 s) : Keeps s0 (sramWrite a bs s) :=
  keeps_trans h ⟨rfl, List.prefix_refl _, fun m => ⟨memWf_write m.1 _ _, m.2⟩, id, id, id, id, ⟨rfl, rfl, rfl, rfl, rfl, rfl⟩,
    Nat.le_refl _, id⟩
theorem hbmWriteFlat_keeps {s0 s : State} (a : Nat) (bs : List Byte) (h : Keeps s0 s) : Keeps s0 (hbmWriteFlat a bs s) :=
  keeps_trans h ⟨rfl, List.prefix_refl _, fun m => ⟨m.1, memWf_write m.2.1 _ _, m.2.2⟩, id, id, id, id,
    ⟨rfl, rfl, rfl, rfl, rfl, rfl⟩, Nat.le_refl _, id⟩
theorem bondWriteFlat_keeps {s0 s : State} (a : Nat) (bs : List Byte) (h : Keeps s0 s) : Keeps s0 (bondWriteFlat a bs s) :=
  keeps_trans h ⟨rfl, List.prefix_refl _, fun m => ⟨m.1, m.2.1, memWf_write m.2.2 _ _⟩, id, id, id, id,
    ⟨rfl, rfl, rfl, rfl, rfl, rfl⟩, Nat.le_refl _, id⟩
theorem sramLoosen_keeps {s0 s : State} (r : Loose) (h : Keeps s0 s) : Keeps s0 (sramLoosen r s) :=
  keeps_same h ⟨rfl, rfl, rfl, rfl, rfl, rfl, rfl, rfl, rfl, rfl, rfl, rfl, rfl, ⟨rfl, rfl, rfl, rfl, rfl, rfl⟩, rfl⟩
theorem draw_keeps {s0 s : State} (h : Keeps s0 s) : Keeps s0 (draw s).2 :=
  keeps_same h ⟨rfl, rfl, rfl, rfl, rfl, rfl, rfl, rfl, rfl, rfl, rfl, rfl, rfl, ⟨rfl, rfl, rfl, rfl, rfl, rfl⟩, rfl⟩

/-! The event log: its rings never grow beyond their sizes. -/

theorem ringPush_length {α : Type} {n : Nat} {xs : List α} (x : α) (h0 : 0 < n) (h : xs.length ≤ n) :
    (ringPush n xs x).1.length ≤ n := by
  unfold ringPush
  split <;> simp <;> omega

end Sys2Proof.Machine
end

