-- ==== Sys2Proof/Laws/KeepsOps.lean ====
section
/-! SUPPORT. Every operation of Machine/Ops.lean keeps what no command takes away (Laws/Keeps.lean). -/

namespace Sys2Proof.Machine
theorem raiseMsix_keeps {s0 : State} (fn v : Nat) {s : State}
    (hk : Keeps s0 s) : Keeps s0 (raiseMsix fn v s) := by
  conv => arg 2; fun; fun; fun; delta raiseMsix
  repeat' first
    | with_reducible first
        | assumption | intro _ | apply modEp_keeps | apply emit_keeps | apply keeps_ite
    | split | dsimp only

theorem setInt_keeps {s0 : State} (bit : Nat) {s : State}
    (hk : Keeps s0 s) : Keeps s0 (setInt bit s) := by
  conv => arg 2; fun; fun; delta setInt
  repeat' first
    | with_reducible first
        | assumption | intro _ | apply modHm_keeps | apply raiseMsix_keeps | apply keeps_ite
    | split | dsimp only

theorem setVfEvent_keeps {s0 : State} (p bit : Nat) {s : State}
    (hk : Keeps s0 s) : Keeps s0 (setVfEvent p bit s) := by
  conv => arg 2; fun; fun; fun; delta setVfEvent
  repeat' first
    | with_reducible first
        | assumption | intro _ | apply modPart_keeps | apply raiseMsix_keeps | apply keeps_ite
    | split | dsimp only

theorem setSticky_keeps {s0 : State} (bit : Nat) {s : State}
    (hk : Keeps s0 s) : Keeps s0 (setSticky bit s) := by
  conv => arg 2; fun; fun; delta setSticky
  repeat' first
    | with_reducible first
        | assumption | intro _ | apply modHm_keeps
    | dsimp only

theorem logWrite_keeps {s0 : State} (code : Nat) (fault : Bool) (payload : List Word) {s : State}
    (hk : Keeps s0 s) : Keeps s0 (logWrite code fault payload s) := by
  conv => arg 2; fun; fun; fun; fun; delta logWrite
  repeat' first
    | with_reducible first
        | assumption
    | exact id
    | with_reducible first
        | intro _ | apply modLog_keeps | apply setInt_keeps | apply keeps_ite
    | exact ringPush_length _ (by decide) ‹_› | exact Nat.min_le_right _ _ | split | dsimp only

theorem logEvent_keeps {s0 : State} (code : Nat) (fault : Bool) (part op step w4 w5 : Nat) {s : State}
    (hk : Keeps s0 s) : Keeps s0 (logEvent code fault part op step w4 w5 s) := by
  conv => arg 2; fun; fun; fun; fun; fun; fun; fun; fun; delta logEvent
  repeat' first
    | with_reducible first
        | assumption
    | exact id
    | with_reducible first
        | intro _ | apply logWrite_keeps | apply modLog_keeps | apply keeps_ite
    | split | dsimp only

theorem logPkg_keeps {s0 : State} (code : Nat) (fault : Bool) (w4 w5 : Nat) {s : State}
    (hk : Keeps s0 s) : Keeps s0 (logPkg code fault w4 w5 s) := by
  conv => arg 2; fun; fun; fun; fun; fun; delta logPkg
  repeat' first
    | with_reducible first
        | assumption | intro _ | apply logEvent_keeps

theorem cntAdd_keeps {s0 : State} (p k n : Nat) {s : State}
    (hk : Keeps s0 s) : Keeps s0 (cntAdd p k n s) := by
  conv => arg 2; fun; fun; fun; fun; delta cntAdd
  repeat' first
    | with_reducible first
        | assumption | intro _ | apply modStat_keeps
    | dsimp only
    | exact keeps_same hk ⟨rfl, rfl, rfl, rfl, rfl, rfl, rfl, rfl, rfl, rfl, rfl, rfl, rfl, ⟨rfl, rfl, rfl, rfl, rfl, rfl⟩, rfl⟩

theorem cumAdd_keeps {s0 : State} (p k n : Nat) {s : State}
    (hk : Keeps s0 s) : Keeps s0 (cumAdd p k n s) := by
  conv => arg 2; fun; fun; fun; fun; delta cumAdd
  repeat' first
    | with_reducible first
        | assumption | intro _ | apply modStat_keeps
    | dsimp only
    | exact keeps_same hk ⟨rfl, rfl, rfl, rfl, rfl, rfl, rfl, rfl, rfl, rfl, rfl, rfl, rfl, ⟨rfl, rfl, rfl, rfl, rfl, rfl⟩, rfl⟩

theorem hmJournal_keeps {s0 : State} (words : List Word) {s : State}
    (hk : Keeps s0 s) : Keeps s0 (hmJournal words s) := by
  conv => arg 2; fun; fun; delta hmJournal
  repeat' first
    | with_reducible first
        | assumption | intro _ | apply emit_keeps | apply keeps_ite
    | split

theorem announce_keeps {s0 : State} (m : MbxId) (ws : List Word) {s : State}
    (hk : Keeps s0 s) : Keeps s0 (announce m ws s) := by
  conv => arg 2; fun; fun; fun; delta announce
  repeat' first
    | with_reducible first
        | assumption | intro _ | apply raiseMsix_keeps | apply emit_keeps
    | split

theorem reply_keeps {s0 : State} (r : Request) (status : Nat) (body : List Word) {s : State}
    (hk : Keeps s0 s) : Keeps s0 (reply r status body s) := by
  conv => arg 2; fun; fun; fun; fun; delta reply
  repeat' first
    | with_reducible first
        | assumption | intro _ | apply totAdd_keeps | apply hmJournal_keeps | apply announce_keeps
        | apply modMbx_keeps | apply keeps_ite
    | split | dsimp only

theorem takeCmd_keeps {s0 : State} (m : MbxId) (cmd : Nat) (f : Request → State → State) {s : State} (hf : ∀ x0 x1, Keeps s0 x1 → Keeps s0 (f x0 x1))
    (hk : Keeps s0 s) : Keeps s0 (takeCmd m cmd f s) := by
  conv => arg 2; fun; fun; fun; fun; delta takeCmd
  repeat' first
    | with_reducible first
        | assumption | intro _ | apply modJournal_keeps | apply hf
    | split | dsimp only

theorem takeSub_keeps {s0 : State} (m : MbxId) (cmd sub : Nat) (f : Request → State → State) {s : State} (hf : ∀ x0 x1, Keeps s0 x1 → Keeps s0 (f x0 x1))
    (hk : Keeps s0 s) : Keeps s0 (takeSub m cmd sub f s) := by
  conv => arg 2; fun; fun; fun; fun; fun; delta takeSub
  repeat' first
    | with_reducible first
        | assumption | intro _ | apply modJournal_keeps | apply hf | apply keeps_ite
    | split | dsimp only

theorem dmaFailed_keeps {s0 : State} (r : Request) {s : State}
    (hk : Keeps s0 s) : Keeps s0 (dmaFailed r s) := by
  conv => arg 2; fun; fun; delta dmaFailed
  repeat' first
    | with_reducible first
        | assumption | intro _ | apply reply_keeps | apply logPkg_keeps | apply totAdd_keeps | apply keeps_ite
    | split

theorem countRead_keeps {s0 : State} (n : Nat) {s : State}
    (hk : Keeps s0 s) : Keeps s0 (countRead n s) := by
  conv => arg 2; fun; fun; delta countRead
  repeat' first
    | with_reducible first
        | assumption | intro _ | apply totAdd_keeps

theorem countWrite_keeps {s0 : State} (n : Nat) {s : State}
    (hk : Keeps s0 s) : Keeps s0 (countWrite n s) := by
  conv => arg 2; fun; fun; delta countWrite
  repeat' first
    | with_reducible first
        | assumption | intro _ | apply totAdd_keeps

theorem hostWrite_keeps {s0 : State} (fn addr : Nat) (bs : List Byte) {s : State}
    (hk : Keeps s0 s) : Keeps s0 (hostWrite fn addr bs s) := by
  conv => arg 2; fun; fun; fun; fun; delta hostWrite
  repeat' first
    | with_reducible first
        | assumption | intro _ | apply emit_keeps | apply countWrite_keeps | apply keeps_ite
    | split

end Sys2Proof.Machine
end

