-- ==== Sys2Proof/Laws/KeepsHost.lean ====
section
/-! SUPPORT. Every operation of Machine/Host.lean keeps what no command takes away (Laws/Keeps.lean). -/

namespace Sys2Proof.Machine
theorem countRefused_keeps {s0 : State} (r : Request) {s : State} (hk : Keeps s0 s) : Keeps s0 (countRefused r s) := by
  unfold countRefused
  repeat' first
    | with_reducible first
        | assumption | intro _ | apply cumAdd_keeps | apply keeps_foldl

theorem receive_keeps {s0 : State} (r : Request) {s : State}
    (hk : Keeps s0 s) : Keeps s0 (receive r s) := by
  conv => arg 2; fun; fun; delta receive
  repeat' first
    | with_reducible first
        | assumption | intro _ | apply hmJournal_keeps | apply totAdd_keeps | apply reply_keeps | apply countRefused_keeps
        | apply modJournal_keeps | apply keeps_ite
    | split | dsimp only

theorem postMbx_keeps {s0 : State} (m : MbxId) (len : Nat) {s : State}
    (hk : Keeps s0 s) : Keeps s0 (postMbx m len s) := by
  conv => arg 2; fun; fun; fun; delta postMbx
  repeat' first
    | with_reducible first
        | assumption | intro _ | apply totAdd_keeps | apply modMbx_keeps | apply receive_keeps | apply keeps_ite
    | split | dsimp only | apply mbx_keeps

theorem ackMbx_keeps {s0 : State} (m : MbxId) (val : Word) {s : State}
    (hk : Keeps s0 s) : Keeps s0 (ackMbx m val s) := by
  conv => arg 2; fun; fun; fun; delta ackMbx
  repeat' first
    | with_reducible first
        | assumption | intro _ | apply modMbx_keeps | apply keeps_ite
    | split | dsimp only

theorem clearInt_keeps {s0 : State} (val : Word) {s : State}
    (hk : Keeps s0 s) : Keeps s0 (clearInt val s) := by
  conv => arg 2; fun; fun; delta clearInt
  repeat' first
    | with_reducible first
        | assumption | intro _ | apply modHm_keeps
    | dsimp only

theorem clearVfEvent_keeps {s0 : State} (n : Nat) (val : Word) {s : State}
    (hk : Keeps s0 s) : Keeps s0 (clearVfEvent n val s) := by
  conv => arg 2; fun; fun; fun; delta clearVfEvent
  repeat' first
    | with_reducible first
        | assumption | intro _ | apply modPart_keeps
    | dsimp only

theorem writeWindow_keeps {s0 : State} (m : MbxId) (o : Nat) (val : Word) {s : State}
    (hk : Keeps s0 s) : Keeps s0 (writeWindow m o val s) := by
  conv => arg 2; fun; fun; fun; fun; delta writeWindow
  repeat' first
    | with_reducible first
        | assumption | intro _ | apply modMbx_keeps | apply postMbx_keeps | apply ackMbx_keeps | apply keeps_ite
    | split | dsimp only

theorem writeMsix_keeps {s0 : State} (fn off : Nat) (val : Word) {s : State}
    (hk : Keeps s0 s) : Keeps s0 (writeMsix fn off val s) := by
  conv => arg 2; fun; fun; fun; fun; delta writeMsix
  repeat' first
    | with_reducible first
        | assumption | intro _ | apply modEp_keeps | apply emit_keeps | apply keeps_ite
    | split | dsimp only

theorem writeReg_keeps {s0 : State} (fn : FnId) (bar2 : Bool) (off : Nat) (val : Word) {s : State}
    (hk : Keeps s0 s) : Keeps s0 (writeReg fn bar2 off val s) := by
  conv => arg 2; fun; fun; fun; fun; fun; delta writeReg
  repeat' first
    | with_reducible first
        | assumption | intro _ | apply writeMsix_keeps | apply writeWindow_keeps | apply clearInt_keeps
        | apply modHm_keeps | apply clearVfEvent_keeps | apply modPart_keeps | apply keeps_ite
    | split | dsimp only

theorem enterState_keeps {s0 : State} (st : PState) {s : State}
    (hk : Keeps s0 s) : Keeps s0 (enterState st s) := by
  conv => arg 2; fun; fun; delta enterState
  repeat' first
    | with_reducible first
        | assumption | intro _ | apply setInt_keeps | apply logPkg_keeps | apply modPw_keeps | apply keeps_ite
    | split | dsimp only

end Sys2Proof.Machine
end

