-- ==== Sys2Proof/Laws/KeepsNet.lean ====
section
/-! SUPPORT. Every operation of Machine/Net.lean keeps what no command takes away (Laws/Keeps.lean). -/

namespace Sys2Proof.Machine
theorem portNow_keeps {s0 : State} (p : Nat) (h : List Word) (data : List Byte) {s : State}
    (hk : Keeps s0 s) : Keeps s0 (portNow p h data s) := by
  conv => arg 2; fun; fun; fun; fun; delta portNow
  repeat' first
    | with_reducible first
        | assumption | intro _ | apply emit_keeps | apply totAdd_keeps | apply modPort_keeps
    | dsimp only

theorem portSend_keeps {s0 : State} (p : Nat) (h : List Word) (data : List Byte) {s : State}
    (hk : Keeps s0 s) : Keeps s0 (portSend p h data s) := by
  conv => arg 2; fun; fun; fun; fun; delta portSend
  repeat' first
    | with_reducible first
        | assumption | intro _ | apply portNow_keeps | apply modPort_keeps | apply keeps_ite
    | split | dsimp only

theorem portDrain_keeps {s0 : State} (p : Nat) {s : State}
    (hk : Keeps s0 s) : Keeps s0 (portDrain p s) := by
  conv => arg 2; fun; fun; delta portDrain
  repeat' first
    | with_reducible first
        | assumption | intro _ | apply portSend_keeps | apply modPort_keeps | apply keeps_foldl
    | dsimp only

theorem transmit_keeps {s0 : State} (plane dst attempt : Nat) (h : List Word) (data : List Byte) {s : State}
    (hk : Keeps s0 s) : Keeps s0 (transmit plane dst attempt h data s) := by
  conv => arg 2; fun; fun; fun; fun; fun; fun; delta transmit
  repeat' first
    | with_reducible first
        | assumption | intro _ | apply portSend_keeps
    | split | dsimp only

theorem mgmtSend_keeps {s0 : State} (op subop dst w6 : Nat) (data : List Byte) {s : State}
    (hk : Keeps s0 s) : Keeps s0 (mgmtSend op subop dst w6 data s) := by
  conv => arg 2; fun; fun; fun; fun; fun; fun; delta mgmtSend
  repeat' first
    | with_reducible first
        | assumption | intro _ | apply transmit_keeps

theorem mgmtAsk_keeps {s0 : State} (op subop dst w6 : Nat) (data : List Byte) {s : State}
    (hk : Keeps s0 s) : Keeps s0 (mgmtAsk op subop dst w6 data s) := by
  conv => arg 2; fun; fun; fun; fun; fun; fun; delta mgmtAsk
  repeat' first
    | with_reducible first
        | assumption | intro _ | apply modFab_keeps | apply transmit_keeps
    | dsimp only

theorem mgmtDone_keeps {s0 : State} (op dst : Nat) (same : List Byte → Bool) {s : State}
    (hk : Keeps s0 s) : Keeps s0 (mgmtDone op dst same s) := by
  conv => arg 2; fun; fun; fun; fun; delta mgmtDone
  repeat' first
    | with_reducible first
        | assumption | intro _ | apply modFab_keeps
    | dsimp only

theorem sendHeartbeat_keeps {s0 : State} {s : State}
    (hk : Keeps s0 s) : Keeps s0 (sendHeartbeat s) := by
  conv => arg 2; fun; delta sendHeartbeat
  repeat' first
    | with_reducible first
        | assumption | intro _ | apply transmit_keeps | apply modFab_keeps | apply keeps_ite | apply keeps_foldl
    | split | dsimp only

theorem putStream_keeps {s0 : State} (x : SrcStream) {s : State}
    (hk : Keeps s0 s) : Keeps s0 (putStream x s) := by
  conv => arg 2; fun; fun; delta putStream
  repeat' first
    | with_reducible first
        | assumption | intro _ | apply modFab_keeps | apply keeps_ite
    | split | dsimp only

theorem sendNow_keeps {s0 : State} (plane dst job : Nat) (r : OutReq) {s : State}
    (hk : Keeps s0 s) : Keeps s0 (sendNow plane dst job r s) := by
  conv => arg 2; fun; fun; fun; fun; fun; delta sendNow
  repeat' first
    | with_reducible first
        | assumption | intro _ | apply transmit_keeps | apply putStream_keeps
    | dsimp only

theorem streamPump_keeps {s0 s : State} (home dst job : Nat) (n : Nat)
    (hk : Keeps s0 s) : Keeps s0 (streamPump home dst job n s) := by
  induction n generalizing s with
  | zero => exact hk
  | succ n ih =>
    unfold streamPump
    repeat' first
    | with_reducible first
        | assumption | intro _ | apply ih | apply sendNow_keeps | apply putStream_keeps | apply keeps_ite
    | split | dsimp only

theorem streamSend_keeps {s0 : State} (home dst job : Nat) (r : OutReq) {s : State}
    (hk : Keeps s0 s) : Keeps s0 (streamSend home dst job r s) := by
  conv => arg 2; fun; fun; fun; fun; fun; delta streamSend
  repeat' first
    | with_reducible first
        | assumption | intro _ | apply streamPump_keeps | apply putStream_keeps
    | dsimp only

theorem pumpDst_keeps {s0 : State} (dst job : Nat) {s : State}
    (hk : Keeps s0 s) : Keeps s0 (pumpDst dst job s) := by
  conv => arg 2; fun; fun; fun; delta pumpDst
  repeat' first
    | with_reducible first
        | assumption | intro _ | apply streamPump_keeps | apply keeps_foldl
    | dsimp only

theorem issueKeep_keeps {s0 : State} (entry : List Byte) (plane dst job op subop : Nat) (part : Option Nat) (rel : Option (Nat × Nat)) (addr len : Nat) (data : List Byte) {s : State}
    (hk : Keeps s0 s) : Keeps s0 (issueKeep entry plane dst job op subop part rel addr len data s).2 := by
  conv => arg 2; arg 1; fun; fun; fun; fun; fun; fun; fun; fun; fun; fun; fun; fun; delta issueKeep
  repeat' first
    | with_reducible first
        | assumption | intro _ | apply cntAdd_keeps | apply modFab_keeps | apply streamSend_keeps | apply keeps_ite
        | apply apply_ite_keeps
    | split | dsimp only

theorem issue_keeps {s0 : State} (plane dst job op subop : Nat) (part : Option Nat) (rel : Option (Nat × Nat)) (addr len : Nat) (data : List Byte) {s : State}
    (hk : Keeps s0 s) : Keeps s0 (issue plane dst job op subop part rel addr len data s).2 := by
  conv => arg 2; arg 1; fun; fun; fun; fun; fun; fun; fun; fun; fun; fun; fun; delta issue
  repeat' first
    | with_reducible first
        | assumption | intro _ | apply issueKeep_keeps | apply apply_ite_keeps
    | dsimp only

theorem issuePush_keeps {s0 : State} (plane dst job : Nat) (part : Option Nat) (rel : Option (Nat × Nat)) (dpart off : Nat) (data : List Byte) (post : Bool) {s : State}
    (hk : Keeps s0 s) : Keeps s0 (issuePush plane dst job part rel dpart off data post s).2 := by
  conv => arg 2; arg 1; fun; fun; fun; fun; fun; fun; fun; fun; fun; fun; delta issuePush
  repeat' first
    | with_reducible first
        | assumption | intro _ | apply issue_keeps | apply keeps_ite | apply apply_ite_keeps | apply keeps_foldl
        | apply keeps_foldl_snd
    | split | dsimp only

end Sys2Proof.Machine
end

