-- ==== Sys2Proof/Laws/KeepsRecord.lean ====
section
/-! SUPPORT. Every operation of Machine/Record.lean keeps what no command takes away (Laws/Keeps.lean). -/

namespace Sys2Proof.Machine
theorem modStage_keeps {s0 : State} (slot : Nat) (f : Stage → Stage) {s : State}
    (hk : Keeps s0 s) : Keeps s0 (modStage slot f s) := by
  conv => arg 2; fun; fun; fun; delta modStage
  repeat' first
    | with_reducible first
        | assumption | intro _ | apply keeps_ite
    | split | dsimp only | apply stages_keeps
    | exact keeps_same hk ⟨rfl, rfl, rfl, rfl, rfl, rfl, rfl, rfl, rfl, rfl, rfl, rfl, rfl, ⟨rfl, rfl, rfl, rfl, rfl, rfl⟩, rfl⟩

theorem modSlot_keeps {s0 : State} (p i : Nat) (f : SeqSlot → SeqSlot) {s : State}
    (hk : Keeps s0 s) : Keeps s0 (modSlot p i f s) := by
  conv => arg 2; fun; fun; fun; fun; delta modSlot
  repeat' first
    | with_reducible first
        | assumption | intro _ | apply modKv_keeps
    | dsimp only

theorem hbmWrite_keeps {s0 : State} (p off : Nat) (bs : List Byte) {s : State}
    (hk : Keeps s0 s) : Keeps s0 (hbmWrite p off bs s) := by
  conv => arg 2; fun; fun; fun; fun; delta hbmWrite
  repeat' first
    | with_reducible first
        | assumption | intro _ | apply hbmWriteFlat_keeps

theorem rewriteDead_keeps {s0 : State} (a n : Nat) {s : State}
    (hk : Keeps s0 s) : Keeps s0 (rewriteDead a n s) := by
  conv => arg 2; fun; fun; fun; delta rewriteDead
  repeat' first
    | with_reducible first
        | assumption | intro _ | apply modTiers_keeps
    | dsimp only
    | exact keeps_same hk ⟨rfl, rfl, rfl, rfl, rfl, rfl, rfl, rfl, rfl, rfl, rfl, rfl, rfl, ⟨rfl, rfl, rfl, rfl, rfl, rfl⟩, rfl⟩

end Sys2Proof.Machine
end

