-- ==== Sys2Proof/Laws/KeepsPlace.lean ====
section
/-! SUPPORT. Every operation of Machine/Place.lean keeps what no command takes away (Laws/Keeps.lean). -/

namespace Sys2Proof.Machine
theorem mapFrame_keeps {s0 : State} (space journal region n : Nat) {s : State}
    (hk : Keeps s0 s) : Keeps s0 (mapFrame space journal region n s) := by
  conv => arg 2; fun; fun; fun; fun; fun; delta mapFrame
  repeat' first
    | with_reducible first
        | assumption | intro _ | apply modTiers_keeps | apply keeps_ite
    | split | dsimp only | refine keeps_of_snd (by with_reducible assumption) ?_
    | refine keepsO_get (by with_reducible assumption) ?_ | apply free_keeps
    | exact keeps_same hk ⟨rfl, rfl, rfl, rfl, rfl, rfl, rfl, rfl, rfl, rfl, rfl, rfl, rfl, ⟨rfl, rfl, rfl, rfl, rfl, rfl⟩, rfl⟩

theorem mapFrames_keeps {s0 : State} (space journal region : Nat) (ns : List Nat) {s : State}
    (hk : Keeps s0 s) : Keeps s0 (mapFrames space journal region ns s) := by
  conv => arg 2; fun; fun; fun; fun; fun; delta mapFrames
  repeat' first
    | with_reducible first
        | assumption | intro _ | apply mapFrame_keeps | apply keeps_foldl | apply keeps_foldl_snd
    | split | dsimp only | refine keeps_of_snd (by with_reducible assumption) ?_ | refine keepsO_get (by with_reducible assumption) ?_

theorem mapPartition_keeps {s0 : State} (p : Nat) (ws b : List Word) {s : State}
    (hk : Keeps s0 s) : Keeps s0 (mapPartition p ws b s) := by
  conv => arg 2; fun; fun; fun; fun; delta mapPartition
  repeat' first
    | with_reducible first
        | assumption | intro _ | apply mapFrames_keeps
    | split | dsimp only | refine keeps_of_snd (by with_reducible assumption) ?_ | refine keepsO_get (by with_reducible assumption) ?_

theorem mapStage_keeps {s0 : State} (slot : Nat) (ws : List Word) {s : State}
    (hk : Keeps s0 s) : Keeps s0 (mapStage slot ws s) := by
  conv => arg 2; fun; fun; fun; delta mapStage
  repeat' first
    | with_reducible first
        | assumption | intro _ | apply mapFrames_keeps
    | split | dsimp only | refine keeps_of_snd (by with_reducible assumption) ?_ | refine keepsO_get (by with_reducible assumption) ?_

theorem unmapSpace_keeps {s0 : State} (space : Nat) {s : State}
    (hk : Keeps s0 s) : Keeps s0 (unmapSpace space s) := by
  conv => arg 2; fun; fun; delta unmapSpace
  repeat' first
    | with_reducible first
        | assumption | intro _ | apply modTiers_keeps
    | split | dsimp only | refine keeps_of_snd (by with_reducible assumption) ?_ | refine keepsO_get (by with_reducible assumption) ?_

end Sys2Proof.Machine
end

