-- ==== Sys2Proof/Laws/KeepsService.lean ====
section
/-! SUPPORT. Every operation of Machine/Service.lean keeps what no command takes away (Laws/Keeps.lean). -/

namespace Sys2Proof.Machine
theorem queueTest_keeps {s0 : State} (kind elem detail : Nat) {s : State}
    (hk : Keeps s0 s) : Keeps s0 (queueTest kind elem detail s) := by
  conv => arg 2; fun; fun; fun; fun; delta queueTest
  repeat' first
    | with_reducible first
        | assumption
    | exact id
    | with_reducible first
        | intro _ | apply modCar_keeps | apply keeps_ite
    | split | dsimp only

theorem recordRepair_keeps {s0 : State} (kind elem detail : Nat) {s : State} (hk : Keeps s0 s) :
    Keeps s0 (recordRepair kind elem detail s) := by
  have h1 : Keeps s0 (queueTest kind elem detail (setSticky 0 s)) := queueTest_keeps _ _ _ (setSticky_keeps _ hk)
  unfold recordRepair
  refine keeps_ite (fun _ => h1) fun _ => keeps_ite (fun hl => ?_) fun _ => keeps_ite (fun _ => h1) fun _ => ?_
  · refine totAdd_keeps _ _ (modHealth_keeps _ (fun _ => ?_) h1)
    have e : (queueTest kind elem detail (setSticky 0 s)).health.repairs = s.health.repairs := rfl
    simp only [e, List.length_append, List.length_singleton]
    exact hl
  · exact logPkg_keeps _ _ _ _ (modHealth_keeps _ id h1)

theorem portsIdle_keeps {s0 : State} {s : State}
    (hk : Keeps s0 s) : Keeps s0 (portsIdle s) := by
  conv => arg 2; fun; delta portsIdle
  repeat' first
    | with_reducible first
        | assumption | intro _
    | dsimp only | apply ports_keeps
    | exact keeps_same hk ⟨rfl, rfl, rfl, rfl, rfl, rfl, rfl, rfl, rfl, rfl, rfl, rfl, rfl, ⟨rfl, rfl, rfl, rfl, rfl, rfl⟩, rfl⟩

theorem declareFailed_keeps {s0 : State} (cause elem : Nat) {s : State}
    (hk : Keeps s0 s) : Keeps s0 (declareFailed cause elem s) := by
  conv => arg 2; fun; fun; fun; delta declareFailed
  repeat' first
    | with_reducible first
        | assumption | intro _ | apply logPkg_keeps | apply modHm_keeps | apply portsIdle_keeps
        | apply sendHeartbeat_keeps | apply modPins_keeps | apply setSticky_keeps | apply keeps_ite
    | split | dsimp only

theorem checkSet_keeps {s0 : State} {s : State}
    (hk : Keeps s0 s) : Keeps s0 (checkSet s) := by
  conv => arg 2; fun; delta checkSet
  repeat' first
    | with_reducible first
        | assumption | intro _ | apply declareFailed_keeps | apply keeps_ite
    | split

theorem modStep_keeps {s0 : State} (p id : Nat) (f : StepRec → StepRec) {s : State}
    (hk : Keeps s0 s) : Keeps s0 (modStep p id f s) := by
  conv => arg 2; fun; fun; fun; fun; delta modStep
  repeat' first
    | with_reducible first
        | assumption | intro _ | apply modRun_keeps | apply keeps_ite
    | split | dsimp only

theorem onceEvent_keeps {s0 : State} (code : Nat) (fault : Bool) (p op step w4 w5 : Nat) {s : State}
    (hk : Keeps s0 s) : Keeps s0 (onceEvent code fault p op step w4 w5 s) := by
  conv => arg 2; fun; fun; fun; fun; fun; fun; fun; fun; delta onceEvent
  repeat' first
    | with_reducible first
        | assumption | intro _ | apply logEvent_keeps | apply modRun_keeps | apply keeps_ite
    | split | dsimp only

theorem stepEvent_keeps {s0 : State} (code : Nat) (p op step w4 w5 : Nat) {s : State}
    (hk : Keeps s0 s) : Keeps s0 (stepEvent code p op step w4 w5 s) := by
  conv => arg 2; fun; fun; fun; fun; fun; fun; fun; delta stepEvent
  repeat' first
    | with_reducible first
        | assumption | intro _ | apply logEvent_keeps | apply modStep_keeps | apply keeps_ite
    | split | dsimp only

theorem clearExchange_keeps {s0 : State} (p id : Nat) {s : State}
    (hk : Keeps s0 s) : Keeps s0 (clearExchange p id s) := by
  conv => arg 2; fun; fun; fun; delta clearExchange
  repeat' first
    | with_reducible first
        | assumption | intro _ | apply modEx_keeps
    | dsimp only

theorem dropStep_keeps {s0 : State} (p id : Nat) {s : State}
    (hk : Keeps s0 s) : Keeps s0 (dropStep p id s) := by
  conv => arg 2; fun; fun; fun; delta dropStep
  repeat' first
    | with_reducible first
        | assumption | intro _ | apply modRun_keeps | apply clearExchange_keeps | apply keeps_ite
    | split | dsimp only | apply stages_keeps
    | exact keeps_same hk ⟨rfl, rfl, rfl, rfl, rfl, rfl, rfl, rfl, rfl, rfl, rfl, rfl, rfl, ⟨rfl, rfl, rfl, rfl, rfl, rfl⟩, rfl⟩

theorem startRuns_keeps {s0 : State} (p id : Nat) {s : State}
    (hk : Keeps s0 s) : Keeps s0 (startRuns p id s) := by
  conv => arg 2; fun; fun; fun; delta startRuns
  repeat' first
    | with_reducible first
        | assumption | intro _ | apply modCluster_keeps | apply keeps_foldl
    | split | dsimp only

theorem rerunStep_keeps {s0 : State} (p id : Nat) {s : State}
    (hk : Keeps s0 s) : Keeps s0 (rerunStep p id s) := by
  conv => arg 2; fun; fun; fun; delta rerunStep
  repeat' first
    | with_reducible first
        | assumption | intro _ | apply modStep_keeps | apply startRuns_keeps | apply dropStep_keeps
    | dsimp only

theorem discardSteps_keeps {s0 : State} (p : Nat) {s : State}
    (hk : Keeps s0 s) : Keeps s0 (discardSteps p s) := by
  conv => arg 2; fun; fun; delta discardSteps
  repeat' first
    | with_reducible first
        | assumption | intro _ | apply modCont_keeps | apply modStep_keeps | apply dropStep_keeps | apply keeps_foldl
        | apply keeps_foldl_snd
    | split | dsimp only | refine keeps_of_snd (by with_reducible assumption) ?_ | refine keepsO_get (by with_reducible assumption) ?_

theorem rerunOrReplay_keeps {s0 : State} (p id : Nat) {s : State}
    (hk : Keeps s0 s) : Keeps s0 (rerunOrReplay p id s) := by
  conv => arg 2; fun; fun; fun; delta rerunOrReplay
  repeat' first
    | with_reducible first
        | assumption | intro _ | apply discardSteps_keeps | apply rerunStep_keeps | apply keeps_ite
        | apply keeps_foldl | apply keeps_foldl_snd
    | split | dsimp only | refine keeps_of_snd (by with_reducible assumption) ?_ | refine keepsO_get (by with_reducible assumption) ?_

theorem confirmedStep_keeps {s0 : State} (p id kind elem : Nat) {s : State}
    (hk : Keeps s0 s) : Keeps s0 (confirmedStep p id kind elem s) := by
  conv => arg 2; fun; fun; fun; fun; fun; delta confirmedStep
  repeat' first
    | with_reducible first
        | assumption | intro _ | apply cntAdd_keeps | apply declareFailed_keeps | apply modStep_keeps
        | apply onceEvent_keeps | apply rerunOrReplay_keeps | apply keeps_ite
    | split | dsimp only | refine keeps_of_snd (by with_reducible assumption) ?_ | refine keepsO_get (by with_reducible assumption) ?_

theorem holdResult_keeps {s0 : State} (p : Nat) (r : StepRec) (data : List Byte) {s : State}
    (hk : Keeps s0 s) : Keeps s0 (holdResult p r data s) := by
  conv => arg 2; fun; fun; fun; fun; delta holdResult
  repeat' first
    | with_reducible first
        | assumption | intro _ | apply logEvent_keeps | apply totAdd_keeps | apply modRun_keeps | apply keeps_ite
    | split | dsimp only

theorem deliver_keeps {s0 : State} (p : Nat) (r : StepRec) (data : List Byte) {s : State}
    (hk : Keeps s0 s) : Keeps s0 (deliver p r data s) := by
  conv => arg 2; fun; fun; fun; fun; delta deliver
  repeat' first
    | with_reducible first
        | assumption | intro _ | apply setVfEvent_keeps | apply hostWrite_keeps | apply raiseMsix_keeps
        | apply logEvent_keeps | apply holdResult_keeps | apply keeps_ite
    | split | dsimp only

theorem freePage_keeps {s0 : State} (p slot i units : Nat) {s : State}
    (hk : Keeps s0 s) : Keeps s0 (freePage p slot i units s) := by
  conv => arg 2; fun; fun; fun; fun; fun; delta freePage
  repeat' first
    | with_reducible first
        | assumption | intro _ | apply modSlot_keeps | apply modKv_keeps | apply keeps_ite
    | split | dsimp only

theorem releaseStep_keeps {s0 : State} (p id : Nat) {s : State}
    (hk : Keeps s0 s) : Keeps s0 (releaseStep p id s) := by
  conv => arg 2; fun; fun; fun; delta releaseStep
  repeat' first
    | with_reducible first
        | assumption | intro _ | apply freePage_keeps | apply modJr_keeps | apply keeps_foldl
    | split | dsimp only

theorem endStepWith_keeps {s0 : State} (p id status cause cluster : Nat) {s : State}
    (hk : Keeps s0 s) : Keeps s0 (endStepWith p id status cause cluster s) := by
  conv => arg 2; fun; fun; fun; fun; fun; fun; delta endStepWith
  repeat' first
    | with_reducible first
        | assumption | intro _ | apply modStep_keeps | apply releaseStep_keeps | apply dropStep_keeps
        | apply deliver_keeps
    | split | dsimp only

theorem withdrawStep_keeps {s0 : State} (p id : Nat) (quiet : Bool) {s : State}
    (hk : Keeps s0 s) : Keeps s0 (withdrawStep p id quiet s) := by
  conv => arg 2; fun; fun; fun; fun; delta withdrawStep
  repeat' first
    | with_reducible first
        | assumption | intro _ | apply modStep_keeps | apply releaseStep_keeps | apply deliver_keeps | apply keeps_ite
    | split | dsimp only

theorem foldCluster_keeps {s0 : State} (p c : Nat) {s : State}
    (hk : Keeps s0 s) : Keeps s0 (foldCluster p c s) := by
  conv => arg 2; fun; fun; fun; delta foldCluster
  repeat' first
    | with_reducible first
        | assumption | intro _ | apply declareFailed_keeps | apply modCfg_keeps | apply keeps_ite
    | split | dsimp only

theorem foldAll_keeps {s0 : State} (p : Nat) {s : State}
    (hk : Keeps s0 s) : Keeps s0 (foldAll p s) := by
  conv => arg 2; fun; fun; delta foldAll
  repeat' first
    | with_reducible first
        | assumption | intro _ | apply declareFailed_keeps | apply foldCluster_keeps | apply keeps_ite
        | apply keeps_foldl
    | split | dsimp only

theorem foldBoundary_keeps {s0 : State} (p : Nat) {s : State}
    (hk : Keeps s0 s) : Keeps s0 (foldBoundary p s) := by
  conv => arg 2; fun; fun; delta foldBoundary
  repeat' first
    | with_reducible first
        | assumption | intro _ | apply foldAll_keeps | apply rerunOrReplay_keeps | apply rerunStep_keeps
        | apply keeps_ite | apply keeps_foldl | apply keeps_foldl_snd
    | split | dsimp only | refine keeps_of_snd (by with_reducible assumption) ?_ | refine keepsO_get (by with_reducible assumption) ?_

theorem clusterOut_keeps {s0 : State} (k detail : Nat) {s : State}
    (hk : Keeps s0 s) : Keeps s0 (clusterOut k detail s) := by
  conv => arg 2; fun; fun; fun; delta clusterOut
  repeat' first
    | with_reducible first
        | assumption | intro _ | apply recordRepair_keeps | apply modCluster_keeps | apply foldBoundary_keeps
        | apply checkSet_keeps | apply keeps_ite
    | split | dsimp only | refine keeps_of_snd (by with_reducible assumption) ?_ | refine keepsO_get (by with_reducible assumption) ?_

theorem coreFails_keeps {s0 : State} (n : Nat) {s : State}
    (hk : Keeps s0 s) : Keeps s0 (coreFails n s) := by
  conv => arg 2; fun; fun; delta coreFails
  repeat' first
    | with_reducible first
        | assumption
    | exact id
    | with_reducible first
        | intro _ | apply recordRepair_keeps | apply modHealth_keeps | apply clusterOut_keeps | apply modCore_keeps
        | apply keeps_ite
    | split | dsimp only

theorem swapBank_keeps {s0 : State} (p : Nat) {s : State}
    (hk : Keeps s0 s) : Keeps s0 (swapBank p s) := by
  conv => arg 2; fun; fun; delta swapBank
  repeat' first
    | with_reducible first
        | assumption | intro _ | apply modCfg_keeps | apply modFb_keeps | apply modStage_keeps
        | apply modCluster_keeps | apply cntAdd_keeps | apply foldAll_keeps | apply setVfEvent_keeps
        | apply logEvent_keeps | apply keeps_ite | apply keeps_foldl | apply keeps_foldl_snd | apply apply_ite_keeps
    | split | dsimp only | refine keeps_of_snd (by with_reducible assumption) ?_ | refine keepsO_get (by with_reducible assumption) ?_

theorem trySwap_keeps {s0 : State} (p : Nat) {s : State}
    (hk : Keeps s0 s) : Keeps s0 (trySwap p s) := by
  conv => arg 2; fun; fun; delta trySwap
  repeat' first
    | with_reducible first
        | assumption | intro _ | apply swapBank_keeps | apply keeps_ite | apply keeps_foldl
    | split | dsimp only

theorem programFault_keeps {s0 : State} (p id cause cluster op : Nat) {s : State}
    (hk : Keeps s0 s) : Keeps s0 (programFault p id cause cluster op s) := by
  conv => arg 2; fun; fun; fun; fun; fun; fun; delta programFault
  repeat' first
    | with_reducible first
        | assumption | intro _ | apply logEvent_keeps | apply endStepWith_keeps | apply trySwap_keeps
        | apply setVfEvent_keeps | apply modCfg_keeps | apply keeps_ite | apply keeps_foldl
    | split | dsimp only

theorem answerEvicts_keeps {s0 : State} (p : Nat) {s : State}
    (hk : Keeps s0 s) : Keeps s0 (answerEvicts p s) := by
  conv => arg 2; fun; fun; delta answerEvicts
  repeat' first
    | with_reducible first
        | assumption | intro _ | apply reply_keeps | apply keeps_foldl
    | dsimp only

theorem answerMates_keeps {s0 : State} (p slot status : Nat) {s : State}
    (hk : Keeps s0 s) : Keeps s0 (answerMates p slot status s) := by
  conv => arg 2; fun; fun; fun; fun; delta answerMates
  repeat' first
    | with_reducible first
        | assumption | intro _ | apply reply_keeps | apply modSlot_keeps | apply keeps_foldl | apply keeps_foldl_snd
    | split | dsimp only | refine keeps_of_snd (by with_reducible assumption) ?_ | refine keepsO_get (by with_reducible assumption) ?_

theorem markLost_keeps {s0 : State} (p slot : Nat) {s : State}
    (hk : Keeps s0 s) : Keeps s0 (markLost p slot s) := by
  conv => arg 2; fun; fun; fun; delta markLost
  repeat' first
    | with_reducible first
        | assumption | intro _ | apply modSlot_keeps | apply answerMates_keeps | apply keeps_foldl
        | apply keeps_foldl_snd | apply apply_ite_keeps
    | split | dsimp only | refine keeps_of_snd (by with_reducible assumption) ?_ | refine keepsO_get (by with_reducible assumption) ?_

theorem closePart_keeps {s0 : State} (p : Nat) (quiet : Bool) {s : State}
    (hk : Keeps s0 s) : Keeps s0 (closePart p quiet s) := by
  conv => arg 2; fun; fun; fun; delta closePart
  repeat' first
    | with_reducible first
        | assumption | intro _ | apply withdrawStep_keeps | apply modCfg_keeps | apply modKv_keeps
        | apply modRun_keeps | apply answerEvicts_keeps | apply trySwap_keeps | apply logEvent_keeps
        | apply keeps_foldl
    | dsimp only

end Sys2Proof.Machine
end

