-- ==== Sys2Proof/Laws/KeepsRung.lean ====
section
/-! SUPPORT. Every operation of Machine/Rung.lean keeps what no command takes away (Laws/Keeps.lean). -/

namespace Sys2Proof.Machine
theorem askChunks_keeps {s0 : State} (slot p : Nat) (tile : Bool) (step die op rung : Nat) (cs : List Nat) {s : State}
    (hk : Keeps s0 s) : Keeps s0 (askChunks slot p tile step die op rung cs s) := by
  conv => arg 2; fun; fun; fun; fun; fun; fun; fun; fun; fun; delta askChunks
  repeat' first
    | with_reducible first
        | assumption | intro _ | apply modStage_keeps | apply keeps_foldl | apply keeps_foldl_snd
    | split | dsimp only | refine keeps_of_snd (by with_reducible assumption) ?_ | refine keepsO_get (by with_reducible assumption) ?_

theorem useChunks_keeps {s0 : State} (slot step op rung : Nat) (cs : List Nat) {s : State}
    (hk : Keeps s0 s) : Keeps s0 (useChunks slot step op rung cs s) := by
  conv => arg 2; fun; fun; fun; fun; fun; fun; delta useChunks
  repeat' first
    | with_reducible first
        | assumption | intro _ | apply modStage_keeps | apply keeps_ite
    | split | dsimp only
    | exact keeps_same hk ⟨rfl, rfl, rfl, rfl, rfl, rfl, rfl, rfl, rfl, rfl, rfl, rfl, rfl, ⟨rfl, rfl, rfl, rfl, rfl, rfl⟩, rfl⟩

theorem askStage_keeps {s0 : State} (st : Stage) (ws : List Word) (p step op rung : Nat) {s : State}
    (hk : Keeps s0 s) : Keeps s0 (askStage st ws p step op rung s) := by
  conv => arg 2; fun; fun; fun; fun; fun; fun; fun; delta askStage
  repeat' first
    | with_reducible first
        | assumption | intro _ | apply askChunks_keeps | apply keeps_ite | apply keeps_foldl | apply keeps_foldl_snd
        | apply apply_ite_keeps
    | split | dsimp only | refine keeps_of_snd (by with_reducible assumption) ?_ | refine keepsO_get (by with_reducible assumption) ?_

theorem askRung_keeps {s0 : State} (p step op rung : Nat) {s : State}
    (hk : Keeps s0 s) : Keeps s0 (askRung p step op rung s) := by
  conv => arg 2; fun; fun; fun; fun; fun; delta askRung
  repeat' first
    | with_reducible first
        | assumption | intro _ | apply askStage_keeps
    | split | dsimp only | refine keeps_of_snd (by with_reducible assumption) ?_ | refine keepsO_get (by with_reducible assumption) ?_

end Sys2Proof.Machine
end

