-- ==== Sys2Proof/Laws/KeepsPart.lean ====
section
/-! SUPPORT. Every operation of Machine/Part.lean keeps what no command takes away (Laws/Keeps.lean). -/

namespace Sys2Proof.Machine
theorem loseSeq_keeps {s0 : State} (p step slot : Nat) {s : State}
    (hk : Keeps s0 s) : Keeps s0 (loseSeq p step slot s) := by
  conv => arg 2; fun; fun; fun; fun; delta loseSeq
  repeat' first
    | with_reducible first
        | assumption | intro _ | apply setVfEvent_keeps | apply logEvent_keeps | apply markLost_keeps
    | split | dsimp only | refine keeps_of_snd (by with_reducible assumption) ?_ | refine keepsO_get (by with_reducible assumption) ?_

theorem partOpen_keeps {s0 : State} (r : Request) {s : State}
    (hk : Keeps s0 s) : Keeps s0 (partOpen r s) := by
  conv => arg 2; fun; fun; delta partOpen
  repeat' first
    | with_reducible first
        | assumption | intro _ | apply reply_keeps | apply modCfg_keeps | apply logEvent_keeps | apply keeps_ite
    | split | dsimp only

theorem partClose_keeps {s0 : State} (r : Request) {s : State}
    (hk : Keeps s0 s) : Keeps s0 (partClose r s) := by
  conv => arg 2; fun; fun; delta partClose
  repeat' first
    | with_reducible first
        | assumption | intro _ | apply reply_keeps | apply closePart_keeps | apply keeps_ite
    | split | dsimp only

theorem settleStages_keeps {s0 : State} {s : State}
    (hk : Keeps s0 s) : Keeps s0 (settleStages s) := by
  conv => arg 2; fun; delta settleStages
  repeat' first
    | with_reducible first
        | assumption | intro _ | apply unmapSpace_keeps | apply mapStage_keeps | apply complete_keeps
        | apply logPkg_keeps | apply keeps_ite | apply keeps_foldl | apply keeps_foldl_snd | apply apply_ite_keeps
    | split | dsimp only | refine keeps_of_snd (by with_reducible assumption) ?_
    | refine keepsO_get (by with_reducible assumption) ?_ | apply stages_keeps
    | exact keeps_same hk ⟨rfl, rfl, rfl, rfl, rfl, rfl, rfl, rfl, rfl, rfl, rfl, rfl, rfl, ⟨rfl, rfl, rfl, rfl, rfl, rfl⟩, rfl⟩

theorem imageLoad_keeps {s0 : State} (dma : Option (List Word)) (r : Request) {s : State}
    (hk : Keeps s0 s) : Keeps s0 (imageLoad dma r s) := by
  conv => arg 2; fun; fun; fun; delta imageLoad
  repeat' first
    | with_reducible first
        | assumption | intro _ | apply reply_keeps | apply dmaFailed_keeps | apply countRead_keeps | apply draw_keeps
        | apply settleStages_keeps | apply keeps_ite | apply apply_ite_keeps
    | split | dsimp only | refine keeps_of_snd (by with_reducible assumption) ?_
    | refine keepsO_get (by with_reducible assumption) ?_ | apply images_keeps
    | exact keeps_same hk ⟨rfl, rfl, rfl, rfl, rfl, rfl, rfl, rfl, rfl, rfl, rfl, rfl, rfl, ⟨rfl, rfl, rfl, rfl, rfl, rfl⟩, rfl⟩

theorem imageFree_keeps {s0 : State} (r : Request) {s : State}
    (hk : Keeps s0 s) : Keeps s0 (imageFree r s) := by
  conv => arg 2; fun; fun; delta imageFree
  repeat' first
    | with_reducible first
        | assumption | intro _ | apply reply_keeps | apply settleStages_keeps | apply keeps_ite
    | split | dsimp only | refine keeps_of_snd (by with_reducible assumption) ?_
    | refine keepsO_get (by with_reducible assumption) ?_
    | exact keeps_same hk ⟨rfl, rfl, rfl, rfl, rfl, rfl, rfl, rfl, rfl, rfl, rfl, rfl, rfl, ⟨rfl, rfl, rfl, rfl, rfl, rfl⟩, rfl⟩

theorem standbyLost_keeps {s0 : State} (cause : Nat) {s : State}
    (hk : Keeps s0 s) : Keeps s0 (standbyLost cause s) := by
  conv => arg 2; fun; fun; delta standbyLost
  repeat' first
    | with_reducible first
        | assumption | intro _ | apply logPkg_keeps | apply modHm_keeps | apply keeps_ite
    | split | dsimp only

theorem standbyCheck_keeps {s0 : State} {s : State}
    (hk : Keeps s0 s) : Keeps s0 (standbyCheck s) := by
  conv => arg 2; fun; delta standbyCheck
  repeat' first
    | with_reducible first
        | assumption | intro _ | apply modHm_keeps | apply standbyLost_keeps | apply keeps_ite
    | split | dsimp only

theorem configStage_keeps {s0 : State} (failover : Bool) (r : Request) {s : State}
    (hk : Keeps s0 s) : Keeps s0 (configStage failover r s) := by
  conv => arg 2; fun; fun; fun; delta configStage
  repeat' first
    | with_reducible first
        | assumption | intro _ | apply refuse_keeps | apply reply_keeps | apply cumAdd_keeps | apply modCfg_keeps
        | apply mapPartition_keeps | apply modCont_keeps | apply standbyCheck_keeps | apply standbyLost_keeps
        | apply keeps_ite | apply apply_ite_keeps
    | split | dsimp only | refine keeps_of_snd (by with_reducible assumption) ?_ | refine keepsO_get (by with_reducible assumption) ?_

theorem takeStage_keeps {s0 : State} (m : MbxId) (failover : Bool) {s : State}
    (hk : Keeps s0 s) : Keeps s0 (takeStage m failover s) := by
  conv => arg 2; fun; fun; fun; delta takeStage
  repeat' first
    | with_reducible first
        | assumption | intro _ | apply takeCmd_keeps | apply configStage_keeps | apply keeps_ite
    | split

theorem configSwap_keeps {s0 : State} (r : Request) {s : State}
    (hk : Keeps s0 s) : Keeps s0 (configSwap r s) := by
  conv => arg 2; fun; fun; delta configSwap
  repeat' first
    | with_reducible first
        | assumption | intro _ | apply reply_keeps | apply cumAdd_keeps | apply modCfg_keeps | apply trySwap_keeps
        | apply keeps_ite | apply keeps_foldl
    | split | dsimp only

theorem configSwapCancel_keeps {s0 : State} (r : Request) {s : State}
    (hk : Keeps s0 s) : Keeps s0 (configSwapCancel r s) := by
  conv => arg 2; fun; fun; delta configSwapCancel
  repeat' first
    | with_reducible first
        | assumption | intro _ | apply reply_keeps | apply cumAdd_keeps | apply modCfg_keeps | apply keeps_ite
        | apply keeps_foldl
    | split | dsimp only

theorem takeSwap_keeps {s0 : State} (m : MbxId) (cancel : Bool) (f : Request → State → State) {s : State} (hf : ∀ x0 x1, Keeps s0 x1 → Keeps s0 (f x0 x1))
    (hk : Keeps s0 s) : Keeps s0 (takeSwap m cancel f s) := by
  conv => arg 2; fun; fun; fun; fun; delta takeSwap
  repeat' first
    | with_reducible first
        | assumption | intro _ | apply takeCmd_keeps | apply hf | apply keeps_ite
    | split

theorem configSet_keeps {s0 : State} (r : Request) {s : State}
    (hk : Keeps s0 s) : Keeps s0 (configSet r s) := by
  conv => arg 2; fun; fun; delta configSet
  repeat' first
    | with_reducible first
        | assumption | intro _ | apply reply_keeps | apply cumAdd_keeps | apply modCfg_keeps | apply keeps_ite
    | split | dsimp only

theorem configRead_keeps {s0 : State} (r : Request) {s : State}
    (hk : Keeps s0 s) : Keeps s0 (configRead r s) := by
  conv => arg 2; fun; fun; delta configRead
  repeat' first
    | with_reducible first
        | assumption | intro _ | apply countRefused_keeps | apply reply_keeps | apply keeps_ite
    | split | dsimp only

theorem discardReplies_keeps {s0 : State} (p : MbxId → Bool) {s : State} (hk : Keeps s0 s) : Keeps s0 (discardReplies p s) := by
  unfold discardReplies
  refine parts_keeps _ (modFab_keeps _ (modPw_keeps _ (modSec_keeps _ ⟨rfl, rfl, rfl, rfl, rfl⟩ ?_ ?_ (modJournal_keeps _ hk))))
  · rintro ⟨h1, h2⟩
    refine ⟨h1, fun n r e => ?_⟩
    obtain ⟨q, hq, he⟩ := Option.map_eq_some_iff.mp e
    exact h2 n q.2 (by rw [← (Prod.mk.inj he).1]; exact hq)
  · rintro ⟨h1, h2⟩
    refine ⟨h1, ?_⟩
    change Option.map _ s.sec.stopping = none
    rw [show s.sec.stopping = none from h2]; rfl

theorem resetVf_keeps {s0 : State} (n : Nat) {s : State}
    (hk : Keeps s0 s) : Keeps s0 (resetVf n s) := by
  conv => arg 2; fun; fun; delta resetVf
  repeat' first
    | with_reducible first
        | assumption | intro _ | apply discardReplies_keeps | apply modEp_keeps | apply modPart_keeps
        | apply withdrawStep_keeps | apply loseSeq_keeps | apply modCfg_keeps | apply closePart_keeps
        | apply modRun_keeps | apply keeps_ite | apply keeps_foldl
    | split | dsimp only | apply mbx_keeps
    | exact keeps_same hk ⟨rfl, rfl, rfl, rfl, rfl, rfl, rfl, rfl, rfl, rfl, rfl, rfl, rfl, ⟨rfl, rfl, rfl, rfl, rfl, rfl⟩, rfl⟩

theorem resetPf_keeps {s0 : State} {s : State}
    (hk : Keeps s0 s) : Keeps s0 (resetPf s) := by
  conv => arg 2; fun; delta resetPf
  repeat' first
    | with_reducible first
        | assumption | intro _ | apply resetVf_keeps | apply discardReplies_keeps | apply modEp_keeps
        | apply keeps_foldl
    | dsimp only | apply mbx_keeps
    | exact keeps_same hk ⟨rfl, rfl, rfl, rfl, rfl, rfl, rfl, rfl, rfl, rfl, rfl, rfl, rfl, ⟨rfl, rfl, rfl, rfl, rfl, rfl⟩, rfl⟩

theorem endIde_keeps {s0 : State} {s : State}
    (hk : Keeps s0 s) : Keeps s0 (endIde s) := by
  conv => arg 2; fun; delta endIde
  repeat' first
    | with_reducible first
        | assumption
    | exact id
    | with_reducible first
        | intro _ | apply modSec_keeps | apply modEp_keeps
    | exact ⟨rfl, rfl, rfl, rfl, rfl⟩ | dsimp only

theorem hotReset_keeps {s0 : State} {s : State}
    (hk : Keeps s0 s) : Keeps s0 (hotReset s) := by
  conv => arg 2; fun; delta hotReset
  repeat' first
    | with_reducible first
        | assumption | intro _ | apply resetPf_keeps | apply endIde_keeps | apply logPkg_keeps

theorem linkDown_keeps {s0 : State} {s : State}
    (hk : Keeps s0 s) : Keeps s0 (linkDown s) := by
  conv => arg 2; fun; delta linkDown
  repeat' first
    | with_reducible first
        | assumption | intro _ | apply modEp_keeps | apply resetPf_keeps | apply endIde_keeps | apply logPkg_keeps
    | dsimp only

theorem headDmaFails_keeps {s0 : State} (m : MbxId) {s : State}
    (hk : Keeps s0 s) : Keeps s0 (headDmaFails m s) := by
  conv => arg 2; fun; fun; delta headDmaFails
  repeat' first
    | with_reducible first
        | assumption | intro _ | apply dmaFailed_keeps | apply modJournal_keeps | apply keeps_ite
    | split | dsimp only

end Sys2Proof.Machine
end

