-- ==== Sys2Proof/Laws/KeepsMirror.lean ====
section
/-! SUPPORT. Every operation of Machine/Mirror.lean keeps what no command takes away (Laws/Keeps.lean). -/

namespace Sys2Proof.Machine
theorem modMirror_keeps {s0 : State} (p : Nat) (f : MirrorPart → MirrorPart) {s : State}
    (hk : Keeps s0 s) : Keeps s0 (modMirror p f s) := by
  conv => arg 2; fun; fun; fun; delta modMirror
  repeat' first
    | with_reducible first
        | assumption | intro _ | apply modCont_keeps
    | dsimp only

theorem mirrorWrite_keeps {s0 : State} (bs : List Byte) {s : State}
    (hk : Keeps s0 s) : Keeps s0 (mirrorWrite bs s).2 := by
  conv => arg 2; arg 1; fun; fun; delta mirrorWrite
  repeat' first
    | with_reducible first
        | assumption | intro _ | apply totAdd_keeps | apply modMirror_keeps | apply keeps_ite | apply apply_ite_keeps
    | split | dsimp only

theorem pairSend_keeps {s0 : State} (dst subop : Nat) (rel : Option (Nat × Nat)) (data : List Byte) {s : State}
    (hk : Keeps s0 s) : Keeps s0 (pairSend dst subop rel data s).2 := by
  conv => arg 2; arg 1; fun; fun; fun; fun; fun; delta pairSend
  repeat' first
    | with_reducible first
        | assumption | intro _ | apply issue_keeps | apply apply_ite_keeps
    | split | dsimp only | refine keeps_of_snd (by with_reducible assumption) ?_

theorem mirrorSend_keeps {s0 : State} (holder : Nat) (rel : Option (Nat × Nat)) (recs : List (List Byte)) {s : State}
    (hk : Keeps s0 s) : Keeps s0 (mirrorSend holder rel recs s) := by
  conv => arg 2; fun; fun; fun; fun; delta mirrorSend
  repeat' first
    | with_reducible first
        | assumption | intro _ | apply totAdd_keeps | apply mirrorWrite_keeps | apply pairSend_keeps | apply keeps_ite
        | apply apply_ite_keeps | apply keeps_foldl | apply keeps_foldl_snd
    | split | dsimp only

end Sys2Proof.Machine
end

