-- ==== Sys2Proof/Laws/KeepsCache.lean ====
section
/-! SUPPORT. Every operation of Machine/Cache.lean keeps what no command takes away (Laws/Keeps.lean). -/

namespace Sys2Proof.Machine
theorem takeReserved_keeps {s0 : State} (p slot units : Nat) {s : State}
    (hk : Keeps s0 s) : Keeps s0 (takeReserved p slot units s) := by
  conv => arg 2; fun; fun; fun; fun; delta takeReserved
  repeat' first
    | with_reducible first
        | assumption | intro _ | apply modSlot_keeps | apply keeps_foldl | apply keeps_foldl_snd
        | apply apply_ite_keeps
    | split | dsimp only | refine keeps_of_snd (by with_reducible assumption) ?_ | refine keepsO_get (by with_reducible assumption) ?_

theorem allocPage_keeps {s0 : State} (p slot i units : Nat) {s : State}
    (hk : Keeps s0 s) : KeepsO s0 (allocPage p slot i units s) := by
  conv => arg 2; fun; fun; fun; fun; fun; delta allocPage
  repeat' first
    | with_reducible first
        | assumption | intro _ | apply keepsO_none | apply keepsO_some | apply keepsO_ite | apply modKv_keeps
        | apply mapFrames_keeps | apply modSlot_keeps | apply takeReserved_keeps | apply keeps_ite
    | split | dsimp only | refine keeps_of_snd (by with_reducible assumption) ?_ | refine keepsO_get (by with_reducible assumption) ?_

theorem startSwap_keeps {s0 : State} (p slot : Nat) (req : Option Request) {s : State}
    (hk : Keeps s0 s) : Keeps s0 (startSwap p slot req s) := by
  conv => arg 2; fun; fun; fun; fun; delta startSwap
  repeat' first
    | with_reducible first
        | assumption | intro _ | apply modSlot_keeps | apply keeps_foldl | apply keeps_foldl_snd
    | split | dsimp only | refine keeps_of_snd (by with_reducible assumption) ?_ | refine keepsO_get (by with_reducible assumption) ?_

theorem takeVictim_keeps {s0 : State} (p step v : Nat) {s : State}
    (hk : Keeps s0 s) : Keeps s0 (takeVictim p step v s) := by
  conv => arg 2; fun; fun; fun; fun; delta takeVictim
  repeat' first
    | with_reducible first
        | assumption | intro _ | apply setVfEvent_keeps | apply logEvent_keeps | apply cntAdd_keeps
        | apply startSwap_keeps
    | split | dsimp only | refine keeps_of_snd (by with_reducible assumption) ?_ | refine keepsO_get (by with_reducible assumption) ?_

theorem preempt_keeps {s0 : State} (p step : Nat) (named : List Nat) {s : State}
    (hk : Keeps s0 s) : Keeps s0 (preempt p step named s).2 := by
  conv => arg 2; arg 1; fun; fun; fun; fun; delta preempt
  repeat' first
    | with_reducible first
        | assumption | intro _ | apply stepEvent_keeps | apply takeVictim_keeps | apply keeps_ite
        | apply apply_ite_keeps
    | split | dsimp only | refine keeps_of_snd (by with_reducible assumption) ?_ | refine keepsO_get (by with_reducible assumption) ?_

theorem awaitFrames_keeps {s0 : State} (p : Nat) {s : State}
    (hk : Keeps s0 s) : Keeps s0 (awaitFrames p s) := by
  conv => arg 2; fun; fun; delta awaitFrames
  repeat' first
    | with_reducible first
        | assumption | intro _ | apply modRun_keeps | apply keeps_ite
    | split | dsimp only | refine keeps_of_snd (by with_reducible assumption) ?_ | refine keepsO_get (by with_reducible assumption) ?_

theorem chargeFrames_keeps {s0 : State} (p : Nat) {s : State}
    (hk : Keeps s0 s) : Keeps s0 (chargeFrames p s) := by
  conv => arg 2; fun; fun; delta chargeFrames
  repeat' first
    | with_reducible first
        | assumption | intro _ | apply modRun_keeps | apply cntAdd_keeps
    | split | dsimp only | refine keeps_of_snd (by with_reducible assumption) ?_ | refine keepsO_get (by with_reducible assumption) ?_

theorem swapOutPage_keeps {s0 : State} (p : Nat) {s : State}
    (hk : Keeps s0 s) : Keeps s0 (swapOutPage p s) := by
  conv => arg 2; fun; fun; delta swapOutPage
  repeat' first
    | with_reducible first
        | assumption | intro _ | apply hostWrite_keeps | apply cntAdd_keeps | apply modKv_keeps | apply modSlot_keeps
        | apply answerMates_keeps | apply keeps_ite | apply apply_ite_keeps
    | split | dsimp only | refine keeps_of_snd (by with_reducible assumption) ?_ | refine keepsO_get (by with_reducible assumption) ?_

theorem startReturn_keeps {s0 : State} (p slot : Nat) {s : State}
    (hk : Keeps s0 s) : Keeps s0 (startReturn p slot s) := by
  conv => arg 2; fun; fun; fun; delta startReturn
  repeat' first
    | with_reducible first
        | assumption | intro _ | apply modSlot_keeps | apply keeps_ite
    | split | dsimp only

theorem kvExhausted_keeps {s0 : State} (p step units : Nat) {s : State}
    (hk : Keeps s0 s) : Keeps s0 (kvExhausted p step units s) := by
  conv => arg 2; fun; fun; fun; fun; delta kvExhausted
  repeat' first
    | with_reducible first
        | assumption | intro _ | apply endStepWith_keeps | apply logEvent_keeps | apply chargeFrames_keeps
    | split | dsimp only | refine keeps_of_snd (by with_reducible assumption) ?_ | refine keepsO_get (by with_reducible assumption) ?_

theorem returnStuck_keeps {s0 : State} (p slot : Nat) {s : State}
    (hk : Keeps s0 s) : Keeps s0 (returnStuck p slot s) := by
  conv => arg 2; fun; fun; fun; delta returnStuck
  repeat' first
    | with_reducible first
        | assumption | intro _ | apply modKv_keeps | apply kvExhausted_keeps | apply keeps_ite | apply apply_ite_keeps
    | split | dsimp only | refine keeps_of_snd (by with_reducible assumption) ?_ | refine keepsO_get (by with_reducible assumption) ?_

theorem swapInPage_keeps {s0 : State} (p : Nat) (data : Option (List Byte)) {s : State}
    (hk : Keeps s0 s) : Keeps s0 (swapInPage p data s) := by
  conv => arg 2; fun; fun; fun; delta swapInPage
  repeat' first
    | with_reducible first
        | assumption | intro _ | apply allocPage_keeps | apply preempt_keeps | apply awaitFrames_keeps
        | apply returnStuck_keeps | apply countRead_keeps | apply logEvent_keeps | apply totAdd_keeps
        | apply cntAdd_keeps | apply loseSeq_keeps | apply modSlot_keeps | apply hbmWrite_keeps | apply modKv_keeps
        | apply keeps_ite | apply apply_ite_keeps
    | split | dsimp only | refine keeps_of_snd (by with_reducible assumption) ?_ | refine keepsO_get (by with_reducible assumption) ?_

theorem freeSlot_keeps {s0 : State} (p slot : Nat) {s : State}
    (hk : Keeps s0 s) : Keeps s0 (freeSlot p slot s) := by
  conv => arg 2; fun; fun; fun; delta freeSlot
  repeat' first
    | with_reducible first
        | assumption | intro _ | apply freePage_keeps | apply modKv_keeps | apply keeps_foldl
    | dsimp only

theorem freeEvicted_keeps {s0 : State} (p : Nat) {s : State}
    (hk : Keeps s0 s) : Keeps s0 (freeEvicted p s) := by
  conv => arg 2; fun; fun; delta freeEvicted
  repeat' first
    | with_reducible first
        | assumption | intro _ | apply freeSlot_keeps | apply keeps_foldl
    | dsimp only

theorem kvEvict_keeps {s0 : State} (swap : Bool) (r : Request) {s : State}
    (hk : Keeps s0 s) : Keeps s0 (kvEvict swap r s) := by
  conv => arg 2; fun; fun; fun; delta kvEvict
  repeat' first
    | with_reducible first
        | assumption | intro _ | apply reply_keeps | apply modSlot_keeps | apply answerMates_keeps
        | apply freeEvicted_keeps | apply logEvent_keeps | apply startSwap_keeps | apply keeps_ite | apply keeps_foldl
        | apply keeps_foldl_snd | apply apply_ite_keeps
    | split | dsimp only | refine keeps_of_snd (by with_reducible assumption) ?_ | refine keepsO_get (by with_reducible assumption) ?_

theorem takeEvict_keeps {s0 : State} (m : MbxId) (swap : Bool) {s : State}
    (hk : Keeps s0 s) : Keeps s0 (takeEvict m swap s) := by
  conv => arg 2; fun; fun; fun; delta takeEvict
  repeat' first
    | with_reducible first
        | assumption | intro _ | apply takeCmd_keeps | apply kvEvict_keeps | apply keeps_ite
    | split

end Sys2Proof.Machine
end

