-- ==== Sys2Proof/Laws/KeepsRepair.lean ====
section
/-! SUPPORT. Every operation of Machine/Repair.lean keeps what no command takes away (Laws/Keeps.lean). -/

namespace Sys2Proof.Machine
theorem hbmStore_keeps {s0 : State} (p off : Nat) (bs : List Byte) {s : State}
    (hk : Keeps s0 s) : Keeps s0 (hbmStore p off bs s) := by
  conv => arg 2; fun; fun; fun; fun; delta hbmStore
  repeat' first
    | with_reducible first
        | assumption | intro _ | apply rewriteDead_keeps | apply hbmWrite_keeps

theorem addRefetch_keeps {s0 : State} (r : Refetch) {s : State}
    (hk : Keeps s0 s) : Keeps s0 (addRefetch r s) := by
  conv => arg 2; fun; fun; delta addRefetch
  repeat' first
    | with_reducible first
        | assumption | intro _ | apply modTiers_keeps | apply keeps_ite
    | split | dsimp only
    | exact keeps_same hk ⟨rfl, rfl, rfl, rfl, rfl, rfl, rfl, rfl, rfl, rfl, rfl, rfl, rfl, ⟨rfl, rfl, rfl, rfl, rfl, rfl⟩, rfl⟩

theorem refetchRange_keeps {s0 : State} (p : Nat) (st : Stage) (off n : Nat) {s : State}
    (hk : Keeps s0 s) : Keeps s0 (refetchRange p st off n s) := by
  conv => arg 2; fun; fun; fun; fun; fun; delta refetchRange
  repeat' first
    | with_reducible first
        | assumption | intro _ | apply addRefetch_keeps | apply keeps_ite | apply keeps_foldl | apply keeps_foldl_snd
    | split | dsimp only | refine keeps_of_snd (by with_reducible assumption) ?_ | refine keepsO_get (by with_reducible assumption) ?_

theorem refetchChunks_keeps {s0 : State} (p : Nat) (st : Stage) (die op rung : Nat) (cs : List Nat) {s : State}
    (hk : Keeps s0 s) : Keeps s0 (refetchChunks p st die op rung cs s) := by
  conv => arg 2; fun; fun; fun; fun; fun; fun; fun; delta refetchChunks
  repeat' first
    | with_reducible first
        | assumption | intro _ | apply refetchRange_keeps | apply keeps_foldl | apply keeps_foldl_snd
    | split | dsimp only | refine keeps_of_snd (by with_reducible assumption) ?_ | refine keepsO_get (by with_reducible assumption) ?_

theorem pageUnfetched_keeps {s0 : State} (p slot i : Nat) {s : State}
    (hk : Keeps s0 s) : Keeps s0 (pageUnfetched p slot i s) := by
  conv => arg 2; fun; fun; fun; fun; delta pageUnfetched
  repeat' first
    | with_reducible first
        | assumption | intro _ | apply setVfEvent_keeps | apply logEvent_keeps | apply markLost_keeps
    | split | dsimp only | refine keeps_of_snd (by with_reducible assumption) ?_ | refine keepsO_get (by with_reducible assumption) ?_

theorem dropFetch_keeps {s0 : State} {s : State}
    (hk : Keeps s0 s) : Keeps s0 (dropFetch s) := by
  conv => arg 2; fun; delta dropFetch
  repeat' first
    | with_reducible first
        | assumption | intro _ | apply modTiers_keeps | apply modCont_keeps
    | split | dsimp only
    | exact keeps_same hk ⟨rfl, rfl, rfl, rfl, rfl, rfl, rfl, rfl, rfl, rfl, rfl, rfl, rfl, ⟨rfl, rfl, rfl, rfl, rfl, rfl⟩, rfl⟩

theorem sendFetch_keeps {s0 s : State}  (n : Nat)
    (hk : Keeps s0 s) : Keeps s0 (sendFetch  n s) := by
  induction n generalizing s with
  | zero => exact hk
  | succ n ih =>
    unfold sendFetch
    repeat' first
    | with_reducible first
        | assumption | intro _ | apply ih | apply pairSend_keeps | apply dropFetch_keeps | apply pageUnfetched_keeps
        | apply keeps_ite
    | split | dsimp only | refine keeps_of_snd (by with_reducible assumption) ?_

theorem kvPageLost_keeps {s0 : State} (p slot table i : Nat) {s : State}
    (hk : Keeps s0 s) : Keeps s0 (kvPageLost p slot table i s) := by
  conv => arg 2; fun; fun; fun; fun; fun; delta kvPageLost
  repeat' first
    | with_reducible first
        | assumption | intro _ | apply modCont_keeps | apply addRefetch_keeps | apply sendFetch_keeps
        | apply keeps_ite
    | split | dsimp only

end Sys2Proof.Machine
end

