-- ==== Sys2Proof/Laws/KeepsPilot.lean ====
section
/-! SUPPORT. Every operation of Machine/Pilot.lean keeps what no command takes away (Laws/Keeps.lean). -/

namespace Sys2Proof.Machine
theorem modRunAt_keeps {s0 : State} (a : At) (f : Run → Run) {s : State}
    (hk : Keeps s0 s) : Keeps s0 (modRunAt a f s) := by
  conv => arg 2; fun; fun; fun; delta modRunAt
  repeat' first
    | with_reducible first
        | assumption | intro _ | apply modCluster_keeps | apply keeps_ite
    | split | dsimp only

theorem takeSlot_keeps {s0 : State} (cluster slot p step : Nat) {s : State}
    (hk : Keeps s0 s) : Keeps s0 (takeSlot cluster slot p step s) := by
  conv => arg 2; fun; fun; fun; fun; fun; delta takeSlot
  repeat' first
    | with_reducible first
        | assumption | intro _ | apply modCluster_keeps
    | dsimp only

theorem chargeStall_keeps {s0 : State} (cluster : Nat) {s : State}
    (hk : Keeps s0 s) : Keeps s0 (chargeStall cluster s) := by
  conv => arg 2; fun; fun; delta chargeStall
  repeat' first
    | with_reducible first
        | assumption | intro _ | apply cntAdd_keeps | apply modCluster_keeps | apply keeps_foldl
        | apply keeps_foldl_snd | apply apply_ite_keeps
    | split | dsimp only | refine keeps_of_snd (by with_reducible assumption) ?_ | refine keepsO_get (by with_reducible assumption) ?_

theorem holdOn_keeps {s0 : State} (a : At) (causes : List Nat) {s : State}
    (hk : Keeps s0 s) : Keeps s0 (holdOn a causes s) := by
  conv => arg 2; fun; fun; fun; delta holdOn
  repeat' first
    | with_reducible first
        | assumption | intro _ | apply modRunAt_keeps | apply chargeStall_keeps | apply keeps_ite
        | apply apply_ite_keeps
    | split | dsimp only | refine keeps_of_snd (by with_reducible assumption) ?_ | refine keepsO_get (by with_reducible assumption) ?_

theorem faultAt_keeps {s0 : State} (a : At) (cause op : Nat) {s : State}
    (hk : Keeps s0 s) : Keeps s0 (faultAt a cause op s) := by
  conv => arg 2; fun; fun; fun; fun; delta faultAt
  repeat' first
    | with_reducible first
        | assumption | intro _ | apply programFault_keeps

theorem issueWith_keeps {s0 : State} (a : At) (ok : List Word → Bool) (extra : List Word → State → List Nat) (pre : List Word → State → Bool × State) (go : Cmd → List Word → State → State) {s : State} (hpre : ∀ x0 x1, Keeps s0 x1 → Keeps s0 (pre x0 x1).2) (hgo : ∀ x0 x1 x2, Keeps s0 x2 → Keeps s0 (go x0 x1 x2))
    (hk : Keeps s0 s) : Keeps s0 (issueWith a ok extra pre go s) := by
  conv => arg 2; fun; fun; fun; fun; fun; fun; delta issueWith
  repeat' first
    | with_reducible first
        | assumption | intro _ | apply faultAt_keeps | apply holdOn_keeps | apply takeSlot_keeps
        | apply chargeStall_keeps | apply cntAdd_keeps | apply modRunAt_keeps | apply hpre | apply hgo
        | apply keeps_ite | apply apply_ite_keeps
    | split | dsimp only | refine keeps_of_snd (by with_reducible assumption) ?_ | refine keepsO_get (by with_reducible assumption) ?_

theorem issueAt_keeps {s0 : State} (a : At) (ok : List Word → Bool) (extra : List Word → State → List Nat) (go : Cmd → List Word → State → State) {s : State} (hgo : ∀ x0 x1 x2, Keeps s0 x2 → Keeps s0 (go x0 x1 x2))
    (hk : Keeps s0 s) : Keeps s0 (issueAt a ok extra go s) := by
  conv => arg 2; fun; fun; fun; fun; fun; delta issueAt
  repeat' first
    | with_reducible first
        | assumption | intro _ | apply issueWith_keeps | apply hgo
    | dsimp only

theorem enter_keeps {s0 : State} (a : At) (c : List Word) (os : List Opd) (o : Outst) {s : State}
    (hk : Keeps s0 s) : Keeps s0 (enter a c os o s) := by
  conv => arg 2; fun; fun; fun; fun; fun; delta enter
  repeat' first
    | with_reducible first
        | assumption | intro _ | apply modCluster_keeps
    | dsimp only

theorem columnFails_keeps {s0 : State} (m col : Nat) {s : State}
    (hk : Keeps s0 s) : Keeps s0 (columnFails m col s) := by
  conv => arg 2; fun; fun; fun; delta columnFails
  repeat' first
    | with_reducible first
        | assumption | intro _ | apply recordRepair_keeps | apply logPkg_keeps | apply totAdd_keeps
        | apply modTiers_keeps | apply coreFails_keeps | apply clusterOut_keeps | apply keeps_ite
    | split | dsimp only
    | exact keeps_same hk ⟨rfl, rfl, rfl, rfl, rfl, rfl, rfl, rfl, rfl, rfl, rfl, rfl, rfl, ⟨rfl, rfl, rfl, rfl, rfl, rfl⟩, rfl⟩

theorem freshParity_keeps {s0 : State} (xs : List Rng) {s : State}
    (hk : Keeps s0 s) : Keeps s0 (freshParity xs s) := by
  conv => arg 2; fun; fun; delta freshParity
  repeat' first
    | with_reducible first
        | assumption | intro _ | apply modTiers_keeps | apply keeps_ite
    | split | dsimp only
    | exact keeps_same hk ⟨rfl, rfl, rfl, rfl, rfl, rfl, rfl, rfl, rfl, rfl, rfl, rfl, rfl, ⟨rfl, rfl, rfl, rfl, rfl, rfl⟩, rfl⟩

theorem dropCopies_keeps {s0 : State} (a n : Nat) {s : State}
    (hk : Keeps s0 s) : Keeps s0 (dropCopies a n s) := by
  conv => arg 2; fun; fun; fun; delta dropCopies
  repeat' first
    | with_reducible first
        | assumption | intro _ | apply apply_ite_keeps
    | split | dsimp only | refine keeps_of_snd (by with_reducible assumption) ?_
    | refine keepsO_get (by with_reducible assumption) ?_
    | exact keeps_same hk ⟨rfl, rfl, rfl, rfl, rfl, rfl, rfl, rfl, rfl, rfl, rfl, rfl, rfl, ⟨rfl, rfl, rfl, rfl, rfl, rfl⟩, rfl⟩

theorem storeRows_keeps {s0 : State} (rows : List (Nat × List Byte)) {s : State}
    (hk : Keeps s0 s) : Keeps s0 (storeRows rows s) := by
  conv => arg 2; fun; fun; delta storeRows
  repeat' first
    | with_reducible first
        | assumption | intro _ | apply freshParity_keeps | apply dropCopies_keeps | apply sramWrite_keeps
        | apply keeps_foldl | apply keeps_foldl_snd | apply apply_ite_keeps
    | split | dsimp only | refine keeps_of_snd (by with_reducible assumption) ?_ | refine keepsO_get (by with_reducible assumption) ?_

theorem lostSram_keeps {s0 : State} (a : At) (kind elem x : Nat) {s : State}
    (hk : Keeps s0 s) : Keeps s0 (lostSram a kind elem x s).2 := by
  conv => arg 2; arg 1; fun; fun; fun; fun; fun; delta lostSram
  repeat' first
    | with_reducible first
        | assumption | intro _ | apply cntAdd_keeps | apply freshParity_keeps | apply confirmedStep_keeps
        | apply apply_ite_keeps
    | split | dsimp only

theorem meetParity_keeps {s0 : State} (a : At) (rd : List Rng) (ev : Option ParityEvent) {s : State}
    (hk : Keeps s0 s) : Keeps s0 (meetParity a rd ev s).2 := by
  conv => arg 2; arg 1; fun; fun; fun; fun; delta meetParity
  repeat' first
    | with_reducible first
        | assumption | intro _ | apply cntAdd_keeps | apply lostSram_keeps | apply columnFails_keeps | apply keeps_ite
        | apply apply_ite_keeps | apply keeps_foldl | apply keeps_foldl_snd
    | split | dsimp only | refine keeps_of_snd (by with_reducible assumption) ?_

theorem refetchUnits_keeps {s0 : State} (p off n : Nat) {s : State}
    (hk : Keeps s0 s) : Keeps s0 (refetchUnits p off n s) := by
  conv => arg 2; fun; fun; fun; fun; delta refetchUnits
  repeat' first
    | with_reducible first
        | assumption | intro _ | apply refetchRange_keeps
    | split | dsimp only | refine keeps_of_snd (by with_reducible assumption) ?_ | refine keepsO_get (by with_reducible assumption) ?_

theorem weightFails_keeps {s0 : State} (p : Nat) (fs : List (Nat × Nat × Nat)) {s : State}
    (hk : Keeps s0 s) : Keeps s0 (weightFails p fs s) := by
  conv => arg 2; fun; fun; fun; delta weightFails
  repeat' first
    | with_reducible first
        | assumption | intro _ | apply cntAdd_keeps | apply refetchUnits_keeps | apply keeps_foldl
        | apply keeps_foldl_snd | apply apply_ite_keeps
    | split | dsimp only | refine keeps_of_snd (by with_reducible assumption) ?_ | refine keepsO_get (by with_reducible assumption) ?_

theorem meetBad_keeps {s0 : State} (a : At) (parcels terns x : Nat) {s : State}
    (hk : Keeps s0 s) : Keeps s0 (meetBad a parcels terns x s).2 := by
  conv => arg 2; arg 1; fun; fun; fun; fun; fun; delta meetBad
  repeat' first
    | with_reducible first
        | assumption | intro _ | apply cntAdd_keeps | apply modCluster_keeps | apply refetchUnits_keeps
        | apply storeRows_keeps | apply confirmedStep_keeps | apply keeps_ite | apply apply_ite_keeps
    | split | dsimp only | refine keeps_of_snd (by with_reducible assumption) ?_ | refine keepsO_get (by with_reducible assumption) ?_

theorem meetReads_keeps {s0 : State} (a : At) (ev : RunEvent) (c : List Word) {s : State}
    (hk : Keeps s0 s) : Keeps s0 (meetReads a ev c s).2 := by
  conv => arg 2; arg 1; fun; fun; fun; fun; delta meetReads
  repeat' first
    | with_reducible first
        | assumption | intro _ | apply meetParity_keeps | apply apply_ite_keeps
    | dsimp only

theorem releaseWin_keeps {s0 : State} (a : At) (c : List Word) {s : State}
    (hk : Keeps s0 s) : Keeps s0 (releaseWin a c s) := by
  conv => arg 2; fun; fun; fun; delta releaseWin
  repeat' first
    | with_reducible first
        | assumption | intro _ | apply modCluster_keeps | apply keeps_ite
    | split | dsimp only

theorem modAtBar_keeps {s0 : State} (p step b : Nat) (f : Run → Run) {s : State}
    (hk : Keeps s0 s) : Keeps s0 (modAtBar p step b f s) := by
  conv => arg 2; fun; fun; fun; fun; fun; delta modAtBar
  repeat' first
    | with_reducible first
        | assumption | intro _ | apply keeps_ite
    | split | dsimp only
    | exact keeps_same hk ⟨rfl, rfl, rfl, rfl, rfl, rfl, rfl, rfl, rfl, rfl, rfl, rfl, rfl, ⟨rfl, rfl, rfl, rfl, rfl, rfl⟩, rfl⟩

theorem arrive_keeps {s0 : State} (a : At) (c : List Word) {s : State}
    (hk : Keeps s0 s) : Keeps s0 (arrive a c s) := by
  conv => arg 2; fun; fun; fun; delta arrive
  repeat' first
    | with_reducible first
        | assumption | intro _ | apply modRunAt_keeps | apply modAtBar_keeps | apply modRun_keeps | apply keeps_ite
    | split | dsimp only

theorem hang_keeps {s0 : State} (p step : Nat) {s : State}
    (hk : Keeps s0 s) : Keeps s0 (hang p step s) := by
  conv => arg 2; fun; fun; fun; delta hang
  repeat' first
    | with_reducible first
        | assumption | intro _ | apply draw_keeps | apply programFault_keeps | apply declareFailed_keeps
        | apply modRun_keeps | apply keeps_ite
    | split | dsimp only

theorem barrierHang_keeps {s0 : State} (p step b : Nat) {s : State}
    (hk : Keeps s0 s) : Keeps s0 (barrierHang p step b s) := by
  conv => arg 2; fun; fun; fun; fun; delta barrierHang
  repeat' first
    | with_reducible first
        | assumption | intro _ | apply hang_keeps | apply logEvent_keeps | apply keeps_ite
    | split | dsimp only

theorem expand_keeps {s0 : State} (a : At) (k : Cmd) (c : List Word) {s : State}
    (hk : Keeps s0 s) : Keeps s0 (expand a k c s) := by
  conv => arg 2; fun; fun; fun; fun; delta expand
  repeat' first
    | with_reducible first
        | assumption | intro _ | apply faultAt_keeps | apply modRunAt_keeps | apply cntAdd_keeps
        | apply onceEvent_keeps | apply modStep_keeps | apply keeps_ite
    | split | dsimp only

theorem countPost_keeps {s0 : State} (p step c r : Nat) {s : State}
    (hk : Keeps s0 s) : Keeps s0 (countPost p step c r s) := by
  conv => arg 2; fun; fun; fun; fun; fun; delta countPost
  repeat' first
    | with_reducible first
        | assumption | intro _ | apply modCluster_keeps | apply takeSlot_keeps
    | dsimp only

theorem endStep_keeps {s0 : State} (a : At) (c : List Word) {s : State}
    (hk : Keeps s0 s) : Keeps s0 (endStep a c s) := by
  conv => arg 2; fun; fun; fun; delta endStep
  repeat' first
    | with_reducible first
        | assumption | intro _ | apply faultAt_keeps | apply modStep_keeps | apply modCluster_keeps | apply keeps_ite
    | split | dsimp only

theorem appendTimeout_keeps {s0 : State} (a : At) {s : State}
    (hk : Keeps s0 s) : Keeps s0 (appendTimeout a s) := by
  conv => arg 2; fun; fun; delta appendTimeout
  repeat' first
    | with_reducible first
        | assumption | intro _ | apply faultAt_keeps
    | split | dsimp only

theorem complete_keeps {s0 : State} (cluster id : Nat) {s : State}
    (hk : Keeps s0 s) : Keeps s0 (complete cluster id s) := by
  conv => arg 2; fun; fun; fun; delta complete
  repeat' first
    | with_reducible first
        | assumption | intro _ | apply modCluster_keeps
    | dsimp only

theorem scrubDone_keeps {s0 : State} (m : Nat) (bad : List Nat) {s : State}
    (hk : Keeps s0 s) : Keeps s0 (scrubDone m bad s) := by
  conv => arg 2; fun; fun; fun; delta scrubDone
  repeat' first
    | with_reducible first
        | assumption | intro _ | apply modTiers_keeps | apply keeps_ite
    | split | dsimp only
    | exact keeps_same hk ⟨rfl, rfl, rfl, rfl, rfl, rfl, rfl, rfl, rfl, rfl, rfl, rfl, rfl, ⟨rfl, rfl, rfl, rfl, rfl, rfl⟩, rfl⟩

end Sys2Proof.Machine
end

