-- ==== Sys2Proof/Laws/KeepsArray.lean ====
section
/-! SUPPORT. Every operation of Machine/Array.lean keeps what no command takes away (Laws/Keeps.lean). -/

namespace Sys2Proof.Machine
theorem countConv_keeps {s0 : State} (p sat nans : Nat) {s : State}
    (hk : Keeps s0 s) : Keeps s0 (countConv p sat nans s) := by
  conv => arg 2; fun; fun; fun; fun; delta countConv
  repeat' first
    | with_reducible first
        | assumption | intro _ | apply cntAdd_keeps

theorem takeProbe_keeps {s0 : State} (q : Probe) {s : State}
    (hk : Keeps s0 s) : Keeps s0 (takeProbe q s).2 := by
  conv => arg 2; arg 1; fun; fun; delta takeProbe
  repeat' first
    | with_reducible first
        | assumption | intro _ | apply cntAdd_keeps | apply modChm_keeps | apply apply_ite_keeps
    | split | dsimp only
    | exact keeps_same hk ⟨rfl, rfl, rfl, rfl, rfl, rfl, rfl, rfl, rfl, rfl, rfl, rfl, rfl, ⟨rfl, rfl, rfl, rfl, rfl, rfl⟩, rfl⟩

theorem finishTile_keeps {s0 : State} (p step cluster core : Nat) (ids : List Nat) (gs : List GroupPass) (acc : List Word) {s : State}
    (hk : Keeps s0 s) : Keeps s0 (finishTile p step cluster core ids gs acc s) := by
  conv => arg 2; fun; fun; fun; fun; fun; fun; fun; fun; delta finishTile
  repeat' first
    | with_reducible first
        | assumption | intro _ | apply countConv_keeps | apply storeRows_keeps | apply takeProbe_keeps
        | apply cntAdd_keeps | apply modCluster_keeps | apply keeps_ite | apply apply_ite_keeps
    | split | dsimp only | refine keeps_of_snd (by with_reducible assumption) ?_ | refine keepsO_get (by with_reducible assumption) ?_

theorem quantProbes_keeps {s0 : State} (p step cluster core op elem : Nat) (rows : List (List Word × List Word)) (wide : List Nat) {s : State}
    (hk : Keeps s0 s) : Keeps s0 (quantProbes p step cluster core op elem rows wide s) := by
  conv => arg 2; fun; fun; fun; fun; fun; fun; fun; fun; fun; delta quantProbes
  repeat' first
    | with_reducible first
        | assumption | intro _ | apply takeProbe_keeps | apply cntAdd_keeps | apply keeps_ite | apply apply_ite_keeps
        | apply keeps_foldl | apply keeps_foldl_snd
    | split | dsimp only | refine keeps_of_snd (by with_reducible assumption) ?_

theorem residueMeet_keeps {s0 s : State} (p step core b n m : Nat) (hk : Keeps s0 s) :
    Keeps s0 (residueMeet p step core b n m s).2 := by
  induction n generalizing m s with
  | zero => exact hk
  | succ n ih =>
    unfold residueMeet
    dsimp only
    have h := cntAdd_keeps p cArray b (cntAdd_keeps p (cArray + 2) 1 (cntAdd_keeps p (cArray + 1) 1 hk))
    refine apply_ite_keeps (ih 1 h) (ih 0 ?_)
    refine coreFails_keeps _ (logEvent_keeps _ _ _ _ _ _ _ (keeps_same h ?_))
    exact ⟨rfl, rfl, rfl, rfl, rfl, rfl, rfl, rfl, rfl, rfl, rfl, rfl, rfl, ⟨rfl, rfl, rfl, rfl, rfl, rfl⟩, rfl⟩

theorem passMeets_keeps {s0 : State} (a : At) (ev : RunEvent) (c : List Word) {s : State}
    (hk : Keeps s0 s) : Keeps s0 (passMeets a ev c s).2 := by
  conv => arg 2; arg 1; fun; fun; fun; fun; delta passMeets
  repeat' first
    | with_reducible first
        | assumption | intro _ | apply meetParity_keeps | apply meetBad_keeps | apply keeps_ite
        | apply apply_ite_keeps
    | split | dsimp only | refine keeps_of_snd (by with_reducible assumption) ?_ | refine keepsO_get (by with_reducible assumption) ?_

theorem groupEnds_keeps {s0 : State} (cluster : Nat) (ids : List Nat) {s : State}
    (hk : Keeps s0 s) : Keeps s0 (groupEnds cluster ids s) := by
  conv => arg 2; fun; fun; fun; delta groupEnds
  repeat' first
    | with_reducible first
        | assumption | intro _ | apply modCluster_keeps | apply keeps_ite
    | split | dsimp only | refine keeps_of_snd (by with_reducible assumption) ?_ | refine keepsO_get (by with_reducible assumption) ?_

theorem joinGroup_keeps {s0 : State} (cluster id : Nat) (sb drain : Bool) {s : State}
    (hk : Keeps s0 s) : Keeps s0 (joinGroup cluster id sb drain s) := by
  conv => arg 2; fun; fun; fun; fun; fun; delta joinGroup
  repeat' first
    | with_reducible first
        | assumption | intro _ | apply modCluster_keeps | apply keeps_ite | apply apply_ite_keeps
    | split | dsimp only | refine keeps_of_snd (by with_reducible assumption) ?_ | refine keepsO_get (by with_reducible assumption) ?_

theorem springbokPass_keeps {s0 : State} (p step cluster core id : Nat) (g : GroupPass) (residue : Nat) {s : State}
    (hk : Keeps s0 s) : Keeps s0 (springbokPass p step cluster core id g residue s) := by
  conv => arg 2; fun; fun; fun; fun; fun; fun; fun; fun; delta springbokPass
  repeat' first
    | with_reducible first
        | assumption | intro _ | apply residueMeet_keeps | apply cntAdd_keeps | apply groupEnds_keeps
        | apply modCore_keeps | apply joinGroup_keeps | apply finishTile_keeps | apply keeps_ite
        | apply apply_ite_keeps
    | split | dsimp only | refine keeps_of_snd (by with_reducible assumption) ?_ | refine keepsO_get (by with_reducible assumption) ?_

theorem frontStall_keeps {s0 : State} (p die key lost : Nat) {s : State}
    (hk : Keeps s0 s) : Keeps s0 (frontStall p die key lost s) := by
  conv => arg 2; fun; fun; fun; fun; fun; delta frontStall
  repeat' first
    | with_reducible first
        | assumption | intro _ | apply cntAdd_keeps
    | split | dsimp only | refine keeps_of_snd (by with_reducible assumption) ?_ | refine keepsO_get (by with_reducible assumption) ?_

theorem arrayPass_keeps {s0 : State} (p step cluster core id : Nat) (d : List Word) (g : GroupPass) (residue : Nat) {s : State}
    (hk : Keeps s0 s) : Keeps s0 (arrayPass p step cluster core id d g residue s) := by
  conv => arg 2; fun; fun; fun; fun; fun; fun; fun; fun; fun; delta arrayPass
  repeat' first
    | with_reducible first
        | assumption | intro _ | apply frontStall_keeps | apply cntAdd_keeps | apply groupEnds_keeps
        | apply residueMeet_keeps | apply modCore_keeps | apply joinGroup_keeps | apply finishTile_keeps
        | apply keeps_ite | apply apply_ite_keeps
    | split | dsimp only | refine keeps_of_snd (by with_reducible assumption) ?_ | refine keepsO_get (by with_reducible assumption) ?_

theorem stackPass_keeps {s0 : State} (key : Nat) (e : GatherEntry) (set : List GatherEntry) {s : State}
    (hk : Keeps s0 s) : Keeps s0 (stackPass key e set s) := by
  conv => arg 2; fun; fun; fun; fun; delta stackPass
  repeat' first
    | with_reducible first
        | assumption | intro _ | apply frontStall_keeps | apply cntAdd_keeps | apply residueMeet_keeps
        | apply modCore_keeps | apply groupEnds_keeps | apply finishTile_keeps | apply keeps_ite | apply keeps_foldl
        | apply keeps_foldl_snd | apply apply_ite_keeps
    | split | dsimp only | refine keeps_of_snd (by with_reducible assumption) ?_ | refine keepsO_get (by with_reducible assumption) ?_

theorem releaseSet_keeps {s0 : State} (key : Nat) (set : List GatherEntry) (late : Bool) {s : State}
    (hk : Keeps s0 s) : Keeps s0 (releaseSet key set late s) := by
  conv => arg 2; fun; fun; fun; fun; delta releaseSet
  repeat' first
    | with_reducible first
        | assumption | intro _ | apply cntAdd_keeps | apply modCore_keeps | apply stackPass_keeps
        | apply arrayPass_keeps | apply keeps_ite
    | split | dsimp only | refine keeps_of_snd (by with_reducible assumption) ?_ | refine keepsO_get (by with_reducible assumption) ?_

theorem gatherIn_keeps {s0 : State} (key : Nat) (e : GatherEntry) (deadline : Nat) {s : State}
    (hk : Keeps s0 s) : Keeps s0 (gatherIn key e deadline s) := by
  conv => arg 2; fun; fun; fun; fun; delta gatherIn
  repeat' first
    | with_reducible first
        | assumption | intro _ | apply modCore_keeps | apply releaseSet_keeps | apply keeps_ite
    | split | dsimp only | apply now_keeps

theorem gatherExpire_keeps {s0 : State} (key : Nat) {s : State}
    (hk : Keeps s0 s) : Keeps s0 (gatherExpire key s) := by
  conv => arg 2; fun; fun; delta gatherExpire
  repeat' first
    | with_reducible first
        | assumption | intro _ | apply releaseSet_keeps
    | split | dsimp only

theorem passGo_keeps {s0 : State} (a : At) (ev : RunEvent) (c : List Word) {s : State}
    (hk : Keeps s0 s) : Keeps s0 (passGo a ev c s) := by
  conv => arg 2; fun; fun; fun; fun; delta passGo
  repeat' first
    | with_reducible first
        | assumption | intro _ | apply faultAt_keeps | apply enter_keeps | apply gatherIn_keeps
        | apply springbokPass_keeps | apply arrayPass_keeps | apply keeps_ite | apply apply_ite_keeps
    | split | dsimp only | refine keeps_of_snd (by with_reducible assumption) ?_ | refine keepsO_get (by with_reducible assumption) ?_

end Sys2Proof.Machine
end

