-- ==== Sys2Proof/Laws/KeepsVector.lean ====
section
/-! SUPPORT. Every operation of Machine/Vector.lean keeps what no command takes away (Laws/Keeps.lean). -/

namespace Sys2Proof.Machine
theorem countQuant_keeps {s0 : State} (p step op : Nat) (rows : List (List QBlock)) {s : State}
    (hk : Keeps s0 s) : Keeps s0 (countQuant p step op rows s) := by
  conv => arg 2; fun; fun; fun; fun; fun; delta countQuant
  repeat' first
    | with_reducible first
        | assumption | intro _ | apply cntAdd_keeps | apply stepEvent_keeps | apply keeps_ite
    | split | dsimp only

theorem quantGo_keeps {s0 : State} (a : At) (c : List Word) {s : State}
    (hk : Keeps s0 s) : Keeps s0 (quantGo a c s) := by
  conv => arg 2; fun; fun; fun; delta quantGo
  repeat' first
    | with_reducible first
        | assumption | intro _ | apply storeRows_keeps | apply enter_keeps | apply quantProbes_keeps
        | apply countQuant_keeps | apply keeps_ite
    | split | dsimp only

theorem vecGo_keeps {s0 : State} (a : At) (c : List Word) (f : List (List Word) → Nat → List (List Word)) {s : State}
    (hk : Keeps s0 s) : Keeps s0 (vecGo a c f s) := by
  conv => arg 2; fun; fun; fun; fun; delta vecGo
  repeat' first
    | with_reducible first
        | assumption | intro _ | apply countConv_keeps | apply storeRows_keeps | apply enter_keeps | apply keeps_ite
    | split | dsimp only

theorem vecIssue_keeps {s0 : State} (func : Nat) (a : At) (ev : RunEvent) (f : List Word → State → List (List Word) → Nat → List (List Word)) {s : State}
    (hk : Keeps s0 s) : Keeps s0 (vecIssue func a ev f s) := by
  conv => arg 2; fun; fun; fun; fun; fun; delta vecIssue
  repeat' first
    | with_reducible first
        | assumption | intro _ | apply issueWith_keeps | apply meetReads_keeps | apply vecGo_keeps
        | apply apply_ite_keeps
    | dsimp only

end Sys2Proof.Machine
end

