-- ==== Sys2Proof/Laws/KeepsAttend.lean ====
section
/-! SUPPORT. Every operation of Machine/Attend.lean keeps what no command takes away (Laws/Keeps.lean). -/

namespace Sys2Proof.Machine
theorem putBlocks_keeps {s0 : State} (p koff n : Nat) (bs : List Block) {s : State}
    (hk : Keeps s0 s) : Keeps s0 (putBlocks p koff n bs s) := by
  conv => arg 2; fun; fun; fun; fun; fun; delta putBlocks
  repeat' first
    | with_reducible first
        | assumption | intro _ | apply hbmStore_keeps | apply keeps_ite | apply keeps_foldl
    | split | dsimp only

theorem putToken_keeps {s0 : State} (p : Nat) (c : List Word) (i : Nat) (key : List Byte) (blocks : List Block) (value : List Byte) {s : State}
    (hk : Keeps s0 s) : Keeps s0 (putToken p c i key blocks value s) := by
  conv => arg 2; fun; fun; fun; fun; fun; fun; fun; delta putToken
  repeat' first
    | with_reducible first
        | assumption | intro _ | apply putBlocks_keeps | apply hbmStore_keeps | apply keeps_ite
    | split | dsimp only

theorem countAppend_keeps {s0 : State} (p step slot table head n : Nat) {s : State}
    (hk : Keeps s0 s) : Keeps s0 (countAppend p step slot table head n s) := by
  conv => arg 2; fun; fun; fun; fun; fun; fun; fun; delta countAppend
  repeat' first
    | with_reducible first
        | assumption | intro _ | apply modStep_keeps
    | dsimp only

theorem appendKeys_keeps {s0 : State} (a : At) (c : List Word) {s : State}
    (hk : Keeps s0 s) : Keeps s0 (appendKeys a c s) := by
  conv => arg 2; fun; fun; fun; delta appendKeys
  repeat' first
    | with_reducible first
        | assumption | intro _ | apply putToken_keeps | apply countConv_keeps | apply countAppend_keeps
        | apply cntAdd_keeps | apply quantProbes_keeps | apply countQuant_keeps | apply keeps_ite | apply keeps_foldl
    | split | dsimp only

theorem countFerry_keeps {s0 : State} (p : Nat) (old : State) {s : State}
    (hk : Keeps s0 s) : Keeps s0 (countFerry p old s) := by
  conv => arg 2; fun; fun; fun; delta countFerry
  repeat' first
    | with_reducible first
        | assumption | intro _ | apply cntAdd_keeps | apply keeps_ite | apply keeps_foldl | apply keeps_foldl_snd
        | apply apply_ite_keeps
    | split | dsimp only | refine keeps_of_snd (by with_reducible assumption) ?_ | refine keepsO_get (by with_reducible assumption) ?_

theorem bulkLand_keeps {s0 : State} (p off : Nat) (bs : List Byte) {s : State}
    (hk : Keeps s0 s) : Keeps s0 (bulkLand p off bs s) := by
  conv => arg 2; fun; fun; fun; fun; delta bulkLand
  repeat' first
    | with_reducible first
        | assumption | intro _ | apply countFerry_keeps | apply modEx_keeps | apply chunkPages_keeps
        | apply hbmStore_keeps | apply keeps_ite | apply keeps_foldl | apply keeps_foldl_snd
    | split | dsimp only | refine keeps_of_snd (by with_reducible assumption) ?_ | refine keepsO_get (by with_reducible assumption) ?_

theorem attendMeets_keeps {s0 : State} (a : At) (ev : RunEvent) (c : List Word) {s : State}
    (hk : Keeps s0 s) : Keeps s0 (attendMeets a ev c s).2 := by
  conv => arg 2; arg 1; fun; fun; fun; fun; delta attendMeets
  repeat' first
    | with_reducible first
        | assumption | intro _ | apply meetReads_keeps | apply cntAdd_keeps | apply draw_keeps
        | apply confirmedStep_keeps | apply kvPageLost_keeps | apply keeps_ite | apply apply_ite_keeps
    | split | dsimp only | refine keeps_of_snd (by with_reducible assumption) ?_

theorem finalise_keeps {s0 : State} (a : At) (c : List Word) (rows : List AttRow) {s : State}
    (hk : Keeps s0 s) : Keeps s0 (finalise a c rows s) := by
  conv => arg 2; fun; fun; fun; fun; delta finalise
  repeat' first
    | with_reducible first
        | assumption | intro _ | apply countConv_keeps | apply storeRows_keeps | apply cntAdd_keeps
        | apply onceEvent_keeps | apply keeps_ite
    | split | dsimp only

theorem putRecords_keeps {s0 : State} (a : At) (c : List Word) (rows : List AttRow) {s : State}
    (hk : Keeps s0 s) : Keeps s0 (putRecords a c rows s) := by
  conv => arg 2; fun; fun; fun; fun; delta putRecords
  repeat' first
    | with_reducible first
        | assumption | intro _ | apply storeRows_keeps | apply onceEvent_keeps | apply keeps_ite
    | split | dsimp only

theorem afterTiles_keeps {s0 : State} (a : At) (c : List Word) {s : State}
    (hk : Keeps s0 s) : Keeps s0 (afterTiles a c s) := by
  conv => arg 2; fun; fun; fun; delta afterTiles
  repeat' first
    | with_reducible first
        | assumption | intro _ | apply modCore_keeps | apply sramLoosen_keeps | apply frontStall_keeps
        | apply apply_ite_keeps
    | split | dsimp only | refine keeps_of_snd (by with_reducible assumption) ?_ | refine keepsO_get (by with_reducible assumption) ?_

theorem attendGo_keeps {s0 : State} (a : At) (ev : RunEvent) (c : List Word) {s : State}
    (hk : Keeps s0 s) : Keeps s0 (attendGo a ev c s) := by
  conv => arg 2; fun; fun; fun; fun; delta attendGo
  repeat' first
    | with_reducible first
        | assumption | intro _ | apply faultAt_keeps | apply enter_keeps | apply appendKeys_keeps
        | apply residueMeet_keeps | apply cntAdd_keeps | apply modCluster_keeps | apply hbmStore_keeps
        | apply modStep_keeps | apply afterTiles_keeps | apply putRecords_keeps | apply finalise_keeps
        | apply keeps_ite | apply apply_ite_keeps | apply keeps_foldl | apply keeps_foldl_snd
    | split | dsimp only | refine keeps_of_snd (by with_reducible assumption) ?_

theorem mergeGo_keeps {s0 : State} (a : At) (c : List Word) {s : State}
    (hk : Keeps s0 s) : Keeps s0 (mergeGo a c s) := by
  conv => arg 2; fun; fun; fun; delta mergeGo
  repeat' first
    | with_reducible first
        | assumption | intro _ | apply finalise_keeps | apply cntAdd_keeps | apply enter_keeps | apply keeps_ite
        | apply keeps_foldl
    | split | dsimp only

end Sys2Proof.Machine
end

