-- ==== Sys2Proof/Laws/KeepsChamois.lean ====
section
/-! SUPPORT. Every operation of Machine/Chamois.lean keeps what no command takes away (Laws/Keeps.lean). -/

namespace Sys2Proof.Machine
theorem dequeue_keeps {s0 : State} (die id : Nat) {s : State}
    (hk : Keeps s0 s) : Keeps s0 (dequeue die id s) := by
  conv => arg 2; fun; fun; fun; delta dequeue
  repeat' first
    | with_reducible first
        | assumption | intro _ | apply modChm_keeps
    | dsimp only
    | exact keeps_same hk ⟨rfl, rfl, rfl, rfl, rfl, rfl, rfl, rfl, rfl, rfl, rfl, rfl, rfl, ⟨rfl, rfl, rfl, rfl, rfl, rfl⟩, rfl⟩

theorem usedTile_keeps {s0 : State} (q : Probe) {s : State}
    (hk : Keeps s0 s) : Keeps s0 (usedTile q s) := by
  conv => arg 2; fun; fun; delta usedTile
  repeat' first
    | with_reducible first
        | assumption | intro _ | apply modStep_keeps | apply useChunks_keeps | apply keeps_ite
    | split | dsimp only | refine keeps_of_snd (by with_reducible assumption) ?_ | refine keepsO_get (by with_reducible assumption) ?_

theorem releaseTile_keeps {s0 : State} (q : Probe) (rows : List (Nat × List Byte)) {s : State}
    (hk : Keeps s0 s) : Keeps s0 (releaseTile q rows s) := by
  conv => arg 2; fun; fun; fun; delta releaseTile
  repeat' first
    | with_reducible first
        | assumption | intro _ | apply storeRows_keeps | apply modCluster_keeps
    | dsimp only

theorem stormBegins_keeps {s0 : State} (p step : Nat) (pinned : List Nat) {s : State}
    (hk : Keeps s0 s) : Keeps s0 (stormBegins p step pinned s) := by
  conv => arg 2; fun; fun; fun; fun; delta stormBegins
  repeat' first
    | with_reducible first
        | assumption | intro _ | apply askRung_keeps | apply logEvent_keeps | apply keeps_foldl
        | apply keeps_foldl_snd
    | split | dsimp only | refine keeps_of_snd (by with_reducible assumption) ?_ | refine keepsO_get (by with_reducible assumption) ?_

theorem probeFailed_keeps {s0 : State} (v : FbEvt) (p : Nat) {s : State}
    (hk : Keeps s0 s) : Keeps s0 (probeFailed v p s) := by
  conv => arg 2; fun; fun; fun; delta probeFailed
  repeat' first
    | with_reducible first
        | assumption | intro _ | apply modFb_keeps | apply logEvent_keeps | apply cntAdd_keeps | apply askRung_keeps
        | apply stormBegins_keeps | apply keeps_ite | apply apply_ite_keeps
    | split | dsimp only | refine keeps_of_snd (by with_reducible assumption) ?_ | refine keepsO_get (by with_reducible assumption) ?_

theorem topExceeded_keeps {s0 : State} (p step op rung : Nat) (e : Word) {s : State}
    (hk : Keeps s0 s) : Keeps s0 (topExceeded p step op rung e s) := by
  conv => arg 2; fun; fun; fun; fun; fun; fun; delta topExceeded
  repeat' first
    | with_reducible first
        | assumption | intro _ | apply cntAdd_keeps | apply logEvent_keeps | apply modRun_keeps | apply keeps_ite
    | split | dsimp only | refine keeps_of_snd (by with_reducible assumption) ?_ | refine keepsO_get (by with_reducible assumption) ?_

theorem awaitRung_keeps {s0 : State} (die : Nat) (q : Probe) {s : State}
    (hk : Keeps s0 s) : Keeps s0 (awaitRung die q s) := by
  conv => arg 2; fun; fun; fun; delta awaitRung
  repeat' first
    | with_reducible first
        | assumption | intro _ | apply askChunks_keeps | apply modChm_keeps | apply keeps_ite
    | split | dsimp only | refine keeps_of_snd (by with_reducible assumption) ?_ | refine keepsO_get (by with_reducible assumption) ?_

theorem refetchTile_keeps {s0 : State} (die : Nat) (q : Probe) (bad : Nat × Nat) {s : State}
    (hk : Keeps s0 s) : Keeps s0 (refetchTile die q bad s) := by
  conv => arg 2; fun; fun; fun; fun; delta refetchTile
  repeat' first
    | with_reducible first
        | assumption | intro _ | apply cntAdd_keeps | apply refetchChunks_keeps | apply modStage_keeps
        | apply awaitRung_keeps | apply apply_ite_keeps
    | split | dsimp only | refine keeps_of_snd (by with_reducible assumption) ?_ | refine keepsO_get (by with_reducible assumption) ?_

theorem judgeProduct_keeps {s0 : State} (die : Nat) (q : Probe) (r : List Word) {s : State}
    (hk : Keeps s0 s) : Keeps s0 (judgeProduct die q r s) := by
  conv => arg 2; fun; fun; fun; fun; delta judgeProduct
  repeat' first
    | with_reducible first
        | assumption | intro _ | apply usedTile_keeps | apply countConv_keeps | apply releaseTile_keeps
        | apply dequeue_keeps | apply probeFailed_keeps | apply cntAdd_keeps | apply awaitRung_keeps
        | apply topExceeded_keeps | apply keeps_ite | apply apply_ite_keeps
    | split | dsimp only | refine keeps_of_snd (by with_reducible assumption) ?_ | refine keepsO_get (by with_reducible assumption) ?_

theorem judgeQuant_keeps {s0 : State} (die : Nat) (q : Probe) (r : List Word) {s : State}
    (hk : Keeps s0 s) : Keeps s0 (judgeQuant die q r s) := by
  conv => arg 2; fun; fun; fun; fun; delta judgeQuant
  repeat' first
    | with_reducible first
        | assumption | intro _ | apply dequeue_keeps | apply stepEvent_keeps | apply cntAdd_keeps | apply keeps_ite
    | split | dsimp only

theorem proceed_keeps {s0 : State} (die : Nat) (q : Probe) {s : State}
    (hk : Keeps s0 s) : Keeps s0 (proceed die q s) := by
  conv => arg 2; fun; fun; fun; delta proceed
  repeat' first
    | with_reducible first
        | assumption | intro _ | apply dequeue_keeps | apply releaseTile_keeps | apply usedTile_keeps
        | apply countConv_keeps | apply keeps_ite | apply apply_ite_keeps
    | split | dsimp only | refine keeps_of_snd (by with_reducible assumption) ?_ | refine keepsO_get (by with_reducible assumption) ?_

theorem unitFails_keeps {s0 : State} (die : Nat) {s : State}
    (hk : Keeps s0 s) : Keeps s0 (unitFails die s) := by
  conv => arg 2; fun; fun; delta unitFails
  repeat' first
    | with_reducible first
        | assumption | intro _ | apply modChm_keeps | apply recordRepair_keeps | apply logPkg_keeps
        | apply cntAdd_keeps | apply proceed_keeps | apply keeps_ite | apply keeps_foldl | apply keeps_foldl_snd
    | split | dsimp only | refine keeps_of_snd (by with_reducible assumption) ?_ | refine keepsO_get (by with_reducible assumption) ?_

theorem probeComplete_keeps {s0 : State} (die : Nat) (mismatch again : Bool) {s : State}
    (hk : Keeps s0 s) : Keeps s0 (probeComplete die mismatch again s) := by
  conv => arg 2; fun; fun; fun; fun; delta probeComplete
  repeat' first
    | with_reducible first
        | assumption | intro _ | apply proceed_keeps | apply unitFails_keeps | apply dequeue_keeps
        | apply judgeQuant_keeps | apply refetchTile_keeps | apply judgeProduct_keeps | apply keeps_ite
        | apply apply_ite_keeps
    | split | dsimp only | refine keeps_of_snd (by with_reducible assumption) ?_ | refine keepsO_get (by with_reducible assumption) ?_

end Sys2Proof.Machine
end

