-- ==== Sys2Proof/Laws/KeepsErasure.lean ====
section
/-! SUPPORT. Every operation of Machine/Erasure.lean keeps what no command takes away (Laws/Keeps.lean). -/

namespace Sys2Proof.Machine
theorem crossings_keeps {s0 : State} {s : State}
    (hk : Keeps s0 s) : Keeps s0 (crossings s) := by
  conv => arg 2; fun; delta crossings
  repeat' first
    | with_reducible first
        | assumption | intro _ | apply logPkg_keeps | apply modBnd_keeps | apply keeps_ite
    | split | dsimp only

theorem countWritten_keeps {s0 : State} (n : Nat) {s : State}
    (hk : Keeps s0 s) : Keeps s0 (countWritten n s) := by
  conv => arg 2; fun; fun; delta countWritten
  repeat' first
    | with_reducible first
        | assumption | intro _ | apply crossings_keeps | apply totAdd_keeps | apply modBnd_keeps
    | dsimp only

theorem shardGone_keeps {s0 : State} (x n : Nat) {s : State}
    (hk : Keeps s0 s) : Keeps s0 (shardGone x n s) := by
  conv => arg 2; fun; fun; fun; delta shardGone
  repeat' first
    | with_reducible first
        | assumption | intro _ | apply logPkg_keeps | apply totAdd_keeps | apply modBnd_keeps
        | apply declareFailed_keeps | apply standbyLost_keeps | apply keeps_ite
    | split | dsimp only

theorem askMember_keeps {s0 : State} (x m : Nat) {s : State}
    (hk : Keeps s0 s) : Keeps s0 (askMember x m s).2 := by
  conv => arg 2; arg 1; fun; fun; fun; delta askMember
  repeat' first
    | with_reducible first
        | assumption | intro _ | apply issue_keeps | apply keeps_ite | apply apply_ite_keeps
    | split | dsimp only

theorem modFirst_keeps {s0 : State} (f : Rebuild → Rebuild) {s : State}
    (hk : Keeps s0 s) : Keeps s0 (modFirst f s) := by
  conv => arg 2; fun; fun; delta modFirst
  repeat' first
    | with_reducible first
        | assumption | intro _ | apply modBnd_keeps
    | split | dsimp only

theorem finishRebuild_keeps {s0 : State} (r : Rebuild) {s : State}
    (hk : Keeps s0 s) : Keeps s0 (finishRebuild r s) := by
  conv => arg 2; fun; fun; delta finishRebuild
  repeat' first
    | with_reducible first
        | assumption | intro _ | apply shardGone_keeps | apply logPkg_keeps | apply totAdd_keeps | apply modBnd_keeps
        | apply bondWriteFlat_keeps | apply countWritten_keeps | apply keeps_ite
    | split | dsimp only

theorem pumpRebuild_keeps {s0 s : State}  (n : Nat)
    (hk : Keeps s0 s) : Keeps s0 (pumpRebuild  n s) := by
  induction n generalizing s with
  | zero => exact hk
  | succ n ih =>
    unfold pumpRebuild
    repeat' first
    | with_reducible first
        | assumption | intro _ | apply ih | apply shardGone_keeps | apply finishRebuild_keeps | apply askMember_keeps
        | apply modFirst_keeps | apply keeps_ite
    | split | dsimp only | refine keeps_of_snd (by with_reducible assumption) ?_

theorem runRebuilds_keeps {s0 : State} {s : State}
    (hk : Keeps s0 s) : Keeps s0 (runRebuilds s) := by
  conv => arg 2; fun; delta runRebuilds
  repeat' first
    | with_reducible first
        | assumption | intro _ | apply pumpRebuild_keeps

theorem startRebuild_keeps {s0 : State} (x : Nat) (scrub : Bool) {s : State}
    (hk : Keeps s0 s) : Keeps s0 (startRebuild x scrub s) := by
  conv => arg 2; fun; fun; fun; delta startRebuild
  repeat' first
    | with_reducible first
        | assumption | intro _ | apply shardGone_keeps | apply runRebuilds_keeps | apply modBnd_keeps
        | apply keeps_ite
    | split | dsimp only

theorem memberFails_keeps {s0 : State} (m : Nat) {s : State}
    (hk : Keeps s0 s) : Keeps s0 (memberFails m s) := by
  conv => arg 2; fun; fun; delta memberFails
  repeat' first
    | with_reducible first
        | assumption | intro _ | apply runRebuilds_keeps | apply modFirst_keeps | apply keeps_ite
    | split | dsimp only

theorem memberPiece_keeps {s0 : State} (m i : Nat) (data : List Byte) {s : State}
    (hk : Keeps s0 s) : Keeps s0 (memberPiece m i data s) := by
  conv => arg 2; fun; fun; fun; fun; delta memberPiece
  repeat' first
    | with_reducible first
        | assumption | intro _ | apply modFirst_keeps | apply runRebuilds_keeps | apply keeps_ite
    | split | dsimp only

theorem peerTimeout_keeps {s0 : State} {s : State}
    (hk : Keeps s0 s) : Keeps s0 (peerTimeout s) := by
  conv => arg 2; fun; delta peerTimeout
  repeat' first
    | with_reducible first
        | assumption | intro _ | apply memberFails_keeps
    | split | dsimp only

theorem chunkPages_keeps {s0 : State} (x : Nat) (fails : PageFails) {s : State}
    (hk : Keeps s0 s) : Keeps s0 (chunkPages x fails s).2 := by
  conv => arg 2; arg 1; fun; fun; fun; delta chunkPages
  repeat' first
    | with_reducible first
        | assumption | intro _ | apply totAdd_keeps | apply startRebuild_keeps | apply keeps_ite
        | apply apply_ite_keeps
    | split | dsimp only

end Sys2Proof.Machine
end

