-- ==== Sys2Proof/Laws/KeepsMove.lean ====
section
/-! SUPPORT. Every operation of Machine/Move.lean keeps what no command takes away (Laws/Keeps.lean). -/

namespace Sys2Proof.Machine
theorem moveMeets_keeps {s0 : State} (a : At) (ev : RunEvent) (c : List Word) {s : State}
    (hk : Keeps s0 s) : Keeps s0 (moveMeets a ev c s).2 := by
  conv => arg 2; arg 1; fun; fun; fun; fun; delta moveMeets
  repeat' first
    | with_reducible first
        | assumption | intro _ | apply meetReads_keeps | apply weightFails_keeps | apply keeps_ite
        | apply apply_ite_keeps
    | split | dsimp only | refine keeps_of_snd (by with_reducible assumption) ?_ | refine keepsO_get (by with_reducible assumption) ?_

theorem noteCopy_keeps {s0 : State} (p cluster x n : Nat) (src : Option Nat) {s : State}
    (hk : Keeps s0 s) : Keeps s0 (noteCopy p cluster x n src s) := by
  conv => arg 2; fun; fun; fun; fun; fun; fun; delta noteCopy
  repeat' first
    | with_reducible first
        | assumption | intro _ | apply modCluster_keeps | apply apply_ite_keeps
    | split | dsimp only | refine keeps_of_snd (by with_reducible assumption) ?_ | refine keepsO_get (by with_reducible assumption) ?_

theorem moveGo_keeps {s0 : State} (a : At) (c : List Word) {s : State}
    (hk : Keeps s0 s) : Keeps s0 (moveGo a c s) := by
  conv => arg 2; fun; fun; fun; delta moveGo
  repeat' first
    | with_reducible first
        | assumption | intro _ | apply faultAt_keeps | apply enter_keeps | apply cntAdd_keeps | apply hbmStore_keeps
        | apply noteCopy_keeps | apply storeRows_keeps | apply takeSlot_keeps | apply keeps_ite
        | apply apply_ite_keeps
    | split | dsimp only | refine keeps_of_snd (by with_reducible assumption) ?_ | refine keepsO_get (by with_reducible assumption) ?_

end Sys2Proof.Machine
end

