-- ==== Sys2Proof/Laws/KeepsRoute.lean ====
section
/-! SUPPORT. Every operation of Machine/Route.lean keeps what no command takes away (Laws/Keeps.lean). -/

namespace Sys2Proof.Machine
theorem modCold_keeps {s0 : State} (slot k : Nat) (f : ColdSlot → ColdSlot) {s : State}
    (hk : Keeps s0 s) : Keeps s0 (modCold slot k f s) := by
  conv => arg 2; fun; fun; fun; fun; delta modCold
  repeat' first
    | with_reducible first
        | assumption | intro _ | apply modStage_keeps | apply keeps_ite
    | split | dsimp only

theorem needCold_keeps {s0 : State} (p step x index : Nat) {s : State}
    (hk : Keeps s0 s) : Keeps s0 (needCold p step x index s) := by
  conv => arg 2; fun; fun; fun; fun; fun; delta needCold
  repeat' first
    | with_reducible first
        | assumption | intro _ | apply modCold_keeps | apply cntAdd_keeps | apply modStage_keeps | apply keeps_ite
        | apply apply_ite_keeps
    | split | dsimp only | refine keeps_of_snd (by with_reducible assumption) ?_
    | refine keepsO_get (by with_reducible assumption) ?_
    | exact keeps_same hk ⟨rfl, rfl, rfl, rfl, rfl, rfl, rfl, rfl, rfl, rfl, rfl, rfl, rfl, ⟨rfl, rfl, rfl, rfl, rfl, rfl⟩, rfl⟩

theorem unpinCold_keeps {s0 : State} (p step x : Nat) {s : State}
    (hk : Keeps s0 s) : Keeps s0 (unpinCold p step x s) := by
  conv => arg 2; fun; fun; fun; fun; delta unpinCold
  repeat' first
    | with_reducible first
        | assumption | intro _ | apply modStage_keeps | apply keeps_ite
    | split | dsimp only

theorem modQueue_keeps {s0 : State} (p map step c q : Nat) (f : Queue → Queue) {s : State}
    (hk : Keeps s0 s) : Keeps s0 (modQueue p map step c q f s) := by
  conv => arg 2; fun; fun; fun; fun; fun; fun; fun; delta modQueue
  repeat' first
    | with_reducible first
        | assumption | intro _ | apply modEx_keeps
    | dsimp only

theorem placeEntry_keeps {s0 : State} (p : Nat) (m : EMap) (step k q : Nat) (bs : List Byte) {s : State}
    (hk : Keeps s0 s) : Keeps s0 (placeEntry p m step k q bs s) := by
  conv => arg 2; fun; fun; fun; fun; fun; fun; fun; delta placeEntry
  repeat' first
    | with_reducible first
        | assumption | intro _ | apply modQueue_keeps | apply cntAdd_keeps | apply takeSlot_keeps
        | apply onceEvent_keeps | apply modEx_keeps | apply hbmStore_keeps | apply storeRows_keeps
        | apply needCold_keeps | apply keeps_ite
    | split | dsimp only

theorem entryArrives_keeps {s0 : State} (p : Nat) (m : EMap) (bs : List Byte) {s : State}
    (hk : Keeps s0 s) : Keeps s0 (entryArrives p m bs s) := by
  conv => arg 2; fun; fun; fun; fun; delta entryArrives
  repeat' first
    | with_reducible first
        | assumption | intro _ | apply needCold_keeps | apply keeps_ite
    | split | dsimp only | refine keeps_of_snd (by with_reducible assumption) ?_ | refine keepsO_get (by with_reducible assumption) ?_

theorem localEntry_keeps {s0 : State} (p : Nat) (m : EMap) (step k q : Nat) (bs : List Byte) {s : State}
    (hk : Keeps s0 s) : Keeps s0 (localEntry p m step k q bs s) := by
  conv => arg 2; fun; fun; fun; fun; fun; fun; fun; delta localEntry
  repeat' first
    | with_reducible first
        | assumption | intro _ | apply entryArrives_keeps | apply placeEntry_keeps | apply modEx_keeps
        | apply keeps_ite | apply apply_ite_keeps
    | split | dsimp only | refine keeps_of_snd (by with_reducible assumption) ?_ | refine keepsO_get (by with_reducible assumption) ?_

theorem recordClose_keeps {s0 : State} (p k : Nat) (h : List Word) {s : State}
    (hk : Keeps s0 s) : Keeps s0 (recordClose p k h s) := by
  conv => arg 2; fun; fun; fun; fun; delta recordClose
  repeat' first
    | with_reducible first
        | assumption | intro _ | apply takeSlot_keeps | apply modQueue_keeps | apply keeps_foldl
    | split | dsimp only

theorem localClose_keeps {s0 : State} (p : Nat) (m : EMap) (k : Nat) (h : List Word) {s : State}
    (hk : Keeps s0 s) : Keeps s0 (localClose p m k h s) := by
  conv => arg 2; fun; fun; fun; fun; fun; delta localClose
  repeat' first
    | with_reducible first
        | assumption | intro _ | apply recordClose_keeps | apply modEx_keeps | apply keeps_ite
    | split | dsimp only

theorem drainWait_keeps {s0 : State} (p : Nat) {s : State}
    (hk : Keeps s0 s) : Keeps s0 (drainWait p s) := by
  conv => arg 2; fun; fun; delta drainWait
  repeat' first
    | with_reducible first
        | assumption | intro _ | apply modEx_keeps | apply recordClose_keeps | apply placeEntry_keeps
        | apply keeps_ite | apply keeps_foldl
    | split | dsimp only

theorem sendQpush_keeps {s0 : State} (plane p dst dp k q : Nat) (entry : List Byte) (fs : List (Nat × List Byte)) {s : State}
    (hk : Keeps s0 s) : Keeps s0 (sendQpush plane p dst dp k q entry fs s) := by
  conv => arg 2; fun; fun; fun; fun; fun; fun; fun; fun; fun; delta sendQpush
  repeat' first
    | with_reducible first
        | assumption | intro _ | apply issueKeep_keeps | apply keeps_ite | apply apply_ite_keeps | apply keeps_foldl
        | apply keeps_foldl_snd
    | split | dsimp only

theorem takeCredit_keeps {s0 : State} (p dst : Nat) {s : State}
    (hk : Keeps s0 s) : Keeps s0 (takeCredit p dst s) := by
  conv => arg 2; fun; fun; fun; delta takeCredit
  repeat' first
    | with_reducible first
        | assumption | intro _ | apply modFab_keeps | apply keeps_ite
    | split | dsimp only

theorem pushEntry_keeps {s0 : State} (plane p dst dp k q : Nat) (bs : List Byte) {s : State}
    (hk : Keeps s0 s) : Keeps s0 (pushEntry plane p dst dp k q bs s) := by
  conv => arg 2; fun; fun; fun; fun; fun; fun; fun; fun; delta pushEntry
  repeat' first
    | with_reducible first
        | assumption | intro _ | apply cntAdd_keeps | apply modFab_keeps | apply sendQpush_keeps
        | apply takeCredit_keeps | apply keeps_ite
    | split | dsimp only

theorem sendClose_keeps {s0 : State} (plane p dst dp k : Nat) (bs : List Byte) {s : State}
    (hk : Keeps s0 s) : Keeps s0 (sendClose plane p dst dp k bs s) := by
  conv => arg 2; fun; fun; fun; fun; fun; fun; fun; delta sendClose
  repeat' first
    | with_reducible first
        | assumption | intro _ | apply localClose_keeps | apply sendQpush_keeps | apply keeps_ite
    | split | dsimp only | refine keeps_of_snd (by with_reducible assumption) ?_ | refine keepsO_get (by with_reducible assumption) ?_

theorem releaseCloses_keeps {s0 s : State} (n : Nat)
    (hk : Keeps s0 s) : Keeps s0 (releaseCloses n s) := by
  induction n generalizing s with
  | zero => exact hk
  | succ n ih =>
    unfold releaseCloses
    repeat' first
    | with_reducible first
        | assumption | intro _ | apply ih | apply sendClose_keeps | apply modFab_keeps | apply apply_ite_keeps
    | split | dsimp only | refine keeps_of_snd (by with_reducible assumption) ?_ | refine keepsO_get (by with_reducible assumption) ?_

theorem creditBack_keeps {s0 : State} (dst : Nat) {s : State}
    (hk : Keeps s0 s) : Keeps s0 (creditBack dst s) := by
  conv => arg 2; fun; fun; delta creditBack
  repeat' first
    | with_reducible first
        | assumption | intro _ | apply modFab_keeps | apply releaseCloses_keeps | apply sendQpush_keeps
        | apply takeCredit_keeps | apply apply_ite_keeps
    | split | dsimp only | refine keeps_of_snd (by with_reducible assumption) ?_ | refine keepsO_get (by with_reducible assumption) ?_

theorem scatterOne_keeps {r0 : State} (s0 : State) (a : At) (c : List Word) (m : EMap) (row rank x : Nat) {s : State}
    (hk : Keeps r0 s) : Keeps r0 (scatterOne s0 a c m row rank x s) := by
  conv => arg 2; fun; fun; fun; fun; fun; fun; fun; fun; delta scatterOne
  repeat' first
    | with_reducible first
        | assumption | intro _ | apply localEntry_keeps | apply pushEntry_keeps | apply keeps_ite
    | split | dsimp only

theorem sendCloses_keeps {s0 : State} (a : At) (c : List Word) (m : EMap) (chosen : List Nat) {s : State}
    (hk : Keeps s0 s) : Keeps s0 (sendCloses a c m chosen s) := by
  conv => arg 2; fun; fun; fun; fun; fun; delta sendCloses
  repeat' first
    | with_reducible first
        | assumption | intro _ | apply modFab_keeps | apply sendClose_keeps | apply keeps_ite | apply keeps_foldl
        | apply keeps_foldl_snd
    | split | dsimp only | refine keeps_of_snd (by with_reducible assumption) ?_ | refine keepsO_get (by with_reducible assumption) ?_

theorem selectGo_keeps {s0 : State} (a : At) (expanded : Bool) (c : List Word) {s : State}
    (hk : Keeps s0 s) : Keeps s0 (selectGo a expanded c s) := by
  conv => arg 2; fun; fun; fun; fun; delta selectGo
  repeat' first
    | with_reducible first
        | assumption | intro _ | apply faultAt_keeps | apply storeRows_keeps | apply enter_keeps | apply modEx_keeps
        | apply cntAdd_keeps | apply onceEvent_keeps | apply scatterOne_keeps | apply sendCloses_keeps
        | apply keeps_ite | apply keeps_foldl | apply keeps_foldl_snd | apply apply_ite_keeps
    | split | dsimp only | refine keeps_of_snd (by with_reducible assumption) ?_ | refine keepsO_get (by with_reducible assumption) ?_

theorem sealGo_keeps {s0 : State} (a : At) (c : List Word) {s : State}
    (hk : Keeps s0 s) : Keeps s0 (sealGo a c s) := by
  conv => arg 2; fun; fun; fun; delta sealGo
  repeat' first
    | with_reducible first
        | assumption | intro _ | apply faultAt_keeps | apply storeRows_keeps | apply enter_keeps
        | apply modRunAt_keeps | apply modQueue_keeps | apply keeps_ite
    | split | dsimp only

theorem markSeal_keeps {s0 : State} (a : At) {s : State}
    (hk : Keeps s0 s) : Keeps s0 (markSeal a s) := by
  conv => arg 2; fun; fun; delta markSeal
  repeat' first
    | with_reducible first
        | assumption | intro _ | apply modRunAt_keeps | apply modStep_keeps | apply keeps_ite
    | split | dsimp only

theorem sealHang_keeps {s0 : State} (a : At) {s : State}
    (hk : Keeps s0 s) : Keeps s0 (sealHang a s) := by
  conv => arg 2; fun; fun; delta sealHang
  repeat' first
    | with_reducible first
        | assumption | intro _ | apply hang_keeps | apply logEvent_keeps
    | split | dsimp only

theorem gatherMeets_keeps {s0 : State} (a : At) (ev : RunEvent) (c : List Word) {s : State}
    (hk : Keeps s0 s) : Keeps s0 (gatherMeets a ev c s).2 := by
  conv => arg 2; arg 1; fun; fun; fun; fun; delta gatherMeets
  repeat' first
    | with_reducible first
        | assumption | intro _ | apply meetParity_keeps | apply apply_ite_keeps
    | split | dsimp only | refine keeps_of_snd (by with_reducible assumption) ?_

theorem gatherGo_keeps {s0 : State} (a : At) (c : List Word) {s : State}
    (hk : Keeps s0 s) : Keeps s0 (gatherGo a c s) := by
  conv => arg 2; fun; fun; fun; delta gatherGo
  repeat' first
    | with_reducible first
        | assumption | intro _ | apply faultAt_keeps | apply storeRows_keeps | apply enter_keeps | apply cntAdd_keeps
        | apply modStep_keeps | apply keeps_ite
    | split | dsimp only

theorem countReturn_keeps {s0 : State} (p : Nat) (ok : SelRun → Bool) {s : State}
    (hk : Keeps s0 s) : Keeps s0 (countReturn p ok s) := by
  conv => arg 2; fun; fun; fun; delta countReturn
  repeat' first
    | with_reducible first
        | assumption | intro _ | apply modEx_keeps | apply keeps_ite
    | split | dsimp only | refine keeps_of_snd (by with_reducible assumption) ?_ | refine keepsO_get (by with_reducible assumption) ?_

theorem landReturn_keeps {s0 : State} (p k kind off : Nat) (bs : List Byte) {s : State}
    (hk : Keeps s0 s) : KeepsO s0 (landReturn p k kind off bs s) := by
  conv => arg 2; fun; fun; fun; fun; fun; fun; delta landReturn
  repeat' first
    | with_reducible first
        | assumption | intro _ | apply keepsO_none | apply keepsO_some | apply keepsO_ite | apply cntAdd_keeps
        | apply bulkLand_keeps | apply storeRows_keeps | apply keeps_ite
    | split | dsimp only | refine keeps_of_snd (by with_reducible assumption) ?_ | refine keepsO_get (by with_reducible assumption) ?_

theorem returnRow_keeps {s0 : State} (p k step op kind off : Nat) (bs : List Byte) {s : State}
    (hk : Keeps s0 s) : Keeps s0 (returnRow p k step op kind off bs s) := by
  conv => arg 2; fun; fun; fun; fun; fun; fun; fun; fun; delta returnRow
  repeat' first
    | with_reducible first
        | assumption | intro _ | apply landReturn_keeps | apply countReturn_keeps | apply keeps_ite
    | split | dsimp only | refine keeps_of_snd (by with_reducible assumption) ?_ | refine keepsO_get (by with_reducible assumption) ?_

theorem hbmReturn_keeps {s0 : State} (p off : Nat) {s : State}
    (hk : Keeps s0 s) : Keeps s0 (hbmReturn p off s) := by
  conv => arg 2; fun; fun; fun; delta hbmReturn
  repeat' first
    | with_reducible first
        | assumption | intro _ | apply countReturn_keeps
    | split | dsimp only | refine keeps_of_snd (by with_reducible assumption) ?_ | refine keepsO_get (by with_reducible assumption) ?_

theorem returnGo_keeps {s0 : State} (a : At) (c : List Word) {s : State}
    (hk : Keeps s0 s) : Keeps s0 (returnGo a c s) := by
  conv => arg 2; fun; fun; fun; delta returnGo
  repeat' first
    | with_reducible first
        | assumption | intro _ | apply faultAt_keeps | apply enter_keeps | apply returnRow_keeps
        | apply issuePush_keeps | apply unpinCold_keeps | apply keeps_ite | apply apply_ite_keeps | apply keeps_foldl
        | apply keeps_foldl_snd
    | split | dsimp only | refine keeps_of_snd (by with_reducible assumption) ?_

theorem combineGo_keeps {s0 : State} (a : At) (c : List Word) {s : State}
    (hk : Keeps s0 s) : Keeps s0 (combineGo a c s) := by
  conv => arg 2; fun; fun; fun; delta combineGo
  repeat' first
    | with_reducible first
        | assumption | intro _ | apply faultAt_keeps | apply countConv_keeps | apply storeRows_keeps
        | apply cntAdd_keeps | apply enter_keeps | apply keeps_ite
    | split | dsimp only

theorem pushGo_keeps {s0 : State} (a : At) (c : List Word) {s : State}
    (hk : Keeps s0 s) : Keeps s0 (pushGo a c s) := by
  conv => arg 2; fun; fun; fun; delta pushGo
  repeat' first
    | with_reducible first
        | assumption | intro _ | apply faultAt_keeps | apply enter_keeps | apply cntAdd_keeps | apply issuePush_keeps
        | apply bulkLand_keeps | apply storeRows_keeps | apply takeSlot_keeps | apply countPost_keeps
        | apply keeps_ite | apply apply_ite_keeps
    | split | dsimp only

end Sys2Proof.Machine
end

