-- ==== Sys2Proof/Laws/KeepsTiers.lean ====
section
/-! SUPPORT. Every operation of Machine/Tiers.lean keeps what no command takes away (Laws/Keeps.lean). -/

namespace Sys2Proof.Machine
theorem turnWheel_keeps {s0 : State} {s : State}
    (hk : Keeps s0 s) : Keeps s0 (turnWheel s) := by
  conv => arg 2; fun; delta turnWheel
  repeat' first
    | with_reducible first
        | assumption | intro _ | apply modTiers_keeps
    | dsimp only
    | exact keeps_same hk ⟨rfl, rfl, rfl, rfl, rfl, rfl, rfl, rfl, rfl, rfl, rfl, rfl, rfl, ⟨rfl, rfl, rfl, rfl, rfl, rfl⟩, rfl⟩

theorem countChunk_keeps {s0 : State} (p : Nat) {s : State}
    (hk : Keeps s0 s) : Keeps s0 (countChunk p s) := by
  conv => arg 2; fun; fun; delta countChunk
  repeat' first
    | with_reducible first
        | assumption | intro _ | apply cntAdd_keeps | apply modFb_keeps | apply keeps_ite
    | split | dsimp only

theorem fillStage_keeps {s0 : State} (st : Stage) (off : Nat) (bs : List Byte) {s : State}
    (hk : Keeps s0 s) : Keeps s0 (fillStage st off bs s) := by
  conv => arg 2; fun; fun; fun; fun; delta fillStage
  repeat' first
    | with_reducible first
        | assumption | intro _ | apply rewriteDead_keeps | apply hbmWriteFlat_keeps
    | split | dsimp only | refine keeps_of_snd (by with_reducible assumption) ?_ | refine keepsO_get (by with_reducible assumption) ?_

theorem rungChunk_keeps {s0 : State} (standby : Bool) (fails : PageFails) {s : State}
    (hk : Keeps s0 s) : Keeps s0 (rungChunk standby fails s) := by
  conv => arg 2; fun; fun; fun; delta rungChunk
  repeat' first
    | with_reducible first
        | assumption | intro _ | apply chunkPages_keeps | apply turnWheel_keeps | apply fillStage_keeps
        | apply cntAdd_keeps | apply modFb_keeps | apply countChunk_keeps | apply keeps_ite | apply apply_ite_keeps
    | split | dsimp only | refine keeps_of_snd (by with_reducible assumption) ?_
    | refine keepsO_get (by with_reducible assumption) ?_ | apply stages_keeps

theorem coldEvent_keeps {s0 : State} (p step x n : Nat) {s : State}
    (hk : Keeps s0 s) : Keeps s0 (coldEvent p step x n s) := by
  conv => arg 2; fun; fun; fun; fun; fun; delta coldEvent
  repeat' first
    | with_reducible first
        | assumption | intro _ | apply logEvent_keeps | apply modRun_keeps | apply keeps_ite
    | split | dsimp only

theorem coldChunk_keeps {s0 : State} (standby : Bool) (fails : PageFails) {s : State}
    (hk : Keeps s0 s) : Keeps s0 (coldChunk standby fails s) := by
  conv => arg 2; fun; fun; fun; delta coldChunk
  repeat' first
    | with_reducible first
        | assumption | intro _ | apply modStage_keeps | apply turnWheel_keeps | apply chunkPages_keeps
        | apply fillStage_keeps | apply cntAdd_keeps | apply countChunk_keeps | apply coldEvent_keeps
        | apply keeps_ite | apply apply_ite_keeps
    | split | dsimp only | refine keeps_of_snd (by with_reducible assumption) ?_ | refine keepsO_get (by with_reducible assumption) ?_

theorem restoreUnit_keeps {s0 : State} (st : Stage) (u : Nat) (again : Bool) {s : State}
    (hk : Keeps s0 s) : Keeps s0 (restoreUnit st u again s) := by
  conv => arg 2; fun; fun; fun; fun; delta restoreUnit
  repeat' first
    | with_reducible first
        | assumption | intro _ | apply fillStage_keeps | apply modStage_keeps | apply complete_keeps
        | apply standbyCheck_keeps | apply logPkg_keeps | apply keeps_ite | apply apply_ite_keeps
    | split | dsimp only | refine keeps_of_snd (by with_reducible assumption) ?_ | refine keepsO_get (by with_reducible assumption) ?_

theorem restoreDone_keeps {s0 : State} (fails : PageFails) {s : State}
    (hk : Keeps s0 s) : Keeps s0 (restoreDone fails s) := by
  conv => arg 2; fun; fun; delta restoreDone
  repeat' first
    | with_reducible first
        | assumption | intro _ | apply chunkPages_keeps | apply turnWheel_keeps | apply restoreUnit_keeps
        | apply keeps_ite | apply apply_ite_keeps
    | split | dsimp only | refine keeps_of_snd (by with_reducible assumption) ?_

theorem streamStart_keeps {s0 : State} (p k id e rung : Nat) {s : State}
    (hk : Keeps s0 s) : Keeps s0 (streamStart p k id e rung s) := by
  conv => arg 2; fun; fun; fun; fun; fun; fun; delta streamStart
  repeat' first
    | with_reducible first
        | assumption | intro _ | apply modStep_keeps | apply modCluster_keeps | apply apply_ite_keeps
    | split | dsimp only | refine keeps_of_snd (by with_reducible assumption) ?_ | refine keepsO_get (by with_reducible assumption) ?_

theorem streamBegin_keeps {s0 : State} (k : Nat) {s : State}
    (hk : Keeps s0 s) : Keeps s0 (streamBegin k s) := by
  conv => arg 2; fun; fun; delta streamBegin
  repeat' first
    | with_reducible first
        | assumption | intro _ | apply modCluster_keeps | apply streamStart_keeps | apply askChunks_keeps
        | apply keeps_ite | apply apply_ite_keeps
    | split | dsimp only | refine keeps_of_snd (by with_reducible assumption) ?_
    | refine keepsO_get (by with_reducible assumption) ?_ | apply free_keeps

theorem rungFails_keeps {s0 : State} (p : Nat) (st : Stage) (die op rung : Nat) (fs : List (Nat × Nat × Nat)) {s : State}
    (hk : Keeps s0 s) : Keeps s0 (rungFails p st die op rung fs s) := by
  conv => arg 2; fun; fun; fun; fun; fun; fun; fun; delta rungFails
  repeat' first
    | with_reducible first
        | assumption | intro _ | apply refetchChunks_keeps | apply cntAdd_keeps | apply apply_ite_keeps
    | split | dsimp only | refine keeps_of_snd (by with_reducible assumption) ?_ | refine keepsO_get (by with_reducible assumption) ?_

theorem streamLanded_keeps {s0 : State} (k buf : Nat) (bad : List Nat) {s : State}
    (hk : Keeps s0 s) : Keeps s0 (streamLanded k buf bad s) := by
  conv => arg 2; fun; fun; fun; fun; delta streamLanded
  repeat' first
    | with_reducible first
        | assumption | intro _ | apply cntAdd_keeps | apply rungFails_keeps | apply weightFails_keeps
        | apply useChunks_keeps | apply modCluster_keeps | apply storeRows_keeps | apply keeps_ite
        | apply apply_ite_keeps
    | split | dsimp only | refine keeps_of_snd (by with_reducible assumption) ?_ | refine keepsO_get (by with_reducible assumption) ?_

theorem gain_keeps {s0 : State} (n : Nat) {s : State}
    (hk : Keeps s0 s) : Keeps s0 (gain n s) := by
  conv => arg 2; fun; fun; delta gain
  repeat' first
    | with_reducible first
        | assumption | intro _ | apply modTiers_keeps
    | split | dsimp only | refine keeps_of_snd (by with_reducible assumption) ?_ | refine keepsO_get (by with_reducible assumption) ?_

theorem takeKv_keeps {s0 : State} {s : State}
    (hk : Keeps s0 s) : Keeps s0 (takeKv s) := by
  conv => arg 2; fun; delta takeKv
  repeat' first
    | with_reducible first
        | assumption | intro _ | apply gain_keeps | apply modKv_keeps | apply keeps_ite | apply keeps_foldl
        | apply keeps_foldl_snd
    | split | dsimp only | refine keeps_of_snd (by with_reducible assumption) ?_ | refine keepsO_get (by with_reducible assumption) ?_

theorem takeCache_keeps {s0 : State} (slot : Nat) {s : State}
    (hk : Keeps s0 s) : Keeps s0 (takeCache slot s) := by
  conv => arg 2; fun; fun; delta takeCache
  repeat' first
    | with_reducible first
        | assumption | intro _ | apply gain_keeps | apply modStage_keeps | apply keeps_ite
    | split | dsimp only | refine keeps_of_snd (by with_reducible assumption) ?_ | refine keepsO_get (by with_reducible assumption) ?_

theorem takeCold_keeps {s0 s : State} (slot : Nat) (n : Nat)
    (hk : Keeps s0 s) : Keeps s0 (takeCold slot n s) := by
  induction n generalizing s with
  | zero => exact hk
  | succ n ih =>
    unfold takeCold
    repeat' first
    | with_reducible first
        | assumption | intro _ | apply ih | apply gain_keeps | apply modStage_keeps | apply keeps_ite
        | apply apply_ite_keeps
    | split | dsimp only | refine keeps_of_snd (by with_reducible assumption) ?_
    | refine keepsO_get (by with_reducible assumption) ?_ | apply free_keeps

theorem takePages_keeps {s0 s : State} (n : Nat)
    (hk : Keeps s0 s) : Keeps s0 (takePages n s) := by
  induction n generalizing s with
  | zero => exact hk
  | succ n ih =>
    unfold takePages
    repeat' first
    | with_reducible first
        | assumption | intro _ | apply ih | apply gain_keeps | apply modKv_keeps | apply takeVictim_keeps
        | apply keeps_ite | apply apply_ite_keeps
    | split | dsimp only | refine keeps_of_snd (by with_reducible assumption) ?_ | refine keepsO_get (by with_reducible assumption) ?_

theorem recoverAll_keeps {s0 : State} {s : State}
    (hk : Keeps s0 s) : Keeps s0 (recoverAll s) := by
  conv => arg 2; fun; delta recoverAll
  repeat' first
    | with_reducible first
        | assumption | intro _ | apply takeCache_keeps | apply takeKv_keeps | apply takeCold_keeps
        | apply takePages_keeps | apply keeps_foldl | apply keeps_foldl_snd | apply apply_ite_keeps
    | split | dsimp only | refine keeps_of_snd (by with_reducible assumption) ?_ | refine keepsO_get (by with_reducible assumption) ?_

theorem recoverFrames_keeps {s0 : State} (die : Nat) {s : State}
    (hk : Keeps s0 s) : Keeps s0 (recoverFrames die s) := by
  conv => arg 2; fun; fun; delta recoverFrames
  repeat' first
    | with_reducible first
        | assumption | intro _ | apply recoverAll_keeps | apply modTiers_keeps | apply declareFailed_keeps
        | apply logPkg_keeps | apply keeps_ite
    | split | dsimp only | refine keeps_of_snd (by with_reducible assumption) ?_ | refine keepsO_get (by with_reducible assumption) ?_

theorem releaseKv_keeps {s0 : State} (die : Nat) {s : State}
    (hk : Keeps s0 s) : Keeps s0 (releaseKv die s) := by
  conv => arg 2; fun; fun; delta releaseKv
  repeat' first
    | with_reducible first
        | assumption | intro _ | apply modTiers_keeps | apply apply_ite_keeps
    | split | dsimp only | refine keeps_of_snd (by with_reducible assumption) ?_ | refine keepsO_get (by with_reducible assumption) ?_

theorem moveFrame_keeps {s0 : State} (die f : Nat) {s : State}
    (hk : Keeps s0 s) : Keeps s0 (moveFrame die f s) := by
  conv => arg 2; fun; fun; fun; delta moveFrame
  repeat' first
    | with_reducible first
        | assumption | intro _ | apply modTiers_keeps | apply releaseKv_keeps | apply recoverFrames_keeps
        | apply keeps_ite
    | split | dsimp only | refine keeps_of_snd (by with_reducible assumption) ?_
    | refine keepsO_get (by with_reducible assumption) ?_ | apply free_keeps

theorem withdrawFrame_keeps {s0 : State} (die f : Nat) {s : State}
    (hk : Keeps s0 s) : Keeps s0 (withdrawFrame die f s) := by
  conv => arg 2; fun; fun; fun; delta withdrawFrame
  repeat' first
    | with_reducible first
        | assumption | intro _ | apply recoverFrames_keeps | apply moveFrame_keeps | apply modTiers_keeps
        | apply keeps_ite
    | split | dsimp only | refine keeps_of_snd (by with_reducible assumption) ?_ | refine keepsO_get (by with_reducible assumption) ?_

theorem refetchPc_keeps {s0 : State} (pc : Nat) {s : State}
    (hk : Keeps s0 s) : Keeps s0 (refetchPc pc s) := by
  conv => arg 2; fun; fun; delta refetchPc
  repeat' first
    | with_reducible first
        | assumption | intro _ | apply refetchRange_keeps | apply kvPageLost_keeps | apply keeps_foldl
        | apply keeps_foldl_snd | apply apply_ite_keeps
    | split | dsimp only | refine keeps_of_snd (by with_reducible assumption) ?_
    | refine keepsO_get (by with_reducible assumption) ?_ | apply stages_keeps
    | exact keeps_same hk ⟨rfl, rfl, rfl, rfl, rfl, rfl, rfl, rfl, rfl, rfl, rfl, rfl, rfl, ⟨rfl, rfl, rfl, rfl, rfl, rfl⟩, rfl⟩

theorem withdrawLast_keeps {s0 : State} (die : Nat) {s : State}
    (hk : Keeps s0 s) : Keeps s0 (withdrawLast die s) := by
  conv => arg 2; fun; fun; delta withdrawLast
  repeat' first
    | with_reducible first
        | assumption | intro _ | apply moveFrame_keeps | apply keeps_foldl | apply keeps_foldl_snd
    | split | dsimp only | refine keeps_of_snd (by with_reducible assumption) ?_ | refine keepsO_get (by with_reducible assumption) ?_

theorem retirePcs_keeps {s0 : State} (pcs : List Nat) {s : State}
    (hk : Keeps s0 s) : Keeps s0 (retirePcs pcs s) := by
  conv => arg 2; fun; fun; delta retirePcs
  repeat' first
    | with_reducible first
        | assumption | intro _ | apply modTiers_keeps | apply refetchPc_keeps | apply recordRepair_keeps
        | apply logPkg_keeps | apply totAdd_keeps | apply withdrawLast_keeps | apply keeps_ite | apply keeps_foldl
        | apply keeps_foldl_snd
    | split | dsimp only | refine keeps_of_snd (by with_reducible assumption) ?_ | refine keepsO_get (by with_reducible assumption) ?_

theorem retirePc_keeps {s0 : State} (pc : Nat) {s : State}
    (hk : Keeps s0 s) : Keeps s0 (retirePc pc s) := by
  conv => arg 2; fun; fun; delta retirePc
  repeat' first
    | with_reducible first
        | assumption | intro _ | apply retirePcs_keeps | apply checkSet_keeps | apply modTiers_keeps
        | apply recoverFrames_keeps | apply keeps_ite
    | split | dsimp only | refine keeps_of_snd (by with_reducible assumption) ?_ | refine keepsO_get (by with_reducible assumption) ?_

theorem trainingLost_keeps {s0 : State} (pc : Nat) {s : State}
    (hk : Keeps s0 s) : Keeps s0 (trainingLost pc s) := by
  conv => arg 2; fun; fun; delta trainingLost
  repeat' first
    | with_reducible first
        | assumption
    | exact id
    | with_reducible first
        | intro _ | apply retirePc_keeps | apply modCar_keeps | apply keeps_ite
    | split | dsimp only

theorem rowError_keeps {s0 : State} (pc row : Nat) {s : State}
    (hk : Keeps s0 s) : Keeps s0 (rowError pc row s) := by
  conv => arg 2; fun; fun; fun; delta rowError
  repeat' first
    | with_reducible first
        | assumption | intro _ | apply modTiers_keeps | apply retirePc_keeps | apply keeps_ite
    | split | dsimp only

theorem rowRepaired_keeps {s0 : State} (i : Nat) (spareLeft : Bool) {s : State}
    (hk : Keeps s0 s) : Keeps s0 (rowRepaired i spareLeft s) := by
  conv => arg 2; fun; fun; fun; delta rowRepaired
  repeat' first
    | with_reducible first
        | assumption | intro _ | apply modTiers_keeps | apply recordRepair_keeps | apply logPkg_keeps
        | apply totAdd_keeps | apply withdrawFrame_keeps | apply keeps_ite
    | split | dsimp only
    | exact keeps_same hk ⟨rfl, rfl, rfl, rfl, rfl, rfl, rfl, rfl, rfl, rfl, rfl, rfl, rfl, ⟨rfl, rfl, rfl, rfl, rfl, rfl⟩, rfl⟩

theorem frameMoved_keeps {s0 : State} (i : Nat) {s : State}
    (hk : Keeps s0 s) : Keeps s0 (frameMoved i s) := by
  conv => arg 2; fun; fun; delta frameMoved
  repeat' first
    | with_reducible first
        | assumption | intro _ | apply modTiers_keeps
    | split | dsimp only
    | exact keeps_same hk ⟨rfl, rfl, rfl, rfl, rfl, rfl, rfl, rfl, rfl, rfl, rfl, rfl, rfl, ⟨rfl, rfl, rfl, rfl, rfl, rfl⟩, rfl⟩

theorem actOnLoss_keeps {s0 : State} (pc : Nat) (lost : LostData) {s : State}
    (hk : Keeps s0 s) : Keeps s0 (actOnLoss pc lost s) := by
  conv => arg 2; fun; fun; fun; delta actOnLoss
  repeat' first
    | with_reducible first
        | assumption | intro _ | apply cntAdd_keeps | apply addRefetch_keeps | apply kvPageLost_keeps
        | apply declareFailed_keeps | apply modMirror_keeps | apply pairSend_keeps | apply confirmedStep_keeps
        | apply modTiers_keeps | apply keeps_ite | apply apply_ite_keeps
    | split | dsimp only | refine keeps_of_snd (by with_reducible assumption) ?_
    | exact keeps_same hk ⟨rfl, rfl, rfl, rfl, rfl, rfl, rfl, rfl, rfl, rfl, rfl, rfl, rfl, ⟨rfl, rfl, rfl, rfl, rfl, rfl⟩, rfl⟩

theorem hbmReadDone_keeps {s0 : State} (pc row : Nat) (lost : LostData) (outcome : ReadOutcome) {s : State}
    (hk : Keeps s0 s) : Keeps s0 (hbmReadDone pc row lost outcome s) := by
  conv => arg 2; fun; fun; fun; fun; fun; delta hbmReadDone
  repeat' first
    | with_reducible first
        | assumption | intro _ | apply cntAdd_keeps | apply rowError_keeps | apply actOnLoss_keeps
    | split

theorem rewriteUnit_keeps {s0 : State} (addr : Nat) {s : State}
    (hk : Keeps s0 s) : Keeps s0 (rewriteUnit addr s) := by
  conv => arg 2; fun; fun; delta rewriteUnit
  repeat' first
    | with_reducible first
        | assumption | intro _ | apply fillStage_keeps
    | split | dsimp only | refine keeps_of_snd (by with_reducible assumption) ?_ | refine keepsO_get (by with_reducible assumption) ?_

theorem refetchDone_keeps {s0 : State} (i : Nat) {s : State}
    (hk : Keeps s0 s) : Keeps s0 (refetchDone i s) := by
  conv => arg 2; fun; fun; delta refetchDone
  repeat' first
    | with_reducible first
        | assumption | intro _ | apply cntAdd_keeps | apply rewriteUnit_keeps | apply modTiers_keeps
        | apply turnWheel_keeps | apply keeps_ite
    | split | dsimp only
    | exact keeps_same hk ⟨rfl, rfl, rfl, rfl, rfl, rfl, rfl, rfl, rfl, rfl, rfl, rfl, rfl, ⟨rfl, rfl, rfl, rfl, rfl, rfl⟩, rfl⟩

end Sys2Proof.Machine
end

