-- ==== Sys2Proof/Laws/KeepsBond.lean ====
section
/-! SUPPORT. Every operation of Machine/Bond.lean keeps what no command takes away (Laws/Keeps.lean). -/

namespace Sys2Proof.Machine
theorem weightsBegin_keeps {s0 : State} (dma : Option (List Word)) (r : Request) {s : State}
    (hk : Keeps s0 s) : Keeps s0 (weightsBegin dma r s) := by
  conv => arg 2; fun; fun; fun; delta weightsBegin
  repeat' first
    | with_reducible first
        | assumption | intro _ | apply reply_keeps | apply dmaFailed_keeps | apply countRead_keeps
        | apply countWritten_keeps | apply modBnd_keeps | apply keeps_ite
    | split | dsimp only

theorem weightsShard_keeps {s0 : State} (dma : Option (List Byte)) (readBackOk : Bool) (r : Request) {s : State}
    (hk : Keeps s0 s) : Keeps s0 (weightsShard dma readBackOk r s) := by
  conv => arg 2; fun; fun; fun; fun; delta weightsShard
  repeat' first
    | with_reducible first
        | assumption | intro _ | apply modBnd_keeps | apply reply_keeps | apply dmaFailed_keeps
        | apply countWritten_keeps | apply totAdd_keeps | apply bondWriteFlat_keeps | apply countRead_keeps
        | apply keeps_ite
    | split | dsimp only

theorem weightsFinish_keeps {s0 : State} (r : Request) {s : State}
    (hk : Keeps s0 s) : Keeps s0 (weightsFinish r s) := by
  conv => arg 2; fun; fun; delta weightsFinish
  repeat' first
    | with_reducible first
        | assumption | intro _ | apply reply_keeps | apply logPkg_keeps | apply modBnd_keeps | apply complete_keeps
        | apply keeps_ite
    | split | dsimp only

theorem weightsAbort_keeps {s0 : State} (r : Request) {s : State}
    (hk : Keeps s0 s) : Keeps s0 (weightsAbort r s) := by
  conv => arg 2; fun; fun; delta weightsAbort
  repeat' first
    | with_reducible first
        | assumption | intro _ | apply reply_keeps | apply modBnd_keeps | apply keeps_ite
    | split | dsimp only

theorem weightsQuery_keeps {s0 : State} (r : Request) {s : State}
    (hk : Keeps s0 s) : Keeps s0 (weightsQuery r s) := by
  conv => arg 2; fun; fun; delta weightsQuery
  repeat' first
    | with_reducible first
        | assumption | intro _ | apply reply_keeps | apply keeps_ite
    | split

theorem weightsGroup_keeps {s0 : State} (r : Request) {s : State}
    (hk : Keeps s0 s) : Keeps s0 (weightsGroup r s) := by
  conv => arg 2; fun; fun; delta weightsGroup
  repeat' first
    | with_reducible first
        | assumption | intro _ | apply reply_keeps | apply modBnd_keeps | apply keeps_ite
    | split | dsimp only

theorem scrubEnd_keeps {s0 : State} {s : State}
    (hk : Keeps s0 s) : Keeps s0 (scrubEnd s) := by
  conv => arg 2; fun; delta scrubEnd
  repeat' first
    | with_reducible first
        | assumption | intro _ | apply modBnd_keeps | apply logPkg_keeps | apply keeps_ite
    | split | dsimp only

theorem scrubShard_keeps {s0 : State} (fails : PageFails) {s : State}
    (hk : Keeps s0 s) : Keeps s0 (scrubShard fails s) := by
  conv => arg 2; fun; fun; delta scrubShard
  repeat' first
    | with_reducible first
        | assumption | intro _ | apply totAdd_keeps | apply modBnd_keeps | apply scrubEnd_keeps
        | apply startRebuild_keeps | apply keeps_ite
    | split | dsimp only

end Sys2Proof.Machine
end

