-- ==== Sys2Proof/Laws/KeepsSteps.lean ====
section
/-! SUPPORT. Every operation of Machine/Steps.lean keeps what no command takes away (Laws/Keeps.lean). -/

namespace Sys2Proof.Machine
theorem journalPut_keeps {s0 : State} (p step a : Nat) (entry : List Byte) {s : State}
    (hk : Keeps s0 s) : Keeps s0 (journalPut p step a entry s) := by
  conv => arg 2; fun; fun; fun; fun; fun; delta journalPut
  repeat' first
    | with_reducible first
        | assumption | intro _ | apply hbmWrite_keeps | apply modJr_keeps
    | dsimp only

theorem answerInputs_keeps {s0 : State} {s : State}
    (hk : Keeps s0 s) : Keeps s0 (answerInputs s) := by
  conv => arg 2; fun; delta answerInputs
  repeat' first
    | with_reducible first
        | assumption | intro _ | apply reply_keeps | apply modStep_keeps | apply keeps_foldl
    | split | dsimp only

theorem mirrorInput_keeps {s0 : State} (p step : Nat) {s : State}
    (hk : Keeps s0 s) : Keeps s0 (mirrorInput p step s) := by
  conv => arg 2; fun; fun; fun; delta mirrorInput
  repeat' first
    | with_reducible first
        | assumption | intro _ | apply mirrorSend_keeps
    | split

theorem pushStep_keeps {s0 : State} (p : Nat) (r : StepRec) {s : State}
    (hk : Keeps s0 s) : Keeps s0 (pushStep p r s) := by
  conv => arg 2; fun; fun; fun; delta pushStep
  repeat' first
    | with_reducible first
        | assumption | intro _ | apply modRun_keeps
    | dsimp only

theorem openSeq_keeps {s0 : State} (p : Nat) (a : SeqArg) {s : State}
    (hk : Keeps s0 s) : KeepsO s0 (openSeq p a s) := by
  conv => arg 2; fun; fun; fun; delta openSeq
  repeat' first
    | with_reducible first
        | apply keepsO_none | apply keepsO_some | apply keepsO_ite | assumption | intro _ | apply modSlot_keeps
        | apply keeps_ite | apply keeps_foldl | apply keepsO_foldl
    | exact keepsO_val (by with_reducible assumption) | split | dsimp only

theorem openAll_keeps {s0 : State} (p : Nat) (as : List SeqArg) {s : State}
    (hk : Keeps s0 s) : KeepsO s0 (openAll p as s) := by
  conv => arg 2; fun; fun; fun; delta openAll
  repeat' first
    | with_reducible first
        | apply keepsO_none | apply keepsO_some | apply keepsO_ite | assumption | intro _ | apply openSeq_keeps
        | apply keeps_ite | apply keeps_foldl | apply keepsO_foldl
    | exact keepsO_val (by with_reducible assumption) | split | dsimp only
    | refine keepsO_get (by with_reducible assumption) ?_

theorem resubmit_keeps {s0 : State} (p : Nat) (r : Request) {s : State}
    (hk : Keeps s0 s) : Keeps s0 (resubmit p r s) := by
  conv => arg 2; fun; fun; fun; delta resubmit
  repeat' first
    | with_reducible first
        | assumption | intro _ | apply hostWrite_keeps | apply raiseMsix_keeps | apply modRun_keeps
        | apply reply_keeps | apply keeps_ite
    | split | dsimp only

theorem acceptStep_keeps {s0 : State} (p : Nat) (r : Request) (ws : List Word) (input : List Byte) {s : State}
    (hk : Keeps s0 s) : Keeps s0 (acceptStep p r ws input s) := by
  conv => arg 2; fun; fun; fun; fun; fun; delta acceptStep
  repeat' first
    | with_reducible first
        | assumption | intro _ | apply reply_keeps | apply openAll_keeps | apply journalPut_keeps
        | apply pushStep_keeps | apply mirrorInput_keeps | apply modStep_keeps | apply keeps_ite
    | split | dsimp only | refine keepsO_get (by with_reducible assumption) ?_

theorem stepSubmit_keeps {s0 : State} (seqs : Option (List Word)) (input : Option (List Byte)) (r : Request) {s : State}
    (hk : Keeps s0 s) : Keeps s0 (stepSubmit seqs input r s) := by
  conv => arg 2; fun; fun; fun; fun; delta stepSubmit
  repeat' first
    | with_reducible first
        | assumption | intro _ | apply reply_keeps | apply resubmit_keeps | apply dmaFailed_keeps
        | apply acceptStep_keeps | apply countRead_keeps | apply keeps_ite
    | split | dsimp only

theorem submitOrWake_keeps {s0 : State} (seqs : Option (List Word)) (input : Option (List Byte)) (r : Request) {s : State}
    (hk : Keeps s0 s) : Keeps s0 (submitOrWake seqs input r s) := by
  conv => arg 2; fun; fun; fun; fun; delta submitOrWake
  repeat' first
    | with_reducible first
        | assumption | intro _ | apply modPw_keeps | apply modJournal_keeps | apply stepSubmit_keeps | apply keeps_ite
    | split | dsimp only

theorem stepQuery_keeps {s0 : State} (r : Request) {s : State}
    (hk : Keeps s0 s) : Keeps s0 (stepQuery r s) := by
  conv => arg 2; fun; fun; delta stepQuery
  repeat' first
    | with_reducible first
        | assumption | intro _ | apply reply_keeps
    | split

theorem stepAbort_keeps {s0 : State} (r : Request) {s : State}
    (hk : Keeps s0 s) : Keeps s0 (stepAbort r s) := by
  conv => arg 2; fun; fun; delta stepAbort
  repeat' first
    | with_reducible first
        | assumption | intro _ | apply reply_keeps | apply withdrawStep_keeps | apply keeps_foldl
    | dsimp only

theorem writeSeqTable_keeps {s0 : State} (p : Nat) (r : StepRec) {s : State}
    (hk : Keeps s0 s) : Keeps s0 (writeSeqTable p r s) := by
  conv => arg 2; fun; fun; fun; delta writeSeqTable
  repeat' first
    | with_reducible first
        | assumption | intro _ | apply modKv_keeps
    | dsimp only

theorem admitNow_keeps {s0 : State} (p : Nat) (r : StepRec) (pages : List (Nat × Nat)) {s : State}
    (hk : Keeps s0 s) : Keeps s0 (admitNow p r pages s) := by
  conv => arg 2; fun; fun; fun; fun; delta admitNow
  repeat' first
    | with_reducible first
        | assumption | intro _ | apply modStep_keeps | apply writeSeqTable_keeps | apply chargeFrames_keeps
        | apply cntAdd_keeps | apply modCfg_keeps | apply startRuns_keeps | apply modRun_keeps | apply keeps_ite
    | split | dsimp only | refine keeps_of_snd (by with_reducible assumption) ?_ | refine keepsO_get (by with_reducible assumption) ?_

theorem allocAll_keeps {s0 s : State} (p : Nat) (qs : List (Nat × Nat × Nat)) (hk : Keeps s0 s) :
    KeepsO s0 (allocAll p qs s) := by
  induction qs generalizing s with
  | nil => exact keepsO_some hk
  | cons q qs ih =>
    unfold allocAll
    split
    · exact keepsO_none
    · exact ih (keepsO_get (by assumption) (allocPage_keeps _ _ _ _ hk))

theorem stepAdmit_keeps {s0 : State} (p : Nat) {s : State}
    (hk : Keeps s0 s) : Keeps s0 (stepAdmit p s) := by
  conv => arg 2; fun; fun; delta stepAdmit
  repeat' first
    | with_reducible first
        | assumption | intro _ | apply foldBoundary_keeps | apply complete_keeps | apply endStepWith_keeps
        | apply startReturn_keeps | apply allocAll_keeps | apply admitNow_keeps | apply preempt_keeps
        | apply awaitFrames_keeps | apply kvExhausted_keeps | apply keeps_ite | apply keeps_foldl
        | apply keeps_foldl_snd | apply apply_ite_keeps
    | split | dsimp only | refine keeps_of_snd (by with_reducible assumption) ?_ | refine keepsO_get (by with_reducible assumption) ?_

theorem countLatency_keeps {s0 : State} (p : Nat) (r : StepRec) (lat : Nat) {s : State}
    (hk : Keeps s0 s) : Keeps s0 (countLatency p r lat s) := by
  conv => arg 2; fun; fun; fun; fun; delta countLatency
  repeat' first
    | with_reducible first
        | assumption | intro _ | apply modStep_keeps | apply modRun_keeps | apply cntAdd_keeps | apply modFb_keeps
        | apply onceEvent_keeps | apply keeps_ite | apply apply_ite_keeps
    | split | dsimp only | refine keeps_of_snd (by with_reducible assumption) ?_ | refine keepsO_get (by with_reducible assumption) ?_

theorem release_keeps {s0 : State} (p : Nat) (r : StepRec) {s : State}
    (hk : Keeps s0 s) : Keeps s0 (release p r s) := by
  conv => arg 2; fun; fun; fun; delta release
  repeat' first
    | with_reducible first
        | assumption | intro _ | apply deliver_keeps | apply modStep_keeps | apply issuePush_keeps
        | apply mirrorSend_keeps | apply apply_ite_keeps
    | split | dsimp only | refine keeps_of_snd (by with_reducible assumption) ?_

theorem freeSlots_keeps {s0 : State} (p id : Nat) {s : State}
    (hk : Keeps s0 s) : Keeps s0 (freeSlots p id s) := by
  conv => arg 2; fun; fun; fun; delta freeSlots
  repeat' first
    | with_reducible first
        | assumption | intro _ | apply clearExchange_keeps
    | dsimp only
    | exact keeps_same hk ⟨rfl, rfl, rfl, rfl, rfl, rfl, rfl, rfl, rfl, rfl, rfl, rfl, rfl, ⟨rfl, rfl, rfl, rfl, rfl, rfl⟩, rfl⟩

theorem releaseEnds_keeps {s0 : State} (p : Nat) (r : StepRec) {s : State}
    (hk : Keeps s0 s) : Keeps s0 (releaseEnds p r s) := by
  conv => arg 2; fun; fun; fun; delta releaseEnds
  repeat' first
    | with_reducible first
        | assumption | intro _ | apply countLatency_keeps | apply freeSlots_keeps | apply deliver_keeps
        | apply modStep_keeps | apply apply_ite_keeps
    | split | dsimp only | refine keeps_of_snd (by with_reducible assumption) ?_ | refine keepsO_get (by with_reducible assumption) ?_

theorem latchStats_keeps {s0 : State} (p : Nat) (r : StepRec) {s : State}
    (hk : Keeps s0 s) : Keeps s0 (latchStats p r s) := by
  conv => arg 2; fun; fun; fun; delta latchStats
  repeat' first
    | with_reducible first
        | assumption | intro _ | apply cumAdd_keeps | apply modStat_keeps | apply keeps_ite
    | exact ringPush_length _ (by decide) ‹_› | split | dsimp only
    | exact keeps_same hk ⟨rfl, rfl, rfl, rfl, rfl, rfl, rfl, rfl, rfl, rfl, rfl, rfl, rfl, ⟨rfl, rfl, rfl, rfl, rfl, rfl⟩, rfl⟩

theorem commitStep_keeps {s0 : State} (p : Nat) (r : StepRec) {s : State}
    (hk : Keeps s0 s) : Keeps s0 (commitStep p r s) := by
  conv => arg 2; fun; fun; fun; delta commitStep
  repeat' first
    | with_reducible first
        | assumption | intro _ | apply modSlot_keeps | apply modRun_keeps | apply modStep_keeps | apply modJr_keeps
        | apply logEvent_keeps | apply modFb_keeps | apply keeps_ite | apply keeps_foldl
    | split | dsimp only

theorem boundary_keeps {s0 : State} (p : Nat) {s : State} (hk : Keeps s0 s) : Keeps s0 (boundary p s) := by
  have h3 : ∀ u, Keeps s0 u →
      Keeps s0 (if u.sec.stopping.isSome then modSec (fun x => { x with stopCommits := x.stopCommits + 1 }) u else u) :=
    fun u h => keeps_ite (fun _ => modSec_keeps _ ⟨rfl, rfl, rfl, rfl, rfl⟩ id id h) fun _ => h
  have h := h3 _ (trySwap_keeps p (freeEvicted_keeps p
    (foldBoundary_keeps p (modCfg_keeps p (fun c => if c.shadow = .staged then { c with drained := c.drained + 1 } else c) hk))))
  conv => arg 2; fun; fun; delta boundary
  exact keeps_ite (fun _ => closePart_keeps _ _ h) fun _ => h

theorem commitMirror_keeps {s0 : State} (p : Nat) (r : StepRec) {s : State}
    (hk : Keeps s0 s) : Keeps s0 (commitMirror p r s) := by
  conv => arg 2; fun; fun; fun; delta commitMirror
  repeat' first
    | with_reducible first
        | assumption | intro _ | apply modStep_keeps | apply mirrorSend_keeps | apply modCont_keeps
    | split | dsimp only

theorem commitAction_keeps {s0 : State} (p : Nat) (r : StepRec) {s : State}
    (hk : Keeps s0 s) : Keeps s0 (commitAction p r s) := by
  conv => arg 2; fun; fun; fun; delta commitAction
  repeat' first
    | with_reducible first
        | assumption | intro _ | apply commitMirror_keeps | apply modStep_keeps | apply release_keeps
        | apply releaseEnds_keeps | apply latchStats_keeps | apply boundary_keeps | apply commitStep_keeps
        | apply keeps_ite
    | split | dsimp only | refine keeps_of_snd (by with_reducible assumption) ?_ | refine keepsO_get (by with_reducible assumption) ?_

theorem stepCommit_keeps {s0 s : State} (p : Nat) (n : Nat)
    (hk : Keeps s0 s) : Keeps s0 (stepCommit p n s) := by
  induction n generalizing s with
  | zero => exact hk
  | succ n ih =>
    unfold stepCommit
    repeat' first
    | with_reducible first
        | assumption | intro _ | apply ih | apply commitAction_keeps | apply keeps_ite
    | split | dsimp only

end Sys2Proof.Machine
end

