-- ==== Sys2Proof/Laws/KeepsFabric.lean ====
section
/-! SUPPORT. Every operation of Machine/Fabric.lean keeps what no command takes away (Laws/Keeps.lean). -/

namespace Sys2Proof.Machine
theorem putDst_keeps {s0 : State} (x : DstStream) {s : State}
    (hk : Keeps s0 s) : Keeps s0 (putDst x s) := by
  conv => arg 2; fun; fun; delta putDst
  repeat' first
    | with_reducible first
        | assumption | intro _ | apply modFab_keeps | apply keeps_ite
    | split | dsimp only

theorem sendAck_keeps {s0 : State} (plane src job upto : Nat) {s : State}
    (hk : Keeps s0 s) : Keeps s0 (sendAck plane src job upto s) := by
  conv => arg 2; fun; fun; fun; fun; fun; delta sendAck
  repeat' first
    | with_reducible first
        | assumption | intro _ | apply transmit_keeps | apply putDst_keeps
    | dsimp only

theorem respond_keeps {s0 : State} (plane upto : Nat) (h : List Word) (op status addr : Nat) (data : List Byte) {s : State}
    (hk : Keeps s0 s) : Keeps s0 (respond plane upto h op status addr data s) := by
  conv => arg 2; fun; fun; fun; fun; fun; fun; fun; fun; delta respond
  repeat' first
    | with_reducible first
        | assumption | intro _ | apply sendAck_keeps | apply transmit_keeps | apply cntAdd_keeps | apply keeps_ite
    | split | dsimp only

theorem storeRefused_keeps {s0 : State} (p off : Nat) {s : State}
    (hk : Keeps s0 s) : Keeps s0 (storeRefused p off s) := by
  conv => arg 2; fun; fun; fun; delta storeRefused
  repeat' first
    | with_reducible first
        | assumption | intro _ | apply cntAdd_keeps | apply logEvent_keeps | apply modRun_keeps | apply keeps_ite
    | split | dsimp only

theorem replaySlotOf_keeps {s0 : State} (src : Nat) {s : State}
    (hk : Keeps s0 s) : Keeps s0 (replaySlotOf src s).2 := by
  conv => arg 2; arg 1; fun; fun; delta replaySlotOf
  repeat' first
    | with_reducible first
        | assumption | intro _ | apply draw_keeps | apply modFab_keeps | apply apply_ite_keeps
    | split | dsimp only

theorem keepAtomic_keeps {s0 : State} (plane : Nat) (h : List Word) (status result : Nat) {s : State}
    (hk : Keeps s0 s) : Keeps s0 (keepAtomic plane h status result s) := by
  conv => arg 2; fun; fun; fun; fun; fun; delta keepAtomic
  repeat' first
    | with_reducible first
        | assumption | intro _ | apply replaySlotOf_keeps | apply modFab_keeps | apply apply_ite_keeps
    | dsimp only

theorem freeReplay_keeps {s0 : State} (plane : Nat) (h : List Word) {s : State}
    (hk : Keeps s0 s) : Keeps s0 (freeReplay plane h s) := by
  conv => arg 2; fun; fun; fun; delta freeReplay
  repeat' first
    | with_reducible first
        | assumption | intro _ | apply modFab_keeps
    | dsimp only

theorem refuse_keeps {s0 : State} (plane : Nat) (h : List Word) (status : Nat) {s : State}
    (hk : Keeps s0 s) : Keeps s0 (refuse plane h status s) := by
  conv => arg 2; fun; fun; fun; fun; delta refuse
  repeat' first
    | with_reducible first
        | assumption | intro _ | apply respond_keeps | apply keepAtomic_keeps | apply keeps_ite
    | split

theorem applyLoad_keeps {s0 : State} (plane : Nat) (h : List Word) {s : State}
    (hk : Keeps s0 s) : Keeps s0 (applyLoad plane h s) := by
  conv => arg 2; fun; fun; fun; delta applyLoad
  repeat' first
    | with_reducible first
        | assumption | intro _ | apply refuse_keeps | apply respond_keeps | apply cntAdd_keeps | apply keeps_ite
    | split | dsimp only

theorem applyStore_keeps {s0 : State} (plane : Nat) (h : List Word) (data : List Byte) {s : State}
    (hk : Keeps s0 s) : Keeps s0 (applyStore plane h data s) := by
  conv => arg 2; fun; fun; fun; fun; delta applyStore
  repeat' first
    | with_reducible first
        | assumption | intro _ | apply refuse_keeps | apply storeRefused_keeps | apply hbmStore_keeps
        | apply cntAdd_keeps | apply keeps_ite
    | split | dsimp only

theorem applyAtomic_keeps {s0 : State} (plane : Nat) (h : List Word) (data : List Byte) {s : State}
    (hk : Keeps s0 s) : Keeps s0 (applyAtomic plane h data s) := by
  conv => arg 2; fun; fun; fun; fun; delta applyAtomic
  repeat' first
    | with_reducible first
        | assumption | intro _ | apply refuse_keeps | apply storeRefused_keeps | apply hbmStore_keeps
        | apply cntAdd_keeps | apply respond_keeps | apply keepAtomic_keeps | apply keeps_ite
    | split | dsimp only

theorem applyInbox_keeps {s0 : State} (plane : Nat) (h : List Word) (data : List Byte) {s : State}
    (hk : Keeps s0 s) : KeepsO s0 (applyInbox plane h data s) := by
  conv => arg 2; fun; fun; fun; fun; delta applyInbox
  repeat' first
    | with_reducible first
        | assumption | intro _ | apply keepsO_none | apply keepsO_some | apply keepsO_ite | apply refuse_keeps
        | apply storeRefused_keeps | apply landReturn_keeps | apply countReturn_keeps | apply storeRows_keeps
        | apply takeSlot_keeps | apply countPost_keeps | apply keeps_ite | apply apply_ite_keeps
    | split | dsimp only | refine keeps_of_snd (by with_reducible assumption) ?_ | refine keepsO_get (by with_reducible assumption) ?_

theorem applyBulk_keeps {s0 : State} (plane : Nat) (h : List Word) (data : List Byte) {s : State}
    (hk : Keeps s0 s) : KeepsO s0 (applyBulk plane h data s) := by
  conv => arg 2; fun; fun; fun; fun; delta applyBulk
  repeat' first
    | with_reducible first
        | assumption | intro _ | apply keepsO_none | apply keepsO_some | apply keepsO_ite | apply hbmReturn_keeps
        | apply applyInbox_keeps | apply refuse_keeps | apply storeRefused_keeps | apply bulkLand_keeps
        | apply cntAdd_keeps | apply keeps_ite
    | split | dsimp only | refine keeps_of_snd (by with_reducible assumption) ?_ | refine keepsO_get (by with_reducible assumption) ?_

theorem applyRelease_keeps {s0 : State} (plane : Nat) (h : List Word) (body : List Byte) {s : State}
    (hk : Keeps s0 s) : KeepsO s0 (applyRelease plane h body s) := by
  conv => arg 2; fun; fun; fun; fun; delta applyRelease
  repeat' first
    | with_reducible first
        | apply keepsO_none | apply keepsO_some | apply keepsO_ite | assumption | intro _ | apply modJr_keeps
        | apply refuse_keeps | apply journalPut_keeps | apply pushStep_keeps | apply keeps_ite
    | split | dsimp only

theorem applyJournal_keeps {s0 : State} (plane : Nat) (h : List Word) (data : List Byte) {s : State}
    (hk : Keeps s0 s) : KeepsO s0 (applyJournal plane h data s) := by
  conv => arg 2; fun; fun; fun; fun; delta applyJournal
  repeat' first
    | with_reducible first
        | apply keepsO_none | apply keepsO_some | apply keepsO_ite | assumption | intro _ | apply refuse_keeps
        | apply applyRelease_keeps | apply modJr_keeps | apply keeps_ite
    | split | dsimp only | refine keepsO_get (by with_reducible assumption) ?_

theorem applyEntry_keeps {s0 : State} (h : List Word) (m : EMap) (bs : List Byte) {s : State}
    (hk : Keeps s0 s) : KeepsO s0 (applyEntry h m bs s) := by
  conv => arg 2; fun; fun; fun; fun; delta applyEntry
  repeat' first
    | with_reducible first
        | assumption | intro _ | apply keepsO_none | apply keepsO_some | apply keepsO_ite | apply placeEntry_keeps
        | apply entryArrives_keeps | apply keeps_ite
    | split | dsimp only | refine keeps_of_snd (by with_reducible assumption) ?_ | refine keepsO_get (by with_reducible assumption) ?_

theorem setFrag_keeps {s0 : State} (plane : Nat) (h : List Word) (f : Option (List Word × List Byte)) {s : State}
    (hk : Keeps s0 s) : Keeps s0 (setFrag plane h f s) := by
  conv => arg 2; fun; fun; fun; fun; delta setFrag
  repeat' first
    | with_reducible first
        | assumption | intro _ | apply putDst_keeps

theorem applyFirst_keeps {s0 : State} (plane : Nat) (h : List Word) (data : List Byte) {s : State}
    (hk : Keeps s0 s) : KeepsO s0 (applyFirst plane h data s) := by
  conv => arg 2; fun; fun; fun; fun; delta applyFirst
  repeat' first
    | with_reducible first
        | apply keepsO_none | apply keepsO_some | apply keepsO_ite | assumption | intro _ | apply refuse_keeps
        | apply applyEntry_keeps | apply setFrag_keeps | apply keeps_ite
    | split | refine keepsO_get (by with_reducible assumption) ?_

theorem applyFurther_keeps {s0 : State} (plane : Nat) (h : List Word) (data : List Byte) (f : Option (List Word × List Byte)) {s : State}
    (hk : Keeps s0 s) : KeepsO s0 (applyFurther plane h data f s) := by
  conv => arg 2; fun; fun; fun; fun; fun; delta applyFurther
  repeat' first
    | with_reducible first
        | apply keepsO_none | apply keepsO_some | apply keepsO_ite | assumption | intro _ | apply refuse_keeps
        | apply applyEntry_keeps | apply setFrag_keeps | apply keeps_ite
    | split | refine keepsO_get (by with_reducible assumption) ?_

theorem applyClose_keeps {s0 : State} (h : List Word) (data : List Byte) {s : State}
    (hk : Keeps s0 s) : KeepsO s0 (applyClose h data s) := by
  conv => arg 2; fun; fun; fun; delta applyClose
  repeat' first
    | with_reducible first
        | apply keepsO_none | apply keepsO_some | apply keepsO_ite | assumption | intro _ | apply recordClose_keeps
        | apply keeps_ite
    | split | dsimp only

theorem tagDiffers_keeps {s0 : State} (m : Nat) {s : State}
    (hk : Keeps s0 s) : Keeps s0 (tagDiffers m s) := by
  conv => arg 2; fun; fun; delta tagDiffers
  repeat' first
    | with_reducible first
        | assumption | intro _ | apply modBnd_keeps | apply logPkg_keeps | apply keeps_ite
    | split | dsimp only

theorem applyShardRead_keeps {s0 : State} (plane : Nat) (h : List Word) (data : List Byte) {s : State}
    (hk : Keeps s0 s) : Keeps s0 (applyShardRead plane h data s) := by
  conv => arg 2; fun; fun; fun; fun; delta applyShardRead
  repeat' first
    | with_reducible first
        | assumption | intro _ | apply tagDiffers_keeps | apply respond_keeps | apply totAdd_keeps | apply keeps_ite
        | apply keeps_foldl
    | split | dsimp only

theorem warmRungs_keeps {s0 : State} (data : List Byte) {s : State}
    (hk : Keeps s0 s) : Keeps s0 (warmRungs data s) := by
  conv => arg 2; fun; fun; delta warmRungs
  repeat' first
    | with_reducible first
        | assumption | intro _ | apply askStage_keeps | apply keeps_foldl | apply keeps_foldl_snd
        | apply apply_ite_keeps
    | split | dsimp only | refine keeps_of_snd (by with_reducible assumption) ?_ | refine keepsO_get (by with_reducible assumption) ?_

theorem applyMirrorWrite_keeps {s0 : State} (plane : Nat) (h : List Word) (data : List Byte) {s : State}
    (hk : Keeps s0 s) : Keeps s0 (applyMirrorWrite plane h data s) := by
  conv => arg 2; fun; fun; fun; fun; delta applyMirrorWrite
  repeat' first
    | with_reducible first
        | assumption | intro _ | apply refuse_keeps | apply mirrorWrite_keeps | apply respond_keeps
        | apply warmRungs_keeps | apply pairSend_keeps | apply keeps_ite | apply apply_ite_keeps
    | split | dsimp only | refine keeps_of_snd (by with_reducible assumption) ?_

theorem applyMirrorFetch_keeps {s0 : State} (plane : Nat) (h : List Word) (data : List Byte) {s : State}
    (hk : Keeps s0 s) : Keeps s0 (applyMirrorFetch plane h data s) := by
  conv => arg 2; fun; fun; fun; fun; delta applyMirrorFetch
  repeat' first
    | with_reducible first
        | assumption | intro _ | apply refuse_keeps | apply respond_keeps | apply keeps_ite | apply keeps_foldl
    | split | dsimp only

theorem applyMirrorAck_keeps {s0 : State} (plane : Nat) (h : List Word) (data : List Byte) {s : State}
    (hk : Keeps s0 s) : Keeps s0 (applyMirrorAck plane h data s) := by
  conv => arg 2; fun; fun; fun; fun; delta applyMirrorAck
  repeat' first
    | with_reducible first
        | assumption | intro _ | apply refuse_keeps | apply respond_keeps | apply modCont_keeps | apply modStep_keeps
        | apply keeps_ite
    | split | dsimp only

theorem wakeQuay_keeps {s0 : State} {s : State}
    (hk : Keeps s0 s) : Keeps s0 (wakeQuay s) := by
  conv => arg 2; fun; delta wakeQuay
  repeat' first
    | with_reducible first
        | assumption | intro _ | apply modPw_keeps | apply keeps_ite
    | split | dsimp only

theorem applyReq_keeps {s0 : State} (plane : Nat) (h : List Word) (data : List Byte) {s : State}
    (hk : Keeps s0 s) : KeepsO s0 (applyReq plane h data s) := by
  conv => arg 2; fun; fun; fun; fun; delta applyReq
  repeat' first
    | with_reducible first
        | apply keepsO_none | apply keepsO_some | apply keepsO_ite | assumption | intro _ | apply setFrag_keeps
        | apply refuse_keeps | apply wakeQuay_keeps | apply applyLoad_keeps | apply applyStore_keeps
        | apply applyAtomic_keeps | apply applyFirst_keeps | apply applyClose_keeps | apply applyFurther_keeps
        | apply applyJournal_keeps | apply applyBulk_keeps | apply applyShardRead_keeps | apply applyMirrorWrite_keeps
        | apply applyMirrorFetch_keeps | apply applyMirrorAck_keeps | apply keeps_ite
    | split | dsimp only | refine keepsO_get (by with_reducible assumption) ?_

theorem noteArrival_keeps {s0 : State} (plane : Nat) (h : List Word) (data : List Byte) {s : State}
    (hk : Keeps s0 s) : Keeps s0 (noteArrival plane h data s) := by
  conv => arg 2; fun; fun; fun; fun; delta noteArrival
  repeat' first
    | with_reducible first
        | assumption | intro _ | apply entryArrives_keeps | apply keeps_ite | apply apply_ite_keeps
    | split | dsimp only | refine keeps_of_snd (by with_reducible assumption) ?_ | refine keepsO_get (by with_reducible assumption) ?_

theorem advance_keeps {s0 s : State} (plane src job : Nat) (n : Nat)
    (hk : Keeps s0 s) : Keeps s0 (advance plane src job n s) := by
  induction n generalizing s with
  | zero => exact hk
  | succ n ih =>
    unfold advance
    repeat' first
    | with_reducible first
        | assumption | intro _ | apply ih | apply applyReq_keeps | apply noteArrival_keeps | apply putDst_keeps
        | apply apply_ite_keeps
    | split | dsimp only | refine keeps_of_snd (by with_reducible assumption) ?_ | refine keepsO_get (by with_reducible assumption) ?_

theorem pumpStreams_keeps {s0 : State} {s : State}
    (hk : Keeps s0 s) : Keeps s0 (pumpStreams s) := by
  conv => arg 2; fun; delta pumpStreams
  repeat' first
    | with_reducible first
        | assumption | intro _ | apply drainWait_keeps | apply advance_keeps | apply keeps_ite | apply keeps_foldl
    | split | dsimp only

theorem duplicate_keeps {s0 : State} (plane : Nat) (h : List Word) {s : State}
    (hk : Keeps s0 s) : Keeps s0 (duplicate plane h s) := by
  conv => arg 2; fun; fun; fun; delta duplicate
  repeat' first
    | with_reducible first
        | assumption | intro _ | apply cntAdd_keeps | apply respond_keeps | apply totAdd_keeps | apply sendAck_keeps
        | apply keeps_ite
    | split | dsimp only

theorem arriveReq_keeps {s0 : State} (p : Packet) {s : State}
    (hk : Keeps s0 s) : Keeps s0 (arriveReq p s) := by
  conv => arg 2; fun; fun; delta arriveReq
  repeat' first
    | with_reducible first
        | assumption | intro _ | apply totAdd_keeps | apply freeReplay_keeps | apply duplicate_keeps
        | apply advance_keeps | apply putDst_keeps | apply keeps_ite
    | split | dsimp only

theorem takePacket_keeps {s0 : State} (p : Packet) (ok : Bool) (f : Packet → State → State) {s : State} (hf : ∀ x0 x1, Keeps s0 x1 → Keeps s0 (f x0 x1))
    (hk : Keeps s0 s) : Keeps s0 (takePacket p ok f s) := by
  conv => arg 2; fun; fun; fun; fun; delta takePacket
  repeat' first
    | with_reducible first
        | assumption | intro _ | apply hf | apply keeps_ite
    | split

theorem arriveUnknown_keeps {s0 : State} (p : Packet) {s : State}
    (hk : Keeps s0 s) : Keeps s0 (arriveUnknown p s) := by
  conv => arg 2; fun; fun; delta arriveUnknown
  repeat' first
    | with_reducible first
        | assumption | intro _ | apply arriveReq_keeps | apply totAdd_keeps | apply keeps_ite
    | split

theorem completion_keeps {s0 : State} (dst : Nat) (r : OutReq) (status : Nat) {s : State}
    (hk : Keeps s0 s) : Keeps s0 (completion dst r status s) := by
  conv => arg 2; fun; fun; fun; fun; delta completion
  repeat' first
    | with_reducible first
        | assumption | intro _ | apply cntAdd_keeps | apply sendQpush_keeps | apply creditBack_keeps
        | apply programFault_keeps | apply modStep_keeps | apply memberFails_keeps | apply sendFetch_keeps
        | apply dropFetch_keeps | apply pageUnfetched_keeps | apply keeps_ite
    | split | dsimp only

theorem finishReq_keeps {s0 : State} (plane dst job : Nat) (r : OutReq) (status : Nat) {s : State}
    (hk : Keeps s0 s) : Keeps s0 (finishReq plane dst job r status s) := by
  conv => arg 2; fun; fun; fun; fun; fun; fun; delta finishReq
  repeat' first
    | with_reducible first
        | assumption | intro _ | apply completion_keeps | apply putStream_keeps | apply answerInputs_keeps
        | apply keeps_ite
    | split | dsimp only

theorem noteResponse_keeps {s0 : State} (plane dst job : Nat) {s : State}
    (hk : Keeps s0 s) : Keeps s0 (noteResponse plane dst job s) := by
  conv => arg 2; fun; fun; fun; fun; delta noteResponse
  repeat' first
    | with_reducible first
        | assumption | intro _ | apply putStream_keeps

theorem arriveResp_keeps {s0 : State} (ops : List Nat) (f : OutReq → Packet → State → State) (p : Packet) {s : State} (hf : ∀ x0 x1 x2, Keeps s0 x2 → Keeps s0 (f x0 x1 x2))
    (hk : Keeps s0 s) : Keeps s0 (arriveResp ops f p s) := by
  conv => arg 2; fun; fun; fun; fun; delta arriveResp
  repeat' first
    | with_reducible first
        | assumption | intro _ | apply totAdd_keeps | apply pumpDst_keeps | apply noteResponse_keeps | apply hf
        | apply keeps_ite
    | split | dsimp only

theorem byStatus_keeps {s0 : State} (r : OutReq) (p : Packet) {s : State}
    (hk : Keeps s0 s) : Keeps s0 (byStatus r p s) := by
  conv => arg 2; fun; fun; fun; delta byStatus
  repeat' first
    | with_reducible first
        | assumption | intro _ | apply finishReq_keeps

theorem arriveAck_keeps {s0 : State} (p : Packet) {s : State}
    (hk : Keeps s0 s) : Keeps s0 (arriveAck p s) := by
  conv => arg 2; fun; fun; delta arriveAck
  repeat' first
    | with_reducible first
        | assumption | intro _ | apply totAdd_keeps | apply pumpDst_keeps | apply finishReq_keeps | apply keeps_ite
        | apply keeps_foldl
    | split | dsimp only

theorem fetchPiece_keeps {s0 : State} (r : OutReq) (p : Packet) {s : State}
    (hk : Keeps s0 s) : Keeps s0 (fetchPiece r p s) := by
  conv => arg 2; fun; fun; fun; delta fetchPiece
  repeat' first
    | with_reducible first
        | assumption | intro _ | apply byStatus_keeps | apply modCont_keeps | apply hbmStore_keeps
        | apply cntAdd_keeps | apply finishReq_keeps | apply dropFetch_keeps | apply sendFetch_keeps | apply keeps_ite
        | apply keeps_foldl
    | split | dsimp only

theorem serviceReply_keeps {s0 : State} (r : OutReq) (p : Packet) {s : State}
    (hk : Keeps s0 s) : Keeps s0 (serviceReply r p s) := by
  conv => arg 2; fun; fun; fun; delta serviceReply
  repeat' first
    | with_reducible first
        | assumption | intro _ | apply byStatus_keeps | apply memberPiece_keeps | apply fetchPiece_keeps
        | apply keeps_ite
    | split | dsimp only

theorem ackTimer_keeps {s0 : State} (plane src job : Nat) {s : State}
    (hk : Keeps s0 s) : Keeps s0 (ackTimer plane src job s) := by
  conv => arg 2; fun; fun; fun; fun; delta ackTimer
  repeat' first
    | with_reducible first
        | assumption | intro _ | apply sendAck_keeps | apply keeps_ite
    | split | dsimp only

theorem resendReq_keeps {s0 : State} (plane dst job n : Nat) (r : OutReq) {s : State}
    (hk : Keeps s0 s) : Keeps s0 (resendReq plane dst job n r s) := by
  conv => arg 2; fun; fun; fun; fun; fun; fun; delta resendReq
  repeat' first
    | with_reducible first
        | assumption | intro _ | apply transmit_keeps | apply putStream_keeps | apply keeps_ite
    | split | dsimp only

theorem resendTimeout_keeps {s0 : State} (plane dst job seq : Nat) {s : State}
    (hk : Keeps s0 s) : Keeps s0 (resendTimeout plane dst job seq s) := by
  conv => arg 2; fun; fun; fun; fun; fun; delta resendTimeout
  repeat' first
    | with_reducible first
        | assumption | intro _ | apply resendReq_keeps | apply cntAdd_keeps | apply logPkg_keeps | apply modMgr_keeps
        | apply putStream_keeps | apply keeps_ite
    | split | dsimp only

theorem resumeStreams_keeps {s0 : State} (plane : Nat) {s : State}
    (hk : Keeps s0 s) : Keeps s0 (resumeStreams plane s) := by
  conv => arg 2; fun; fun; delta resumeStreams
  repeat' first
    | with_reducible first
        | assumption | intro _ | apply resendReq_keeps | apply putStream_keeps | apply pumpDst_keeps
        | apply keeps_foldl
    | dsimp only

theorem pumpSources_keeps {s0 : State} {s : State}
    (hk : Keeps s0 s) : Keeps s0 (pumpSources s) := by
  conv => arg 2; fun; delta pumpSources
  repeat' first
    | with_reducible first
        | assumption | intro _ | apply pumpDst_keeps | apply keeps_foldl
    | dsimp only

theorem resultTimer_keeps {s0 : State} (plane dst job : Nat) {s : State}
    (hk : Keeps s0 s) : Keeps s0 (resultTimer plane dst job s) := by
  conv => arg 2; fun; fun; fun; fun; delta resultTimer
  repeat' first
    | with_reducible first
        | assumption | intro _ | apply issue_keeps | apply keeps_ite | apply apply_ite_keeps
    | split

end Sys2Proof.Machine
end

