-- ==== Sys2Proof/Laws/KeepsFailover.lean ====
section
/-! SUPPORT. Every operation of Machine/Failover.lean keeps what no command takes away (Laws/Keeps.lean). -/

namespace Sys2Proof.Machine
theorem setPairing_keeps {s0 : State} (e : Job) {s : State}
    (hk : Keeps s0 s) : Keeps s0 (setPairing e s) := by
  conv => arg 2; fun; fun; delta setPairing
  repeat' first
    | with_reducible first
        | assumption | intro _ | apply modCont_keeps | apply standbyLost_keeps | apply standbyCheck_keeps
        | apply keeps_ite
    | split | dsimp only

theorem replaySteps_keeps {s0 : State} (p : Nat) {s : State}
    (hk : Keeps s0 s) : Keeps s0 (replaySteps p s) := by
  conv => arg 2; fun; fun; delta replaySteps
  repeat' first
    | with_reducible first
        | assumption | intro _ | apply totAdd_keeps | apply rerunStep_keeps | apply keeps_foldl
    | dsimp only

theorem loseHolder_keeps {s0 : State} {s : State}
    (hk : Keeps s0 s) : Keeps s0 (loseHolder s) := by
  conv => arg 2; fun; delta loseHolder
  repeat' first
    | with_reducible first
        | assumption | intro _ | apply modStep_keeps | apply modCont_keeps | apply answerInputs_keeps
        | apply logPkg_keeps | apply keeps_foldl
    | split | dsimp only

theorem takePage_keeps {s0 : State} (sp : Nat) (key : Nat) (rs : List (Nat × List Byte)) {s : State}
    (hk : Keeps s0 s) : Keeps s0 (takePage sp key rs s) := by
  conv => arg 2; fun; fun; fun; fun; delta takePage
  repeat' first
    | with_reducible first
        | assumption | intro _ | apply allocPage_keeps | apply hbmStore_keeps | apply keeps_foldl
    | split | dsimp only | refine keepsO_get (by with_reducible assumption) ?_

theorem takeSlots_keeps {s0 : State} (sp : Nat) (m : MirrorPart) {s : State}
    (hk : Keeps s0 s) : Keeps s0 (takeSlots sp m s) := by
  conv => arg 2; fun; fun; fun; delta takeSlots
  repeat' first
    | with_reducible first
        | assumption | intro _ | apply draw_keeps | apply modSlot_keeps | apply logEvent_keeps | apply takePage_keeps
        | apply keeps_ite | apply keeps_foldl | apply keeps_foldl_snd | apply apply_ite_keeps
    | split | dsimp only | refine keeps_of_snd (by with_reducible assumption) ?_ | refine keepsO_get (by with_reducible assumption) ?_

theorem takeInputs_keeps {s0 : State} (sp : Nat) (m : MirrorPart) {s : State}
    (hk : Keeps s0 s) : Keeps s0 (takeInputs sp m s) := by
  conv => arg 2; fun; fun; fun; delta takeInputs
  repeat' first
    | with_reducible first
        | assumption | intro _ | apply modCont_keeps | apply totAdd_keeps | apply journalPut_keeps
        | apply pushStep_keeps | apply keeps_foldl
    | split | dsimp only

theorem takeStage2_keeps {s0 : State} (sp : Nat) (m : MirrorPart) {s : State}
    (hk : Keeps s0 s) : Keeps s0 (takeStage2 sp m s) := by
  conv => arg 2; fun; fun; fun; delta takeStage2
  repeat' first
    | with_reducible first
        | assumption | intro _ | apply modCfg_keeps | apply modRun_keeps | apply modKv_keeps | apply hbmStore_keeps
        | apply modFb_keeps | apply takeInputs_keeps | apply takeSlots_keeps | apply keeps_foldl
    | dsimp only

theorem settleCommit_keeps {s0 : State} {s : State}
    (hk : Keeps s0 s) : Keeps s0 (settleCommit s) := by
  conv => arg 2; fun; delta settleCommit
  repeat' first
    | with_reducible first
        | assumption | intro _ | apply stepCommit_keeps | apply keeps_ite
    | split

theorem dropStaged_keeps {s0 : State} (p : Nat) {s : State}
    (hk : Keeps s0 s) : Keeps s0 (dropStaged p s) := by
  conv => arg 2; fun; fun; delta dropStaged
  repeat' first
    | with_reducible first
        | assumption | intro _ | apply logEvent_keeps | apply modCfg_keeps | apply keeps_ite | apply keeps_foldl
    | dsimp only

theorem activate_keeps {s0 : State} (P : Nat) {s : State}
    (hk : Keeps s0 s) : Keeps s0 (activate P s) := by
  conv => arg 2; fun; fun; delta activate
  repeat' first
    | with_reducible first
        | assumption | intro _ | apply settleCommit_keeps | apply dropStaged_keeps | apply swapBank_keeps | apply totAdd_keeps | apply rerunStep_keeps
        | apply modCont_keeps | apply draw_keeps | apply takeStage2_keeps | apply standbyLost_keeps
        | apply modPw_keeps | apply logPkg_keeps | apply keeps_ite | apply keeps_foldl | apply keeps_foldl_snd
        | apply apply_ite_keeps
    | split | dsimp only | refine keeps_of_snd (by with_reducible assumption) ?_ | refine keepsO_get (by with_reducible assumption) ?_

theorem checkReplays_keeps {s0 : State} {s : State}
    (hk : Keeps s0 s) : Keeps s0 (checkReplays s) := by
  conv => arg 2; fun; delta checkReplays
  repeat' first
    | with_reducible first
        | assumption | intro _ | apply modCont_keeps | apply logPkg_keeps | apply totAdd_keeps | apply keeps_ite
        | apply keeps_foldl
    | split | dsimp only

theorem commitOn_keeps {s0 : State} (p : Nat) {s : State}
    (hk : Keeps s0 s) : Keeps s0 (commitOn p s) := by
  conv => arg 2; fun; fun; delta commitOn
  repeat' first
    | with_reducible first
        | assumption | intro _ | apply checkReplays_keeps | apply pumpStreams_keeps | apply stepCommit_keeps

end Sys2Proof.Machine
end

