-- ==== Sys2Proof/Laws/KeepsIdent.lean ====
section
/-! SUPPORT. Every operation of Machine/Ident.lean keeps what no command takes away (Laws/Keeps.lean). -/

namespace Sys2Proof.Machine
theorem setSlot_keeps {s0 : State} (b : Bool) (ws : List Word) {s : State}
    (hk : Keeps s0 s) : Keeps s0 (setSlot b ws s) := by
  conv => arg 2; fun; fun; fun; delta setSlot
  repeat' first
    | with_reducible first
        | assumption
    | exact id
    | with_reducible first
        | intro _ | apply modBoot_keeps | apply keeps_ite
    | exact rfl | exact Nat.le_refl _ | split | dsimp only

theorem evidence_keeps {s0 : State} (m : Nat) {s : State}
    (hk : Keeps s0 s) : Keeps s0 (evidence m s).2 := by
  conv => arg 2; arg 1; fun; fun; delta evidence
  repeat' first
    | with_reducible first
        | assumption | intro _ | apply draw_keeps | apply apply_ite_keeps
    | dsimp only

end Sys2Proof.Machine
end

