-- ==== Sys2Proof/Laws/KeepsUnseal.lean ====
section
/-! SUPPORT. Every operation of Machine/Unseal.lean keeps what no command takes away (Laws/Keeps.lean). -/

namespace Sys2Proof.Machine
theorem enterLife_keeps {s0 : State} (n : Nat) {s : State} (hl : LifeOk s0 → n ≤ 4) (hr : Retired s0 → n = 4)
    (hk : Keeps s0 s) : Keeps s0 (enterLife n s) :=
  setInt_keeps _ (logPkg_keeps _ _ _ _ (modSec_keeps_from _ ⟨rfl, rfl, rfl, rfl, rfl⟩ (fun a b => ⟨hl a, b.2⟩)
    (fun a b => ⟨hr a, b.2⟩) hk))

theorem eraseReturn_keeps {s0 : State} {s : State} (hk : Keeps s0 s) : Keeps s0 (eraseReturn s) := by
  have h1 : Keeps s0 { s with x := { s.x with bond := [] } } :=
    keeps_trans hk ⟨rfl, List.prefix_refl _, fun m => ⟨m.1, m.2.1, rfl⟩, id, id, id, id, ⟨rfl, rfl, rfl, rfl, rfl, rfl⟩, Nat.le_refl _, id⟩
  exact modBoot_keeps _ rfl (Nat.le_refl _) id (modSec_keeps _ ⟨rfl, rfl, rfl, rfl, rfl⟩ id id (modBnd_keeps _ h1))

theorem stopSteps_keeps {s0 : State} {s : State}
    (hk : Keeps s0 s) : Keeps s0 (stopSteps s) := by
  conv => arg 2; fun; delta stopSteps
  repeat' first
    | with_reducible first
        | assumption
    | exact id
    | with_reducible first
        | intro _ | apply endStepWith_keeps | apply modSec_keeps | apply keeps_foldl
    | exact ⟨rfl, rfl, rfl, rfl, rfl⟩ | dsimp only

theorem clearPart_keeps {s0 : State} (p : Nat) {s : State}
    (hk : Keeps s0 s) : Keeps s0 (clearPart p s) := by
  conv => arg 2; fun; fun; delta clearPart
  repeat' first
    | with_reducible first
        | assumption | intro _ | apply answerEvicts_keeps | apply withdrawStep_keeps | apply modPart_keeps
        | apply keeps_ite | apply keeps_foldl
    | split | dsimp only

theorem endService_keeps {s0 : State} {s : State} (hk : Keeps s0 s) : Keeps s0 (endService s) := by
  have h1 := keeps_foldl (xs := s.parts.map fun q => q.1) (fun _ p h => clearPart_keeps p h) hk
  exact logPkg_keeps _ _ _ _ (modBnd_keeps _ (keeps_same h1 ⟨rfl, rfl, rfl, rfl, rfl, rfl, rfl, rfl, rfl, rfl, rfl, rfl, rfl, ⟨rfl, rfl, rfl, rfl, rfl, rfl⟩, rfl⟩))

theorem recordLife_keeps {s0 : State} (n : Nat) {s : State} (hl : LifeOk s0 → n ≤ 4) (hr : Retired s0 → n = 4)
    (hk : Keeps s0 s) : Keeps s0 (recordLife n s) := by
  conv => arg 2; fun; fun; delta recordLife
  refine keeps_ite (fun h => ?_) fun _ => enterLife_keeps _ hl hr hk
  subst h
  exact eraseReturn_keeps (enterLife_keeps _ hl hr hk)

theorem finishStop_keeps {s0 : State} {s : State} (hk : Keeps s0 s) : Keeps s0 (finishStop s) := by
  conv => arg 2; fun; delta finishStop
  split
  · exact hk
  · rename_i n r e
    refine keeps_ite (fun _ => hk) fun _ => reply_keeps _ _ _ (recordLife_keeps _ (fun l => ?_) (fun d => ?_) (modSec_keeps _ ⟨rfl, rfl, rfl, rfl, rfl⟩
      (fun l => ⟨l.1, fun _ _ e => nomatch e⟩) (fun d => ⟨d.1, rfl⟩) (endService_keeps (stopSteps_keeps hk))))
    · have := (hk.life l).2 n r e
      omega
    · have := (hk.retired d).2
      rw [e] at this
      exact nomatch this

end Sys2Proof.Machine
end

