-- ==== Sys2Proof/Laws/KeepsManager.lean ====
section
/-! SUPPORT. Every operation of Machine/Manager.lean keeps what no command takes away (Laws/Keeps.lean). -/

namespace Sys2Proof.Machine
theorem putJob_keeps {s0 : State} (e : Job) {s : State}
    (hk : Keeps s0 s) : Keeps s0 (putJob e s) := by
  conv => arg 2; fun; fun; delta putJob
  repeat' first
    | with_reducible first
        | assumption | intro _ | apply modFab_keeps | apply keeps_ite
    | split | dsimp only

theorem clearJob_keeps {s0 : State} (j status : Nat) {s : State}
    (hk : Keeps s0 s) : Keeps s0 (clearJob j status s) := by
  conv => arg 2; fun; fun; fun; delta clearJob
  repeat' first
    | with_reducible first
        | assumption | intro _ | apply modFab_keeps | apply finishReq_keeps | apply answerInputs_keeps
        | apply keeps_foldl
    | dsimp only

theorem teardownHere_keeps {s0 : State} (j g : Nat) {s : State}
    (hk : Keeps s0 s) : Keeps s0 (teardownHere j g s) := by
  conv => arg 2; fun; fun; fun; delta teardownHere
  repeat' first
    | with_reducible first
        | assumption | intro _ | apply modCont_keeps | apply putJob_keeps | apply discardSteps_keeps
        | apply clearJob_keeps | apply loseHolder_keeps | apply logPkg_keeps | apply keeps_ite | apply keeps_foldl
    | split | dsimp only

theorem leaveJob_keeps {s0 : State} (e : Job) {s : State}
    (hk : Keeps s0 s) : Keeps s0 (leaveJob e s) := by
  conv => arg 2; fun; fun; delta leaveJob
  repeat' first
    | with_reducible first
        | assumption | intro _ | apply modFab_keeps | apply clearJob_keeps | apply logPkg_keeps | apply modCont_keeps
        | apply finishStop_keeps | apply modHm_keeps | apply keeps_ite
    | split | dsimp only

theorem enterJob_keeps {s0 : State} (e : Job) {s : State}
    (hk : Keeps s0 s) : Keeps s0 (enterJob e s) := by
  conv => arg 2; fun; fun; delta enterJob
  repeat' first
    | with_reducible first
        | assumption | intro _ | apply activate_keeps | apply putJob_keeps | apply logPkg_keeps | apply clearJob_keeps
        | apply setPairing_keeps | apply replaySteps_keeps | apply keeps_ite | apply keeps_foldl
    | split | dsimp only

theorem mapHere_keeps {s0 : State} (wait : Bool) (ws : List Word) (len : Nat) {s : State}
    (hk : Keeps s0 s) : Keeps s0 (mapHere wait ws len s).2 := by
  conv => arg 2; arg 1; fun; fun; fun; fun; delta mapHere
  repeat' first
    | with_reducible first
        | assumption | intro _ | apply leaveJob_keeps | apply enterJob_keeps | apply settleCommit_keeps | apply keeps_ite | apply apply_ite_keeps
    | split | dsimp only

theorem joinData_keeps {s0 : State} (m : Nat) {s : State}
    (hk : Keeps s0 s) : Keeps s0 (joinData m s).2 := by
  conv => arg 2; arg 1; fun; fun; delta joinData
  repeat' first
    | with_reducible first
        | assumption | intro _ | apply evidence_keeps | apply apply_ite_keeps
    | dsimp only

theorem sendJoin_keeps {s0 : State} {s : State}
    (hk : Keeps s0 s) : Keeps s0 (sendJoin s) := by
  conv => arg 2; fun; delta sendJoin
  repeat' first
    | with_reducible first
        | assumption | intro _ | apply joinData_keeps | apply mgmtAsk_keeps | apply apply_ite_keeps
    | split | dsimp only | refine keeps_of_snd (by with_reducible assumption) ?_

theorem tryJoin_keeps {s0 : State} {s : State}
    (hk : Keeps s0 s) : Keeps s0 (tryJoin s) := by
  conv => arg 2; fun; delta tryJoin
  repeat' first
    | with_reducible first
        | assumption | intro _ | apply sendJoin_keeps | apply keeps_ite
    | split

theorem fabricJoin_keeps {s0 : State} (r : Request) {s : State}
    (hk : Keeps s0 s) : Keeps s0 (fabricJoin r s) := by
  conv => arg 2; fun; fun; delta fabricJoin
  repeat' first
    | with_reducible first
        | assumption | intro _ | apply reply_keeps | apply tryJoin_keeps | apply modFab_keeps | apply keeps_ite
    | split | dsimp only

theorem arriveJoinReply_keeps {s0 : State} (p : Packet) {s : State}
    (hk : Keeps s0 s) : Keeps s0 (arriveJoinReply p s) := by
  conv => arg 2; fun; fun; delta arriveJoinReply
  repeat' first
    | with_reducible first
        | assumption | intro _ | apply modFab_keeps | apply modHm_keeps | apply logPkg_keeps | apply enterState_keeps
        | apply reply_keeps | apply keeps_ite | apply keeps_foldl
    | split | dsimp only

theorem startLeave_keeps {s0 : State} {s : State}
    (hk : Keeps s0 s) : Keeps s0 (startLeave s) := by
  conv => arg 2; fun; delta startLeave
  repeat' first
    | with_reducible first
        | assumption | intro _ | apply modHm_keeps | apply mgmtSend_keeps | apply mgmtAsk_keeps | apply modFab_keeps
        | apply keeps_ite
    | split | dsimp only

theorem modJoined_keeps {s0 : State} (pkg : Nat) (f : JoinedPkg → JoinedPkg) {s : State}
    (hk : Keeps s0 s) : Keeps s0 (modJoined pkg f s) := by
  conv => arg 2; fun; fun; fun; delta modJoined
  repeat' first
    | with_reducible first
        | assumption | intro _ | apply modMgr_keeps | apply keeps_ite
    | split | dsimp only

theorem recordJob_keeps {s0 : State} (e : Job) {s : State}
    (hk : Keeps s0 s) : Keeps s0 (recordJob e s) := by
  conv => arg 2; fun; fun; delta recordJob
  repeat' first
    | with_reducible first
        | assumption | intro _ | apply modMgr_keeps
    | dsimp only

theorem applyRecord_keeps {s0 : State} (c : Change) {s : State}
    (hk : Keeps s0 s) : Keeps s0 (applyRecord c s) := by
  conv => arg 2; fun; fun; delta applyRecord
  repeat' first
    | with_reducible first
        | assumption | intro _ | apply modMgr_keeps | apply recordJob_keeps | apply keeps_ite
    | split | dsimp only

theorem toNeighbours_keeps {s0 : State} (op : Nat) (data : List Byte) {s : State}
    (hk : Keeps s0 s) : Keeps s0 (toNeighbours op data s) := by
  conv => arg 2; fun; fun; fun; delta toNeighbours
  repeat' first
    | with_reducible first
        | assumption | intro _ | apply portSend_keeps | apply keeps_foldl
    | dsimp only

theorem announceManager_keeps {s0 : State} {s : State}
    (hk : Keeps s0 s) : Keeps s0 (announceManager s) := by
  conv => arg 2; fun; delta announceManager
  repeat' first
    | with_reducible first
        | assumption | intro _ | apply mgmtSend_keeps | apply toNeighbours_keeps | apply keeps_ite | apply keeps_foldl
    | split | dsimp only

theorem sendRoutes_keeps {s0 : State} (pkg : Nat) {s : State}
    (hk : Keeps s0 s) : Keeps s0 (sendRoutes pkg s) := by
  conv => arg 2; fun; fun; delta sendRoutes
  repeat' first
    | with_reducible first
        | assumption | intro _ | apply draw_keeps | apply mgmtAsk_keeps | apply keeps_ite | apply keeps_foldl
    | split | dsimp only

theorem routesAll_keeps {s0 : State} {s : State}
    (hk : Keeps s0 s) : Keeps s0 (routesAll s) := by
  conv => arg 2; fun; delta routesAll
  repeat' first
    | with_reducible first
        | assumption | intro _ | apply resumeStreams_keeps | apply sendRoutes_keeps | apply keeps_foldl
    | dsimp only

theorem commitMap_keeps {s0 : State} (e : Job) {s : State}
    (hk : Keeps s0 s) : Keeps s0 (commitMap e s) := by
  conv => arg 2; fun; fun; delta commitMap
  repeat' first
    | with_reducible first
        | assumption | intro _ | apply modMgr_keeps | apply recordJob_keeps | apply mgmtAsk_keeps
        | apply mapHere_keeps | apply keeps_ite | apply apply_ite_keeps | apply keeps_foldl | apply keeps_foldl_snd
    | split | dsimp only

theorem commitTeardown_keeps {s0 : State} (c : Change) {s : State}
    (hk : Keeps s0 s) : Keeps s0 (commitTeardown c s) := by
  conv => arg 2; fun; fun; delta commitTeardown
  repeat' first
    | with_reducible first
        | assumption | intro _ | apply modMgr_keeps | apply recordJob_keeps | apply teardownHere_keeps
        | apply mgmtAsk_keeps | apply keeps_foldl
    | split | dsimp only

theorem welcome_keeps {s0 : State} (pkg slot : Nat) {s : State}
    (hk : Keeps s0 s) : Keeps s0 (welcome pkg slot s) := by
  conv => arg 2; fun; fun; fun; delta welcome
  repeat' first
    | with_reducible first
        | assumption | intro _ | apply sendRoutes_keeps | apply mgmtSend_keeps | apply mgmtAsk_keeps
        | apply keeps_foldl
    | dsimp only

theorem commitChange_keeps {s0 : State} (c : Change) {s : State}
    (hk : Keeps s0 s) : Keeps s0 (commitChange c s) := by
  conv => arg 2; fun; fun; delta commitChange
  repeat' first
    | with_reducible first
        | assumption | intro _ | apply commitTeardown_keeps | apply commitMap_keeps | apply welcome_keeps
        | apply modFab_keeps | apply applyRecord_keeps | apply routesAll_keeps | apply announceManager_keeps
    | split | dsimp only

theorem propose_keeps {s0 : State} (kind pkg job : Nat) (words : List Word) {s : State}
    (hk : Keeps s0 s) : Keeps s0 (propose kind pkg job words s) := by
  conv => arg 2; fun; fun; fun; fun; fun; delta propose
  repeat' first
    | with_reducible first
        | assumption | intro _ | apply modMgr_keeps | apply commitChange_keeps | apply mgmtAsk_keeps
    | split | dsimp only

theorem copyAll_keeps {s0 : State} (b : Nat) {s : State}
    (hk : Keeps s0 s) : Keeps s0 (copyAll b s) := by
  conv => arg 2; fun; fun; delta copyAll
  repeat' first
    | with_reducible first
        | assumption | intro _ | apply mgmtAsk_keeps | apply keeps_foldl
    | dsimp only

theorem nameStandby_keeps {s0 : State} {s : State}
    (hk : Keeps s0 s) : Keeps s0 (nameStandby s) := by
  conv => arg 2; fun; delta nameStandby
  repeat' first
    | with_reducible first
        | assumption | intro _ | apply modFab_keeps | apply modMgr_keeps | apply announceManager_keeps
        | apply logPkg_keeps | apply mgmtAsk_keeps | apply copyAll_keeps | apply commitChange_keeps | apply keeps_ite
        | apply keeps_foldl
    | split | dsimp only

theorem forgetPkg_keeps {s0 : State} (pkg : Nat) {s : State}
    (hk : Keeps s0 s) : Keeps s0 (forgetPkg pkg s) := by
  conv => arg 2; fun; fun; delta forgetPkg
  repeat' first
    | with_reducible first
        | assumption | intro _ | apply finishReq_keeps | apply modFab_keeps | apply keeps_foldl
    | dsimp only

theorem endTeardown_keeps {s0 : State} (d : Td) {s : State}
    (hk : Keeps s0 s) : Keeps s0 (endTeardown d s) := by
  conv => arg 2; fun; fun; delta endTeardown
  repeat' first
    | with_reducible first
        | assumption | intro _ | apply modMgr_keeps | apply propose_keeps
    | split | dsimp only

theorem endTeardowns_keeps {s0 : State} {s : State}
    (hk : Keeps s0 s) : Keeps s0 (endTeardowns s) := by
  conv => arg 2; fun; delta endTeardowns
  repeat' first
    | with_reducible first
        | assumption | intro _ | apply endTeardown_keeps | apply keeps_foldl
    | dsimp only

theorem declareDead_keeps {s0 : State} (pkg : Nat) {s : State}
    (hk : Keeps s0 s) : Keeps s0 (declareDead pkg s) := by
  conv => arg 2; fun; fun; delta declareDead
  repeat' first
    | with_reducible first
        | assumption | intro _ | apply logPkg_keeps | apply forgetPkg_keeps | apply modMgr_keeps
        | apply nameStandby_keeps | apply propose_keeps | apply endTeardowns_keeps | apply keeps_ite
        | apply keeps_foldl
    | split | dsimp only

theorem echo_keeps {s0 : State} (p : Packet) {s : State}
    (hk : Keeps s0 s) : Keeps s0 (echo p s) := by
  conv => arg 2; fun; fun; delta echo
  repeat' first
    | with_reducible first
        | assumption | intro _ | apply transmit_keeps
    | dsimp only

theorem arriveHeartbeat_keeps {s0 : State} (p : Packet) {s : State}
    (hk : Keeps s0 s) : Keeps s0 (arriveHeartbeat p s) := by
  conv => arg 2; fun; fun; delta arriveHeartbeat
  repeat' first
    | with_reducible first
        | assumption | intro _ | apply modFab_keeps | apply tryJoin_keeps | apply modMgr_keeps | apply echo_keeps
        | apply modJoined_keeps | apply declareDead_keeps | apply keeps_ite
    | split | dsimp only

theorem freshRoutes_keeps {s0 : State} {s : State}
    (hk : Keeps s0 s) : Keeps s0 (freshRoutes s) := by
  conv => arg 2; fun; delta freshRoutes
  repeat' first
    | with_reducible first
        | assumption | intro _ | apply propose_keeps | apply modMgr_keeps | apply keeps_ite

theorem heartbeatDue_keeps {s0 : State} {s : State}
    (hk : Keeps s0 s) : Keeps s0 (heartbeatDue s) := by
  conv => arg 2; fun; delta heartbeatDue
  repeat' first
    | with_reducible first
        | assumption | intro _ | apply freshRoutes_keeps | apply totAdd_keeps | apply sendHeartbeat_keeps | apply keeps_ite
    | split | dsimp only

theorem takeRole_keeps {s0 : State} {s : State}
    (hk : Keeps s0 s) : Keeps s0 (takeRole s) := by
  conv => arg 2; fun; delta takeRole
  repeat' first
    | with_reducible first
        | assumption | intro _ | apply announceManager_keeps | apply modHm_keeps | apply modFab_keeps
        | apply modMgr_keeps
    | dsimp only

theorem seekStandby_keeps {s0 : State} {s : State}
    (hk : Keeps s0 s) : Keeps s0 (seekStandby s) := by
  conv => arg 2; fun; delta seekStandby
  repeat' first
    | with_reducible first
        | assumption | intro _ | apply nameStandby_keeps | apply logPkg_keeps | apply keeps_ite
    | split | dsimp only

theorem takeOver_keeps {s0 : State} {s : State}
    (hk : Keeps s0 s) : Keeps s0 (takeOver s) := by
  conv => arg 2; fun; delta takeOver
  repeat' first
    | with_reducible first
        | assumption | intro _ | apply takeRole_keeps | apply seekStandby_keeps | apply declareDead_keeps
        | apply keeps_ite
    | split | dsimp only

theorem cutOff_keeps {s0 : State} {s : State}
    (hk : Keeps s0 s) : Keeps s0 (cutOff s) := by
  conv => arg 2; fun; delta cutOff
  repeat' first
    | with_reducible first
        | assumption | intro _ | apply logPkg_keeps | apply setSticky_keeps | apply modHm_keeps | apply keeps_ite
    | split | dsimp only

theorem arriveTeardown_keeps {s0 : State} (p : Packet) {s : State}
    (hk : Keeps s0 s) : Keeps s0 (arriveTeardown p s) := by
  conv => arg 2; fun; fun; delta arriveTeardown
  repeat' first
    | with_reducible first
        | assumption | intro _ | apply mgmtSend_keeps | apply teardownHere_keeps
    | dsimp only

theorem arriveTeardownAck_keeps {s0 : State} (p : Packet) {s : State}
    (hk : Keeps s0 s) : Keeps s0 (arriveTeardownAck p s) := by
  conv => arg 2; fun; fun; delta arriveTeardownAck
  repeat' first
    | with_reducible first
        | assumption | intro _ | apply mgmtDone_keeps | apply endTeardowns_keeps | apply modMgr_keeps
        | apply keeps_ite
    | split | dsimp only

theorem teardownOver_keeps {s0 : State} (job : Nat) {s : State}
    (hk : Keeps s0 s) : Keeps s0 (teardownOver job s) := by
  conv => arg 2; fun; fun; delta teardownOver
  repeat' first
    | with_reducible first
        | assumption | intro _ | apply modMgr_keeps | apply endTeardowns_keeps | apply declareDead_keeps
        | apply keeps_ite | apply keeps_foldl
    | split | dsimp only

theorem arriveJobMap_keeps {s0 : State} (p : Packet) {s : State}
    (hk : Keeps s0 s) : Keeps s0 (arriveJobMap p s) := by
  conv => arg 2; fun; fun; delta arriveJobMap
  repeat' first
    | with_reducible first
        | assumption | intro _ | apply mapHere_keeps | apply mgmtSend_keeps | apply apply_ite_keeps
    | split | dsimp only | refine keeps_of_snd (by with_reducible assumption) ?_

theorem endLeave_keeps {s0 : State} (X : Nat) {s : State}
    (hk : Keeps s0 s) : Keeps s0 (endLeave X s) := by
  conv => arg 2; fun; fun; delta endLeave
  repeat' first
    | with_reducible first
        | assumption | intro _ | apply modMgr_keeps | apply forgetPkg_keeps | apply propose_keeps
        | apply nameStandby_keeps | apply keeps_ite
    | split | dsimp only

theorem mapDone_keeps {s0 : State} (j : Nat) {s : State}
    (hk : Keeps s0 s) : Keeps s0 (mapDone j s) := by
  conv => arg 2; fun; fun; delta mapDone
  repeat' first
    | with_reducible first
        | assumption | intro _ | apply propose_keeps | apply endLeave_keeps | apply keeps_foldl
    | split | dsimp only

theorem arriveJobMapAck_keeps {s0 : State} (p : Packet) {s : State}
    (hk : Keeps s0 s) : Keeps s0 (arriveJobMapAck p s) := by
  conv => arg 2; fun; fun; delta arriveJobMapAck
  repeat' first
    | with_reducible first
        | assumption | intro _ | apply mgmtDone_keeps | apply modMgr_keeps | apply mapDone_keeps | apply keeps_ite
    | split | dsimp only

theorem arriveLeave_keeps {s0 : State} (p : Packet) {s : State}
    (hk : Keeps s0 s) : Keeps s0 (arriveLeave p s) := by
  conv => arg 2; fun; fun; delta arriveLeave
  repeat' first
    | with_reducible first
        | assumption | intro _ | apply modMgr_keeps | apply endLeave_keeps | apply propose_keeps | apply keeps_ite
        | apply keeps_foldl
    | split | dsimp only

theorem judgeJoin_keeps {s0 : State} (src : Nat) (data : List Byte) {s : State}
    (hk : Keeps s0 s) : Keeps s0 (judgeJoin src data s) := by
  conv => arg 2; fun; fun; fun; delta judgeJoin
  repeat' first
    | with_reducible first
        | assumption | intro _ | apply mgmtSend_keeps | apply logPkg_keeps | apply draw_keeps
        | apply nameStandby_keeps | apply propose_keeps | apply keeps_ite
    | split | dsimp only

theorem arriveJoin_keeps {s0 : State} (p : Packet) {s : State}
    (hk : Keeps s0 s) : Keeps s0 (arriveJoin p s) := by
  conv => arg 2; fun; fun; delta arriveJoin
  repeat' first
    | with_reducible first
        | assumption | intro _ | apply modMgr_keeps | apply judgeJoin_keeps | apply keeps_ite
    | split | dsimp only

theorem arriveManager_keeps {s0 : State} (p : Packet) {s : State}
    (hk : Keeps s0 s) : Keeps s0 (arriveManager p s) := by
  conv => arg 2; fun; fun; delta arriveManager
  repeat' first
    | with_reducible first
        | assumption | intro _ | apply toNeighbours_keeps | apply modMgr_keeps | apply seekStandby_keeps
        | apply takeRole_keeps | apply modFab_keeps | apply tryJoin_keeps | apply modHm_keeps | apply keeps_ite
    | split | dsimp only

theorem claim_keeps {s0 : State} {s : State}
    (hk : Keeps s0 s) : Keeps s0 (claim s) := by
  conv => arg 2; fun; delta claim
  repeat' first
    | with_reducible first
        | assumption | intro _ | apply toNeighbours_keeps | apply modMgr_keeps | apply keeps_ite
    | split | dsimp only

theorem settle_keeps {s0 : State} {s : State}
    (hk : Keeps s0 s) : Keeps s0 (settle s) := by
  conv => arg 2; fun; delta settle
  repeat' first
    | with_reducible first
        | assumption | intro _ | apply modMgr_keeps | apply draw_keeps | apply modFab_keeps
        | apply announceManager_keeps | apply logPkg_keeps | apply modHm_keeps | apply keeps_ite
    | split | dsimp only

theorem handOver_keeps {s0 : State} {s : State}
    (hk : Keeps s0 s) : Keeps s0 (handOver s) := by
  conv => arg 2; fun; delta handOver
  repeat' first
    | with_reducible first
        | assumption | intro _ | apply modHm_keeps | apply modMgr_keeps | apply modFab_keeps | apply mgmtSend_keeps
        | apply copyAll_keeps | apply keeps_ite
    | split | dsimp only

theorem arriveStateCopy_keeps {s0 : State} (p : Packet) {s : State}
    (hk : Keeps s0 s) : Keeps s0 (arriveStateCopy p s) := by
  conv => arg 2; fun; fun; delta arriveStateCopy
  repeat' first
    | with_reducible first
        | assumption | intro _ | apply echo_keeps | apply applyRecord_keeps | apply keeps_ite
    | split

theorem arriveCopyEcho_keeps {s0 : State} (p : Packet) {s : State}
    (hk : Keeps s0 s) : Keeps s0 (arriveCopyEcho p s) := by
  conv => arg 2; fun; fun; delta arriveCopyEcho
  repeat' first
    | with_reducible first
        | assumption | intro _ | apply mgmtDone_keeps | apply endTeardowns_keeps | apply commitChange_keeps
        | apply modMgr_keeps | apply keeps_ite
    | split | dsimp only

theorem arriveRoutes_keeps {s0 : State} (p : Packet) {s : State}
    (hk : Keeps s0 s) : Keeps s0 (arriveRoutes p s) := by
  conv => arg 2; fun; fun; delta arriveRoutes
  repeat' first
    | with_reducible first
        | assumption | intro _ | apply mgmtDone_keeps | apply pumpSources_keeps | apply resumeStreams_keeps
        | apply echo_keeps | apply modMgr_keeps | apply modFab_keeps | apply keeps_ite | apply keeps_foldl
    | split | dsimp only

theorem forward_keeps {s0 : State} (p : Packet) {s : State}
    (hk : Keeps s0 s) : Keeps s0 (forward p s) := by
  conv => arg 2; fun; fun; delta forward
  repeat' first
    | with_reducible first
        | assumption | intro _ | apply draw_keeps | apply portSend_keeps | apply keeps_ite
    | split | dsimp only

theorem mgmtResend_keeps {s0 : State} (i : Nat) {s : State}
    (hk : Keeps s0 s) : Keeps s0 (mgmtResend i s) := by
  conv => arg 2; fun; fun; delta mgmtResend
  repeat' first
    | with_reducible first
        | assumption | intro _ | apply transmit_keeps
    | split

end Sys2Proof.Machine
end

