-- ==== Sys2Proof/Laws/KeepsLink.lean ====
section
/-! SUPPORT. Every operation of Machine/Link.lean keeps what no command takes away (Laws/Keeps.lean). -/

namespace Sys2Proof.Machine
theorem portDown_keeps {s0 : State} (p cause : Nat) {s : State}
    (hk : Keeps s0 s) : Keeps s0 (portDown p cause s) := by
  conv => arg 2; fun; fun; fun; delta portDown
  repeat' first
    | with_reducible first
        | assumption | intro _ | apply modPort_keeps | apply checkSet_keeps | apply logPkg_keeps | apply totAdd_keeps
        | apply propose_keeps | apply keeps_ite
    | split | dsimp only

theorem portsOff_keeps {s0 : State} {s : State}
    (hk : Keeps s0 s) : Keeps s0 (portsOff s) := by
  conv => arg 2; fun; delta portsOff
  repeat' first
    | with_reducible first
        | assumption | intro _ | apply modPort_keeps | apply keeps_foldl
    | dsimp only

theorem portsDetect_keeps {s0 : State} {s : State}
    (hk : Keeps s0 s) : Keeps s0 (portsDetect s) := by
  conv => arg 2; fun; delta portsDetect
  repeat' first
    | with_reducible first
        | assumption | intro _ | apply modPort_keeps | apply keeps_ite | apply keeps_foldl
    | split | dsimp only

theorem resendFrom_keeps {s0 : State} (p k : Nat) {s : State}
    (hk : Keeps s0 s) : Keeps s0 (resendFrom p k s) := by
  conv => arg 2; fun; fun; fun; delta resendFrom
  repeat' first
    | with_reducible first
        | assumption | intro _ | apply portDown_keeps | apply modPort_keeps | apply emit_keeps | apply totAdd_keeps
        | apply keeps_ite | apply keeps_foldl
    | split | dsimp only

theorem takeAckField_keeps {s0 : State} (p ack : Nat) {s : State}
    (hk : Keeps s0 s) : Keeps s0 (takeAckField p ack s) := by
  conv => arg 2; fun; fun; fun; delta takeAckField
  repeat' first
    | with_reducible first
        | assumption | intro _ | apply portDrain_keeps | apply modPort_keeps
    | dsimp only

theorem sendNak_keeps {s0 : State} (p : Nat) {s : State}
    (hk : Keeps s0 s) : Keeps s0 (sendNak p s) := by
  conv => arg 2; fun; fun; delta sendNak
  repeat' first
    | with_reducible first
        | assumption | intro _ | apply emit_keeps | apply modPort_keeps
    | dsimp only

theorem resendAll_keeps {s0 : State} (p : Nat) {s : State}
    (hk : Keeps s0 s) : Keeps s0 (resendAll p s) := by
  conv => arg 2; fun; fun; delta resendAll
  repeat' first
    | with_reducible first
        | assumption | intro _ | apply resendFrom_keeps | apply keeps_ite
    | split

theorem narrow_keeps {s0 : State} (p : Nat) {s : State}
    (hk : Keeps s0 s) : Keeps s0 (narrow p s) := by
  conv => arg 2; fun; fun; delta narrow
  repeat' first
    | with_reducible first
        | assumption | intro _ | apply modPort_keeps | apply portDown_keeps | apply recordRepair_keeps
        | apply resendAll_keeps | apply logPkg_keeps | apply totAdd_keeps | apply keeps_ite
    | split | dsimp only

theorem laneFaulty_keeps {s0 : State} (p lane : Nat) {s : State}
    (hk : Keeps s0 s) : Keeps s0 (laneFaulty p lane s) := by
  conv => arg 2; fun; fun; fun; delta laneFaulty
  repeat' first
    | with_reducible first
        | assumption | intro _ | apply modPort_keeps | apply logPkg_keeps | apply totAdd_keeps
        | apply recordRepair_keeps | apply narrow_keeps | apply keeps_ite
    | split | dsimp only

theorem countFixes_keeps {s0 : State} (p : Nat) (fixed : List Nat) {s : State}
    (hk : Keeps s0 s) : Keeps s0 (countFixes p fixed s) := by
  conv => arg 2; fun; fun; fun; delta countFixes
  repeat' first
    | with_reducible first
        | assumption | intro _ | apply totAdd_keeps | apply modPort_keeps | apply laneFaulty_keeps | apply keeps_ite
        | apply keeps_foldl
    | split | dsimp only

theorem crcFailed_keeps {s0 : State} (p : Nat) (fixed : List Nat) {s : State}
    (hk : Keeps s0 s) : Keeps s0 (crcFailed p fixed s) := by
  conv => arg 2; fun; fun; fun; delta crcFailed
  repeat' first
    | with_reducible first
        | assumption | intro _ | apply totAdd_keeps | apply modPort_keeps | apply laneFaulty_keeps
        | apply sendNak_keeps | apply keeps_ite | apply keeps_foldl
    | split | dsimp only

theorem arrivePacket_keeps {s0 : State} (p : Packet) {s : State}
    (hk : Keeps s0 s) : Keeps s0 (arrivePacket p s) := by
  conv => arg 2; fun; fun; delta arrivePacket
  repeat' first
    | with_reducible first
        | assumption | intro _ | apply forward_keeps | apply totAdd_keeps | apply arriveReq_keeps
        | apply arriveResp_keeps | apply byStatus_keeps | apply arriveAck_keeps | apply serviceReply_keeps
        | apply arriveHeartbeat_keeps | apply arriveTeardown_keeps | apply arriveTeardownAck_keeps
        | apply arriveJobMap_keeps | apply arriveJobMapAck_keeps | apply arriveJoin_keeps
        | apply arriveJoinReply_keeps | apply arriveManager_keeps | apply arriveLeave_keeps
        | apply arriveCopyEcho_keeps | apply arriveStateCopy_keeps | apply arriveRoutes_keeps
        | apply arriveUnknown_keeps | apply keeps_ite
    | split | dsimp only

theorem takePackets_keeps {s0 s : State} (p : Nat) (plane : Fin 2) (n : Nat)
    (hk : Keeps s0 s) : Keeps s0 (takePackets p plane n s) := by
  induction n generalizing s with
  | zero => exact hk
  | succ n ih =>
    unfold takePackets
    repeat' first
    | with_reducible first
        | assumption | intro _ | apply ih | apply modPort_keeps | apply arrivePacket_keeps
    | split | dsimp only

theorem acceptData_keeps {s0 : State} (p : Nat) (plane : Fin 2) (bs : List Byte) {s : State}
    (hk : Keeps s0 s) : Keeps s0 (acceptData p plane bs s) := by
  conv => arg 2; fun; fun; fun; fun; delta acceptData
  repeat' first
    | with_reducible first
        | assumption | intro _ | apply totAdd_keeps | apply modPort_keeps | apply emit_keeps | apply takePackets_keeps
    | dsimp only

theorem takeCredits_keeps {s0 : State} (p : Nat) (ws : List Word) {s : State}
    (hk : Keeps s0 s) : Keeps s0 (takeCredits p ws s) := by
  conv => arg 2; fun; fun; fun; delta takeCredits
  repeat' first
    | with_reducible first
        | assumption | intro _ | apply portDrain_keeps | apply modPort_keeps | apply keeps_foldl
    | dsimp only

theorem takeNak_keeps {s0 : State} (p : Nat) (w : Word) {s : State}
    (hk : Keeps s0 s) : Keeps s0 (takeNak p w s) := by
  conv => arg 2; fun; fun; fun; delta takeNak
  repeat' first
    | with_reducible first
        | assumption | intro _ | apply takeAckField_keeps | apply resendFrom_keeps | apply keeps_ite
    | split | dsimp only

theorem flitIn_keeps {s0 : State} (p : Nat) (plane : Fin 2) (control : Bool) (bs : List Byte) {s : State}
    (hk : Keeps s0 s) : Keeps s0 (flitIn p plane control bs s) := by
  conv => arg 2; fun; fun; fun; fun; fun; delta flitIn
  repeat' first
    | with_reducible first
        | assumption | intro _ | apply countFixes_keeps | apply crcFailed_keeps | apply takeAckField_keeps
        | apply takeNak_keeps | apply takeCredits_keeps | apply acceptData_keeps | apply sendNak_keeps
        | apply keeps_ite
    | split | dsimp only

theorem ackStalled_keeps {s0 : State} (p : Nat) {s : State}
    (hk : Keeps s0 s) : Keeps s0 (ackStalled p s) := by
  conv => arg 2; fun; fun; delta ackStalled
  repeat' first
    | with_reducible first
        | assumption | intro _ | apply resendFrom_keeps | apply keeps_ite
    | split

theorem spareDone_keeps {s0 : State} (p : Nat) (good : Bool) {s : State}
    (hk : Keeps s0 s) : Keeps s0 (spareDone p good s) := by
  conv => arg 2; fun; fun; fun; delta spareDone
  repeat' first
    | with_reducible first
        | assumption | intro _ | apply modPort_keeps | apply portDrain_keeps | apply resendAll_keeps
        | apply laneFaulty_keeps | apply keeps_ite
    | split | dsimp only

theorem detectBurst_keeps {s0 : State} (p : Nat) {s : State}
    (hk : Keeps s0 s) : Keeps s0 (detectBurst p s) := by
  conv => arg 2; fun; fun; delta detectBurst
  repeat' first
    | with_reducible first
        | assumption | intro _ | apply emit_keeps | apply keeps_ite
    | split

theorem portUp_keeps {s0 : State} (p pkg farPort : Nat) {s : State}
    (hk : Keeps s0 s) : Keeps s0 (portUp p pkg farPort s) := by
  conv => arg 2; fun; fun; fun; fun; delta portUp
  repeat' first
    | with_reducible first
        | assumption | intro _ | apply modPort_keeps | apply pumpSources_keeps | apply logPkg_keeps
        | apply tryJoin_keeps | apply propose_keeps | apply keeps_ite
    | split | dsimp only

theorem patternIn_keeps {s0 : State} (p : Nat) {s : State}
    (hk : Keeps s0 s) : Keeps s0 (patternIn p s) := by
  conv => arg 2; fun; fun; delta patternIn
  repeat' first
    | with_reducible first
        | assumption | intro _ | apply portUp_keeps | apply modPort_keeps | apply keeps_ite
    | split | dsimp only

theorem equalised_keeps {s0 : State} (p : Nat) (bad : List Nat) (inTime : Bool) {s : State}
    (hk : Keeps s0 s) : Keeps s0 (equalised p bad inTime s) := by
  conv => arg 2; fun; fun; fun; fun; delta equalised
  repeat' first
    | with_reducible first
        | assumption | intro _ | apply laneFaulty_keeps | apply modPort_keeps | apply keeps_ite | apply keeps_foldl
    | split | dsimp only

theorem verified_keeps {s0 : State} (p pkg farPort : Nat) (mgr : Option Nat) {s : State}
    (hk : Keeps s0 s) : Keeps s0 (verified p pkg farPort mgr s) := by
  conv => arg 2; fun; fun; fun; fun; fun; delta verified
  repeat' first
    | with_reducible first
        | assumption | intro _ | apply logPkg_keeps | apply modFab_keeps | apply portUp_keeps | apply keeps_ite
    | split | dsimp only

theorem signalLost_keeps {s0 : State} (p : Nat) {s : State}
    (hk : Keeps s0 s) : Keeps s0 (signalLost p s) := by
  conv => arg 2; fun; fun; delta signalLost
  repeat' first
    | with_reducible first
        | assumption | intro _ | apply portDown_keeps | apply modPort_keeps
    | split | dsimp only

end Sys2Proof.Machine
end

