-- ==== Sys2Proof/Laws/KeepsContinuity.lean ====
section
/-! SUPPORT. Every operation of Machine/Continuity.lean keeps what no command takes away (Laws/Keeps.lean). -/

namespace Sys2Proof.Machine
theorem mirrorAgain_keeps {s0 : State} {s : State}
    (hk : Keeps s0 s) : Keeps s0 (mirrorAgain s) := by
  conv => arg 2; fun; delta mirrorAgain
  repeat' first
    | with_reducible first
        | assumption | intro _ | apply totAdd_keeps | apply mirrorSend_keeps | apply keeps_foldl
    | split | dsimp only

theorem journalEntry_keeps {s0 : State} (ws : List Word) {s : State}
    (hk : Keeps s0 s) : Keeps s0 (journalEntry ws s) := by
  conv => arg 2; fun; fun; delta journalEntry
  repeat' first
    | with_reducible first
        | assumption | intro _ | apply modHm_keeps | apply keeps_ite
    | split | dsimp only

theorem finishCommits_keeps {s0 : State} {s : State}
    (hk : Keeps s0 s) : Keeps s0 (finishCommits s) := by
  conv => arg 2; fun; delta finishCommits
  repeat' first
    | with_reducible first
        | assumption | intro _ | apply stepCommit_keeps | apply keeps_ite | apply keeps_foldl
    | split | dsimp only

theorem takeoverHm_keeps {s0 : State} (cause : Nat) {s : State}
    (hk : Keeps s0 s) : Keeps s0 (takeoverHm cause s) := by
  conv => arg 2; fun; fun; delta takeoverHm
  repeat' first
    | with_reducible first
        | assumption | intro _ | apply modHm_keeps | apply recordRepair_keeps | apply sendHeartbeat_keeps
        | apply logPkg_keeps | apply totAdd_keeps | apply finishCommits_keeps | apply setInt_keeps
        | apply setSticky_keeps
    | dsimp only

theorem fallSilent_keeps {s0 : State} {s : State}
    (hk : Keeps s0 s) : Keeps s0 (fallSilent s) := by
  conv => arg 2; fun; delta fallSilent
  repeat' first
    | with_reducible first
        | assumption | intro _ | apply portsOff_keeps | apply modHm_keeps
    | dsimp only

theorem loseActive_keeps {s0 : State} (cause : Nat) {s : State}
    (hk : Keeps s0 s) : Keeps s0 (loseActive cause s) := by
  conv => arg 2; fun; fun; delta loseActive
  repeat' first
    | with_reducible first
        | assumption | intro _ | apply takeoverHm_keeps | apply fallSilent_keeps | apply keeps_ite
    | split

theorem hmFault_keeps {s0 : State} {s : State}
    (hk : Keeps s0 s) : Keeps s0 (hmFault s) := by
  conv => arg 2; fun; delta hmFault
  repeat' first
    | with_reducible first
        | assumption | intro _ | apply draw_keeps | apply loseActive_keeps
    | dsimp only

theorem dieOut_keeps {s0 : State} (d : Nat) {s : State}
    (hk : Keeps s0 s) : Keeps s0 (dieOut d s) := by
  conv => arg 2; fun; fun; delta dieOut
  repeat' first
    | with_reducible first
        | assumption
    | exact id
    | with_reducible first
        | intro _ | apply modHealth_keeps | apply recordRepair_keeps | apply modCluster_keeps | apply modTiers_keeps
        | apply checkSet_keeps | apply keeps_ite | apply keeps_foldl
    | split | dsimp only

theorem dieLink_keeps {s0 : State} (d i : Nat) {s : State}
    (hk : Keeps s0 s) : Keeps s0 (dieLink d i s) := by
  conv => arg 2; fun; fun; fun; delta dieLink
  repeat' first
    | with_reducible first
        | assumption
    | exact id
    | with_reducible first
        | intro _ | apply recordRepair_keeps | apply modHealth_keeps | apply dieOut_keeps | apply keeps_ite
    | split | dsimp only

theorem iodLink_keeps {s0 : State} {s : State}
    (hk : Keeps s0 s) : Keeps s0 (iodLink s) := by
  conv => arg 2; fun; delta iodLink
  repeat' first
    | with_reducible first
        | assumption
    | exact id
    | with_reducible first
        | intro _ | apply modHm_keeps | apply recordRepair_keeps | apply modHealth_keeps | apply keeps_ite
    | split | dsimp only

theorem iod0Lost_keeps {s0 : State} {s : State}
    (hk : Keeps s0 s) : Keeps s0 (iod0Lost s) := by
  conv => arg 2; fun; delta iod0Lost
  repeat' first
    | with_reducible first
        | assumption
    | exact id
    | with_reducible first
        | intro _ | apply linkDown_keeps | apply modHealth_keeps | apply modPort_keeps | apply portDown_keeps
        | apply modHm_keeps | apply loseActive_keeps | apply checkSet_keeps | apply keeps_ite | apply keeps_foldl
    | split | dsimp only

end Sys2Proof.Machine
end

