-- ==== Sys2Proof/Laws/KeepsPower.lean ====
section
/-! SUPPORT. Every operation of Machine/Power.lean keeps what no command takes away (Laws/Keeps.lean). -/

namespace Sys2Proof.Machine
theorem railsOff_keeps {s0 : State} {s : State}
    (hk : Keeps s0 s) : Keeps s0 (railsOff s) := by
  conv => arg 2; fun; delta railsOff
  repeat' first
    | with_reducible first
        | assumption | intro _ | apply declareFailed_keeps | apply modPw_keeps
    | dsimp only

theorem sampleInput_keeps {s0 : State} (mv : Nat) {s : State}
    (hk : Keeps s0 s) : Keeps s0 (sampleInput mv s) := by
  conv => arg 2; fun; fun; delta sampleInput
  repeat' first
    | with_reducible first
        | assumption | intro _ | apply modPw_keeps | apply logPkg_keeps | apply railsOff_keeps | apply keeps_ite
    | split | dsimp only

theorem inputBack_keeps {s0 : State} {s : State}
    (hk : Keeps s0 s) : Keeps s0 (inputBack s) := by
  conv => arg 2; fun; delta inputBack
  repeat' first
    | with_reducible first
        | assumption | intro _ | apply modPw_keeps | apply keeps_ite
    | split | dsimp only

theorem below30_keeps {s0 : State} (mv : Nat) {s : State}
    (hk : Keeps s0 s) : Keeps s0 (below30 mv s) := by
  conv => arg 2; fun; fun; delta below30
  repeat' first
    | with_reducible first
        | assumption
    | exact id
    | with_reducible first
        | intro _ | apply portsOff_keeps | apply modPw_keeps | apply modBoot_keeps | apply modPins_keeps
        | apply modHm_keeps | apply keeps_ite
    | exact rfl | exact Nat.le_refl _ | split | dsimp only

theorem rootLost_keeps {s0 : State} (ppm : Nat) {s : State}
    (hk : Keeps s0 s) : Keeps s0 (rootLost ppm s) := by
  conv => arg 2; fun; fun; delta rootLost
  repeat' first
    | with_reducible first
        | assumption
    | exact id
    | with_reducible first
        | intro _ | apply modPins_keeps | apply modPw_keeps | apply modBoot_keeps | apply railsOff_keeps
        | apply logPkg_keeps
    | exact rfl | exact Nat.le_refl _ | split | dsimp only

theorem depart_keeps {s0 : State} {s : State}
    (hk : Keeps s0 s) : Keeps s0 (depart s) := by
  conv => arg 2; fun; delta depart
  repeat' first
    | with_reducible first
        | assumption | intro _ | apply startLeave_keeps | apply handOver_keeps

theorem moveOn_keeps {s0 : State} {s : State}
    (hk : Keeps s0 s) : Keeps s0 (moveOn s) := by
  conv => arg 2; fun; delta moveOn
  repeat' first
    | with_reducible first
        | assumption | intro _ | apply depart_keeps | apply keeps_ite
    | split

theorem stopOn_keeps {s0 : State} {s : State}
    (hk : Keeps s0 s) : Keeps s0 (stopOn s) := by
  conv => arg 2; fun; delta stopOn
  repeat' first
    | with_reducible first
        | assumption | intro _ | apply finishStop_keeps | apply depart_keeps | apply keeps_ite
    | split

theorem setState_keeps {s0 : State} (r : Request) {s : State}
    (hk : Keeps s0 s) : Keeps s0 (setState r s) := by
  conv => arg 2; fun; fun; delta setState
  repeat' first
    | with_reducible first
        | assumption
    | exact id
    | with_reducible first
        | intro _ | apply reply_keeps | apply modPw_keeps | apply modBoot_keeps | apply moveOn_keeps | apply keeps_ite
    | exact rfl | exact Nat.le_refl _ | split | dsimp only

theorem loseSram_keeps {s0 : State} {s : State} (hk : Keeps s0 s) : Keeps s0 (loseSram s) :=
  keeps_trans hk ⟨rfl, List.prefix_refl _, fun m => ⟨rfl, m.2⟩, id, id, id, id, ⟨rfl, rfl, rfl, rfl, rfl, rfl⟩, Nat.le_refl _, id⟩

theorem forgetFabric_keeps {s0 : State} {s : State}
    (hk : Keeps s0 s) : Keeps s0 (forgetFabric s) := by
  conv => arg 2; fun; delta forgetFabric
  repeat' first
    | with_reducible first
        | assumption | intro _ | apply modHm_keeps | apply keeps_ite | apply apply_ite_keeps
    | split | dsimp only | refine keeps_of_snd (by with_reducible assumption) ?_
    | refine keepsO_get (by with_reducible assumption) ?_
    | exact keeps_same hk ⟨rfl, rfl, rfl, rfl, rfl, rfl, rfl, rfl, rfl, rfl, rfl, rfl, rfl, ⟨rfl, rfl, rfl, rfl, rfl, rfl⟩, rfl⟩

theorem dryOut_keeps {s0 : State} {s : State} (hk : Keeps s0 s) : Keeps s0 (dryOut s) := by
  have h1 : Keeps s0 (modEp (fun e => { e with canTrain := false }) (if s.host.ep.linkUp then linkDown s else s)) :=
    modEp_keeps _ (keeps_ite (fun _ => linkDown_keeps hk) fun _ => hk)
  conv => arg 2; fun; delta dryOut
  refine modBoot_keeps _ ?_ ?_ ?_ (keeps_trans h1 ?_)
  · rfl
  · exact Nat.le_refl _
  · exact id
  exact ⟨rfl, List.prefix_refl _, fun m => ⟨m.1, rfl, m.2.2⟩, id, id, id, id, ⟨rfl, rfl, rfl, rfl, rfl, rfl⟩, Nat.le_refl _, id⟩

theorem goDown_keeps {s0 : State} (t : PState) {s : State}
    (hk : Keeps s0 s) : Keeps s0 (goDown t s) := by
  conv => arg 2; fun; fun; delta goDown
  repeat' first
    | with_reducible first
        | assumption | intro _ | apply loseSram_keeps | apply forgetFabric_keeps | apply portsOff_keeps
        | apply enterState_keeps | apply dryOut_keeps | apply keeps_ite
    | split | dsimp only

theorem arriveAt_keeps {s0 : State} (t : PState) {s : State}
    (hk : Keeps s0 s) : Keeps s0 (arriveAt t s) := by
  conv => arg 2; fun; fun; delta arriveAt
  repeat' first
    | with_reducible first
        | assumption | intro _ | apply reply_keeps | apply modPw_keeps | apply keeps_ite | apply keeps_foldl
    | split | dsimp only

theorem wakeUp_keeps {s0 : State} {s : State}
    (hk : Keeps s0 s) : Keeps s0 (wakeUp s) := by
  conv => arg 2; fun; delta wakeUp
  repeat' first
    | with_reducible first
        | assumption
    | exact id
    | with_reducible first
        | intro _ | apply logPkg_keeps | apply enterState_keeps | apply portsDetect_keeps | apply modEp_keeps
        | apply modBoot_keeps | apply keeps_ite
    | exact rfl | exact Nat.le_refl _ | exact Nat.min_le_right _ _ | split | dsimp only | apply warmRestarts_keeps
    | exact keeps_same hk ⟨rfl, rfl, rfl, rfl, rfl, rfl, rfl, rfl, rfl, rfl, rfl, rfl, rfl, ⟨rfl, rfl, rfl, rfl, rfl, rfl⟩, rfl⟩

theorem stateReached_keeps {s0 : State} {s : State}
    (hk : Keeps s0 s) : Keeps s0 (stateReached s) := by
  conv => arg 2; fun; delta stateReached
  repeat' first
    | with_reducible first
        | assumption | intro _ | apply arriveAt_keeps | apply depart_keeps | apply goDown_keeps
        | apply enterState_keeps | apply wakeUp_keeps | apply keeps_ite
    | split

theorem setCap_keeps {s0 : State} (r : Request) {s : State}
    (hk : Keeps s0 s) : Keeps s0 (setCap r s) := by
  conv => arg 2; fun; fun; delta setCap
  repeat' first
    | with_reducible first
        | assumption | intro _ | apply reply_keeps | apply modPw_keeps | apply keeps_ite
    | split | dsimp only

theorem setFractions_keeps {s0 : State} (r : Request) {s : State}
    (hk : Keeps s0 s) : Keeps s0 (setFractions r s) := by
  conv => arg 2; fun; fun; delta setFractions
  repeat' first
    | with_reducible first
        | assumption | intro _ | apply reply_keeps | apply modPw_keeps | apply keeps_ite
    | split | dsimp only

theorem controlPart_keeps {r0 : State} (s0 : State) (ps : List (Nat × Nat)) (p : Nat) {s : State}
    (hk : Keeps r0 s) : Keeps r0 (controlPart s0 ps p s) := by
  conv => arg 2; fun; fun; fun; fun; delta controlPart
  repeat' first
    | with_reducible first
        | assumption | intro _ | apply cntAdd_keeps | apply modStat_keeps | apply keeps_ite
    | split | dsimp only
    | exact keeps_same hk ⟨rfl, rfl, rfl, rfl, rfl, rfl, rfl, rfl, rfl, rfl, rfl, rfl, rfl, ⟨rfl, rfl, rfl, rfl, rfl, rfl⟩, rfl⟩

theorem controlStep_keeps {s0 : State} (draw : Nat) (domains : List Nat) (ps : List (Nat × Nat)) {s : State}
    (hk : Keeps s0 s) : Keeps s0 (controlStep draw domains ps s) := by
  conv => arg 2; fun; fun; fun; fun; delta controlStep
  repeat' first
    | with_reducible first
        | assumption | intro _ | apply modDv_keeps | apply draw_keeps | apply controlPart_keeps | apply keeps_ite
        | apply keeps_foldl
    | split | dsimp only

theorem countEnergy_keeps {s0 : State} (input loss : Nat) (parts : List PartEnergy) (queues : List (Nat × Nat)) {s : State}
    (hk : Keeps s0 s) : Keeps s0 (countEnergy input loss parts queues s) := by
  conv => arg 2; fun; fun; fun; fun; fun; delta countEnergy
  repeat' first
    | with_reducible first
        | assumption | intro _ | apply totAdd_keeps | apply cntAdd_keeps | apply modDv_keeps | apply keeps_ite
        | apply keeps_foldl
    | split | dsimp only

theorem readEnergy_keeps {s0 : State} (r : Request) {s : State}
    (hk : Keeps s0 s) : Keeps s0 (readEnergy r s) := by
  conv => arg 2; fun; fun; delta readEnergy
  repeat' first
    | with_reducible first
        | assumption | intro _ | apply reply_keeps | apply keeps_ite
    | split | dsimp only

theorem readPower_keeps {s0 : State} (r : Request) {s : State}
    (hk : Keeps s0 s) : Keeps s0 (readPower r s) := by
  conv => arg 2; fun; fun; delta readPower
  repeat' first
    | with_reducible first
        | assumption | intro _ | apply reply_keeps
    | dsimp only

theorem slewDone_keeps {s0 : State} {s : State}
    (hk : Keeps s0 s) : Keeps s0 (slewDone s) := by
  conv => arg 2; fun; delta slewDone
  repeat' first
    | with_reducible first
        | assumption | intro _ | apply reply_keeps | apply modPw_keeps | apply keeps_ite | apply keeps_foldl
    | split | dsimp only

theorem setClock_keeps {s0 : State} (r : Request) {s : State}
    (hk : Keeps s0 s) : Keeps s0 (setClock r s) := by
  conv => arg 2; fun; fun; delta setClock
  repeat' first
    | with_reducible first
        | assumption | intro _ | apply reply_keeps | apply modPw_keeps | apply slewDone_keeps | apply modDv_keeps
        | apply keeps_ite
    | split | dsimp only

theorem slewStep_keeps {s0 : State} (d : Nat) {s : State}
    (hk : Keeps s0 s) : Keeps s0 (slewStep d s) := by
  conv => arg 2; fun; fun; delta slewStep
  repeat' first
    | with_reducible first
        | assumption | intro _ | apply slewDone_keeps | apply modDv_keeps | apply keeps_ite
    | split | dsimp only

theorem boost_keeps {s0 : State} (d : Nat) {s : State}
    (hk : Keeps s0 s) : Keeps s0 (boost d s) := by
  conv => arg 2; fun; fun; delta boost
  repeat' first
    | with_reducible first
        | assumption | intro _ | apply slewDone_keeps | apply modDv_keeps | apply keeps_ite
    | split | dsimp only | refine keeps_of_snd (by with_reducible assumption) ?_ | refine keepsO_get (by with_reducible assumption) ?_

theorem droop_keeps {s0 : State} (k : Nat) {s : State}
    (hk : Keeps s0 s) : Keeps s0 (droop k s) := by
  conv => arg 2; fun; fun; delta droop
  repeat' first
    | with_reducible first
        | assumption | intro _ | apply totAdd_keeps | apply modDv_keeps | apply cntAdd_keeps | apply onceEvent_keeps
        | apply keeps_ite
    | split | dsimp only

theorem decay_keeps {s0 : State} (d : Nat) {s : State}
    (hk : Keeps s0 s) : Keeps s0 (decay d s) := by
  conv => arg 2; fun; fun; delta decay
  repeat' first
    | with_reducible first
        | assumption | intro _ | apply modDv_keeps
    | dsimp only

theorem throttleRate_keeps {s0 : State} (z : Nat) {s : State}
    (hk : Keeps s0 s) : Keeps s0 (throttleRate z s) := by
  conv => arg 2; fun; fun; delta throttleRate
  repeat' first
    | with_reducible first
        | assumption | intro _ | apply draw_keeps | apply modDv_keeps
    | dsimp only

theorem zoneReads_keeps {s0 : State} (z t : Nat) {s : State}
    (hk : Keeps s0 s) : Keeps s0 (zoneReads z t s) := by
  conv => arg 2; fun; fun; fun; delta zoneReads
  repeat' first
    | with_reducible first
        | assumption | intro _ | apply modDv_keeps | apply railsOff_keeps | apply logPkg_keeps | apply modPins_keeps
        | apply throttleRate_keeps | apply keeps_ite
    | split | dsimp only

theorem thermal_keeps {s0 : State} (temps : List (Nat × Nat)) {s : State}
    (hk : Keeps s0 s) : Keeps s0 (thermal temps s) := by
  conv => arg 2; fun; fun; delta thermal
  repeat' first
    | with_reducible first
        | assumption | intro _ | apply zoneReads_keeps | apply keeps_ite | apply keeps_foldl
    | split | dsimp only

end Sys2Proof.Machine
end

