-- ==== Sys2Proof/Laws/KeepsStartup.lean ====
section
/-! SUPPORT. Every operation of Machine/Startup.lean keeps what no command takes away (Laws/Keeps.lean). -/

namespace Sys2Proof.Machine
theorem coldState_keeps {s0 : State} {s : State} (hk : Keeps s0 s) : Keeps s0 (coldState s) :=
  keeps_trans hk ⟨rfl, List.prefix_refl _, fun m => ⟨rfl, rfl, m.2.2⟩, fun r => ⟨Nat.zero_le _, r.2.1, r.2.2.1, r.2.2.2⟩,
    fun c => ⟨fun _ e => (nomatch e), c.2⟩, fun l => ⟨l.1, fun _ _ e => nomatch e⟩, fun d => ⟨d.1, rfl⟩,
    ⟨rfl, rfl, rfl, rfl, rfl, rfl⟩, Nat.le_refl _, id⟩

theorem inputUp_keeps {s0 : State} (mv : Nat) {s : State}
    (hk : Keeps s0 s) : Keeps s0 (inputUp mv s) := by
  conv => arg 2; fun; fun; delta inputUp
  repeat' first
    | with_reducible first
        | assumption | intro _ | apply coldState_keeps | apply modPw_keeps | apply modPins_keeps | apply keeps_ite
    | split | dsimp only

theorem resetReleased_keeps {s0 : State} {s : State}
    (hk : Keeps s0 s) : Keeps s0 (resetReleased s) := by
  conv => arg 2; fun; delta resetReleased
  repeat' first
    | with_reducible first
        | assumption | intro _ | apply modPins_keeps
    | dsimp only

theorem resetAsserted_keeps {s0 : State} (ns : Nat) {s : State}
    (hk : Keeps s0 s) : Keeps s0 (resetAsserted ns s) := by
  conv => arg 2; fun; fun; delta resetAsserted
  repeat' first
    | with_reducible first
        | assumption | intro _ | apply draw_keeps | apply modPins_keeps | apply coldState_keeps | apply keeps_ite
    | split | dsimp only

theorem holdupOver_keeps {s0 : State} {s : State}
    (hk : Keeps s0 s) : Keeps s0 (holdupOver s) := by
  conv => arg 2; fun; delta holdupOver
  repeat' first
    | with_reducible first
        | assumption | intro _ | apply coldState_keeps | apply keeps_ite
    | split

theorem islandUp_keeps {s0 : State} (straps : BitVec 10) {s : State}
    (hk : Keeps s0 s) : Keeps s0 (islandUp straps s) := by
  conv => arg 2; fun; fun; delta islandUp
  repeat' first
    | with_reducible first
        | assumption
    | exact id
    | with_reducible first
        | intro _ | apply modPins_keeps | apply modBoot_keeps | apply modSb_keeps | apply modHm_keeps
        | apply keeps_ite
    | exact rfl | exact Nat.le_refl _ | split | dsimp only

theorem railsUp_keeps {s0 : State} {s : State}
    (hk : Keeps s0 s) : Keeps s0 (railsUp s) := by
  conv => arg 2; fun; delta railsUp
  repeat' first
    | with_reducible first
        | assumption
    | exact id
    | with_reducible first
        | intro _ | apply modEp_keeps | apply modPw_keeps | apply portsDetect_keeps | apply modBoot_keeps
        | apply keeps_ite
    | exact rfl | exact Nat.le_refl _ | split | dsimp only

theorem perstLow_keeps {s0 : State} (ns : Nat) {s : State}
    (hk : Keeps s0 s) : Keeps s0 (perstLow ns s) := by
  conv => arg 2; fun; fun; delta perstLow
  repeat' first
    | with_reducible first
        | assumption | intro _ | apply modEp_keeps | apply hotReset_keeps | apply keeps_ite
    | split | dsimp only

theorem linkTrains_keeps {s0 : State} {s : State}
    (hk : Keeps s0 s) : Keeps s0 (linkTrains s) := by
  conv => arg 2; fun; delta linkTrains
  repeat' first
    | with_reducible first
        | assumption | intro _ | apply modEp_keeps | apply keeps_ite
    | split | dsimp only

theorem busMaster_keeps {s0 : State} (fn : Nat) (enable : Bool) {s : State}
    (hk : Keeps s0 s) : Keeps s0 (busMaster fn enable s) := by
  conv => arg 2; fun; fun; fun; delta busMaster
  repeat' first
    | with_reducible first
        | assumption | intro _ | apply modEp_keeps | apply keeps_ite
    | split | dsimp only

theorem newSecond_keeps {s0 : State} {s : State}
    (hk : Keeps s0 s) : Keeps s0 (newSecond s) := by
  conv => arg 2; fun; delta newSecond
  repeat' first
    | with_reducible first
        | assumption
    | exact id
    | with_reducible first
        | intro _ | apply modLog_keeps
    | dsimp only | apply ports_keeps
    | exact keeps_same hk ⟨rfl, rfl, rfl, rfl, rfl, rfl, rfl, rfl, rfl, rfl, rfl, rfl, rfl, ⟨rfl, rfl, rfl, rfl, rfl, rfl⟩, rfl⟩

theorem holdDead_keeps {s0 : State} (st : BootStage) {s : State}
    (hk : Keeps s0 s) : Keeps s0 (holdDead st s) := by
  conv => arg 2; fun; fun; delta holdDead
  repeat' first
    | with_reducible first
        | assumption
    | exact id
    | with_reducible first
        | intro _ | apply modPins_keeps | apply modBoot_keeps
    | exact rfl | exact Nat.le_refl _ | dsimp only

theorem romStart_keeps {s0 : State} {s : State}
    (hk : Keeps s0 s) : Keeps s0 (romStart s) := by
  conv => arg 2; fun; delta romStart
  repeat' first
    | with_reducible first
        | assumption
    | exact id
    | with_reducible first
        | intro _ | apply holdDead_keeps | apply modBoot_keeps | apply keeps_ite
    | exact rfl | exact Nat.le_refl _ | split | dsimp only

theorem handOverFw_keeps {s0 : State} {s : State}
    (hk : Keeps s0 s) : Keeps s0 (handOverFw s) := by
  conv => arg 2; fun; delta handOverFw
  repeat' first
    | with_reducible first
        | assumption
    | exact id
    | with_reducible first
        | intro _ | apply draw_keeps | apply modBoot_keeps | apply modHm_keeps | apply modLog_keeps
        | apply modSec_keeps | apply logPkg_keeps | apply railsOff_keeps | apply keeps_ite
    | exact ⟨rfl, rfl, rfl, rfl, rfl⟩ | exact rfl | exact Nat.le_refl _ | exact Nat.min_le_right _ _ | split
    | dsimp only

theorem trainingDone_keeps {s0 : State} (failed : List Nat) {s : State}
    (hk : Keeps s0 s) : Keeps s0 (trainingDone failed s) := by
  conv => arg 2; fun; fun; delta trainingDone
  repeat' first
    | with_reducible first
        | assumption
    | exact id
    | with_reducible first
        | intro _ | apply logPkg_keeps | apply modBoot_keeps | apply keeps_ite | apply keeps_foldl
    | exact rfl | exact Nat.le_refl _ | split | dsimp only

theorem dieGone_keeps {s0 : State} (d : Nat) {s : State}
    (hk : Keeps s0 s) : Keeps s0 (dieGone d s) := by
  conv => arg 2; fun; fun; delta dieGone
  repeat' first
    | with_reducible first
        | assumption
    | exact id
    | with_reducible first
        | intro _ | apply modTiers_keeps | apply modHealth_keeps | apply modCluster_keeps | apply keeps_ite
        | apply keeps_foldl
    | split | dsimp only
    | exact keeps_same hk ⟨rfl, rfl, rfl, rfl, rfl, rfl, rfl, rfl, rfl, rfl, rfl, rfl, rfl, ⟨rfl, rfl, rfl, rfl, rfl, rfl⟩, rfl⟩

theorem applyRepair_keeps {s0 : State} (noSpare : List (Nat × Nat)) {s : State} (e : List Word)
    (hk : Keeps s0 s) : Keeps s0 (applyRepair noSpare s e) := by
  conv => arg 2; fun; fun; fun; delta applyRepair
  repeat' first
    | with_reducible first
        | assumption
    | exact id
    | with_reducible first
        | intro _ | apply modHealth_keeps | apply modCluster_keeps | apply modTiers_keeps | apply modPort_keeps
        | apply modHm_keeps | apply dieGone_keeps | apply modChm_keeps | apply keeps_ite
    | split | dsimp only
    | exact keeps_same hk ⟨rfl, rfl, rfl, rfl, rfl, rfl, rfl, rfl, rfl, rfl, rfl, rfl, rfl, ⟨rfl, rfl, rfl, rfl, rfl, rfl⟩, rfl⟩

theorem macroOut_keeps {s0 : State} (m : Nat) {s : State}
    (hk : Keeps s0 s) : Keeps s0 (macroOut m s) := by
  conv => arg 2; fun; fun; delta macroOut
  repeat' first
    | with_reducible first
        | assumption | intro _ | apply coreFails_keeps | apply clusterOut_keeps | apply keeps_ite
    | split

theorem feederOut_keeps {s0 : State} {s : State}
    (hk : Keeps s0 s) : Keeps s0 (feederOut s) := by
  conv => arg 2; fun; delta feederOut
  repeat' first
    | with_reducible first
        | assumption | intro _ | apply draw_keeps | apply clusterOut_keeps | apply recordRepair_keeps
        | apply modTiers_keeps | apply modPort_keeps | apply declareFailed_keeps | apply keeps_foldl
    | split | dsimp only

theorem sensorOut_keeps {s0 : State} (n : Nat) {s : State}
    (hk : Keeps s0 s) : Keeps s0 (sensorOut n s) := by
  conv => arg 2; fun; fun; delta sensorOut
  repeat' first
    | with_reducible first
        | assumption | intro _ | apply modDv_keeps | apply keeps_ite
    | split | dsimp only

theorem laneOut_keeps {s0 : State} (n : Nat) {s : State}
    (hk : Keeps s0 s) : Keeps s0 (laneOut n s) := by
  conv => arg 2; fun; fun; delta laneOut
  repeat' first
    | with_reducible first
        | assumption | intro _ | apply laneFaulty_keeps | apply keeps_ite
    | split

theorem retireAtStart_keeps {s0 : State} (pc : Nat) {s : State}
    (hk : Keeps s0 s) : Keeps s0 (retireAtStart pc s) := by
  conv => arg 2; fun; fun; delta retireAtStart
  repeat' first
    | with_reducible first
        | assumption | intro _ | apply recordRepair_keeps | apply modTiers_keeps | apply keeps_ite
    | split

theorem actOnCareen_keeps {s0 : State} (noSpare : List (Nat × Nat)) (test elem addr bit : Nat) (whole : Bool) {s : State}
    (hk : Keeps s0 s) : Keeps s0 (actOnCareen noSpare test elem addr bit whole s) := by
  conv => arg 2; fun; fun; fun; fun; fun; fun; fun; delta actOnCareen
  repeat' first
    | with_reducible first
        | assumption
    | exact id
    | with_reducible first
        | intro _ | apply recordRepair_keeps | apply modTiers_keeps | apply macroOut_keeps | apply coreFails_keeps
        | apply modChm_keeps | apply retireAtStart_keeps | apply modCar_keeps | apply laneOut_keeps
        | apply modEp_keeps | apply feederOut_keeps | apply sensorOut_keeps | apply keeps_ite
    | split | dsimp only
    | exact keeps_same hk ⟨rfl, rfl, rfl, rfl, rfl, rfl, rfl, rfl, rfl, rfl, rfl, rfl, rfl, ⟨rfl, rfl, rfl, rfl, rfl, rfl⟩, rfl⟩

theorem applyResult_keeps {s0 : State} (noSpare : List (Nat × Nat)) (i : Nat) {s : State}
    (hk : Keeps s0 s) : Keeps s0 (applyResult noSpare i s) := by
  conv => arg 2; fun; fun; fun; delta applyResult
  repeat' first
    | with_reducible first
        | assumption | intro _ | apply recordRepair_keeps | apply actOnCareen_keeps | apply keeps_ite
    | split | dsimp only

theorem applyCareen_keeps {s0 : State} (noSpare : List (Nat × Nat)) {s : State}
    (hk : Keeps s0 s) : Keeps s0 (applyCareen noSpare s) := by
  conv => arg 2; fun; fun; delta applyCareen
  repeat' first
    | with_reducible first
        | assumption
    | exact id
    | with_reducible first
        | intro _ | apply applyResult_keeps | apply actOnCareen_keeps | apply modCar_keeps
    | exact Nat.le_trans (Nat.le_of_eq (List.length_map _)) ‹_›
    | with_reducible first
        | apply keeps_foldl
    | dsimp only

theorem startReady_keeps {s0 : State} (noSpare : List (Nat × Nat)) {s : State}
    (hk : Keeps s0 s) : Keeps s0 (startReady noSpare s) := by
  conv => arg 2; fun; fun; delta startReady
  repeat' first
    | with_reducible first
        | assumption
    | exact id
    | with_reducible first
        | intro _ | apply applyCareen_keeps | apply applyRepair_keeps | apply modBoot_keeps
        | apply declareFailed_keeps | apply modHm_keeps | apply tryJoin_keeps | apply logPkg_keeps | apply keeps_ite
        | apply keeps_foldl
    | exact rfl | exact Nat.le_refl _ | exact Nat.min_le_right _ _ | split | dsimp only

end Sys2Proof.Machine
end

