-- ==== Sys2Proof/Laws/KeepsSecurity.lean ====
section
/-! SUPPORT. Every operation of Machine/Security.lean keeps what no command takes away (Laws/Keeps.lean). -/

namespace Sys2Proof.Machine
theorem idSign_keeps {s0 : State} (msg : List Byte) {s : State}
    (hk : Keeps s0 s) : Keeps s0 (idSign msg s).2 := by
  conv => arg 2; arg 1; fun; fun; delta idSign
  repeat' first
    | with_reducible first
        | assumption | intro _ | apply draw_keeps | apply apply_ite_keeps
    | dsimp only

theorem attestMeasure_keeps {s0 : State} (r : Request) {s : State}
    (hk : Keeps s0 s) : Keeps s0 (attestMeasure r s) := by
  conv => arg 2; fun; fun; delta attestMeasure
  repeat' first
    | with_reducible first
        | assumption | intro _ | apply reply_keeps | apply keeps_ite
    | split | dsimp only

theorem attestQuote_keeps {s0 : State} (r : Request) {s : State}
    (hk : Keeps s0 s) : Keeps s0 (attestQuote r s) := by
  conv => arg 2; fun; fun; delta attestQuote
  repeat' first
    | with_reducible first
        | assumption | intro _ | apply idSign_keeps | apply reply_keeps | apply apply_ite_keeps
    | dsimp only

theorem attestCert_keeps {s0 : State} (r : Request) {s : State}
    (hk : Keeps s0 s) : Keeps s0 (attestCert r s) := by
  conv => arg 2; fun; fun; delta attestCert
  repeat' first
    | with_reducible first
        | assumption | intro _ | apply reply_keeps | apply keeps_ite
    | split | dsimp only

theorem lcNonce_keeps {s0 : State} (r : Request) {s : State}
    (hk : Keeps s0 s) : Keeps s0 (lcNonce r s) := by
  conv => arg 2; fun; fun; delta lcNonce
  repeat' first
    | with_reducible first
        | assumption
    | exact id
    | with_reducible first
        | intro _ | apply draw_keeps | apply reply_keeps | apply modSec_keeps
    | exact ⟨rfl, rfl, rfl, rfl, rfl⟩ | dsimp only

theorem spendNonce_keeps {s0 : State} {s : State}
    (hk : Keeps s0 s) : Keeps s0 (spendNonce s) := by
  conv => arg 2; fun; delta spendNonce
  repeat' first
    | with_reducible first
        | assumption
    | exact id
    | with_reducible first
        | intro _ | apply modSec_keeps
    | exact ⟨rfl, rfl, rfl, rfl, rfl⟩ | dsimp only

theorem lcProvision_keeps {s0 : State} (r : Request) {s : State} (hk : Keeps s0 s) : Keeps s0 (lcProvision r s) := by
  conv => arg 2; fun; fun; delta lcProvision
  refine keeps_ite (fun _ => reply_keeps _ _ _ hk) fun h => reply_keeps _ _ _ (enterLife_keeps _ (fun _ => by decide) (fun d => ?_)
    (modSec_keeps _ ⟨rfl, rfl, rfl, rfl, rfl⟩ id id hk))
  have := (hk.retired d).1
  omega

theorem lcSeal_keeps {s0 : State} (r : Request) {s : State} (hk : Keeps s0 s) : Keeps s0 (lcSeal r s) := by
  conv => arg 2; fun; fun; delta lcSeal
  refine keeps_ite (fun _ => reply_keeps _ _ _ hk) fun h => keeps_ite (fun _ => reply_keeps _ _ _ hk) fun _ =>
    reply_keeps _ _ _ (settleStages_keeps (enterLife_keeps _ (fun _ => by decide) (fun d => ?_) (modBnd_keeps _ hk)))
  have := (hk.retired d).1
  omega

theorem lcStop_keeps {s0 : State} (n : Nat) (r : Request) {s : State} (hn : n = 1 ∨ n = 3) (hr : ¬ Retired s0)
    (hk : Keeps s0 s) : Keeps s0 (lcStop n r s) := by
  have h1 : Keeps s0 (modSec (fun x => { x with stopping := some (n, r), stopCommits := 0, stopStopped := 0 }) s) :=
    modSec_keeps_from _ ⟨rfl, rfl, rfl, rfl, rfl⟩ (fun _ l => ⟨l.1, fun _ _ e => by cases Option.some.inj e; exact hn⟩)
      (fun d _ => absurd d hr) hk
  conv => arg 2; fun; fun; fun; delta lcStop
  exact stopOn_keeps (keeps_ite (fun _ => stopSteps_keeps h1) fun _ => h1)

theorem lcUnseal_keeps {s0 : State} (r : Request) {s : State} (hk : Keeps s0 s) : Keeps s0 (lcUnseal r s) := by
  conv => arg 2; fun; fun; delta lcUnseal
  refine keeps_ite (fun _ => reply_keeps _ _ _ hk) fun h => keeps_ite (fun _ => reply_keeps _ _ _ (spendNonce_keeps hk)) fun _ =>
    lcStop_keeps _ _ (Or.inl rfl) (fun d => ?_) (spendNonce_keeps hk)
  have := (hk.retired d).1
  omega

theorem lcReturn_keeps {s0 : State} (r : Request) {s : State} (hk : Keeps s0 s) : Keeps s0 (lcReturn r s) := by
  have live : ¬ ((s.sec.lifecycle ≠ 1 ∧ s.sec.lifecycle ≠ 2) ∨ s.sec.stopping.isSome = true) → ¬ Retired s0 := fun h d => by
    have := (hk.retired d).1
    omega
  conv => arg 2; fun; fun; delta lcReturn
  refine keeps_ite (fun _ => reply_keeps _ _ _ hk) fun h => keeps_ite (fun _ => reply_keeps _ _ _ (spendNonce_keeps hk)) fun _ =>
    keeps_ite (fun _ => reply_keeps _ _ _ (recordLife_keeps _ (fun _ => by decide) (fun d => absurd d (live h)) (spendNonce_keeps hk)))
      fun _ => lcStop_keeps _ _ (Or.inr rfl) (live h) (spendNonce_keeps hk)

theorem eraseRecords_keeps {s0 : State} {s : State} (hk : Keeps s0 s) : Keeps s0 (eraseRecords s) := by
  conv => arg 2; fun; delta eraseRecords
  refine modSec_keeps _ ⟨rfl, rfl, rfl, rfl, rfl⟩ ?_ ?_ (modCar_keeps _ ?_ (modBoot_keeps _ ?_ ?_ ?_ (modBnd_keeps _ (modLog_keeps _ ?_ ?_ ?_
      (modHealth_keeps _ ?_ hk)))))
  · exact fun l => ⟨l.1, fun _ _ e => nomatch e⟩
  · exact fun d => ⟨d.1, rfl⟩
  · exact fun _ => Nat.zero_le _
  · rfl
  · exact Nat.le_refl _
  · exact id
  · exact id
  · exact fun _ => Nat.zero_le _
  · exact id
  · exact fun _ => Nat.zero_le _

theorem holdRetired_keeps {s0 : State} {s : State}
    (hk : Keeps s0 s) : Keeps s0 (holdRetired s) := by
  conv => arg 2; fun; delta holdRetired
  repeat' first
    | with_reducible first
        | assumption | intro _ | apply dryOut_keeps | apply loseSram_keeps | apply forgetFabric_keeps
        | apply portsOff_keeps | apply modHm_keeps | apply modPw_keeps | apply holdDead_keeps
        | apply eraseRecords_keeps | apply modJournal_keeps
    | dsimp only | apply parts_keeps

theorem lcRetire_keeps {s0 : State} (r : Request) {s : State} (hk : Keeps s0 s) : Keeps s0 (lcRetire r s) := by
  conv => arg 2; fun; fun; delta lcRetire
  exact keeps_ite (fun _ => reply_keeps _ _ _ hk) fun _ => keeps_ite (fun _ => reply_keeps _ _ _ (spendNonce_keeps hk)) fun _ =>
    holdRetired_keeps (reply_keeps _ _ _ (enterLife_keeps _ (fun _ => by decide) (fun _ => rfl) hk))

theorem lcKeys_keeps {s0 : State} (dma : Option (List Word)) (r : Request) {s : State}
    (hk : Keeps s0 s) : Keeps s0 (lcKeys dma r s) := by
  conv => arg 2; fun; fun; fun; delta lcKeys
  repeat' first
    | with_reducible first
        | assumption
    | exact id
    | with_reducible first
        | intro _ | apply dmaFailed_keeps | apply countRead_keeps | apply reply_keeps | apply logPkg_keeps
        | apply modSec_keeps | apply keeps_ite
    | exact ⟨rfl, rfl, rfl, rfl, rfl⟩ | split | dsimp only

theorem fwWritten_keeps {s0 : State} (r : Request) (b : Bool) (ws : List Word) {s : State}
    (hk : Keeps s0 s) : Keeps s0 (fwWritten r b ws s) := by
  conv => arg 2; fun; fun; fun; fun; delta fwWritten
  repeat' first
    | with_reducible first
        | assumption | intro _ | apply reply_keeps | apply setSlot_keeps | apply countWritten_keeps
        | apply coldState_keeps | apply keeps_ite
    | split | dsimp only

theorem fwWrite_keeps {s0 : State} (dma : Option (List Word)) (r : Request) {s : State}
    (hk : Keeps s0 s) : Keeps s0 (fwWrite dma r s) := by
  conv => arg 2; fun; fun; fun; delta fwWrite
  repeat' first
    | with_reducible first
        | assumption
    | exact id
    | with_reducible first
        | intro _ | apply reply_keeps | apply setSlot_keeps | apply modSec_keeps | apply dmaFailed_keeps
        | apply fwWritten_keeps | apply countRead_keeps | apply keeps_ite
    | exact ⟨rfl, rfl, rfl, rfl, rfl⟩ | split | dsimp only

theorem fwData_keeps {s0 : State} (r : Request) {s : State}
    (hk : Keeps s0 s) : Keeps s0 (fwData r s) := by
  conv => arg 2; fun; fun; delta fwData
  repeat' first
    | with_reducible first
        | assumption
    | exact id
    | with_reducible first
        | intro _ | apply reply_keeps | apply countWritten_keeps | apply modSec_keeps | apply fwWritten_keeps
        | apply keeps_ite
    | exact ⟨rfl, rfl, rfl, rfl, rfl⟩ | split | dsimp only

theorem fwPrefer_keeps {s0 : State} (r : Request) {s : State}
    (hk : Keeps s0 s) : Keeps s0 (fwPrefer r s) := by
  conv => arg 2; fun; fun; delta fwPrefer
  repeat' first
    | with_reducible first
        | assumption
    | exact id
    | with_reducible first
        | intro _ | apply reply_keeps | apply modBoot_keeps | apply keeps_ite
    | exact rfl | exact Nat.le_refl _ | split | dsimp only

theorem fwCommit_keeps {s0 : State} (r : Request) {s : State} (hk : Keeps s0 s) : Keeps s0 (fwCommit r s) := by
  conv => arg 2; fun; fun; delta fwCommit
  exact keeps_ite (fun _ => reply_keeps _ _ _ hk) fun h => keeps_ite (fun _ => reply_keeps _ _ _ hk) fun h63 =>
    reply_keeps _ _ _ (logPkg_keeps _ _ _ _ (modBoot_keeps _ rfl (Nat.le_of_lt (Nat.lt_of_not_le h)) (fun _ => Nat.le_of_not_lt h63) hk))

theorem modSpdm_keeps {s0 : State} (doe : Bool) (f : Spdm → Spdm) {s : State} (hk : Keeps s0 s) : Keeps s0 (modSpdm doe f s) := by
  cases doe
  · exact modSec_keeps _ ⟨rfl, rfl, rfl, rfl, rfl⟩ id id hk
  · exact modSec_keeps _ ⟨rfl, rfl, rfl, rfl, rfl⟩ id id hk

theorem spdmSend_keeps {s0 : State} (doe : Bool) (bs : List Byte) {s : State}
    (hk : Keeps s0 s) : Keeps s0 (spdmSend doe bs s) := by
  conv => arg 2; fun; fun; fun; delta spdmSend
  repeat' first
    | with_reducible first
        | assumption | intro _ | apply emit_keeps | apply modSpdm_keeps | apply reply_keeps | apply keeps_ite
    | split | dsimp only

theorem spdmAnswer_keeps {s0 : State} (doe : Bool) (code p1 p2 : Nat) (known : List Byte) (n : Nat) {s : State}
    (hk : Keeps s0 s) : Keeps s0 (spdmAnswer doe code p1 p2 known n s) := by
  conv => arg 2; fun; fun; fun; fun; fun; fun; fun; delta spdmAnswer
  repeat' first
    | with_reducible first
        | assumption | intro _ | apply draw_keeps | apply spdmSend_keeps
    | dsimp only

theorem spdmError_keeps {s0 : State} (doe : Bool) (why : Nat) {s : State}
    (hk : Keeps s0 s) : Keeps s0 (spdmError doe why s) := by
  conv => arg 2; fun; fun; fun; delta spdmError
  repeat' first
    | with_reducible first
        | assumption | intro _ | apply spdmAnswer_keeps

theorem spdmReady_keeps {s0 : State} (doe : Bool) (f : State → State) {s : State} (hf : ∀ x0, Keeps s0 x0 → Keeps s0 (f x0))
    (hk : Keeps s0 s) : Keeps s0 (spdmReady doe f s) := by
  conv => arg 2; fun; fun; fun; delta spdmReady
  repeat' first
    | with_reducible first
        | assumption | intro _ | apply spdmError_keeps | apply hf | apply keeps_ite
    | split

theorem spdmVersion_keeps {s0 : State} (doe : Bool) {s : State}
    (hk : Keeps s0 s) : Keeps s0 (spdmVersion doe s) := by
  conv => arg 2; fun; fun; delta spdmVersion
  repeat' first
    | with_reducible first
        | assumption | intro _ | apply spdmSend_keeps | apply modSpdm_keeps | apply keeps_ite
    | split | dsimp only

theorem spdmCaps_keeps {s0 : State} (doe : Bool) (msg : List Byte) {s : State}
    (hk : Keeps s0 s) : Keeps s0 (spdmCaps doe msg s) := by
  conv => arg 2; fun; fun; fun; delta spdmCaps
  repeat' first
    | with_reducible first
        | assumption | intro _ | apply spdmError_keeps | apply spdmAnswer_keeps | apply modSpdm_keeps
        | apply keeps_ite
    | split | dsimp only

theorem spdmAlgs_keeps {s0 : State} (doe : Bool) {s : State}
    (hk : Keeps s0 s) : Keeps s0 (spdmAlgs doe s) := by
  conv => arg 2; fun; fun; delta spdmAlgs
  repeat' first
    | with_reducible first
        | assumption | intro _ | apply spdmError_keeps | apply spdmAnswer_keeps | apply modSpdm_keeps
        | apply keeps_ite
    | split | dsimp only

theorem spdmCert_keeps {s0 : State} (doe : Bool) (msg : List Byte) {s : State}
    (hk : Keeps s0 s) : Keeps s0 (spdmCert doe msg s) := by
  conv => arg 2; fun; fun; fun; delta spdmCert
  repeat' first
    | with_reducible first
        | assumption | intro _ | apply spdmError_keeps | apply spdmAnswer_keeps | apply keeps_ite
    | split | dsimp only

theorem spdmSigned_keeps {s0 : State} (doe : Bool) (msg : List Byte) (code p1 p2 : Nat) (known : List Byte) {s : State}
    (hk : Keeps s0 s) : Keeps s0 (spdmSigned doe msg code p1 p2 known s) := by
  conv => arg 2; fun; fun; fun; fun; fun; fun; fun; delta spdmSigned
  repeat' first
    | with_reducible first
        | assumption | intro _ | apply draw_keeps | apply idSign_keeps | apply spdmAnswer_keeps
        | apply apply_ite_keeps
    | dsimp only

theorem spdmMeasure_keeps {s0 : State} (doe : Bool) (msg : List Byte) {s : State}
    (hk : Keeps s0 s) : Keeps s0 (spdmMeasure doe msg s) := by
  conv => arg 2; fun; fun; fun; delta spdmMeasure
  repeat' first
    | with_reducible first
        | assumption | intro _ | apply spdmError_keeps | apply spdmSigned_keeps | apply spdmAnswer_keeps
        | apply keeps_ite
    | split | dsimp only

theorem spdmSession_keeps {s0 : State} (doe : Bool) (f : State → State) {s : State} (hf : ∀ x0, Keeps s0 x0 → Keeps s0 (f x0))
    (hk : Keeps s0 s) : Keeps s0 (spdmSession doe f s) := by
  conv => arg 2; fun; fun; fun; delta spdmSession
  repeat' first
    | with_reducible first
        | assumption | intro _ | apply spdmReady_keeps | apply spdmError_keeps | apply hf | apply keeps_ite
    | split

theorem spdmKeyExchange_keeps {s0 : State} (doe : Bool) (msg : List Byte) {s : State}
    (hk : Keeps s0 s) : Keeps s0 (spdmKeyExchange doe msg s) := by
  conv => arg 2; fun; fun; fun; delta spdmKeyExchange
  repeat' first
    | with_reducible first
        | assumption | intro _ | apply draw_keeps | apply spdmSigned_keeps | apply modSpdm_keeps
    | dsimp only

theorem spdmFinish_keeps {s0 : State} (doe good : Bool) {s : State}
    (hk : Keeps s0 s) : Keeps s0 (spdmFinish doe good s) := by
  conv => arg 2; fun; fun; fun; delta spdmFinish
  repeat' first
    | with_reducible first
        | assumption | intro _ | apply spdmError_keeps | apply spdmAnswer_keeps | apply modSpdm_keeps
        | apply keeps_ite
    | split | dsimp only

theorem spdmKeyUpdate_keeps {s0 : State} (doe : Bool) (msg : List Byte) {s : State}
    (hk : Keeps s0 s) : Keeps s0 (spdmKeyUpdate doe msg s) := by
  conv => arg 2; fun; fun; fun; delta spdmKeyUpdate
  repeat' first
    | with_reducible first
        | assumption | intro _ | apply spdmError_keeps | apply spdmAnswer_keeps | apply modSpdm_keeps
        | apply keeps_ite
    | split | dsimp only

theorem spdmEnd_keeps {s0 : State} (doe : Bool) {s : State}
    (hk : Keeps s0 s) : Keeps s0 (spdmEnd doe s) := by
  conv => arg 2; fun; fun; delta spdmEnd
  repeat' first
    | with_reducible first
        | assumption | intro _ | apply spdmError_keeps | apply spdmAnswer_keeps | apply modSpdm_keeps
        | apply keeps_ite
    | split | dsimp only

theorem ideKm_keeps {s0 : State} (msg : List Byte) {s : State}
    (hk : Keeps s0 s) : Keeps s0 (ideKm msg s) := by
  conv => arg 2; fun; fun; delta ideKm
  repeat' first
    | with_reducible first
        | assumption | intro _ | apply draw_keeps | apply spdmSend_keeps | apply modEp_keeps | apply keeps_ite
    | split | dsimp only

theorem ideFails_keeps {s0 : State} (stream : Nat) {s : State}
    (hk : Keeps s0 s) : Keeps s0 (ideFails stream s) := by
  conv => arg 2; fun; fun; delta ideFails
  repeat' first
    | with_reducible first
        | assumption | intro _ | apply logPkg_keeps | apply modEp_keeps | apply keeps_ite
    | split | dsimp only

end Sys2Proof.Machine
end

