-- ==== Sys2Proof/Laws/KeepsSideband.lean ====
section
/-! SUPPORT. Every operation of Machine/Sideband.lean keeps what no command takes away (Laws/Keeps.lean). -/

namespace Sys2Proof.Machine
theorem sidebandMsg_keeps {s0 : State} (msg : List Word) {s : State}
    (hk : Keeps s0 s) : Keeps s0 (sidebandMsg msg s) := by
  conv => arg 2; fun; fun; delta sidebandMsg
  repeat' first
    | with_reducible first
        | assumption | intro _ | apply emit_keeps | apply totAdd_keeps | apply receive_keeps | apply modMbx_keeps
        | apply keeps_ite
    | split | dsimp only | apply mbx_keeps

theorem sidebandSend_keeps {s0 : State} (bs : List Byte) {s : State}
    (hk : Keeps s0 s) : Keeps s0 (sidebandSend bs s) := by
  conv => arg 2; fun; fun; delta sidebandSend
  repeat' first
    | with_reducible first
        | assumption | intro _ | apply emit_keeps | apply modSb_keeps | apply reply_keeps
    | dsimp only

theorem mctpMsg_keeps {s0 : State} (cmd : Nat) (data : List Byte) {s : State}
    (hk : Keeps s0 s) : Keeps s0 (mctpMsg cmd data s) := by
  conv => arg 2; fun; fun; fun; delta mctpMsg
  repeat' first
    | with_reducible first
        | assumption | intro _ | apply modSb_keeps | apply sidebandSend_keeps | apply keeps_ite
    | split | dsimp only

theorem pldmMsg_keeps {s0 : State} (ty cmd : Nat) (data : List Byte) {s : State}
    (hk : Keeps s0 s) : Keeps s0 (pldmMsg ty cmd data s) := by
  conv => arg 2; fun; fun; fun; fun; delta pldmMsg
  repeat' first
    | with_reducible first
        | assumption | intro _ | apply draw_keeps | apply sidebandSend_keeps | apply keeps_ite
    | split | dsimp only

theorem sensorsIn_keeps {s0 : State} (rs : List Nat) {s : State}
    (hk : Keeps s0 s) : Keeps s0 (sensorsIn rs s) := by
  conv => arg 2; fun; fun; delta sensorsIn
  repeat' first
    | with_reducible first
        | assumption | intro _ | apply modSb_keeps | apply keeps_ite
    | split | dsimp only | apply now_keeps

end Sys2Proof.Machine
end

