-- ==== Sys2Proof/Laws/KeepsCareen.lean ====
section
/-! SUPPORT. Every operation of Machine/Careen.lean keeps what no command takes away (Laws/Keeps.lean). -/

namespace Sys2Proof.Machine
theorem setAt_length {α : Type} (xs : List α) (i : Nat) (x : α) : (setAt xs i x).length = xs.length := by
  induction xs generalizing i with
  | nil => rfl
  | cons y ys ih =>
    cases i with
    | zero => rfl
    | succ i => simp only [setAt, List.length_cons, ih]

theorem ringPut_length {ring out : List (List Word)} {r : List Word} (h : ring.length ≤ 4096) (e : ringPut ring r = some out) :
    out.length ≤ 4096 := by
  unfold ringPut at e
  split at e
  · cases e; simp only [List.length_append, List.length_singleton]; omega
  · obtain ⟨i, -, rfl⟩ := Option.map_eq_some_iff.mp e
    rw [setAt_length]; exact h

theorem setInt_car (b : Nat) (s : State) : (setInt b s).car = s.car := by
  have h : ∀ fn v (t : State), (raiseMsix fn v t).car = t.car := fun fn v t => by
    unfold raiseMsix
    dsimp only
    repeat' split
    all_goals rfl
  unfold setInt
  dsimp only
  split
  · exact h _ _ _
  · rfl

theorem logWrite_car (c : Nat) (f : Bool) (ws : List Word) (s : State) : (logWrite c f ws s).car = s.car := by
  unfold logWrite
  dsimp only
  split
  · rw [setInt_car, setInt_car]; rfl
  · rw [setInt_car]; rfl

theorem logPkg_car (c : Nat) (f : Bool) (a b : Nat) (s : State) : (logPkg c f a b s).car = s.car := by
  unfold logPkg logEvent
  dsimp only
  split
  · exact logWrite_car _ _ _ _
  · split
    · rw [logWrite_car]; rfl
    · rfl

theorem recordFinding_keeps {s0 : State} (q : CareenRun × State) (f : Finding) (hk : Keeps s0 q.2) : Keeps s0 (recordFinding q f).2 := by
  have h1 : Keeps s0 (if f.outcome = 1 ∧ failKey f ∉ q.1.named then logPkg 0x1103 false f.element f.test q.2 else q.2) :=
    keeps_ite (fun _ => logPkg_keeps _ _ _ _ hk) fun _ => hk
  have e : (if f.outcome = 1 ∧ failKey f ∉ q.1.named then logPkg 0x1103 false f.element f.test q.2 else q.2).car = q.2.car := by
    split
    · exact logPkg_car ..
    · rfl
  conv => arg 2; arg 1; fun; fun; delta recordFinding
  simp only [decide_eq_true_eq]
  refine apply_ite_keeps hk ?_
  split
  · rename_i ring hr
    dsimp only
    refine modCar_keeps _ (fun h => ?_) h1
    rw [e] at h
    exact ringPut_length h hr
  · exact apply_ite_keeps h1 (logPkg_keeps _ _ _ _ (modCar_keeps _ id h1))

theorem recordAll_keeps {s0 : State} (fs : List Finding) (run : CareenRun) {s : State}
    (hk : Keeps s0 s) : Keeps s0 (recordAll fs run s).2 := by
  conv => arg 2; arg 1; fun; fun; fun; delta recordAll
  repeat' first
    | with_reducible first
        | assumption | intro _ | apply recordFinding_keeps | apply apply_ite_keeps | apply keeps_foldl
        | apply keeps_foldl_snd
    | dsimp only

theorem finishRun_keeps {s0 : State} (r : CareenRun) (complete : Bool) {s : State}
    (hk : Keeps s0 s) : Keeps s0 (finishRun r complete s) := by
  conv => arg 2; fun; fun; fun; delta finishRun
  repeat' first
    | with_reducible first
        | assumption
    | exact id
    | with_reducible first
        | intro _ | apply logPkg_keeps | apply complete_keeps | apply modCar_keeps
    | dsimp only

theorem newRun_keeps {s0 : State} (kind tests elem : Nat) (block : Nat × Nat) {s : State}
    (hk : Keeps s0 s) : Keeps s0 (newRun kind tests elem block s).2 := by
  conv => arg 2; arg 1; fun; fun; fun; fun; fun; delta newRun
  repeat' first
    | with_reducible first
        | assumption
    | exact id
    | with_reducible first
        | intro _ | apply logPkg_keeps | apply modCar_keeps | apply apply_ite_keeps
    | dsimp only

theorem careenSummary_keeps {s0 : State} (r : Request) {s : State}
    (hk : Keeps s0 s) : Keeps s0 (careenSummary r s) := by
  conv => arg 2; fun; fun; delta careenSummary
  repeat' first
    | with_reducible first
        | assumption | intro _ | apply reply_keeps

theorem careenResults_keeps {s0 : State} (r : Request) {s : State}
    (hk : Keeps s0 s) : Keeps s0 (careenResults r s) := by
  conv => arg 2; fun; fun; delta careenResults
  repeat' first
    | with_reducible first
        | assumption | intro _ | apply reply_keeps
    | dsimp only

theorem pinRatios_keeps {s0 : State} {s : State}
    (hk : Keeps s0 s) : Keeps s0 (pinRatios s) := by
  conv => arg 2; fun; delta pinRatios
  repeat' first
    | with_reducible first
        | assumption | intro _ | apply modDv_keeps
    | dsimp only

theorem endInService_keeps {s0 : State} {s : State}
    (hk : Keeps s0 s) : Keeps s0 (endInService s) := by
  conv => arg 2; fun; delta endInService
  repeat' first
    | with_reducible first
        | assumption
    | exact id
    | with_reducible first
        | intro _ | apply modCar_keeps | apply finishRun_keeps
    | split | dsimp only

theorem shutdownBegins_keeps {s0 : State} {s : State}
    (hk : Keeps s0 s) : Keeps s0 (shutdownBegins s) := by
  conv => arg 2; fun; delta shutdownBegins
  repeat' first
    | with_reducible first
        | assumption
    | exact id
    | with_reducible first
        | intro _ | apply loseSram_keeps | apply forgetFabric_keeps | apply portsOff_keeps | apply modDv_keeps
        | apply newRun_keeps | apply modCar_keeps | apply apply_ite_keeps
    | dsimp only

theorem careenOn_keeps {s0 : State} {s : State}
    (hk : Keeps s0 s) : Keeps s0 (careenOn s) := by
  conv => arg 2; fun; delta careenOn
  repeat' first
    | with_reducible first
        | assumption | intro _ | apply depart_keeps | apply shutdownBegins_keeps | apply keeps_ite
    | split | dsimp only

theorem careenShutdown_keeps {s0 : State} (r : Request) {s : State}
    (hk : Keeps s0 s) : Keeps s0 (careenShutdown r s) := by
  conv => arg 2; fun; fun; delta careenShutdown
  repeat' first
    | with_reducible first
        | assumption
    | exact id
    | with_reducible first
        | intro _ | apply reply_keeps | apply careenOn_keeps | apply modCar_keeps | apply pinRatios_keeps
        | apply endInService_keeps | apply keeps_ite
    | split | dsimp only

theorem careenRun_keeps {s0 : State} (r : Request) {s : State}
    (hk : Keeps s0 s) : Keeps s0 (careenRun r s) := by
  conv => arg 2; fun; fun; delta careenRun
  repeat' first
    | with_reducible first
        | assumption
    | exact id
    | with_reducible first
        | intro _ | apply reply_keeps | apply newRun_keeps | apply finishRun_keeps | apply loseSram_keeps
        | apply portsOff_keeps | apply pinRatios_keeps | apply modEp_keeps | apply linkDown_keeps | apply modCar_keeps
        | apply keeps_ite | apply apply_ite_keeps
    | split | dsimp only

theorem careenAbort_keeps {s0 : State} (r : Request) {s : State}
    (hk : Keeps s0 s) : Keeps s0 (careenAbort r s) := by
  conv => arg 2; fun; fun; delta careenAbort
  repeat' first
    | with_reducible first
        | assumption
    | exact id
    | with_reducible first
        | intro _ | apply reply_keeps | apply modCar_keeps
    | dsimp only

theorem careenClear_keeps {s0 : State} (r : Request) {s : State}
    (hk : Keeps s0 s) : Keeps s0 (careenClear r s) := by
  conv => arg 2; fun; fun; delta careenClear
  repeat' first
    | with_reducible first
        | assumption
    | exact id
    | with_reducible first
        | intro _ | apply reply_keeps | apply modCar_keeps | apply keeps_ite
    | exact Nat.zero_le _ | split | dsimp only

theorem shutdownEnds_keeps {s0 : State} (r : CareenRun) {s : State}
    (hk : Keeps s0 s) : Keeps s0 (shutdownEnds r s) := by
  conv => arg 2; fun; fun; delta shutdownEnds
  repeat' first
    | with_reducible first
        | assumption
    | exact id
    | with_reducible first
        | intro _ | apply modBoot_keeps | apply modCar_keeps | apply finishRun_keeps | apply arriveAt_keeps
        | apply goDown_keeps | apply modEp_keeps
    | exact rfl | exact Nat.le_refl _ | dsimp only

theorem phaseDone_keeps {s0 : State} (fs : List Finding) (peak : Nat) {s : State}
    (hk : Keeps s0 s) : Keeps s0 (phaseDone fs peak s) := by
  conv => arg 2; fun; fun; fun; delta phaseDone
  repeat' first
    | with_reducible first
        | assumption
    | exact id
    | with_reducible first
        | intro _ | apply careenOn_keeps | apply recordAll_keeps | apply shutdownEnds_keeps | apply modEp_keeps
        | apply linkDown_keeps | apply modCar_keeps | apply keeps_ite | apply apply_ite_keeps
    | split | dsimp only | refine keeps_of_snd (by with_reducible assumption) ?_

theorem engineDone_keeps {s0 : State} (fs : List Finding) (peak : Nat) {s : State}
    (hk : Keeps s0 s) : Keeps s0 (engineDone fs peak s) := by
  conv => arg 2; fun; fun; fun; delta engineDone
  repeat' first
    | with_reducible first
        | assumption
    | exact id
    | with_reducible first
        | intro _ | apply recordAll_keeps | apply modCar_keeps | apply finishRun_keeps | apply enterState_keeps
        | apply portsDetect_keeps | apply modEp_keeps | apply keeps_ite | apply apply_ite_keeps
    | split | dsimp only | refine keeps_of_snd (by with_reducible assumption) ?_

theorem recordUntested_keeps {s0 : State} (b : Nat × Nat) (outcome : Nat) {s : State}
    (hk : Keeps s0 s) : Keeps s0 (recordUntested b outcome s) := by
  conv => arg 2; fun; fun; fun; delta recordUntested
  repeat' first
    | with_reducible first
        | assumption | intro _ | apply newRun_keeps | apply recordAll_keeps | apply finishRun_keeps
        | apply apply_ite_keeps
    | dsimp only

theorem inServiceStart_keeps {s0 : State} {s : State}
    (hk : Keeps s0 s) : Keeps s0 (inServiceStart s) := by
  conv => arg 2; fun; delta inServiceStart
  repeat' first
    | with_reducible first
        | assumption
    | exact id
    | with_reducible first
        | intro _ | apply modCar_keeps | apply recordUntested_keeps | apply newRun_keeps | apply draw_keeps
        | apply modDv_keeps | apply keeps_ite | apply apply_ite_keeps
    | split | dsimp only | refine keeps_of_snd (by with_reducible assumption) ?_

theorem reinit_keeps {s0 : State} (b : Nat × Nat) {s : State} (hk : Keeps s0 s) : Keeps s0 (reinit b s) := by
  conv => arg 2; fun; fun; delta reinit
  refine keeps_ite (fun _ => hk) fun _ => keeps_trans hk ⟨rfl, List.prefix_refl _, fun m => ⟨memWf_clear (memWf_clear m.1 _ _) _ _, m.2⟩,
    id, id, id, id, ⟨rfl, rfl, rfl, rfl, rfl, rfl⟩, Nat.le_refl _, id⟩

theorem inServiceDone_keeps {s0 : State} (fs : List Finding) (repairable : Bool) {s : State}
    (hk : Keeps s0 s) : Keeps s0 (inServiceDone fs repairable s) := by
  conv => arg 2; fun; fun; fun; delta inServiceDone
  repeat' first
    | with_reducible first
        | assumption
    | exact id
    | with_reducible first
        | intro _ | apply recordAll_keeps | apply finishRun_keeps | apply modCar_keeps | apply reinit_keeps
        | apply keeps_ite | apply apply_ite_keeps
    | split | dsimp only | refine keeps_of_snd (by with_reducible assumption) ?_

end Sys2Proof.Machine
end

