-- ==== Sys2Proof/Laws/KeepsStats.lean ====
section
/-! SUPPORT. Every operation of Machine/Stats.lean keeps what no command takes away (Laws/Keeps.lean). -/

namespace Sys2Proof.Machine
theorem statsReply_keeps {s0 : State} (r : Request) (item : List Word) {s : State}
    (hk : Keeps s0 s) : Keeps s0 (statsReply r item s) := by
  conv => arg 2; fun; fun; fun; delta statsReply
  repeat' first
    | with_reducible first
        | assumption | intro _ | apply reply_keeps
    | dsimp only

theorem statsRead_keeps {s0 : State} (r : Request) {s : State}
    (hk : Keeps s0 s) : Keeps s0 (statsRead r s) := by
  conv => arg 2; fun; fun; delta statsRead
  repeat' first
    | with_reducible first
        | assumption | intro _ | apply reply_keeps | apply statsReply_keeps | apply modStat_keeps | apply keeps_ite
    | split | dsimp only
    | exact keeps_same hk ⟨rfl, rfl, rfl, rfl, rfl, rfl, rfl, rfl, rfl, rfl, rfl, rfl, rfl, ⟨rfl, rfl, rfl, rfl, rfl, rfl⟩, rfl⟩

theorem logRead_keeps {s0 : State} (r : Request) {s : State}
    (hk : Keeps s0 s) : Keeps s0 (logRead r s) := by
  conv => arg 2; fun; fun; delta logRead
  repeat' first
    | with_reducible first
        | assumption | intro _ | apply reply_keeps | apply keeps_ite
    | split | dsimp only

end Sys2Proof.Machine
end

