-- ==== Sys2Proof/Laws/KeepsExec.lean ====
section
/-! SUPPORT. Every command keeps what no command takes away (Laws/Keeps.lean). -/

namespace Sys2Proof.Machine

/-- One next state. -/
theorem next_inj {a b : State} (h : (Host.Outcome.next a : Host.Outcome State Fault Refusal) = .next b) : a = b := by injection h

theorem execMbxPost_keeps {m : MbxId} {len : Nat} {s t : State} (h : execMbxPost m len s = .next t) : Keeps s t := by
  have e := next_inj h; subst e; have hk := keeps_refl s
  with_reducible (repeat' first | assumption | intro _ | apply postMbx_keeps)
theorem execMbxAck_keeps {m : MbxId} {val : Word} {s t : State} (h : execMbxAck m val s = .next t) : Keeps s t := by
  have e := next_inj h; subst e; have hk := keeps_refl s
  with_reducible (repeat' first | assumption | intro _ | apply ackMbx_keeps)
theorem execHmIntStatusClear_keeps {val : Word} {s t : State} (h : execHmIntStatusClear val s = .next t) : Keeps s t := by
  have e := next_inj h; subst e; have hk := keeps_refl s
  with_reducible (repeat' first | assumption | intro _ | apply clearInt_keeps)
theorem execMbxVfEventClear_keeps {vf : Fin 32} {val : Word} {s t : State} (h : execMbxVfEventClear vf val s = .next t) : Keeps s t := by
  have e := next_inj h; subst e; have hk := keeps_refl s
  with_reducible (repeat' first | assumption | intro _ | apply clearVfEvent_keeps)
theorem execHmTimeLoRead_keeps {s t : State} (h : execHmTimeLoRead s = .next t) : Keeps s t := by
  have e := next_inj h; subst e; have hk := keeps_refl s
  with_reducible (repeat' first | assumption | intro _ | apply modHm_keeps | apply now_keeps | apply bus_keeps | apply bus_keeps | dsimp only)
theorem execHmLogSeqLoRead_keeps {s t : State} (h : execHmLogSeqLoRead s = .next t) : Keeps s t := by
  have e := next_inj h; subst e; have hk := keeps_refl s
  with_reducible (repeat' first | assumption | intro _ | apply modHm_keeps | apply bus_keeps | apply bus_keeps | dsimp only)
theorem execRegisterWrite_keeps {fn : FnId} {bar2 : Bool} {off : Nat} {val : Word} {s t : State} (h : execRegisterWrite fn bar2 off val s = .next t) : Keeps s t := by
  have e := next_inj h; subst e; have hk := keeps_refl s
  with_reducible (repeat' first | assumption | intro _ | apply writeReg_keeps)
theorem execPartOpen_keeps {m : MbxId} {s t : State} (h : execPartOpen m s = .next t) : Keeps s t := by
  have e := next_inj h; subst e; have hk := keeps_refl s
  with_reducible (repeat' first | assumption | intro _ | apply takeCmd_keeps | apply partOpen_keeps)
theorem execPartClose_keeps {m : MbxId} {s t : State} (h : execPartClose m s = .next t) : Keeps s t := by
  have e := next_inj h; subst e; have hk := keeps_refl s
  with_reducible (repeat' first | assumption | intro _ | apply takeCmd_keeps | apply partClose_keeps)
theorem execImageLoad_keeps {m : MbxId} {dma : Option (List Word)} {s t : State} (h : execImageLoad m dma s = .next t) : Keeps s t := by
  have e := next_inj h; subst e; have hk := keeps_refl s
  with_reducible (repeat' first | assumption | intro _ | apply takeCmd_keeps | apply imageLoad_keeps)
theorem execImageFree_keeps {m : MbxId} {s t : State} (h : execImageFree m s = .next t) : Keeps s t := by
  have e := next_inj h; subst e; have hk := keeps_refl s
  with_reducible (repeat' first | assumption | intro _ | apply takeCmd_keeps | apply imageFree_keeps)
theorem execConfigStage_keeps {m : MbxId} {s t : State} (h : execConfigStage m s = .next t) : Keeps s t := by
  have e := next_inj h; subst e; have hk := keeps_refl s
  with_reducible (repeat' first | assumption | intro _ | apply takeStage_keeps)
theorem execConfigStageFailover_keeps {m : MbxId} {s t : State} (h : execConfigStageFailover m s = .next t) : Keeps s t := by
  have e := next_inj h; subst e; have hk := keeps_refl s
  with_reducible (repeat' first | assumption | intro _ | apply takeStage_keeps)
theorem execConfigSwap_keeps {m : MbxId} {s t : State} (h : execConfigSwap m s = .next t) : Keeps s t := by
  have e := next_inj h; subst e; have hk := keeps_refl s
  with_reducible (repeat' first | assumption | intro _ | apply takeSwap_keeps | apply configSwap_keeps)
theorem execConfigSwapCancel_keeps {m : MbxId} {s t : State} (h : execConfigSwapCancel m s = .next t) : Keeps s t := by
  have e := next_inj h; subst e; have hk := keeps_refl s
  with_reducible (repeat' first | assumption | intro _ | apply takeSwap_keeps | apply configSwapCancel_keeps)
theorem execConfigSet_keeps {m : MbxId} {s t : State} (h : execConfigSet m s = .next t) : Keeps s t := by
  have e := next_inj h; subst e; have hk := keeps_refl s
  with_reducible (repeat' first | assumption | intro _ | apply takeCmd_keeps | apply configSet_keeps)
theorem execConfigRead_keeps {m : MbxId} {s t : State} (h : execConfigRead m s = .next t) : Keeps s t := by
  have e := next_inj h; subst e; have hk := keeps_refl s
  with_reducible (repeat' first | assumption | intro _ | apply takeCmd_keeps | apply configRead_keeps)
theorem execStepSubmit_keeps {m : MbxId} {seqs : Option (List Word)} {input : Option (List Byte)} {s t : State} (h : execStepSubmit m seqs input s = .next t) : Keeps s t := by
  have e := next_inj h; subst e; have hk := keeps_refl s
  with_reducible (repeat' first | assumption | intro _ | apply takeCmd_keeps | apply submitOrWake_keeps)
theorem execStepQuery_keeps {m : MbxId} {s t : State} (h : execStepQuery m s = .next t) : Keeps s t := by
  have e := next_inj h; subst e; have hk := keeps_refl s
  with_reducible (repeat' first | assumption | intro _ | apply takeCmd_keeps | apply stepQuery_keeps)
theorem execStepAbort_keeps {m : MbxId} {s t : State} (h : execStepAbort m s = .next t) : Keeps s t := by
  have e := next_inj h; subst e; have hk := keeps_refl s
  with_reducible (repeat' first | assumption | intro _ | apply takeCmd_keeps | apply stepAbort_keeps)
theorem execKvEvictFree_keeps {m : MbxId} {s t : State} (h : execKvEvictFree m s = .next t) : Keeps s t := by
  have e := next_inj h; subst e; have hk := keeps_refl s
  with_reducible (repeat' first | assumption | intro _ | apply takeEvict_keeps)
theorem execKvEvictSwap_keeps {m : MbxId} {s t : State} (h : execKvEvictSwap m s = .next t) : Keeps s t := by
  have e := next_inj h; subst e; have hk := keeps_refl s
  with_reducible (repeat' first | assumption | intro _ | apply takeEvict_keeps)
theorem execStatsRead_keeps {m : MbxId} {s t : State} (h : execStatsRead m s = .next t) : Keeps s t := by
  have e := next_inj h; subst e; have hk := keeps_refl s
  with_reducible (repeat' first | assumption | intro _ | apply takeCmd_keeps | apply statsRead_keeps)
theorem execLogRead_keeps {m : MbxId} {s t : State} (h : execLogRead m s = .next t) : Keeps s t := by
  have e := next_inj h; subst e; have hk := keeps_refl s
  with_reducible (repeat' first | assumption | intro _ | apply takeCmd_keeps | apply logRead_keeps)
theorem execStateSetState_keeps {m : MbxId} {s t : State} (h : execStateSetState m s = .next t) : Keeps s t := by
  have e := next_inj h; subst e; have hk := keeps_refl s
  with_reducible (repeat' first | assumption | intro _ | apply takeSub_keeps | apply setState_keeps)
theorem execStateSetCap_keeps {m : MbxId} {s t : State} (h : execStateSetCap m s = .next t) : Keeps s t := by
  have e := next_inj h; subst e; have hk := keeps_refl s
  with_reducible (repeat' first | assumption | intro _ | apply takeSub_keeps | apply setCap_keeps)
theorem execStateSetFractions_keeps {m : MbxId} {s t : State} (h : execStateSetFractions m s = .next t) : Keeps s t := by
  have e := next_inj h; subst e; have hk := keeps_refl s
  with_reducible (repeat' first | assumption | intro _ | apply takeSub_keeps | apply setFractions_keeps)
theorem execStateSetClock_keeps {m : MbxId} {s t : State} (h : execStateSetClock m s = .next t) : Keeps s t := by
  have e := next_inj h; subst e; have hk := keeps_refl s
  with_reducible (repeat' first | assumption | intro _ | apply takeSub_keeps | apply setClock_keeps)
theorem execStateSetRead_keeps {m : MbxId} {s t : State} (h : execStateSetRead m s = .next t) : Keeps s t := by
  have e := next_inj h; subst e; have hk := keeps_refl s
  with_reducible (repeat' first | assumption | intro _ | apply takeSub_keeps | apply readPower_keeps)
theorem execStateSetEnergy_keeps {m : MbxId} {s t : State} (h : execStateSetEnergy m s = .next t) : Keeps s t := by
  have e := next_inj h; subst e; have hk := keeps_refl s
  with_reducible (repeat' first | assumption | intro _ | apply takeSub_keeps | apply readEnergy_keeps)
theorem execAttestMeasure_keeps {m : MbxId} {s t : State} (h : execAttestMeasure m s = .next t) : Keeps s t := by
  have e := next_inj h; subst e; have hk := keeps_refl s
  with_reducible (repeat' first | assumption | intro _ | apply takeSub_keeps | apply attestMeasure_keeps)
theorem execAttestQuote_keeps {m : MbxId} {s t : State} (h : execAttestQuote m s = .next t) : Keeps s t := by
  have e := next_inj h; subst e; have hk := keeps_refl s
  with_reducible (repeat' first | assumption | intro _ | apply takeSub_keeps | apply attestQuote_keeps)
theorem execAttestCert_keeps {m : MbxId} {s t : State} (h : execAttestCert m s = .next t) : Keeps s t := by
  have e := next_inj h; subst e; have hk := keeps_refl s
  with_reducible (repeat' first | assumption | intro _ | apply takeSub_keeps | apply attestCert_keeps)
theorem execLcNonce_keeps {m : MbxId} {s t : State} (h : execLcNonce m s = .next t) : Keeps s t := by
  have e := next_inj h; subst e; have hk := keeps_refl s
  with_reducible (repeat' first | assumption | intro _ | apply takeSub_keeps | apply lcNonce_keeps)
theorem execLcProvision_keeps {m : MbxId} {s t : State} (h : execLcProvision m s = .next t) : Keeps s t := by
  have e := next_inj h; subst e; have hk := keeps_refl s
  with_reducible (repeat' first | assumption | intro _ | apply takeSub_keeps | apply lcProvision_keeps)
theorem execLcSeal_keeps {m : MbxId} {s t : State} (h : execLcSeal m s = .next t) : Keeps s t := by
  have e := next_inj h; subst e; have hk := keeps_refl s
  with_reducible (repeat' first | assumption | intro _ | apply takeSub_keeps | apply lcSeal_keeps)
theorem execLcUnseal_keeps {m : MbxId} {s t : State} (h : execLcUnseal m s = .next t) : Keeps s t := by
  have e := next_inj h; subst e; have hk := keeps_refl s
  with_reducible (repeat' first | assumption | intro _ | apply takeSub_keeps | apply lcUnseal_keeps)
theorem execLcReturn_keeps {m : MbxId} {s t : State} (h : execLcReturn m s = .next t) : Keeps s t := by
  have e := next_inj h; subst e; have hk := keeps_refl s
  with_reducible (repeat' first | assumption | intro _ | apply takeSub_keeps | apply lcReturn_keeps)
theorem execLcRetire_keeps {m : MbxId} {s t : State} (h : execLcRetire m s = .next t) : Keeps s t := by
  have e := next_inj h; subst e; have hk := keeps_refl s
  with_reducible (repeat' first | assumption | intro _ | apply takeSub_keeps | apply lcRetire_keeps)
theorem execLcKeys_keeps {m : MbxId} {dma : Option (List Word)} {s t : State} (h : execLcKeys m dma s = .next t) : Keeps s t := by
  have e := next_inj h; subst e; have hk := keeps_refl s
  with_reducible (repeat' first | assumption | intro _ | apply takeSub_keeps | apply lcKeys_keeps)
theorem execFwWrite_keeps {m : MbxId} {dma : Option (List Word)} {s t : State} (h : execFwWrite m dma s = .next t) : Keeps s t := by
  have e := next_inj h; subst e; have hk := keeps_refl s
  with_reducible (repeat' first | assumption | intro _ | apply takeSub_keeps | apply fwWrite_keeps)
theorem execFwData_keeps {m : MbxId} {s t : State} (h : execFwData m s = .next t) : Keeps s t := by
  have e := next_inj h; subst e; have hk := keeps_refl s
  with_reducible (repeat' first | assumption | intro _ | apply takeSub_keeps | apply fwData_keeps)
theorem execFwPrefer_keeps {m : MbxId} {s t : State} (h : execFwPrefer m s = .next t) : Keeps s t := by
  have e := next_inj h; subst e; have hk := keeps_refl s
  with_reducible (repeat' first | assumption | intro _ | apply takeSub_keeps | apply fwPrefer_keeps)
theorem execFwCommit_keeps {m : MbxId} {s t : State} (h : execFwCommit m s = .next t) : Keeps s t := by
  have e := next_inj h; subst e; have hk := keeps_refl s
  with_reducible (repeat' first | assumption | intro _ | apply takeSub_keeps | apply fwCommit_keeps)
theorem execWeightsBegin_keeps {m : MbxId} {dma : Option (List Word)} {s t : State} (h : execWeightsBegin m dma s = .next t) : Keeps s t := by
  have e := next_inj h; subst e; have hk := keeps_refl s
  with_reducible (repeat' first | assumption | intro _ | apply takeSub_keeps | apply weightsBegin_keeps)
theorem execWeightsShard_keeps {m : MbxId} {dma : Option (List Byte)} {readBackOk : Bool} {s t : State} (h : execWeightsShard m dma readBackOk s = .next t) : Keeps s t := by
  have e := next_inj h; subst e; have hk := keeps_refl s
  with_reducible (repeat' first | assumption | intro _ | apply takeSub_keeps | apply weightsShard_keeps)
theorem execWeightsFinish_keeps {m : MbxId} {s t : State} (h : execWeightsFinish m s = .next t) : Keeps s t := by
  have e := next_inj h; subst e; have hk := keeps_refl s
  with_reducible (repeat' first | assumption | intro _ | apply takeSub_keeps | apply weightsFinish_keeps)
theorem execWeightsAbort_keeps {m : MbxId} {s t : State} (h : execWeightsAbort m s = .next t) : Keeps s t := by
  have e := next_inj h; subst e; have hk := keeps_refl s
  with_reducible (repeat' first | assumption | intro _ | apply takeSub_keeps | apply weightsAbort_keeps)
theorem execWeightsQuery_keeps {m : MbxId} {s t : State} (h : execWeightsQuery m s = .next t) : Keeps s t := by
  have e := next_inj h; subst e; have hk := keeps_refl s
  with_reducible (repeat' first | assumption | intro _ | apply takeSub_keeps | apply weightsQuery_keeps)
theorem execWeightsGroup_keeps {m : MbxId} {s t : State} (h : execWeightsGroup m s = .next t) : Keeps s t := by
  have e := next_inj h; subst e; have hk := keeps_refl s
  with_reducible (repeat' first | assumption | intro _ | apply takeSub_keeps | apply weightsGroup_keeps)
theorem execCareenSummary_keeps {m : MbxId} {s t : State} (h : execCareenSummary m s = .next t) : Keeps s t := by
  have e := next_inj h; subst e; have hk := keeps_refl s
  with_reducible (repeat' first | assumption | intro _ | apply takeSub_keeps | apply careenSummary_keeps)
theorem execCareenResults_keeps {m : MbxId} {s t : State} (h : execCareenResults m s = .next t) : Keeps s t := by
  have e := next_inj h; subst e; have hk := keeps_refl s
  with_reducible (repeat' first | assumption | intro _ | apply takeSub_keeps | apply careenResults_keeps)
theorem execCareenShutdown_keeps {m : MbxId} {s t : State} (h : execCareenShutdown m s = .next t) : Keeps s t := by
  have e := next_inj h; subst e; have hk := keeps_refl s
  with_reducible (repeat' first | assumption | intro _ | apply takeSub_keeps | apply careenShutdown_keeps)
theorem execCareenRun_keeps {m : MbxId} {s t : State} (h : execCareenRun m s = .next t) : Keeps s t := by
  have e := next_inj h; subst e; have hk := keeps_refl s
  with_reducible (repeat' first | assumption | intro _ | apply takeSub_keeps | apply careenRun_keeps)
theorem execCareenAbort_keeps {m : MbxId} {s t : State} (h : execCareenAbort m s = .next t) : Keeps s t := by
  have e := next_inj h; subst e; have hk := keeps_refl s
  with_reducible (repeat' first | assumption | intro _ | apply takeSub_keeps | apply careenAbort_keeps)
theorem execCareenClear_keeps {m : MbxId} {s t : State} (h : execCareenClear m s = .next t) : Keeps s t := by
  have e := next_inj h; subst e; have hk := keeps_refl s
  with_reducible (repeat' first | assumption | intro _ | apply takeSub_keeps | apply careenClear_keeps)
theorem execFabricJoin_keeps {m : MbxId} {s t : State} (h : execFabricJoin m s = .next t) : Keeps s t := by
  have e := next_inj h; subst e; have hk := keeps_refl s
  with_reducible (repeat' first | assumption | intro _ | apply takeCmd_keeps | apply fabricJoin_keeps)
theorem execSidebandMailbox_keeps {msg : List Word} {s t : State} (h : execSidebandMailbox msg s = .next t) : Keeps s t := by
  have e := next_inj h; subst e; have hk := keeps_refl s
  with_reducible (repeat' first | assumption | intro _ | apply sidebandMsg_keeps)
theorem execMctpControl_keeps {cmd : Byte} {data : List Byte} {s t : State} (h : execMctpControl cmd data s = .next t) : Keeps s t := by
  have e := next_inj h; subst e; have hk := keeps_refl s
  with_reducible (repeat' first | assumption | intro _ | apply mctpMsg_keeps)
theorem execPldmRequest_keeps {ty cmd : Byte} {data : List Byte} {s t : State} (h : execPldmRequest ty cmd data s = .next t) : Keeps s t := by
  have e := next_inj h; subst e; have hk := keeps_refl s
  with_reducible (repeat' first | assumption | intro _ | apply pldmMsg_keeps)
theorem execPldmSensorUpdate_keeps {readings : List Nat} {s t : State} (h : execPldmSensorUpdate readings s = .next t) : Keeps s t := by
  have e := next_inj h; subst e; have hk := keeps_refl s
  with_reducible (repeat' first | assumption | intro _ | apply sensorsIn_keeps)
theorem execSmbAlertResponse_keeps {s t : State} (h : execSmbAlertResponse s = .next t) : Keeps s t := by
  have e := next_inj h; subst e; have hk := keeps_refl s
  with_reducible (repeat' first | assumption | intro _ | apply modSb_keeps | dsimp only)
theorem execSpdmGetVersion_keeps {onDoe : Bool} {msg : List Byte} {s t : State} (h : execSpdmGetVersion onDoe msg s = .next t) : Keeps s t := by
  have e := next_inj h; subst e; have hk := keeps_refl s
  with_reducible (repeat' first | assumption | intro _ | apply spdmVersion_keeps)
theorem execSpdmGetCapabilities_keeps {onDoe : Bool} {msg : List Byte} {s t : State} (h : execSpdmGetCapabilities onDoe msg s = .next t) : Keeps s t := by
  have e := next_inj h; subst e; have hk := keeps_refl s
  with_reducible (repeat' first | assumption | intro _ | apply spdmCaps_keeps)
theorem execSpdmNegotiateAlgorithms_keeps {onDoe : Bool} {msg : List Byte} {s t : State} (h : execSpdmNegotiateAlgorithms onDoe msg s = .next t) : Keeps s t := by
  have e := next_inj h; subst e; have hk := keeps_refl s
  with_reducible (repeat' first | assumption | intro _ | apply spdmAlgs_keeps)
theorem execSpdmGetDigests_keeps {onDoe : Bool} {msg : List Byte} {s t : State} (h : execSpdmGetDigests onDoe msg s = .next t) : Keeps s t := by
  have e := next_inj h; subst e; have hk := keeps_refl s
  with_reducible (repeat' first | assumption | intro _ | apply spdmReady_keeps | apply spdmAnswer_keeps | dsimp only)
theorem execSpdmGetCertificate_keeps {onDoe : Bool} {msg : List Byte} {s t : State} (h : execSpdmGetCertificate onDoe msg s = .next t) : Keeps s t := by
  have e := next_inj h; subst e; have hk := keeps_refl s
  with_reducible (repeat' first | assumption | intro _ | apply spdmReady_keeps | apply spdmCert_keeps)
theorem execSpdmChallenge_keeps {onDoe : Bool} {msg : List Byte} {s t : State} (h : execSpdmChallenge onDoe msg s = .next t) : Keeps s t := by
  have e := next_inj h; subst e; have hk := keeps_refl s
  with_reducible (repeat' first | assumption | intro _ | apply spdmReady_keeps | apply spdmSigned_keeps | dsimp only)
theorem execSpdmGetMeasurements_keeps {onDoe : Bool} {msg : List Byte} {s t : State} (h : execSpdmGetMeasurements onDoe msg s = .next t) : Keeps s t := by
  have e := next_inj h; subst e; have hk := keeps_refl s
  with_reducible (repeat' first | assumption | intro _ | apply spdmReady_keeps | apply spdmMeasure_keeps)
theorem execSpdmKeyExchange_keeps {onDoe : Bool} {msg : List Byte} {s t : State} (h : execSpdmKeyExchange onDoe msg s = .next t) : Keeps s t := by
  have e := next_inj h; subst e; have hk := keeps_refl s
  with_reducible (repeat' first | assumption | intro _ | apply spdmSession_keeps | apply spdmKeyExchange_keeps)
theorem execSpdmFinish_keeps {onDoe : Bool} {msg : List Byte} {good : Bool} {s t : State} (h : execSpdmFinish onDoe msg good s = .next t) : Keeps s t := by
  have e := next_inj h; subst e; have hk := keeps_refl s
  with_reducible (repeat' first | assumption | intro _ | apply spdmSession_keeps | apply spdmFinish_keeps)
theorem execSpdmKeyUpdate_keeps {onDoe : Bool} {msg : List Byte} {s t : State} (h : execSpdmKeyUpdate onDoe msg s = .next t) : Keeps s t := by
  have e := next_inj h; subst e; have hk := keeps_refl s
  with_reducible (repeat' first | assumption | intro _ | apply spdmSession_keeps | apply spdmKeyUpdate_keeps)
theorem execSpdmEndSession_keeps {onDoe : Bool} {msg : List Byte} {s t : State} (h : execSpdmEndSession onDoe msg s = .next t) : Keeps s t := by
  have e := next_inj h; subst e; have hk := keeps_refl s
  with_reducible (repeat' first | assumption | intro _ | apply spdmSession_keeps | apply spdmEnd_keeps)
theorem execIdeKm_keeps {msg : List Byte} {s t : State} (h : execIdeKm msg s = .next t) : Keeps s t := by
  have e := next_inj h; subst e; have hk := keeps_refl s
  with_reducible (repeat' first | assumption | intro _ | apply ideKm_keeps)
theorem execIdeIntegrityFailure_keeps {stream : Byte} {s t : State} (h : execIdeIntegrityFailure stream s = .next t) : Keeps s t := by
  have e := next_inj h; subst e; have hk := keeps_refl s
  with_reducible (repeat' first | assumption | intro _ | apply ideFails_keeps)
theorem execFlrVf_keeps {n : Fin 32} {s t : State} (h : execFlrVf n s = .next t) : Keeps s t := by
  have e := next_inj h; subst e; have hk := keeps_refl s
  with_reducible (repeat' first | assumption | intro _ | apply resetVf_keeps | apply logPkg_keeps)
theorem execFlrPf_keeps {s t : State} (h : execFlrPf s = .next t) : Keeps s t := by
  have e := next_inj h; subst e; have hk := keeps_refl s
  with_reducible (repeat' first | assumption | intro _ | apply resetPf_keeps | apply logPkg_keeps)
theorem execHotReset_keeps {s t : State} (h : execHotReset s = .next t) : Keeps s t := by
  have e := next_inj h; subst e; have hk := keeps_refl s
  with_reducible (repeat' first | assumption | intro _ | apply hotReset_keeps)
theorem execPcieLinkDown_keeps {s t : State} (h : execPcieLinkDown s = .next t) : Keeps s t := by
  have e := next_inj h; subst e; have hk := keeps_refl s
  with_reducible (repeat' first | assumption | intro _ | apply linkDown_keeps)
theorem execDmaReadFailure_keeps {m : MbxId} {s t : State} (h : execDmaReadFailure m s = .next t) : Keeps s t := by
  have e := next_inj h; subst e; have hk := keeps_refl s
  with_reducible (repeat' first | assumption | intro _ | apply headDmaFails_keeps)
theorem execNop_keeps {a : At} {s t : State} (h : execNop a s = .next t) : Keeps s t := by
  have e := next_inj h; subst e; have hk := keeps_refl s
  with_reducible (repeat' first | assumption | intro _ | apply issueAt_keeps | dsimp only)
theorem execPass_keeps {a : At} {ev : RunEvent} {s t : State} (h : execPass a ev s = .next t) : Keeps s t := by
  have e := next_inj h; subst e; have hk := keeps_refl s
  with_reducible (repeat' first | assumption | intro _ | apply issueWith_keeps | apply passMeets_keeps | apply passGo_keeps | dsimp only)
theorem execGatherDeadlineExpire_keeps {core : Fin 384} {s t : State} (h : execGatherDeadlineExpire core s = .next t) : Keeps s t := by
  have e := next_inj h; subst e; have hk := keeps_refl s
  with_reducible (repeat' first | assumption | intro _ | apply gatherExpire_keeps)
theorem execSramScrubDone_keeps {macroNo : Nat} {bad : List Nat} {s t : State} (h : execSramScrubDone macroNo bad s = .next t) : Keeps s t := by
  have e := next_inj h; subst e; have hk := keeps_refl s
  with_reducible (repeat' first | assumption | intro _ | apply scrubDone_keeps)
theorem execQuant_keeps {a : At} {ev : RunEvent} {s t : State} (h : execQuant a ev s = .next t) : Keeps s t := by
  have e := next_inj h; subst e; have hk := keeps_refl s
  with_reducible (repeat' first | assumption | intro _ | apply issueWith_keeps | apply meetReads_keeps | apply quantGo_keeps | dsimp only)
theorem execVecAdd_keeps {a : At} {ev : RunEvent} {s t : State} (h : execVecAdd a ev s = .next t) : Keeps s t := by
  have e := next_inj h; subst e; have hk := keeps_refl s
  with_reducible (repeat' first | assumption | intro _ | apply vecIssue_keeps)
theorem execVecMul_keeps {a : At} {ev : RunEvent} {s t : State} (h : execVecMul a ev s = .next t) : Keeps s t := by
  have e := next_inj h; subst e; have hk := keeps_refl s
  with_reducible (repeat' first | assumption | intro _ | apply vecIssue_keeps)
theorem execVecRowScale_keeps {a : At} {ev : RunEvent} {s t : State} (h : execVecRowScale a ev s = .next t) : Keeps s t := by
  have e := next_inj h; subst e; have hk := keeps_refl s
  with_reducible (repeat' first | assumption | intro _ | apply vecIssue_keeps)
theorem execVecRmsNorm_keeps {a : At} {ev : RunEvent} {s t : State} (h : execVecRmsNorm a ev s = .next t) : Keeps s t := by
  have e := next_inj h; subst e; have hk := keeps_refl s
  with_reducible (repeat' first | assumption | intro _ | apply vecIssue_keeps)
theorem execVecSiluMul_keeps {a : At} {ev : RunEvent} {s t : State} (h : execVecSiluMul a ev s = .next t) : Keeps s t := by
  have e := next_inj h; subst e; have hk := keeps_refl s
  with_reducible (repeat' first | assumption | intro _ | apply vecIssue_keeps)
theorem execVecGelu_keeps {a : At} {ev : RunEvent} {s t : State} (h : execVecGelu a ev s = .next t) : Keeps s t := by
  have e := next_inj h; subst e; have hk := keeps_refl s
  with_reducible (repeat' first | assumption | intro _ | apply vecIssue_keeps)
theorem execVecMerge_keeps {a : At} {ev : RunEvent} {s t : State} (h : execVecMerge a ev s = .next t) : Keeps s t := by
  have e := next_inj h; subst e; have hk := keeps_refl s
  with_reducible (repeat' first | assumption | intro _ | apply vecIssue_keeps)
theorem execVecConvert_keeps {a : At} {ev : RunEvent} {s t : State} (h : execVecConvert a ev s = .next t) : Keeps s t := by
  have e := next_inj h; subst e; have hk := keeps_refl s
  with_reducible (repeat' first | assumption | intro _ | apply vecIssue_keeps)
theorem execAttendFull_keeps {a : At} {ev : RunEvent} {s t : State} (h : execAttendFull a ev s = .next t) : Keeps s t := by
  have e := next_inj h; subst e; have hk := keeps_refl s
  with_reducible (repeat' first | assumption | intro _ | apply issueWith_keeps | apply attendMeets_keeps | apply attendGo_keeps | dsimp only)
theorem execAttendPartial_keeps {a : At} {ev : RunEvent} {s t : State} (h : execAttendPartial a ev s = .next t) : Keeps s t := by
  have e := next_inj h; subst e; have hk := keeps_refl s
  with_reducible (repeat' first | assumption | intro _ | apply issueWith_keeps | apply attendMeets_keeps | apply attendGo_keeps | dsimp only)
theorem execAttendMerge_keeps {a : At} {ev : RunEvent} {s t : State} (h : execAttendMerge a ev s = .next t) : Keeps s t := by
  have e := next_inj h; subst e; have hk := keeps_refl s
  with_reducible (repeat' first | assumption | intro _ | apply issueWith_keeps | apply attendMeets_keeps | apply mergeGo_keeps | dsimp only)
theorem execAppendWaitTimeout_keeps {a : At} {s t : State} (h : execAppendWaitTimeout a s = .next t) : Keeps s t := by
  have e := next_inj h; subst e; have hk := keeps_refl s
  with_reducible (repeat' first | assumption | intro _ | apply appendTimeout_keeps)
theorem execRouteSelect_keeps {a : At} {ev : RunEvent} {s t : State} (h : execRouteSelect a ev s = .next t) : Keeps s t := by
  have e := next_inj h; subst e; have hk := keeps_refl s
  with_reducible (repeat' first | assumption | intro _ | apply issueWith_keeps | apply meetReads_keeps | apply selectGo_keeps | dsimp only)
theorem execRouteSeal_keeps {a : At} {s t : State} (h : execRouteSeal a s = .next t) : Keeps s t := by
  have e := next_inj h; subst e; have hk := keeps_refl s
  with_reducible (repeat' first | assumption | intro _ | apply markSeal_keeps | apply issueAt_keeps | apply sealGo_keeps | apply drainWait_keeps | dsimp only)
theorem execRouteGather_keeps {a : At} {ev : RunEvent} {s t : State} (h : execRouteGather a ev s = .next t) : Keeps s t := by
  have e := next_inj h; subst e; have hk := keeps_refl s
  with_reducible (repeat' first | assumption | intro _ | apply issueWith_keeps | apply gatherMeets_keeps | apply gatherGo_keeps | dsimp only)
theorem execRouteReturn_keeps {a : At} {ev : RunEvent} {s t : State} (h : execRouteReturn a ev s = .next t) : Keeps s t := by
  have e := next_inj h; subst e; have hk := keeps_refl s
  with_reducible (repeat' first | assumption | intro _ | apply issueWith_keeps | apply meetReads_keeps | apply returnGo_keeps | dsimp only)
theorem execRouteCombine_keeps {a : At} {ev : RunEvent} {s t : State} (h : execRouteCombine a ev s = .next t) : Keeps s t := by
  have e := next_inj h; subst e; have hk := keeps_refl s
  with_reducible (repeat' first | assumption | intro _ | apply issueWith_keeps | apply meetReads_keeps | apply combineGo_keeps | dsimp only)
theorem execRoutePush_keeps {a : At} {ev : RunEvent} {s t : State} (h : execRoutePush a ev s = .next t) : Keeps s t := by
  have e := next_inj h; subst e; have hk := keeps_refl s
  with_reducible (repeat' first | assumption | intro _ | apply issueWith_keeps | apply meetReads_keeps | apply pushGo_keeps | dsimp only)
theorem execMove_keeps {a : At} {ev : RunEvent} {s t : State} (h : execMove a ev s = .next t) : Keeps s t := by
  have e := next_inj h; subst e; have hk := keeps_refl s
  with_reducible (repeat' first | assumption | intro _ | apply issueWith_keeps | apply moveMeets_keeps | apply moveGo_keeps | dsimp only)
theorem execWindowWait_keeps {a : At} {s t : State} (h : execWindowWait a s = .next t) : Keeps s t := by
  have e := next_inj h; subst e; have hk := keeps_refl s
  with_reducible (repeat' first | assumption | intro _ | apply issueAt_keeps | dsimp only)
theorem execWindowRelease_keeps {a : At} {s t : State} (h : execWindowRelease a s = .next t) : Keeps s t := by
  have e := next_inj h; subst e; have hk := keeps_refl s
  with_reducible (repeat' first | assumption | intro _ | apply issueAt_keeps | apply releaseWin_keeps | dsimp only)
theorem execBarrier_keeps {a : At} {s t : State} (h : execBarrier a s = .next t) : Keeps s t := by
  have e := next_inj h; subst e; have hk := keeps_refl s
  with_reducible (repeat' first | assumption | intro _ | apply issueAt_keeps | apply arrive_keeps | dsimp only)
theorem execStampedeWaveRelease_keeps {part : Fin 32} {step : Nat} {bar : Fin 64} {s t : State} (h : execStampedeWaveRelease part step bar s = .next t) : Keeps s t := by
  have e := next_inj h; subst e; have hk := keeps_refl s
  with_reducible (repeat' first | assumption | intro _ | apply modAtBar_keeps)
theorem execBarrierHangTimeout_keeps {part : Fin 32} {step : Nat} {bar : Fin 64} {s t : State} (h : execBarrierHangTimeout part step bar s = .next t) : Keeps s t := by
  have e := next_inj h; subst e; have hk := keeps_refl s
  with_reducible (repeat' first | assumption | intro _ | apply barrierHang_keeps)
theorem execExpand_keeps {a : At} {s t : State} (h : execExpand a s = .next t) : Keeps s t := by
  have e := next_inj h; subst e; have hk := keeps_refl s
  with_reducible (repeat' first | assumption | intro _ | apply issueAt_keeps | apply expand_keeps)
theorem execPost_keeps {a : At} {s t : State} (h : execPost a s = .next t) : Keeps s t := by
  have e := next_inj h; subst e; have hk := keeps_refl s
  with_reducible (repeat' first | assumption | intro _ | apply issueAt_keeps | apply countPost_keeps | dsimp only)
theorem execAwait_keeps {a : At} {s t : State} (h : execAwait a s = .next t) : Keeps s t := by
  have e := next_inj h; subst e; have hk := keeps_refl s
  with_reducible (repeat' first | assumption | intro _ | apply issueAt_keeps | dsimp only)
theorem execEndStep_keeps {a : At} {s t : State} (h : execEndStep a s = .next t) : Keeps s t := by
  have e := next_inj h; subst e; have hk := keeps_refl s
  with_reducible (repeat' first | assumption | intro _ | apply issueAt_keeps | apply endStep_keeps | dsimp only)
theorem execCommandComplete_keeps {cluster : Fin 48} {id : Nat} {s t : State} (h : execCommandComplete cluster id s = .next t) : Keeps s t := by
  have e := next_inj h; subst e; have hk := keeps_refl s
  with_reducible (repeat' first | assumption | intro _ | apply complete_keeps)
theorem execProbeComplete_keeps {die : Fin 4} {mismatch again : Bool} {s t : State} (h : execProbeComplete die mismatch again s = .next t) :
    Keeps s t := by
  have e := next_inj h; subst e; have hk := keeps_refl s
  with_reducible (repeat' first | assumption | intro _ | apply probeComplete_keeps)
theorem execRungChunkDone_keeps {standby : Bool} {fails : PageFails} {s t : State} (h : execRungChunkDone standby fails s = .next t) : Keeps s t := by
  have e := next_inj h; subst e; have hk := keeps_refl s
  with_reducible (repeat' first | assumption | intro _ | apply rungChunk_keeps)
theorem execColdChunkDone_keeps {standby : Bool} {fails : PageFails} {s t : State} (h : execColdChunkDone standby fails s = .next t) : Keeps s t := by
  have e := next_inj h; subst e; have hk := keeps_refl s
  with_reducible (repeat' first | assumption | intro _ | apply coldChunk_keeps)
theorem execRestoreUnitDone_keeps {fails : PageFails} {s t : State} (h : execRestoreUnitDone fails s = .next t) : Keeps s t := by
  have e := next_inj h; subst e; have hk := keeps_refl s
  with_reducible (repeat' first | assumption | intro _ | apply restoreDone_keeps)
theorem execStepAdmit_keeps {part : Fin 32} {s t : State} (h : execStepAdmit part s = .next t) : Keeps s t := by
  have e := next_inj h; subst e; have hk := keeps_refl s
  with_reducible (repeat' first | assumption | intro _ | apply stepAdmit_keeps)
theorem execStepCommit_keeps {part : Fin 32} {s t : State} (h : execStepCommit part s = .next t) : Keeps s t := by
  have e := next_inj h; subst e; have hk := keeps_refl s
  with_reducible (repeat' first | assumption | intro _ | apply stopOn_keeps | apply moveOn_keeps | apply commitOn_keeps)
theorem execStreamBegin_keeps {cluster : Fin 48} {s t : State} (h : execStreamBegin cluster s = .next t) : Keeps s t := by
  have e := next_inj h; subst e; have hk := keeps_refl s
  with_reducible (repeat' first | assumption | intro _ | apply streamBegin_keeps)
theorem execStreamLanded_keeps {cluster : Fin 48} {buf : Fin 4} {bad : List Nat} {s t : State} (h : execStreamLanded cluster buf bad s = .next t) : Keeps s t := by
  have e := next_inj h; subst e; have hk := keeps_refl s
  with_reducible (repeat' first | assumption | intro _ | apply streamLanded_keeps)
theorem execHbmReadDone_keeps {pc : Fin 512} {row : Nat} {lost : LostData} {outcome : ReadOutcome} {s t : State} (h : execHbmReadDone pc row lost outcome s = .next t) : Keeps s t := by
  have e := next_inj h; subst e; have hk := keeps_refl s
  with_reducible (repeat' first | assumption | intro _ | apply hbmReadDone_keeps)
theorem execRefetchDone_keeps {i : Nat} {s t : State} (h : execRefetchDone i s = .next t) : Keeps s t := by
  have e := next_inj h; subst e; have hk := keeps_refl s
  with_reducible (repeat' first | assumption | intro _ | apply refetchDone_keeps)
theorem execHbmRowRepairDone_keeps {i : Nat} {spareLeft : Bool} {s t : State} (h : execHbmRowRepairDone i spareLeft s = .next t) : Keeps s t := by
  have e := next_inj h; subst e; have hk := keeps_refl s
  with_reducible (repeat' first | assumption | intro _ | apply rowRepaired_keeps)
theorem execPcTrainingLost_keeps {pc : Fin 512} {s t : State} (h : execPcTrainingLost pc s = .next t) : Keeps s t := by
  have e := next_inj h; subst e; have hk := keeps_refl s
  with_reducible (repeat' first | assumption | intro _ | apply trainingLost_keeps)
theorem execFrameMoveDone_keeps {i : Nat} {s t : State} (h : execFrameMoveDone i s = .next t) : Keeps s t := by
  have e := next_inj h; subst e; have hk := keeps_refl s
  with_reducible (repeat' first | assumption | intro _ | apply frameMoved_keeps)
theorem execSwapOutPageDone_keeps {part : Fin 32} {s t : State} (h : execSwapOutPageDone part s = .next t) : Keeps s t := by
  have e := next_inj h; subst e; have hk := keeps_refl s
  with_reducible (repeat' first | assumption | intro _ | apply swapOutPage_keeps)
theorem execSwapInPageDone_keeps {part : Fin 32} {data : Option (List Byte)} {s t : State} (h : execSwapInPageDone part data s = .next t) : Keeps s t := by
  have e := next_inj h; subst e; have hk := keeps_refl s
  with_reducible (repeat' first | assumption | intro _ | apply swapInPage_keeps)
theorem execPatrolScrubShard_keeps {fails : PageFails} {s t : State} (h : execPatrolScrubShard fails s = .next t) : Keeps s t := by
  have e := next_inj h; subst e; have hk := keeps_refl s
  with_reducible (repeat' first | assumption | intro _ | apply scrubShard_keeps)
theorem execRebuildPeerTimeout_keeps {s t : State} (h : execRebuildPeerTimeout s = .next t) : Keeps s t := by
  have e := next_inj h; subst e; have hk := keeps_refl s
  with_reducible (repeat' first | assumption | intro _ | apply peerTimeout_keeps)
theorem execQpushEntry_keeps {p : Packet} {s t : State} (h : execQpushEntry p s = .next t) : Keeps s t := by
  have e := next_inj h; subst e; have hk := keeps_refl s
  with_reducible (repeat' first | assumption | intro _ | apply takePacket_keeps | apply arriveReq_keeps)
theorem execQpushFragment_keeps {p : Packet} {s t : State} (h : execQpushFragment p s = .next t) : Keeps s t := by
  have e := next_inj h; subst e; have hk := keeps_refl s
  with_reducible (repeat' first | assumption | intro _ | apply takePacket_keeps | apply arriveReq_keeps)
theorem execQpushClose_keeps {p : Packet} {s t : State} (h : execQpushClose p s = .next t) : Keeps s t := by
  have e := next_inj h; subst e; have hk := keeps_refl s
  with_reducible (repeat' first | assumption | intro _ | apply takePacket_keeps | apply arriveReq_keeps)
theorem execSealHangTimeout_keeps {a : At} {s t : State} (h : execSealHangTimeout a s = .next t) : Keeps s t := by
  have e := next_inj h; subst e; have hk := keeps_refl s
  with_reducible (repeat' first | assumption | intro _ | apply sealHang_keeps)
theorem execReturnRowArrive_keeps {part : Fin 32} {cluster : Fin 48} {step op : Nat} {kind off : Nat} {data : List Byte} {s t : State} (h : execReturnRowArrive part cluster step op kind off data s = .next t) : Keeps s t := by
  have e := next_inj h; subst e; have hk := keeps_refl s
  with_reducible (repeat' first | assumption | intro _ | apply returnRow_keeps)
theorem execJournalRelease_keeps {p : Packet} {s t : State} (h : execJournalRelease p s = .next t) : Keeps s t := by
  have e := next_inj h; subst e; have hk := keeps_refl s
  with_reducible (repeat' first | assumption | intro _ | apply takePacket_keeps | apply arriveReq_keeps)
theorem execLoad_keeps {p : Packet} {s t : State} (h : execLoad p s = .next t) : Keeps s t := by
  have e := next_inj h; subst e; have hk := keeps_refl s
  refine takePacket_keeps _ _ _ (fun q u hq => ?_) hk
  split
  · exact arriveReq_keeps q hq
  · split
    · exact hq
    · exact arriveUnknown_keeps q hq
theorem execStore_keeps {p : Packet} {s t : State} (h : execStore p s = .next t) : Keeps s t := by
  have e := next_inj h; subst e; have hk := keeps_refl s
  with_reducible (repeat' first | assumption | intro _ | apply takePacket_keeps | apply arriveReq_keeps)
theorem execAtomic_keeps {p : Packet} {s t : State} (h : execAtomic p s = .next t) : Keeps s t := by
  have e := next_inj h; subst e; have hk := keeps_refl s
  with_reducible (repeat' first | assumption | intro _ | apply takePacket_keeps | apply arriveReq_keeps)
theorem execBulk_keeps {p : Packet} {s t : State} (h : execBulk p s = .next t) : Keeps s t := by
  have e := next_inj h; subst e; have hk := keeps_refl s
  with_reducible (repeat' first | assumption | intro _ | apply takePacket_keeps | apply arriveReq_keeps)
theorem execServiceShardRead_keeps {p : Packet} {s t : State} (h : execServiceShardRead p s = .next t) : Keeps s t := by
  have e := next_inj h; subst e; have hk := keeps_refl s
  with_reducible (repeat' first | assumption | intro _ | apply takePacket_keeps | apply arriveReq_keeps)
theorem execServiceMirrorWrite_keeps {p : Packet} {s t : State} (h : execServiceMirrorWrite p s = .next t) : Keeps s t := by
  have e := next_inj h; subst e; have hk := keeps_refl s
  with_reducible (repeat' first | assumption | intro _ | apply takePacket_keeps | apply arriveReq_keeps)
theorem execServiceMirrorFetch_keeps {p : Packet} {s t : State} (h : execServiceMirrorFetch p s = .next t) : Keeps s t := by
  have e := next_inj h; subst e; have hk := keeps_refl s
  with_reducible (repeat' first | assumption | intro _ | apply takePacket_keeps | apply arriveReq_keeps)
theorem execServiceMirrorAck_keeps {p : Packet} {s t : State} (h : execServiceMirrorAck p s = .next t) : Keeps s t := by
  have e := next_inj h; subst e; have hk := keeps_refl s
  with_reducible (repeat' first | assumption | intro _ | apply takePacket_keeps | apply arriveReq_keeps)
theorem execLoadResp_keeps {p : Packet} {s t : State} (h : execLoadResp p s = .next t) : Keeps s t := by
  have e := next_inj h; subst e; have hk := keeps_refl s
  with_reducible (repeat' first | assumption | intro _ | apply takePacket_keeps | apply arriveResp_keeps | apply byStatus_keeps)
theorem execAck_keeps {p : Packet} {s t : State} (h : execAck p s = .next t) : Keeps s t := by
  have e := next_inj h; subst e; have hk := keeps_refl s
  with_reducible (repeat' first | assumption | intro _ | apply takePacket_keeps | apply arriveAck_keeps)
theorem execAtomicResp_keeps {p : Packet} {s t : State} (h : execAtomicResp p s = .next t) : Keeps s t := by
  have e := next_inj h; subst e; have hk := keeps_refl s
  with_reducible (repeat' first | assumption | intro _ | apply takePacket_keeps | apply arriveResp_keeps | apply byStatus_keeps)
theorem execError_keeps {p : Packet} {s t : State} (h : execError p s = .next t) : Keeps s t := by
  have e := next_inj h; subst e; have hk := keeps_refl s
  with_reducible (repeat' first | assumption | intro _ | apply takePacket_keeps | apply arriveResp_keeps | apply byStatus_keeps)
theorem execServiceResp_keeps {p : Packet} {s t : State} (h : execServiceResp p s = .next t) : Keeps s t := by
  have e := next_inj h; subst e; have hk := keeps_refl s
  with_reducible (repeat' first | assumption | intro _ | apply takePacket_keeps | apply arriveResp_keeps | apply serviceReply_keeps)
theorem execHeartbeat_keeps {p : Packet} {s t : State} (h : execHeartbeat p s = .next t) : Keeps s t := by
  have e := next_inj h; subst e; have hk := keeps_refl s
  with_reducible (repeat' first | assumption | intro _ | apply takePacket_keeps | apply arriveHeartbeat_keeps)
theorem execTeardown_keeps {p : Packet} {s t : State} (h : execTeardown p s = .next t) : Keeps s t := by
  have e := next_inj h; subst e; have hk := keeps_refl s
  with_reducible (repeat' first | assumption | intro _ | apply takePacket_keeps | apply arriveTeardown_keeps)
theorem execTeardownAck_keeps {p : Packet} {s t : State} (h : execTeardownAck p s = .next t) : Keeps s t := by
  have e := next_inj h; subst e; have hk := keeps_refl s
  with_reducible (repeat' first | assumption | intro _ | apply takePacket_keeps | apply arriveTeardownAck_keeps)
theorem execJobMap_keeps {p : Packet} {s t : State} (h : execJobMap p s = .next t) : Keeps s t := by
  have e := next_inj h; subst e; have hk := keeps_refl s
  with_reducible (repeat' first | assumption | intro _ | apply takePacket_keeps | apply arriveJobMap_keeps)
theorem execJobMapAck_keeps {p : Packet} {s t : State} (h : execJobMapAck p s = .next t) : Keeps s t := by
  have e := next_inj h; subst e; have hk := keeps_refl s
  with_reducible (repeat' first | assumption | intro _ | apply takePacket_keeps | apply arriveJobMapAck_keeps)
theorem execJoin_keeps {p : Packet} {s t : State} (h : execJoin p s = .next t) : Keeps s t := by
  have e := next_inj h; subst e; have hk := keeps_refl s
  with_reducible (repeat' first | assumption | intro _ | apply takePacket_keeps | apply arriveJoin_keeps)
theorem execJoinReply_keeps {p : Packet} {s t : State} (h : execJoinReply p s = .next t) : Keeps s t := by
  have e := next_inj h; subst e; have hk := keeps_refl s
  with_reducible (repeat' first | assumption | intro _ | apply takePacket_keeps | apply arriveJoinReply_keeps)
theorem execManager_keeps {p : Packet} {s t : State} (h : execManager p s = .next t) : Keeps s t := by
  have e := next_inj h; subst e; have hk := keeps_refl s
  with_reducible (repeat' first | assumption | intro _ | apply takePacket_keeps | apply arriveManager_keeps)
theorem execLeave_keeps {p : Packet} {s t : State} (h : execLeave p s = .next t) : Keeps s t := by
  have e := next_inj h; subst e; have hk := keeps_refl s
  with_reducible (repeat' first | assumption | intro _ | apply takePacket_keeps | apply arriveLeave_keeps)
theorem execStateCopy_keeps {p : Packet} {s t : State} (h : execStateCopy p s = .next t) : Keeps s t := by
  have e := next_inj h; subst e; have hk := keeps_refl s
  with_reducible (repeat' first | assumption | intro _ | apply takePacket_keeps | apply arriveStateCopy_keeps)
theorem execRouteTable_keeps {p : Packet} {s t : State} (h : execRouteTable p s = .next t) : Keeps s t := by
  have e := next_inj h; subst e; have hk := keeps_refl s
  with_reducible (repeat' first | assumption | intro _ | apply takePacket_keeps | apply arriveRoutes_keeps)
theorem execPacketForward_keeps {p : Packet} {s t : State} (h : execPacketForward p s = .next t) : Keeps s t := by
  have e := next_inj h; subst e; have hk := keeps_refl s
  with_reducible (repeat' first | assumption | intro _ | apply forward_keeps)
theorem execFlitReceive_keeps {port : Fin 18} {bytes : List Byte} {s t : State} (h : execFlitReceive port bytes s = .next t) : Keeps s t := by
  have e := next_inj h; subst e; have hk := keeps_refl s
  with_reducible (repeat' first | assumption | intro _ | apply flitIn_keeps)
theorem execLaneSpareDone_keeps {port : Fin 18} {good : Bool} {s t : State} (h : execLaneSpareDone port good s = .next t) : Keeps s t := by
  have e := next_inj h; subst e; have hk := keeps_refl s
  with_reducible (repeat' first | assumption | intro _ | apply spareDone_keeps)
theorem execControlFlitReceive_keeps {port : Fin 18} {bytes : List Byte} {s t : State} (h : execControlFlitReceive port bytes s = .next t) : Keeps s t := by
  have e := next_inj h; subst e; have hk := keeps_refl s
  with_reducible (repeat' first | assumption | intro _ | apply flitIn_keeps)
theorem execAckStallTimeout_keeps {port : Fin 18} {s t : State} (h : execAckStallTimeout port s = .next t) : Keeps s t := by
  have e := next_inj h; subst e; have hk := keeps_refl s
  with_reducible (repeat' first | assumption | intro _ | apply ackStalled_keeps)
theorem execDetectBurstTimer_keeps {port : Fin 18} {s t : State} (h : execDetectBurstTimer port s = .next t) : Keeps s t := by
  have e := next_inj h; subst e; have hk := keeps_refl s
  with_reducible (repeat' first | assumption | intro _ | apply detectBurst_keeps)
theorem execTrainingPatternReceived_keeps {port : Fin 18} {s t : State} (h : execTrainingPatternReceived port s = .next t) : Keeps s t := by
  have e := next_inj h; subst e; have hk := keeps_refl s
  with_reducible (repeat' first | assumption | intro _ | apply patternIn_keeps)
theorem execEqualiseDone_keeps {port : Fin 18} {badLanes : List (Fin 9)} {inTime : Bool} {s t : State} (h : execEqualiseDone port badLanes inTime s = .next t) : Keeps s t := by
  have e := next_inj h; subst e; have hk := keeps_refl s
  with_reducible (repeat' first | assumption | intro _ | apply equalised_keeps | dsimp only)
theorem execVerifyExchange_keeps {port : Fin 18} {pkg : Fin 128} {farPort : Fin 18} {life : Fin 5} {mgr : Option (Fin 128)} {s t : State} (h : execVerifyExchange port pkg farPort life mgr s = .next t) : Keeps s t := by
  have e := next_inj h; subst e; have hk := keeps_refl s
  with_reducible (repeat' first | assumption | intro _ | apply verified_keeps | dsimp only)
theorem execLinkSignalLost_keeps {port : Fin 18} {s t : State} (h : execLinkSignalLost port s = .next t) : Keeps s t := by
  have e := next_inj h; subst e; have hk := keeps_refl s
  with_reducible (repeat' first | assumption | intro _ | apply signalLost_keeps)
theorem execAckSendTimer_keeps {plane : Fin 2} {src : Fin 128} {job : Fin 65536} {s t : State} (h : execAckSendTimer plane src job s = .next t) : Keeps s t := by
  have e := next_inj h; subst e; have hk := keeps_refl s
  with_reducible (repeat' first | assumption | intro _ | apply ackTimer_keeps)
theorem execRequestResendTimeout_keeps {plane : Fin 2} {dst : Fin 128} {job : Fin 65536} {seq : Word} {s t : State} (h : execRequestResendTimeout plane dst job seq s = .next t) : Keeps s t := by
  have e := next_inj h; subst e; have hk := keeps_refl s
  with_reducible (repeat' first | assumption | intro _ | apply resendTimeout_keeps)
theorem execMgmtResendTimer_keeps {i : Nat} {s t : State} (h : execMgmtResendTimer i s = .next t) : Keeps s t := by
  have e := next_inj h; subst e; have hk := keeps_refl s
  with_reducible (repeat' first | assumption | intro _ | apply mgmtResend_keeps)
theorem execResultAckTimer_keeps {plane : Fin 2} {dst : Fin 128} {job : Fin 65536} {s t : State} (h : execResultAckTimer plane dst job s = .next t) : Keeps s t := by
  have e := next_inj h; subst e; have hk := keeps_refl s
  with_reducible (repeat' first | assumption | intro _ | apply resultTimer_keeps)
theorem execHeartbeatTimer_keeps {s t : State} (h : execHeartbeatTimer s = .next t) : Keeps s t := by
  have e := next_inj h; subst e; have hk := keeps_refl s
  with_reducible (repeat' first | assumption | intro _ | apply heartbeatDue_keeps)
theorem execHeartbeatTimeout_keeps {pkg : Fin 128} {s t : State} (h : execHeartbeatTimeout pkg s = .next t) : Keeps s t := by
  have e := next_inj h; subst e; have hk := keeps_refl s
  with_reducible (repeat' first | assumption | intro _ | apply declareDead_keeps)
theorem execManagerHeartbeatTimeout_keeps {s t : State} (h : execManagerHeartbeatTimeout s = .next t) : Keeps s t := by
  have e := next_inj h; subst e; have hk := keeps_refl s
  with_reducible (repeat' first | assumption | intro _ | apply takeOver_keeps)
theorem execCutOffTimeout_keeps {s t : State} (h : execCutOffTimeout s = .next t) : Keeps s t := by
  have e := next_inj h; subst e; have hk := keeps_refl s
  with_reducible (repeat' first | assumption | intro _ | apply cutOff_keeps)
theorem execTeardownDeadline_keeps {job : Fin 65536} {s t : State} (h : execTeardownDeadline job s = .next t) : Keeps s t := by
  have e := next_inj h; subst e; have hk := keeps_refl s
  with_reducible (repeat' first | assumption | intro _ | apply teardownOver_keeps)
theorem execElectionAnnounceTimer_keeps {s t : State} (h : execElectionAnnounceTimer s = .next t) : Keeps s t := by
  have e := next_inj h; subst e; have hk := keeps_refl s
  with_reducible (repeat' first | assumption | intro _ | apply claim_keeps)
theorem execElectionSettleTimer_keeps {s t : State} (h : execElectionSettleTimer s = .next t) : Keeps s t := by
  have e := next_inj h; subst e; have hk := keeps_refl s
  with_reducible (repeat' first | assumption | intro _ | apply settle_keeps)
theorem execMirrorAckTimeout_keeps {s t : State} (h : execMirrorAckTimeout s = .next t) : Keeps s t := by
  have e := next_inj h; subst e; have hk := keeps_refl s
  with_reducible (repeat' first | assumption | intro _ | apply mirrorAgain_keeps)
theorem execHmJournalEntry_keeps {words : List Word} {s t : State} (h : execHmJournalEntry words s = .next t) : Keeps s t := by
  have e := next_inj h; subst e; have hk := keeps_refl s
  with_reducible (repeat' first | assumption | intro _ | apply journalEntry_keeps)
theorem execHmJournalHeartbeatTimer_keeps {s t : State} (h : execHmJournalHeartbeatTimer s = .next t) : Keeps s t := by
  have e := next_inj h; subst e; have hk := keeps_refl s
  with_reducible (repeat' first | assumption | intro _ | apply hmJournal_keeps | apply keeps_ite)
theorem execHmJournalTimeout_keeps {s t : State} (h : execHmJournalTimeout s = .next t) : Keeps s t := by
  have e := next_inj h; subst e; have hk := keeps_refl s
  with_reducible (repeat' first | assumption | intro _ | apply takeoverHm_keeps | apply keeps_ite)
theorem execHmFaultSignal_keeps {s t : State} (h : execHmFaultSignal s = .next t) : Keeps s t := by
  have e := next_inj h; subst e; have hk := keeps_refl s
  with_reducible (repeat' first | assumption | intro _ | apply hmFault_keeps)
theorem execDieLinkFail_keeps {die : Fin 4} {iod : Fin 2} {s t : State} (h : execDieLinkFail die iod s = .next t) : Keeps s t := by
  have e := next_inj h; subst e; have hk := keeps_refl s
  with_reducible (repeat' first | assumption | intro _ | apply dieLink_keeps)
theorem execComputeDieFail_keeps {die : Fin 4} {s t : State} (h : execComputeDieFail die s = .next t) : Keeps s t := by
  have e := next_inj h; subst e; have hk := keeps_refl s
  with_reducible (repeat' first | assumption | intro _ | apply dieOut_keeps)
theorem execIodLinkFail_keeps {s t : State} (h : execIodLinkFail s = .next t) : Keeps s t := by
  have e := next_inj h; subst e; have hk := keeps_refl s
  with_reducible (repeat' first | assumption | intro _ | apply iodLink_keeps)
theorem execIod0Fail_keeps {s t : State} (h : execIod0Fail s = .next t) : Keeps s t := by
  have e := next_inj h; subst e; have hk := keeps_refl s
  with_reducible (repeat' first | assumption | intro _ | apply iod0Lost_keeps)
theorem execVoltageSample_keeps {millivolts : Nat} {s t : State} (h : execVoltageSample millivolts s = .next t) : Keeps s t := by
  have e := next_inj h; subst e; have hk := keeps_refl s
  with_reducible (repeat' first | assumption | intro _ | apply sampleInput_keeps)
theorem execVoltageRecoveryTimer_keeps {s t : State} (h : execVoltageRecoveryTimer s = .next t) : Keeps s t := by
  have e := next_inj h; subst e; have hk := keeps_refl s
  with_reducible (repeat' first | assumption | intro _ | apply inputBack_keeps)
theorem execInputBelow30V_keeps {millivolts : Nat} {s t : State} (h : execInputBelow30V millivolts s = .next t) : Keeps s t := by
  have e := next_inj h; subst e; have hk := keeps_refl s
  with_reducible (repeat' first | assumption | intro _ | apply below30_keeps)
theorem execHoldupExhausted_keeps {s t : State} (h : execHoldupExhausted s = .next t) : Keeps s t := by
  have e := next_inj h; subst e; have hk := keeps_refl s
  with_reducible (repeat' first | assumption | intro _ | apply holdupOver_keeps)
theorem execRootClockLost_keeps {ppm : Nat} {s t : State} (h : execRootClockLost ppm s = .next t) : Keeps s t := by
  have e := next_inj h; subst e; have hk := keeps_refl s
  with_reducible (repeat' first | assumption | intro _ | apply rootLost_keeps)
theorem execThermalSample_keeps {temps : List (Nat × Nat)} {s t : State} (h : execThermalSample temps s = .next t) : Keeps s t := by
  have e := next_inj h; subst e; have hk := keeps_refl s
  with_reducible (repeat' first | assumption | intro _ | apply thermal_keeps)
theorem execPowerControlInterval_keeps {draw : Nat} {domains : List Nat} {parts : List (Fin 32 × Nat)} {s t : State} (h : execPowerControlInterval draw domains parts s = .next t) : Keeps s t := by
  have e := next_inj h; subst e; have hk := keeps_refl s
  with_reducible (repeat' first | assumption | intro _ | apply controlStep_keeps | apply draw_keeps | apply parts_keeps | dsimp only)
theorem execEnergySample_keeps {input loss : Nat} {parts : List PartEnergy} {queues : List (Nat × Nat)} {s t : State} (h : execEnergySample input loss parts queues s = .next t) : Keeps s t := by
  have e := next_inj h; subst e; have hk := keeps_refl s
  with_reducible (repeat' first | assumption | intro _ | apply countEnergy_keeps | apply parts_keeps)
theorem execBoostStep_keeps {die : Fin 4} {s t : State} (h : execBoostStep die s = .next t) : Keeps s t := by
  have e := next_inj h; subst e; have hk := keeps_refl s
  with_reducible (repeat' first | assumption | intro _ | apply boost_keeps)
theorem execPllSlewStep_keeps {die : Fin 4} {s t : State} (h : execPllSlewStep die s = .next t) : Keeps s t := by
  have e := next_inj h; subst e; have hk := keeps_refl s
  with_reducible (repeat' first | assumption | intro _ | apply slewStep_keeps)
theorem execDroopDetected_keeps {cluster : Fin 48} {s t : State} (h : execDroopDetected cluster s = .next t) : Keeps s t := by
  have e := next_inj h; subst e; have hk := keeps_refl s
  with_reducible (repeat' first | assumption | intro _ | apply droop_keeps)
theorem execVcoreDecayTimer_keeps {die : Fin 4} {s t : State} (h : execVcoreDecayTimer die s = .next t) : Keeps s t := by
  have e := next_inj h; subst e; have hk := keeps_refl s
  with_reducible (repeat' first | assumption | intro _ | apply decay_keeps)
theorem execPowerStateReached_keeps {s t : State} (h : execPowerStateReached s = .next t) : Keeps s t := by
  have e := next_inj h; subst e; have hk := keeps_refl s
  with_reducible (repeat' first | assumption | intro _ | apply stateReached_keeps)
theorem execVinReach38V_keeps {millivolts : Nat} {s t : State} (h : execVinReach38V millivolts s = .next t) : Keeps s t := by
  have e := next_inj h; subst e; have hk := keeps_refl s
  with_reducible (repeat' first | assumption | intro _ | apply inputUp_keeps)
theorem execPkgRstAssert_keeps {lowNs : Nat} {s t : State} (h : execPkgRstAssert lowNs s = .next t) : Keeps s t := by
  have e := next_inj h; subst e; have hk := keeps_refl s
  with_reducible (repeat' first | assumption | intro _ | apply resetAsserted_keeps)
theorem execPkgRstRelease_keeps {s t : State} (h : execPkgRstRelease s = .next t) : Keeps s t := by
  have e := next_inj h; subst e; have hk := keeps_refl s
  with_reducible (repeat' first | assumption | intro _ | apply resetReleased_keeps)
theorem execPerstAssert_keeps {lowNs : Nat} {s t : State} (h : execPerstAssert lowNs s = .next t) : Keeps s t := by
  have e := next_inj h; subst e; have hk := keeps_refl s
  with_reducible (repeat' first | assumption | intro _ | apply perstLow_keeps)
theorem execPerstRelease_keeps {s t : State} (h : execPerstRelease s = .next t) : Keeps s t := by
  have e := next_inj h; subst e; have hk := keeps_refl s
  with_reducible (repeat' first | assumption | intro _ | apply modEp_keeps | dsimp only)
theorem execIslandRailsGood_keeps {straps : BitVec 10} {s t : State} (h : execIslandRailsGood straps s = .next t) : Keeps s t := by
  have e := next_inj h; subst e; have hk := keeps_refl s
  with_reducible (repeat' first | assumption | intro _ | apply islandUp_keeps)
theorem execBootRomStart_keeps {s t : State} (h : execBootRomStart s = .next t) : Keeps s t := by
  have e := next_inj h; subst e; have hk := keeps_refl s
  with_reducible (repeat' first | assumption | intro _ | apply romStart_keeps)
theorem execPllLocked_keeps {s t : State} (h : execPllLocked s = .next t) : Keeps s t := by
  have e := next_inj h; subst e; have hk := keeps_refl s
  with_reducible (repeat' first | assumption | intro _ | apply railsUp_keeps)
theorem execFirmwareHandover_keeps {s t : State} (h : execFirmwareHandover s = .next t) : Keeps s t := by
  have e := next_inj h; subst e; have hk := keeps_refl s
  with_reducible (repeat' first | assumption | intro _ | apply handOverFw_keeps)
theorem execHbmTrainingDone_keeps {failed : List (Fin 16)} {s t : State} (h : execHbmTrainingDone failed s = .next t) : Keeps s t := by
  have e := next_inj h; subst e; have hk := keeps_refl s
  with_reducible (repeat' first | assumption | intro _ | apply trainingDone_keeps | dsimp only)
theorem execHardRepairsDone_keeps {noSpare : List (Nat × Nat)} {s t : State} (h : execHardRepairsDone noSpare s = .next t) : Keeps s t := by
  have e := next_inj h; subst e; have hk := keeps_refl s
  with_reducible (repeat' first | assumption | intro _ | apply startReady_keeps)
theorem execCareenPhaseDone_keeps {findings : List Finding} {peak : Nat} {s t : State} (h : execCareenPhaseDone findings peak s = .next t) : Keeps s t := by
  have e := next_inj h; subst e; have hk := keeps_refl s
  with_reducible (repeat' first | assumption | intro _ | apply phaseDone_keeps)
theorem execCareenInserviceStart_keeps {s t : State} (h : execCareenInserviceStart s = .next t) : Keeps s t := by
  have e := next_inj h; subst e; have hk := keeps_refl s
  with_reducible (repeat' first | assumption | intro _ | apply inServiceStart_keeps)
theorem execCareenInserviceDone_keeps {findings : List Finding} {repairable : Bool} {s t : State} (h : execCareenInserviceDone findings repairable s = .next t) : Keeps s t := by
  have e := next_inj h; subst e; have hk := keeps_refl s
  with_reducible (repeat' first | assumption | intro _ | apply inServiceDone_keeps)
theorem execLogRateSecond_keeps {s t : State} (h : execLogRateSecond s = .next t) : Keeps s t := by
  have e := next_inj h; subst e; have hk := keeps_refl s
  with_reducible (repeat' first | assumption | intro _ | apply newSecond_keeps)
theorem execStateCopyEcho_keeps {p : Packet} {s t : State} (h : execStateCopyEcho p s = .next t) : Keeps s t := by
  have e := next_inj h; subst e; have hk := keeps_refl s
  with_reducible (repeat' first | assumption | intro _ | apply takePacket_keeps | apply arriveCopyEcho_keeps)
theorem execPcieLinkUp_keeps {s t : State} (h : execPcieLinkUp s = .next t) : Keeps s t := by
  have e := next_inj h; subst e; have hk := keeps_refl s
  with_reducible (repeat' first | assumption | intro _ | apply linkTrains_keeps)
theorem execBusMasterEnableWrite_keeps {fn : FnId} {enable : Bool} {s t : State} (h : execBusMasterEnableWrite fn enable s = .next t) : Keeps s t := by
  have e := next_inj h; subst e; have hk := keeps_refl s
  with_reducible (repeat' first | assumption | intro _ | apply busMaster_keeps)
theorem execCareenEngineRunDone_keeps {findings : List Finding} {peak : Nat} {s t : State} (h : execCareenEngineRunDone findings peak s = .next t) : Keeps s t := by
  have e := next_inj h; subst e; have hk := keeps_refl s
  with_reducible (repeat' first | assumption | intro _ | apply engineDone_keeps)
/-- Every command keeps it. -/
theorem exec_keeps {c : Instr} {s t : State} (h : exec c s = .next t) : Keeps s t := by
  cases c with
  | mbxPost m len => exact execMbxPost_keeps h
  | mbxAck m val => exact execMbxAck_keeps h
  | hmIntStatusClear val => exact execHmIntStatusClear_keeps h
  | mbxVfEventClear vf val => exact execMbxVfEventClear_keeps h
  | hmTimeLoRead => exact execHmTimeLoRead_keeps h
  | hmLogSeqLoRead => exact execHmLogSeqLoRead_keeps h
  | registerWrite fn bar2 off val => exact execRegisterWrite_keeps h
  | partOpen m => exact execPartOpen_keeps h
  | partClose m => exact execPartClose_keeps h
  | imageLoad m dma => exact execImageLoad_keeps h
  | imageFree m => exact execImageFree_keeps h
  | configStage m => exact execConfigStage_keeps h
  | configStageFailover m => exact execConfigStageFailover_keeps h
  | configSwap m => exact execConfigSwap_keeps h
  | configSwapCancel m => exact execConfigSwapCancel_keeps h
  | configSet m => exact execConfigSet_keeps h
  | configRead m => exact execConfigRead_keeps h
  | stepSubmit m seqs input => exact execStepSubmit_keeps h
  | stepQuery m => exact execStepQuery_keeps h
  | stepAbort m => exact execStepAbort_keeps h
  | kvEvictFree m => exact execKvEvictFree_keeps h
  | kvEvictSwap m => exact execKvEvictSwap_keeps h
  | statsRead m => exact execStatsRead_keeps h
  | logRead m => exact execLogRead_keeps h
  | stateSetState m => exact execStateSetState_keeps h
  | stateSetCap m => exact execStateSetCap_keeps h
  | stateSetFractions m => exact execStateSetFractions_keeps h
  | stateSetClock m => exact execStateSetClock_keeps h
  | stateSetRead m => exact execStateSetRead_keeps h
  | stateSetEnergy m => exact execStateSetEnergy_keeps h
  | attestMeasure m => exact execAttestMeasure_keeps h
  | attestQuote m => exact execAttestQuote_keeps h
  | attestCert m => exact execAttestCert_keeps h
  | lcNonce m => exact execLcNonce_keeps h
  | lcProvision m => exact execLcProvision_keeps h
  | lcSeal m => exact execLcSeal_keeps h
  | lcUnseal m => exact execLcUnseal_keeps h
  | lcReturn m => exact execLcReturn_keeps h
  | lcRetire m => exact execLcRetire_keeps h
  | lcKeys m dma => exact execLcKeys_keeps h
  | fwWrite m dma => exact execFwWrite_keeps h
  | fwData m => exact execFwData_keeps h
  | fwPrefer m => exact execFwPrefer_keeps h
  | fwCommit m => exact execFwCommit_keeps h
  | weightsBegin m dma => exact execWeightsBegin_keeps h
  | weightsShard m dma readBackOk => exact execWeightsShard_keeps h
  | weightsFinish m => exact execWeightsFinish_keeps h
  | weightsAbort m => exact execWeightsAbort_keeps h
  | weightsQuery m => exact execWeightsQuery_keeps h
  | weightsGroup m => exact execWeightsGroup_keeps h
  | careenSummary m => exact execCareenSummary_keeps h
  | careenResults m => exact execCareenResults_keeps h
  | careenShutdown m => exact execCareenShutdown_keeps h
  | careenRun m => exact execCareenRun_keeps h
  | careenAbort m => exact execCareenAbort_keeps h
  | careenClear m => exact execCareenClear_keeps h
  | fabricJoin m => exact execFabricJoin_keeps h
  | sidebandMailbox msg => exact execSidebandMailbox_keeps h
  | mctpControl cmd data => exact execMctpControl_keeps h
  | pldmRequest ty cmd data => exact execPldmRequest_keeps h
  | pldmSensorUpdate readings => exact execPldmSensorUpdate_keeps h
  | smbAlertResponse => exact execSmbAlertResponse_keeps h
  | spdmGetVersion onDoe msg => exact execSpdmGetVersion_keeps (msg := msg) h
  | spdmGetCapabilities onDoe msg => exact execSpdmGetCapabilities_keeps h
  | spdmNegotiateAlgorithms onDoe msg => exact execSpdmNegotiateAlgorithms_keeps (msg := msg) h
  | spdmGetDigests onDoe msg => exact execSpdmGetDigests_keeps (msg := msg) h
  | spdmGetCertificate onDoe msg => exact execSpdmGetCertificate_keeps h
  | spdmChallenge onDoe msg => exact execSpdmChallenge_keeps h
  | spdmGetMeasurements onDoe msg => exact execSpdmGetMeasurements_keeps h
  | spdmKeyExchange onDoe msg => exact execSpdmKeyExchange_keeps h
  | spdmFinish onDoe msg good => exact execSpdmFinish_keeps (msg := msg) h
  | spdmKeyUpdate onDoe msg => exact execSpdmKeyUpdate_keeps h
  | spdmEndSession onDoe msg => exact execSpdmEndSession_keeps (msg := msg) h
  | ideKm msg => exact execIdeKm_keeps h
  | ideIntegrityFailure stream => exact execIdeIntegrityFailure_keeps h
  | flrVf n => exact execFlrVf_keeps h
  | flrPf => exact execFlrPf_keeps h
  | hotReset => exact execHotReset_keeps h
  | pcieLinkDown => exact execPcieLinkDown_keeps h
  | dmaReadFailure m => exact execDmaReadFailure_keeps h
  | nop a => exact execNop_keeps h
  | pass a ev => exact execPass_keeps h
  | gatherDeadlineExpire core => exact execGatherDeadlineExpire_keeps h
  | sramScrubDone macroNo bad => exact execSramScrubDone_keeps h
  | quant a ev => exact execQuant_keeps h
  | vecAdd a ev => exact execVecAdd_keeps h
  | vecMul a ev => exact execVecMul_keeps h
  | vecRowScale a ev => exact execVecRowScale_keeps h
  | vecRmsNorm a ev => exact execVecRmsNorm_keeps h
  | vecSiluMul a ev => exact execVecSiluMul_keeps h
  | vecGelu a ev => exact execVecGelu_keeps h
  | vecMerge a ev => exact execVecMerge_keeps h
  | vecConvert a ev => exact execVecConvert_keeps h
  | attendFull a ev => exact execAttendFull_keeps h
  | attendPartial a ev => exact execAttendPartial_keeps h
  | attendMerge a ev => exact execAttendMerge_keeps h
  | appendWaitTimeout a => exact execAppendWaitTimeout_keeps h
  | routeSelect a ev => exact execRouteSelect_keeps h
  | routeSeal a => exact execRouteSeal_keeps h
  | routeGather a ev => exact execRouteGather_keeps h
  | routeReturn a ev => exact execRouteReturn_keeps h
  | routeCombine a ev => exact execRouteCombine_keeps h
  | routePush a ev => exact execRoutePush_keeps h
  | move a ev => exact execMove_keeps h
  | windowWait a => exact execWindowWait_keeps h
  | windowRelease a => exact execWindowRelease_keeps h
  | barrier a => exact execBarrier_keeps h
  | stampedeWaveRelease part step bar => exact execStampedeWaveRelease_keeps h
  | barrierHangTimeout part step bar => exact execBarrierHangTimeout_keeps h
  | expand a => exact execExpand_keeps h
  | post a => exact execPost_keeps h
  | await a => exact execAwait_keeps h
  | endStep a => exact execEndStep_keeps h
  | commandComplete cluster id => exact execCommandComplete_keeps h
  | probeComplete die mismatch again => exact execProbeComplete_keeps h
  | rungChunkDone standby fails => exact execRungChunkDone_keeps h
  | coldChunkDone standby fails => exact execColdChunkDone_keeps h
  | restoreUnitDone fails => exact execRestoreUnitDone_keeps h
  | stepAdmit part => exact execStepAdmit_keeps h
  | stepCommit part => exact execStepCommit_keeps h
  | streamBegin cluster => exact execStreamBegin_keeps h
  | streamLanded cluster buf bad => exact execStreamLanded_keeps h
  | hbmReadDone pc row lost outcome => exact execHbmReadDone_keeps h
  | refetchDone idx => exact execRefetchDone_keeps h
  | hbmRowRepairDone idx spareLeft => exact execHbmRowRepairDone_keeps h
  | pcTrainingLost pc => exact execPcTrainingLost_keeps h
  | frameMoveDone idx => exact execFrameMoveDone_keeps h
  | swapOutPageDone part => exact execSwapOutPageDone_keeps h
  | swapInPageDone part data => exact execSwapInPageDone_keeps h
  | patrolScrubShard fails => exact execPatrolScrubShard_keeps h
  | rebuildPeerTimeout => exact execRebuildPeerTimeout_keeps h
  | qpushEntry p => exact execQpushEntry_keeps h
  | qpushFragment p => exact execQpushFragment_keeps h
  | qpushClose p => exact execQpushClose_keeps h
  | sealHangTimeout a => exact execSealHangTimeout_keeps h
  | returnRowArrive part cluster step op kind off data => exact execReturnRowArrive_keeps h
  | journalRelease p => exact execJournalRelease_keeps h
  | load p => exact execLoad_keeps h
  | store p => exact execStore_keeps h
  | atomic p => exact execAtomic_keeps h
  | bulk p => exact execBulk_keeps h
  | serviceShardRead p => exact execServiceShardRead_keeps h
  | serviceMirrorWrite p => exact execServiceMirrorWrite_keeps h
  | serviceMirrorFetch p => exact execServiceMirrorFetch_keeps h
  | serviceMirrorAck p => exact execServiceMirrorAck_keeps h
  | loadResp p => exact execLoadResp_keeps h
  | ack p => exact execAck_keeps h
  | atomicResp p => exact execAtomicResp_keeps h
  | error p => exact execError_keeps h
  | serviceResp p => exact execServiceResp_keeps h
  | heartbeat p => exact execHeartbeat_keeps h
  | teardown p => exact execTeardown_keeps h
  | teardownAck p => exact execTeardownAck_keeps h
  | jobMap p => exact execJobMap_keeps h
  | jobMapAck p => exact execJobMapAck_keeps h
  | join p => exact execJoin_keeps h
  | joinReply p => exact execJoinReply_keeps h
  | manager p => exact execManager_keeps h
  | leave p => exact execLeave_keeps h
  | stateCopy p => exact execStateCopy_keeps h
  | routeTable p => exact execRouteTable_keeps h
  | packetForward p => exact execPacketForward_keeps h
  | flitReceive port bytes => exact execFlitReceive_keeps h
  | laneSpareDone port good => exact execLaneSpareDone_keeps h
  | controlFlitReceive port bytes => exact execControlFlitReceive_keeps h
  | ackStallTimeout port => exact execAckStallTimeout_keeps h
  | detectBurstTimer port => exact execDetectBurstTimer_keeps h
  | trainingPatternReceived port => exact execTrainingPatternReceived_keeps h
  | equaliseDone port badLanes inTime => exact execEqualiseDone_keeps h
  | verifyExchange port pkg farPort life mgr => exact execVerifyExchange_keeps (life := life) h
  | linkSignalLost port => exact execLinkSignalLost_keeps h
  | ackSendTimer plane src job => exact execAckSendTimer_keeps h
  | requestResendTimeout plane dst job seq => exact execRequestResendTimeout_keeps h
  | mgmtResendTimer idx => exact execMgmtResendTimer_keeps h
  | resultAckTimer plane dst job => exact execResultAckTimer_keeps h
  | heartbeatTimer => exact execHeartbeatTimer_keeps h
  | heartbeatTimeout pkg => exact execHeartbeatTimeout_keeps h
  | managerHeartbeatTimeout => exact execManagerHeartbeatTimeout_keeps h
  | cutOffTimeout => exact execCutOffTimeout_keeps h
  | teardownDeadline job => exact execTeardownDeadline_keeps h
  | electionAnnounceTimer => exact execElectionAnnounceTimer_keeps h
  | electionSettleTimer => exact execElectionSettleTimer_keeps h
  | mirrorAckTimeout => exact execMirrorAckTimeout_keeps h
  | hmJournalEntry words => exact execHmJournalEntry_keeps h
  | hmJournalHeartbeatTimer => exact execHmJournalHeartbeatTimer_keeps h
  | hmJournalTimeout => exact execHmJournalTimeout_keeps h
  | hmFaultSignal => exact execHmFaultSignal_keeps h
  | dieLinkFail die iod => exact execDieLinkFail_keeps h
  | computeDieFail die => exact execComputeDieFail_keeps h
  | iodLinkFail => exact execIodLinkFail_keeps h
  | iod0Fail => exact execIod0Fail_keeps h
  | voltageSample millivolts => exact execVoltageSample_keeps h
  | voltageRecoveryTimer => exact execVoltageRecoveryTimer_keeps h
  | inputBelow30V millivolts => exact execInputBelow30V_keeps h
  | holdupExhausted => exact execHoldupExhausted_keeps h
  | rootClockLost ppm => exact execRootClockLost_keeps h
  | thermalSample temps => exact execThermalSample_keeps h
  | powerControlInterval draw domains parts => exact execPowerControlInterval_keeps h
  | energySample input loss parts queues => exact execEnergySample_keeps h
  | boostStep die => exact execBoostStep_keeps h
  | pllSlewStep die => exact execPllSlewStep_keeps h
  | droopDetected cluster => exact execDroopDetected_keeps h
  | vcoreDecayTimer die => exact execVcoreDecayTimer_keeps h
  | powerStateReached => exact execPowerStateReached_keeps h
  | vinReach38V millivolts => exact execVinReach38V_keeps h
  | pkgRstAssert lowNs => exact execPkgRstAssert_keeps h
  | pkgRstRelease => exact execPkgRstRelease_keeps h
  | perstAssert lowNs => exact execPerstAssert_keeps h
  | perstRelease => exact execPerstRelease_keeps h
  | islandRailsGood straps => exact execIslandRailsGood_keeps h
  | bootRomStart => exact execBootRomStart_keeps h
  | pllLocked => exact execPllLocked_keeps h
  | firmwareHandover => exact execFirmwareHandover_keeps h
  | hbmTrainingDone failed => exact execHbmTrainingDone_keeps h
  | hardRepairsDone noSpare => exact execHardRepairsDone_keeps h
  | careenPhaseDone findings peak => exact execCareenPhaseDone_keeps h
  | careenInserviceStart => exact execCareenInserviceStart_keeps h
  | careenInserviceDone findings repairable => exact execCareenInserviceDone_keeps h
  | logRateSecond => exact execLogRateSecond_keeps h
  | stateCopyEcho p => exact execStateCopyEcho_keeps h
  | pcieLinkUp => exact execPcieLinkUp_keeps h
  | busMasterEnableWrite fn enable => exact execBusMasterEnableWrite_keeps h
  | careenEngineRunDone findings peak => exact execCareenEngineRunDone_keeps h

end Sys2Proof.Machine
end

