-- ==== Sys2Proof/Laws/KeepsTick.lean ====
section
/-! SUPPORT. Every operation of Machine/Tick.lean keeps what no command takes away (Laws/Keeps.lean). -/

namespace Sys2Proof.Machine
theorem countTime_keeps {s0 : State} {s : State}
    (hk : Keeps s0 s) : Keeps s0 (countTime s) := by
  conv => arg 2; fun; delta countTime
  repeat' first
    | with_reducible first
        | assumption | intro _ | apply totAdd_keeps | apply keeps_ite
    | split | dsimp only | apply aclk_keeps
    | exact keeps_same hk ⟨rfl, rfl, rfl, rfl, rfl, rfl, rfl, rfl, rfl, rfl, rfl, rfl, rfl, ⟨rfl, rfl, rfl, rfl, rfl, rfl⟩, rfl⟩

theorem countAlive_keeps {s0 : State} {s : State}
    (hk : Keeps s0 s) : Keeps s0 (countAlive s) := by
  conv => arg 2; fun; delta countAlive
  repeat' first
    | with_reducible first
        | assumption | intro _ | apply modHm_keeps | apply keeps_ite
    | split | dsimp only

theorem tick_keeps {s0 : State} {s : State}
    (hk : Keeps s0 s) : Keeps s0 (tick s) := by
  conv => arg 2; fun; delta tick
  repeat' first
    | with_reducible first
        | assumption | intro _ | apply countAlive_keeps | apply countTime_keeps | apply careenOn_keeps
        | apply stopOn_keeps | apply moveOn_keeps | apply pumpStreams_keeps | apply keeps_ite
    | split | dsimp only | apply now_keeps
    | exact keeps_same hk ⟨rfl, rfl, rfl, rfl, rfl, rfl, rfl, rfl, rfl, rfl, rfl, rfl, rfl, ⟨rfl, rfl, rfl, rfl, rfl, rfl⟩, rfl⟩

end Sys2Proof.Machine
end

