-- ==== Sys2Proof/Laws/State.lean ====
section
/-! SUPPORT. What each update of the state changes and what it leaves: the part it changes reads as changed, every other part as
before. All of it holds by computation, so that no later proof unfolds a record update. -/

namespace Sys2Proof.Machine

/-! Sparse tables. -/

theorem tget_tset {α : Type} (t : Tbl α) (i j : Nat) (v : α) : tget (tset t i v) j = if i = j then some v else tget t j := by
  induction t with
  | nil => simp only [tset, tget]
  | cons e t ih =>
    obtain ⟨k, w⟩ := e
    simp only [tset]
    split
    · simp only [tget]
    · split
      · rename_i h; subst h; simp only [tget]; split <;> rfl
      · rename_i h; simp only [tget, ih]
        split
        · rename_i hk; subst hk; rw [if_neg h]
        · rfl

/-- An entry reads back as it was set. -/
@[simp] theorem tgetD_tset_same {α : Type} (t : Tbl α) (i : Nat) (v d : α) : tgetD (tset t i v) i d = v := by
  simp only [tgetD, tget_tset, if_pos, Option.getD_some]
/-- Setting an entry leaves every other one. -/
theorem tgetD_tset_ne {α : Type} (t : Tbl α) {i j : Nat} (v d : α) (h : i ≠ j) : tgetD (tset t i v) j d = tgetD t j d := by
  simp only [tgetD, tget_tset, if_neg h]

theorem mbxKey_inj {m n : MbxId} (h : mbxKey m = mbxKey n) : m = n := by
  cases m with
  | pf a => cases n with
    | pf b => simp only [mbxKey] at h; congr 1; omega
    | vf c d => simp only [mbxKey] at h; omega
    | sideband => simp only [mbxKey] at h; omega
  | vf a b => cases n with
    | pf c => simp only [mbxKey] at h; omega
    | vf c d =>
      simp only [mbxKey] at h
      have h1 : a = c := by omega
      have h2 : b = d := by omega
      rw [h1, h2]
    | sideband => simp only [mbxKey] at h; omega
  | sideband => cases n with
    | pf b => simp only [mbxKey] at h; omega
    | vf c d => simp only [mbxKey] at h; omega
    | sideband => rfl

/-! Updates. -/

/-- `modHm` changes nothing else. -/
@[simp] theorem modHm_frame (f : Hm → Hm) (s : State) :
    (modHm f s).pending = s.pending ∧ (modHm f s).now = s.now ∧ (modHm f s).free = s.free ∧ (modHm f s).out = s.out ∧
    (modHm f s).bus = s.bus ∧ (modHm f s).host.log = s.host.log ∧ (modHm f s).host.mbx = s.host.mbx ∧
    (modHm f s).host.journal = s.host.journal ∧ (modHm f s).host.ep = s.host.ep ∧ (modHm f s).host.sb = s.host.sb ∧
    (modHm f s).parts = s.parts ∧ (modHm f s).images = s.images ∧ (modHm f s).stages = s.stages ∧
    (modHm f s).x.cores = s.x.cores ∧ (modHm f s).x.clusters = s.x.clusters ∧ (modHm f s).x.chm = s.x.chm ∧
    (modHm f s).x.probeNo = s.x.probeNo ∧ (modHm f s).x.sram = s.x.sram ∧ (modHm f s).x.loose = s.x.loose ∧
    (modHm f s).x.hbm = s.x.hbm ∧ (modHm f s).x.bond = s.x.bond ∧ (modHm f s).tiers = s.tiers ∧
    (modHm f s).health = s.health ∧ (modHm f s).bnd = s.bnd ∧ (modHm f s).fab = s.fab ∧ (modHm f s).mgr = s.mgr ∧
    (modHm f s).ports = s.ports ∧ (modHm f s).cont = s.cont ∧ (modHm f s).pw = s.pw ∧ (modHm f s).dv = s.dv ∧
    (modHm f s).pins = s.pins ∧ (modHm f s).boot = s.boot ∧ (modHm f s).sec = s.sec ∧ (modHm f s).car = s.car ∧
    (modHm f s).tot = s.tot ∧ (modHm f s).aclk = s.aclk ∧ (modHm f s).warmRestarts = s.warmRestarts ∧
    (∀ i, mbxOf (modHm f s) i = mbxOf s i) ∧ (∀ i, partOf (modHm f s) i = partOf s i) ∧
    (∀ i, coreOf (modHm f s) i = coreOf s i) ∧ (∀ i, clusterOf (modHm f s) i = clusterOf s i) ∧
    (∀ i, chmOf (modHm f s) i = chmOf s i) ∧ (∀ i, portOf (modHm f s) i = portOf s i) :=
  ⟨rfl, rfl, rfl, rfl, rfl, rfl, rfl, rfl, rfl, rfl, rfl, rfl, rfl, rfl, rfl, rfl, rfl, rfl, rfl, rfl, rfl, rfl, rfl, rfl,
   rfl, rfl, rfl, rfl, rfl, rfl, rfl, rfl, rfl, rfl, rfl, rfl, rfl, fun _ => rfl, fun _ => rfl, fun _ => rfl, fun _ =>
   rfl, fun _ => rfl, fun _ => rfl⟩
@[simp] theorem modHm_own (f : Hm → Hm) (s : State) : (modHm f s).host.hm = f s.host.hm := rfl
/-- `modLog` changes nothing else. -/
@[simp] theorem modLog_frame (f : EventLog → EventLog) (s : State) :
    (modLog f s).pending = s.pending ∧ (modLog f s).now = s.now ∧ (modLog f s).free = s.free ∧ (modLog f s).out = s.out ∧
    (modLog f s).bus = s.bus ∧ (modLog f s).host.hm = s.host.hm ∧ (modLog f s).host.mbx = s.host.mbx ∧
    (modLog f s).host.journal = s.host.journal ∧ (modLog f s).host.ep = s.host.ep ∧ (modLog f s).host.sb = s.host.sb ∧
    (modLog f s).parts = s.parts ∧ (modLog f s).images = s.images ∧ (modLog f s).stages = s.stages ∧
    (modLog f s).x.cores = s.x.cores ∧ (modLog f s).x.clusters = s.x.clusters ∧ (modLog f s).x.chm = s.x.chm ∧
    (modLog f s).x.probeNo = s.x.probeNo ∧ (modLog f s).x.sram = s.x.sram ∧ (modLog f s).x.loose = s.x.loose ∧
    (modLog f s).x.hbm = s.x.hbm ∧ (modLog f s).x.bond = s.x.bond ∧ (modLog f s).tiers = s.tiers ∧
    (modLog f s).health = s.health ∧ (modLog f s).bnd = s.bnd ∧ (modLog f s).fab = s.fab ∧ (modLog f s).mgr = s.mgr ∧
    (modLog f s).ports = s.ports ∧ (modLog f s).cont = s.cont ∧ (modLog f s).pw = s.pw ∧ (modLog f s).dv = s.dv ∧
    (modLog f s).pins = s.pins ∧ (modLog f s).boot = s.boot ∧ (modLog f s).sec = s.sec ∧ (modLog f s).car = s.car ∧
    (modLog f s).tot = s.tot ∧ (modLog f s).aclk = s.aclk ∧ (modLog f s).warmRestarts = s.warmRestarts ∧
    (∀ i, mbxOf (modLog f s) i = mbxOf s i) ∧ (∀ i, partOf (modLog f s) i = partOf s i) ∧
    (∀ i, coreOf (modLog f s) i = coreOf s i) ∧ (∀ i, clusterOf (modLog f s) i = clusterOf s i) ∧
    (∀ i, chmOf (modLog f s) i = chmOf s i) ∧ (∀ i, portOf (modLog f s) i = portOf s i) :=
  ⟨rfl, rfl, rfl, rfl, rfl, rfl, rfl, rfl, rfl, rfl, rfl, rfl, rfl, rfl, rfl, rfl, rfl, rfl, rfl, rfl, rfl, rfl, rfl, rfl,
   rfl, rfl, rfl, rfl, rfl, rfl, rfl, rfl, rfl, rfl, rfl, rfl, rfl, fun _ => rfl, fun _ => rfl, fun _ => rfl, fun _ =>
   rfl, fun _ => rfl, fun _ => rfl⟩
@[simp] theorem modLog_own (f : EventLog → EventLog) (s : State) : (modLog f s).host.log = f s.host.log := rfl
/-- `modEp` changes nothing else. -/
@[simp] theorem modEp_frame (f : Endpoint → Endpoint) (s : State) :
    (modEp f s).pending = s.pending ∧ (modEp f s).now = s.now ∧ (modEp f s).free = s.free ∧ (modEp f s).out = s.out ∧
    (modEp f s).bus = s.bus ∧ (modEp f s).host.hm = s.host.hm ∧ (modEp f s).host.log = s.host.log ∧
    (modEp f s).host.mbx = s.host.mbx ∧ (modEp f s).host.journal = s.host.journal ∧ (modEp f s).host.sb = s.host.sb ∧
    (modEp f s).parts = s.parts ∧ (modEp f s).images = s.images ∧ (modEp f s).stages = s.stages ∧
    (modEp f s).x.cores = s.x.cores ∧ (modEp f s).x.clusters = s.x.clusters ∧ (modEp f s).x.chm = s.x.chm ∧
    (modEp f s).x.probeNo = s.x.probeNo ∧ (modEp f s).x.sram = s.x.sram ∧ (modEp f s).x.loose = s.x.loose ∧
    (modEp f s).x.hbm = s.x.hbm ∧ (modEp f s).x.bond = s.x.bond ∧ (modEp f s).tiers = s.tiers ∧
    (modEp f s).health = s.health ∧ (modEp f s).bnd = s.bnd ∧ (modEp f s).fab = s.fab ∧ (modEp f s).mgr = s.mgr ∧
    (modEp f s).ports = s.ports ∧ (modEp f s).cont = s.cont ∧ (modEp f s).pw = s.pw ∧ (modEp f s).dv = s.dv ∧
    (modEp f s).pins = s.pins ∧ (modEp f s).boot = s.boot ∧ (modEp f s).sec = s.sec ∧ (modEp f s).car = s.car ∧
    (modEp f s).tot = s.tot ∧ (modEp f s).aclk = s.aclk ∧ (modEp f s).warmRestarts = s.warmRestarts ∧
    (∀ i, mbxOf (modEp f s) i = mbxOf s i) ∧ (∀ i, partOf (modEp f s) i = partOf s i) ∧
    (∀ i, coreOf (modEp f s) i = coreOf s i) ∧ (∀ i, clusterOf (modEp f s) i = clusterOf s i) ∧
    (∀ i, chmOf (modEp f s) i = chmOf s i) ∧ (∀ i, portOf (modEp f s) i = portOf s i) :=
  ⟨rfl, rfl, rfl, rfl, rfl, rfl, rfl, rfl, rfl, rfl, rfl, rfl, rfl, rfl, rfl, rfl, rfl, rfl, rfl, rfl, rfl, rfl, rfl, rfl,
   rfl, rfl, rfl, rfl, rfl, rfl, rfl, rfl, rfl, rfl, rfl, rfl, rfl, fun _ => rfl, fun _ => rfl, fun _ => rfl, fun _ =>
   rfl, fun _ => rfl, fun _ => rfl⟩
@[simp] theorem modEp_own (f : Endpoint → Endpoint) (s : State) : (modEp f s).host.ep = f s.host.ep := rfl
/-- `modSb` changes nothing else. -/
@[simp] theorem modSb_frame (f : Sideband → Sideband) (s : State) :
    (modSb f s).pending = s.pending ∧ (modSb f s).now = s.now ∧ (modSb f s).free = s.free ∧ (modSb f s).out = s.out ∧
    (modSb f s).bus = s.bus ∧ (modSb f s).host.hm = s.host.hm ∧ (modSb f s).host.log = s.host.log ∧
    (modSb f s).host.mbx = s.host.mbx ∧ (modSb f s).host.journal = s.host.journal ∧ (modSb f s).host.ep = s.host.ep ∧
    (modSb f s).parts = s.parts ∧ (modSb f s).images = s.images ∧ (modSb f s).stages = s.stages ∧
    (modSb f s).x.cores = s.x.cores ∧ (modSb f s).x.clusters = s.x.clusters ∧ (modSb f s).x.chm = s.x.chm ∧
    (modSb f s).x.probeNo = s.x.probeNo ∧ (modSb f s).x.sram = s.x.sram ∧ (modSb f s).x.loose = s.x.loose ∧
    (modSb f s).x.hbm = s.x.hbm ∧ (modSb f s).x.bond = s.x.bond ∧ (modSb f s).tiers = s.tiers ∧
    (modSb f s).health = s.health ∧ (modSb f s).bnd = s.bnd ∧ (modSb f s).fab = s.fab ∧ (modSb f s).mgr = s.mgr ∧
    (modSb f s).ports = s.ports ∧ (modSb f s).cont = s.cont ∧ (modSb f s).pw = s.pw ∧ (modSb f s).dv = s.dv ∧
    (modSb f s).pins = s.pins ∧ (modSb f s).boot = s.boot ∧ (modSb f s).sec = s.sec ∧ (modSb f s).car = s.car ∧
    (modSb f s).tot = s.tot ∧ (modSb f s).aclk = s.aclk ∧ (modSb f s).warmRestarts = s.warmRestarts ∧
    (∀ i, mbxOf (modSb f s) i = mbxOf s i) ∧ (∀ i, partOf (modSb f s) i = partOf s i) ∧
    (∀ i, coreOf (modSb f s) i = coreOf s i) ∧ (∀ i, clusterOf (modSb f s) i = clusterOf s i) ∧
    (∀ i, chmOf (modSb f s) i = chmOf s i) ∧ (∀ i, portOf (modSb f s) i = portOf s i) :=
  ⟨rfl, rfl, rfl, rfl, rfl, rfl, rfl, rfl, rfl, rfl, rfl, rfl, rfl, rfl, rfl, rfl, rfl, rfl, rfl, rfl, rfl, rfl, rfl, rfl,
   rfl, rfl, rfl, rfl, rfl, rfl, rfl, rfl, rfl, rfl, rfl, rfl, rfl, fun _ => rfl, fun _ => rfl, fun _ => rfl, fun _ =>
   rfl, fun _ => rfl, fun _ => rfl⟩
@[simp] theorem modSb_own (f : Sideband → Sideband) (s : State) : (modSb f s).host.sb = f s.host.sb := rfl
/-- `modJournal` changes nothing else. -/
@[simp] theorem modJournal_frame (f : List Request → List Request) (s : State) :
    (modJournal f s).pending = s.pending ∧ (modJournal f s).now = s.now ∧ (modJournal f s).free = s.free ∧
    (modJournal f s).out = s.out ∧ (modJournal f s).bus = s.bus ∧ (modJournal f s).host.hm = s.host.hm ∧
    (modJournal f s).host.log = s.host.log ∧ (modJournal f s).host.mbx = s.host.mbx ∧
    (modJournal f s).host.ep = s.host.ep ∧ (modJournal f s).host.sb = s.host.sb ∧ (modJournal f s).parts = s.parts ∧
    (modJournal f s).images = s.images ∧ (modJournal f s).stages = s.stages ∧ (modJournal f s).x.cores = s.x.cores ∧
    (modJournal f s).x.clusters = s.x.clusters ∧ (modJournal f s).x.chm = s.x.chm ∧
    (modJournal f s).x.probeNo = s.x.probeNo ∧ (modJournal f s).x.sram = s.x.sram ∧ (modJournal f s).x.loose = s.x.loose ∧
    (modJournal f s).x.hbm = s.x.hbm ∧ (modJournal f s).x.bond = s.x.bond ∧ (modJournal f s).tiers = s.tiers ∧
    (modJournal f s).health = s.health ∧ (modJournal f s).bnd = s.bnd ∧ (modJournal f s).fab = s.fab ∧
    (modJournal f s).mgr = s.mgr ∧ (modJournal f s).ports = s.ports ∧ (modJournal f s).cont = s.cont ∧
    (modJournal f s).pw = s.pw ∧ (modJournal f s).dv = s.dv ∧ (modJournal f s).pins = s.pins ∧
    (modJournal f s).boot = s.boot ∧ (modJournal f s).sec = s.sec ∧ (modJournal f s).car = s.car ∧
    (modJournal f s).tot = s.tot ∧ (modJournal f s).aclk = s.aclk ∧ (modJournal f s).warmRestarts = s.warmRestarts ∧
    (∀ i, mbxOf (modJournal f s) i = mbxOf s i) ∧ (∀ i, partOf (modJournal f s) i = partOf s i) ∧
    (∀ i, coreOf (modJournal f s) i = coreOf s i) ∧ (∀ i, clusterOf (modJournal f s) i = clusterOf s i) ∧
    (∀ i, chmOf (modJournal f s) i = chmOf s i) ∧ (∀ i, portOf (modJournal f s) i = portOf s i) :=
  ⟨rfl, rfl, rfl, rfl, rfl, rfl, rfl, rfl, rfl, rfl, rfl, rfl, rfl, rfl, rfl, rfl, rfl, rfl, rfl, rfl, rfl, rfl, rfl, rfl,
   rfl, rfl, rfl, rfl, rfl, rfl, rfl, rfl, rfl, rfl, rfl, rfl, rfl, fun _ => rfl, fun _ => rfl, fun _ => rfl, fun _ =>
   rfl, fun _ => rfl, fun _ => rfl⟩
@[simp] theorem modJournal_own (f : List Request → List Request) (s : State) : (modJournal f s).host.journal = f s.host.journal := rfl
/-- `modTiers` changes nothing else. -/
@[simp] theorem modTiers_frame (f : Tiers → Tiers) (s : State) :
    (modTiers f s).pending = s.pending ∧ (modTiers f s).now = s.now ∧ (modTiers f s).free = s.free ∧
    (modTiers f s).out = s.out ∧ (modTiers f s).bus = s.bus ∧ (modTiers f s).host.hm = s.host.hm ∧
    (modTiers f s).host.log = s.host.log ∧ (modTiers f s).host.mbx = s.host.mbx ∧
    (modTiers f s).host.journal = s.host.journal ∧ (modTiers f s).host.ep = s.host.ep ∧
    (modTiers f s).host.sb = s.host.sb ∧ (modTiers f s).parts = s.parts ∧ (modTiers f s).images = s.images ∧
    (modTiers f s).stages = s.stages ∧ (modTiers f s).x.cores = s.x.cores ∧ (modTiers f s).x.clusters = s.x.clusters ∧
    (modTiers f s).x.chm = s.x.chm ∧ (modTiers f s).x.probeNo = s.x.probeNo ∧ (modTiers f s).x.sram = s.x.sram ∧
    (modTiers f s).x.loose = s.x.loose ∧ (modTiers f s).x.hbm = s.x.hbm ∧ (modTiers f s).x.bond = s.x.bond ∧
    (modTiers f s).health = s.health ∧ (modTiers f s).bnd = s.bnd ∧ (modTiers f s).fab = s.fab ∧
    (modTiers f s).mgr = s.mgr ∧ (modTiers f s).ports = s.ports ∧ (modTiers f s).cont = s.cont ∧ (modTiers f s).pw = s.pw ∧
    (modTiers f s).dv = s.dv ∧ (modTiers f s).pins = s.pins ∧ (modTiers f s).boot = s.boot ∧ (modTiers f s).sec = s.sec ∧
    (modTiers f s).car = s.car ∧ (modTiers f s).tot = s.tot ∧ (modTiers f s).aclk = s.aclk ∧
    (modTiers f s).warmRestarts = s.warmRestarts ∧ (∀ i, mbxOf (modTiers f s) i = mbxOf s i) ∧
    (∀ i, partOf (modTiers f s) i = partOf s i) ∧ (∀ i, coreOf (modTiers f s) i = coreOf s i) ∧
    (∀ i, clusterOf (modTiers f s) i = clusterOf s i) ∧ (∀ i, chmOf (modTiers f s) i = chmOf s i) ∧
    (∀ i, portOf (modTiers f s) i = portOf s i) :=
  ⟨rfl, rfl, rfl, rfl, rfl, rfl, rfl, rfl, rfl, rfl, rfl, rfl, rfl, rfl, rfl, rfl, rfl, rfl, rfl, rfl, rfl, rfl, rfl, rfl,
   rfl, rfl, rfl, rfl, rfl, rfl, rfl, rfl, rfl, rfl, rfl, rfl, rfl, fun _ => rfl, fun _ => rfl, fun _ => rfl, fun _ =>
   rfl, fun _ => rfl, fun _ => rfl⟩
@[simp] theorem modTiers_own (f : Tiers → Tiers) (s : State) : (modTiers f s).tiers = f s.tiers := rfl
/-- `modHealth` changes nothing else. -/
@[simp] theorem modHealth_frame (f : Health → Health) (s : State) :
    (modHealth f s).pending = s.pending ∧ (modHealth f s).now = s.now ∧ (modHealth f s).free = s.free ∧
    (modHealth f s).out = s.out ∧ (modHealth f s).bus = s.bus ∧ (modHealth f s).host.hm = s.host.hm ∧
    (modHealth f s).host.log = s.host.log ∧ (modHealth f s).host.mbx = s.host.mbx ∧
    (modHealth f s).host.journal = s.host.journal ∧ (modHealth f s).host.ep = s.host.ep ∧
    (modHealth f s).host.sb = s.host.sb ∧ (modHealth f s).parts = s.parts ∧ (modHealth f s).images = s.images ∧
    (modHealth f s).stages = s.stages ∧ (modHealth f s).x.cores = s.x.cores ∧ (modHealth f s).x.clusters = s.x.clusters ∧
    (modHealth f s).x.chm = s.x.chm ∧ (modHealth f s).x.probeNo = s.x.probeNo ∧ (modHealth f s).x.sram = s.x.sram ∧
    (modHealth f s).x.loose = s.x.loose ∧ (modHealth f s).x.hbm = s.x.hbm ∧ (modHealth f s).x.bond = s.x.bond ∧
    (modHealth f s).tiers = s.tiers ∧ (modHealth f s).bnd = s.bnd ∧ (modHealth f s).fab = s.fab ∧
    (modHealth f s).mgr = s.mgr ∧ (modHealth f s).ports = s.ports ∧ (modHealth f s).cont = s.cont ∧
    (modHealth f s).pw = s.pw ∧ (modHealth f s).dv = s.dv ∧ (modHealth f s).pins = s.pins ∧ (modHealth f s).boot = s.boot ∧
    (modHealth f s).sec = s.sec ∧ (modHealth f s).car = s.car ∧ (modHealth f s).tot = s.tot ∧
    (modHealth f s).aclk = s.aclk ∧ (modHealth f s).warmRestarts = s.warmRestarts ∧
    (∀ i, mbxOf (modHealth f s) i = mbxOf s i) ∧ (∀ i, partOf (modHealth f s) i = partOf s i) ∧
    (∀ i, coreOf (modHealth f s) i = coreOf s i) ∧ (∀ i, clusterOf (modHealth f s) i = clusterOf s i) ∧
    (∀ i, chmOf (modHealth f s) i = chmOf s i) ∧ (∀ i, portOf (modHealth f s) i = portOf s i) :=
  ⟨rfl, rfl, rfl, rfl, rfl, rfl, rfl, rfl, rfl, rfl, rfl, rfl, rfl, rfl, rfl, rfl, rfl, rfl, rfl, rfl, rfl, rfl, rfl, rfl,
   rfl, rfl, rfl, rfl, rfl, rfl, rfl, rfl, rfl, rfl, rfl, rfl, rfl, fun _ => rfl, fun _ => rfl, fun _ => rfl, fun _ =>
   rfl, fun _ => rfl, fun _ => rfl⟩
@[simp] theorem modHealth_own (f : Health → Health) (s : State) : (modHealth f s).health = f s.health := rfl
/-- `modBnd` changes nothing else. -/
@[simp] theorem modBnd_frame (f : BondState → BondState) (s : State) :
    (modBnd f s).pending = s.pending ∧ (modBnd f s).now = s.now ∧ (modBnd f s).free = s.free ∧ (modBnd f s).out = s.out ∧
    (modBnd f s).bus = s.bus ∧ (modBnd f s).host.hm = s.host.hm ∧ (modBnd f s).host.log = s.host.log ∧
    (modBnd f s).host.mbx = s.host.mbx ∧ (modBnd f s).host.journal = s.host.journal ∧ (modBnd f s).host.ep = s.host.ep ∧
    (modBnd f s).host.sb = s.host.sb ∧ (modBnd f s).parts = s.parts ∧ (modBnd f s).images = s.images ∧
    (modBnd f s).stages = s.stages ∧ (modBnd f s).x.cores = s.x.cores ∧ (modBnd f s).x.clusters = s.x.clusters ∧
    (modBnd f s).x.chm = s.x.chm ∧ (modBnd f s).x.probeNo = s.x.probeNo ∧ (modBnd f s).x.sram = s.x.sram ∧
    (modBnd f s).x.loose = s.x.loose ∧ (modBnd f s).x.hbm = s.x.hbm ∧ (modBnd f s).x.bond = s.x.bond ∧
    (modBnd f s).tiers = s.tiers ∧ (modBnd f s).health = s.health ∧ (modBnd f s).fab = s.fab ∧ (modBnd f s).mgr = s.mgr ∧
    (modBnd f s).ports = s.ports ∧ (modBnd f s).cont = s.cont ∧ (modBnd f s).pw = s.pw ∧ (modBnd f s).dv = s.dv ∧
    (modBnd f s).pins = s.pins ∧ (modBnd f s).boot = s.boot ∧ (modBnd f s).sec = s.sec ∧ (modBnd f s).car = s.car ∧
    (modBnd f s).tot = s.tot ∧ (modBnd f s).aclk = s.aclk ∧ (modBnd f s).warmRestarts = s.warmRestarts ∧
    (∀ i, mbxOf (modBnd f s) i = mbxOf s i) ∧ (∀ i, partOf (modBnd f s) i = partOf s i) ∧
    (∀ i, coreOf (modBnd f s) i = coreOf s i) ∧ (∀ i, clusterOf (modBnd f s) i = clusterOf s i) ∧
    (∀ i, chmOf (modBnd f s) i = chmOf s i) ∧ (∀ i, portOf (modBnd f s) i = portOf s i) :=
  ⟨rfl, rfl, rfl, rfl, rfl, rfl, rfl, rfl, rfl, rfl, rfl, rfl, rfl, rfl, rfl, rfl, rfl, rfl, rfl, rfl, rfl, rfl, rfl, rfl,
   rfl, rfl, rfl, rfl, rfl, rfl, rfl, rfl, rfl, rfl, rfl, rfl, rfl, fun _ => rfl, fun _ => rfl, fun _ => rfl, fun _ =>
   rfl, fun _ => rfl, fun _ => rfl⟩
@[simp] theorem modBnd_own (f : BondState → BondState) (s : State) : (modBnd f s).bnd = f s.bnd := rfl
/-- `modFab` changes nothing else. -/
@[simp] theorem modFab_frame (f : Fabric → Fabric) (s : State) :
    (modFab f s).pending = s.pending ∧ (modFab f s).now = s.now ∧ (modFab f s).free = s.free ∧ (modFab f s).out = s.out ∧
    (modFab f s).bus = s.bus ∧ (modFab f s).host.hm = s.host.hm ∧ (modFab f s).host.log = s.host.log ∧
    (modFab f s).host.mbx = s.host.mbx ∧ (modFab f s).host.journal = s.host.journal ∧ (modFab f s).host.ep = s.host.ep ∧
    (modFab f s).host.sb = s.host.sb ∧ (modFab f s).parts = s.parts ∧ (modFab f s).images = s.images ∧
    (modFab f s).stages = s.stages ∧ (modFab f s).x.cores = s.x.cores ∧ (modFab f s).x.clusters = s.x.clusters ∧
    (modFab f s).x.chm = s.x.chm ∧ (modFab f s).x.probeNo = s.x.probeNo ∧ (modFab f s).x.sram = s.x.sram ∧
    (modFab f s).x.loose = s.x.loose ∧ (modFab f s).x.hbm = s.x.hbm ∧ (modFab f s).x.bond = s.x.bond ∧
    (modFab f s).tiers = s.tiers ∧ (modFab f s).health = s.health ∧ (modFab f s).bnd = s.bnd ∧ (modFab f s).mgr = s.mgr ∧
    (modFab f s).ports = s.ports ∧ (modFab f s).cont = s.cont ∧ (modFab f s).pw = s.pw ∧ (modFab f s).dv = s.dv ∧
    (modFab f s).pins = s.pins ∧ (modFab f s).boot = s.boot ∧ (modFab f s).sec = s.sec ∧ (modFab f s).car = s.car ∧
    (modFab f s).tot = s.tot ∧ (modFab f s).aclk = s.aclk ∧ (modFab f s).warmRestarts = s.warmRestarts ∧
    (∀ i, mbxOf (modFab f s) i = mbxOf s i) ∧ (∀ i, partOf (modFab f s) i = partOf s i) ∧
    (∀ i, coreOf (modFab f s) i = coreOf s i) ∧ (∀ i, clusterOf (modFab f s) i = clusterOf s i) ∧
    (∀ i, chmOf (modFab f s) i = chmOf s i) ∧ (∀ i, portOf (modFab f s) i = portOf s i) :=
  ⟨rfl, rfl, rfl, rfl, rfl, rfl, rfl, rfl, rfl, rfl, rfl, rfl, rfl, rfl, rfl, rfl, rfl, rfl, rfl, rfl, rfl, rfl, rfl, rfl,
   rfl, rfl, rfl, rfl, rfl, rfl, rfl, rfl, rfl, rfl, rfl, rfl, rfl, fun _ => rfl, fun _ => rfl, fun _ => rfl, fun _ =>
   rfl, fun _ => rfl, fun _ => rfl⟩
@[simp] theorem modFab_own (f : Fabric → Fabric) (s : State) : (modFab f s).fab = f s.fab := rfl
/-- `modMgr` changes nothing else. -/
@[simp] theorem modMgr_frame (f : Manager → Manager) (s : State) :
    (modMgr f s).pending = s.pending ∧ (modMgr f s).now = s.now ∧ (modMgr f s).free = s.free ∧ (modMgr f s).out = s.out ∧
    (modMgr f s).bus = s.bus ∧ (modMgr f s).host.hm = s.host.hm ∧ (modMgr f s).host.log = s.host.log ∧
    (modMgr f s).host.mbx = s.host.mbx ∧ (modMgr f s).host.journal = s.host.journal ∧ (modMgr f s).host.ep = s.host.ep ∧
    (modMgr f s).host.sb = s.host.sb ∧ (modMgr f s).parts = s.parts ∧ (modMgr f s).images = s.images ∧
    (modMgr f s).stages = s.stages ∧ (modMgr f s).x.cores = s.x.cores ∧ (modMgr f s).x.clusters = s.x.clusters ∧
    (modMgr f s).x.chm = s.x.chm ∧ (modMgr f s).x.probeNo = s.x.probeNo ∧ (modMgr f s).x.sram = s.x.sram ∧
    (modMgr f s).x.loose = s.x.loose ∧ (modMgr f s).x.hbm = s.x.hbm ∧ (modMgr f s).x.bond = s.x.bond ∧
    (modMgr f s).tiers = s.tiers ∧ (modMgr f s).health = s.health ∧ (modMgr f s).bnd = s.bnd ∧ (modMgr f s).fab = s.fab ∧
    (modMgr f s).ports = s.ports ∧ (modMgr f s).cont = s.cont ∧ (modMgr f s).pw = s.pw ∧ (modMgr f s).dv = s.dv ∧
    (modMgr f s).pins = s.pins ∧ (modMgr f s).boot = s.boot ∧ (modMgr f s).sec = s.sec ∧ (modMgr f s).car = s.car ∧
    (modMgr f s).tot = s.tot ∧ (modMgr f s).aclk = s.aclk ∧ (modMgr f s).warmRestarts = s.warmRestarts ∧
    (∀ i, mbxOf (modMgr f s) i = mbxOf s i) ∧ (∀ i, partOf (modMgr f s) i = partOf s i) ∧
    (∀ i, coreOf (modMgr f s) i = coreOf s i) ∧ (∀ i, clusterOf (modMgr f s) i = clusterOf s i) ∧
    (∀ i, chmOf (modMgr f s) i = chmOf s i) ∧ (∀ i, portOf (modMgr f s) i = portOf s i) :=
  ⟨rfl, rfl, rfl, rfl, rfl, rfl, rfl, rfl, rfl, rfl, rfl, rfl, rfl, rfl, rfl, rfl, rfl, rfl, rfl, rfl, rfl, rfl, rfl, rfl,
   rfl, rfl, rfl, rfl, rfl, rfl, rfl, rfl, rfl, rfl, rfl, rfl, rfl, fun _ => rfl, fun _ => rfl, fun _ => rfl, fun _ =>
   rfl, fun _ => rfl, fun _ => rfl⟩
@[simp] theorem modMgr_own (f : Manager → Manager) (s : State) : (modMgr f s).mgr = f s.mgr := rfl
/-- `modCont` changes nothing else. -/
@[simp] theorem modCont_frame (f : Cont → Cont) (s : State) :
    (modCont f s).pending = s.pending ∧ (modCont f s).now = s.now ∧ (modCont f s).free = s.free ∧
    (modCont f s).out = s.out ∧ (modCont f s).bus = s.bus ∧ (modCont f s).host.hm = s.host.hm ∧
    (modCont f s).host.log = s.host.log ∧ (modCont f s).host.mbx = s.host.mbx ∧
    (modCont f s).host.journal = s.host.journal ∧ (modCont f s).host.ep = s.host.ep ∧ (modCont f s).host.sb = s.host.sb ∧
    (modCont f s).parts = s.parts ∧ (modCont f s).images = s.images ∧ (modCont f s).stages = s.stages ∧
    (modCont f s).x.cores = s.x.cores ∧ (modCont f s).x.clusters = s.x.clusters ∧ (modCont f s).x.chm = s.x.chm ∧
    (modCont f s).x.probeNo = s.x.probeNo ∧ (modCont f s).x.sram = s.x.sram ∧ (modCont f s).x.loose = s.x.loose ∧
    (modCont f s).x.hbm = s.x.hbm ∧ (modCont f s).x.bond = s.x.bond ∧ (modCont f s).tiers = s.tiers ∧
    (modCont f s).health = s.health ∧ (modCont f s).bnd = s.bnd ∧ (modCont f s).fab = s.fab ∧ (modCont f s).mgr = s.mgr ∧
    (modCont f s).ports = s.ports ∧ (modCont f s).pw = s.pw ∧ (modCont f s).dv = s.dv ∧ (modCont f s).pins = s.pins ∧
    (modCont f s).boot = s.boot ∧ (modCont f s).sec = s.sec ∧ (modCont f s).car = s.car ∧ (modCont f s).tot = s.tot ∧
    (modCont f s).aclk = s.aclk ∧ (modCont f s).warmRestarts = s.warmRestarts ∧ (∀ i, mbxOf (modCont f s) i = mbxOf s i) ∧
    (∀ i, partOf (modCont f s) i = partOf s i) ∧ (∀ i, coreOf (modCont f s) i = coreOf s i) ∧
    (∀ i, clusterOf (modCont f s) i = clusterOf s i) ∧ (∀ i, chmOf (modCont f s) i = chmOf s i) ∧
    (∀ i, portOf (modCont f s) i = portOf s i) :=
  ⟨rfl, rfl, rfl, rfl, rfl, rfl, rfl, rfl, rfl, rfl, rfl, rfl, rfl, rfl, rfl, rfl, rfl, rfl, rfl, rfl, rfl, rfl, rfl, rfl,
   rfl, rfl, rfl, rfl, rfl, rfl, rfl, rfl, rfl, rfl, rfl, rfl, rfl, fun _ => rfl, fun _ => rfl, fun _ => rfl, fun _ =>
   rfl, fun _ => rfl, fun _ => rfl⟩
@[simp] theorem modCont_own (f : Cont → Cont) (s : State) : (modCont f s).cont = f s.cont := rfl
/-- `modPw` changes nothing else. -/
@[simp] theorem modPw_frame (f : Power → Power) (s : State) :
    (modPw f s).pending = s.pending ∧ (modPw f s).now = s.now ∧ (modPw f s).free = s.free ∧ (modPw f s).out = s.out ∧
    (modPw f s).bus = s.bus ∧ (modPw f s).host.hm = s.host.hm ∧ (modPw f s).host.log = s.host.log ∧
    (modPw f s).host.mbx = s.host.mbx ∧ (modPw f s).host.journal = s.host.journal ∧ (modPw f s).host.ep = s.host.ep ∧
    (modPw f s).host.sb = s.host.sb ∧ (modPw f s).parts = s.parts ∧ (modPw f s).images = s.images ∧
    (modPw f s).stages = s.stages ∧ (modPw f s).x.cores = s.x.cores ∧ (modPw f s).x.clusters = s.x.clusters ∧
    (modPw f s).x.chm = s.x.chm ∧ (modPw f s).x.probeNo = s.x.probeNo ∧ (modPw f s).x.sram = s.x.sram ∧
    (modPw f s).x.loose = s.x.loose ∧ (modPw f s).x.hbm = s.x.hbm ∧ (modPw f s).x.bond = s.x.bond ∧
    (modPw f s).tiers = s.tiers ∧ (modPw f s).health = s.health ∧ (modPw f s).bnd = s.bnd ∧ (modPw f s).fab = s.fab ∧
    (modPw f s).mgr = s.mgr ∧ (modPw f s).ports = s.ports ∧ (modPw f s).cont = s.cont ∧ (modPw f s).dv = s.dv ∧
    (modPw f s).pins = s.pins ∧ (modPw f s).boot = s.boot ∧ (modPw f s).sec = s.sec ∧ (modPw f s).car = s.car ∧
    (modPw f s).tot = s.tot ∧ (modPw f s).aclk = s.aclk ∧ (modPw f s).warmRestarts = s.warmRestarts ∧
    (∀ i, mbxOf (modPw f s) i = mbxOf s i) ∧ (∀ i, partOf (modPw f s) i = partOf s i) ∧
    (∀ i, coreOf (modPw f s) i = coreOf s i) ∧ (∀ i, clusterOf (modPw f s) i = clusterOf s i) ∧
    (∀ i, chmOf (modPw f s) i = chmOf s i) ∧ (∀ i, portOf (modPw f s) i = portOf s i) :=
  ⟨rfl, rfl, rfl, rfl, rfl, rfl, rfl, rfl, rfl, rfl, rfl, rfl, rfl, rfl, rfl, rfl, rfl, rfl, rfl, rfl, rfl, rfl, rfl, rfl,
   rfl, rfl, rfl, rfl, rfl, rfl, rfl, rfl, rfl, rfl, rfl, rfl, rfl, fun _ => rfl, fun _ => rfl, fun _ => rfl, fun _ =>
   rfl, fun _ => rfl, fun _ => rfl⟩
@[simp] theorem modPw_own (f : Power → Power) (s : State) : (modPw f s).pw = f s.pw := rfl
/-- `modDv` changes nothing else. -/
@[simp] theorem modDv_frame (f : Dvfs → Dvfs) (s : State) :
    (modDv f s).pending = s.pending ∧ (modDv f s).now = s.now ∧ (modDv f s).free = s.free ∧ (modDv f s).out = s.out ∧
    (modDv f s).bus = s.bus ∧ (modDv f s).host.hm = s.host.hm ∧ (modDv f s).host.log = s.host.log ∧
    (modDv f s).host.mbx = s.host.mbx ∧ (modDv f s).host.journal = s.host.journal ∧ (modDv f s).host.ep = s.host.ep ∧
    (modDv f s).host.sb = s.host.sb ∧ (modDv f s).parts = s.parts ∧ (modDv f s).images = s.images ∧
    (modDv f s).stages = s.stages ∧ (modDv f s).x.cores = s.x.cores ∧ (modDv f s).x.clusters = s.x.clusters ∧
    (modDv f s).x.chm = s.x.chm ∧ (modDv f s).x.probeNo = s.x.probeNo ∧ (modDv f s).x.sram = s.x.sram ∧
    (modDv f s).x.loose = s.x.loose ∧ (modDv f s).x.hbm = s.x.hbm ∧ (modDv f s).x.bond = s.x.bond ∧
    (modDv f s).tiers = s.tiers ∧ (modDv f s).health = s.health ∧ (modDv f s).bnd = s.bnd ∧ (modDv f s).fab = s.fab ∧
    (modDv f s).mgr = s.mgr ∧ (modDv f s).ports = s.ports ∧ (modDv f s).cont = s.cont ∧ (modDv f s).pw = s.pw ∧
    (modDv f s).pins = s.pins ∧ (modDv f s).boot = s.boot ∧ (modDv f s).sec = s.sec ∧ (modDv f s).car = s.car ∧
    (modDv f s).tot = s.tot ∧ (modDv f s).aclk = s.aclk ∧ (modDv f s).warmRestarts = s.warmRestarts ∧
    (∀ i, mbxOf (modDv f s) i = mbxOf s i) ∧ (∀ i, partOf (modDv f s) i = partOf s i) ∧
    (∀ i, coreOf (modDv f s) i = coreOf s i) ∧ (∀ i, clusterOf (modDv f s) i = clusterOf s i) ∧
    (∀ i, chmOf (modDv f s) i = chmOf s i) ∧ (∀ i, portOf (modDv f s) i = portOf s i) :=
  ⟨rfl, rfl, rfl, rfl, rfl, rfl, rfl, rfl, rfl, rfl, rfl, rfl, rfl, rfl, rfl, rfl, rfl, rfl, rfl, rfl, rfl, rfl, rfl, rfl,
   rfl, rfl, rfl, rfl, rfl, rfl, rfl, rfl, rfl, rfl, rfl, rfl, rfl, fun _ => rfl, fun _ => rfl, fun _ => rfl, fun _ =>
   rfl, fun _ => rfl, fun _ => rfl⟩
@[simp] theorem modDv_own (f : Dvfs → Dvfs) (s : State) : (modDv f s).dv = f s.dv := rfl
/-- `modPins` changes nothing else. -/
@[simp] theorem modPins_frame (f : Pins → Pins) (s : State) :
    (modPins f s).pending = s.pending ∧ (modPins f s).now = s.now ∧ (modPins f s).free = s.free ∧
    (modPins f s).out = s.out ∧ (modPins f s).bus = s.bus ∧ (modPins f s).host.hm = s.host.hm ∧
    (modPins f s).host.log = s.host.log ∧ (modPins f s).host.mbx = s.host.mbx ∧
    (modPins f s).host.journal = s.host.journal ∧ (modPins f s).host.ep = s.host.ep ∧ (modPins f s).host.sb = s.host.sb ∧
    (modPins f s).parts = s.parts ∧ (modPins f s).images = s.images ∧ (modPins f s).stages = s.stages ∧
    (modPins f s).x.cores = s.x.cores ∧ (modPins f s).x.clusters = s.x.clusters ∧ (modPins f s).x.chm = s.x.chm ∧
    (modPins f s).x.probeNo = s.x.probeNo ∧ (modPins f s).x.sram = s.x.sram ∧ (modPins f s).x.loose = s.x.loose ∧
    (modPins f s).x.hbm = s.x.hbm ∧ (modPins f s).x.bond = s.x.bond ∧ (modPins f s).tiers = s.tiers ∧
    (modPins f s).health = s.health ∧ (modPins f s).bnd = s.bnd ∧ (modPins f s).fab = s.fab ∧ (modPins f s).mgr = s.mgr ∧
    (modPins f s).ports = s.ports ∧ (modPins f s).cont = s.cont ∧ (modPins f s).pw = s.pw ∧ (modPins f s).dv = s.dv ∧
    (modPins f s).boot = s.boot ∧ (modPins f s).sec = s.sec ∧ (modPins f s).car = s.car ∧ (modPins f s).tot = s.tot ∧
    (modPins f s).aclk = s.aclk ∧ (modPins f s).warmRestarts = s.warmRestarts ∧ (∀ i, mbxOf (modPins f s) i = mbxOf s i) ∧
    (∀ i, partOf (modPins f s) i = partOf s i) ∧ (∀ i, coreOf (modPins f s) i = coreOf s i) ∧
    (∀ i, clusterOf (modPins f s) i = clusterOf s i) ∧ (∀ i, chmOf (modPins f s) i = chmOf s i) ∧
    (∀ i, portOf (modPins f s) i = portOf s i) :=
  ⟨rfl, rfl, rfl, rfl, rfl, rfl, rfl, rfl, rfl, rfl, rfl, rfl, rfl, rfl, rfl, rfl, rfl, rfl, rfl, rfl, rfl, rfl, rfl, rfl,
   rfl, rfl, rfl, rfl, rfl, rfl, rfl, rfl, rfl, rfl, rfl, rfl, rfl, fun _ => rfl, fun _ => rfl, fun _ => rfl, fun _ =>
   rfl, fun _ => rfl, fun _ => rfl⟩
@[simp] theorem modPins_own (f : Pins → Pins) (s : State) : (modPins f s).pins = f s.pins := rfl
/-- `modBoot` changes nothing else. -/
@[simp] theorem modBoot_frame (f : Boot → Boot) (s : State) :
    (modBoot f s).pending = s.pending ∧ (modBoot f s).now = s.now ∧ (modBoot f s).free = s.free ∧
    (modBoot f s).out = s.out ∧ (modBoot f s).bus = s.bus ∧ (modBoot f s).host.hm = s.host.hm ∧
    (modBoot f s).host.log = s.host.log ∧ (modBoot f s).host.mbx = s.host.mbx ∧
    (modBoot f s).host.journal = s.host.journal ∧ (modBoot f s).host.ep = s.host.ep ∧ (modBoot f s).host.sb = s.host.sb ∧
    (modBoot f s).parts = s.parts ∧ (modBoot f s).images = s.images ∧ (modBoot f s).stages = s.stages ∧
    (modBoot f s).x.cores = s.x.cores ∧ (modBoot f s).x.clusters = s.x.clusters ∧ (modBoot f s).x.chm = s.x.chm ∧
    (modBoot f s).x.probeNo = s.x.probeNo ∧ (modBoot f s).x.sram = s.x.sram ∧ (modBoot f s).x.loose = s.x.loose ∧
    (modBoot f s).x.hbm = s.x.hbm ∧ (modBoot f s).x.bond = s.x.bond ∧ (modBoot f s).tiers = s.tiers ∧
    (modBoot f s).health = s.health ∧ (modBoot f s).bnd = s.bnd ∧ (modBoot f s).fab = s.fab ∧ (modBoot f s).mgr = s.mgr ∧
    (modBoot f s).ports = s.ports ∧ (modBoot f s).cont = s.cont ∧ (modBoot f s).pw = s.pw ∧ (modBoot f s).dv = s.dv ∧
    (modBoot f s).pins = s.pins ∧ (modBoot f s).sec = s.sec ∧ (modBoot f s).car = s.car ∧ (modBoot f s).tot = s.tot ∧
    (modBoot f s).aclk = s.aclk ∧ (modBoot f s).warmRestarts = s.warmRestarts ∧ (∀ i, mbxOf (modBoot f s) i = mbxOf s i) ∧
    (∀ i, partOf (modBoot f s) i = partOf s i) ∧ (∀ i, coreOf (modBoot f s) i = coreOf s i) ∧
    (∀ i, clusterOf (modBoot f s) i = clusterOf s i) ∧ (∀ i, chmOf (modBoot f s) i = chmOf s i) ∧
    (∀ i, portOf (modBoot f s) i = portOf s i) :=
  ⟨rfl, rfl, rfl, rfl, rfl, rfl, rfl, rfl, rfl, rfl, rfl, rfl, rfl, rfl, rfl, rfl, rfl, rfl, rfl, rfl, rfl, rfl, rfl, rfl,
   rfl, rfl, rfl, rfl, rfl, rfl, rfl, rfl, rfl, rfl, rfl, rfl, rfl, fun _ => rfl, fun _ => rfl, fun _ => rfl, fun _ =>
   rfl, fun _ => rfl, fun _ => rfl⟩
@[simp] theorem modBoot_own (f : Boot → Boot) (s : State) : (modBoot f s).boot = f s.boot := rfl
/-- `modSec` changes nothing else. -/
@[simp] theorem modSec_frame (f : Sec → Sec) (s : State) :
    (modSec f s).pending = s.pending ∧ (modSec f s).now = s.now ∧ (modSec f s).free = s.free ∧ (modSec f s).out = s.out ∧
    (modSec f s).bus = s.bus ∧ (modSec f s).host.hm = s.host.hm ∧ (modSec f s).host.log = s.host.log ∧
    (modSec f s).host.mbx = s.host.mbx ∧ (modSec f s).host.journal = s.host.journal ∧ (modSec f s).host.ep = s.host.ep ∧
    (modSec f s).host.sb = s.host.sb ∧ (modSec f s).parts = s.parts ∧ (modSec f s).images = s.images ∧
    (modSec f s).stages = s.stages ∧ (modSec f s).x.cores = s.x.cores ∧ (modSec f s).x.clusters = s.x.clusters ∧
    (modSec f s).x.chm = s.x.chm ∧ (modSec f s).x.probeNo = s.x.probeNo ∧ (modSec f s).x.sram = s.x.sram ∧
    (modSec f s).x.loose = s.x.loose ∧ (modSec f s).x.hbm = s.x.hbm ∧ (modSec f s).x.bond = s.x.bond ∧
    (modSec f s).tiers = s.tiers ∧ (modSec f s).health = s.health ∧ (modSec f s).bnd = s.bnd ∧ (modSec f s).fab = s.fab ∧
    (modSec f s).mgr = s.mgr ∧ (modSec f s).ports = s.ports ∧ (modSec f s).cont = s.cont ∧ (modSec f s).pw = s.pw ∧
    (modSec f s).dv = s.dv ∧ (modSec f s).pins = s.pins ∧ (modSec f s).boot = s.boot ∧ (modSec f s).car = s.car ∧
    (modSec f s).tot = s.tot ∧ (modSec f s).aclk = s.aclk ∧ (modSec f s).warmRestarts = s.warmRestarts ∧
    (∀ i, mbxOf (modSec f s) i = mbxOf s i) ∧ (∀ i, partOf (modSec f s) i = partOf s i) ∧
    (∀ i, coreOf (modSec f s) i = coreOf s i) ∧ (∀ i, clusterOf (modSec f s) i = clusterOf s i) ∧
    (∀ i, chmOf (modSec f s) i = chmOf s i) ∧ (∀ i, portOf (modSec f s) i = portOf s i) :=
  ⟨rfl, rfl, rfl, rfl, rfl, rfl, rfl, rfl, rfl, rfl, rfl, rfl, rfl, rfl, rfl, rfl, rfl, rfl, rfl, rfl, rfl, rfl, rfl, rfl,
   rfl, rfl, rfl, rfl, rfl, rfl, rfl, rfl, rfl, rfl, rfl, rfl, rfl, fun _ => rfl, fun _ => rfl, fun _ => rfl, fun _ =>
   rfl, fun _ => rfl, fun _ => rfl⟩
@[simp] theorem modSec_own (f : Sec → Sec) (s : State) : (modSec f s).sec = f s.sec := rfl
/-- `modCar` changes nothing else. -/
@[simp] theorem modCar_frame (f : Careen → Careen) (s : State) :
    (modCar f s).pending = s.pending ∧ (modCar f s).now = s.now ∧ (modCar f s).free = s.free ∧ (modCar f s).out = s.out ∧
    (modCar f s).bus = s.bus ∧ (modCar f s).host.hm = s.host.hm ∧ (modCar f s).host.log = s.host.log ∧
    (modCar f s).host.mbx = s.host.mbx ∧ (modCar f s).host.journal = s.host.journal ∧ (modCar f s).host.ep = s.host.ep ∧
    (modCar f s).host.sb = s.host.sb ∧ (modCar f s).parts = s.parts ∧ (modCar f s).images = s.images ∧
    (modCar f s).stages = s.stages ∧ (modCar f s).x.cores = s.x.cores ∧ (modCar f s).x.clusters = s.x.clusters ∧
    (modCar f s).x.chm = s.x.chm ∧ (modCar f s).x.probeNo = s.x.probeNo ∧ (modCar f s).x.sram = s.x.sram ∧
    (modCar f s).x.loose = s.x.loose ∧ (modCar f s).x.hbm = s.x.hbm ∧ (modCar f s).x.bond = s.x.bond ∧
    (modCar f s).tiers = s.tiers ∧ (modCar f s).health = s.health ∧ (modCar f s).bnd = s.bnd ∧ (modCar f s).fab = s.fab ∧
    (modCar f s).mgr = s.mgr ∧ (modCar f s).ports = s.ports ∧ (modCar f s).cont = s.cont ∧ (modCar f s).pw = s.pw ∧
    (modCar f s).dv = s.dv ∧ (modCar f s).pins = s.pins ∧ (modCar f s).boot = s.boot ∧ (modCar f s).sec = s.sec ∧
    (modCar f s).tot = s.tot ∧ (modCar f s).aclk = s.aclk ∧ (modCar f s).warmRestarts = s.warmRestarts ∧
    (∀ i, mbxOf (modCar f s) i = mbxOf s i) ∧ (∀ i, partOf (modCar f s) i = partOf s i) ∧
    (∀ i, coreOf (modCar f s) i = coreOf s i) ∧ (∀ i, clusterOf (modCar f s) i = clusterOf s i) ∧
    (∀ i, chmOf (modCar f s) i = chmOf s i) ∧ (∀ i, portOf (modCar f s) i = portOf s i) :=
  ⟨rfl, rfl, rfl, rfl, rfl, rfl, rfl, rfl, rfl, rfl, rfl, rfl, rfl, rfl, rfl, rfl, rfl, rfl, rfl, rfl, rfl, rfl, rfl, rfl,
   rfl, rfl, rfl, rfl, rfl, rfl, rfl, rfl, rfl, rfl, rfl, rfl, rfl, fun _ => rfl, fun _ => rfl, fun _ => rfl, fun _ =>
   rfl, fun _ => rfl, fun _ => rfl⟩
@[simp] theorem modCar_own (f : Careen → Careen) (s : State) : (modCar f s).car = f s.car := rfl
/-- `modMbx` changes nothing else. -/
@[simp] theorem modMbx_frame (k : MbxId) (f : Mailbox → Mailbox) (s : State) :
    (modMbx k f s).pending = s.pending ∧ (modMbx k f s).now = s.now ∧ (modMbx k f s).free = s.free ∧
    (modMbx k f s).out = s.out ∧ (modMbx k f s).bus = s.bus ∧ (modMbx k f s).host.hm = s.host.hm ∧
    (modMbx k f s).host.log = s.host.log ∧ (modMbx k f s).host.journal = s.host.journal ∧
    (modMbx k f s).host.ep = s.host.ep ∧ (modMbx k f s).host.sb = s.host.sb ∧ (modMbx k f s).parts = s.parts ∧
    (modMbx k f s).images = s.images ∧ (modMbx k f s).stages = s.stages ∧ (modMbx k f s).x.cores = s.x.cores ∧
    (modMbx k f s).x.clusters = s.x.clusters ∧ (modMbx k f s).x.chm = s.x.chm ∧ (modMbx k f s).x.probeNo = s.x.probeNo ∧
    (modMbx k f s).x.sram = s.x.sram ∧ (modMbx k f s).x.loose = s.x.loose ∧ (modMbx k f s).x.hbm = s.x.hbm ∧
    (modMbx k f s).x.bond = s.x.bond ∧ (modMbx k f s).tiers = s.tiers ∧ (modMbx k f s).health = s.health ∧
    (modMbx k f s).bnd = s.bnd ∧ (modMbx k f s).fab = s.fab ∧ (modMbx k f s).mgr = s.mgr ∧ (modMbx k f s).ports = s.ports ∧
    (modMbx k f s).cont = s.cont ∧ (modMbx k f s).pw = s.pw ∧ (modMbx k f s).dv = s.dv ∧ (modMbx k f s).pins = s.pins ∧
    (modMbx k f s).boot = s.boot ∧ (modMbx k f s).sec = s.sec ∧ (modMbx k f s).car = s.car ∧ (modMbx k f s).tot = s.tot ∧
    (modMbx k f s).aclk = s.aclk ∧ (modMbx k f s).warmRestarts = s.warmRestarts ∧
    (∀ i, partOf (modMbx k f s) i = partOf s i) ∧ (∀ i, coreOf (modMbx k f s) i = coreOf s i) ∧
    (∀ i, clusterOf (modMbx k f s) i = clusterOf s i) ∧ (∀ i, chmOf (modMbx k f s) i = chmOf s i) ∧
    (∀ i, portOf (modMbx k f s) i = portOf s i) :=
  ⟨rfl, rfl, rfl, rfl, rfl, rfl, rfl, rfl, rfl, rfl, rfl, rfl, rfl, rfl, rfl, rfl, rfl, rfl, rfl, rfl, rfl, rfl, rfl, rfl,
   rfl, rfl, rfl, rfl, rfl, rfl, rfl, rfl, rfl, rfl, rfl, rfl, rfl, fun _ => rfl, fun _ => rfl, fun _ => rfl, fun _ =>
   rfl, fun _ => rfl⟩
/-- `modPart` changes nothing else. -/
@[simp] theorem modPart_frame (k : Nat) (f : Part → Part) (s : State) :
    (modPart k f s).pending = s.pending ∧ (modPart k f s).now = s.now ∧ (modPart k f s).free = s.free ∧
    (modPart k f s).out = s.out ∧ (modPart k f s).bus = s.bus ∧ (modPart k f s).host.hm = s.host.hm ∧
    (modPart k f s).host.log = s.host.log ∧ (modPart k f s).host.mbx = s.host.mbx ∧
    (modPart k f s).host.journal = s.host.journal ∧ (modPart k f s).host.ep = s.host.ep ∧
    (modPart k f s).host.sb = s.host.sb ∧ (modPart k f s).images = s.images ∧ (modPart k f s).stages = s.stages ∧
    (modPart k f s).x.cores = s.x.cores ∧ (modPart k f s).x.clusters = s.x.clusters ∧ (modPart k f s).x.chm = s.x.chm ∧
    (modPart k f s).x.probeNo = s.x.probeNo ∧ (modPart k f s).x.sram = s.x.sram ∧ (modPart k f s).x.loose = s.x.loose ∧
    (modPart k f s).x.hbm = s.x.hbm ∧ (modPart k f s).x.bond = s.x.bond ∧ (modPart k f s).tiers = s.tiers ∧
    (modPart k f s).health = s.health ∧ (modPart k f s).bnd = s.bnd ∧ (modPart k f s).fab = s.fab ∧
    (modPart k f s).mgr = s.mgr ∧ (modPart k f s).ports = s.ports ∧ (modPart k f s).cont = s.cont ∧
    (modPart k f s).pw = s.pw ∧ (modPart k f s).dv = s.dv ∧ (modPart k f s).pins = s.pins ∧ (modPart k f s).boot = s.boot ∧
    (modPart k f s).sec = s.sec ∧ (modPart k f s).car = s.car ∧ (modPart k f s).tot = s.tot ∧
    (modPart k f s).aclk = s.aclk ∧ (modPart k f s).warmRestarts = s.warmRestarts ∧
    (∀ i, mbxOf (modPart k f s) i = mbxOf s i) ∧ (∀ i, coreOf (modPart k f s) i = coreOf s i) ∧
    (∀ i, clusterOf (modPart k f s) i = clusterOf s i) ∧ (∀ i, chmOf (modPart k f s) i = chmOf s i) ∧
    (∀ i, portOf (modPart k f s) i = portOf s i) :=
  ⟨rfl, rfl, rfl, rfl, rfl, rfl, rfl, rfl, rfl, rfl, rfl, rfl, rfl, rfl, rfl, rfl, rfl, rfl, rfl, rfl, rfl, rfl, rfl, rfl,
   rfl, rfl, rfl, rfl, rfl, rfl, rfl, rfl, rfl, rfl, rfl, rfl, rfl, fun _ => rfl, fun _ => rfl, fun _ => rfl, fun _ =>
   rfl, fun _ => rfl⟩
/-- `modCluster` changes nothing else. -/
@[simp] theorem modCluster_frame (k : Nat) (f : Cluster → Cluster) (s : State) :
    (modCluster k f s).pending = s.pending ∧ (modCluster k f s).now = s.now ∧ (modCluster k f s).free = s.free ∧
    (modCluster k f s).out = s.out ∧ (modCluster k f s).bus = s.bus ∧ (modCluster k f s).host.hm = s.host.hm ∧
    (modCluster k f s).host.log = s.host.log ∧ (modCluster k f s).host.mbx = s.host.mbx ∧
    (modCluster k f s).host.journal = s.host.journal ∧ (modCluster k f s).host.ep = s.host.ep ∧
    (modCluster k f s).host.sb = s.host.sb ∧ (modCluster k f s).parts = s.parts ∧ (modCluster k f s).images = s.images ∧
    (modCluster k f s).stages = s.stages ∧ (modCluster k f s).x.cores = s.x.cores ∧ (modCluster k f s).x.chm = s.x.chm ∧
    (modCluster k f s).x.probeNo = s.x.probeNo ∧ (modCluster k f s).x.sram = s.x.sram ∧
    (modCluster k f s).x.loose = s.x.loose ∧ (modCluster k f s).x.hbm = s.x.hbm ∧ (modCluster k f s).x.bond = s.x.bond ∧
    (modCluster k f s).tiers = s.tiers ∧ (modCluster k f s).health = s.health ∧ (modCluster k f s).bnd = s.bnd ∧
    (modCluster k f s).fab = s.fab ∧ (modCluster k f s).mgr = s.mgr ∧ (modCluster k f s).ports = s.ports ∧
    (modCluster k f s).cont = s.cont ∧ (modCluster k f s).pw = s.pw ∧ (modCluster k f s).dv = s.dv ∧
    (modCluster k f s).pins = s.pins ∧ (modCluster k f s).boot = s.boot ∧ (modCluster k f s).sec = s.sec ∧
    (modCluster k f s).car = s.car ∧ (modCluster k f s).tot = s.tot ∧ (modCluster k f s).aclk = s.aclk ∧
    (modCluster k f s).warmRestarts = s.warmRestarts ∧ (∀ i, mbxOf (modCluster k f s) i = mbxOf s i) ∧
    (∀ i, partOf (modCluster k f s) i = partOf s i) ∧ (∀ i, coreOf (modCluster k f s) i = coreOf s i) ∧
    (∀ i, chmOf (modCluster k f s) i = chmOf s i) ∧ (∀ i, portOf (modCluster k f s) i = portOf s i) :=
  ⟨rfl, rfl, rfl, rfl, rfl, rfl, rfl, rfl, rfl, rfl, rfl, rfl, rfl, rfl, rfl, rfl, rfl, rfl, rfl, rfl, rfl, rfl, rfl, rfl,
   rfl, rfl, rfl, rfl, rfl, rfl, rfl, rfl, rfl, rfl, rfl, rfl, rfl, fun _ => rfl, fun _ => rfl, fun _ => rfl, fun _ =>
   rfl, fun _ => rfl⟩
/-- `modCore` changes nothing else. -/
@[simp] theorem modCore_frame (k : Nat) (f : Core → Core) (s : State) :
    (modCore k f s).pending = s.pending ∧ (modCore k f s).now = s.now ∧ (modCore k f s).free = s.free ∧
    (modCore k f s).out = s.out ∧ (modCore k f s).bus = s.bus ∧ (modCore k f s).host.hm = s.host.hm ∧
    (modCore k f s).host.log = s.host.log ∧ (modCore k f s).host.mbx = s.host.mbx ∧
    (modCore k f s).host.journal = s.host.journal ∧ (modCore k f s).host.ep = s.host.ep ∧
    (modCore k f s).host.sb = s.host.sb ∧ (modCore k f s).parts = s.parts ∧ (modCore k f s).images = s.images ∧
    (modCore k f s).stages = s.stages ∧ (modCore k f s).x.clusters = s.x.clusters ∧ (modCore k f s).x.chm = s.x.chm ∧
    (modCore k f s).x.probeNo = s.x.probeNo ∧ (modCore k f s).x.sram = s.x.sram ∧ (modCore k f s).x.loose = s.x.loose ∧
    (modCore k f s).x.hbm = s.x.hbm ∧ (modCore k f s).x.bond = s.x.bond ∧ (modCore k f s).tiers = s.tiers ∧
    (modCore k f s).health = s.health ∧ (modCore k f s).bnd = s.bnd ∧ (modCore k f s).fab = s.fab ∧
    (modCore k f s).mgr = s.mgr ∧ (modCore k f s).ports = s.ports ∧ (modCore k f s).cont = s.cont ∧
    (modCore k f s).pw = s.pw ∧ (modCore k f s).dv = s.dv ∧ (modCore k f s).pins = s.pins ∧ (modCore k f s).boot = s.boot ∧
    (modCore k f s).sec = s.sec ∧ (modCore k f s).car = s.car ∧ (modCore k f s).tot = s.tot ∧
    (modCore k f s).aclk = s.aclk ∧ (modCore k f s).warmRestarts = s.warmRestarts ∧
    (∀ i, mbxOf (modCore k f s) i = mbxOf s i) ∧ (∀ i, partOf (modCore k f s) i = partOf s i) ∧
    (∀ i, clusterOf (modCore k f s) i = clusterOf s i) ∧ (∀ i, chmOf (modCore k f s) i = chmOf s i) ∧
    (∀ i, portOf (modCore k f s) i = portOf s i) :=
  ⟨rfl, rfl, rfl, rfl, rfl, rfl, rfl, rfl, rfl, rfl, rfl, rfl, rfl, rfl, rfl, rfl, rfl, rfl, rfl, rfl, rfl, rfl, rfl, rfl,
   rfl, rfl, rfl, rfl, rfl, rfl, rfl, rfl, rfl, rfl, rfl, rfl, rfl, fun _ => rfl, fun _ => rfl, fun _ => rfl, fun _ =>
   rfl, fun _ => rfl⟩
/-- `modChm` changes nothing else. -/
@[simp] theorem modChm_frame (k : Nat) (f : Chamois → Chamois) (s : State) :
    (modChm k f s).pending = s.pending ∧ (modChm k f s).now = s.now ∧ (modChm k f s).free = s.free ∧
    (modChm k f s).out = s.out ∧ (modChm k f s).bus = s.bus ∧ (modChm k f s).host.hm = s.host.hm ∧
    (modChm k f s).host.log = s.host.log ∧ (modChm k f s).host.mbx = s.host.mbx ∧
    (modChm k f s).host.journal = s.host.journal ∧ (modChm k f s).host.ep = s.host.ep ∧
    (modChm k f s).host.sb = s.host.sb ∧ (modChm k f s).parts = s.parts ∧ (modChm k f s).images = s.images ∧
    (modChm k f s).stages = s.stages ∧ (modChm k f s).x.cores = s.x.cores ∧ (modChm k f s).x.clusters = s.x.clusters ∧
    (modChm k f s).x.probeNo = s.x.probeNo ∧ (modChm k f s).x.sram = s.x.sram ∧ (modChm k f s).x.loose = s.x.loose ∧
    (modChm k f s).x.hbm = s.x.hbm ∧ (modChm k f s).x.bond = s.x.bond ∧ (modChm k f s).tiers = s.tiers ∧
    (modChm k f s).health = s.health ∧ (modChm k f s).bnd = s.bnd ∧ (modChm k f s).fab = s.fab ∧
    (modChm k f s).mgr = s.mgr ∧ (modChm k f s).ports = s.ports ∧ (modChm k f s).cont = s.cont ∧ (modChm k f s).pw = s.pw ∧
    (modChm k f s).dv = s.dv ∧ (modChm k f s).pins = s.pins ∧ (modChm k f s).boot = s.boot ∧ (modChm k f s).sec = s.sec ∧
    (modChm k f s).car = s.car ∧ (modChm k f s).tot = s.tot ∧ (modChm k f s).aclk = s.aclk ∧
    (modChm k f s).warmRestarts = s.warmRestarts ∧ (∀ i, mbxOf (modChm k f s) i = mbxOf s i) ∧
    (∀ i, partOf (modChm k f s) i = partOf s i) ∧ (∀ i, coreOf (modChm k f s) i = coreOf s i) ∧
    (∀ i, clusterOf (modChm k f s) i = clusterOf s i) ∧ (∀ i, portOf (modChm k f s) i = portOf s i) :=
  ⟨rfl, rfl, rfl, rfl, rfl, rfl, rfl, rfl, rfl, rfl, rfl, rfl, rfl, rfl, rfl, rfl, rfl, rfl, rfl, rfl, rfl, rfl, rfl, rfl,
   rfl, rfl, rfl, rfl, rfl, rfl, rfl, rfl, rfl, rfl, rfl, rfl, rfl, fun _ => rfl, fun _ => rfl, fun _ => rfl, fun _ =>
   rfl, fun _ => rfl⟩
/-- `modPort` changes nothing else. -/
@[simp] theorem modPort_frame (k : Nat) (f : Port → Port) (s : State) :
    (modPort k f s).pending = s.pending ∧ (modPort k f s).now = s.now ∧ (modPort k f s).free = s.free ∧
    (modPort k f s).out = s.out ∧ (modPort k f s).bus = s.bus ∧ (modPort k f s).host.hm = s.host.hm ∧
    (modPort k f s).host.log = s.host.log ∧ (modPort k f s).host.mbx = s.host.mbx ∧
    (modPort k f s).host.journal = s.host.journal ∧ (modPort k f s).host.ep = s.host.ep ∧
    (modPort k f s).host.sb = s.host.sb ∧ (modPort k f s).parts = s.parts ∧ (modPort k f s).images = s.images ∧
    (modPort k f s).stages = s.stages ∧ (modPort k f s).x.cores = s.x.cores ∧ (modPort k f s).x.clusters = s.x.clusters ∧
    (modPort k f s).x.chm = s.x.chm ∧ (modPort k f s).x.probeNo = s.x.probeNo ∧ (modPort k f s).x.sram = s.x.sram ∧
    (modPort k f s).x.loose = s.x.loose ∧ (modPort k f s).x.hbm = s.x.hbm ∧ (modPort k f s).x.bond = s.x.bond ∧
    (modPort k f s).tiers = s.tiers ∧ (modPort k f s).health = s.health ∧ (modPort k f s).bnd = s.bnd ∧
    (modPort k f s).fab = s.fab ∧ (modPort k f s).mgr = s.mgr ∧ (modPort k f s).cont = s.cont ∧ (modPort k f s).pw = s.pw ∧
    (modPort k f s).dv = s.dv ∧ (modPort k f s).pins = s.pins ∧ (modPort k f s).boot = s.boot ∧
    (modPort k f s).sec = s.sec ∧ (modPort k f s).car = s.car ∧ (modPort k f s).tot = s.tot ∧
    (modPort k f s).aclk = s.aclk ∧ (modPort k f s).warmRestarts = s.warmRestarts ∧
    (∀ i, mbxOf (modPort k f s) i = mbxOf s i) ∧ (∀ i, partOf (modPort k f s) i = partOf s i) ∧
    (∀ i, coreOf (modPort k f s) i = coreOf s i) ∧ (∀ i, clusterOf (modPort k f s) i = clusterOf s i) ∧
    (∀ i, chmOf (modPort k f s) i = chmOf s i) :=
  ⟨rfl, rfl, rfl, rfl, rfl, rfl, rfl, rfl, rfl, rfl, rfl, rfl, rfl, rfl, rfl, rfl, rfl, rfl, rfl, rfl, rfl, rfl, rfl, rfl,
   rfl, rfl, rfl, rfl, rfl, rfl, rfl, rfl, rfl, rfl, rfl, rfl, rfl, fun _ => rfl, fun _ => rfl, fun _ => rfl, fun _ =>
   rfl, fun _ => rfl⟩
/-- `modCfg` changes nothing else. -/
@[simp] theorem modCfg_frame (k : Nat) (f : PartCfg → PartCfg) (s : State) :
    (modCfg k f s).pending = s.pending ∧ (modCfg k f s).now = s.now ∧ (modCfg k f s).free = s.free ∧
    (modCfg k f s).out = s.out ∧ (modCfg k f s).bus = s.bus ∧ (modCfg k f s).host.hm = s.host.hm ∧
    (modCfg k f s).host.log = s.host.log ∧ (modCfg k f s).host.mbx = s.host.mbx ∧
    (modCfg k f s).host.journal = s.host.journal ∧ (modCfg k f s).host.ep = s.host.ep ∧
    (modCfg k f s).host.sb = s.host.sb ∧ (modCfg k f s).images = s.images ∧ (modCfg k f s).stages = s.stages ∧
    (modCfg k f s).x.cores = s.x.cores ∧ (modCfg k f s).x.clusters = s.x.clusters ∧ (modCfg k f s).x.chm = s.x.chm ∧
    (modCfg k f s).x.probeNo = s.x.probeNo ∧ (modCfg k f s).x.sram = s.x.sram ∧ (modCfg k f s).x.loose = s.x.loose ∧
    (modCfg k f s).x.hbm = s.x.hbm ∧ (modCfg k f s).x.bond = s.x.bond ∧ (modCfg k f s).tiers = s.tiers ∧
    (modCfg k f s).health = s.health ∧ (modCfg k f s).bnd = s.bnd ∧ (modCfg k f s).fab = s.fab ∧
    (modCfg k f s).mgr = s.mgr ∧ (modCfg k f s).ports = s.ports ∧ (modCfg k f s).cont = s.cont ∧ (modCfg k f s).pw = s.pw ∧
    (modCfg k f s).dv = s.dv ∧ (modCfg k f s).pins = s.pins ∧ (modCfg k f s).boot = s.boot ∧ (modCfg k f s).sec = s.sec ∧
    (modCfg k f s).car = s.car ∧ (modCfg k f s).tot = s.tot ∧ (modCfg k f s).aclk = s.aclk ∧
    (modCfg k f s).warmRestarts = s.warmRestarts ∧ (∀ i, mbxOf (modCfg k f s) i = mbxOf s i) ∧
    (∀ i, coreOf (modCfg k f s) i = coreOf s i) ∧ (∀ i, clusterOf (modCfg k f s) i = clusterOf s i) ∧
    (∀ i, chmOf (modCfg k f s) i = chmOf s i) ∧ (∀ i, portOf (modCfg k f s) i = portOf s i) :=
  ⟨rfl, rfl, rfl, rfl, rfl, rfl, rfl, rfl, rfl, rfl, rfl, rfl, rfl, rfl, rfl, rfl, rfl, rfl, rfl, rfl, rfl, rfl, rfl, rfl,
   rfl, rfl, rfl, rfl, rfl, rfl, rfl, rfl, rfl, rfl, rfl, rfl, rfl, fun _ => rfl, fun _ => rfl, fun _ => rfl, fun _ =>
   rfl, fun _ => rfl⟩
/-- `modRun` changes nothing else. -/
@[simp] theorem modRun_frame (k : Nat) (f : PartRun → PartRun) (s : State) :
    (modRun k f s).pending = s.pending ∧ (modRun k f s).now = s.now ∧ (modRun k f s).free = s.free ∧
    (modRun k f s).out = s.out ∧ (modRun k f s).bus = s.bus ∧ (modRun k f s).host.hm = s.host.hm ∧
    (modRun k f s).host.log = s.host.log ∧ (modRun k f s).host.mbx = s.host.mbx ∧
    (modRun k f s).host.journal = s.host.journal ∧ (modRun k f s).host.ep = s.host.ep ∧
    (modRun k f s).host.sb = s.host.sb ∧ (modRun k f s).images = s.images ∧ (modRun k f s).stages = s.stages ∧
    (modRun k f s).x.cores = s.x.cores ∧ (modRun k f s).x.clusters = s.x.clusters ∧ (modRun k f s).x.chm = s.x.chm ∧
    (modRun k f s).x.probeNo = s.x.probeNo ∧ (modRun k f s).x.sram = s.x.sram ∧ (modRun k f s).x.loose = s.x.loose ∧
    (modRun k f s).x.hbm = s.x.hbm ∧ (modRun k f s).x.bond = s.x.bond ∧ (modRun k f s).tiers = s.tiers ∧
    (modRun k f s).health = s.health ∧ (modRun k f s).bnd = s.bnd ∧ (modRun k f s).fab = s.fab ∧
    (modRun k f s).mgr = s.mgr ∧ (modRun k f s).ports = s.ports ∧ (modRun k f s).cont = s.cont ∧ (modRun k f s).pw = s.pw ∧
    (modRun k f s).dv = s.dv ∧ (modRun k f s).pins = s.pins ∧ (modRun k f s).boot = s.boot ∧ (modRun k f s).sec = s.sec ∧
    (modRun k f s).car = s.car ∧ (modRun k f s).tot = s.tot ∧ (modRun k f s).aclk = s.aclk ∧
    (modRun k f s).warmRestarts = s.warmRestarts ∧ (∀ i, mbxOf (modRun k f s) i = mbxOf s i) ∧
    (∀ i, coreOf (modRun k f s) i = coreOf s i) ∧ (∀ i, clusterOf (modRun k f s) i = clusterOf s i) ∧
    (∀ i, chmOf (modRun k f s) i = chmOf s i) ∧ (∀ i, portOf (modRun k f s) i = portOf s i) :=
  ⟨rfl, rfl, rfl, rfl, rfl, rfl, rfl, rfl, rfl, rfl, rfl, rfl, rfl, rfl, rfl, rfl, rfl, rfl, rfl, rfl, rfl, rfl, rfl, rfl,
   rfl, rfl, rfl, rfl, rfl, rfl, rfl, rfl, rfl, rfl, rfl, rfl, rfl, fun _ => rfl, fun _ => rfl, fun _ => rfl, fun _ =>
   rfl, fun _ => rfl⟩
/-- `modStat` changes nothing else. -/
@[simp] theorem modStat_frame (k : Nat) (f : PartStat → PartStat) (s : State) :
    (modStat k f s).pending = s.pending ∧ (modStat k f s).now = s.now ∧ (modStat k f s).free = s.free ∧
    (modStat k f s).out = s.out ∧ (modStat k f s).bus = s.bus ∧ (modStat k f s).host.hm = s.host.hm ∧
    (modStat k f s).host.log = s.host.log ∧ (modStat k f s).host.mbx = s.host.mbx ∧
    (modStat k f s).host.journal = s.host.journal ∧ (modStat k f s).host.ep = s.host.ep ∧
    (modStat k f s).host.sb = s.host.sb ∧ (modStat k f s).images = s.images ∧ (modStat k f s).stages = s.stages ∧
    (modStat k f s).x.cores = s.x.cores ∧ (modStat k f s).x.clusters = s.x.clusters ∧ (modStat k f s).x.chm = s.x.chm ∧
    (modStat k f s).x.probeNo = s.x.probeNo ∧ (modStat k f s).x.sram = s.x.sram ∧ (modStat k f s).x.loose = s.x.loose ∧
    (modStat k f s).x.hbm = s.x.hbm ∧ (modStat k f s).x.bond = s.x.bond ∧ (modStat k f s).tiers = s.tiers ∧
    (modStat k f s).health = s.health ∧ (modStat k f s).bnd = s.bnd ∧ (modStat k f s).fab = s.fab ∧
    (modStat k f s).mgr = s.mgr ∧ (modStat k f s).ports = s.ports ∧ (modStat k f s).cont = s.cont ∧
    (modStat k f s).pw = s.pw ∧ (modStat k f s).dv = s.dv ∧ (modStat k f s).pins = s.pins ∧ (modStat k f s).boot = s.boot ∧
    (modStat k f s).sec = s.sec ∧ (modStat k f s).car = s.car ∧ (modStat k f s).tot = s.tot ∧
    (modStat k f s).aclk = s.aclk ∧ (modStat k f s).warmRestarts = s.warmRestarts ∧
    (∀ i, mbxOf (modStat k f s) i = mbxOf s i) ∧ (∀ i, coreOf (modStat k f s) i = coreOf s i) ∧
    (∀ i, clusterOf (modStat k f s) i = clusterOf s i) ∧ (∀ i, chmOf (modStat k f s) i = chmOf s i) ∧
    (∀ i, portOf (modStat k f s) i = portOf s i) :=
  ⟨rfl, rfl, rfl, rfl, rfl, rfl, rfl, rfl, rfl, rfl, rfl, rfl, rfl, rfl, rfl, rfl, rfl, rfl, rfl, rfl, rfl, rfl, rfl, rfl,
   rfl, rfl, rfl, rfl, rfl, rfl, rfl, rfl, rfl, rfl, rfl, rfl, rfl, fun _ => rfl, fun _ => rfl, fun _ => rfl, fun _ =>
   rfl, fun _ => rfl⟩
/-- `modKv` changes nothing else. -/
@[simp] theorem modKv_frame (k : Nat) (f : Kv → Kv) (s : State) :
    (modKv k f s).pending = s.pending ∧ (modKv k f s).now = s.now ∧ (modKv k f s).free = s.free ∧
    (modKv k f s).out = s.out ∧ (modKv k f s).bus = s.bus ∧ (modKv k f s).host.hm = s.host.hm ∧
    (modKv k f s).host.log = s.host.log ∧ (modKv k f s).host.mbx = s.host.mbx ∧
    (modKv k f s).host.journal = s.host.journal ∧ (modKv k f s).host.ep = s.host.ep ∧ (modKv k f s).host.sb = s.host.sb ∧
    (modKv k f s).images = s.images ∧ (modKv k f s).stages = s.stages ∧ (modKv k f s).x.cores = s.x.cores ∧
    (modKv k f s).x.clusters = s.x.clusters ∧ (modKv k f s).x.chm = s.x.chm ∧ (modKv k f s).x.probeNo = s.x.probeNo ∧
    (modKv k f s).x.sram = s.x.sram ∧ (modKv k f s).x.loose = s.x.loose ∧ (modKv k f s).x.hbm = s.x.hbm ∧
    (modKv k f s).x.bond = s.x.bond ∧ (modKv k f s).tiers = s.tiers ∧ (modKv k f s).health = s.health ∧
    (modKv k f s).bnd = s.bnd ∧ (modKv k f s).fab = s.fab ∧ (modKv k f s).mgr = s.mgr ∧ (modKv k f s).ports = s.ports ∧
    (modKv k f s).cont = s.cont ∧ (modKv k f s).pw = s.pw ∧ (modKv k f s).dv = s.dv ∧ (modKv k f s).pins = s.pins ∧
    (modKv k f s).boot = s.boot ∧ (modKv k f s).sec = s.sec ∧ (modKv k f s).car = s.car ∧ (modKv k f s).tot = s.tot ∧
    (modKv k f s).aclk = s.aclk ∧ (modKv k f s).warmRestarts = s.warmRestarts ∧ (∀ i, mbxOf (modKv k f s) i = mbxOf s i) ∧
    (∀ i, coreOf (modKv k f s) i = coreOf s i) ∧ (∀ i, clusterOf (modKv k f s) i = clusterOf s i) ∧
    (∀ i, chmOf (modKv k f s) i = chmOf s i) ∧ (∀ i, portOf (modKv k f s) i = portOf s i) :=
  ⟨rfl, rfl, rfl, rfl, rfl, rfl, rfl, rfl, rfl, rfl, rfl, rfl, rfl, rfl, rfl, rfl, rfl, rfl, rfl, rfl, rfl, rfl, rfl, rfl,
   rfl, rfl, rfl, rfl, rfl, rfl, rfl, rfl, rfl, rfl, rfl, rfl, rfl, fun _ => rfl, fun _ => rfl, fun _ => rfl, fun _ =>
   rfl, fun _ => rfl⟩
/-- `modEx` changes nothing else. -/
@[simp] theorem modEx_frame (k : Nat) (f : PartEx → PartEx) (s : State) :
    (modEx k f s).pending = s.pending ∧ (modEx k f s).now = s.now ∧ (modEx k f s).free = s.free ∧
    (modEx k f s).out = s.out ∧ (modEx k f s).bus = s.bus ∧ (modEx k f s).host.hm = s.host.hm ∧
    (modEx k f s).host.log = s.host.log ∧ (modEx k f s).host.mbx = s.host.mbx ∧
    (modEx k f s).host.journal = s.host.journal ∧ (modEx k f s).host.ep = s.host.ep ∧ (modEx k f s).host.sb = s.host.sb ∧
    (modEx k f s).images = s.images ∧ (modEx k f s).stages = s.stages ∧ (modEx k f s).x.cores = s.x.cores ∧
    (modEx k f s).x.clusters = s.x.clusters ∧ (modEx k f s).x.chm = s.x.chm ∧ (modEx k f s).x.probeNo = s.x.probeNo ∧
    (modEx k f s).x.sram = s.x.sram ∧ (modEx k f s).x.loose = s.x.loose ∧ (modEx k f s).x.hbm = s.x.hbm ∧
    (modEx k f s).x.bond = s.x.bond ∧ (modEx k f s).tiers = s.tiers ∧ (modEx k f s).health = s.health ∧
    (modEx k f s).bnd = s.bnd ∧ (modEx k f s).fab = s.fab ∧ (modEx k f s).mgr = s.mgr ∧ (modEx k f s).ports = s.ports ∧
    (modEx k f s).cont = s.cont ∧ (modEx k f s).pw = s.pw ∧ (modEx k f s).dv = s.dv ∧ (modEx k f s).pins = s.pins ∧
    (modEx k f s).boot = s.boot ∧ (modEx k f s).sec = s.sec ∧ (modEx k f s).car = s.car ∧ (modEx k f s).tot = s.tot ∧
    (modEx k f s).aclk = s.aclk ∧ (modEx k f s).warmRestarts = s.warmRestarts ∧ (∀ i, mbxOf (modEx k f s) i = mbxOf s i) ∧
    (∀ i, coreOf (modEx k f s) i = coreOf s i) ∧ (∀ i, clusterOf (modEx k f s) i = clusterOf s i) ∧
    (∀ i, chmOf (modEx k f s) i = chmOf s i) ∧ (∀ i, portOf (modEx k f s) i = portOf s i) :=
  ⟨rfl, rfl, rfl, rfl, rfl, rfl, rfl, rfl, rfl, rfl, rfl, rfl, rfl, rfl, rfl, rfl, rfl, rfl, rfl, rfl, rfl, rfl, rfl, rfl,
   rfl, rfl, rfl, rfl, rfl, rfl, rfl, rfl, rfl, rfl, rfl, rfl, rfl, fun _ => rfl, fun _ => rfl, fun _ => rfl, fun _ =>
   rfl, fun _ => rfl⟩
/-- `modJr` changes nothing else. -/
@[simp] theorem modJr_frame (k : Nat) (f : PartJr → PartJr) (s : State) :
    (modJr k f s).pending = s.pending ∧ (modJr k f s).now = s.now ∧ (modJr k f s).free = s.free ∧
    (modJr k f s).out = s.out ∧ (modJr k f s).bus = s.bus ∧ (modJr k f s).host.hm = s.host.hm ∧
    (modJr k f s).host.log = s.host.log ∧ (modJr k f s).host.mbx = s.host.mbx ∧
    (modJr k f s).host.journal = s.host.journal ∧ (modJr k f s).host.ep = s.host.ep ∧ (modJr k f s).host.sb = s.host.sb ∧
    (modJr k f s).images = s.images ∧ (modJr k f s).stages = s.stages ∧ (modJr k f s).x.cores = s.x.cores ∧
    (modJr k f s).x.clusters = s.x.clusters ∧ (modJr k f s).x.chm = s.x.chm ∧ (modJr k f s).x.probeNo = s.x.probeNo ∧
    (modJr k f s).x.sram = s.x.sram ∧ (modJr k f s).x.loose = s.x.loose ∧ (modJr k f s).x.hbm = s.x.hbm ∧
    (modJr k f s).x.bond = s.x.bond ∧ (modJr k f s).tiers = s.tiers ∧ (modJr k f s).health = s.health ∧
    (modJr k f s).bnd = s.bnd ∧ (modJr k f s).fab = s.fab ∧ (modJr k f s).mgr = s.mgr ∧ (modJr k f s).ports = s.ports ∧
    (modJr k f s).cont = s.cont ∧ (modJr k f s).pw = s.pw ∧ (modJr k f s).dv = s.dv ∧ (modJr k f s).pins = s.pins ∧
    (modJr k f s).boot = s.boot ∧ (modJr k f s).sec = s.sec ∧ (modJr k f s).car = s.car ∧ (modJr k f s).tot = s.tot ∧
    (modJr k f s).aclk = s.aclk ∧ (modJr k f s).warmRestarts = s.warmRestarts ∧ (∀ i, mbxOf (modJr k f s) i = mbxOf s i) ∧
    (∀ i, coreOf (modJr k f s) i = coreOf s i) ∧ (∀ i, clusterOf (modJr k f s) i = clusterOf s i) ∧
    (∀ i, chmOf (modJr k f s) i = chmOf s i) ∧ (∀ i, portOf (modJr k f s) i = portOf s i) :=
  ⟨rfl, rfl, rfl, rfl, rfl, rfl, rfl, rfl, rfl, rfl, rfl, rfl, rfl, rfl, rfl, rfl, rfl, rfl, rfl, rfl, rfl, rfl, rfl, rfl,
   rfl, rfl, rfl, rfl, rfl, rfl, rfl, rfl, rfl, rfl, rfl, rfl, rfl, fun _ => rfl, fun _ => rfl, fun _ => rfl, fun _ =>
   rfl, fun _ => rfl⟩
/-- `modFb` changes nothing else. -/
@[simp] theorem modFb_frame (k : Nat) (f : Fallback → Fallback) (s : State) :
    (modFb k f s).pending = s.pending ∧ (modFb k f s).now = s.now ∧ (modFb k f s).free = s.free ∧
    (modFb k f s).out = s.out ∧ (modFb k f s).bus = s.bus ∧ (modFb k f s).host.hm = s.host.hm ∧
    (modFb k f s).host.log = s.host.log ∧ (modFb k f s).host.mbx = s.host.mbx ∧
    (modFb k f s).host.journal = s.host.journal ∧ (modFb k f s).host.ep = s.host.ep ∧ (modFb k f s).host.sb = s.host.sb ∧
    (modFb k f s).images = s.images ∧ (modFb k f s).stages = s.stages ∧ (modFb k f s).x.cores = s.x.cores ∧
    (modFb k f s).x.clusters = s.x.clusters ∧ (modFb k f s).x.chm = s.x.chm ∧ (modFb k f s).x.probeNo = s.x.probeNo ∧
    (modFb k f s).x.sram = s.x.sram ∧ (modFb k f s).x.loose = s.x.loose ∧ (modFb k f s).x.hbm = s.x.hbm ∧
    (modFb k f s).x.bond = s.x.bond ∧ (modFb k f s).tiers = s.tiers ∧ (modFb k f s).health = s.health ∧
    (modFb k f s).bnd = s.bnd ∧ (modFb k f s).fab = s.fab ∧ (modFb k f s).mgr = s.mgr ∧ (modFb k f s).ports = s.ports ∧
    (modFb k f s).cont = s.cont ∧ (modFb k f s).pw = s.pw ∧ (modFb k f s).dv = s.dv ∧ (modFb k f s).pins = s.pins ∧
    (modFb k f s).boot = s.boot ∧ (modFb k f s).sec = s.sec ∧ (modFb k f s).car = s.car ∧ (modFb k f s).tot = s.tot ∧
    (modFb k f s).aclk = s.aclk ∧ (modFb k f s).warmRestarts = s.warmRestarts ∧ (∀ i, mbxOf (modFb k f s) i = mbxOf s i) ∧
    (∀ i, coreOf (modFb k f s) i = coreOf s i) ∧ (∀ i, clusterOf (modFb k f s) i = clusterOf s i) ∧
    (∀ i, chmOf (modFb k f s) i = chmOf s i) ∧ (∀ i, portOf (modFb k f s) i = portOf s i) :=
  ⟨rfl, rfl, rfl, rfl, rfl, rfl, rfl, rfl, rfl, rfl, rfl, rfl, rfl, rfl, rfl, rfl, rfl, rfl, rfl, rfl, rfl, rfl, rfl, rfl,
   rfl, rfl, rfl, rfl, rfl, rfl, rfl, rfl, rfl, rfl, rfl, rfl, rfl, fun _ => rfl, fun _ => rfl, fun _ => rfl, fun _ =>
   rfl, fun _ => rfl⟩
/-- `emit` changes nothing else. -/
@[simp] theorem emit_frame (e : Emit) (s : State) :
    (emit e s).pending = s.pending ∧ (emit e s).now = s.now ∧ (emit e s).free = s.free ∧ (emit e s).bus = s.bus ∧
    (emit e s).host.hm = s.host.hm ∧ (emit e s).host.log = s.host.log ∧ (emit e s).host.mbx = s.host.mbx ∧
    (emit e s).host.journal = s.host.journal ∧ (emit e s).host.ep = s.host.ep ∧ (emit e s).host.sb = s.host.sb ∧
    (emit e s).parts = s.parts ∧ (emit e s).images = s.images ∧ (emit e s).stages = s.stages ∧
    (emit e s).x.cores = s.x.cores ∧ (emit e s).x.clusters = s.x.clusters ∧ (emit e s).x.chm = s.x.chm ∧
    (emit e s).x.probeNo = s.x.probeNo ∧ (emit e s).x.sram = s.x.sram ∧ (emit e s).x.loose = s.x.loose ∧
    (emit e s).x.hbm = s.x.hbm ∧ (emit e s).x.bond = s.x.bond ∧ (emit e s).tiers = s.tiers ∧ (emit e s).health = s.health ∧
    (emit e s).bnd = s.bnd ∧ (emit e s).fab = s.fab ∧ (emit e s).mgr = s.mgr ∧ (emit e s).ports = s.ports ∧
    (emit e s).cont = s.cont ∧ (emit e s).pw = s.pw ∧ (emit e s).dv = s.dv ∧ (emit e s).pins = s.pins ∧
    (emit e s).boot = s.boot ∧ (emit e s).sec = s.sec ∧ (emit e s).car = s.car ∧ (emit e s).tot = s.tot ∧
    (emit e s).aclk = s.aclk ∧ (emit e s).warmRestarts = s.warmRestarts ∧ (∀ i, mbxOf (emit e s) i = mbxOf s i) ∧
    (∀ i, partOf (emit e s) i = partOf s i) ∧ (∀ i, coreOf (emit e s) i = coreOf s i) ∧
    (∀ i, clusterOf (emit e s) i = clusterOf s i) ∧ (∀ i, chmOf (emit e s) i = chmOf s i) ∧
    (∀ i, portOf (emit e s) i = portOf s i) :=
  ⟨rfl, rfl, rfl, rfl, rfl, rfl, rfl, rfl, rfl, rfl, rfl, rfl, rfl, rfl, rfl, rfl, rfl, rfl, rfl, rfl, rfl, rfl, rfl, rfl,
   rfl, rfl, rfl, rfl, rfl, rfl, rfl, rfl, rfl, rfl, rfl, rfl, rfl, fun _ => rfl, fun _ => rfl, fun _ => rfl, fun _ =>
   rfl, fun _ => rfl, fun _ => rfl⟩
@[simp] theorem emit_own (e : Emit) (s : State) : (emit e s).out = s.out ++ [e] := rfl
/-- `totAdd` changes nothing else. -/
@[simp] theorem totAdd_frame (k n : Nat) (s : State) :
    (totAdd k n s).pending = s.pending ∧ (totAdd k n s).now = s.now ∧ (totAdd k n s).free = s.free ∧
    (totAdd k n s).out = s.out ∧ (totAdd k n s).bus = s.bus ∧ (totAdd k n s).host.hm = s.host.hm ∧
    (totAdd k n s).host.log = s.host.log ∧ (totAdd k n s).host.mbx = s.host.mbx ∧
    (totAdd k n s).host.journal = s.host.journal ∧ (totAdd k n s).host.ep = s.host.ep ∧
    (totAdd k n s).host.sb = s.host.sb ∧ (totAdd k n s).parts = s.parts ∧ (totAdd k n s).images = s.images ∧
    (totAdd k n s).stages = s.stages ∧ (totAdd k n s).x.cores = s.x.cores ∧ (totAdd k n s).x.clusters = s.x.clusters ∧
    (totAdd k n s).x.chm = s.x.chm ∧ (totAdd k n s).x.probeNo = s.x.probeNo ∧ (totAdd k n s).x.sram = s.x.sram ∧
    (totAdd k n s).x.loose = s.x.loose ∧ (totAdd k n s).x.hbm = s.x.hbm ∧ (totAdd k n s).x.bond = s.x.bond ∧
    (totAdd k n s).tiers = s.tiers ∧ (totAdd k n s).health = s.health ∧ (totAdd k n s).bnd = s.bnd ∧
    (totAdd k n s).fab = s.fab ∧ (totAdd k n s).mgr = s.mgr ∧ (totAdd k n s).ports = s.ports ∧
    (totAdd k n s).cont = s.cont ∧ (totAdd k n s).pw = s.pw ∧ (totAdd k n s).dv = s.dv ∧ (totAdd k n s).pins = s.pins ∧
    (totAdd k n s).boot = s.boot ∧ (totAdd k n s).sec = s.sec ∧ (totAdd k n s).car = s.car ∧ (totAdd k n s).aclk = s.aclk ∧
    (totAdd k n s).warmRestarts = s.warmRestarts ∧ (∀ i, mbxOf (totAdd k n s) i = mbxOf s i) ∧
    (∀ i, partOf (totAdd k n s) i = partOf s i) ∧ (∀ i, coreOf (totAdd k n s) i = coreOf s i) ∧
    (∀ i, clusterOf (totAdd k n s) i = clusterOf s i) ∧ (∀ i, chmOf (totAdd k n s) i = chmOf s i) ∧
    (∀ i, portOf (totAdd k n s) i = portOf s i) :=
  ⟨rfl, rfl, rfl, rfl, rfl, rfl, rfl, rfl, rfl, rfl, rfl, rfl, rfl, rfl, rfl, rfl, rfl, rfl, rfl, rfl, rfl, rfl, rfl, rfl,
   rfl, rfl, rfl, rfl, rfl, rfl, rfl, rfl, rfl, rfl, rfl, rfl, rfl, fun _ => rfl, fun _ => rfl, fun _ => rfl, fun _ =>
   rfl, fun _ => rfl, fun _ => rfl⟩
/-- `cntAdd` changes nothing else. -/
@[simp] theorem cntAdd_frame (p k n : Nat) (s : State) :
    (cntAdd p k n s).pending = s.pending ∧ (cntAdd p k n s).now = s.now ∧ (cntAdd p k n s).free = s.free ∧
    (cntAdd p k n s).out = s.out ∧ (cntAdd p k n s).bus = s.bus ∧ (cntAdd p k n s).host.hm = s.host.hm ∧
    (cntAdd p k n s).host.log = s.host.log ∧ (cntAdd p k n s).host.mbx = s.host.mbx ∧
    (cntAdd p k n s).host.journal = s.host.journal ∧ (cntAdd p k n s).host.ep = s.host.ep ∧
    (cntAdd p k n s).host.sb = s.host.sb ∧ (cntAdd p k n s).images = s.images ∧ (cntAdd p k n s).stages = s.stages ∧
    (cntAdd p k n s).x.cores = s.x.cores ∧ (cntAdd p k n s).x.clusters = s.x.clusters ∧ (cntAdd p k n s).x.chm = s.x.chm ∧
    (cntAdd p k n s).x.probeNo = s.x.probeNo ∧ (cntAdd p k n s).x.sram = s.x.sram ∧ (cntAdd p k n s).x.loose = s.x.loose ∧
    (cntAdd p k n s).x.hbm = s.x.hbm ∧ (cntAdd p k n s).x.bond = s.x.bond ∧ (cntAdd p k n s).tiers = s.tiers ∧
    (cntAdd p k n s).health = s.health ∧ (cntAdd p k n s).bnd = s.bnd ∧ (cntAdd p k n s).fab = s.fab ∧
    (cntAdd p k n s).mgr = s.mgr ∧ (cntAdd p k n s).ports = s.ports ∧ (cntAdd p k n s).cont = s.cont ∧
    (cntAdd p k n s).pw = s.pw ∧ (cntAdd p k n s).dv = s.dv ∧ (cntAdd p k n s).pins = s.pins ∧
    (cntAdd p k n s).boot = s.boot ∧ (cntAdd p k n s).sec = s.sec ∧ (cntAdd p k n s).car = s.car ∧
    (cntAdd p k n s).tot = s.tot ∧ (cntAdd p k n s).aclk = s.aclk ∧ (cntAdd p k n s).warmRestarts = s.warmRestarts ∧
    (∀ i, mbxOf (cntAdd p k n s) i = mbxOf s i) ∧ (∀ i, coreOf (cntAdd p k n s) i = coreOf s i) ∧
    (∀ i, clusterOf (cntAdd p k n s) i = clusterOf s i) ∧ (∀ i, chmOf (cntAdd p k n s) i = chmOf s i) ∧
    (∀ i, portOf (cntAdd p k n s) i = portOf s i) :=
  ⟨rfl, rfl, rfl, rfl, rfl, rfl, rfl, rfl, rfl, rfl, rfl, rfl, rfl, rfl, rfl, rfl, rfl, rfl, rfl, rfl, rfl, rfl, rfl, rfl,
   rfl, rfl, rfl, rfl, rfl, rfl, rfl, rfl, rfl, rfl, rfl, rfl, rfl, fun _ => rfl, fun _ => rfl, fun _ => rfl, fun _ =>
   rfl, fun _ => rfl⟩
/-- `cumAdd` changes nothing else. -/
@[simp] theorem cumAdd_frame (p k n : Nat) (s : State) :
    (cumAdd p k n s).pending = s.pending ∧ (cumAdd p k n s).now = s.now ∧ (cumAdd p k n s).free = s.free ∧
    (cumAdd p k n s).out = s.out ∧ (cumAdd p k n s).bus = s.bus ∧ (cumAdd p k n s).host.hm = s.host.hm ∧
    (cumAdd p k n s).host.log = s.host.log ∧ (cumAdd p k n s).host.mbx = s.host.mbx ∧
    (cumAdd p k n s).host.journal = s.host.journal ∧ (cumAdd p k n s).host.ep = s.host.ep ∧
    (cumAdd p k n s).host.sb = s.host.sb ∧ (cumAdd p k n s).images = s.images ∧ (cumAdd p k n s).stages = s.stages ∧
    (cumAdd p k n s).x.cores = s.x.cores ∧ (cumAdd p k n s).x.clusters = s.x.clusters ∧ (cumAdd p k n s).x.chm = s.x.chm ∧
    (cumAdd p k n s).x.probeNo = s.x.probeNo ∧ (cumAdd p k n s).x.sram = s.x.sram ∧ (cumAdd p k n s).x.loose = s.x.loose ∧
    (cumAdd p k n s).x.hbm = s.x.hbm ∧ (cumAdd p k n s).x.bond = s.x.bond ∧ (cumAdd p k n s).tiers = s.tiers ∧
    (cumAdd p k n s).health = s.health ∧ (cumAdd p k n s).bnd = s.bnd ∧ (cumAdd p k n s).fab = s.fab ∧
    (cumAdd p k n s).mgr = s.mgr ∧ (cumAdd p k n s).ports = s.ports ∧ (cumAdd p k n s).cont = s.cont ∧
    (cumAdd p k n s).pw = s.pw ∧ (cumAdd p k n s).dv = s.dv ∧ (cumAdd p k n s).pins = s.pins ∧
    (cumAdd p k n s).boot = s.boot ∧ (cumAdd p k n s).sec = s.sec ∧ (cumAdd p k n s).car = s.car ∧
    (cumAdd p k n s).tot = s.tot ∧ (cumAdd p k n s).aclk = s.aclk ∧ (cumAdd p k n s).warmRestarts = s.warmRestarts ∧
    (∀ i, mbxOf (cumAdd p k n s) i = mbxOf s i) ∧ (∀ i, coreOf (cumAdd p k n s) i = coreOf s i) ∧
    (∀ i, clusterOf (cumAdd p k n s) i = clusterOf s i) ∧ (∀ i, chmOf (cumAdd p k n s) i = chmOf s i) ∧
    (∀ i, portOf (cumAdd p k n s) i = portOf s i) :=
  ⟨rfl, rfl, rfl, rfl, rfl, rfl, rfl, rfl, rfl, rfl, rfl, rfl, rfl, rfl, rfl, rfl, rfl, rfl, rfl, rfl, rfl, rfl, rfl, rfl,
   rfl, rfl, rfl, rfl, rfl, rfl, rfl, rfl, rfl, rfl, rfl, rfl, rfl, fun _ => rfl, fun _ => rfl, fun _ => rfl, fun _ =>
   rfl, fun _ => rfl⟩
/-- `hbmWriteFlat` changes nothing else. -/
@[simp] theorem hbmWriteFlat_frame (a : Nat) (bs : List Byte) (s : State) :
    (hbmWriteFlat a bs s).pending = s.pending ∧ (hbmWriteFlat a bs s).now = s.now ∧ (hbmWriteFlat a bs s).free = s.free ∧
    (hbmWriteFlat a bs s).out = s.out ∧ (hbmWriteFlat a bs s).bus = s.bus ∧ (hbmWriteFlat a bs s).host.hm = s.host.hm ∧
    (hbmWriteFlat a bs s).host.log = s.host.log ∧ (hbmWriteFlat a bs s).host.mbx = s.host.mbx ∧
    (hbmWriteFlat a bs s).host.journal = s.host.journal ∧ (hbmWriteFlat a bs s).host.ep = s.host.ep ∧
    (hbmWriteFlat a bs s).host.sb = s.host.sb ∧ (hbmWriteFlat a bs s).parts = s.parts ∧
    (hbmWriteFlat a bs s).images = s.images ∧ (hbmWriteFlat a bs s).stages = s.stages ∧
    (hbmWriteFlat a bs s).x.cores = s.x.cores ∧ (hbmWriteFlat a bs s).x.clusters = s.x.clusters ∧
    (hbmWriteFlat a bs s).x.chm = s.x.chm ∧ (hbmWriteFlat a bs s).x.probeNo = s.x.probeNo ∧
    (hbmWriteFlat a bs s).x.sram = s.x.sram ∧ (hbmWriteFlat a bs s).x.loose = s.x.loose ∧
    (hbmWriteFlat a bs s).x.bond = s.x.bond ∧ (hbmWriteFlat a bs s).tiers = s.tiers ∧
    (hbmWriteFlat a bs s).health = s.health ∧ (hbmWriteFlat a bs s).bnd = s.bnd ∧ (hbmWriteFlat a bs s).fab = s.fab ∧
    (hbmWriteFlat a bs s).mgr = s.mgr ∧ (hbmWriteFlat a bs s).ports = s.ports ∧ (hbmWriteFlat a bs s).cont = s.cont ∧
    (hbmWriteFlat a bs s).pw = s.pw ∧ (hbmWriteFlat a bs s).dv = s.dv ∧ (hbmWriteFlat a bs s).pins = s.pins ∧
    (hbmWriteFlat a bs s).boot = s.boot ∧ (hbmWriteFlat a bs s).sec = s.sec ∧ (hbmWriteFlat a bs s).car = s.car ∧
    (hbmWriteFlat a bs s).tot = s.tot ∧ (hbmWriteFlat a bs s).aclk = s.aclk ∧
    (hbmWriteFlat a bs s).warmRestarts = s.warmRestarts ∧ (∀ i, mbxOf (hbmWriteFlat a bs s) i = mbxOf s i) ∧
    (∀ i, partOf (hbmWriteFlat a bs s) i = partOf s i) ∧ (∀ i, coreOf (hbmWriteFlat a bs s) i = coreOf s i) ∧
    (∀ i, clusterOf (hbmWriteFlat a bs s) i = clusterOf s i) ∧ (∀ i, chmOf (hbmWriteFlat a bs s) i = chmOf s i) ∧
    (∀ i, portOf (hbmWriteFlat a bs s) i = portOf s i) :=
  ⟨rfl, rfl, rfl, rfl, rfl, rfl, rfl, rfl, rfl, rfl, rfl, rfl, rfl, rfl, rfl, rfl, rfl, rfl, rfl, rfl, rfl, rfl, rfl, rfl,
   rfl, rfl, rfl, rfl, rfl, rfl, rfl, rfl, rfl, rfl, rfl, rfl, rfl, fun _ => rfl, fun _ => rfl, fun _ => rfl, fun _ =>
   rfl, fun _ => rfl, fun _ => rfl⟩
@[simp] theorem hbmWriteFlat_own (a : Nat) (bs : List Byte) (s : State) : (hbmWriteFlat a bs s).x.hbm = memWrite s.x.hbm a bs := rfl
/-- `bondWriteFlat` changes nothing else. -/
@[simp] theorem bondWriteFlat_frame (a : Nat) (bs : List Byte) (s : State) :
    (bondWriteFlat a bs s).pending = s.pending ∧ (bondWriteFlat a bs s).now = s.now ∧
    (bondWriteFlat a bs s).free = s.free ∧ (bondWriteFlat a bs s).out = s.out ∧ (bondWriteFlat a bs s).bus = s.bus ∧
    (bondWriteFlat a bs s).host.hm = s.host.hm ∧ (bondWriteFlat a bs s).host.log = s.host.log ∧
    (bondWriteFlat a bs s).host.mbx = s.host.mbx ∧ (bondWriteFlat a bs s).host.journal = s.host.journal ∧
    (bondWriteFlat a bs s).host.ep = s.host.ep ∧ (bondWriteFlat a bs s).host.sb = s.host.sb ∧
    (bondWriteFlat a bs s).parts = s.parts ∧ (bondWriteFlat a bs s).images = s.images ∧
    (bondWriteFlat a bs s).stages = s.stages ∧ (bondWriteFlat a bs s).x.cores = s.x.cores ∧
    (bondWriteFlat a bs s).x.clusters = s.x.clusters ∧ (bondWriteFlat a bs s).x.chm = s.x.chm ∧
    (bondWriteFlat a bs s).x.probeNo = s.x.probeNo ∧ (bondWriteFlat a bs s).x.sram = s.x.sram ∧
    (bondWriteFlat a bs s).x.loose = s.x.loose ∧ (bondWriteFlat a bs s).x.hbm = s.x.hbm ∧
    (bondWriteFlat a bs s).tiers = s.tiers ∧ (bondWriteFlat a bs s).health = s.health ∧
    (bondWriteFlat a bs s).bnd = s.bnd ∧ (bondWriteFlat a bs s).fab = s.fab ∧ (bondWriteFlat a bs s).mgr = s.mgr ∧
    (bondWriteFlat a bs s).ports = s.ports ∧ (bondWriteFlat a bs s).cont = s.cont ∧ (bondWriteFlat a bs s).pw = s.pw ∧
    (bondWriteFlat a bs s).dv = s.dv ∧ (bondWriteFlat a bs s).pins = s.pins ∧ (bondWriteFlat a bs s).boot = s.boot ∧
    (bondWriteFlat a bs s).sec = s.sec ∧ (bondWriteFlat a bs s).car = s.car ∧ (bondWriteFlat a bs s).tot = s.tot ∧
    (bondWriteFlat a bs s).aclk = s.aclk ∧ (bondWriteFlat a bs s).warmRestarts = s.warmRestarts ∧
    (∀ i, mbxOf (bondWriteFlat a bs s) i = mbxOf s i) ∧ (∀ i, partOf (bondWriteFlat a bs s) i = partOf s i) ∧
    (∀ i, coreOf (bondWriteFlat a bs s) i = coreOf s i) ∧ (∀ i, clusterOf (bondWriteFlat a bs s) i = clusterOf s i) ∧
    (∀ i, chmOf (bondWriteFlat a bs s) i = chmOf s i) ∧ (∀ i, portOf (bondWriteFlat a bs s) i = portOf s i) :=
  ⟨rfl, rfl, rfl, rfl, rfl, rfl, rfl, rfl, rfl, rfl, rfl, rfl, rfl, rfl, rfl, rfl, rfl, rfl, rfl, rfl, rfl, rfl, rfl, rfl,
   rfl, rfl, rfl, rfl, rfl, rfl, rfl, rfl, rfl, rfl, rfl, rfl, rfl, fun _ => rfl, fun _ => rfl, fun _ => rfl, fun _ =>
   rfl, fun _ => rfl, fun _ => rfl⟩
@[simp] theorem bondWriteFlat_own (a : Nat) (bs : List Byte) (s : State) : (bondWriteFlat a bs s).x.bond = memWrite s.x.bond a bs := rfl
/-- `sramWrite` changes nothing else. -/
@[simp] theorem sramWrite_frame (a : Nat) (bs : List Byte) (s : State) :
    (sramWrite a bs s).pending = s.pending ∧ (sramWrite a bs s).now = s.now ∧ (sramWrite a bs s).free = s.free ∧
    (sramWrite a bs s).out = s.out ∧ (sramWrite a bs s).bus = s.bus ∧ (sramWrite a bs s).host.hm = s.host.hm ∧
    (sramWrite a bs s).host.log = s.host.log ∧ (sramWrite a bs s).host.mbx = s.host.mbx ∧
    (sramWrite a bs s).host.journal = s.host.journal ∧ (sramWrite a bs s).host.ep = s.host.ep ∧
    (sramWrite a bs s).host.sb = s.host.sb ∧ (sramWrite a bs s).parts = s.parts ∧ (sramWrite a bs s).images = s.images ∧
    (sramWrite a bs s).stages = s.stages ∧ (sramWrite a bs s).x.cores = s.x.cores ∧
    (sramWrite a bs s).x.clusters = s.x.clusters ∧ (sramWrite a bs s).x.chm = s.x.chm ∧
    (sramWrite a bs s).x.probeNo = s.x.probeNo ∧ (sramWrite a bs s).x.hbm = s.x.hbm ∧
    (sramWrite a bs s).x.bond = s.x.bond ∧ (sramWrite a bs s).tiers = s.tiers ∧ (sramWrite a bs s).health = s.health ∧
    (sramWrite a bs s).bnd = s.bnd ∧ (sramWrite a bs s).fab = s.fab ∧ (sramWrite a bs s).mgr = s.mgr ∧
    (sramWrite a bs s).ports = s.ports ∧ (sramWrite a bs s).cont = s.cont ∧ (sramWrite a bs s).pw = s.pw ∧
    (sramWrite a bs s).dv = s.dv ∧ (sramWrite a bs s).pins = s.pins ∧ (sramWrite a bs s).boot = s.boot ∧
    (sramWrite a bs s).sec = s.sec ∧ (sramWrite a bs s).car = s.car ∧ (sramWrite a bs s).tot = s.tot ∧
    (sramWrite a bs s).aclk = s.aclk ∧ (sramWrite a bs s).warmRestarts = s.warmRestarts ∧
    (∀ i, mbxOf (sramWrite a bs s) i = mbxOf s i) ∧ (∀ i, partOf (sramWrite a bs s) i = partOf s i) ∧
    (∀ i, coreOf (sramWrite a bs s) i = coreOf s i) ∧ (∀ i, clusterOf (sramWrite a bs s) i = clusterOf s i) ∧
    (∀ i, chmOf (sramWrite a bs s) i = chmOf s i) ∧ (∀ i, portOf (sramWrite a bs s) i = portOf s i) :=
  ⟨rfl, rfl, rfl, rfl, rfl, rfl, rfl, rfl, rfl, rfl, rfl, rfl, rfl, rfl, rfl, rfl, rfl, rfl, rfl, rfl, rfl, rfl, rfl, rfl,
   rfl, rfl, rfl, rfl, rfl, rfl, rfl, rfl, rfl, rfl, rfl, rfl, fun _ => rfl, fun _ => rfl, fun _ => rfl, fun _ => rfl,
   fun _ => rfl, fun _ => rfl⟩
@[simp] theorem sramWrite_own (a : Nat) (bs : List Byte) (s : State) : (sramWrite a bs s).x.sram = memWrite s.x.sram a bs := rfl

/-! Tables of the state. -/

@[simp] theorem partOf_modPart (k : Nat) (f : Part → Part) (s : State) : partOf (modPart k f s) k = f (partOf s k) := by
  simp only [partOf, modPart, tgetD_tset_same]
theorem partOf_modPart_ne {k j : Nat} (f : Part → Part) (s : State) (h : k ≠ j) : partOf (modPart k f s) j = partOf s j := by
  simp only [partOf, modPart]; exact tgetD_tset_ne _ _ _ h
@[simp] theorem clusterOf_modCluster (k : Nat) (f : Cluster → Cluster) (s : State) : clusterOf (modCluster k f s) k = f (clusterOf s k) := by
  simp only [clusterOf, modCluster, tgetD_tset_same]
theorem clusterOf_modCluster_ne {k j : Nat} (f : Cluster → Cluster) (s : State) (h : k ≠ j) : clusterOf (modCluster k f s) j = clusterOf s j := by
  simp only [clusterOf, modCluster]; exact tgetD_tset_ne _ _ _ h
@[simp] theorem coreOf_modCore (k : Nat) (f : Core → Core) (s : State) : coreOf (modCore k f s) k = f (coreOf s k) := by
  simp only [coreOf, modCore, tgetD_tset_same]
theorem coreOf_modCore_ne {k j : Nat} (f : Core → Core) (s : State) (h : k ≠ j) : coreOf (modCore k f s) j = coreOf s j := by
  simp only [coreOf, modCore]; exact tgetD_tset_ne _ _ _ h
@[simp] theorem chmOf_modChm (k : Nat) (f : Chamois → Chamois) (s : State) : chmOf (modChm k f s) k = f (chmOf s k) := by
  simp only [chmOf, modChm, tgetD_tset_same]
theorem chmOf_modChm_ne {k j : Nat} (f : Chamois → Chamois) (s : State) (h : k ≠ j) : chmOf (modChm k f s) j = chmOf s j := by
  simp only [chmOf, modChm]; exact tgetD_tset_ne _ _ _ h
@[simp] theorem portOf_modPort (k : Nat) (f : Port → Port) (s : State) : portOf (modPort k f s) k = f (portOf s k) := by
  simp only [portOf, modPort, tgetD_tset_same]
theorem portOf_modPort_ne {k j : Nat} (f : Port → Port) (s : State) (h : k ≠ j) : portOf (modPort k f s) j = portOf s j := by
  simp only [portOf, modPort]; exact tgetD_tset_ne _ _ _ h
@[simp] theorem partOf_modCfg (k : Nat) (f : PartCfg → PartCfg) (s : State) :
    partOf (modCfg k f s) k = { partOf s k with cfg := f (partOf s k).cfg } := partOf_modPart ..
theorem partOf_modCfg_ne {k j : Nat} (f : PartCfg → PartCfg) (s : State) (h : k ≠ j) : partOf (modCfg k f s) j = partOf s j :=
  partOf_modPart_ne _ s h
@[simp] theorem partOf_modRun (k : Nat) (f : PartRun → PartRun) (s : State) :
    partOf (modRun k f s) k = { partOf s k with run := f (partOf s k).run } := partOf_modPart ..
theorem partOf_modRun_ne {k j : Nat} (f : PartRun → PartRun) (s : State) (h : k ≠ j) : partOf (modRun k f s) j = partOf s j :=
  partOf_modPart_ne _ s h
@[simp] theorem partOf_modStat (k : Nat) (f : PartStat → PartStat) (s : State) :
    partOf (modStat k f s) k = { partOf s k with stat := f (partOf s k).stat } := partOf_modPart ..
theorem partOf_modStat_ne {k j : Nat} (f : PartStat → PartStat) (s : State) (h : k ≠ j) : partOf (modStat k f s) j = partOf s j :=
  partOf_modPart_ne _ s h
@[simp] theorem partOf_modKv (k : Nat) (f : Kv → Kv) (s : State) :
    partOf (modKv k f s) k = { partOf s k with kv := f (partOf s k).kv } := partOf_modPart ..
theorem partOf_modKv_ne {k j : Nat} (f : Kv → Kv) (s : State) (h : k ≠ j) : partOf (modKv k f s) j = partOf s j :=
  partOf_modPart_ne _ s h
@[simp] theorem partOf_modEx (k : Nat) (f : PartEx → PartEx) (s : State) :
    partOf (modEx k f s) k = { partOf s k with ex := f (partOf s k).ex } := partOf_modPart ..
theorem partOf_modEx_ne {k j : Nat} (f : PartEx → PartEx) (s : State) (h : k ≠ j) : partOf (modEx k f s) j = partOf s j :=
  partOf_modPart_ne _ s h
@[simp] theorem partOf_modJr (k : Nat) (f : PartJr → PartJr) (s : State) :
    partOf (modJr k f s) k = { partOf s k with jr := f (partOf s k).jr } := partOf_modPart ..
theorem partOf_modJr_ne {k j : Nat} (f : PartJr → PartJr) (s : State) (h : k ≠ j) : partOf (modJr k f s) j = partOf s j :=
  partOf_modPart_ne _ s h
@[simp] theorem partOf_modFb (k : Nat) (f : Fallback → Fallback) (s : State) :
    partOf (modFb k f s) k = { partOf s k with fb := f (partOf s k).fb } := partOf_modPart ..
theorem partOf_modFb_ne {k j : Nat} (f : Fallback → Fallback) (s : State) (h : k ≠ j) : partOf (modFb k f s) j = partOf s j :=
  partOf_modPart_ne _ s h
@[simp] theorem mbxOf_modMbx (m : MbxId) (f : Mailbox → Mailbox) (s : State) : mbxOf (modMbx m f s) m = f (mbxOf s m) := by
  simp only [mbxOf, modMbx, tgetD_tset_same]
theorem mbxOf_modMbx_ne {m n : MbxId} (f : Mailbox → Mailbox) (s : State) (h : m ≠ n) : mbxOf (modMbx m f s) n = mbxOf s n := by
  simp only [mbxOf, modMbx]; exact tgetD_tset_ne _ _ _ fun e => h (mbxKey_inj e)

end Sys2Proof.Machine
end

