-- ==== Sys2Proof/Laws/Ops.lean ====
section
/-! SUPPORT. What each shared operation of Machine/Ops.lean can do: interrupts, events, counters, replies and host writes. -/

namespace Sys2Proof.Machine

/-- `raiseMsix` changes nothing else. -/
@[simp] theorem raiseMsix_frame (fn v : Nat) (s : State) :
    (raiseMsix fn v s).pending = s.pending ∧ (raiseMsix fn v s).now = s.now ∧ (raiseMsix fn v s).free = s.free ∧
    (raiseMsix fn v s).bus = s.bus ∧ (raiseMsix fn v s).host.hm = s.host.hm ∧ (raiseMsix fn v s).host.log = s.host.log ∧
    (raiseMsix fn v s).host.mbx = s.host.mbx ∧ (raiseMsix fn v s).host.journal = s.host.journal ∧
    (raiseMsix fn v s).host.sb = s.host.sb ∧ (raiseMsix fn v s).parts = s.parts ∧ (raiseMsix fn v s).images = s.images ∧
    (raiseMsix fn v s).stages = s.stages ∧ (raiseMsix fn v s).x.cores = s.x.cores ∧
    (raiseMsix fn v s).x.clusters = s.x.clusters ∧ (raiseMsix fn v s).x.chm = s.x.chm ∧
    (raiseMsix fn v s).x.probeNo = s.x.probeNo ∧ (raiseMsix fn v s).x.sram = s.x.sram ∧
    (raiseMsix fn v s).x.loose = s.x.loose ∧ (raiseMsix fn v s).x.hbm = s.x.hbm ∧ (raiseMsix fn v s).x.bond = s.x.bond ∧
    (raiseMsix fn v s).tiers = s.tiers ∧ (raiseMsix fn v s).health = s.health ∧ (raiseMsix fn v s).bnd = s.bnd ∧
    (raiseMsix fn v s).fab = s.fab ∧ (raiseMsix fn v s).mgr = s.mgr ∧ (raiseMsix fn v s).ports = s.ports ∧
    (raiseMsix fn v s).cont = s.cont ∧ (raiseMsix fn v s).pw = s.pw ∧ (raiseMsix fn v s).dv = s.dv ∧
    (raiseMsix fn v s).pins = s.pins ∧ (raiseMsix fn v s).boot = s.boot ∧ (raiseMsix fn v s).sec = s.sec ∧
    (raiseMsix fn v s).car = s.car ∧ (raiseMsix fn v s).tot = s.tot ∧ (raiseMsix fn v s).aclk = s.aclk ∧
    (raiseMsix fn v s).warmRestarts = s.warmRestarts ∧ (∀ i, mbxOf (raiseMsix fn v s) i = mbxOf s i) ∧
    (∀ i, partOf (raiseMsix fn v s) i = partOf s i) ∧ (∀ i, coreOf (raiseMsix fn v s) i = coreOf s i) ∧
    (∀ i, clusterOf (raiseMsix fn v s) i = clusterOf s i) ∧ (∀ i, chmOf (raiseMsix fn v s) i = chmOf s i) ∧
    (∀ i, portOf (raiseMsix fn v s) i = portOf s i) ∧ (raiseMsix fn v s).host.ep.linkUp = s.host.ep.linkUp ∧
    (raiseMsix fn v s).host.ep.canTrain = s.host.ep.canTrain ∧ (raiseMsix fn v s).host.ep.perst = s.host.ep.perst ∧
    (raiseMsix fn v s).host.ep.bme = s.host.ep.bme ∧ (raiseMsix fn v s).host.ep.msix = s.host.ep.msix ∧
    (raiseMsix fn v s).host.ep.ide = s.host.ep.ide ∧ (raiseMsix fn v s).host.ep.lanesOut = s.host.ep.lanesOut ∧
    (raiseMsix fn v s).host.ep.loopback = s.host.ep.loopback := by
  unfold raiseMsix
  dsimp only
  repeat' split
  all_goals simp

/-- `setInt` changes nothing else. -/
@[simp] theorem setInt_frame (b : Nat) (s : State) :
    (setInt b s).pending = s.pending ∧ (setInt b s).now = s.now ∧ (setInt b s).free = s.free ∧ (setInt b s).bus = s.bus ∧
    (setInt b s).host.log = s.host.log ∧ (setInt b s).host.mbx = s.host.mbx ∧ (setInt b s).host.journal = s.host.journal ∧
    (setInt b s).host.sb = s.host.sb ∧ (setInt b s).parts = s.parts ∧ (setInt b s).images = s.images ∧
    (setInt b s).stages = s.stages ∧ (setInt b s).x.cores = s.x.cores ∧ (setInt b s).x.clusters = s.x.clusters ∧
    (setInt b s).x.chm = s.x.chm ∧ (setInt b s).x.probeNo = s.x.probeNo ∧ (setInt b s).x.sram = s.x.sram ∧
    (setInt b s).x.loose = s.x.loose ∧ (setInt b s).x.hbm = s.x.hbm ∧ (setInt b s).x.bond = s.x.bond ∧
    (setInt b s).tiers = s.tiers ∧ (setInt b s).health = s.health ∧ (setInt b s).bnd = s.bnd ∧ (setInt b s).fab = s.fab ∧
    (setInt b s).mgr = s.mgr ∧ (setInt b s).ports = s.ports ∧ (setInt b s).cont = s.cont ∧ (setInt b s).pw = s.pw ∧
    (setInt b s).dv = s.dv ∧ (setInt b s).pins = s.pins ∧ (setInt b s).boot = s.boot ∧ (setInt b s).sec = s.sec ∧
    (setInt b s).car = s.car ∧ (setInt b s).tot = s.tot ∧ (setInt b s).aclk = s.aclk ∧
    (setInt b s).warmRestarts = s.warmRestarts ∧ (∀ i, mbxOf (setInt b s) i = mbxOf s i) ∧
    (∀ i, partOf (setInt b s) i = partOf s i) ∧ (∀ i, coreOf (setInt b s) i = coreOf s i) ∧
    (∀ i, clusterOf (setInt b s) i = clusterOf s i) ∧ (∀ i, chmOf (setInt b s) i = chmOf s i) ∧
    (∀ i, portOf (setInt b s) i = portOf s i) ∧ (setInt b s).host.ep.linkUp = s.host.ep.linkUp ∧
    (setInt b s).host.ep.canTrain = s.host.ep.canTrain ∧ (setInt b s).host.ep.perst = s.host.ep.perst ∧
    (setInt b s).host.ep.bme = s.host.ep.bme ∧ (setInt b s).host.ep.msix = s.host.ep.msix ∧
    (setInt b s).host.ep.ide = s.host.ep.ide ∧ (setInt b s).host.ep.lanesOut = s.host.ep.lanesOut ∧
    (setInt b s).host.ep.loopback = s.host.ep.loopback ∧ (setInt b s).host.hm.fwVersion = s.host.hm.fwVersion ∧
    (setInt b s).host.hm.ready = s.host.hm.ready ∧ (setInt b s).host.hm.failed = s.host.hm.failed ∧
    (setInt b s).host.hm.failCause = s.host.hm.failCause ∧ (setInt b s).host.hm.redundancyLost = s.host.hm.redundancyLost ∧
    (setInt b s).host.hm.standbyLost = s.host.hm.standbyLost ∧ (setInt b s).host.hm.manager = s.host.hm.manager ∧
    (setInt b s).host.hm.cutOff = s.host.hm.cutOff ∧ (setInt b s).host.hm.hmInst = s.host.hm.hmInst ∧
    (setInt b s).host.hm.pkgId = s.host.hm.pkgId ∧ (setInt b s).host.hm.joined = s.host.hm.joined ∧
    (setInt b s).host.hm.intEnable = s.host.hm.intEnable ∧ (setInt b s).host.hm.timeHi = s.host.hm.timeHi ∧
    (setInt b s).host.hm.alive = s.host.hm.alive ∧ (setInt b s).host.hm.faultSticky = s.host.hm.faultSticky ∧
    (setInt b s).host.hm.logSeqHi = s.host.hm.logSeqHi ∧ (setInt b s).host.hm.standbyJournal = s.host.hm.standbyJournal ∧
    (setInt b s).host.hm.instOut = s.host.hm.instOut ∧ (setInt b s).host.hm.gone = s.host.hm.gone := by
  unfold setInt
  dsimp only
  split <;> simp

/-- `setSticky` changes nothing else. -/
@[simp] theorem setSticky_frame (b : Nat) (s : State) :
    (setSticky b s).pending = s.pending ∧ (setSticky b s).now = s.now ∧ (setSticky b s).free = s.free ∧
    (setSticky b s).out = s.out ∧ (setSticky b s).bus = s.bus ∧ (setSticky b s).host.log = s.host.log ∧
    (setSticky b s).host.mbx = s.host.mbx ∧ (setSticky b s).host.journal = s.host.journal ∧
    (setSticky b s).host.ep = s.host.ep ∧ (setSticky b s).host.sb = s.host.sb ∧ (setSticky b s).parts = s.parts ∧
    (setSticky b s).images = s.images ∧ (setSticky b s).stages = s.stages ∧ (setSticky b s).x.cores = s.x.cores ∧
    (setSticky b s).x.clusters = s.x.clusters ∧ (setSticky b s).x.chm = s.x.chm ∧ (setSticky b s).x.probeNo = s.x.probeNo ∧
    (setSticky b s).x.sram = s.x.sram ∧ (setSticky b s).x.loose = s.x.loose ∧ (setSticky b s).x.hbm = s.x.hbm ∧
    (setSticky b s).x.bond = s.x.bond ∧ (setSticky b s).tiers = s.tiers ∧ (setSticky b s).health = s.health ∧
    (setSticky b s).bnd = s.bnd ∧ (setSticky b s).fab = s.fab ∧ (setSticky b s).mgr = s.mgr ∧
    (setSticky b s).ports = s.ports ∧ (setSticky b s).cont = s.cont ∧ (setSticky b s).pw = s.pw ∧
    (setSticky b s).dv = s.dv ∧ (setSticky b s).pins = s.pins ∧ (setSticky b s).boot = s.boot ∧
    (setSticky b s).sec = s.sec ∧ (setSticky b s).car = s.car ∧ (setSticky b s).tot = s.tot ∧
    (setSticky b s).aclk = s.aclk ∧ (setSticky b s).warmRestarts = s.warmRestarts ∧
    (∀ i, mbxOf (setSticky b s) i = mbxOf s i) ∧ (∀ i, partOf (setSticky b s) i = partOf s i) ∧
    (∀ i, coreOf (setSticky b s) i = coreOf s i) ∧ (∀ i, clusterOf (setSticky b s) i = clusterOf s i) ∧
    (∀ i, chmOf (setSticky b s) i = chmOf s i) ∧ (∀ i, portOf (setSticky b s) i = portOf s i) ∧
    (setSticky b s).host.hm.fwVersion = s.host.hm.fwVersion ∧ (setSticky b s).host.hm.ready = s.host.hm.ready ∧
    (setSticky b s).host.hm.failed = s.host.hm.failed ∧ (setSticky b s).host.hm.failCause = s.host.hm.failCause ∧
    (setSticky b s).host.hm.redundancyLost = s.host.hm.redundancyLost ∧
    (setSticky b s).host.hm.standbyLost = s.host.hm.standbyLost ∧ (setSticky b s).host.hm.manager = s.host.hm.manager ∧
    (setSticky b s).host.hm.cutOff = s.host.hm.cutOff ∧ (setSticky b s).host.hm.hmInst = s.host.hm.hmInst ∧
    (setSticky b s).host.hm.pkgId = s.host.hm.pkgId ∧ (setSticky b s).host.hm.joined = s.host.hm.joined ∧
    (setSticky b s).host.hm.intEnable = s.host.hm.intEnable ∧ (setSticky b s).host.hm.timeHi = s.host.hm.timeHi ∧
    (setSticky b s).host.hm.alive = s.host.hm.alive ∧ (setSticky b s).host.hm.logSeqHi = s.host.hm.logSeqHi ∧
    (setSticky b s).host.hm.standbyJournal = s.host.hm.standbyJournal ∧
    (setSticky b s).host.hm.instOut = s.host.hm.instOut ∧ (setSticky b s).host.hm.gone = s.host.hm.gone := by
  simp [setSticky]

/-- `setVfEvent` changes nothing else. -/
@[simp] theorem setVfEvent_frame (p b : Nat) (s : State) :
    (setVfEvent p b s).pending = s.pending ∧ (setVfEvent p b s).now = s.now ∧ (setVfEvent p b s).free = s.free ∧
    (setVfEvent p b s).bus = s.bus ∧ (setVfEvent p b s).host.hm = s.host.hm ∧ (setVfEvent p b s).host.log = s.host.log ∧
    (setVfEvent p b s).host.mbx = s.host.mbx ∧ (setVfEvent p b s).host.journal = s.host.journal ∧
    (setVfEvent p b s).host.sb = s.host.sb ∧ (setVfEvent p b s).images = s.images ∧ (setVfEvent p b s).stages = s.stages ∧
    (setVfEvent p b s).x.cores = s.x.cores ∧ (setVfEvent p b s).x.clusters = s.x.clusters ∧
    (setVfEvent p b s).x.chm = s.x.chm ∧ (setVfEvent p b s).x.probeNo = s.x.probeNo ∧
    (setVfEvent p b s).x.sram = s.x.sram ∧ (setVfEvent p b s).x.loose = s.x.loose ∧ (setVfEvent p b s).x.hbm = s.x.hbm ∧
    (setVfEvent p b s).x.bond = s.x.bond ∧ (setVfEvent p b s).tiers = s.tiers ∧ (setVfEvent p b s).health = s.health ∧
    (setVfEvent p b s).bnd = s.bnd ∧ (setVfEvent p b s).fab = s.fab ∧ (setVfEvent p b s).mgr = s.mgr ∧
    (setVfEvent p b s).ports = s.ports ∧ (setVfEvent p b s).cont = s.cont ∧ (setVfEvent p b s).pw = s.pw ∧
    (setVfEvent p b s).dv = s.dv ∧ (setVfEvent p b s).pins = s.pins ∧ (setVfEvent p b s).boot = s.boot ∧
    (setVfEvent p b s).sec = s.sec ∧ (setVfEvent p b s).car = s.car ∧ (setVfEvent p b s).tot = s.tot ∧
    (setVfEvent p b s).aclk = s.aclk ∧ (setVfEvent p b s).warmRestarts = s.warmRestarts ∧
    (∀ i, mbxOf (setVfEvent p b s) i = mbxOf s i) ∧ (∀ i, coreOf (setVfEvent p b s) i = coreOf s i) ∧
    (∀ i, clusterOf (setVfEvent p b s) i = clusterOf s i) ∧ (∀ i, chmOf (setVfEvent p b s) i = chmOf s i) ∧
    (∀ i, portOf (setVfEvent p b s) i = portOf s i) ∧ (setVfEvent p b s).host.ep.linkUp = s.host.ep.linkUp ∧
    (setVfEvent p b s).host.ep.canTrain = s.host.ep.canTrain ∧ (setVfEvent p b s).host.ep.perst = s.host.ep.perst ∧
    (setVfEvent p b s).host.ep.bme = s.host.ep.bme ∧ (setVfEvent p b s).host.ep.msix = s.host.ep.msix ∧
    (setVfEvent p b s).host.ep.ide = s.host.ep.ide ∧ (setVfEvent p b s).host.ep.lanesOut = s.host.ep.lanesOut ∧
    (setVfEvent p b s).host.ep.loopback = s.host.ep.loopback := by
  unfold setVfEvent
  dsimp only
  split <;> simp

/-- `logWrite` changes nothing else. -/
@[simp] theorem logWrite_frame (c : Nat) (fl : Bool) (ws : List Word) (s : State) :
    (logWrite c fl ws s).pending = s.pending ∧ (logWrite c fl ws s).now = s.now ∧ (logWrite c fl ws s).free = s.free ∧
    (logWrite c fl ws s).bus = s.bus ∧ (logWrite c fl ws s).host.mbx = s.host.mbx ∧
    (logWrite c fl ws s).host.journal = s.host.journal ∧ (logWrite c fl ws s).host.sb = s.host.sb ∧
    (logWrite c fl ws s).parts = s.parts ∧ (logWrite c fl ws s).images = s.images ∧
    (logWrite c fl ws s).stages = s.stages ∧ (logWrite c fl ws s).x.cores = s.x.cores ∧
    (logWrite c fl ws s).x.clusters = s.x.clusters ∧ (logWrite c fl ws s).x.chm = s.x.chm ∧
    (logWrite c fl ws s).x.probeNo = s.x.probeNo ∧ (logWrite c fl ws s).x.sram = s.x.sram ∧
    (logWrite c fl ws s).x.loose = s.x.loose ∧ (logWrite c fl ws s).x.hbm = s.x.hbm ∧
    (logWrite c fl ws s).x.bond = s.x.bond ∧ (logWrite c fl ws s).tiers = s.tiers ∧
    (logWrite c fl ws s).health = s.health ∧ (logWrite c fl ws s).bnd = s.bnd ∧ (logWrite c fl ws s).fab = s.fab ∧
    (logWrite c fl ws s).mgr = s.mgr ∧ (logWrite c fl ws s).ports = s.ports ∧ (logWrite c fl ws s).cont = s.cont ∧
    (logWrite c fl ws s).pw = s.pw ∧ (logWrite c fl ws s).dv = s.dv ∧ (logWrite c fl ws s).pins = s.pins ∧
    (logWrite c fl ws s).boot = s.boot ∧ (logWrite c fl ws s).sec = s.sec ∧ (logWrite c fl ws s).car = s.car ∧
    (logWrite c fl ws s).tot = s.tot ∧ (logWrite c fl ws s).aclk = s.aclk ∧
    (logWrite c fl ws s).warmRestarts = s.warmRestarts ∧ (∀ i, mbxOf (logWrite c fl ws s) i = mbxOf s i) ∧
    (∀ i, partOf (logWrite c fl ws s) i = partOf s i) ∧ (∀ i, coreOf (logWrite c fl ws s) i = coreOf s i) ∧
    (∀ i, clusterOf (logWrite c fl ws s) i = clusterOf s i) ∧ (∀ i, chmOf (logWrite c fl ws s) i = chmOf s i) ∧
    (∀ i, portOf (logWrite c fl ws s) i = portOf s i) ∧ (logWrite c fl ws s).host.ep.linkUp = s.host.ep.linkUp ∧
    (logWrite c fl ws s).host.ep.canTrain = s.host.ep.canTrain ∧ (logWrite c fl ws s).host.ep.perst = s.host.ep.perst ∧
    (logWrite c fl ws s).host.ep.bme = s.host.ep.bme ∧ (logWrite c fl ws s).host.ep.msix = s.host.ep.msix ∧
    (logWrite c fl ws s).host.ep.ide = s.host.ep.ide ∧ (logWrite c fl ws s).host.ep.lanesOut = s.host.ep.lanesOut ∧
    (logWrite c fl ws s).host.ep.loopback = s.host.ep.loopback ∧
    (logWrite c fl ws s).host.hm.fwVersion = s.host.hm.fwVersion ∧ (logWrite c fl ws s).host.hm.ready = s.host.hm.ready ∧
    (logWrite c fl ws s).host.hm.failed = s.host.hm.failed ∧ (logWrite c fl ws s).host.hm.failCause = s.host.hm.failCause ∧
    (logWrite c fl ws s).host.hm.redundancyLost = s.host.hm.redundancyLost ∧
    (logWrite c fl ws s).host.hm.standbyLost = s.host.hm.standbyLost ∧
    (logWrite c fl ws s).host.hm.manager = s.host.hm.manager ∧ (logWrite c fl ws s).host.hm.cutOff = s.host.hm.cutOff ∧
    (logWrite c fl ws s).host.hm.hmInst = s.host.hm.hmInst ∧ (logWrite c fl ws s).host.hm.pkgId = s.host.hm.pkgId ∧
    (logWrite c fl ws s).host.hm.joined = s.host.hm.joined ∧ (logWrite c fl ws s).host.hm.intEnable = s.host.hm.intEnable ∧
    (logWrite c fl ws s).host.hm.timeHi = s.host.hm.timeHi ∧ (logWrite c fl ws s).host.hm.alive = s.host.hm.alive ∧
    (logWrite c fl ws s).host.hm.faultSticky = s.host.hm.faultSticky ∧
    (logWrite c fl ws s).host.hm.logSeqHi = s.host.hm.logSeqHi ∧
    (logWrite c fl ws s).host.hm.standbyJournal = s.host.hm.standbyJournal ∧
    (logWrite c fl ws s).host.hm.instOut = s.host.hm.instOut ∧ (logWrite c fl ws s).host.hm.gone = s.host.hm.gone := by
  unfold logWrite
  dsimp only
  split <;> simp

/-- `logEvent` changes nothing else. -/
@[simp] theorem logEvent_frame (c : Nat) (fl : Bool) (p o st a b : Nat) (s : State) :
    (logEvent c fl p o st a b s).pending = s.pending ∧ (logEvent c fl p o st a b s).now = s.now ∧
    (logEvent c fl p o st a b s).free = s.free ∧ (logEvent c fl p o st a b s).bus = s.bus ∧
    (logEvent c fl p o st a b s).host.mbx = s.host.mbx ∧ (logEvent c fl p o st a b s).host.journal = s.host.journal ∧
    (logEvent c fl p o st a b s).host.sb = s.host.sb ∧ (logEvent c fl p o st a b s).parts = s.parts ∧
    (logEvent c fl p o st a b s).images = s.images ∧ (logEvent c fl p o st a b s).stages = s.stages ∧
    (logEvent c fl p o st a b s).x.cores = s.x.cores ∧ (logEvent c fl p o st a b s).x.clusters = s.x.clusters ∧
    (logEvent c fl p o st a b s).x.chm = s.x.chm ∧ (logEvent c fl p o st a b s).x.probeNo = s.x.probeNo ∧
    (logEvent c fl p o st a b s).x.sram = s.x.sram ∧ (logEvent c fl p o st a b s).x.loose = s.x.loose ∧
    (logEvent c fl p o st a b s).x.hbm = s.x.hbm ∧ (logEvent c fl p o st a b s).x.bond = s.x.bond ∧
    (logEvent c fl p o st a b s).tiers = s.tiers ∧ (logEvent c fl p o st a b s).health = s.health ∧
    (logEvent c fl p o st a b s).bnd = s.bnd ∧ (logEvent c fl p o st a b s).fab = s.fab ∧
    (logEvent c fl p o st a b s).mgr = s.mgr ∧ (logEvent c fl p o st a b s).ports = s.ports ∧
    (logEvent c fl p o st a b s).cont = s.cont ∧ (logEvent c fl p o st a b s).pw = s.pw ∧
    (logEvent c fl p o st a b s).dv = s.dv ∧ (logEvent c fl p o st a b s).pins = s.pins ∧
    (logEvent c fl p o st a b s).boot = s.boot ∧ (logEvent c fl p o st a b s).sec = s.sec ∧
    (logEvent c fl p o st a b s).car = s.car ∧ (logEvent c fl p o st a b s).tot = s.tot ∧
    (logEvent c fl p o st a b s).aclk = s.aclk ∧ (logEvent c fl p o st a b s).warmRestarts = s.warmRestarts ∧
    (∀ i, mbxOf (logEvent c fl p o st a b s) i = mbxOf s i) ∧ (∀ i, partOf (logEvent c fl p o st a b s) i = partOf s i) ∧
    (∀ i, coreOf (logEvent c fl p o st a b s) i = coreOf s i) ∧
    (∀ i, clusterOf (logEvent c fl p o st a b s) i = clusterOf s i) ∧
    (∀ i, chmOf (logEvent c fl p o st a b s) i = chmOf s i) ∧ (∀ i, portOf (logEvent c fl p o st a b s) i = portOf s i) ∧
    (logEvent c fl p o st a b s).host.ep.linkUp = s.host.ep.linkUp ∧
    (logEvent c fl p o st a b s).host.ep.canTrain = s.host.ep.canTrain ∧
    (logEvent c fl p o st a b s).host.ep.perst = s.host.ep.perst ∧
    (logEvent c fl p o st a b s).host.ep.bme = s.host.ep.bme ∧ (logEvent c fl p o st a b s).host.ep.msix = s.host.ep.msix ∧
    (logEvent c fl p o st a b s).host.ep.ide = s.host.ep.ide ∧
    (logEvent c fl p o st a b s).host.ep.lanesOut = s.host.ep.lanesOut ∧
    (logEvent c fl p o st a b s).host.ep.loopback = s.host.ep.loopback ∧
    (logEvent c fl p o st a b s).host.hm.fwVersion = s.host.hm.fwVersion ∧
    (logEvent c fl p o st a b s).host.hm.ready = s.host.hm.ready ∧
    (logEvent c fl p o st a b s).host.hm.failed = s.host.hm.failed ∧
    (logEvent c fl p o st a b s).host.hm.failCause = s.host.hm.failCause ∧
    (logEvent c fl p o st a b s).host.hm.redundancyLost = s.host.hm.redundancyLost ∧
    (logEvent c fl p o st a b s).host.hm.standbyLost = s.host.hm.standbyLost ∧
    (logEvent c fl p o st a b s).host.hm.manager = s.host.hm.manager ∧
    (logEvent c fl p o st a b s).host.hm.cutOff = s.host.hm.cutOff ∧
    (logEvent c fl p o st a b s).host.hm.hmInst = s.host.hm.hmInst ∧
    (logEvent c fl p o st a b s).host.hm.pkgId = s.host.hm.pkgId ∧
    (logEvent c fl p o st a b s).host.hm.joined = s.host.hm.joined ∧
    (logEvent c fl p o st a b s).host.hm.intEnable = s.host.hm.intEnable ∧
    (logEvent c fl p o st a b s).host.hm.timeHi = s.host.hm.timeHi ∧
    (logEvent c fl p o st a b s).host.hm.alive = s.host.hm.alive ∧
    (logEvent c fl p o st a b s).host.hm.faultSticky = s.host.hm.faultSticky ∧
    (logEvent c fl p o st a b s).host.hm.logSeqHi = s.host.hm.logSeqHi ∧
    (logEvent c fl p o st a b s).host.hm.standbyJournal = s.host.hm.standbyJournal ∧
    (logEvent c fl p o st a b s).host.hm.instOut = s.host.hm.instOut ∧
    (logEvent c fl p o st a b s).host.hm.gone = s.host.hm.gone := by
  unfold logEvent
  dsimp only
  repeat' split
  all_goals simp

/-- `logPkg` changes nothing else. -/
@[simp] theorem logPkg_frame (c : Nat) (fl : Bool) (a b : Nat) (s : State) :
    (logPkg c fl a b s).pending = s.pending ∧ (logPkg c fl a b s).now = s.now ∧ (logPkg c fl a b s).free = s.free ∧
    (logPkg c fl a b s).bus = s.bus ∧ (logPkg c fl a b s).host.mbx = s.host.mbx ∧
    (logPkg c fl a b s).host.journal = s.host.journal ∧ (logPkg c fl a b s).host.sb = s.host.sb ∧
    (logPkg c fl a b s).parts = s.parts ∧ (logPkg c fl a b s).images = s.images ∧ (logPkg c fl a b s).stages = s.stages ∧
    (logPkg c fl a b s).x.cores = s.x.cores ∧ (logPkg c fl a b s).x.clusters = s.x.clusters ∧
    (logPkg c fl a b s).x.chm = s.x.chm ∧ (logPkg c fl a b s).x.probeNo = s.x.probeNo ∧
    (logPkg c fl a b s).x.sram = s.x.sram ∧ (logPkg c fl a b s).x.loose = s.x.loose ∧ (logPkg c fl a b s).x.hbm = s.x.hbm ∧
    (logPkg c fl a b s).x.bond = s.x.bond ∧ (logPkg c fl a b s).tiers = s.tiers ∧ (logPkg c fl a b s).health = s.health ∧
    (logPkg c fl a b s).bnd = s.bnd ∧ (logPkg c fl a b s).fab = s.fab ∧ (logPkg c fl a b s).mgr = s.mgr ∧
    (logPkg c fl a b s).ports = s.ports ∧ (logPkg c fl a b s).cont = s.cont ∧ (logPkg c fl a b s).pw = s.pw ∧
    (logPkg c fl a b s).dv = s.dv ∧ (logPkg c fl a b s).pins = s.pins ∧ (logPkg c fl a b s).boot = s.boot ∧
    (logPkg c fl a b s).sec = s.sec ∧ (logPkg c fl a b s).car = s.car ∧ (logPkg c fl a b s).tot = s.tot ∧
    (logPkg c fl a b s).aclk = s.aclk ∧ (logPkg c fl a b s).warmRestarts = s.warmRestarts ∧
    (∀ i, mbxOf (logPkg c fl a b s) i = mbxOf s i) ∧ (∀ i, partOf (logPkg c fl a b s) i = partOf s i) ∧
    (∀ i, coreOf (logPkg c fl a b s) i = coreOf s i) ∧ (∀ i, clusterOf (logPkg c fl a b s) i = clusterOf s i) ∧
    (∀ i, chmOf (logPkg c fl a b s) i = chmOf s i) ∧ (∀ i, portOf (logPkg c fl a b s) i = portOf s i) ∧
    (logPkg c fl a b s).host.ep.linkUp = s.host.ep.linkUp ∧ (logPkg c fl a b s).host.ep.canTrain = s.host.ep.canTrain ∧
    (logPkg c fl a b s).host.ep.perst = s.host.ep.perst ∧ (logPkg c fl a b s).host.ep.bme = s.host.ep.bme ∧
    (logPkg c fl a b s).host.ep.msix = s.host.ep.msix ∧ (logPkg c fl a b s).host.ep.ide = s.host.ep.ide ∧
    (logPkg c fl a b s).host.ep.lanesOut = s.host.ep.lanesOut ∧ (logPkg c fl a b s).host.ep.loopback = s.host.ep.loopback ∧
    (logPkg c fl a b s).host.hm.fwVersion = s.host.hm.fwVersion ∧ (logPkg c fl a b s).host.hm.ready = s.host.hm.ready ∧
    (logPkg c fl a b s).host.hm.failed = s.host.hm.failed ∧ (logPkg c fl a b s).host.hm.failCause = s.host.hm.failCause ∧
    (logPkg c fl a b s).host.hm.redundancyLost = s.host.hm.redundancyLost ∧
    (logPkg c fl a b s).host.hm.standbyLost = s.host.hm.standbyLost ∧
    (logPkg c fl a b s).host.hm.manager = s.host.hm.manager ∧ (logPkg c fl a b s).host.hm.cutOff = s.host.hm.cutOff ∧
    (logPkg c fl a b s).host.hm.hmInst = s.host.hm.hmInst ∧ (logPkg c fl a b s).host.hm.pkgId = s.host.hm.pkgId ∧
    (logPkg c fl a b s).host.hm.joined = s.host.hm.joined ∧ (logPkg c fl a b s).host.hm.intEnable = s.host.hm.intEnable ∧
    (logPkg c fl a b s).host.hm.timeHi = s.host.hm.timeHi ∧ (logPkg c fl a b s).host.hm.alive = s.host.hm.alive ∧
    (logPkg c fl a b s).host.hm.faultSticky = s.host.hm.faultSticky ∧
    (logPkg c fl a b s).host.hm.logSeqHi = s.host.hm.logSeqHi ∧
    (logPkg c fl a b s).host.hm.standbyJournal = s.host.hm.standbyJournal ∧
    (logPkg c fl a b s).host.hm.instOut = s.host.hm.instOut ∧ (logPkg c fl a b s).host.hm.gone = s.host.hm.gone := by
  simp [logPkg]

/-- `hmJournal` changes nothing else. -/
@[simp] theorem hmJournal_frame (ws : List Word) (s : State) :
    (hmJournal ws s).pending = s.pending ∧ (hmJournal ws s).now = s.now ∧ (hmJournal ws s).free = s.free ∧
    (hmJournal ws s).bus = s.bus ∧ (hmJournal ws s).host.hm = s.host.hm ∧ (hmJournal ws s).host.log = s.host.log ∧
    (hmJournal ws s).host.mbx = s.host.mbx ∧ (hmJournal ws s).host.journal = s.host.journal ∧
    (hmJournal ws s).host.ep = s.host.ep ∧ (hmJournal ws s).host.sb = s.host.sb ∧ (hmJournal ws s).parts = s.parts ∧
    (hmJournal ws s).images = s.images ∧ (hmJournal ws s).stages = s.stages ∧ (hmJournal ws s).x.cores = s.x.cores ∧
    (hmJournal ws s).x.clusters = s.x.clusters ∧ (hmJournal ws s).x.chm = s.x.chm ∧
    (hmJournal ws s).x.probeNo = s.x.probeNo ∧ (hmJournal ws s).x.sram = s.x.sram ∧ (hmJournal ws s).x.loose = s.x.loose ∧
    (hmJournal ws s).x.hbm = s.x.hbm ∧ (hmJournal ws s).x.bond = s.x.bond ∧ (hmJournal ws s).tiers = s.tiers ∧
    (hmJournal ws s).health = s.health ∧ (hmJournal ws s).bnd = s.bnd ∧ (hmJournal ws s).fab = s.fab ∧
    (hmJournal ws s).mgr = s.mgr ∧ (hmJournal ws s).ports = s.ports ∧ (hmJournal ws s).cont = s.cont ∧
    (hmJournal ws s).pw = s.pw ∧ (hmJournal ws s).dv = s.dv ∧ (hmJournal ws s).pins = s.pins ∧
    (hmJournal ws s).boot = s.boot ∧ (hmJournal ws s).sec = s.sec ∧ (hmJournal ws s).car = s.car ∧
    (hmJournal ws s).tot = s.tot ∧ (hmJournal ws s).aclk = s.aclk ∧ (hmJournal ws s).warmRestarts = s.warmRestarts ∧
    (∀ i, mbxOf (hmJournal ws s) i = mbxOf s i) ∧ (∀ i, partOf (hmJournal ws s) i = partOf s i) ∧
    (∀ i, coreOf (hmJournal ws s) i = coreOf s i) ∧ (∀ i, clusterOf (hmJournal ws s) i = clusterOf s i) ∧
    (∀ i, chmOf (hmJournal ws s) i = chmOf s i) ∧ (∀ i, portOf (hmJournal ws s) i = portOf s i) := by
  unfold hmJournal
  split <;> simp

/-- `countRead` changes nothing else. -/
@[simp] theorem countRead_frame (n : Nat) (s : State) :
    (countRead n s).pending = s.pending ∧ (countRead n s).now = s.now ∧ (countRead n s).free = s.free ∧
    (countRead n s).out = s.out ∧ (countRead n s).bus = s.bus ∧ (countRead n s).host.hm = s.host.hm ∧
    (countRead n s).host.log = s.host.log ∧ (countRead n s).host.mbx = s.host.mbx ∧
    (countRead n s).host.journal = s.host.journal ∧ (countRead n s).host.ep = s.host.ep ∧
    (countRead n s).host.sb = s.host.sb ∧ (countRead n s).parts = s.parts ∧ (countRead n s).images = s.images ∧
    (countRead n s).stages = s.stages ∧ (countRead n s).x.cores = s.x.cores ∧ (countRead n s).x.clusters = s.x.clusters ∧
    (countRead n s).x.chm = s.x.chm ∧ (countRead n s).x.probeNo = s.x.probeNo ∧ (countRead n s).x.sram = s.x.sram ∧
    (countRead n s).x.loose = s.x.loose ∧ (countRead n s).x.hbm = s.x.hbm ∧ (countRead n s).x.bond = s.x.bond ∧
    (countRead n s).tiers = s.tiers ∧ (countRead n s).health = s.health ∧ (countRead n s).bnd = s.bnd ∧
    (countRead n s).fab = s.fab ∧ (countRead n s).mgr = s.mgr ∧ (countRead n s).ports = s.ports ∧
    (countRead n s).cont = s.cont ∧ (countRead n s).pw = s.pw ∧ (countRead n s).dv = s.dv ∧ (countRead n s).pins = s.pins ∧
    (countRead n s).boot = s.boot ∧ (countRead n s).sec = s.sec ∧ (countRead n s).car = s.car ∧
    (countRead n s).aclk = s.aclk ∧ (countRead n s).warmRestarts = s.warmRestarts ∧
    (∀ i, mbxOf (countRead n s) i = mbxOf s i) ∧ (∀ i, partOf (countRead n s) i = partOf s i) ∧
    (∀ i, coreOf (countRead n s) i = coreOf s i) ∧ (∀ i, clusterOf (countRead n s) i = clusterOf s i) ∧
    (∀ i, chmOf (countRead n s) i = chmOf s i) ∧ (∀ i, portOf (countRead n s) i = portOf s i) := by
  simp [countRead]

/-- `countWrite` changes nothing else. -/
@[simp] theorem countWrite_frame (n : Nat) (s : State) :
    (countWrite n s).pending = s.pending ∧ (countWrite n s).now = s.now ∧ (countWrite n s).free = s.free ∧
    (countWrite n s).out = s.out ∧ (countWrite n s).bus = s.bus ∧ (countWrite n s).host.hm = s.host.hm ∧
    (countWrite n s).host.log = s.host.log ∧ (countWrite n s).host.mbx = s.host.mbx ∧
    (countWrite n s).host.journal = s.host.journal ∧ (countWrite n s).host.ep = s.host.ep ∧
    (countWrite n s).host.sb = s.host.sb ∧ (countWrite n s).parts = s.parts ∧ (countWrite n s).images = s.images ∧
    (countWrite n s).stages = s.stages ∧ (countWrite n s).x.cores = s.x.cores ∧
    (countWrite n s).x.clusters = s.x.clusters ∧ (countWrite n s).x.chm = s.x.chm ∧
    (countWrite n s).x.probeNo = s.x.probeNo ∧ (countWrite n s).x.sram = s.x.sram ∧ (countWrite n s).x.loose = s.x.loose ∧
    (countWrite n s).x.hbm = s.x.hbm ∧ (countWrite n s).x.bond = s.x.bond ∧ (countWrite n s).tiers = s.tiers ∧
    (countWrite n s).health = s.health ∧ (countWrite n s).bnd = s.bnd ∧ (countWrite n s).fab = s.fab ∧
    (countWrite n s).mgr = s.mgr ∧ (countWrite n s).ports = s.ports ∧ (countWrite n s).cont = s.cont ∧
    (countWrite n s).pw = s.pw ∧ (countWrite n s).dv = s.dv ∧ (countWrite n s).pins = s.pins ∧
    (countWrite n s).boot = s.boot ∧ (countWrite n s).sec = s.sec ∧ (countWrite n s).car = s.car ∧
    (countWrite n s).aclk = s.aclk ∧ (countWrite n s).warmRestarts = s.warmRestarts ∧
    (∀ i, mbxOf (countWrite n s) i = mbxOf s i) ∧ (∀ i, partOf (countWrite n s) i = partOf s i) ∧
    (∀ i, coreOf (countWrite n s) i = coreOf s i) ∧ (∀ i, clusterOf (countWrite n s) i = clusterOf s i) ∧
    (∀ i, chmOf (countWrite n s) i = chmOf s i) ∧ (∀ i, portOf (countWrite n s) i = portOf s i) := by
  simp [countWrite]

/-- `hostWrite` changes nothing else. -/
@[simp] theorem hostWrite_frame (fn a : Nat) (bs : List Byte) (s : State) :
    (hostWrite fn a bs s).pending = s.pending ∧ (hostWrite fn a bs s).now = s.now ∧ (hostWrite fn a bs s).free = s.free ∧
    (hostWrite fn a bs s).bus = s.bus ∧ (hostWrite fn a bs s).host.hm = s.host.hm ∧
    (hostWrite fn a bs s).host.log = s.host.log ∧ (hostWrite fn a bs s).host.mbx = s.host.mbx ∧
    (hostWrite fn a bs s).host.journal = s.host.journal ∧ (hostWrite fn a bs s).host.ep = s.host.ep ∧
    (hostWrite fn a bs s).host.sb = s.host.sb ∧ (hostWrite fn a bs s).parts = s.parts ∧
    (hostWrite fn a bs s).images = s.images ∧ (hostWrite fn a bs s).stages = s.stages ∧
    (hostWrite fn a bs s).x.cores = s.x.cores ∧ (hostWrite fn a bs s).x.clusters = s.x.clusters ∧
    (hostWrite fn a bs s).x.chm = s.x.chm ∧ (hostWrite fn a bs s).x.probeNo = s.x.probeNo ∧
    (hostWrite fn a bs s).x.sram = s.x.sram ∧ (hostWrite fn a bs s).x.loose = s.x.loose ∧
    (hostWrite fn a bs s).x.hbm = s.x.hbm ∧ (hostWrite fn a bs s).x.bond = s.x.bond ∧
    (hostWrite fn a bs s).tiers = s.tiers ∧ (hostWrite fn a bs s).health = s.health ∧ (hostWrite fn a bs s).bnd = s.bnd ∧
    (hostWrite fn a bs s).fab = s.fab ∧ (hostWrite fn a bs s).mgr = s.mgr ∧ (hostWrite fn a bs s).ports = s.ports ∧
    (hostWrite fn a bs s).cont = s.cont ∧ (hostWrite fn a bs s).pw = s.pw ∧ (hostWrite fn a bs s).dv = s.dv ∧
    (hostWrite fn a bs s).pins = s.pins ∧ (hostWrite fn a bs s).boot = s.boot ∧ (hostWrite fn a bs s).sec = s.sec ∧
    (hostWrite fn a bs s).car = s.car ∧ (hostWrite fn a bs s).aclk = s.aclk ∧
    (hostWrite fn a bs s).warmRestarts = s.warmRestarts ∧ (∀ i, mbxOf (hostWrite fn a bs s) i = mbxOf s i) ∧
    (∀ i, partOf (hostWrite fn a bs s) i = partOf s i) ∧ (∀ i, coreOf (hostWrite fn a bs s) i = coreOf s i) ∧
    (∀ i, clusterOf (hostWrite fn a bs s) i = clusterOf s i) ∧ (∀ i, chmOf (hostWrite fn a bs s) i = chmOf s i) ∧
    (∀ i, portOf (hostWrite fn a bs s) i = portOf s i) := by
  unfold hostWrite
  split <;> simp

/-- `announce` changes nothing else. -/
@[simp] theorem announce_frame (m : MbxId) (ws : List Word) (s : State) :
    (announce m ws s).pending = s.pending ∧ (announce m ws s).now = s.now ∧ (announce m ws s).free = s.free ∧
    (announce m ws s).bus = s.bus ∧ (announce m ws s).host.hm = s.host.hm ∧ (announce m ws s).host.log = s.host.log ∧
    (announce m ws s).host.mbx = s.host.mbx ∧ (announce m ws s).host.journal = s.host.journal ∧
    (announce m ws s).host.sb = s.host.sb ∧ (announce m ws s).parts = s.parts ∧ (announce m ws s).images = s.images ∧
    (announce m ws s).stages = s.stages ∧ (announce m ws s).x.cores = s.x.cores ∧
    (announce m ws s).x.clusters = s.x.clusters ∧ (announce m ws s).x.chm = s.x.chm ∧
    (announce m ws s).x.probeNo = s.x.probeNo ∧ (announce m ws s).x.sram = s.x.sram ∧
    (announce m ws s).x.loose = s.x.loose ∧ (announce m ws s).x.hbm = s.x.hbm ∧ (announce m ws s).x.bond = s.x.bond ∧
    (announce m ws s).tiers = s.tiers ∧ (announce m ws s).health = s.health ∧ (announce m ws s).bnd = s.bnd ∧
    (announce m ws s).fab = s.fab ∧ (announce m ws s).mgr = s.mgr ∧ (announce m ws s).ports = s.ports ∧
    (announce m ws s).cont = s.cont ∧ (announce m ws s).pw = s.pw ∧ (announce m ws s).dv = s.dv ∧
    (announce m ws s).pins = s.pins ∧ (announce m ws s).boot = s.boot ∧ (announce m ws s).sec = s.sec ∧
    (announce m ws s).car = s.car ∧ (announce m ws s).tot = s.tot ∧ (announce m ws s).aclk = s.aclk ∧
    (announce m ws s).warmRestarts = s.warmRestarts ∧ (∀ i, mbxOf (announce m ws s) i = mbxOf s i) ∧
    (∀ i, partOf (announce m ws s) i = partOf s i) ∧ (∀ i, coreOf (announce m ws s) i = coreOf s i) ∧
    (∀ i, clusterOf (announce m ws s) i = clusterOf s i) ∧ (∀ i, chmOf (announce m ws s) i = chmOf s i) ∧
    (∀ i, portOf (announce m ws s) i = portOf s i) ∧ (announce m ws s).host.ep.linkUp = s.host.ep.linkUp ∧
    (announce m ws s).host.ep.canTrain = s.host.ep.canTrain ∧ (announce m ws s).host.ep.perst = s.host.ep.perst ∧
    (announce m ws s).host.ep.bme = s.host.ep.bme ∧ (announce m ws s).host.ep.msix = s.host.ep.msix ∧
    (announce m ws s).host.ep.ide = s.host.ep.ide ∧ (announce m ws s).host.ep.lanesOut = s.host.ep.lanesOut ∧
    (announce m ws s).host.ep.loopback = s.host.ep.loopback := by
  unfold announce
  split <;> simp

/-- `reply` changes nothing else. -/
@[simp] theorem reply_frame (r : Request) (st : Nat) (ws : List Word) (s : State) :
    (reply r st ws s).pending = s.pending ∧ (reply r st ws s).now = s.now ∧ (reply r st ws s).free = s.free ∧
    (reply r st ws s).bus = s.bus ∧ (reply r st ws s).host.hm = s.host.hm ∧ (reply r st ws s).host.log = s.host.log ∧
    (reply r st ws s).host.journal = s.host.journal ∧ (reply r st ws s).host.sb = s.host.sb ∧
    (reply r st ws s).parts = s.parts ∧ (reply r st ws s).images = s.images ∧ (reply r st ws s).stages = s.stages ∧
    (reply r st ws s).x.cores = s.x.cores ∧ (reply r st ws s).x.clusters = s.x.clusters ∧
    (reply r st ws s).x.chm = s.x.chm ∧ (reply r st ws s).x.probeNo = s.x.probeNo ∧ (reply r st ws s).x.sram = s.x.sram ∧
    (reply r st ws s).x.loose = s.x.loose ∧ (reply r st ws s).x.hbm = s.x.hbm ∧ (reply r st ws s).x.bond = s.x.bond ∧
    (reply r st ws s).tiers = s.tiers ∧ (reply r st ws s).health = s.health ∧ (reply r st ws s).bnd = s.bnd ∧
    (reply r st ws s).fab = s.fab ∧ (reply r st ws s).mgr = s.mgr ∧ (reply r st ws s).ports = s.ports ∧
    (reply r st ws s).cont = s.cont ∧ (reply r st ws s).pw = s.pw ∧ (reply r st ws s).dv = s.dv ∧
    (reply r st ws s).pins = s.pins ∧ (reply r st ws s).boot = s.boot ∧ (reply r st ws s).sec = s.sec ∧
    (reply r st ws s).car = s.car ∧ (reply r st ws s).aclk = s.aclk ∧ (reply r st ws s).warmRestarts = s.warmRestarts ∧
    (∀ i, partOf (reply r st ws s) i = partOf s i) ∧ (∀ i, coreOf (reply r st ws s) i = coreOf s i) ∧
    (∀ i, clusterOf (reply r st ws s) i = clusterOf s i) ∧ (∀ i, chmOf (reply r st ws s) i = chmOf s i) ∧
    (∀ i, portOf (reply r st ws s) i = portOf s i) ∧ (reply r st ws s).host.ep.linkUp = s.host.ep.linkUp ∧
    (reply r st ws s).host.ep.canTrain = s.host.ep.canTrain ∧ (reply r st ws s).host.ep.perst = s.host.ep.perst ∧
    (reply r st ws s).host.ep.bme = s.host.ep.bme ∧ (reply r st ws s).host.ep.msix = s.host.ep.msix ∧
    (reply r st ws s).host.ep.ide = s.host.ep.ide ∧ (reply r st ws s).host.ep.lanesOut = s.host.ep.lanesOut ∧
    (reply r st ws s).host.ep.loopback = s.host.ep.loopback := by
  unfold reply
  dsimp only
  repeat' split
  all_goals simp

/-! Replies (R409, R413). -/

/-- A mailbox holds the reply: its words lie at the start of the response area and its length is given. -/
theorem reply_mbx (r : Request) (st : Nat) (ws : List Word) (s : State) (hd : r.discard = false) (hi : iod0Reach s = true) :
    (mbxOf (reply r st ws s) r.mbx).rsp.take (ws.length + 2) = replyWords r st ws ∧
    (mbxOf (reply r st ws s) r.mbx).rspBytes = 4 * (ws.length + 2) ∧
    (mbxOf (reply r st ws s) r.mbx).st = (if r.mbx = .sideband then .free else .answered) := by
  unfold reply
  dsimp only
  simp [replyWords, hd, hi]

/-- A reply leaves every other mailbox. -/
theorem reply_mbx_ne (r : Request) (st : Nat) (ws : List Word) (s : State) {m : MbxId} (h : r.mbx ≠ m) :
    mbxOf (reply r st ws s) m = mbxOf s m := by
  unfold reply
  dsimp only
  repeat' split
  all_goals simp [mbxOf_modMbx_ne _ _ h]

/-! Taking the head of the journal (R410). -/

/-- The request at the head of the journal is on mailbox `m` with command `cmd`, and the firmware answers. -/
theorem headReq_some {s : State} {m : MbxId} {cmd : Nat} {r : Request} {rest : List Request} (hj : s.host.journal = r :: rest)
    (hm : r.mbx = m) (hc : cmdOf r = cmd) (hg : s.host.hm.gone = false) : headReq s m cmd = some r := by
  simp [headReq, hj, hm, hc, hg]

theorem takeCmd_head {s : State} {m : MbxId} {cmd : Nat} {r : Request} {rest : List Request} (f : Request → State → State)
    (hj : s.host.journal = r :: rest) (hm : r.mbx = m) (hc : cmdOf r = cmd) (hg : s.host.hm.gone = false) :
    takeCmd m cmd f s = f r (modJournal (fun j => j.drop 1) s) := by
  simp [takeCmd, headReq_some hj hm hc hg]

theorem takeSub_head {s : State} {m : MbxId} {cmd sub : Nat} {r : Request} {rest : List Request} (f : Request → State → State)
    (hj : s.host.journal = r :: rest) (hm : r.mbx = m) (hc : cmdOf r = cmd) (hs : subOf r = sub) (hg : s.host.hm.gone = false) :
    takeSub m cmd sub f s = f r (modJournal (fun j => j.drop 1) s) := by
  simp [takeSub, headReq_some hj hm hc hg, hs]

end Sys2Proof.Machine
end

