-- ==== Sys2Proof/WellFormed.lean ====
section
/-! DEFINITION. What a command's operands satisfy beyond their types: message and packet sizes, aligned offsets, ranges
of numbers. -/

namespace Sys2Proof

/-- A packet has the eight header words of R313 and at most 4,096 data bytes (R316); a header word LENGTH names them. -/
def Packet.ok (p : Packet) : Bool := p.hdr.length == 8 && decide (p.data.length ≤ 4096)

/-- A Pilot position names a 64-bit step identifier (R12). -/
def At.ok (a : At) : Bool := decide (a.step < 2 ^ 64)

/-- A step's run event names at most two residue mismatches in one group (R77) and an existing word of a macro (R270). -/
def RunEvent.ok (e : RunEvent) : Bool :=
  decide (e.residue ≤ 2) &&
    match e.parity with
    | none => true
    | some p => decide (p.word < 16384) && match p.column with
      | none => true
      | some c => decide (c < 33)

/-- A mailbox command names a mailbox of the physical function, of a virtual function, or the sideband channel; DMA bytes,
where present, are whole words of at most 1 GiB (R131). -/
def dmaOk (d : Option (List Word)) : Bool :=
  match d with
  | none => true
  | some ws => decide (ws.length ≤ 2 ^ 28)

/-- Well-formedness of a command. -/
def WellFormed : Instr → Bool
  | .mbxPost _ len => decide (len < 2 ^ 9)
  | .registerWrite _ bar2 off _ => decide (off % 4 = 0) && decide (off < if bar2 then 32768 else 16384)
  | .imageLoad _ d | .lcKeys _ d | .fwWrite _ d | .weightsBegin _ d => dmaOk d
  | .weightsShard _ d _ => match d with
    | none => true
    | some bs => decide (bs.length ≤ 16777216)
  | .stepSubmit _ d i => dmaOk d && match i with
    | none => true
    | some bs => decide (bs.length < 2 ^ 32)
  | .sidebandMailbox ws => decide (ws.length ≤ 64)
  | .pldmSensorUpdate rs => rs.length == 10
  | .sramScrubDone n bad => decide (n < 0x8000 + 256 * 48) && bad.all fun w => decide (w < 16384)
  | .pass a e | .quant a e | .vecAdd a e | .vecMul a e | .vecRowScale a e | .vecRmsNorm a e | .vecSiluMul a e
  | .vecGelu a e | .vecMerge a e | .vecConvert a e | .attendFull a e | .attendPartial a e | .attendMerge a e
  | .routeSelect a e | .routeGather a e | .routeReturn a e | .routeCombine a e | .routePush a e | .move a e =>
    a.ok && e.ok
  | .nop a | .appendWaitTimeout a | .routeSeal a | .windowWait a | .windowRelease a | .barrier a | .expand a
  | .post a | .await a | .endStep a | .sealHangTimeout a => a.ok
  | .streamLanded _ _ bad => bad.all fun i => decide (i < 2 ^ 18)
  | .hbmReadDone _ row _ _ => decide (row < 786432)
  | .qpushEntry p | .qpushFragment p | .qpushClose p | .journalRelease p | .load p | .store p | .atomic p | .bulk p
  | .serviceShardRead p | .serviceMirrorWrite p | .serviceMirrorFetch p | .serviceMirrorAck p | .loadResp p | .ack p
  | .atomicResp p | .error p | .serviceResp p | .heartbeat p | .teardown p | .teardownAck p | .jobMap p
  | .jobMapAck p | .join p | .joinReply p | .manager p | .leave p | .stateCopy p | .routeTable p
  | .packetForward p | .stateCopyEcho p => p.ok
  | .returnRowArrive _ _ step _ kind off data =>
    decide (step < 2 ^ 64) && decide (kind < 16) && decide (off < 2 ^ 52) && decide (data.length ≤ 65536)
  | .flitReceive _ bs | .controlFlitReceive _ bs => bs.length == 272
  | .thermalSample ts => ts.all fun t => decide (t.1 < 6 ∨ (16 ≤ t.1 ∧ t.1 < 32))
  | .hardRepairsDone rs => rs.all fun r => decide (r.1 < 512 ∧ r.2 < 786432)
  | .powerControlInterval _ ds _ => ds.length == 3
  | .energySample _ _ _ qs => qs.all fun q => decide (q.1 < 768)
  | .stampedeWaveRelease _ step _ | .barrierHangTimeout _ step _ => decide (step < 2 ^ 64)
  | _ => true

end Sys2Proof
end

