-- ==== Sys2Proof/Tests/Slice0.lean ====
section
/-! SUPPORT. Tests. First, terms that the well-formedness check refuses. Then, for each statement, states and operands that meet
its hypotheses together, clause by clause, at the edges of their ranges; and small one-step tests whose expected values are
worked out from the manual's rules. -/

namespace Sys2Proof.Tests

open Sys2Proof.Machine Sys2Proof.Claim

set_option Elab.async false

/-! Ill-formed commands, one for each check. -/

def pk (hdr : List Word) (data : List Byte) : Packet := { plane := 0, hdr, data }
def at0 : At := { part := 0, cluster := 0, step := 1 }
def late : At := { part := 0, cluster := 0, step := 2 ^ 64 }
def quiet : RunEvent := RunEvent.quiet
/-- Three residue mismatches in one group: R77 stops at two. -/
def thrice : RunEvent := { residue := 3, parity := none }
/-- A parity failure in column 33: a word has 33 columns. -/
def column33 : RunEvent := { residue := 0, parity := some { macroNo := 0, word := 0, confirmed := true, column := some 33 } }
/-- A parity failure in a word that no macro has. -/
def word16384 : RunEvent := { residue := 0, parity := some { macroNo := 0, word := 16384, confirmed := true, column := none } }

theorem test_wellformed_post : WellFormed (.mbxPost (.pf 0) 512) = false ∧ WellFormed (.mbxPost (.pf 0) 256) = true := by decide
theorem test_wellformed_register_write :
    WellFormed (.registerWrite .pf false 2 0) = false ∧ WellFormed (.registerWrite .pf false 16384 0) = false ∧
    WellFormed (.registerWrite .pf true 32768 0) = false ∧ WellFormed (.registerWrite .pf true 32764 0) = true := by decide
theorem test_wellformed_dma (ws : List Word) (h : 2 ^ 28 < ws.length) (m : MbxId) (k : Option (List Byte)) :
    WellFormed (.imageLoad m (some ws)) = false ∧ WellFormed (.lcKeys m (some ws)) = false ∧
    WellFormed (.fwWrite m (some ws)) = false ∧ WellFormed (.weightsBegin m (some ws)) = false ∧
    WellFormed (.stepSubmit m (some ws) k) = false := by
  have e : decide (ws.length ≤ 2 ^ 28) = false := decide_eq_false (Nat.not_le.mpr h)
  refine ⟨e, e, e, e, ?_⟩
  show (decide (ws.length ≤ 2 ^ 28) && _) = false
  rw [e]; rfl
theorem test_wellformed_dma_bytes (bs : List Byte) (h : 2 ^ 32 ≤ bs.length) (m : MbxId) :
    WellFormed (.weightsShard m (some bs) true) = false ∧ WellFormed (.stepSubmit m none (some bs)) = false := by
  simp [WellFormed, dmaOk]; omega
theorem test_wellformed_messages : WellFormed (.sidebandMailbox (List.replicate 65 0)) = false ∧
    WellFormed (.pldmSensorUpdate []) = false ∧ WellFormed (.flitReceive 0 []) = false ∧ WellFormed (.controlFlitReceive 0 []) = false ∧
    WellFormed (.powerControlInterval 0 [1, 2] []) = false := by decide
theorem test_wellformed_memories : WellFormed (.sramScrubDone (0x8000 + 256 * 48) []) = false ∧
    WellFormed (.sramScrubDone 0 [16384]) = false ∧ WellFormed (.hbmReadDone 0 786432 (.stepData 0 1) .clean) = false ∧
    WellFormed (.hardRepairsDone [(512, 0)]) = false ∧ WellFormed (.thermalSample [(6, 30)]) = false ∧
    WellFormed (.energySample 0 0 [] [(768, 0)]) = false := by decide
theorem test_wellformed_positions : WellFormed (.nop late) = false ∧ WellFormed (.endStep late) = false ∧
    WellFormed (.pass late quiet) = false ∧ WellFormed (.stampedeWaveRelease 0 (2 ^ 64) 0) = false ∧
    WellFormed (.returnRowArrive 0 0 1 0 16 0 []) = false := by decide
theorem test_wellformed_events : WellFormed (.pass at0 thrice) = false ∧ WellFormed (.move at0 column33) = false ∧
    WellFormed (.quant at0 word16384) = false ∧ WellFormed (.quant at0 quiet) = true ∧
    WellFormed (.streamLanded 0 0 [262144]) = false := by decide
theorem test_wellformed_packets : WellFormed (.load (pk (List.replicate 7 0) [])) = false ∧
    WellFormed (.heartbeat (pk [] [])) = false := by decide
theorem test_wellformed_packet_data (bs : List Byte) (h : 4096 < bs.length) : WellFormed (.store (pk (List.replicate 8 0) bs)) = false := by
  simp [WellFormed, Packet.ok, pk, Nat.not_le.mpr h]

/-! States that the tests start from. -/

/-- A package that serves its host: firmware ready, rails up, link up, Bus Master Enable set. -/
def served : State :=
  { State.reset with
    host := { State.reset.host with
      hm := { ready := true, intEnable := 15 }
      ep := { linkUp := true, canTrain := true, perst := true, bme := [0, 1, 32] } }
    pw := { rails := true }
    pins := { vinOk := true, pkgRst := true, islOk := true }
    boot := { stage := .ready, pllOk := true, booted := some false } }

/-- A request of a command on mailbox 0 of the physical function, with its argument words. -/
def req (code part : Nat) (args : List Nat) : Request :=
  { mbx := .pf 0, words := w32 (code + 0x77 * 65536) :: w32 part :: args.map w32, bytes := 4 * (2 + args.length) }

/-- `s` with `r` at the head of its journal. -/
def posted (r : Request) (s : State) : State := { s with host := { s.host with journal := [r] } }

/-! The step, the queue and the invariants. -/

theorem witness_IdleStepIsOneTick :
    (State.reset.pending = [] ∧ State.reset.boot.stage = .unpowered) ∧
    (let s := modBoot (fun b => { b with stage := .island }) State.reset
     s.pending = [] ∧ s.boot.stage ≠ .unpowered ∧ firmwareRuns s = false) ∧ served.pending = [] := by decide
/-- Memory with a listed byte, a record in each ring, a total at the top of its range. -/
def full : State :=
  { served with
    x := { served.x with sram := [(5, 1)], hbm := [(7, 255)], bond := [(0, 2)] }
    host := { served.host with log := { main := [{}], prot := [{}], coldStarts := 0xFFFF } }
    tot := [(tHost, 2 ^ 64 - 1)], pending := [.pkgRstAssert 10000] }
theorem witness_StepKeepsMemoryForm : MemOk full ∧ ∃ t, step full = .next t := ⟨by unfold MemOk; decide, _, rfl⟩
theorem witness_StepKeepsBounds : RingsOk full ∧ CountsOk full ∧ ∃ t, step full = .next t :=
  ⟨by unfold RingsOk; decide, by unfold CountsOk; decide, _, rfl⟩
theorem witness_RetiredForever :
    let s := modSec (fun x => { x with lifecycle := 4 }) full
    LifeOk s ∧ Retired s ∧ ∃ t, step s = .next t :=
  ⟨⟨by decide, fun n r h => by simp [modSec, full, served, State.reset] at h⟩, by unfold Retired; decide, _, rfl⟩
theorem witness_StepKeepsFuses : RollbackOk (modBoot (fun b => { b with rollback := 63 }) full) ∧
    ∃ t, step (modBoot (fun b => { b with rollback := 63 }) full) = .next t := ⟨by unfold RollbackOk; decide, _, rfl⟩
theorem witness_CommandsOnlyAddOutputs : ∃ t, exec (.detectBurstTimer 0) (modPort 0 (fun p => { p with st := .detect }) served) = .next t ∧
    t.out = [.burst 0] := ⟨_, rfl, by decide⟩

/-! The host interface. -/

/-- `ready` with a log.read written in request area 0. -/
def written : State := modMbx (.pf 0) (fun b => { b with req := [0x0602] ++ List.replicate 63 0 }) served
theorem witness_MailboxPostAndAck :
    (written.host.ep.linkUp = true ∧ iod0Reach written = true ∧ (mbxOf written (.pf 0)).st = .free ∧ written.host.hm.gone = false ∧
      postStatus written (posting written (.pf 0) 32) = 0) ∧
    (let s := modMbx (.pf 0) (fun b => { b with st := .answered }) written
     s.host.ep.linkUp = true ∧ iod0Reach s = true ∧ (mbxOf s (.pf 0)).st ≠ .free ∧ (mbxOf s (.pf 0)).st = .answered ∧ bitOf 1 0 = true ∧ bitOf 0 0 = false) := by
  decide +kernel
theorem witness_LowReadsLatchHigh :
    (let s := { served with now := 2 ^ 64 - 1 }; s.now < 2 ^ 64) ∧
    (let s := modLog (fun l => { l with next := 2 ^ 48 - 1, coldStarts := 0xFFFF }) served
     s.host.log.next < 2 ^ 48 ∧ s.host.log.coldStarts ≤ 0xFFFF) := by decide
theorem witness_RegisterWrites :
    (let s := modMbx (.pf 7) (fun b => { b with req := List.replicate 64 0 }) served
     s.host.ep.linkUp = true ∧ (63 : Nat) < 64 ∧ (mbxOf s (.pf 7)).st = .free ∧ (mbxOf s (.pf 7)).req.length = 64) ∧
    (0xFFF : Nat) ∉ [0x0018, 0x001C] ∧ (0xFFF : Nat) < 0x1000 ∧ 0x4000 ≤ (0x4000 : Nat) ∧ State.reset.host.ep.linkUp = false := by decide
theorem witness_InterruptsAreRaisedOnce :
    (let s := modHm (fun h => { h with intStatus := 1 }) served
     s.host.hm.intStatus.getLsbD 0 = true ∧ s.host.hm.intStatus.getLsbD 3 = false ∧ s.host.hm.intEnable.getLsbD 3 = true ∧
     s.host.ep.linkUp = true ∧ bitOf (tgetD s.host.ep.msix (1024 * 32 + 11) {}).ctrl 0 = true) ∧
    (let s := modEp (fun e => { e with msix := [(1024 * 32 + 11, { ctrl := 0 })] }) served
     s.host.hm.intStatus.getLsbD 3 = false ∧ s.host.hm.intEnable.getLsbD 3 = true ∧ s.host.ep.linkUp = true ∧
     bitOf (tgetD s.host.ep.msix (1024 * 32 + 11) {}).ctrl 0 = false ∧ 32 ∈ s.host.ep.bme) ∧
    (State.reset.host.hm.intEnable.getLsbD 0 = false) := by decide
theorem witness_ReplyForm : (0xFFFF : Nat) < 2 ^ 16 ∧ (req 0x0602 31 []).discard = false ∧ iod0Reach served = true := by
  decide
theorem witness_TagIsNeverInterpreted : (∃ w ws, (req 0x0602 31 []).words = w :: ws) ∧ (0xFFFF : Nat) < 2 ^ 16 := ⟨⟨_, _, rfl⟩, by decide⟩
theorem witness_NotReadyRefuses :
    let s := modHm (fun h => { h with ready := false }) served
    let ok := fun (r : Request) => (s.host.hm.ready = false ∨ s.host.hm.failed = true) ∧ s.boot.stage ≠ .recovery ∧ s.boot.stage ≠ .retired ∧
      r.bytes % 4 = 0 ∧ 8 ≤ r.bytes ∧ r.bytes ≤ 256 ∧ cmdOf r ∈ commandCodes ∧ functionStatus r = 0 ∧ partitionStatus r = 0 ∧
      argumentStatus r = 0 ∧ s.car.run = none
    (ok (req 0x0602 0 [0, 0, 0, 0]) ∧ cmdOf (req 0x0602 0 []) ∈ [0x0601, 0x0602, 0x0701, 0x0801, 0x0A01]) ∧
    (ok { req 0x0202 0 (List.replicate 62 0) with bytes := 256 } ∧
      cmdOf (req 0x0202 0 []) ∉ [0x0601, 0x0602, 0x0701, 0x0801, 0x0A01]) := by decide +kernel
/-! A key of the tests, and what it signs: a manifest, a stage image, an owner key table, a firmware image and an authorisation.
The private key is 0x1234567890ABCDEF1234567890ABCDEF; the signatures are ECDSA over P-256 (R480). -/

/-- The public key, x before y, each least significant word first. -/
def keyWords : List Word :=
  [0x819D8C65, 0xFFEC0A29, 0x7A08A116, 0xA50E42D5, 0x99D927C1, 0xD92324D0, 0x147CC102, 0xF9EBE464] ++
  [0xD4B7EEE, 0x1C938493, 0x9BF8E943, 0x3C859AB6, 0xADD10312, 0x6A0C1D67, 0x2888902A, 0x70BAF7D1]
def key : List Byte := bytesOfWords keyWords
/-- Its SHA-256. -/
def keyId : List Word :=
  [0xAD0F3443, 0x17C7659A, 0x7726E533, 0x39638A9B, 0xD8BD1018, 0xB5CD1B1B, 0x65E25862, 0x2E6B5B0E]

/-- A signature section (R480): the key class, and r before s. -/
def signature (cls : Nat) (rs : List Word) : List Word := [0x47534C56, w32 (1 + 256 * cls)] ++ keyId ++ rs ++ List.replicate 6 0

/-- An owner key table of version 1 with the key as root and as its one key (R482). -/
def tableBody : List Word := [1, 1] ++ keyWords ++ List.replicate 6 0 ++ keyWords
/-- A manifest of two stripes: a base shard of 64 bytes (1 to 64 in turn) and an empty one; version 5 (R278). -/
def shardData : List Byte := (List.range 64).map fun i => b8 (i + 1)
def shardHash : List Word :=
  [0x84ECA720, 0xE17F4F68, 0x2737CB24, 0x4A7349D0, 0x2FDAB7B0, 0xBCAFFC52, 0xCF9E98EF, 0xB871ED9]
def manBody : List Word := [0x574D4C56, 1, 384, 2, 5, 0, 0, 0] ++ List.replicate 8 0xABCD ++ List.replicate 16 0 ++
  [1, 0, 0, 64, 0, 0, 0, 0] ++ shardHash ++ List.replicate 16 0
/-- Its digest (R279). -/
def manDigest : List Word :=
  [0x1EF0BE6F, 0x1A18721A, 0x5F37EF29, 0x3F4F3ABE, 0xDCE2458A, 0x64DBCED7, 0x635BBF1A, 0x6982CB18]
/-- A stage image of one operation (R131, R132): cluster 0 alone runs a list of NOP and END_STEP; no restore entry; its needs are
2 MiB of data, of which 1 MiB for the input journal twice, and 1 MiB of keys and values. -/
def imgBody : List Word :=
  [0x53474C56, 1, 1280, 5, 9, 1] ++ manDigest ++ [0, 0] ++
  [1, 192, 768, 48, 2, 960, 20, 1, 8, 1024, 32, 1, 0x0A, 1088, 32, 1, 0x0F, 1152, 128, 1] ++ List.replicate 12 0 ++
  [0x0000FF01, 0, 0, 0] ++ (List.replicate 47 ([0x0000FF00, 0, 0, 0] : List Word)).flatten ++
  [4, 0x0100, 0x030D, 0, 0] ++ List.replicate 11 0 ++ List.replicate 16 0 ++ [0, 2, 1, 0, 0, 0, 0, 1] ++ List.replicate 8 0
/-- A firmware image of SVN 2 (R483). -/
def fwHead : List Word := [0x57464C56, 7, 2, 384] ++ keyWords

/-- What the tests sign, and the signed tables. -/
def keyTable : List Word := tableBody ++ signature 2 (
    [0x1F21921D, 0x488A9BC7, 0x4B2E793C, 0x1AE3A905, 0x4486502E, 0xF18F52E, 0x10028C18, 0xC83FB313] ++
    [0xF5129673, 0xF8404952, 0x2417B924, 0xE0FE1E98, 0x460DA892, 0x746E00F1, 0x19DEE011, 0x54ADDB15])
def man : List Word := manBody ++ signature 3 (
    [0x87BA25F8, 0xB6897F18, 0x1F957647, 0x5405DE, 0x1584B22E, 0x2693B338, 0xA4C49B25, 0x1263CC19] ++
    [0xBDB7D254, 0xB27F3A57, 0xD8F6F907, 0xFA428A14, 0x76B5C1F2, 0x2061A185, 0xFD5996DD, 0xA1D9DFE3])
def img : List Word := imgBody ++ signature 3 (
    [0xB01500D5, 0x80F008F0, 0xD0505013, 0x6EAE2BE1, 0xBD1584EC, 0xACD516BA, 0xE03EB03C, 0xB9FE8CD7] ++
    [0xAEFE701B, 0xF47AF014, 0x7C497AEC, 0x208CEFE3, 0xE5A8472B, 0x5C0CCB5A, 0xB884C29D, 0x5E5A2018])
def fwBody : List Word := fwHead ++ signature 1 (
    [0xC58BAC71, 0x55716C94, 0x438AD97A, 0x1B028894, 0x50E88B26, 0xD89A5179, 0xA4E19CBA, 0x69BF222] ++
    [0xED74CD64, 0xB18869D5, 0x3E838A99, 0x5A3B291A, 0x39D0D7FE, 0x60F73A4C, 0xB7BE870A, 0xB67A46FB]) ++ List.replicate 12 0
def fw : List Word := fwBody ++ signature 1 (
    [0x81840606, 0xD435DC87, 0x2176A6B3, 0x830994F4, 0x9D70846, 0xCC34C4C4, 0xB3FDEEEC, 0x8019965] ++
    [0x6B010C8A, 0x3221F29B, 0x83075282, 0xCA990F6A, 0x96124199, 0xB971AC63, 0xF5DDB7E6, 0x749489AE])
/-- A request of lc.set with the authorisation of SUB 4 and of SUB 5, over serial number 0, the nonce of 32 zero bytes and SUB (R495). -/
def unsealAuth : List Word := keyWords ++ 
  [0xC5B08ABC, 0x54A35758, 0xCE641115, 0xEC754A7D, 0xF5B44F50, 0x88A49E63, 0x2A773DCC, 0x9C5935FC] ++
  [0x3080A585, 0x21826057, 0xCC040525, 0x2EA96850, 0x16334EB3, 0x859F742B, 0xFACDFBA5, 0xD5E3F168]
def returnAuth : List Word := keyWords ++ 
  [0xB5D311D1, 0x99B33E79, 0xF86D6191, 0x2D5A7A5, 0x1AE146A9, 0x9002D052, 0x4B78B4D4, 0x4313876E] ++
  [0x9D864ED, 0x4011D871, 0x874F5541, 0xBA99781F, 0xCC9D4DB2, 0xA1FF02A6, 0x179B57C, 0x5093C2A8]

/-- A Sealed package that serves, with its owner's keys and the manifest, whose shard is stored. -/
def sealedUp : State :=
  { served with
    sec := { lifecycle := 2, keyTable := keyTable, ownerRoot := some (bytesOfWords keyId), certified := true, chain := List.replicate 300 0x30 }
    bnd := { manifest := man, st := .complete, bitmap := [0, 1], sealedVersion := 5, everSealed := true }
    x := { served.x with bond := shardData.zipIdx.map fun e => (e.2, e.1) } }
/-! Partitions, images, configurations and steps. -/

/-- A record that claims cluster 0 and names image 3 (R380). -/
def rec0 : List Word :=
  [0x10, 0, 1, 0, 0, 0, 0xFFFF, 256] ++ List.replicate 22 0 ++ [0, 2, 33, 0, 0, 0, 0, 0, 3] ++ List.replicate 17 0
/-- The same, placed: image cluster 0 at package cluster 0. -/
def rec1 : List Word := setAt rec0 40 0x80
/-- The image is loaded under handle 3, and partition 0 serves it. -/
def serving : State :=
  { sealedUp with
    images := [(3, { words := img })]
    stages := [{ slot := 0, stageId := 9, digest := manDigest, complete := true }]
    parts := [(0, { cfg := { st := .serving, ebb := rec1, swapAddr := 4096, swapMib := 1 } })] }
def withRun (f : PartRun → PartRun) : State := modRun 0 f serving

theorem witness_PartitionOpenAndClose :
    (let s := posted (req 0x0101 31 [4096, 0, 1]) sealedUp
     Heads s (.pf 0) 0x0101 (req 0x0101 31 [4096, 0, 1]) ∧ (partOf s (partArg (req 0x0101 31 [4096, 0, 1]))).cfg.st = .closed ∧
      dwordAt (req 0x0101 31 [4096, 0, 1]).words 2 % 4096 = 0) ∧
    (let s := posted (req 0x0102 0 []) sealedUp
     Heads s (.pf 0) 0x0102 (req 0x0102 0 []) ∧ flying s (partArg (req 0x0102 0 [])) = [] ∧
      (partOf s (partArg (req 0x0102 0 []))).cfg.st = .closed) ∧
    (let s := posted (req 0x0102 0 []) serving
     Heads s (.pf 0) 0x0102 (req 0x0102 0 []) ∧ flying s (partArg (req 0x0102 0 [])) = [] ∧
      (partOf s (partArg (req 0x0102 0 []))).cfg.st ≠ .closed) ∧
    (let s := posted (req 0x0102 0 []) (withRun fun r => { r with steps := [{ id := 1, st := .admitted }] })
     Heads s (.pf 0) 0x0102 (req 0x0102 0 []) ∧ flying s (partArg (req 0x0102 0 [])) ≠ []) := by
  unfold Heads; decide +kernel

/-- image.load of the test image from host address 64 x 2^30. -/
def loadReq : Request := req 0x0201 0 [0, 16, 1280, 0]
theorem witness_ImageLoadAndFree :
    (let s := posted loadReq sealedUp
     Heads s (.pf 0) 0x0201 loadReq ∧ sealedOk s = true ∧ dwordAt loadReq.words 2 % 64 = 0 ∧ dmaOpen s 32 = true ∧
      imageBad s (bitOf (argOf loadReq 3) 0) (img.take ((argOf loadReq 2).toNat / 4)) = none ∧
      storeBytes s + 4 * (img.take ((argOf loadReq 2).toNat / 4)).length ≤ 384 * 2 ^ 20 ∧ s.images.length < 64) ∧
    (let s := posted loadReq sealedUp
     Heads s (.pf 0) 0x0201 loadReq ∧ sealedOk s = true ∧ dwordAt loadReq.words 2 % 64 = 0 ∧ dmaOpen s 32 = true ∧
      imageBad s (bitOf (argOf loadReq 3) 0) ((setAt img 0 0).take ((argOf loadReq 2).toNat / 4)) = some (0x0004, 0, 0)) ∧
    (let s := posted (req 0x0202 0 [3]) { serving with parts := [] }
     Heads s (.pf 0) 0x0202 (req 0x0202 0 [3]) ∧ (tget s.images (fld (argOf (req 0x0202 0 [3]) 0) 0 6)).isSome = true ∧
      imageUsed s (fld (argOf (req 0x0202 0 [3]) 0) 0 6) = false) ∧
    (let s := posted (req 0x0202 0 [3]) serving
     Heads s (.pf 0) 0x0202 (req 0x0202 0 [3]) ∧ (tget s.images (fld (argOf (req 0x0202 0 [3]) 0) 0 6)).isSome = true ∧
      imageUsed s (fld (argOf (req 0x0202 0 [3]) 0) 0 6) = true) := by
  unfold Heads; decide +kernel

/-- config.stage of a record, with the flag word given. -/
def stageReq (flags : Nat) (b : List Word) : Request :=
  { mbx := .pf 0, words := [0x0301, 0, w32 flags] ++ b, bytes := 236 }
theorem witness_ConfigStaging :
    (let s := posted (stageReq 0 rec0) serving; let r := stageReq 0 rec0
     Heads s (.pf 0) 0x0301 r ∧ bitOf (argOf r 0) 0 = false ∧ rec0 = slice r.words 3 56 ∧ sealedOk s = true ∧
      (partOf s (partArg r)).cfg.shadow ≠ .staged ∧ (partOf s (partArg r)).cfg.shadow ≠ .armed ∧ recRingLayout rec0 < 2 ∧
      recordOk rec0 = true ∧ claimStatus s (partArg r) rec0 = 0 ∧ recImageValid rec0 = true ∧
      recImg s rec0 = some { words := img } ∧ imageFits s (partArg r) img rec0 = (0, 0, 0) ∧ relocate s (partArg r) img rec0 = some rec1) ∧
    (let b := setAt rec0 0 0; let s := posted (stageReq 1 b) serving; let r := stageReq 1 b
     Heads s (.pf 0) 0x0301 r ∧ bitOf (argOf r 0) 0 = true ∧ b = slice r.words 3 56 ∧ sealedOk s = true ∧
      (partOf s (partArg r)).cfg.shadow ≠ .staged ∧ (partOf s (partArg r)).cfg.shadow ≠ .armed ∧ recRingLayout b < 2 ∧
      recordOk b = true ∧ claimStatus s (partArg r) b = 0 ∧ recImageValid b = false ∧ s.cont.setParts.filter (· != partArg r) = []) := by
  unfold Heads; decide +kernel

/-- Partitions 0 and 31 with a shadow record each, that claims no cluster of another. -/
def shadowed (sh : Shadow) : State :=
  modCfg 31 (fun c => { c with st := .opened, shadow := sh, linked := [0, 31] })
    (modCfg 0 (fun c => { c with flood := setAt rec1 38 3, shadow := sh, linked := [0, 31] }) serving)
theorem witness_ConfigSwapping :
    (let r := req 0x0302 0 [0x80000001, 0]; let s := posted r (shadowed .ready)
     Heads s (.pf 0) 0x0302 r ∧ bitOf (argOf r 1) 0 = false ∧ (∀ q ∈ bitmapOf (argOf r 0), (partOf s q).cfg.shadow = .ready) ∧
      bitmapOf (argOf r 0) = [0, 31] ∧ swapOverlaps s (bitmapOf (argOf r 0)) = false ∧
      (∀ q ∈ bitmapOf (argOf r 0), swapBlocked s q = false)) ∧
    (let r := req 0x0302 0 [1, 0]; let s := posted r (shadowed .ready)
     Heads s (.pf 0) 0x0302 r ∧ bitOf (argOf r 1) 0 = false ∧ bitmapOf (argOf r 0) = [0] ∧ (partOf s 0).cfg.shadow = .ready ∧
      swapOverlaps s [0] = false ∧ swapBlocked s 0 = false ∧ flying s 0 = []) ∧
    (let r := req 0x0302 0 [1, 0]
     let s := posted r (modRun 0 (fun q => { q with steps := [{ id := 1, st := .admitted }] }) (shadowed .ready))
     Heads s (.pf 0) 0x0302 r ∧ bitOf (argOf r 1) 0 = false ∧ bitmapOf (argOf r 0) = [0] ∧ (partOf s 0).cfg.shadow = .ready ∧
      swapOverlaps s [0] = false ∧ swapBlocked s 0 = false ∧ flying s 0 ≠ []) ∧
    (let r := req 0x0302 0 [1, 1]; let s := posted r (shadowed .staged)
     Heads s (.pf 0) 0x0302 r ∧ bitOf (argOf r 1) 0 = true ∧ (∀ q ∈ bitmapOf (argOf r 0), (partOf s q).cfg.shadow = .staged)) := by
  unfold Heads; decide +kernel

theorem witness_ConfigSetAndRead :
    (let r := req 0x0303 0 [35, 0x1FF, 256]; let s := posted r serving
     Heads s (.pf 0) 0x0303 r ∧ (argOf r 0).toNat = 35 ∧ 35 ∈ [33, 34, 35] ∧ argOf r 1 &&& ~~~ unpairedBits 35 = 0 ∧
      (wordAt (setRecWord (bank s (partArg r)) 35 (argOf r 1) (argOf r 2)) 35).toNat ≤ 256) ∧
    (let r := req 0x0303 0 [38, 0xFF, 1]; let s := posted r serving
     Heads s (.pf 0) 0x0303 r ∧ (argOf r 0).toNat = 38 ∧ 38 < 56 ∧ 38 ∉ [33, 34, 35] ∧ argOf r 1 ≠ 0 ∧
      argOf r 1 &&& ~~~ namedBits 38 = 0) ∧
    (let r := req 0x0304 0 [2]; let s := posted r serving
     Heads s (.pf 0) 0x0304 r ∧ fld (argOf r 0) 0 2 ≠ 3) := by
  unfold Heads; decide +kernel

/-- step.submit of step 1 with one sequence and 64 input bytes; the next step is 1. -/
def submitReq (id : Nat) : Request := req 0x0401 0 [id, 0, 1, 0, 0, 0, 0, 64, 64, 0, 4096, 128, 0, 0]
def seqRec : List Word := [7, 4096, 16777216, 0]
def input64 : List Byte := List.replicate 64 1
theorem witness_StepSubmission :
    (let r := submitReq 2; let s := posted r serving
     Heads s (.pf 0) 0x0401 r ∧ s.pw.st = .run ∧ submitGate s 0 = 0 ∧ fld (argOf r 2) 16 5 ∉ [1, 2, 3, 4] ∧
      dwordAt r.words 5 % 16 = 0 ∧ dwordAt r.words 7 % 64 = 0 ∧ dwordAt r.words 10 % 64 = 0 ∧ dwordAt r.words 13 % 64 = 0 ∧
      (partOf s 0).run.last + 1 < dwordAt r.words 2) ∧
    (let r := submitReq 1; let s := posted r (withRun fun q => { q with last := 1 })
     Heads s (.pf 0) 0x0401 r ∧ s.pw.st = .run ∧ submitGate s 0 = 0 ∧ fld (argOf r 2) 16 5 ∉ [1, 2, 3, 4] ∧
      dwordAt r.words 5 % 16 = 0 ∧ dwordAt r.words 7 % 64 = 0 ∧ dwordAt r.words 10 % 64 = 0 ∧ dwordAt r.words 13 % 64 = 0 ∧
      dwordAt r.words 2 ≤ (partOf s 0).run.last) ∧
    (let r := submitReq 1; let s := posted r serving
     Heads s (.pf 0) 0x0401 r ∧ 0 = partArg r ∧ s.pw.st = .run ∧ submitGate s 0 = 0 ∧ fld (argOf r 2) 16 5 ∉ [1, 2, 3, 4] ∧
      dwordAt r.words 5 % 16 = 0 ∧ dwordAt r.words 7 % 64 = 0 ∧ dwordAt r.words 10 % 64 = 0 ∧ dwordAt r.words 13 % 64 = 0 ∧
      dwordAt r.words 2 = (partOf s 0).run.last + 1 ∧ fld (argOf r 2) 0 16 = 1 ∧ (argOf r 7).toNat = 64 ∧ (accepted s 0).length < 64 ∧
      dmaOpen s 0 = true ∧ input64.length = 64 ∧ seqArgsClean 1 seqRec = true ∧
      pairwise (fun (x y : SeqArg) => x.1 != y.1) (seqArgs 1 seqRec) = true ∧ outBytes s 0 ≤ (argOf r 10).toNat ∧
      entryBytes 64 ≤ ringBytes s 0 ∧ (∀ x ∈ seqArgs 1 seqRec, seqStatus s 0 x = 0) ∧ activeHolder s = none ∧
      relPending s 0 1 = false ∧ ringPlace s 0 (entryBytes 64) = some 0 ∧
      (openAll 0 (seqArgs 1 seqRec) (countRead 64 (countRead (16 * 1) (taken s)))).isSome = true) := by
  unfold Heads; decide +kernel

theorem witness_StepQueryAndAbort :
    (let r := req 0x0402 0 [1, 0]; let s := posted r (withRun fun q => { q with steps := [{ id := 1 }] })
     Heads s (.pf 0) 0x0402 r ∧ stepRec s (partArg r) (dwordAt r.words 2) = some { id := 1 }) ∧
    (let r := req 0x0402 0 [2, 0]; let s := posted r (withRun fun q => { q with steps := [{ id := 1 }] })
     Heads s (.pf 0) 0x0402 r ∧ stepRec s (partArg r) (dwordAt r.words 2) = none) ∧
    (let r := req 0x0403 0 [0xFFFFFFFF, 0xFFFFFFFF]; let s := posted r (withRun fun q => { q with steps := [{ id := 1 }] })
     Heads s (.pf 0) 0x0403 r ∧ dwordAt r.words 2 = 2 ^ 64 - 1) ∧
    (let r := req 0x0403 0 [1, 0]; let s := posted r (withRun fun q => { q with steps := [{ id := 1, st := .admitted }] })
     Heads s (.pf 0) 0x0403 r ∧ (∀ x ∈ accepted s (partArg r), x.id ≠ dwordAt r.words 2) ∧ dwordAt r.words 2 ≠ 2 ^ 64 - 1) := by
  unfold Heads; decide +kernel

/-! An image with one thing of each kind, for the commands of the Pilots (R131 to R152, R208, R246). It is not signed: no test of
image.load uses it. Lists: 0 is NOP and END_STEP, 1 is an ATTEND of table 2 and END_STEP. Clusters 0 and 1 run them in one step
slot of 1 MiB each; barrier 0 is of both, barrier 1 of cluster 0. Region 0 of cluster 0 takes one post of 1 KiB. Template 7 is a
NOP. Stream 0 brings 64 bytes to buffer 0 of cluster 0. Map 0 has one expert, at queue 0 of cluster 0, with rows of 64 bytes. -/

def attend0 : List Word :=
  [0x1A04, 0x03330000, 0, 0x2001, 2, 0, 0, 0, 0, 64, 128, 256, 0, 0, 0, 0x3F800000, 0, 0, 0, 0, 4096, 0, 0, 0, 0, 0]
def pimg : List Word :=
  [0x53474C56, 1, 4544, 8, 9, 1] ++ manDigest ++ [0, 0] ++
  [2, 192, 140, 2, 3, 384, 12, 1, 4, 448, 16, 2, 8, 512, 64, 1, 0x0A, 576, 32, 1, 0x0C, 640, 40, 1, 1, 704, 768, 48,
    0x0B, 1472, 3072, 48] ++
  ([8, 24, 0x0100, 0x030D, 0, 0] ++ attend0 ++ [0x030D, 0, 0] ++ List.replicate 13 0) ++
  ([7, 1, 0x0100] ++ List.replicate 13 0) ++ ([3, 0, 1, 0] ++ List.replicate 12 0) ++
  [1, 0, 0, 0, 0, 0, 0, 0, 0x100, 0, 0x200000, 64, 0, 0, 64, 0] ++ ([0, 2, 1, 0, 0, 0, 0, 1] ++ List.replicate 8 0) ++
  ([0x0100, 1, 64, 64 + 64 * 65536, 64, 0, 0, 0, 0, 0] ++ List.replicate 6 0) ++
  [0x0000FF01, 0, 0, 0x100000, 0x0001FF01, 0, 0, 0x100000] ++ (List.replicate 46 ([0x0000FF00, 0, 0, 0] : List Word)).flatten ++
  [0x00010001] ++ List.replicate 767 0
/-- The record that claims and places clusters 0 and 1, and one that is latency-critical. -/
def rec2 : List Word := setAt (setAt rec0 2 3) 40 0x8180
/-- Partition 0 serves the image; step 1 is admitted, and cluster 0 has `todo` to run for it. -/
def running (todo : List (List Word)) : State :=
  { serving with
    images := [(3, { words := pimg })]
    parts := [(0, { cfg := { st := .serving, ebb := rec2, swapAddr := 4096, swapMib := 1 }, run := { steps := [{ id := 1, st := .admitted }] } })]
    x := { serving.x with clusters := [(0, { runs := [{ part := 0, step := 1, todo := todo.map fun c => { words := c } }] })] } }

/-- The image has the parts that its comment names. -/
theorem test_image_parts : (cmList pimg 0, cmList pimg 1, cmUsed pimg 2) = (0, 1, false) ∧ (listCmds pimg 0).length = 2 ∧
    (listCmds pimg 1).map cOp = [4, 13] ∧ templateOf pimg 7 = some (7, [0x0100], []) ∧ barMembers pimg 0 = [0, 1] ∧ barMembers pimg 1 = [0] ∧
    inPosts pimg 0 0 = 1 ∧ inKib pimg 0 0 = 1 ∧ seBytes (pfStream pimg 0) = 64 ∧ (mapOf pimg 0).isSome = true ∧
    (kvTables pimg).map (fun t => (t.1, t.2.1)) = [(2, 64)] ∧ journalMib pimg = 1 := by decide +kernel

/-! Admission, commit and the key-value cache. -/

/-- Sequence 7 in slot 0, of 63 tokens; one page of 4 KiB. -/
def seq7 : SeqSlot := { seqId := 7, length := 63, st := .resident, maxLen := 128, listBase := 3 * 2 ^ 48 + 0x1000000 }
def cached (e : SeqSlot) (s : State) : State := modKv 0 (fun k => { k with slots := [(0, e)] }) s
/-- Step 2 is accepted; `e` is sequence 7. -/
def awaiting (e : SeqSlot) : State :=
  cached e (modRun 0 (fun q => { q with steps := [{ id := 2, seqs := [{ seqId := 7, slot := 0, newTokens := 2 }] }] }) (running []))

theorem witness_StepAdmission :
    (let s := foldBoundary 0 (awaiting seq7)
     accepted s 0 = [{ id := 2, seqs := [{ seqId := 7, slot := 0, newTokens := 2 }] }] ∧ admitOpen s 0 = true ∧ intervalOk s 0 = true ∧
      recClass (bank s 0) = false ∧ relPending s 0 2 = false ∧ (slotAt s 0 0).st = .resident ∧ (slotAt s 0 0).swapOut = [] ∧
      flying s 0 = [] ∧ pagesNeeded s 0 [{ seqId := 7, slot := 0, newTokens := 2 }] = [(0, 0, 1), (0, 1, 1)] ∧
      (allocAll 0 (pagesNeeded s 0 [{ seqId := 7, slot := 0, newTokens := 2 }]) s).isSome = true) ∧
    (let s := foldBoundary 0 (modPw (fun w => { w with target := some .berth }) (awaiting seq7))
     accepted s 0 ≠ [] ∧ s.pw.target.isSome = true) := by decide +kernel

/-- Step 1 has finished at all clusters. -/
def finished : State := modRun 0 (fun q => { q with steps := [{ id := 1, st := .finished, left := [0, 1], outs := [{ cluster := 0, bytes := 4 }] }] })
  { running [] with x := serving.x }
theorem witness_StepCommitment :
    let s := finished
    let r : StepRec := { id := 1, st := .finished, left := [0, 1], outs := [{ cluster := 0, bytes := 4 }] }
    toCommit s 0 = some r ∧ stepRec s 0 r.id = some r ∧ r.action = 0 ∧ activeHolder s = none ∧
      nextMember s (recJob (bank s 0)) = none ∧ relPending s 0 r.id = false ∧ (partOf s 0).cfg.shadow ≠ .staged ∧
      (partOf s 0).run.freeDrop = false ∧ unfolded s 0 = [] := by decide +kernel

theorem witness_KvEviction :
    (let r := req 0x0501 0 [7, 0]; let s := posted r (cached seq7 (running []))
     Heads s (.pf 0) 0x0501 r ∧ slotsOfSeq (partOf s (partArg r)).kv (argOf r 0).toNat = [0] ∧ bitOf (argOf r 1) 0 = false ∧
      seqBusy s (partArg r) (argOf r 0).toNat = false) ∧
    (let r := req 0x0501 0 [7, 1]
     let s := posted r (modCfg 0 (fun c => { c with ebb := setAt rec2 33 1 }) (cached { seq7 with pages := [(0, { valid := true })] } (running [])))
     Heads s (.pf 0) 0x0501 r ∧ slotsOfSeq (partOf s (partArg r)).kv (argOf r 0).toNat = [0] ∧ bitOf (argOf r 1) 0 = true ∧
      seqBusy s (partArg r) (argOf r 0).toNat = false ∧ recClass (bank s (partArg r)) = false ∧
      (slotAt s (partArg r) 0).st = .resident ∧ (partOf s (partArg r)).cfg.swapMib ≠ 0 ∧ swapFits s (partArg r) 0 = true ∧
      dmaOpen s (partArg r) = true ∧ ((slotAt s (partArg r) 0).pages.any fun q => q.2.valid && q.2.loc == 0) = true ∧
      seqLeaving s (partArg r) 0 = false ∧ 0 ∈ mates s (partArg r) 0 ∧ (mates s (partArg r) 0).Nodup) ∧
    (let r := req 0x0501 0 [7, 1]; let s := posted r (cached { seq7 with swapOut := [0] } (running []))
     Heads s (.pf 0) 0x0501 r ∧ slotsOfSeq (partOf s (partArg r)).kv (argOf r 0).toNat = [0] ∧ bitOf (argOf r 1) 0 = true ∧
      seqBusy s (partArg r) (argOf r 0).toNat = false ∧ recClass (bank s (partArg r)) = false ∧
      (slotAt s (partArg r) 0).st ≠ .lost ∧ seqLeaving s (partArg r) 0 = true) ∧
    (let r := req 0x0501 0 [7, 1]; let s := posted r (awaiting seq7)
     Heads s (.pf 0) 0x0501 r ∧ slotsOfSeq (partOf s (partArg r)).kv (argOf r 0).toNat = [0] ∧ bitOf (argOf r 1) 0 = true ∧
      seqBusy s (partArg r) (argOf r 0).toNat = true) ∧
    (let r := req 0x0501 0 [7, 1]; let s := posted r (modCfg 0 (fun c => { c with ebb := setAt rec2 0 0x11 }) (cached seq7 (running [])))
     Heads s (.pf 0) 0x0501 r ∧ slotsOfSeq (partOf s (partArg r)).kv (argOf r 0).toNat = [0] ∧ bitOf (argOf r 1) 0 = true ∧
      seqBusy s (partArg r) (argOf r 0).toNat = false ∧ recClass (bank s (partArg r)) = true) := by
  unfold Heads; decide +kernel

/-- Sequence 7 on its way out, and on its way back. -/
def leaving : State := cached { seq7 with pages := [(0, { valid := true, frame := 2 * 2 ^ 36 })], swapOut := [0] } (running [])
def page0 : List Byte := List.replicate 4096 3
def returning (retry : Bool) (crcs : Tbl Nat) : State :=
  cached { seq7 with st := .swapped, pages := [(0, { valid := true, loc := 1 })], swapIn := [0], crcs, retry } (running [])
theorem witness_PagesMoveWhole_out :
    let s := leaving; let e := slotAt s (0 : Fin 32).val 0
    unitsOf s 0 0 0 = 1 ∧ dmaOpen s 0 = true ∧ (partOf s 0).kv.slots.find? (fun q => q.2.swapOut != []) = some (0, e) ∧
      e.swapOut = [0] ∧ e.st ≠ .empty ∧ mates s 0 0 = [0] ∧ e.evicting = [] ∧ pageFetching s 0 0 0 = false ∧
      gapFrom 1 0 (partOf s 0).kv.swapUsed + 1 ≤ 256 * (partOf s 0).cfg.swapMib := by decide +kernel
theorem witness_PagesMoveWhole_answer :
    let q := req 0x0501 0 [7, 1]
    let s := modSlot 0 0 (fun e => { e with evicting := [q] }) leaving; let e := slotAt s (0 : Fin 32).val 0
    unitsOf s 0 0 0 = 1 ∧ dmaOpen s 0 = true ∧ (partOf s 0).kv.slots.find? (fun q => q.2.swapOut != []) = some (0, e) ∧
      e.swapOut = [0] ∧ e.st ≠ .empty ∧ mates s 0 0 = [0] ∧ e.evicting = [q] ∧ pageFetching s 0 0 0 = false ∧
      gapFrom 1 0 (partOf s 0).kv.swapUsed + 1 ≤ 256 * (partOf s 0).cfg.swapMib := by decide +kernel
theorem witness_PagesMoveWhole_in (retry : Bool) (crcs : Tbl Nat) :
    let s := returning retry crcs; let e := slotAt s (0 : Fin 32).val 0
    (partOf s 0).kv.slots.find? (fun q => q.2.swapIn != []) = some (0, e) ∧ e.swapIn = [0] ∧ dmaOpen s 0 = true ∧ e.retry = retry ∧ e.crcs = crcs ∧
      e.st ≠ .empty := by
  exact ⟨rfl, rfl, rfl, rfl, rfl, fun h => nomatch h⟩
theorem witness_PagesMoveWhole_room :
    let s := returning false []
    unitsOf s 0 0 0 = 1 ∧ (allocPage 0 0 0 1 s).isSome = true ∧ page0.length = 4096 * 1 := by decide +kernel
theorem witness_PagesMoveWhole_crc : some (crc32 page0) = tget (slotAt (returning false [(0, crc32 page0)]) 0 0).crcs 0 ∧
    some (crc32 page0) ≠ tget (slotAt (returning true []) 0 0).crcs 0 := ⟨rfl, fun h => nomatch h⟩

/-! Statistics, power and attestation. -/

theorem witness_StatsAndLogRead :
    (let r := req 0x0601 31 [1, 0, 0, 203]; let s := posted r served
     Heads s (.pf 0) 0x0601 r ∧ (MbxId.pf 0) ≠ .sideband ∧ fld (argOf r 0) 0 3 = 1) ∧
    (let r := req 0x0601 0 [3, 0, 0, 0xFFFF]; let s := posted r served
     Heads s (.pf 0) 0x0601 r ∧ fld (argOf r 0) 0 3 = 3) ∧
    (let r := req 0x0601 0 [0, 5, 0, 0]; let s := posted r (modStat 0 (fun t => { t with latch := [{ id := 5, words := [5, 0] }] }) served)
     Heads s (.pf 0) 0x0601 r ∧ fld (argOf r 0) 0 3 = 0 ∧ latchedOf s (partArg r) (dwordAt r.words 3) = some { id := 5, words := [5, 0] }) ∧
    (let r := req 0x0602 0 [1, 0, 0, 5]; let s := posted r (modLog (fun l => { l with prot := [{ seq := 3 }] }) served)
     Heads s (.pf 0) 0x0602 r ∧ fld (argOf r 3) 0 3 ≤ 5 ∧ s.host.log.prot = (if bitOf (argOf r 0) 0 then s.host.log.prot else s.host.log.main)) := by
  unfold Heads; decide +kernel

theorem witness_PowerSettings :
    (let r := req 0x0701 0 [2, 1200]; let s := posted r served
     Heads s (.pf 0) 0x0701 r ∧ subOf r = 2 ∧ 1200 ≤ fld (argOf r 1) 0 12 ∧ fld (argOf r 1) 0 12 ≤ 3000 ∧
      shareBroken s (fld (argOf r 1) 0 12) s.pw.frCompute = false) ∧
    (let r := req 0x0701 0 [2, 3001]; let s := posted r served
     Heads s (.pf 0) 0x0701 r ∧ subOf r = 2 ∧ 3000 < fld (argOf r 1) 0 12) ∧
    (let r := req 0x0701 0 [3, 256, 0]; let s := posted r served
     Heads s (.pf 0) 0x0701 r ∧ subOf r = 3 ∧ fld (argOf r 1) 0 9 + fld (argOf r 1) 16 9 + fld (argOf r 2) 0 9 = 256 ∧
      shareBroken s s.pw.cap (fld (argOf r 1) 0 9) = false) ∧
    (let r := req 0x0701 0 [3, 256 + 65536, 0]; let s := posted r served
     Heads s (.pf 0) 0x0701 r ∧ subOf r = 3 ∧ fld (argOf r 1) 0 9 + fld (argOf r 1) 16 9 + fld (argOf r 2) 0 9 ≠ 256) ∧
    (let r := req 0x0701 0 [4, 1 + 20 * 256]; let s := posted r served
     Heads s (.pf 0) 0x0701 r ∧ subOf r = 4 ∧ bitOf (argOf r 1) 0 = true ∧ 20 ≤ fld (argOf r 1) 8 6 ∧ fld (argOf r 1) 8 6 ≤ 33 ∧
      s.dv.throttled = [] ∧ s.dv.cur.length = 4 ∧ s.dv.cur ≠ List.replicate 4 (fld (argOf r 1) 8 6)) ∧
    (let r := req 0x0701 0 [5]; let s := posted r served
     Heads s (.pf 0) 0x0701 r ∧ subOf r = 5) ∧
    (let r := req 0x0701 0 [6, 47]; let s := posted r served
     Heads s (.pf 0) 0x0701 r ∧ subOf r = 6 ∧ fld (argOf r 1) 0 6 < 48) := by
  unfold Heads; decide +kernel

def toBerth : State := modPw (fun w => { w with target := some .berth }) served
theorem witness_PowerStateLadder :
    (let r := req 0x0701 0 [1, 4]; let s := posted r serving
     Heads s (.pf 0) 0x0701 r ∧ subOf r = 1 ∧ pstateOf (fld (argOf r 1) 0 3) = some .drydock ∧ stateRefusals s .drydock ≠ 0) ∧
    (let r := req 0x0701 0 [1, 0]; let s := posted r served
     Heads s (.pf 0) 0x0701 r ∧ subOf r = 1 ∧ pstateOf (fld (argOf r 1) 0 3) = some .run ∧ stateRefusals s .run = 0 ∧
      PState.run = s.pw.st ∧ s.pw.target = none) ∧
    (let r := req 0x0701 0 [1, 2]; let s := posted r served
     Heads s (.pf 0) 0x0701 r ∧ subOf r = 1 ∧ pstateOf (fld (argOf r 1) 0 3) = some .berth ∧ stateRefusals s .berth = 0 ∧
      PState.berth ≠ s.pw.st ∧ s.pw.st ≠ .drydock ∧ PState.berth ∈ [.run, .quayside, .berth]) ∧
    (toBerth.pw.target = some .berth ∧ toBerth.pw.st = .run ∧ toBerth.pw.waiting = [] ∧ drained toBerth = true) ∧
    (let s := { toBerth with parts := (running []).parts }
     s.pw.target = some .berth ∧ deeper .berth s.pw.st = true ∧ drained s = false) ∧
    (let s := modPw (fun w => { w with target := some .run, st := .berth }) served
     s.pw.target = some .run ∧ s.pw.st = .berth ∧ s.pw.waiting = []) ∧
    (let s := modPw (fun w => { w with target := some .run, st := .quayside }) served
     s.pw.target = some .run ∧ s.pw.st = .quayside ∧ s.pw.waiting = []) := by
  unfold Heads; decide +kernel

theorem witness_InputVoltage :
    (38000 ≤ (38000 : Nat) ∧ (38000 : Nat) ≤ 46000) ∧
    (let s := modPw (fun w => { w with outKind := 1, outFor := 49 }) served
     35000 ≤ (48000 : Nat) ∧ (48000 : Nat) ≤ 48000 ∧ 46000 < (48000 : Nat) ∧ s.pw.outKind = 1 ∧ s.pw.outFor = 49 ∧ s.boot.stage = .ready) ∧
    (let s := modPw (fun w => { w with outKind := 2, outFor := 49 }) served
     (34999 : Nat) < 35000 ∧ s.pw.outKind = 2 ∧ s.pw.outFor = 49 ∧ s.boot.stage = .ready) ∧
    (served.pw.outKind = 0 ∧ (modPw (fun w => { w with outKind := 1 }) served).pw.outKind ≠ 0) ∧
    ((29999 : Nat) < 30000 ∧ served.boot.stage ≠ .unpowered) := by decide

theorem witness_ThermalLimits :
    (served.dv.tripped = false ∧ served.dv.lowered = [] ∧ isZone 5 = true ∧ isZone 31 = true ∧ served.host.hm.failed = false ∧
      (if (31 : Nat) < 6 then 110 else 100) ≤ 100) ∧
    ((if (5 : Nat) < 6 then 100 else 92) ≤ 109 ∧ 109 < (if (5 : Nat) < 6 then 110 else 100) ∧ 5 ∉ served.dv.throttled) ∧
    (let s := modDv (fun v => { v with throttled := [16] }) served
     s.dv.tripped = false ∧ s.dv.lowered = [] ∧ isZone 16 = true ∧ 88 < (if (16 : Nat) < 6 then 97 else 89) ∧ 16 ∈ s.dv.throttled) ∧
    ((if (0 : Nat) < 6 then 97 else 89) ≤ 99 ∧ 99 < (if (0 : Nat) < 6 then 100 else 92)) ∧ served.dv.goal.length = 4 := by decide

theorem witness_ClocksAndDroop :
    (let s := modDv (fun v => { v with temps := [(3, 89)], draw := 2800 }) served
     s.dv.cur.length = 4 ∧ s.dv.goal.length = 4 ∧ mayBoost s 3 = true ∧ 33 ≤ s.dv.cur.getD 3 33 ∧ s.dv.cur.getD 3 33 < 36 ∧
      s.dv.goal.getD 3 33 = s.dv.cur.getD 3 33 ∧ s.pw.slewing = []) ∧
    (let s := modDv (fun v => { v with temps := [(3, 89)], draw := 2800, goal := [33, 33, 33, 34] }) served
     s.dv.cur.length = 4 ∧ s.dv.goal.length = 4 ∧ mayBoost s 3 = true ∧ 33 ≤ s.dv.cur.getD 3 33 ∧ s.dv.cur.getD 3 33 < 36 ∧
      s.dv.goal.getD 3 33 ≠ s.dv.cur.getD 3 33) ∧
    (let s := modDv (fun v => { v with cur := [36, 33, 33, 33], goal := [33, 33, 34, 33] }) (modPw (fun w => { w with mode := true }) served)
     s.dv.cur.length = 4 ∧ s.dv.goal.length = 4 ∧ mayBoost s 0 = false ∧ 33 < s.dv.cur.getD 0 33 ∧ mayBoost s 1 = false ∧
      s.dv.cur.getD 1 33 ≤ 33 ∧ s.pw.slewing = [] ∧ s.dv.cur.getD 2 33 < s.dv.goal.getD 2 33 ∧ s.dv.goal.getD 0 33 < s.dv.cur.getD 0 33) := by
  decide +kernel

theorem witness_Attestation :
    (let r := req 0x0801 0 [1, 8]; let s := posted r sealedUp
     Heads s (.pf 0) 0x0801 r ∧ subOf r = 1 ∧ 1 ≤ fld (argOf r 1) 0 4 ∧ fld (argOf r 1) 0 4 ≤ 8) ∧
    (let r := req 0x0801 0 [1, 9]; let s := posted r sealedUp
     Heads s (.pf 0) 0x0801 r ∧ subOf r = 1 ∧ 8 < fld (argOf r 1) 0 4) ∧
    (let r := req 0x0801 0 [2]; let s := posted r sealedUp
     Heads s (.pf 0) 0x0801 r ∧ subOf r = 2) ∧
    (let r := req 0x0801 0 [3, 299]; let s := posted r sealedUp
     Heads s (.pf 0) 0x0801 r ∧ subOf r = 3 ∧ fld (argOf r 1) 0 12 < s.sec.chain.length) := by
  unfold Heads; decide +kernel

/-! Life cycle, firmware, weights and start. -/

def inLife (n : Nat) : State := modSec (fun x => { x with lifecycle := n }) sealedUp
theorem witness_LifeCycleForward :
    (let r := req 0x0802 0 [1]; let s := posted r sealedUp; Heads s (.pf 0) 0x0802 r ∧ subOf r = 1) ∧
    (let r := req 0x0802 0 [2]; let s := posted r (inLife 0)
     Heads s (.pf 0) 0x0802 r ∧ subOf r = 2 ∧ s.sec.lifecycle = 0 ∧ s.sec.certified = true) ∧
    (let r := req 0x0802 0 [2]; let s := posted r (inLife 1); Heads s (.pf 0) 0x0802 r ∧ subOf r = 2 ∧ s.sec.lifecycle ≠ 0) ∧
    (let r := req 0x0802 0 [3]; let s := posted r (inLife 1)
     Heads s (.pf 0) 0x0802 r ∧ subOf r = 3 ∧ s.sec.lifecycle = 1 ∧ sealLacks s = 0) ∧
    (let r := req 0x0802 0 [3]; let s := posted r (modSec (fun x => { x with keyTable := [] }) (inLife 1))
     Heads s (.pf 0) 0x0802 r ∧ subOf r = 3 ∧ s.sec.lifecycle = 1 ∧ sealLacks s ≠ 0) := by
  unfold Heads; decide +kernel
theorem witness_LifeCycleForward_keys :
    let r := req 0x0802 0 [7, 0, 0, 288]; let s := posted r (modSec (fun x => { x with keyTable := [] }) sealedUp)
    Heads s (.pf 0) 0x0802 r ∧ subOf r = 7 ∧ dmaOpen s 32 = true ∧
      tableOk s (argOf r 3).toNat (keyTable.take ((argOf r 3).toNat / 4)) = true := by
  unfold Heads; decide +kernel

/-- lc.set SUB n with an authorisation. -/
def authReq (n : Nat) (auth : List Word) : Request := { mbx := .pf 0, words := [0x0802, 0, w32 n] ++ auth, bytes := 140 }
def nonced (n : Nat) : State := modSec (fun x => { x with nonce := some (List.replicate 32 0) }) (inLife n)
theorem witness_LifeCycleBackward :
    (let r := authReq 4 unsealAuth; let s := posted r (nonced 2)
     Heads s (.pf 0) 0x0802 r ∧ s.sec.stopping = none ∧ subOf r = 4 ∧ s.sec.lifecycle = 2 ∧ authOk s r 4 = true ∧ allFlying s = [] ∧
      s.host.hm.joined = false) ∧
    (let r := authReq 4 returnAuth; let s := posted r (nonced 2)
     Heads s (.pf 0) 0x0802 r ∧ s.sec.stopping = none ∧ subOf r = 4 ∧ s.sec.lifecycle = 2 ∧ authOk s r 4 = false) ∧
    (let r := authReq 4 []; let s := posted r (inLife 1)
     Heads s (.pf 0) 0x0802 r ∧ s.sec.stopping = none ∧ subOf r = 4 ∧ s.sec.lifecycle ≠ 2) ∧
    (let r := authReq 5 returnAuth; let s := posted r (nonced 1)
     Heads s (.pf 0) 0x0802 r ∧ s.sec.stopping = none ∧ subOf r = 5 ∧ s.sec.lifecycle = 1 ∧ authOk s r 5 = true) ∧
    (let r := authReq 5 []; let s := posted r (inLife 0)
     Heads s (.pf 0) 0x0802 r ∧ s.sec.stopping = none ∧ subOf r = 5 ∧ s.sec.lifecycle = 0) ∧
    (let r := authReq 6 []; let s := posted r (inLife 0)
     Heads s (.pf 0) 0x0802 r ∧ s.sec.stopping = none ∧ subOf r = 6 ∧ s.sec.lifecycle = 0) := by
  unfold Heads; decide +kernel

/-- Slot A booted; slot B holds the test's image of SVN 2. -/
def fwUp : State := modBoot (fun b => { b with slotA := fw, slotB := fw, rootKey := key, rollback := 1 }) sealedUp
/-- lc.set FW_DATA of 64 bytes at offset `o`. -/
def dataReq (o : Nat) : Request :=
  { mbx := .pf 0, words := [0x0802, 0, w32 (11 + 64 * 65536), w32 o] ++ List.replicate 60 0, bytes := 256 }
theorem witness_FirmwareUpdate :
    (let r := req 0x0802 0 [8, 3, 0, 0, 2 ^ 26]; let s := posted r fwUp
     Heads s (.pf 0) 0x0802 r ∧ subOf r = 8 ∧ true = bitOf (argOf r 1) 0 ∧ s.boot.booted ≠ some true ∧ s.sec.fw = none ∧
      (argOf r 4).toNat ≤ 2 ^ 26 ∧ bitOf (argOf r 1) 1 = true) ∧
    (let r := req 0x0802 0 [8, 1, 0, 0, 384]; let s := posted r fwUp
     Heads s (.pf 0) 0x0802 r ∧ subOf r = 8 ∧ true = bitOf (argOf r 1) 0 ∧ s.boot.booted ≠ some true ∧ s.sec.fw = none ∧
      (argOf r 4).toNat ≤ 2 ^ 26 ∧ bitOf (argOf r 1) 1 = false ∧ dmaOpen s 32 = true ∧ s.boot.stage ≠ .recovery) ∧
    (let r := req 0x0802 0 [8, 0, 0, 0, 384]; let s := posted r fwUp
     Heads s (.pf 0) 0x0802 r ∧ subOf r = 8 ∧ s.boot.booted = some (bitOf (argOf r 1) 0)) ∧
    (let f : FwWrite := { slotB := true, bytes := 196, got := List.replicate 32 0 }
     let s := posted (dataReq 128) (modSec (fun x => { x with fw := some f }) fwUp); let r := dataReq 128
     Heads s (.pf 0) 0x0802 r ∧ subOf r = 11 ∧ s.sec.fw = some f ∧ fld (argOf r 0) 16 16 = 64 ∧ (64 % 4 = 0 ∧ 4 ≤ 64 ∧ 64 ≤ 224) ∧
      (argOf r 1).toNat = 4 * f.got.length ∧ r.words.length = 64 ∧ 4 * f.got.length + 64 < f.bytes ∧ s.boot.stage ≠ .recovery) ∧
    (let f : FwWrite := { slotB := true, bytes := 192, got := List.replicate 32 0 }
     let s := posted (dataReq 128) (modSec (fun x => { x with fw := some f }) fwUp); let r := dataReq 128
     Heads s (.pf 0) 0x0802 r ∧ subOf r = 11 ∧ s.sec.fw = some f ∧ fld (argOf r 0) 16 16 = 64 ∧ (argOf r 1).toNat = 4 * f.got.length ∧
      r.words.length = 64 ∧ 4 * f.got.length + 64 = f.bytes ∧ s.boot.stage ≠ .recovery) ∧
    (let r := req 0x0802 0 [9, 1]; let s := posted r (modBoot (fun b => { b with slotB := [] }) fwUp)
     Heads s (.pf 0) 0x0802 r ∧ subOf r = 9 ∧ fwCheck s (slotImg s (bitOf (argOf r 1) 0)) ≠ 0) ∧
    (let r := req 0x0802 0 [10]; let s := posted r fwUp
     Heads s (.pf 0) 0x0802 r ∧ subOf r = 10 ∧ s.boot.booted = some false ∧ s.boot.rollback < fwSvn (slotImg s false)) ∧
    (let r := req 0x0802 0 [10]; let s := posted r (modBoot (fun b => { b with rollback := 2 }) fwUp)
     Heads s (.pf 0) 0x0802 r ∧ subOf r = 10 ∧ s.boot.booted = some false ∧ fwSvn (slotImg s false) ≤ s.boot.rollback) := by
  unfold Heads; and_intros <;> decide +kernel
theorem witness_FirmwareUpdate_prefer :
    let r := req 0x0802 0 [9, 1]; let s := posted r fwUp
    Heads s (.pf 0) 0x0802 r ∧ subOf r = 9 ∧ fwCheck s (slotImg s (bitOf (argOf r 1) 0)) = 0 := by
  unfold Heads; decide +kernel

def installing (f : BondState → BondState) : State := modBnd f (inLife 1)
theorem witness_WeightInstallation :
    (let r := req 0x0901 0 [1, 0, 0, 384]; let s := posted r (installing fun _ => {})
     Heads s (.pf 0) 0x0901 r ∧ subOf r = 1 ∧ installState s = true ∧ overInstall s = false ∧ (argOf r 3).toNat ≤ 2 ^ 26 ∧
      dmaOpen s 32 = true ∧ s.bnd.st = .none ∧ manifestStatus s (argOf r 3).toNat (man.take ((argOf r 3).toNat / 4)) = 0) ∧
    (let r := req 0x0901 0 [2, 0, 0, 0, 64]; let s := posted r (installing fun _ => { manifest := man, st := .opened, bitmap := [1] })
     Heads s (.pf 0) 0x0901 r ∧ subOf r = 2 ∧ fld (argOf r 1) 0 24 = 0 ∧ installState s = true ∧ overInstall s = false ∧
      s.bnd.st = .opened ∧ 0 < mfStripes s.bnd.manifest ∧ shardData.length = shBytes s.bnd.manifest 0 ∧ (argOf r 4).toNat = shardData.length ∧
      0 ∉ s.bnd.bitmap ∧ shKind s.bnd.manifest 0 ≠ 0 ∧ dmaOpen s 32 = true ∧ wordsOfBytes (sha256 shardData) = shHash s.bnd.manifest 0) ∧
    (let r := req 0x0901 0 [3]; let s := posted r (installing fun b => { b with st := .opened })
     Heads s (.pf 0) 0x0901 r ∧ subOf r = 3 ∧ installState s = true ∧ s.bnd.st = .opened ∧
      (∀ y, y < mfStripes s.bnd.manifest → y ∈ s.bnd.bitmap)) ∧
    (let r := req 0x0901 0 [4]; let s := posted r (installing fun b => { b with st := .opened })
     Heads s (.pf 0) 0x0901 r ∧ subOf r = 4 ∧ installState s = true ∧ s.bnd.st = .opened) ∧
    (let r := req 0x0901 0 [5]; let s := posted r sealedUp; Heads s (.pf 0) 0x0901 r ∧ subOf r = 5 ∧ s.sec.lifecycle ≤ 2) ∧
    (let r := req 0x0901 0 [6, 128, 129, 0, 0, 0, 0, 0, 255]; let s := posted r sealedUp
     Heads s (.pf 0) 0x0901 r ∧ subOf r = 6 ∧ s.sec.lifecycle ≤ 2 ∧
      groupBad s ((List.range 8).map fun i => fld (argOf r (1 + i)) 0 8) = false) ∧
    (let r := req 0x0901 0 [1, 0, 0, 384]; let s := posted r sealedUp
     Heads s (.pf 0) 0x0901 r ∧ subOf r = 1 ∧ installState s = false) := by
  unfold Heads; and_intros <;> decide +kernel

def staged (st : BootStage) : State := modBoot (fun b => { b with stage := st }) fwUp
theorem witness_StartSequence :
    (let s := modPins (fun p => { p with vinOk := false }) State.reset
     38000 ≤ (38000 : Nat) ∧ s.pins.vinOk = false ∧ s.boot.stage ≠ .holdup ∧ (37999 : Nat) < 38000) ∧
    (let s := modPins (fun p => { p with vinOk := true, pkgRst := true }) State.reset
     s.pins.vinOk = true ∧ s.pins.pkgRst = true ∧ s.boot.stage = .unpowered ∧ State.reset.pins.vinOk = false) ∧
    ((staged .island).boot.stage = .island ∧ (staged .island).sec.lifecycle ≠ 4 ∧
      fwCheck (staged .island) (slotImg (staged .island) ((staged .island).boot.prefer.getD false)) = 0) ∧
    (let s := modBoot (fun b => { b with slotA := [], slotB := [] }) (staged .island)
     s.boot.stage = .island ∧ s.sec.lifecycle ≠ 4 ∧ fwCheck s s.boot.slotA ≠ 0 ∧ fwCheck s s.boot.slotB ≠ 0) ∧
    (let s := modSec (fun x => { x with lifecycle := 4 }) (staged .island); s.boot.stage = .island ∧ s.sec.lifecycle = 4) ∧
    (let s := modBoot (fun b => { b with pllOk := false }) (staged .rom)
     s.pins.rootOk = true ∧ s.boot.pllOk = false ∧ s.boot.stage = .rom ∧ (portOf s 17).st = .idle ∧ (portOf s 17).dead = false) ∧
    (let s := staged .rom
     s.boot.stage = .rom ∧ s.boot.booted = some false ∧ s.boot.rejected = none ∧ s.pins.rootOk = true) := by decide +kernel

theorem witness_StartCompletes :
    (let s := modBoot (fun b => { b with startType := 1 }) (staged .training)
     s.boot.stage = .training ∧ s.boot.warm = false ∧ s.boot.startType ≠ 0) ∧
    (let s := modBoot (fun b => { b with warm := true, trained := List.range 16 }) (staged .training)
     s.boot.stage = .training ∧ s.boot.warm = true ∧ (∀ k, k < 16 → k ∈ s.boot.trained)) ∧
    (let s := staged .repairs
     s.boot.stage = .repairs ∧ s.health.repairs = [] ∧ s.car.ring = [] ∧ s.car.dropped = [] ∧ s.host.hm.failed = false ∧ setLacks s = none) ∧
    (let s := modTiers (fun t => { t with stacksLost := [0, 1, 15] }) (staged .repairs)
     s.boot.stage = .repairs ∧ s.health.repairs = [] ∧ s.car.ring = [] ∧ s.car.dropped = [] ∧ s.host.hm.failed = false ∧
      setLacks s = some 15) ∧ served.boot.stage ≠ .repairs := by decide +kernel

theorem witness_ColdStartKeeps : 10000 ≤ (10000 : Nat) ∧ (999 : Nat) < 1000 ∧ (staged .holdup).boot.stage = .holdup ∧
    (staged .island).boot.stage = .island ∧ served.boot.stage = .ready ∧ served.host.hm.failed = false := by decide

theorem witness_EndpointPins :
    ((999 : Nat) < 1000 ∧ 1000 ≤ (1000 : Nat) ∧ State.reset.host.ep.linkUp = false ∧ served.host.ep.linkUp = true) ∧
    (served.host.ep.canTrain = true ∧ served.host.ep.perst = true ∧ served.host.ep.loopback = false ∧ served.health.iod0Out = false) ∧
    State.reset.host.ep.canTrain = false := by decide
theorem witness_DmaReadFails :
    (let s := posted loadReq served
     s.host.journal = loadReq :: [] ∧ loadReq.mbx = .pf 0 ∧ cmdOf loadReq = 0x0201 ∧ dmaOpen s 32 = true) ∧
    (let r := req 0x0401 1 []; let s := posted r served
     s.host.journal = r :: [] ∧ r.mbx = .pf 0 ∧ cmdOf r = 0x0401 ∧ dmaOpen s (partArg r) = true) := by decide

/-! Security messages, the sideband and careen. -/

/-- Both transports of SPDM with their algorithms settled and a session on DOE. -/
def spdmUp2 (fin : Bool) : State :=
  modSec (fun x => { x with
    doe := { version := 0x12, caps := true, algs := true, session := some 5, finished := fin }
    mctp := { version := 0x12, caps := true, algs := true } }) sealedUp
theorem witness_SpdmConnection :
    (spdmUp sealedUp true = true ∧ spdmUp sealedUp false = true ∧ byteAt [0x13] 0 = 0x13 ∧ (spdmOf sealedUp true).caps = false) ∧
    (spdmUp (spdmUp2 false) true = true ∧ (spdmOf (spdmUp2 false) true).caps = true) := by decide +kernel
theorem witness_SpdmAuthentication :
    (spdmUp (spdmUp2 false) false = true ∧ (spdmOf (spdmUp2 false) false).algs = true) ∧
    (let m : List Byte := [0x12, 0x82, 0, 0, 0x2B, 1, 255, 255]
     byteAt m 2 % 16 = 0 ∧ 299 = byteAt m 4 + 256 * byteAt m 5 ∧ 65535 = byteAt m 6 + 256 * byteAt m 7 ∧
      299 < (spdmUp2 false).sec.chain.length) ∧
    (let m : List Byte := [0x12, 0xE0, 0, 8]; byteAt m 3 = 8 ∧ bitOf (w32 (byteAt m 2)) 0 = false) := by decide +kernel
theorem witness_SpdmSessions :
    (let s := spdmUp2 false; spdmUp s true = true ∧ s.sec.doe.algs = true ∧ s.sec.doe.session.isSome = true ∧ s.sec.doe.finished = false) ∧
    (let s := spdmUp2 true; spdmUp s true = true ∧ s.sec.doe.algs = true ∧ s.sec.doe.session.isSome = true ∧ s.sec.doe.finished = true ∧
      spdmUp s false = true ∧ s.sec.mctp.algs = true) := by decide +kernel
theorem witness_LinkIde :
    (let s := spdmUp2 true
     spdmUp s true = true ∧ s.sec.doe.session.isSome = true ∧ s.sec.doe.finished = true ∧ byteAt [0, 2] 1 = 2 ∧ s.host.ep.ide ≠ .secure) ∧
    (let s := modEp (fun e => { e with ide := .keyed }) (spdmUp2 true)
     spdmUp s true = true ∧ s.sec.doe.session.isSome = true ∧ s.sec.doe.finished = true ∧ byteAt [0, 4] 1 = 4 ∧ s.host.ep.ide = .keyed ∧
      byteAt [0, 5] 1 = 5) ∧ sealedUp.sec.doe.session = none ∧ (modEp (fun e => { e with ide := .secure }) sealedUp).host.ep.ide = .secure := by
  decide +kernel

theorem witness_SidebandMailbox :
    (let m : List Word := [0x0602, 0, 0, 0, 0, 0]; let r : Request := { mbx := .sideband, words := m, bytes := 4 * m.length }
     served.pins.islOk = true ∧ iod0Reach served = true ∧ served.host.hm.gone = false ∧ (mbxOf served .sideband).st = .free ∧ postStatus served r = 0) ∧
    (let s := modMbx .sideband (fun b => { b with st := .posted }) served
     s.pins.islOk = true ∧ iod0Reach s = true ∧ s.host.hm.gone = false ∧ (mbxOf s .sideband).st ≠ .free) ∧
    (let m : List Word := [0x0101] ++ List.replicate 63 0; let r : Request := { mbx := .sideband, words := m, bytes := 4 * m.length }
     cmdOf r ∈ commandCodes ∧ cmdOf r ∉ [0x0601, 0x0602, 0x0701, 0x0801, 0x0A01, 0x0B01] ∧ 2 ≤ m.length ∧ m.length ≤ 64 ∧
      served.boot.stage ≠ .recovery ∧ served.boot.stage ≠ .retired ∧ (mbxOf served .sideband).st = .free) := by decide +kernel
theorem witness_SidebandManagement :
    (served.pins.islOk = true ∧ iod0Reach served = true ∧ byteAt [1, 254] 0 < 2 ∧ byteAt [1, 254] 1 ≠ 0 ∧ byteAt [1, 254] 1 ≠ 255) ∧
    (firmwareRuns served = true ∧ byteAt [11, 0] 0 + 256 * byteAt [11, 0] 1 = 11) ∧
    (let rs := [79, 46, 79, 79, 79, 79, 79, 79, 79, 79]
     served.dv.lowered = [] ∧ (∀ n, n < 10 → rs.getD n 0 < 80) ∧ 38 ≤ rs.getD 1 0 ∧ rs.getD 1 0 ≤ 46) ∧
    (let rs := [0, 42, 0, 110, 0, 0, 0, 0, 0, 0]; 110 ≤ rs.getD 3 0 ∧ served.host.sb.crossed = []) := by decide

theorem witness_CareenCommands :
    (let r := req 0x0A01 0 [1, 2]; let s := posted r served; Heads s (.pf 0) 0x0A01 r ∧ subOf r = 1) ∧
    (let r := req 0x0A01 0 [2, 0xFFF]; let s := posted r served; Heads s (.pf 0) 0x0A01 r ∧ subOf r = 2) ∧
    (let r := req 0x0A01 0 [3]; let s := posted r { served with parts := [(0, { run := { steps := [{ id := 1, st := .admitted }] } })] }
     Heads s (.pf 0) 0x0A01 r ∧ subOf r = 3 ∧ s.car.run = none ∧ s.car.starting = false ∧ s.pw.rails = true ∧ s.sec.lifecycle ≠ 4 ∧
      stateRefusals s .drydock = 0 ∧ s.car.inService = none ∧ drained s = false) ∧
    (let r := req 0x0A01 0 [3]; let s := posted r serving
     Heads s (.pf 0) 0x0A01 r ∧ subOf r = 3 ∧ s.car.run = none ∧ s.car.starting = false ∧ s.pw.rails = true ∧ s.sec.lifecycle ≠ 4 ∧
      stateRefusals s .drydock ≠ 0) ∧
    (let r := req 0x0A01 0 [4, 0x1C00, 0]; let s := posted r served
     Heads s (.pf 0) 0x0A01 r ∧ subOf r = 4 ∧ s.sec.lifecycle = 0 ∧ s.car.run = none ∧ s.car.starting = false ∧ s.pw.rails = true ∧
      fld (argOf r 1) 1 12 ≠ 0 ∧ bitOf (argOf r 1) 9 = false) ∧
    (let r := req 0x0A01 0 [4]; let s := posted r sealedUp
     Heads s (.pf 0) 0x0A01 r ∧ subOf r = 4 ∧ s.sec.lifecycle ≠ 0 ∧ s.sec.lifecycle ≠ 3) ∧
    (let r := req 0x0A01 0 [5]; let s := posted r served; Heads s (.pf 0) 0x0A01 r ∧ subOf r = 5) ∧
    (let r := req 0x0A01 0 [6]; let s := posted r (modSec (fun x => { x with lifecycle := 3 }) served); Heads s (.pf 0) 0x0A01 r ∧ subOf r = 6 ∧ s.sec.lifecycle = 3) := by
  unfold Heads; and_intros <;> decide +kernel

def careening (r : CareenRun) : State := modCar (fun c => { c with run := some r }) served
theorem witness_CareenRuns :
    (careening { kind := 0, phase := 12 }).car.run = some { kind := 0, phase := 12 } ∧
    (careening { kind := 0, phase := 13, abort := true }).car.run = some { kind := 0, phase := 13, abort := true } ∧
    (careening { kind := 2 }).car.run = some { kind := 2 } ∧ ((0 : Nat) ≠ 2 ∧ (12 : Nat) < 13 ∧ (12 : Nat) ≠ 11) := by decide
theorem witness_CareenInService :
    (let s := modCar (fun c => { c with queue := [(2, 47)] }) served
     s.car.queue = (2, 47) :: [] ∧ s.car.inService = none ∧ s.car.run = none ∧ s.car.starting = false ∧ s.host.hm.ready = true ∧
      s.host.hm.gone = false ∧ s.sec.lifecycle ≠ 4 ∧ s.pw.mode = false ∧ testPower s 2 = true ∧ s.dv.cur.length = 4 ∧
      33 ≤ s.dv.cur.getD (47 / 12) 33) ∧
    (let s := modCar (fun c => { c with inService := some { kind := 1, block := (2, 47) } }) full
     s.car.inService = some { kind := 1, block := (2, 47) } ∧ MemOk s) ∧ served.car.queue = [] ∧ served.car.inService = none := by
  unfold MemOk; decide +kernel


/-! Requests that arrive from package 5 on plane 0, for partition 0. -/

/-- A template with a SELECT of operation 9, over map 0. -/
def selImg : List Word :=
  setAt (setAt pimg 21 4544) 22 92 ++ [7, 21, 0x1405, 0x1000, 9, 1, 1] ++ List.replicate 16 0 ++ List.replicate 9 0
/-- The same with rows of 4,096 bytes. -/
def wideImg : List Word := setAt selImg 163 (64 + 4096 * 65536)
theorem test_select_maps : (mapOfOp selImg 9).map emEntry = some 128 ∧ (mapOfOp wideImg 9).map emEntry = some 4160 := by decide +kernel

/-- Port 0 is Active; job 1 has packages 0 and 5, partition 0 of each; generation 2. Step 1 is admitted, or done. -/
def meshed (im : List Word) (done : Bool) : State :=
  { modRun 0 (fun r => { r with committed := if done then 1 else 0, steps := if done then [] else r.steps }) (running []) with
    images := [(3, { words := im })]
    ports := [(0, { st := .active })]
    fab := { jobs := [{ job := 1, gen := 2, st := .active, members := [0, 5], parts := [(0, 1), (5, 1)] }] } }
/-- A packet: operation, sub-operation, job, offset, SEQ, LENGTH and data. -/
def packet (op sub job off seq len : Nat) (data : List Byte) : Packet :=
  pk (sealHdr (mkHdr op sub 0 job 5 0 2 (fabAddr 0 0 off) seq len 3 0) 0 data) data
/-- A CRC-32C fits in a word. -/
theorem crc32c_lt (bs : List Byte) : crc32c bs < 2 ^ 32 := by
  have bit (c : Nat) (h : c < 2 ^ 32) : crcBit 0x82F63B78 c < 2 ^ 32 := by
    unfold crcBit; split
    · exact Nat.xor_lt_two_pow (by omega) (by decide)
    · omega
  have byte (c : Nat) (b : Byte) (h : c < 2 ^ 32) : crcByte 0x82F63B78 c b < 2 ^ 32 := by
    unfold crcByte
    have x := Nat.xor_lt_two_pow h (Nat.lt_of_lt_of_le b.isLt (by decide : 2 ^ 8 ≤ 2 ^ 32))
    exact Nat.rec (motive := fun n => Nat.repeat (crcBit 0x82F63B78) n (Nat.xor c b.toNat) < 2 ^ 32) x (fun n i => bit _ i) 8
  have all (c : Nat) (h : c < 2 ^ 32) : bs.foldl (crcByte 0x82F63B78) c < 2 ^ 32 := by
    induction bs generalizing c with
    | nil => exact h
    | cons b bs ih => exact ih _ (byte c b h)
  exact Nat.xor_lt_two_pow (all _ (by decide)) (by decide)
/-- A packet that carries its CRC is whole. -/
theorem packet_whole (op sub job off seq len : Nat) (data : List Byte) : wholePacket (packet op sub job off seq len data) = true := by
  have h := crc32c_lt (bytesOfWords ((packet op sub job off seq len data).hdr.take 7) ++ data)
  show (crc32c (bytesOfWords ((packet op sub job off seq len data).hdr.take 7) ++ data) ==
    (w32 (crc32c (bytesOfWords ((packet op sub job off seq len data).hdr.take 7) ++ data))).toNat) = true
  simp only [w32, BitVec.toNat_ofNat, Nat.mod_eq_of_lt h, beq_self_eq_true]
/-- The stream of `p` as `f` makes it. -/
def withStream (f : DstStream → DstStream) (s : State) : State := putDst (f (dstOf s 0 5 1)) s
/-- Offset of the data region, past the input journal. -/
def dataOff : Nat := 2 ^ 48

theorem witness_RequestsRunInOrder :
    (let s := meshed pimg false; let p := packet 2 0 1 dataOff 7 4 [1, 2, 3, 4]; let bad : Packet := { p with data := [1, 2, 3, 5] }
     forMe s p = true ∧ 1 ≤ hOp p.hdr ∧ hOp p.hdr ≤ 6 ∧ wholePacket bad = false ∧ forMe s bad = true) ∧
    (let s := modFab (fun f => { f with jobs := f.jobs.map fun e => { e with gen := 3 } }) (meshed pimg false)
     let p := packet 2 0 1 dataOff 0 4 [1, 2, 3, 4]
     forMe s p = true ∧ wholePacket p = true ∧ genStale s p.hdr = true) ∧
    (let s := meshed pimg false; let d := fun seq => serialDiff seq 0 (2 ^ 32); let p := packet 2 0 1 dataOff 256 4 [1, 2, 3, 4]
     let q := packet 2 0 1 dataOff 255 4 [1, 2, 3, 4]; let b := packet 2 0 1 dataOff (2 ^ 32 - 1) 4 [1, 2, 3, 4]
     forMe s p = true ∧ wholePacket p = true ∧ genStale s p.hdr = false ∧ (inStream s p).expect = 0 ∧ 256 ≤ d (hSeq p.hdr) ∧ d (hSeq p.hdr) < 2 ^ 31 ∧
      forMe s q = true ∧ wholePacket q = true ∧ genStale s q.hdr = false ∧ d (hSeq q.hdr) ≠ 0 ∧ d (hSeq q.hdr) < 256 ∧ (inStream s q).held = [] ∧
      heldCount s 0 < 4096 ∧ forMe s b = true ∧ wholePacket b = true ∧ genStale s b.hdr = false ∧ 2 ^ 31 ≤ d (hSeq b.hdr) ∧ hOp b.hdr ≠ 3) ∧
    (let p := packet 3 0 1 dataOff (2 ^ 32 - 1) 8 [1, 0, 0, 0, 0, 0, 0, 0]
     let s := keepAtomic 0 p.hdr 0 9 (modFab (fun f => { f with replaySlots := [(5, 71)] }) (meshed pimg false))
     forMe s p = true ∧ wholePacket p = true ∧ genStale s p.hdr = false ∧ (replayOf s 0 p.hdr).isSome = true ∧
      2 ^ 31 ≤ serialDiff (hSeq p.hdr) (inStream s p).expect (2 ^ 32)) ∧
    (let s := meshed pimg false
     let a := pk (sealHdr (mkHdr 2 0 0 1 5 0 2 (fabAddr 0 0 0) 0 0 3 0) 0 []) []; let e := packet 2 0 9 dataOff 0 4 [1, 2, 3, 4]
     forMe s a = true ∧ wholePacket a = true ∧ genStale s a.hdr = false ∧ (inStream s a).expect = hSeq a.hdr ∧ (inStream s a).held = [] ∧
      (inStream s a).frag = none ∧ ackOnly a.hdr a.data = true ∧
      forMe s e = true ∧ wholePacket e = true ∧ genStale s e.hdr = false ∧ (inStream s e).expect = hSeq e.hdr ∧ (inStream s e).held = [] ∧
      (inStream s e).frag = none ∧ ackOnly e.hdr e.data = false ∧ reqStatus s e.hdr e.data ≠ 0 ∧ hOp e.hdr ≠ 3) := by
  and_intros <;> decide +kernel

theorem witness_FabricMemoryAccess :
    let s := meshed pimg false; let b8s : List Byte := [1, 0, 0, 0, 0, 0, 0, 0]; let far := 2 ^ 48 + 2 ^ 40
    (let p := packet 1 0 1 dataOff 0 4096 []
     Due s p ∧ (inStream s p).frag = none ∧ Right s p ∧ hLen p.hdr ≠ 0 ∧ loadStatus s 0 dataOff 4096 = 0) ∧
    (let p := packet 1 0 1 far 0 4 []
     Due s p ∧ (inStream s p).frag = none ∧ Right s p ∧ hLen p.hdr ≠ 0 ∧ loadStatus s 0 far 4 ≠ 0) ∧
    (let p := packet 2 0 1 dataOff 0 8 b8s
     Due s p ∧ (inStream s p).frag = none ∧ Right s p ∧ p.data ≠ [] ∧ storeStatus s 0 (hOff p.hdr) p.data.length = 0) ∧ MemOk s ∧
    (let p := packet 2 0 1 far 0 8 b8s
     Due s p ∧ (inStream s p).frag = none ∧ Right s p ∧ p.data ≠ [] ∧ storeStatus s 0 (hOff p.hdr) p.data.length ≠ 0) ∧
    (∀ sub : Fin 16, let d := if sub.val % 8 = 7 then b8s ++ b8s else b8s; let p := packet 3 sub.val 1 dataOff 0 d.length d
     Due s p ∧ (inStream s p).frag = none ∧ Right s p ∧ storeStatus s 0 (hOff p.hdr) (atomicWidth p.hdr) = 0 ∧ hSub p.hdr = sub.val) := by
  unfold Due Right MemOk; and_intros <;> decide +kernel

/-- A queue entry of step 1 of operation 9, of `n` bytes, and the offset of cluster 0's queue 0. -/
def entry9 (n : Nat) : List Byte := bytesOfWords ([1, 0, 0, 0, 0, 0, 0, 9] ++ List.replicate 8 0) ++ List.replicate (n - 64) 5
/-- Cluster 0's one step slot serves step 0. -/
def busySlot (s : State) : State := modCluster 0 (fun k => { k with slots := [(0, (0, 0))] }) s
theorem witness_QueuePushes :
    (let s := meshed selImg false; let p := packet 4 0 1 0 0 128 (entry9 128)
     Due s p ∧ Right s p ∧ (inStream s p).frag = none ∧ (mapOfOp (imgOf s 0) (wordAt (wordsOfBytes (p.data.take 64)) 7).toNat).isSome = true ∧
      dwordAt (wordsOfBytes (p.data.take 64)) 0 = 1 ∧ p.data.length = 128 ∧ (partOf s 0).run.committed < 1 ∧ entryReady s 0 1 0 = true ∧
      entryReady (busySlot s) 0 1 0 = false ∧ Due (busySlot s) p ∧ Right (busySlot s) p) ∧
    (let s := meshed selImg true; let p := packet 4 0 1 0 0 128 (entry9 128)
     Due s p ∧ Right s p ∧ (inStream s p).frag = none ∧ 1 ≤ (partOf s 0).run.committed) ∧
    (let s := meshed selImg false; let p := packet 4 2 1 0 0 64 (entry9 64); let c := packet 4 1 1 0 0 64 (bytesOfWords ([1, 0, 0, 9] ++ List.replicate 12 0))
     Due s p ∧ Right s p ∧ (inStream s p).frag = none ∧ hSub p.hdr = 2 ∧ Due s c ∧ Right s c ∧ (inStream s c).frag = none ∧ hSub c.hdr = 1 ∧
      dwordAt (wordsOfBytes c.data) 0 = 1 ∧ entryReady s 0 1 0 = true ∧ Due (busySlot s) c ∧ Right (busySlot s) c ∧ entryReady (busySlot s) 0 1 0 = false) := by
  unfold Due Right; and_intros <;> decide +kernel

/-- The first 4,096 bytes of an entry of 4,160 bytes, and the packet that brings them, with its CRC-32C. -/
def head9 : List Word := [1, 0, 0, 0, 0, 0, 0, 9] ++ List.replicate 8 0
def part9 : List Byte := bytesOfWords head9 ++ (List.replicate 63 (List.replicate 64 5)).flatten
def fragHdr (crc : Word) : List Word := [0x00010004, 0x00020005, 0, 0, 0, 0x00031000, 0] ++ [crc]
def fragment0 : Packet := pk (fragHdr 0x5E7D9B85) part9
theorem part9_length : part9.length = 4096 := by
  rw [part9, List.length_append]
  simp only [List.flatten_replicate_replicate, List.length_replicate]; decide +kernel
/-- `f` done `n` times, each result evaluated before the next. -/
def strictly (f : Nat → Nat) : Nat → Nat → Nat
  | 0, c => c
  | n + 1, c => match f c with
    | 0 => strictly f n 0
    | d + 1 => strictly f n (d + 1)
theorem crc_blocks (b : List Byte) (n c : Nat) :
    (List.replicate n b).flatten.foldl (crcByte 0x82F63B78) c = strictly (fun c => b.foldl (crcByte 0x82F63B78) c) n c := by
  induction n generalizing c with
  | zero => rfl
  | succ n ih =>
    rw [List.replicate_succ, List.flatten_cons, List.foldl_append, ih, strictly]
    cases b.foldl (crcByte 0x82F63B78) c <;> rfl
theorem whole_over (h : List Word) (hs : List Byte) (crc : Nat) (e : bytesOfWords (h.take 7) = hs) (w : (wordAt h 7).toNat = crc)
    (x : Nat.xor (strictly (fun c => (List.replicate 64 5).foldl (crcByte 0x82F63B78) c) 63 ((hs ++ bytesOfWords head9).foldl (crcByte 0x82F63B78)
      0xFFFFFFFF)) 0xFFFFFFFF = crc) : wholePacket (pk h part9) = true := by
  unfold wholePacket crc32c pk part9
  rw [e, w, ← List.append_assoc, List.foldl_append, crc_blocks, x, beq_self_eq_true]
theorem fragment0_whole : wholePacket fragment0 = true :=
  whole_over _ (bytesOfWords [0x00010004, 0x00020005, 0, 0, 0, 0x00031000, 0]) 0x5E7D9B85 rfl rfl (by decide +kernel)
theorem status_4096 (data : List Byte) (h : data.length = 4096) : reqStatus (meshed wideImg false) fragment0.hdr data = 0 := by
  unfold reqStatus formOk
  rw [h]; decide +kernel
theorem witness_QueuePushes_fragments :
    (let s := meshed wideImg false; let p := fragment0
     Due s p ∧ Right s p ∧ (inStream s p).frag = none ∧ (mapOfOp (imgOf s 0) (wordAt (wordsOfBytes (p.data.take 64)) 7).toNat).map emEntry = some 4160 ∧
      p.data.length = 4096) ∧
    (let p := packet 4 2 1 0 1 64 (List.replicate 64 6); let s := withStream (fun x => { x with expect := 1, frag := some (fragment0.hdr, fragment0.data) }) (meshed wideImg false)
     Due s p ∧ Right s p ∧ (inStream s p).frag = some (fragment0.hdr, fragment0.data) ∧ hSub p.hdr = 2 ∧ hAddr fragment0.hdr = hAddr p.hdr ∧
      p.data.length = min (4160 - fragment0.data.length) 4096 ∧ dwordAt (wordsOfBytes ((fragment0.data ++ p.data).take 64)) 0 = 1 ∧
      entryReady s 0 1 0 = true ∧ 4160 ≤ fragment0.data.length + p.data.length) := by
  have n : fragment0.data.length = 4096 := part9_length
  refine ⟨⟨⟨?_, fragment0_whole, ?_⟩, ⟨?_, status_4096 _ n, ?_⟩, ?_, ?_, n⟩, ⟨?_, packet_whole .., ?_⟩, ⟨?_, ?_, ?_⟩, rfl, ?_, ?_, ?_, ?_, ?_, ?_⟩
  case refine_14 => show _ = min (4160 - fragment0.data.length) 4096; rw [n]; decide +kernel
  case refine_17 => show 4160 ≤ fragment0.data.length + _; rw [n]; decide +kernel
  all_goals decide +kernel

/-- A release of step 2 with 4 bytes of input (R200). -/
def release2 : List Byte := bytesOfWords ([2, 0, 4] ++ List.replicate 13 0) ++ [1, 2, 3, 4]
/-- Journal of partition 0 with its one MiB in use. -/
def fullRing (s : State) : State := modJr 0 (fun j => { j with jring := [(0, 2 ^ 20, 1)], jnext := 0 }) s
/-- The list of cluster 0 is to forward the block of a Ferry slot, at the start of the data region, before its ATTEND reads the
next one (R200). -/
def forwarding : State :=
  let c := setAt (setAt attend0 1 0x03330400) 24 0x10000
  { meshed (setAt (setAt pimg 55 0x03330400) 78 0x10000) false with
    x := (running [setAt (setAt (0x1405 :: 5 :: List.replicate 18 0) 13 0x210000) 19 64, c]).x }
theorem witness_BulkAndReleases :
    let s := meshed pimg false
    (let p := packet 5 0 1 dataOff 0 8 [1, 2, 3, 4, 5, 6, 7, 8]
     Due s p ∧ (inStream s p).frag = none ∧ Right s p ∧ hbmRegion (hOff p.hdr) = 1 ∧ p.data ≠ [] ∧ storeStatus s 0 (hOff p.hdr) p.data.length = 0 ∧
      ferryBusy (wakeQuay (entered p s)) 0 (hOff p.hdr) p.data = false) ∧
    (let s := forwarding; let p := packet 5 0 1 dataOff 0 64 (List.replicate 64 0)
     Due s p ∧ (inStream s p).frag = none ∧ Right s p ∧ hbmRegion (hOff p.hdr) = 1 ∧ p.data ≠ [] ∧ storeStatus s 0 (hOff p.hdr) p.data.length = 0 ∧
      ferryBusy (wakeQuay (entered p s)) 0 (hOff p.hdr) p.data = true) ∧
    (let p := packet 5 0 1 dataOff 0 0 []
     Due s p ∧ (inStream s p).frag = none ∧ Right s p ∧ hbmRegion (hOff p.hdr) < 5 ∧ p.data = [] ∧ hSub p.hdr = 0) ∧
    (let p := packet 5 0 1 (5 * 2 ^ 48) 0 0 []
     Due s p ∧ (inStream s p).frag = none ∧ Right s p ∧ hbmRegion (hOff p.hdr) = 5 ∧ p.data = [] ∧ hSub p.hdr = 0) ∧
    (let p := packet 5 0 1 (2 * 2 ^ 48) 0 4 [1, 2, 3, 4]
     Due s p ∧ (inStream s p).frag = none ∧ Right s p ∧ hbmRegion (hOff p.hdr) < 5 ∧ hbmRegion (hOff p.hdr) ≠ 1 ∧ p.data ≠ []) ∧
    (let p := packet 5 1 1 (5 * 2 ^ 48) 0 68 release2; let ws := wordsOfBytes (p.data.take 64)
     Due s p ∧ (inStream s p).frag = none ∧ Right s p ∧ hbmRegion (hOff p.hdr) = 5 ∧ hbmIn (hOff p.hdr) = 0 ∧ hSub p.hdr = 1 ∧ 64 ≤ p.data.length ∧
      dwordAt ws 0 = 2 ∧ (wordAt ws 2).toNat = 4 ∧ entryBytes 4 ≤ ringBytes s 0 ∧ (partOf s 0).run.last < 2 ∧ ringPlace s 0 (entryBytes 4) = some 0 ∧
      Due (fullRing s) p ∧ Right (fullRing s) p ∧ ringPlace (fullRing s) 0 (entryBytes 4) = none ∧
      2 ≤ (partOf (modRun 0 (fun r => { r with last := 2 }) s) 0).run.last) ∧
    (let p := packet 5 0 1 (5 * 2 ^ 48) 0 16 (release2.take 16)
     Due s p ∧ Right s p ∧ hbmRegion (hOff p.hdr) = 5 ∧ hbmIn (hOff p.hdr) = 0 ∧ hSub p.hdr = 0 ∧ 16 ≤ p.data.length) := by
  unfold Due Right; and_intros <;> decide +kernel
/-- The inbox region that an address above the regions names is open (log 47): whichever way it is read, the rest can be met. -/
theorem witness_BulkAndReleases_inbox :
    let s := meshed pimg false; let p := packet 5 1 1 (6 * 2 ^ 48) 0 4 [1, 2, 3, 4]; let i := inboxPlace s 0 1 0 0 0
    Due s p ∧ (inStream s p).frag = none ∧ Right s p ∧ 5 < hbmRegion (hOff p.hdr) ∧ p.data ≠ [] ∧ (partOf s 0).run.committed < 1 ∧
    0 + p.data.length ≤ 1024 * inKib (imgOf s 0) (hostOf s 0 0) 0 ∧ slotReady s i.1 i.2.1 0 1 = true ∧
    (landReturn 0 0 1 0 p.data (wakeQuay (entered p s))).isSome = true := by
  unfold Due Right; and_intros <;> decide +kernel

/-! Services, responses and timers of the fabric. -/

/-- Words 9 to 15 zero after the first ones: 64 bytes. -/
def rec64 (ws : List Word) : List Byte := bytesOfWords (ws ++ List.replicate (16 - ws.length) 0)
theorem witness_ServiceRequests_shards :
    (let s := modBnd (fun b => { b with group := [128, 133] }) (meshed pimg false); let d := bytesOfWords ([0] ++ mfTag s.bnd.manifest ++ [1]); let p := packet 6 1 1 0 0 40 d
     let ws := wordsOfBytes p.data
     Due s p ∧ (inStream s p).frag = none ∧ Right s p ∧ hOp p.hdr = 6 ∧ hSub p.hdr = 1 ∧ s.sec.lifecycle = 2 ∧ (manifest s).isSome = true ∧
      slice ws 1 8 = mfTag s.bnd.manifest ∧ p.data.length = 40 ∧ s.bnd.group.getD (wordAt ws 9).toNat 0 = 128 + hSrc p.hdr ∧
      (wordAt ws 0).toNat < mfStripes s.bnd.manifest ∧ shardHeld s (wordAt ws 0).toNat = false) ∧
    (let s := modSec (fun x => { x with lifecycle := 3 }) (meshed pimg false); let p := packet 6 1 1 0 0 40 (bytesOfWords ([0] ++ mfTag s.bnd.manifest ++ [1]))
     Due s p ∧ (inStream s p).frag = none ∧ Right s p ∧ hSub p.hdr = 1 ∧ s.sec.lifecycle ≠ 2 ∧ slice (wordsOfBytes p.data) 1 8 = mfTag s.bnd.manifest) := by
  unfold Due Right; and_intros <;> decide +kernel
theorem witness_ServiceRequests_mirror :
    let s := meshed pimg false
    (let p := packet 6 2 1 0 0 64 (rec64 [3])
     Due s p ∧ (inStream s p).frag = none ∧ Right s p ∧ hSub p.hdr = 2 ∧ recordFormOk p.data = true ∧ fld (wordAt (wordsOfBytes (p.data.take 64)) 0) 0 4 ≤ 3) ∧
    (let p := packet 6 2 1 0 0 64 (rec64 [7])
     Due s p ∧ Right s p ∧ hSub p.hdr = 2 ∧ recordFormOk p.data = false) ∧
    (let p := packet 6 3 1 0 0 64 (rec64 [0, 7 + 2 * 65536, 1]); let ws := wordsOfBytes p.data; let key := mirrorKey 7 2 1
     let held : MirrorPart := { pages := [(key, [(0, [1])])] }; let t := modCont (fun c => { c with mirror := [(0, held)] }) s
     Due s p ∧ Right s p ∧ hSub p.hdr = 3 ∧ p.data.length = 64 ∧ reservedOk ws 0 16 [(0, 4, 5), (1, 0, 24), (2, 0, 32)] = true ∧
      mirrorKey (fld (wordAt ws 1) 0 16) (fld (wordAt ws 1) 16 8) (wordAt ws 2).toNat = key ∧ tgetD s.cont.mirror (fld (wordAt ws 0) 4 5) {} = {} ∧
      mirrorPage {} key = [] ∧ Due t p ∧ Right t p ∧ tgetD t.cont.mirror (fld (wordAt ws 0) 4 5) {} = held ∧ key ∉ held.badPages) ∧
    (let p := packet 6 4 1 0 0 64 (rec64 [0, 1]); let ws := wordsOfBytes p.data
     Due s p ∧ Right s p ∧ hSub p.hdr = 4 ∧ p.data.length = 64 ∧ bitOf (wordAt ws 0) 0 = false ∧
      reservedOk ws 0 16 [(0, 0, 1), (0, 4, 5), (1, 0, 32), (2, 0, 32)] = true) ∧
    (let p := packet 6 4 1 0 0 64 (rec64 [1, 1, 0, 7 + 2 * 65536, 1]); let ws := wordsOfBytes p.data
     Due s p ∧ Right s p ∧ hSub p.hdr = 4 ∧ p.data.length = 64 ∧ bitOf (wordAt ws 0) 0 = true ∧
      reservedOk ws 0 16 [(0, 0, 1), (0, 4, 5), (1, 0, 32), (2, 0, 32), (3, 0, 24), (4, 0, 32)] = true) := by
  unfold Due Right; and_intros <;> decide +kernel
theorem witness_ServiceRequests_page : mirrorPage { pages := [(mirrorKey 7 2 1, [(0, [1])])] } (mirrorKey 7 2 1) ≠ [] := by
  rw [Ne, ← List.isEmpty_iff]; decide +kernel

/-- A response of package 5: opcode, job, generation, SEQ, address, word 6, data. -/
def response (op job gen seq addr w6 : Nat) (data : List Byte) : Packet := pk (sealHdr (mkHdr op 0 1 job 5 0 gen addr seq data.length 3 w6) 0 data) data
/-- Request 3 of a stream towards package 5 is outstanding. -/
def asked (op sub job : Nat) : OutReq := { seq := 3, hdr := (packet op sub job dataOff 3 4 []).hdr, part := some 0 }
def asking (r : OutReq) (job : Nat) (s : State) : State :=
  modFab (fun f => { f with src := [{ plane := 0, dst := 5, job, next := 4, outs := [r] }] }) s
theorem witness_ResponsesCompleteRequests :
    (∀ x ∈ [(0x10, 1, [1]), (0x12, 3, [3]), (0x13, 1, [1, 2, 3, 4, 5, 6]), (0x13, 6, [1, 2, 3, 4, 5, 6])],
      let s := asking (asked x.2.1 0 1) 1 (meshed pimg false); let p := response x.1 1 2 3 0 0 [1, 2, 3, 4]
      Answers s p ∧ hOp p.hdr = x.1 ∧ Asked s p x.2.2 (asked x.2.1 0 1)) ∧
    (let s := asking (asked 2 0 1) 1 (meshed pimg false); let p := response 0x11 1 2 3 0 0 []
     Answers s p ∧ hOp p.hdr = 0x11 ∧ (outStream s p).outs = [asked 2 0 1]) ∧
    (let s := asking (asked 6 2 1) 1 (meshed pimg false); let p := response 0x14 1 2 3 0 0 []; let q := response 0x14 1 2 3 0 0x0A09 [1, 2, 3, 4]
     Answers s p ∧ hOp p.hdr = 0x14 ∧ Asked s p [6] (asked 6 2 1) ∧ p.data = [] ∧ Answers s q ∧ hOp q.hdr = 0x14 ∧ Asked s q [6] (asked 6 2 1) ∧
      hW6 q.hdr % 65536 ≠ 0) ∧
    (let s := modBnd (fun b => { b with group := [128, 133], rebuilds := [{ shard := 0, asked := [1] }] }) (asking (asked 6 1 1) 1 (meshed pimg false))
     let t := modBnd (fun b => { b with group := [128, 133] }) (asking (asked 6 1 1) 1 (meshed pimg false))
     let p := response 0x14 1 2 3 (4096 * 4095) 0 [1, 2, 3, 4]; let go := fun u => memberPiece 1 (hAddr p.hdr / 4096 % 4096) p.data u
     Answers s p ∧ hOp p.hdr = 0x14 ∧ Asked s p [6] (asked 6 1 1) ∧ hW6 p.hdr % 65536 = 0 ∧ p.data ≠ [] ∧ hSub (asked 6 1 1).hdr = 1 ∧
      positionOf s (hSrc p.hdr) = some 1 ∧ ((go s).bnd.rebuilds.head?.any fun b => (tget b.pieces 1).isSome) = true ∧
      Answers t p ∧ Asked t p [6] (asked 6 1 1) ∧ positionOf t (hSrc p.hdr) = some 1 ∧
      ((go t).bnd.rebuilds.head?.any fun b => (tget b.pieces 1).isSome) = false) ∧
    (let s := modCont (fun c => { c with fetches := [(0, 0, 2, 0)] }) (cached seq7 (asking (asked 6 3 1) 1 (meshed (setAt pimg 58 0x70002) false)))
     let p := response 0x14 1 2 3 4096 0 [1, 2, 3, 4]
     Answers s p ∧ hOp p.hdr = 0x14 ∧ Asked s p [6] (asked 6 3 1) ∧ hW6 p.hdr % 65536 = 0 ∧ p.data ≠ [] ∧ hSub (asked 6 3 1).hdr = 3 ∧
      s.cont.fetches = (0, 0, 2, 0) :: [] ∧ (s.cont.fetched.filter fun e => e.1 != hAddr p.hdr / 4096 % 4096).length + 1 < unitsOf s 0 0 0) ∧
    (let s := meshed pimg false; let p := response 0x10 1 2 3 0 0 [1, 2, 3, 4]; let bad : Packet := { p with data := [] }; let old := response 0x10 1 3 3 0 0 [1, 2, 3, 4]
     activePorts s 0 ≠ [] ∧ 0x10 ≤ hOp p.hdr ∧ hOp p.hdr ≤ 0x14 ∧ wholePacket bad = false ∧ wholePacket old = true ∧ hJob old.hdr ≠ serviceJob ∧
      genOf s (hJob old.hdr) ≠ hGen old.hdr ∧ Answers s p ∧ hOp p.hdr ≠ 0x11 ∧ (∀ o ∈ (outStream s p).outs, o.seq ≠ hSeq p.hdr)) := by
  unfold Answers Asked; and_intros <;> decide +kernel

theorem witness_StreamTimers :
    (let s := meshed pimg false; (dstOf s 0 5 1).acked = (dstOf s 0 5 1).expect ∧ (streamOf s 0 5 1).resultDue = false ∧ s.fab.mgmt.length ≤ 0) ∧
    (let s := withStream (fun x => { x with expect := 0, acked := 2 ^ 32 - 1 }) (meshed pimg false)
     (dstOf s 0 5 1).acked ≠ (dstOf s 0 5 1).expect) ∧
    (let s := modFab (fun f => { f with src := [{ plane := 0, dst := 5, job := 1, next := 4, resultDue := true }] }) (modHm (fun h => { h with joined := true }) (meshed pimg false))
     (streamOf s 0 5 1).resultDue = true ∧ sourceStatus s 1 5 = 0) ∧
    (let s := asking (asked 2 0 1) 1 (meshed pimg false); let x := streamOf s 0 5 1
     x.outs.find? (fun o => o.seq = (3 : Word).toNat) = some (asked 2 0 1) ∧ x.paused = false ∧ (asked 2 0 1).sends < 4) ∧
    (let r : OutReq := { asked 2 0 1 with sends := 4 }; let s := asking r 1 (meshed pimg false); let x := streamOf s 0 5 1
     x.outs.find? (fun o => o.seq = (3 : Word).toNat) = some r ∧ x.paused = false ∧ 4 ≤ r.sends) ∧
    (let m : Mgmt := { dst := 5, hdr := (packet 0x20 0 0 0 0 0 []).hdr }; (modFab (fun f => { f with mgmt := [m] }) (meshed pimg false)).fab.mgmt[0]? = some m) := by
  and_intros <;> decide +kernel

/-! Management of the fabric. -/

/-- A management packet of package 5: opcode, sub-operation, word 6, data. -/
def notice (op sub w6 : Nat) (data : List Byte) : Packet := pk (sealHdr (mkHdr op sub 2 0xFFFF 5 0 0 0 0 data.length 0 w6) 0 data) data
/-- The package on the fabric, with the changes `f` of its role. -/
def mesh : State := meshed pimg false
def withMgr (f : Manager → Manager) : State := modMgr f mesh
def withFab (f : Fabric → Fabric) : State := modFab f mesh
/-- A job of packages 0 and 5, and one that leaves package 0 out. -/
def job2 : Job := { job := 2, gen := 0, st := .active, members := [0, 5], parts := [(0, 1), (5, 1)] }
def job3 : Job := { job := 3, gen := 0, st := .active, members := [5, 6], parts := [(5, 1), (6, 1)] }
theorem witness_MemberManagement :
    (let p := notice 0x21 0 0 (jobGen 1 2); let q := notice 0x21 0 0 (jobGen 1 1); let r := notice 0x21 0 0 (jobGen 9 0)
     Managed mesh p 0x21 ∧ jobGenOf p.data = (1, 2) ∧ (jobOf mesh 1).map (fun e => (e.gen, e.st)) = some (2, .active) ∧
      Managed mesh q 0x21 ∧ jobGenOf q.data = (1, 1) ∧ Managed mesh r 0x21 ∧ jobGenOf r.data = (9, 0) ∧ jobOf mesh 9 = none) ∧
    (let s := mesh; let p := notice 0x23 0 0 (bytesOfWords (jobWords job2)); let e := job2
     Managed s p 0x23 ∧ e = mapEntry p ∧ e.job ≠ serviceJob ∧ p.data.length = 20 + 4 * e.members.length ∧ fld (wordAt (wordsOfBytes p.data) 0) 26 6 = 0 ∧
      myPkg s ∈ e.members ∧ jobOf s e.job = none ∧ s.fab.jobs.length < 64 ∧ activates s none e = none ∧ isPairing e = false ∧
      jobParts (putJob e s) e.job = [] ∧ e.st = .active ∧ jobOf (putJob e s) e.job = some e ∧ Managed (putJob e s) p 0x23) ∧
    (let p := notice 0x23 0 0 (bytesOfWords (jobWords job2)); let s := withFab fun f => { f with jobs := (List.range 64).map fun j => { job := 1000 + j } }
     Managed s p 0x23 ∧ myPkg s ∈ job2.members ∧ jobOf s job2.job = none ∧ 64 ≤ s.fab.jobs.length) ∧
    (let p := notice 0x23 0 0 (bytesOfWords (jobWords job3))
     Managed mesh p 0x23 ∧ job3 = mapEntry p ∧ p.data.length = 20 + 4 * job3.members.length ∧ fld (wordAt (wordsOfBytes p.data) 0) 26 6 = 0 ∧
      myPkg mesh ∉ job3.members ∧ jobOf mesh job3.job = none) ∧
    (let s := withFab fun f => { f with mgmt := [{ dst := 5, hdr := (notice 0x25 0 0 []).hdr }] }; let p := notice 0x26 0 0 (wordBytes (w32 (71 * 65536)))
     let q := notice 0x26 0 0 (wordBytes 0x0A06); let idle := modPw (fun w => { w with st := .quayside }) s
     Managed s p 0x26 ∧ joining s = true ∧ fld (wordAt (wordsOfBytes (p.data.take 4)) 0) 0 16 = 0 ∧
      Managed idle q 0x26 ∧ joining idle = true ∧ fld (wordAt (wordsOfBytes (q.data.take 4)) 0) 0 16 = 0x0A06 ∧ idle.pw.st ≠ .run ∧
      Managed mesh p 0x26 ∧ joining mesh = false) ∧
    (let s := modHm (fun h => { h with joined := true }) mesh; let p := notice 0x27 0 0 (managerData 5 (some 0)); let ws := wordsOfBytes p.data
     Managed s p 0x27 ∧ s.host.hm.joined = true ∧ s.mgr.electing = false ∧ fld (wordAt ws 0) 0 7 = 5 ∧ 5 ≠ myPkg s ∧ wordAt ws 1 ≠ 0xFFFFFFFF ∧
      s.host.hm.cutOff = false) ∧
    (let p := notice 0x2A 1 0 []; Managed mesh p 0x2A ∧ mesh.mgr.active = false) ∧
    (let p := pk (sealHdr (mkHdr 2 0 0 1 5 0 2 (fabAddr 9 0 dataOff) 0 4 3 0) 0 [1, 2, 3, 4]) [1, 2, 3, 4]; let none9 := withFab fun f => { f with routes := [(9, [])] }
     (hOp p.hdr < 0x10 ∧ hDstPkg p.hdr ≠ myPkg mesh ∧ activePorts mesh p.plane.val ≠ [] ∧ mesh.fab.refused = false ∧ mesh.pw.st = .run) ∧
      pathPort mesh (routeOf mesh p.plane.val (hDstPkg p.hdr)) (hPath p.hdr) = some 0 ∧
      activePorts none9 p.plane.val ≠ [] ∧ pathPort none9 (routeOf none9 p.plane.val (hDstPkg p.hdr)) (hPath p.hdr) = none) := by
  unfold Managed; and_intros <;> decide +kernel

def joinData : List Byte := bytesOfWords [9, 2]
def change1 : Change := { id := 1, kind := 6, pkg := 5 }
theorem witness_ManagerRole :
    (let p := notice 0x22 0 0 (jobGen 1 2); Managed mesh p 0x22 ∧ jobGenOf p.data = (1, 2)) ∧
    (let p := notice 0x24 0 0 (jobGen 1 2); let q := notice 0x24 0 0x0A05 (jobGen 1 2)
     let more := withMgr fun m => { m with mapWait := [(1, 2, [5, 6])] }; let last := withMgr fun m => { m with mapWait := [(1, 2, [5])] }
     Managed more p 0x24 ∧ jobGenOf p.data = (1, 2) ∧ more.mgr.mapWait.find? (fun w => w.1 = 1 ∧ w.2.1 = 2) = some (1, 2, [5, 6]) ∧ hW6 p.hdr % 65536 = 0 ∧
      [5, 6].filter (· != hSrc p.hdr) ≠ [] ∧ Managed last p 0x24 ∧ last.mgr.mapWait.find? (fun w => w.1 = 1 ∧ w.2.1 = 2) = some (1, 2, [5]) ∧
      [5].filter (· != hSrc p.hdr) = [] ∧ Managed mesh q 0x24 ∧ jobGenOf q.data = (1, 2) ∧ hW6 q.hdr % 65536 ≠ 0 ∧ mesh.mgr.mapWait = []) ∧
    (let s := withMgr fun m => { m with active := true }; let p := notice 0x25 0 0 joinData; let q := notice 0x25 1 0 [1]
     let held := withMgr fun m => { m with active := true, joins := [(5, joinData)], joined := [{ pkg := 9 }] }
     let many := withMgr fun m => { m with active := true, joins := [(5, joinData)], joined := (List.range 72).map fun k => { pkg := 20 + k } }
     Managed s p 0x25 ∧ s.mgr.active = true ∧ hSub p.hdr = 0 ∧ Managed held q 0x25 ∧ hSub q.hdr ≠ 0 ∧ tget held.mgr.joins (hSrc q.hdr) = some joinData ∧
      fld (wordAt (wordsOfBytes ((joinData ++ q.data).take 4)) 0) 0 7 = 9 ∧ joinStatus held (joinData ++ q.data) = 0x0A07 ∧
      (∀ e ∈ held.mgr.joined, e.pkg = 9 → e.evid ≠ sha256 (joinData ++ q.data)) ∧
      Managed many q 0x25 ∧ tget many.mgr.joins (hSrc q.hdr) = some joinData ∧ joinStatus many (joinData ++ q.data) = 0x0A06 ∧
      (∀ e ∈ many.mgr.joined, e.pkg ≠ 9) ∧ 72 ≤ joinedWith many 9 ∧ joinedWith held 9 < 72 ∧ hasJoined held 9 = true ∧
      (let near := withMgr fun m => { m with changes := [{ id := 1, kind := 3, pkg := 4 }], joined := (List.range 71).map fun k => { pkg := 20 + k } }
       72 ≤ joinedWith near 9 ∧ joinedWith near 4 < 72 ∧ joinStatus near (joinData ++ [1]) = 0x0A06)) ∧
    (let s := withMgr fun m => { m with active := true, joined := [{ pkg := 5 }] }; let p := notice 0x28 0 0 []
     Managed s p 0x28 ∧ s.mgr.active = true ∧ hasJoined s (hSrc p.hdr) = true ∧ hSrc p.hdr ∉ s.mgr.leaves ∧ Managed mesh p 0x28 ∧ mesh.mgr.active = false) ∧
    (let p := notice 0x29 0 0 (recordData change1); let s := withMgr fun m => { m with active := true, stby := some 5, changes := [change1] }
     Managed mesh p 0x29 ∧ mesh.mgr.active = false ∧ Managed s p 0x29 ∧ s.mgr.stby = some (hSrc p.hdr) ∧
      s.mgr.changes.find? (fun c => recordData c == p.data) = some change1) ∧
    (let d : Td := { job := 1, gen := 2, pkg := 9, wait := [5] }; (withMgr fun m => { m with tds := [d] }).mgr.tds.find? (fun d => d.job = 1) = some d) ∧
    mesh.mgr.tds = [] := by
  unfold Managed; and_intros <;> decide +kernel

theorem witness_FabricJoining :
    (let r := req 0x0B01 0 []; let s := posted r (modHm (fun h => { h with joined := true }) mesh)
     Heads s (.pf 0) 0x0B01 r ∧ s.host.hm.joined = true ∧ s.host.hm.cutOff = false) ∧
    (let r := req 0x0B01 0 []; let s := posted r mesh
     Heads s (.pf 0) 0x0B01 r ∧ s.host.hm.joined = false ∧ s.fab.knownMgr = none ∧ joining s = false) ∧
    (let r := req 0x0B01 0 []; let s := posted r (withFab fun f => { f with mgmt := [{ dst := 5, hdr := (notice 0x25 0 0 []).hdr }] })
     Heads s (.pf 0) 0x0B01 r ∧ s.host.hm.joined = false ∧ joining s = true) ∧
    (let r := req 0x0B01 0 []; let s := posted r (withFab fun f => { f with knownMgr := some 5, refused := true })
     Heads s (.pf 0) 0x0B01 r ∧ s.host.hm.joined = false ∧ canJoin (modFab (fun f => { f with refused := false }) s) = true ∧ s.fab.knownMgr = some 5) := by
  unfold Heads; and_intros <;> decide +kernel

theorem witness_HeartbeatsAndElections :
    (let p := notice 0x20 0 0 (bytesOfWords [0]); let s := withMgr fun m => { m with active := true, joined := [{ pkg := 5 }] }
     Managed s p 0x20 ∧ s.mgr.active = true ∧ s.fab.knownMgr ≠ some (hSrc p.hdr) ∧ s.fab.knownStby ≠ some (hSrc p.hdr) ∧
      bitOf (wordAt (wordsOfBytes p.data) 0) 1 = false) ∧
    (let p := notice 0x20 0 0 (bytesOfWords [0]); let s := withFab fun f => { f with knownMgr := some 5 }
     Managed s p 0x20 ∧ s.mgr.active = false ∧ s.mgr.standby = false ∧ s.fab.knownMgr = some (hSrc p.hdr) ∧ s.host.hm.cutOff = false) ∧
    (let s := modHm (fun h => { h with joined := true }) mesh; s.host.hm.joined = true ∧ s.mgr.active = false) ∧
    (let s := modHm (fun h => { h with joined := true }) (withMgr fun m => { m with active := true, joined := [{ pkg := 0 }, { pkg := 127 }] })
     s.host.hm.joined = true ∧ s.mgr.active = true ∧ (127 : Fin 128).val ≠ myPkg s ∧ hasJoined s (127 : Fin 128).val = true ∧ hasJoined s (1 : Fin 128).val = false) ∧
    (let s := modFab (fun f => { f with knownMgr := some 5 }) (withMgr fun m => { m with standby := true }); s.mgr.standby = true ∧ s.fab.knownMgr = some 5) ∧
    (let s := modHm (fun h => { h with joined := true }) (withFab fun f => { f with knownMgr := some 5 })
     s.host.hm.joined = true ∧ s.host.hm.cutOff = false ∧ s.fab.knownMgr = some 5 ∧ 5 ≠ myPkg s) ∧
    (mesh.host.hm.joined = false ∧ mesh.mgr.standby = false ∧ mesh.fab.knownMgr = none ∧ canClaim mesh = true ∧ mesh.mgr.lowest = none) ∧
    (let s := withMgr fun m => { m with electing := true, lowest := some 0 }; let t := withMgr fun m => { m with electing := true }
     s.fab.knownMgr = none ∧ canClaim s = true ∧ s.mgr.lowest = some (myPkg s) ∧ s.mgr.electing = true ∧ t.mgr.electing = true ∧
      t.mgr.lowest ≠ some (myPkg t)) := by
  unfold Managed; and_intros <;> decide +kernel

/-! Ports and redundancy. -/

/-- Port 17 in a state. -/
def portIn (q : Port) : State := { mesh with ports := [(17, q)] }
theorem witness_LinkTraining :
    (portOf (portIn { st := .detect }) (17 : Fin 18).val = { st := .detect }) ∧
    (portOf (portIn { st := .detect, savedEq := true, far := some (5, 17) }) (17 : Fin 18).val = { st := .detect, savedEq := true, far := some (5, 17) }) ∧
    (portOf (portIn { st := .detect, dead := true }) (17 : Fin 18).val = { st := .detect, dead := true }) ∧
    (portOf (portIn { st := .equalise }) (17 : Fin 18).val = { st := .equalise } ∧ (7 : Fin 9).val ≠ 8) ∧
    (let s := portIn { st := .verify }
     portOf s (17 : Fin 18).val = { st := .verify } ∧ (8 : Fin 18).val / 9 ≠ (17 : Fin 18).val / 9 ∧ (0 : Fin 128).val = myPkg s ∧
      (9 : Fin 18).val / 9 = (17 : Fin 18).val / 9 ∧ (127 : Fin 128).val ≠ myPkg s ∧ s.fab.knownMgr = none ∧
      (modFab (fun f => { f with knownMgr := some 5 }) s).fab.knownMgr ≠ none) ∧
    portOf (portIn { st := .active }) (17 : Fin 18).val = { st := .active } ∧ portOf (portIn {}) (17 : Fin 18).val = {} := by
  decide +kernel

/-- A flit of a link header, 256 zeros and the bytes after them: CRC-32C, and the parity of its two codewords (R304). -/
def flitOf (head tail : List Byte) : List Byte := head ++ List.replicate 256 0 ++ tail
def dataFlit : List Byte := flitOf [0, 0, 0, 0] [9, 158, 243, 236, 0, 0, 0, 0, 209, 227, 253, 71]
def idleFlit : List Byte := flitOf [0, 0, 0, 1] [202, 13, 254, 137, 42, 2, 76, 101, 84, 188, 52, 108]
def controlFlit : List Byte := flitOf [0, 0, 0, 2] [143, 185, 232, 38, 84, 4, 152, 202, 17, 228, 136, 133]
/-- A fold whose accumulator is evaluated at each byte. -/
def foldStrictly (f : Nat → Byte → Nat) : List Byte → Nat → Nat
  | [], c => c
  | b :: bs, c => match f c b with
    | 0 => foldStrictly f bs 0
    | d + 1 => foldStrictly f bs (d + 1)
theorem foldl_strictly (f : Nat → Byte → Nat) (bs : List Byte) (c : Nat) : bs.foldl f c = foldStrictly f bs c := by
  induction bs generalizing c with
  | nil => rfl
  | cons b bs ih => rw [List.foldl_cons, ih, foldStrictly]; cases f c b <;> rfl
theorem good_strictly (r : List Byte) (b : Bool) (h : (Nat.xor (foldStrictly (crcByte 0x82F63B78) (r.take 260) 0xFFFFFFFF) 0xFFFFFFFF ==
    natOfBytes (slice r 260 4)) = b) : flitGood r = b := by
  rw [flitGood, crc32c, foldl_strictly]; exact h
theorem flits_good : flitGood (dataFlit.take 264) = true ∧ flitGood (idleFlit.take 264) = true ∧ flitGood (controlFlit.take 264) = true ∧
    flitGood ((List.replicate 272 0).take 264) = false :=
  ⟨good_strictly _ _ (by decide +kernel), good_strictly _ _ (by decide +kernel), good_strictly _ _ (by decide +kernel),
    good_strictly _ _ (by decide +kernel)⟩
theorem flits_fixed : ∀ f ∈ [dataFlit, idleFlit, controlFlit, List.replicate 272 0], flitFix f = (f.take 264, []) ∧ f.length = 272 := by
  unfold flitFix rsFix rsErrors rsSyndrome; simp only [foldl_strictly]; decide +kernel
theorem witness_LinkFlits :
    (let r := dataFlit.take 264; fld (flitHead r) 24 4 = 0 ∧ fld (flitHead r) 0 12 = ({ st := .active } : Port).rxSeq ∧
      fld (flitHead r) 0 12 ≠ 4095 ∧ serialDiff (fld (flitHead r) 0 12) 4095 4096 < 2048 ∧ 2048 ≤ serialDiff (fld (flitHead r) 0 12) 5 4096) ∧
    (∀ n ∈ [0, 5, 4095], portOf (portIn { st := .active, rxSeq := n }) 17 = { st := .active, rxSeq := n }) ∧
    fld (flitHead (idleFlit.take 264)) 24 4 = 1 ∧ fld (flitHead (controlFlit.take 264)) 24 4 = 2 ∧
    (∀ n ∈ [7, 8], let f : Flit := { resends := n }; let q := portOf (portIn { st := .active, replay := [f] }) 17; q.st = .active ∧ q.replay = f :: []) ∧
    (let q := portOf (portIn { st := .active, sparing := true, spared := some 0 }) 17
     q.sparing = true ∧ q.dead = false ∧ 8 ∉ q.faulty ∧ q.spared ≠ none) ∧ (portOf (portIn {}) 17).sparing = false := by
  decide +kernel

theorem witness_ContinuityOfService :
    (let s := mesh; hmFollowed s = true ∧ s.host.hm.gone = false ∧ s.parts.length = 1 ∧ 2 * (3 : Fin 4).val + (1 : Fin 2).val ∉ s.health.links ∧
      2 * (3 : Fin 4).val + (1 - (1 : Fin 2).val) ∉ s.health.links ∧ (3 : Fin 4).val ∉ s.health.diesOut ∧ 12 ∉ s.health.links ∧ s.health.iod0Out = false ∧
      activeHolder s = none) ∧
    (∀ e ∈ serving.parts, flying serving e.1 = []) ∧ hmFollowed serving = true ∧
    (let s := modHm (fun h => { h with instOut := true }) mesh; hmFollowed s = false ∧ s.host.hm.gone = false) ∧
    (modHm (fun h => { h with gone := true }) mesh).host.hm.gone = true ∧
    (let s := modHealth (fun h => { h with links := [6, 12] }) mesh
     2 * (3 : Fin 4).val + (0 : Fin 2).val ∈ s.health.links ∧ 2 * (3 : Fin 4).val + (1 : Fin 2).val ∉ s.health.links ∧
      2 * (3 : Fin 4).val + (1 - (1 : Fin 2).val) ∈ s.health.links ∧ (3 : Fin 4).val ∉ s.health.diesOut ∧ 12 ∈ s.health.links) ∧
    (let s := modHealth (fun h => { h with diesOut := [3], iod0Out := true }) mesh; (3 : Fin 4).val ∈ s.health.diesOut ∧ s.health.iod0Out = true) ∧
    activeHolder (modCont (fun c => { c with holder := some 5 }) mesh) = some 5 := by
  and_intros <;> decide +kernel

/-! Lists under way. -/

/-- A run of step 1 of partition 0, and END_STEP. -/
def run1 (todo : List (List Word)) : Run := { part := 0, step := 1, todo := todo.map fun c => { words := c } }
def endCmd : List Word := [0x030D, 0, 0]
/-- Command `c` stands next in `running`, with END_STEP after it. -/
def next1 (c : List Word) : State := running [c, endCmd]
/-- It is ready in `s`. -/
def ReadyIn (s : State) (c : List Word) : Prop := Ready s at0 (run1 [c, endCmd]) { words := c } [{ words := endCmd }] (relocAt s at0 c)
/-- Its reads are good as well. -/
def GoodIn (s : State) (c : List Word) : Prop := ReadyIn s c ∧ ReadsGood s at0 quiet (relocAt s at0 c)
/-- `s` with cluster 0 changed. -/
def cluster0 (f : Cluster → Cluster) (s : State) : State := modCluster 0 f s

theorem witness_PilotRunsInOrder :
    (∀ w ∈ [[0x0100], [0x1001, 0], [0x0902, 0], [0x0D03, 1], [0x0D03, 8], attend0, [0x1405, 0], [0x1405, 5], [0x0806, 0], [0x0207, 0], endCmd], Plain w) ∧
    runAt serving at0 = none ∧
    (Stands (next1 [0x0100]) at0 (run1 [[0x0100], endCmd]) { words := [0x0100] } [{ words := endCmd }] ∧ cOp [0x0902, 0] ≠ cOp [0x0100]) ∧
    (let a : At := { at0 with step := 2 }; let r : Run := { run1 [[0x0100]] with step := 2 }
     let s := cluster0 (fun k => { k with runs := k.runs ++ [r] }) (next1 [0x0100])
     runAt s a = some r ∧ r.todo = { words := [0x0100] } :: [] ∧ listOpen s a = false) ∧
    (let s := cluster0 (fun k => { k with out := true }) (next1 [0x0100])
     runAt s at0 = some (run1 [[0x0100], endCmd]) ∧ (run1 [[0x0100], endCmd]).todo = { words := [0x0100] } :: [{ words := endCmd }] ∧
      (clusterOf s at0.cluster.val).out = true) ∧
    (let k : Cmd := { words := [0x0209, 5], expanded := true, depth := 1 }; let r : Run := { run1 [] with todo := [k] }
     let s := cluster0 (fun q => { q with runs := [r] }) (running [])
     Stands s at0 r k [] ∧ refusedFor s at0 k ≠ 0) ∧
    (let s := busySlot (next1 [0x0100]); let k : Cmd := { words := [0x0100] }
     Stands s at0 (run1 [[0x0100], endCmd]) k [{ words := endCmd }] ∧ refusedFor s at0 k = 0 ∧
      holds s at0 (run1 [[0x0100], endCmd]) (relocAt s at0 [0x0100]) ≠ []) := by
  unfold Plain Stands; and_intros <;> decide +kernel

/-- Entry 0 of the window of cluster 0 has landed for step 1. -/
def landed0 (s : State) : State := cluster0 (fun k => { k with wins := [(0, { entry := 0, step := 1, landed := true, released := false })] }) s
/-- Region 0 of cluster 0 has its one post. -/
def posted0 (s : State) : State := cluster0 (fun k => { k with inbox := [(0, 1)] }) s
theorem witness_PilotCommands :
    ReadyIn (next1 [0x0100]) [0x0100] ∧
    (let c := [0x0207, 0]; ReadyIn (landed0 (next1 c)) c ∧ landed (landed0 (next1 c)) at0 (layerOf (relocAt (landed0 (next1 c)) at0 c)) = true ∧
      ReadyIn (next1 c) c ∧ landed (next1 c) at0 (layerOf (relocAt (next1 c) at0 c)) = false) ∧
    (let c := [0x0208, 0]; let s := landed0 (next1 c); let w : Win := { entry := 0, step := 1, landed := true, released := false }
     ReadyIn s c ∧ releaseHold at0 (relocAt s at0 c) s = [] ∧
      tget (clusterOf s 0).wins (winKey (imgOf s 0) (imgC s at0) (layerOf (relocAt s at0 c))) = some w ∧ w.entry = 0 ∧ w.step = at0.step) ∧
    (∀ b ∈ [0, 1], let c : List Word := [0x0209, w32 b]; let s := next1 c
     ReadyIn s c ∧ earlierDone s at0 = true ∧ (run1 [c, endCmd]).atBar = none ∧ fld (wordAt (relocAt s at0 c) 1) 0 6 = b) ∧
    (let s := next1 [0x0209, 1]; (∀ x ∈ barMembers (imgOf s 0) 1, x ∈ arrived s 0 1 1 ∨ (barHas (imgOf s 0) 1 x = true ∧ x < 48 ∧ (x = imgC s at0 ∨ x = guestC s at0))) ∧
      (∃ x ∈ barMembers (imgOf s 0) 0, x ∉ arrived s 0 1 0 ∧ x ≠ imgC s at0 ∧ x ≠ guestC s at0)) ∧
    (let c : List Word := [0x060A, 7, 2, 0, 0, 2]; let s := next1 c; let d := relocAt s at0 c
     ReadyIn s c ∧ expandHold at0 d s = [] ∧ templateOf (imgOf s 0) (fld (wordAt d 1) 0 16) = some (7, [0x0100], []) ∧ expandCount s at0 d ≤ 2 ^ 24 ∧
      opdOk (paramOpd s at0 d) = true ∧
      instances s (flatOf 0 (cCore d) (paramOpd s at0 d).2.1 (paramOpd s at0 d).2.2.1) (fld (wordAt d 4) 0 16) (7, [0x0100], []) (expandCount s at0 d) =
        some [0x0100, 0x0100]) ∧
    (let c := [0x020B, 0]; ReadyIn (next1 c) c ∧ postHold at0 (relocAt (next1 c) at0 c) (next1 c) = []) ∧
    (let c := [0x020C, 0]; let s := posted0 (next1 c)
     ReadyIn s c ∧ inPosts (imgOf s 0) (imgC s at0) 0 ≤ inboxCount s 0 (slotA s at0) 0 ∧ ReadyIn (next1 c) c ∧
      inboxCount (next1 c) 0 (slotA (next1 c) at0) 0 < inPosts (imgOf (next1 c) 0) (imgC (next1 c) at0) 0) ∧
    (let s := posted0 (next1 endCmd); let c := relocAt s at0 endCmd
     ReadyIn s endCmd ∧ bitOf (wordAt c 1) 25 = false ∧ earlierDone s at0 = true ∧ postsExact s at0 false = true ∧
      stepRec s 0 at0.step = some { id := 1, st := .admitted } ∧ (∃ y ∈ runners s 0, y ∉ ([] : List Nat) ∧ y ≠ imgC s at0)) ∧
    (let s := modStep 0 1 (fun x => { x with left := [1] }) (posted0 (next1 endCmd)); let x : StepRec := { id := 1, st := .admitted, left := [1] }
     ReadyIn s endCmd ∧ stepRec s 0 at0.step = some x ∧ (∀ y ∈ runners s 0, y ∈ x.left ∨ y = imgC s at0) ∧ appendShort s 0 x = false ∧
      postsExact s at0 false = true ∧ earlierDone s at0 = true) ∧
    (let c : List Word := [0x030D, 0x2000000, 0]; let s := next1 c
     ReadyIn s c ∧ bitOf (wordAt (relocAt s at0 c) 1) 25 = true ∧ postsExact s at0 true = true) := by
  unfold ReadyIn Ready Stands; and_intros <;> decide +kernel

/-- A PASS of 1 row, 1 column and 64 products of FP8 E4M3 by FP8 E4M3 into FP32, and a QUANT of one block to FP4. -/
def pass1 : List Word := [0x1001, 0x00008033, 0x101, 64, 0x1000, 0, 0x2000, 0, 0x3000, 0, 0, 0, 1, 0, 0, 64]
def quant1 : List Word := [0x0902, 0, 0x1000, 0x060101, 0, 0, 1, 0, 0]
/-- A VEC of a function on one row of one element, and MOVEs: SRAM to SRAM, mapped HBM to SRAM, unmapped HBM to SRAM. -/
def vec1 (f : Nat) : List Word := [0x0D03, w32 f, 0, 0x1000, 0x2000, 1, 1, 1, 0, 0, 0, 0, 0]
def moveSram : List Word := [0x0806, 0, 0, 0x40, 0, 64, 0, 0]
def moveHbm (hi : Nat) : List Word := [0x0806, 0, w32 (2 * 2 ^ 20 + hi), 0x40, 0, 64, 0, 0]
/-- The manifest says that shard 0 holds FP4 blocks. -/
def blockShards : BondState := { sealedUp.bnd with manifest := setAt man 32 (1 + 6 * 512) }
theorem witness_ArithmeticCommands :
    (∀ c ∈ [pass1, setAt pass1 2 0], GoodIn (next1 c) c ∧ passHold at0 (relocAt (next1 c) at0 c) (next1 c) = []) ∧
    ((passBad (next1 pass1) at0 (relocAt (next1 pass1) at0 pass1)).1 + (passBad (next1 pass1) at0 (relocAt (next1 pass1) at0 pass1)).2.1 = 0) ∧
    pEmpty ((setAt pass1 2 0).drop 1) = true ∧
    (let c := setAt pass1 1 0x00008036; let s := storeRows [(flatOf 0 0 (adr 0x1000).1 (adr 0x1000).2, [1])] (next1 c)
     GoodIn s c ∧ passHold at0 (relocAt s at0 c) s = [] ∧ (passMeets at0 quiet (relocAt s at0 c) s).1 = false) ∧
    (GoodIn (next1 quant1) quant1 ∧ quantHold at0 (relocAt (next1 quant1) at0 quant1) (next1 quant1) = []) ∧
    (∀ f : Fin 8, let c := vec1 (f.val + 1); GoodIn (next1 c) c ∧ vFunc c = f.val + 1 ∧ vLen (relocAt (next1 c) at0 c) = 1 ∧ vRows (relocAt (next1 c) at0 c) = 1) ∧
    (∀ m : Fin 3, let c := setAt attend0 1 (w32 (0x03330000 + m.val)); GoodIn (next1 c) c ∧ aMode c = m.val ∧ attendHold at0 (relocAt (next1 c) at0 c) (next1 c) = []) ∧
    (GoodIn (next1 moveSram) moveSram ∧ moveHold at0 (relocAt (next1 moveSram) at0 moveSram) (next1 moveSram) = [] ∧ mBytes moveSram ≠ 0 ∧
      mSrcKind moveSram ≤ 1 ∧ mDstKind moveSram ≤ 1 ∧ MemOk (next1 moveSram) ∧ mBytes [0x0806, 0, 0, 0, 0, 0, 0, 0] = 0) ∧
    (∀ hi ∈ [2 ^ 16, 2 ^ 16 + 1], let c := moveHbm hi; GoodIn (next1 c) c ∧ moveHold at0 (relocAt (next1 c) at0 c) (next1 c) = [] ∧ mBytes c ≠ 0 ∧ mSrcKind c = 2 ∧
      mDstKind c ≤ 1 ∧ mapped (next1 c) 0 (mSrc c) (mBytes c) = decide (hi = 2 ^ 16) ∧
      (moveMeets at0 quiet (relocAt (next1 c) at0 c) (next1 c)).1 = true) ∧
    (let c := moveHbm 0; let s := hbmStore 0 0 [1] { next1 c with images := [(3, { words := setAt pimg 147 1 })], bnd := blockShards, stages := [{ slot := 0, stageId := 9, digest := manDigest, complete := true, entries := [[0, 0, 0, 64, 0]], done := 1 }] }
     GoodIn s c ∧ moveHold at0 (relocAt s at0 c) s = [] ∧ (moveMeets at0 quiet (relocAt s at0 c) s).1 = false) := by
  unfold GoodIn ReadyIn ReadsGood Ready Stands MemOk; and_intros <;> decide +kernel
theorem witness_ArithmeticCommands_keys :
    (let c := attend0; attendMeets at0 quiet (relocAt (next1 c) at0 c) (next1 c) = (true, next1 c)) ∧
    (let c := setAt attend0 1 0x03330001; attendMeets at0 quiet (relocAt (next1 c) at0 c) (next1 c) = (true, next1 c)) ∧
    (let c := setAt attend0 1 0x03330002; attendMeets at0 quiet (relocAt (next1 c) at0 c) (next1 c) = (true, next1 c)) := ⟨rfl, rfl, rfl⟩

/-- SELECT of one token over one expert, SEAL, GATHER, RETURN, COMBINE and PUSH of operation 9, queue 0. -/
def route1 (mode : Nat) : List Word :=
  [0x1405, w32 (mode + 2 ^ 12 + 3 * 2 ^ 16 + 3 * 2 ^ 20), 9, 1, 1, 0x100, 64, 0, 0x1000, 64, 64, 0x2000, 0, 0x200000, 64, 0, 0, 0, 0x200000, 0]
/-- Queue 0 of map 0 for step 1 on cluster 0. -/
def withQueue (z : Queue) (s : State) : State := modQueue 0 0 1 0 0 (fun _ => z) s
def entry0 : List Word × Nat × Bool := (wordsOfBytes ((entry9 128).take 64), 0x100000, false)
def map0 : Option EMap := mapOf pimg 0
theorem witness_RoutingCommands :
    (∀ m ∈ [0, 3, 4, 5], let c := route1 m; GoodIn (next1 c) c ∧ cOp c = 5 ∧ rMode c = m) ∧
    (let c := route1 4; let s := next1 c; let d := relocAt s at0 c; rTokens d ≠ 0 ∧ returned s at0 d = validChoices s at0 d) ∧
    (let c := route1 4; let s := modEx 0 (fun e => { e with sels := [{ op := 9, step := 1, got := 1 }] }) (next1 c); let d := relocAt s at0 c
     GoodIn s c ∧ rTokens d ≠ 0 ∧ returned s at0 d ≠ validChoices s at0 d) ∧
    (let c := route1 5; pushHold at0 (relocAt (next1 c) at0 c) (next1 c) = []) ∧
    (let c := route1 2; let s := next1 c; let t := withQueue { entries := [entry0], closes := [(0, 9, 1)], sealed := true, order := [0] } s
     ReadyIn s c ∧ (mapAt s at0 (relocAt s at0 c)).isSome = true ∧ (map0.map fun m => roundRows (queueAt s at0 m 0) 0) = some none ∧
      ReadyIn t c ∧ mapAt t at0 (relocAt t at0 c) = map0 ∧ (map0.map fun m => roundRows (queueAt t at0 m 0) 0) = some (some 1)) ∧
    (let c := route1 1; let z : Queue := { entries := [entry0], closes := [(0, 9, 1)] }; let s := withQueue z (next1 c); let d := relocAt s at0 c
     ReadyIn s c ∧ mapAt s at0 d = map0 ∧ map0.map (fun m => queueAt s at0 m (rQueue d)) = some z ∧ (partOf s 0).ex.qwait = [] ∧ sealHold at0 d s = [] ∧
      opdOk (recordOpd d z) = true ∧ ReadyIn (next1 c) c ∧ map0.map (fun m => sealable (next1 c) at0 m (queueAt (next1 c) at0 m 0)) = some false) := by
  unfold GoodIn ReadyIn ReadsGood Ready Stands; and_intros <;> decide +kernel
theorem witness_RoutingCommands_gather :
    (let c := route1 2; let s := next1 c; gatherMeets at0 quiet (relocAt s at0 c) s = (true, s)) ∧
    (let c := route1 2; let s := withQueue { entries := [entry0], closes := [(0, 9, 1)], sealed := true, order := [0] } (next1 c)
     gatherMeets at0 quiet (relocAt s at0 c) s = (true, s)) := ⟨rfl, rfl⟩

/-! What time and other units do, weight streams, and the memory tiers. -/

/-- An image with a safeguard record of operation 0. -/
def safeImg : List Word := setAt pimg 44 6
/-- Cluster 0's run is `f` of what it was. -/
def withRun1 (f : Run → Run) (s : State) : State := cluster0 (fun k => { k with runs := k.runs.map f }) s
theorem witness_WorkUnderWay_lists :
    (let s := running []; (coreOf s (383 : Fin 384).val).gather = [] ∧ arrived s 0 1 (63 : Fin 64).val = [] ∧ (runAt s at0).bind (fun r => r.sealFrom) = none ∧
      ((runAt s at0).bind fun r => r.waitFrom) = none) ∧
    (let o : GatherEntry := { due := 7 }; let s := modCore 383 (fun c => { c with gather := [{ due := 9 }, o] }) (running [])
     (coreOf s (383 : Fin 384).val).gather.find? (fun e => e.due == (((coreOf s (383 : Fin 384).val).gather.map fun e => e.due).min?).getD 0) = some o) ∧
    (∀ w ∈ [0, 1, 7], let r : Run := { run1 [[0x0100]] with atBar := some 63, waves := w }
     runAt (withRun1 (fun _ => r) (next1 [0x0100])) at0 = some r ∧ r.atBar = some (63 : Fin 64).val) ∧
    (let s := modRun 0 (fun q => { q with barr := [(barKey 1 0, [0])] }) (running []); arrived s at0.part.val at0.step (0 : Fin 64).val ≠ [] ∧
      (at0.part.val, at0.step) ∉ s.cont.hung ∧ (at0.part.val, at0.step) ∈ (modCont (fun c => { c with hung := [(0, 1)] }) s).cont.hung) ∧
    (let s := withRun1 (fun r => { r with sealFrom := some 5 }) (next1 (route1 1))
     (runAt s at0).bind (fun r => r.sealFrom) = some 5 ∧ sealNext s at0 = some (relocAt s at0 (route1 1))) ∧
    (let s := withRun1 (fun r => { r with waitFrom := some 5 }) (running []); ((runAt s at0).bind fun r => r.waitFrom) = some 5) := by
  and_intros <;> decide +kernel
/-- Probe `q` stands first with the Chamois unit of die 3. -/
def probed (q : Probe) : State :=
  let s := { running [] with images := [(3, { words := safeImg })] }
  { s with x := { s.x with chm := [(3, { queue := [q] })] } }
theorem witness_WorkUnderWay_units :
    (let s := modTiers (fun t => { t with macros := [(0, { scrub := true, bad := [1] }), (1, {})] }) (running [])
     tget s.tiers.macros 0 = some { scrub := true, bad := [1] } ∧ ({ scrub := true, bad := [1] } : Macro).scrub = true) ∧
    (let x : StepRec := { id := 1, st := .admitted }
     stepRec (running []) at0.part.val at0.step = some x ∧ inFlight x = true ∧ 2 ^ 24 - 4 + ([1, 2, 3, 4] : List Byte).length ≤ 2 ^ 24 ∧
      stepRec (running []) at0.part.val 2 = none ∧ (chmOf (running []) (3 : Fin 4).val).queue.find? (probeReady (running [])) = none) ∧
    (∀ b l : Bool, let q : Probe := { product := b, lost := l }
     (chmOf (probed q) (3 : Fin 4).val).queue.find? (probeReady (probed q)) = some q ∧ (safeOf (imgOf (probed q) q.part) q.op).isSome = true ∧
      (tileBad (probed q) q).1 + (tileBad (probed q) q).2 = 0) ∧
    (let c := (setAt pass1 1 0x00008066).drop 1; let q : Probe := { product := true, rung := 1, pass := c, grp := [{ words := c, res := [List.replicate 64 1], rung := 1 }, { words := c }] }
     (chmOf (probed q) (3 : Fin 4).val).queue.find? (probeReady (probed q)) = some q ∧ (tileBad (probed q) q).1 + (tileBad (probed q) q).2 ≠ 0) := by
  and_intros <;> decide +kernel

/-- `s` with its stage changed. -/
def withStage (f : Stage → Stage) (s : State) : State := { s with stages := s.stages.map f }
def stage9 : Stage := { slot := 0, stageId := 9, digest := manDigest, complete := true }
/-- One restore entry of 64 bytes. -/
def entry64 : List (List Word) := [[0, 0, 0, 64, 0]]
theorem witness_WeightStreams_begin :
    (ownerOf served (47 : Fin 48).val = none) ∧
    (let s := next1 [0x0207, 0]; let e := pfStream (imgOf s 0) 0
     ownerOf s (0 : Fin 48).val = some 0 ∧ nextStream s 0 0 = some (1, 0) ∧ stageOf s 0 = some stage9 ∧ (clusterOf s 0).out = false ∧
      tget (clusterOf s 0).wins (winKey (imgOf s 0) (imgCluster s 0 0) 0) = none ∧ streamsInFlight (clusterOf s 0) < 2 ∧
      rungFixed s 0 (seOp e) 1 = true ∧ rungOf s 0 (seOp e) 1 = 0 ∧ restored stage9 (seSrc e) (seBase e) = true ∧
      allResident stage9 (entryDie e) (seOp e) 0 (entryChunks s stage9 (imgOf s 0) e 0) = true) ∧
    (let s := withStage (fun st => { st with entries := entry64 }) (next1 [0x0207, 0]); let e := pfStream (imgOf s 0) 0; let st := { stage9 with entries := entry64 }
     ownerOf s (0 : Fin 48).val = some 0 ∧ nextStream s 0 0 = some (1, 0) ∧ stageOf s 0 = some st ∧ streamsInFlight (clusterOf s 0) < 2 ∧
      rungFixed s 0 (seOp e) 1 = true ∧ rungOf s 0 (seOp e) 1 ≤ 1 ∧ restored st (seSrc e) (seBase e) = false) ∧
    (let s := modFb 0 (fun f => { f with cur := { f.cur with ops := [(0, { rung := 1 })] } }) { next1 [0x0207, 0] with images := [(3, { words := safeImg })] }
     let e := pfStream (imgOf s 0) 0
     ownerOf s (0 : Fin 48).val = some 0 ∧ nextStream s 0 0 = some (1, 0) ∧ stageOf s 0 = some stage9 ∧ streamsInFlight (clusterOf s 0) < 2 ∧
      rungFixed s 0 (seOp e) 1 = true ∧ rungOf s 0 (seOp e) 1 = 1 ∧ restored stage9 (seSrc e) (seBase e) = true ∧
      allResident stage9 (entryDie e) (seOp e) 1 (entryChunks s stage9 (imgOf s 0) e 1) = false) ∧
    (let s := modFb 0 (fun f => { f with cur := { f.cur with ops := [(0, { rung := 2 })] } }) { next1 [0x0207, 0] with images := [(3, { words := safeImg })] }
     let e := pfStream (imgOf s 0) 0
     ownerOf s (0 : Fin 48).val = some 0 ∧ nextStream s 0 0 = some (1, 0) ∧ stageOf s 0 = some stage9 ∧ streamsInFlight (clusterOf s 0) < 2 ∧
      rungFixed s 0 (seOp e) 1 = true ∧ rungOf s 0 (seOp e) 1 = 2 ∧ allResident stage9 (entryDie e) (seOp e) 2 (entryChunks s stage9 (imgOf s 0) e 2) = true) ∧
    (let w : Win := { entry := 0, step := 1, released := false }; let s := cluster0 (fun k => { k with wins := [(0, w)] }) (next1 [0x0207, 0])
     let t := { hbmStore 0 0 [1] (withStage (fun st => { st with entries := entry64 }) s) with bnd := blockShards }; let st := { stage9 with entries := entry64 }
     let u := modTiers (fun t => { t with refetch := [{ kind := 2, addr := 64 * 2 ^ 52 }] }) t
     ownerOf s (0 : Fin 48).val = some 0 ∧ (clusterOf s 0).wins.find? (winOpen (0 : Fin 4).val) = some (0, w) ∧ stageOf s 0 = some stage9 ∧
      streamFetching s 0 stage9 (pfStream (imgOf s 0) 0) w.rung = false ∧ streamFaults s 0 stage9 (pfStream (imgOf s 0) 0) w.rung = ([], []) ∧
      stageOf t 0 = some st ∧ streamFetching t 0 st (pfStream (imgOf t 0) 0) w.rung = false ∧
      streamFaults t 0 st (pfStream (imgOf t 0) 0) w.rung ≠ ([], []) ∧ stageOf u 0 = some st ∧
      streamFetching u 0 st (pfStream (imgOf u 0) 0) w.rung = true) := by
  and_intros <;> decide +kernel
theorem witness_WeightStreams_wheel :
    (let r : RungReq := { part := 0, step := 1, op := 0, rung := 1 }; let s := withStage (fun st => { st with reqs := [r] }) (running [])
     wheelPick s = some clRung ∧ pickRung s false = some ({ stage9 with reqs := [r] }, r)) ∧
    (let r : ColdReq := { part := 0, step := 1, expert := 0, slot := some 0 }; let st := { stage9 with coldReqs := [r] }
     let s := modTiers (fun t => { t with wheel := 1 }) (withStage (fun st => { st with coldReqs := [r] }) (running []))
     wheelPick s = some clCold ∧ pickCold s false = some (st, r) ∧ r.slot = some 0 ∧ coldGot st r = 0 ∧
      st.coldReqs.find? (fun q => q.expert == r.expert) = some r) ∧
    (wheelPick (running []) = none) ∧
    (let s := withStage (fun st => { st with entries := entry64 }) (running [])
     wheelPick s = some clRestore ∧ nextUnit s = some ({ stage9 with entries := entry64 }, 0)) ∧
    (let s := withStage (fun st => { st with entries := entry64, done := 1, lost := [0] }) (running [])
     wheelPick s = some clRepair ∧ lostUnit s = some ({ stage9 with entries := entry64, done := 1, lost := [0] }, 0)) ∧
    (∀ f ∈ ([(0, false)] : PageFails), f.2 = false) ∧ ∃ f ∈ ([(0, true)] : PageFails), f.2 = true := by
  and_intros <;> decide +kernel

theorem witness_MemoryRepairs :
    ((511 : Fin 512).val ∉ served.tiers.pcsOut ∧ (served.tiers.rowErrs.filter fun r => r.1 == (511 : Fin 512).val).length < 32) ∧
    (let r : RowRepair := { pc := 511, row := 786431 }; (modTiers (fun t => { t with repairs := [r] }) served).tiers.repairs[0]? = some r) ∧
    (let m : FrameMove := { die := 3, fromF := 1, toF := 2 }; let x : Frame := { space := 64, die := 3, phys := 1 }
     let s := modTiers (fun t => { t with moves := [m], frames := [x] }) served; let t := modTiers (fun t => { t with refetch := [{ kind := 2, addr := 64 * 2 ^ 52 }] }) s
     s.tiers.moves[0]? = some m ∧ x ∈ s.tiers.frames ∧ x.die = m.die ∧ x.phys = m.fromF ∧ frameFetching s x = false ∧ frameFetching t x = true) ∧
    (served.tiers.repairs.length ≤ 0 ∧ served.tiers.moves.length ≤ 0 ∧ served.bnd.rebuilds = []) ∧
    (let r : Refetch := { kind := 2, addr := 64 * 2 ^ 52 }; let s := modTiers (fun t => { t with refetch := [r] }) (withStage (fun st => { st with entries := entry64, done := 1 }) (running []))
     let t := modTiers (fun t => { t with refetch := [r] }) (running [])
     s.tiers.refetch[0]? = some r ∧ refetchReady s r = true ∧ wheelPick s = some clRepair ∧ (unitOfAddr s r.addr).isSome = true ∧
      t.tiers.refetch[0]? = some r ∧ refetchReady t r = true ∧ wheelPick t = some clRepair ∧ unitOfAddr t r.addr = none ∧ refetchReady t { kind := 4 } = false) ∧
    (let s := running []; scrubNext s = some 0 ∧ scrubOpen s = true ∧ shardHeld s 0 = false ∧ mfStriped s.bnd.manifest = false ∧ (∃ y ∈ s.bnd.bitmap, 0 < y) ∧
      wordsOfBytes (sha256 (memRead s.x.bond (shardFlat 0) (shBytes s.bnd.manifest 0))) = shHash s.bnd.manifest 0 ∧
      scrubOpen (modPw (fun w => { w with st := .berth }) s) = false) ∧
    (let r : Rebuild := { shard := 0, asked := [1, 2], failed := [1] }; let s := modBnd (fun b => { b with rebuilds := [r] }) served
     s.bnd.rebuilds = r :: [] ∧ r.asked.find? (fun m => !(decide (m ∈ r.failed)) && (tget r.got m).isNone) = some 2) := by
  and_intros <;> decide +kernel
theorem witness_TernBytes : ([b8 (2 + 3 * 2 + 9 * 2 + 27 * 2 + 81 * 2)] : List Byte).getD 0 0 = b8 242 ∧ (b8 242).toNat ≤ 242 := by decide

/-! Worked examples of the manual, and single steps whose results follow from its rules. -/

/-- R41's example: +1, 0, -1, -1, +1 is the byte 0x9A. -/
theorem test_tern_byte : packByte .tern [1, 0, 2, 2, 1] = 0x9A ∧ (List.range 5).map (fun i => blockCode .tern [0x9A] i) = [1, 0, 2, 2, 1] := by decide
/-- The example of quantisation to FP4 after R54. -/
def weights16 : List Word := [0xC079999A, 0x402CCCCD, 0x3F800000, 0xBE4CCCCD, 0x00000000, 0x3EB33333, 0xBF99999A, 0x3F666666, 0x40000000, 0xBF19999A, 0x3DCCCCCD, 0x3FD33333, 0xC0200000, 0x3F0CCCCD, 0xBD4CCCCD, 0x40533333]
theorem test_quantise_fp4 : quantBlock .fp4 (fun _ => .rne) weights16 =
    { block := { data := [0x6F, 0x93, 0x10, 0x3B, 0xA5, 0x40, 0x2E, 0x60], scale := 0x73 }, overflow := false, nans := 0 } := by decide +kernel
/-- Its elements 0 and 1 decode to -4.125 and 2.75. -/
theorem test_fp4_decodes : (blockValues .fp4 [{ data := [0x6F, 0x93, 0x10, 0x3B, 0xA5, 0x40, 0x2E, 0x60], scale := 0x73 }]).take 2 = [0xC0840000, 0x40300000] := by
  decide +kernel
/-- The example of R53: 130,000 saturates to +1 under the scale byte 0xFF, which decodes to 122,880. -/
theorem test_quantise_saturates : (let q := quantBlock .tern (fun _ => .rne) [0x47FDE800]; q.block.scale = 0xFF ∧ q.overflow = true ∧
    (q.block.value .tern 0).toF32 = 0x47F00000) := by decide +kernel
/-- The example of R56: 1.3 becomes 1.5 in FP4 below the draw 39,321, and 1 from it on. -/
theorem test_stochastic_step : magCode e2m1 (.sr 39320) 13 10 = 3 ∧ magCode e2m1 (.sr 39321) 13 10 = 2 := by decide
/-- The example of R185: a page of 128 tokens, 8 heads of 128, INT4 keys and FP8 values. -/
theorem test_page_size : headBytes (0, 128, 8, 128, .int4, .e4m3) = 25792 ∧ pageUnits (0, 128, 8, 128, .int4, .e4m3) = 51 := by decide
/-- The check values of CRC-32, CRC-32C, CRC-16/T10-DIF and SHA-256 that their standards publish. -/
def digits : List Byte := [0x31, 0x32, 0x33, 0x34, 0x35, 0x36, 0x37, 0x38, 0x39]
theorem test_crcs : crc32 digits = 0xCBF43926 ∧ crc32c digits = 0xE3069283 ∧ crc16 digits = 0xD0DB := by decide +kernel
theorem test_sha256 : (sha256 [0x61, 0x62, 0x63]).take 4 = [0xBA, 0x78, 0x16, 0xBF] := by decide +kernel

/-- The example after R327: SEQ runs over the wrap. The package expects 0xFFFFFFFE, and the word at the ADD's address holds 41. -/
def wrapping : State := modFab (fun f => { f with replaySlots := [(5, 0)] }) (withStream (fun x => { x with expect := 0xFFFFFFFE, acked := 0xFFFFFFFE })
  (hbmStore 0 (dataOff + 256) [41] (meshed pimg false)))
def adding : Packet := packet 3 8 1 (dataOff + 256) 0xFFFFFFFE 8 [5, 0, 0, 0, 0, 0, 0, 0]
def storing (seq : Nat) : Packet := packet 2 0 1 (dataOff + 512) seq 4 [7, 0, 0, 0]
def after (i : Instr) (s : State) : State := match exec i s with
  | .next t => t
  | _ => s
theorem test_request_ahead_is_held : ((dstOf (after (.store (storing 0)) wrapping) 0 5 1).held.map fun e => e.1) = [0] ∧
    memGet (after (.store (storing 0)) wrapping).x.hbm (hbmFlat wrapping 0 (dataOff + 512)) = 0 := by decide +kernel
theorem test_atomic_adds : (let t := after (.atomic adding) wrapping
    hbmRead t 0 (dataOff + 256) 8 = [46, 0, 0, 0, 0, 0, 0, 0] ∧ (dstOf t 0 5 1).expect = 0xFFFFFFFF ∧ (replayOf t 0 adding.hdr).map (fun e => e.result) = some 41) := by
  decide +kernel
theorem test_held_requests_follow : (let t := after (.store (storing 0xFFFFFFFF)) (after (.atomic adding) (after (.store (storing 0)) wrapping))
    (dstOf t 0 5 1).expect = 1 ∧ (dstOf t 0 5 1).held = [] ∧ memGet t.x.hbm (hbmFlat wrapping 0 (dataOff + 512)) = 7) := by decide +kernel
theorem test_duplicate_atomic : (let t := after (.atomic adding) (after (.atomic adding) wrapping)
    hbmRead t 0 (dataOff + 256) 1 = [46] ∧ (dstOf t 0 5 1).expect = 0xFFFFFFFF) := by decide +kernel


/-- `s` with bytes in the SRAM of core 0. -/
def withSram (x : Nat) (bs : List Byte) (s : State) : State := sramWrite (flatOf 0 0 0 x) bs s
def outAt (x n : Nat) (s : State) : List Byte := sramRead s (flatOf 0 0 0 x) n
def floats (s : State) : State := withSram 0x1000 (wordBytes 0x40100000) (withSram 0 (wordBytes 0x3FC00000) s)
theorem test_vec_add : outAt 0x2000 4 (after (.vecAdd at0 quiet) (floats (next1 (vec1 1)))) = wordBytes 0x40700000 := by decide +kernel
theorem test_vec_mul : outAt 0x2000 4 (after (.vecMul at0 quiet) (floats (next1 (vec1 2)))) = wordBytes 0x40580000 := by decide +kernel
/-- 64 products of 1 by 2: 128. -/
theorem test_pass_dot : outAt 0x3000 4 (after (.pass at0 quiet) (withSram 0x2000 (List.replicate 64 0x40) (withSram 0x1000 (List.replicate 64 0x38)
    (next1 pass1)))) = wordBytes 0x43000000 := by decide +kernel
/-- The example after R54, as a QUANT leaves it: the first block of a parcel. -/
theorem test_quant_fp4 : (outAt 0x1000 9 (after (.quant at0 quiet) (withSram 0 (bytesOfWords weights16) (next1 quant1)))) =
    [0x6F, 0x93, 0x10, 0x3B, 0xA5, 0x40, 0x2E, 0x60, 0x73] := by decide +kernel
theorem test_move_copies : outAt 0x40 8 (after (.move at0 quiet) (withSram 0 [1, 2, 3, 4, 5, 6, 7, 8] (next1 moveSram))) = [1, 2, 3, 4, 5, 6, 7, 8] := by decide +kernel
/-- NOP leaves the list; END_STEP of the last cluster finishes the step. -/
theorem test_nop_leaves : (runAt (after (.nop at0) (next1 [0x0100])) at0).map (fun r => r.todo.map fun c => c.words) = some [endCmd] := by decide +kernel
theorem test_end_step : ((stepRec (after (.endStep at0) (modStep 0 1 (fun x => { x with left := [1] }) (posted0 (running [endCmd])))) 0 1).map fun x => x.st) =
    some .finished := by decide +kernel
/-- The barrier of clusters 0 and 1 holds cluster 0 at wave 0; that of cluster 0 alone releases wave 0 at once (R152). -/
theorem test_barrier_waits : (runAt (after (.barrier at0) (next1 [0x0209, 0])) at0).map (fun r => (r.atBar, r.waves)) = some (some 0, 0) := by decide +kernel
theorem test_barrier_opens : (runAt (after (.barrier at0) (next1 [0x0209, 1])) at0).map (fun r => (r.atBar, r.waves)) = some (some 1, 1) := by decide +kernel
theorem test_post_counts : inboxCount (after (.post at0) (next1 [0x020B, 0])) 0 0 0 = 1 := by decide +kernel
theorem test_expand_twice : (runAt (after (.expand at0) (next1 [0x060A, 7, 2, 0, 0, 2])) at0).map (fun r => r.todo.map fun c => c.words) =
    some [[0x0100], [0x0100], endCmd] := by decide +kernel

/-! Ports. -/

/-- Two wrong bytes of one codeword are put right; their places are told (R304). -/
theorem test_two_bytes_corrected : flitFix (setAt (setAt dataFlit 5 0xAA) 131 0x55) = (dataFlit.take 264, [5, 131]) := by
  unfold flitFix rsFix rsErrors rsSyndrome; simp only [foldl_strictly]; decide +kernel
theorem test_burst : (after (.detectBurstTimer 17) (portIn { st := .detect })).out = [.burst 17] := by decide +kernel
theorem test_verify_opens : (portOf (after (.verifyExchange 17 5 9 2 none) (portIn { st := .verify })) 17).far = some (5, 9) := by decide +kernel

/-! The host interface. -/

/-- The reply to a part.open: the request's TAG over the status 0, its command and partition, and OPEN_NS (R409, R416). -/
theorem test_part_open : (let s := { posted (req 0x0101 5 [4096, 0, 1]) served with now := 0x100000002 }; let t := after (.partOpen (.pf 0)) s
    (partOf t 5).cfg.st = .opened ∧ (mbxOf t (.pf 0)).st = .answered ∧ (mbxOf t (.pf 0)).rsp.take 4 = [0x00770000, 0x00050101, 2, 1]) := by decide +kernel
/-- A second part.open is answered with 0x0D0B, and a misaligned window with 0x0D09 (R416). -/
theorem test_part_open_twice : (mbxOf (after (.partOpen (.pf 0)) (posted (req 0x0101 0 [4096, 0, 1]) serving)) (.pf 0)).rsp.head? = some 0x00770D0B := by decide +kernel
theorem test_part_open_misaligned : (mbxOf (after (.partOpen (.pf 0)) (posted (req 0x0101 0 [4095, 0, 1]) served)) (.pf 0)).rsp.head? = some 0x00770D09 := by decide +kernel
/-- An empty queue lets 10 ns pass; a command lets none (log 4). -/
theorem test_tick : (match step { served with pending := [] } with | .next t => t.now | _ => 0) = served.now + 10 ∧
    (after (.nop at0) served).now = served.now := by decide +kernel
end Sys2Proof.Tests
end

section
/-! PROOFS. The registers of the BARs (R9, R11, R402 to R406): write-one-to-clear bits, latched pairs, and where a register
write of the host lands. -/

namespace Sys2Proof.Machine

/-! The two halves of a latched pair (R403). -/

/-- The two words of a 64-bit number make it up. -/
theorem w32_low_add_high {n : Nat} (h : n < 2 ^ 64) : (w32 n).toNat + 2 ^ 32 * (w32 (n / 2 ^ 32)).toNat = n := by
  have hhi : n / 2 ^ 32 < 2 ^ 32 := Nat.div_lt_of_lt_mul h
  simp only [w32, BitVec.toNat_ofNat, Nat.mod_eq_of_lt hhi]
  exact Nat.mod_add_div n (2 ^ 32)

/-- The cold-start count stands above the 48 bits of the record count, so HM.LOG_SEQ fits in its two words (R525). -/
theorem logSeq_lt {s : State} (hnext : s.host.log.next < 2 ^ 48) (hcold : s.host.log.coldStarts ≤ 0xFFFF) :
    logSeq s < 2 ^ 64 := by
  unfold logSeq
  split
  · omega
  · decide

/-! Write-one-to-clear bits (R11). -/

/-- Masking a four-bit register with the complement of a word clears the bits that are 1 in the word, and no other. -/
theorem getLsbD_clearOnes (x : BitVec 4) (val : Word) (i : Nat) :
    (x &&& ~~~ (val.setWidth 4)).getLsbD i = (x.getLsbD i && !val.getLsbD i) := by
  by_cases hi : i < 4
  · simp only [BitVec.getLsbD_and, BitVec.getLsbD_not, BitVec.getLsbD_setWidth, decide_eq_true hi, Bool.true_and]
  · simp only [BitVec.getLsbD_and, BitVec.getLsbD_of_ge x i (Nat.le_of_not_lt hi), Bool.false_and]

@[simp] theorem intStatus_clearInt (val : Word) (s : State) :
    (clearInt val s).host.hm.intStatus = s.host.hm.intStatus &&& ~~~ (val.setWidth 4) := rfl

@[simp] theorem vfEvent_clearVfEvent (n : Nat) (val : Word) (s : State) :
    (partOf (clearVfEvent n val s) n).vfEvent = (partOf s n).vfEvent &&& ~~~ (val.setWidth 4) := by
  simp only [clearVfEvent, partOf_modPart]

/-! Where a register write lands (R402 to R406). -/

theorem exec_registerWrite (fn : FnId) (bar2 : Bool) (off : Nat) (val : Word) (s : State) :
    exec (.registerWrite fn bar2 off val) s = .next (writeReg fn bar2 off val s) := rfl

/-- No register answers while the link is down. -/
theorem writeReg_of_linkDown {s : State} (h : s.host.ep.linkUp = false) (fn : FnId) (bar2 : Bool) (off : Nat) (val : Word) :
    writeReg fn bar2 off val s = s := by
  have hdown : ¬ s.host.ep.linkUp = true := Bool.eq_false_iff.mp h
  simp only [writeReg, if_pos hdown]

/-- `setAt` is the library's `List.set`. -/
theorem setAt_eq_set {α : Type} (xs : List α) (i : Nat) (x : α) : setAt xs i x = xs.set i x := by
  induction xs generalizing i with
  | nil => rfl
  | cons y ys ih =>
    cases i with
    | zero => rfl
    | succ i => exact congrArg (y :: ·) (ih i)

/-- A write into the request area of a free mailbox sets one word of it, whichever function's mailbox it is (R404, R408). -/
theorem writeWindow_request {s : State} {m : MbxId} {i : Nat} (hi : i < 64) (hfree : (mbxOf s m).st = .free)
    (hlen : (mbxOf s m).req.length = 64) (val : Word) :
    writeWindow m (4 * i) val s = modMbx m (fun b => { b with req := b.req.set i val }) s := by
  have harea : 4 * i < 0x100 := by omega
  have hword : 4 * i / 4 = i := by omega
  have hpad : (mbxOf s m).req ++ List.replicate (64 - (mbxOf s m).req.length) 0 = (mbxOf s m).req := by
    rw [hlen, Nat.sub_self, List.replicate_zero, List.append_nil]
  simp only [writeWindow, if_pos harea, if_pos hfree, modMbx, hword, hpad, setAt_eq_set]

/-- The link's guard, which heads `writeReg`, lets a write through. -/
theorem writeReg_guard {s : State} (h : s.host.ep.linkUp = true) : ¬ ¬ s.host.ep.linkUp = true := not_not_intro h

section LinkUp
variable {s : State} (hup : s.host.ep.linkUp = true)
include hup

theorem writeReg_intEnable (val : Word) :
    writeReg .pf false 0x001C val s = modHm (fun h => { h with intEnable := val.setWidth 4 }) s := by
  have hwindow : ¬ 0x1000 ≤ 0x001C := by decide
  have hstatus : ¬ 0x001C = 0x0018 := by decide
  simp only [writeReg, if_neg (writeReg_guard hup), Bool.false_eq_true, if_false, if_neg hwindow, if_neg hstatus, if_true]

theorem writeReg_vfEventEn (n : Fin 32) (val : Word) :
    writeReg (.vf n) false 0x0008 val s = modPart n.val (fun q => { q with vfEventEn := val.setWidth 4 }) s := by
  have hwindow : ¬ 0x1000 ≤ 0x0008 := by decide
  have hevent : ¬ 0x0008 = 0x0004 := by decide
  simp only [writeReg, if_neg (writeReg_guard hup), Bool.false_eq_true, if_false, if_neg hwindow, if_neg hevent, if_true]

/-- The eight mailbox windows of the physical function stand 0x400 apart from 0x1000 (R404). -/
theorem writeReg_pf_window (k : Fin 8) {o : Nat} (ho : o < 0x400) (val : Word) :
    writeReg .pf false (0x1000 + 0x400 * k.val + o) val s = writeWindow (.pf k) o val s := by
  have hbase : 0x1000 ≤ 0x1000 + 0x400 * k.val + o := by omega
  have hwindow : (0x1000 + 0x400 * k.val + o - 0x1000) / 0x400 = k.val := by omega
  have hoff : (0x1000 + 0x400 * k.val + o - 0x1000) % 0x400 = o := by omega
  have hmbx : mbxAt .pf k.val = some (.pf k) := dif_pos k.isLt
  simp only [writeReg, if_neg (writeReg_guard hup), Bool.false_eq_true, if_false, if_pos hbase, hwindow, hoff, hmbx]

/-- Below the windows the physical function has no writable register but HM.INT_STATUS and HM.INT_ENABLE (R11, R403). -/
theorem writeReg_pf_readOnly {off : Nat} (hoff : off ∉ [0x0018, 0x001C]) (hlow : off < 0x1000) (val : Word) :
    writeReg .pf false off val s = s := by
  have hstatus : ¬ off = 0x0018 := fun h => hoff (h ▸ .head _)
  have henable : ¬ off = 0x001C := fun h => hoff (h ▸ .tail _ (.head _))
  have hwindow : ¬ 0x1000 ≤ off := Nat.not_le_of_lt hlow
  simp only [writeReg, if_neg (writeReg_guard hup), Bool.false_eq_true, if_false, if_neg hwindow, if_neg hstatus,
    if_neg henable]

/-- Above its MSI-X table, BAR 2 of the physical function holds the pending bits, which are read-only, and nothing else
(R402, R406). -/
theorem writeReg_pf_aboveMsix {off : Nat} (hoff : 0x4000 ≤ off) (val : Word) : writeReg .pf true off val s = s := by
  have htable : ¬ off < 0x4000 := Nat.not_lt_of_le hoff
  simp only [writeReg, if_neg (writeReg_guard hup), if_true, if_neg htable]

end LinkUp

end Sys2Proof.Machine

namespace Sys2Proof.Claim

open Sys2Proof.Machine

theorem writeOneToClear : WriteOneToClear := by
  intro s vf val
  refine ⟨clearInt val s, clearVfEvent vf.val val s, rfl, rfl, fun i => ?_, rfl, fun i => ?_, ?_⟩
  · rw [intStatus_clearInt, getLsbD_clearOnes]
  · rw [vfEvent_clearVfEvent, getLsbD_clearOnes]
  · rw [vfEvent_clearVfEvent]; rfl

theorem lowReadsLatchHigh : LowReadsLatchHigh := by
  refine fun s => ⟨fun hnow => ⟨_, rfl, ?_, rfl⟩, fun hnext hcold => ⟨_, rfl, ?_, rfl⟩⟩
  · exact w32_low_add_high hnow
  · exact w32_low_add_high (logSeq_lt hnext hcold)

theorem registerWrites : RegisterWrites := by
  intro s fn bar2 off n k val
  simp only [exec_registerWrite, Host.Outcome.next.injEq]
  refine ⟨fun hup => ⟨writeReg_intEnable hup val, writeReg_vfEventEn hup n val, fun i hi hfree hlen => ?_,
    fun hoff hlow => writeReg_pf_readOnly hup hoff hlow val, fun hoff => writeReg_pf_aboveMsix hup hoff val⟩,
    fun hdown => writeReg_of_linkDown hdown fn bar2 off val⟩
  rw [writeReg_pf_window hup k (by omega), writeWindow_request hi hfree hlen]

/-- Settles O12: each kind of write lands where `writeReg` sends it, and each pair is two words of one 64-bit number. -/
theorem registerRules : Obligations.RegisterRules := ⟨writeOneToClear, lowReadsLatchHigh, registerWrites⟩

end Sys2Proof.Claim
end

section
/-! PROOFS. TERN bytes (R40, R41). -/

namespace Sys2Proof.Machine

/-- Element `5j + k` of TERN data is base-3 digit `k` of byte `j`. -/
theorem blockCode_tern (data : List Byte) (j : Nat) {k : Nat} (hk : k < 5) :
    blockCode .tern data (5 * j + k) = (data.getD j 0).toNat / 3 ^ k % 3 := by
  have hbyte : (5 * j + k) / 5 = j := by omega
  have hdigit : (5 * j + k) % 5 = k := by omega
  simp only [blockCode, Fmt.perByte, hbyte, hdigit]

theorem ternInvalid_eq (b : Byte) : ternInvalid b = decide (242 < b.toNat) := rfl

/-- The digits of a number written in base 3 with five digits. -/
theorem trits_of_sum {n : Nat} {d0 d1 d2 d3 d4 : Fin 3}
    (h : n = d0.val + 3 * d1.val + 9 * d2.val + 27 * d3.val + 81 * d4.val) :
    n / 3 ^ 0 % 3 = d0.val ∧ n / 3 ^ 1 % 3 = d1.val ∧ n / 3 ^ 2 % 3 = d2.val ∧ n / 3 ^ 3 % 3 = d3.val ∧
      n / 3 ^ 4 % 3 = d4.val ∧ n ≤ 242 := by omega

/-- Every number up to 242 is written in base 3 with five digits. -/
theorem exists_trits {n : Nat} (h : n ≤ 242) : ∃ d0 d1 d2 d3 d4 : Fin 3,
    n = d0.val + 3 * d1.val + 9 * d2.val + 27 * d3.val + 81 * d4.val := by
  have hlt (k : Nat) : n / 3 ^ k % 3 < 3 := Nat.mod_lt _ (by decide)
  refine ⟨⟨_, hlt 0⟩, ⟨_, hlt 1⟩, ⟨_, hlt 2⟩, ⟨_, hlt 3⟩, ⟨_, hlt 4⟩, ?_⟩
  dsimp only
  omega

theorem b8_toNat {n : Nat} (h : n < 256) : (b8 n).toNat = n := BitVec.toNat_ofNat n 8 ▸ Nat.mod_eq_of_lt h

end Sys2Proof.Machine

namespace Sys2Proof.Claim

open Sys2Proof.Machine

/-- Settles O60: each element is a digit of its byte, and a byte of five digits is at most 242. -/
theorem ternBytes : Obligations.TernBytes := by
  refine ⟨fun data j d0 d1 d2 d3 d4 hbyte => ?_, ternInvalid_eq, fun b hb => exists_trits hb, rfl, rfl, rfl⟩
  have hnat : (data.getD j 0).toNat = d0.val + 3 * d1.val + 9 * d2.val + 27 * d3.val + 81 * d4.val := by
    rw [hbyte, b8_toNat (by omega)]
  obtain ⟨h0, h1, h2, h3, h4, hvalid⟩ := trits_of_sum hnat
  have helem (k : Nat) (hk : k < 5) := blockCode_tern data j hk
  exact ⟨(helem 0 (by decide)).trans h0, (helem 1 (by decide)).trans h1, (helem 2 (by decide)).trans h2,
    (helem 3 (by decide)).trans h3, (helem 4 (by decide)).trans h4,
    (ternInvalid_eq _).trans (decide_eq_false (Nat.not_lt_of_le hvalid))⟩

end Sys2Proof.Claim
end

section
/-! PROOFS. Bytes of SRAM after a write, and what a state must share with another for reads of memory to give the same (R16, R154,
R237). -/

namespace Sys2Proof.Machine

/-! Open areas of SRAM. -/

/-- The free value that an open area gives an address within it. -/
def openAt (x : Nat) (r : Loose) : Option Byte :=
  if r.start ≤ x ∧ x < r.start + r.len then some (Config.openByte r.step r.op (r.unit * 2 ^ 22 + x % 2 ^ 22)) else none

theorem sramByte_eq (s : State) (x : Nat) :
    sramByte s x = (s.x.loose.findSome? (openAt x)).getD (memGet s.x.sram x) := by
  unfold sramByte
  generalize s.x.loose = rs
  induction rs with
  | nil => rfl
  | cons r rs ih =>
    by_cases h : r.start ≤ x ∧ x < r.start + r.len
    · simp [openAt, h]
    · simpa [openAt, h] using ih

theorem openAt_of_len_zero {r : Loose} (h : r.len = 0) (x : Nat) : openAt x r = none := if_neg (by omega)

/-- Areas of no bytes may be left out. -/
theorem findSome?_openAt_filter (x : Nat) (rs : List Loose) :
    (rs.filter fun r => r.len != 0).findSome? (openAt x) = rs.findSome? (openAt x) := by
  induction rs with
  | nil => rfl
  | cons r rs ih =>
    by_cases h : r.len = 0
    · simp [h, openAt_of_len_zero h, ih]
    · simp [h, List.findSome?_cons, ih]

/-- Cutting a range out of an area leaves the area's other addresses open as they were. -/
theorem findSome?_openAt_cutLoose (a n x : Nat) (r : Loose) :
    (cutLoose a n r).findSome? (openAt x) = if a ≤ x ∧ x < a + n then none else openAt x r := by
  simp only [cutLoose, findSome?_openAt_filter, List.findSome?_cons, List.findSome?_nil, openAt]
  by_cases hlow : x < a
  · have hkept : (r.start ≤ x ∧ x < r.start + min r.len (a - r.start)) ↔ (r.start ≤ x ∧ x < r.start + r.len) := by omega
    have hcut : ¬ (a ≤ x ∧ x < a + n) := by omega
    have hhigh : ¬ (max r.start (a + n) ≤ x ∧
        x < max r.start (a + n) + (r.start + r.len - max r.start (a + n))) := by omega
    simp only [hkept, if_neg hcut, if_neg hhigh]
    by_cases hopen : r.start ≤ x ∧ x < r.start + r.len <;> simp only [hopen, and_self, if_true, if_false]
  · have hlast : ¬ (r.start ≤ x ∧ x < r.start + min r.len (a - r.start)) := by omega
    have hkept : (max r.start (a + n) ≤ x ∧ x < max r.start (a + n) + (r.start + r.len - max r.start (a + n))) ↔
        (¬ (a ≤ x ∧ x < a + n) ∧ r.start ≤ x ∧ x < r.start + r.len) := by omega
    simp only [if_neg hlast, hkept]
    by_cases hcut : a ≤ x ∧ x < a + n
    · simp only [hcut, and_self, not_true_eq_false, false_and, if_false, if_true]
    · by_cases hopen : r.start ≤ x ∧ x < r.start + r.len <;>
        simp only [hcut, hopen, not_false_eq_true, and_self, and_false, if_true, if_false]

theorem findSome?_openAt_flatMap (a n x : Nat) (rs : List Loose) :
    (rs.flatMap (cutLoose a n)).findSome? (openAt x) = if a ≤ x ∧ x < a + n then none else rs.findSome? (openAt x) := by
  induction rs with
  | nil => simp
  | cons r rs ih =>
    rw [List.flatMap_cons, List.findSome?_append, findSome?_openAt_cutLoose, ih, List.findSome?_cons]
    split
    · rfl
    · cases openAt x r <;> rfl

theorem sramByte_sramWrite {s : State} (h : memWf s.x.sram = true) (a : Nat) (bs : List Byte) {i : Nat} (hi : i < bs.length) :
    sramByte (sramWrite a bs s) (a + i) = bs[i] := by
  have hcut : a ≤ a + i ∧ a + i < a + bs.length := by omega
  rw [sramByte_eq, sramWrite, findSome?_openAt_flatMap, if_pos hcut]
  exact memGet_write h a bs hi

theorem sramByte_sramWrite_other {s : State} (h : memWf s.x.sram = true) (a : Nat) (bs : List Byte) {x : Nat}
    (hx : x < a ∨ a + bs.length ≤ x) : sramByte (sramWrite a bs s) x = sramByte s x := by
  have hcut : ¬ (a ≤ x ∧ x < a + bs.length) := by omega
  rw [sramByte_eq, sramByte_eq, sramWrite, findSome?_openAt_flatMap, if_neg hcut, memGet_write_other h a bs hx]

/-- What is written to SRAM reads back. -/
theorem sramRead_sramWrite {s : State} (h : memWf s.x.sram = true) (a : Nat) (bs : List Byte) :
    sramRead (sramWrite a bs s) a bs.length = bs := by
  refine List.ext_getElem (by simp [sramRead]) fun i _ hi => ?_
  simp only [sramRead, List.getElem_map, List.getElem_range]
  exact sramByte_sramWrite h a bs hi

theorem sramRead_length (s : State) (a n : Nat) : (sramRead s a n).length = n := by simp [sramRead]

theorem hbmRead_length (s : State) (p off n : Nat) : (hbmRead s p off n).length = n := by
  unfold hbmRead
  split
  · simp
  · simp [hbmReadFlat, memRead]

/-! States whose memories read the same. -/

/-- All that a read of SRAM or of a partition's HBM depends on is in `t` as in `s`. -/
structure ReadsAs (s t : State) : Prop where
  sram : t.x.sram = s.x.sram
  loose : t.x.loose = s.x.loose
  hbm : t.x.hbm = s.x.hbm
  images : t.images = s.images
  stages : t.stages = s.stages
  cfg : ∀ p, (partOf t p).cfg = (partOf s p).cfg
  kv : ∀ p, (partOf t p).kv = (partOf s p).kv

namespace ReadsAs

variable {s t u : State}

theorem refl (s : State) : ReadsAs s s := ⟨rfl, rfl, rfl, rfl, rfl, fun _ => rfl, fun _ => rfl⟩

theorem trans (h : ReadsAs s t) (k : ReadsAs t u) : ReadsAs s u :=
  ⟨k.sram.trans h.sram, k.loose.trans h.loose, k.hbm.trans h.hbm, k.images.trans h.images, k.stages.trans h.stages,
   fun p => (k.cfg p).trans (h.cfg p), fun p => (k.kv p).trans (h.kv p)⟩

theorem sramByte (h : ReadsAs s t) (x : Nat) : sramByte t x = sramByte s x := by
  simp only [Machine.sramByte, h.loose, h.sram]

theorem sramRead (h : ReadsAs s t) (x n : Nat) : sramRead t x n = sramRead s x n := by
  simp only [Machine.sramRead, h.sramByte]

theorem bank (h : ReadsAs s t) (p : Nat) : bank t p = bank s p := by
  simp only [Machine.bank, activeBank, bankOf, h.cfg]

theorem recImg (h : ReadsAs s t) (b : List Word) : recImg t b = recImg s b := by
  simp only [Machine.recImg, h.images]

theorem imgOf (h : ReadsAs s t) (p : Nat) : imgOf t p = imgOf s p := by
  simp only [Machine.imgOf, h.recImg, activeBank, bankOf, h.cfg]

theorem stageOf (h : ReadsAs s t) (p : Nat) : stageOf t p = stageOf s p := by
  have hstage : stageFor t = stageFor s := funext fun i => by simp only [stageFor, h.stages]
  simp only [Machine.stageOf, h.recImg, h.bank, hstage]

theorem hbmRead (h : ReadsAs s t) (p off n : Nat) : hbmRead t p off n = hbmRead s p off n := by
  simp only [Machine.hbmRead, hbmReadFlat, hbmFlat, h.kv, h.stageOf, h.hbm]

theorem mapped (h : ReadsAs s t) (p off n : Nat) : mapped t p off n = mapped s p off n := by
  have hsize : regionSize t p off = regionSize s p off := by
    rw [regionSize, regionSize, h.imgOf, h.bank]
  simp only [Machine.mapped, hsize, h.imgOf]

/-! Updates that leave memory reads as they were. -/

theorem modCluster (k : Nat) (f : Cluster → Cluster) (s : State) : ReadsAs s (modCluster k f s) :=
  ⟨rfl, rfl, rfl, rfl, rfl, fun _ => rfl, fun _ => rfl⟩

theorem modTiers (f : Tiers → Tiers) (s : State) : ReadsAs s (modTiers f s) :=
  ⟨rfl, rfl, rfl, rfl, rfl, fun _ => rfl, fun _ => rfl⟩

theorem modStat (k : Nat) (f : PartStat → PartStat) (s : State) : ReadsAs s (modStat k f s) := by
  have hpart (p : Nat) : (partOf (Machine.modStat k f s) p).cfg = (partOf s p).cfg ∧
      (partOf (Machine.modStat k f s) p).kv = (partOf s p).kv := by
    by_cases hp : k = p
    · subst hp; rw [partOf_modStat]; exact ⟨rfl, rfl⟩
    · rw [partOf_modStat_ne f s hp]; exact ⟨rfl, rfl⟩
  exact ⟨rfl, rfl, rfl, rfl, rfl, fun p => (hpart p).1, fun p => (hpart p).2⟩

theorem cntAdd (p k n : Nat) (s : State) : ReadsAs s (cntAdd p k n s) := modStat ..

theorem foldl {α : Type} {f : State → α → State} (hf : ∀ t x, ReadsAs t (f t x)) (xs : List α) (s : State) :
    ReadsAs s (xs.foldl f s) := by
  induction xs generalizing s with
  | nil => exact refl s
  | cons x xs ih => exact (hf s x).trans (ih (f s x))

theorem chargeStall (k : Nat) (s : State) : ReadsAs s (chargeStall k s) := by
  refine (modCluster k _ s).trans (foldl (fun t r => ?_) _ _)
  split
  · exact refl t
  · exact cntAdd ..

theorem enter (a : At) (c : List Word) (os : List Opd) (o : Outst) (s : State) : ReadsAs s (enter a c os o s) := modCluster ..

theorem noteCopy (p k x n : Nat) (src : Option Nat) (s : State) : ReadsAs s (noteCopy p k x n src s) := by
  unfold Machine.noteCopy
  split
  · exact modCluster ..
  · exact refl s

theorem freshParity (xs : List Rng) (s : State) : ReadsAs s (freshParity xs s) := by
  unfold Machine.freshParity
  split
  · exact refl s
  · exact modTiers ..

theorem dropCopies (x n : Nat) (s : State) : ReadsAs s (dropCopies x n s) :=
  ⟨rfl, rfl, rfl, rfl, rfl, fun _ => rfl, fun _ => rfl⟩

theorem countConv (p sat nans : Nat) (s : State) : ReadsAs s (countConv p sat nans s) := (cntAdd ..).trans (cntAdd ..)

/-- A row stored is an SRAM write, as far as memory reads go. -/
theorem storeRow (x : Nat) (bs : List Byte) (s : State) : ReadsAs (sramWrite x bs s) (storeRows [(x, bs)] s) :=
  (dropCopies ..).trans (freshParity ..)

end ReadsAs

/-- Rows stored in SRAM leave HBM. -/
theorem storeRows_hbm (rows : List (Nat × List Byte)) (s : State) : (storeRows rows s).x.hbm = s.x.hbm := by
  induction rows generalizing s with
  | nil => rfl
  | cons r rows ih => exact (ih (storeRows [r] s)).trans (ReadsAs.storeRow r.1 r.2 s).hbm

end Sys2Proof.Machine
end

section
/-! PROOFS. What VEC and MOVE do to memory (R49, R139, R140), the opcode of a relocated command (R143), and reads without parity
failures (R263). -/

namespace Sys2Proof.Machine

/-! Relocation keeps the opcode (R143). -/

theorem wordAt_setAt_ne {i j : Nat} (h : i ≠ j) (c : List Word) (w : Word) : wordAt (setAt c i w) j = wordAt c j := by
  simp only [wordAt, setAt_eq_set, List.getD_eq_getElem?_getD, List.getElem?_set_ne h]

/-- No address word is the first word, which holds the opcode. -/
theorem ne_zero_of_mem_addrWords {c : List Word} {i : Nat} (h : i ∈ addrWords c) : i ≠ 0 := by
  rintro rfl
  unfold addrWords at h
  split at h <;> simp at h

theorem cOp_foldl_setAt {is : List Nat} (h : ∀ i ∈ is, i ≠ 0) (f : List Word → Nat → Word) (c : List Word) :
    cOp (is.foldl (fun d i => setAt d i (f d i)) c) = cOp c := by
  induction is generalizing c with
  | nil => rfl
  | cons i is ih =>
    rw [List.foldl_cons, ih fun j hj => h j (.tail _ hj), cOp, wordAt_setAt_ne (h i (.head _)), cOp]

theorem cOp_relocOff {i : Nat} (hi : i ≠ 0) (base bytes slot : Nat) (c : List Word) : cOp (relocOff base bytes slot i c) = cOp c := by
  unfold relocOff
  split
  · rw [cOp, wordAt_setAt_ne hi, cOp]
  · rfl

theorem cOp_relocCmd (base bytes slot : Nat) (c : List Word) : cOp (relocCmd base bytes slot c) = cOp c := by
  have haddr := cOp_foldl_setAt (fun _ => ne_zero_of_mem_addrWords (c := c))
    (fun d i => relocAddr base bytes slot (wordAt d i)) c
  have hsrc (d : List Word) := cOp_relocOff (i := 1) (by decide) base bytes slot d
  have hdst (d : List Word) := cOp_relocOff (i := 3) (by decide) base bytes slot d
  have hfar (d : List Word) := cOp_relocOff (i := 12) (by decide) base bytes slot d
  unfold relocCmd
  dsimp only
  split
  · split
    · rw [hfar, haddr]
    · exact haddr
  · repeat' split
    all_goals simp only [hsrc, hdst, haddr]
  · exact haddr

theorem cOp_relocAt (s : State) (a : At) (c : List Word) : cOp (relocAt s a c) = cOp c := cOp_relocCmd ..

/-! Reads that meet no parity failure (R263). -/

theorem ranges_subset (k core : Nat) (wr : Bool) {os os' : List Opd} (h : os ⊆ os') : ranges k core wr os ⊆ ranges k core wr os' :=
  List.map_subset _ (List.filter_subset _ h)

theorem rangesMeet_of_subset {xs xs' : List Rng} (h : xs ⊆ xs') {ys : List Rng} (hm : rangesMeet xs ys = true) :
    rangesMeet xs' ys = true := by
  simp only [rangesMeet, List.any_eq_true] at hm ⊢
  obtain ⟨x, hx, hy⟩ := hm
  exact ⟨x, h hx, hy⟩

/-- Ranges without bad words have none in a part of them. -/
theorem badWords_of_subset {s : State} {xs ys : List Rng} (h : xs ⊆ ys) (hys : badWords s ys = []) : badWords s xs = [] := by
  simp only [badWords, List.flatMap_eq_nil_iff, List.map_eq_nil_iff, List.filter_eq_nil_iff] at hys ⊢
  exact fun m hm w hw hmeet => hys m hm w hw (rangesMeet_of_subset h hmeet)

theorem passReads_subset (d : List Word) : passReads d ⊆ pOpds d := by
  unfold passReads
  split
  · next x y os hopds =>
    rw [hopds]
    intro o ho
    simp only [List.mem_append, List.mem_cons] at ho ⊢
    rcases ho with (ho | ho) | ho
    · split at ho <;> simp_all
    · split at ho <;> simp_all
    · exact .inr (.inr ho)
  · exact fun _ ho => ho

theorem meetParity_good (a : At) {rd : List Rng} {s : State} (h : badWords s rd = []) : meetParity a rd none s = (true, s) := by
  simp only [meetParity, h, List.foldl_nil]

/-! VEC (R140). -/

theorem vecGo_empty {c : List Word} (h : vLen c = 0 ∨ vRows c = 0) (a : At) (f : List (List Word) → Nat → List (List Word))
    (s : State) : vecGo a c f s = s := if_pos h

theorem vecGo_hbm (a : At) (c : List Word) (f : List (List Word) → Nat → List (List Word)) (s : State) :
    (vecGo a c f s).x.hbm = s.x.hbm := by
  unfold vecGo
  dsimp only
  split
  · rfl
  · rw [(ReadsAs.countConv ..).hbm, storeRows_hbm, (ReadsAs.enter ..).hbm]

/-! MOVE (R49, R139). -/

/-- A range of no bytes has no parcels that fail. -/
theorem weightFaults_zero (s : State) (p : Nat) (st : Stage) (off : Nat) : weightFaults s p st off 0 = [] := by
  simp only [weightFaults, List.flatMap_eq_nil_iff, List.map_eq_nil_iff]
  intro e _
  generalize hlo : max off (reDst e) + (64 - (max off (reDst e) - reDst e) % 64) % 64 = lo
  have hnone : min (off + 0) (reDst e + reBytes e) - lo = 0 := by omega
  have hbytes : (hbmRead s p lo 0).length / 64 = 0 := by rw [hbmRead_length]
  simp only [parcelFaults, hnone, hbytes, List.range_zero, List.map_nil, List.filter_nil, ite_self]
  split <;> rfl

theorem moveGo_zero {c : List Word} (h : mBytes c = 0) (a : At) (s : State) : moveGo a c s = s := if_pos h

theorem moveGo_unmapped {s : State} {a : At} {c : List Word} (hn : mBytes c ≠ 0) (hsrc : mSrcKind c = 2)
    (hmap : mapped s a.part.val (mSrc c) (mBytes c) = false) : moveGo a c s = faultAt a 0xA noOp s := by
  have hbad : mSrcKind c = 2 ∧ ¬ mapped s a.part.val (mSrc c) (mBytes c) = true := ⟨hsrc, by rw [hmap]; exact Bool.false_ne_true⟩
  simp only [moveGo, if_neg hn, if_pos hbad]

/-- The bytes that a MOVE reads. -/
def moveData (s : State) (a : At) (c : List Word) : List Byte :=
  if mSrcKind c = 2 then hbmRead s a.part.val (mSrc c) (mBytes c)
  else sramRead s (flatOf a.cluster.val (cCore c) (mSrcKind c) (mSrc c)) (mBytes c)

/-- Flat SRAM address that a MOVE within its cluster writes to. -/
def moveTo (a : At) (c : List Word) : Nat := flatOf a.cluster.val (cCore c) (mDstKind c) (mDst c)

theorem moveData_length (s : State) (a : At) (c : List Word) : (moveData s a c).length = mBytes c := by
  unfold moveData
  split
  · exact hbmRead_length ..
  · exact sramRead_length ..

theorem moveData_readsAs {s t : State} (h : ReadsAs s t) (a : At) (c : List Word) : moveData t a c = moveData s a c := by
  simp only [moveData, h.hbmRead, h.sramRead]

/-- A MOVE into SRAM of its own cluster is an SRAM write of the bytes it reads, as far as memory reads go. -/
theorem moveGo_toSram {s u : State} (hu : ReadsAs s u) {a : At} {c : List Word} (hn : mBytes c ≠ 0) (hdst : mDstKind c ≤ 1)
    (hmap : mSrcKind c = 2 → mapped s a.part.val (mSrc c) (mBytes c) = true) :
    ∃ v, ReadsAs s v ∧ ReadsAs (sramWrite (moveTo a c) (moveData s a c) v) (moveGo a c u) := by
  have hsrc : ¬ (mSrcKind c = 2 ∧ ¬ mapped u a.part.val (mSrc c) (mBytes c) = true) := fun h => h.2 ((hu.mapped ..).trans (hmap h.1))
  have hhbm : ¬ (mDstKind c = 2 ∧ ¬ mapped u a.part.val (mDst c) (mBytes c) = true) := fun h => by omega
  rw [← moveData_readsAs hu]
  simp only [moveGo, if_neg hn, if_neg hsrc, if_neg hhbm]
  split
  · omega
  · omega
  · refine ⟨_, hu.trans ?_, (ReadsAs.storeRow ..).trans (.noteCopy ..)⟩
    split
    · exact (ReadsAs.enter ..).trans (.cntAdd ..)
    · exact .enter ..

section MoveToSram
variable {s u : State} (hu : ReadsAs s u) (hmem : memWf s.x.sram = true) {a : At} {c : List Word} (hn : mBytes c ≠ 0)
  (hdst : mDstKind c ≤ 1) (hmap : mSrcKind c = 2 → mapped s a.part.val (mSrc c) (mBytes c) = true)
include hu hn hdst hmap

theorem moveGo_toSram_hbm : (moveGo a c u).x.hbm = s.x.hbm := by
  obtain ⟨v, hv, hgo⟩ := moveGo_toSram hu hn hdst hmap
  exact hgo.hbm.trans hv.hbm

include hmem

/-- The bytes read back where the MOVE puts them. -/
theorem sramRead_moveGo : sramRead (moveGo a c u) (moveTo a c) (mBytes c) = moveData s a c := by
  obtain ⟨v, hv, hgo⟩ := moveGo_toSram hu hn hdst hmap
  rw [hgo.sramRead, ← moveData_length s a c]
  exact sramRead_sramWrite (hv.sram ▸ hmem) _ _

/-- Byte `i` of what the MOVE reads stands at place `i` of its destination. -/
theorem sramByte_moveGo {i : Nat} (hi : i < (moveData s a c).length) :
    sramByte (moveGo a c u) (moveTo a c + i) = (moveData s a c)[i] := by
  obtain ⟨v, hv, hgo⟩ := moveGo_toSram hu hn hdst hmap
  rw [hgo.sramByte]
  exact sramByte_sramWrite (hv.sram ▸ hmem) _ _ hi

/-- Every other byte of SRAM stays. -/
theorem sramByte_moveGo_other {x : Nat} (hx : x < moveTo a c ∨ moveTo a c + mBytes c ≤ x) :
    sramByte (moveGo a c u) x = sramByte s x := by
  obtain ⟨v, hv, hgo⟩ := moveGo_toSram hu hn hdst hmap
  rw [hgo.sramByte, sramByte_sramWrite_other (hv.sram ▸ hmem) _ _ (by rwa [moveData_length]), hv.sramByte]

end MoveToSram

/-- A MOVE between SRAM places copies its bytes, as they were before it, and changes no other. -/
theorem sramByte_moveGo_sram {s u : State} (hu : ReadsAs s u) (hmem : memWf s.x.sram = true) {a : At} {c : List Word}
    (hn : mBytes c ≠ 0) (hsrc : mSrcKind c ≤ 1) (hdst : mDstKind c ≤ 1) (x : Nat) :
    sramByte (moveGo a c u) x = if moveTo a c ≤ x ∧ x < moveTo a c + mBytes c
      then sramByte s (flatOf a.cluster.val (cCore c) (mSrcKind c) (mSrc c) + (x - moveTo a c)) else sramByte s x := by
  have hkind : mSrcKind c ≠ 2 := by omega
  split
  · next hin =>
    have hi : x - moveTo a c < (moveData s a c).length := by rw [moveData_length]; omega
    have hbyte := sramByte_moveGo hu hmem hn hdst (fun h => absurd h hkind) hi
    rw [Nat.add_sub_cancel' hin.1] at hbyte
    rw [hbyte]
    simp only [moveData, if_neg hkind, sramRead, List.getElem_map, List.getElem_range]
  · next hout => exact sramByte_moveGo_other hu hmem hn hdst (fun h => absurd h hkind) (by omega)

end Sys2Proof.Machine
end

section
/-! PROOFS. When the commands of the array, the vector unit and ATTEND, and MOVE, issue (R49 to R54, R69 to R95, R139, R140, R142, R169
to R182, R264). -/

namespace Sys2Proof.Claim

open Sys2Proof.Machine

theorem readsAs_issued (a : At) (rest : List Cmd) (s : State) : ReadsAs s (issued a rest s) :=
  ((ReadsAs.chargeStall ..).trans (.modCluster ..)).trans ((ReadsAs.modCluster ..).trans (.cntAdd ..))

/-! What reads meet (R49, R263, R264). -/

theorem ReadsGood.meetReads {s : State} {a : At} {ev : RunEvent} {c : List Word} (h : ReadsGood s a ev c) :
    meetReads a ev c s = (true, s) := by
  rw [Machine.meetReads, h.1, meetParity_good a h.2]

/-- The reads of a PASS whose operands pass their checks meet nothing; one that does nothing reads nothing (R81). -/
theorem ReadsGood.passMeets {s : State} {a : At} {ev : RunEvent} {c : List Word} (h : ReadsGood s a ev c) (hop : cOp c = 1)
    (hgood : pEmpty (c.drop 1) = true ∨ (passBad s a c).1 + (passBad s a c).2.1 = 0) : passMeets a ev c s = (true, s) := by
  have hopds : opdsAt s a c = pOpds (c.drop 1) := by simp only [opdsAt, cmdOpds, hop]
  have hreads : badWords s (ranges a.cluster.val (cCore c) false (passReads (c.drop 1))) = [] :=
    badWords_of_subset (ranges_subset _ _ _ (passReads_subset _)) (hopds ▸ h.2)
  simp only [Machine.passMeets, h.1, meetParity_good a hreads, not_true_eq_false, if_false]
  split
  · rfl
  · next hempty => exact if_pos (hgood.resolve_left hempty)

section MoveMeets
variable {s : State} {a : At} {ev : RunEvent} {c : List Word} (h : ReadsGood s a ev c)
include h

/-- A MOVE goes on where it reads no weights, where what it reads is not mapped, and where it reads no bytes. -/
theorem ReadsGood.moveMeets (hnone : mSrcKind c ≠ 2 ∨ mapped s a.part.val (mSrc c) (mBytes c) = false ∨ mBytes c = 0) :
    moveMeets a ev c s = (true, s) := by
  simp only [Machine.moveMeets, h.meetReads, not_true_eq_false, false_or]
  split
  · rfl
  · next hreads =>
    have hbytes : mBytes c = 0 := (hnone.resolve_left fun hkind => hreads (.inl hkind)).resolve_left
      fun hmap => hreads (.inr (.inr (.inr (by rw [hmap]; exact Bool.false_ne_true))))
    cases stageOf s a.part.val with
    | none => rfl
    | some st => simp only [Option.map_some, Option.getD_some, hbytes, weightFaults_zero, if_true]

/-- A MOVE that goes on has met nothing. -/
theorem ReadsGood.moveMeets_of_true (hgo : (Machine.moveMeets a ev c s).1 = true) : Machine.moveMeets a ev c s = (true, s) := by
  revert hgo
  simp only [Machine.moveMeets, h.meetReads, not_true_eq_false, false_or]
  split
  · exact fun _ => rfl
  · split
    · exact fun _ => rfl
    · exact fun hgo => absurd hgo Bool.false_ne_true

end MoveMeets

/-! Issue (R142). -/

theorem isAttend_eq {c : List Word} {m : Nat} (hop : cOp c = 4) (hmode : aMode c = m) : isAttend m c = true := by
  simp only [isAttend, hop, hmode, beq_self_eq_true, Bool.and_self]

section Issue
variable {s : State} {a : At} {r : Run} {k : Cmd} {rest : List Cmd} {c : List Word} (hready : Ready s a r k rest c)
include hready

/-- A command that stands next and that nothing holds meets what its reads meet, and then leaves its list and has its effect
(R142). -/
theorem Ready.issueWith {ok : List Word → Bool} {extra : List Word → State → List Nat} {pre : List Word → State → Bool × State}
    (go : Cmd → List Word → State → State) (hok : ok k.words = true) (hextra : extra c s = []) :
    issueWith a ok extra pre go s = if (pre c s).1 then go k c (issued a rest (pre c s).2) else (pre c s).2 := by
  obtain ⟨⟨hrun, htodo, hopen, hin⟩, hrefused, rfl, hholds⟩ := hready
  have hgoes : ¬ (¬ ok k.words = true ∨ ¬ listOpen s a = true ∨ (clusterOf s a.cluster.val).out = true) := by
    simp only [hok, hopen, hin, not_true_eq_false, Bool.false_eq_true, or_self, not_false_eq_true]
  have hallowed : ¬ (k.expanded = true ∧ issueCause (imgOf s a.part.val) (imgC s a) (guestC s a) k.words ≠ 0) := by
    rintro ⟨hexp, hcause⟩
    exact hcause ((if_pos hexp).symm.trans hrefused)
  simp only [Machine.issueWith, hrun, htodo, if_neg hgoes, if_neg hallowed, hholds, hextra, List.append_nil, ne_eq,
    not_true_eq_false, if_false, issued]
  cases (pre (relocAt s a k.words) s).1 <;> rfl

/-- The command issues where its reads meet nothing. -/
theorem Ready.issues {ok : List Word → Bool} {extra : List Word → State → List Nat} {pre : List Word → State → Bool × State}
    (go : Cmd → List Word → State → State) (hok : ok k.words = true) (hextra : extra c s = []) (hpre : pre c s = (true, s)) :
    Machine.issueWith a ok extra pre go s = go k c (issued a rest s) := by
  rw [hready.issueWith go hok hextra, hpre, if_pos rfl]

/-- The command does not issue where what its reads meet stops it. -/
theorem Ready.stops {ok : List Word → Bool} {extra : List Word → State → List Nat} {pre : List Word → State → Bool × State}
    (go : Cmd → List Word → State → State) (hok : ok k.words = true) (hextra : extra c s = []) (hpre : (pre c s).1 = false) :
    Machine.issueWith a ok extra pre go s = (pre c s).2 := by
  rw [hready.issueWith go hok hextra, hpre, if_neg Bool.false_ne_true]

theorem Ready.cOp_eq : cOp c = cOp k.words := by
  obtain ⟨_, _, rfl, _⟩ := hready
  exact cOp_relocAt ..

theorem Ready.vecIssue {ev : RunEvent} (hreads : ReadsGood s a ev c) {func : Nat} (hop : cOp k.words = 3) (hfunc : vFunc k.words = func)
    (f : List Word → State → List (List Word) → Nat → List (List Word)) :
    vecIssue func a ev f s = vecGo a c (f c (issued a rest s)) (issued a rest s) :=
  hready.issues _ (by simp only [hop, hfunc, beq_self_eq_true, Bool.and_self]) rfl hreads.meetReads

theorem Ready.exec_move {ev : RunEvent} (hop : cOp k.words = 6) (hhold : moveHold a c s = [])
    (hgo : moveMeets a ev c s = (true, s)) : exec (.move a ev) s = .next (moveGo a c (issued a rest s)) :=
  congrArg Host.Outcome.next (hready.issues _ (beq_iff_eq.mpr hop) hhold hgo)

end Issue

/-- Settles O55: a ready command whose reads meet nothing issues with its effect, one whose operand fails does not issue, and a MOVE
into SRAM is one SRAM write. -/
theorem arithmeticCommands : Obligations.ArithmeticCommands := by
  rintro s u a ev r k rest c hready rfl hreads
  have hu : ReadsAs s (issued a rest s) := readsAs_issued a rest s
  refine ⟨fun hop hhold hgood => ?_, fun hop hhold hbad => ?_, fun hop hhold => ?_, fun hop => ?_, fun hop hhold hkeys => ?_,
    fun hop hhold => ⟨fun hzero => ?_, fun hsrc hdst hn => ?_, fun hbad => ?_, fun hsrc hdst hn hmap hgo => ?_,
      fun hsrc hn hmap => ?_⟩⟩
  · exact congrArg Host.Outcome.next
      (hready.issues _ (beq_iff_eq.mpr hop) hhold (hreads.passMeets (hready.cOp_eq.trans hop) hgood))
  · exact congrArg Host.Outcome.next (hready.stops _ (beq_iff_eq.mpr hop) hhold hbad)
  · exact congrArg Host.Outcome.next (hready.issues _ (beq_iff_eq.mpr hop) hhold hreads.meetReads)
  · have hvec {func : Nat} (hfunc : vFunc k.words = func) (f : List Word → State → List (List Word) → Nat → List (List Word)) :=
      congrArg (Host.Outcome.next (φ := Fault) (ρ := Refusal)) (hready.vecIssue hreads hop hfunc f)
    exact ⟨fun h => hvec h _, fun h => hvec h _, fun h => hvec h _, fun h => hvec h _, fun h => hvec h _, fun h => hvec h _,
      fun h => hvec h _, fun h => hvec h _, fun hnone f => vecGo_empty hnone a f _, fun f => (vecGo_hbm a c f _).trans hu.hbm⟩
  · have hattend {m : Nat} (h : aMode k.words = m) (go : Cmd → List Word → State → State) :=
      congrArg (Host.Outcome.next (φ := Fault) (ρ := Refusal)) (hready.issues go (isAttend_eq hop h) hhold hkeys)
    exact ⟨fun h => hattend h _, fun h => hattend h _, fun h => hattend h _⟩
  · rw [hready.exec_move hop hhold (hreads.moveMeets (.inr (.inr hzero))), moveGo_zero hzero]
  · have hkind : mSrcKind c ≠ 2 := by omega
    exact ⟨_, hready.exec_move hop hhold (hreads.moveMeets (.inl hkind)),
      moveGo_toSram_hbm hu hn hdst (fun h => absurd h hkind), fun hmem => sramByte_moveGo_sram hu hmem.1 hn hsrc hdst⟩
  · exact congrArg Host.Outcome.next (hready.stops _ (beq_iff_eq.mpr hop) hhold hbad)
  · exact ⟨_, hready.exec_move hop hhold (hreads.moveMeets_of_true hgo), moveGo_toSram_hbm hu hn hdst (fun _ => hmap),
      fun hmem => (sramRead_moveGo hu hmem.1 hn hdst (fun _ => hmap)).trans (if_pos hsrc)⟩
  · rw [hready.exec_move hop hhold (hreads.moveMeets (.inr (.inl hmap))), moveGo_unmapped hn hsrc ((hu.mapped ..).trans hmap)]

end Sys2Proof.Claim
end

section
/-! PROOFS. Which command a row of the table takes up, and what a hold leaves (R95, R138, R142, R149, R150). -/

namespace Sys2Proof.Machine

/-! The run of a position. -/

/-- A change of runs that keeps their partition and step changes the run of a position alike. -/
theorem find?_isRun_map (a : At) (f : Run → Run) (hf : ∀ r, isRun a (f r) = isRun a r) (rs : List Run) :
    (rs.map f).find? (isRun a) = (rs.find? (isRun a)).map f := by
  rw [List.find?_map, show isRun a ∘ f = isRun a from funext hf]

theorem runAt_modRunAt (a : At) (f : Run → Run) (hf : ∀ r, isRun a (f r) = isRun a r) (s : State) :
    runAt (modRunAt a f s) a = (runAt s a).map f := by
  have hg (r : Run) : isRun a (if isRun a r then f r else r) = isRun a r := by
    split
    · exact hf r
    · rfl
  rw [runAt, modRunAt, clusterOf_modCluster, find?_isRun_map a _ hg, runAt]
  cases hrun : (clusterOf s a.cluster.val).runs.find? (isRun a) with
  | none => rfl
  | some r => simp only [Option.map_some, if_pos (List.find?_some hrun)]

theorem clusterOf_foldl {α : Type} {f : State → α → State} {k : Nat} (hf : ∀ t x, clusterOf (f t x) k = clusterOf t k)
    (xs : List α) (s : State) : clusterOf (xs.foldl f s) k = clusterOf s k := by
  induction xs generalizing s with
  | nil => rfl
  | cons x xs ih => exact (ih (f s x)).trans (hf s x)

/-- Charging stalls changes no list, only the stall records. -/
theorem clusterOf_chargeStall (k : Nat) (s : State) :
    clusterOf (chargeStall k s) k = { clusterOf s k with runs := (clusterOf s k).runs.map fun r => { r with stall := none } } := by
  refine (clusterOf_foldl (fun t r => ?_) _ _).trans (clusterOf_modCluster ..)
  split
  · rfl
  · simp only [cntAdd_frame]

theorem runAt_chargeStall (a : At) (s : State) :
    runAt (chargeStall a.cluster.val s) a = (runAt s a).map fun r => { r with stall := none } := by
  rw [runAt, clusterOf_chargeStall]
  exact find?_isRun_map a (fun r => { r with stall := none }) (fun _ => rfl) _

/-! Holds (R260). -/

/-- Memory and the commands that stand at a position are in `t` as in `s`. -/
structure Waits (a : At) (s t : State) : Prop where
  reads : ReadsAs s t
  todo : (runAt t a).map (fun r => r.todo) = (runAt s a).map fun r => r.todo

namespace Waits

variable {a : At} {s t u : State}

theorem refl (s : State) : Waits a s s := ⟨.refl s, rfl⟩

theorem trans (h : Waits a s t) (k : Waits a t u) : Waits a s u := ⟨h.reads.trans k.reads, k.todo.trans h.todo⟩

theorem modRunAt (f : Run → Run) (hrun : ∀ r, isRun a (f r) = isRun a r) (htodo : ∀ r, (f r).todo = r.todo) (s : State) :
    Waits a s (modRunAt a f s) := by
  refine ⟨.modCluster .., ?_⟩
  rw [runAt_modRunAt a f hrun, Option.map_map, show (fun r : Run => r.todo) ∘ f = fun r => r.todo from funext htodo]

theorem chargeStall (a : At) (s : State) : Waits a s (chargeStall a.cluster.val s) := by
  refine ⟨.chargeStall .., ?_⟩
  rw [runAt_chargeStall, Option.map_map]
  rfl

end Waits

/-- A hold changes no memory and issues nothing. -/
theorem waits_holdOn (a : At) (causes : List Nat) (s : State) : Waits a s (holdOn a causes s) := by
  have hstall (k : Nat × Nat) (t : State) : Waits a t (modRunAt a (fun r => { r with stall := some k }) t) :=
    .modRunAt (fun r => { r with stall := some k }) (fun _ => rfl) (fun _ => rfl) t
  unfold holdOn
  extract_lets t
  have hfrom : Waits a s t := by
    unfold t
    split
    · exact .modRunAt (fun r => { r with waitFrom := some (r.waitFrom.getD s.now) }) (fun _ => rfl) (fun _ => rfl) s
    · exact .refl s
  clear_value t
  refine hfrom.trans ?_
  split
  · exact .refl t
  · split
    · exact .refl t
    · split
      · split
        · exact .refl t
        · exact (Waits.chargeStall a t).trans (hstall ..)
      · exact hstall ..

end Sys2Proof.Machine

namespace Sys2Proof.Claim

open Sys2Proof.Machine

/-! Issue (R138, R142, R150). -/

section IssueWith
variable {s : State} {a : At} {ok : List Word → Bool} {extra : List Word → State → List Nat}
  {pre : List Word → State → Bool × State} {go : Cmd → List Word → State → State}

theorem issueWith_of_noRun (hrun : runAt s a = none) : issueWith a ok extra pre go s = s := by
  simp only [issueWith, hrun]

variable {r : Run} {k : Cmd} {rest : List Cmd}

/-- Another command, a list that is not open, and a cluster out of service: nothing is done. -/
theorem issueWith_of_skip (hrun : runAt s a = some r) (htodo : r.todo = k :: rest)
    (h : ok k.words = false ∨ listOpen s a = false ∨ (clusterOf s a.cluster.val).out = true) :
    issueWith a ok extra pre go s = s := by
  have hskip : ¬ ok k.words = true ∨ ¬ listOpen s a = true ∨ (clusterOf s a.cluster.val).out = true := by
    simpa only [Bool.not_eq_true] using h
  simp only [issueWith, hrun, htodo, if_pos hskip]

section Stands
variable (hstands : Stands s a r k rest) (hok : ok k.words = true)
include hstands hok

/-- The row takes up the command that stands next, so that what is left to decide is whether it comes from an expansion that is not
allowed, and what holds it. -/
theorem Stands.not_skip : ¬ (¬ ok k.words = true ∨ ¬ listOpen s a = true ∨ (clusterOf s a.cluster.val).out = true) := by
  obtain ⟨_, _, hopen, hin⟩ := hstands
  simp only [hok, hopen, hin, not_true_eq_false, Bool.false_eq_true, or_self, not_false_eq_true]

theorem Stands.issueWith_of_refused (h : refusedFor s a k ≠ 0) :
    issueWith a ok extra pre go s = faultAt a (refusedFor s a k) (cmdOpIndex (relocAt s a k.words)) s := by
  have hskip := hstands.not_skip hok
  obtain ⟨hrun, htodo, _⟩ := hstands
  unfold refusedFor at h ⊢
  split at h
  · next hexp => simp only [issueWith, hrun, htodo, if_neg hskip, if_pos hexp, if_pos (And.intro hexp h)]
  · exact absurd rfl h

theorem Stands.issueWith_of_held (hallowed : refusedFor s a k = 0) (h : holds s a r (relocAt s a k.words) ≠ []) :
    issueWith a ok extra pre go s = holdOn a (holds s a r (relocAt s a k.words) ++ extra (relocAt s a k.words) s) s := by
  have hskip := hstands.not_skip hok
  obtain ⟨hrun, htodo, _⟩ := hstands
  have hgoes : ¬ (k.expanded = true ∧ issueCause (imgOf s a.part.val) (imgC s a) (guestC s a) k.words ≠ 0) := by
    rintro ⟨hexp, hcause⟩
    exact hcause ((if_pos hexp).symm.trans hallowed)
  have hheld : holds s a r (relocAt s a k.words) ++ extra (relocAt s a k.words) s ≠ [] := List.append_ne_nil_of_left_ne_nil h _
  simp only [issueWith, hrun, htodo, if_neg hskip, if_neg hgoes, if_pos hheld]

end Stands
end IssueWith

/-! The rows of the table. -/

/-- Row `i` issues command `c` of position `a`, and commands of its opcode only. -/
def IssuesAs (i : Instr) (a : At) (c : List Word) : Prop :=
  ∃ (ok : List Word → Bool) (extra : List Word → State → List Nat) (pre : List Word → State → Bool × State)
    (go : Cmd → List Word → State → State),
    (∀ s, exec i s = .next (issueWith a ok extra pre go s)) ∧ ok c = true ∧ ∀ w, ok w = true → cOp w = cOp c

section IssuesAs
variable {i : Instr} {a : At} {c : List Word} {n m : Nat} {extra : List Word → State → List Nat}
  {pre : List Word → State → Bool × State} {go : Cmd → List Word → State → State}

theorem issuesAs_op (hop : cOp c = n) (hexec : ∀ s, exec i s = .next (issueWith a (isOp n) extra pre go s)) : IssuesAs i a c :=
  ⟨isOp n, extra, pre, go, hexec, beq_iff_eq.mpr hop, fun _ hw => (beq_iff_eq.mp hw).trans hop.symm⟩

/-- The same of a row that picks one function or mode `f` of its opcode. -/
theorem issuesAs_mode {f : List Word → Nat} (hop : cOp c = n) (hmode : f c = m)
    (hexec : ∀ s, exec i s = .next (issueWith a (fun w => cOp w == n && f w == m) extra pre go s)) : IssuesAs i a c := by
  refine ⟨_, extra, pre, go, hexec, ?_, fun w hw => ?_⟩
  · simp only [hop, hmode, beq_self_eq_true, Bool.and_self]
  · simp only [Bool.and_eq_true, beq_iff_eq] at hw
    exact hw.1.trans hop.symm

end IssuesAs

/-- The row that a command makes issues it. -/
theorem issuesAs_rowOf (a : At) (ev : RunEvent) {c : List Word} (h : Plain c) : IssuesAs (rowOf a ev c) a c := by
  obtain ⟨hlast, hvec, hattend, hroute⟩ := h
  unfold rowOf
  split
  next hop => exact issuesAs_op hop fun _ => rfl
  next hop => exact issuesAs_op hop fun _ => rfl
  next hop => exact issuesAs_op hop fun _ => rfl
  next hop =>
    have hfunc := hvec hop
    split
    case h_8 =>
      have hconvert : vFunc c = 8 := by grind
      exact issuesAs_mode (f := vFunc) hop hconvert fun _ => rfl
    all_goals
      next hf => exact issuesAs_mode (f := vFunc) hop hf fun _ => rfl
  next hop =>
    have hmode := hattend hop
    split
    case h_3 =>
      have hmerge : aMode c = 2 := by grind
      exact issuesAs_mode (f := aMode) hop hmerge fun _ => rfl
    all_goals
      next hm => exact issuesAs_mode (f := aMode) hop hm fun _ => rfl
  next hop =>
    obtain ⟨hseal, hlast⟩ := hroute hop
    split
    case h_2 hm => exact absurd hm hseal
    case h_6 =>
      have hpush : rMode c = 5 := by grind
      exact issuesAs_mode (f := rMode) hop hpush fun _ => rfl
    all_goals
      next hm => exact issuesAs_mode (f := rMode) hop hm fun _ => rfl
  case h_14 =>
    have hend : cOp c = 13 := by grind
    exact issuesAs_op hend fun _ => rfl
  all_goals
    next hop => exact issuesAs_op hop fun _ => rfl

/-- Settles O53: a row issues what stands next if it is its own command and nothing stops it; what is held waits. -/
theorem pilotRunsInOrder : Obligations.PilotRunsInOrder := by
  intro s a ev c hplain
  obtain ⟨ok, extra, pre, go, hexec, hok, hsame⟩ := issuesAs_rowOf a ev hplain
  simp only [hexec, Host.Outcome.next.injEq]
  refine ⟨issueWith_of_noRun, fun r k rest hstands hop => ?_, fun r k rest hrun htodo hshut => ?_,
    fun r k rest hstands hwords hcause => ?_, fun r k rest hstands hwords hallowed hheld => ?_⟩
  · have hother : ok k.words = false := Bool.eq_false_iff.mpr fun h => hop (hsame _ h).symm
    obtain ⟨hrun, htodo, _⟩ := hstands
    exact issueWith_of_skip hrun htodo (.inl hother)
  · exact issueWith_of_skip hrun htodo (.inr hshut)
  · subst hwords
    exact hstands.issueWith_of_refused hok hcause
  · subst hwords
    have hwaits := waits_holdOn a (holds s a r (relocAt s a k.words) ++ extra (relocAt s a k.words) s) s
    refine ⟨_, hstands.issueWith_of_held hok hallowed hheld, hwaits.reads.sram, hwaits.reads.hbm, ?_⟩
    obtain ⟨hrun, htodo, _⟩ := hstands
    rw [hwaits.todo, hrun, Option.map_some, htodo]

end Sys2Proof.Claim
end

section
/-! PROOFS. EXPAND at the fifth level (R148, R150): the statement of the Pilot's own commands leaves out the level that R148 allows. -/

namespace Sys2Proof.Claim

open Sys2Proof.Machine

/-- An EXPAND at the fifth level is a program fault (R148, R150). -/
theorem expand_fifthLevel {a : At} {k : Cmd} {c : List Word} {s : State} (hlevel : 5 ≤ k.depth) :
    expand a k c s = faultAt a 1 noOp s := by
  unfold expand
  dsimp only
  split
  · rfl
  · rw [if_pos hlevel]

/-! A step whose list has come to such an EXPAND. -/

/-- An image of one section, its templates: template 7 is a NOP. -/
def nopTemplate : List Word := List.replicate 3 0 ++ [1] ++ List.replicate 12 0 ++ [3, 80, 12, 1] ++ [7, 1, 0x0100]
/-- EXPAND of template 7, twice, as an EXPAND at the fourth level brings it. -/
def fifthExpand : Cmd := { words := [0x060A, 7, 2, 0, 0, 2], expanded := true, depth := 5 }
/-- Partition 0 serves the image; step 1 is in flight, and cluster 0 has the EXPAND left to run for it. -/
def atFifthLevel : State :=
  { State.reset with
    images := [(0, { words := nopTemplate })]
    parts := [(0, { cfg := { st := .serving, ebb := [0x10] }, run := { steps := [{ id := 1, st := .admitted }] } })]
    x := { State.reset.x with clusters := [(0, { runs := [{ part := 0, step := 1, todo := [fifthExpand] }] })] } }
/-- Its position. -/
def fifthAt : At := { part := 0, cluster := 0, step := 1 }

theorem ready_fifthExpand :
    Ready atFifthLevel fifthAt { part := 0, step := 1, todo := [fifthExpand] } fifthExpand [] fifthExpand.words := by
  unfold Ready Stands
  decide +kernel

/-- What the statement asks of an EXPAND holds of it: nothing waits, its template is there, and two instances come of it. -/
theorem fifthExpand_expands :
    cOp fifthExpand.words = 10 ∧ expandHold fifthAt fifthExpand.words atFifthLevel = [] ∧
    templateOf (imgOf atFifthLevel fifthAt.part.val) (fld (wordAt fifthExpand.words 1) 0 16) = some (7, [0x0100], []) ∧
    expandCount atFifthLevel fifthAt fifthExpand.words = 2 ∧ opdOk (paramOpd atFifthLevel fifthAt fifthExpand.words) = true ∧
    instances atFifthLevel (flatOf fifthAt.cluster.val (cCore fifthExpand.words) (paramOpd atFifthLevel fifthAt fifthExpand.words).2.1
        (paramOpd atFifthLevel fifthAt fifthExpand.words).2.2.1) (fld (wordAt fifthExpand.words 4) 0 16) (7, [0x0100], []) 2 =
      some [0x0100, 0x0100] := by
  decide +kernel

/-- It faults, and the step's list is gone. -/
theorem exec_fifthExpand : ∃ t, exec (.expand fifthAt) atFifthLevel = .next t ∧ runAt t fifthAt = none := by
  refine ⟨_, congrArg Host.Outcome.next (ready_fifthExpand.issues _ rfl fifthExpand_expands.2.1 rfl), ?_⟩
  rw [expand_fifthLevel (Nat.le_refl 5)]
  decide +kernel

/-- Refutes O54: an EXPAND at the fifth level is a program fault, which the EXPAND clause does not shut out: the step's list is then
gone, and no instances stand before it. -/
theorem not_pilotCommands : ¬ Obligations.PilotCommands := by
  intro h
  obtain ⟨_, _, _, _, _, hexpand, _⟩ := h atFifthLevel _ fifthAt _ fifthExpand [] _ _ ready_fifthExpand rfl rfl
  obtain ⟨hop, hhold, htemplate, hcount, hopd, hinst⟩ := fifthExpand_expands
  obtain ⟨v, hv, _, htodo, _⟩ := hexpand _ _ hop hhold htemplate (hcount ▸ by decide) hopd (hcount ▸ hinst)
  obtain ⟨t, ht, hgone⟩ := exec_fifthExpand
  obtain rfl : v = t := Host.Outcome.next.inj (hv.symm.trans ht)
  rw [hgone] at htodo
  exact nomatch htodo

end Sys2Proof.Claim
end

section
/-! PROOFS. Gathered passes, waves, hangs and waits for an append (R90, R94, R153, R189, R221, R361). -/

namespace Sys2Proof.Machine

/-! Gathered passes (R94). -/

theorem gatherExpire_nil {key : Nat} {s : State} (h : (coreOf s key).gather = []) : gatherExpire key s = s := by
  simp only [gatherExpire, h, List.map_nil, List.min?_nil]

/-- The entry that is due first is released with its matches. -/
theorem gatherExpire_due {key : Nat} {s : State} {o : GatherEntry}
    (h : (coreOf s key).gather.find? (fun e => e.due == (((coreOf s key).gather.map fun e => e.due).min?).getD 0) = some o) :
    gatherExpire key s = releaseSet key ((coreOf s key).gather.filter fun x => gatherMatch x o) true s := by
  unfold gatherExpire
  cases hmin : ((coreOf s key).gather.map fun e => e.due).min? with
  | none =>
    have hnil : (coreOf s key).gather = [] := List.map_eq_nil_iff.mp (List.min?_eq_none_iff.mp hmin)
    rw [hnil] at h
    exact nomatch h
  | some t =>
    rw [hmin, Option.getD_some] at h
    simp only [hmin, h]

/-! Waves (R90). -/

/-- A change of every entry of a table is read as the change of the entry. -/
theorem tget_map {α β : Type} (f : Nat → α → β) (t : Tbl α) (i : Nat) :
    tget (t.map fun e => (e.1, f e.1 e.2)) i = (tget t i).map (f i) := by
  induction t with
  | nil => rfl
  | cons e t ih =>
    simp only [List.map_cons, tget, ih]
    split
    · next h => rw [h, Option.map_some]
    · rfl

/-- What a change of the runs at a barrier makes of a run. -/
def atBarrier (p step b : Nat) (f : Run → Run) (r : Run) : Run :=
  if r.part == p && r.step == step && r.atBar == some b then f r else r

theorem runs_modAtBar (p step b : Nat) (f : Run → Run) (s : State) (k : Nat) :
    (clusterOf (modAtBar p step b f s) k).runs = (clusterOf s k).runs.map (atBarrier p step b f) := by
  have hget : tget (modAtBar p step b f s).x.clusters k =
      (tget s.x.clusters k).map fun c => { c with runs := c.runs.map (atBarrier p step b f) } :=
    tget_map (fun _ (c : Cluster) => ({ c with runs := c.runs.map (atBarrier p step b f) } : Cluster)) s.x.clusters k
  rw [clusterOf, tgetD, hget, clusterOf, tgetD]
  cases tget s.x.clusters k <;> rfl

/-- A run that stands at the barrier is changed. -/
theorem runAt_modAtBar {a : At} {b : Nat} {f : Run → Run} (hf : ∀ r, isRun a (f r) = isRun a r) {s : State} {r : Run}
    (hrun : runAt s a = some r) (hbar : r.atBar = some b) : runAt (modAtBar a.part.val a.step b f s) a = some (f r) := by
  have hkeep (r : Run) : isRun a (atBarrier a.part.val a.step b f r) = isRun a r := by
    unfold atBarrier
    split
    · exact hf r
    · rfl
  have hisRun : isRun a r = true := List.find?_some (p := isRun a) hrun
  have hat : atBarrier a.part.val a.step b f r = f r := by
    refine if_pos ?_
    rw [hbar, beq_self_eq_true, Bool.and_true]
    exact hisRun
  rw [runAt, runs_modAtBar, find?_isRun_map a _ hkeep, ← runAt, hrun, Option.map_some, hat]

theorem isRun_nextWave (a : At) (r : Run) : isRun a (nextWave r) = isRun a r := by
  unfold nextWave
  split
  · rfl
  · split <;> rfl

theorem nextWave_zero {r : Run} (h : r.waves = 0) : nextWave r = r := if_pos h

theorem nextWave_next {r : Run} (h1 : 1 ≤ r.waves) (h7 : r.waves < 7) : nextWave r = { r with waves := r.waves + 1 } := by
  rw [nextWave, if_neg (Nat.ne_of_gt h1), if_neg (Nat.not_le_of_lt h7)]

theorem nextWave_last {r : Run} (h : r.waves = 7) : nextWave r = { r with atBar := none, waves := 0 } := by
  rw [nextWave, if_neg (by omega), if_pos (Nat.le_of_eq h.symm)]

/-! Hangs (R153, R221, R361). -/

/-- A packet that leaves changes ports and their totals only. -/
structure SentOnly (s t : State) : Prop where
  hm : t.host.hm = s.host.hm
  parts : t.parts = s.parts

namespace SentOnly

theorem trans {s t u : State} (h : SentOnly s t) (k : SentOnly t u) : SentOnly s u := ⟨k.hm.trans h.hm, k.parts.trans h.parts⟩

theorem foldl {α : Type} {f : State → α → State} (hf : ∀ t x, SentOnly t (f t x)) (xs : List α) (s : State) :
    SentOnly s (xs.foldl f s) := by
  induction xs generalizing s with
  | nil => exact ⟨rfl, rfl⟩
  | cons x xs ih => exact (hf s x).trans (ih (f s x))

theorem transmit (plane dst attempt : Nat) (h : List Word) (data : List Byte) (s : State) :
    SentOnly s (transmit plane dst attempt h data s) := by
  unfold Machine.transmit portSend
  dsimp only
  split
  · exact ⟨rfl, rfl⟩
  · split <;> exact ⟨rfl, rfl⟩

theorem sendHeartbeat (s : State) : SentOnly s (sendHeartbeat s) := by
  unfold Machine.sendHeartbeat
  split
  · exact ⟨rfl, rfl⟩
  · exact (foldl (fun t d => foldl (fun t p => transmit ..) _ t) _ s).trans ⟨rfl, rfl⟩

end SentOnly

theorem failed_declareFailed (cause elem : Nat) (s : State) : (declareFailed cause elem s).host.hm.failed = true := by
  unfold declareFailed
  split
  · next h => exact h
  · simp [portsIdle, (SentOnly.sendHeartbeat _).hm]

theorem parts_declareFailed (cause elem : Nat) (s : State) : (declareFailed cause elem s).parts = s.parts := by
  unfold declareFailed
  split
  · rfl
  · simp [portsIdle, (SentOnly.sendHeartbeat _).parts]

theorem hang_first {p step : Nat} {s : State} (h : (p, step) ∉ s.cont.hung) :
    (hang p step s).host.hm.failed = true ∧ (partOf (hang p step s) p).run.stopped = true := by
  rw [hang, if_neg h]
  refine ⟨failed_declareFailed .., ?_⟩
  rw [partOf, parts_declareFailed, ← partOf, partOf_modRun]

theorem hang_again {p step : Nat} {s : State} (h : (p, step) ∈ s.cont.hung) :
    hang p step s = programFault p step ((Config.openWord s.free).toNat % 65536) 0 noOp { s with free := s.free + 1 } := by
  rw [hang, if_pos h]
  rfl

theorem sealHang_of_waiting {a : At} {s : State} {t0 : Nat} {c : List Word} (h : (runAt s a).bind (fun r => r.sealFrom) = some t0)
    (hnext : sealNext s a = some c) : sealHang a s = hang a.part.val a.step (logEvent 0x0703 true a.part.val (rOp c) a.step (rQueue c)
      (((mapAt s a c).map fun m => closesMissing s a m (queueAt s a m (rQueue c))).getD 0) s) := by
  simp only [sealHang, h, hnext]

theorem sealHang_of_none {a : At} {s : State} (h : (runAt s a).bind (fun r => r.sealFrom) = none) : sealHang a s = s := by
  simp only [sealHang, h]

/-! Waits for an append (R189). -/

theorem appendTimeout_of_none {a : At} {s : State} (h : ((runAt s a).bind fun r => r.waitFrom) = none) : appendTimeout a s = s := by
  simp only [appendTimeout, h]

theorem appendTimeout_of_waiting {a : At} {s : State} {t0 : Nat} (h : ((runAt s a).bind fun r => r.waitFrom) = some t0) :
    appendTimeout a s = faultAt a 7 noOp s := by
  simp only [appendTimeout, h]

end Sys2Proof.Machine
end

section
/-! PROOFS. Completions, scrubs, return rows and probes (R106, R108, R142, R224, R270). -/

namespace Sys2Proof.Machine

/-! Completion (R142). -/

theorem clusterOf_complete (k id : Nat) (s : State) : clusterOf (complete k id s) k = { clusterOf s k with
    outst := (clusterOf s k).outst.filter fun o => !(o.id == id && o.probes == [] && !o.undrained && !engineHeld s o) } := by
  rw [complete, clusterOf_modCluster]

/-! The end of a scrub (R270). -/

/-- SRAM whose scrub has ended: it may be used again, and holds the words found bad. -/
def scrubbed (bad : List Nat) (x : Macro) : Macro := { x with scrub := false, bad := (x.bad ++ bad).eraseDups }

theorem tget_scrubDone (m : Nat) (bad : List Nat) (s : State) (n : Nat) : tget (scrubDone m bad s).tiers.macros n =
    (tget s.tiers.macros n).map fun x => if n = m ∧ x.scrub = true then scrubbed bad x else x := by
  rw [← tget_map fun n x => if n = m ∧ x.scrub = true then scrubbed bad x else x]
  refine congrArg (tget · n) (List.map_congr_left fun e _ => ?_)
  split <;> rfl

/-! Return rows (R224). -/

theorem storeRows_frame (rows : List (Nat × List Byte)) (s : State) :
    (storeRows rows s).parts = s.parts ∧ (storeRows rows s).x.chm = s.x.chm := by
  have hfresh (xs : List Rng) (t : State) : (freshParity xs t).parts = t.parts ∧ (freshParity xs t).x = t.x := by
    unfold freshParity
    split <;> exact ⟨rfl, rfl⟩
  induction rows generalizing s with
  | nil => exact ⟨rfl, rfl⟩
  | cons r rows ih =>
    obtain ⟨hparts, hchm⟩ := ih (storeRows [r] s)
    obtain ⟨hparts1, hx1⟩ := hfresh [{ start := r.1, len := r.2.length }] (dropCopies r.1 r.2.length (sramWrite r.1 r.2 s))
    exact ⟨hparts.trans hparts1, hchm.trans (congrArg (fun x => x.chm) hx1)⟩

theorem modEx_congr {p : Nat} {f g : PartEx → PartEx} {s : State} (h : f (partOf s p).ex = g (partOf s p).ex) :
    modEx p f s = modEx p g s := by
  simp only [modEx, modPart, h]

theorem returnRow_of_none {p k step op kind off : Nat} {bs : List Byte} {s : State} (h : stepRec s p step = none) :
    returnRow p k step op kind off bs s = s := by
  simp only [returnRow, h, Option.map_none, Option.getD_none, if_true]

/-- A row lands in SRAM and is counted. -/
theorem returnRow_sram {p k step op off : Nat} {bs : List Byte} {s : State} {x : StepRec} (hstep : stepRec s p step = some x)
    (hfly : inFlight x = true) (hfits : off + bs.length ≤ 2 ^ 24) : returnRow p k step op 1 off bs s =
      countReturn p (fun z => z.op == op && z.step == step && z.cluster == k && inReturn z 1 off)
        (storeRows [(clusterAddr k off, bs)] s) := by
  have hland : landReturn p k 1 off bs s = some (storeRows [(clusterAddr k off, bs)] s) := by
    rw [landReturn, if_neg (by decide), if_neg (by omega)]
  simp only [returnRow, hstep, Option.map_some, hfly, Option.getD_some, Bool.true_eq_false, if_false, hland]

/-- Counting a return changes the SELECTs of its partition only. -/
theorem countReturn_eq (p : Nat) (ok : SelRun → Bool) (s : State) :
    countReturn p ok s = modEx p (fun e => { e with sels := (partOf (countReturn p ok s) p).ex.sels }) s := by
  unfold countReturn
  refine modEx_congr ?_
  rw [partOf_modEx]
  dsimp only
  split <;> rfl

theorem sels_countReturn {p : Nat} {ok : SelRun → Bool} {s : State} {y : SelRun} (h : (partOf s p).ex.sels.find? ok = some y) :
    (partOf (countReturn p ok s) p).ex.sels =
      (partOf s p).ex.sels.map fun z => if z = y then { z with got := z.got + 1 } else z := by
  rw [countReturn, partOf_modEx]
  simp only [h]

/-! Probes (R106, R108). -/

theorem probeComplete_of_none {die : Nat} {m n : Bool} {s : State} (h : (chmOf s die).queue.find? (probeReady s) = none) :
    probeComplete die m n s = s := by
  simp only [probeComplete, h]

section ProbeComplete
variable {die : Nat} {s : State} {q : Probe} (h : (chmOf s die).queue.find? (probeReady s) = some q) (m n : Bool)
include h

theorem probeComplete_lost (hlost : q.lost = true) : probeComplete die m n s = proceed die q s := by
  simp only [probeComplete, h, hlost, if_true]

variable (hlost : q.lost = false)
include hlost

theorem probeComplete_fails : probeComplete die true true s = unitFails die s := by
  simp only [probeComplete, h, hlost, Bool.false_eq_true, if_false, Bool.and_self, if_true]

variable {m n} (hmn : (m && n) = false) {w : List Word} (hsafe : safeOf (imgOf s q.part) q.op = some w)
include hmn hsafe

theorem probeComplete_quant (hq : q.product = false) : probeComplete die m n s = judgeQuant die q w s := by
  simp only [probeComplete, h, hlost, hmn, hsafe, hq, Bool.false_eq_true, if_false, not_false_eq_true, if_true]

theorem probeComplete_product (hq : q.product = true) : probeComplete die m n s =
    if (tileBad s q).1 + (tileBad s q).2 ≠ 0 then refetchTile die q (tileBad s q) s else judgeProduct die q w s := by
  simp only [probeComplete, h, hlost, hmn, hsafe, hq, Bool.false_eq_true, if_false, not_true_eq_false]

end ProbeComplete

/-! Units in service (R108). -/

theorem out_modChm {f : Chamois → Chamois} (hf : ∀ u, (f u).out = u.out) (d : Nat) (s : State) (k : Nat) :
    (chmOf (modChm d f s) k).out = (chmOf s k).out := by
  by_cases h : d = k
  · rw [h, chmOf_modChm, hf]
  · rw [chmOf_modChm_ne f s h]

theorem out_joinQueue (q : Probe) (u : Chamois) : (joinQueue q u).out = u.out := by
  unfold joinQueue
  split <;> rfl

theorem out_joinQueues (qs : List Probe) (u : Chamois) : (qs.foldl (fun v q => joinQueue q v) u).out = u.out := by
  induction qs generalizing u with
  | nil => rfl
  | cons q qs ih => exact (ih (joinQueue q u)).trans (out_joinQueue q u)

theorem chm_usedTile (q : Probe) (s : State) : (usedTile q s).x.chm = s.x.chm := by
  unfold usedTile
  split
  · rfl
  · dsimp only
    split <;> rfl

theorem chm_releaseTile (q : Probe) (rows : List (Nat × List Byte)) (s : State) : (releaseTile q rows s).x.chm = s.x.chm :=
  (storeRows_frame rows _).2

theorem chm_recordRepair (kind elem detail : Nat) (s : State) : (recordRepair kind elem detail s).x.chm = s.x.chm := by
  unfold recordRepair queueTest
  dsimp only
  repeat' split
  all_goals simp

/-- A tile that proceeds takes no unit out of service. -/
theorem out_proceed (die : Nat) (q : Probe) (s : State) (k : Nat) : (chmOf (proceed die q s) k).out = (chmOf s k).out := by
  have hdequeue (t : State) : (chmOf (dequeue die q.id t) k).out = (chmOf t k).out :=
    out_modChm (by intro u; rfl) die t k
  unfold proceed
  split
  · exact hdequeue s
  · dsimp only
    rw [chmOf, chm_releaseTile, ← chmOf, hdequeue, chmOf, chm_usedTile, ← chmOf]
    simp only [countConv, cntAdd_frame]

/-- A unit that fails its own check is out of service. -/
theorem out_unitFails (die : Nat) (s : State) : (chmOf (unitFails die s) die).out = true := by
  have hout (e : Nat) : (chmOf (recordRepair 0x0B die 0 (logPkg 0x0408 true die e
      (modChm die (fun u => { u with out := true, queue := [], waiting := [] }) s))) die).out = true := by
    rw [chmOf, chm_recordRepair, ← chmOf]
    simp only [logPkg_frame, chmOf_modChm]
  unfold unitFails
  dsimp only
  split
  · rw [out_modChm (out_joinQueues _)]
    exact hout _
  · refine List.foldlRecOn (motive := fun t => (chmOf t die).out = true) _ _ ?_ fun t ht q _ => ?_
    · rw [out_modChm (by intro u; rfl)]
      exact hout _
    · split
      · rw [out_proceed]
        simpa only [cntAdd_frame] using ht
      · simpa only [cntAdd_frame] using ht

end Sys2Proof.Machine

namespace Sys2Proof.Claim

open Sys2Proof.Machine

/-- Settles O57: each is what its own operation does, stated above; a wave changes the runs that stand at its barrier, and a failed
unit keeps out of service while its probes move on. -/
theorem workUnderWay : Obligations.WorkUnderWay := by
  intro s a
  have hnext {t u : State} (h : t = u) : (Host.Outcome.next t : Host.Outcome State Fault Refusal) = .next u := congrArg _ h
  refine ⟨fun core h => hnext (gatherExpire_nil h), fun core o h => hnext (gatherExpire_due h), fun bar r hrun hbar => ?wave,
    fun bar h => hnext (if_pos h), fun bar h => hnext (if_neg h), hang_first, fun h => ⟨_, hang_again h⟩,
    fun t0 c h hseal => hnext (sealHang_of_waiting h hseal), fun h => hnext (sealHang_of_none h),
    fun h => hnext (appendTimeout_of_none h), fun t0 h => hnext (appendTimeout_of_waiting h),
    fun id => ⟨_, rfl, by rw [clusterOf_complete], by rw [clusterOf_complete], rfl, rfl⟩,
    fun m bad x hget hscrub => ?scrub, fun x op off data hstep hfly hfits => ?row,
    fun op kind off data h => hnext (returnRow_of_none h), fun die m n h => hnext (probeComplete_of_none h),
    fun die m n q w h => ⟨fun hlost => hnext (probeComplete_lost h m n hlost), fun hlost => ?unit, fun hlost hmn hsafe => ?probe⟩⟩
  case wave =>
    have hwave : runAt (modAtBar a.part.val a.step bar.val nextWave s) a = some (nextWave r) :=
      runAt_modAtBar (isRun_nextWave a) hrun hbar
    exact ⟨_, rfl, rfl, fun h1 h7 => nextWave_next h1 h7 ▸ hwave, fun h7 => nextWave_last h7 ▸ hwave,
      fun h0 => (nextWave_zero h0).symm ▸ hwave⟩
  case scrub =>
    have hdone : tget (scrubDone m bad s).tiers.macros m = some (scrubbed bad x) := by
      rw [tget_scrubDone, hget, Option.map_some, if_pos ⟨rfl, hscrub⟩]
    refine ⟨_, rfl, ?_, fun w => ?_, fun n hn => ?_, rfl⟩
    · rw [hdone]; rfl
    · rw [hdone]; simp [scrubbed]
    · rw [tget_scrubDone]; simp [hn]
  case row =>
    refine ⟨_, hnext (returnRow_sram hstep hfly hfits), countReturn_eq .., fun y hy => ?_⟩
    have hpart : partOf (storeRows [(clusterAddr a.cluster.val off, data)] s) a.part.val = partOf s a.part.val := by
      rw [partOf, (storeRows_frame _ s).1, ← partOf]
    rw [sels_countReturn (hpart ▸ hy), hpart]
  case unit => exact ⟨hnext (probeComplete_fails h hlost), out_unitFails _ s⟩
  case probe =>
    have hjudged := probeComplete_product h hlost hmn hsafe
    exact ⟨fun hq => hnext (probeComplete_quant h hlost hmn hsafe hq),
      fun hq hgood => hnext ((hjudged hq).trans (if_neg (not_not_intro hgood))), fun hq hbad => hnext ((hjudged hq).trans (if_pos hbad))⟩

end Sys2Proof.Claim
end

section
/-! PROOFS. Unused numbers, image.load and image.free (R130, R417; log 10). -/

namespace Sys2Proof.Machine

/-! Unused numbers (log 10). -/

/-- The search for an unused number looks at the residues of `fuel` consecutive numbers. -/
theorem firstFree_eq_find? (used : List Nat) (n fuel k : Nat) :
    firstFree used n fuel k = ((List.range' k fuel).map (· % n)).find? (fun i => decide (i ∉ used)) := by
  induction fuel generalizing k with
  | zero => rfl
  | succ fuel ih =>
    rw [List.range'_succ, List.map_cons, List.find?_cons, firstFree]
    by_cases h : k % n ∈ used
    · simp only [h, if_true, not_true_eq_false, decide_false, ih]
    · simp only [h, if_false, not_false_eq_true, decide_true]

/-- Up to `n` consecutive numbers have different residues. -/
theorem nodup_residues {n fuel : Nat} (h : fuel ≤ n) (k : Nat) : ((List.range' k fuel).map (· % n)).Nodup := by
  refine List.pairwise_map.mpr ((List.pairwise_lt_range' (s := k) (n := fuel)).imp_of_mem fun {a b} ha hb hlt hab => ?_)
  rw [List.mem_range'_1] at ha hb
  have hzero : (b - a) % n = 0 := Nat.sub_mod_eq_zero_of_mod_eq hab.symm
  rw [Nat.mod_eq_of_lt (by omega)] at hzero
  omega

/-- A list without repetitions is no longer than a list that holds all its members: each takes one of the other's places. -/
theorem length_le_of_nodup_of_subset {xs ys : List Nat} (hxs : xs.Nodup) (h : ∀ i ∈ xs, i ∈ ys) :
    xs.length ≤ ys.length := by
  induction xs generalizing ys with
  | nil => exact Nat.zero_le _
  | cons x xs ih =>
    obtain ⟨hx, hrest⟩ := List.nodup_cons.mp hxs
    have hmem : x ∈ ys := h x List.mem_cons_self
    have hne : ∀ i ∈ xs, i ≠ x := fun i hi hix => hx (hix ▸ hi)
    have hlen := ih hrest (ys := ys.erase x) fun i hi => (List.mem_erase_of_ne (hne i hi)).mpr (h i (List.mem_cons_of_mem x hi))
    rw [List.length_erase_of_mem hmem] at hlen
    have hpos : 0 < ys.length := List.length_pos_of_mem hmem
    rw [List.length_cons]
    omega

theorem firstFree_some {used : List Nat} {n fuel k i : Nat} (hn : 0 < n) (h : firstFree used n fuel k = some i) :
    i < n ∧ i ∉ used := by
  rw [firstFree_eq_find?] at h
  obtain ⟨j, -, rfl⟩ := List.mem_map.mp (List.mem_of_find?_eq_some h)
  have hfree := List.find?_some h
  exact ⟨Nat.mod_lt j hn, of_decide_eq_true hfree⟩

/-- More residues than there are used numbers cannot all be used. -/
theorem firstFree_isSome {used : List Nat} {n fuel : Nat} (hn : fuel ≤ n) (hused : used.length < fuel) (k : Nat) :
    (firstFree used n fuel k).isSome = true := by
  rw [firstFree_eq_find?, Option.isSome_iff_ne_none, Ne, List.find?_eq_none]
  intro hall
  have hlen := length_le_of_nodup_of_subset (nodup_residues hn k)
    fun i hi => Decidable.not_not.mp fun hi' => hall i hi (decide_eq_true hi')
  rw [List.length_map, List.length_range'] at hlen
  exact Nat.not_lt_of_le hlen hused

/-- With fewer than `n` numbers in use, an allocation finds one that is not. -/
theorem exists_allocFrom {used : List Nat} {n : Nat} (h : used.length < n) (start : Nat) :
    ∃ i, allocFrom used n start = some i ∧ i < n ∧ i ∉ used := by
  have hn : 0 < n := Nat.zero_lt_of_lt h
  have halloc : allocFrom used n start = firstFree used n (used.length + 1) start := by
    rw [allocFrom, if_neg (Nat.ne_of_gt hn), Nat.min_eq_right h]
  obtain ⟨i, hi⟩ := Option.isSome_iff_exists.mp (firstFree_isSome h (Nat.lt_succ_self _) start)
  exact ⟨i, halloc.trans hi, firstFree_some hn hi⟩

/-- A key that no entry of a table has reads as absent. -/
theorem tget_of_notMem_keys {α : Type} {t : Tbl α} {i : Nat} (h : i ∉ t.map fun e => e.1) : tget t i = none := by
  induction t with
  | nil => rfl
  | cons e t ih =>
    obtain ⟨hne, hrest⟩ := not_or.mp (mt List.mem_cons.mpr h)
    exact (if_neg (Ne.symm hne)).trans (ih hrest)

/-! image.load (R130, R417). -/

section ImageLoad
variable {s : State} {r : Request} (hseal : sealedOk s = true) (halign : dwordAt r.words 2 % 64 = 0)
  (hdma : dmaOpen s (dmaFn r) = true) {all : List Word}
include hseal halign hdma

theorem imageLoad_of_bad {b : Bad} (hbad : imageBad s (bitOf (argOf r 3) 0) (all.take ((argOf r 2).toNat / 4)) = some b) :
    imageLoad (some all) r s = reply r 0x0501 [w32 b.1, w32 b.2.1, w32 b.2.2] (countRead (argOf r 2).toNat s) := by
  simp only [imageLoad, hseal, halign, hdma, hbad, not_true_eq_false, ne_eq, if_false]

theorem imageLoad_of_good {h : Nat} (hgood : imageBad s (bitOf (argOf r 3) 0) (all.take ((argOf r 2).toNat / 4)) = none)
    (hroom : storeBytes s + 4 * (all.take ((argOf r 2).toNat / 4)).length ≤ 384 * 2 ^ 20)
    (halloc : allocFrom (s.images.map fun i => i.1) 64 (Config.choice s.free) = some h) :
    imageLoad (some all) r s = reply r 0 [w32 h] (settleStages
      { countRead (argOf r 2).toNat s with
        free := s.free + 1
        images := tset s.images h { words := all.take ((argOf r 2).toNat / 4)
                                    digest := sha256 (bytesOfWords (all.take ((argOf r 2).toNat / 4)))
                                    standby := bitOf (argOf r 3) 0 } }) := by
  have hfree : (draw (countRead (argOf r 2).toNat s)).1 = s.free := rfl
  simp only [imageLoad, hseal, halign, hdma, hgood, hfree, halloc, Nat.not_lt_of_le hroom, not_true_eq_false, ne_eq, if_false]
  rfl

end ImageLoad

/-! image.free (R417). -/

section ImageFree
variable {s : State} {r : Request} (hheld : (tget s.images (fld (argOf r 0) 0 6)).isSome = true)
include hheld

theorem imageFree_of_unused (hused : imageUsed s (fld (argOf r 0) 0 6) = false) :
    imageFree r s = reply r 0 [] (settleStages { s with images := terase s.images (fld (argOf r 0) 0 6) }) := by
  simp only [imageFree, hused, Option.isNone_eq_false_iff.mpr hheld, Bool.false_eq_true, if_false]

theorem imageFree_of_used (hused : imageUsed s (fld (argOf r 0) 0 6) = true) : imageFree r s = reply r 0x0D0F [] s := by
  simp only [imageFree, hused, Option.isNone_eq_false_iff.mpr hheld, Bool.false_eq_true, if_false, if_true]

end ImageFree

end Sys2Proof.Machine

namespace Sys2Proof.Claim

open Sys2Proof.Machine

/-- A command runs on the request at the head of the journal, in the state in which that is taken (R410). -/
theorem Heads.takeCmd {s : State} {m : MbxId} {code : Nat} {r : Request} (h : Heads s m code r)
    (f : Request → State → State) : takeCmd m code f s = f r (taken s) := by
  obtain ⟨hhead, hmbx, hcode, hgone⟩ := h
  obtain ⟨rest, hjournal⟩ := List.head?_eq_some_iff.mp hhead
  exact takeCmd_head f hjournal hmbx hcode hgone

theorem exec_imageLoad {s : State} {m : MbxId} {r : Request} (h : Heads s m 0x0201 r) (dma : Option (List Word)) :
    exec (.imageLoad m dma) s = .next (imageLoad dma r (taken s)) := congrArg _ (h.takeCmd (imageLoad dma))

theorem exec_imageFree {s : State} {m : MbxId} {r : Request} (h : Heads s m 0x0202 r) :
    exec (.imageFree m) s = .next (imageFree r (taken s)) := congrArg _ (h.takeCmd imageFree)

/-- The DMA of every command but step.submit is issued for the physical function (R429). -/
theorem Heads.dmaFn {s : State} {m : MbxId} {code : Nat} {r : Request} (h : Heads s m code r) (hcode : code ≠ 0x0401) :
    dmaFn r = 32 := by
  obtain ⟨-, -, rfl, -⟩ := h
  exact if_neg hcode

/-- Settles O15: fewer than 64 images leave a handle free, and taking the request changes nothing that the checks read. -/
theorem imageLoadAndFree : Obligations.ImageLoadAndFree := by
  intro s m r all
  refine ⟨fun hr hseal halign hdma hgood hroom hcount => ?load, fun b hr hseal halign hdma hbad => ?refused,
    fun hr hheld hused => ?free, fun hr hheld hused => ?inUse⟩
  case load =>
    obtain ⟨h, halloc, hlt, hunused⟩ := exists_allocFrom (used := s.images.map fun i => i.1) (by rwa [List.length_map])
      (Config.choice s.free)
    refine ⟨h, hlt, tget_of_notMem_keys hunused, (exec_imageLoad hr _).trans (congrArg _ ?_)⟩
    exact imageLoad_of_good (s := taken s) hseal halign (hr.dmaFn (by decide) ▸ hdma) hgood hroom halloc
  case refused =>
    exact (exec_imageLoad hr _).trans
      (congrArg _ (imageLoad_of_bad (s := taken s) hseal halign (hr.dmaFn (by decide) ▸ hdma) hbad))
  case free => exact (exec_imageFree hr).trans (congrArg _ (imageFree_of_unused (s := taken s) hheld hused))
  case inUse => exact (exec_imageFree hr).trans (congrArg _ (imageFree_of_used (s := taken s) hheld hused))

end Sys2Proof.Claim
end

section
/-! PROOFS. Admission of the oldest accepted step (R137, R157, R190, R191, R445, R502; log 25). -/

namespace Sys2Proof.Machine

/-- What admission to a partition asks of the package (R157, R445, R502). -/
theorem admitOpen_iff (s : State) (p : Nat) : admitOpen s p = true ↔
    (partOf s p).cfg.st = .serving ∧ (partOf s p).cfg.shadow ≠ .staged ∧ (partOf s p).run.stopped = false ∧
      (partOf s p).run.freeDrop = false ∧ s.host.hm.failed = false ∧ s.pw.st = .run ∧ s.pw.target.isSome = false ∧
      s.car.run.isSome = false ∧ s.car.starting = false ∧ s.sec.stopping.isSome = false := by
  simp [admitOpen, and_assoc]

/-- Where admission is shut, nothing happens after the folding, be a step accepted or not. -/
theorem stepAdmit_of_shut {p : Nat} {s0 s : State} (hs : s = foldBoundary p s0) (hshut : admitOpen s p = false) :
    stepAdmit p s0 = s := by
  subst hs
  unfold stepAdmit
  dsimp only
  split
  · rfl
  · simp only [hshut, Bool.false_eq_true, not_false_eq_true, true_or, if_true]

/-- No sequence of the step is away, on its way out or lost, and none is in a step in flight (R190, R195). -/
def SeqsReady (s : State) (p : Nat) (r : StepRec) : Prop :=
  ∀ u ∈ r.seqs, (slotAt s p u.slot).st = .resident ∧ (slotAt s p u.slot).swapOut = [] ∧
    ∀ x ∈ flying s p, ∀ v ∈ x.seqs, v.slot ≠ u.slot

section SeqsReady
variable {s : State} {p : Nat} {r : StepRec} (h : SeqsReady s p r)
include h

theorem SeqsReady.notBusy :
    r.seqs.any (fun u => decide (u.slot ∈ (flying s p).flatMap fun x => x.seqs.map fun v => v.slot)) = false := by
  simp only [List.any_eq_false, decide_eq_true_eq, List.mem_flatMap, List.mem_map, not_exists, not_and]
  intro u hu x hx v hv
  obtain ⟨-, -, hother⟩ := h u hu
  exact hother x hx v hv

theorem SeqsReady.noneLost : r.seqs.any (fun u => (slotAt s p u.slot).st == .lost) = false := by
  rw [List.any_eq_false]
  intro u hu
  rw [(h u hu).1]
  decide

theorem SeqsReady.noneAway : (r.seqs.map fun u => u.slot).filter (fun i => (slotAt s p i).st == .swapped) = [] := by
  rw [List.filter_eq_nil_iff, List.forall_mem_map]
  intro u hu
  rw [(h u hu).1]
  decide

theorem SeqsReady.noneLeaving : (r.seqs.map fun u => u.slot).any (fun i => (slotAt s p i).swapOut != []) = false := by
  rw [List.any_eq_false, List.forall_mem_map]
  intro u hu
  obtain ⟨-, hout, -⟩ := h u hu
  simp only [hout, bne_self_eq_false, Bool.false_eq_true, not_false_eq_true]

end SeqsReady

/-- A stage whose restore is complete, for a latency-critical partition (R252). -/
theorem restored_eq_true {s : State} {p : Nat}
    (h : recClass (bank s p) = true → ∃ st, stageOf s p = some st ∧ st.complete = true) :
    (!recClass (bank s p) || ((stageOf s p).map fun st => st.complete).getD true) = true := by
  cases hclass : recClass (bank s p) with
  | false => rfl
  | true =>
    obtain ⟨st, hstage, hcomplete⟩ := h hclass
    rw [hstage]
    exact hcomplete

/-- Every check passes, so the oldest accepted step gets its pages and runs. -/
theorem stepAdmit_of_ready {p : Nat} {s0 s t : State} {r : StepRec} {rest : List StepRec} (hs : s = foldBoundary p s0)
    (hacc : accepted s p = r :: rest) (hopen : admitOpen s p = true) (hinterval : intervalOk s p = true)
    (hrestored : recClass (bank s p) = true → ∃ st, stageOf s p = some st ∧ st.complete = true)
    (hrel : relPending s p r.id = false) (hready : SeqsReady s p r) (halloc : allocAll p (pagesNeeded s p r.seqs) s = some t) :
    stepAdmit p s0 = admitNow p r ((pagesNeeded s p r.seqs).map fun q => (q.1, q.2.1)) t := by
  subst hs
  simp only [stepAdmit, hacc, hopen, hinterval, restored_eq_true hrestored, hrel, hready.notBusy, hready.noneLost,
    hready.noneAway, hready.noneLeaving, halloc, not_true_eq_false, Bool.false_eq_true, or_self, ne_eq, if_false]

end Sys2Proof.Machine

namespace Sys2Proof.Claim

open Sys2Proof.Machine

/-- Settles O20: a step that passes every check is admitted, and each condition of the second half shuts admission. -/
theorem stepAdmission : Obligations.StepAdmission := by
  intro s0 s t part r rest hs hacc
  refine ⟨fun hopen hinterval hrestored hrel hready halloc =>
    congrArg _ (stepAdmit_of_ready hs hacc hopen hinterval hrestored hrel hready halloc), fun hshut => ?_⟩
  refine congrArg _ (stepAdmit_of_shut hs (Bool.eq_false_iff.mpr fun hopen => ?_))
  obtain ⟨hst, hshadow, -, -, hhm, hpw, htarget, hcar, -, hsec⟩ := (admitOpen_iff s part.val).mp hopen
  simp [hst, hshadow, hhm, hpw, htarget, hcar, hsec] at hshut

end Sys2Proof.Claim
end

section
/-! PROOFS. Requests in their turn on a stream, BULK and the releases of a next member (R200, R232, R313, R316, R321, R542). -/

namespace Sys2Proof.Machine

/-! Streams at their destination (R320, R321). -/

theorem dstOf_key (s : State) (plane src job : Nat) :
    (dstOf s plane src job).plane = plane ∧ (dstOf s plane src job).src = src ∧ (dstOf s plane src job).job = job := by
  unfold dstOf
  cases hfind : s.fab.dst.find? fun x => x.plane = plane ∧ x.src = src ∧ x.job = job with
  | none => exact ⟨rfl, rfl, rfl⟩
  | some x =>
    have hkey := List.find?_some hfind
    exact of_decide_eq_true hkey

/-- Where every element of a kind is replaced by one of that kind, it is the first of the kind. -/
theorem find?_map_replace {α : Type} {f : α → Bool} {x : α} (hx : f x = true) {ys : List α} (hany : ys.any f = true) :
    (ys.map fun y => if f y then x else y).find? f = some x := by
  induction ys with
  | nil => simp at hany
  | cons y ys ih =>
    by_cases hy : f y = true
    · simp [hy, hx]
    · simp only [List.any_cons, hy, Bool.false_or] at hany
      simp [hy, ih hany]

/-- A stream reads back as it was put. -/
theorem dstOf_putDst (x : DstStream) (s : State) : dstOf (putDst x s) x.plane x.src x.job = x := by
  have hsame : (fun y : DstStream => decide (y.plane = x.plane ∧ y.src = x.src ∧ y.job = x.job)) =
      fun y => y.plane == x.plane && y.src == x.src && y.job == x.job := by
    funext y; simp [Bool.and_assoc, Bool.beq_eq_decide_eq]
  simp only [dstOf, hsame, putDst, modFab]
  split
  · next hany => rw [find?_map_replace (by simp) hany, Option.getD_some]
  · next hany =>
    rw [List.find?_append, List.find?_eq_none.mpr (by simpa using hany)]
    simp

theorem serialDiff_self (a : Nat) : serialDiff a a (2 ^ 32) = 0 := by
  unfold serialDiff; omega

/-- A request whose form is right carries POST in the one bit of SUBOP that a BULK uses (R316). -/
theorem bitOf_post {s : State} {h : List Word} {data : List Byte} (hform : reqStatus s h data = 0) (hop : hOp h = 5) :
    bitOf (w32 (hSub h)) 0 = true ↔ hSub h = 1 := by
  have hok : formOk h data = true := Decidable.byContradiction fun hbad => by
    rw [reqStatus, if_pos hbad] at hform
    exact absurd hform (by decide)
  have hsub : hSub h ≤ 1 := by
    simp only [formOk, hop, Bool.and_eq_true, decide_eq_true_eq] at hok
    exact hok.2.1
  obtain hzero | hone : hSub h = 0 ∨ hSub h = 1 := by omega
  · rw [hzero]; decide
  · rw [hone]; decide

/-- A refused request other than an atomic gets an ERROR and leaves no result (R322). -/
theorem refuse_of_ne_atomic {h : List Word} (hop : hOp h ≠ 3) (plane status : Nat) (s : State) :
    refuse plane h status s = respond plane (hSeq h) h 0x13 status (hAddr h) [] s := by
  rw [refuse, if_neg hop]

theorem ite_fun_apply {α β : Type} {c : Prop} [Decidable c] (f g : α → β) (x : α) :
    (if c then f else g) x = if c then f x else g x := by
  split <;> rfl

/-! What a BULK in its turn does (R200, R316). -/

/-- What ends a BULK into a partition's HBM: one that carries POST counts a return row (R316; log 128). -/
def bulkEnds (h : List Word) (s : State) : State :=
  if bitOf (w32 (hSub h)) 0 then hbmReturn (hDstPart h) (hOff h) s else s

section Bulk
variable {plane : Nat} {h : List Word} {data : List Byte} {s t : State}

theorem applyBulk_data (hregion : hbmRegion (hOff h) = 1) (hdata : data ≠ [])
    (hstore : storeStatus s (hDstPart h) (hOff h) data.length = 0) :
    applyBulk plane h data s = if ferryBusy s (hDstPart h) (hOff h) data then none else
      some (bulkEnds h (bulkLand (hDstPart h) (hOff h) data (cntAdd (hDstPart h) (cMemory + 1) (cdiv data.length 64) s))) := by
  have hlow : ¬ 5 < hbmRegion (hOff h) := by omega
  simp only [applyBulk, if_neg hlow, if_neg hdata, hstore, ne_eq, not_true_eq_false, if_false, bulkEnds]

theorem applyBulk_empty (hregion : hbmRegion (hOff h) < 5) (hdata : data = []) :
    applyBulk plane h data s = some (bulkEnds h s) := by
  have hlow : ¬ 5 < hbmRegion (hOff h) := by omega
  simp only [applyBulk, if_neg hlow, if_pos hdata, ne_eq, not_true_eq_false, if_false, bulkEnds]

/-- Only the data region takes stores (R239). -/
theorem storeStatus_region {off n p : Nat} (hregion : hbmRegion off < 5) (hdata : hbmRegion off ≠ 1) :
    storeStatus s p off n = 0x0801 := by
  rw [storeStatus, if_neg (by omega), if_pos hdata]

theorem applyBulk_region (hregion : hbmRegion (hOff h) < 5) (hne : hbmRegion (hOff h) ≠ 1) (hdata : data ≠ []) :
    applyBulk plane h data s = some (refuse plane h 0x0801 (storeRefused (hDstPart h) (hOff h) s)) := by
  have hlow : ¬ 5 < hbmRegion (hOff h) := by omega
  simp [applyBulk, hlow, hdata, storeStatus_region hregion hne]

theorem applyBulk_inbox (hregion : 5 < hbmRegion (hOff h)) : applyBulk plane h data s = applyInbox plane h data s := if_pos hregion

theorem applyInbox_unmapped (htarget : Config.inboxTarget (hOff h) = none) :
    applyInbox plane h data s = some (refuse plane h 0x0802 (storeRefused (hDstPart h) (hOff h) s)) := by
  simp only [applyInbox, htarget]

section Target
variable {c r o step : Nat} (htarget : Config.inboxTarget (hOff h) = some (c, r, o, step))
  (hopen : (partOf s (hDstPart h)).run.committed < step)
include htarget hopen

theorem applyInbox_return (hr : r = 16) (hland : landReturn (hDstPart h) c 1 o data s = some t) :
    applyInbox plane h data s = some ((if bitOf (w32 (hSub h)) 0 then
      countReturn (hDstPart h) (fun x => x.step == step && x.cluster == c && inReturn x 1 o) else fun v => v) t) := by
  simp only [applyInbox, htarget, if_neg (Nat.not_le_of_lt hopen), if_pos hr, hland, ite_fun_apply]

theorem applyInbox_slot (hr : r < 16) (hc : c < 48)
    (hfits : o + data.length ≤ 1024 * inKib (imgOf s (hDstPart h)) (hostOf s (hDstPart h) c) r) (hdata : data ≠ [])
    (hslot : slotReady s (inboxPlace s (hDstPart h) step c r o).1 (inboxPlace s (hDstPart h) step c r o).2.1 (hDstPart h) step = true) :
    applyInbox plane h data s = some ((if bitOf (w32 (hSub h)) 0 then countPost (hDstPart h) step c r else fun t => t)
      (storeRows [((inboxPlace s (hDstPart h) step c r o).2.2, data)] (takeSlot (inboxPlace s (hDstPart h) step c r o).1
        (inboxPlace s (hDstPart h) step c r o).2.1 (hDstPart h) step s))) := by
  have hplace : ¬ (48 ≤ c ∨ 1024 * inKib (imgOf s (hDstPart h)) (hostOf s (hDstPart h) c) r < o + data.length) := by omega
  simp only [applyInbox, htarget, if_neg (Nat.not_le_of_lt hopen), if_neg (Nat.ne_of_lt hr), if_neg hplace, hslot, not_true_eq_false,
    if_false, if_neg hdata, ite_fun_apply]

end Target

/-! What a release does (R316, R542). -/

theorem applyJournal_empty (hdata : data = []) (hsub : hSub h = 0) : applyJournal plane h data s = some s :=
  if_pos ⟨hdata, by omega⟩

/-- A source's place among the releases under assembly is free again. -/
def releaseDone (p src : Nat) (s : State) : State := modJr p (fun j => { j with jasm := j.jasm.filter fun e => e.1 != src }) s

section Journal
variable (hoff : hbmIn (hOff h) = 0)
include hoff

theorem applyJournal_first (hsub : hSub h = 0) (hlen : 16 ≤ data.length) :
    applyJournal plane h data s = some (modJr (hDstPart h) (fun j => { j with jasm :=
      (j.jasm.filter fun e => e.1 != hSrc h) ++ [(hSrc h, 64 + (wordAt (wordsOfBytes (data.take 16)) 2).toNat, data)] }) s) := by
  have hdata : data ≠ [] := List.ne_nil_of_length_pos (by omega)
  simp [applyJournal, hoff, hdata, hsub, hlen]

theorem applyJournal_whole (hsub : hSub h = 1) : applyJournal plane h data s = applyRelease plane h data s := by
  simp [applyJournal, hoff, hsub]

end Journal

section Release
variable {id n : Nat} (hid : id = dwordAt (wordsOfBytes (data.take 64)) 0)
  (hn : n = (wordAt (wordsOfBytes (data.take 64)) 2).toNat) (hlen : 64 + n ≤ data.length)
  (hring : entryBytes n ≤ ringBytes s (hDstPart h))
include hid hn hlen hring

theorem applyRelease_eq : applyRelease plane h data s =
    if id ≤ (partOf s (hDstPart h)).run.last then some (releaseDone (hDstPart h) (hSrc h) s)
    else (ringPlace s (hDstPart h) (entryBytes n)).map fun a => releaseDone (hDstPart h) (hSrc h)
      (journalPut (hDstPart h) id a (entryOf id ((data.drop 64).take n))
        (pushStep (hDstPart h) { id, inAt := a, inBytes := n, arrivedNs := s.now } s)) := by
  have hform : ¬ (data.length < 64 + n ∨ ringBytes s (hDstPart h) < entryBytes n) := by omega
  simp only [applyRelease, ← hid, ← hn, if_neg hform, releaseDone]
  cases ringPlace s (hDstPart h) (entryBytes n) <;> rfl

end Release

end Bulk

theorem bulkEnds_eq {h : List Word} (hpost : bitOf (w32 (hSub h)) 0 = true ↔ hSub h = 1) (s : State) :
    bulkEnds h s = (if hSub h = 1 then hbmReturn (hDstPart h) (hOff h) else fun v => v) s := by
  simp only [bulkEnds, hpost, ite_fun_apply]

/-! Bytes that a BULK brings (R316). -/

theorem hbm_hbmReturn (p off : Nat) (s : State) : (hbmReturn p off s).x.hbm = s.x.hbm := by
  unfold hbmReturn
  dsimp only
  split <;> rfl

theorem hbm_bulkEnds (h : List Word) (s : State) : (bulkEnds h s).x.hbm = s.x.hbm := by
  unfold bulkEnds
  split
  · exact hbm_hbmReturn ..
  · rfl

theorem hbm_bulkLand (p off : Nat) (bs : List Byte) (s : State) :
    (bulkLand p off bs s).x.hbm = memWrite s.x.hbm (hbmFlat s p off) bs := rfl

/-- Outside the weight region an offset has the same place whatever the stage. -/
theorem hbmFlat_region {off : Nat} (h : hbmRegion off ≠ 0) (s : State) (p : Nat) : hbmFlat s p off = p * 2 ^ 52 + off := if_neg h

/-- Bytes written at a place read back from it, and what lies above them reads as before. -/
theorem memGet_write_add {m : Mem} (h : memWf m = true) (x : Nat) (bs : List Byte) (a : Nat) :
    memGet (memWrite m x bs) (x + a) = if a < bs.length then bs.getD a 0 else memGet m (x + a) := by
  split
  · next ha => rw [memGet_write h x bs ha, List.getD_eq_getElem?_getD, List.getElem?_eq_getElem ha, Option.getD_some]
  · next ha => exact memGet_write_other h x bs (by omega)

end Sys2Proof.Machine

namespace Sys2Proof.Claim

open Sys2Proof.Machine

theorem inStream_entered (s : State) (p : Packet) :
    inStream (entered p s) p = { inStream s p with held := [(hSeq p.hdr, p.hdr, p.data)] } := by
  obtain ⟨hplane, hsrc, hjob⟩ := dstOf_key s p.plane.val (hSrc p.hdr) (hJob p.hdr)
  calc inStream (entered p s) p
      = dstOf (entered p s) (inStream s p).plane (inStream s p).src (inStream s p).job := by
        rw [inStream, inStream, hplane, hsrc, hjob]
    _ = _ := dstOf_putDst { inStream s p with held := [(hSeq p.hdr, p.hdr, p.data)] } (freeReplay p.plane.val p.hdr s)

section Turn
variable {s t : State} {p : Packet} (hdue : Due s p)
include hdue

/-- A due request is put to its stream, which looks at it at once (R313, R321). -/
theorem Due.arriveReq_eq : arriveReq p s = advance p.plane.val (hSrc p.hdr) (hJob p.hdr) 1 (entered p s) := by
  obtain ⟨-, hwhole, hgen, hexpect, hheld⟩ := hdue
  have hstream : dstOf (freeReplay p.plane.val p.hdr s) p.plane.val (hSrc p.hdr) (hJob p.hdr) = inStream s p := rfl
  simp only [arriveReq, hwhole, hgen, hstream, hexpect, hheld, serialDiff_self, entered]
  rfl

/-- The stream then holds that request only, and expects it. -/
theorem Due.dstOf_entered : dstOf (entered p s) p.plane.val (hSrc p.hdr) (hJob p.hdr) =
    { inStream s p with expect := hSeq p.hdr, held := [(hSeq p.hdr, p.hdr, p.data)] } := by
  obtain ⟨-, -, -, hexpect, -⟩ := hdue
  exact (inStream_entered s p).trans (by simp only [hexpect])

theorem Due.arriveReq_applied (happly : applyReq p.plane.val p.hdr p.data (entered p s) = some t) :
    arriveReq p s = moved p t := by
  rw [hdue.arriveReq_eq]
  simp only [advance, hdue.dstOf_entered, List.find?_cons, decide_true, happly, moved, inStream]

/-- A request that must wait stays in its stream; only a queue push leaves a mark (R229). -/
theorem Due.arriveReq_waits (hop : hOp p.hdr ≠ 4) (happly : applyReq p.plane.val p.hdr p.data (entered p s) = none) :
    arriveReq p s = entered p s := by
  rw [hdue.arriveReq_eq]
  simp only [advance, hdue.dstOf_entered, List.find?_cons, decide_true, happly, noteArrival, hop, ne_eq, not_false_eq_true,
    true_or, if_true]

end Turn

/-- What does not look at the fabric or at the power state finds the request's state as the one before it. -/
theorem wakeQuay_entered_reads {α : Type} (s : State) (p : Packet) (f : State → α)
    (hf : ∀ F P, f { s with fab := F, pw := P } = f s) : f (wakeQuay (entered p s)) = f s := by
  unfold wakeQuay
  split
  · exact hf _ _
  · exact hf _ _

section Reads
variable (s : State) (p : Packet) (k : Nat)

theorem storeStatus_entered (off n : Nat) : storeStatus (wakeQuay (entered p s)) k off n = storeStatus s k off n :=
  wakeQuay_entered_reads s p (storeStatus · k off n) fun _ _ => rfl

theorem run_entered : (partOf (wakeQuay (entered p s)) k).run = (partOf s k).run :=
  wakeQuay_entered_reads s p (fun v => (partOf v k).run) fun _ _ => rfl

theorem hbm_entered : (wakeQuay (entered p s)).x.hbm = s.x.hbm := wakeQuay_entered_reads s p (fun v => v.x.hbm) fun _ _ => rfl

theorem now_entered : (wakeQuay (entered p s)).now = s.now := wakeQuay_entered_reads s p (fun v => v.now) fun _ _ => rfl

theorem inboxPlace_entered (step c r o : Nat) : inboxPlace (wakeQuay (entered p s)) k step c r o = inboxPlace s k step c r o :=
  wakeQuay_entered_reads s p (inboxPlace · k step c r o) fun _ _ => rfl

theorem inKib_entered (c r : Nat) : inKib (imgOf (wakeQuay (entered p s)) k) (hostOf (wakeQuay (entered p s)) k c) r =
    inKib (imgOf s k) (hostOf s k c) r :=
  wakeQuay_entered_reads s p (fun v => inKib (imgOf v k) (hostOf v k c) r) fun _ _ => rfl

theorem slotReady_entered (cluster slot step : Nat) :
    slotReady (wakeQuay (entered p s)) cluster slot k step = slotReady s cluster slot k step :=
  wakeQuay_entered_reads s p (slotReady · cluster slot k step) fun _ _ => rfl

theorem ringBytes_entered : ringBytes (wakeQuay (entered p s)) k = ringBytes s k :=
  wakeQuay_entered_reads s p (ringBytes · k) fun _ _ => rfl

theorem ringPlace_entered (n : Nat) : ringPlace (wakeQuay (entered p s)) k n = ringPlace s k n :=
  wakeQuay_entered_reads s p (ringPlace · k n) fun _ _ => rfl

end Reads

theorem hbm_moved (p : Packet) (t : State) : (moved p t).x.hbm = t.x.hbm := rfl

theorem Right.bitOf_post {s : State} {p : Packet} (hright : Right s p) (hop : hOp p.hdr = 5) :
    bitOf (w32 (hSub p.hdr)) 0 = true ↔ hSub p.hdr = 1 := by
  obtain ⟨-, hstatus, -⟩ := hright
  exact Machine.bitOf_post hstatus hop

section Bulk
variable {s u t : State} {p : Packet} (hdue : Due s p) (hfrag : (inStream s p).frag = none) (hright : Right s p)
  (hu : u = wakeQuay (entered p s)) (hop : hOp p.hdr = 5)

include hfrag hright hu hop in
theorem applyReq_bulk : applyReq p.plane.val p.hdr p.data (entered p s) =
    if hbmRegion (hOff p.hdr) = 5 then applyJournal p.plane.val p.hdr p.data u else applyBulk p.plane.val p.hdr p.data u := by
  obtain ⟨hack, hstatus, hpower⟩ := hright
  have hfrag' : (dstOf (entered p s) p.plane.val (hSrc p.hdr) (hJob p.hdr)).frag = none := by
    rw [← inStream, inStream_entered, hfrag]
  have hstatus' : reqStatus (entered p s) p.hdr p.data = 0 := hstatus
  have hpower' : ¬ ((entered p s).pw.st ≠ .run ∧ (entered p s).pw.st ≠ .quayside) := fun ⟨hrun, hquay⟩ => hpower.elim hrun hquay
  simp only [applyReq, hfrag', hack, hstatus', if_neg hpower', hop, hu, Option.isSome_none, Bool.false_eq_true, ne_eq,
    not_true_eq_false, if_false]

include hdue hop in
theorem exec_bulk_due (hregion : hbmRegion (hOff p.hdr) ≠ 5) : exec (.bulk p) s = .next (arriveReq p s) := by
  obtain ⟨hme, -⟩ := hdue
  have hexec : exec (.bulk p) s = .next (takePacket p (hOp p.hdr == 5 && hbmRegion (hOff p.hdr) != 5) arriveReq s) := rfl
  simp [hexec, takePacket, hme, hop, hregion]

include hdue hop in
theorem exec_journalRelease_due (hregion : hbmRegion (hOff p.hdr) = 5) :
    exec (.journalRelease p) s = .next (arriveReq p s) := by
  obtain ⟨hme, -⟩ := hdue
  have hexec : exec (.journalRelease p) s =
    .next (takePacket p (hOp p.hdr == 5 && hbmRegion (hOff p.hdr) == 5) arriveReq s) := rfl
  simp [hexec, takePacket, hme, hop, hregion]

include hdue hfrag hright hu hop

theorem exec_bulk_applied (hregion : hbmRegion (hOff p.hdr) ≠ 5) (happly : applyBulk p.plane.val p.hdr p.data u = some t) :
    exec (.bulk p) s = .next (moved p t) := by
  have hreq := (applyReq_bulk hfrag hright hu hop).trans ((if_neg hregion).trans happly)
  rw [exec_bulk_due hdue hop hregion, hdue.arriveReq_applied hreq]

theorem exec_bulk_waits (hregion : hbmRegion (hOff p.hdr) ≠ 5) (happly : applyBulk p.plane.val p.hdr p.data u = none) :
    exec (.bulk p) s = .next (entered p s) := by
  have hreq := (applyReq_bulk hfrag hright hu hop).trans ((if_neg hregion).trans happly)
  rw [exec_bulk_due hdue hop hregion, hdue.arriveReq_waits (by omega) hreq]

theorem exec_journalRelease_applied (hregion : hbmRegion (hOff p.hdr) = 5)
    (happly : applyJournal p.plane.val p.hdr p.data u = some t) : exec (.journalRelease p) s = .next (moved p t) := by
  have hreq := (applyReq_bulk hfrag hright hu hop).trans ((if_pos hregion).trans happly)
  rw [exec_journalRelease_due hdue hop hregion, hdue.arriveReq_applied hreq]

theorem exec_journalRelease_waits (hregion : hbmRegion (hOff p.hdr) = 5)
    (happly : applyJournal p.plane.val p.hdr p.data u = none) : exec (.journalRelease p) s = .next (entered p s) := by
  have hreq := (applyReq_bulk hfrag hright hu hop).trans ((if_pos hregion).trans happly)
  rw [exec_journalRelease_due hdue hop hregion, hdue.arriveReq_waits (by omega) hreq]

end Bulk

/-- Settles O42: a request that is due is applied to the state that it finds, which reads as the one before it; each form of BULK and
each release then takes one branch. -/
theorem bulkAndReleases : Obligations.BulkAndReleases := by
  intro s u p k off n id hdue hfrag hright hu hop hk hoff
  subst hk hoff
  have hbulk {t : State} := exec_bulk_applied (t := t) hdue hfrag hright hu hop
  have hrelease {t : State} := exec_journalRelease_applied (t := t) hdue hfrag hright hu hop
  have hpost := hright.bitOf_post hop
  have hne : hOp p.hdr ≠ 3 := by omega
  refine ⟨fun hregion hdata hok hferry => ?data, fun hregion hdata hok hferry => ?ferry, fun hregion hdata hsub => ?empty,
    fun c o step t hregion htarget hopen hland => ?row, fun hregion hne1 hdata => ?refused, fun hregion htarget => ?unmapped,
    fun c r o step hregion htarget hr hc hopen hfits hdata hslot => ?inbox,
    fun hregion hin hsub hlen hid hn hwhole hring => ?release, fun hregion hsub hdata => ?nothing,
    fun hregion hin hsub hlen => ?first⟩
  case data =>
    have hland := (applyBulk_data (s := u) (plane := p.plane.val) hregion hdata (by rwa [hu, storeStatus_entered])).trans
      (if_neg (Bool.eq_false_iff.mp hferry))
    refine ⟨_, hbulk (by omega) hland, congrArg _ (bulkEnds_eq hpost _), fun ⟨_, hmem, _⟩ a => ?_⟩
    have hbm : (cntAdd (hDstPart p.hdr) (cMemory + 1) (cdiv p.data.length 64) u).x.hbm = s.x.hbm := hu ▸ hbm_entered s p
    rw [hbm_moved, hbm_bulkEnds, hbm_bulkLand, hbmFlat_region (by omega), hbmFlat_region (by omega), hbm]
    exact memGet_write_add hmem _ _ _
  case ferry =>
    exact exec_bulk_waits hdue hfrag hright hu hop (by omega)
      ((applyBulk_data hregion hdata (by rwa [hu, storeStatus_entered])).trans (if_pos hferry))
  case empty =>
    have hnone : bulkEnds p.hdr u = u := by simp [bulkEnds_eq hpost, hsub]
    exact hbulk (by omega) ((applyBulk_empty hregion hdata).trans (congrArg some hnone))
  case row =>
    have happly := applyInbox_return (plane := p.plane.val) htarget (by rwa [hu, run_entered]) rfl hland
    simp only [hpost] at happly
    exact hbulk (by omega) ((applyBulk_inbox hregion).trans happly)
  case refused =>
    exact hbulk (by omega) ((applyBulk_region hregion hne1 hdata).trans (congrArg some (refuse_of_ne_atomic hne ..)))
  case unmapped =>
    exact hbulk (by omega) ((applyBulk_inbox hregion).trans
      ((applyInbox_unmapped htarget).trans (congrArg some (refuse_of_ne_atomic hne ..))))
  case inbox =>
    have hplace : inboxPlace u (hDstPart p.hdr) step c r o = inboxPlace s (hDstPart p.hdr) step c r o := by
      rw [hu, inboxPlace_entered]
    have happly := applyInbox_slot (s := u) (plane := p.plane.val) htarget (by rwa [hu, run_entered]) hr hc
      (by rwa [hu, inKib_entered]) hdata (by rwa [hplace, hu, slotReady_entered])
    simp only [hplace, hpost] at happly
    exact hbulk (by omega) ((applyBulk_inbox hregion).trans happly)
  case release =>
    have happly := (applyJournal_whole (plane := p.plane.val) (s := u) (data := p.data) hin hsub).trans
      (applyRelease_eq hid hn hwhole (by rwa [hu, ringBytes_entered]))
    rw [hu, run_entered, ringPlace_entered, now_entered, ← hu] at happly
    refine ⟨fun a hnew hfree => ⟨_, hrelease hregion (happly.trans ?_), rfl⟩, fun hnew hfull => ?_, fun hold => ?_⟩
    · rw [if_neg (Nat.not_le_of_lt hnew), hfree]; rfl
    · exact exec_journalRelease_waits hdue hfrag hright hu hop hregion
        (happly.trans (by rw [if_neg (Nat.not_le_of_lt hnew), hfull]; rfl))
    · exact hrelease hregion (happly.trans (if_pos hold))
  case nothing => exact hrelease hregion (applyJournal_empty hdata hsub)
  case first => exact hrelease hregion (applyJournal_first hin hsub hlen)

end Sys2Proof.Claim
end

section
/-! PROOFS. Slots of the key-value cache: what changing some of them leaves, the slots of one sequence, and requests that wait for a
swap (R186, R194, R197, R199). -/

namespace Sys2Proof.Machine

/-! Sparse tables. -/

theorem mem_tset {α : Type} {t : Tbl α} {i : Nat} {v : α} {e : Nat × α} (h : e ∈ tset t i v) : e = (i, v) ∨ e ∈ t := by
  induction t with
  | nil => exact .inl (List.mem_singleton.mp h)
  | cons c t ih => grind [tset]

theorem tset_tset_same {α : Type} (t : Tbl α) (i : Nat) (v w : α) : tset (tset t i v) i w = tset t i w := by
  induction t with
  | nil => simp [tset]
  | cons c t ih => grind [tset]

/-- Entries of different keys are set in either order. -/
theorem tset_comm {α : Type} (t : Tbl α) {i j : Nat} (h : i ≠ j) (v w : α) : tset (tset t i v) j w = tset (tset t j w) i v := by
  induction t with
  | nil => grind [tset]
  | cons c t ih => grind [tset]

theorem mem_of_tget {α : Type} {t : Tbl α} {i : Nat} {v : α} (h : tget t i = some v) : (i, v) ∈ t := by
  induction t with
  | nil => exact nomatch h
  | cons c t ih => grind [tget]

theorem tget_terase {α : Type} (t : Tbl α) (i : Nat) : tget (terase t i) i = none := by
  induction t with
  | nil => rfl
  | cons c t ih => grind [terase, tget]

/-! One slot (R186). -/

theorem slots_modSlot (p i : Nat) (f : SeqSlot → SeqSlot) (s : State) :
    (partOf (modSlot p i f s) p).kv.slots = tset (partOf s p).kv.slots i (f (slotAt s p i)) := by
  simp only [modSlot, partOf_modKv, slotAt]

theorem slotAt_modSlot (p i : Nat) (f : SeqSlot → SeqSlot) (s : State) (j : Nat) :
    slotAt (modSlot p i f s) p j = if i = j then f (slotAt s p i) else slotAt s p j := by
  rw [slotAt, slots_modSlot]
  split
  · next h => subst h; exact tgetD_tset_same ..
  · next h => exact tgetD_tset_ne _ _ _ h

theorem slotAt_congr {s t : State} {p : Nat} (h : (partOf t p).kv.slots = (partOf s p).kv.slots) (j : Nat) :
    slotAt t p j = slotAt s p j := by rw [slotAt, h, ← slotAt]

theorem mates_congr {s t : State} {p : Nat} (h : (partOf t p).kv.slots = (partOf s p).kv.slots) (j : Nat) :
    mates t p j = mates s p j := by simp only [mates, slotAt_congr h, h]

theorem x_modSlot (p i : Nat) (f : SeqSlot → SeqSlot) (s : State) : (modSlot p i f s).x = s.x := rfl

/-- A slot is set, whatever it held. -/
def putSlot (p i : Nat) (q : SeqSlot) (s : State) : State := modSlot p i (fun _ => q) s

theorem modSlot_eq_putSlot (p i : Nat) (f : SeqSlot → SeqSlot) (s : State) :
    modSlot p i f s = putSlot p i (f (slotAt s p i)) s := rfl

theorem slotAt_putSlot (p i : Nat) (q : SeqSlot) (s : State) (j : Nat) :
    slotAt (putSlot p i q s) p j = if i = j then q else slotAt s p j := slotAt_modSlot ..

theorem putSlot_putSlot_same (p i : Nat) (q r : SeqSlot) (s : State) : putSlot p i r (putSlot p i q s) = putSlot p i r s := by
  simp only [putSlot, modSlot, modKv, modPart, partOf, tgetD_tset_same, tset_tset_same]

theorem putSlot_comm {p i j : Nat} (h : i ≠ j) (q r : SeqSlot) (s : State) :
    putSlot p i q (putSlot p j r s) = putSlot p j r (putSlot p i q s) := by
  simp only [putSlot, modSlot, modKv, modPart, partOf, tgetD_tset_same, tset_tset_same, tset_comm _ h]

/-! Several slots. -/

/-- Folds over one list agree where their steps agree on its members. -/
theorem foldl_eq_of_mem {α β : Type} {f g : β → α → β} {as : List α} (h : ∀ b, ∀ a ∈ as, f b a = g b a) (b : β) :
    as.foldl f b = as.foldl g b := by
  induction as generalizing b with
  | nil => rfl
  | cons a as ih =>
    rw [List.foldl_cons, List.foldl_cons, h b a List.mem_cons_self]
    exact ih (fun b c hc => h b c (List.mem_cons_of_mem a hc)) _

theorem slotAt_foldl_putSlot (p : Nat) (g : Nat → SeqSlot) (is : List Nat) (s : State) (j : Nat) :
    slotAt (is.foldl (fun u i => putSlot p i (g i) u) s) p j = if j ∈ is then g j else slotAt s p j := by
  induction is generalizing s with
  | nil => rfl
  | cons i is ih =>
    rw [List.foldl_cons, ih, slotAt_putSlot]
    by_cases hj : j ∈ is
    · simp only [hj, List.mem_cons, or_true, if_true]
    · by_cases hi : i = j
      · simp only [hi, List.mem_cons, true_or, if_true, hj, if_false]
      · simp only [List.mem_cons, hj, or_false, if_neg hi, if_neg (Ne.symm hi), if_false]

/-- Changing each of several slots once sets each to what its change makes of what it held. -/
theorem foldl_modSlot {is : List Nat} (h : is.Nodup) (p : Nat) (f : SeqSlot → SeqSlot) (s : State) :
    is.foldl (fun u i => modSlot p i f u) s = is.foldl (fun u i => putSlot p i (f (slotAt s p i)) u) s := by
  induction is generalizing s with
  | nil => rfl
  | cons i is ih =>
    obtain ⟨hi, his⟩ := List.nodup_cons.mp h
    rw [List.foldl_cons, List.foldl_cons, ih his, ← modSlot_eq_putSlot]
    refine foldl_eq_of_mem (fun u j hj => ?_) _
    have hne : i ≠ j := fun hij => hi (hij ▸ hj)
    rw [slotAt_modSlot, if_neg hne]

/-- A slot that is among those set later need not be set first. -/
theorem foldl_putSlot_absorb {is : List Nat} {i : Nat} (h : i ∈ is) (p : Nat) (g : Nat → SeqSlot) (q : SeqSlot) (s : State) :
    is.foldl (fun u k => putSlot p k (g k) u) (putSlot p i q s) = is.foldl (fun u k => putSlot p k (g k) u) s := by
  induction is generalizing s with
  | nil => exact nomatch h
  | cons k is ih =>
    rw [List.foldl_cons, List.foldl_cons]
    by_cases hk : k = i
    · subst hk; rw [putSlot_putSlot_same]
    · rw [putSlot_comm hk, ih ((List.mem_cons.mp h).resolve_left (Ne.symm hk))]

/-! The slots of a sequence (R199). -/

theorem mem_mates {s : State} {p i j : Nat} : j ∈ mates s p i ↔ ∃ q, (j, q) ∈ (partOf s p).kv.slots ∧
    q.seqId = (slotAt s p i).seqId ∧ q.st ≠ .empty ∧ q.freeing = (slotAt s p i).freeing := by
  simp only [mates, List.mem_map, List.mem_filter, Bool.and_eq_true, beq_iff_eq, bne_iff_ne]
  constructor
  · rintro ⟨⟨k, q⟩, ⟨hmem, ⟨hseq, hst⟩, hfree⟩, rfl⟩
    exact ⟨q, hmem, hseq, hst, hfree⟩
  · rintro ⟨q, hmem, hseq, hst, hfree⟩
    exact ⟨(j, q), ⟨hmem, ⟨hseq, hst⟩, hfree⟩, rfl⟩

/-- A slot that is in use is one of its sequence's. -/
theorem mem_mates_self {s : State} {p i : Nat} (h : (slotAt s p i).st ≠ .empty) : i ∈ mates s p i := by
  refine mem_mates.mpr ⟨slotAt s p i, ?_, rfl, h, rfl⟩
  cases hget : tget (partOf s p).kv.slots i with
  | none => exact absurd (by rw [slotAt, tgetD, hget]; rfl) h
  | some q => rw [slotAt, tgetD, hget]; exact mem_of_tget hget

/-- A slot that keeps its sequence brings no other slot to it. -/
theorem mates_of_slots {s t : State} {p i : Nat} {q : SeqSlot} (h : (partOf t p).kv.slots = tset (partOf s p).kv.slots i q)
    (hseq : q.seqId = (slotAt s p i).seqId) (hfree : q.freeing = (slotAt s p i).freeing) {j : Nat} (hj : j ∈ mates t p i) :
    j = i ∨ j ∈ mates s p i := by
  have hslot : slotAt t p i = q := by rw [slotAt, h, tgetD_tset_same]
  rw [mem_mates, hslot, h, hseq, hfree] at hj
  obtain ⟨r, hmem, hr⟩ := hj
  rcases mem_tset hmem with heq | hold
  · exact .inl (congrArg Prod.fst heq)
  · exact .inr (mem_mates.mpr ⟨r, hold, hr⟩)

theorem seqLeaving_eq_true {s : State} {p i j : Nat} (hj : j ∈ mates s p i) (h : (slotAt s p j).swapOut ≠ []) :
    seqLeaving s p i = true := List.any_eq_true.mpr ⟨j, hj, bne_iff_ne.mpr h⟩

/-! Requests that wait for a swap (R197). -/

/-- The request that a slot's swap keeps waiting is answered (R197). -/
def answerSlot (p status : Nat) (s : State) (i : Nat) : State :=
  (slotAt s p i).evicting.foldl (fun u r => reply r status [] u) (modSlot p i (fun q => { q with evicting := [] }) s)

theorem answerMates_eq (p slot status : Nat) (s : State) :
    answerMates p slot status s = (mates s p slot).foldl (answerSlot p status) s := rfl

/-- An update of the state that leaves what executes and the partitions alone. -/
structure HostOnly (s t : State) : Prop where
  x : t.x = s.x
  parts : t.parts = s.parts

namespace HostOnly

theorem trans {s t u : State} (h : HostOnly s t) (k : HostOnly t u) : HostOnly s u := ⟨k.x.trans h.x, k.parts.trans h.parts⟩

theorem foldl {α : Type} {f : State → α → State} (hf : ∀ t a, HostOnly t (f t a)) (as : List α) (s : State) :
    HostOnly s (as.foldl f s) := by
  induction as generalizing s with
  | nil => exact ⟨rfl, rfl⟩
  | cons a as ih => exact (hf s a).trans (ih (f s a))

theorem slots {s t : State} (h : HostOnly s t) (p : Nat) : (partOf t p).kv.slots = (partOf s p).kv.slots := by
  rw [partOf, h.parts, ← partOf]

/-- A frame that names every field of what executes. -/
theorem of_fields {s t : State} (hparts : t.parts = s.parts) (h : t.x.cores = s.x.cores ∧ t.x.clusters = s.x.clusters ∧
    t.x.chm = s.x.chm ∧ t.x.probeNo = s.x.probeNo ∧ t.x.sram = s.x.sram ∧ t.x.loose = s.x.loose ∧ t.x.hbm = s.x.hbm ∧
    t.x.bond = s.x.bond) : HostOnly s t := by
  obtain ⟨h1, h2, h3, h4, h5, h6, h7, h8⟩ := h
  refine ⟨?_, hparts⟩
  calc t.x = ⟨t.x.cores, t.x.clusters, t.x.chm, t.x.probeNo, t.x.sram, t.x.loose, t.x.hbm, t.x.bond⟩ := rfl
    _ = s.x := by rw [h1, h2, h3, h4, h5, h6, h7, h8]

theorem reply (r : Request) (status : Nat) (body : List Word) (s : State) : HostOnly s (reply r status body s) :=
  of_fields (by simp) (by simp)

theorem logEvent (code : Nat) (fault : Bool) (part op step w4 w5 : Nat) (s : State) :
    HostOnly s (logEvent code fault part op step w4 w5 s) := of_fields (by simp) (by simp)

theorem raiseMsix (fn v : Nat) (s : State) : HostOnly s (raiseMsix fn v s) := of_fields (by simp) (by simp)

end HostOnly

theorem slotAt_answerSlot (p status : Nat) (s : State) (i j : Nat) : slotAt (answerSlot p status s i) p j =
    if i = j then { slotAt s p i with evicting := [] } else slotAt s p j := by
  rw [answerSlot, slotAt_congr ((HostOnly.foldl (fun _ _ => HostOnly.reply ..) _ _).slots p), slotAt_modSlot]

theorem x_answerSlot (p status : Nat) (s : State) (i : Nat) : (answerSlot p status s i).x = s.x :=
  (HostOnly.foldl (fun _ _ => HostOnly.reply ..) _ _).x

theorem answerSlot_of_none {p : Nat} {s : State} {i : Nat} (h : (slotAt s p i).evicting = []) (status : Nat) :
    answerSlot p status s i = modSlot p i (fun q => { q with evicting := [] }) s := by rw [answerSlot, h]; rfl

theorem slotAt_foldl_answerSlot (p status : Nat) (is : List Nat) (s : State) (j : Nat) :
    slotAt (is.foldl (answerSlot p status) s) p j = if j ∈ is then { slotAt s p j with evicting := [] } else slotAt s p j := by
  induction is generalizing s with
  | nil => rfl
  | cons i is ih =>
    rw [List.foldl_cons, ih, slotAt_answerSlot]
    by_cases hi : i = j
    · subst hi; simp
    · simp only [if_neg hi, List.mem_cons, Ne.symm hi, false_or]

theorem x_foldl_answerSlot (p status : Nat) (is : List Nat) (s : State) : (is.foldl (answerSlot p status) s).x = s.x := by
  induction is generalizing s with
  | nil => rfl
  | cons i is ih => exact (ih _).trans (x_answerSlot ..)

/-- Where no request waits, nothing is put out. -/
theorem out_foldl_answerSlot {p : Nat} {is : List Nat} {s : State} (h : ∀ i ∈ is, (slotAt s p i).evicting = []) (status : Nat) :
    (is.foldl (answerSlot p status) s).out = s.out := by
  induction is generalizing s with
  | nil => rfl
  | cons i is ih =>
    have hout : (answerSlot p status s i).out = s.out := by rw [answerSlot_of_none (h i List.mem_cons_self)]; rfl
    refine (ih fun j hj => ?_).trans hout
    rw [slotAt_answerSlot]
    split
    · rfl
    · exact h j (List.mem_cons_of_mem i hj)

/-- A slot whose request was just answered is answered again to no effect. -/
theorem answerSlot_again {p : Nat} {s t : State} {i : Nat} (status : Nat)
    (h : t.parts = (modSlot p i (fun q => { q with evicting := [] }) s).parts) : answerSlot p status t i = t := by
  have hslot : slotAt t p i = { slotAt s p i with evicting := [] } := by
    rw [slotAt, partOf, h, ← partOf, ← slotAt, slotAt_modSlot, if_pos rfl]
  rw [answerSlot_of_none (by rw [hslot]), modSlot_eq_putSlot, hslot]
  have hparts : (putSlot p i { slotAt s p i with evicting := [] } t).parts = t.parts := by
    calc (putSlot p i { slotAt s p i with evicting := [] } t).parts
        = (putSlot p i { slotAt s p i with evicting := [] } (modSlot p i (fun q => { q with evicting := [] }) s)).parts := by
          simp only [putSlot, modSlot, modKv, modPart, partOf, h]
      _ = t.parts := by rw [modSlot_eq_putSlot, putSlot_putSlot_same, h]; rfl
  calc putSlot p i { slotAt s p i with evicting := [] } t
      = { t with parts := (putSlot p i { slotAt s p i with evicting := [] } t).parts } := rfl
    _ = t := by rw [hparts]

/-- The one request that waits for the swap of a sequence of one slot is answered. -/
theorem foldl_answerSlot_one {p i : Nat} {is : List Nat} {s : State} {r : Request} (hi : i ∈ is) (his : ∀ j ∈ is, j = i)
    (h : (slotAt s p i).evicting = [r]) (status : Nat) :
    is.foldl (answerSlot p status) s = reply r status [] (modSlot p i (fun q => { q with evicting := [] }) s) := by
  cases is with
  | nil => exact nomatch hi
  | cons j is =>
    obtain rfl := his j List.mem_cons_self
    have hfirst : answerSlot p status s j = reply r status [] (modSlot p j (fun q => { q with evicting := [] }) s) := by
      rw [answerSlot, h]; rfl
    rw [List.foldl_cons, hfirst]
    have hrest := fun k hk => his k (List.mem_cons_of_mem j hk)
    clear his hi
    induction is with
    | nil => rfl
    | cons k is ih =>
      obtain rfl := hrest k List.mem_cons_self
      rw [List.foldl_cons, answerSlot_again status (HostOnly.reply ..).parts]
      exact ih fun l hl => hrest l (List.mem_cons_of_mem k hl)

end Sys2Proof.Machine
end

section
/-! PROOFS. kv.evict (R194, R197, R425). -/

namespace Sys2Proof.Machine

/-- kv.evict runs on a request that calls for its mode. -/
theorem takeEvict_head {s : State} {m : MbxId} {r : Request} {swap : Bool} (h : headReq s m 0x0501 = some r)
    (hmode : bitOf (argOf r 1) 0 = swap) : takeEvict m swap s = takeCmd m 0x0501 (kvEvict swap) s := by
  simp only [takeEvict, h, hmode, if_true]

section Evict
variable {s : State} {r : Request} {slot : Nat} {more : List Nat}
  (hslots : slotsOfSeq (partOf s (partArg r)).kv (argOf r 0).toNat = slot :: more)
include hslots

theorem kvEvict_of_busy (hbusy : seqBusy s (partArg r) (argOf r 0).toNat = true) (swap : Bool) :
    kvEvict swap r s = reply r 0x0604 [] s := by
  simp only [kvEvict, hslots, hbusy, if_true]

variable (hbusy : seqBusy s (partArg r) (argOf r 0).toNat = false)
include hbusy

theorem kvEvict_free : kvEvict false r s = reply r 0 [] ((if flying s (partArg r) = [] then freeEvicted (partArg r) else id)
    ((slot :: more).foldl (fun t i =>
      modSlot (partArg r) i (fun q => { q with freeing := true, swapOut := [], swapIn := [] }) t)
      (answerMates (partArg r) slot 0x0603 s))) := by
  simp only [kvEvict, hslots, hbusy, Bool.false_eq_true, not_false_eq_true, if_true, if_false, ite_fun_apply, id]

theorem kvEvict_latencyCritical (hclass : recClass (bank s (partArg r)) = true) : kvEvict true r s = reply r 0x0607 [] s := by
  simp only [kvEvict, hslots, hbusy, hclass, Bool.false_eq_true, not_true_eq_false, if_true, if_false]

variable (hclass : recClass (bank s (partArg r)) = false)
include hclass

/-- A sequence that is on its way out already has the request wait with it (R197). -/
theorem kvEvict_leaving (hst : (slotAt s (partArg r) slot).st ≠ .lost) (hleaving : seqLeaving s (partArg r) slot = true) :
    kvEvict true r s = modSlot (partArg r) slot (fun q => { q with evicting := q.evicting ++ [r] }) s := by
  simp only [kvEvict, hslots, hbusy, hclass, hst, hleaving, Bool.false_eq_true, not_true_eq_false, if_true, if_false]

/-- A resident sequence that fits starts to leave (R194, R255). -/
theorem kvEvict_swap (hst : (slotAt s (partArg r) slot).st = .resident) (hwindow : (partOf s (partArg r)).cfg.swapMib ≠ 0)
    (hfits : swapFits s (partArg r) slot = true) (hdma : dmaOpen s (partArg r) = true)
    (hstays : seqLeaving s (partArg r) slot = false)
    (hleaves : seqLeaving (startSwap (partArg r) slot (some r) s) (partArg r) slot = true) :
    kvEvict true r s = startSwap (partArg r) slot (some r) s := by
  simp [kvEvict, hslots, hbusy, hclass, hst, hwindow, hfits, hdma, hstays, hleaves]

end Evict

/-! A swap starts (R194). -/

/-- The slot to which a request that waits for its swap has been added. -/
def waited (req : Option Request) (q : SeqSlot) : SeqSlot := { q with evicting := q.evicting ++ req.toList }

theorem startSwap_eq (p slot : Nat) (req : Option Request) (s : State) : startSwap p slot req s =
    (mates s p slot).foldl (fun u i => modSlot p i swapMark u) (modSlot p slot (waited req) s) := rfl

section Swap
variable {s : State} {p slot : Nat} (hmem : slot ∈ mates s p slot) (hnodup : (mates s p slot).Nodup) (req : Option Request)

include hnodup in
/-- Every slot of the sequence is marked, and that of the command takes the request as well. -/
theorem slotAt_startSwap {i : Nat} (hi : i ∈ mates s p slot) : slotAt (startSwap p slot req s) p i =
    swapMark (if slot = i then waited req (slotAt s p slot) else slotAt s p i) := by
  rw [startSwap_eq, foldl_modSlot hnodup, slotAt_foldl_putSlot, if_pos hi, slotAt_modSlot]

include hmem hnodup in
/-- Nothing but the slots of the sequence changes. -/
theorem startSwap_eq_putSlots : startSwap p slot req s =
    (mates s p slot).foldl (fun u i => putSlot p i (slotAt (startSwap p slot req s) p i) u) s := by
  calc startSwap p slot req s
      = (mates s p slot).foldl (fun u i => putSlot p i (swapMark (slotAt (modSlot p slot (waited req) s) p i)) u)
          (modSlot p slot (waited req) s) := foldl_modSlot hnodup ..
    _ = (mates s p slot).foldl (fun u i => putSlot p i (swapMark (slotAt (modSlot p slot (waited req) s) p i)) u) s :=
        foldl_putSlot_absorb hmem ..
    _ = _ := foldl_eq_of_mem (fun u i hi => by rw [slotAt_startSwap hnodup req hi, slotAt_modSlot]) _

/-- Pages of a slot that lie in HBM. -/
theorem swapOut_swapMark (q : SeqSlot) :
    (swapMark q).swapOut = (q.pages.filter fun e => e.2.valid && e.2.loc == 0).map fun e => e.1 := rfl

include hnodup in
theorem swapOut_startSwap {i : Nat} (hi : i ∈ mates s p slot) : (slotAt (startSwap p slot req s) p i).swapOut =
    ((slotAt s p i).pages.filter fun e => e.2.valid && e.2.loc == 0).map fun e => e.1 := by
  rw [slotAt_startSwap hnodup req hi, swapOut_swapMark]
  split
  · next h => subst h; rfl
  · rfl

include hmem hnodup in
/-- A sequence with a page in HBM is on its way out then. -/
theorem seqLeaving_startSwap (hpages : ((slotAt s p slot).pages.any fun q => q.2.valid && q.2.loc == 0) = true)
    (hst : (slotAt s p slot).st ≠ .empty) : seqLeaving (startSwap p slot req s) p slot = true := by
  have hout : (slotAt (startSwap p slot req s) p slot).swapOut ≠ [] := by
    obtain ⟨e, he, hlocal⟩ := List.any_eq_true.mp hpages
    rw [swapOut_startSwap hnodup req hmem]
    exact List.ne_nil_of_mem (List.mem_map_of_mem (List.mem_filter.mpr ⟨he, hlocal⟩))
  have hst' : (slotAt (startSwap p slot req s) p slot).st = (slotAt s p slot).st := by
    rw [slotAt_startSwap hnodup req hmem, if_pos rfl, swapOut_swapMark] at hout
    rw [slotAt_startSwap hnodup req hmem, if_pos rfl]
    exact if_neg hout
  exact seqLeaving_eq_true (mem_mates_self (hst' ▸ hst)) hout

end Swap

end Sys2Proof.Machine

namespace Sys2Proof.Claim

open Sys2Proof.Machine

theorem Heads.headReq {s : State} {m : MbxId} {code : Nat} {r : Request} (h : Heads s m code r) :
    Machine.headReq s m code = some r := by
  obtain ⟨hhead, hmbx, hcode, hgone⟩ := h
  obtain ⟨rest, hjournal⟩ := List.head?_eq_some_iff.mp hhead
  exact headReq_some hjournal hmbx hcode hgone

theorem takeEvict_eq {s : State} {m : MbxId} {r : Request} {swap : Bool} (h : Heads s m 0x0501 r)
    (hmode : bitOf (argOf r 1) 0 = swap) : takeEvict m swap s = kvEvict swap r (taken s) :=
  (takeEvict_head h.headReq hmode).trans (h.takeCmd (kvEvict swap))

theorem exec_kvEvictFree {s : State} {m : MbxId} {r : Request} (h : Heads s m 0x0501 r)
    (hmode : bitOf (argOf r 1) 0 = false) : exec (.kvEvictFree m) s = .next (kvEvict false r (taken s)) :=
  congrArg _ (takeEvict_eq h hmode)

theorem exec_kvEvictSwap {s : State} {m : MbxId} {r : Request} (h : Heads s m 0x0501 r)
    (hmode : bitOf (argOf r 1) 0 = true) : exec (.kvEvictSwap m) s = .next (kvEvict true r (taken s)) :=
  congrArg _ (takeEvict_eq h hmode)

theorem kvEviction : KvEviction := by
  intro s m r slot more hr hslots
  refine ⟨fun hmode hbusy => ?free, fun hmode hbusy hclass hst hwindow hfits hdma hpages hstays hmem hnodup => ?swap,
    fun hmode hbusy hclass hst hleaving => ?leaving, fun hmode hbusy => ?busy, fun hmode hbusy hclass => ?latencyCritical⟩
  case free => exact (exec_kvEvictFree hr hmode).trans (congrArg _ (kvEvict_free (s := taken s) hslots hbusy))
  case swap =>
    have hused : (slotAt s (partArg r) slot).st ≠ .empty := by rw [hst]; decide
    have hleaves := seqLeaving_startSwap (s := taken s) hmem hnodup (some r) hpages hused
    refine ⟨startSwap (partArg r) slot (some r) (taken s), (exec_kvEvictSwap hr hmode).trans (congrArg _
      (kvEvict_swap (s := taken s) hslots hbusy hclass hst hwindow hfits hdma hstays hleaves)), ?_, fun i hi => ?_, ?_⟩
    · rw [slotAt_startSwap (s := taken s) hnodup (some r) hmem, if_pos rfl]; rfl
    · exact swapOut_startSwap (s := taken s) hnodup (some r) hi
    · exact startSwap_eq_putSlots (s := taken s) hmem hnodup (some r)
  case leaving =>
    exact (exec_kvEvictSwap hr hmode).trans (congrArg _ (kvEvict_leaving (s := taken s) hslots hbusy hclass hst hleaving))
  case busy => exact (exec_kvEvictSwap hr hmode).trans (congrArg _ (kvEvict_of_busy (s := taken s) hslots hbusy true))
  case latencyCritical =>
    exact (exec_kvEvictSwap hr hmode).trans (congrArg _ (kvEvict_latencyCritical (s := taken s) hslots hbusy hclass))

end Sys2Proof.Claim
end

section
/-! PROOFS. Pages that leave for the swap window and come back (R187, R194, R195, R197, R430). -/

namespace Sys2Proof.Machine

/-! A page goes out (R194). -/

/-- A slot whose next page, page `i`, has been copied out to frame `f` of the swap window with CRC-32 `crc`. -/
def leftPage (i f crc : Nat) (q : SeqSlot) : SeqSlot := { q with
  pages := tset q.pages i { tgetD q.pages i {} with loc := 1, frame := f, gen := ((tgetD q.pages i {}).gen + 1) % 256 }
  crcs := tset q.crcs i crc
  swapOut := q.swapOut.drop 1
  st := if q.swapOut.length ≤ 1 then .swapped else q.st }

/-- Page `i` of slot `e` has been written to frame `f` of the swap window, and its frame in HBM is free (R194, R430). -/
def pageCopied (p slot i f : Nat) (e : SeqSlot) (s : State) : State :=
  modKv p (fun k => { k with
      swapUsed := insertRun (f, unitsOf s p slot i) k.swapUsed
      used := k.used.filter fun u => u.1 != (tgetD e.pages i {}).frame % 2 ^ 36 })
    (hostWrite p ((partOf s p).cfg.swapAddr + 4096 * f) (pageRead s p slot i 0 (4096 * unitsOf s p slot i))
      (cntAdd p cMemory (64 * unitsOf s p slot i) s))

/-- The slot has been told (R187, R194). -/
def pageOut (p slot i f : Nat) (e : SeqSlot) (s : State) : State :=
  cntAdd p (cAttend + 7) 1 (modSlot p slot (fun q => { q with
      pages := tset q.pages i { tgetD e.pages i {} with loc := 1, frame := f, gen := ((tgetD e.pages i {}).gen + 1) % 256 }
      crcs := tset q.crcs i (crc32 (pageRead s p slot i 0 (4096 * unitsOf s p slot i)))
      swapOut := q.swapOut.drop 1
      st := if e.swapOut.length ≤ 1 then .swapped else q.st }) (pageCopied p slot i f e s))

theorem st_leftPage {i : Nat} {q : SeqSlot} {is : List Nat} (hout : q.swapOut = i :: is) (f crc : Nat) :
    (leftPage i f crc q).st = if is = [] then .swapped else q.st := by
  cases is <;> simp [leftPage, hout]

theorem pageRead_length (s : State) (p slot i off n : Nat) : (pageRead s p slot i off n).length = n := hbmRead_length ..

/-- Bytes written to the host leave as one write, and change a package total besides. -/
theorem hostWrite_eq (fn addr : Nat) {bs : List Byte} (h : bs ≠ []) (s : State) :
    hostWrite fn addr bs s = emit (.hostWrite fn addr bs) (countWrite bs.length s) := if_neg h

theorem hostOnly_hostWrite (fn addr : Nat) (bs : List Byte) (s : State) : HostOnly s (hostWrite fn addr bs s) :=
  .of_fields (by simp) (by simp)

/-- Counters and other fields of the key-value cache are apart from the slots. -/
theorem slots_cntAdd (p k n : Nat) (s : State) : (partOf (cntAdd p k n s) p).kv.slots = (partOf s p).kv.slots := by
  rw [cntAdd, partOf_modStat]

theorem slots_modKv {g : Kv → Kv} (hg : ∀ k, (g k).slots = k.slots) (p : Nat) (s : State) :
    (partOf (modKv p g s) p).kv.slots = (partOf s p).kv.slots := by rw [partOf_modKv, hg]

theorem slotAt_modKv {g : Kv → Kv} (hg : ∀ k, (g k).slots = k.slots) (p : Nat) (s : State) (j : Nat) :
    slotAt (modKv p g s) p j = slotAt s p j := slotAt_congr (slots_modKv hg p s) j

section PageOut
variable (p slot i f : Nat) (e : SeqSlot) (s : State)

theorem slots_pageCopied : (partOf (pageCopied p slot i f e s) p).kv.slots = (partOf s p).kv.slots := by
  rw [pageCopied, slots_modKv, (hostOnly_hostWrite ..).slots, slots_cntAdd]
  exact fun _ => rfl

theorem x_pageOut : (pageOut p slot i f e s).x = s.x := (hostOnly_hostWrite ..).x

/-- The page lies in the swap window at SWAP_ADDR + 4,096 x FRAME (R430). -/
theorem out_pageOut (hunits : unitsOf s p slot i ≠ 0) : (pageOut p slot i f e s).out = s.out ++
    [.hostWrite p ((partOf s p).cfg.swapAddr + 4096 * f) (pageRead s p slot i 0 (4096 * unitsOf s p slot i))] := by
  have hdata : pageRead s p slot i 0 (4096 * unitsOf s p slot i) ≠ [] :=
    List.ne_nil_of_length_pos (by rw [pageRead_length]; omega)
  simp only [pageOut, pageCopied, hostWrite_eq _ _ hdata]
  rfl

variable {p slot e s} (hslot : slotAt s p slot = e)
include hslot

theorem slots_pageOut : (partOf (pageOut p slot i f e s) p).kv.slots = tset (partOf s p).kv.slots slot
    (leftPage i f (crc32 (pageRead s p slot i 0 (4096 * unitsOf s p slot i))) e) := by
  rw [pageOut, slots_cntAdd, slots_modSlot, slotAt_congr (slots_pageCopied ..), slots_pageCopied, hslot]
  rfl

theorem slotAt_pageOut : slotAt (pageOut p slot i f e s) p slot =
    leftPage i f (crc32 (pageRead s p slot i 0 (4096 * unitsOf s p slot i))) e := by
  rw [slotAt, slots_pageOut i f hslot, tgetD_tset_same]

theorem slotAt_pageOut_ne {j : Nat} (hj : slot ≠ j) : slotAt (pageOut p slot i f e s) p j = slotAt s p j := by
  rw [slotAt, slots_pageOut i f hslot, tgetD_tset_ne _ _ _ hj, ← slotAt]

/-- The other slots of the sequence are as they were. -/
theorem mates_pageOut {j : Nat} (hj : j ∈ mates (pageOut p slot i f e s) p slot) : j = slot ∨ j ∈ mates s p slot :=
  mates_of_slots (slots_pageOut i f hslot) (congrArg SeqSlot.seqId hslot).symm (congrArg SeqSlot.freeing hslot).symm hj

/-- The slot is one of its sequence's still. -/
theorem mem_mates_pageOut (hst : e.st ≠ .empty) : slot ∈ mates (pageOut p slot i f e s) p slot := by
  refine mem_mates_self ?_
  rw [slotAt_pageOut i f hslot, leftPage]
  dsimp only
  split
  · decide
  · exact hst

end PageOut

section SwapOut
variable {s : State} {p slot i units : Nat} {e : SeqSlot} {is : List Nat} (hunits : unitsOf s p slot i = units)
  (hfind : (partOf s p).kv.slots.find? (fun q => q.2.swapOut != []) = some (slot, e)) (hout : e.swapOut = i :: is)
  (hdma : dmaOpen s p = true) (hfetch : pageFetching s p slot i = false)
  (hroom : gapFrom units 0 (partOf s p).kv.swapUsed + units ≤ 256 * (partOf s p).cfg.swapMib)
include hunits hfind hout hdma hfetch hroom

theorem swapOutPage_eq : swapOutPage p s =
    if seqLeaving (pageOut p slot i (gapFrom units 0 (partOf s p).kv.swapUsed) e s) p slot then
      pageOut p slot i (gapFrom units 0 (partOf s p).kv.swapUsed) e s
    else answerMates p slot 0 (pageOut p slot i (gapFrom units 0 (partOf s p).kv.swapUsed) e s) := by
  subst hunits
  have hgo : ¬ (¬ dmaOpen s p = true ∨ 256 * (partOf s p).cfg.swapMib <
      gapFrom (unitsOf s p slot i) 0 (partOf s p).kv.swapUsed + unitsOf s p slot i ∨ pageFetching s p slot i = true) := by
    simpa [hdma, hfetch] using hroom
  simp only [swapOutPage, hfind, hout, List.headD_cons, if_neg hgo, pageOut, pageCopied]

variable (hslot : slotAt s p slot = e) (hst : e.st ≠ .empty)
include hslot hst

/-- The slot has been told, and no request waits for it longer than for its sequence. -/
theorem slotAt_swapOutPage : ∃ rs, slotAt (swapOutPage p s) p slot =
    { leftPage i (gapFrom units 0 (partOf s p).kv.swapUsed) (crc32 (pageRead s p slot i 0 (4096 * units))) e with evicting := rs } := by
  rw [swapOutPage_eq hunits hfind hout hdma hfetch hroom, ← hunits]
  split
  · exact ⟨_, slotAt_pageOut i _ hslot⟩
  · rw [answerMates_eq, slotAt_foldl_answerSlot, if_pos (mem_mates_pageOut i _ hslot hst), slotAt_pageOut i _ hslot]
    exact ⟨[], rfl⟩

omit hslot hst in
theorem x_swapOutPage : (swapOutPage p s).x = s.x := by
  rw [swapOutPage_eq hunits hfind hout hdma hfetch hroom]
  split
  · exact x_pageOut ..
  · exact (x_foldl_answerSlot ..).trans (x_pageOut ..)

/-- Where no request waits for the sequence, the page alone is put out. -/
theorem out_swapOutPage (hnone : ∀ k ∈ mates s p slot, (slotAt s p k).evicting = []) (hpos : units ≠ 0) :
    (swapOutPage p s).out = s.out ++ [.hostWrite p
      ((partOf s p).cfg.swapAddr + 4096 * gapFrom units 0 (partOf s p).kv.swapUsed) (pageRead s p slot i 0 (4096 * units))] := by
  have hself : e.evicting = [] := hslot ▸ hnone slot (mem_mates_self (hslot ▸ hst))
  rw [swapOutPage_eq hunits hfind hout hdma hfetch hroom, ← hunits]
  have hpage := out_pageOut p slot i (gapFrom (unitsOf s p slot i) 0 (partOf s p).kv.swapUsed) e s (hunits ▸ hpos)
  split
  · exact hpage
  · refine (out_foldl_answerSlot (fun j hj => ?_) 0).trans hpage
    by_cases hjs : slot = j
    · rw [← hjs, slotAt_pageOut i _ hslot]; exact hself
    · rw [slotAt_pageOut_ne i _ hslot hjs]
      exact hnone j ((mates_pageOut i _ hslot hj).resolve_left (Ne.symm hjs))

/-- The last page of a sequence of one slot answers the request that waits for it. -/
theorem swapOutPage_last (hlast : is = []) (halone : mates s p slot = [slot]) {r : Request} (hwaits : e.evicting = [r]) :
    ∃ u, swapOutPage p s = reply r 0 [] u ∧ slotAt u p slot =
      { leftPage i (gapFrom units 0 (partOf s p).kv.swapUsed) (crc32 (pageRead s p slot i 0 (4096 * units))) e with evicting := [] } := by
  have honly (j : Nat) (hj : j ∈ mates (pageOut p slot i (gapFrom units 0 (partOf s p).kv.swapUsed) e s) p slot) : j = slot :=
    (mates_pageOut i _ hslot hj).elim id fun h => List.mem_singleton.mp (halone ▸ h)
  have hself := slotAt_pageOut i (gapFrom units 0 (partOf s p).kv.swapUsed) hslot
  have hgone : seqLeaving (pageOut p slot i (gapFrom units 0 (partOf s p).kv.swapUsed) e s) p slot = false := by
    refine List.any_eq_false.mpr fun j hj => ?_
    rw [honly j hj, hself]
    simp [leftPage, hout, hlast]
  refine ⟨_, (swapOutPage_eq hunits hfind hout hdma hfetch hroom).trans ((if_neg (Bool.eq_false_iff.mp hgone)).trans
    (foldl_answerSlot_one (mem_mates_pageOut i _ hslot hst) honly (r := r) (by rw [hself]; exact hwaits) 0)), ?_⟩
  rw [slotAt_modSlot, if_pos rfl, hself, hunits]

end SwapOut

/-! A page comes back (R187, R192, R195). -/

/-- Neither the reservation of a slot's sequence nor the quota holds so many units. -/
def kvShort (s : State) (p slot units : Nat) : Bool :=
  (recClass (bank s p) && decide (reservedOf s p slot < units)) || (!recClass (bank s p) && decide (kvFree s p < units))

/-- Page `i` of a slot has been given the lowest run of frames that holds it. -/
def allocated (p slot i units : Nat) (s : State) : State :=
  let lc := recClass (bank s p)
  let a := gapFrom units 0 (partOf s p).kv.used
  modKv p (fun k => { k with used := insertRun (a, units) k.used })
    (mapFrames p 0 2 ((List.range ((a + units - 1) / 512 + 1 - a / 512)).map (· + a / 512)) (modSlot p slot (fun q => { q with
      pages := tset q.pages i { valid := true, loc := 0, resv := lc, gen := (tgetD (slotAt s p slot).pages i {}).gen
                                frame := 2 * 2 ^ 36 + a } })
      (if lc then takeReserved p slot units s else s)))

theorem allocPage_eq (p slot i units : Nat) (s : State) :
    allocPage p slot i units s = if kvShort s p slot units then none else some (allocated p slot i units s) := rfl

/-- An update of the state that leaves what executes, and of the slots all but their reservations. -/
structure ReservedOnly (p : Nat) (s t : State) : Prop where
  x : t.x = s.x
  slot : ∀ j, ∃ n, slotAt t p j = { slotAt s p j with reserved := n }

theorem ReservedOnly.refl (p : Nat) (s : State) : ReservedOnly p s s := ⟨rfl, fun j => ⟨(slotAt s p j).reserved, rfl⟩⟩

theorem ReservedOnly.trans {p : Nat} {s t u : State} (h : ReservedOnly p s t) (k : ReservedOnly p t u) : ReservedOnly p s u :=
  ⟨k.x.trans h.x, fun j => by
    obtain ⟨n, hn⟩ := h.slot j
    obtain ⟨m, hm⟩ := k.slot j
    exact ⟨m, by rw [hm, hn]⟩⟩

theorem reservedOnly_modSlot (p i : Nat) (n : SeqSlot → Nat) (s : State) :
    ReservedOnly p s (modSlot p i (fun q => { q with reserved := n q }) s) := by
  refine ⟨rfl, fun j => ?_⟩
  rw [slotAt_modSlot]
  split
  · next h => subst h; exact ⟨_, rfl⟩
  · exact ⟨_, rfl⟩

theorem reservedOnly_takeReserved (p slot units : Nat) (s : State) : ReservedOnly p s (takeReserved p slot units s) := by
  rw [takeReserved]
  generalize mates s p slot = is
  generalize hacc : (units, s) = acc
  have hs : s = acc.2 := hacc ▸ rfl
  rw [hs]
  clear hacc hs
  induction is generalizing acc with
  | nil => exact .refl ..
  | cons i is ih =>
    refine ReservedOnly.trans ?_ (ih _)
    exact reservedOnly_modSlot p i (fun q => q.reserved - min acc.1 (slotAt acc.2 p i).reserved) acc.2

theorem hostOnly_mapFrames (space journal region : Nat) (ns : List Nat) (s : State) :
    HostOnly s (mapFrames space journal region ns s) := by
  refine .foldl (fun t n => ?_) _ _
  rw [mapFrame]
  split
  · exact ⟨rfl, rfl⟩
  · dsimp only
    split <;> exact ⟨rfl, rfl⟩

section Allocated
variable (p slot i units : Nat) (s : State)

theorem x_allocated : (allocated p slot i units s).x = s.x := by
  rw [allocated]
  refine (hostOnly_mapFrames ..).x.trans ?_
  rw [x_modSlot]
  split
  · exact (reservedOnly_takeReserved ..).x
  · rfl

theorem slotAt_allocated : ∃ n, slotAt (allocated p slot i units s) p slot = { slotAt s p slot with
    reserved := n
    pages := tset (slotAt s p slot).pages i { valid := true, loc := 0, resv := recClass (bank s p)
                                              gen := (tgetD (slotAt s p slot).pages i {}).gen
                                              frame := 2 * 2 ^ 36 + gapFrom units 0 (partOf s p).kv.used } } := by
  have hres : ReservedOnly p s (if recClass (bank s p) then takeReserved p slot units s else s) := by
    split
    · exact reservedOnly_takeReserved ..
    · exact .refl ..
  obtain ⟨n, hn⟩ := hres.slot slot
  refine ⟨n, ?_⟩
  rw [allocated, slotAt_modKv, slotAt_congr ((hostOnly_mapFrames ..).slots p), slotAt_modSlot, if_pos rfl, hn]
  exact fun _ => rfl

end Allocated

/-- The read of page `i` of slot `e` brought its bytes, which go to the frame that `s` has given it (R187, R195). -/
def pageIn (p slot i units : Nat) (data : List Byte) (e : SeqSlot) (s : State) : State :=
  cntAdd p (cAttend + 8) 1 (cntAdd p (cMemory + 1) (64 * units)
    (hbmWrite p (4096 * (tgetD (slotAt s p slot).pages i {}).frame) data
      (modKv p (fun k => { k with swapUsed := k.swapUsed.filter fun u => u.1 != (tgetD e.pages i {}).frame })
        (modSlot p slot (fun q => { q with
          pages := tset q.pages i { tgetD q.pages i {} with gen := ((tgetD e.pages i {}).gen + 1) % 256 }
          crcs := terase q.crcs i
          swapIn := q.swapIn.drop 1, retry := false
          st := if e.swapIn.length ≤ 1 then .resident else q.st }) s))))

theorem slotAt_hbmWrite (k off : Nat) (bs : List Byte) (s : State) (p j : Nat) :
    slotAt (hbmWrite k off bs s) p j = slotAt s p j := rfl

theorem slotAt_pageIn (p slot i units : Nat) (data : List Byte) (e : SeqSlot) (s : State) :
    slotAt (pageIn p slot i units data e s) p slot = { slotAt s p slot with
      pages := tset (slotAt s p slot).pages i
        { tgetD (slotAt s p slot).pages i {} with gen := ((tgetD e.pages i {}).gen + 1) % 256 }
      crcs := terase (slotAt s p slot).crcs i
      swapIn := (slotAt s p slot).swapIn.drop 1, retry := false
      st := if e.swapIn.length ≤ 1 then .resident else (slotAt s p slot).st } := by
  rw [pageIn, slotAt_congr (slots_cntAdd ..), slotAt_congr (slots_cntAdd ..)]
  rw [slotAt_hbmWrite, slotAt_modKv, slotAt_modSlot, if_pos rfl]
  exact fun _ => rfl

/-- Frames of the KV-page region lie there whatever the stage (R238). -/
theorem hbm_pageIn {p slot i f : Nat} {s : State} (hframe : (tgetD (slotAt s p slot).pages i {}).frame = 2 * 2 ^ 36 + f)
    (units : Nat) (data : List Byte) (e : SeqSlot) (t : State) : (pageIn p slot i units data e s).x.hbm =
      memWrite s.x.hbm (hbmFlat t p (4096 * (2 * 2 ^ 36 + f))) data := by
  have hregion : hbmRegion (4096 * (2 * 2 ^ 36 + f)) ≠ 0 := by unfold hbmRegion; omega
  have hwrite (off : Nat) (v : State) : (hbmWrite p off data v).x.hbm = memWrite v.x.hbm (hbmFlat v p off) data := rfl
  simp only [pageIn, hframe, cntAdd_frame, hwrite, hbmFlat_region hregion]
  rfl

section SwapIn
variable {s : State} {p slot i units : Nat} {e : SeqSlot} {is : List Nat} {data : List Byte} (hunits : unitsOf s p slot i = units)
  (hfind : (partOf s p).kv.slots.find? (fun q => q.2.swapIn != []) = some (slot, e)) (hin : e.swapIn = i :: is)
  (hdma : dmaOpen s p = true) (hroom : (allocPage p slot i units s).isSome = true) (hlen : data.length = 4096 * units)
include hunits hfind hin hdma hroom hlen

omit hfind hin hdma hlen hunits in
theorem allocPage_countRead (n : Nat) :
    allocPage p slot i units (countRead n s) = some (allocated p slot i units (countRead n s)) := by
  have hshort : kvShort (countRead n s) p slot units = kvShort s p slot units := rfl
  rw [allocPage_eq] at hroom ⊢
  rw [hshort]
  split at hroom
  · exact nomatch hroom
  · next h => exact if_neg h

theorem swapInPage_good (hcrc : some (crc32 data) = tget e.crcs i) : swapInPage p (some data) s =
    pageIn p slot i units data e (allocated p slot i units (countRead (4096 * units) s)) := by
  have hnone : (allocPage p slot i units s).isNone = false := Option.isNone_eq_false_iff.mpr hroom
  have halloc := allocPage_countRead hroom (4096 * units)
  subst hunits
  simp only [swapInPage, hfind, hin, List.headD_cons, hdma, hnone, hlen, hcrc, beq_self_eq_true, Bool.and_self, not_true_eq_false,
    Bool.false_eq_true, if_false, halloc, pageIn, Option.getD_some]

/-- The step that a page that fails its check is reported for (R195). -/
def waitingStep (s : State) (p : Nat) : Nat := ((accepted s p).head?.map fun r => r.id).getD noStep

theorem swapInPage_bad (hcrc : some (crc32 data) ≠ tget e.crcs i) : swapInPage p (some data) s =
    if e.retry then loseSeq p (waitingStep s p) slot (cntAdd p (cAttend + 9) 1 (countRead (4096 * units) s))
    else modSlot p slot (fun q => { q with retry := true }) (logEvent 0x0603 false p noOp (waitingStep s p) slot i
      (cntAdd p (cAttend + 9) 1 (countRead (4096 * units) s))) := by
  have hnone : (allocPage p slot i units s).isNone = false := Option.isNone_eq_false_iff.mpr hroom
  have hbad : (some (crc32 data) == tget e.crcs i) = false := beq_eq_false_iff_ne.mpr hcrc
  subst hunits
  simp only [swapInPage, hfind, hin, List.headD_cons, hdma, hnone, hlen, hbad, beq_self_eq_true, Bool.and_false, not_true_eq_false,
    Bool.false_eq_true, not_false_eq_true, if_true, if_false, waitingStep]

end SwapIn

/-! A sequence is lost (R195, R264). -/

theorem st_foldl_lost {p j : Nat} {is : List Nat} {s : State} (h : j ∈ is ∨ (slotAt s p j).st = .lost) :
    (slotAt (is.foldl (fun t i => modSlot p i (fun q => { q with st := .lost, swapOut := [], swapIn := [] }) t) s) p j).st = .lost := by
  induction is generalizing s with
  | nil => exact h.resolve_left List.not_mem_nil
  | cons i is ih =>
    refine ih ?_
    rw [slotAt_modSlot]
    split
    · exact .inr rfl
    · next hne => exact h.imp_left fun hj => (List.mem_cons.mp hj).resolve_left (Ne.symm hne)

theorem x_foldl_modSlot (p : Nat) (f : SeqSlot → SeqSlot) (is : List Nat) (s : State) :
    (is.foldl (fun t i => modSlot p i f t) s).x = s.x := by
  induction is generalizing s with
  | nil => rfl
  | cons i is ih => exact ih _

theorem x_markLost (p slot : Nat) (s : State) : (markLost p slot s).x = s.x :=
  (x_foldl_modSlot ..).trans (x_foldl_answerSlot ..)

/-- An event of a partition is apart from its slots and from what executes. -/
theorem setVfEvent_slots_x (p bit : Nat) (s : State) :
    (partOf (setVfEvent p bit s) p).kv.slots = (partOf s p).kv.slots ∧ (setVfEvent p bit s).x = s.x := by
  have hset (t : State) (ht : t = modPart p (fun q => { q with vfEvent := q.vfEvent ||| (1#4 <<< bit) }) s) :
      (partOf t p).kv.slots = (partOf s p).kv.slots ∧ t.x = s.x := by
    subst ht
    exact ⟨by rw [partOf_modPart], rfl⟩
  unfold setVfEvent
  dsimp only
  split
  · obtain ⟨hslots, hx⟩ := hset _ rfl
    exact ⟨((HostOnly.raiseMsix ..).slots p).trans hslots, (HostOnly.raiseMsix ..).x.trans hx⟩
  · exact hset _ rfl

theorem st_loseSeq {p slot : Nat} {s : State} (hmem : slot ∈ mates s p slot) (step : Nat) :
    (slotAt (loseSeq p step slot s) p slot).st = .lost := by
  rw [loseSeq, slotAt_congr (setVfEvent_slots_x ..).1, slotAt_congr ((HostOnly.logEvent ..).slots p)]
  exact st_foldl_lost (.inl hmem)

theorem x_loseSeq (p step slot : Nat) (s : State) : (loseSeq p step slot s).x = s.x :=
  (setVfEvent_slots_x ..).2.trans ((HostOnly.logEvent ..).x.trans (x_markLost ..))

end Sys2Proof.Machine

namespace Sys2Proof.Claim

open Sys2Proof.Machine

theorem exec_swapOutPageDone (part : Fin 32) (s : State) :
    exec (.swapOutPageDone part) s = .next (swapOutPage part.val s) := rfl

theorem exec_swapInPageDone (part : Fin 32) (data : Option (List Byte)) (s : State) :
    exec (.swapInPageDone part data) s = .next (swapInPage part.val data s) := rfl

theorem pagesMoveWhole : PagesMoveWhole := by
  intro s part slot i units e is hslot hunits hpos hdma hst
  refine ⟨fun hfind hout hnone hfetch hroom => ?out, fun q hfind hout halone hwaits hfetch hroom => ?last,
    fun data hfind hin hroom hlen => ⟨fun hcrc => ?good, fun hcrc hretry => ?again, fun hcrc hretry => ?lost⟩⟩
  case out =>
    obtain ⟨rs, hself⟩ := slotAt_swapOutPage hunits.symm hfind hout hdma hfetch hroom hslot hst
    refine ⟨_, exec_swapOutPageDone .., out_swapOutPage hunits.symm hfind hout hdma hfetch hroom hslot hst hnone hpos, ?_, ?_, ?_, ?_,
      x_swapOutPage hunits.symm hfind hout hdma hfetch hroom⟩ <;> rw [hself]
    · simp only [leftPage, hout, List.drop_one, List.tail_cons]
    · exact (tget_tset ..).trans (if_pos rfl)
    · exact (tget_tset ..).trans (if_pos rfl)
    · dsimp only; exact st_leftPage hout _ _
  case last =>
    obtain ⟨u, hreply, hself⟩ := swapOutPage_last hunits.symm hfind hout hdma hfetch hroom hslot hst rfl halone hwaits
    refine ⟨u, (exec_swapOutPageDone ..).trans (congrArg _ hreply), ?_, ?_, ?_⟩ <;> rw [hself]
    · dsimp only; exact st_leftPage hout _ _
    · simp only [leftPage, hout, List.drop_one, List.tail_cons]
  case good =>
    have hpage := swapInPage_good hunits.symm hfind hin hdma hroom hlen hcrc
    obtain ⟨n, hself⟩ := slotAt_allocated part.val slot i units (countRead (4096 * units) s)
    have hbase : slotAt (countRead (4096 * units) s) part.val slot = e := hslot
    rw [hbase] at hself
    refine ⟨_, (exec_swapInPageDone ..).trans (congrArg _ hpage), ?_, ?_, ?_, ?_, ?_⟩
    · rw [slotAt_pageIn, hself, hin]; rfl
    · rw [slotAt_pageIn]; exact tget_terase ..
    · rw [slotAt_pageIn]
    · rw [slotAt_pageIn, hself, tget_tset, if_pos rfl]
      simp only [tgetD_tset_same]
      rfl
    · have hframe : (tgetD (slotAt (allocated part.val slot i units (countRead (4096 * units) s)) part.val slot).pages i {}).frame =
          2 * 2 ^ 36 + gapFrom units 0 (partOf s part.val).kv.used := by
        rw [hself]
        exact congrArg Pte.frame (tgetD_tset_same ..)
      rw [hbm_pageIn hframe units data e s, x_allocated]
      rfl
  case again =>
    have hpage := swapInPage_bad hunits.symm hfind hin hdma hroom hlen hcrc
    rw [if_neg (Bool.eq_false_iff.mp hretry)] at hpage
    have hself : slotAt (Machine.logEvent 0x0603 false part.val noOp (waitingStep s part.val) slot i
        (cntAdd part.val (cAttend + 9) 1 (countRead (4096 * units) s))) part.val slot = e := by
      rw [slotAt_congr ((HostOnly.logEvent ..).slots part.val), slotAt_congr (slots_cntAdd ..)]
      exact hslot
    refine ⟨_, (exec_swapInPageDone ..).trans (congrArg _ hpage), ?_, ?_, (HostOnly.logEvent ..).x⟩
    · rw [slotAt_modSlot, if_pos rfl]
    · rw [slotAt_modSlot, if_pos rfl, hself]; exact hin
  case lost =>
    have hpage := swapInPage_bad hunits.symm hfind hin hdma hroom hlen hcrc
    rw [if_pos hretry] at hpage
    have hself : slotAt (cntAdd part.val (cAttend + 9) 1 (countRead (4096 * units) s)) part.val slot = e := by
      rw [slotAt_congr (slots_cntAdd ..)]
      exact hslot
    exact ⟨_, (exec_swapInPageDone ..).trans (congrArg _ hpage), st_loseSeq (mem_mates_self (hself ▸ hst)) _, x_loseSeq ..⟩

/-- Settles O22: eviction acts on every slot of the sequence, and a page that moves takes its check and its generation with it. -/
theorem kvPaging : Obligations.KvPaging := ⟨kvEviction, pagesMoveWhole⟩

end Sys2Proof.Claim
end

section
/-! PROOFS. Queue pushes in their turn (R217, R220, R221, R229, R317). -/

namespace Sys2Proof.Machine

/-! A whole entry (R217, R220, R229). -/

section Entry
variable {h : List Word} {m : EMap} {bs : List Byte} {s : State} {step : Nat} (hstep : step = dwordAt (wordsOfBytes (bs.take 64)) 0)
include hstep

/-- An entry of a step that has committed is passed over. -/
theorem applyEntry_past (hpast : step ≤ (partOf s (hDstPart h)).run.committed) : applyEntry h m bs s = some s := by
  subst hstep
  exact if_pos (decide_eq_true hpast)

variable (hopen : (partOf s (hDstPart h)).run.committed < step)
include hopen

theorem applyEntry_ready (hready : entryReady s (hDstPart h) step (hOff h / 4096 % 64) = true) : applyEntry h m bs s =
    some (placeEntry (hDstPart h) m step (hOff h / 4096 % 64) (hOff h / 2 ^ 18 % 16) bs (entryArrives (hDstPart h) m bs s)) := by
  subst hstep
  exact (if_neg (by simpa [stepPast] using hopen)).trans (if_pos hready)

/-- An entry waits while its receiver's step slot serves another step. -/
theorem applyEntry_busy (hbusy : entryReady s (hDstPart h) step (hOff h / 4096 % 64) = false) : applyEntry h m bs s = none := by
  subst hstep
  exact (if_neg (by simpa [stepPast] using hopen)).trans (if_neg (Bool.eq_false_iff.mp hbusy))

end Entry

/-! An entry and its fragments (R317). -/

section Push
variable {plane : Nat} {h h0 : List Word} {m : EMap} {data got : List Byte} {s : State}

section First
variable (hmap : mapOfOp (imgOf s (hDstPart h)) (wordAt (wordsOfBytes (data.take 64)) 7).toNat = some m)
include hmap

theorem applyFirst_whole (hlen : data.length = emEntry m) (hone : emEntry m ≤ 4096) :
    applyFirst plane h data s = applyEntry h m data s := by
  have hform : data.length = min (emEntry m) 4096 := by omega
  simp only [applyFirst, hmap, hform, ne_eq, not_true_eq_false, if_false, if_pos hone]

/-- The first 4,096 bytes of a longer entry are kept until the rest arrives. -/
theorem applyFirst_part (hlen : data.length = 4096) (hmore : 4096 < emEntry m) :
    applyFirst plane h data s = some (setFrag plane h (some (h, data)) s) := by
  have hform : data.length = min (emEntry m) 4096 := by omega
  simp only [applyFirst, hmap, hform, ne_eq, not_true_eq_false, if_false, if_neg (Nat.not_le_of_lt hmore)]

end First

/-- The fragment that completes an entry has the effect of the whole entry. -/
theorem applyFurther_last (hmap : mapOfOp (imgOf s (hDstPart h)) (wordAt (wordsOfBytes (got.take 64)) 7).toNat = some m)
    (haddr : hAddr h0 = hAddr h) (hlen : data.length = min (emEntry m - got.length) 4096)
    (hlast : emEntry m ≤ got.length + data.length) :
    applyFurther plane h data (some (h0, got)) s = applyEntry h m (got ++ data) s := by
  have hform : ¬ (hAddr h0 ≠ hAddr h ∨ data.length ≠ min (emEntry m - got.length) 4096) := by
    rintro (hbad | hbad)
    · exact hbad haddr
    · exact hbad hlen
  simp only [applyFurther, hmap, if_neg hform, if_pos hlast]

/-! A close (R217, R221). -/

section Close
variable {step : Nat} (hstep : step = dwordAt (wordsOfBytes data) 0) (hopen : (partOf s (hDstPart h)).run.committed < step)
include hstep hopen

theorem applyClose_ready (hready : entryReady s (hDstPart h) step (hOff h / 4096 % 64) = true) :
    applyClose h data s = some (recordClose (hDstPart h) (hOff h / 4096 % 64) (wordsOfBytes data) s) := by
  subst hstep
  exact (if_neg (by simpa [stepPast] using hopen)).trans (if_pos hready)

theorem applyClose_busy (hbusy : entryReady s (hDstPart h) step (hOff h / 4096 % 64) = false) : applyClose h data s = none := by
  subst hstep
  exact (if_neg (by simpa [stepPast] using hopen)).trans (if_neg (Bool.eq_false_iff.mp hbusy))

end Close

/-! What a push that waits leaves (R229). -/

theorem noteArrival_entry (hop : hOp h = 4) (hsub : hSub h = 0)
    (hmap : mapOfOp (imgOf s (hDstPart h)) (wordAt (wordsOfBytes (data.take 64)) 7).toNat = some m) :
    noteArrival plane h data s = entryArrives (hDstPart h) m data s := by
  simp [noteArrival, hop, hsub, hmap]

theorem noteArrival_close (hsub : hSub h = 1) : noteArrival plane h data s = s := if_pos (.inr hsub)

end Push

end Sys2Proof.Machine

namespace Sys2Proof.Claim

open Sys2Proof.Machine

/-! The turn of a push (R313, R317, R321, R446). -/

/-- The state to which a request is applied in its turn: a partial entry of its stream has ended, and the package wakes. -/
def atTurn (p : Packet) (s : State) : State :=
  wakeQuay (if (inStream s p).frag.isSome then setFrag p.plane.val p.hdr none (entered p s) else entered p s)

theorem atTurn_of_noFrag {s : State} {p : Packet} (hfrag : (inStream s p).frag = none) : atTurn p s = wakeQuay (entered p s) := by
  simp only [atTurn, hfrag, Option.isSome_none, Bool.false_eq_true, if_false]

theorem atTurn_of_frag {s : State} {p : Packet} {f : List Word × List Byte} (hfrag : (inStream s p).frag = some f) :
    atTurn p s = wakeQuay (setFrag p.plane.val p.hdr none (entered p s)) := by
  simp only [atTurn, hfrag, Option.isSome_some, if_true]

/-- What does not look at the fabric or at the power state finds that state as the one before the request. -/
theorem atTurn_reads {α : Type} (s : State) (p : Packet) (f : State → α)
    (hf : ∀ F P, f { s with fab := F, pw := P } = f s) : f (atTurn p s) = f s := by
  unfold atTurn wakeQuay
  split
  · split
    · exact hf _ _
    · exact hf _ _
  · split
    · exact hf _ _
    · exact hf _ _

theorem imgOf_atTurn (s : State) (p : Packet) (k : Nat) : imgOf (atTurn p s) k = imgOf s k :=
  atTurn_reads s p (imgOf · k) fun _ _ => rfl

theorem run_atTurn (s : State) (p : Packet) (k : Nat) : (partOf (atTurn p s) k).run = (partOf s k).run :=
  atTurn_reads s p (fun v => (partOf v k).run) fun _ _ => rfl

theorem entryReady_atTurn (s : State) (p : Packet) (k step c : Nat) : entryReady (atTurn p s) k step c = entryReady s k step c :=
  atTurn_reads s p (entryReady · k step c) fun _ _ => rfl

theorem Due.isForMe {s : State} {p : Packet} (hdue : Due s p) : forMe s p = true := hdue.1

/-- A request that must wait stays in its stream, and what its arrival starts has started (R229). -/
theorem Due.arriveReq_notes {s : State} {p : Packet} (hdue : Due s p)
    (happly : applyReq p.plane.val p.hdr p.data (entered p s) = none) :
    arriveReq p s = noteArrival p.plane.val p.hdr p.data (entered p s) := by
  rw [hdue.arriveReq_eq]
  simp only [advance, hdue.dstOf_entered, List.find?_cons, decide_true, happly]

section Turn
variable {s : State} {p : Packet} (hright : Right s p) (hop : hOp p.hdr = 4)
include hright hop

/-- A push goes by its SUBOP (R317). -/
theorem applyReq_push : applyReq p.plane.val p.hdr p.data (entered p s) =
    if hSub p.hdr = 0 then applyFirst p.plane.val p.hdr p.data (atTurn p s)
    else if hSub p.hdr = 1 then applyClose p.hdr p.data (atTurn p s)
    else applyFurther p.plane.val p.hdr p.data (inStream s p).frag (atTurn p s) := by
  obtain ⟨hack, hstatus, hpower⟩ := hright
  have hfrag : (dstOf (entered p s) p.plane.val (hSrc p.hdr) (hJob p.hdr)).frag = (inStream s p).frag := by
    rw [← inStream, inStream_entered]
  have hstatus' : reqStatus (entered p s) p.hdr p.data = 0 := hstatus
  have hpower' : ¬ ((entered p s).pw.st ≠ .run ∧ (entered p s).pw.st ≠ .quayside) := fun ⟨hrun, hquay⟩ => hpower.elim hrun hquay
  simp only [applyReq, hfrag, hack, hstatus', if_neg hpower', hop, Bool.false_eq_true, ne_eq, not_true_eq_false, if_false]
  rw [← atTurn]
  split
  · next hentry => rw [if_pos hentry]
  · next hclose => rw [if_neg (by omega), if_pos hclose]
  · next hentry hclose => rw [if_neg hentry, if_neg hclose]

theorem applyReq_entry (hsub : hSub p.hdr = 0) : applyReq p.plane.val p.hdr p.data (entered p s) =
    applyFirst p.plane.val p.hdr p.data (atTurn p s) := by
  rw [applyReq_push hright hop, if_pos hsub]

theorem applyReq_fragment (hsub : hSub p.hdr = 2) : applyReq p.plane.val p.hdr p.data (entered p s) =
    applyFurther p.plane.val p.hdr p.data (inStream s p).frag (atTurn p s) := by
  rw [applyReq_push hright hop, if_neg (by omega), if_neg (by omega)]

theorem applyReq_close (hsub : hSub p.hdr = 1) : applyReq p.plane.val p.hdr p.data (entered p s) =
    applyClose p.hdr p.data (atTurn p s) := by
  rw [applyReq_push hright hop, if_neg (by omega), if_pos hsub]

end Turn

/-- Row `i` takes packet `p`, where that is for this package, as a request. -/
def Takes (i : Instr) (p : Packet) : Prop := ∀ s, forMe s p = true → exec i s = .next (arriveReq p s)

section Takes
variable {i : Instr} {p : Packet} {s t : State} (htakes : Takes i p) (hdue : Due s p)
include htakes hdue

theorem Takes.applied (happly : applyReq p.plane.val p.hdr p.data (entered p s) = some t) : exec i s = .next (moved p t) := by
  rw [htakes s hdue.isForMe, hdue.arriveReq_applied happly]

theorem Takes.waits (happly : applyReq p.plane.val p.hdr p.data (entered p s) = none) :
    exec i s = .next (noteArrival p.plane.val p.hdr p.data (entered p s)) := by
  rw [htakes s hdue.isForMe, hdue.arriveReq_notes happly]

end Takes

section Rows
variable {p : Packet} (hop : hOp p.hdr = 4)
include hop

theorem takes_qpushEntry (hsub : hSub p.hdr = 0) : Takes (.qpushEntry p) p := fun s hme => by
  have hexec : exec (.qpushEntry p) s = .next (takePacket p (hOp p.hdr == 4 && hSub p.hdr != 1 && hSub p.hdr != 2) arriveReq s) := rfl
  simp [hexec, takePacket, hme, hop, hsub]

theorem takes_qpushFragment (hsub : hSub p.hdr = 2) : Takes (.qpushFragment p) p := fun s hme => by
  have hexec : exec (.qpushFragment p) s = .next (takePacket p (hOp p.hdr == 4 && hSub p.hdr == 2) arriveReq s) := rfl
  simp [hexec, takePacket, hme, hop, hsub]

theorem takes_qpushClose (hsub : hSub p.hdr = 1) : Takes (.qpushClose p) p := fun s hme => by
  have hexec : exec (.qpushClose p) s = .next (takePacket p (hOp p.hdr == 4 && hSub p.hdr == 1) arriveReq s) := rfl
  simp [hexec, takePacket, hme, hop, hsub]

end Rows

/-- Settles O41: a push is applied to the state of its turn, whose image, commits and step slots are those before it; an entry, its
last fragment and a close then take one branch each. -/
theorem queuePushes : Obligations.QueuePushes := by
  intro s u p m k c q step hdue hright hu hop hk hc hq
  subst hk hc hq
  have hne : hOp p.hdr ≠ 3 := by omega
  have hcommitted : (partOf (atTurn p s) (hDstPart p.hdr)).run.committed = (partOf s (hDstPart p.hdr)).run.committed := by
    rw [run_atTurn]
  have hslot (step k : Nat) := entryReady_atTurn s p (hDstPart p.hdr) step k
  have himage := imgOf_atTurn s p (hDstPart p.hdr)
  refine ⟨fun hfrag hsub hmap hstep => ?entry, fun h0 got hfrag hsub haddr hmap hlen hstep hopen hready hlast => ?last,
    fun hfrag hsub => ?stray, fun hfrag hsub hstep hopen => ?close⟩
  case entry =>
    rw [hu.trans (atTurn_of_noFrag hfrag).symm]
    have hturn := applyReq_entry hright hop hsub
    have happlied {t : State} := (takes_qpushEntry hop hsub).applied (t := t) hdue
    have hwhole := applyFirst_whole (plane := p.plane.val) (himage ▸ hmap)
    refine ⟨fun hlen hone hopen hready => ?_, fun hlen hone hopen hbusy => ?_, fun hlen hone hpast => ?_, fun hlen hmore => ?_⟩
    · have happly := applyEntry_ready (m := m) hstep (hcommitted ▸ hopen) ((hslot ..).trans hready)
      exact happlied (hturn.trans ((hwhole hlen hone).trans happly))
    · have happly := applyEntry_busy (m := m) hstep (hcommitted ▸ hopen) ((hslot ..).trans hbusy)
      exact ((takes_qpushEntry hop hsub).waits hdue (hturn.trans ((hwhole hlen hone).trans happly))).trans
        (congrArg Host.Outcome.next (noteArrival_entry hop hsub hmap))
    · have happly := applyEntry_past (m := m) hstep (hcommitted ▸ hpast)
      exact happlied (hturn.trans ((hwhole hlen hone).trans happly))
    · exact happlied (hturn.trans (applyFirst_part (himage ▸ hmap) hlen hmore))
  case last =>
    rw [← atTurn_of_frag hfrag]
    have happly := applyEntry_ready (m := m) hstep (hcommitted ▸ hopen) ((hslot ..).trans hready)
    have hlastFrag := applyFurther_last (plane := p.plane.val) (himage ▸ hmap) haddr hlen hlast
    have hturn := applyReq_fragment hright hop hsub
    rw [hfrag] at hturn
    exact (takes_qpushFragment hop hsub).applied hdue (hturn.trans (hlastFrag.trans happly))
  case stray =>
    rw [hu.trans (atTurn_of_noFrag hfrag).symm]
    have hturn := applyReq_fragment hright hop hsub
    rw [hfrag] at hturn
    exact (takes_qpushFragment hop hsub).applied hdue (hturn.trans (congrArg some (refuse_of_ne_atomic hne ..)))
  case close =>
    rw [hu.trans (atTurn_of_noFrag hfrag).symm]
    have hturn := applyReq_close hright hop hsub
    refine ⟨fun hready => ?_, fun hbusy => ?_⟩
    · have happly := applyClose_ready hstep (hcommitted ▸ hopen) ((hslot ..).trans hready)
      exact (takes_qpushClose hop hsub).applied hdue (hturn.trans happly)
    · have happly := applyClose_busy hstep (hcommitted ▸ hopen) ((hslot ..).trans hbusy)
      exact ((takes_qpushClose hop hsub).waits hdue (hturn.trans happly)).trans
        (congrArg Host.Outcome.next (noteArrival_close hsub))

end Sys2Proof.Claim
end

section
/-! PROOFS. What a ROUTE reads of a state, and the queue that a SEAL seals (R142, R143, R208, R221, R223). -/

namespace Sys2Proof.Machine

/-! States in which the position of a command is the same (R135, R143). -/

/-- The images and the configuration, which place the command lists, are in `t` as in `s`. -/
structure PlacedAs (s t : State) : Prop where
  images : t.images = s.images
  cfg : ∀ p, (partOf t p).cfg = (partOf s p).cfg

namespace PlacedAs

variable {s t : State} (h : PlacedAs s t)
include h

theorem bank (p : Nat) : bank t p = bank s p := by
  simp only [Machine.bank, activeBank, bankOf, h.cfg]

theorem recImg (b : List Word) : recImg t b = recImg s b := by
  simp only [Machine.recImg, h.images]

theorem imgOf (p : Nat) : imgOf t p = imgOf s p := by
  simp only [Machine.imgOf, h.recImg, activeBank, bankOf, h.cfg]

theorem imgC (a : At) : imgC t a = imgC s a := by
  simp only [Machine.imgC, imgCluster, h.imgOf, h.bank]

theorem guestC (a : At) : guestC t a = guestC s a := by
  simp only [Machine.guestC, guestOf, h.imgC, h.cfg]

theorem relocAt (a : At) (c : List Word) : relocAt t a c = relocAt s a c := by
  simp only [Machine.relocAt, slotA, h.imgOf, h.imgC]

/-- A ROUTE works on the same map where the SEALs of its list so far are the same (R223; log 48). -/
theorem mapAt {a : At} (hseals : (runAt t a).map (fun r => r.seals) = (runAt s a).map fun r => r.seals) (c : List Word) :
    mapAt t a c = mapAt s a c := by
  have hseal (v : State) (q : Nat) : ((runAt v a).bind fun r => tget r.seals q) =
      ((runAt v a).map fun r => r.seals).bind fun x => tget x q := by
    cases runAt v a <;> rfl
  simp only [Machine.mapAt, h.imgOf, h.imgC, h.guestC, hseal, hseals]

/-- The closes that a queue misses are counted alike. -/
theorem sealable (a : At) (m : EMap) (z : Queue) : sealable t a m z = sealable s a m z := by
  simp only [Machine.sealable, closesMissing, queueClusters, selfMember, h.bank, h.imgC, h.guestC]

end PlacedAs

/-- What a ROUTE reads beside memory is in `t` as in `s`. -/
structure RoutesAs (s t : State) : Prop extends PlacedAs s t where
  queues : ∀ p, (partOf t p).ex.queues = (partOf s p).ex.queues
  now : t.now = s.now

namespace RoutesAs

variable {s t u : State}

theorem refl (s : State) : RoutesAs s s := ⟨⟨rfl, fun _ => rfl⟩, fun _ => rfl, rfl⟩

theorem trans (h : RoutesAs s t) (k : RoutesAs t u) : RoutesAs s u :=
  ⟨⟨k.images.trans h.images, fun p => (k.cfg p).trans (h.cfg p)⟩, fun p => (k.queues p).trans (h.queues p), k.now.trans h.now⟩

theorem queueAt (h : RoutesAs s t) (a : At) (m : EMap) (q : Nat) : queueAt t a m q = queueAt s a m q := by
  simp only [Machine.queueAt, queueOf, h.queues, h.imgC]

/-! Updates that leave it. -/

theorem of_parts (hparts : t.parts = s.parts) (himages : t.images = s.images) (hnow : t.now = s.now) : RoutesAs s t := by
  have hpart (p : Nat) : partOf t p = partOf s p := by rw [partOf, hparts, ← partOf]
  exact ⟨⟨himages, fun p => by rw [hpart]⟩, fun p => by rw [hpart], hnow⟩

theorem modCluster (k : Nat) (f : Cluster → Cluster) (s : State) : RoutesAs s (modCluster k f s) := of_parts rfl rfl rfl

theorem modRunAt (a : At) (f : Run → Run) (s : State) : RoutesAs s (modRunAt a f s) := modCluster ..

theorem modPart {f : Part → Part} (hcfg : ∀ q, (f q).cfg = q.cfg) (hex : ∀ q, (f q).ex = q.ex) (k : Nat) (s : State) :
    RoutesAs s (modPart k f s) := by
  have hpart (p : Nat) : (partOf (Machine.modPart k f s) p).cfg = (partOf s p).cfg ∧
      (partOf (Machine.modPart k f s) p).ex = (partOf s p).ex := by
    by_cases hp : k = p
    · subst hp; rw [partOf_modPart]; exact ⟨hcfg _, hex _⟩
    · rw [partOf_modPart_ne f s hp]; exact ⟨rfl, rfl⟩
  exact ⟨⟨rfl, fun p => (hpart p).1⟩, fun p => congrArg PartEx.queues (hpart p).2, rfl⟩

theorem modStat (k : Nat) (f : PartStat → PartStat) (s : State) : RoutesAs s (modStat k f s) :=
  modPart (f := fun q => { q with stat := f q.stat }) (fun _ => rfl) (fun _ => rfl) k s

theorem modRun (k : Nat) (f : PartRun → PartRun) (s : State) : RoutesAs s (modRun k f s) :=
  modPart (f := fun q => { q with run := f q.run }) (fun _ => rfl) (fun _ => rfl) k s

theorem cntAdd (p k n : Nat) (s : State) : RoutesAs s (cntAdd p k n s) := modStat ..

theorem foldl {α : Type} {f : State → α → State} (hf : ∀ t x, RoutesAs t (f t x)) (xs : List α) (s : State) :
    RoutesAs s (xs.foldl f s) := by
  induction xs generalizing s with
  | nil => exact refl s
  | cons x xs ih => exact (hf s x).trans (ih (f s x))

theorem chargeStall (k : Nat) (s : State) : RoutesAs s (chargeStall k s) := by
  refine (modCluster k _ s).trans (foldl (fun t r => ?_) _ _)
  split
  · exact refl t
  · exact cntAdd ..

theorem storeRow (x : Nat) (bs : List Byte) (s : State) : RoutesAs s (storeRows [(x, bs)] s) := by
  obtain ⟨hparts, -⟩ := storeRows_frame [(x, bs)] s
  have hfresh (xs : List Rng) (t : State) : (freshParity xs t).now = t.now := by
    unfold freshParity
    split <;> rfl
  exact of_parts hparts (ReadsAs.storeRow x bs s).images (hfresh ..)

end RoutesAs

/-! One queue (R208). -/

theorem placedAs_modQueue (p map step c q : Nat) (f : Queue → Queue) (s : State) : PlacedAs s (modQueue p map step c q f s) := by
  refine ⟨rfl, fun k => ?_⟩
  by_cases hk : p = k
  · subst hk; rw [modQueue, partOf_modEx]
  · rw [modQueue, partOf_modEx_ne _ s hk]

/-- A queue reads back as it was changed. -/
theorem queueAt_modQueue (a : At) (m : EMap) (q : Nat) (f : Queue → Queue) (s : State) :
    queueAt (modQueue a.part.val (emMap m) a.step (imgC s a) q f s) a m q = f (queueAt s a m q) := by
  rw [queueAt, (placedAs_modQueue ..).imgC, queueOf, modQueue, partOf_modEx]
  exact tgetD_tset_same ..

/-! A hold (R260). -/

/-- A hold for a cause other than an append's sets the stall record of its list at most, and charges the others. -/
theorem holdOn_cases {causes : List Nat} (h : 11 ∉ causes) (a : At) (s : State) : holdOn a causes s = s ∨
    ∃ x, holdOn a causes s = modRunAt a (fun r => { r with stall := x }) s ∨
      holdOn a causes s = modRunAt a (fun r => { r with stall := x }) (chargeStall a.cluster.val s) := by
  unfold holdOn
  rw [if_neg h]
  dsimp only
  split
  · exact .inl rfl
  · split
    · exact .inl rfl
    · split
      · split
        · exact .inl rfl
        · exact .inr ⟨_, .inr rfl⟩
      · exact .inr ⟨_, .inl rfl⟩

section HoldOn
variable {causes : List Nat} (hcauses : 11 ∉ causes) (a : At) (s : State)
include hcauses

theorem routesAs_holdOn : RoutesAs s (holdOn a causes s) := by
  obtain heq | ⟨x, heq | heq⟩ := holdOn_cases hcauses a s
  · rw [heq]; exact .refl s
  · rw [heq]; exact .modRunAt ..
  · rw [heq]; exact (RoutesAs.chargeStall ..).trans (.modRunAt ..)

/-- The run of the position keeps all but its stall record. -/
theorem runAt_holdOn {α : Type} (f : Run → α) (hf : ∀ r x, f { r with stall := x } = f r) :
    (runAt (holdOn a causes s) a).map f = (runAt s a).map f := by
  have hset (x : Option (Nat × Nat)) : (f ∘ fun r : Run => { r with stall := x }) = f := funext fun r => hf r x
  have hmod (x : Option (Nat × Nat)) (t : State) :
      (runAt (modRunAt a (fun r => { r with stall := x }) t) a).map f = (runAt t a).map f := by
    rw [runAt_modRunAt a (fun r => { r with stall := x }) (fun _ => rfl), Option.map_map, hset]
  obtain heq | ⟨x, heq | heq⟩ := holdOn_cases hcauses a s
  · rw [heq]
  · rw [heq, hmod]
  · rw [heq, hmod, runAt_chargeStall, Option.map_map, hset]

end HoldOn

/-! What each ROUTE does (R221 to R225). -/

theorem isRoute_eq {c : List Word} {mode : Nat} (hop : cOp c = 5) (hmode : rMode c = mode) : isRoute mode c = true := by
  simp only [isRoute, hop, hmode, beq_self_eq_true, Bool.and_self]

section Route
variable {s : State} {a : At} {c : List Word}

theorem combineHold_of_returned (h : rTokens c = 0 ∨ returned s a c = validChoices s a c) : combineHold a c s = [] := by
  unfold combineHold
  split
  · rfl
  · next htokens => exact if_pos (h.resolve_left htokens)

theorem combineHold_of_missing (htokens : rTokens c ≠ 0) (h : returned s a c ≠ validChoices s a c) : combineHold a c s = [8] := by
  rw [combineHold, if_neg htokens, if_neg h]

variable {m : EMap} (hmap : mapAt s a c = some m)
include hmap

/-- A round at or beyond ROUNDS, or of a queue that is not sealed, is a program fault (R223). -/
theorem gatherGo_beyond (hrows : roundRows (queueAt s a m (rQueue c)) (rRound c) = none) :
    gatherGo a c s = faultAt a 9 (rOp c) s := by
  simp only [gatherGo, hmap, hrows]

theorem sealHold_of_missing (h : sealable s a m (queueAt s a m (rQueue c)) = false) : sealHold a c s = [8] := by
  simp only [sealHold, hmap, h, Bool.false_eq_true, not_false_eq_true, if_true]

/-- A SEAL seals its queue in canonical order; what else it does reaches no queue (R221, R222). -/
theorem routesAs_sealGo (hfits : opdOk (recordOpd c (queueAt s a m (rQueue c))) = true) :
    RoutesAs (modQueue a.part.val (emMap m) a.step (imgC s a) (rQueue c)
      (fun z => { z with sealed := true, order := canonical z }) s) (sealGo a c s) := by
  simp only [sealGo, hmap, hfits, not_true_eq_false, if_false]
  exact ((RoutesAs.modRunAt ..).trans (.modCluster ..)).trans (.storeRow ..)

end Route

theorem sealNext_eq {s : State} {a : At} {r : Run} {k : Cmd} {rest : List Cmd} (hrun : runAt s a = some r)
    (htodo : r.todo = k :: rest) (hseal : isRoute 1 k.words = true) : sealNext s a = some (relocAt s a k.words) := by
  simp only [sealNext, hrun, Option.bind_some, htodo, List.head?_cons, hseal, if_true]

/-- A SEAL that its queue holds marks when its wait began (R221). -/
theorem markSeal_of_waiting {s : State} {a : At} {c : List Word} (hnext : sealNext s a = some c) (hhold : sealHold a c s = [8]) :
    markSeal a s = modRunAt a (fun r => { r with sealFrom := some (r.sealFrom.getD s.now) }) s := by
  simp only [markSeal, hnext, hhold, List.mem_singleton, if_true]

theorem routesAs_markSeal (a : At) (s : State) : RoutesAs s (markSeal a s) := by
  unfold markSeal
  split
  · dsimp only
    split
    · exact .modRunAt ..
    · split
      · exact .modRun ..
      · exact .refl s
  · exact .refl s

theorem drainWait_of_nil {p : Nat} {s : State} (h : (partOf s p).ex.qwait = []) : drainWait p s = s := by
  rw [drainWait, h, List.foldl_nil]

/-- Where nothing waits for a step slot, a SEAL issues as any command does, and then looks at what waits. -/
theorem exec_routeSeal {a : At} {s : State} (h : (partOf s a.part.val).ex.qwait = []) : exec (.routeSeal a) s =
    .next (markSeal a (issueWith a (isRoute 1) (sealHold a) (fun _ t => (true, t)) (fun _ c t => sealGo a c t) s)) := by
  have hexec : exec (.routeSeal a) s = .next (markSeal a (issueAt a (isRoute 1) (sealHold a) (fun _ c t => sealGo a c t)
    (drainWait a.part.val s))) := rfl
  rw [hexec, drainWait_of_nil h, issueAt]

end Sys2Proof.Machine
end

section
/-! PROOFS. When the ROUTE commands issue, and what a SEAL that waits leaves (R213 to R225, R232). -/

namespace Sys2Proof.Claim

open Sys2Proof.Machine

theorem routesAs_issued (a : At) (rest : List Cmd) (s : State) : RoutesAs s (issued a rest s) :=
  ((RoutesAs.chargeStall ..).trans (.modCluster ..)).trans ((RoutesAs.modRunAt ..).trans (.cntAdd ..))

/-- A command that leaves its list changes what the run has to do, and its stalls. -/
theorem runAt_issued (a : At) (rest : List Cmd) (s : State) :
    runAt (issued a rest s) a = (runAt s a).map fun r => { r with stall := none, todo := rest, waitFrom := none } := by
  have hcnt (t : State) : runAt (cntAdd a.part.val cStage 1 t) a = runAt t a := rfl
  have hslot (n : Nat) (t : State) : runAt (takeSlot a.cluster.val n a.part.val a.step t) a = runAt t a := by
    rw [runAt, takeSlot, clusterOf_modCluster]; rfl
  rw [issued, hcnt, runAt_modRunAt a (fun r => { r with todo := rest, waitFrom := none }) (fun _ => rfl), hslot, runAt_chargeStall,
    Option.map_map]
  rfl

theorem mapAt_issued (a : At) (rest : List Cmd) (s : State) (c : List Word) : mapAt (issued a rest s) a c = mapAt s a c := by
  refine (routesAs_issued a rest s).mapAt ?_ c
  rw [runAt_issued, Option.map_map]
  rfl

section Issue
variable {s : State} {a : At} {r : Run} {k : Cmd} {rest : List Cmd} {c : List Word} (hready : Ready s a r k rest c)
include hready

/-- A command that stands next and that only `extra` holds waits for what that names (R142). -/
theorem Ready.waits {ok : List Word → Bool} {extra : List Word → State → List Nat} {pre : List Word → State → Bool × State}
    {go : Cmd → List Word → State → State} (hok : ok k.words = true) (hextra : extra c s ≠ []) :
    Machine.issueWith a ok extra pre go s = holdOn a (extra c s) s := by
  obtain ⟨hstands, hrefused, rfl, hholds⟩ := hready
  have hskip := hstands.not_skip hok
  obtain ⟨hrun, htodo, -⟩ := hstands
  have hallowed : ¬ (k.expanded = true ∧ issueCause (imgOf s a.part.val) (imgC s a) (guestC s a) k.words ≠ 0) := by
    rintro ⟨hexp, hcause⟩
    exact hcause ((if_pos hexp).symm.trans hrefused)
  simp only [Machine.issueWith, hrun, htodo, if_neg hskip, if_neg hallowed, hholds, List.nil_append, if_pos hextra]

section Seal
variable (hop : cOp k.words = 5) (hmode : rMode k.words = 1) {m : EMap} (hmap : mapAt s a c = some m)
  (hqwait : (partOf s a.part.val).ex.qwait = [])
include hop hmode hmap hqwait

/-- A SEAL that nothing holds seals its queue (R221, R222). -/
theorem Ready.seals (hhold : sealHold a c s = []) (hfits : opdOk (recordOpd c (queueAt s a m (rQueue c))) = true) :
    ∃ t, exec (.routeSeal a) s = .next t ∧ t = markSeal a (sealGo a c (issued a rest s)) ∧
      queueAt t a m (rQueue c) = { queueAt s a m (rQueue c) with sealed := true, order := canonical (queueAt s a m (rQueue c)) } := by
  have hqueue := (routesAs_issued a rest s).queueAt a m (rQueue c)
  have hmap' := (mapAt_issued a rest s c).trans hmap
  refine ⟨_, ?_, rfl, ?_⟩
  · rw [exec_routeSeal hqwait, hready.issues (fun _ c t => sealGo a c t) (isRoute_eq hop hmode) hhold rfl]
  · rw [((routesAs_sealGo hmap' (hqueue ▸ hfits)).trans (routesAs_markSeal ..)).queueAt, queueAt_modQueue, hqueue]

/-- A SEAL of a queue that misses closes or entries stays in its list, marks when its wait began, and changes no memory (R221). -/
theorem Ready.sealWaits (hmiss : sealable s a m (queueAt s a m (rQueue c)) = false) :
    ∃ t, exec (.routeSeal a) s = .next t ∧ (runAt t a).map (fun q => q.todo) = some (k :: rest) ∧
      (runAt t a).map (fun q => q.sealFrom) = some (some (r.sealFrom.getD s.now)) ∧ t.x.sram = s.x.sram ∧ t.x.hbm = s.x.hbm := by
  have hok := isRoute_eq hop hmode
  have hhold := sealHold_of_missing hmap hmiss
  have hissue := hready.waits (pre := fun _ t => (true, t)) (go := fun _ c t => sealGo a c t) (extra := sealHold a) hok (by simp [hhold])
  obtain ⟨⟨hrun, htodo, -⟩, -, rfl, -⟩ := hready
  have hother : 11 ∉ [8] := by decide
  have hroutes := routesAs_holdOn hother a s
  have hmemory := (waits_holdOn a [8] s).reads
  have hkept : (runAt (holdOn a [8] s) a).map (fun q => (q.todo, q.sealFrom, q.seals)) = some (k :: rest, r.sealFrom, r.seals) := by
    rw [runAt_holdOn hother a s _ fun _ _ => rfl, hrun, Option.map_some, htodo]
  obtain ⟨q, hq, hfields⟩ := Option.map_eq_some_iff.mp hkept
  simp only [Prod.mk.injEq] at hfields
  obtain ⟨hqtodo, hqfrom, hqseals⟩ := hfields
  have hnext := (sealNext_eq hq hqtodo hok).trans (congrArg some (hroutes.relocAt ..))
  have hmap' := (hroutes.mapAt (by rw [hq, hrun, Option.map_some, hqseals, Option.map_some]) _).trans hmap
  have hhold' := sealHold_of_missing hmap' (by rw [hroutes.queueAt, hroutes.sealable, hmiss])
  have hexec := exec_routeSeal hqwait
  rw [hissue, hhold, markSeal_of_waiting hnext hhold'] at hexec
  have hmarked := runAt_modRunAt a (fun x => { x with sealFrom := some (x.sealFrom.getD (holdOn a [8] s).now) }) (fun _ => rfl)
    (holdOn a [8] s)
  rw [hq, Option.map_some, hqfrom, hroutes.now] at hmarked
  exact ⟨_, hexec, by rw [hroutes.now, hmarked, Option.map_some, hqtodo], by rw [hroutes.now, hmarked, Option.map_some],
    hmemory.sram, hmemory.hbm⟩

end Seal
end Issue

/-- Settles O56: a ready ROUTE that nothing else holds issues with its effect; the queue that a GATHER or a SEAL finds as it issues is
the one that it stood before, and of all that a SEAL does one update reaches a queue. -/
theorem routingCommands : Obligations.RoutingCommands := by
  rintro s u a ev r k rest c hready rfl hop
  refine ⟨fun hreads => ?_, fun m hmode hmap hmeets => ?_, fun m z hmode hmap hz hqwait => ?_⟩
  · have hmeet := hreads.meetReads
    refine ⟨fun hmode => ?_, fun hmode => ?_, fun hmode hback => ?_, fun hmode htokens hmiss => ?_, fun hmode hhold => ?_⟩
    · exact congrArg Host.Outcome.next (hready.issues _ (isRoute_eq hop hmode) rfl hmeet)
    · exact congrArg Host.Outcome.next (hready.issues _ (isRoute_eq hop hmode) rfl hmeet)
    · exact congrArg Host.Outcome.next (hready.issues _ (isRoute_eq hop hmode) (combineHold_of_returned hback) hmeet)
    · have hhold := combineHold_of_missing htokens hmiss
      have hissue := hready.waits (extra := combineHold a) (pre := meetReads a ev) (go := fun _ c t => combineGo a c t)
        (isRoute_eq hop hmode) (by simp [hhold])
      rw [hhold] at hissue
      exact congrArg Host.Outcome.next hissue
    · exact congrArg Host.Outcome.next (hready.issues _ (isRoute_eq hop hmode) hhold hmeet)
  · have hgather : exec (.routeGather a ev) s = .next (gatherGo a c (issued a rest s)) :=
      congrArg Host.Outcome.next (hready.issues _ (isRoute_eq hop hmode) rfl hmeets)
    have hqueue := (routesAs_issued a rest s).queueAt a m (rQueue c)
    refine ⟨fun hrows => ?_, fun _ => hgather⟩
    rw [hgather, gatherGo_beyond ((mapAt_issued a rest s c).trans hmap) (hqueue ▸ hrows)]
  · subst hz
    refine ⟨fun hhold hfits => ?_, fun hmiss => hready.sealWaits hop hmode hmap hqwait hmiss⟩
    obtain ⟨t, hexec, ht, hqueue⟩ := hready.seals hop hmode hmap hqwait hhold hfits
    refine ⟨t, hexec, ht, ?_, ?_, ?_⟩ <;> rw [hqueue]

end Sys2Proof.Claim
end

section
/-! PROOFS. The byte memories keep their canonical form (R237, R273, R278; log 2). -/

namespace Sys2Proof.Claim

open Sys2Proof.Machine

/-- Settles O5: a step is a tick or a command, and each keeps what no command takes away. -/
theorem stepKeepsMemoryForm : Obligations.StepKeepsMemoryForm := by
  intro s t hmem hstep
  unfold step at hstep
  split at hstep
  · obtain rfl := Host.Outcome.next.inj hstep
    exact (tick_keeps (keeps_refl s)).mem hmem
  · exact (exec_keeps hstep).mem hmem

end Sys2Proof.Claim
end

section
/-! PROOFS. LOAD, STORE and ATOMIC in their turn (R239, R314, R316, R324, R326). -/

namespace Sys2Proof.Machine

/-! What each access does (R239, R264, R316, R324). -/

/-- Only the data region takes stores (R239). -/
theorem region_of_storeStatus {s : State} {p off n : Nat} (h : storeStatus s p off n = 0) : hbmRegion off = 1 := by
  refine Decidable.byContradiction fun hne => ?_
  have hrefused : storeStatus s p off n ≠ 0 := by
    simp only [storeStatus, if_pos hne]
    split <;> decide
  exact hrefused h

theorem hbm_hbmStore (p off : Nat) (bs : List Byte) (s : State) :
    (hbmStore p off bs s).x.hbm = memWrite s.x.hbm (hbmFlat s p off) bs := rfl

section Access
variable {plane : Nat} {h : List Word} {data : List Byte} {s : State}

theorem applyLoad_open (hlen : hLen h ≠ 0) (hok : loadStatus s (hDstPart h) (hOff h) (hLen h) = 0) :
    applyLoad plane h s = respond plane (hSeq h) h 0x10 0 (hAddr h) (hbmRead s (hDstPart h) (hOff h) (hLen h))
      (cntAdd (hDstPart h) cMemory (cdiv (hLen h) 64) s) := by
  simp only [applyLoad, if_neg hlen, hok, ne_eq, not_true_eq_false, if_false]

theorem applyLoad_refused (hlen : hLen h ≠ 0) (hbad : loadStatus s (hDstPart h) (hOff h) (hLen h) ≠ 0) :
    applyLoad plane h s = refuse plane h (loadStatus s (hDstPart h) (hOff h) (hLen h)) s := by
  simp only [applyLoad, if_neg hlen, if_pos hbad]

theorem applyStore_open (hdata : data ≠ []) (hok : storeStatus s (hDstPart h) (hOff h) data.length = 0) :
    applyStore plane h data s = hbmStore (hDstPart h) (hOff h) data (cntAdd (hDstPart h) (cMemory + 1) (cdiv data.length 64) s) := by
  simp only [applyStore, if_neg hdata, hok, ne_eq, not_true_eq_false, if_false]

theorem applyStore_refused (hdata : data ≠ []) (hbad : storeStatus s (hDstPart h) (hOff h) data.length ≠ 0) :
    applyStore plane h data s =
      refuse plane h (storeStatus s (hDstPart h) (hOff h) data.length) (storeRefused (hDstPart h) (hOff h) s) := by
  simp only [applyStore, if_neg hdata, if_pos hbad]

/-- The value that an atomic writes (R324). -/
def atomicValue (h : List Word) (data : List Byte) (s : State) : Nat :=
  atomicNew (hSub h) (atomicWidth h) (natOfBytes (hbmRead s (hDstPart h) (hOff h) (atomicWidth h))) data

/-- The state in which an atomic has written its value. -/
def atomicDone (h : List Word) (data : List Byte) (s : State) : State :=
  hbmStore (hDstPart h) (hOff h) (natBytes (atomicWidth h) (atomicValue h data s))
    (cntAdd (hDstPart h) (cMemory + 1) 1 (cntAdd (hDstPart h) cMemory 1 s))

theorem applyAtomic_open (hok : storeStatus s (hDstPart h) (hOff h) (atomicWidth h) = 0) :
    applyAtomic plane h data s = respond plane (hSeq h) h 0x12 0 (hAddr h)
      (natBytes 8 (natOfBytes (hbmRead s (hDstPart h) (hOff h) (atomicWidth h))))
      (keepAtomic plane h 0 (natOfBytes (hbmRead s (hDstPart h) (hOff h) (atomicWidth h))) (atomicDone h data s)) := by
  simp only [applyAtomic, hok, ne_eq, not_true_eq_false, if_false, atomicDone, atomicValue]

end Access

end Sys2Proof.Machine

namespace Sys2Proof.Claim

open Sys2Proof.Machine

/-! The turn of an access (R313, R314, R321). -/

theorem loadStatus_entered (s : State) (p : Packet) (k off n : Nat) :
    loadStatus (wakeQuay (entered p s)) k off n = loadStatus s k off n :=
  wakeQuay_entered_reads s p (loadStatus · k off n) fun _ _ => rfl

theorem hbmRead_entered (s : State) (p : Packet) (k off n : Nat) :
    hbmRead (wakeQuay (entered p s)) k off n = hbmRead s k off n :=
  wakeQuay_entered_reads s p (hbmRead · k off n) fun _ _ => rfl

/-- What a request that reads or writes memory does in its turn, by its opcode (R314). -/
def applyAccess (p : Packet) (u : State) : State :=
  if hOp p.hdr = 1 then applyLoad p.plane.val p.hdr u
  else if hOp p.hdr = 2 then applyStore p.plane.val p.hdr p.data u
  else applyAtomic p.plane.val p.hdr p.data u

theorem applyReq_access {s u : State} {p : Packet} (hfrag : (inStream s p).frag = none) (hright : Right s p)
    (hu : u = wakeQuay (entered p s)) (hop : 1 ≤ hOp p.hdr ∧ hOp p.hdr ≤ 3) :
    applyReq p.plane.val p.hdr p.data (entered p s) = some (applyAccess p u) := by
  obtain ⟨hack, hstatus, hpower⟩ := hright
  have hfrag' : (dstOf (entered p s) p.plane.val (hSrc p.hdr) (hJob p.hdr)).frag = none := by
    rw [← inStream, inStream_entered, hfrag]
  have hstatus' : reqStatus (entered p s) p.hdr p.data = 0 := hstatus
  have hpower' : ¬ ((entered p s).pw.st ≠ .run ∧ (entered p s).pw.st ≠ .quayside) := fun ⟨hrun, hquay⟩ => hpower.elim hrun hquay
  obtain hop | hop | hop : hOp p.hdr = 1 ∨ hOp p.hdr = 2 ∨ hOp p.hdr = 3 := by omega
  all_goals simp only [applyReq, applyAccess, hfrag', hack, hstatus', if_neg hpower', hop, hu, Option.isSome_none,
    Bool.false_eq_true, ne_eq, not_true_eq_false, if_false, if_true, Nat.reduceEqDiff]

section Rows
variable {p : Packet}

theorem takes_load (hop : hOp p.hdr = 1) : Takes (.load p) p := fun s hme => by
  have hexec : exec (.load p) s = .next (takePacket p true
    (fun q => if hOp q.hdr = 1 then arriveReq q else if hOp q.hdr ∈ knownOps then id else arriveUnknown q) s) := rfl
  simp [hexec, takePacket, hme, hop]

theorem takes_store (hop : hOp p.hdr = 2) : Takes (.store p) p := fun s hme => by
  have hexec : exec (.store p) s = .next (takePacket p (hOp p.hdr == 2) arriveReq s) := rfl
  simp [hexec, takePacket, hme, hop]

theorem takes_atomic (hop : hOp p.hdr = 3) : Takes (.atomic p) p := fun s hme => by
  have hexec : exec (.atomic p) s = .next (takePacket p (hOp p.hdr == 3) arriveReq s) := rfl
  simp [hexec, takePacket, hme, hop]

end Rows

/-- Settles O40: an access is applied to the state of its turn, whose memory and checks are those before it; each opcode then takes
one branch. -/
theorem fabricMemoryAccess : Obligations.FabricMemoryAccess := by
  intro s u p k off old w hdue hfrag hright hu hk hoff hw hold
  subst hk hoff hw
  have hturn := applyReq_access hfrag hright hu
  have hload := loadStatus_entered s p (hDstPart p.hdr) (hOff p.hdr)
  have hstore := storeStatus_entered s p (hDstPart p.hdr) (hOff p.hdr)
  have hread := hbmRead_entered s p (hDstPart p.hdr) (hOff p.hdr)
  rw [← hu] at hload hstore hread
  refine ⟨fun hop hlen hok => ?load, fun hop hlen hbad => ?loadRefused, fun hop hdata hok => ?store,
    fun hop hdata hbad => ?storeRefused, fun hop hok => ?atomic⟩
  case load =>
    rw [(takes_load hop).applied hdue (hturn (by omega)), applyAccess, if_pos hop, applyLoad_open hlen (by rwa [hload]), hread]
    rfl
  case loadRefused =>
    rw [(takes_load hop).applied hdue (hturn (by omega)), applyAccess, if_pos hop, applyLoad_refused hlen (by rwa [hload]),
      refuse_of_ne_atomic (by omega), hload]
    rfl
  case store =>
    have hregion : hbmRegion (hOff p.hdr) ≠ 0 := by rw [region_of_storeStatus hok]; decide
    have hbm : (cntAdd (hDstPart p.hdr) (cMemory + 1) (cdiv p.data.length 64) u).x.hbm = s.x.hbm := hu ▸ hbm_entered s p
    refine ⟨_, (takes_store hop).applied hdue (hturn (by omega)), ?_, fun ⟨_, hmem, _⟩ a => ?_, fun ⟨_, hmem, _⟩ a ha => ?_⟩
    all_goals rw [applyAccess, if_neg (by omega), if_pos hop, applyStore_open hdata (by rwa [hstore])]
    · rw [hbm_moved, hbm_hbmStore, hbmFlat_region hregion, hbmFlat_region hregion, hbm]
      exact memGet_write_add hmem _ _ _
    · rw [hbmFlat_region hregion] at ha
      rw [hbm_moved, hbm_hbmStore, hbmFlat_region hregion, hbm]
      exact memGet_write_other hmem _ _ (.inl ha)
  case storeRefused =>
    rw [(takes_store hop).applied hdue (hturn (by omega)), applyAccess, if_neg (by omega), if_pos hop,
      applyStore_refused hdata (by rwa [hstore]), refuse_of_ne_atomic (by omega), hstore]
    rfl
  case atomic =>
    have hvalue : atomicValue p.hdr p.data u = atomicNew (hSub p.hdr) (atomicWidth p.hdr) old p.data := by
      rw [atomicValue, hread, hold]
    refine ⟨atomicDone p.hdr p.data u, atomicValue p.hdr p.data u, ?_, rfl, ?_⟩
    · rw [(takes_atomic hop).applied hdue (hturn (by omega)), applyAccess, if_neg (by omega), if_neg (by omega),
        applyAtomic_open (by rwa [hstore]), hread, ← hold]
      rfl
    · rw [hvalue]
      and_intros
      all_goals
        intro hsub
        simp only [atomicNew, hsub, Nat.add_mod_mod]

end Sys2Proof.Claim
end

section
/-! PROOFS. step.submit: a step that is accepted, one that comes too early and one that is known (R379, R419 to R421, R538, R542). -/

namespace Sys2Proof.Machine

/-! Opening sequences (R192). -/

/-- The pairing with a holder and the requests on the fabric are in `t` as in `s`. -/
structure LinksAs (s t : State) : Prop where
  cont : t.cont = s.cont
  fab : t.fab = s.fab

namespace LinksAs

theorem refl (s : State) : LinksAs s s := ⟨rfl, rfl⟩

theorem trans {s t u : State} (h : LinksAs s t) (k : LinksAs t u) : LinksAs s u := ⟨k.cont.trans h.cont, k.fab.trans h.fab⟩

theorem activeHolder {s t : State} (h : LinksAs s t) : activeHolder t = activeHolder s := by
  simp only [Machine.activeHolder, h.cont]

theorem relPending {s t : State} (h : LinksAs s t) (p id : Nat) : relPending t p id = relPending s p id := by
  simp only [Machine.relPending, h.fab]

/-- A fold that ends once a step of it fails, each step of which leaves the links, leaves them. -/
theorem foldl_some {α : Type} {f : Option State → α → Option State} (hnone : ∀ x, f none x = none)
    (hsome : ∀ s x t, f (some s) x = some t → LinksAs s t) {xs : List α} {s t : State} (h : xs.foldl f (some s) = some t) :
    LinksAs s t := by
  induction xs generalizing s with
  | nil => exact Option.some.inj h ▸ refl s
  | cons x xs ih =>
    rw [List.foldl_cons] at h
    cases hx : f (some s) x with
    | none =>
      have hall : xs.foldl f none = none :=
        List.foldlRecOn (motive := (· = none)) xs f rfl fun o ho x _ => (congrArg (f · x) ho).trans (hnone x)
      rw [hx, hall] at h
      exact nomatch h
    | some v => exact (hsome s x v hx).trans (ih (hx ▸ h))

theorem openSeq {p : Nat} {a : SeqArg} {s t : State} (h : openSeq p a s = some t) : LinksAs s t := by
  unfold Machine.openSeq at h
  refine foldl_some (fun _ => rfl) (fun s x t hx => ?_) h
  dsimp only at hx
  split at hx
  · exact nomatch hx
  · split at hx
    · exact nomatch hx
    · exact Option.some.inj hx ▸ ⟨rfl, rfl⟩

theorem openAll {p : Nat} {as : List SeqArg} {s t : State} (h : openAll p as s = some t) : LinksAs s t := by
  unfold Machine.openAll at h
  refine foldl_some (fun _ => rfl) (fun s x t hx => ?_) h
  dsimp only at hx
  split at hx
  · exact Option.some.inj hx ▸ refl s
  · exact openSeq hx

theorem journalPut (p step a : Nat) (entry : List Byte) (s : State) : LinksAs s (journalPut p step a entry s) := ⟨rfl, rfl⟩

theorem pushStep (p : Nat) (r : StepRec) (s : State) : LinksAs s (pushStep p r s) := ⟨rfl, rfl⟩

end LinksAs

/-! A new step (R420, R421, R542). -/

/-- The record of the step that request `r` submits, its sequences open in `u`. -/
def submitted (p a now : Nat) (r : Request) (ws : List Word) (u : State) : StepRec :=
  { id := dwordAt r.words 2, host := true, fn := p, vector := fld (argOf r 2) 16 5, outAddr := dwordAt r.words 10
    outCap := (argOf r 10).toNat, cplAddr := dwordAt r.words 13
    seqs := (seqArgs (fld (argOf r 2) 0 16) ws).flatMap fun x => (slotsOfSeq (partOf u p).kv x.1).map fun i =>
      { seqId := x.1, slot := i, newTokens := x.2.1 }
    inAt := a, inBytes := (argOf r 7).toNat, arrivedNs := now }

/-- The step of request `r` is journaled and kept. -/
def submittedState (p a now : Nat) (r : Request) (ws : List Word) (input : List Byte) (u : State) : State :=
  journalPut p (dwordAt r.words 2) a (entryOf (dwordAt r.words 2) input) (pushStep p (submitted p a now r ws u) u)

theorem acceptStep_of_good {p a : Nat} {r : Request} {ws : List Word} {input : List Byte} {s u : State}
    (hclean : seqArgsClean (fld (argOf r 2) 0 16) ws = true)
    (hapart : pairwise (fun (x y : SeqArg) => x.1 != y.1) (seqArgs (fld (argOf r 2) 0 16) ws) = true)
    (hout : outBytes s p ≤ (argOf r 10).toNat) (hring : entryBytes (argOf r 7).toNat ≤ ringBytes s p)
    (hseqs : ∀ x ∈ seqArgs (fld (argOf r 2) 0 16) ws, seqStatus s p x = 0) (hholder : activeHolder s = none)
    (hrel : relPending s p (dwordAt r.words 2) = false) (hplace : ringPlace s p (entryBytes (argOf r 7).toNat) = some a)
    (hopen : openAll p (seqArgs (fld (argOf r 2) 0 16) ws) s = some u) :
    acceptStep p r ws input s = reply r 0 (w64 (dwordAt r.words 2) ++ [0]) (submittedState p a s.now r ws input u) := by
  have hlinks : LinksAs s (submittedState p a s.now r ws input u) :=
    (LinksAs.openAll hopen).trans ((LinksAs.pushStep ..).trans (LinksAs.journalPut ..))
  have hmirror : mirrorInput p (dwordAt r.words 2) (submittedState p a s.now r ws input u) =
      submittedState p a s.now r ws input u := by
    simp only [mirrorInput, hlinks.activeHolder, hholder]
  have hrel' : relPending (submittedState p a s.now r ws input u) p (dwordAt r.words 2) = false :=
    (hlinks.relPending ..).trans hrel
  have hgood : ((seqArgs (fld (argOf r 2) 0 16) ws).map (seqStatus s p)).find? (· != 0) = none := by
    simpa [List.find?_eq_none] using hseqs
  unfold submittedState submitted at hmirror hrel' ⊢
  simp only [acceptStep, hclean, hapart, Nat.not_lt_of_le hout, Nat.not_lt_of_le hring, hgood, hholder, hplace, hopen, hmirror, hrel',
    Option.isSome_none, Option.any_none, Bool.false_eq_true, and_false, not_true_eq_false, if_false]

/-! The checks before (R379, R420, R538). -/

/-- An input that came whole needs no filling. -/
theorem take_append_replicate_of_length {α : Type} {xs : List α} {n : Nat} (h : xs.length = n) (x : α) :
    (xs ++ List.replicate (n - xs.length) x).take n = xs := by
  subst h
  simp

section Submit
variable {s : State} {r : Request} {seqs : Option (List Word)} {input : Option (List Byte)}
  (hgate : submitGate s (partArg r) = 0) (hvec : fld (argOf r 2) 16 5 ∉ [1, 2, 3, 4]) (hseqs : dwordAt r.words 5 % 16 = 0)
  (hin : dwordAt r.words 7 % 64 = 0) (hout : dwordAt r.words 10 % 64 = 0) (hcpl : dwordAt r.words 13 % 64 = 0)
include hvec hseqs hin hout hcpl

/-- The vector and the addresses are such as a submission may carry (R419). -/
theorem submit_formOk : ¬ ((1 ≤ fld (argOf r 2) 16 5 ∧ fld (argOf r 2) 16 5 ≤ 4) ∨ dwordAt r.words 5 % 16 ≠ 0 ∨
    dwordAt r.words 7 % 64 ≠ 0 ∨ dwordAt r.words 10 % 64 ≠ 0 ∨ dwordAt r.words 13 % 64 ≠ 0) := by
  simp only [List.mem_cons, List.not_mem_nil, or_false, not_or] at hvec
  omega

include hgate

theorem stepSubmit_early (h : (partOf s (partArg r)).run.last + 1 < dwordAt r.words 2) :
    stepSubmit seqs input r s = reply r 0x0D07 [] s := by
  have hform := submit_formOk hvec hseqs hin hout hcpl
  simp only [stepSubmit, hgate, if_neg hform, if_pos h, ne_eq, not_true_eq_false, if_false]

theorem stepSubmit_known (h : dwordAt r.words 2 ≤ (partOf s (partArg r)).run.last) :
    stepSubmit seqs input r s = resubmit (partArg r) r s := by
  have hform := submit_formOk hvec hseqs hin hout hcpl
  have hlate : ¬ (partOf s (partArg r)).run.last + 1 < dwordAt r.words 2 := by omega
  simp only [stepSubmit, hgate, if_neg hform, if_neg hlate, if_pos h, ne_eq, not_true_eq_false, if_false]

theorem stepSubmit_next {ws : List Word} {bs : List Byte} (h : dwordAt r.words 2 = (partOf s (partArg r)).run.last + 1)
    (hcount : fld (argOf r 2) 0 16 ≤ 16380) (hroom : (accepted s (partArg r)).length < 64) (hdma : dmaOpen s (partArg r) = true)
    (hn : fld (argOf r 2) 0 16 ≠ 0) (hnb : (argOf r 7).toNat ≠ 0) (hlen : bs.length = (argOf r 7).toNat) :
    stepSubmit (some ws) (some bs) r s =
      acceptStep (partArg r) r ws bs (countRead (argOf r 7).toNat (countRead (16 * fld (argOf r 2) 0 16) s)) := by
  have hform := submit_formOk hvec hseqs hin hout hcpl
  have hlate : ¬ (partOf s (partArg r)).run.last + 1 < dwordAt r.words 2 := by omega
  have hnew : ¬ dwordAt r.words 2 ≤ (partOf s (partArg r)).run.last := by omega
  simp only [stepSubmit, hgate, if_neg hform, if_neg hlate, if_neg hnew, Nat.not_lt_of_le hcount, Nat.not_le_of_lt hroom, hdma, hn, hnb,
    take_append_replicate_of_length hlen, ne_eq, not_true_eq_false, and_false, if_false]

end Submit

end Sys2Proof.Machine

namespace Sys2Proof.Claim

open Sys2Proof.Machine

/-- In Run a submission is looked at at once (R446). -/
theorem exec_stepSubmit {s : State} {m : MbxId} {r : Request} (h : Heads s m 0x0401 r) (hrun : s.pw.st = .run)
    (seqs : Option (List Word)) (input : Option (List Byte)) :
    exec (.stepSubmit m seqs input) s = .next (stepSubmit seqs input r (taken s)) := by
  have hstate : (taken s).pw.st = .run := hrun
  have hexec : exec (.stepSubmit m seqs input) s = .next (submitOrWake seqs input r (taken s)) :=
    congrArg _ (h.takeCmd (submitOrWake seqs input))
  rw [hexec]
  simp [submitOrWake, hstate]

/-- Settles O18: a submission of the right form goes by its identifier, and taking the request and counting its DMA change nothing that
the checks read. -/
theorem stepSubmission : Obligations.StepSubmission := by
  intro s u m r seqs input ws bs p id n nb a hr hp hid hn hnb hrun hgate hvec hseqs hin hout hcpl
  subst hp hid hn hnb
  refine ⟨fun hearly => ?early, fun hknown => ?known, fun hnext hcount hroom hdma hws hbs hn hnb hlen hclean hapart hcap hring hok
    hholder hrel hplace hopen => ?next⟩
  case early =>
    rw [exec_stepSubmit hr hrun, stepSubmit_early (s := taken s) hgate hvec hseqs hin hout hcpl hearly]
  case known =>
    rw [exec_stepSubmit hr hrun, stepSubmit_known (s := taken s) hgate hvec hseqs hin hout hcpl hknown]
    exact ⟨_, rfl⟩
  case next =>
    subst hws hbs
    rw [exec_stepSubmit hr hrun, stepSubmit_next (s := taken s) hgate hvec hseqs hin hout hcpl hnext hcount hroom hdma hn hnb hlen]
    exact congrArg _ (acceptStep_of_good hclean hapart hcap hring hok hholder hrel hplace hopen)

end Sys2Proof.Claim
end

section
/-! PROOFS. Staging a configuration (R238, R350, R381, R385, R387). -/

namespace Sys2Proof.Machine

/-! Mapping frames leaves the pairing (R238). -/

theorem cont_mapFrame (space journal region n : Nat) (s : State) : (mapFrame space journal region n s).cont = s.cont := by
  unfold mapFrame
  dsimp only
  repeat' split
  all_goals rfl

theorem cont_mapFrames (space journal region : Nat) (ns : List Nat) (s : State) :
    (mapFrames space journal region ns s).cont = s.cont :=
  List.foldlRecOn (motive := fun t => t.cont = s.cont) ns _ rfl fun t ht n _ => (cont_mapFrame space journal region n t).trans ht

theorem cont_mapPartition (p : Nat) (ws b : List Word) (s : State) : (mapPartition p ws b s).cont = s.cont := by
  unfold mapPartition
  simp only [cont_mapFrames]

/-! Placement (R136, R385). -/

/-- Clusters are placed alike where they hold the same buffers. -/
theorem placeAll_congr {s t : State} {p : Nat} {ws b : List Word} (h : buffersHeld t p ws b = buffersHeld s p ws b)
    (own cs : List Nat) (tbl : Tbl Nat) : placeAll t p ws b own cs tbl = placeAll s p ws b own cs tbl := by
  induction cs generalizing tbl with
  | nil => rfl
  | cons c cs ih => simp only [placeAll, h, ih]

theorem relocate_congr {s t : State} {p : Nat} {ws b : List Word} (h : buffersHeld t p ws b = buffersHeld s p ws b) :
    relocate t p ws b = relocate s p ws b := by
  simp only [relocate, placeAll_congr h]

/-! The failover set (R350). -/

/-- A set of one half is not whole. -/
theorem setHalves_of_one {s : State} {p : Nat} (h : s.cont.setParts = [p]) : setHalves s = none := by
  unfold setHalves
  rw [h]
  cases hstandby : recStandby (shadowBank (partOf s p)) <;> simp [List.partition, List.partition.loop, hstandby]

/-- An armed set of other partitions stays armed. -/
theorem modCont_rearmed {s v : State} (hcont : v.cont = s.cont) (ps : List Nat) :
    modCont (fun c => { c with armed := s.cont.armed }) (modCont (fun c => { c with setParts := ps, armed := false }) v) =
      modCont (fun c => { c with setParts := ps }) v := by
  simp only [modCont, hcont]

/-! config.stage (R381, R385, R387). -/

/-- Record `b` is in the shadow bank of partition `p`, which is then `sh` (R385). -/
def staged (p : Nat) (b : List Word) (sh : Shadow) (s : State) : State :=
  modCfg p (fun c => { c with ebb := if c.active then b else c.ebb, flood := if c.active then c.flood else b, shadow := sh }) s

/-- What record `b` becomes as it is staged, `b'`, and the state `u` with its frames mapped (R136, R162, R238). -/
def Fits (s : State) (p : Nat) (b b' : List Word) (u : State) : Prop :=
  (recImageValid b = true → ∃ i, recImg s b = some i ∧ imageFits s p i.words b = (0, 0, 0) ∧
    relocate s p i.words b = some b' ∧ u = mapPartition p i.words b s) ∧
  (recImageValid b = false → b' = b ∧ u = s)

theorem Fits.cont {s u : State} {p : Nat} {b b' : List Word} (h : Fits s p b b' u) : u.cont = s.cont := by
  obtain ⟨himage, hplain⟩ := h
  cases hvalid : recImageValid b with
  | true => obtain ⟨i, -, -, -, hu⟩ := himage hvalid; rw [hu, cont_mapPartition]
  | false => rw [(hplain hvalid).2]

/-- What config.stage computes of such a record: it passes, its relocation and the state with its frames mapped. -/
theorem Fits.computed {s u : State} {p : Nat} {b b' : List Word} (h : Fits s p b b' u) :
    ¬ (recImageValid b = true ∧ (recImg s b).isNone = true) ∧
    (if recImageValid b = true then imageFits s p (((recImg s b).map fun i => i.words).getD []) b else (0, 0, 0)) = (0, 0, 0) ∧
    (if recImageValid b = true then (relocate s p (((recImg s b).map fun i => i.words).getD []) b).getD b else b) = b' ∧
    (if recImageValid b = true then mapPartition p (((recImg s b).map fun i => i.words).getD []) b s else s) = u := by
  obtain ⟨himage, hplain⟩ := h
  cases hvalid : recImageValid b with
  | true =>
    obtain ⟨i, hi, hfit, hreloc, hu⟩ := himage hvalid
    simp only [hi, hfit, hreloc, hu, Option.isNone_some, Option.map_some, Option.getD_some, Bool.false_eq_true, and_false,
      not_false_eq_true, if_true, and_self]
  | false =>
    obtain ⟨hb, hu⟩ := hplain hvalid
    simp only [hb, hu, Bool.false_eq_true, false_and, not_false_eq_true, if_false, and_self]

section Stage
variable {s u : State} {r : Request} {b' : List Word} (hseal : sealedOk s = true)
  (hstaged : (partOf s (partArg r)).cfg.shadow ≠ .staged) (harmed : (partOf s (partArg r)).cfg.shadow ≠ .armed)
  (hlayout : recRingLayout (slice r.words 3 56) < 2) (hok : recordOk (slice r.words 3 56) = true)
  (hclaim : claimStatus s (partArg r) (slice r.words 3 56) = 0) (hfits : Fits s (partArg r) (slice r.words 3 56) b' u)
include hseal hstaged harmed hlayout hok hclaim hfits

/-- A record that passes every check is staged, and its partition is in no failover set (R350). -/
theorem configStage_alone : configStage false r s = reply r 0 [] (modCont (fun c => { c with
    setParts := c.setParts.filter (· != partArg r) }) (staged (partArg r) b' .ready u)) := by
  have hcont : (staged (partArg r) b' .ready u).cont = s.cont := hfits.cont
  obtain ⟨hheld, hfit, hreloc, hu⟩ := hfits.computed
  have hrearmed := modCont_rearmed hcont (s.cont.setParts.filter (· != partArg r))
  simp only [configStage, hseal, hstaged, harmed, Nat.not_le_of_lt hlayout, hok, hheld, hfit, hclaim, hreloc, hu, not_true_eq_false,
    false_and, and_false, Bool.false_eq_true, if_false, ne_eq]
  exact (congrArg (reply r 0 []) hrearmed).trans (by simp only [modCont, hcont])

/-- With FAILOVER it becomes the first half of a set (R350). -/
theorem configStage_half (hset : s.cont.setParts.filter (· != partArg r) = []) :
    configStage true r s = reply r 0 [] (modCont (fun c => { c with setParts := [partArg r], armed := false })
      (staged (partArg r) b' .armed u)) := by
  obtain ⟨hheld, hfit, hreloc, hu⟩ := hfits.computed
  have hhalf : setHalves (modCont (fun c => { c with setParts := [partArg r], armed := false }) (staged (partArg r) b' .armed u)) =
    none := setHalves_of_one rfl
  unfold staged at hhalf
  simp only [configStage, hseal, hstaged, harmed, Nat.not_le_of_lt hlayout, hok, hheld, hfit, hclaim, hreloc, hu, hset, hhalf,
    List.nil_append, not_true_eq_false, false_and, if_false, if_true, ne_eq]
  rfl

end Stage

end Sys2Proof.Machine

namespace Sys2Proof.Claim

open Sys2Proof.Machine

theorem relocate_taken (s : State) (p : Nat) (ws b : List Word) : relocate (taken s) p ws b = relocate s p ws b :=
  relocate_congr (funext fun _ => rfl)

theorem imageFits_taken (s : State) (p : Nat) (ws b : List Word) : imageFits (taken s) p ws b = imageFits s p ws b := by
  simp only [imageFits, relocate_taken]
  rfl

theorem Heads.takeStage {s : State} {m : MbxId} {r : Request} (h : Heads s m 0x0301 r) {failover : Bool}
    (hbit : bitOf (argOf r 0) 0 = failover) : takeStage m failover s = configStage failover r (taken s) := by
  simp only [Machine.takeStage, h.headReq, if_pos hbit, h.takeCmd]

theorem configStaging : ConfigStaging := by
  intro s m r failover b b' sh u hr hbit hb hseal hstaged harmed hlayout hok hclaim himage hplain hsh
  subst hb
  have hfits : Fits (taken s) (partArg r) (slice r.words 3 56) b' u := by
    simp only [Fits, relocate_taken, imageFits_taken]
    exact ⟨himage, hplain⟩
  refine ⟨fun hplain => ?_, fun hfailover hset => ?_⟩
  · subst hplain hsh
    exact congrArg Host.Outcome.next ((hr.takeStage hbit).trans
      (configStage_alone (s := taken s) hseal hstaged harmed hlayout hok hclaim hfits))
  · subst hfailover hsh
    exact congrArg Host.Outcome.next ((hr.takeStage hbit).trans
      (configStage_half (s := taken s) hseal hstaged harmed hlayout hok hclaim hfits hset))

end Sys2Proof.Claim
end

section
/-! PROOFS. Swapping the banks of partitions (R385, R390, R391, R532). -/

namespace Sys2Proof.Machine

/-! What leaves the banks of a partition (R385). -/

/-- Both banks of a partition, which of them is active, and the state of the other. -/
def banksOf (q : Part) : List Word × List Word × Bool × Shadow := (q.cfg.ebb, q.cfg.flood, q.cfg.active, q.cfg.shadow)

/-- The banks of every partition are in `t` as in `s`. -/
structure BanksAs (s t : State) : Prop where
  banks : ∀ p, banksOf (partOf t p) = banksOf (partOf s p)

namespace BanksAs

theorem refl (s : State) : BanksAs s s := ⟨fun _ => rfl⟩

theorem trans {s t u : State} (h : BanksAs s t) (k : BanksAs t u) : BanksAs s u := ⟨fun p => (k.banks p).trans (h.banks p)⟩

theorem of_parts {s t : State} (h : t.parts = s.parts) : BanksAs s t := ⟨fun p => by rw [partOf, h, ← partOf]⟩

theorem modPart {f : Part → Part} (hf : ∀ q, banksOf (f q) = banksOf q) (k : Nat) (s : State) : BanksAs s (modPart k f s) := by
  refine ⟨fun p => ?_⟩
  by_cases hp : k = p
  · subst hp; rw [partOf_modPart, hf]
  · rw [partOf_modPart_ne f s hp]

theorem modCfg {f : PartCfg → PartCfg} (hebb : ∀ c, (f c).ebb = c.ebb) (hflood : ∀ c, (f c).flood = c.flood)
    (hactive : ∀ c, (f c).active = c.active) (hshadow : ∀ c, (f c).shadow = c.shadow) (k : Nat) (s : State) :
    BanksAs s (modCfg k f s) :=
  modPart (f := fun q => { q with cfg := f q.cfg }) (fun q => by simp only [banksOf, hebb, hflood, hactive, hshadow]) k s

theorem cntAdd (p k n : Nat) (s : State) : BanksAs s (cntAdd p k n s) := by
  unfold Machine.cntAdd Machine.modStat
  refine modPart (fun _ => ?_) p s
  rfl

theorem foldl {α : Type} {f : State → α → State} (hf : ∀ t x, BanksAs t (f t x)) (xs : List α) (s : State) :
    BanksAs s (xs.foldl f s) := by
  induction xs generalizing s with
  | nil => exact refl s
  | cons x xs ih => exact (hf s x).trans (ih (f s x))

theorem declareFailed (cause elem : Nat) (s : State) : BanksAs s (declareFailed cause elem s) := of_parts (parts_declareFailed ..)

theorem foldCluster (p c : Nat) (s : State) : BanksAs s (foldCluster p c s) := by
  unfold Machine.foldCluster
  dsimp only
  split
  · exact refl s
  · split
    · exact declareFailed ..
    · refine modCfg (fun _ => ?_) (fun _ => ?_) (fun _ => ?_) (fun _ => ?_) p s <;> rfl

theorem foldAll (p : Nat) (s : State) : BanksAs s (foldAll p s) := by
  refine foldl (fun t c => ?_) _ s
  split
  · split
    · exact declareFailed ..
    · exact foldCluster ..
  · exact refl t

theorem setVfEvent (p b : Nat) (s : State) : BanksAs s (setVfEvent p b s) := by
  unfold Machine.setVfEvent
  dsimp only
  split
  · exact (modPart (f := fun q => { q with vfEvent := q.vfEvent ||| (1#4 <<< b) }) (fun _ => rfl) p s).trans (of_parts (by simp))
  · exact modPart (f := fun q => { q with vfEvent := q.vfEvent ||| (1#4 <<< b) }) (fun _ => rfl) p s

end BanksAs

/-! The swap (R385, R390). -/

/-- The banks of a partition change places, and its state follows (R379, R390). -/
def banksChanged (p : Nat) (s : State) : State :=
  let s1 := modCfg p (fun c => { c with
    active := !c.active, shadow := .ready, linked := [], folded := [], drainNs := s.now - c.stagedAt }) s
  modCfg p (fun c => { c with st := stateWith s1 p }) s1

theorem banksOf_banksChanged (p : Nat) (s : State) : banksOf (partOf (banksChanged p s) p) =
    ((partOf s p).cfg.ebb, (partOf s p).cfg.flood, !(partOf s p).cfg.active, .ready) := by
  simp only [banksChanged, partOf_modCfg, banksOf]

theorem banksAs_swapBank (p : Nat) (s : State) : BanksAs (banksChanged p s) (swapBank p s) := by
  unfold swapBank
  extract_lets q ob nb old new same first warm s1 s2 s3 s3' s4 s5
  have h3 : BanksAs s2 s3 := by
    unfold s3
    split
    · exact .refl s2
    · exact .modPart (f := fun q => { q with fb := { cur := { win := windowOf first }, com := { win := windowOf first } } })
        (fun _ => rfl) p s2
  have h3' : BanksAs s3 s3' := by
    unfold s3'
    split
    · split
      · exact .of_parts rfl
      · exact .refl s3
    · exact .refl s3
  have h4 : BanksAs s3' s4 := .foldl (fun _ _ => .of_parts (by rfl)) _ s3'
  have h5 : BanksAs s4 s5 := (BanksAs.foldAll p s4).trans (.cntAdd ..)
  exact h3.trans (h3'.trans (h4.trans (h5.trans ((BanksAs.of_parts (by simp)).trans (.setVfEvent ..)))))

/-- A partition whose swap is staged alone swaps once none of its steps is in flight (R390). -/
theorem trySwap_alone {p : Nat} {s : State} (hstaged : (partOf s p).cfg.shadow = .staged) (hlinked : (partOf s p).cfg.linked = [p]) :
    trySwap p s = if flying s p = [] then swapBank p s else s := by
  have hdrained : (([p].all fun q => flying s q == []) && flying s p == []) = true ↔ flying s p = [] := by
    rw [List.all_cons, List.all_nil, Bool.and_true, Bool.and_self]
    cases flying s p <;> simp
  unfold trySwap
  dsimp only
  rw [if_neg fun hne => hne hstaged, hlinked]
  split
  · next hnone => rw [if_pos (hdrained.mp hnone), List.foldl_cons, List.foldl_nil]
  · next hsome => rw [if_neg (mt hdrained.mpr hsome)]

/-! config.swap (R390, R391, R532). -/

/-- The swap of the partitions `ps` is staged (R390). -/
def swapStaged (ps : List Nat) (now : Nat) (s : State) : State :=
  ps.foldl (fun t q => modCfg q (fun c => { c with shadow := .staged, linked := ps, stagedAt := now, drained := 0 }) t) s

section Swap
variable {s : State} {r : Request}

theorem configSwap_of_ready (hready : ∀ q ∈ bitmapOf (argOf r 0), (partOf s q).cfg.shadow = .ready)
    (hapart : swapOverlaps s (bitmapOf (argOf r 0)) = false) (hfree : ∀ q ∈ bitmapOf (argOf r 0), swapBlocked s q = false) :
    configSwap r s = ((bitmapOf (argOf r 0)).take 1).foldl (fun t q => trySwap q t)
      (reply r 0 [argOf r 0] (swapStaged (bitmapOf (argOf r 0)) s.now s)) := by
  have harmed : (bitmapOf (argOf r 0)).any (fun q => (partOf s q).cfg.shadow == .armed) = false :=
    List.any_eq_false.mpr fun q hq => by rw [hready q hq]; decide
  have hother : (bitmapOf (argOf r 0)).any (fun q => (partOf s q).cfg.shadow != .ready) = false :=
    List.any_eq_false.mpr fun q hq => by rw [hready q hq]; decide
  have hblocked : (bitmapOf (argOf r 0)).any (swapBlocked s) = false :=
    List.any_eq_false.mpr fun q hq => by rw [hfree q hq]; decide
  simp only [configSwap, harmed, hother, hapart, hblocked, Bool.false_eq_true, or_self, if_false]
  rfl

theorem configSwapCancel_of_staged (hstaged : ∀ q ∈ bitmapOf (argOf r 0), (partOf s q).cfg.shadow = .staged) :
    configSwapCancel r s = reply r 0 [0] (((bitmapOf (argOf r 0)).flatMap fun q => (partOf s q).cfg.linked).eraseDups.foldl
      (fun t q => modCfg q (fun c => { c with shadow := .ready, linked := [] }) t) s) := by
  have hother : (bitmapOf (argOf r 0)).any (fun q => (partOf s q).cfg.shadow != .staged) = false :=
    List.any_eq_false.mpr fun q hq => by rw [hstaged q hq]; decide
  simp only [configSwapCancel, hother, Bool.false_eq_true, if_false]

/-- The swap of one partition: its banks stay, and change places at once when none of its steps is in flight (R390). -/
theorem configSwap_one {p : Nat} (hone : bitmapOf (argOf r 0) = [p]) (hready : (partOf s p).cfg.shadow = .ready)
    (hapart : swapOverlaps s [p] = false) (hfree : swapBlocked s p = false) :
    banksOf (partOf (configSwap r s) p) = ((partOf s p).cfg.ebb, (partOf s p).cfg.flood,
      if flying s p = [] then (!(partOf s p).cfg.active, .ready) else ((partOf s p).cfg.active, .staged)) := by
  have hswap : configSwap r s = trySwap p (reply r 0 [argOf r 0] (swapStaged [p] s.now s)) := by
    rw [configSwap_of_ready (by simpa [hone] using hready) (by rwa [hone]) (by simpa [hone] using hfree), hone]
    rfl
  have hpart : partOf (reply r 0 [argOf r 0] (swapStaged [p] s.now s)) p = { partOf s p with cfg := { (partOf s p).cfg with
      shadow := .staged, linked := [p], stagedAt := s.now, drained := 0 } } := by
    rw [partOf, (HostOnly.reply ..).parts, ← partOf, swapStaged, List.foldl_cons, List.foldl_nil, partOf_modCfg]
  have hflying : flying (reply r 0 [argOf r 0] (swapStaged [p] s.now s)) p = flying s p := by
    rw [flying, flying, hpart]
  rw [hswap, trySwap_alone (by rw [hpart]) (by rw [hpart]), hflying]
  split
  · rw [(banksAs_swapBank ..).banks, banksOf_banksChanged, hpart]
  · rw [hpart]; rfl

end Swap

end Sys2Proof.Machine

namespace Sys2Proof.Claim

open Sys2Proof.Machine

theorem Heads.takeSwap {s : State} {m : MbxId} {r : Request} (h : Heads s m 0x0302 r) {cancel : Bool}
    (hbit : bitOf (argOf r 1) 0 = cancel) (f : Request → State → State) : takeSwap m cancel f s = f r (taken s) := by
  simp only [Machine.takeSwap, h.headReq, if_pos hbit, h.takeCmd]

theorem configSwapping : ConfigSwapping := by
  intro s m r p
  refine ⟨fun hr hbit hready hapart hfree => ?swap, fun hr hbit hone hready hapart hfree => ?one, fun hr hbit hstaged => ?cancel⟩
  case swap =>
    exact congrArg Host.Outcome.next ((hr.takeSwap hbit _).trans (configSwap_of_ready (s := taken s) hready hapart hfree))
  case one =>
    have hbanks := configSwap_one (s := taken s) hone hready hapart hfree
    simp only [banksOf, Prod.mk.injEq] at hbanks
    obtain ⟨hebb, hflood, hswapped⟩ := hbanks
    refine ⟨_, congrArg Host.Outcome.next (hr.takeSwap hbit _), hebb, hflood, fun hnone => ?_, fun hsome => ?_⟩
    · exact Prod.mk.inj (hswapped.trans (if_pos hnone))
    · exact Prod.mk.inj (hswapped.trans (if_neg hsome))
  case cancel =>
    exact congrArg Host.Outcome.next ((hr.takeSwap hbit _).trans (configSwapCancel_of_staged (s := taken s) hstaged))

/-- Settles O17: taking the request changes nothing that the checks read, and what follows a swap leaves the banks as it put them. -/
theorem configurationChanges : Obligations.ConfigurationChanges := ⟨configStaging, configSwapping⟩

end Sys2Proof.Claim
end

section
/-! PROOFS. What leaves the memory tiers and the bond store alone, and what is out of service and stays so (R243, R253, R258, R259, R264,
R267 to R269). -/

namespace Sys2Proof.Machine

/-! Operations that touch neither the tiers nor the bond store. -/

/-- The state of the memory tiers and of the bond store is in `t` as in `s`. -/
structure StoresAs (s t : State) : Prop where
  tiers : t.tiers = s.tiers
  bnd : t.bnd = s.bnd

namespace StoresAs

theorem refl (s : State) : StoresAs s s := ⟨rfl, rfl⟩

theorem trans {s t u : State} (h : StoresAs s t) (k : StoresAs t u) : StoresAs s u := ⟨k.tiers.trans h.tiers, k.bnd.trans h.bnd⟩

theorem foldl {α : Type} {f : State → α → State} (hf : ∀ t x, StoresAs t (f t x)) (xs : List α) (s : State) :
    StoresAs s (xs.foldl f s) := by
  induction xs generalizing s with
  | nil => exact refl s
  | cons x xs ih => exact (hf s x).trans (ih (f s x))

theorem logPkg (code : Nat) (fault : Bool) (w4 w5 : Nat) (s : State) : StoresAs s (logPkg code fault w4 w5 s) :=
  ⟨by simp, by simp⟩

theorem logEvent (code : Nat) (fault : Bool) (part op step w4 w5 : Nat) (s : State) :
    StoresAs s (logEvent code fault part op step w4 w5 s) := ⟨by simp, by simp⟩

theorem setVfEvent (p b : Nat) (s : State) : StoresAs s (setVfEvent p b s) := ⟨by simp, by simp⟩

theorem reply (r : Request) (status : Nat) (body : List Word) (s : State) : StoresAs s (reply r status body s) :=
  ⟨by simp, by simp⟩

theorem modSlot (p i : Nat) (f : SeqSlot → SeqSlot) (s : State) : StoresAs s (modSlot p i f s) := ⟨rfl, rfl⟩

theorem putStream (x : SrcStream) (s : State) : StoresAs s (putStream x s) := ⟨rfl, rfl⟩

theorem modFab (f : Fabric → Fabric) (s : State) : StoresAs s (modFab f s) := ⟨rfl, rfl⟩

theorem modHm (f : Hm → Hm) (s : State) : StoresAs s (modHm f s) := ⟨rfl, rfl⟩

theorem modHealth (f : Health → Health) (s : State) : StoresAs s (modHealth f s) := ⟨rfl, rfl⟩

theorem modPins (f : Pins → Pins) (s : State) : StoresAs s (modPins f s) := ⟨rfl, rfl⟩

theorem modKv (p : Nat) (f : Kv → Kv) (s : State) : StoresAs s (modKv p f s) := ⟨rfl, rfl⟩

theorem portsIdle (s : State) : StoresAs s (portsIdle s) := ⟨rfl, rfl⟩

theorem setSticky (b : Nat) (s : State) : StoresAs s (setSticky b s) := ⟨rfl, rfl⟩

theorem totAdd (k n : Nat) (s : State) : StoresAs s (totAdd k n s) := ⟨rfl, rfl⟩

theorem cntAdd (p k n : Nat) (s : State) : StoresAs s (cntAdd p k n s) := ⟨rfl, rfl⟩

theorem transmit (plane dst attempt : Nat) (h : List Word) (data : List Byte) (s : State) :
    StoresAs s (transmit plane dst attempt h data s) := by
  unfold Machine.transmit portSend
  dsimp only
  split
  · exact refl s
  · split <;> exact ⟨rfl, rfl⟩

theorem sendHeartbeat (s : State) : StoresAs s (sendHeartbeat s) := by
  unfold Machine.sendHeartbeat
  split
  · exact refl s
  · exact (foldl (fun t d => foldl (fun t p => transmit ..) _ t) _ s).trans (modFab ..)

theorem declareFailed (cause elem : Nat) (s : State) : StoresAs s (declareFailed cause elem s) := by
  unfold Machine.declareFailed
  split
  · exact refl s
  · exact (logPkg ..).trans ((modHm ..).trans ((sendHeartbeat _).trans ((portsIdle _).trans ((setSticky ..).trans (modPins ..)))))

theorem checkSet (s : State) : StoresAs s (checkSet s) := by
  unfold Machine.checkSet
  split
  · exact refl s
  · split
    · exact declareFailed ..
    · exact refl s

theorem standbyLost (cause : Nat) (s : State) : StoresAs s (standbyLost cause s) := by
  unfold Machine.standbyLost
  split
  · exact refl s
  · split
    · exact refl s
    · exact (modHm ..).trans (logPkg ..)

/-- A repair is entered in the record (R370). -/
theorem recordRepair (kind elem detail : Nat) (s : State) : StoresAs s (recordRepair kind elem detail s) := by
  unfold Machine.recordRepair
  extract_lets s1
  have h1 : StoresAs s s1 := ⟨rfl, rfl⟩
  clear_value s1
  refine h1.trans ?_
  split
  · exact refl s1
  · split
    · exact ⟨rfl, rfl⟩
    · split
      · exact refl s1
      · exact (modHealth ..).trans (logPkg ..)

/-! A request that this package sends (R320). -/

theorem sendNow (plane dst job : Nat) (r : OutReq) (s : State) : StoresAs s (sendNow plane dst job r s) :=
  (putStream ..).trans (transmit ..)

theorem streamPump (home dst job fuel : Nat) (s : State) : StoresAs s (streamPump home dst job fuel s) := by
  induction fuel generalizing s with
  | zero => exact refl s
  | succ fuel ih =>
    unfold Machine.streamPump
    dsimp only
    split
    · exact refl s
    · split
      · exact refl s
      · exact (putStream ..).trans ((sendNow ..).trans (ih _))

theorem issue (plane dst job op subop : Nat) (part : Option Nat) (rel : Option (Nat × Nat)) (addr len : Nat) (data : List Byte)
    (s : State) : StoresAs s (issue plane dst job op subop part rel addr len data s).2 := by
  unfold Machine.issue issueKeep
  dsimp only
  split
  · split <;> exact ⟨rfl, rfl⟩
  · refine StoresAs.trans ?_ ((putStream ..).trans (streamPump ..))
    split <;> exact ⟨rfl, rfl⟩

theorem pairSend (dst subop : Nat) (rel : Option (Nat × Nat)) (data : List Byte) (s : State) :
    StoresAs s (pairSend dst subop rel data s).2 := by
  unfold Machine.pairSend
  split
  · exact refl s
  · exact issue ..

/-! Sequences that are lost or must leave (R193, R195). -/

theorem markLost (p slot : Nat) (s : State) : StoresAs s (markLost p slot s) := by
  refine StoresAs.trans ?_ (foldl (fun t i => modSlot ..) _ _)
  rw [answerMates_eq]
  exact foldl (fun t i => (modSlot ..).trans (foldl (fun u r => reply ..) _ _)) _ s

theorem pageUnfetched (p slot i : Nat) (s : State) : StoresAs s (pageUnfetched p slot i s) :=
  (markLost ..).trans ((logEvent ..).trans (setVfEvent ..))

theorem takeVictim (p step v : Nat) (s : State) : StoresAs s (takeVictim p step v s) := by
  have hswap : StoresAs s (startSwap p v none s) := (modSlot ..).trans (foldl (fun t i => modSlot ..) _ _)
  exact hswap.trans ((cntAdd ..).trans ((logEvent ..).trans (setVfEvent ..)))

end StoresAs

/-! What is out of service stays so. -/

/-- The pseudo-channels, rows and frames that are out of service in `s` are so in `t` (R267 to R269). -/
structure StaysOut (s t : State) : Prop where
  pcs : s.tiers.pcsOut ⊆ t.tiers.pcsOut
  rows : s.tiers.rowsOut ⊆ t.tiers.rowsOut
  frames : s.tiers.framesOut ⊆ t.tiers.framesOut

namespace StaysOut

theorem refl (s : State) : StaysOut s s := ⟨.refl _, .refl _, .refl _⟩

theorem trans {s t u : State} (h : StaysOut s t) (k : StaysOut t u) : StaysOut s u :=
  ⟨List.Subset.trans h.pcs k.pcs, List.Subset.trans h.rows k.rows, List.Subset.trans h.frames k.frames⟩

/-- A change of the tiers that leaves what is out of service. -/
theorem of_same {s t : State} (hpcs : t.tiers.pcsOut = s.tiers.pcsOut) (hrows : t.tiers.rowsOut = s.tiers.rowsOut)
    (hframes : t.tiers.framesOut = s.tiers.framesOut) : StaysOut s t := by
  constructor
  · rw [hpcs]; exact .refl _
  · rw [hrows]; exact .refl _
  · rw [hframes]; exact .refl _

theorem of_stores {s t : State} (h : StoresAs s t) : StaysOut s t := by
  obtain ⟨htiers, -⟩ := h
  exact of_same (by rw [htiers]) (by rw [htiers]) (by rw [htiers])

theorem modTiers {f : Tiers → Tiers} (hpcs : ∀ t, (f t).pcsOut = t.pcsOut) (hrows : ∀ t, (f t).rowsOut = t.rowsOut)
    (hframes : ∀ t, (f t).framesOut = t.framesOut) (s : State) : StaysOut s (modTiers f s) :=
  of_same (hpcs _) (hrows _) (hframes _)

theorem foldl {α : Type} {f : State → α → State} (hf : ∀ t x, StaysOut t (f t x)) (xs : List α) (s : State) :
    StaysOut s (xs.foldl f s) := by
  induction xs generalizing s with
  | nil => exact refl s
  | cons x xs ih => exact (hf s x).trans (ih (f s x))

/-! Data that is fetched again (R253, R264, R266). -/

theorem addRefetch (r : Refetch) (s : State) : StaysOut s (addRefetch r s) := by
  unfold Machine.addRefetch
  split
  · exact refl s
  · exact of_same rfl rfl rfl

theorem dropFetch (s : State) : StaysOut s (dropFetch s) := by
  unfold Machine.dropFetch
  split
  · exact refl s
  · exact of_same rfl rfl rfl

theorem sendFetch (fuel : Nat) (s : State) : StaysOut s (sendFetch fuel s) := by
  induction fuel generalizing s with
  | zero => exact refl s
  | succ fuel ih =>
    unfold Machine.sendFetch
    split
    · exact refl s
    · extract_lets q
      have hsent : StoresAs s q.2 := by
        unfold q
        split
        · exact .pairSend ..
        · exact .refl s
      split
      · exact of_stores hsent
      · exact (of_stores (.pageUnfetched ..)).trans ((dropFetch _).trans (ih _))

theorem kvPageLost (p slot table i : Nat) (s : State) : StaysOut s (kvPageLost p slot table i s) := by
  unfold Machine.kvPageLost
  split
  · exact refl s
  · extract_lets first s1
    have h1 : StaysOut s s1 := (addRefetch ..).trans (of_same rfl rfl rfl)
    clear_value s1
    split
    · exact h1.trans (sendFetch ..)
    · exact h1

theorem refetchRange (p : Nat) (st : Stage) (off n : Nat) (s : State) : StaysOut s (refetchRange p st off n s) :=
  foldl (fun _ _ => addRefetch ..) _ s

theorem refetchPc (pc : Nat) (s : State) : StaysOut s (refetchPc pc s) := by
  unfold Machine.refetchPc
  extract_lets s1 s2
  have h1 : StaysOut s s1 := of_same rfl rfl rfl
  have h2 : StaysOut s1 s2 := foldl (fun t st => foldl (fun u a => refetchRange ..) _ t) _ s1
  exact h1.trans (h2.trans (foldl (fun t q => kvPageLost ..) _ s2))

/-! Frames that are recovered (R259). -/

theorem gain (n : Nat) (s : State) : StaysOut s (gain n s) := of_same rfl rfl rfl

theorem takeKv (s : State) : StaysOut s (takeKv s) := by
  refine foldl (fun t p => ?_) _ s
  dsimp only
  split
  · exact refl t
  · exact of_same rfl rfl rfl

theorem takeCache (slot : Nat) (s : State) : StaysOut s (takeCache slot s) := by
  unfold Machine.takeCache
  split
  · exact refl s
  · dsimp only
    split
    · exact refl s
    · exact of_same rfl rfl rfl

theorem takeCold (slot fuel : Nat) (s : State) : StaysOut s (takeCold slot fuel s) := by
  induction fuel generalizing s with
  | zero => exact refl s
  | succ fuel ih =>
    unfold Machine.takeCold
    split
    · exact refl s
    · dsimp only
      split
      · exact refl s
      · refine StaysOut.trans ?_ (ih _)
        exact of_same rfl rfl rfl

theorem takePages (fuel : Nat) (s : State) : StaysOut s (takePages fuel s) := by
  induction fuel generalizing s with
  | zero => exact refl s
  | succ fuel ih =>
    unfold Machine.takePages
    dsimp only
    split
    · exact refl s
    · split
      · exact refl s
      · exact (of_stores (.takeVictim ..)).trans ((of_stores (.modKv ..)).trans ((gain ..).trans (ih _)))

theorem recoverAll (s : State) : StaysOut s (recoverAll s) :=
  (takeKv s).trans ((foldl (fun _ _ => takeCache ..) _ _).trans ((foldl (fun _ _ => takeCold ..) _ _).trans (takePages ..)))

theorem recoverFrames (die : Nat) (s : State) : StaysOut s (recoverFrames die s) := by
  unfold Machine.recoverFrames
  dsimp only
  split
  · exact (recoverAll s).trans (of_same rfl rfl rfl)
  · refine (recoverAll s).trans (StaysOut.trans ?_ (of_stores ((StoresAs.logPkg ..).trans (.declareFailed ..))))
    exact of_same rfl rfl rfl

/-! Frames that move and frames that leave (R268, R269). -/

theorem releaseKv (die : Nat) (s : State) : StaysOut s (releaseKv die s) := of_same rfl rfl rfl

theorem moveFrame (die f : Nat) (s : State) : StaysOut s (moveFrame die f s) := by
  unfold Machine.moveFrame
  dsimp only
  split
  · exact refl s
  · split
    · exact of_same rfl rfl rfl
    · have hrecovered : StaysOut s (Machine.releaseKv die (Machine.recoverFrames die s)) :=
        (recoverFrames die s).trans (releaseKv ..)
      split
      · exact hrecovered.trans (of_same rfl rfl rfl)
      · exact hrecovered

theorem withdrawLast (die : Nat) (s : State) : StaysOut s (withdrawLast die s) := foldl (fun _ _ => moveFrame ..) _ s

end StaysOut

/-- A frame is marked as withdrawn (R269). -/
def frameMarked (die f : Nat) (s : State) : State := modTiers (fun t => { t with framesOut := t.framesOut ++ [(die, f)] }) s

/-- A frame that is withdrawn is out of service, and everything that was is so still (R269). -/
theorem withdrawFrame_out (die f : Nat) (s : State) :
    (die, f) ∈ (withdrawFrame die f s).tiers.framesOut ∧ StaysOut s (withdrawFrame die f s) := by
  unfold withdrawFrame
  split
  · next hout => exact ⟨hout, .refl s⟩
  · have hmarked : StaysOut s (frameMarked die f s) := ⟨.refl _, .refl _, List.subset_append_left ..⟩
    have hrest := (StaysOut.moveFrame die f (frameMarked die f s)).trans (StaysOut.recoverFrames die _)
    exact ⟨hrest.frames (List.mem_append_right _ List.mem_cons_self), hmarked.trans hrest⟩

/-- A pseudo-channel is marked as retired; its rows are no longer watched (R268). -/
def pcMarked (pc : Nat) (s : State) : State :=
  modTiers (fun x => { x with
    pcsOut := x.pcsOut ++ [pc]
    repairs := x.repairs.filter fun r => r.pc != pc
    rowErrs := x.rowErrs.filter fun r => r.1 != pc }) s

/-- One pseudo-channel is retired (R268). -/
def pcRetired (pc : Nat) (s : State) : State :=
  recordRepair 6 pc 0 (logPkg 0x0803 true pc 384 (totAdd (tMemory + 2) 1 (withdrawLast (pc / 128) (pcMarked pc (refetchPc pc s)))))

theorem retirePcs_eq (pcs : List Nat) (s : State) :
    retirePcs pcs s = pcs.foldl (fun t pc => if pc ∈ t.tiers.pcsOut then t else pcRetired pc t) s := rfl

theorem pcRetired_out (pc : Nat) (s : State) : pc ∈ (pcRetired pc s).tiers.pcsOut ∧ StaysOut s (pcRetired pc s) := by
  have hmarked : StaysOut (refetchPc pc s) (pcMarked pc (refetchPc pc s)) := ⟨List.subset_append_left .., .refl _, .refl _⟩
  have hrest : StaysOut (pcMarked pc (refetchPc pc s)) (pcRetired pc s) :=
    (StaysOut.withdrawLast (pc / 128) _).trans (.of_stores ((StoresAs.totAdd ..).trans ((StoresAs.logPkg ..).trans (.recordRepair ..))))
  exact ⟨hrest.pcs (List.mem_append_right _ List.mem_cons_self), (StaysOut.refetchPc pc s).trans (hmarked.trans hrest)⟩

theorem StaysOut.retirePcs (pcs : List Nat) (s : State) : StaysOut s (retirePcs pcs s) := by
  rw [retirePcs_eq]
  refine foldl (fun t pc => ?_) _ s
  split
  · exact .refl t
  · exact (pcRetired_out pc t).2

/-- A pseudo-channel that is retired is out of service, and everything that was is so still (R268). -/
theorem retirePc_out (pc : Nat) (s : State) : pc ∈ (retirePc pc s).tiers.pcsOut ∧ StaysOut s (retirePc pc s) := by
  unfold retirePc
  split
  · next hout => exact ⟨hout, .refl s⟩
  · next hin =>
    extract_lets s1 stack s2
    have h1 : pc ∈ s1.tiers.pcsOut ∧ StaysOut s s1 := by
      have hone : s1 = pcRetired pc s := if_neg hin
      rw [hone]
      exact pcRetired_out pc s
    have h2 : StaysOut s1 s2 := by
      unfold s2
      split
      · have hstack := StaysOut.retirePcs ((List.range 32).map fun i => 32 * stack + i) s1
        refine (hstack.trans ?_).trans (.of_stores (.checkSet _))
        refine .modTiers (fun _ => ?_) (fun _ => ?_) (fun _ => ?_) _ <;> rfl
      · exact .refl s1
    have hrest := h2.trans (StaysOut.recoverFrames (pc / 128) s2)
    exact ⟨hrest.pcs h1.1, h1.2.trans hrest⟩

end Sys2Proof.Machine
end

section
/-! PROOFS. Errors and repairs in HBM and in the bond store (R263 to R269, R284, R285, R298). -/

namespace Sys2Proof.Machine

/-! Rows of HBM (R267, R268). -/

/-- A row with an error is under repair, and fewer than 33 of them retire nothing. -/
theorem rowError_few {pc row : Nat} {s : State} (hin : pc ∉ s.tiers.pcsOut)
    (hfew : (s.tiers.rowErrs.filter fun r => r.1 == pc).length < 32) :
    (rowError pc row s).tiers.repairs.any (fun r => r.pc == pc && r.row == row) = true ∧ (rowError pc row s).x = s.x := by
  have hkept (q : Nat × Nat × Nat → Bool) : ((s.tiers.rowErrs.filter q).filter fun r => r.1 == pc).length ≤
      (s.tiers.rowErrs.filter fun r => r.1 == pc).length := (List.filter_sublist.filter _).length_le
  unfold rowError
  rw [if_neg hin]
  extract_lets now s1
  have hcount : ¬ 32 < (s1.tiers.rowErrs.filter fun r => r.1 == pc).length := by
    have hone : ([(pc, row, now)].filter fun r : Nat × Nat × Nat => r.1 == pc).length ≤ 1 := List.length_filter_le ..
    have hle := hkept fun r => decide (now ≤ r.2.2 + 3600) && !(r.1 == pc && r.2.1 == row)
    simp only [s1, modTiers, List.filter_append, List.length_append]
    omega
  rw [if_neg hcount]
  refine ⟨?_, rfl⟩
  simp only [s1, modTiers]
  split
  · next hany => exact hany
  · simp

theorem rowRepaired_of_none {i : Nat} {s : State} (h : s.tiers.repairs.length ≤ i) (spare : Bool) : rowRepaired i spare s = s := by
  simp only [rowRepaired, List.getElem?_eq_none h]

/-- A row for which no spare is left leaves service with its frame (R267, R269). -/
theorem rowRepaired_retired {i : Nat} {r : RowRepair} {s : State} (h : s.tiers.repairs[i]? = some r) :
    (r.pc, r.row) ∈ (rowRepaired i false s).tiers.rowsOut ∧
      (r.pc / 128, r.row / 16) ∈ (rowRepaired i false s).tiers.framesOut := by
  simp only [rowRepaired, h, Bool.false_eq_true, if_false]
  generalize hs2 : modTiers (fun t => { t with rowsOut := t.rowsOut ++ [(r.pc, r.row)] })
    (modTiers (fun t => { t with repairs := t.repairs.eraseIdx i }) s) = s2
  have hrow : (r.pc, r.row) ∈ s2.tiers.rowsOut := hs2 ▸ List.mem_append_right _ List.mem_cons_self
  have hnoted : StaysOut s2 (recordRepair 5 r.pc r.row (logPkg 0x0802 false r.pc 1 (totAdd (tMemory + 1) 1 s2))) :=
    .of_stores ((StoresAs.totAdd ..).trans ((StoresAs.logPkg ..).trans (.recordRepair ..)))
  obtain ⟨hframe, hstays⟩ := withdrawFrame_out (r.pc / 128) (r.row / 16)
    (recordRepair 5 r.pc r.row (logPkg 0x0802 false r.pc 1 (totAdd (tMemory + 1) 1 s2)))
  exact ⟨(hnoted.trans hstays).rows hrow, hframe⟩

/-- What is marked in a list is no longer there unmarked. -/
theorem notMem_map_replace {α : Type} [DecidableEq α] {a b : α} (hab : b ≠ a) (xs : List α) :
    a ∉ xs.map fun x => if x = a then b else x := by
  rw [List.mem_map]
  rintro ⟨x, -, hx⟩
  by_cases hxa : x = a
  · exact hab (by rwa [if_pos hxa] at hx)
  · exact hxa (by rwa [if_neg hxa] at hx)

/-! Frames that move (R266, R269). -/

section Move
variable {i : Nat} {m : FrameMove} {s : State} (h : s.tiers.moves[i]? = some m)
include h

theorem frameMoved_done (hfree : ∀ x ∈ s.tiers.frames, x.die = m.die → x.phys = m.fromF → frameFetching s x = false) :
    frameMoved i s = modTiers (fun t => { t with
      moves := t.moves.eraseIdx i
      frames := t.frames.map fun x => if x.die = m.die ∧ x.phys = m.fromF then { x with phys := m.toF } else x }) s := by
  have hnone : (s.tiers.frames.filter fun x => x.die == m.die && x.phys == m.fromF).any (frameFetching s) = false := by
    simpa [List.any_eq_false] using hfree
  simp only [frameMoved, h, hnone, Bool.false_eq_true, if_false, Bool.and_eq_true, beq_iff_eq]

theorem frameMoved_waits (hbusy : ∃ x ∈ s.tiers.frames, x.die = m.die ∧ x.phys = m.fromF ∧ frameFetching s x = true) :
    frameMoved i s = s := by
  have hsome : (s.tiers.frames.filter fun x => x.die == m.die && x.phys == m.fromF).any (frameFetching s) = true := by
    simpa [List.any_eq_true, and_assoc] using hbusy
  simp only [frameMoved, h, hsome, if_true]

end Move

theorem frameMoved_of_none {i : Nat} {s : State} (h : s.tiers.moves.length ≤ i) : frameMoved i s = s := by
  simp only [frameMoved, List.getElem?_eq_none h]

/-! Units that are fetched again (R266). -/

/-- The slot of the wheel is used and the re-fetch is off the list (R254, R266). -/
def refetchTaken (i : Nat) (s : State) : State := modTiers (fun t => { t with refetch := t.refetch.eraseIdx i }) (turnWheel s)

section Refetch
variable {i : Nat} {r : Refetch} {s : State} (h : s.tiers.refetch[i]? = some r)
include h

theorem refetchDone_ready (hready : refetchReady s r = true) (hpick : wheelPick s = some clRepair) :
    refetchDone i s = cntAdd r.part (cMemory + 7) 1 (rewriteUnit r.addr (refetchTaken i s)) := by
  simp only [refetchDone, h, hready, hpick, not_true_eq_false, ne_eq, or_self, if_false, refetchTaken]

theorem refetchDone_waits (hwait : refetchReady s r = false ∨ wheelPick s ≠ some clRepair) : refetchDone i s = s := by
  have hwait' : ¬ refetchReady s r = true ∨ wheelPick s ≠ some clRepair := hwait.imp_left Bool.eq_false_iff.mp
  simp only [refetchDone, h, if_pos hwait']

end Refetch

theorem rewriteUnit_some {addr off shard : Nat} {st : Stage} {bs : List Byte} {s : State}
    (h : unitOfAddr s addr = some (st, off, shard, bs)) : rewriteUnit addr s = fillStage st off bs s := by
  simp only [rewriteUnit, h]

theorem rewriteUnit_none {addr : Nat} {s : State} (h : unitOfAddr s addr = none) : rewriteUnit addr s = s := by
  simp only [rewriteUnit, h]

/-- Writing a unit leaves the list of re-fetches and the wheel. -/
theorem tiers_rewriteUnit (addr : Nat) (s : State) : (rewriteUnit addr s).tiers.refetch = s.tiers.refetch ∧
    (rewriteUnit addr s).tiers.wheel = s.tiers.wheel := by
  unfold rewriteUnit
  split
  · exact ⟨rfl, rfl⟩
  · exact ⟨rfl, rfl⟩

/-! The patrol scrub (R298). -/

/-- A pass with an installed shard left goes on. -/
theorem scrubEnd_of_more {s : State} {y : Nat} (hy : y ∈ s.bnd.bitmap) (hat : s.bnd.scrubAt ≤ y) : scrubEnd s = s := by
  have hsome : (scrubNext s).isSome = true := by
    rw [Option.isSome_iff_ne_none, scrubNext, Ne, List.min?_eq_none_iff]
    exact List.ne_nil_of_mem (List.mem_filter.mpr ⟨hy, decide_eq_true hat⟩)
  rw [scrubEnd, if_pos hsome]

theorem lost_scrubEnd (s : State) : (scrubEnd s).bnd.lost = s.bnd.lost := by
  unfold scrubEnd
  split
  · rfl
  · simp

/-- A shard that cannot be had again is lost (R264, R287). -/
theorem mem_lost_shardGone (x n : Nat) (s : State) : x ∈ (shardGone x n s).bnd.lost := by
  unfold shardGone
  extract_lets mf s1
  have h1 : x ∈ s1.bnd.lost := by
    have hbnd : s1.bnd = { s.bnd with
        rebuilds := s.bnd.rebuilds.filter fun r => r.shard != x
        lost := if x ∈ s.bnd.lost then s.bnd.lost else s.bnd.lost ++ [x] } := (StoresAs.logPkg ..).bnd
    rw [hbnd]
    dsimp only
    split
    · next hlost => exact hlost
    · exact List.mem_append_right _ List.mem_cons_self
  clear_value s1
  split
  · exact h1
  · split
    · rwa [(StoresAs.declareFailed ..).bnd]
    · rwa [(StoresAs.standbyLost ..).bnd]

/-- A shard that the scrub has read is counted, and the pass is past it (R298). -/
def scrubRead (fails : PageFails) (x : Nat) (s : State) : State :=
  totAdd (tBond + 6) 1 (totAdd (tBond + 1) (fails.filter fun f => f.2).length (totAdd tBond fails.length
    (modBnd (fun b => { b with scrubAt := x + 1, scrubOk := b.scrubOk + 1 }) s)))

section Scrub
variable {fails : PageFails} {x : Nat} {s : State} (h : scrubNext s = some x)
include h

theorem scrubShard_shut (hshut : scrubOpen s = false) : scrubShard fails s = s := by
  simp only [scrubShard, h, hshut, Bool.false_eq_true, not_false_eq_true, if_true]

theorem scrubShard_good (hopen : scrubOpen s = true) (hpages : ∀ f ∈ fails, f.2 = false)
    (hwhole : wordsOfBytes (sha256 (memRead s.x.bond (shardFlat x) (shBytes s.bnd.manifest x))) = shHash s.bnd.manifest x) :
    scrubShard fails s = scrubEnd (scrubRead fails x s) := by
  have hbad : (fails.filter fun f => f.2).length = 0 := by simpa using hpages
  simp only [scrubShard, h, hopen, hbad, hwhole, or_true, and_self, not_true_eq_false, if_false, if_true, scrubRead]

theorem scrubShard_bad (hopen : scrubOpen s = true) (hpage : ∃ f ∈ fails, f.2 = true) :
    scrubShard fails s = scrubEnd (startRebuild x true (scrubRead fails x s)) := by
  have hbad : (fails.filter fun f => f.2).length ≠ 0 := by simpa using hpage
  simp only [scrubShard, h, hopen, hbad, false_and, not_true_eq_false, if_false, scrubRead]

end Scrub

theorem startRebuild_unstriped {x : Nat} {s : State} (hheld : shardHeld s x = false) (hflat : mfStriped s.bnd.manifest = false)
    (scrub : Bool) : startRebuild x scrub s = shardGone x 1 s := by
  simp only [startRebuild, hheld, hflat, Bool.false_eq_true, not_false_eq_true, if_true, if_false]

/-! Peers that are silent (R285). -/

theorem peerTimeout_of_none {s : State} (h : s.bnd.rebuilds = []) : peerTimeout s = s := by
  simp only [peerTimeout, h]

theorem peerTimeout_silent {r : Rebuild} {rest : List Rebuild} {m : Nat} {s : State} (h : s.bnd.rebuilds = r :: rest)
    (hm : r.asked.find? (fun m => !(decide (m ∈ r.failed)) && (tget r.got m).isNone) = some m) :
    peerTimeout s = runRebuilds (modFirst (fun r => { r with
      failed := r.failed ++ [m], pieces := terase r.pieces m }) s) := by
  have hsilent := List.find?_some hm
  simp only [Bool.and_eq_true, Bool.not_eq_true', decide_eq_false_iff_not] at hsilent
  have hcounts : m ∈ r.asked ∧ m ∉ r.failed ∧ (tget r.got m).isNone = true := ⟨List.mem_of_find?_eq_some hm, hsilent⟩
  simp only [peerTimeout, h, hm, memberFails, if_pos hcounts]

end Sys2Proof.Machine

namespace Sys2Proof.Claim

open Sys2Proof.Machine

/-- Settles O59: each event takes one branch of its own operation; what is out of service stays so, whatever recovers its room. -/
theorem memoryRepairs : Obligations.MemoryRepairs := by
  intro s pc row lost
  refine ⟨rfl, rfl, rfl, rowError_few, fun p addr len => rfl, fun i r hr => ⟨?spare, _, rfl, rowRepaired_retired hr⟩,
    fun i spare hi => congrArg Host.Outcome.next (rowRepaired_of_none hi spare), ⟨_, rfl, ?trained⟩,
    fun i m hm => ⟨fun hfree => congrArg Host.Outcome.next (frameMoved_done hm hfree),
      fun hbusy => congrArg Host.Outcome.next (frameMoved_waits hm hbusy)⟩,
    fun i hi => congrArg Host.Outcome.next (frameMoved_of_none hi),
    fun i r hr => ⟨fun hready hpick => ⟨_, congrArg Host.Outcome.next (refetchDone_ready hr hready hpick), ?refetched⟩,
      fun hwait => congrArg Host.Outcome.next (refetchDone_waits hr hwait)⟩,
    fun fails x hx => ⟨fun hshut => congrArg Host.Outcome.next (scrubShard_shut hx hshut),
      fun hopen hpages hwhole hmore => ⟨_, congrArg Host.Outcome.next (scrubShard_good hx hopen hpages hwhole), ?scrubbed⟩,
      fun hopen hpage hheld hflat => ⟨_, congrArg Host.Outcome.next (scrubShard_bad hx hopen hpage), ?gone⟩⟩,
    fun hnone => congrArg Host.Outcome.next (peerTimeout_of_none hnone),
    fun r rest m hrebuilds hm => congrArg Host.Outcome.next (peerTimeout_silent hrebuilds hm)⟩
  case spare =>
    refine congrArg Host.Outcome.next ?_
    simp only [rowRepaired, hr, if_true]
  case trained =>
    obtain ⟨hpc, hstays⟩ := retirePc_out pc.val s
    exact ⟨hpc, notMem_map_replace (by simp) _, hstays.pcs⟩
  case refetched =>
    obtain ⟨hlist, hwheel⟩ := tiers_rewriteUnit r.addr (refetchTaken i s)
    refine ⟨hlist, hwheel, fun st off shard bs hunit => ?_, fun hunit => ?_⟩
    · rw [rewriteUnit_some (s := refetchTaken i s) hunit]
      rfl
    · rw [rewriteUnit_none (s := refetchTaken i s) hunit]
      rfl
  case scrubbed =>
    obtain ⟨y, hy, hxy⟩ := hmore
    rw [scrubEnd_of_more (s := scrubRead fails x s) hy hxy]
    exact ⟨rfl, rfl, rfl, rfl⟩
  case gone =>
    rw [lost_scrubEnd, startRebuild_unstriped (s := scrubRead fails x s) hheld hflat]
    exact mem_lost_shardGone ..

end Sys2Proof.Claim
end

section
/-! PROOFS. Installation of weights (R280, R284, R289 to R292). -/

namespace Sys2Proof.Machine

/-! The bytes that an installation writes (R297). -/

/-- Crossing a write threshold is an event: what is installed stays as it is. -/
@[simp] theorem crossings_frame (s : State) : (crossings s).x.bond = s.x.bond ∧ (crossings s).x.hbm = s.x.hbm ∧
    (crossings s).parts = s.parts ∧ (crossings s).bnd.manifest = s.bnd.manifest ∧ (crossings s).bnd.bitmap = s.bnd.bitmap := by
  unfold crossings
  extract_lets s1
  have hinstall : s1.x.bond = s.x.bond ∧ s1.x.hbm = s.x.hbm ∧ s1.parts = s.parts ∧ s1.bnd.manifest = s.bnd.manifest ∧
      s1.bnd.bitmap = s.bnd.bitmap := by
    unfold s1
    split <;> simp
  split
  · simpa using hinstall
  · exact hinstall

/-- Written bytes are counted; what is installed stays as it is. -/
@[simp] theorem countWritten_frame (n : Nat) (s : State) : (countWritten n s).x.bond = s.x.bond ∧
    (countWritten n s).x.hbm = s.x.hbm ∧ (countWritten n s).parts = s.parts ∧
    (countWritten n s).bnd.manifest = s.bnd.manifest ∧ (countWritten n s).bnd.bitmap = s.bnd.bitmap := by
  simp [countWritten]

/-! The sub-commands of weights.install (R289 to R292). -/

section Sub
variable {r : Request} {s : State}

theorem weightsBegin_shut (hshut : installState s = false) (dma : Option (List Word)) :
    weightsBegin dma r s = reply r 0x0902 [] s := if_pos (Bool.not_eq_true _ ▸ hshut)

/-- A manifest that passes its checks is taken: every stripe is to come, and the state of the one before it is forgotten. -/
theorem weightsBegin_good {all : List Word} (hopen : installState s = true) (hwear : overInstall s = false)
    (hsize : (argOf r 3).toNat ≤ 2 ^ 26) (hdma : dmaOpen s (dmaFn r) = true) (hnone : s.bnd.st = .none)
    (hgood : manifestStatus s (argOf r 3).toNat (all.take ((argOf r 3).toNat / 4)) = 0) :
    weightsBegin (some all) r s = reply r 0 [] (countWritten (2 * (argOf r 3).toNat) (modBnd (fun b => { b with
      manifest := all.take ((argOf r 3).toNat / 4), st := openedOrDone (all.take ((argOf r 3).toNat / 4)), bitmap := []
      rebuilds := [], lost := [], scrubAt := 0, scrubOk := 0, scrubBad := 0, tagsDiffer := [] }) (countRead (argOf r 3).toNat s))) := by
  have hsize' : ¬ 2 ^ 26 < (argOf r 3).toNat := Nat.not_lt_of_le hsize
  simp only [weightsBegin, hopen, hwear, if_neg hsize', hdma, hnone, hgood, not_true_eq_false, Bool.false_eq_true, reduceCtorEq,
    false_and, ne_eq, if_false]

/-- The bytes of a stripe stand in its place, and are counted (R289, R297). -/
def stripeWritten (x : Nat) (data : List Byte) (s : State) : State :=
  countWritten data.length (totAdd (tBond + 7) data.length (bondWriteFlat (shardFlat x) data (countRead data.length s)))

theorem stripeWritten_frame (x : Nat) (data : List Byte) (s : State) :
    (stripeWritten x data s).x.bond = memWrite s.x.bond (shardFlat x) data ∧ (stripeWritten x data s).x.hbm = s.x.hbm ∧
    (stripeWritten x data s).parts = s.parts ∧ (stripeWritten x data s).bnd.manifest = s.bnd.manifest ∧
    (stripeWritten x data s).bnd.bitmap = s.bnd.bitmap := by
  simp [stripeWritten]

section Stripe
variable {x : Nat} {data : List Byte} (hx : x = fld (argOf r 1) 0 24) (hopen : installState s = true)
  (hwear : overInstall s = false) (hst : s.bnd.st = .opened) (hlt : x < mfStripes s.bnd.manifest)
  (hlen : data.length = shBytes s.bnd.manifest x) (hbytes : (argOf r 4).toNat = data.length) (hnew : x ∉ s.bnd.bitmap)
  (hkind : shKind s.bnd.manifest x ≠ 0) (hdma : dmaOpen s (dmaFn r) = true)
include hx hopen hwear hst hlt hlen hbytes hnew hkind hdma

/-- A stripe of the manifest is written as it comes, and counts as installed when its SHA-256 is the manifest's. -/
theorem weightsShard_eq : weightsShard (some data) true r s = if wordsOfBytes (sha256 data) = shHash s.bnd.manifest x
    then reply r 0 [] (modBnd (fun b => { b with bitmap := b.bitmap ++ [x] }) (stripeWritten x data s))
    else reply r 0x0904 [] (stripeWritten x data s) := by
  subst hx
  have hform : ¬ (mfStripes s.bnd.manifest ≤ fld (argOf r 1) 0 24 ∨ data.length ≠ shBytes s.bnd.manifest (fld (argOf r 1) 0 24)) := by
    omega
  simp only [weightsShard, stripeWritten, hopen, hwear, hst, hbytes, if_neg hform, if_neg hnew, if_neg hkind, hdma,
    List.take_length, not_true_eq_false, Bool.false_eq_true, ne_eq, if_false, true_and, and_true]

theorem weightsShard_writes : (weightsShard (some data) true r s).x.bond = memWrite s.x.bond (shardFlat x) data ∧
    (wordsOfBytes (sha256 data) = shHash s.bnd.manifest x →
      (weightsShard (some data) true r s).bnd.bitmap = s.bnd.bitmap ++ [x]) ∧
    (wordsOfBytes (sha256 data) ≠ shHash s.bnd.manifest x → (weightsShard (some data) true r s).bnd.bitmap = s.bnd.bitmap) ∧
    (weightsShard (some data) true r s).bnd.manifest = s.bnd.manifest ∧ (weightsShard (some data) true r s).x.hbm = s.x.hbm ∧
    (weightsShard (some data) true r s).parts = s.parts := by
  obtain ⟨hbond, hhbm, hparts, hmanifest, hbitmap⟩ := stripeWritten_frame x data s
  rw [weightsShard_eq hx hopen hwear hst hlt hlen hbytes hnew hkind hdma]
  split
  · next hmatch => simp [hmatch, hbond, hhbm, hparts, hmanifest, hbitmap]
  · next hdiffers => simp [hdiffers, hbond, hhbm, hparts, hmanifest, hbitmap]

end Stripe

theorem weightsFinish_whole (hopen : installState s = true) (hst : s.bnd.st = .opened)
    (hall : ∀ y, y < mfStripes s.bnd.manifest → y ∈ s.bnd.bitmap) : weightsFinish r s = reply r 0 []
      (logPkg 0x0905 false (mfStripes s.bnd.manifest) (mfVersion s.bnd.manifest % 2 ^ 32)
        (modBnd (fun b => { b with st := .complete }) s)) := by
  have hnone : (List.range (mfStripes s.bnd.manifest)).find? (fun x => !(decide (x ∈ s.bnd.bitmap))) = none :=
    List.find?_eq_none.mpr fun y hy => by simp [hall y (List.mem_range.mp hy)]
  simp only [weightsFinish, hopen, hst, hnone, not_true_eq_false, ne_eq, if_false]

theorem weightsAbort_opened (hopen : installState s = true) (hst : s.bnd.st = .opened) :
    weightsAbort r s = reply r 0 [] (modBnd (fun b => { b with manifest := [], st := .none, bitmap := [] }) s) := by
  simp only [weightsAbort, hopen, hst, not_true_eq_false, ne_eq, if_false]

/-- QUERY and GROUP are answered in every state of service (R291, R292). -/
theorem queryState_of_le (h : s.sec.lifecycle ≤ 2) : ¬ ¬ queryState s = true := not_not_intro (decide_eq_true h)

theorem weightsQuery_open (h : s.sec.lifecycle ≤ 2) : weightsQuery r s = reply r 0
    ([w32 (manCode s.bnd.st), w32 s.bnd.bitmap.length, w32 (mfStripes s.bnd.manifest)] ++ w64 s.bnd.written ++ [w32 (capWrites s)]) s :=
  if_neg (queryState_of_le h)

theorem weightsGroup_good (h : s.sec.lifecycle ≤ 2)
    (hgood : groupBad s ((List.range 8).map fun i => fld (argOf r (1 + i)) 0 8) = false) : weightsGroup r s =
      reply r 0 [] (modBnd (fun b => { b with group := (List.range 8).map fun i => fld (argOf r (1 + i)) 0 8 }) s) := by
  simp only [weightsGroup, if_neg (queryState_of_le h), hgood, Bool.false_eq_true, if_false]

end Sub

end Sys2Proof.Machine

namespace Sys2Proof.Claim

open Sys2Proof.Machine

/-- A command with sub-commands runs, as any command, on the request at the head of the journal (R410). -/
theorem Heads.takeSub {s : State} {m : MbxId} {code sub : Nat} {r : Request} (h : Heads s m code r) (hsub : subOf r = sub)
    (f : Request → State → State) : takeSub m code sub f s = f r (taken s) := by
  obtain ⟨hhead, hmbx, hcode, hgone⟩ := h
  obtain ⟨rest, hjournal⟩ := List.head?_eq_some_iff.mp hhead
  exact takeSub_head f hjournal hmbx hcode hsub hgone

/-- What a sub-command of the request at the head makes of the state in which that is taken is what its row makes of the state. -/
theorem Heads.sub {s t : State} {m : MbxId} {code sub : Nat} {r : Request} (h : Heads s m code r) (hsub : subOf r = sub)
    {f : Request → State → State} (hf : f r (taken s) = t) :
    (Host.Outcome.next (Machine.takeSub m code sub f s) : Host.Outcome State Fault Refusal) = .next t :=
  congrArg _ ((h.takeSub hsub f).trans hf)

/-- Settles O29: taking the request changes nothing that the checks of a sub-command read, and each case passes them all or fails
the first. -/
theorem weightInstallation : Obligations.WeightInstallation := by
  intro s m r all data x hr
  have hfn : dmaFn r = 32 := hr.dmaFn (by decide)
  refine ⟨fun hsub hopen hwear hsize hdma hnone hgood => ?begins, fun hsub hx hopen hwear hst hlt hlen hbytes hnew hkind hdma => ?shard,
    fun hsub hopen hst hall => ?finish, fun hsub hopen hst => ?abort, fun hsub hlife => ?query, fun hsub hlife hgood => ?group,
    fun hsub hshut => ?shut⟩
  case begins => exact hr.sub hsub (weightsBegin_good (s := taken s) hopen hwear hsize (hfn ▸ hdma) hnone hgood)
  case shard =>
    exact ⟨_, hr.sub hsub rfl, weightsShard_writes (s := taken s) hx hopen hwear hst hlt hlen hbytes hnew hkind (hfn ▸ hdma)⟩
  case finish => exact hr.sub hsub (weightsFinish_whole (s := taken s) hopen hst hall)
  case abort => exact hr.sub hsub (weightsAbort_opened (s := taken s) hopen hst)
  case query => exact hr.sub hsub (weightsQuery_open (s := taken s) hlife)
  case group => exact hr.sub hsub (weightsGroup_good (s := taken s) hlife hgood)
  case shut => exact hr.sub hsub (weightsBegin_shut (s := taken s) hshut (some all))

end Sys2Proof.Claim
end

section
/-! PROOFS. What the operations that end service leave of the weights, the SRAM and the keys (R295, R368, R379, R407). -/

namespace Sys2Proof.Machine

/-- The bond store, the SRAM, and what RETURN and RETIRE erase of the security state are in `t` as in `s`. -/
structure SecretsAs (s t : State) : Prop where
  bond : t.x.bond = s.x.bond
  sram : t.x.sram = s.x.sram
  bnd : t.bnd = s.bnd
  lifecycle : t.sec.lifecycle = s.sec.lifecycle
  nonce : t.sec.nonce = s.sec.nonce
  keyTable : t.sec.keyTable = s.sec.keyTable

namespace SecretsAs

theorem refl (s : State) : SecretsAs s s := ⟨rfl, rfl, rfl, rfl, rfl, rfl⟩

theorem trans {s t u : State} (h : SecretsAs s t) (k : SecretsAs t u) : SecretsAs s u :=
  ⟨k.bond.trans h.bond, k.sram.trans h.sram, k.bnd.trans h.bnd, k.lifecycle.trans h.lifecycle, k.nonce.trans h.nonce,
   k.keyTable.trans h.keyTable⟩

theorem foldl {α : Type} {f : State → α → State} (hf : ∀ t x, SecretsAs t (f t x)) (xs : List α) (s : State) :
    SecretsAs s (xs.foldl f s) := by
  induction xs generalizing s with
  | nil => exact refl s
  | cons x xs ih => exact (hf s x).trans (ih (f s x))

/-! Shared operations. -/

theorem modPart (k : Nat) (f : Part → Part) (s : State) : SecretsAs s (modPart k f s) := ⟨rfl, rfl, rfl, rfl, rfl, rfl⟩

theorem modCfg (k : Nat) (f : PartCfg → PartCfg) (s : State) : SecretsAs s (modCfg k f s) := modPart ..

theorem modRun (k : Nat) (f : PartRun → PartRun) (s : State) : SecretsAs s (modRun k f s) := modPart ..

theorem modKv (k : Nat) (f : Kv → Kv) (s : State) : SecretsAs s (modKv k f s) := modPart ..

theorem modJr (k : Nat) (f : PartJr → PartJr) (s : State) : SecretsAs s (modJr k f s) := modPart ..

theorem modFb (k : Nat) (f : Fallback → Fallback) (s : State) : SecretsAs s (modFb k f s) := modPart ..

theorem modSlot (p i : Nat) (f : SeqSlot → SeqSlot) (s : State) : SecretsAs s (modSlot p i f s) := modKv ..

theorem modStep (p id : Nat) (f : StepRec → StepRec) (s : State) : SecretsAs s (modStep p id f s) := modRun ..

theorem cntAdd (p k n : Nat) (s : State) : SecretsAs s (cntAdd p k n s) := ⟨rfl, rfl, rfl, rfl, rfl, rfl⟩

theorem modCluster (k : Nat) (f : Cluster → Cluster) (s : State) : SecretsAs s (modCluster k f s) :=
  ⟨rfl, rfl, rfl, rfl, rfl, rfl⟩

theorem modStage (slot : Nat) (f : Stage → Stage) (s : State) : SecretsAs s (modStage slot f s) :=
  ⟨rfl, rfl, rfl, rfl, rfl, rfl⟩

theorem modHm (f : Hm → Hm) (s : State) : SecretsAs s (modHm f s) := ⟨rfl, rfl, rfl, rfl, rfl, rfl⟩

theorem modEp (f : Endpoint → Endpoint) (s : State) : SecretsAs s (modEp f s) := ⟨rfl, rfl, rfl, rfl, rfl, rfl⟩

theorem modPins (f : Pins → Pins) (s : State) : SecretsAs s (modPins f s) := ⟨rfl, rfl, rfl, rfl, rfl, rfl⟩

theorem portsIdle (s : State) : SecretsAs s (portsIdle s) := ⟨rfl, rfl, rfl, rfl, rfl, rfl⟩

theorem setSticky (b : Nat) (s : State) : SecretsAs s (setSticky b s) := modHm ..

theorem modFab (f : Fabric → Fabric) (s : State) : SecretsAs s (modFab f s) := ⟨rfl, rfl, rfl, rfl, rfl, rfl⟩

theorem modPort (k : Nat) (f : Port → Port) (s : State) : SecretsAs s (modPort k f s) := ⟨rfl, rfl, rfl, rfl, rfl, rfl⟩

theorem host (v : HostSide) (s : State) : SecretsAs s { s with host := v } := ⟨rfl, rfl, rfl, rfl, rfl, rfl⟩

theorem totAdd (k n : Nat) (s : State) : SecretsAs s (totAdd k n s) := ⟨rfl, rfl, rfl, rfl, rfl, rfl⟩

theorem reply (r : Request) (status : Nat) (body : List Word) (s : State) : SecretsAs s (reply r status body s) := by
  constructor <;> simp

theorem logEvent (code : Nat) (fault : Bool) (part op step w4 w5 : Nat) (s : State) :
    SecretsAs s (logEvent code fault part op step w4 w5 s) := by
  constructor <;> simp

theorem logPkg (code : Nat) (fault : Bool) (w4 w5 : Nat) (s : State) : SecretsAs s (logPkg code fault w4 w5 s) := logEvent ..

theorem raiseMsix (fn v : Nat) (s : State) : SecretsAs s (raiseMsix fn v s) := by
  constructor <;> simp

theorem hostWrite (fn a : Nat) (bs : List Byte) (s : State) : SecretsAs s (hostWrite fn a bs s) := by
  constructor <;> simp

theorem setVfEvent (p b : Nat) (s : State) : SecretsAs s (setVfEvent p b s) := by
  constructor <;> simp

/-! Steps that end without a commit (R27, R379; log 20). -/

theorem freePage (p slot i units : Nat) (s : State) : SecretsAs s (freePage p slot i units s) := by
  unfold Machine.freePage
  dsimp only
  split
  · exact refl s
  · split
    · exact (modSlot ..).trans (modKv ..)
    · exact (modSlot ..).trans (modKv ..)

theorem releaseStep (p id : Nat) (s : State) : SecretsAs s (releaseStep p id s) := by
  unfold Machine.releaseStep
  extract_lets s1
  have h1 : SecretsAs s s1 := by
    unfold s1
    split
    · exact refl s
    · exact foldl (fun _ _ => freePage ..) _ s
  exact h1.trans (modJr ..)

theorem holdResult (p : Nat) (r : StepRec) (data : List Byte) (s : State) : SecretsAs s (holdResult p r data s) := by
  unfold Machine.holdResult
  dsimp only
  refine SecretsAs.trans ?_ ((modRun ..).trans (totAdd ..))
  split
  · split
    · exact logEvent ..
    · exact refl s
  · exact refl s

theorem deliver (p : Nat) (r : StepRec) (data : List Byte) (s : State) : SecretsAs s (deliver p r data s) := by
  unfold Machine.deliver
  extract_lets job first s0 s1
  have h0 : SecretsAs s s0 := by
    unfold s0
    split
    · exact setVfEvent ..
    · exact refl s
  have h1 : SecretsAs s s1 := h0.trans ((hostWrite ..).trans (hostWrite ..))
  split
  · split
    · exact h0
    · split
      · split
        · exact h1
        · exact h1.trans (raiseMsix ..)
      · exact h0.trans ((holdResult ..).trans (logEvent ..))
  · split
    · exact holdResult ..
    · exact refl s

theorem withdrawStep (p id : Nat) (quiet : Bool) (s : State) : SecretsAs s (withdrawStep p id quiet s) := by
  unfold Machine.withdrawStep
  extract_lets s1
  have h1 : SecretsAs s s1 := (releaseStep p id s).trans (modStep ..)
  split
  · exact h1
  · split
    · exact h1
    · exact h1.trans (deliver ..)

theorem withdrawSteps (p : Nat) (quiet : Bool) (rs : List StepRec) (s : State) :
    SecretsAs s (rs.foldl (fun t r => Machine.withdrawStep p r.id quiet t) s) := foldl (fun _ _ => withdrawStep ..) rs s

theorem answerEvicts (p : Nat) (s : State) : SecretsAs s (answerEvicts p s) := foldl (fun _ _ => reply ..) _ s

theorem clearPart (p : Nat) (s : State) : SecretsAs s (clearPart p s) := by
  unfold Machine.clearPart
  exact (withdrawSteps ..).trans ((answerEvicts ..).trans (modPart ..))

/-! The bank swap that a closing may allow (R137, R385, R390). -/

theorem transmit (plane dst attempt : Nat) (h : List Word) (data : List Byte) (s : State) :
    SecretsAs s (transmit plane dst attempt h data s) := by
  unfold Machine.transmit portSend
  dsimp only
  split
  · exact refl s
  · split <;> exact ⟨rfl, rfl, rfl, rfl, rfl, rfl⟩

theorem sendHeartbeat (s : State) : SecretsAs s (sendHeartbeat s) := by
  unfold Machine.sendHeartbeat
  split
  · exact refl s
  · exact (foldl (fun t _ => foldl (fun _ _ => transmit ..) _ t) _ s).trans (modFab ..)

theorem declareFailed (cause elem : Nat) (s : State) : SecretsAs s (declareFailed cause elem s) := by
  unfold Machine.declareFailed
  split
  · exact refl s
  · exact (logPkg ..).trans ((modHm ..).trans ((sendHeartbeat _).trans ((portsIdle _).trans ((setSticky ..).trans (modPins ..)))))

theorem foldCluster (p c : Nat) (s : State) : SecretsAs s (foldCluster p c s) := by
  unfold Machine.foldCluster
  dsimp only
  split
  · exact refl s
  · split
    · exact declareFailed ..
    · exact modCfg ..

theorem foldAll (p : Nat) (s : State) : SecretsAs s (foldAll p s) := by
  refine foldl (fun t c => ?_) _ s
  split
  · split
    · exact declareFailed ..
    · exact foldCluster ..
  · exact refl t

theorem swapBank (p : Nat) (s : State) : SecretsAs s (swapBank p s) := by
  unfold Machine.swapBank
  extract_lets q ob nb old new same first warm s1 s2 s3 s3' s4 s5
  have h2 : SecretsAs s s2 := (modCfg ..).trans (modCfg ..)
  have h3 : SecretsAs s2 s3 := by
    unfold s3
    split
    · exact refl s2
    · exact modFb ..
  have h3' : SecretsAs s3 s3' := by
    unfold s3'
    split
    · split
      · exact modStage ..
      · exact refl s3
    · exact refl s3
  have h4 : SecretsAs s3' s4 := foldl (fun _ _ => modCluster ..) _ s3'
  have h5 : SecretsAs s4 s5 := (foldAll p s4).trans (cntAdd ..)
  exact h2.trans (h3.trans (h3'.trans (h4.trans (h5.trans ((logEvent ..).trans (setVfEvent ..))))))

theorem trySwap (p : Nat) (s : State) : SecretsAs s (trySwap p s) := by
  unfold Machine.trySwap
  dsimp only
  split
  · exact refl s
  · split
    · exact foldl (fun _ _ => swapBank ..) _ s
    · exact refl s

theorem closePart (p : Nat) (quiet : Bool) (s : State) : SecretsAs s (closePart p quiet s) := by
  unfold Machine.closePart
  exact (withdrawSteps ..).trans ((answerEvicts ..).trans ((modRun ..).trans ((modKv ..).trans ((modCfg ..).trans
    ((logEvent ..).trans (trySwap ..))))))

/-! Resets of the functions, and the loss of the link (R407). -/

theorem answerSlot (p status : Nat) (s : State) (i : Nat) : SecretsAs s (answerSlot p status s i) := by
  unfold Machine.answerSlot
  exact (modSlot ..).trans (foldl (fun _ _ => reply ..) _ _)

theorem markLost (p slot : Nat) (s : State) : SecretsAs s (markLost p slot s) := by
  unfold Machine.markLost
  rw [answerMates_eq]
  exact (foldl (fun t i => answerSlot _ _ t i) _ s).trans (foldl (fun _ _ => modSlot ..) _ _)

theorem loseSeq (p step slot : Nat) (s : State) : SecretsAs s (loseSeq p step slot s) := by
  unfold Machine.loseSeq
  exact (markLost ..).trans ((logEvent ..).trans (setVfEvent ..))

theorem discardReplies (f : MbxId → Bool) (s : State) : SecretsAs s (discardReplies f s) := ⟨rfl, rfl, rfl, rfl, rfl, rfl⟩

theorem resetVf (n : Nat) (s : State) : SecretsAs s (resetVf n s) := by
  unfold Machine.resetVf
  extract_lets hs s1 s2 s3 swapped s4 s5
  have h2 : SecretsAs s s2 := (host ..).trans ((discardReplies ..).trans ((modPart ..).trans (modEp ..)))
  have h4 : SecretsAs s3 s4 := by
    refine foldl (fun t e => ?_) _ s3
    split
    · exact refl t
    · exact loseSeq ..
  have h5 : SecretsAs s2 s5 := (withdrawSteps ..).trans (h4.trans (modCfg ..))
  split
  · exact h2
  · split
    · exact h2.trans (h5.trans (closePart ..))
    · exact h2.trans (h5.trans (modRun ..))

theorem resetPf (s : State) : SecretsAs s (resetPf s) := by
  unfold Machine.resetPf
  extract_lets s1 hs
  have h1 : SecretsAs s s1 := foldl (fun t n => resetVf n t) (List.range 32) s
  exact h1.trans ((host ..).trans ((modEp ..).trans (discardReplies ..)))

theorem endIde (s : State) : SecretsAs s (endIde s) := ⟨rfl, rfl, rfl, rfl, rfl, rfl⟩

theorem linkDown (s : State) : SecretsAs s (linkDown s) := by
  unfold Machine.linkDown
  exact (logPkg ..).trans ((endIde _).trans ((resetPf _).trans (modEp ..)))

theorem portsOff (s : State) : SecretsAs s (portsOff s) := by
  unfold Machine.portsOff
  refine foldl (fun t p => ?_) (List.range 18) s
  exact modPort ..

end SecretsAs
end Sys2Proof.Machine
end

section
/-! PROOFS. The life-cycle commands of lc.set (R295, R482, R493 to R496). -/

namespace Sys2Proof.Machine

/-! A change of the life-cycle state (R494, R496). -/

theorem enterLife_frame (n : Nat) (s : State) : (enterLife n s).sec = { s.sec with lifecycle := n } ∧ (enterLife n s).x.bond = s.x.bond ∧
    (enterLife n s).bnd = s.bnd ∧ (enterLife n s).boot = s.boot ∧ (enterLife n s).stages = s.stages := by
  simp [enterLife]

/-- Towards Provisioned nothing is erased. -/
theorem recordLife_one (s : State) : recordLife 1 s = enterLife 1 s := if_neg (by decide)

/-- Towards Returned the weights, the owner's keys and the preference are erased. -/
theorem recordLife_three (s : State) : (recordLife 3 s).sec.lifecycle = 3 ∧ (recordLife 3 s).sec.nonce = s.sec.nonce ∧
    (recordLife 3 s).sec.keyTable = [] ∧ (recordLife 3 s).bnd.manifest = [] ∧ (recordLife 3 s).bnd.st = .none ∧
    (recordLife 3 s).x.bond = [] ∧ (recordLife 3 s).boot.prefer = none ∧ (recordLife 3 s).sec.ownerRoot = s.sec.ownerRoot := by
  simp [recordLife, eraseReturn, enterLife_frame]

/-! The stop of service (R295, R496). -/

theorem drained_of_idle {s : State} (hidle : allFlying s = []) : drained s = true := by
  have hnone : ∀ q ∈ s.parts, flying s q.1 = [] := fun q hq =>
    List.map_eq_nil_iff.mp (List.flatMap_eq_nil_iff.mp hidle q hq)
  simp only [drained, Bool.or_eq_true, List.all_eq_true, beq_iff_eq]
  exact .inr hnone

theorem stopSteps_of_idle {s : State} (hidle : allFlying s = []) : stopSteps s = s := by
  simp only [stopSteps, hidle, List.foldl_nil]
  rfl

/-- What the end of service leaves: no stage, and the keys, the nonce and the weights as they were. -/
theorem endService_frame (s : State) : (endService s).stages = [] ∧ (endService s).x.bond = s.x.bond ∧
    (endService s).bnd.manifest = s.bnd.manifest ∧ (endService s).sec.nonce = s.sec.nonce ∧
    (endService s).sec.keyTable = s.sec.keyTable := by
  obtain ⟨hbond, -, hbnd, -, hnonce, hkeys⟩ :=
    SecretsAs.foldl (fun t p => SecretsAs.clearPart p t) (s.parts.map fun q => q.1) s
  simp [endService, hbond, hbnd, hnonce, hkeys]

/-- The stop of service towards life-cycle state `n` is asked for by request `r`. -/
def stopBegun (n : Nat) (r : Request) (s : State) : State :=
  modSec (fun x => { x with stopping := some (n, r), stopCommits := 0, stopStopped := 0 }) s

/-- The stop of service is over. -/
def stopEnded (s : State) : State := modSec (fun x => { x with stopping := none, stopCommits := 0, stopStopped := 0 }) s

/-- Where no step is admitted and the package is out of its fabric, the stop of service ends at once. -/
theorem lcStop_of_idle {n : Nat} {r : Request} {s : State} (hidle : allFlying s = []) (hout : s.host.hm.joined = false) :
    lcStop n r s = reply r 0 [] (recordLife n (stopEnded (endService (stopBegun n r s)))) := by
  have hidle' : allFlying (stopBegun n r s) = [] := hidle
  have hout' : (stopBegun n r s).host.hm.joined = false := hout
  have hstop : (stopBegun n r s).sec.stopping = some (n, r) := rfl
  have hlc : lcStop n r s = stopOn (if bitOf (argOf r 0) 8 then stopSteps (stopBegun n r s) else stopBegun n r s) := rfl
  rw [hlc, stopSteps_of_idle hidle', ite_self]
  simp only [stopOn, finishStop, stopEnded, hstop, hout', drained_of_idle hidle', hidle', stopSteps_of_idle hidle',
    Option.isNone_some, Bool.false_eq_true, not_true_eq_false, ne_eq, false_and, or_self, if_false]

/-- Towards Provisioned, the stop of an idle package keeps its weights and its keys. -/
theorem lcStop_one_of_idle {r : Request} {s : State} (hidle : allFlying s = []) (hout : s.host.hm.joined = false) :
    (lcStop 1 r s).sec.lifecycle = 1 ∧ (lcStop 1 r s).sec.stopping = none ∧ (lcStop 1 r s).sec.nonce = s.sec.nonce ∧
    (lcStop 1 r s).stages = [] ∧ (lcStop 1 r s).sec.keyTable = s.sec.keyTable ∧
    (lcStop 1 r s).bnd.manifest = s.bnd.manifest ∧ (lcStop 1 r s).x.bond = s.x.bond := by
  obtain ⟨hstages, hbond, hmanifest, hnonce, hkeys⟩ := endService_frame (stopBegun 1 r s)
  have hbegun : (stopBegun 1 r s).x = s.x ∧ (stopBegun 1 r s).bnd = s.bnd ∧ (stopBegun 1 r s).sec.nonce = s.sec.nonce ∧
      (stopBegun 1 r s).sec.keyTable = s.sec.keyTable := ⟨rfl, rfl, rfl, rfl⟩
  rw [lcStop_of_idle hidle hout, recordLife_one]
  simp [enterLife_frame, stopEnded, hstages, hbond, hmanifest, hnonce, hkeys, hbegun]

/-! The sub-commands (R482, R494 to R496). -/

theorem natBytes_length (k n : Nat) : (natBytes k n).length = k := by
  induction k generalizing n with
  | zero => rfl
  | succ k ih => rw [natBytes, List.length_cons, ih]

section Sub
variable {r : Request} {s : State}

theorem lcProvision_certified (hlife : s.sec.lifecycle = 0) (hcert : s.sec.certified = true) : lcProvision r s =
    reply r 0 [] (enterLife 1 (modSec (fun x => { x with ownerRoot := some (bytesOfWords (slice r.words 3 8)) }) s)) := by
  simp only [lcProvision, hlife, hcert, ne_eq, not_true_eq_false, or_self, if_false]

theorem lcSeal_whole (hlife : s.sec.lifecycle = 1) (hwhole : sealLacks s = 0) : lcSeal r s =
    reply r 0 [] (settleStages (enterLife 2 (modBnd (fun b => { b with
      sealedVersion := max b.sealedVersion (mfVersion b.manifest), everSealed := true }) s))) := by
  simp only [lcSeal, hlife, hwhole, ne_eq, not_true_eq_false, if_false]

theorem lcSeal_lacking (hlife : s.sec.lifecycle = 1) (hlacks : sealLacks s ≠ 0) :
    lcSeal r s = reply r 0x1008 [w32 (sealLacks s)] s := by
  simp only [lcSeal, hlife, hlacks, ne_eq, not_true_eq_false, not_false_eq_true, if_false, if_true]

theorem lcKeys_good {all : List Word} (hdma : dmaOpen s (dmaFn r) = true)
    (hgood : tableOk s (argOf r 3).toNat (all.take ((argOf r 3).toNat / 4)) = true) : lcKeys (some all) r s =
      reply r 0 [] (logPkg 0x1005 false (wordAt (all.take ((argOf r 3).toNat / 4)) 0).toNat
        (ktKeys (all.take ((argOf r 3).toNat / 4))) (modSec (fun x => { x with keyTable := all.take ((argOf r 3).toNat / 4) })
          (countRead (argOf r 3).toNat s))) := by
  simp only [lcKeys, hdma, hgood, not_true_eq_false, if_false]

theorem lcUnseal_elsewhere (hlife : s.sec.lifecycle ≠ 2) : lcUnseal r s = reply r 0x1003 [] s := if_pos (.inl hlife)

section Unseal
variable (hlife : s.sec.lifecycle = 2) (hstop : s.sec.stopping = none)
include hlife hstop

theorem lcUnseal_unauthorised (hauth : authOk s r 4 = false) : lcUnseal r s = reply r 0x1004 [] (spendNonce s) := by
  simp only [lcUnseal, hlife, hstop, hauth, Option.isSome_none, Bool.false_eq_true, ne_eq, not_true_eq_false, not_false_eq_true,
    or_self, if_false, if_true]

theorem lcUnseal_authorised (hauth : authOk s r 4 = true) : lcUnseal r s = lcStop 1 r (spendNonce s) := by
  simp only [lcUnseal, hlife, hstop, hauth, Option.isSome_none, Bool.false_eq_true, ne_eq, not_true_eq_false, or_self, if_false]

/-- UNSEAL of an idle package leads to Provisioned; its weights and keys stay. -/
theorem lcUnseal_idle (hauth : authOk s r 4 = true) (hidle : allFlying s = []) (hout : s.host.hm.joined = false) :
    (lcUnseal r s).sec.lifecycle = 1 ∧ (lcUnseal r s).sec.stopping = none ∧ (lcUnseal r s).sec.nonce = none ∧
    (lcUnseal r s).stages = [] ∧ (lcUnseal r s).sec.keyTable = s.sec.keyTable ∧ (lcUnseal r s).bnd.manifest = s.bnd.manifest ∧
    (lcUnseal r s).x.bond = s.x.bond := by
  rw [lcUnseal_authorised hlife hstop hauth]
  exact lcStop_one_of_idle (s := spendNonce s) hidle hout

end Unseal

theorem lcReturn_manufacturing (hlife : s.sec.lifecycle = 0) : lcReturn r s = reply r 0x1003 [] s :=
  if_pos (.inl (by omega))

theorem lcReturn_provisioned (hlife : s.sec.lifecycle = 1) (hstop : s.sec.stopping = none) (hauth : authOk s r 5 = true) :
    lcReturn r s = reply r 0 [] (recordLife 3 (spendNonce s)) := by
  simp only [lcReturn, hlife, hstop, hauth, Option.isSome_none, Bool.false_eq_true, ne_eq, not_true_eq_false, false_and, or_self,
    if_false, if_true]

/-- RETURN leads to Returned, without weights and without the owner's keys. -/
theorem lcReturn_erases (hlife : s.sec.lifecycle = 1) (hstop : s.sec.stopping = none) (hauth : authOk s r 5 = true) :
    (lcReturn r s).sec.lifecycle = 3 ∧ (lcReturn r s).sec.nonce = none ∧ (lcReturn r s).sec.keyTable = [] ∧
    (lcReturn r s).bnd.manifest = [] ∧ (lcReturn r s).bnd.st = .none ∧ (lcReturn r s).x.bond = [] ∧
    (lcReturn r s).boot.prefer = none ∧ (lcReturn r s).sec.ownerRoot = s.sec.ownerRoot := by
  obtain ⟨hnonce, hroot⟩ : (spendNonce s).sec.nonce = none ∧ (spendNonce s).sec.ownerRoot = s.sec.ownerRoot := ⟨rfl, rfl⟩
  rw [lcReturn_provisioned hlife hstop hauth]
  simp [recordLife_three, hnonce, hroot]

theorem lcRetire_manufacturing (hlife : s.sec.lifecycle = 0) : lcRetire r s = holdRetired (reply r 0 [] (enterLife 4 s)) := by
  simp [lcRetire, hlife]

end Sub

/-! A retired package (R494, R496). -/

/-- What is lost with the memory supplies is the HBM; the SRAM and the life-cycle state stay. -/
theorem dryOut_frame (s : State) : (dryOut s).x.hbm = [] ∧ (dryOut s).x.sram = s.x.sram ∧
    (dryOut s).sec.lifecycle = s.sec.lifecycle := by
  have hlink : SecretsAs s (if s.host.ep.linkUp then linkDown s else s) := by
    split
    · exact .linkDown s
    · exact .refl s
  exact ⟨rfl, hlink.sram, hlink.lifecycle⟩

/-- A package that is held retired runs nothing and remembers nothing but that it is retired. -/
theorem holdRetired_frame (s : State) : (holdRetired s).sec.lifecycle = s.sec.lifecycle ∧
    (holdRetired s).boot.stage = .retired ∧ (holdRetired s).pw.rails = false ∧ (holdRetired s).host.hm.ready = false ∧
    (holdRetired s).pins.faultN = true ∧ (holdRetired s).sec.keyTable = [] ∧ (holdRetired s).sec.certified = false ∧
    (holdRetired s).host.journal = [] ∧ (holdRetired s).parts = [] ∧ (holdRetired s).x.sram = [] ∧ (holdRetired s).x.hbm = [] := by
  obtain ⟨hhbm, hsram, hlife⟩ := dryOut_frame (loseSram (forgetFabric (portsOff s)))
  have hlife' := hlife.trans (SecretsAs.portsOff s).lifecycle
  exact ⟨hlife', rfl, rfl, rfl, rfl, rfl, rfl, rfl, rfl, hsram, hhbm⟩

end Sys2Proof.Machine

namespace Sys2Proof.Claim

open Sys2Proof.Machine

theorem lifeCycleForward : LifeCycleForward := by
  intro s m r all hr
  refine ⟨fun hsub => ?nonce, fun hsub hlife hcert => ?provision, fun hsub hlife => ?late, fun hsub hlife hwhole => ?seals,
    fun hsub hlife hlacks => ?lacking, fun hsub hdma hgood => ?keys⟩
  case nonce => exact ⟨natBytes 32 (Config.entropy s.free).toNat, natBytes_length .., hr.sub hsub rfl⟩
  case provision => exact hr.sub hsub (lcProvision_certified (s := taken s) hlife hcert)
  case late => exact hr.sub hsub (if_pos (.inl hlife))
  case seals => exact hr.sub hsub (lcSeal_whole (s := taken s) hlife hwhole)
  case lacking => exact hr.sub hsub (lcSeal_lacking (s := taken s) hlife hlacks)
  case keys => exact hr.sub hsub (lcKeys_good (s := taken s) (hr.dmaFn (by decide) ▸ hdma) hgood)

theorem lifeCycleBackward : LifeCycleBackward := by
  intro s m r hr hstop
  refine ⟨fun hsub hlife hauth hidle hout => ⟨_, hr.sub hsub rfl, ?unseals⟩, fun hsub hlife hauth => ?unauthorised,
    fun hsub hlife => ?elsewhere, fun hsub hlife hauth => ⟨_, hr.sub hsub rfl, ?returns⟩, fun hsub hlife => ?manufacturing,
    fun hsub hlife => ⟨_, hr.sub hsub rfl, ?retires⟩⟩
  case unseals => exact lcUnseal_idle (s := taken s) hlife hstop hauth hidle hout
  case unauthorised => exact hr.sub hsub (lcUnseal_unauthorised (s := taken s) hlife hstop hauth)
  case elsewhere => exact hr.sub hsub (lcUnseal_elsewhere (s := taken s) hlife)
  case returns => exact lcReturn_erases (s := taken s) hlife hstop hauth
  case manufacturing => exact hr.sub hsub (lcReturn_manufacturing (s := taken s) hlife)
  case retires =>
    obtain ⟨hretired, hheld⟩ := holdRetired_frame (reply r 0 [] (enterLife 4 (taken s)))
    rw [lcRetire_manufacturing (s := taken s) hlife]
    exact ⟨hretired.trans (by simp [enterLife_frame]), hheld⟩

/-- Settles O30: each sub-command passes its checks or fails the first; what ends service for UNSEAL and RETIRE is followed through
every operation that it is made of. -/
theorem lifeCycle : Obligations.LifeCycle := ⟨lifeCycleForward, lifeCycleBackward⟩

end Sys2Proof.Claim
end

section
/-! PROOFS. The services of the fabric (R284, R315, R350, R353 to R357). -/

namespace Sys2Proof.Machine

/-! A block of bytes in pieces of one size. -/

theorem flatten_slices {α : Type} (xs : List α) (c n : Nat) :
    ((List.range n).map fun i => slice xs (c * i) c).flatten = xs.take (c * n) := by
  induction n with
  | zero => rfl
  | succ n ih => rw [List.range_succ, List.map_append, List.flatten_append, ih, Nat.mul_succ, List.take_add]; simp [slice]

/-- Piece `i` of `c` bytes of a block, filled up with zero bytes. -/
def paddedPiece (bs : List Byte) (c i : Nat) : List Byte :=
  slice bs (c * i) c ++ List.replicate (c - (slice bs (c * i) c).length) 0

theorem length_paddedPiece (bs : List Byte) (c i : Nat) : (paddedPiece bs c i).length = c := by
  have hle : (slice bs (c * i) c).length ≤ c := List.length_take_le ..
  rw [paddedPiece, List.length_append, List.length_replicate, Nat.add_sub_cancel' hle]

/-- The pieces are those of the block with zero bytes behind it. -/
theorem paddedPiece_eq_slice (bs : List Byte) (c : Nat) {i n : Nat} (hi : i < n) :
    paddedPiece bs c i = slice (bs ++ List.replicate (c * n) 0) (c * i) c := by
  have hroom : c * i + c ≤ c * n := Nat.mul_le_mul_left c hi
  have hfill : c - min c (bs.length - c * i) = min (c - (bs.length - c * i)) (c * n - (c * i - bs.length)) := by omega
  simp only [paddedPiece, slice, List.length_take, List.length_drop, List.drop_append, List.take_append, List.drop_replicate,
    List.take_replicate, hfill]

/-- The pieces laid end to end begin with the block, as far as they reach. -/
theorem take_flatten_paddedPieces (bs : List Byte) (c n : Nat) :
    ((List.range n).map (paddedPiece bs c)).flatten.take bs.length = bs.take (c * n) := by
  have hpieces : (List.range n).map (paddedPiece bs c) =
      (List.range n).map fun i => slice (bs ++ List.replicate (c * n) 0) (c * i) c :=
    List.map_congr_left fun i hi => paddedPiece_eq_slice bs c (List.mem_range.mp hi)
  rw [hpieces, flatten_slices, List.take_take, List.take_append_of_le_length (Nat.min_le_left ..), Nat.min_comm, ← List.take_take,
    List.take_length]

theorem getD_paddedPieces (bs : List Byte) (c : Nat) {i n : Nat} (hi : i < n) :
    ((List.range n).map (paddedPiece bs c)).getD i [] = paddedPiece bs c i := by
  rw [List.getD_eq_getElem?_getD, List.getElem?_map, List.getElem?_range hi]
  rfl

/-! A response changes ports and streams only. -/

theorem cont_transmit (plane dst attempt : Nat) (h : List Word) (data : List Byte) (s : State) :
    (transmit plane dst attempt h data s).cont = s.cont := by
  unfold transmit portSend
  dsimp only
  split
  · rfl
  · split <;> rfl

theorem cont_sendAck (plane src job upto : Nat) (s : State) : (sendAck plane src job upto s).cont = s.cont :=
  cont_transmit ..

theorem cont_respond (plane upto : Nat) (h : List Word) (op status addr : Nat) (data : List Byte) (s : State) :
    (respond plane upto h op status addr data s).cont = s.cont := by
  unfold respond
  extract_lets s1 r s2
  have hack : s1.cont = s.cont := by
    unfold s1
    split
    · rfl
    · exact cont_sendAck ..
  have hsent : s2.cont = s.cont := (cont_transmit ..).trans hack
  split
  · exact hsent
  · exact hsent

/-! Shard reads (R284, R315). -/

/-- The bytes of stripe `x` of the manifest, as the bond store holds them. -/
def shardBytes (s : State) (x : Nat) : List Byte := memRead s.x.bond (shardFlat x) (shBytes s.bnd.manifest x)

theorem length_shardBytes (s : State) (x : Nat) : (shardBytes s x).length = shBytes s.bnd.manifest x := by
  simp only [shardBytes, memRead, List.length_map, List.length_range]

section ShardRead
variable {plane : Nat} {h : List Word} {data : List Byte} {s : State}
  (htag : slice (wordsOfBytes data) 1 8 = mfTag s.bnd.manifest)
include htag

/-- A shard that a member asks for by this package's manifest leaves in 4,096 replies of 4 KiB. -/
theorem applyShardRead_served (hsealed : s.sec.lifecycle = 2) (hmf : (manifest s).isSome = true) (hlen : data.length = 40)
    (hmember : s.bnd.group.getD (wordAt (wordsOfBytes data) 9).toNat 0 = 128 + hSrc h)
    (hstripe : (wordAt (wordsOfBytes data) 0).toNat < mfStripes s.bnd.manifest)
    (hheld : shardHeld s (wordAt (wordsOfBytes data) 0).toNat = false) : applyShardRead plane h data s =
      (List.range 4096).foldl (fun t i => respond plane (hSeq h) h 0x14 0 (hAddr h / 2 ^ 24 * 2 ^ 24 + 4096 * i)
        (paddedPiece (shardBytes s (wordAt (wordsOfBytes data) 0).toNat) 4096 i) t) (totAdd (tBond + 4) 1 s) := by
  simp only [applyShardRead, shardBytes, paddedPiece, hsealed, hmf, htag, hlen, hmember, hheld, decide_eq_true hstripe, beq_self_eq_true,
    Bool.and_self, Bool.not_false, not_true_eq_false, false_and, if_false, if_true]

/-- Only a sealed package serves shards (R295). -/
theorem applyShardRead_unsealed (hsealed : s.sec.lifecycle ≠ 2) : applyShardRead plane h data s =
    respond plane (hSeq h) h 0x14 0x0A09 (hAddr h) [] (totAdd (tBond + 5) 1 s) := by
  simp only [applyShardRead, beq_eq_false_iff_ne.mpr hsealed, htag, beq_self_eq_true, Bool.false_and, Bool.false_eq_true,
    not_true_eq_false, false_and, if_false]

end ShardRead

/-! The mirror services (R350, R353 to R357). -/

section Mirror
variable {plane : Nat} {h : List Word} {data : List Byte} {s : State}

/-- A record of input, page or slot is stored, and nothing follows from it (R353). -/
theorem applyMirrorWrite_stored (hform : recordFormOk data = true)
    (hkind : fld (wordAt (wordsOfBytes (data.take 64)) 0) 0 4 ≤ 3) : applyMirrorWrite plane h data s =
      respond plane (hSeq h) h 0x14 0 (hAddr h) [] (mirrorWrite data s).2 := by
  have hstate : fld (wordAt (wordsOfBytes (data.take 64)) 0) 0 4 ≠ 4 := by omega
  have hmark : (fld (wordAt (wordsOfBytes (data.take 64)) 0) 0 4 == 6) = false := beq_eq_false_iff_ne.mpr (by omega)
  have hnone : (mirrorWrite data s).1 = none := by simp [mirrorWrite, hmark]
  simp only [applyMirrorWrite, hform, not_true_eq_false, if_false, if_neg hstate, hnone]

theorem applyMirrorWrite_malformed (hform : recordFormOk data = false) :
    applyMirrorWrite plane h data s = refuse plane h 0x0A05 s := if_pos (by rw [hform]; decide)

section Fetch
variable (hlen : data.length = 64)
  (hclear : reservedOk (wordsOfBytes data) 0 16 [(0, 4, 5), (1, 0, 24), (2, 0, 32)] = true) {m : MirrorPart} {key : Nat}
  (hm : m = tgetD s.cont.mirror (fld (wordAt (wordsOfBytes data) 0) 4 5) {})
  (hkey : key = mirrorKey (fld (wordAt (wordsOfBytes data) 1) 0 16) (fld (wordAt (wordsOfBytes data) 1) 16 8)
    (wordAt (wordsOfBytes data) 2).toNat)
include hlen hclear hm hkey

theorem applyMirrorFetch_served (hpage : mirrorPage m key ≠ []) (hgood : key ∉ m.badPages) : applyMirrorFetch plane h data s =
    (List.range ((mirrorPage m key).length / 4096)).foldl (fun t i => respond plane (hSeq h) h 0x14 0
      (hAddr h / 2 ^ 24 * 2 ^ 24 + 4096 * i) (slice (mirrorPage m key) (4096 * i) 4096) t) s := by
  simp only [applyMirrorFetch, hlen, hclear, ← hm, ← hkey, hpage, hgood, ne_eq, not_true_eq_false, or_self, if_false]

theorem applyMirrorFetch_unserved (hbad : mirrorPage m key = [] ∨ key ∈ m.badPages) : applyMirrorFetch plane h data s =
    respond plane (hSeq h) h 0x14 0x0A09 (hAddr h) [] s := by
  simp only [applyMirrorFetch, hlen, hclear, ← hm, ← hkey, hbad, ne_eq, not_true_eq_false, or_self, if_false, if_true]

end Fetch

section Ack
variable (hlen : data.length = 64)
include hlen

/-- The acknowledgement of a mark ends action 2 of its step (R354). -/
theorem applyMirrorAck_done (hagain : bitOf (wordAt (wordsOfBytes data) 0) 0 = false)
    (hclear : reservedOk (wordsOfBytes data) 0 16 [(0, 0, 1), (0, 4, 5), (1, 0, 32), (2, 0, 32)] = true) :
    applyMirrorAck plane h data s =
      modStep (fld (wordAt (wordsOfBytes data) 0) 4 5) (dwordAt (wordsOfBytes data) 1) (fun r => { r with acked := true })
        (modCont (fun c => { c with sent := c.sent.filter fun e =>
          !(e.1 == fld (wordAt (wordsOfBytes data) 0) 4 5 && e.2.1 == dwordAt (wordsOfBytes data) 1) })
          (respond plane (hSeq h) h 0x14 0 (hAddr h) [] s)) := by
  simp only [applyMirrorAck, hlen, hagain, hclear, Bool.false_eq_true, List.append_nil, ne_eq, not_true_eq_false, or_self, if_false]

/-- The page that an acknowledgement asks for again. -/
def pageAgain (ws : List Word) : Nat × Nat × Nat × Nat :=
  (fld (wordAt ws 0) 4 5, fld (wordAt ws 3) 0 16, fld (wordAt ws 3) 16 8, (wordAt ws 4).toNat)

theorem applyMirrorAck_again (hagain : bitOf (wordAt (wordsOfBytes data) 0) 0 = true)
    (hclear : reservedOk (wordsOfBytes data) 0 16 [(0, 0, 1), (0, 4, 5), (1, 0, 32), (2, 0, 32), (3, 0, 24), (4, 0, 32)] = true) :
    pageAgain (wordsOfBytes data) ∈ (applyMirrorAck plane h data s).cont.resend ∧
      (applyMirrorAck plane h data s).cont.sent = s.cont.sent := by
  have happly : applyMirrorAck plane h data s = modCont (fun c => { c with
      resend := if pageAgain (wordsOfBytes data) ∈ c.resend then c.resend else c.resend ++ [pageAgain (wordsOfBytes data)] })
      (respond plane (hSeq h) h 0x14 0 (hAddr h) [] s) := by
    simp only [applyMirrorAck, hlen, hagain, hclear, if_true, List.cons_append, List.nil_append, ne_eq, not_true_eq_false, or_self,
      if_false]
    rfl
  rw [happly, modCont_own, cont_respond]
  refine ⟨?_, rfl⟩
  dsimp only
  split
  · assumption
  · exact List.mem_append_right _ (List.mem_singleton_self _)

end Ack
end Mirror

end Sys2Proof.Machine

namespace Sys2Proof.Claim

open Sys2Proof.Machine

/-! The turn of a service request (R313, R315, R321). -/

/-- What a service request does in its turn, by its SUBOP (R315). -/
def applyService (p : Packet) (u : State) : State :=
  if hSub p.hdr = 1 then applyShardRead p.plane.val p.hdr p.data u
  else if hSub p.hdr = 2 then applyMirrorWrite p.plane.val p.hdr p.data u
  else if hSub p.hdr = 3 then applyMirrorFetch p.plane.val p.hdr p.data u
  else applyMirrorAck p.plane.val p.hdr p.data u

section Turn
variable {s u : State} {p : Packet}

theorem applyReq_service (hfrag : (inStream s p).frag = none) (hright : Right s p) (hu : u = wakeQuay (entered p s))
    (hop : hOp p.hdr = 6) : applyReq p.plane.val p.hdr p.data (entered p s) = some (applyService p u) := by
  obtain ⟨hack, hstatus, hpower⟩ := hright
  have hfrag' : (dstOf (entered p s) p.plane.val (hSrc p.hdr) (hJob p.hdr)).frag = none := by
    rw [← inStream, inStream_entered, hfrag]
  have hstatus' : reqStatus (entered p s) p.hdr p.data = 0 := hstatus
  have hpower' : ¬ ((entered p s).pw.st ≠ .run ∧ (entered p s).pw.st ≠ .quayside) := fun ⟨hrun, hquay⟩ => hpower.elim hrun hquay
  simp only [applyReq, applyService, hfrag', hack, hstatus', if_neg hpower', hop, ← hu, Option.isSome_none, Bool.false_eq_true,
    ne_eq, not_true_eq_false, if_false]
  split
  · next hread => rw [if_pos hread]
  · next hwrite => rw [if_neg (by omega), if_pos hwrite]
  · next hfetch => rw [if_neg (by omega), if_neg (by omega), if_pos hfetch]
  · next hread hwrite hfetch => rw [if_neg hread, if_neg hwrite, if_neg hfetch]

variable (hop : hOp p.hdr = 6)
include hop

theorem takes_serviceShardRead (hsub : hSub p.hdr = 1) : Takes (.serviceShardRead p) p := fun s hme => by
  have hexec : exec (.serviceShardRead p) s =
    .next (takePacket p (hOp p.hdr == 6 && !(decide (2 ≤ hSub p.hdr ∧ hSub p.hdr ≤ 4))) arriveReq s) := rfl
  simp [hexec, takePacket, hme, hop, hsub]

theorem takes_serviceMirrorWrite (hsub : hSub p.hdr = 2) : Takes (.serviceMirrorWrite p) p := fun s hme => by
  have hexec : exec (.serviceMirrorWrite p) s = .next (takePacket p (hOp p.hdr == 6 && hSub p.hdr == 2) arriveReq s) := rfl
  simp [hexec, takePacket, hme, hop, hsub]

theorem takes_serviceMirrorFetch (hsub : hSub p.hdr = 3) : Takes (.serviceMirrorFetch p) p := fun s hme => by
  have hexec : exec (.serviceMirrorFetch p) s = .next (takePacket p (hOp p.hdr == 6 && hSub p.hdr == 3) arriveReq s) := rfl
  simp [hexec, takePacket, hme, hop, hsub]

theorem takes_serviceMirrorAck (hsub : hSub p.hdr = 4) : Takes (.serviceMirrorAck p) p := fun s hme => by
  have hexec : exec (.serviceMirrorAck p) s = .next (takePacket p (hOp p.hdr == 6 && hSub p.hdr == 4) arriveReq s) := rfl
  simp [hexec, takePacket, hme, hop, hsub]

end Turn

/-- Settles O43: a service request is applied to the state of its turn, whose shards, keys and mirrors are those before it; each
SUBOP then takes one branch. -/
theorem serviceRequests : Obligations.ServiceRequests := by
  intro s u p ws hdue hfrag hright hu hop hws
  subst hws
  have hbnd : u.bnd = s.bnd := hu ▸ wakeQuay_entered_reads s p (·.bnd) fun _ _ => rfl
  have hsec : u.sec = s.sec := hu ▸ wakeQuay_entered_reads s p (·.sec) fun _ _ => rfl
  have hcont : u.cont = s.cont := hu ▸ wakeQuay_entered_reads s p (·.cont) fun _ _ => rfl
  have hmanifest : manifest u = manifest s := hu ▸ wakeQuay_entered_reads s p manifest fun _ _ => rfl
  have hshard (x : Nat) : shardHeld u x = shardHeld s x := hu ▸ wakeQuay_entered_reads s p (shardHeld · x) fun _ _ => rfl
  have hturn {i : Instr} {t : State} (htakes : Takes i p) (happly : applyService p u = t) : exec i s = .next (moved p t) :=
    htakes.applied hdue ((applyReq_service hfrag hright hu hop).trans (congrArg some happly))
  have hrefuse (status : Nat) := refuse_of_ne_atomic (show hOp p.hdr ≠ 3 by omega) p.plane.val status u
  refine ⟨fun hsub hsealed hmf htag hlen hmember hstripe hheld => ?shard, fun hsub hsealed htag => ?unsealed,
    fun hsub hform hkind => ?write, fun hsub hform => ?malformed, fun m key hsub hlen hclear hm hkey => ?fetch,
    fun hsub hlen hagain hclear => ?ack, fun hsub hlen hagain hclear => ?again⟩
  case shard =>
    have hbytes : shardBytes u = shardBytes s := hu ▸ wakeQuay_entered_reads s p shardBytes fun _ _ => rfl
    have happly := applyShardRead_served (plane := p.plane.val) (h := p.hdr) (s := u) (by rwa [hbnd]) (by rwa [hsec])
      (by rwa [hmanifest]) hlen (by rwa [hbnd]) (by rwa [hbnd]) (by rwa [hshard])
    rw [hbytes] at happly
    refine ⟨(List.range 4096).map (paddedPiece (shardBytes s (wordAt (wordsOfBytes p.data) 0).toNat) 4096),
      by rw [List.length_map, List.length_range], fun b hb => ?_, ?_, ?_⟩
    · obtain ⟨i, -, rfl⟩ := List.mem_map.mp hb
      exact length_paddedPiece ..
    · have hpieces := take_flatten_paddedPieces (shardBytes s (wordAt (wordsOfBytes p.data) 0).toNat) 4096 4096
      rwa [length_shardBytes] at hpieces
    · refine hturn (takes_serviceShardRead hop hsub) ((if_pos hsub).trans (happly.trans ?_))
      refine foldl_eq_of_mem (fun t i hi => ?_) _
      rw [getD_paddedPieces _ _ (List.mem_range.mp hi)]
  case unsealed =>
    exact hturn (takes_serviceShardRead hop hsub)
      ((if_pos hsub).trans (applyShardRead_unsealed (by rwa [hbnd]) (by rwa [hsec])))
  case write =>
    exact hturn (takes_serviceMirrorWrite hop hsub)
      ((if_neg (by omega)).trans ((if_pos hsub).trans (applyMirrorWrite_stored hform hkind)))
  case malformed =>
    exact hturn (takes_serviceMirrorWrite hop hsub)
      ((if_neg (by omega)).trans ((if_pos hsub).trans ((applyMirrorWrite_malformed hform).trans (hrefuse _))))
  case fetch =>
    have hfetch {t : State} (happly : applyMirrorFetch p.plane.val p.hdr p.data u = t) :
        exec (.serviceMirrorFetch p) s = .next (moved p t) :=
      hturn (takes_serviceMirrorFetch hop hsub)
        ((if_neg (by omega)).trans ((if_neg (by omega)).trans ((if_pos hsub).trans happly)))
    rw [← hcont] at hm
    exact ⟨fun hpage hgood => hfetch (applyMirrorFetch_served hlen hclear hm hkey hpage hgood),
      fun hbad => hfetch (applyMirrorFetch_unserved hlen hclear hm hkey hbad)⟩
  case ack =>
    exact hturn (takes_serviceMirrorAck hop hsub)
      ((if_neg (by omega)).trans ((if_neg (by omega)).trans ((if_neg (by omega)).trans (applyMirrorAck_done hlen hagain hclear))))
  case again =>
    have hack : applyService p u = applyMirrorAck p.plane.val p.hdr p.data u :=
      (if_neg (by omega)).trans ((if_neg (by omega)).trans (if_neg (by omega)))
    obtain ⟨hresend, hsent⟩ := applyMirrorAck_again (plane := p.plane.val) (h := p.hdr) (s := u) hlen hagain hclear
    exact ⟨_, hturn (takes_serviceMirrorAck hop hsub) hack, hresend, hsent.trans (congrArg _ hcont)⟩

end Sys2Proof.Claim
end

section
/-! PROOFS. What a command leaves alone: the queue, and what has left on a link (R313, R410; logs 3 and 4). -/

namespace Sys2Proof.Claim

open Sys2Proof.Machine

/-- Settles O8: every command keeps what no command takes away. -/
theorem commandsOnlyAddOutputs : Obligations.CommandsOnlyAddOutputs := by
  intro c s t hexec
  have hkeeps := exec_keeps hexec
  obtain ⟨es, hes⟩ := hkeeps.sent
  exact ⟨hkeeps.queue, es, hes.symm⟩

end Sys2Proof.Claim
end

section
/-! PROOFS. The order of requests at a destination (R313, R321, R322, R326, R331). -/

namespace Sys2Proof.Machine

/-! What leaves on a link (R304, R318). -/

/-- What does not look at the ports, the totals or the outputs finds them as before a packet left. -/
theorem transmit_reads {α : Type} (f : State → α) {s : State} (hf : ∀ P T O, f { s with ports := P, tot := T, out := O } = f s)
    (plane dst attempt : Nat) (h : List Word) (data : List Byte) : f (transmit plane dst attempt h data s) = f s := by
  unfold transmit portSend
  dsimp only
  split
  · rfl
  · split
    · exact hf _ _ _
    · exact hf _ s.tot s.out

theorem x_sendAck (plane src job upto : Nat) (s : State) : (sendAck plane src job upto s).x = s.x :=
  transmit_reads (s := putDst _ s) (·.x) (fun _ _ _ => rfl) ..

theorem x_respond (plane upto : Nat) (h : List Word) (op status addr : Nat) (data : List Byte) (s : State) :
    (respond plane upto h op status addr data s).x = s.x := by
  unfold respond
  extract_lets s1 r s2
  have hack : s1.x = s.x := by
    unfold s1
    split
    · rfl
    · exact x_sendAck ..
  have hsent : s2.x = s.x := (transmit_reads (·.x) (fun _ _ _ => rfl) ..).trans hack
  split
  · exact hsent
  · exact hsent

/-- A stream that is put under a key is read back under it. -/
theorem dstOf_putDst_key {x : DstStream} {plane src job : Nat} (hplane : x.plane = plane) (hsrc : x.src = src) (hjob : x.job = job)
    (s : State) : dstOf (putDst x s) plane src job = x := by
  subst hplane hsrc hjob
  exact dstOf_putDst x s

/-! A duplicate, and a stream in which it is no request's turn (R321, R326). -/

theorem duplicate_of_ne_atomic {h : List Word} (hop : hOp h ≠ 3) (plane : Nat) (s : State) :
    duplicate plane h s = sendAck plane (hSrc h) (hJob h) (dstOf s plane (hSrc h) (hJob h)).expect s := if_neg hop

/-- An atomic that the replay table holds is answered as it was. -/
theorem duplicate_of_atomic {h : List Word} {plane : Nat} {s : State} {e : Replay} (hop : hOp h = 3)
    (hkept : replayOf s plane h = some e) : duplicate plane h s = cntAdd (hDstPart h) (cJeren + 3) 1
      (respond plane (dstOf s plane (hSrc h) (hJob h)).expect h 0x12 e.status (hAddr h) (natBytes 8 e.result) s) := by
  simp only [duplicate, if_pos hop, hkept]

theorem advance_of_noTurn {plane src job : Nat} {s : State} {x : DstStream} (hx : dstOf s plane src job = x)
    (h : ∀ e ∈ x.held, e.1 ≠ x.expect) (fuel : Nat) : advance plane src job fuel s = s := by
  cases fuel with
  | zero => rfl
  | succ fuel =>
    have hnone : x.held.find? (fun e => e.1 = x.expect) = none := List.find?_eq_none.mpr fun e he => by simpa using h e he
    simp only [advance, hx, hnone]

end Sys2Proof.Machine

namespace Sys2Proof.Claim

open Sys2Proof.Machine

/-! Each row takes the requests of its opcode and SUBOP (R314, R317). -/

/-- An opcode 4 with a reserved SUBOP is taken, and turned away, as an entry. -/
theorem takes_qpushOther {p : Packet} (hop : hOp p.hdr = 4) (hclose : hSub p.hdr ≠ 1) (hfurther : hSub p.hdr ≠ 2) :
    Takes (.qpushEntry p) p := fun s hme => by
  have hexec : exec (.qpushEntry p) s = .next (takePacket p (hOp p.hdr == 4 && hSub p.hdr != 1 && hSub p.hdr != 2) arriveReq s) := rfl
  simp [hexec, takePacket, hme, hop, hclose, hfurther]

/-- An opcode 6 with a reserved SUBOP is taken, and turned away, as a shard read. -/
theorem takes_serviceOther {p : Packet} (hop : hOp p.hdr = 6) (hsub : ¬ (2 ≤ hSub p.hdr ∧ hSub p.hdr ≤ 4)) :
    Takes (.serviceShardRead p) p := fun s hme => by
  have hexec : exec (.serviceShardRead p) s =
    .next (takePacket p (hOp p.hdr == 6 && !(decide (2 ≤ hSub p.hdr ∧ hSub p.hdr ≤ 4))) arriveReq s) := rfl
  simp [hexec, takePacket, hme, hop, hsub]

theorem takes_bulk {p : Packet} (hop : hOp p.hdr = 5) (hregion : hbmRegion (hOff p.hdr) ≠ 5) : Takes (.bulk p) p := fun s hme => by
  have hexec : exec (.bulk p) s = .next (takePacket p (hOp p.hdr == 5 && hbmRegion (hOff p.hdr) != 5) arriveReq s) := rfl
  simp [hexec, takePacket, hme, hop, hregion]

theorem takes_journalRelease {p : Packet} (hop : hOp p.hdr = 5) (hregion : hbmRegion (hOff p.hdr) = 5) :
    Takes (.journalRelease p) p := fun s hme => by
  have hexec : exec (.journalRelease p) s =
    .next (takePacket p (hOp p.hdr == 5 && hbmRegion (hOff p.hdr) == 5) arriveReq s) := rfl
  simp [hexec, takePacket, hme, hop, hregion]

theorem takes_asRequest {p : Packet} (hlow : 1 ≤ hOp p.hdr) (hhigh : hOp p.hdr ≤ 6) : Takes (asRequest p) p := by
  obtain hop | hop | hop | hop | hop | hop : hOp p.hdr = 1 ∨ hOp p.hdr = 2 ∨ hOp p.hdr = 3 ∨ hOp p.hdr = 4 ∨ hOp p.hdr = 5 ∨
    hOp p.hdr = 6 := by omega
  all_goals simp only [asRequest, hop]
  · exact takes_load hop
  · exact takes_store hop
  · exact takes_atomic hop
  · split
    · next hclose => exact takes_qpushClose hop hclose
    · next hclose =>
      split
      · next hfurther => exact takes_qpushFragment hop hfurther
      · next hfurther => exact takes_qpushOther hop hclose hfurther
  · split
    · next hregion => exact takes_journalRelease hop hregion
    · next hregion => exact takes_bulk hop hregion
  · split
    · next hwrite => exact takes_serviceMirrorWrite hop hwrite
    · next hwrite =>
      split
      · next hfetch => exact takes_serviceMirrorFetch hop hfetch
      · next hfetch =>
        split
        · next hack => exact takes_serviceMirrorAck hop hack
        · next hack =>
          have hother : ¬ (2 ≤ hSub p.hdr ∧ hSub p.hdr ≤ 4) := by omega
          exact takes_serviceOther hop hother

/-! Where an arriving request stands on its stream (R313, R321, R331). -/

section Arrives
variable {s : State} {p : Packet}

theorem arriveReq_damaged (hwhole : wholePacket p = false) : arriveReq p s = totAdd (tLanes + 2) 1 s := by
  simp [arriveReq, hwhole]

variable (hwhole : wholePacket p = true)
include hwhole

theorem arriveReq_stale (hgen : genStale s p.hdr = true) : arriveReq p s = totAdd (tLanes + 3) 1 s := by
  simp [arriveReq, hwhole, hgen]

variable (hgen : genStale s p.hdr = false)
include hgen

/-- The stream is looked at in the state in which the RESULT_ACK has freed replay entries. -/
theorem arriveReq_live {d : Nat} (hd : d = serialDiff (hSeq p.hdr) (inStream s p).expect (2 ^ 32)) : arriveReq p s =
    if 2 ^ 31 ≤ d then duplicate p.plane.val p.hdr (freeReplay p.plane.val p.hdr s)
    else if 256 ≤ d then totAdd (tLanes + 4) 1 (freeReplay p.plane.val p.hdr s)
    else if (inStream s p).held.any (fun e => e.1 == hSeq p.hdr) ∨ (d ≠ 0 ∧ 4096 ≤ heldCount s p.plane.val) then
      freeReplay p.plane.val p.hdr s
    else advance p.plane.val (hSrc p.hdr) (hJob p.hdr) ((inStream s p).held.length + 1) (putDst { inStream s p with
      held := (inStream s p).held ++ [(hSeq p.hdr, p.hdr, p.data)] } (freeReplay p.plane.val p.hdr s)) := by
  subst hd
  simp only [arriveReq, hwhole, hgen, not_true_eq_false, Bool.false_eq_true, if_false]
  rfl

/-- A request ahead of its turn is held (R321). -/
theorem arriveReq_ahead (hne : serialDiff (hSeq p.hdr) (inStream s p).expect (2 ^ 32) ≠ 0)
    (hin : serialDiff (hSeq p.hdr) (inStream s p).expect (2 ^ 32) < 256)
    (hheld : ∀ e ∈ (inStream s p).held, e.1 ≠ hSeq p.hdr ∧ e.1 ≠ (inStream s p).expect) (hroom : heldCount s p.plane.val < 4096) :
    arriveReq p s = putDst { inStream s p with held := (inStream s p).held ++ [(hSeq p.hdr, p.hdr, p.data)] }
      (freeReplay p.plane.val p.hdr s) := by
  have hnew : ¬ ((inStream s p).held.any (fun e => e.1 == hSeq p.hdr) = true ∨
      (serialDiff (hSeq p.hdr) (inStream s p).expect (2 ^ 32) ≠ 0 ∧ 4096 ≤ heldCount s p.plane.val)) := by
    rintro (hany | ⟨-, hfull⟩)
    · obtain ⟨e, he, heq⟩ := List.any_eq_true.mp hany
      exact (hheld e he).1 (beq_iff_eq.mp heq)
    · omega
  rw [arriveReq_live hwhole hgen rfl, if_neg (by omega), if_neg (by omega), if_neg hnew]
  obtain ⟨hplane, hsrc, hjob⟩ := dstOf_key s p.plane.val (hSrc p.hdr) (hJob p.hdr)
  have hput := dstOf_putDst_key (x := { inStream s p with held := (inStream s p).held ++ [(hSeq p.hdr, p.hdr, p.data)] })
    hplane hsrc hjob (freeReplay p.plane.val p.hdr s)
  refine advance_of_noTurn hput (fun e he => ?_) _
  obtain he | he := List.mem_append.mp he
  · exact (hheld e he).2
  · obtain rfl := List.mem_singleton.mp he
    rintro heq
    exact hne (by rw [show hSeq p.hdr = (inStream s p).expect from heq, serialDiff_self])

end Arrives

/-! A request in its turn that has no effect (R313, R322, R326). -/

theorem frag_entered (s : State) (p : Packet) :
    (dstOf (entered p s) p.plane.val (hSrc p.hdr) (hJob p.hdr)).frag = (inStream s p).frag := by
  rw [← inStream, inStream_entered]

section Turn
variable {s : State} {p : Packet} (hfrag : (inStream s p).frag = none)
include hfrag

theorem applyReq_ackOnly (hack : ackOnly p.hdr p.data = true) :
    applyReq p.plane.val p.hdr p.data (entered p s) = some (entered p s) := by
  simp only [applyReq, frag_entered, hfrag, hack, Option.isSome_none, Bool.false_eq_true, if_false, if_true]

theorem applyReq_fails (hack : ackOnly p.hdr p.data = false) (hstatus : reqStatus s p.hdr p.data ≠ 0) :
    applyReq p.plane.val p.hdr p.data (entered p s) =
      some (refuse p.plane.val p.hdr (reqStatus s p.hdr p.data) (entered p s)) := by
  have hstatus' : reqStatus (entered p s) p.hdr p.data = reqStatus s p.hdr p.data := rfl
  simp only [applyReq, frag_entered, hfrag, hack, hstatus', Option.isSome_none, Bool.false_eq_true, if_false, if_pos hstatus]

end Turn

/-- Settles O39: an arriving request goes by its distance from the SEQ expected; one whose turn it is is due. -/
theorem requestsRunInOrder : Obligations.RequestsRunInOrder := by
  intro s p x d hme hlow hhigh hx hd
  subst hx
  have hexec : exec (asRequest p) s = .next (arriveReq p s) := takes_asRequest hlow hhigh s hme
  simp only [hexec, Host.Outcome.next.injEq]
  refine ⟨arriveReq_damaged, arriveReq_stale, fun hwhole hgen => ?_⟩
  have hlive := arriveReq_live hwhole hgen hd
  have hdue (hturn : (inStream s p).expect = hSeq p.hdr) (hheld : (inStream s p).held = []) : Due s p :=
    ⟨hme, hwhole, hgen, hturn, hheld⟩
  refine ⟨fun hfar hnear => ?outside, fun hne hin hheld hroom => ?ahead, fun hbehind hop => ?again, fun hbehind hop e hkept => ?atomic,
    fun hturn hheld hfrag hack => ?ackOnly, fun hturn hheld hfrag hack hstatus hop => ?fails⟩
  case outside => rw [hlive, if_neg (by omega), if_pos hfar]
  case ahead => exact arriveReq_ahead hwhole hgen (hd ▸ hne) (hd ▸ hin) hheld hroom
  case again => exact (hlive.trans (if_pos hbehind)).trans (duplicate_of_ne_atomic hop ..)
  case atomic =>
    have hagain := (hlive.trans (if_pos hbehind)).trans (duplicate_of_atomic hop hkept)
    exact ⟨_, rfl, (congrArg (·.x) hagain).trans (x_respond ..), hagain⟩
  case ackOnly => exact (hdue hturn hheld).arriveReq_applied (applyReq_ackOnly hfrag hack)
  case fails =>
    have hrefuse := refuse_of_ne_atomic hop p.plane.val (reqStatus s p.hdr p.data) (entered p s)
    exact (hdue hturn hheld).arriveReq_applied ((applyReq_fails hfrag hack hstatus).trans (congrArg some hrefuse))

end Sys2Proof.Claim
end

section
/-! PROOFS. Responses at the source of their requests (R313, R315, R322, R326, R331, R357). -/

namespace Sys2Proof.Machine

section Arrives
variable {p : Packet} {s : State} (ops : List Nat) (f : OutReq → Packet → State → State)

theorem arriveResp_damaged (hwhole : wholePacket p = false) : arriveResp ops f p s = totAdd (tLanes + 2) 1 s := by
  simp [arriveResp, hwhole]

theorem arriveAck_damaged (hwhole : wholePacket p = false) : arriveAck p s = totAdd (tLanes + 2) 1 s := by
  simp [arriveAck, hwhole]

variable (hwhole : wholePacket p = true)
include hwhole

theorem arriveResp_stale (hjob : hJob p.hdr ≠ serviceJob) (hgen : genOf s (hJob p.hdr) ≠ hGen p.hdr) :
    arriveResp ops f p s = totAdd (tLanes + 3) 1 s := by
  simp [arriveResp, hwhole, hjob, hgen]

theorem arriveAck_stale (hjob : hJob p.hdr ≠ serviceJob) (hgen : genOf s (hJob p.hdr) ≠ hGen p.hdr) :
    arriveAck p s = totAdd (tLanes + 3) 1 s := by
  simp [arriveAck, hwhole, hjob, hgen]

end Arrives

/-! What a reply of a service brings (R264, R315, R357). -/

section Service
variable {r : OutReq} {p : Packet} {s : State}

theorem serviceReply_ends (hend : hW6 p.hdr % 65536 ≠ 0 ∨ p.data = []) : serviceReply r p s = byStatus r p s := if_pos hend

variable (hstatus : hW6 p.hdr % 65536 = 0) (hdata : p.data ≠ [])
include hstatus hdata

/-- A piece of a member's shard. -/
theorem serviceReply_shard {m : Nat} (hsub : hSub r.hdr = 1) (hmember : positionOf s (hSrc p.hdr) = some m) : serviceReply r p s =
    if (memberPiece m (hAddr p.hdr / 4096 % 4096) p.data s).bnd.rebuilds.head?.any fun b => (tget b.pieces m).isSome then
      memberPiece m (hAddr p.hdr / 4096 % 4096) p.data s
    else byStatus r p (memberPiece m (hAddr p.hdr / 4096 % 4096) p.data s) := by
  have hpiece : ¬ (hW6 p.hdr % 65536 ≠ 0 ∨ p.data = []) := not_or.mpr ⟨not_not_intro hstatus, hdata⟩
  simp only [serviceReply, if_neg hpiece, hsub, hmember]

/-- A piece of a mirrored page that is not the last. -/
theorem serviceReply_page {q slot tbl i : Nat} {fs : List (Nat × Nat × Nat × Nat)} (hsub : hSub r.hdr = 3)
    (hfetch : s.cont.fetches = (q, slot, tbl, i) :: fs)
    (hmore : (s.cont.fetched.filter fun e => e.1 != hAddr p.hdr / 4096 % 4096).length + 1 < unitsOf s q slot i) :
    serviceReply r p s = modCont (fun c => { c with fetched := (s.cont.fetched.filter fun e =>
      e.1 != hAddr p.hdr / 4096 % 4096) ++ [(hAddr p.hdr / 4096 % 4096, p.data)] }) s := by
  have hpiece : ¬ (hW6 p.hdr % 65536 ≠ 0 ∨ p.data = []) := not_or.mpr ⟨not_not_intro hstatus, hdata⟩
  simp only [serviceReply, if_neg hpiece, hsub, fetchPiece, hfetch, List.length_append, List.length_singleton, if_pos hmore]

end Service

end Sys2Proof.Machine

namespace Sys2Proof.Claim

open Sys2Proof.Machine

/-! Each row takes the responses of its opcode (R313, R322). -/

/-- A response is taken at any Active port of its plane, whatever its address names. -/
theorem forMe_response {s : State} {p : Packet} (hports : activePorts s p.plane.val ≠ []) (hlow : 0x10 ≤ hOp p.hdr)
    (hhigh : hOp p.hdr ≤ 0x14) : forMe s p = true := by
  have hmgmt : hOp p.hdr < 0x20 := by omega
  simp [forMe, hports, hlow, hhigh, hmgmt]

section Rows
variable {s : State} {p : Packet} (hports : activePorts s p.plane.val ≠ [])
include hports

theorem exec_loadResp (hop : hOp p.hdr = 0x10) : exec (.loadResp p) s = .next (arriveResp [1] byStatus p s) := by
  have hexec : exec (.loadResp p) s = .next (takePacket p (hOp p.hdr == 0x10) (arriveResp [1] byStatus) s) := rfl
  simp [hexec, takePacket, forMe_response hports, hop]

theorem exec_ack (hop : hOp p.hdr = 0x11) : exec (.ack p) s = .next (arriveAck p s) := by
  have hexec : exec (.ack p) s = .next (takePacket p (hOp p.hdr == 0x11) arriveAck s) := rfl
  simp [hexec, takePacket, forMe_response hports, hop]

theorem exec_atomicResp (hop : hOp p.hdr = 0x12) : exec (.atomicResp p) s = .next (arriveResp [3] byStatus p s) := by
  have hexec : exec (.atomicResp p) s = .next (takePacket p (hOp p.hdr == 0x12) (arriveResp [3] byStatus) s) := rfl
  simp [hexec, takePacket, forMe_response hports, hop]

theorem exec_error (hop : hOp p.hdr = 0x13) : exec (.error p) s = .next (arriveResp [1, 2, 3, 4, 5, 6] byStatus p s) := by
  have hexec : exec (.error p) s = .next (takePacket p (hOp p.hdr == 0x13) (arriveResp [1, 2, 3, 4, 5, 6] byStatus) s) := rfl
  simp [hexec, takePacket, forMe_response hports, hop]

theorem exec_serviceResp (hop : hOp p.hdr = 0x14) : exec (.serviceResp p) s = .next (arriveResp [6] serviceReply p s) := by
  have hexec : exec (.serviceResp p) s = .next (takePacket p (hOp p.hdr == 0x14) (arriveResp [6] serviceReply) s) := rfl
  simp [hexec, takePacket, forMe_response hports, hop]

/-- A response is looked up among the requests of its stream, and an ACK is held against all of them. -/
theorem exec_asResponse (hlow : 0x10 ≤ hOp p.hdr) (hhigh : hOp p.hdr ≤ 0x14) : ∃ g, exec (asResponse p) s = .next (g p s) ∧
    (hOp p.hdr = 0x11 ∧ g = arriveAck ∨ ∃ ops f, g = arriveResp ops f) := by
  obtain hop | hop | hop | hop | hop : hOp p.hdr = 0x10 ∨ hOp p.hdr = 0x11 ∨ hOp p.hdr = 0x12 ∨ hOp p.hdr = 0x13 ∨ hOp p.hdr = 0x14 := by
    omega
  all_goals simp only [asResponse, hop]
  · exact ⟨_, exec_loadResp hports hop, .inr ⟨_, _, rfl⟩⟩
  · exact ⟨_, exec_ack hports hop, .inl ⟨trivial, rfl⟩⟩
  · exact ⟨_, exec_atomicResp hports hop, .inr ⟨_, _, rfl⟩⟩
  · exact ⟨_, exec_error hports hop, .inr ⟨_, _, rfl⟩⟩
  · exact ⟨_, exec_serviceResp hports hop, .inr ⟨_, _, rfl⟩⟩

end Rows

/-! A response that is taken (R322, R331). -/

section Answers
variable {s : State} {p : Packet} (hans : Answers s p)
include hans

theorem Answers.ports : activePorts s p.plane.val ≠ [] := hans.1

theorem Answers.live : ¬ (hJob p.hdr ≠ serviceJob ∧ genOf s (hJob p.hdr) ≠ hGen p.hdr) := by
  obtain ⟨-, -, hgen⟩ := hans
  exact fun ⟨hjob, hold⟩ => hgen.elim hjob hold

/-- It completes its request by what `f` does, and the source may send on. -/
theorem Answers.arriveResp_asked {ops : List Nat} {r : OutReq} (hasked : Asked s p ops r) (f : OutReq → Packet → State → State) :
    arriveResp ops f p s =
      pumpDst (hSrc p.hdr) (hJob p.hdr) (noteResponse p.plane.val (hSrc p.hdr) (hJob p.hdr) (f r p s)) := by
  have hlive := hans.live
  obtain ⟨-, hwhole, -⟩ := hans
  have hfind : (streamOf s p.plane.val (hSrc p.hdr) (hJob p.hdr)).outs.find?
    (fun o => o.seq == hSeq p.hdr && decide (hOp o.hdr ∈ ops)) = some r := hasked
  simp only [arriveResp, hwhole, not_true_eq_false, if_false, if_neg hlive, hfind]

theorem Answers.arriveResp_unasked (ops : List Nat) (f : OutReq → Packet → State → State)
    (hnone : ∀ o ∈ (outStream s p).outs, o.seq ≠ hSeq p.hdr) : arriveResp ops f p s = s := by
  have hlive := hans.live
  obtain ⟨-, hwhole, -⟩ := hans
  have hfind : (streamOf s p.plane.val (hSrc p.hdr) (hJob p.hdr)).outs.find?
      (fun o => o.seq == hSeq p.hdr && decide (hOp o.hdr ∈ ops)) = none :=
    List.find?_eq_none.mpr fun o ho => by simp [hnone o ho]
  simp only [arriveResp, hwhole, not_true_eq_false, if_false, if_neg hlive, hfind]

theorem Answers.arriveAck_eq : arriveAck p s = pumpDst (hSrc p.hdr) (hJob p.hdr)
    (((outStream s p).outs.filter fun o => decide (hOp o.hdr ∈ [2, 4, 5]) && seqGe (hSeq p.hdr) o.seq).foldl
      (fun t o => finishReq p.plane.val (hSrc p.hdr) (hJob p.hdr) o 0 t) s) := by
  have hlive := hans.live
  obtain ⟨-, hwhole, -⟩ := hans
  simp only [arriveAck, hwhole, not_true_eq_false, if_false, if_neg hlive, outStream]

end Answers

/-- Settles O44: a response that is taken is looked up among the requests of its stream; what it brings then takes one branch. -/
theorem responsesCompleteRequests : Obligations.ResponsesCompleteRequests := by
  intro s p r
  refine ⟨fun hans hop hasked => ?load, fun hans hop hasked => ?atomic, fun hans hop hasked => ?error, fun hans hop => ?ack,
    fun hans hop hasked hend => ?service, fun m hans hop hasked hstatus hdata hsub hmember => ?shard,
    fun q slot tbl i fs hans hop hasked hstatus hdata hsub hfetch hmore => ?page, fun hports hlow hhigh => ?dropped⟩
  case load => exact (exec_loadResp hans.ports hop).trans (congrArg _ (hans.arriveResp_asked hasked byStatus))
  case atomic => exact (exec_atomicResp hans.ports hop).trans (congrArg _ (hans.arriveResp_asked hasked byStatus))
  case error => exact (exec_error hans.ports hop).trans (congrArg _ (hans.arriveResp_asked hasked byStatus))
  case ack => exact (exec_ack hans.ports hop).trans (congrArg _ hans.arriveAck_eq)
  case service =>
    rw [exec_serviceResp hans.ports hop, hans.arriveResp_asked hasked, serviceReply_ends hend]
    rfl
  case shard =>
    have hpiece := serviceReply_shard hstatus hdata hsub hmember
    refine ⟨fun hmore => ?_, fun hlast => ?_⟩
    · rw [exec_serviceResp hans.ports hop, hans.arriveResp_asked hasked, hpiece, if_pos hmore]
    · rw [exec_serviceResp hans.ports hop, hans.arriveResp_asked hasked, hpiece, hlast, if_neg Bool.false_ne_true, byStatus, hstatus]
      rfl
  case page =>
    rw [exec_serviceResp hans.ports hop, hans.arriveResp_asked hasked, serviceReply_page hstatus hdata hsub hfetch hmore]
  case dropped =>
    obtain ⟨g, hexec, hg⟩ := exec_asResponse hports hlow hhigh
    rw [hexec]
    refine ⟨fun hwhole => ?damaged, fun hwhole hjob hgen => ?stale, fun hans hop hnone => ?unasked⟩
    case damaged =>
      obtain ⟨-, rfl⟩ | ⟨ops, f, rfl⟩ := hg
      · exact congrArg _ (arriveAck_damaged hwhole)
      · exact congrArg _ (arriveResp_damaged ops f hwhole)
    case stale =>
      obtain ⟨-, rfl⟩ | ⟨ops, f, rfl⟩ := hg
      · exact congrArg _ (arriveAck_stale hwhole hjob hgen)
      · exact congrArg _ (arriveResp_stale ops f hwhole hjob hgen)
    case unasked =>
      obtain ⟨hack, -⟩ | ⟨ops, f, rfl⟩ := hg
      · exact absurd hack hop
      · exact congrArg _ (hans.arriveResp_unasked ops f hnone)

end Sys2Proof.Claim
end

section
/-! PROOFS. The timers of a stream (R314, R322, R323, R326). -/

namespace Sys2Proof.Machine

/-! Streams at their source (R320). -/

theorem streamOf_key (s : State) (plane dst job : Nat) :
    (streamOf s plane dst job).plane = plane ∧ (streamOf s plane dst job).dst = dst ∧ (streamOf s plane dst job).job = job := by
  unfold streamOf
  cases hfind : s.fab.src.find? fun x => x.plane = plane ∧ x.dst = dst ∧ x.job = job with
  | none => exact ⟨rfl, rfl, rfl⟩
  | some x =>
    have hkey := List.find?_some hfind
    exact of_decide_eq_true hkey

/-- A stream that is put under a key is read back under it. -/
theorem streamOf_putStream {x : SrcStream} {plane dst job : Nat} (hplane : x.plane = plane) (hdst : x.dst = dst)
    (hjob : x.job = job) (s : State) : streamOf (putStream x s) plane dst job = x := by
  subst hplane hdst hjob
  have hsame : (fun y : SrcStream => decide (y.plane = x.plane ∧ y.dst = x.dst ∧ y.job = x.job)) =
      fun y => y.plane == x.plane && y.dst == x.dst && y.job == x.job := by
    funext y; simp [Bool.and_assoc, Bool.beq_eq_decide_eq]
  simp only [streamOf, hsame, putStream, modFab]
  split
  · next hany => rw [find?_map_replace (by simp) hany, Option.getD_some]
  · next hany =>
    rw [List.find?_append, List.find?_eq_none.mpr (by simpa using hany)]
    simp

/-! Each timer by its cases. -/

theorem ackTimer_even {plane src job : Nat} {s : State} (h : (dstOf s plane src job).acked = (dstOf s plane src job).expect) :
    ackTimer plane src job s = s := if_pos h

theorem ackTimer_behind {plane src job : Nat} {s : State} (h : (dstOf s plane src job).acked ≠ (dstOf s plane src job).expect) :
    ackTimer plane src job s = sendAck plane src job (dstOf s plane src job).expect s := if_neg h

theorem resultTimer_of_notDue {plane dst job : Nat} {s : State} (h : (streamOf s plane dst job).resultDue = false) :
    resultTimer plane dst job s = s := if_neg (Bool.eq_false_iff.mp h)

/-- A RESULT_ACK without a request to carry it leaves in a STORE of no bytes (R326). -/
theorem resultTimer_due {plane dst job : Nat} {s : State} (h : (streamOf s plane dst job).resultDue = true)
    (hsource : sourceStatus s job dst = 0) : resultTimer plane dst job s = streamSend plane dst job
      { hdr := mkHdr 0x02 0 0 job (myPkg s) 0 (genOf s job) (fabAddr dst 0 0) 0 0 s.fab.tags 0 }
      (modFab (fun f => { f with tags := (f.tags + 1) % 65536 }) s) := by
  simp [resultTimer, h, issue, issueKeep, hsource]

section Resend
variable {plane dst job seq : Nat} {s : State} {r : OutReq}
  (hout : (streamOf s plane dst job).outs.find? (fun o => o.seq = seq) = some r)
  (hopen : (streamOf s plane dst job).paused = false)
include hout hopen

/-- Up to the fourth time a request is sent again. -/
theorem resendTimeout_again (hsends : r.sends < 4) : resendTimeout plane dst job seq s =
    resendReq plane dst job r.sends r (r.part.elim s fun q => cntAdd q (cJeren + 2) 1 s) := by
  simp only [resendTimeout, hout, hopen, Bool.false_eq_true, if_false, if_pos hsends]
  cases r.part <;> rfl

/-- After the fourth its stream pauses, and the manager hears of the destination. -/
theorem resendTimeout_pauses (hsends : 4 ≤ r.sends) : resendTimeout plane dst job seq s =
    logPkg 0x0A0A false dst plane (modMgr (fun m => { m with
        unreachable := if (dst, plane) ∈ m.unreachable then m.unreachable else m.unreachable ++ [(dst, plane)] })
      (putStream { streamOf s plane dst job with paused := true } s)) := by
  simp only [resendTimeout, hout, hopen, Bool.false_eq_true, if_false, if_neg (Nat.not_lt_of_le hsends)]

end Resend

/-- A request that is sent again keeps its SEQ, and states the RESULT_ACK of its stream. Its stream is that of the state before a
partition counted the resend. -/
theorem resendReq_counted (plane dst job : Nat) (r : OutReq) (s : State) :
    resendReq plane dst job r.sends r (r.part.elim s fun q => cntAdd q (cJeren + 2) 1 s) =
      transmit plane dst r.sends (stampHdr r.hdr r.seq (resultAck (streamOf s plane dst job))) r.data (putStream
        { streamOf s plane dst job with
          outs := (streamOf s plane dst job).outs.map fun o => if o.seq = r.seq then
            { r with hdr := stampHdr r.hdr r.seq (resultAck (streamOf s plane dst job)), sends := r.sends + 1 } else o
          resultDue := false } (r.part.elim s fun q => cntAdd q (cJeren + 2) 1 s)) := by
  have hstream : streamOf (r.part.elim s fun q => cntAdd q (cJeren + 2) 1 s) plane dst job = streamOf s plane dst job := by
    cases r.part <;> rfl
  simp only [resendReq, hstream]

theorem mgmtResend_some {i : Nat} {m : Mgmt} {s : State} (h : s.fab.mgmt[i]? = some m) :
    mgmtResend i s = transmit (mgmtPlane s m.plane m.dst) m.dst 0 m.hdr m.data s := by
  simp only [mgmtResend, h]

theorem mgmtResend_none {i : Nat} {s : State} (h : s.fab.mgmt.length ≤ i) : mgmtResend i s = s := by
  simp only [mgmtResend, List.getElem?_eq_none h]

end Sys2Proof.Machine

namespace Sys2Proof.Claim

open Sys2Proof.Machine

/-- Settles O45: each timer takes one branch. -/
theorem streamTimers : Obligations.StreamTimers := by
  intro s plane peer job
  refine ⟨fun heven => congrArg _ (ackTimer_even heven), fun hbehind => congrArg _ (ackTimer_behind hbehind),
    fun hnone => congrArg _ (resultTimer_of_notDue hnone), fun hdue hsource => congrArg _ (resultTimer_due hdue hsource),
    fun seq r x hx hout hopen => ?resend, fun i m hm => congrArg _ (mgmtResend_some hm), fun i hi => congrArg _ (mgmtResend_none hi)⟩
  case resend =>
    subst hx
    refine ⟨fun hfew => ?again, fun hmany => ?pauses⟩
    case again => exact congrArg _ ((resendTimeout_again hout hopen hfew).trans (resendReq_counted ..))
    case pauses =>
      obtain ⟨hplane, hdst, hjob⟩ := streamOf_key s plane.val peer.val job.val
      have hread := streamOf_putStream (x := { streamOf s plane.val peer.val job.val with paused := true }) hplane hdst hjob s
      have hpaused (u : State) (hfab : u.fab = (putStream { streamOf s plane.val peer.val job.val with paused := true } s).fab) :
          streamOf u plane.val peer.val job.val = { streamOf s plane.val peer.val job.val with paused := true } := by
        rw [streamOf, hfab, ← streamOf, hread]
      refine ⟨_, congrArg Host.Outcome.next (resendTimeout_pauses hout hopen hmany), ?_, ?_, ?_, (HostOnly.logEvent ..).x⟩
      · simp only [logPkg_frame, modMgr_own]
        split
        · assumption
        · exact List.mem_append_right _ (List.mem_singleton_self _)
      · rw [hpaused _ (by simp)]
      · rw [hpaused _ (by simp)]

end Sys2Proof.Claim
end

section
/-! PROOFS. ROUTE_TABLE at a member that has reported a destination unreachable (R302, R318, R323): the statement of what a member does
leaves out that its reports for the plane end with the new table. -/

namespace Sys2Proof.Claim

open Sys2Proof.Machine

/-- Package 0 with one Active port, which has found package 5 unreachable on plane 0 (R302). -/
def reportsUnreachable : State :=
  { State.reset with ports := [(0, { st := .active })], mgr := { State.reset.mgr with unreachable := [(5, 0)] } }

/-- A ROUTE_TABLE without entries for plane 0 of package 0, from package 1. -/
def bareRouteTable : Packet :=
  { plane := 0, hdr := sealHdr (mkHdr 0x2A 0 2 serviceJob 1 0 0 (fabAddr 0 0 0) 0 0 0 0) 0 [], data := [] }

theorem managed_bareRouteTable : Managed reportsUnreachable bareRouteTable 0x2A := by
  unfold Managed
  decide +kernel

/-- The report goes with the table that it was made under. -/
theorem exec_bareRouteTable : ∃ t, exec (.routeTable bareRouteTable) reportsUnreachable = .next t ∧ t.mgr.unreachable = [] :=
  ⟨_, rfl, by decide +kernel⟩

/-- What the statement has follow instead: the new table and its echo, and the report as it was. -/
def routeTableClaimed : State :=
  pumpSources (resumeStreams 0 (echo bareRouteTable (modFab (fun f => { f with
    routes := (wordsOfBytes bareRouteTable.data).foldl (fun t w => routeEntry 0 w t) (f.routes.filter fun q => q.1 / 128 != 0) })
    reportsUnreachable)))

theorem unreachable_routeTableClaimed : routeTableClaimed.mgr.unreachable = [(5, 0)] := by decide +kernel

/-- Refutes O46: a ROUTE_TABLE also drops the member's reports of destinations that were unreachable on its plane, which the
ROUTE_TABLE clause leaves standing. -/
theorem not_memberManagement : ¬ Obligations.MemberManagement := by
  intro h
  obtain ⟨-, -, -, -, -, -, hroutes, -⟩ := h reportsUnreachable bareRouteTable {} 0 0
  have hclaimed : exec (.routeTable bareRouteTable) reportsUnreachable = .next routeTableClaimed :=
    hroutes 0 managed_bareRouteTable rfl (by decide +kernel)
  obtain ⟨t, ht, hdropped⟩ := exec_bareRouteTable
  obtain rfl : t = routeTableClaimed := Host.Outcome.next.inj (ht.symm.trans hclaimed)
  rw [unreachable_routeTableClaimed] at hdropped
  exact nomatch hdropped

end Sys2Proof.Claim
end

section
/-! PROOFS. The manager of the fabric and its standby (R329, R332, R338, R341, R342, R491). -/

namespace Sys2Proof.Machine

/-! Acknowledgements at the manager (R329, R338, R342). -/

section Acks
variable {p : Packet} {s : State} {j g : Nat} (hjob : jobGenOf p.data = (j, g))
include hjob

theorem arriveTeardownAck_eq : arriveTeardownAck p s = endTeardowns (modMgr (fun m => { m with tds := m.tds.map fun d =>
    if d.job = j ∧ d.gen = g then { d with wait := d.wait.filter (· != hSrc p.hdr) } else d })
    (mgmtDone 0x21 (hSrc p.hdr) (fun d => jobGenOf d == (j, g)) s)) := by
  simp only [arriveTeardownAck, hjob]

/-- A member that has taken a job map up is one less to wait for. -/
theorem arriveJobMapAck_taken {w : Nat × Nat × List Nat} (hstatus : hW6 p.hdr % 65536 = 0)
    (hwait : s.mgr.mapWait.find? (fun w => w.1 = j ∧ w.2.1 = g) = some w) : arriveJobMapAck p s =
      if w.2.2.filter (· != hSrc p.hdr) = [] then
        mapDone j (modMgr (fun m => { m with mapWait := m.mapWait.filter fun x => x.1 != j })
          (mgmtDone 0x23 (hSrc p.hdr) (fun d => jobGenOf d == (j, g)) s))
      else modMgr (fun m => { m with mapWait := (m.mapWait.filter fun x => x.1 != j) ++ [(j, g, w.2.2.filter (· != hSrc p.hdr))] })
        (mgmtDone 0x23 (hSrc p.hdr) (fun d => jobGenOf d == (j, g)) s) := by
  have hwait' : (mgmtDone 0x23 (hSrc p.hdr) (fun d => jobGenOf d == (j, g)) s).mgr.mapWait.find?
    (fun w => w.1 = j ∧ w.2.1 = g) = some w := hwait
  simp only [arriveJobMapAck, hjob, if_pos hstatus, hwait']
  split
  · simp only [List.append_nil]
  · rfl

/-- A member without room makes the job unmappable (R329). -/
theorem arriveJobMapAck_refused (hstatus : hW6 p.hdr % 65536 ≠ 0) (hnone : s.mgr.mapWait = []) : arriveJobMapAck p s =
    modMgr (fun m => { m with jobs := m.jobs.map fun e => if e.job = j then { e with st := .unmapped } else e })
      (mgmtDone 0x23 (hSrc p.hdr) (fun d => jobGenOf d == (j, g)) s) := by
  have hnone' : (mgmtDone 0x23 (hSrc p.hdr) (fun d => jobGenOf d == (j, g)) s).mgr.mapWait = [] := hnone
  simp only [arriveJobMapAck, hjob, if_neg hstatus, modMgr_own, hnone', List.find?_nil]

end Acks

theorem teardownOver_none {job : Nat} {s : State} (h : ∀ d ∈ s.mgr.tds, d.job ≠ job) : teardownOver job s = s := by
  have hnone : s.mgr.tds.find? (fun d => d.job = job) = none := List.find?_eq_none.mpr fun d hd => by simpa using h d hd
  simp only [teardownOver, hnone]

theorem teardownOver_some {job : Nat} {s : State} {d : Td} (h : s.mgr.tds.find? (fun d => d.job = job) = some d) :
    teardownOver job s = endTeardowns (d.wait.foldl (fun t m => declareDead m t) (modMgr (fun m => { m with
      tds := m.tds.map fun x => if x.job = job then { x with wait := [] } else x }) s)) := by
  simp only [teardownOver, h]

/-! A JOIN at the manager (R341, R491). -/

/-- The first word of some bytes is that of any part of them that holds it. -/
theorem wordAt_wordsOfBytes_take (bs : List Byte) (n : Nat) :
    wordAt (wordsOfBytes (bs.take (4 + n))) 0 = wordAt (wordsOfBytes (bs.take 4)) 0 := by
  match bs with
  | [] | [_] | [_, _] | [_, _, _] =>
    rw [List.take_of_length_le (by simp only [List.length_cons, List.length_nil]; omega), List.take_of_length_le (by simp)]
  | a :: b :: c :: d :: rest =>
    rw [Nat.add_comm]
    rfl

/-- The package that a JOIN names. -/
def joinPkg (data : List Byte) : Nat := fld (wordAt (wordsOfBytes (data.take 4)) 0) 0 7

/-- The status of a JOIN goes by the packages that have joined, with it and before it. -/
theorem joinStatus_eq (s : State) (data : List Byte) : joinStatus s data =
    if 72 ≤ joinedWith s (joinPkg data) then 0x0A06
    else if hasJoined s (joinPkg data) then 0x0A07
    else if data.length ≠ 4520 ∨ fld (wordAt (wordsOfBytes (data.take 8)) 0) 8 3 ≠ 2 ∨
      ¬ evidenceOk s (joinPkg data) (data.drop 8) then 0x0A08 else 0 := by
  simp only [joinStatus, joinPkg, wordAt_wordsOfBytes_take data 4]

section Join
variable {p : Packet} {s : State}

theorem arriveJoin_first (hmgr : s.mgr.active = true) (hsub : hSub p.hdr = 0) :
    arriveJoin p s = modMgr (fun m => { m with joins := tset m.joins (hSrc p.hdr) p.data }) s := by
  simp [arriveJoin, hmgr, hsub]

theorem arriveJoin_second {first : List Byte} (hmgr : s.mgr.active = true) (hsub : hSub p.hdr ≠ 0)
    (hfirst : tget s.mgr.joins (hSrc p.hdr) = some first) : arriveJoin p s =
      judgeJoin (hSrc p.hdr) (first ++ p.data) (modMgr (fun m => { m with joins := terase m.joins (hSrc p.hdr) }) s) := by
  simp [arriveJoin, hmgr, hsub, hfirst]

end Join

/-- A JOIN that is no repeat is turned away with its status. -/
theorem judgeJoin_refused {src : Nat} {data : List Byte} {s : State}
    (hnew : ∀ e ∈ s.mgr.joined, e.pkg = joinPkg data → e.evid ≠ sha256 data) (hstatus : joinStatus s data ≠ 0) :
    judgeJoin src data s = logPkg 0x0A09 false (joinStatus s data) (joinPkg data)
      (mgmtSend 0x26 0 src (joinStatus s data) (wordBytes (w32 (joinStatus s data))) s) := by
  have hnone : s.mgr.joined.find? (fun e => e.pkg = joinPkg data ∧ e.evid = sha256 data) = none :=
    List.find?_eq_none.mpr fun e he => by simpa using hnew e he
  have hpkg : fld (wordAt (wordsOfBytes (data.take 4)) 0) 0 7 = joinPkg data := rfl
  simp only [judgeJoin, hpkg, hnone, if_pos hstatus]

/-! LEAVE and the journal of the manager's record (R332, R342). -/

section Manager
variable {p : Packet} {s : State}

theorem arriveLeave_elsewhere (hmgr : s.mgr.active = false) : arriveLeave p s = s := by
  simp [arriveLeave, hmgr]

theorem arriveLeave_joined (hmgr : s.mgr.active = true) (hjoined : hasJoined s (hSrc p.hdr) = true)
    (hnew : hSrc p.hdr ∉ s.mgr.leaves) : arriveLeave p s =
      endLeave (hSrc p.hdr) (((allJobs s).filter fun e => decide (hSrc p.hdr ∈ e.members)).foldl
        (fun t e => propose 2 (hSrc p.hdr) e.job (jobWords { e with st := .draining }) t)
        (modMgr (fun m => { m with leaves := m.leaves ++ [hSrc p.hdr] }) s)) := by
  simp [arriveLeave, hmgr, hjoined, hnew]

theorem arriveStateCopy_standby (hmgr : s.mgr.active = false) :
    arriveStateCopy p s = echo p (applyRecord (recordFrom p.data) s) := if_neg (Bool.eq_false_iff.mp hmgr)

/-- The manager acts on the change whose record its standby has echoed. -/
theorem arriveCopyEcho_acts {c : Change} (hmgr : s.mgr.active = true) (hstby : s.mgr.stby = some (hSrc p.hdr))
    (hchange : s.mgr.changes.find? (fun c => recordData c == p.data) = some c) : arriveCopyEcho p s =
      endTeardowns (commitChange c (modMgr (fun m => { m with changes := m.changes.filter fun x => x.id != c.id })
        (mgmtDone 0x29 (hSrc p.hdr) (fun d => d == p.data) s))) := by
  have hchange' : (mgmtDone 0x29 (hSrc p.hdr) (fun d => d == p.data) s).mgr.changes.find?
    (fun c => recordData c == p.data) = some c := hchange
  simp only [arriveCopyEcho, hmgr, hstby, not_true_eq_false, ne_eq, or_self, if_false, hchange']

end Manager

end Sys2Proof.Machine

namespace Sys2Proof.Claim

open Sys2Proof.Machine

/-- A management packet that is for this package and whole is taken by the row of its opcode (R313, R314). -/
theorem Managed.takePacket {s : State} {p : Packet} {op : Nat} (h : Managed s p op) (f : Packet → State → State) :
    takePacket p (hOp p.hdr == op && wholePacket p) f s = f p s := by
  obtain ⟨hme, hop, hwhole⟩ := h
  simp [Machine.takePacket, hme, hop, hwhole]

/-- Settles O47: each packet is taken by its row, which does one thing with it in each case. -/
theorem managerRole : Obligations.ManagerRole := by
  intro s p src j g hsrc
  subst hsrc
  have hrow {op : Nat} (h : Managed s p op) {f : Packet → State → State} {t : State} (ht : f p s = t) :
      Host.Outcome.next (σ := State) (φ := Fault) (ρ := Refusal) (takePacket p (hOp p.hdr == op && wholePacket p) f s) = .next t :=
    congrArg _ ((h.takePacket f).trans ht)
  refine ⟨fun h hjob => hrow h (arriveTeardownAck_eq hjob), fun w h hjob hwait => ?taken, fun h hjob hstatus hnone => ?refused,
    fun h hmgr hsub => hrow h (arriveJoin_first hmgr hsub), fun first pkg st h hmgr hsub hfirst hpkg hst hnew => ?join,
    fun h hmgr hjoined hnew => hrow h (arriveLeave_joined hmgr hjoined hnew), fun h hmgr => hrow h (arriveLeave_elsewhere hmgr),
    fun h hmgr => hrow h (arriveStateCopy_standby hmgr),
    fun c h hmgr hstby hchange => hrow h (arriveCopyEcho_acts hmgr hstby hchange),
    fun job d hd => congrArg _ (teardownOver_some hd), fun job hnone => congrArg _ (teardownOver_none hnone)⟩
  case taken =>
    exact ⟨fun hstatus hleft => hrow h ((arriveJobMapAck_taken hjob hstatus hwait).trans (if_neg hleft)),
      fun hstatus hleft => hrow h ((arriveJobMapAck_taken hjob hstatus hwait).trans (if_pos hleft))⟩
  case refused =>
    refine ⟨_, hrow h (arriveJobMapAck_refused hjob hstatus hnone), fun e he hej => ?_⟩
    obtain ⟨o, -, rfl⟩ := List.mem_map.mp he
    split at hej
    · next ho => rw [if_pos ho]
    · next ho => exact absurd hej ho
  case join =>
    replace hpkg : pkg = joinPkg (first ++ p.data) := hpkg
    subst hpkg hst
    rw [joinStatus_eq]
    refine ⟨fun hstatus => ?_, fun hfull => if_pos hfull, fun hroom hjoined => ?_⟩
    · rw [← joinStatus_eq] at hstatus ⊢
      exact hrow h ((arriveJoin_second hmgr hsub hfirst).trans (judgeJoin_refused hnew hstatus))
    · rw [if_neg (Nat.not_le_of_lt hroom), if_pos hjoined]

end Sys2Proof.Claim
end

section
/-! PROOFS. Joining the fabric (R314, R341, R491; log 65). -/

namespace Sys2Proof.Machine

/-! A management packet that is kept until its answer arrives (R314). -/

theorem hOp_mkHdr {op : Nat} (hop : op < 256) (subop vc job src srcPart gen addr seq len tag w6 : Nat) :
    hOp (mkHdr op subop vc job src srcPart gen addr seq len tag w6) = op := by
  have hword : (op + subop * 2 ^ 8 + vc * 2 ^ 14 + job * 2 ^ 16) % 2 ^ 32 / 2 ^ 0 % 2 ^ 8 = op := by omega
  simpa only [hOp, fld, wordAt, mkHdr, w32, List.cons_append, List.getD_cons_zero, BitVec.toNat_ofNat] using hword

/-- The record of such a packet. -/
def asked (op subop dst w6 : Nat) (data : List Byte) (s : State) : Mgmt :=
  { plane := mgmtPlane s 0 dst, dst, hdr := mgmtHdr s op subop dst data.length w6, data }

theorem mgmt_mgmtAsk (op subop dst w6 : Nat) (data : List Byte) (s : State) :
    (mgmtAsk op subop dst w6 data s).fab.mgmt = s.fab.mgmt ++ [asked op subop dst w6 data s] := by
  have hsent : (transmit (mgmtPlane s 0 dst) dst 0 (mgmtHdr s op subop dst data.length w6) data s).fab = s.fab :=
    transmit_reads (·.fab) (fun _ _ _ => rfl) ..
  simp only [mgmtAsk, modFab_own, hsent, asked]

theorem x_mgmtAsk (op subop dst w6 : Nat) (data : List Byte) (s : State) : (mgmtAsk op subop dst w6 data s).x = s.x :=
  transmit_reads (·.x) (fun _ _ _ => rfl) ..

/-! JOIN in its two packets (R341). -/

/-- The record of a JOIN packet to package `m`. -/
def IsJoin (m : Nat) (q : Mgmt) : Prop := hOp q.hdr = 0x25 ∧ q.dst = m

theorem isJoin_asked (subop m w6 : Nat) (data : List Byte) (s : State) : IsJoin m (asked 0x25 subop m w6 data s) :=
  ⟨hOp_mkHdr (by decide) .., rfl⟩

theorem sendJoin_some {m : Nat} {s : State} (h : s.fab.knownMgr = some m) : (sendJoin s).x = s.x ∧
    ∃ a b, (sendJoin s).fab.mgmt = s.fab.mgmt ++ [a, b] ∧ IsJoin m a ∧ IsJoin m b := by
  have hsend : sendJoin s = mgmtAsk 0x25 1 m 0 ((joinData m s).1.drop 4096)
      (mgmtAsk 0x25 0 m 0 ((joinData m s).1.take 4096) (joinData m s).2) := by
    simp only [sendJoin, h]
  have hmgmt : (joinData m s).2.fab.mgmt = s.fab.mgmt := rfl
  rw [hsend, mgmt_mgmtAsk, mgmt_mgmtAsk, hmgmt, List.append_assoc]
  exact ⟨(x_mgmtAsk ..).trans (x_mgmtAsk ..), _, _, rfl, isJoin_asked .., isJoin_asked ..⟩

theorem tryJoin_of_not {s : State} (h : canJoin s = false) : tryJoin s = s := if_neg (Bool.eq_false_iff.mp h)

theorem not_joining_of_canJoin {s : State} (h : canJoin s = true) : joining s = false := by
  cases hj : joining s with
  | false => rfl
  | true => simp [canJoin, hj] at h

theorem canJoin_of_joining {s : State} (h : joining s = true) : canJoin s = false := by
  cases hj : canJoin s with
  | false => rfl
  | true => simp [not_joining_of_canJoin hj] at h

theorem canJoin_of_noManager {s : State} (h : s.fab.knownMgr = none) : canJoin s = false := by
  simp [canJoin, h]

/-- An earlier refusal is forgotten (R341). -/
def unrefused (s : State) : State := modFab (fun f => { f with refused := false }) s

theorem fabricJoin_joined {r : Request} {s : State} (hjoined : s.host.hm.joined = true) (hcut : s.host.hm.cutOff = false) :
    fabricJoin r s = reply r 0 [] s := by
  simp [fabricJoin, hjoined, hcut]

/-- A package that has not joined sends JOIN where it may, whatever an earlier refusal said. -/
theorem fabricJoin_apart {r : Request} {s u : State} (hjoined : s.host.hm.joined = false)
    (hu : tryJoin (unrefused s) = u) : fabricJoin r s =
      if joining u then modFab (fun f => { f with joinFor := f.joinFor ++ [r] }) u else reply r 0x0A0A [] u := by
  subst hu
  exact if_neg fun ⟨hin, _⟩ => Bool.eq_false_iff.mp hjoined hin

end Sys2Proof.Machine

namespace Sys2Proof.Claim

open Sys2Proof.Machine

theorem exec_fabricJoin {s : State} {m : MbxId} {r : Request} (h : Heads s m 0x0B01 r) :
    exec (.fabricJoin m) s = .next (fabricJoin r (taken s)) := congrArg _ (h.takeCmd fabricJoin)

/-- Settles O48: the request goes by whether JOIN is on its way when it has been taken. -/
theorem fabricJoining : Obligations.FabricJoining := by
  intro s m r hhead
  rw [exec_fabricJoin hhead]
  have hapart (hjoined : s.host.hm.joined = false) {u : State} (hu : tryJoin (unrefused (taken s)) = u) :=
    fabricJoin_apart (r := r) (s := taken s) hjoined hu
  refine ⟨fun hjoined hcut => congrArg _ (fabricJoin_joined hjoined hcut), fun hjoined hmgr hnone => ?cannot,
    fun hjoined hway => ?onItsWay, fun k hjoined hcan hmgr => ?sends⟩
  case cannot =>
    have htry : tryJoin (unrefused (taken s)) = unrefused (taken s) := tryJoin_of_not (canJoin_of_noManager hmgr)
    exact congrArg _ ((hapart hjoined htry).trans (if_neg (Bool.eq_false_iff.mp hnone)))
  case onItsWay =>
    have htry : tryJoin (unrefused (taken s)) = unrefused (taken s) := tryJoin_of_not (canJoin_of_joining hway)
    exact congrArg _ ((hapart hjoined htry).trans (if_pos hway))
  case sends =>
    have htry : tryJoin (unrefused (taken s)) = sendJoin (unrefused (taken s)) := if_pos hcan
    have hnot : joining s = false := not_joining_of_canJoin (s := unrefused s) hcan
    obtain ⟨hx, a, b, hmgmt, ⟨haop, hadst⟩, hbop, hbdst⟩ := sendJoin_some (s := unrefused (taken s)) hmgr
    replace hmgmt : (sendJoin (unrefused (taken s))).fab.mgmt = s.fab.mgmt ++ [a, b] := hmgmt
    have hway : joining (sendJoin (unrefused (taken s))) = true := by simp [joining, hmgmt, haop]
    have hnone : s.fab.mgmt.filter (fun q => hOp q.hdr == 0x25 && q.dst == k) = [] :=
      List.filter_eq_nil_iff.mpr fun q hq => by simp [List.any_eq_false.mp hnot q hq]
    refine ⟨_, congrArg Host.Outcome.next ((hapart hjoined htry).trans (if_pos hway)), hway,
      List.mem_append_right _ (List.mem_singleton_self r), ?_, hx⟩
    rw [modFab_own, hmgmt, List.filter_append, hnone]
    simp [haop, hadst, hbop, hbdst]

end Sys2Proof.Claim
end

section
/-! PROOFS. A heartbeat that falls due on a manager to which a destination is reported unreachable (R323, R334): the statement of the
heartbeats leaves out that the manager then acts on the report. -/

namespace Sys2Proof.Claim

open Sys2Proof.Machine

/-- A joined manager with no other package, to which package 5 is reported unreachable on plane 0. -/
def managerHears : State :=
  { State.reset with
    host := { State.reset.host with hm := { State.reset.host.hm with joined := true, manager := true } }
    mgr := { State.reset.mgr with active := true, unreachable := [(5, 0)] } }

/-- The manager takes the report up with its heartbeat. -/
theorem exec_heartbeatTimer_managerHears : ∃ t, exec .heartbeatTimer managerHears = .next t ∧ t.mgr.unreachable = [] :=
  ⟨_, rfl, by decide +kernel⟩

/-- What the statement has follow instead: no package has missed its interval, and a heartbeat leaves. -/
def heartbeatClaimed : State := sendHeartbeat (totAdd (tLanes + 6) 0 managerHears)

theorem unreachable_heartbeatClaimed : heartbeatClaimed.mgr.unreachable = [(5, 0)] := by decide +kernel

/-- Refutes O49: with its heartbeat a manager also takes up the destinations reported unreachable, which the clause of the manager's
heartbeat leaves standing. -/
theorem not_heartbeatsAndElections : ¬ Obligations.HeartbeatsAndElections := by
  intro h
  obtain ⟨-, -, -, htimer, -⟩ := h managerHears { plane := 0, hdr := [], data := [] } _ _ rfl rfl
  have hclaimed : exec .heartbeatTimer managerHears = .next heartbeatClaimed := htimer rfl rfl
  obtain ⟨t, ht, htaken⟩ := exec_heartbeatTimer_managerHears
  obtain rfl : t = heartbeatClaimed := Host.Outcome.next.inj (ht.symm.trans hclaimed)
  rw [unreachable_heartbeatClaimed] at htaken
  exact nomatch htaken

end Sys2Proof.Claim
end

section
/-! PROOFS. A lost signal in a state whose port table holds more than 18 ports (R303, R305): the statement of training speaks of every
state, and there the total of a port's downs is the total of another port's flits. -/

namespace Sys2Proof.Claim

open Sys2Proof.Machine

/-- A manager with its standby in package 1, whose path there is a port 234, which no package has (R303): the totals of flits sent
and of downs stand 234 places apart. Port 0 is Active. -/
def portBeyondTable : State :=
  { State.reset with
    ports := [(0, { st := .active }), (234, { st := .active })]
    fab := { State.reset.fab with routes := [(1, [234])] }
    mgr := { State.reset.mgr with active := true, stby := some 1 } }

/-- As port 0 goes down, the journal record to the standby leaves by port 234, and its flit is counted where the down was. -/
theorem tot_linkSignalLost : ∃ t, exec (.linkSignalLost 0) portBeyondTable = .next t ∧ tgetD t.tot tDowns 0 = 2 :=
  ⟨_, rfl, by decide +kernel⟩

/-- Refutes O50: the last clause has a lost signal add 1 to the downs of its port in every state, and not only in those whose ports
are the 18 that a package has. -/
theorem not_linkTraining : ¬ Obligations.LinkTraining := by
  intro h
  obtain ⟨-, -, -, -, -, -, -, -, -, -, -, -, -, hlost⟩ := h portBeyondTable 0 0 0 0 none _ rfl
  obtain ⟨u, hu, -, -, -, -, hone⟩ := hlost rfl
  obtain ⟨t, ht, htwo⟩ := tot_linkSignalLost
  obtain rfl : t = u := Host.Outcome.next.inj (ht.symm.trans hu)
  have hsame : 2 = (tgetD portBeyondTable.tot tDowns 0 + 1) % 2 ^ 64 := htwo.symm.trans hone
  exact absurd hsame (by decide +kernel)

end Sys2Proof.Claim
end

section
/-! PROOFS. A port that is down takes part in nothing that leaves (R305, R318, R323, R341). -/

namespace Sys2Proof.Machine

/-! A packet that leaves or waits at a port (R304, R307). -/

theorem portOf_portNow (p : Nat) (hdr : List Word) (data : List Byte) (s : State) (k : Nat) :
    portOf (portNow p hdr data s) k =
      let fl := packetFlits (portOf s p).txSeq (bytesOfWords hdr ++ pad32 data)
      portOf (modPort p (fun q => { q with
        txSeq := (q.txSeq + fl.length) % 4096, replay := q.replay ++ fl,
        credits := tset q.credits (hVc hdr) (tgetD q.credits (hVc hdr) 0 + fl.length) }) s) k :=
  rfl

theorem portOf_portSend_ne {p k : Nat} (h : p ≠ k) (hdr : List Word) (data : List Byte) (s : State) :
    portOf (portSend p hdr data s) k = portOf s k := by
  unfold portSend
  dsimp only
  split
  · exact (portOf_portNow p hdr data s k).trans (portOf_modPort_ne _ s h)
  · exact portOf_modPort_ne _ s h

/-- What does not look at the sending side of a port finds every port as before a packet was sent. -/
theorem portOf_portSend {α : Type} {f : Port → α}
    (hf : ∀ q a b c d, f { q with txSeq := a, replay := b, credits := c, txWait := d } = f q) (p : Nat) (hdr : List Word)
    (data : List Byte) (s : State) (k : Nat) : f (portOf (portSend p hdr data s) k) = f (portOf s k) := by
  by_cases h : p = k
  · subst h
    unfold portSend
    dsimp only
    split
    · rw [portOf_portNow, portOf_modPort]
      exact hf _ _ _ _ _
    · rw [portOf_modPort]
      exact hf _ _ _ _ _
  · exact congrArg f (portOf_portSend_ne h hdr data s)

theorem portOf_portDrain {α : Type} {f : Port → α}
    (hf : ∀ q a b c d, f { q with txSeq := a, replay := b, credits := c, txWait := d } = f q) (p : Nat) (s : State) :
    f (portOf (portDrain p s) p) = f (portOf s p) := by
  have hsend (es : List (List Word × List Byte)) (t : State) :
      f (portOf (es.foldl (fun t e => portSend p e.1 e.2 t) t) p) = f (portOf t p) := by
    induction es generalizing t with
    | nil => rfl
    | cons e es ih => exact (ih _).trans (portOf_portSend hf ..)
  refine (hsend _ _).trans ((congrArg f (portOf_modPort p _ s)).trans ?_)
  exact hf _ _ _ _ _

theorem modPort_modPort (p : Nat) (f g : Port → Port) (s : State) : modPort p f (modPort p g s) = modPort p (fun q => f (g q)) s := by
  have hown : portOf (modPort p g s) p = g (portOf s p) := portOf_modPort ..
  unfold modPort at hown ⊢
  dsimp only at hown ⊢
  rw [hown, tset_tset_same]

/-! A port that is down (R305, R308). -/

/-- Port `p` is not Active and has nothing to replay. -/
def Down (p : Nat) (s : State) : Prop := (portOf s p).st ≠ .active ∧ (portOf s p).replay = []

namespace Down

variable {p : Nat} {s t : State}

theorem of_port (h : Down p s) (hport : portOf t p = portOf s p) : Down p t := by rwa [Down, hport]

theorem foldl {α : Type} {f : State → α → State} (hf : ∀ t x, Down p t → Down p (f t x)) (xs : List α) (h : Down p s) :
    Down p (xs.foldl f s) := by
  induction xs generalizing s with
  | nil => exact h
  | cons x xs ih => exact ih (hf s x h)

/-- A packet takes an Active port. -/
theorem transmit (h : Down p s) (plane dst attempt : Nat) (hdr : List Word) (data : List Byte) :
    Down p (transmit plane dst attempt hdr data s) := by
  unfold Machine.transmit
  dsimp only
  split
  · exact h
  · next k hpath =>
    have hactive : portActive s k = true := List.find?_some hpath
    have hne : k ≠ p := fun heq => h.1 (beq_iff_eq.mp (heq ▸ hactive))
    exact h.of_port (portOf_portSend_ne hne ..)

theorem mgmtAsk (h : Down p s) (op subop dst w6 : Nat) (data : List Byte) : Down p (mgmtAsk op subop dst w6 data s) :=
  h.transmit ..

theorem sendHeartbeat (h : Down p s) : Down p (sendHeartbeat s) := by
  unfold Machine.sendHeartbeat
  split
  · exact h
  · exact (foldl (fun t d ht => foldl (fun t q ht => ht.transmit ..) _ ht) _ h :)

theorem portsIdle (h : Down p s) : Down p (portsIdle s) := by
  obtain ⟨-, hreplay⟩ := h
  have hmap := tget_map (fun _ (q : Port) => { q with st := .idle }) s.ports p
  unfold portOf tgetD at hreplay
  unfold Down portOf tgetD Machine.portsIdle
  rw [hmap]
  cases hport : tget s.ports p with
  | none => exact ⟨nofun, rfl⟩
  | some q =>
    rw [hport] at hreplay
    exact ⟨nofun, hreplay⟩

theorem logPkg (h : Down p s) (code : Nat) (fault : Bool) (w4 w5 : Nat) : Down p (logPkg code fault w4 w5 s) :=
  h.of_port (by simp)

/-- The package that leaves its serving set idles its ports. -/
theorem checkSet (h : Down p s) : Down p (checkSet s) := by
  unfold Machine.checkSet
  split
  · exact h
  · split
    · unfold declareFailed
      split
      · exact h
      · exact (show Down p (modHm _ (Machine.logPkg ..)) from h.logPkg ..).sendHeartbeat.portsIdle
    · exact h

/-! Streams at their source, and what a new path sets going (R320, R323). -/

theorem resendReq (h : Down p s) (plane dst job n : Nat) (r : OutReq) : Down p (resendReq plane dst job n r s) :=
  (show Down p (putStream _ s) from h).transmit ..

theorem sendNow (h : Down p s) (plane dst job : Nat) (r : OutReq) : Down p (sendNow plane dst job r s) :=
  (show Down p (putStream _ s) from h).transmit ..

theorem streamPump (h : Down p s) (home dst job fuel : Nat) : Down p (streamPump home dst job fuel s) := by
  induction fuel generalizing s with
  | zero => exact h
  | succ fuel ih =>
    unfold Machine.streamPump
    dsimp only
    split
    · exact h
    · split
      · exact h
      · exact ih ((show Down p (putStream _ s) from h).sendNow ..)

theorem pumpDst (h : Down p s) (dst job : Nat) : Down p (pumpDst dst job s) :=
  foldl (fun _ _ ht => ht.streamPump ..) _ h

theorem resumeStreams (h : Down p s) (plane : Nat) : Down p (resumeStreams plane s) := by
  refine foldl (fun t x ht => ?_) _ h
  exact (foldl (fun u r hu => hu.resendReq ..) _ (show Down p (putStream _ t) from ht)).pumpDst ..

theorem routesAll (h : Down p s) : Down p (routesAll s) := by
  refine (foldl (fun t e ht => ?_) _ h).resumeStreams 0 |>.resumeStreams 1
  unfold sendRoutes
  split
  · exact ht
  · exact foldl (fun u plane hu => (show Down p (draw u).2 from hu).mgmtAsk ..) _ ht

/-- New route tables are proposed: they go to the standby first, where there is one (R332). -/
theorem propose_routes (h : Down p s) (pkg job : Nat) (words : List Word) : Down p (propose 5 pkg job words s) := by
  unfold propose
  dsimp only
  split
  · exact (show Down p (modMgr _ s) from h).routesAll
  · exact (show Down p (modMgr _ (modMgr _ s)) from h).mgmtAsk ..

end Down

theorem down_portDown {p : Nat} {s : State} (hactive : portActive s p = true) (cause : Nat) : Down p (portDown p cause s) := by
  unfold portDown
  rw [if_neg (not_not_intro hactive)]
  extract_lets s1 s2
  have h1 : Down p s1 := by
    unfold Down s1
    rw [portOf_modPort]
    exact ⟨nofun, rfl⟩
  have h2 : Down p s2 := ((show Down p (totAdd (tDowns + p) 1 s1) from h1).logPkg ..).checkSet
  split
  · exact h2.propose_routes ..
  · exact h2

end Sys2Proof.Machine
end

section
/-! PROOFS. Flits, retry and lane sparing at an Active port (R304, R307 to R310). -/

namespace Sys2Proof.Machine

/-! A flit that arrives (R304, R307, R309). -/

theorem rxSeq_takeAckField (p ack : Nat) (s : State) : (portOf (takeAckField p ack s) p).rxSeq = (portOf s p).rxSeq := by
  refine (portOf_portDrain (f := Port.rxSeq) (fun _ _ _ _ _ => rfl) p _).trans ?_
  rw [portOf_modPort]

theorem nak_takeAckField (p ack : Nat) (s : State) : (portOf (takeAckField p ack s) p).nak = (portOf s p).nak := by
  refine (portOf_portDrain (f := Port.nak) (fun _ _ _ _ _ => rfl) p _).trans ?_
  rw [portOf_modPort]

theorem portActive_iff {p : Nat} {s : State} : portActive s p = true ↔ (portOf s p).st = .active := beq_iff_eq

theorem flitIn_shut {p : Nat} {s : State} {bytes : List Byte} (h : (portOf s p).st ≠ .active ∨ bytes.length ≠ 272) (plane : Fin 2)
    (control : Bool) : flitIn p plane control bytes s = s :=
  if_pos (h.imp_left (mt portActive_iff.mp ·))

section FlitIn
variable {p : Nat} {plane : Fin 2} {control : Bool} {s : State} {bytes r : List Byte} (hactive : (portOf s p).st = .active)
  (hlen : bytes.length = 272) (hfix : flitFix bytes = (r, []))
include hactive hlen hfix

/-- A flit in which nothing was corrected. -/
theorem flitIn_uncorrected : flitIn p plane control bytes s =
    if ¬ flitGood r then crcFailed p [] s
    else if (fld (flitHead r) 24 4 == 2) != control ∨ 2 < fld (flitHead r) 24 4 then s
    else if control then takeNak p (wordAt (flitWords r) 0) (takeCredits p (flitWords r) (takeAckField p (fld (flitHead r) 12 12) s))
    else if fld (flitHead r) 24 4 = 1 then takeAckField p (fld (flitHead r) 12 12) s
    else if fld (flitHead r) 0 12 = (portOf s p).rxSeq then acceptData p plane r (takeAckField p (fld (flitHead r) 12 12) s)
    else if (portOf s p).nak ∨ 2048 ≤ serialDiff (fld (flitHead r) 0 12) (portOf s p).rxSeq 4096 then
      takeAckField p (fld (flitHead r) 12 12) s
    else sendNak p (takeAckField p (fld (flitHead r) 12 12) s) := by
  have hopen : ¬ (¬ portActive s p ∨ bytes.length ≠ 272) :=
    not_or.mpr ⟨not_not_intro (portActive_iff.mpr hactive), not_not_intro hlen⟩
  have hnone : countFixes p [] s = s := rfl
  simp only [flitIn, if_neg hopen, hfix, hnone, rxSeq_takeAckField, nak_takeAckField]

variable (hgood : flitGood r = true)
include hgood

theorem flitIn_control (hty : fld (flitHead r) 24 4 = 2) : flitIn p plane true bytes s =
    takeNak p (wordAt (flitWords r) 0) (takeCredits p (flitWords r) (takeAckField p (fld (flitHead r) 12 12) s)) := by
  rw [flitIn_uncorrected hactive hlen hfix, if_neg (not_not_intro hgood), if_neg (by simp [hty]), if_pos rfl]

theorem flitIn_idle (hty : fld (flitHead r) 24 4 = 1) :
    flitIn p plane false bytes s = takeAckField p (fld (flitHead r) 12 12) s := by
  rw [flitIn_uncorrected hactive hlen hfix, if_neg (not_not_intro hgood), if_neg (by simp [hty]), if_neg Bool.false_ne_true,
    if_pos hty]

theorem flitIn_wrongRow (hty : fld (flitHead r) 24 4 = 2) : flitIn p plane false bytes s = s := by
  rw [flitIn_uncorrected hactive hlen hfix, if_neg (not_not_intro hgood), if_pos (by simp [hty])]

/-- A data flit goes by its FSEQ. -/
theorem flitIn_data (hty : fld (flitHead r) 24 4 = 0) : flitIn p plane false bytes s =
    if fld (flitHead r) 0 12 = (portOf s p).rxSeq then acceptData p plane r (takeAckField p (fld (flitHead r) 12 12) s)
    else if (portOf s p).nak ∨ 2048 ≤ serialDiff (fld (flitHead r) 0 12) (portOf s p).rxSeq 4096 then
      takeAckField p (fld (flitHead r) 12 12) s
    else sendNak p (takeAckField p (fld (flitHead r) 12 12) s) := by
  rw [flitIn_uncorrected hactive hlen hfix, if_neg (not_not_intro hgood), if_neg (by simp [hty]), if_neg Bool.false_ne_true,
    if_neg (by omega)]

end FlitIn

/-! ACK that does not advance (R307, R308). -/

theorem ackStalled_shut {p : Nat} {s : State} (h : (portOf s p).replay = [] ∨ (portOf s p).st ≠ .active) : ackStalled p s = s := by
  unfold ackStalled
  split
  · next hactive =>
    have hempty : (portOf s p).replay = [] := h.resolve_right (not_not_intro (portActive_iff.mp hactive))
    simp only [resendFrom, hempty, List.getElem?_nil]
  · rfl

theorem mapIdx_ignore {α β : Type} (f : α → β) (xs : List α) : xs.mapIdx (fun _ x => f x) = xs.map f := by
  rw [List.mapIdx_eq_zipIdx_map]
  exact List.map_map.symm.trans (congrArg (List.map f) (List.zipIdx_map_fst 0 xs))

/-- A run of flits resent. -/
theorem out_foldl_flit (p : Nat) (fs : List Flit) (s : State) :
    (fs.foldl (fun t g => emit (.flit p g.fseq g.payload) t) s) =
      { s with out := s.out ++ fs.map fun g => .flit p g.fseq g.payload } := by
  induction fs generalizing s with
  | nil => simp
  | cons f fs ih => rw [List.foldl_cons, ih]; simp [emit]

/-- A port after each flit that it has to replay was sent once more. -/
def Port.resent (q : Port) : Port := { q with replay := q.replay.map fun g => { g with resends := g.resends + 1 } }

section Stall
variable {p : Nat} {s : State} {f : Flit} {fs : List Flit} (hactive : (portOf s p).st = .active)
  (hreplay : (portOf s p).replay = f :: fs)
include hactive hreplay

theorem ackStalled_down (hmany : 8 ≤ f.resends) : ackStalled p s = portDown p 1 s := by
  simp only [ackStalled, portActive_iff.mpr hactive, if_true, resendFrom, hreplay, List.getElem?_cons_zero, if_pos hmany]

/-- Every unacknowledged flit is resent, and counts one resend more. -/
theorem ackStalled_resends (hfew : f.resends < 8) : ackStalled p s =
    let t := totAdd (tRetries + p) 1 (modPort p Port.resent s)
    { t with out := t.out ++ (f :: fs).map fun g => .flit p g.fseq g.payload } := by
  simp only [ackStalled, portActive_iff.mpr hactive, if_true, resendFrom, hreplay, List.getElem?_cons_zero,
    if_neg (Nat.not_le_of_lt hfew), List.drop_zero, out_foldl_flit, Nat.zero_le, mapIdx_ignore]
  rfl

end Stall

/-! Lane 8 takes over a lane (R310). -/

theorem spareDone_none {p : Nat} {s : State} (h : (portOf s p).sparing = false) (good : Bool) : spareDone p good s = s := by
  simp [spareDone, h]

section Spare
variable {p : Nat} {s : State} (hsparing : (portOf s p).sparing = true)
include hsparing

theorem spareDone_good : spareDone p true s =
    portDrain p (resendAll p (modPort p (fun x => { x with sparing := false }) s)) := by
  simp [spareDone, hsparing]

/-- A lane 8 that fails is faulty itself, and the port narrows. -/
theorem spareDone_bad (hdead : (portOf s p).dead = false) (hwhole : 8 ∉ (portOf s p).faulty) (hspared : (portOf s p).spared ≠ none) :
    spareDone p false s = portDrain p (narrow p (modPort p (fun x => { x with sparing := false, faulty := x.faulty ++ [8] }) s)) := by
  obtain ⟨i, hi⟩ := Option.ne_none_iff_exists'.mp hspared
  have hfaulty : laneFaulty p 8 (modPort p (fun x => { x with sparing := false }) s) =
      narrow p (modPort p (fun x => { x with faulty := x.faulty ++ [8] }) (modPort p (fun x => { x with sparing := false }) s)) := by
    simp [laneFaulty, hdead, hwhole, lanePos, hi]
  simp only [spareDone, hsparing, not_true_eq_false, if_false, Bool.false_eq_true, hfaulty, modPort_modPort]

end Spare

end Sys2Proof.Machine

namespace Sys2Proof.Claim

open Sys2Proof.Machine

/-- Settles O51: a flit goes by its CRC, its TYPE and its FSEQ; a port that is brought down stays so through all that follows from it. -/
theorem linkFlits : Obligations.LinkFlits := by
  intro s port bytes r q hq
  subst hq
  refine ⟨fun hshut => ?shut, fun hactive hlen hfix => ?flit, fun f fs hactive hreplay => ?stall,
    fun hshut => congrArg _ (ackStalled_shut hshut), fun hnone => ?noSpare, fun hsparing => congrArg _ (spareDone_good hsparing),
    fun hsparing hdead hwhole hspared => congrArg _ (spareDone_bad hsparing hdead hwhole hspared)⟩
  case shut => exact ⟨congrArg _ (flitIn_shut hshut ..), congrArg _ (flitIn_shut hshut ..)⟩
  case flit =>
    refine ⟨fun hbad => congrArg Host.Outcome.next ?bad, fun hgood hty hnext => congrArg Host.Outcome.next ?next,
      fun hgood hty hgap hnak hnear => congrArg Host.Outcome.next ?gap,
      fun hgood hty hgap hold => congrArg Host.Outcome.next ?old, fun hgood hty => congrArg _ (flitIn_idle hactive hlen hfix hgood hty),
      fun hgood hty => congrArg _ (flitIn_control hactive hlen hfix hgood hty),
      fun hgood hty => congrArg _ (flitIn_wrongRow hactive hlen hfix hgood hty)⟩
    case bad => rw [flitIn_uncorrected hactive hlen hfix, hbad, if_pos Bool.false_ne_true]
    case next => rw [flitIn_data hactive hlen hfix hgood hty, if_pos hnext]
    case gap =>
      have hnew : ¬ ((portOf s port.val).nak = true ∨ 2048 ≤ serialDiff (fld (flitHead r) 0 12) (portOf s port.val).rxSeq 4096) :=
        not_or.mpr ⟨Bool.eq_false_iff.mp hnak, Nat.not_le_of_lt hnear⟩
      rw [flitIn_data hactive hlen hfix hgood hty, if_neg hgap, if_neg hnew]
    case old => rw [flitIn_data hactive hlen hfix hgood hty, if_neg hgap, if_pos hold]
  case stall =>
    refine ⟨fun hfew => ⟨_, congrArg Host.Outcome.next (ackStalled_resends hactive hreplay hfew), rfl, ?_, ?_, rfl⟩, fun hmany => ?_⟩
    · exact (congrArg Port.replay (portOf_modPort _ Port.resent s)).trans (congrArg _ hreplay)
    · exact (congrArg Port.st (portOf_modPort _ Port.resent s)).trans hactive
    · obtain ⟨hdown, hempty⟩ := down_portDown (portActive_iff.mpr hactive) 1
      exact ⟨_, congrArg Host.Outcome.next (ackStalled_down hactive hreplay hmany), hdown, hempty⟩
  case noSpare => exact ⟨congrArg _ (spareDone_none hnone true), congrArg _ (spareDone_none hnone false)⟩

end Sys2Proof.Claim
end

section
/-! PROOFS. Rings, records and counts within their bounds (R370, R509, R522 to R525), and the invariants at reset. -/

namespace Sys2Proof.Machine

/-- A step takes at most one command off the queue, and keeps from there what no command takes away. -/
theorem step_keeps {s t : State} (h : step s = .next t) : ∃ rest, Keeps { s with pending := rest } t := by
  unfold step at h
  split at h
  · obtain rfl := Host.Outcome.next.inj h
    exact ⟨s.pending, tick_keeps (keeps_refl s)⟩
  · exact ⟨_, exec_keeps h⟩

end Sys2Proof.Machine

namespace Sys2Proof.Claim

open Sys2Proof.Machine

theorem stepKeepsRingBounds : StepKeepsRingBounds := by
  intro s t hrings hstep
  obtain ⟨rest, hkeeps⟩ := step_keeps hstep
  exact hkeeps.rings hrings

theorem stepKeepsCountBounds : StepKeepsCountBounds := by
  intro s t hcounts hstep
  obtain ⟨rest, hkeeps⟩ := step_keeps hstep
  exact hkeeps.counts hcounts

/-- Settles O9: a step is a tick or a command, and each keeps the rings within their sizes and the counts within their bounds. -/
theorem stepKeepsBounds : Obligations.StepKeepsBounds := ⟨stepKeepsRingBounds, stepKeepsCountBounds⟩

/-- Settles O4: at reset every memory, ring and total is empty, no stop of service is under way and no fuse of the count is blown. -/
theorem resetMeetsInvariants : Obligations.ResetMeetsInvariants := by
  have hmem : MemOk State.reset := ⟨rfl, rfl, rfl⟩
  have hrings : RingsOk State.reset := ⟨Nat.zero_le _, Nat.zero_le _, Nat.zero_le _, Nat.zero_le _⟩
  have hcounts : CountsOk State.reset := ⟨List.forall_mem_nil _, Nat.zero_le _⟩
  have hlife : LifeOk State.reset := ⟨Nat.zero_le _, fun _ _ hstop => nomatch hstop⟩
  exact ⟨hmem, hrings, hcounts, hlife, Nat.zero_le _⟩

end Sys2Proof.Claim
end

section
/-! PROOFS. The start of the package, and what a cold start keeps (R371, R443, R465, R473, R475, R477, R478, R484, R485, R514 to R516). -/

namespace Sys2Proof.Machine

/-! Operations on ports and on the link only (R305, R348). -/

/-- What executes, the power state, the contacts, the boot chain and the host's side are in `t` as in `s`. -/
structure PortsOnly (s t : State) : Prop where
  x : t.x = s.x
  pw : t.pw = s.pw
  pins : t.pins = s.pins
  boot : t.boot = s.boot
  host : t.host = s.host

namespace PortsOnly

theorem refl (s : State) : PortsOnly s s := ⟨rfl, rfl, rfl, rfl, rfl⟩

theorem trans {s t u : State} (h : PortsOnly s t) (k : PortsOnly t u) : PortsOnly s u :=
  ⟨k.x.trans h.x, k.pw.trans h.pw, k.pins.trans h.pins, k.boot.trans h.boot, k.host.trans h.host⟩

theorem foldl {α : Type} {f : State → α → State} (hf : ∀ t x, PortsOnly t (f t x)) (xs : List α) (s : State) :
    PortsOnly s (xs.foldl f s) := by
  induction xs generalizing s with
  | nil => exact refl s
  | cons x xs ih => exact (hf s x).trans (ih (f s x))

theorem modPort (k : Nat) (f : Port → Port) (s : State) : PortsOnly s (modPort k f s) := ⟨rfl, rfl, rfl, rfl, rfl⟩

theorem transmit (plane dst attempt : Nat) (h : List Word) (data : List Byte) (s : State) :
    PortsOnly s (transmit plane dst attempt h data s) := by
  unfold Machine.transmit portSend
  dsimp only
  split
  · exact refl s
  · split
    · exact ⟨rfl, rfl, rfl, rfl, rfl⟩
    · exact modPort ..

theorem sendHeartbeat (s : State) : PortsOnly s (sendHeartbeat s) := by
  unfold Machine.sendHeartbeat
  split
  · exact refl s
  · exact (foldl (fun t _ => foldl (fun _ _ => transmit ..) _ t) _ s).trans ⟨rfl, rfl, rfl, rfl, rfl⟩

end PortsOnly

/-! Ports that begin to train (R305). -/

/-- A port that is idle and not dead begins to train. -/
def detectPort (t : State) (p : Nat) : State :=
  if (portOf t p).st = .idle ∧ ¬ (portOf t p).dead then modPort p (fun q => { q with st := .detect }) t else t

theorem portsDetect_eq (s : State) : portsDetect s = (List.range 18).foldl detectPort s := rfl

theorem PortsOnly.detectPort (t : State) (p : Nat) : PortsOnly t (detectPort t p) := by
  unfold Machine.detectPort
  split
  · exact modPort ..
  · exact refl t

theorem PortsOnly.portsDetect (s : State) : PortsOnly s (portsDetect s) := foldl detectPort _ s

theorem portOf_detectPort_ne {p k : Nat} (h : p ≠ k) (t : State) : portOf (detectPort t p) k = portOf t k := by
  unfold detectPort
  split
  · exact portOf_modPort_ne _ t h
  · rfl

theorem st_detectPort_same {t : State} {p : Nat} (hidle : (portOf t p).st = .idle) (hlive : (portOf t p).dead = false) :
    (portOf (detectPort t p) p).st = .detect := by
  rw [detectPort, if_pos ⟨hidle, Bool.eq_false_iff.mp hlive⟩, portOf_modPort]

/-- A port that trains is left as it is. -/
theorem st_detectPort_of_detect {t : State} {k : Nat} (h : (portOf t k).st = .detect) (p : Nat) :
    (portOf (detectPort t p) k).st = .detect := by
  by_cases hp : p = k
  · subst hp
    have hnot : ¬ ((portOf t p).st = .idle ∧ ¬ (portOf t p).dead) := fun hidle => PortState.noConfusion (h.symm.trans hidle.1)
    rw [detectPort, if_neg hnot, h]
  · rw [portOf_detectPort_ne hp, h]

theorem st_foldl_detectPort {ps : List Nat} {s : State} {k : Nat} (hk : k ∈ ps) (hidle : (portOf s k).st = .idle)
    (hlive : (portOf s k).dead = false) : (portOf (ps.foldl detectPort s) k).st = .detect := by
  induction ps generalizing s with
  | nil => exact nomatch hk
  | cons p ps ih =>
    by_cases hp : p = k
    · subst hp
      exact List.foldlRecOn (motive := fun t => (portOf t p).st = .detect) ps detectPort (st_detectPort_same hidle hlive)
        fun t ht q _ => st_detectPort_of_detect ht q
    · have hsame := portOf_detectPort_ne hp s
      exact ih ((List.mem_cons.mp hk).resolve_left (Ne.symm hp)) (hsame ▸ hidle) (hsame ▸ hlive)

theorem st_portsDetect {s : State} {p : Nat} (hp : p < 18) (hidle : (portOf s p).st = .idle) (hlive : (portOf s p).dead = false) :
    (portOf (portsDetect s) p).st = .detect := st_foldl_detectPort (List.mem_range.mpr hp) hidle hlive

/-! A package that declares itself failed (R348). -/

/-- The failure and its cause show in the registers and FAULT_N is driven; what executes and the rails stay. -/
theorem declareFailed_first {s : State} (h : s.host.hm.failed = false) (cause elem : Nat) :
    (declareFailed cause elem s).host.hm.failed = true ∧ (declareFailed cause elem s).host.hm.failCause = cause ∧
    (declareFailed cause elem s).host.hm.ready = s.host.hm.ready ∧
    (declareFailed cause elem s).pins = { s.pins with faultN := true } ∧ (declareFailed cause elem s).pw = s.pw ∧
    (declareFailed cause elem s).x = s.x := by
  have hlog : (logPkg 0x0B01 true cause elem s).x = s.x := (HostOnly.logEvent ..).x
  obtain ⟨hx, hpw, hpins, -, hhost⟩ :=
    PortsOnly.sendHeartbeat (modHm (fun h => { h with failed := true, failCause := cause }) (logPkg 0x0B01 true cause elem s))
  simp only [declareFailed, h, Bool.false_eq_true, if_false, portsIdle, setSticky, modHm, modPins] at hx hpw hpins hhost ⊢
  rw [hx, hpw, hpins, hhost]
  exact ⟨rfl, rfl, by simp, by simp, by simp, hlog⟩

/-! From the input to the hand-over (R473, R484, R485, R514, R516). -/

theorem romStart_first {s : State} (hstage : s.boot.stage = .island) (hlife : s.sec.lifecycle ≠ 4)
    (hgood : fwCheck s (slotImg s (s.boot.prefer.getD false)) = 0) :
    romStart s = modBoot (fun b => { b with stage := .rom, booted := some (s.boot.prefer.getD false) }) s := by
  simp only [romStart, hstage, hlife, hgood, ne_eq, not_true_eq_false, if_false, if_true]

theorem romStart_neither {s : State} (hstage : s.boot.stage = .island) (hlife : s.sec.lifecycle ≠ 4)
    (hA : fwCheck s s.boot.slotA ≠ 0) (hB : fwCheck s s.boot.slotB ≠ 0) : romStart s = holdDead .recovery s := by
  have hbad (b : Bool) : fwCheck s (slotImg s b) ≠ 0 := by
    cases b
    · exact hA
    · exact hB
  simp only [romStart, hstage, hlife, hbad, ne_eq, not_true_eq_false, if_false]

theorem romStart_retired {s : State} (hstage : s.boot.stage = .island) (hlife : s.sec.lifecycle = 4) :
    romStart s = holdDead .retired s := by
  simp only [romStart, hstage, hlife, ne_eq, not_true_eq_false, if_false, if_true]

theorem islandUp_waits {s : State} (h : s.pins.vinOk = false ∨ s.pins.pkgRst = false) (straps : BitVec 10) : islandUp straps s = s := by
  refine if_pos ?_
  rcases h with h | h
  · exact .inl (Bool.eq_false_iff.mp h)
  · exact .inr (.inl (Bool.eq_false_iff.mp h))

theorem islandUp_rises {s : State} (hvin : s.pins.vinOk = true) (hrst : s.pins.pkgRst = true) (hstage : s.boot.stage = .unpowered)
    (straps : BitVec 10) : islandUp straps s =
      modSb (fun b => { b with smbAddr := 0x60 + straps.toNat / 128 }) (modHm (fun h => { h with pkgId := straps.setWidth 7 })
        (modPins (fun p => { p with islOk := true, straps }) (modBoot (fun b => { b with stage := .island }) s))) := by
  simp only [islandUp, hvin, hrst, hstage, ne_eq, not_true_eq_false, or_self, if_false]

/-- The state in which the rails are up and the ports have not begun to train. -/
def railsRisen (s : State) : State :=
  modBoot (fun b => { b with pllOk := true, stage := if b.stage = .firmware then .training else b.stage })
    (modEp (fun e => { e with canTrain := true }) (modPw (fun w => { w with rails := true }) s))

theorem railsUp_rises {s : State} (hroot : s.pins.rootOk = true) (hpll : s.boot.pllOk = false) (hstage : s.boot.stage = .rom) :
    railsUp s = portsDetect (railsRisen s) := by
  simp [railsUp, railsRisen, hroot, hpll, hstage]

/-- The hand-over of a first image that passed, with the root clock there. -/
theorem handOverFw_counts {s : State} {slot : Bool} (hstage : s.boot.stage = .rom) (hbooted : s.boot.booted = some slot)
    (hfirst : s.boot.rejected = none) (hroot : s.pins.rootOk = true) :
    (handOverFw s).boot.stage = (if s.boot.pllOk then .training else .firmware) ∧
    (handOverFw s).host.log.coldStarts = min (s.host.log.coldStarts + 1) 0xFFFF ∧
    (handOverFw s).boot.startType = startTypeOf s.boot ∧ (handOverFw s).sec.nonce = none ∧
    (handOverFw s).sec.startValue.length = 32 ∧ (handOverFw s).host.log.main = s.host.log.main ∧ (handOverFw s).x = s.x := by
  simp only [handOverFw, hstage, hbooted, hfirst, hroot, if_true]
  exact ⟨rfl, rfl, rfl, rfl, natBytes_length .., rfl, rfl⟩

/-! From training to readiness (R371, R515, R516). -/

theorem trainingDone_cold {s : State} (hstage : s.boot.stage = .training) (hcold : s.boot.warm = false) (htype : s.boot.startType ≠ 0)
    (failed : List Nat) : trainingDone failed s = modBoot (fun b => { b with stage := .repairs }) s := by
  simp [trainingDone, modBoot, hstage, hcold, htype]

theorem trainingDone_warm {s : State} (hstage : s.boot.stage = .training) (hwarm : s.boot.warm = true)
    (hall : ∀ k, k < 16 → k ∈ s.boot.trained) : trainingDone [] s = modBoot (fun b => { b with stage := .ready }) s := by
  have hnone : ((List.range 16).filter fun k => decide (k ∈ ([] : List Nat) ∨ k ∉ s.boot.trained)) = [] := by
    refine List.filter_eq_nil_iff.mpr fun k hk => ?_
    simpa using hall k (List.mem_range.mp hk)
  simp only [trainingDone, hnone, hstage, hwarm, List.foldl_nil, ne_eq, not_true_eq_false, if_false, ite_self]
  simp [modBoot, hwarm]

/-- Without careen results there is nothing to apply. -/
theorem applyCareen_none {s : State} (hring : s.car.ring = []) (hdropped : s.car.dropped = []) (noSpare : List (Nat × Nat)) :
    applyCareen noSpare s = s := by
  have hcar : ({ s.car with ring := [], dropped := [] } : Careen) = s.car := by rw [← hring, ← hdropped]
  simp only [applyCareen, hring, hdropped, List.length_nil, List.range_zero, List.foldl_nil, modCar, List.map_nil, hcar]

section Ready
variable {s : State} (hstage : s.boot.stage = .repairs) (hrepairs : s.health.repairs = []) (hring : s.car.ring = [])
  (hdropped : s.car.dropped = []) (hwell : s.host.hm.failed = false)
include hstage hrepairs hring hdropped hwell

theorem startReady_whole (hwhole : setLacks s = none) : startReady [] s = tryJoin (logPkg 0x1201 false s.boot.startType
    s.host.log.coldStarts (modHm (fun h => { h with ready := true })
      (modBoot (fun b => { b with stage := .ready, cleanStop := false }) s))) := by
  have hlacks : setLacks (modBoot (fun b => { b with stage := .ready }) s) = none := hwhole
  have hwell' : (modBoot (fun b => { b with stage := .ready }) s).host.hm.failed = false := hwell
  simp only [startReady, hstage, hrepairs, List.foldl_nil, applyCareen_none hring hdropped, hlacks, hwell', ne_eq, not_true_eq_false,
    Bool.false_eq_true, if_false]
  rfl

theorem startReady_lacking {e : Nat} (hlacks : setLacks s = some e) :
    startReady [] s = declareFailed 1 e (modBoot (fun b => { b with stage := .ready }) s) := by
  have hlacks' : setLacks (modBoot (fun b => { b with stage := .ready }) s) = some e := hlacks
  have hwell' : (modBoot (fun b => { b with stage := .ready }) s).host.hm.failed = false := hwell
  simp only [startReady, hstage, hrepairs, List.foldl_nil, applyCareen_none hring hdropped, hlacks', hwell', ne_eq, not_true_eq_false,
    Bool.false_eq_true, if_false]

end Ready

/-! Resets and the root clock (R443, R475, R477). -/

theorem resetAsserted_long {ns : Nat} (h : 10000 ≤ ns) (s : State) :
    resetAsserted ns s = modPins (fun p => { p with pkgRst := false }) (coldState s) := by
  rw [resetAsserted, if_neg (by omega), if_pos h]

/-- In service, the loss of the root clock takes the rails down and the package declares itself failed. -/
theorem rootLost_ready {s : State} (hstage : s.boot.stage = .ready) (hwell : s.host.hm.failed = false) (ppm : Nat) :
    (rootLost ppm s).pw.rails = false ∧ (rootLost ppm s).host.hm.failed = true ∧ (rootLost ppm s).pins.rootOk = false ∧
    (rootLost ppm s).pins.faultN = true ∧ (rootLost ppm s).x = s.x := by
  simp only [rootLost, hstage, railsOff]
  generalize hu : logPkg 0x0E07 true (min ppm 0xFFFFFFFF) 0 (modBoot (fun b => { b with pllOk := false })
    (modPins (fun p => { p with rootOk := false, rootPpm := min ppm 0xFFFFFFFF }) s)) = u
  have hwell' : u.host.hm.failed = false := by simp [← hu, hwell]
  have hroot : u.pins.rootOk = false := by simp [← hu]
  have hx : u.x = s.x := hu ▸ (HostOnly.logEvent ..).x
  obtain ⟨hfailed, -, -, hpins, hpw, hx'⟩ := declareFailed_first (s := modPw (fun w => { w with rails := false }) u) hwell' 1 0
  rw [hpins, hpw, hx']
  exact ⟨rfl, hfailed, hroot, rfl, hx⟩

end Sys2Proof.Machine

namespace Sys2Proof.Claim

open Sys2Proof.Machine

theorem startSequence : StartSequence := by
  intro s mv straps slot
  refine ⟨fun hmv hvin hstage => ?input, fun hmv => congrArg _ (if_pos (.inl hmv)), rfl, fun hvin hrst hstage => ?island,
    fun hlow => congrArg _ (islandUp_waits hlow straps), fun hstage hlife hgood => congrArg _ (romStart_first hstage hlife hgood),
    fun hstage hlife hA hB => congrArg _ (romStart_neither hstage hlife hA hB),
    fun hstage hlife => congrArg _ (romStart_retired hstage hlife), fun hroot hpll hstage => ?rails,
    fun hstage hbooted hfirst hroot => ⟨_, rfl, handOverFw_counts hstage hbooted hfirst hroot⟩⟩
  case input =>
    have hrises : ¬ (mv < 38000 ∨ s.pins.vinOk = true) := not_or.mpr ⟨Nat.not_lt_of_le hmv, Bool.eq_false_iff.mp hvin⟩
    refine congrArg _ ((if_neg hrises).trans ?_)
    rw [if_neg hstage]
  case island => exact ⟨_, congrArg Host.Outcome.next (islandUp_rises hvin hrst hstage straps), rfl, rfl, rfl, rfl, rfl, rfl, rfl⟩
  case rails =>
    obtain ⟨hx, hpw, -, hboot, hhost⟩ := PortsOnly.portsDetect (railsRisen s)
    refine ⟨_, congrArg Host.Outcome.next (railsUp_rises hroot hpll hstage), ?_, ?_, ?_, ?_,
      fun p hp hidle hlive => st_portsDetect hp hidle hlive, hx⟩
    · rw [hboot]; rfl
    · rw [hboot]; simp [railsRisen, hstage]
    · rw [hpw]; rfl
    · rw [hhost]; rfl

theorem startCompletes : StartCompletes := by
  intro s failed
  refine ⟨fun hstage hcold htype => congrArg _ (trainingDone_cold hstage hcold htype _), fun hstage hwarm hnone hall => ?warm,
    fun hstage hrepairs hring hdropped hwell => ⟨fun hwhole => ?whole, fun e hlacks => ?lacking⟩,
    fun hstage => congrArg _ (if_pos hstage)⟩
  case warm =>
    subst hnone
    exact congrArg _ (trainingDone_warm hstage hwarm hall)
  case whole => exact ⟨_, congrArg Host.Outcome.next (startReady_whole hstage hrepairs hring hdropped hwell hwhole), rfl⟩
  case lacking =>
    obtain ⟨hfailed, hcause, hready, -⟩ :=
      declareFailed_first (s := modBoot (fun b => { b with stage := .ready }) s) hwell 1 e
    exact ⟨_, congrArg Host.Outcome.next (startReady_lacking hstage hrepairs hring hdropped hwell hlacks), hfailed, hcause, hready⟩

theorem coldStartKeeps : ColdStartKeeps := by
  intro s ns ppm
  have hfused : FusedAs s (coldState s) := ⟨rfl, rfl, rfl, rfl, rfl, rfl⟩
  refine ⟨fun hlong => ⟨_, congrArg Host.Outcome.next (resetAsserted_long hlong s), rfl, rfl, hfused, ?long⟩,
    fun hshort => congrArg _ (if_pos hshort),
    fun hstage => ⟨_, congrArg Host.Outcome.next (if_pos hstage), rfl, hfused, rfl, rfl, rfl, rfl⟩, fun hstage => ?island,
    fun hstage hwell => ⟨_, rfl, rootLost_ready hstage hwell ppm⟩⟩
  case long => and_intros <;> rfl
  case island =>
    refine congrArg Host.Outcome.next ?_
    simp only [rootLost, hstage]

/-- Settles O31: each command of the start acts in its own stage; a cold start is the state after reset with what is kept. -/
theorem startUp : Obligations.StartUp := ⟨startSequence, startCompletes, coldStartKeeps⟩

end Sys2Proof.Claim
end

section
/-! PROOFS. The step, the state after reset, and what every step keeps of the fuses and of the life cycle (R403, R410, R437, R441,
R444, R447, R459, R481, R486, R488, R493, R527; log 4). -/

namespace Sys2Proof.Machine

/-! The tick of the root clock (R403, R444, R459, R527; log 4). -/

/-- Counting time changes totals and cycle counts only. -/
theorem countTime_eq (s : State) : ∃ tot aclk, countTime s = { s with tot, aclk } := by
  unfold countTime
  extract_lets runs s1 s2 s3
  obtain ⟨tot2, h2⟩ : ∃ tot, s2 = { s with tot } := by
    unfold s2
    split <;> exact ⟨_, rfl⟩
  obtain ⟨tot3, h3⟩ : ∃ tot, s3 = { s with tot } := by
    unfold s3
    rw [h2]
    split <;> exact ⟨_, rfl⟩
  rw [h3]
  split
  · exact ⟨_, _, rfl⟩
  · exact ⟨_, _, rfl⟩

theorem countAlive_of_silent {s : State} (h : firmwareRuns s = false) : countAlive s = s :=
  if_neg fun hruns => Bool.false_ne_true (h.symm.trans hruns.1)

theorem tick_unpowered {s : State} (h : s.boot.stage = .unpowered) : tick s = s := if_pos h

/-- Where no firmware runs, a tick counts time. -/
theorem tick_of_silent {s : State} (hpower : s.boot.stage ≠ .unpowered) (hsilent : firmwareRuns s = false) :
    tick s = countTime { s with now := s.now + 10 } := by
  obtain ⟨tot, aclk, htime⟩ := countTime_eq { s with now := s.now + 10 }
  have hsilent' : firmwareRuns (countTime { s with now := s.now + 10 }) = false := htime ▸ hsilent
  simp only [tick, if_neg hpower, countAlive_of_silent hsilent', hsilent', Bool.false_eq_true, if_false]

theorem step_of_empty {s : State} (h : s.pending = []) : step s = .next (tick s) := by
  unfold step
  rw [h]

end Sys2Proof.Machine

namespace Sys2Proof.Claim

open Sys2Proof.Machine

/-- Settles O1: the step takes the front of the queue off and runs it. -/
theorem stepRunsFrontCommand : Obligations.StepRunsFrontCommand := fun _ _ _ => rfl

/-- Settles O2: on an empty queue the step is a tick, which counts time and, where firmware runs, lets the package go on; neither puts a
command in the queue. -/
theorem idleStepIsOneTick : Obligations.IdleStepIsOneTick := by
  intro s hempty
  rw [step_of_empty hempty]
  refine ⟨fun hoff => congrArg _ (tick_unpowered hoff), fun hpower hsilent => ?silent, _, rfl, ?queue⟩
  case silent =>
    obtain ⟨tot, aclk, htime⟩ := countTime_eq { s with now := s.now + 10 }
    exact ⟨tot, aclk, congrArg _ ((tick_of_silent hpower hsilent).trans htime)⟩
  case queue => exact (tick_keeps (keeps_refl s)).queue.trans hempty

/-- Settles O3: the state after reset is written out, and its tables of partitions, mailboxes and ports are empty. -/
theorem resetValues : Obligations.ResetValues := by
  unfold Obligations.ResetValues
  dsimp only
  and_intros
  any_goals rfl
  · exact fun p => ⟨rfl, rfl, rfl⟩
  · exact fun m => ⟨rfl, rfl, rfl⟩
  · exact fun p => rfl

/-- Settles O7: a step is a tick or a command, and neither writes an identity fuse nor lowers the anti-rollback count. -/
theorem stepKeepsFuses : Obligations.StepKeepsFuses := by
  intro s t hstep
  obtain ⟨rest, hkeeps⟩ := step_keeps hstep
  exact ⟨hkeeps.fused, fun hok => ⟨hkeeps.rollbackOk hok, hkeeps.rollback⟩⟩

/-- Settles O6: a step is a tick or a command, and each keeps a legal life-cycle state and a Retired package Retired. -/
theorem retiredForever : Obligations.RetiredForever := by
  intro s t hlife hstep
  obtain ⟨rest, hkeeps⟩ := step_keeps hstep
  exact ⟨hkeeps.life hlife, hkeeps.retired⟩

end Sys2Proof.Claim
end

section
/-! PROOFS. The mailboxes: what a post and an acknowledgement do, the form of a reply, interrupts, and requests that differ in TAG
(R403, R406, R408 to R415, R432). -/

namespace Sys2Proof.Machine

/-! Posting and acknowledging (R408 to R410). -/

/-- A request that reaches the Harbourmaster and passes every check is counted and journaled. -/
theorem receive_good {s : State} {r : Request} (hgone : s.host.hm.gone = false) (hreach : iod0Reach s = true)
    (hgood : postStatus s r = 0) : receive r s =
      modJournal (fun j => j ++ [{ r with due := (replyBound s r).map (s.now + ·) }]) (hmJournal r.words (totAdd tHost 1 s)) := by
  simp only [receive, hgone, hreach, hgood, Bool.false_eq_true, not_true_eq_false, ne_eq, or_self, if_false]

/-- One that a check turns away is counted and answered at once. -/
theorem receive_refused {s : State} {r : Request} {status : Nat} (hgone : s.host.hm.gone = false) (hreach : iod0Reach s = true)
    (hbad : postStatus s r = status) (hne : status ≠ 0) : receive r s =
      reply r status [] (countRefused r (hmJournal r.words (totAdd tHost 1 s))) := by
  simp only [receive, hgone, hreach, hbad, hne, Bool.false_eq_true, not_true_eq_false, ne_eq, not_false_eq_true, or_self, if_false,
    if_true]

section Post
variable {s : State} {m : MbxId} {len : Nat} (hup : s.host.ep.linkUp = true) (hm : m ≠ .sideband) (hlen : len ≠ 0)
include hup hm hlen

theorem postMbx_free (hfree : (mbxOf s m).st = .free) : postMbx m len s =
    receive { mbx := m, words := (mbxOf s m).req.take (len / 4), bytes := len }
      (modMbx m (fun b => { b with st := .posted, ignored := false }) s) := by
  simp only [postMbx, hup, hm, hlen, hfree, not_true_eq_false, or_self, ne_eq, if_false]

theorem postMbx_busy (hbusy : (mbxOf s m).st ≠ .free) : postMbx m len s =
    totAdd (tHost + 3) 1 (modMbx m (fun b => { b with ignored := true }) s) := by
  simp only [postMbx, hup, hm, hlen, hbusy, not_true_eq_false, not_false_eq_true, or_self, ne_eq, if_false, if_true]

end Post

theorem ackMbx_answered {s : State} {m : MbxId} {val : Word} (hup : s.host.ep.linkUp = true) (hst : (mbxOf s m).st = .answered)
    (hack : bitOf val 0 = true) : ackMbx m val s = modMbx m (fun b => { b with st := .free }) s := by
  simp only [ackMbx, hup, hst, hack, not_true_eq_false, and_self, if_false, if_true]

theorem ackMbx_idle {s : State} {m : MbxId} {val : Word} (h : (mbxOf s m).st ≠ .answered ∨ bitOf val 0 = false) :
    ackMbx m val s = s := by
  have hnot : ¬ (bitOf val 0 = true ∧ (mbxOf s m).st = .answered) := fun ⟨hack, hst⟩ =>
    h.elim (· hst) fun hno => Bool.false_ne_true (hno.symm.trans hack)
  simp only [ackMbx, hnot, if_false, ite_self]

/-! The words of a reply (R409, R413). -/

theorem fld_lt (w : Word) (lo width : Nat) : fld w lo width < 2 ^ width := Nat.mod_lt _ (Nat.two_pow_pos width)

/-- The low half of a word made of two halves. -/
theorem fld_halves_low {a b : Nat} (ha : a < 2 ^ 16) : fld (w32 (a + b * 2 ^ 16)) 0 16 = a := by
  simp only [fld, w32, BitVec.toNat_ofNat]
  omega

/-- Any field of the high half, from its lowest bit. -/
theorem fld_halves_high {a b n : Nat} (ha : a < 2 ^ 16) (hb : b < 2 ^ n) (hn : n ≤ 16) : fld (w32 (a + b * 2 ^ 16)) 16 n = b := by
  have hb16 : b < 2 ^ 16 := Nat.lt_of_lt_of_le hb (Nat.pow_le_pow_right (by decide) hn)
  have hdiv : (a + b * 2 ^ 16) % 2 ^ 32 / 2 ^ 16 = b := by omega
  simp only [fld, w32, BitVec.toNat_ofNat, hdiv, Nat.mod_eq_of_lt hb]

/-- A reply carries its status, and the TAG, COMMAND and PARTITION of its request. -/
theorem replyWords_fields (r : Request) {status : Nat} (hstatus : status < 2 ^ 16) (body : List Word) :
    fld (wordAt (replyWords r status body) 0) 0 16 = status ∧ fld (wordAt (replyWords r status body) 0) 16 16 = tagOf r ∧
    fld (wordAt (replyWords r status body) 1) 0 16 = cmdOf r ∧ fld (wordAt (replyWords r status body) 1) 16 5 = partArg r := by
  have htag : tagOf r < 2 ^ 16 := fld_lt ..
  have hcmd : cmdOf r < 2 ^ 16 := fld_lt ..
  have hpart : partArg r < 2 ^ 5 := fld_lt ..
  exact ⟨fld_halves_low hstatus, fld_halves_high hstatus htag (by decide),
    fld_halves_low hcmd, fld_halves_high hcmd hpart (by decide)⟩

/-! Interrupts (R403, R406). -/

@[simp] theorem setInt_intStatus (b : Nat) (s : State) :
    (setInt b s).host.hm.intStatus = s.host.hm.intStatus ||| (1#4 <<< b) := by
  unfold setInt
  dsimp only
  split <;> simp

/-- A condition whose bit is set already, or is not enabled, sends nothing. -/
theorem setInt_silent {b : Nat} {s : State} (h : s.host.hm.intStatus.getLsbD b = true ∨ s.host.hm.intEnable.getLsbD b = false) :
    setInt b s = modHm (fun h => { h with intStatus := h.intStatus ||| (1#4 <<< b) }) s := by
  have hno : (!s.host.hm.intStatus.getLsbD b && s.host.hm.intEnable.getLsbD b) = false := by
    rcases h with h | h <;> simp [h]
  simp only [setInt, hno, Bool.false_eq_true, if_false]

/-- One whose bit was clear and is enabled raises its vector. -/
theorem setInt_raises {b : Nat} {s : State} (hclear : s.host.hm.intStatus.getLsbD b = false)
    (henabled : s.host.hm.intEnable.getLsbD b = true) :
    setInt b s = raiseMsix 32 (8 + b) (modHm (fun h => { h with intStatus := h.intStatus ||| (1#4 <<< b) }) s) := by
  simp only [setInt, hclear, henabled, Bool.not_false, Bool.and_self, if_true]

section Raise
variable {fn v : Nat} {s : State} (hup : s.host.ep.linkUp = true)
include hup

theorem raiseMsix_masked (hmask : bitOf (tgetD s.host.ep.msix (1024 * fn + v) {}).ctrl 0 = true) : raiseMsix fn v s =
    modEp (fun e => { e with pending := (1024 * fn + v) :: e.pending.erase (1024 * fn + v) }) s := by
  simp only [raiseMsix, hup, hmask, not_true_eq_false, if_false, if_true]

theorem raiseMsix_sent (hmask : bitOf (tgetD s.host.ep.msix (1024 * fn + v) {}).ctrl 0 = false) (hbme : fn ∈ s.host.ep.bme) :
    raiseMsix fn v s = emit (.msix fn v) s := by
  simp only [raiseMsix, hup, hmask, hbme, not_true_eq_false, Bool.false_eq_true, if_false, if_true]

end Raise

/-! The checks of a request (R412, R414, R415). -/

/-- The arguments are the words after the first two. -/
theorem argOf_eq (r : Request) (i : Nat) : argOf r i = wordAt (r.words.drop 2) i := by
  simp only [argOf, wordAt, List.getD_eq_getElem?_getD, List.getElem?_drop]

/-- Two requests that a check cannot tell apart: their TAG aside, they are the same. -/
structure ButTag (r q : Request) : Prop where
  mbx : q.mbx = r.mbx
  bytes : q.bytes = r.bytes
  cmd : cmdOf q = cmdOf r
  second : wordAt q.words 1 = wordAt r.words 1
  args : q.words.drop 2 = r.words.drop 2

namespace ButTag

variable {r q : Request} (h : ButTag r q)
include h

theorem argOf (i : Nat) : argOf q i = argOf r i := by rw [argOf_eq, argOf_eq, h.args]

theorem subOf : subOf q = subOf r := by rw [Machine.subOf, Machine.subOf, h.argOf]

theorem partArg : partArg q = partArg r := by rw [Machine.partArg, Machine.partArg, h.second]

theorem functionStatus : functionStatus q = functionStatus r := by
  simp only [Machine.functionStatus, h.mbx, h.cmd, h.argOf]

theorem partitionStatus : partitionStatus q = partitionStatus r := by
  simp only [Machine.partitionStatus, h.mbx, h.cmd, h.partArg]

theorem argumentStatus : argumentStatus q = argumentStatus r := by
  have hspec : argSpec q = argSpec r := by simp only [argSpec, h.cmd, h.subOf, h.argOf]
  simp only [Machine.argumentStatus, hspec, h.bytes, h.second, h.args]

/-- They pass the same checks. -/
theorem postStatus (s : State) : postStatus s q = postStatus s r := by
  have hrecovery : recoveryTakes q = recoveryTakes r := by simp only [recoveryTakes, h.mbx, h.cmd, h.subOf, h.argOf]
  have hretired : retiredTakes q = retiredTakes r := by simp only [retiredTakes, h.cmd]
  have hcareen : careenAnswers q = careenAnswers r := by simp only [careenAnswers, h.cmd, h.subOf]
  simp only [Machine.postStatus, h.bytes, h.cmd, h.functionStatus, h.partitionStatus, h.argumentStatus, hrecovery, hretired, hcareen]

end ButTag

/-- A word with its high half replaced. -/
def retag (tag : BitVec 16) (w : Word) : Word := (tag ++ w.setWidth 16 : BitVec 32)

theorem toNat_retag (tag : BitVec 16) (w : Word) : (retag tag w).toNat = 2 ^ 16 * tag.toNat + w.toNat % 2 ^ 16 := by
  have hlow : (w.setWidth 16).toNat < 2 ^ 16 := BitVec.isLt _
  rw [retag, BitVec.toNat_append, ← Nat.shiftLeft_add_eq_or_of_lt hlow, Nat.shiftLeft_eq, BitVec.toNat_setWidth, Nat.mul_comm]

theorem fld_retag_low (tag : BitVec 16) (w : Word) : fld (retag tag w) 0 16 = fld w 0 16 := by
  simp only [fld, toNat_retag]
  omega

theorem fld_retag_high (tag : BitVec 16) (w : Word) : fld (retag tag w) 16 16 = tag.toNat := by
  have htag : tag.toNat < 2 ^ 16 := tag.isLt
  simp only [fld, toNat_retag]
  omega

/-- A request whose TAG alone is replaced. -/
theorem butTag_retag {r : Request} {w : Word} {ws : List Word} (h : r.words = w :: ws) (tag : BitVec 16) :
    ButTag r { r with words := retag tag w :: ws } where
  mbx := rfl
  bytes := rfl
  cmd := by rw [cmdOf, cmdOf, h]; exact fld_retag_low tag w
  second := by rw [h]; rfl
  args := by rw [h]; rfl

section NotReady
variable {s : State} {r : Request} (hshut : s.host.hm.ready = false ∨ s.host.hm.failed = true) (hrecovery : s.boot.stage ≠ .recovery)
  (hretired : s.boot.stage ≠ .retired) (hwords : r.bytes % 4 = 0) (hlow : 8 ≤ r.bytes) (hhigh : r.bytes ≤ 256)
  (hknown : cmdOf r ∈ commandCodes) (hfn : functionStatus r = 0) (hpart : partitionStatus r = 0) (harg : argumentStatus r = 0)
include hrecovery hretired hwords hlow hhigh hknown hfn hpart harg

/-- The checks of form, function, partition and arguments passed, the state of the package is left to look at. -/
theorem postStatus_of_form : postStatus s r =
    (if (¬ s.host.hm.ready ∨ s.host.hm.failed) ∧ ¬ cmdOf r ∈ alwaysCommands then 0x0D06
      else if s.car.run.isSome ∧ careenAnswers r = false then 0x1102 else 0) := by
  have hform : ¬ (r.bytes < 8 ∨ 256 < r.bytes ∨ r.bytes % 4 ≠ 0) := by omega
  simp only [postStatus, hform, hrecovery, hretired, hknown, hfn, hpart, harg, false_and, ne_eq, not_true_eq_false, if_false]

include hshut

theorem postStatus_notReady (hcar : s.car.run = none) :
    postStatus s r = if cmdOf r ∈ alwaysCommands then 0 else 0x0D06 := by
  have hshut' : ¬ s.host.hm.ready = true ∨ s.host.hm.failed = true := hshut.imp_left Bool.eq_false_iff.mp
  rw [postStatus_of_form hrecovery hretired hwords hlow hhigh hknown hfn hpart harg]
  by_cases hcmd : cmdOf r ∈ alwaysCommands
  · simp only [hcmd, hcar, not_true_eq_false, and_false, Option.isSome_none, Bool.false_eq_true, false_and, if_false, if_true]
  · simp only [hcmd, hshut', not_false_eq_true, and_self, if_true, if_false]

end NotReady

end Sys2Proof.Machine

namespace Sys2Proof.Claim

open Sys2Proof.Machine

/-- Settles O10: a post on a free mailbox is received in the state in which that is posted; the checks do not look at the mailboxes. -/
theorem mailboxPostAndAck : Obligations.MailboxPostAndAck := by
  intro s m len val hup hreach
  refine ⟨fun hm hlen hfree hgone hgood => ?posted, fun hm hlen hbusy => congrArg _ (postMbx_busy hup hm hlen hbusy),
    fun hst hack => congrArg _ (ackMbx_answered hup hst hack), fun hidle => congrArg _ (ackMbx_idle hidle)⟩
  case posted =>
    refine congrArg Host.Outcome.next ((postMbx_free hup hm hlen hfree).trans ?_)
    exact receive_good (s := modMbx m (fun b => { b with st := .posted, ignored := false }) s) hgone hreach hgood

/-- Settles O11: no check reads the high half of the first word, which a reply echoes. -/
theorem tagIsNeverInterpreted : Obligations.TagIsNeverInterpreted := by
  intro s r w ws tag body status hwords
  have htag : tagOf { r with words := retag tag w :: ws } = tag.toNat := fld_retag_high tag w
  refine ⟨(butTag_retag hwords tag).postStatus s, htag, fun hstatus => ?_⟩
  obtain ⟨-, hecho, -, -⟩ := replyWords_fields { r with words := retag tag w :: ws } hstatus body
  exact hecho.trans htag

theorem replyForm : ReplyForm := by
  intro s r status body hstatus hwanted hreach
  obtain ⟨hrsp, hbytes, hst⟩ := reply_mbx r status body s hwanted hreach
  obtain ⟨hecho, htag, hcmd, hpart⟩ := replyWords_fields r hstatus body
  rw [Nat.add_comm] at hrsp hbytes
  refine ⟨hrsp, hecho, htag, hcmd, hpart, hbytes, hst, ?_, ?_, ?_, ?_⟩
  · simp
  · simp
  · exact (HostOnly.reply r status body s).x
  · simp

theorem interruptsAreRaisedOnce : InterruptsAreRaisedOnce := by
  intro s b
  refine ⟨setInt_intStatus b.val s, fun hquiet => ?quiet, fun hclear henabled hup => ⟨fun hmask => ?masked, fun hmask hbme => ?sent⟩⟩
  case quiet =>
    rw [setInt_silent hquiet]
    exact ⟨rfl, rfl⟩
  case masked =>
    rw [setInt_raises hclear henabled, raiseMsix_masked (s := modHm _ s) hup hmask]
    exact ⟨rfl, List.mem_cons_self⟩
  case sent =>
    rw [setInt_raises hclear henabled, raiseMsix_sent (s := modHm _ s) hup hmask hbme]
    rfl

theorem notReadyRefuses : NotReadyRefuses := by
  intro s r hshut hrecovery hretired hwords hlow hhigh hknown hfn hpart harg hcar
  rw [postStatus_notReady hshut hrecovery hretired hwords hlow hhigh hknown hfn hpart harg hcar]
  exact ⟨fun hcmd => if_pos hcmd, fun hcmd => if_neg hcmd⟩

/-- Settles O13: a reply is made of its request's fields; a condition raises its vector as its bit is set; what the package's state
refuses comes after every other check. -/
theorem mailboxReplies : Obligations.MailboxReplies := ⟨replyForm, interruptsAreRaisedOnce, notReadyRefuses⟩

end Sys2Proof.Claim
end

section
/-! PROOFS. A configuration command on the sideband (R399, R432): its refusal counts under config_refused of the partition it names, which
the statement of the sideband channel leaves out. -/

namespace Sys2Proof.Claim

open Sys2Proof.Machine

/-- A package whose always-on island is up. -/
def islandPackage : State := { State.reset with pins := { State.reset.pins with islOk := true } }

/-- A config.stage of partition 0 in two words, as the sideband brings it. -/
def stageMessage : List Word := [0x0301, 0]

/-- The refusal counts under config_refused of partition 0. -/
theorem refused_stageMessage : ∃ t, exec (.sidebandMailbox stageMessage) islandPackage = .next t ∧
    tgetD (partOf t 0).stat.cum (cConfig + 4) 0 = 1 := ⟨_, rfl, by decide +kernel⟩

/-- Refutes O34: the last clause has a command that the sideband may not post counted and answered and nothing else, but a
configuration command that is refused also counts under config_refused. -/
theorem not_sidebandMailbox : ¬ Obligations.SidebandMailbox := by
  intro h
  obtain ⟨-, -, hrefused⟩ := h islandPackage stageMessage _ rfl rfl (by decide) rfl
  have hclaim := hrefused (by decide) (by decide) (by decide) (by decide) (by decide) (by decide) rfl
  obtain ⟨t, ht, hone⟩ := refused_stageMessage
  obtain rfl := Host.Outcome.next.inj (ht.symm.trans hclaim)
  exact absurd hone (by decide +kernel)

end Sys2Proof.Claim
end

section
/-! PROOFS. MCTP control, PLDM and the alert line of the sideband (R431, R433, R466). -/

namespace Sys2Proof.Machine

/-! What the sideband answers (R431, R433). -/

section Answer
variable {s : State} (hisland : s.pins.islOk = true) (hreach : iod0Reach s = true)
include hisland hreach

theorem mctpMsg_getId (data : List Byte) : mctpMsg 2 data s = sidebandSend [0, 2, 0, b8 s.host.sb.eid, 0, 0] s := by
  simp only [mctpMsg, hisland, hreach, not_true_eq_false, or_self, if_false]
  rfl

/-- Set Endpoint ID takes an identifier that an endpoint may have. -/
theorem mctpMsg_setId {data : List Byte} (hop : byteAt data 0 < 2) (hlow : byteAt data 1 ≠ 0) (hhigh : byteAt data 1 ≠ 255) :
    mctpMsg 1 data s = sidebandSend [0, 1, 0, 0, b8 (byteAt data 1), 0] (modSb (fun b => { b with eid := byteAt data 1 }) s) := by
  simp [mctpMsg, mctpAnswer, hisland, hreach, hop, hlow, hhigh]
  rfl

theorem pldmMsg_powerState (hruns : firmwareRuns s = true) {data : List Byte} (hid : byteAt data 0 + 256 * byteAt data 1 = 11) :
    pldmMsg 2 0x21 data s = sidebandSend [1, 2, 0x21, 0, 1, 0, b8 (shownState s), 0, 0] { s with free := s.free + 1 } := by
  simp [pldmMsg, pldmAnswer, sensorReading, draw, hisland, hreach, hruns, hid]
  rfl

end Answer

/-! The sensors and their thresholds (R433, R452, R466). -/

/-- What sensor `n` of readings `rs` adds to those beyond a threshold: itself, and once more where it is critical. -/
def crossed (s : State) (rs : List Nat) (n : Nat) : List Nat :=
  (if 1 ≤ sensorLevel s n (rs.getD (n - 1) 0) then [n] else []) ++ if sensorLevel s n (rs.getD (n - 1) 0) = 2 then [16 + n] else []

theorem sensorsIn_eq {s : State} (hisland : s.pins.islOk = true) (hreach : iod0Reach s = true) (rs : List Nat) : sensorsIn rs s =
    modSb (fun b => { b with
      sensors := rs, crossed := ((List.range 10).map (· + 1)).flatMap (crossed s rs)
      alert := b.alert || (((List.range 10).map (· + 1)).flatMap (crossed s rs)).any fun n => !(decide (n ∈ s.host.sb.crossed)) }) s := by
  simp only [sensorsIn, hisland, hreach, not_true_eq_false, or_self, if_false]
  rfl

section Level
variable {s : State} (hlowered : s.dv.lowered = [])
include hlowered

/-- No threshold is lowered, so each zone of a die has one pair of thresholds and each stack another (R452). -/
theorem zoneLimits_plain (z : Nat) : zoneLimits s z = if z < 6 then (100, 97, 110) else (92, 89, 100) := by
  simp only [zoneLimits, hlowered, List.not_mem_nil, if_false]

/-- A low reading crosses nothing; the input voltage has to lie in its window. -/
theorem sensorLevel_low {n v : Nat} (hv : v < 80) (hvolt : n = 2 → 38 ≤ v ∧ v ≤ 46) : sensorLevel s n v = 0 := by
  simp only [sensorLevel, zoneLimits_plain hlowered]
  split
  · next hn =>
    have hwindow : 38000 ≤ 1000 * v ∧ 1000 * v ≤ 46000 := by have := hvolt hn; omega
    rw [inputKind, if_pos hwindow]
  · have hwarm : ¬ 92 ≤ v := by omega
    have hhot : ¬ 100 ≤ v := by omega
    have htrip : ¬ 110 ≤ v := by omega
    split
    · next hzone =>
      have hdie : n - 4 < 6 := by omega
      simp only [if_pos hdie, if_neg htrip, hhot, decide_false]
      rfl
    · simp only [hwarm, decide_false]
      split <;> rfl

/-- The first compute die at its trip threshold is critical. -/
theorem sensorLevel_trip {v : Nat} (hv : 110 ≤ v) : sensorLevel s 4 v = 2 := by
  simp [sensorLevel, zoneLimits_plain hlowered, hv]

/-- Where every reading is low, no sensor is beyond a threshold. -/
theorem crossed_low {rs : List Nat} (hcool : ∀ n, n < 10 → rs.getD n 0 < 80) (hlow : 38 ≤ rs.getD 1 0) (hhigh : rs.getD 1 0 ≤ 46) :
    ((List.range 10).map (· + 1)).flatMap (crossed s rs) = [] := by
  simp only [List.flatMap_eq_nil_iff, List.forall_mem_map, List.mem_range]
  intro n hn
  have hlevel : sensorLevel s (n + 1) (rs.getD (n + 1 - 1) 0) = 0 :=
    sensorLevel_low hlowered (hcool n hn) fun htwo => by
      obtain rfl : n = 1 := by omega
      exact ⟨hlow, hhigh⟩
  simp only [crossed, hlevel]
  rfl

end Level

end Sys2Proof.Machine

namespace Sys2Proof.Claim

open Sys2Proof.Machine

/-- Settles O35: each message has one answer, and the alert line follows the sensors that have newly crossed a threshold. -/
theorem sidebandManagement : Obligations.SidebandManagement := by
  intro s cmd ty data rs
  refine ⟨fun hisland hreach hcmd => ?getId, fun hisland hreach hcmd hop hlow hhigh => ?setId,
    fun hisland hreach hruns hty hcmd hid => ?powerState, fun hisland hreach hlowered hcool hlow hhigh => ?cool,
    fun hisland hreach hlowered htrip hnone => ?trips, rfl⟩
  case getId =>
    subst hcmd
    exact congrArg _ (mctpMsg_getId hisland hreach data)
  case setId =>
    subst hcmd
    exact ⟨_, congrArg Host.Outcome.next (mctpMsg_setId hisland hreach hop hlow hhigh), rfl, rfl, rfl, rfl, rfl⟩
  case powerState =>
    subst hty hcmd
    exact congrArg _ (pldmMsg_powerState hisland hreach hruns hid)
  case cool =>
    refine congrArg Host.Outcome.next ((sensorsIn_eq hisland hreach rs).trans ?_)
    simp only [crossed_low hlowered hcool hlow hhigh, List.any_nil, Bool.or_false]
  case trips =>
    refine ⟨_, congrArg Host.Outcome.next (sensorsIn_eq hisland hreach rs), ?_, rfl⟩
    have hfour : 4 ∈ ((List.range 10).map (· + 1)).flatMap (crossed s rs) := by
      have hlevel : sensorLevel s 4 (rs.getD (4 - 1) 0) = 2 := sensorLevel_trip hlowered htrip
      refine List.mem_flatMap.mpr ⟨4, by decide, ?_⟩
      rw [crossed, hlevel]
      decide
    have hnew : (((List.range 10).map (· + 1)).flatMap (crossed s rs)).any (fun n => !(decide (n ∈ s.host.sb.crossed))) = true :=
      List.any_eq_true.mpr ⟨4, hfour, by rw [hnone]; rfl⟩
    exact (congrArg (s.host.sb.alert || ·) hnew).trans (Bool.or_true _)

end Sys2Proof.Claim
end

section
/-! PROOFS. part.open and part.close, config.set and config.read, step.query and step.abort (R379, R388, R389, R396, R416, R418, R423,
R424). -/

namespace Sys2Proof.Machine

/-! Updates of one partition. -/

/-- Two updates of one partition are one. -/
theorem modPart_modPart (k : Nat) (f g : Part → Part) (s : State) :
    modPart k f (modPart k g s) = modPart k (fun q => f (g q)) s := by
  have hown : partOf (modPart k g s) k = g (partOf s k) := partOf_modPart ..
  unfold modPart at hown ⊢
  dsimp only at hown ⊢
  rw [hown, tset_tset_same]

theorem modCfg_modCfg (k : Nat) (f g : PartCfg → PartCfg) (s : State) :
    modCfg k f (modCfg k g s) = modCfg k (fun c => f (g c)) s := modPart_modPart ..

/-- Two updates that do the same to a partition as it stands are the same update. -/
theorem modCfg_congr {k : Nat} {f g : PartCfg → PartCfg} {s : State} (h : f (partOf s k).cfg = g (partOf s k).cfg) :
    modCfg k f s = modCfg k g s := by
  unfold modCfg modPart
  dsimp only
  rw [h]

/-! part.open (R379, R396, R416). -/

theorem partOpen_closed {r : Request} {s : State} (hclosed : (partOf s (partArg r)).cfg.st = .closed)
    (halign : dwordAt r.words 2 % 4096 = 0) : partOpen r s =
      reply r 0 (w64 s.now) (logEvent 0x0C03 false (partArg r) noOp noStep 1 0 (modCfg (partArg r) (fun c => { c with
        st := if (recImg s (activeBank (partOf s (partArg r)))).isSome = true ∧ recStandby (activeBank (partOf s (partArg r))) = false
          then .serving else .opened
        swapAddr := dwordAt r.words 2
        swapMib := fld (argOf r 2) 0 24
        openSnap := (List.range nCounters).map fun k => tgetD (partOf s (partArg r)).stat.cum k 0 }) s)) := by
  simp only [partOpen, hclosed, halign, ne_eq, not_true_eq_false, if_false, modCfg_modCfg]
  refine congrArg (fun u => reply r 0 (w64 s.now) (logEvent 0x0C03 false (partArg r) noOp noStep 1 0 u)) (modCfg_congr ?_)
  simp only [stateWith, partOf_modCfg]
  simp only [Bool.and_eq_true, Bool.not_eq_true']
  rfl

/-! part.close (R379). -/

/-- Nothing is left of a partition that was closed: no swap window, no sequence or page, no held result. -/
def Emptied (q : Part) : Prop := q.cfg.st = .closed ∧ q.cfg.swapMib = 0 ∧ q.kv = {} ∧ q.run.hold = []

/-- Partition `p` has been closed. -/
def Released (p : Nat) (s : State) : Prop := Emptied (partOf s p)

namespace Released

variable {p : Nat} {s t : State}

theorem of_parts (h : Released p s) (hparts : t.parts = s.parts) : Released p t := by
  rwa [Released, partOf, hparts, ← partOf]

/-- An update of a partition that fills none up again. -/
theorem modPart (h : Released p s) (k : Nat) {f : Part → Part} (hf : ∀ q, Emptied q → Emptied (f q)) :
    Released p (modPart k f s) := by
  by_cases hk : k = p
  · subst hk
    rw [Released, partOf_modPart]
    exact hf _ h
  · rwa [Released, partOf_modPart_ne f s hk]

theorem modCluster (h : Released p s) (k : Nat) (f : Cluster → Cluster) : Released p (modCluster k f s) := h.of_parts rfl

theorem foldl {α : Type} {f : State → α → State} (hf : ∀ t x, Released p t → Released p (f t x)) (xs : List α) (h : Released p s) :
    Released p (xs.foldl f s) := by
  induction xs generalizing s with
  | nil => exact h
  | cons x xs ih => exact ih (hf s x h)

theorem foldCluster (h : Released p s) (q c : Nat) : Released p (foldCluster q c s) := by
  unfold Machine.foldCluster
  dsimp only
  split
  · exact h
  · split
    · exact h.of_parts (parts_declareFailed ..)
    · exact h.modPart q fun _ hq => hq

theorem foldAll (h : Released p s) (q : Nat) : Released p (foldAll q s) := by
  refine foldl (fun t c ht => ?_) _ h
  split
  · split
    · exact ht.of_parts (parts_declareFailed ..)
    · exact ht.foldCluster ..
  · exact ht

theorem setVfEvent (h : Released p s) (q b : Nat) : Released p (setVfEvent q b s) := by
  have hset : Released p (Machine.modPart q (fun x => { x with vfEvent := x.vfEvent ||| (1#4 <<< b) }) s) :=
    h.modPart q fun _ hq => hq
  unfold Machine.setVfEvent
  dsimp only
  split
  · exact hset.of_parts (by simp)
  · exact hset

theorem cntAdd (h : Released p s) (q k n : Nat) : Released p (cntAdd q k n s) := by
  unfold Machine.cntAdd Machine.modStat
  refine h.modPart q fun x hx => ?_
  exact hx

theorem logEvent (h : Released p s) (code : Nat) (fault : Bool) (part op step w4 w5 : Nat) :
    Released p (logEvent code fault part op step w4 w5 s) := h.of_parts (by simp)

/-- A swap of banks opens no partition that is closed (R379). -/
theorem banksChanged (h : Released p s) (q : Nat) : Released p (banksChanged q s) := by
  by_cases hq : q = p
  · subst hq
    obtain ⟨hst, hmib, hkv, hhold⟩ := h
    rw [Released, Machine.banksChanged, partOf_modCfg, partOf_modCfg]
    refine ⟨?_, hmib, hkv, hhold⟩
    simp only [stateWith, partOf_modCfg, hst]
  · rwa [Released, Machine.banksChanged, partOf_modCfg_ne _ _ hq, partOf_modCfg_ne _ _ hq]

theorem swapBank (h : Released p s) (q : Nat) : Released p (swapBank q s) := by
  have hchanged : Released p (Machine.banksChanged q s) := h.banksChanged q
  unfold Machine.swapBank
  extract_lets x ob nb old new same first warm s1 s2 s3 s3' s4 s5
  have h3 : Released p s3 := by
    unfold s3
    split
    · exact hchanged
    · exact Released.modPart (s := s2) hchanged q fun _ hq => hq
  have h3' : Released p s3' := by
    unfold s3'
    split
    · split
      · exact h3
      · exact h3
    · exact h3
  have h4 : Released p s4 := foldl (fun _ _ ht => ht.modCluster ..) _ h3'
  have h5 : Released p s5 := (h4.foldAll q).cntAdd ..
  exact (h5.logEvent ..).setVfEvent ..

theorem trySwap (h : Released p s) (q : Nat) : Released p (trySwap q s) := by
  unfold Machine.trySwap
  dsimp only
  split
  · exact h
  · split
    · exact foldl (fun _ x ht => ht.swapBank x) _ h
    · exact h

end Released

/-- Closing leaves nothing of the partition, and a swap that was waiting for it does not open it again. -/
theorem released_closePart (p : Nat) (quiet : Bool) (s : State) : Released p (closePart p quiet s) := by
  unfold closePart
  extract_lets s1 s2
  have h2 : Released p s2 := by
    simp only [s2, Released, partOf_modCfg, partOf_modKv, partOf_modRun]
    exact ⟨rfl, rfl, rfl, rfl⟩
  exact (h2.logEvent ..).trySwap p

theorem partClose_closed {r : Request} {s : State} (hidle : flying s (partArg r) = [])
    (hclosed : (partOf s (partArg r)).cfg.st = .closed) : partClose r s = reply r 0 [] s := by
  simp only [partClose, hidle, hclosed, ne_eq, not_true_eq_false, if_false, if_true]

theorem partClose_open {r : Request} {s : State} (hidle : flying s (partArg r) = [])
    (hopen : (partOf s (partArg r)).cfg.st ≠ .closed) : partClose r s = reply r 0 [] (closePart (partArg r) false s) := by
  simp only [partClose, hidle, hopen, ne_eq, not_true_eq_false, if_false]

theorem partClose_flying {r : Request} {s : State} (hbusy : flying s (partArg r) ≠ []) : partClose r s = reply r 0x0C0A [] s :=
  if_pos hbusy

/-! config.set (R388, R389, R418). -/

section ConfigSet
variable {r : Request} {s : State} {w : Nat} (hw : (argOf r 0).toNat = w)
include hw

/-- The unpaired bits of the words that have some are their named bits. -/
theorem configSet_unpaired (hword : w ∈ [33, 34, 35]) (hmask : argOf r 1 &&& ~~~ unpairedBits w = 0)
    (hfraction : w = 35 → (wordAt (setRecWord (bank s (partArg r)) w (argOf r 1) (argOf r 2)) w).toNat ≤ 256) :
    configSet r s = reply r 0 [] (modCfg (partArg r) (fun c => { c with
      ebb := setRecWord c.ebb w (argOf r 1) (argOf r 2), flood := setRecWord c.flood w (argOf r 1) (argOf r 2) }) s) := by
  have hin : w = 33 ∨ w = 34 ∨ w = 35 := by simpa using hword
  have hlow : ¬ 56 ≤ w := by omega
  have hnamed : argOf r 1 &&& ~~~ namedBits w = 0 := by rwa [unpairedBits, if_pos hin] at hmask
  have hbounded : ¬ (w = 35 ∧ 256 < (wordAt (setRecWord (bank s (partArg r)) w (argOf r 1) (argOf r 2)) w).toNat) :=
    fun ⟨h35, hover⟩ => Nat.not_lt_of_le (hfraction h35) hover
  simp only [configSet, hw, hlow, hnamed, hmask, hbounded, ne_eq, not_true_eq_false, if_false]

/-- A word without unpaired bits has every mask refused but the empty one. -/
theorem configSet_paired (hlow : w < 56) (hword : w ∉ [33, 34, 35]) (hmask : argOf r 1 ≠ 0)
    (hnamed : argOf r 1 &&& ~~~ namedBits w = 0) :
    configSet r s = reply r 0x0C01 [] (cumAdd (partArg r) (cConfig + 4) 1 s) := by
  have hout : ¬ (w = 33 ∨ w = 34 ∨ w = 35) := by simpa using hword
  have hpaired : argOf r 1 &&& ~~~ unpairedBits w ≠ 0 := by
    have hzero : unpairedBits w = 0#32 := if_neg hout
    have hall : argOf r 1 &&& ~~~ 0#32 = argOf r 1 := by rw [BitVec.not_zero, BitVec.and_allOnes]
    rwa [hzero, hall]
  simp only [configSet, hw, Nat.not_le_of_lt hlow, hnamed, hpaired, ne_eq, not_true_eq_false, not_false_eq_true, if_false, if_true]

end ConfigSet

/-! config.read (R418). -/

theorem configRead_bank {r : Request} {s : State} (hwhich : fld (argOf r 0) 0 2 ≠ 3) : configRead r s = reply r 0
    (w32 (b2n (partOf s (partArg r)).cfg.active + 2 * shadowCode (partOf s (partArg r)).cfg.shadow) ::
      (List.range 56).map (wordAt (if fld (argOf r 0) 0 2 = 2 then activeBank (partOf s (partArg r))
        else if fld (argOf r 0) 0 2 = 1 then (partOf s (partArg r)).cfg.flood else (partOf s (partArg r)).cfg.ebb))) s := by
  simp only [configRead, hwhich, if_false, bankOf, decide_eq_true_eq]

/-! step.query and step.abort (R423, R424). -/

theorem stepQuery_known {r : Request} {s : State} {x : StepRec} (h : stepRec s (partArg r) (dwordAt r.words 2) = some x) :
    stepQuery r s = reply r 0 ([w32 (stepCode x.st), w32 (x.status + 65536 * x.cause)] ++ w64 x.admitNs ++ w64 x.doneNs ++
      [w32 x.latencyNs]) s := by
  unfold stepQuery
  rw [h]

theorem stepQuery_unknown {r : Request} {s : State} (h : stepRec s (partArg r) (dwordAt r.words 2) = none) :
    stepQuery r s = reply r 0 (List.replicate 7 0) s := by
  unfold stepQuery
  rw [h]

/-- The accepted steps that a step.abort names: all of them for an identifier of all ones (R424). -/
def namedSteps (r : Request) (s : State) : List StepRec :=
  (accepted s (partArg r)).filter fun x => dwordAt r.words 2 == 2 ^ 64 - 1 || x.id == dwordAt r.words 2

theorem stepAbort_eq (r : Request) (s : State) : stepAbort r s = reply r 0 [w32 (namedSteps r s).length]
    ((namedSteps r s).foldl (fun t x => withdrawStep (partArg r) x.id false t) s) := by
  simp only [stepAbort, List.length_map, List.foldl_map]
  rfl

theorem namedSteps_all {r : Request} (hall : dwordAt r.words 2 = 2 ^ 64 - 1) (s : State) :
    namedSteps r s = accepted s (partArg r) := by
  refine List.filter_eq_self.mpr fun x _ => ?_
  rw [hall, beq_self_eq_true, Bool.true_or]

theorem namedSteps_none {r : Request} {s : State} (hother : ∀ x ∈ accepted s (partArg r), x.id ≠ dwordAt r.words 2)
    (hone : dwordAt r.words 2 ≠ 2 ^ 64 - 1) : namedSteps r s = [] := by
  refine List.filter_eq_nil_iff.mpr fun x hx => ?_
  rw [beq_eq_false_iff_ne.mpr hone, beq_eq_false_iff_ne.mpr (hother x hx)]
  decide

end Sys2Proof.Machine

namespace Sys2Proof.Claim

open Sys2Proof.Machine

/-- Settles O14: taking the request changes nothing that the checks read, and what follows the closing does not open the partition. -/
theorem partitionOpenAndClose : Obligations.PartitionOpenAndClose := by
  intro s m r
  refine ⟨fun hr hclosed halign => ?opens, fun hr hidle hclosed => ?closed, fun hr hidle hopen => ?closes, fun hr hbusy => ?busy⟩
  case opens => exact congrArg _ ((hr.takeCmd partOpen).trans (partOpen_closed (s := taken s) hclosed halign))
  case closed => exact congrArg _ ((hr.takeCmd partClose).trans (partClose_closed (s := taken s) hidle hclosed))
  case closes =>
    obtain ⟨hst, hmib, hkv, hhold⟩ := (released_closePart (partArg r) false (taken s)).of_parts (HostOnly.reply r 0 [] _).parts
    exact ⟨_, congrArg Host.Outcome.next ((hr.takeCmd partClose).trans (partClose_open (s := taken s) hidle hopen)), rfl, hst, hmib, hkv, hhold⟩
  case busy => exact congrArg _ ((hr.takeCmd partClose).trans (partClose_flying (s := taken s) hbusy))

/-- Settles O16: the mask is one of unpaired bits or is refused, and a bank is read as it stands. -/
theorem configSetAndRead : Obligations.ConfigSetAndRead := by
  intro s m r w
  refine ⟨fun hr hw hword hmask hfraction => ?sets, fun hr hw hlow hword hmask hnamed => ?paired, fun hr hwhich => ?reads⟩
  case sets => exact congrArg _ ((hr.takeCmd configSet).trans (configSet_unpaired (s := taken s) hw hword hmask hfraction))
  case paired => exact congrArg _ ((hr.takeCmd configSet).trans (configSet_paired (s := taken s) hw hlow hword hmask hnamed))
  case reads => exact congrArg _ ((hr.takeCmd configRead).trans (configRead_bank (s := taken s) hwhich))

/-- Settles O19: a step.abort withdraws the accepted steps that it names, and no other step is among them. -/
theorem stepQueryAndAbort : Obligations.StepQueryAndAbort := by
  intro s m r
  refine ⟨fun x hr hknown => ?known, fun hr hunknown => ?unknown, fun hr hall => ?all, fun hr hother hone => ?none⟩
  case known => exact congrArg _ ((hr.takeCmd stepQuery).trans (stepQuery_known (s := taken s) hknown))
  case unknown => exact congrArg _ ((hr.takeCmd stepQuery).trans (stepQuery_unknown (s := taken s) hunknown))
  case all =>
    have hnamed : namedSteps r (taken s) = accepted s (partArg r) := namedSteps_all hall (taken s)
    refine congrArg Host.Outcome.next ((hr.takeCmd stepAbort).trans ((stepAbort_eq r (taken s)).trans ?_))
    rw [hnamed]
  case none =>
    have hnamed : namedSteps r (taken s) = [] := namedSteps_none (s := taken s) hother hone
    refine congrArg Host.Outcome.next ((hr.takeCmd stepAbort).trans ((stepAbort_eq r (taken s)).trans ?_))
    rw [hnamed]
    rfl

end Sys2Proof.Claim
end

section
/-! PROOFS. stats.read and log.read (R395, R426 to R428). -/

namespace Sys2Proof.Machine

/-! stats.read (R395, R426, R427). -/

theorem dwords_length (ns : List Nat) : (dwords ns).length = 2 * ns.length := by
  induction ns with
  | nil => rfl
  | cons n ns ih =>
    have hcons : (dwords (n :: ns)).length = 2 + (dwords ns).length := List.length_append
    rw [hcons, ih, List.length_cons]
    omega

theorem cumWords_length (s : State) (p : Nat) : (cumWords s p).length = 2 * nCounters := by
  rw [cumWords, dwords_length, List.length_map, List.length_range]

theorem totWords_length (s : State) : (totWords s).length = 2 * nTotals := by
  rw [totWords, dwords_length, List.length_map, List.length_range]

section StatsRead
variable {r : Request} {s : State}

theorem statsRead_totals (hmbx : r.mbx ≠ .sideband) (hkind : fld (argOf r 0) 0 3 = 1) :
    statsRead r s = statsReply r (cumWords s (partArg r)) s := by
  simp only [statsRead, hmbx, hkind, false_and, if_false]

/-- The totals of the package may be read on the sideband too. -/
theorem statsRead_package (hkind : fld (argOf r 0) 0 3 = 3) : statsRead r s = statsReply r (totWords s) s := by
  simp only [statsRead, hkind, ne_eq, not_true_eq_false, false_and, and_false, if_false]

theorem statsRead_latched (hmbx : r.mbx ≠ .sideband) (hkind : fld (argOf r 0) 0 3 = 0) {l : Latched}
    (hheld : latchedOf s (partArg r) (dwordAt r.words 3) = some l) : statsRead r s =
      statsReply r l.words (modStat (partArg r) (fun t => { t with
        latch := t.latch.map fun x => if x.id = l.id then { x with seen := true } else x }) s) := by
  simp only [statsRead, hmbx, hkind, hheld, false_and, if_false]

end StatsRead

/-! log.read (R428). -/

/-- LOST says that the oldest record held comes after the first one asked for; an empty ring has lost none. -/
theorem lost_eq (first : Nat) (ring : List LogRec) : (match ring.head? with
    | some l => decide (first < l.seq)
    | none => false) = (ring.head?.map fun l => decide (first < l.seq)).getD false := by
  cases ring <;> rfl

theorem logRead_records {r : Request} {s : State} {ring : List LogRec} (hcount : fld (argOf r 3) 0 3 ≤ 5)
    (hring : ring = if bitOf (argOf r 0) 0 then s.host.log.prot else s.host.log.main) : logRead r s = reply r 0
      (w64 ((((ring.filter fun l => decide (dwordAt r.words 3 ≤ l.seq)).drop (fld (argOf r 3) 0 3)).head?.map fun l => l.seq).getD
          (s.host.log.coldStarts * 2 ^ 48 + s.host.log.next)) ++
        [w32 (((ring.filter fun l => decide (dwordAt r.words 3 ≤ l.seq)).take (fld (argOf r 3) 0 3)).length +
          256 * b2n ((ring.head?.map fun l => decide (dwordAt r.words 3 < l.seq)).getD false))] ++
        ((ring.filter fun l => decide (dwordAt r.words 3 ≤ l.seq)).take (fld (argOf r 3) 0 3)).flatMap logRecWords) s := by
  simp only [logRead, Nat.not_lt_of_le hcount, if_false, ← hring, ← lost_eq]
  rfl

end Sys2Proof.Machine

namespace Sys2Proof.Claim

open Sys2Proof.Machine

theorem Heads.onMbx {s : State} {m : MbxId} {code : Nat} {r : Request} (h : Heads s m code r) : r.mbx = m := by
  obtain ⟨-, hmbx, -, -⟩ := h
  exact hmbx

/-- Settles O23: an item is looked up in the state in which the request has been taken, which holds the same items and records. -/
theorem statsAndLogRead : Obligations.StatsAndLogRead := by
  intro s m r ring
  refine ⟨fun hr hm hkind => ?totals, fun hr hkind => ?package, fun l hr hm hkind hheld => ?latched,
    fun hr hcount hring => ?records⟩
  case totals =>
    refine congrArg Host.Outcome.next ((hr.takeCmd statsRead).trans ((statsRead_totals (s := taken s) (hr.onMbx ▸ hm) hkind).trans ?_))
    rw [statsReply, cumWords_length]
    rfl
  case package =>
    refine congrArg Host.Outcome.next ((hr.takeCmd statsRead).trans ((statsRead_package (s := taken s) hkind).trans ?_))
    rw [statsReply, totWords_length]
    rfl
  case latched => exact congrArg _ ((hr.takeCmd statsRead).trans (statsRead_latched (s := taken s) (hr.onMbx ▸ hm) hkind hheld))
  case records => exact congrArg _ ((hr.takeCmd logRead).trans (logRead_records (s := taken s) hcount hring))

end Sys2Proof.Claim
end

section
/-! PROOFS. Temperatures, the power control interval and energy (R383, R448, R452 to R455, R459). -/

namespace Sys2Proof.Machine

/-! A package that fails keeps its clocks and temperatures (R348). -/

theorem dv_transmit (plane dst attempt : Nat) (h : List Word) (data : List Byte) (s : State) :
    (transmit plane dst attempt h data s).dv = s.dv := by
  unfold transmit portSend
  dsimp only
  split
  · rfl
  · split <;> rfl

theorem dv_sendHeartbeat (s : State) : (sendHeartbeat s).dv = s.dv := by
  unfold sendHeartbeat
  split
  · rfl
  · refine List.foldlRecOn (motive := fun (t : State) => t.dv = s.dv) _ _ rfl fun t ht d _ => ?_
    exact List.foldlRecOn (motive := fun (u : State) => u.dv = s.dv) _ _ ht fun u hu q _ => (dv_transmit ..).trans hu

theorem dv_declareFailed (cause elem : Nat) (s : State) : (declareFailed cause elem s).dv = s.dv := by
  unfold declareFailed
  split
  · rfl
  · refine (dv_sendHeartbeat _).trans ?_
    simp

/-- The rails go off whether or not the package has failed before; if not, it now does. -/
theorem railsOff_frame (s : State) : (railsOff s).pw.rails = false ∧ (railsOff s).host.hm.failed = true ∧
    (railsOff s).pins.thermN = s.pins.thermN ∧ (railsOff s).dv = s.dv ∧ (railsOff s).x = s.x ∧ (railsOff s).parts = s.parts := by
  have hdv : (railsOff s).dv = s.dv := dv_declareFailed 1 0 _
  have hparts : (railsOff s).parts = s.parts := parts_declareFailed 1 0 _
  cases hfailed : s.host.hm.failed with
  | true =>
    have hsame : railsOff s = modPw (fun w => { w with rails := false }) s := if_pos hfailed
    rw [hsame]
    exact ⟨rfl, hfailed, rfl, rfl, rfl, rfl⟩
  | false =>
    obtain ⟨hnow, -, -, hpins, hpw, hx⟩ := declareFailed_first (s := modPw (fun w => { w with rails := false }) s) hfailed 1 0
    refine ⟨?_, hnow, ?_, hdv, hx, hparts⟩
    · rw [railsOff, hpw]; rfl
    · rw [railsOff, hpins]; rfl

/-! A zone's reading (R452, R453). -/

theorem getD_setAt_same {α : Type} {xs : List α} {i : Nat} (h : i < xs.length) (x d : α) : (setAt xs i x).getD i d = x := by
  rw [setAt_eq_set, List.getD_eq_getElem?_getD, List.getElem?_set_self h, Option.getD_some]

theorem getD_setAt_ne {α : Type} (xs : List α) {i j : Nat} (h : i ≠ j) (x d : α) : (setAt xs i x).getD j d = xs.getD j d := by
  rw [setAt_eq_set, List.getD_eq_getElem?_getD, List.getElem?_set_ne h, ← List.getD_eq_getElem?_getD]

/-- One zone is sampled on a package that has not tripped. -/
theorem thermal_one {s : State} {z : Nat} (htripped : s.dv.tripped = false) (hz : isZone z = true) (k : Nat) :
    thermal [(z, k)] s = zoneReads z k s := by
  simp only [thermal, List.filter_cons, List.filter_nil, hz, if_true, List.foldl_cons, List.foldl_nil, htripped,
    Bool.false_eq_true, if_false]

theorem throttleRate_eq (z : Nat) (s : State) : throttleRate z s =
    { modDv (fun v => { v with eighths := tset v.eighths z (1 + Config.choice s.free % 8) }) s with free := s.free + 1 } := rfl

section Zone
variable {s : State} {z k : Nat} (hlowered : s.dv.lowered = [])
include hlowered

theorem zoneLimits_parts (z : Nat) : (zoneLimits s z).1 = (if z < 6 then 100 else 92) ∧
    (zoneLimits s z).2.1 = (if z < 6 then 97 else 89) ∧ (zoneLimits s z).2.2 = (if z < 6 then 110 else 100) := by
  rw [zoneLimits_plain hlowered]
  split <;> exact ⟨rfl, rfl, rfl⟩

/-- What a zone does at its trip threshold. -/
theorem zoneReads_trips (hhot : (if z < 6 then 110 else 100) ≤ k) : zoneReads z k s =
    railsOff (logPkg 0x0E04 true z k (modPins (fun p => { p with thermN := true })
      (modDv (fun v => { v with tripped := true }) (modDv (fun v => { v with temps := tset v.temps z k }) s)))) := by
  obtain ⟨-, -, htrip⟩ := zoneLimits_parts hlowered z
  simp only [zoneReads, htrip, hhot, if_true]

/-- What a zone that was not throttled does at its throttle threshold. -/
theorem zoneReads_throttles (hhot : (if z < 6 then 100 else 92) ≤ k) (hbelow : k < (if z < 6 then 110 else 100))
    (hnew : z ∉ s.dv.throttled) : ∃ eighths free, zoneReads z k s =
      { modDv (fun v => { v with eighths := eighths }) (logPkg 0x0E03 false z k (modDv (fun v => { v with
        throttled := v.throttled ++ [z], goal := if z < 4 then setAt v.goal z 20 else v.goal })
          (modDv (fun v => { v with temps := tset v.temps z k }) s))) with free := free } := by
  obtain ⟨hthrottle, -, htrip⟩ := zoneLimits_parts hlowered z
  simp only [zoneReads, htrip, hthrottle, Nat.not_le_of_lt hbelow, hhot, hnew, if_false, if_true]
  split
  · exact ⟨_, _, rfl⟩
  · exact ⟨_, _, throttleRate_eq ..⟩

/-- A throttled zone below its release threshold is throttled no more. -/
theorem zoneReads_releases (hcool : k < (if z < 6 then 97 else 89)) (hin : z ∈ s.dv.throttled) : zoneReads z k s =
    modDv (fun v => { v with
      throttled := v.throttled.filter (· != z), eighths := terase v.eighths z
      goal := if z < 4 then setAt v.goal z (baseRatio s) else v.goal }) (modDv (fun v => { v with temps := tset v.temps z k }) s) := by
  obtain ⟨hthrottle, hrelease, htrip⟩ := zoneLimits_parts hlowered z
  have hbelow : ¬ (if z < 6 then 110 else 100) ≤ k ∧ ¬ (if z < 6 then 100 else 92) ≤ k := by
    split_ifs at hcool ⊢ <;> omega
  simp only [zoneReads, htrip, hthrottle, hrelease, hbelow, hcool, hin, and_self, if_false, if_true]

/-- Between its thresholds a zone is only read. -/
theorem zoneReads_between (hwarm : (if z < 6 then 97 else 89) ≤ k) (hcool : k < (if z < 6 then 100 else 92)) :
    zoneReads z k s = modDv (fun v => { v with temps := tset v.temps z k }) s := by
  obtain ⟨hthrottle, hrelease, htrip⟩ := zoneLimits_parts hlowered z
  have hbelow : ¬ (if z < 6 then 110 else 100) ≤ k := by
    split_ifs at hcool ⊢ <;> omega
  simp only [zoneReads, htrip, hthrottle, hrelease, hbelow, Nat.not_le_of_lt hcool, Nat.not_lt_of_le hwarm, false_and, if_false]

end Zone

/-! The control interval (R383, R448). -/

/-- What a control interval makes of the package's own state. -/
def spanBegun (draw : Nat) (domains : List Nat) (s : State) : State :=
  modDv (fun d => { d with draw, domain := (List.range 3).map fun i => domains.getD i 0
                           capHeld := (if capNow s * s.pw.frHbm < 256 * domains.getD 1 0 then [1] else []) ++
                             if capNow s * s.pw.frIo < 256 * domains.getD 2 0 then [2] else []
                           spans := [] }) s

theorem controlStep_one (draw : Nat) (domains : List Nat) (p q : Nat) (s : State) :
    controlStep draw domains [(p, q)] s = controlPart s [(p, q)] p (spanBegun draw domains s) := by
  simp only [controlStep, spanBegun, decide_eq_true_eq]
  rfl

/-- A control interval changes the rate of its partition and counters, and no more. -/
theorem controlPart_frame (s0 : State) (ps : List (Nat × Nat)) (p : Nat) (s : State) :
    (partOf (controlPart s0 ps p s) p).stat.throttle = eighthsOf (drawOf ps p) (shareOf s0 p + lentTo s0 ps p) ∧
    (controlPart s0 ps p s).dv = s.dv ∧ (controlPart s0 ps p s).x = s.x ∧ (controlPart s0 ps p s).host = s.host := by
  unfold controlPart cntAdd
  dsimp only
  split
  · exact ⟨by simp only [partOf_modStat], rfl, rfl, rfl⟩
  · exact ⟨by simp only [partOf_modStat], rfl, rfl, rfl⟩

/-! Energy (R454, R455, R459). -/

theorem tgetD_totAdd_same (k n : Nat) (s : State) : tgetD (totAdd k n s).tot k 0 = (tgetD s.tot k 0 + n) % 2 ^ 64 :=
  tgetD_tset_same ..

theorem tgetD_totAdd_ne {k j : Nat} (h : k ≠ j) (n : Nat) (s : State) : tgetD (totAdd k n s).tot j 0 = tgetD s.tot j 0 :=
  tgetD_tset_ne _ _ _ h

theorem cum_cntAdd_same (p k n : Nat) (s : State) :
    tgetD (partOf (cntAdd p k n s) p).stat.cum k 0 = (tgetD (partOf s p).stat.cum k 0 + n) % 2 ^ 64 := by
  rw [cntAdd, partOf_modStat]
  exact tgetD_tset_same ..

theorem cum_cntAdd_ne {k j : Nat} (h : k ≠ j) (p n : Nat) (s : State) :
    tgetD (partOf (cntAdd p k n s) p).stat.cum j 0 = tgetD (partOf s p).stat.cum j 0 := by
  rw [cntAdd, partOf_modStat]
  exact tgetD_tset_ne _ _ _ h

/-- The package totals after an energy sample: what came in, what the converters lost, and what no partition is charged for. -/
def energyTotals (input loss rest : Nat) (s : State) : State :=
  totAdd (tPower + 2) rest (totAdd (tPower + 1) loss (totAdd tPower input s))

theorem energyTotals_tot (input loss rest : Nat) (s : State) :
    tgetD (energyTotals input loss rest s).tot tPower 0 = (tgetD s.tot tPower 0 + input) % 2 ^ 64 ∧
    tgetD (energyTotals input loss rest s).tot (tPower + 1) 0 = (tgetD s.tot (tPower + 1) 0 + loss) % 2 ^ 64 ∧
    tgetD (energyTotals input loss rest s).tot (tPower + 2) 0 = (tgetD s.tot (tPower + 2) 0 + rest) % 2 ^ 64 := by
  have h01 : tPower ≠ tPower + 1 := by decide
  have h02 : tPower ≠ tPower + 2 := by decide
  have h12 : tPower + 1 ≠ tPower + 2 := by decide
  refine ⟨?_, ?_, ?_⟩
  · rw [energyTotals, tgetD_totAdd_ne h02.symm, tgetD_totAdd_ne h01.symm, tgetD_totAdd_same]
  · rw [energyTotals, tgetD_totAdd_ne h12.symm, tgetD_totAdd_same, tgetD_totAdd_ne h01]
  · rw [energyTotals, tgetD_totAdd_same, tgetD_totAdd_ne h12, tgetD_totAdd_ne h02]

/-- A partition is charged for its part of an energy sample. -/
def chargeEnergy (e : PartEnergy) (s : State) : State :=
  cntAdd e.part.val (cEnergy + 2) e.io (cntAdd e.part.val (cEnergy + 1) e.hbm (cntAdd e.part.val cEnergy e.compute s))

theorem chargeEnergy_frame (e : PartEnergy) (s : State) : (chargeEnergy e s).tot = s.tot ∧ (chargeEnergy e s).x = s.x ∧
    (chargeEnergy e s).host = s.host ∧ (chargeEnergy e s).pw = s.pw := ⟨rfl, rfl, rfl, rfl⟩

theorem chargeEnergy_cum (e : PartEnergy) (s : State) :
    tgetD (partOf (chargeEnergy e s) e.part.val).stat.cum cEnergy 0 =
      (tgetD (partOf s e.part.val).stat.cum cEnergy 0 + e.compute) % 2 ^ 64 ∧
    tgetD (partOf (chargeEnergy e s) e.part.val).stat.cum (cEnergy + 1) 0 =
      (tgetD (partOf s e.part.val).stat.cum (cEnergy + 1) 0 + e.hbm) % 2 ^ 64 ∧
    tgetD (partOf (chargeEnergy e s) e.part.val).stat.cum (cEnergy + 2) 0 =
      (tgetD (partOf s e.part.val).stat.cum (cEnergy + 2) 0 + e.io) % 2 ^ 64 := by
  have h01 : cEnergy ≠ cEnergy + 1 := by decide
  have h02 : cEnergy ≠ cEnergy + 2 := by decide
  have h12 : cEnergy + 1 ≠ cEnergy + 2 := by decide
  refine ⟨?_, ?_, ?_⟩
  · rw [chargeEnergy, cum_cntAdd_ne h02.symm, cum_cntAdd_ne h01.symm, cum_cntAdd_same]
  · rw [chargeEnergy, cum_cntAdd_ne h12.symm, cum_cntAdd_same, cum_cntAdd_ne h01]
  · rw [chargeEnergy, cum_cntAdd_same, cum_cntAdd_ne h12, cum_cntAdd_ne h02]

/-- An energy sample that charges one partition and no queue. -/
theorem countEnergy_one (input loss : Nat) (e : PartEnergy) (s : State) :
    countEnergy input loss [e] [] s = chargeEnergy e (energyTotals input loss (input - loss - (e.compute + e.hbm + e.io)) s) := by
  simp only [countEnergy, List.map_cons, List.map_nil, List.sum_cons, List.sum_nil, Nat.add_zero, List.foldl_cons, List.foldl_nil]
  rfl

end Sys2Proof.Machine

namespace Sys2Proof.Claim

open Sys2Proof.Machine

theorem thermalLimits : ThermalLimits := by
  intro s z k htripped hlowered hz
  have hexec : exec (.thermalSample [(z, k)]) s = .next (zoneReads z k s) := congrArg _ (thermal_one htripped hz k)
  rw [hexec]
  refine ⟨fun hhot hwell => ⟨_, rfl, ?trips⟩, fun hhot hbelow hnew => ⟨_, rfl, ?throttles⟩, fun hcool hin => ⟨_, rfl, ?releases⟩,
    fun hwarm hcool => congrArg _ (zoneReads_between hlowered hwarm hcool)⟩
  case trips =>
    rw [zoneReads_trips hlowered hhot]
    obtain ⟨hrails, hfailed, htherm, hdv, hx, -⟩ := railsOff_frame (logPkg 0x0E04 true z k
      (modPins (fun p => { p with thermN := true }) (modDv (fun v => { v with tripped := true })
        (modDv (fun v => { v with temps := tset v.temps z k }) s))))
    refine ⟨hrails, htherm.trans (by simp), ?_, hfailed, hx.trans (HostOnly.logEvent ..).x⟩
    rw [hdv]
    simp
  case throttles =>
    obtain ⟨eighths, free, hreads⟩ := zoneReads_throttles hlowered hhot hbelow hnew
    have hx := (HostOnly.logEvent 0x0E03 false 0 noOp noStep z k (modDv (fun v => { v with
      throttled := v.throttled ++ [z], goal := if z < 4 then setAt v.goal z 20 else v.goal })
        (modDv (fun v => { v with temps := tset v.temps z k }) s))).x
    rw [hreads]
    refine ⟨by simp, fun hdie hlen => ?_, by simp [tget_tset], by simp, hx⟩
    simp only [modDv_own, logPkg_frame, if_pos hdie]
    exact getD_setAt_same (by omega) 20 0
  case releases =>
    rw [zoneReads_releases hlowered hcool hin]
    refine ⟨by simp, fun hdie hlen => ?_, rfl⟩
    simp only [modDv_own, if_pos hdie]
    exact getD_setAt_same (by omega) _ 0

theorem powerAccounting : PowerAccounting := by
  intro s draw c h i input loss q p e
  refine ⟨⟨_, congrArg Host.Outcome.next (controlStep_one draw [c, h, i] p.val q s), ?_⟩,
    ⟨_, congrArg Host.Outcome.next (countEnergy_one input loss e s), ?_⟩⟩
  · obtain ⟨hrate, hdv, hx, hhost⟩ := controlPart_frame s [(p.val, q)] p.val (spanBegun draw [c, h, i] s)
    have hdraw : drawOf [(p.val, q)] p.val = 65536 * q := by simp [drawOf]
    rw [hdv, hrate, hdraw]
    refine ⟨rfl, rfl, rfl, rfl, ?_, ?_, hx, hhost⟩
    · simp [spanBegun]
    · simp [spanBegun]
  · obtain ⟨hin, hloss, hrest⟩ := energyTotals_tot input loss (input - loss - (e.compute + e.hbm + e.io)) s
    obtain ⟨hcompute, hhbm, hio⟩ := chargeEnergy_cum e (energyTotals input loss (input - loss - (e.compute + e.hbm + e.io)) s)
    obtain ⟨htot, hx, hhost, hpw⟩ := chargeEnergy_frame e (energyTotals input loss (input - loss - (e.compute + e.hbm + e.io)) s)
    rw [htot]
    exact ⟨hin, hloss, hrest, hcompute, hhbm, hio, hx, hhost, hpw⟩

/-- Settles O26: a zone's reading falls into one of four ranges; the counters of an energy sample are six different ones. -/
theorem heatAndPower : Obligations.HeatAndPower := ⟨thermalLimits, powerAccounting⟩

end Sys2Proof.Claim
end

section
/-! PROOFS. state.set and the ladder of power states (R441, R444 to R447, R449, R455, R456). -/

namespace Sys2Proof.Machine

/-! Updates of the power state. -/

theorem modPw_modPw (f g : Power → Power) (s : State) : modPw f (modPw g s) = modPw (fun w => f (g w)) s := rfl

/-- Two updates that do the same to the power state as it stands are the same update. -/
theorem modPw_congr {f g : Power → Power} {s : State} (h : f s.pw = g s.pw) : modPw f s = modPw g s := by
  unfold modPw
  rw [h]

theorem modPw_eq_self {f : Power → Power} {s : State} (h : f s.pw = s.pw) : modPw f s = s := by
  unfold modPw
  rw [h]

/-! The cap, the fractions, the clock and READ (R441, R447, R449, R455, R456). -/

section Settings
variable {r : Request} {s : State}

theorem setCap_good (hlow : 1200 ≤ fld (argOf r 1) 0 12) (hhigh : fld (argOf r 1) 0 12 ≤ 3000)
    (hshares : shareBroken s (fld (argOf r 1) 0 12) s.pw.frCompute = false) :
    setCap r s = reply r 0 [] (modPw (fun w => { w with cap := fld (argOf r 1) 0 12 }) s) := by
  have hrange : ¬ (fld (argOf r 1) 0 12 < 1200 ∨ 3000 < fld (argOf r 1) 0 12) := by omega
  simp only [setCap, hrange, hshares, Bool.false_eq_true, if_false]

theorem setCap_outside (hout : fld (argOf r 1) 0 12 < 1200 ∨ 3000 < fld (argOf r 1) 0 12) : setCap r s = reply r 0x0E02 [] s :=
  if_pos hout

theorem setFractions_good (hsum : fld (argOf r 1) 0 9 + fld (argOf r 1) 16 9 + fld (argOf r 2) 0 9 = 256)
    (hshares : shareBroken s s.pw.cap (fld (argOf r 1) 0 9) = false) : setFractions r s = reply r 0 [] (modPw (fun w => { w with
      frCompute := fld (argOf r 1) 0 9, frHbm := fld (argOf r 1) 16 9, frIo := fld (argOf r 2) 0 9 }) s) := by
  simp only [setFractions, hsum, hshares, ne_eq, not_true_eq_false, Bool.false_eq_true, if_false]

theorem setFractions_unequal (hsum : fld (argOf r 1) 0 9 + fld (argOf r 1) 16 9 + fld (argOf r 2) 0 9 ≠ 256) :
    setFractions r s = reply r 0x0E02 [] s := if_pos hsum

/-- No clock request is answered while a die is not at its goal. -/
theorem slewDone_under_way {s : State} (h : s.dv.cur ≠ s.dv.goal) : slewDone s = s := if_neg h

/-- A fixed ratio sets the goal of each die; the request waits until all dies have it. -/
theorem setClock_fixed (hmode : bitOf (argOf r 1) 0 = true) (hlow : 20 ≤ fld (argOf r 1) 8 6) (hhigh : fld (argOf r 1) 8 6 ≤ 33)
    (hcool : s.dv.throttled = []) (haway : s.dv.cur ≠ List.replicate 4 (fld (argOf r 1) 8 6)) :
    setClock r s = modDv (fun d => { d with goal := List.replicate 4 (fld (argOf r 1) 8 6) })
      (modPw (fun w => { w with mode := true, ratio := fld (argOf r 1) 8 6, slewing := w.slewing ++ [r] }) s) := by
  have hlow' : ¬ fld (argOf r 1) 8 6 < 20 := Nat.not_lt_of_le hlow
  have hhigh' : ¬ 33 < fld (argOf r 1) 8 6 := Nat.not_lt_of_le hhigh
  have hnone : ∀ d, dieHot s d = false := fun d => by rw [dieHot, hcool]; rfl
  simp only [setClock, hlow', hhigh', hmode, hnone, baseRatio, modPw_own, or_self, and_false, Bool.false_eq_true, if_false, if_true]
  exact slewDone_under_way (s := modDv (fun d => { d with goal := List.replicate 4 (fld (argOf r 1) 8 6) })
    (modPw (fun w => { w with mode := true, ratio := fld (argOf r 1) 8 6, slewing := w.slewing ++ [r] }) s)) haway

theorem readEnergy_cluster (hc : fld (argOf r 1) 0 6 < 48) : readEnergy r s = reply r 0
    ((List.range 16).flatMap fun q => w64 (tgetD s.dv.queueUj (16 * fld (argOf r 1) 0 6 + q) 0)) s :=
  if_neg (Nat.not_le_of_lt hc)

end Settings

/-! state.set STATE (R445, R446). -/

section SetState
variable {r : Request} {s : State} {t : PState} (hname : pstateOf (fld (argOf r 1) 0 3) = some t)
include hname

theorem setState_refused (hno : stateRefusals s t ≠ 0) : setState r s = reply r 0x0E01 [w32 (stateRefusals s t)] s := by
  simp only [setState, hname, hno, ne_eq, not_false_eq_true, if_true]

theorem setState_reached (hyes : stateRefusals s t = 0) (hsame : t = s.pw.st) (hidle : s.pw.target = none) :
    setState r s = reply r 0 [] (modPw (fun w => { w with autoWake := bitOf (argOf r 1) 8 }) s) := by
  simp only [setState, hname, hyes, ne_eq, not_true_eq_false, if_false]
  exact if_pos ⟨hsame, by rw [hidle]; rfl⟩

/-- Towards a state before which the package does not leave its fabric, the package only drains. -/
theorem setState_drains (hyes : stateRefusals s t = 0) (hother : t ≠ s.pw.st) (hwake : s.pw.st ≠ .drydock) (hlight : deepRest t = false) :
    setState r s = modPw (fun w => { w with
      autoWake := bitOf (argOf r 1) 8, target := some t, waiting := w.waiting ++ [r] }) s := by
  have hstays (u : State) (htarget : u.pw.target = some t) : moveOn u = u := by
    simp only [moveOn, htarget, hlight, Bool.false_eq_true, false_and, and_false, if_false]
  simp only [setState, hname, hyes, hother, hwake, ne_eq, not_true_eq_false, false_and, if_false, modPw_modPw]
  exact hstays _ rfl

end SetState

/-! Reaching a state (R444 to R446, R520). -/

/-- Entering a state of the ladder changes of the power state that state only. -/
theorem enterState_pw (st : PState) (s : State) : (enterState st s).pw = { s.pw with st } := by
  unfold enterState
  split
  · next hsame => subst hsame; rfl
  · simp

/-- Where no request waits, nobody is answered. -/
theorem arriveAt_unasked {t : PState} {s : State} (hnone : s.pw.waiting = []) :
    arriveAt t s = modPw (fun w => { w with target := if w.target = some t then none else w.target }) s := by
  simp only [arriveAt, hnone, List.filter_nil, List.foldl_nil]
  refine modPw_congr ?_
  simp only [hnone, List.filter_nil]

section Reached
variable {s : State}

/-- An entry that has no departure before it. -/
theorem stateReached_down {t : PState} (htarget : s.pw.target = some t) (hdeeper : deeper t s.pw.st = true)
    (hlight : deepRest t = false) (hdrained : drained s = true) (hnone : s.pw.waiting = []) :
    stateReached s = modPw (fun w => { w with target := none }) (enterState t s) := by
  have hother : t ≠ s.pw.st := by
    rintro rfl
    simp [deeper] at hdeeper
  have hshallow : t ≠ .drydock := by
    rintro rfl
    exact nomatch hlight
  have hnone' : (enterState t s).pw.waiting = [] := by rw [enterState_pw]; exact hnone
  have htarget' : (enterState t s).pw.target = some t := by rw [enterState_pw]; exact htarget
  simp only [stateReached, htarget, hother, hdeeper, hdrained, hlight, goDown, hshallow, not_true_eq_false, Bool.false_eq_true,
    false_and, if_false, if_true]
  rw [arriveAt_unasked hnone']
  exact modPw_congr (by rw [htarget', if_pos rfl])

theorem stateReached_waits {t : PState} (htarget : s.pw.target = some t) (hdeeper : deeper t s.pw.st = true)
    (hbusy : drained s = false) : stateReached s = s := by
  have hother : t ≠ s.pw.st := by
    rintro rfl
    simp [deeper] at hdeeper
  simp only [stateReached, htarget, hother, hdeeper, hbusy, Bool.false_eq_true, not_false_eq_true, if_false, if_true]

/-- The exit from Berth comes to Quayside and goes on from there. -/
theorem stateReached_quayside (htarget : s.pw.target = some .run) (hst : s.pw.st = .berth) (hnone : s.pw.waiting = []) :
    stateReached s = enterState .quayside s := by
  have hwake : wakeUp s = enterState .quayside s := by
    rw [wakeUp, hst]
    exact if_neg (by decide)
  have hnone' : (enterState .quayside s).pw.waiting = [] := by rw [enterState_pw]; exact hnone
  have htarget' : (enterState .quayside s).pw.target = some .run := by rw [enterState_pw]; exact htarget
  have hreached : stateReached s = arriveAt .quayside (wakeUp s) := by
    simp [stateReached, htarget, hst, deeper, pstateCode]
  rw [hreached, hwake, arriveAt_unasked hnone']
  exact modPw_eq_self (by rw [htarget', if_neg (by decide), ← htarget'])

theorem stateReached_run (htarget : s.pw.target = some .run) (hst : s.pw.st = .quayside) (hnone : s.pw.waiting = []) :
    stateReached s = modPw (fun w => { w with target := none }) (enterState .run s) := by
  have hnone' : (enterState .run s).pw.waiting = [] := by rw [enterState_pw]; exact hnone
  have htarget' : (enterState .run s).pw.target = some .run := by rw [enterState_pw]; exact htarget
  have hreached : stateReached s = arriveAt .run (enterState .run s) := by
    simp [stateReached, htarget, hst, deeper, pstateCode]
  rw [hreached, arriveAt_unasked hnone']
  exact modPw_congr (by rw [htarget', if_pos rfl])

end Reached

end Sys2Proof.Machine

namespace Sys2Proof.Claim

open Sys2Proof.Machine

theorem powerSettings : PowerSettings := by
  intro s m r sub hr hsub
  subst hsub
  refine ⟨fun hsub hlow hhigh hshares => ?cap, fun hsub hout => ?capOut, fun hsub hsum hshares => ?fractions,
    fun hsub hsum => ?unequal, fun hsub hmode hlow hhigh hcool hlen haway => ?clock, fun hsub => hr.sub hsub rfl,
    fun hsub hc => ?energy⟩
  case cap => exact hr.sub hsub (setCap_good (s := taken s) hlow hhigh hshares)
  case capOut => exact hr.sub hsub (setCap_outside (s := taken s) hout)
  case fractions => exact hr.sub hsub (setFractions_good (s := taken s) hsum hshares)
  case unequal => exact hr.sub hsub (setFractions_unequal (s := taken s) hsum)
  case clock => exact hr.sub hsub (setClock_fixed (s := taken s) hmode hlow hhigh hcool haway)
  case energy => exact hr.sub hsub (readEnergy_cluster (s := taken s) hc)

/-- Neither Run, Quayside nor Berth is a state before which the package leaves its fabric (R445). -/
theorem deepRest_of_light {t : PState} (h : t ∈ [.run, .quayside, .berth]) : deepRest t = false := by
  revert h
  cases t <;> decide

theorem powerStateLadder : PowerStateLadder := by
  intro s m r t
  refine ⟨fun hr hsub hname => ⟨fun hno => ?refused, fun hyes hsame hidle => ?reached, fun hyes hother hwake hlight => ?drains⟩,
    fun htarget hst hnone hdrained => ?berth, fun htarget hdeeper hbusy => congrArg _ (stateReached_waits htarget hdeeper hbusy),
    fun htarget hst hnone => congrArg _ (stateReached_quayside htarget hst hnone),
    fun htarget hst hnone => congrArg _ (stateReached_run htarget hst hnone)⟩
  case refused => exact hr.sub hsub (setState_refused (s := taken s) hname hno)
  case reached => exact hr.sub hsub (setState_reached (s := taken s) hname hyes hsame hidle)
  case drains => exact hr.sub hsub (setState_drains (s := taken s) hname hyes hother hwake (deepRest_of_light hlight))
  case berth => exact congrArg _ (stateReached_down htarget (by rw [hst]; decide) rfl hdrained hnone)

/-- Settles O24: each setting passes its bounds or breaks one; each state of the ladder is reached by the way that R446 gives. -/
theorem powerCommands : Obligations.PowerCommands := ⟨powerSettings, powerStateLadder⟩

end Sys2Proof.Claim
end

section
/-! PROOFS. The input voltage, the clocks, droop and the PLLs (R439 to R442, R450, R451, R477). -/

namespace Sys2Proof.Machine

/-! The input voltage (R439, R477). -/

theorem inputKind_window {mv : Nat} (hlow : 38000 ≤ mv) (hhigh : mv ≤ 46000) : inputKind mv = 0 := if_pos ⟨hlow, hhigh⟩

theorem inputKind_beyond {mv : Nat} (hlow : 35000 ≤ mv) (hhigh : mv ≤ 48000) (hout : mv < 38000 ∨ 46000 < mv) :
    inputKind mv = 1 := by
  have hwindow : ¬ (38000 ≤ mv ∧ mv ≤ 46000) := by omega
  rw [inputKind, if_neg hwindow, if_pos ⟨hlow, hhigh⟩]

theorem inputKind_far {mv : Nat} (hout : mv < 35000 ∨ 48000 < mv) : inputKind mv = 2 := by
  have hwindow : ¬ (38000 ≤ mv ∧ mv ≤ 46000) := by omega
  have hbeyond : ¬ (35000 ≤ mv ∧ mv ≤ 48000) := by omega
  rw [inputKind, if_neg hwindow, if_neg hbeyond]

/-- A sample inside the window changes nothing but what is known of the input. -/
theorem sampleInput_window {mv : Nat} (hlow : 38000 ≤ mv) (hhigh : mv ≤ 46000) (s : State) : sampleInput mv s =
    modPw (fun w => { w with millivolts := mv, outKind := 0, outFor := if w.outKind = 0 then w.outFor + 1 else 1 }) s := by
  simp only [sampleInput, inputKind_window hlow hhigh, ite_self]
  rfl

/-- What is known of the input after the fiftieth sample in a row of kind `k`. -/
def fiftieth (mv k : Nat) (s : State) : State := modPw (fun w => { w with millivolts := mv, outKind := k, outFor := 50 }) s

section Fiftieth
variable {mv : Nat} {s : State} (hfor : s.pw.outFor = 49) (hready : s.boot.stage = .ready)
include hfor hready

theorem sampleInput_beyond (hkind : inputKind mv = 1) (hrow : s.pw.outKind = 1) : sampleInput mv s =
    logPkg 0x0E05 true mv 1 (modPw (fun w => { w with lowCap := true }) (fiftieth mv 1 s)) := by
  simp [sampleInput, fiftieth, hkind, hrow, hfor, hready]

theorem sampleInput_far (hkind : inputKind mv = 2) (hrow : s.pw.outKind = 2) : sampleInput mv s =
    railsOff (logPkg 0x0E05 true mv 2 (fiftieth mv 2 s)) := by
  simp [sampleInput, fiftieth, hkind, hrow, hfor, hready]

end Fiftieth

theorem portsOff_frame (s : State) : (portsOff s).x = s.x ∧ (portsOff s).pw = s.pw ∧ (portsOff s).pins = s.pins ∧
    (portsOff s).host = s.host := by
  have hoff : PortsOnly s (portsOff s) := .foldl (fun t p => .modPort p _ t) _ s
  exact ⟨hoff.x, hoff.pw, hoff.pins, hoff.host⟩

/-- Below 30 V the package is held up with its rails off. -/
theorem below30_holds {mv : Nat} {s : State} (hmv : mv < 30000) (hstage : s.boot.stage ≠ .unpowered) :
    (below30 mv s).boot.stage = .holdup ∧ (below30 mv s).pw.rails = false ∧ (below30 mv s).pins.faultN = true ∧
    (below30 mv s).pins.vinOk = false ∧ (below30 mv s).host.hm.failed = true ∧ (below30 mv s).host.log = s.host.log ∧
    (below30 mv s).x.bond = s.x.bond := by
  have hacts : ¬ (30000 ≤ mv ∨ s.boot.stage = .unpowered) := not_or.mpr ⟨Nat.not_le_of_lt hmv, hstage⟩
  obtain ⟨hx, hpw, -, hhost⟩ := portsOff_frame
    (modPw (fun w => { w with rails := false, millivolts := mv, outKind := 2, outFor := 1 }) s)
  rw [below30, if_neg hacts]
  simp [hx, hpw, hhost]

/-! The clock of a die (R440 to R442). -/

/-- The dies' ratios and the temperatures stand, be a clock request answered or not. -/
theorem dv_slewDone (s : State) : (slewDone s).dv = s.dv := by
  unfold slewDone
  split
  · exact List.foldlRecOn (motive := fun (t : State) => t.dv = s.dv) _ _ rfl fun t ht r _ => (by simp : _ = t.dv).trans ht
  · rfl

/-- Where no clock request waits, none is answered. -/
theorem slewDone_unasked {s : State} (h : s.pw.slewing = []) : slewDone s = s := by
  simp only [slewDone, h, List.foldl_nil]
  split
  · exact modPw_eq_self (by rw [← h])
  · rfl

section Boost
variable {d : Nat} {s : State}

/-- The next ratio of a die that boost and its goal leave to itself. -/
theorem boost_up (hmay : mayBoost s d = true) (hlow : 33 ≤ s.dv.cur.getD d 33) (hhigh : s.dv.cur.getD d 33 < 36)
    (hgoal : s.dv.goal.getD d 33 = s.dv.cur.getD d 33) : boost d s =
      slewDone (modDv (fun v => { v with
        cur := setAt v.cur d (s.dv.cur.getD d 33 + 1), goal := setAt v.goal d (s.dv.cur.getD d 33 + 1) }) s) := by
  have hne : ¬ s.dv.cur.getD d 33 + 1 = s.dv.cur.getD d 33 := Nat.succ_ne_self _
  simp only [boost, hmay, hlow, hhigh, hgoal, hne, and_self, Nat.lt_irrefl, if_true, if_false]

theorem boost_held (hmay : mayBoost s d = true) (hgoal : s.dv.goal.getD d 33 ≠ s.dv.cur.getD d 33) : boost d s = s := by
  simp only [boost, hmay, hgoal, and_false, if_true, if_false]

theorem boost_back (hmay : mayBoost s d = false) (hover : 33 < s.dv.cur.getD d 33) : boost d s =
    slewDone (modDv (fun v => { v with
      cur := setAt v.cur d (s.dv.cur.getD d 33 - 1)
      goal := setAt v.goal d (if s.dv.goal.getD d 33 < s.dv.cur.getD d 33 then s.dv.goal.getD d 33 else s.dv.cur.getD d 33 - 1) })
      s) := by
  have hne : ¬ s.dv.cur.getD d 33 - 1 = s.dv.cur.getD d 33 := by omega
  simp only [boost, hmay, hover, hne, Bool.false_eq_true, if_true, if_false]

theorem boost_rests (hmay : mayBoost s d = false) (hbase : s.dv.cur.getD d 33 ≤ 33) : boost d s = s := by
  simp only [boost, hmay, Nat.not_lt_of_le hbase, Bool.false_eq_true, if_true, if_false]

end Boost

section Slew
variable {d : Nat} {s : State} (hnone : s.pw.slewing = [])
include hnone

theorem slewStep_up (h : s.dv.cur.getD d 33 < s.dv.goal.getD d 33) :
    slewStep d s = modDv (fun v => { v with cur := setAt v.cur d (s.dv.cur.getD d 33 + 1) }) s := by
  simp only [slewStep, h, if_true]
  exact slewDone_unasked hnone

theorem slewStep_down (h : s.dv.goal.getD d 33 < s.dv.cur.getD d 33) :
    slewStep d s = modDv (fun v => { v with cur := setAt v.cur d (s.dv.cur.getD d 33 - 1) }) s := by
  simp only [slewStep, Nat.lt_asymm h, h, if_true, if_false]
  exact slewDone_unasked hnone

end Slew

/-! Droop (R450, R451). -/

/-- A stretched cycle of cluster `k` is counted. -/
def stretched (k : Nat) (s : State) : State :=
  totAdd (tPower + 10) 1 (modDv (fun v => { v with spans := tset v.spans k (tgetD s.dv.spans k 0 + 1) }) s)

theorem stretched_tot (k j : Nat) (s : State) : tgetD (stretched k s).tot j 0 =
    if j = tPower + 10 then (tgetD s.tot (tPower + 10) 0 + 1) % 2 ^ 64 else tgetD s.tot j 0 := by
  unfold stretched
  split
  · next h =>
    subst h
    rw [tgetD_totAdd_same]
    simp
  · next h =>
    rw [tgetD_totAdd_ne (Ne.symm h)]
    simp

/-- It is charged to the cluster's partition, where it has one. -/
def chargeStretch (owner : Option Nat) (s : State) : State := (owner.map fun p => cntAdd p (cEnergy + 4) 1 s).getD s

theorem chargeStretch_frame (owner : Option Nat) (s : State) :
    (chargeStretch owner s).tot = s.tot ∧ (chargeStretch owner s).x = s.x ∧ (chargeStretch owner s).dv = s.dv := by
  cases owner with
  | none => exact ⟨rfl, rfl, rfl⟩
  | some p => exact ⟨by simp [chargeStretch], rfl, by simp [chargeStretch]⟩

/-- The core supply of die `d` is raised by a step, and the raise is counted, where `up` says so. -/
def raised (up : Bool) (d : Nat) (s : State) : State :=
  if up then totAdd (tPower + 12) 1 (modDv (fun v => { v with raise := setAt v.raise d (v.raise.getD d 0 + 1) }) s) else s

theorem raised_frame (up : Bool) (d : Nat) (s : State) : (raised up d s).dv.spans = s.dv.spans ∧
    (raised up d s).dv.cur = s.dv.cur ∧ (raised up d s).x = s.x ∧
    ∀ j, j ≠ tPower + 12 → tgetD (raised up d s).tot j 0 = tgetD s.tot j 0 := by
  cases up with
  | false => exact ⟨rfl, rfl, rfl, fun _ _ => rfl⟩
  | true => exact ⟨by simp [raised], by simp [raised], rfl, fun j hj => (tgetD_totAdd_ne (Ne.symm hj) ..).trans (by simp)⟩

theorem onceEvent_frame (code : Nat) (fault : Bool) (p op step w4 w5 : Nat) (s : State) :
    (onceEvent code fault p op step w4 w5 s).dv = s.dv ∧ (onceEvent code fault p op step w4 w5 s).tot = s.tot ∧
    (onceEvent code fault p op step w4 w5 s).x = s.x := by
  unfold onceEvent
  split
  · exact ⟨rfl, rfl, rfl⟩
  · exact ⟨by simp, by simp, (HostOnly.logEvent ..).x⟩

/-- A stretched cycle beyond the budget is counted again, and event 0x0E06 tells the cluster's partition. -/
def overBudget (owner : Option Nat) (k n : Nat) (step : Nat → Nat) (s : State) : State :=
  match owner with
  | some p => onceEvent 0x0E06 false p noOp (step p) k n (totAdd (tPower + 11) 1 s)
  | none => totAdd (tPower + 11) 1 s

theorem overBudget_frame (owner : Option Nat) (k n : Nat) (step : Nat → Nat) (s : State) :
    (overBudget owner k n step s).dv = s.dv ∧ (overBudget owner k n step s).x = s.x ∧
    (overBudget owner k n step s).tot = (totAdd (tPower + 11) 1 s).tot := by
  cases owner with
  | none => exact ⟨by simp [overBudget], rfl, rfl⟩
  | some p =>
    obtain ⟨hdv, htot, hx⟩ := onceEvent_frame 0x0E06 false p noOp (step p) k n (totAdd (tPower + 11) 1 s)
    exact ⟨hdv.trans (by simp), hx, htot⟩

/-- A droop: the stretched cycle, its charge, the supply's raise, and the event beyond the budget. -/
theorem exists_droop (k : Nat) (s : State) : ∃ up step, droop k s =
    if tgetD s.dv.spans k 0 + 1 ≤ stretchBudget s k then raised up (k / 12) (chargeStretch (ownerOf s k) (stretched k s))
    else overBudget (ownerOf s k) k (tgetD s.dv.spans k 0 + 1) step
      (raised up (k / 12) (chargeStretch (ownerOf s k) (stretched k s))) := by
  refine ⟨decide (stretchBudget s k < 2 * (tgetD s.dv.spans k 0 + 1) ∧ 2 * (tgetD s.dv.spans k 0 + 1 - 1) ≤ stretchBudget s k ∧
    s.dv.raise.getD (k / 12) 0 < 6), fun p => ((flying s p).head?.map fun r => r.id).getD (partOf s p).run.committed, ?_⟩
  cases hown : ownerOf s k with
  | none => simp only [droop, hown, stretched, chargeStretch, raised, overBudget, Option.map_none, Option.getD_none]
  | some p => simp only [droop, hown, stretched, chargeStretch, raised, overBudget, Option.map_some, Option.getD_some]

section Droop
variable (k : Nat) (s : State)

theorem droop_frame : (droop k s).dv.spans = tset s.dv.spans k (tgetD s.dv.spans k 0 + 1) ∧ (droop k s).dv.cur = s.dv.cur ∧
    (droop k s).x = s.x := by
  obtain ⟨up, step, h⟩ := exists_droop k s
  obtain ⟨-, hx, hdv⟩ := chargeStretch_frame (ownerOf s k) (stretched k s)
  obtain ⟨hspans', hcur', hx', -⟩ := raised_frame up (k / 12) (chargeStretch (ownerOf s k) (stretched k s))
  have hspans : (stretched k s).dv.spans = tset s.dv.spans k (tgetD s.dv.spans k 0 + 1) := by simp [stretched]
  have hcur : (stretched k s).dv.cur = s.dv.cur := by simp [stretched]
  rw [h]
  split
  · exact ⟨by rw [hspans', hdv, hspans], by rw [hcur', hdv, hcur], by rw [hx', hx]; rfl⟩
  · obtain ⟨hdv'', hx'', -⟩ := overBudget_frame (ownerOf s k) k (tgetD s.dv.spans k 0 + 1) step
      (raised up (k / 12) (chargeStretch (ownerOf s k) (stretched k s)))
    exact ⟨by rw [hdv'', hspans', hdv, hspans], by rw [hdv'', hcur', hdv, hcur], by rw [hx'', hx', hx]; rfl⟩

/-- The totals that a droop moves: the stretched cycles, and those beyond the budget. -/
theorem droop_tot : tgetD (droop k s).tot (tPower + 10) 0 = (tgetD s.tot (tPower + 10) 0 + 1) % 2 ^ 64 ∧
    tgetD (droop k s).tot (tPower + 11) 0 = if tgetD s.dv.spans k 0 + 1 ≤ stretchBudget s k then tgetD s.tot (tPower + 11) 0
      else (tgetD s.tot (tPower + 11) 0 + 1) % 2 ^ 64 := by
  obtain ⟨up, step, h⟩ := exists_droop k s
  have hraised (j : Nat) (hj : j ≠ tPower + 12) :
      tgetD (raised up (k / 12) (chargeStretch (ownerOf s k) (stretched k s))).tot j 0 = tgetD (stretched k s).tot j 0 := by
    rw [(raised_frame ..).2.2.2 j hj, (chargeStretch_frame ..).1]
  have hten := hraised (tPower + 10) (by decide)
  have heleven := hraised (tPower + 11) (by decide)
  rw [stretched_tot, if_pos rfl] at hten
  rw [stretched_tot, if_neg (by decide)] at heleven
  rw [h]
  split
  · exact ⟨hten, heleven⟩
  · rw [(overBudget_frame ..).2.2, tgetD_totAdd_ne (by decide), tgetD_totAdd_same, hten, heleven]
    exact ⟨rfl, rfl⟩

end Droop

end Sys2Proof.Machine

namespace Sys2Proof.Claim

open Sys2Proof.Machine

theorem inputVoltage : InputVoltage := by
  intro s mv
  refine ⟨fun hlow hhigh => congrArg _ (sampleInput_window hlow hhigh s), fun hlow hhigh hout hrow hfor hready => ?beyond,
    fun hout hrow hfor hready => ?far, fun hin => ?back, fun hout => ?still, fun hmv hstage => ⟨_, rfl, below30_holds hmv hstage⟩⟩
  case beyond =>
    exact congrArg _ (sampleInput_beyond hfor hready (inputKind_beyond hlow hhigh hout) hrow)
  case far =>
    obtain ⟨hrails, hfailed, -, -, hx, hparts⟩ := railsOff_frame (logPkg 0x0E05 true mv 2 (fiftieth mv 2 s))
    have hlogged : HostOnly (fiftieth mv 2 s) (logPkg 0x0E05 true mv 2 (fiftieth mv 2 s)) := .logEvent ..
    exact ⟨_, congrArg Host.Outcome.next (sampleInput_far hfor hready (inputKind_far hout) hrow), hrails, hfailed,
      hx.trans hlogged.x, hparts.trans hlogged.parts⟩
  case back => exact congrArg Host.Outcome.next (if_pos hin)
  case still => exact congrArg Host.Outcome.next (if_neg hout)

theorem clocksAndDroop : ClocksAndDroop := by
  intro s d k hcur hgoal
  refine ⟨fun hmay hlow hhigh => ⟨fun hat hnone => ?up, fun haway => congrArg _ (boost_held hmay haway)⟩,
    fun hmay hover => ?back, fun hmay hbase => congrArg _ (boost_rests hmay hbase), fun hnone hbelow => ?slewUp,
    fun hnone habove => ?slewDown, ?droop, rfl⟩
  case up =>
    refine ⟨_, congrArg Host.Outcome.next ((boost_up hmay hlow hhigh hat).trans (slewDone_unasked hnone)), ?_, rfl, ?_⟩
    · exact getD_setAt_same (by omega) _ _
    · exact fun j hj => getD_setAt_ne _ (Ne.symm hj) _ _
  case back =>
    refine ⟨_, congrArg Host.Outcome.next (boost_back hmay hover), ?_, ?_⟩ <;> rw [dv_slewDone]
    · exact getD_setAt_same (by omega) _ _
    · exact getD_setAt_same (by omega) _ _
  case slewUp =>
    exact ⟨_, congrArg Host.Outcome.next (slewStep_up hnone hbelow), getD_setAt_same (by omega) _ _, rfl⟩
  case slewDown =>
    exact ⟨_, congrArg Host.Outcome.next (slewStep_down hnone habove), getD_setAt_same (by omega) _ _, rfl⟩
  case droop =>
    obtain ⟨hspans, hratio, hx⟩ := droop_frame k.val s
    obtain ⟨hten, heleven⟩ := droop_tot k.val s
    exact ⟨_, rfl, by rw [hspans, tget_tset, if_pos rfl], hten, heleven, hratio, hx⟩

/-- Settles O25: the kind of a sample decides what the input does, and each step of a clock is one ratio. -/
theorem supplyAndClocks : Obligations.SupplyAndClocks := ⟨inputVoltage, clocksAndDroop⟩

end Sys2Proof.Claim
end

section
/-! PROOFS. attest.get, firmware update, the SPDM responder and link IDE (R484 to R492, R497). -/

namespace Sys2Proof.Machine

/-! attest.get CERT (R492): the piece of the chain, filled up with zeros. -/

/-- 240 bytes: the piece of `chain` at `o`, then zeros. -/
def certPiece (chain : List Byte) (o : Nat) : List Byte :=
  slice chain o 240 ++ List.replicate (240 - (slice chain o 240).length) 0

section CertPiece
variable (chain : List Byte) (o : Nat)

theorem certPiece_length : (certPiece chain o).length = 240 := by
  simp only [certPiece, slice, List.length_append, List.length_take, List.length_drop, List.length_replicate]
  omega

theorem certPiece_take : (certPiece chain o).take (chain.length - o) = slice chain o 240 := by
  rcases Nat.le_total 240 (chain.length - o) with hlong | hshort
  · have hfull : (slice chain o 240).length = 240 := by simp [slice, hlong]
    rw [List.take_of_length_le (by rw [certPiece_length]; exact hlong), certPiece, hfull, Nat.sub_self, List.replicate_zero,
      List.append_nil]
  · have hrest : (slice chain o 240).length = chain.length - o := by simp [slice, hshort]
    rw [certPiece, List.take_append_of_le_length hrest.ge, List.take_of_length_le hrest.le]

theorem certPiece_drop {b : Byte} (hb : b ∈ (certPiece chain o).drop (chain.length - o)) : b = 0 := by
  have hlen : (slice chain o 240).length ≤ chain.length - o := by
    rw [slice, List.length_take, List.length_drop]
    exact Nat.min_le_right ..
  rw [certPiece, List.drop_append, List.drop_of_length_le hlen, List.nil_append] at hb
  exact List.eq_of_mem_replicate (List.mem_of_mem_drop hb)

end CertPiece

/-! Firmware (R484, R486, R497). -/

theorem fwSvn_le (ws : List Word) : fwSvn ws ≤ 63 := Nat.le_of_lt_succ (fld_lt (wordAt ws 2) 0 6)

section Firmware
variable {r : Request} {s : State}

/-- Outside boot recovery a written image stands or not, and that is all. -/
theorem fwWritten_served (r : Request) (b : Bool) (ws : List Word) (hstage : s.boot.stage ≠ .recovery) : fwWritten r b ws s =
    reply r (fwStatus s ws) [] (setSlot b (if fwStatus s ws = 0 then ws else []) (countWritten (4 * ws.length) s)) :=
  if_neg fun h => hstage h.2

theorem fwWrite_booted (dma : Option (List Word)) (hbooted : s.boot.booted = some (bitOf (argOf r 1) 0)) :
    fwWrite dma r s = reply r 0x1005 [] s := if_pos (.inl hbooted)

section Unbooted
variable (dma : Option (List Word)) (hslot : s.boot.booted ≠ some (bitOf (argOf r 1) 0)) (hnone : s.sec.fw = none)
  (hsize : (argOf r 4).toNat ≤ 2 ^ 26)
include hslot hnone hsize

theorem fwWrite_pieces (hpieces : bitOf (argOf r 1) 1 = true) : fwWrite dma r s = reply r 0 [] (setSlot (bitOf (argOf r 1) 0) []
    (modSec (fun x => { x with fw := some { slotB := bitOf (argOf r 1) 0, bytes := (argOf r 4).toNat } }) s)) := by
  simp only [fwWrite, hslot, hnone, Nat.not_lt_of_le hsize, hpieces, Option.isSome_none, Bool.false_eq_true, or_self, if_false, if_true]

theorem fwWrite_whole (all : List Word) (hwhole : bitOf (argOf r 1) 1 = false) (hdma : dmaOpen s (dmaFn r) = true) :
    fwWrite (some all) r s =
      fwWritten r (bitOf (argOf r 1) 0) (all.take ((argOf r 4).toNat / 4)) (countRead (argOf r 4).toNat s) := by
  simp only [fwWrite, hslot, hnone, Nat.not_lt_of_le hsize, hwhole, hdma, Option.isSome_none, Bool.false_eq_true, not_true_eq_false,
    or_self, if_false]

end Unbooted

section Piece
variable {f : FwWrite} {n : Nat} (hfw : s.sec.fw = some f) (hn : fld (argOf r 0) 16 16 = n) (hwords : n % 4 = 0) (hlow : 4 ≤ n)
  (hhigh : n ≤ 224) (hat : (argOf r 1).toNat = 4 * f.got.length)
include hfw hn hwords hlow hhigh hat

/-- A piece that stands where it is expected is added to what has come. -/
theorem fwData_piece (hroom : 4 * f.got.length + n ≤ f.bytes) : fwData r s =
    if 4 * (f.got ++ slice r.words 4 (n / 4)).length < f.bytes then
      reply r 0 [] (countWritten n (modSec (fun x => { x with fw := some { f with got := f.got ++ slice r.words 4 (n / 4) } }) s))
    else fwWritten r f.slotB (f.got ++ slice r.words 4 (n / 4)) (modSec (fun x => { x with fw := none }) s) := by
  have hfits : ¬ (n % 4 ≠ 0 ∨ n < 4 ∨ 224 < n ∨ (argOf r 1).toNat ≠ 4 * f.got.length ∨ f.bytes < 4 * f.got.length + n) := by omega
  subst hn
  simp only [fwData, hfw, hfits, if_false]

end Piece

/-- A piece of `n` bytes adds `n` bytes. -/
theorem piece_bytes {n : Nat} (got : List Word) (hwords : n % 4 = 0) (hhigh : n ≤ 224) (hlen : r.words.length = 64) :
    4 * (got ++ slice r.words 4 (n / 4)).length = 4 * got.length + n := by
  simp only [slice, List.length_append, List.length_take, List.length_drop, hlen]
  omega

theorem fwPrefer_good (hgood : fwCheck s (slotImg s (bitOf (argOf r 1) 0)) = 0) :
    fwPrefer r s = reply r 0 [] (modBoot (fun x => { x with prefer := some (bitOf (argOf r 1) 0) }) s) := if_neg (not_not.mpr hgood)

theorem fwPrefer_bad (hbad : fwCheck s (slotImg s (bitOf (argOf r 1) 0)) ≠ 0) : fwPrefer r s = reply r 0x1001 [] s := if_pos hbad

section Commit
variable {b : Bool} (hbooted : s.boot.booted = some b)
include hbooted

theorem fwCommit_raises (hnew : s.boot.rollback < fwSvn (slotImg s b)) : fwCommit r s = reply r 0 []
    (logPkg 0x1004 false (fwSvn (slotImg s b)) 0 (modBoot (fun x => { x with rollback := fwSvn (slotImg s b) }) s)) := by
  simp only [fwCommit, hbooted, Option.map_some, Option.getD_some, Nat.not_le_of_lt hnew, Nat.not_lt_of_le (fwSvn_le _), if_false]

theorem fwCommit_stands (hold : fwSvn (slotImg s b) ≤ s.boot.rollback) : fwCommit r s = reply r 0 [] s := by
  simp only [fwCommit, hbooted, Option.map_some, Option.getD_some, hold, if_true]

end Commit

end Firmware

/-! The SPDM responder (R489). -/

section Spdm
variable (doe : Bool)

theorem spdmOf_modSpdm (f : Spdm → Spdm) (s : State) : spdmOf (modSpdm doe f s) doe = f (spdmOf s doe) := by cases doe <;> rfl

theorem spdmOf_modSpdm_other (f : Spdm → Spdm) (s : State) : spdmOf (modSpdm doe f s) (!doe) = spdmOf s (!doe) := by
  cases doe <;> rfl

/-- A response is kept on its transport and goes out. -/
theorem spdmOf_spdmSend (bs : List Byte) (s : State) : spdmOf (spdmSend doe bs s) doe = { spdmOf s doe with reply := bs } := by
  cases doe <;> rfl

theorem spdmOf_spdmSend_other (bs : List Byte) (s : State) : spdmOf (spdmSend doe bs s) (!doe) = spdmOf s (!doe) := by
  cases doe <;> rfl

section Answer
variable (code p1 p2 : Nat) (known : List Byte) (n : Nat) (s : State)

theorem spdmOf_spdmAnswer : spdmOf (spdmAnswer doe code p1 p2 known n s) doe = { spdmOf s doe with
    reply := [b8 (spdmOf s doe).version, b8 code, b8 p1, b8 p2] ++ known ++ (List.range n).map (Config.spdmBody s.free) } :=
  spdmOf_spdmSend doe _ _

theorem spdmOf_spdmAnswer_other : spdmOf (spdmAnswer doe code p1 p2 known n s) (!doe) = spdmOf s (!doe) :=
  spdmOf_spdmSend_other doe _ _

/-- A response with nothing left to the specification of SPDM. -/
theorem spdmAnswer_known : spdmAnswer doe code p1 p2 known 0 s =
    spdmSend doe ([b8 (spdmOf s doe).version, b8 code, b8 p1, b8 p2] ++ known) { s with free := s.free + 1 } := by
  unfold spdmAnswer
  simp only [List.range_zero, List.map_nil, List.append_nil, draw]

end Answer

/-- A signed response: a nonce and a signature, each of a free value, follow what the manual gives. -/
theorem exists_spdmSigned (msg : List Byte) (code p1 p2 : Nat) (known : List Byte) (s : State) :
    ∃ nonce sg : List Byte, nonce.length = 32 ∧ sg.length = 64 ∧ spdmSigned doe msg code p1 p2 known s =
      spdmSend doe ([b8 (spdmOf s doe).version, b8 code, b8 p1, b8 p2] ++ (known ++ nonce ++ sg)) { s with free := s.free + 3 } := by
  refine ⟨natBytes 32 (Config.entropy s.free).toNat, _, natBytes_length .., ?_, spdmAnswer_known ..⟩
  exact (List.length_append ..).trans (by rw [natBytes_length, natBytes_length])

section Ready
variable {doe} {s : State} (hup : spdmUp s doe = true)
include hup

theorem spdmReady_runs (halgs : (spdmOf s doe).algs = true) (f : State → State) : spdmReady doe f s = f s := by
  simp only [spdmReady, hup, halgs, not_true_eq_false, if_false]

theorem spdmVersion_up : spdmVersion doe s =
    spdmSend doe [0x10, 0x04, 0, 0, 0, 2, 0x00, 0x12, 0x00, 0x13] (modSpdm doe (fun _ => {}) s) := if_neg (not_not.mpr hup)

theorem spdmCaps_good {msg : List Byte} (hversion : byteAt msg 0 = 0x12 ∨ byteAt msg 0 = 0x13) : spdmCaps doe msg s =
    spdmAnswer doe 0x61 0 0 [] 16 (modSpdm doe (fun p => { p with version := byteAt msg 0, caps := true, algs := false }) s) := by
  have hknown : ¬ (byteAt msg 0 ≠ 0x12 ∧ byteAt msg 0 ≠ 0x13) := by omega
  simp only [spdmCaps, hup, hknown, not_true_eq_false, if_false]

theorem spdmAlgs_good (hcaps : (spdmOf s doe).caps = true) :
    spdmAlgs doe s = spdmAnswer doe 0x63 0 0 [] 32 (modSpdm doe (fun p => { p with algs := true }) s) := by
  simp only [spdmAlgs, hup, hcaps, not_true_eq_false, if_false]

theorem spdmAlgs_early (hcaps : (spdmOf s doe).caps = false) : spdmAlgs doe s = spdmError doe 4 s := by
  simp only [spdmAlgs, hup, hcaps, Bool.false_eq_true, not_true_eq_false, not_false_eq_true, if_false, if_true]

end Ready

theorem spdmCert_good {msg : List Byte} {s : State} {o n : Nat} (hslot : byteAt msg 2 % 16 = 0)
    (ho : byteAt msg 4 + 256 * byteAt msg 5 = o) (hn : byteAt msg 6 + 256 * byteAt msg 7 = n) (hin : o < s.sec.chain.length) :
    spdmCert doe msg s = spdmAnswer doe 0x02 0 0 (natBytes 2 (slice s.sec.chain o n).length ++
      natBytes 2 (s.sec.chain.length - o - (slice s.sec.chain o n).length) ++ slice s.sec.chain o n) 0 s := by
  have hgood : ¬ (byteAt msg 2 % 16 ≠ 0 ∨ s.sec.chain.length ≤ o) := by omega
  subst ho hn
  simp only [spdmCert, hgood, if_false]

/-- One measurement, unsigned. -/
theorem spdmMeasure_one {msg : List Byte} {s : State} {i : Nat} (hlow : 1 ≤ i) (hhigh : i ≤ 8) (hi : byteAt msg 3 = i)
    (hplain : bitOf (w32 (byteAt msg 2)) 0 = false) :
    spdmMeasure doe msg s = spdmAnswer doe 0x60 8 0 (1 :: natBytes 3 43 ++ measureBlock s i) 0 s := by
  have hzero : i ≠ 0 := by omega
  have hall : i ≠ 255 := by omega
  simp only [spdmMeasure, hi, hzero, hall, hplain, Nat.not_lt_of_le hhigh, false_and, Bool.false_eq_true, if_false,
    List.length_singleton, Nat.mul_one, List.flatMap_singleton]
  rfl

section Session
variable {s : State} (hup : spdmUp s true = true) (halgs : s.sec.doe.algs = true)
include hup halgs

/-- On DOE a session's request runs once the algorithms are settled. -/
theorem spdmSession_runs (f : State → State) : spdmSession true f s = f s := spdmReady_runs hup halgs f

end Session

/-- The session that KEY_EXCHANGE holds: the requester's half of its number, then a free half. -/
def sessionId (msg : List Byte) (s : State) : Nat :=
  byteAt msg 4 + 256 * byteAt msg 5 + 65536 * (Config.choice s.free % 65536)

theorem sessionId_mod (msg : List Byte) (s : State) : sessionId msg s % 65536 = byteAt msg 4 + 256 * byteAt msg 5 := by
  have hlow : byteAt msg 4 < 256 := (msg.getD 4 0).isLt
  have hhigh : byteAt msg 5 < 256 := (msg.getD 5 0).isLt
  unfold sessionId
  omega

/-- What is held once KEY_EXCHANGE is answered, on the state that the response is sent from. -/
theorem exists_spdmKeyExchange (msg : List Byte) (s : State) : ∃ bs, spdmKeyExchange true msg s = spdmSend true bs
    { modSpdm true (fun p => { p with session := some (sessionId msg s), finished := false, keyUpdates := 0 }) s with
      free := s.free + 4 } := by
  obtain ⟨_, _, -, -, h⟩ := exists_spdmSigned true msg 0x64 0 0 (natBytes 2 (sessionId msg s / 65536))
    (modSpdm true (fun p => { p with session := some (sessionId msg s), finished := false, keyUpdates := 0 }) (draw s).2)
  exact ⟨_, h⟩

theorem spdmFinish_held {s : State} {good : Bool} (hheld : s.sec.doe.session.isSome = true) (hopen : s.sec.doe.finished = false) :
    spdmFinish true good s =
      if good then spdmAnswer true 0x65 0 0 [] 0 (modSpdm true (fun p => { p with finished := true }) s)
      else spdmError true 6 (modSpdm true (fun p => { p with session := none }) s) := by
  have hruns : ¬ ((spdmOf s true).session.isNone = true ∨ (spdmOf s true).finished = true) := by
    simp [spdmOf, hopen, Option.isSome_iff_ne_none.mp hheld]
  exact if_neg hruns

theorem spdmKeyUpdate_held {s : State} (msg : List Byte) (hheld : s.sec.doe.session.isSome = true) (hdone : s.sec.doe.finished = true) :
    spdmKeyUpdate true msg s = spdmAnswer true 0x69 (byteAt msg 2) (byteAt msg 3) [] 0
      (modSpdm true (fun p => { p with keyUpdates := p.keyUpdates + 1 }) s) := by
  have hruns : ¬ ((spdmOf s true).session.isNone = true ∨ ¬ (spdmOf s true).finished = true) := by
    simp [spdmOf, hdone, Option.isSome_iff_ne_none.mp hheld]
  exact if_neg hruns

theorem spdmEnd_held {s : State} (hheld : s.sec.doe.session.isSome = true) : spdmEnd true s =
    spdmAnswer true 0x6C 0 0 [] 0 (modSpdm true (fun p => { p with session := none, finished := false }) s) := by
  have hruns : ¬ (spdmOf s true).session.isNone = true := by simp [spdmOf, Option.isSome_iff_ne_none.mp hheld]
  exact if_neg hruns

end Spdm

/-! Link IDE (R490). -/

section Ide
variable {msg : List Byte} {s : State}

/-- The response to an IDE_KM message goes out on DOE and changes no more than the free value and the responder of DOE. -/
def ideAnswer (bs : List Byte) (s : State) : State :=
  spdmSend true ([0] ++ bs ++ (List.range 5).map (Config.spdmBody s.free)) { s with free := s.free + 1 }

theorem ideKm_unheld (h : s.sec.doe.session = none) : ideKm msg s = s := if_pos (.inr (.inl (by rw [h]; rfl)))

section Held
variable (hup : spdmUp s true = true) (hheld : s.sec.doe.session.isSome = true) (hdone : s.sec.doe.finished = true)
include hup hheld hdone

theorem ideKm_program (hcode : byteAt msg 1 = 2) :
    ideKm msg s = ideAnswer [3] (modEp (fun e => { e with ide := if e.ide = .secure then .secure else .keyed }) s) := by
  simp [ideKm, ideAnswer, draw, hup, hdone, hcode, Option.isSome_iff_ne_none.mp hheld]

theorem ideKm_start (hcode : byteAt msg 1 = 4) :
    ideKm msg s = ideAnswer [6] (modEp (fun e => { e with ide := if e.ide = .keyed then .secure else e.ide }) s) := by
  simp [ideKm, ideAnswer, draw, hup, hdone, hcode, Option.isSome_iff_ne_none.mp hheld]

theorem ideKm_stop (hcode : byteAt msg 1 = 5) : ideKm msg s = ideAnswer [6] (modEp (fun e => { e with ide := .none }) s) := by
  simp [ideKm, ideAnswer, draw, hup, hdone, hcode, Option.isSome_iff_ne_none.mp hheld]

end Held

theorem ideFails_secure (stream : Nat) (h : s.host.ep.ide = .secure) :
    ideFails stream s = logPkg 0x1003 false stream 0 (modEp (fun e => { e with ide := .insecure }) s) := if_neg (not_not.mpr h)

theorem ideFails_plain (stream : Nat) (h : s.host.ep.ide ≠ .secure) : ideFails stream s = s := if_pos h

end Ide

end Sys2Proof.Machine

namespace Sys2Proof.Claim

open Sys2Proof.Machine

/-- Settles O27: taking the request changes nothing that is measured, and the identity key signs with one free value. -/
theorem attestation : Obligations.Attestation := by
  intro s m r hr
  refine ⟨fun hsub hlow hhigh => ?measure, fun hsub hout => ?none, fun hsub => ?quote, fun hsub hin => ?cert⟩
  case measure =>
    have hin : ¬ (fld (argOf r 1) 0 4 < 1 ∨ 8 < fld (argOf r 1) 0 4) := by omega
    exact hr.sub hsub (if_neg hin)
  case none =>
    have hout' : fld (argOf r 1) 0 4 < 1 ∨ 8 < fld (argOf r 1) 0 4 := by omega
    exact hr.sub hsub (if_pos hout')
  case quote =>
    refine ⟨_, ?_, hr.sub hsub rfl⟩
    exact (List.length_append ..).trans (by rw [natBytes_length, natBytes_length])
  case cert =>
    exact ⟨certPiece s.sec.chain (fld (argOf r 1) 0 12), certPiece_length .., certPiece_take .., fun _ => certPiece_drop _ _,
      hr.sub hsub (if_neg (Nat.not_le_of_lt hin))⟩

/-- Settles O28: each sub-command passes its checks or fails the one named; a whole image is checked once, however it came. -/
theorem firmwareUpdate : Obligations.FirmwareUpdate := by
  intro s m r all b hr
  have hfn : dmaFn r = 32 := hr.dmaFn (by decide)
  refine ⟨fun hsub hb hslot hnone hsize => ⟨fun hpieces => ?pieces, fun hwhole hdma hstage => ?whole⟩, fun hsub hbooted => ?booted,
    fun f n hsub hfw hn hwords hlow hhigh hat hlen => ⟨fun hmore => ?piece, fun hlast hstage => ?last⟩,
    fun hsub hgood => hr.sub hsub (fwPrefer_good (s := taken s) hgood), fun hsub hbad => hr.sub hsub (fwPrefer_bad (s := taken s) hbad),
    fun hsub hbooted hnew => hr.sub hsub (fwCommit_raises (s := taken s) hbooted hnew),
    fun hsub hbooted hold => hr.sub hsub (fwCommit_stands (s := taken s) hbooted hold)⟩
  case pieces =>
    subst hb
    exact hr.sub hsub (fwWrite_pieces (s := taken s) none hslot hnone hsize hpieces)
  case whole =>
    subst hb
    exact hr.sub hsub ((fwWrite_whole (s := taken s) hslot hnone hsize all hwhole (hfn ▸ hdma)).trans
      (fwWritten_served (s := countRead (argOf r 4).toNat (taken s)) r _ _ hstage))
  case booted => exact hr.sub hsub (fwWrite_booted (s := taken s) (some all) hbooted)
  case piece =>
    have hbytes := piece_bytes f.got hwords hhigh hlen
    exact hr.sub hsub ((fwData_piece (s := taken s) hfw hn.symm hwords hlow hhigh hat hmore.le).trans (if_pos (hbytes ▸ hmore)))
  case last =>
    have hbytes := (piece_bytes f.got hwords hhigh hlen).trans hlast
    refine hr.sub hsub ((fwData_piece (s := taken s) hfw hn.symm hwords hlow hhigh hat hlast.le).trans
      ((if_neg (Nat.not_lt_of_le hbytes.ge)).trans ?_))
    rw [fwWritten_served r f.slotB _ (s := modSec (fun x => { x with fw := none }) (taken s)) hstage, hbytes]
    rfl

theorem spdmConnection : SpdmConnection := by
  intro s doe msg hup
  refine ⟨congrArg _ (spdmVersion_up hup), fun hversion => ?caps, fun hcaps => ?algs, fun hcaps => ?early⟩
  case caps =>
    have hown := spdmOf_spdmAnswer doe 0x61 0 0 [] 16
      (modSpdm doe (fun p => { p with version := byteAt msg 0, caps := true, algs := false }) s)
    rw [spdmOf_modSpdm] at hown
    exact ⟨_, congrArg Host.Outcome.next (spdmCaps_good hup hversion), congrArg Spdm.version hown, congrArg Spdm.caps hown,
      congrArg Spdm.algs hown, congrArg (fun p => p.reply.take 2) hown,
      (spdmOf_spdmAnswer_other ..).trans (spdmOf_modSpdm_other ..), rfl⟩
  case algs =>
    have hown := spdmOf_spdmAnswer doe 0x63 0 0 [] 32 (modSpdm doe (fun p => { p with algs := true }) s)
    rw [spdmOf_modSpdm] at hown
    exact ⟨_, congrArg Host.Outcome.next (spdmAlgs_good hup hcaps), congrArg Spdm.algs hown,
      congrArg (fun p => p.reply.take 2) hown, (spdmOf_spdmAnswer_other ..).trans (spdmOf_modSpdm_other ..)⟩
  case early =>
    have hown : spdmOf (spdmError doe 4 s) doe =
      { spdmOf s doe with reply := [b8 (spdmOf s doe).version, 0x7F, 4, 0] } := spdmOf_spdmAnswer doe 0x7F 4 0 [] 0 s
    exact ⟨_, congrArg Host.Outcome.next (spdmAlgs_early hup hcaps), congrArg Spdm.reply hown, by rw [hown]⟩

theorem spdmAuthentication : SpdmAuthentication := by
  intro s doe msg hup halgs
  have hready := spdmReady_runs hup halgs
  refine ⟨?digests, fun o n bs hslot ho hn hin hbs => ?cert, ?challenge, fun i hlow hhigh hi hplain => ?measure⟩
  case digests => exact congrArg Host.Outcome.next ((hready _).trans (spdmAnswer_known ..))
  case cert =>
    subst hbs
    exact congrArg Host.Outcome.next ((hready _).trans ((spdmCert_good doe hslot ho.symm hn.symm hin).trans (spdmAnswer_known ..)))
  case challenge =>
    obtain ⟨nonce, sg, hnonce, hsg, h⟩ := exists_spdmSigned doe msg 0x03 0 1 (sha256 s.sec.chain) s
    exact ⟨nonce, sg, hnonce, hsg, congrArg Host.Outcome.next ((hready _).trans h)⟩
  case measure =>
    exact congrArg Host.Outcome.next ((hready _).trans ((spdmMeasure_one doe hlow hhigh hi hplain).trans (spdmAnswer_known ..)))

theorem spdmSessions : SpdmSessions := by
  intro s msg hup halgs
  have hruns := spdmSession_runs hup halgs
  refine ⟨?exchange, fun hheld hopen => ⟨?finish, ?bad⟩, fun hheld hdone => ?update, fun hheld => ?ends, fun hup' halgs' => ?mctp⟩
  case exchange =>
    obtain ⟨bs, h⟩ := exists_spdmKeyExchange msg s
    exact ⟨_, sessionId msg s, congrArg Host.Outcome.next ((hruns _).trans h), rfl, rfl, sessionId_mod .., rfl, rfl⟩
  case finish =>
    exact ⟨_, congrArg Host.Outcome.next ((hruns _).trans (spdmFinish_held hheld hopen)), rfl, rfl⟩
  case bad => exact ⟨_, congrArg Host.Outcome.next ((hruns _).trans (spdmFinish_held hheld hopen)), rfl⟩
  case update => exact ⟨_, congrArg Host.Outcome.next ((hruns _).trans (spdmKeyUpdate_held msg hheld hdone)), rfl, rfl⟩
  case ends => exact ⟨_, congrArg Host.Outcome.next ((hruns _).trans (spdmEnd_held hheld)), rfl, rfl⟩
  case mctp =>
    exact ⟨_, congrArg Host.Outcome.next (spdmReady_runs hup' halgs' (spdmError false 7)), rfl, rfl⟩

/-- Settles O36: each request runs once what it needs is settled, and its response is the one thing that it changes on the way. -/
theorem secureSessions : Obligations.SecureSessions := ⟨spdmConnection, spdmAuthentication, spdmSessions⟩

/-- Settles O33: within a finished session each IDE_KM message moves the stream by one step of its automaton. -/
theorem linkIde : Obligations.LinkIde := by
  intro s msg id
  refine ⟨fun hup hheld hdone => ⟨fun hcode hplain => ?program, fun hcode hkeyed => ?start, fun hcode => ?stop⟩,
    fun hnone => congrArg _ (ideKm_unheld hnone), fun hsecure => congrArg _ (ideFails_secure id.toNat hsecure),
    fun hplain => congrArg _ (ideFails_plain id.toNat hplain)⟩
  case program =>
    exact ⟨_, congrArg Host.Outcome.next (ideKm_program hup hheld hdone hcode), if_neg hplain, rfl⟩
  case start => exact ⟨_, congrArg Host.Outcome.next (ideKm_start hup hheld hdone hcode), if_pos hkeyed⟩
  case stop => exact ⟨_, congrArg Host.Outcome.next (ideKm_stop hup hheld hdone hcode), rfl⟩

end Sys2Proof.Claim
end

section
/-! PROOFS. Resets and events of the PCI Express endpoint (R400, R407, R429, R474). -/

namespace Sys2Proof.Machine

/-! What the reset of a function leaves alone (R407). -/

/-- The endpoint's link, the session on DOE, the careen engine, the boot record and the power state are in `t` as in `s`. -/
structure LinkAs (s t : State) : Prop where
  linkUp : t.host.ep.linkUp = s.host.ep.linkUp
  perst : t.host.ep.perst = s.host.ep.perst
  ide : t.host.ep.ide = s.host.ep.ide
  doe : t.sec.doe = s.sec.doe
  car : t.car = s.car
  boot : t.boot = s.boot
  st : t.pw.st = s.pw.st
  loopback : t.host.ep.loopback = s.host.ep.loopback

namespace LinkAs

theorem refl (s : State) : LinkAs s s := ⟨rfl, rfl, rfl, rfl, rfl, rfl, rfl, rfl⟩

theorem trans {s t u : State} (h : LinkAs s t) (k : LinkAs t u) : LinkAs s u :=
  ⟨k.linkUp.trans h.linkUp, k.perst.trans h.perst, k.ide.trans h.ide, k.doe.trans h.doe, k.car.trans h.car, k.boot.trans h.boot,
   k.st.trans h.st, k.loopback.trans h.loopback⟩

theorem foldl {α : Type} {f : State → α → State} (hf : ∀ t x, LinkAs t (f t x)) (xs : List α) (s : State) :
    LinkAs s (xs.foldl f s) := by
  induction xs generalizing s with
  | nil => exact refl s
  | cons x xs ih => exact (hf s x).trans (ih (f s x))

theorem discardReplies (f : MbxId → Bool) (s : State) : LinkAs s (discardReplies f s) := ⟨rfl, rfl, rfl, rfl, rfl, rfl, rfl, rfl⟩

theorem setMbx (ms : Tbl Mailbox) (s : State) : LinkAs s { s with host := { s.host with mbx := ms } } :=
  ⟨rfl, rfl, rfl, rfl, rfl, rfl, rfl, rfl⟩

theorem setBme (f : List Nat → List Nat) (s : State) : LinkAs s (modEp (fun e => { e with bme := f e.bme }) s) :=
  ⟨rfl, rfl, rfl, rfl, rfl, rfl, rfl, rfl⟩

theorem modPart (k : Nat) (f : Part → Part) (s : State) : LinkAs s (modPart k f s) := ⟨rfl, rfl, rfl, rfl, rfl, rfl, rfl, rfl⟩

end LinkAs

/-- The journal and Bus Master Enable, too, are in `t` as in `s`. -/
structure RequestsAs (s t : State) : Prop extends LinkAs s t where
  journal : t.host.journal = s.host.journal
  bme : t.host.ep.bme = s.host.ep.bme

theorem RequestsAs.trans {s t u : State} (h : RequestsAs s t) (k : RequestsAs t u) : RequestsAs s u :=
  ⟨h.toLinkAs.trans k.toLinkAs, k.journal.trans h.journal, k.bme.trans h.bme⟩

/-- So are the partitions and the mailboxes. -/
structure Still (s t : State) : Prop extends RequestsAs s t where
  parts : t.parts = s.parts
  mbx : t.host.mbx = s.host.mbx

namespace Still

theorem refl (s : State) : Still s s := ⟨⟨.refl s, rfl, rfl⟩, rfl, rfl⟩

theorem trans {s t u : State} (h : Still s t) (k : Still t u) : Still s u :=
  ⟨h.toRequestsAs.trans k.toRequestsAs, k.parts.trans h.parts, k.mbx.trans h.mbx⟩

theorem foldl {α : Type} {f : State → α → State} (hf : ∀ t x, Still t (f t x)) (xs : List α) (s : State) :
    Still s (xs.foldl f s) := by
  induction xs generalizing s with
  | nil => exact refl s
  | cons x xs ih => exact (hf s x).trans (ih (f s x))

theorem modHm (f : Hm → Hm) (s : State) : Still s (modHm f s) := ⟨⟨⟨rfl, rfl, rfl, rfl, rfl, rfl, rfl, rfl⟩, rfl, rfl⟩, rfl, rfl⟩

theorem modPins (f : Pins → Pins) (s : State) : Still s (modPins f s) := ⟨⟨⟨rfl, rfl, rfl, rfl, rfl, rfl, rfl, rfl⟩, rfl, rfl⟩, rfl, rfl⟩

theorem modFab (f : Fabric → Fabric) (s : State) : Still s (modFab f s) :=
  ⟨⟨⟨rfl, rfl, rfl, rfl, rfl, rfl, rfl, rfl⟩, rfl, rfl⟩, rfl, rfl⟩

theorem modCluster (k : Nat) (f : Cluster → Cluster) (s : State) : Still s (modCluster k f s) :=
  ⟨⟨⟨rfl, rfl, rfl, rfl, rfl, rfl, rfl, rfl⟩, rfl, rfl⟩, rfl, rfl⟩

theorem modStage (k : Nat) (f : Stage → Stage) (s : State) : Still s (modStage k f s) :=
  ⟨⟨⟨rfl, rfl, rfl, rfl, rfl, rfl, rfl, rfl⟩, rfl, rfl⟩, rfl, rfl⟩

theorem portsIdle (s : State) : Still s (portsIdle s) := ⟨⟨⟨rfl, rfl, rfl, rfl, rfl, rfl, rfl, rfl⟩, rfl, rfl⟩, rfl, rfl⟩

theorem totAdd (k n : Nat) (s : State) : Still s (totAdd k n s) := ⟨⟨⟨rfl, rfl, rfl, rfl, rfl, rfl, rfl, rfl⟩, rfl, rfl⟩, rfl, rfl⟩

theorem transmit (plane dst attempt : Nat) (h : List Word) (data : List Byte) (s : State) :
    Still s (transmit plane dst attempt h data s) := by
  unfold Machine.transmit portSend
  dsimp only
  split
  · exact refl s
  · split <;> exact ⟨⟨⟨rfl, rfl, rfl, rfl, rfl, rfl, rfl, rfl⟩, rfl, rfl⟩, rfl, rfl⟩

theorem raiseMsix (fn v : Nat) (s : State) : Still s (raiseMsix fn v s) :=
  ⟨⟨by constructor <;> simp, by simp, by simp⟩, by simp, by simp⟩

theorem hostWrite (fn a : Nat) (bs : List Byte) (s : State) : Still s (hostWrite fn a bs s) :=
  ⟨⟨by constructor <;> simp, by simp, by simp⟩, by simp, by simp⟩

theorem logEvent (code : Nat) (fault : Bool) (part op step w4 w5 : Nat) (s : State) :
    Still s (logEvent code fault part op step w4 w5 s) := ⟨⟨by constructor <;> simp, by simp, by simp⟩, by simp, by simp⟩

theorem logPkg (code : Nat) (fault : Bool) (w4 w5 : Nat) (s : State) : Still s (logPkg code fault w4 w5 s) := logEvent ..

theorem setInt (b : Nat) (s : State) : Still s (setInt b s) := by
  unfold Machine.setInt
  dsimp only
  split
  · exact (modHm ..).trans (raiseMsix ..)
  · exact modHm ..

theorem sendHeartbeat (s : State) : Still s (sendHeartbeat s) := by
  unfold Machine.sendHeartbeat
  split
  · exact refl s
  · exact (foldl (fun t _ => foldl (fun _ _ => transmit ..) _ t) _ s).trans (modFab ..)

theorem declareFailed (cause elem : Nat) (s : State) : Still s (declareFailed cause elem s) := by
  unfold Machine.declareFailed
  split
  · exact refl s
  · exact (logPkg ..).trans ((modHm ..).trans ((sendHeartbeat _).trans ((portsIdle _).trans ((modHm ..).trans (modPins ..)))))

end Still

/-! The mailboxes of a virtual function that is reset. -/

/-- The requests that wait for the partition's sequences to be swapped out. -/
def evictsOf (q : Part) : List Request := q.kv.slots.flatMap fun e => e.2.evicting

/-- Where the slots of a table lose requests only, so does the partition. -/
theorem evictsOf_subset {q r : Part} (h : ∀ e ∈ r.kv.slots, e ∈ q.kv.slots ∨ e.2.evicting ⊆ evictsOf q) :
    evictsOf r ⊆ evictsOf q := by
  intro x hx
  obtain ⟨e, he, hxe⟩ := List.mem_flatMap.mp hx
  rcases h e he with hold | hsub
  · exact List.mem_flatMap.mpr ⟨e, hold, hxe⟩
  · exact hsub hxe

theorem evicting_tgetD (q : Part) (i : Nat) : (tgetD q.kv.slots i {}).evicting ⊆ evictsOf q := by
  intro x hx
  unfold tgetD at hx
  cases hslot : tget q.kv.slots i with
  | none => simp [hslot] at hx
  | some e =>
    rw [hslot] at hx
    exact List.mem_flatMap.mpr ⟨(i, e), mem_of_tget hslot, hx⟩

/-- No request of virtual function `n` that waits in its partition will be answered to the host. -/
def Silenced (n : Fin 32) (s : State) : Prop := ∀ r ∈ evictsOf (partOf s n), isVf n r.mbx = true → r.discard = true

/-- A discarded reply leaves every mailbox alone. -/
theorem mbxOf_reply_discarded {r : Request} (h : r.discard = true) (status : Nat) (body : List Word) (s : State) (m : MbxId) :
    mbxOf (reply r status body s) m = mbxOf s m := by
  unfold reply
  dsimp only
  rw [if_pos (.inl h)]
  repeat' split
  all_goals simp

/-- Since `s0` nothing was posted, taken or answered on virtual function `n`, and nothing will be of what waits in its partition. -/
structure Calm (n : Fin 32) (s0 s : State) : Prop extends RequestsAs s0 s where
  silenced : Silenced n s
  mbx : ∀ j, mbxOf s (.vf n j) = mbxOf s0 (.vf n j)

namespace Calm

section
variable {n : Fin 32} {s0 s t : State}

theorem still (h : Calm n s0 s) (k : Still s t) : Calm n s0 t where
  toRequestsAs := h.toRequestsAs.trans k.toRequestsAs
  silenced := by
    unfold Silenced partOf
    rw [k.parts]
    exact h.silenced
  mbx j := by
    unfold mbxOf
    rw [k.mbx]
    exact h.mbx j

/-- A partition is updated, and no request comes to wait in it. -/
theorem modPart (h : Calm n s0 s) (k : Nat) {f : Part → Part} (hf : evictsOf (f (partOf s k)) ⊆ evictsOf (partOf s k)) :
    Calm n s0 (modPart k f s) where
  toRequestsAs := h.toRequestsAs.trans ⟨⟨rfl, rfl, rfl, rfl, rfl, rfl, rfl, rfl⟩, rfl, rfl⟩
  silenced := by
    intro r hr
    by_cases hk : k = n.val
    · subst hk
      rw [partOf_modPart] at hr
      exact h.silenced r (hf hr)
    · rw [partOf_modPart_ne f s hk] at hr
      exact h.silenced r hr
  mbx := h.mbx

theorem modCfg (h : Calm n s0 s) (k : Nat) (f : PartCfg → PartCfg) : Calm n s0 (modCfg k f s) := h.modPart k (List.Subset.refl _)

theorem modRun (h : Calm n s0 s) (k : Nat) (f : PartRun → PartRun) : Calm n s0 (modRun k f s) := h.modPart k (List.Subset.refl _)

theorem modJr (h : Calm n s0 s) (k : Nat) (f : PartJr → PartJr) : Calm n s0 (modJr k f s) := h.modPart k (List.Subset.refl _)

theorem modFb (h : Calm n s0 s) (k : Nat) (f : Fallback → Fallback) : Calm n s0 (modFb k f s) := h.modPart k (List.Subset.refl _)

theorem cntAdd (h : Calm n s0 s) (k i m : Nat) : Calm n s0 (cntAdd k i m s) := by
  unfold Machine.cntAdd modStat
  exact h.modPart k (List.Subset.refl _)

theorem modStep (h : Calm n s0 s) (k id : Nat) (f : StepRec → StepRec) : Calm n s0 (modStep k id f s) := h.modRun ..

/-- The slots of a partition stand. -/
theorem modKv (h : Calm n s0 s) (k : Nat) {f : Kv → Kv} (hf : (f (partOf s k).kv).slots = (partOf s k).kv.slots) :
    Calm n s0 (modKv k f s) :=
  h.modPart k (evictsOf_subset fun _ he => .inl (hf ▸ he))

/-- A slot is updated, and no request comes to wait in it. -/
theorem modSlot (h : Calm n s0 s) (k i : Nat) {f : SeqSlot → SeqSlot} (hf : ∀ q, (f q).evicting ⊆ q.evicting) :
    Calm n s0 (modSlot k i f s) := by
  unfold Machine.modSlot Machine.modKv
  refine h.modPart k (evictsOf_subset fun e he => ?_)
  rcases mem_tset he with rfl | hold
  · exact .inr (List.Subset.trans (hf _) (evicting_tgetD ..))
  · exact .inl hold

theorem reply (h : Calm n s0 s) {r : Request} (hr : isVf n r.mbx = true → r.discard = true) (status : Nat) (body : List Word) :
    Calm n s0 (reply r status body s) where
  toRequestsAs := h.toRequestsAs.trans ⟨by constructor <;> simp, by simp, by simp⟩
  silenced := by
    unfold Silenced
    simp only [reply_frame]
    exact h.silenced
  mbx j := by
    by_cases hmbx : r.mbx = .vf n j
    · rw [mbxOf_reply_discarded (hr (by simp [hmbx, isVf])), h.mbx]
    · rw [reply_mbx_ne r status body s hmbx, h.mbx]

theorem foldl {α : Type} {f : State → α → State} (xs : List α) (hf : ∀ t, ∀ x ∈ xs, Calm n s0 t → Calm n s0 (f t x))
    (h : Calm n s0 s) : Calm n s0 (xs.foldl f s) :=
  List.foldlRecOn (motive := Calm n s0) xs f h fun t ht x hx => hf t x hx ht

theorem logEvent (h : Calm n s0 s) (code : Nat) (fault : Bool) (part op step w4 w5 : Nat) :
    Calm n s0 (logEvent code fault part op step w4 w5 s) := h.still (.logEvent ..)

theorem setVfEvent (h : Calm n s0 s) (p b : Nat) : Calm n s0 (setVfEvent p b s) := by
  have hset : Calm n s0 (Machine.modPart p (fun q => { q with vfEvent := q.vfEvent ||| (1#4 <<< b) }) s) :=
    h.modPart p (List.Subset.refl _)
  unfold Machine.setVfEvent
  dsimp only
  split
  · exact hset.still (.raiseMsix ..)
  · exact hset

/-! Steps that end without a commit. -/

theorem freePage (h : Calm n s0 s) (p slot i units : Nat) : Calm n s0 (freePage p slot i units s) := by
  have hslot : Calm n s0 (Machine.modSlot p slot (fun q => { q with
      pages := terase q.pages i, crcs := terase q.crcs i
      reserved := if (tgetD (slotAt s p slot).pages i {}).resv then q.reserved + units else q.reserved }) s) :=
    h.modSlot p slot fun _ => List.Subset.refl _
  unfold Machine.freePage
  dsimp only
  split
  · exact h
  · split
    · exact hslot.modKv p rfl
    · exact hslot.modKv p rfl

theorem releaseStep (h : Calm n s0 s) (p id : Nat) : Calm n s0 (releaseStep p id s) := by
  unfold Machine.releaseStep
  extract_lets s1
  have h1 : Calm n s0 s1 := by
    unfold s1
    split
    · exact h
    · exact foldl _ (fun t _ _ ht => ht.freePage ..) h
  exact h1.modJr ..

theorem holdResult (h : Calm n s0 s) (p : Nat) (r : StepRec) (data : List Byte) : Calm n s0 (holdResult p r data s) := by
  have hlogged : Calm n s0 (match (partOf s p).run.hold with
      | o :: _ => if 64 ≤ (partOf s p).run.hold.length then Machine.logEvent 0x0D02 false p noOp o.id o.id 0 s else s
      | [] => s) := by
    split
    · split
      · exact h.logEvent ..
      · exact h
    · exact h
  exact (hlogged.modRun ..).still (.totAdd ..)

theorem deliver (h : Calm n s0 s) (p : Nat) (r : StepRec) (data : List Byte) : Calm n s0 (deliver p r data s) := by
  unfold Machine.deliver
  extract_lets job first e0 e1
  have h0 : Calm n s0 e0 := by
    unfold e0
    split
    · exact h.setVfEvent ..
    · exact h
  have h1 : Calm n s0 e1 := (h0.still (.hostWrite ..)).still (.hostWrite ..)
  split
  · split
    · exact h0
    · split
      · split
        · exact h1
        · exact h1.still (.raiseMsix ..)
      · exact (h0.holdResult ..).logEvent ..
  · split
    · exact h.holdResult ..
    · exact h

theorem withdrawStep (h : Calm n s0 s) (p id : Nat) (quiet : Bool) : Calm n s0 (withdrawStep p id quiet s) := by
  unfold Machine.withdrawStep
  extract_lets s1
  have h1 : Calm n s0 s1 := (h.releaseStep p id).modStep ..
  split
  · exact h1
  · split
    · exact h1
    · exact h1.deliver ..

theorem withdrawSteps (h : Calm n s0 s) (p : Nat) (quiet : Bool) (rs : List StepRec) :
    Calm n s0 (rs.foldl (fun t r => Machine.withdrawStep p r.id quiet t) s) := foldl rs (fun _ _ _ ht => ht.withdrawStep ..) h

/-! Requests that wait in the function's own partition are answered. -/

theorem answerEvicts (h : Calm n s0 s) : Calm n s0 (answerEvicts n s) :=
  foldl _ (fun _ r hr ht => ht.reply (h.silenced r hr) ..) h

theorem answerSlot (h : Calm n s0 s) (status i : Nat) : Calm n s0 (answerSlot n status s i) := by
  refine foldl _ (fun _ r hr ht => ht.reply (h.silenced r (evicting_tgetD _ _ hr)) ..) ?_
  exact h.modSlot n i fun _ => List.nil_subset _

theorem loseSeq (h : Calm n s0 s) (step slot : Nat) : Calm n s0 (loseSeq n step slot s) := by
  have hanswered : Calm n s0 (answerMates n slot 0x0605 s) := foldl _ (fun _ i _ ht => ht.answerSlot ..) h
  have hlost : Calm n s0 (markLost n slot s) :=
    foldl _ (fun _ i _ ht => ht.modSlot n i fun _ => List.Subset.refl _) hanswered
  exact (hlost.logEvent ..).setVfEvent ..

/-! The bank swap that a closing may allow. -/

theorem foldCluster (h : Calm n s0 s) (p c : Nat) : Calm n s0 (foldCluster p c s) := by
  unfold Machine.foldCluster
  dsimp only
  split
  · exact h
  · split
    · exact h.still (.declareFailed ..)
    · exact h.modCfg ..

theorem foldAll (h : Calm n s0 s) (p : Nat) : Calm n s0 (foldAll p s) := by
  refine foldl _ (fun t c _ ht => ?_) h
  split
  · split
    · exact ht.still (.declareFailed ..)
    · exact ht.foldCluster ..
  · exact ht

theorem swapBank (h : Calm n s0 s) (p : Nat) : Calm n s0 (swapBank p s) := by
  unfold Machine.swapBank
  extract_lets q ob nb old new same first warm s1 s2 s3 s3' s4 s5
  have h2 : Calm n s0 s2 := (h.modCfg ..).modCfg ..
  have h3 : Calm n s0 s3 := by
    unfold s3
    split
    · exact h2
    · exact h2.modFb ..
  have h3' : Calm n s0 s3' := by
    unfold s3'
    split
    · split
      · exact h3.still (.modStage ..)
      · exact h3
    · exact h3
  have h4 : Calm n s0 s4 := foldl _ (fun _ _ _ ht => ht.still (.modCluster ..)) h3'
  exact (((h4.foldAll p).cntAdd ..).logEvent ..).setVfEvent ..

theorem trySwap (h : Calm n s0 s) (p : Nat) : Calm n s0 (trySwap p s) := by
  unfold Machine.trySwap
  dsimp only
  split
  · exact h
  · split
    · exact foldl _ (fun _ x _ ht => ht.swapBank x) h
    · exact h

theorem closePart (h : Calm n s0 s) (quiet : Bool) : Calm n s0 (closePart n quiet s) := by
  have hanswered := ((h.withdrawSteps n quiet (accepted s n)).answerEvicts).modRun n fun r => { r with hold := [], freeDrop := false }
  have hemptied := hanswered.modPart n (f := fun q => { q with kv := {} }) (List.nil_subset _)
  exact ((hemptied.modCfg n fun c => { c with st := .closed, swapAddr := 0, swapMib := 0 }).logEvent 0x0C03 false n noOp noStep 0 0).trySwap n

end

end Calm

/-! Function resets (R407). -/

/-- What a request is after the reset of the functions whose mailboxes `f` picks. -/
def discarded (f : MbxId → Bool) (r : Request) : Request := if f r.mbx then { r with discard := true } else r

section Discarded
variable (f : MbxId → Bool) (r : Request)

theorem mbx_discarded : (discarded f r).mbx = r.mbx := by
  unfold discarded
  split <;> rfl

theorem discard_discarded (h : r.discard = true ∨ f r.mbx = true) : (discarded f r).discard = true := by
  unfold discarded
  split
  · rfl
  · next hf => exact h.resolve_right hf

end Discarded

theorem journal_discardReplies (f : MbxId → Bool) (s : State) :
    (discardReplies f s).host.journal = s.host.journal.map (discarded f) := rfl

theorem mbxOf_discardReplies (f : MbxId → Bool) (s : State) (m : MbxId) : mbxOf (discardReplies f s) m = mbxOf s m := rfl

/-- What a partition's requests are after the reset. -/
def discardedIn (f : MbxId → Bool) (q : Part) : Part := { q with
  kv := { q.kv with slots := q.kv.slots.map fun e => (e.1, { e.2 with evicting := e.2.evicting.map (discarded f) }) }
  run := { q.run with steps := q.run.steps.map fun x => { x with submit := x.submit.map (discarded f) } } }

theorem partOf_discardReplies (f : MbxId → Bool) (s : State) (p : Nat) :
    partOf (discardReplies f s) p = discardedIn f (partOf s p) := by
  change (tget (s.parts.map fun e => (e.1, discardedIn f e.2)) p).getD {} = discardedIn f (partOf s p)
  rw [tget_map fun _ => discardedIn f, partOf, tgetD]
  cases tget s.parts p <;> rfl

theorem evictsOf_discardedIn (f : MbxId → Bool) (q : Part) : evictsOf (discardedIn f q) = (evictsOf q).map (discarded f) := by
  simp only [evictsOf, discardedIn, List.flatMap_map, List.map_flatMap]

/-- A mailbox whose entry is dropped is free. -/
theorem mbxOf_filter {keep : Nat × Mailbox → Bool} {s : State} {m : MbxId} (h : ∀ e, e.1 = mbxKey m → keep e = false) :
    mbxOf { s with host := { s.host with mbx := s.host.mbx.filter keep } } m = {} := by
  have habsent : mbxKey m ∉ (s.host.mbx.filter keep).map fun e => e.1 := by
    intro hmem
    obtain ⟨e, he, hkey⟩ := List.mem_map.mp hmem
    exact Bool.false_ne_true ((h e hkey).symm.trans (List.mem_filter.mp he).2)
  rw [mbxOf, tgetD, tget_of_notMem_keys habsent]
  rfl

/-- The state in which the steps of virtual function `n` end: its mailboxes are free and its requests are marked. -/
def vfFreed (n : Nat) (s : State) : State :=
  modEp (fun e => { e with bme := e.bme.filter (· != n) }) (modPart n (fun q => { q with vfEventEn := 0 })
    (discardReplies (isVf n) { s with host := { s.host with
      mbx := s.host.mbx.filter fun e => !(decide (8 + 4 * n ≤ e.1 ∧ e.1 < 12 + 4 * n)) } }))

theorem linkAs_vfFreed (n : Nat) (s : State) : LinkAs s (vfFreed n s) :=
  (LinkAs.setMbx ..).trans ((LinkAs.discardReplies ..).trans ((LinkAs.modPart ..).trans (LinkAs.setBme (fun l => l.filter (· != n)) _)))

section VfFreed
variable (n : Fin 32) (s : State)

theorem mbxOf_vfFreed (j : Fin 4) : mbxOf (vfFreed n s) (.vf n j) = {} := by
  simp only [vfFreed, modEp_frame, modPart_frame, mbxOf_discardReplies]
  refine mbxOf_filter fun e he => ?_
  have hkey : e.1 = 8 + 4 * n.val + j.val := he
  have hin : 8 + 4 * n.val ≤ e.1 ∧ e.1 < 12 + 4 * n.val := by omega
  simp [hin]

theorem partOf_vfFreed : partOf (vfFreed n s) n = { discardedIn (isVf n) (partOf s n) with vfEventEn := 0 } := by
  unfold vfFreed
  simp only [modEp_frame]
  rw [partOf_modPart, partOf_discardReplies]
  rfl

theorem silenced_vfFreed : Silenced n (vfFreed n s) := by
  have hevicts : evictsOf (partOf (vfFreed n s) n) = (evictsOf (partOf s n)).map (discarded (isVf n)) := by
    rw [partOf_vfFreed]
    exact evictsOf_discardedIn (isVf n) (partOf s n)
  intro r hr hvf
  rw [hevicts] at hr
  obtain ⟨q, -, rfl⟩ := List.mem_map.mp hr
  rw [mbx_discarded] at hvf
  exact discard_discarded _ _ (.inr hvf)

end VfFreed

theorem calm_vfFreed (n : Fin 32) (s : State) : Calm n (vfFreed n s) (vfFreed n s) :=
  ⟨⟨.refl _, rfl, rfl⟩, silenced_vfFreed n s, fun _ => rfl⟩

/-- The rest of a function's reset answers nothing to its mailboxes. -/
theorem calm_resetVf (n : Fin 32) (s : State) : Calm n (vfFreed n s) (resetVf n s) := by
  unfold resetVf
  extract_lets _ _ s2 s3 swapped s4 s5
  have h2 : Calm n (vfFreed n s) s2 := calm_vfFreed n s
  have h3 : Calm n (vfFreed n s) s3 := h2.withdrawSteps ..
  have h4 : Calm n (vfFreed n s) s4 := by
    refine Calm.foldl _ (fun t e _ ht => ?_) h3
    split
    · exact ht
    · exact ht.loseSeq ..
  have h5 : Calm n (vfFreed n s) s5 := h4.modCfg ..
  split
  · exact h2
  · split
    · exact h5.closePart ..
    · exact h5.modRun ..

section ResetVf
variable (n : Fin 32) (s : State)

theorem linkAs_resetVf : LinkAs s (resetVf n s) := (linkAs_vfFreed n s).trans (calm_resetVf n s).toLinkAs

theorem journal_resetVf : (resetVf n s).host.journal = s.host.journal.map (discarded (isVf n)) := (calm_resetVf n s).journal

theorem bme_resetVf : (resetVf n s).host.ep.bme = s.host.ep.bme.filter (· != n.val) := (calm_resetVf n s).bme

theorem mbxOf_resetVf (j : Fin 4) : mbxOf (resetVf n s) (.vf n j) = {} :=
  ((calm_resetVf n s).mbx j).trans (mbxOf_vfFreed n s j)

end ResetVf

/-! The reset of the physical function. -/

/-- Every virtual function has been reset. -/
def vfsReset (s : State) : State := (List.range 32).foldl (fun t n => resetVf n t) s

theorem linkAs_vfsReset (s : State) : LinkAs s (vfsReset s) :=
  List.foldlRecOn (motive := LinkAs s) _ _ (.refl s) fun _ ht n hn => ht.trans (linkAs_resetVf ⟨n, List.mem_range.mp hn⟩ _)

/-- The requests of the functions below `k` are all marked. -/
def VfsDiscarded (k : Nat) (s : State) : Prop := ∀ r ∈ s.host.journal, ∀ n j, n.val < k → r.mbx = .vf n j → r.discard = true

/-- The reset of virtual function `k` marks its requests and takes no mark away. -/
theorem vfsDiscarded_resetVf {k : Fin 32} {s : State} (h : VfsDiscarded k s) : VfsDiscarded (k + 1) (resetVf k s) := by
  intro r hr n j hn hmbx
  rw [journal_resetVf] at hr
  obtain ⟨q, hq, rfl⟩ := List.mem_map.mp hr
  rw [mbx_discarded] at hmbx
  rcases Nat.lt_succ_iff_lt_or_eq.mp hn with hlt | heq
  · exact discard_discarded _ _ (.inl (h q hq n j hlt hmbx))
  · exact discard_discarded _ _ (.inr (by simp [hmbx, isVf, heq]))

theorem vfsDiscarded_foldl (s : State) {k : Nat} (hk : k ≤ 32) :
    VfsDiscarded k ((List.range k).foldl (fun t n => resetVf n t) s) := by
  induction k with
  | zero => exact fun _ _ _ _ h => absurd h (Nat.not_lt_zero _)
  | succ k ih =>
    rw [List.range_succ, List.foldl_append]
    exact vfsDiscarded_resetVf (k := ⟨k, hk⟩) (ih (Nat.le_of_succ_le hk))

theorem vfsDiscarded_vfsReset (s : State) : VfsDiscarded 32 (vfsReset s) := by
  unfold vfsReset
  exact vfsDiscarded_foldl s (Nat.le_refl 32)

/-- The PF mailboxes are free, their requests are marked, and no function writes. -/
def pfFreed (s : State) : State :=
  discardReplies isPf (modEp (fun e => { e with bme := [] }) { s with host := { s.host with
    mbx := s.host.mbx.filter fun e => decide (8 ≤ e.1) } })

theorem resetPf_eq (s : State) : resetPf s = pfFreed (vfsReset s) := by
  unfold resetPf pfFreed vfsReset
  with_reducible rfl

theorem linkAs_pfFreed (s : State) : LinkAs s (pfFreed s) :=
  (LinkAs.setMbx ..).trans ((LinkAs.setBme (fun _ => []) _).trans (LinkAs.discardReplies ..))

theorem mbxOf_pfFreed (s : State) (j : Fin 8) : mbxOf (pfFreed s) (.pf j) = {} := by
  simp only [pfFreed, mbxOf_discardReplies, modEp_frame]
  refine mbxOf_filter fun e he => ?_
  have hkey : e.1 = j.val := he
  exact decide_eq_false (by omega)

theorem linkAs_resetPf (s : State) : LinkAs s (resetPf s) := by
  rw [resetPf_eq]
  exact (linkAs_vfsReset s).trans (linkAs_pfFreed _)

theorem bme_resetPf (s : State) : (resetPf s).host.ep.bme = [] := by
  rw [resetPf_eq]
  rfl

theorem mbxOf_resetPf (s : State) (j : Fin 8) : mbxOf (resetPf s) (.pf j) = {} := by
  rw [resetPf_eq]
  exact mbxOf_pfFreed ..

theorem discard_pfFreed {s : State} (h : VfsDiscarded 32 s) {r : Request} (hr : r ∈ (pfFreed s).host.journal)
    (hhost : r.mbx ≠ .sideband) : r.discard = true := by
  rw [pfFreed, journal_discardReplies] at hr
  obtain ⟨q, hq, rfl⟩ := List.mem_map.mp hr
  rw [mbx_discarded] at hhost
  match hmbx : q.mbx with
  | .pf _ => exact discard_discarded _ _ (.inr (by simp [hmbx, isPf]))
  | .vf n j => exact discard_discarded _ _ (.inl (h q hq n j n.isLt hmbx))
  | .sideband => exact absurd hmbx hhost

theorem discard_resetPf (s : State) {r : Request} (hr : r ∈ (resetPf s).host.journal) (hhost : r.mbx ≠ .sideband) :
    r.discard = true := by
  rw [resetPf_eq] at hr
  exact discard_pfFreed (vfsDiscarded_vfsReset s) hr hhost

/-! The conventional resets and the link (R400, R407, R474). -/

theorem hotReset_frame (s : State) : (hotReset s).host.ep.bme = [] ∧ (hotReset s).host.ep.ide = .none ∧ (hotReset s).sec.doe = {} ∧
    (hotReset s).host.ep.perst = s.host.ep.perst := by
  unfold hotReset
  have hlogged := Still.logPkg 0x0D03 false 32 2 s
  generalize logPkg 0x0D03 false 32 2 s = t at hlogged
  have hreset := linkAs_resetPf (endIde t)
  exact ⟨bme_resetPf (endIde t), hreset.ide, hreset.doe, hreset.perst.trans hlogged.perst⟩

theorem mbxOf_hotReset (s : State) (j : Fin 8) : mbxOf (hotReset s) (.pf j) = {} := by
  unfold hotReset
  exact mbxOf_resetPf (endIde (logPkg 0x0D03 false 32 2 s)) j

/-- The loss of the link is a hot reset of its own kind, and what it leaves of the package is what a function reset leaves. -/
theorem linkDown_frame (s : State) : (linkDown s).host.ep.linkUp = false ∧ (linkDown s).host.ep.bme = [] ∧
    (linkDown s).host.ep.ide = .none ∧ (linkDown s).car = s.car ∧ (linkDown s).boot = s.boot ∧ (linkDown s).pw.st = s.pw.st := by
  unfold linkDown
  have hlogged := Still.logPkg 0x0D03 false 32 3 s
  generalize logPkg 0x0D03 false 32 3 s = t at hlogged
  have hreset := linkAs_resetPf (endIde t)
  have hbme := bme_resetPf (endIde t)
  generalize resetPf (endIde t) = u at hreset hbme
  exact ⟨rfl, hbme, hreset.ide, hreset.car.trans hlogged.car, hreset.boot.trans hlogged.boot, hreset.st.trans hlogged.st⟩

theorem linkTrains_may {s : State} (hsettled : s.host.ep.canTrain = true) (hperst : s.host.ep.perst = true)
    (hplain : s.host.ep.loopback = false) (hiod : s.health.iod0Out = false) :
    linkTrains s = modEp (fun e => { e with linkUp := true }) s := if_pos (by simp [hsettled, hperst, hplain, hiod])

theorem linkTrains_not {s : State} (h : s.host.ep.canTrain = false ∨ s.host.ep.perst = false ∨ s.host.ep.loopback = true ∨
    s.health.iod0Out = true) : linkTrains s = s := by
  refine if_neg ?_
  rintro ⟨hsettled, hperst, hplain, hiod⟩
  rcases h with h | h | h | h <;> simp_all

/-- Bus Master Enable is written while the link is up. -/
theorem busMaster_up {s : State} (hup : s.host.ep.linkUp = true) (fn : Nat) (enable : Bool) : busMaster fn enable s =
    modEp (fun e => { e with bme := if enable then fn :: e.bme.filter (· != fn) else e.bme.filter (· != fn) }) s :=
  if_neg (not_not.mpr hup)

/-- The command at the head of the journal ends with the failure of its read (R429). -/
theorem headDmaFails_head {s : State} {r : Request} {rest : List Request} (hhead : s.host.journal = r :: rest)
    (hreads : readsHost r = true) (hdma : dmaOpen s (dmaFn r) = true) : headDmaFails r.mbx s =
      reply r 0x0D08 [] (logPkg 0x0D01 false (dmaFn r) (cmdOf r) (totAdd (tHost + 6) 1 (Claim.taken s))) := by
  have htaken : Claim.taken s = modJournal (fun _ => rest) s := by
    simp only [Claim.taken, modJournal, hhead, List.drop_one, List.tail_cons]
  have hopen : dmaOpen (modJournal (fun _ => rest) s) (dmaFn r) = true := hdma
  rw [htaken]
  simp only [headDmaFails, hhead, hreads, and_self, if_true, dmaFailed, hopen]

end Sys2Proof.Machine

namespace Sys2Proof.Claim

open Sys2Proof.Machine

theorem endpointPins : EndpointPins := by
  intro s ns fn
  refine ⟨fun hshort => congrArg _ (if_pos hshort), fun hlong hdown => ?low, fun hlong hup => ?falls, rfl,
    fun hsettled hperst hplain hiod => congrArg _ (linkTrains_may hsettled hperst hplain hiod), fun h => congrArg _ (linkTrains_not h),
    fun hup => ?set, fun hup => ?clear⟩
  case low =>
    refine congrArg Host.Outcome.next ?_
    simp only [perstLow, Nat.not_lt_of_le hlong, hdown, Bool.false_eq_true, if_false]
  case falls =>
    have hfalls : perstLow ns s = modEp (fun e => { e with linkUp := false }) (hotReset (modEp (fun e => { e with perst := false }) s)) := by
      simp only [perstLow, Nat.not_lt_of_le hlong, hup, if_false, if_true]
    obtain ⟨hbme, hide, -, hperst⟩ := hotReset_frame (modEp (fun e => { e with perst := false }) s)
    refine ⟨_, congrArg Host.Outcome.next hfalls, ?_⟩
    generalize hotReset (modEp (fun e => { e with perst := false }) s) = t at hbme hide hperst
    exact ⟨rfl, hperst, hbme, hide⟩
  case set =>
    refine ⟨_, congrArg Host.Outcome.next (busMaster_up hup (fnNo fn) true), fun f => ?_, rfl⟩
    by_cases hf : f = fnNo fn <;> simp [hf]
  case clear =>
    refine ⟨_, congrArg Host.Outcome.next (busMaster_up hup (fnNo fn) false), fun f => ?_, rfl⟩
    simp [and_comm]

theorem functionResets : FunctionResets := by
  intro s n
  refine ⟨⟨_, rfl, ?_, ?_, ?_, ?_, ?_, ?_⟩, ⟨_, rfl, mbxOf_resetPf (logPkg 0x0D03 false 32 1 s), bme_resetPf (logPkg 0x0D03 false 32 1 s),
    fun r hr hhost => discard_resetPf (logPkg 0x0D03 false 32 1 s) hr hhost⟩, ?hot, ?down⟩
  · exact mbxOf_resetVf n _
  · rw [bme_resetVf]
    simp
  · intro r hr j hmbx
    rw [journal_resetVf] at hr
    obtain ⟨q, -, rfl⟩ := List.mem_map.mp hr
    rw [mbx_discarded] at hmbx
    exact discard_discarded _ _ (.inr (by simp [hmbx, isVf]))
  · rw [journal_resetVf, List.length_map, (Still.logPkg 0x0D03 false n.val 1 s).journal]
  · exact ((SecretsAs.logPkg ..).trans (SecretsAs.resetVf ..)).bond
  · exact ((SecretsAs.logPkg ..).trans (SecretsAs.resetVf ..)).lifecycle
  case hot =>
    obtain ⟨hbme, hide, hdoe, -⟩ := hotReset_frame s
    exact ⟨_, rfl, mbxOf_hotReset s, hbme, hide, hdoe⟩
  case down =>
    obtain ⟨hup, hbme, hide, -⟩ := linkDown_frame s
    exact ⟨_, rfl, hup, hbme, hide⟩

theorem dmaReadFails : DmaReadFails := by
  intro s m r rest hhead hmbx
  subst hmbx
  refine ⟨fun hcode hdma => ?load, fun hcode hdma => ?submit⟩
  case load =>
    have hreads : readsHost r = true := by simp [readsHost, hcode]
    have hfn : dmaFn r = 32 := by simp [dmaFn, hcode]
    have h := headDmaFails_head hhead hreads (hfn ▸ hdma)
    rw [hfn, hcode] at h
    exact congrArg Host.Outcome.next h
  case submit =>
    have hreads : readsHost r = true := by simp [readsHost, hcode]
    have hfn : dmaFn r = partArg r := by simp [dmaFn, hcode]
    have h := headDmaFails_head hhead hreads (hfn ▸ hdma)
    rw [hfn, hcode] at h
    exact congrArg Host.Outcome.next h

/-- Settles O32: a reset marks every request of its functions before anything of theirs is answered, and marks are kept. -/
theorem endpointEvents : Obligations.EndpointEvents := ⟨endpointPins, functionResets, dmaReadFails⟩

end Sys2Proof.Claim
end

section
/-! PROOFS. Careen self-test: careen.report, the runs of the engine and the in-service tests (R500 to R511). -/

namespace Sys2Proof.Machine

/-! What giving up the fabric leaves alone (R504). -/

/-- A port is switched off. -/
def portOff (q : Port) : Port :=
  { q with st := .idle, replay := [], credits := [], txWait := [], rx := [], nak := false, sparing := false, savedEq := false }

theorem portsOff_eq (s : State) : portsOff s = (List.range 18).foldl (fun t p => modPort p portOff t) s := rfl

theorem LinkAs.portsOff (s : State) : LinkAs s (portsOff s) := by
  rw [portsOff_eq]
  refine LinkAs.foldl (fun t p => ?_) _ s
  exact ⟨rfl, rfl, rfl, rfl, rfl, rfl, rfl, rfl⟩

theorem dv_portsOff (s : State) : (portsOff s).dv = s.dv := by
  rw [portsOff_eq]
  exact List.foldlRecOn (motive := fun (t : State) => t.dv = s.dv) _ _ rfl fun _ ht _ _ => ht

/-- A port that is idle, or is still to be switched off, ends idle. -/
theorem st_foldl_portOff {p : Nat} {ks : List Nat} {s : State} (h : (portOf s p).st = .idle ∨ p ∈ ks) :
    (portOf (ks.foldl (fun t k => modPort k portOff t) s) p).st = .idle := by
  induction ks generalizing s with
  | nil => exact h.resolve_right List.not_mem_nil
  | cons k ks ih =>
    rw [List.foldl_cons]
    refine ih ?_
    by_cases hk : k = p
    · subst hk
      exact .inl (by rw [portOf_modPort]; rfl)
    · rw [portOf_modPort_ne _ _ hk]
      exact h.imp_right fun hp => (List.mem_cons.mp hp).resolve_left (Ne.symm hk)

theorem st_portsOff (s : State) {p : Nat} (hp : p < 18) : (portOf (portsOff s) p).st = .idle := by
  rw [portsOff_eq]
  exact st_foldl_portOff (.inr (List.mem_range.mpr hp))

theorem LinkAs.portsDetect (s : State) : LinkAs s (portsDetect s) := by
  rw [portsDetect_eq]
  refine LinkAs.foldl (fun t p => ?_) _ s
  unfold detectPort
  split
  · exact ⟨rfl, rfl, rfl, rfl, rfl, rfl, rfl, rfl⟩
  · exact .refl t

/-! careen.report (R501, R502, R511). -/

/-- The drain asks after the partitions' steps, unless the package has failed. -/
theorem drained_congr {s t : State} (hfailed : t.host.hm.failed = s.host.hm.failed) (hparts : t.parts = s.parts) :
    drained t = drained s := by
  have hflying : flying t = flying s := by
    funext p
    simp only [flying, partOf, hparts]
  rw [drained, drained, hfailed, hparts, hflying]

section Commands
variable {r : Request} {s : State}

section Shutdown
variable (hrun : s.car.run = none) (hstart : s.car.starting = false) (hrails : s.pw.rails = true) (hlife : s.sec.lifecycle ≠ 4)
include hrun hstart hrails hlife

theorem careenShutdown_refused (hno : stateRefusals s .drydock ≠ 0) :
    careenShutdown r s = reply r 0x0E01 [w32 (stateRefusals s .drydock)] s := by
  simp only [careenShutdown, hrun, hstart, hrails, hlife, hno, Option.isSome_none, Bool.false_eq_true, or_self, not_true_eq_false,
    ne_eq, not_false_eq_true, if_false, if_true]

/-- With nothing in service and steps in flight, the shutdown waits for the drain. -/
theorem careenShutdown_drains (hyes : stateRefusals s .drydock = 0) (hnone : s.car.inService = none) (hbusy : drained s = false) :
    careenShutdown r s = modCar (fun c => { c with starting := true, queue := [] })
      (modDv (fun d => { d with goal := [33, 33, 33, 33] }) (reply r 0 [] s)) := by
  have hended : endInService (reply r 0 [] s) = modCar (fun c => { c with queue := [] }) (reply r 0 [] s) := by
    have hnone' : (reply r 0 [] s).car.inService = none := by simp [hnone]
    simp only [endInService, hnone']
  have hbusy' : drained (modCar (fun c => { c with starting := true }) (pinRatios (endInService (reply r 0 [] s)))) = false := by
    rw [hended, drained_congr (s := s) (by simp [pinRatios]) (by simp [pinRatios]), hbusy]
  have haccepted : careenShutdown r s =
      careenOn (modCar (fun c => { c with starting := true }) (pinRatios (endInService (reply r 0 [] s)))) := by
    simp only [careenShutdown, hrun, hstart, hrails, hlife, hyes, Option.isSome_none, Bool.false_eq_true, or_self,
      not_true_eq_false, ne_eq, if_false]
  rw [haccepted, careenOn, if_pos (.inr (Bool.eq_false_iff.mp hbusy')), hended]
  rfl

end Shutdown

theorem engineOpen_of_state (h : s.sec.lifecycle = 0 ∨ s.sec.lifecycle = 3) : engineOpen s = true := by
  rcases h with h | h <;> simp [engineOpen, h]

theorem careenRun_shut (hmade : s.sec.lifecycle ≠ 0) (hreturned : s.sec.lifecycle ≠ 3) : careenRun r s = reply r 0x1101 [] s :=
  if_pos (by simp [engineOpen, hmade, hreturned])

theorem careenClear_open (h : s.sec.lifecycle = 0 ∨ s.sec.lifecycle = 3) :
    careenClear r s = reply r 0 [] (modCar (fun c => { c with ring := [], summaries := [] }) s) :=
  if_neg (not_not.mpr (engineOpen_of_state h))

/-- The run of the tests that a RUN without the PCI Express loopback asks for. -/
def engineRun (r : Request) (s : State) : CareenRun × State := newRun 2 (2 * fld (argOf r 1) 1 12) (argOf r 2).toNat (0, 0) s

/-- The state in which they begin: the SRAM is lost, the ports are off, and the dies go to ratio 33. -/
def engineBegun (r : Request) (s : State) : State := loseSram (portsOff (pinRatios (reply r 0 [] (engineRun r s).2)))

theorem careenRun_runs (hopen : s.sec.lifecycle = 0 ∨ s.sec.lifecycle = 3) (hrun : s.car.run = none) (hstart : s.car.starting = false)
    (hrails : s.pw.rails = true) (htests : fld (argOf r 1) 1 12 ≠ 0) (hlocal : bitOf (argOf r 1) 9 = false) :
    careenRun r s = modCar (fun c => { c with run := some (engineRun r s).1 }) (engineBegun r s) := by
  simp only [engineBegun, careenRun, engineOpen_of_state hopen, hrun, hstart, hrails, htests, hlocal, Option.isSome_none, Bool.false_eq_true,
    or_self, not_true_eq_false, if_false, engineRun]

end Commands

theorem engineBegun_frame (r : Request) (s : State) : (engineBegun r s).car.runId = (s.car.runId + 1) % 2 ^ 32 ∧
    (engineBegun r s).x.sram = [] ∧ (engineBegun r s).dv.goal = [33, 33, 33, 33] ∧
    ∀ p, p < 18 → (portOf (engineBegun r s) p).st = .idle := by
  have hcar : (engineRun r s).2.car = { s.car with runId := (s.car.runId + 1) % 2 ^ 32 } := (Still.logPkg ..).car
  unfold engineBegun
  generalize (engineRun r s).2 = t at hcar
  have hpinned : (pinRatios (reply r 0 [] t)).car = t.car := by simp [pinRatios]
  have hcar' := (LinkAs.portsOff (pinRatios (reply r 0 [] t))).car.trans (hpinned.trans hcar)
  have hgoal : (portsOff (pinRatios (reply r 0 [] t))).dv.goal = [33, 33, 33, 33] := by
    rw [dv_portsOff]
    rfl
  have hports := fun p (hp : p < 18) => st_portsOff (pinRatios (reply r 0 [] t)) hp
  generalize portsOff (pinRatios (reply r 0 [] t)) = u at hcar' hgoal hports
  exact ⟨congrArg Careen.runId hcar', rfl, hgoal, hports⟩

/-! The shutdown run and the engine run (R500, R504, R509). -/

theorem finishRun_car (run : CareenRun) (complete : Bool) (s : State) : (finishRun run complete s).car =
    { s.car with summaries := tset s.car.summaries run.kind (summaryWords s run complete) } := (Still.logPkg ..).car

/-- Entering a state of the ladder leaves the engine, the boot record and the loopback alone. -/
theorem enterState_frame (st : PState) (s : State) : (enterState st s).car = s.car ∧ (enterState st s).boot = s.boot ∧
    (enterState st s).host.ep.loopback = s.host.ep.loopback := by
  unfold enterState
  split
  · exact ⟨rfl, rfl, rfl⟩
  · have hlogged : Still (modPw (fun w => { w with st }) s) (setInt 2 (logPkg 0x0E01 false (pstateCode st) (pstateCode s.pw.st)
      (modPw (fun w => { w with st }) s))) := (Still.logPkg ..).trans (.setInt ..)
    exact ⟨hlogged.car, hlogged.boot, hlogged.loopback⟩

/-- The requests that wait are answered, and that is all. -/
theorem linkAs_arriveAt (t : PState) (s : State) : LinkAs s (arriveAt t s) := by
  unfold arriveAt
  dsimp only
  refine LinkAs.trans ?_ (LinkAs.foldl (fun u r => ?_) _ _)
  · exact ⟨rfl, rfl, rfl, rfl, rfl, rfl, rfl, rfl⟩
  · constructor <;> simp

/-- The package goes dry: the boot record keeps that the stop was clean. -/
theorem dryOut_boot (s : State) : (dryOut s).car = s.car ∧
    (dryOut s).boot = { s.boot with cleanStop := true, trained := List.range 16 } := by
  have hlink : (if s.host.ep.linkUp then linkDown s else s).car = s.car ∧
      (if s.host.ep.linkUp then linkDown s else s).boot = s.boot := by
    split
    · obtain ⟨-, -, -, hcar, hboot, -⟩ := linkDown_frame s
      exact ⟨hcar, hboot⟩
    · exact ⟨rfl, rfl⟩
  obtain ⟨hcar, hboot⟩ := hlink
  unfold dryOut
  generalize (if s.host.ep.linkUp then linkDown s else s) = t at hcar hboot
  exact ⟨hcar, congrArg (fun b : Boot => { b with cleanStop := true, trained := List.range 16 }) hboot⟩

theorem goDown_drydock (s : State) : (goDown .drydock s).car = s.car ∧
    (goDown .drydock s).boot = { s.boot with cleanStop := true, trained := List.range 16 } ∧ (goDown .drydock s).pw.st = .drydock := by
  have hoff := LinkAs.portsOff s
  obtain ⟨hcar, hboot⟩ := dryOut_boot (loseSram (forgetFabric (portsOff s)))
  obtain ⟨hcar', hboot', -⟩ := enterState_frame .drydock (dryOut (loseSram (forgetFabric (portsOff s))))
  refine ⟨hcar'.trans (hcar.trans hoff.car), (hboot'.trans hboot).trans ?_, ?_⟩
  · exact congrArg (fun b : Boot => { b with cleanStop := true, trained := List.range 16 }) hoff.boot
  · exact congrArg Power.st (enterState_pw .drydock (dryOut (loseSram (forgetFabric (portsOff s)))))

/-- The shutdown run ends with its summary, in Drydock, after a clean stop. -/
theorem shutdownEnds_frame (run : CareenRun) (s : State) : (shutdownEnds run s).car.run = none ∧
    (shutdownEnds run s).pw.st = .drydock ∧
    tget (shutdownEnds run s).car.summaries run.kind = some (summaryWords s run (!run.abort)) ∧
    (shutdownEnds run s).boot.quickOk = !run.abort ∧ (shutdownEnds run s).boot.cleanStop = true := by
  have hfinished := finishRun_car run (!run.abort) s
  unfold shutdownEnds
  dsimp only
  generalize finishRun run (!run.abort) s = t at hfinished
  obtain ⟨hcar, hboot, hst⟩ := goDown_drydock (modEp (fun e => { e with loopback := false })
    (modBoot (fun b => { b with quickOk := !run.abort }) (modCar (fun c => { c with run := none }) t)))
  generalize goDown .drydock _ = u at hcar hboot hst
  have hthere := linkAs_arriveAt .drydock u
  have hcar' : (arriveAt .drydock u).car = { t.car with run := none } := hthere.car.trans hcar
  have hboot' := hthere.boot.trans hboot
  refine ⟨by rw [hcar'], hthere.st.trans hst, ?_, by rw [hboot']; rfl, by rw [hboot']⟩
  rw [hcar', hfinished]
  exact (tget_tset ..).trans (if_pos rfl)

section PhaseDone
variable {run : CareenRun} {s : State} (peak : Nat) (hrun : s.car.run = some run)
include hrun

theorem phaseDone_next (hkind : run.kind = 0) (hphase : run.phase < 13) (hlocal : run.phase ≠ 11) (hruns : run.abort = false) :
    phaseDone [] peak s =
      modCar (fun c => { c with run := some { run with peak := max run.peak peak, phase := run.phase + 1 } }) s := by
  simp only [phaseDone, hrun, hkind, hlocal, hruns, Nat.not_le_of_lt hphase, recordAll, List.foldl_nil, ne_eq, not_true_eq_false,
    Bool.false_eq_true, or_self, if_false]

theorem phaseDone_last (hkind : run.kind = 0) (hphase : run.phase = 13) :
    phaseDone [] peak s = shutdownEnds { run with peak := max run.peak peak } s := by
  simp only [phaseDone, hrun, hkind, hphase, recordAll, List.foldl_nil, ne_eq, not_true_eq_false, Nat.le_refl, or_true, if_false, if_true]

theorem engineDone_ends (hkind : run.kind = 2) : engineDone [] peak s =
    enterState .quayside (portsDetect (modEp (fun e => { e with loopback := false }) (modCar (fun c => { c with run := none })
      (finishRun { run with peak := max run.peak peak } (!run.abort) s)))) := by
  simp only [engineDone, hrun, hkind, recordAll, List.foldl_nil, ne_eq, not_true_eq_false, if_false]

theorem engineDone_other (hkind : run.kind ≠ 2) : engineDone [] peak s = s := by
  simp only [engineDone, hrun, hkind, ne_eq, not_false_eq_true, if_true]

/-- No in-service test starts while a run is on. -/
theorem inServiceStart_running : inServiceStart s = s := by
  unfold inServiceStart
  split
  · rfl
  · exact if_pos (.inr (.inl (by rw [hrun]; rfl)))

end PhaseDone

/-- The engine run leaves its summary, and the package in Quayside with its ports looking for partners. -/
theorem engineRun_ended (run : CareenRun) (complete : Bool) (s : State) :
    ∃ t, t = enterState .quayside (portsDetect (modEp (fun e => { e with loopback := false })
      (modCar (fun c => { c with run := none }) (finishRun run complete s)))) ∧ t.car.run = none ∧ t.pw.st = .quayside ∧
      tget t.car.summaries run.kind = some (summaryWords s run complete) ∧ t.host.ep.loopback = false := by
  have hfinished := finishRun_car run complete s
  generalize finishRun run complete s = t at hfinished
  have hdetect := LinkAs.portsDetect (modEp (fun e => { e with loopback := false }) (modCar (fun c => { c with run := none }) t))
  generalize portsDetect _ = u at hdetect
  obtain ⟨hcar, -, hloop⟩ := enterState_frame .quayside u
  have hcar' : (enterState .quayside u).car = { t.car with run := none } := hcar.trans hdetect.car
  refine ⟨_, rfl, by rw [hcar'], congrArg Power.st (enterState_pw .quayside u), ?_, hloop.trans hdetect.loopback⟩
  rw [hcar', hfinished]
  exact (tget_tset ..).trans (if_pos rfl)

/-! Memory that is cleared (R16, R508). -/

theorem memGet_of_notMem {m : Mem} {x : Nat} (h : ∀ c ∈ m, c.1 ≠ x) : memGet m x = emptyByte := by
  induction m with
  | nil => rfl
  | cons c m ih =>
    rw [memGet, if_neg (h c List.mem_cons_self), ih fun e he => h e (List.mem_cons_of_mem c he), ite_self]

theorem memGet_clear {a n x : Nat} (m : Mem) (hlow : a ≤ x) (hhigh : x < a + n) : memGet (memClear m a n) x = emptyByte := by
  refine memGet_of_notMem fun c hc heq => ?_
  have hkept := (List.mem_filter.mp hc).2
  simp only [Bool.or_eq_true, decide_eq_true_eq] at hkept
  omega

/-- Clearing leaves every byte outside the range alone. -/
theorem memGet_clear_other {a n x : Nat} {m : Mem} (h : memWf m = true) (hx : x < a ∨ a + n ≤ x) :
    memGet (memClear m a n) x = memGet m x := by
  induction m with
  | nil => rfl
  | cons c m ih =>
    obtain ⟨k, b⟩ := c
    obtain ⟨-, habove, hwf⟩ := memWf_cons.mp h
    by_cases hk : k < a ∨ a + n ≤ k
    · have hkeep : memClear ((k, b) :: m) a n = (k, b) :: memClear m a n := List.filter_cons_of_pos (by simpa using hk)
      rw [hkeep, memGet, memGet, ih hwf]
    · have hdrop : memClear ((k, b) :: m) a n = memClear m a n := List.filter_cons_of_neg (by simpa using hk)
      have hne : ¬ k = x := by omega
      rw [hdrop, memGet, if_neg hne, ih hwf]
      split
      · next hlt => exact memGet_above (above_trans (Nat.le_of_lt hlt) habove)
      · rfl

/-- A range that an address is no member of lies below it or above. -/
theorem outside_of_forall_ne {a n x : Nat} (h : ∀ i, i < n → x ≠ a + i) : x < a ∨ a + n ≤ x := by
  by_contra hin
  have hi := h (x - a)
  omega

/-! In-service tests (R506 to R508). -/

section InService
variable {k : Nat} {s : State}

/-- The run that an in-service test of a block is recorded in. -/
def blockRun (b : Nat × Nat) (s : State) : CareenRun × State := newRun 1 0 b.2 b s

theorem blockRun_frame (b : Nat × Nat) (s : State) :
    (blockRun b s).2.x = s.x ∧ (blockRun b s).2.parts = s.parts ∧ (blockRun b s).2.dv = s.dv ∧
    (blockRun b s).2.car = { s.car with runId := (s.car.runId + 1) % 2 ^ 32 } := by
  have hlogged : HostOnly (modCar (fun c => { c with runId := (s.car.runId + 1) % 2 ^ 32 }) s) (blockRun b s).2 := .logEvent ..
  exact ⟨hlogged.x, hlogged.parts, by simp [blockRun, newRun], (Still.logPkg ..).car⟩

theorem inServiceStart_cluster {rest : List (Nat × Nat)} (hqueue : s.car.queue = (2, k) :: rest) (hnone : s.car.inService = none)
    (hrun : s.car.run = none) (hstart : s.car.starting = false) (hready : s.host.hm.ready = true) (hthere : s.host.hm.gone = false)
    (hlife : s.sec.lifecycle ≠ 4) (hfree : s.pw.mode = false) (hpower : testPower s 2 = true) (hratio : 33 ≤ s.dv.cur.getD (k / 12) 33) :
    inServiceStart s = modDv (fun v => { v with cur := setAt v.cur (k / 12) 33, goal := setAt v.goal (k / 12) 33 })
      (modCar (fun c => { c with
        inService := some { (blockRun (2, k) (modCar (fun c => { c with queue := rest }) s)).1 with peak := s.dv.draw } })
        (blockRun (2, k) (modCar (fun c => { c with queue := rest }) s)).2) := by
  have hplain : ¬ ((2 : Nat) = 12 ∨ (2 : Nat) = 262) := by decide
  simp only [inServiceStart, hplain, hqueue, hnone, hrun, hstart, hready, hthere, hlife, hfree, hpower, blockDie, Nat.not_lt_of_le hratio,
    Option.isSome_none, Option.isSome_some, Option.map_some, Option.getD_some, Bool.false_eq_true, not_true_eq_false, or_self,
    true_and, false_and, if_false, blockRun]

theorem inServiceStart_empty (hqueue : s.car.queue = []) : inServiceStart s = s := by
  simp only [inServiceStart, hqueue]

theorem inServiceDone_none (ok : Bool) (hnone : s.car.inService = none) : inServiceDone [] ok s = s := by
  simp only [inServiceDone, hnone]

/-- The state in which a test's block is re-initialised. -/
def testEnded (run : CareenRun) (ok : Bool) (s : State) : State := finishRun run true (modCar (fun c => { c with
  inService := none, repairable := if ok then c.repairable ++ [run.block] else c.repairable }) s)

theorem inServiceDone_ends {run : CareenRun} (ok : Bool) (hrun : s.car.inService = some run) :
    inServiceDone [] ok s = reinit run.block (testEnded run ok s) := by
  simp only [inServiceDone, hrun, recordAll, List.foldl_nil, testEnded]

theorem testEnded_frame (run : CareenRun) (ok : Bool) (s : State) : (testEnded run ok s).x = s.x ∧ (testEnded run ok s).car =
    { s.car with
      inService := none, repairable := if ok then s.car.repairable ++ [run.block] else s.car.repairable
      summaries := tset s.car.summaries run.kind (summaryWords s run true) } :=
  ⟨(HostOnly.logEvent ..).x, finishRun_car ..⟩

/-- The memory of a cluster that is re-initialised. -/
theorem reinit_cluster (k : Nat) (s : State) : (reinit (2, k) s).car = s.car ∧
    (reinit (2, k) s).x.sram = memClear (memClear s.x.sram (coreAddr (8 * k) 0) (8 * 2 ^ 22)) (clusterAddr k 0) (2 ^ 24) ∧
    (reinit (2, k) s).x.loose =
      (s.x.loose.flatMap (cutLoose (coreAddr (8 * k) 0) (8 * 2 ^ 22))).flatMap (cutLoose (clusterAddr k 0) (2 ^ 24)) := by
  have h : ¬ (2, k).1 ≠ 2 := fun h => h rfl
  unfold reinit
  rw [if_neg h]
  exact ⟨rfl, rfl, rfl⟩

/-- A re-initialised cluster's SRAM reads zero. -/
theorem sramByte_reinit (k : Nat) (s : State) {a : Nat} (ha : a < 2 ^ 24) : sramByte (reinit (2, k) s) (clusterAddr k a) = 0 := by
  obtain ⟨-, hsram, hloose⟩ := reinit_cluster k s
  have hlow : clusterAddr k 0 ≤ clusterAddr k a := Nat.add_le_add_left (Nat.zero_le a) _
  have hhigh : clusterAddr k a < clusterAddr k 0 + 2 ^ 24 := by
    unfold clusterAddr
    omega
  rw [sramByte_eq, hsram, hloose, findSome?_openAt_flatMap, if_pos ⟨hlow, hhigh⟩, memGet_clear _ hlow hhigh]
  rfl

end InService

end Sys2Proof.Machine

namespace Sys2Proof.Claim

open Sys2Proof.Machine

/-- Settles O37: each sub-command passes its checks or fails the one named; taking the request changes nothing that they read. -/
theorem careenCommands : Obligations.CareenCommands := by
  intro s m r hr
  refine ⟨fun hsub => hr.sub hsub rfl, fun hsub => hr.sub hsub rfl,
    fun hsub hrun hstart hrails hlife hyes hnone hbusy => ?drains, fun hsub hrun hstart hrails hlife hno => ?refused,
    fun hsub hopen hrun hstart hrails htests hlocal => ?run, fun hsub hmade hreturned => ?shut, fun hsub => hr.sub hsub rfl,
    fun hsub hopen => ?clear⟩
  case drains => exact hr.sub hsub (careenShutdown_drains (s := taken s) hrun hstart hrails hlife hyes hnone hbusy)
  case refused => exact hr.sub hsub (careenShutdown_refused (s := taken s) hrun hstart hrails hlife hno)
  case run =>
    have hruns := careenRun_runs (r := r) (s := taken s) hopen hrun hstart hrails htests hlocal
    obtain ⟨hid, hsram, hgoal, hports⟩ := engineBegun_frame r (taken s)
    generalize engineBegun r (taken s) = t at hruns hid hsram hgoal hports
    exact ⟨_, (engineRun r (taken s)).1, hr.sub hsub hruns, rfl, rfl, rfl, rfl, rfl, hid, hsram, hports, hgoal⟩
  case shut => exact hr.sub hsub (careenRun_shut (s := taken s) hmade hreturned)
  case clear => exact hr.sub hsub (careenClear_open (s := taken s) hopen)

theorem careenRuns : CareenRuns := by
  intro s run peak hrun
  refine ⟨fun hkind hphase hlocal hruns => congrArg _ (phaseDone_next peak hrun hkind hphase hlocal hruns), fun hkind hphase => ?last,
    fun hkind => ?engine, fun hkind => congrArg _ (engineDone_other peak hrun hkind), congrArg _ (inServiceStart_running hrun)⟩
  case last =>
    obtain ⟨hnone, hst, hsummary, hquick, hclean⟩ := shutdownEnds_frame { run with peak := max run.peak peak } s
    exact ⟨_, congrArg Host.Outcome.next (phaseDone_last peak hrun hkind hphase), hnone, hst, hkind ▸ hsummary, hquick, hclean⟩
  case engine =>
    obtain ⟨t, ht, hnone, hst, hsummary, hloop⟩ := engineRun_ended { run with peak := max run.peak peak } (!run.abort) s
    exact ⟨t, congrArg Host.Outcome.next ((engineDone_ends peak hrun hkind).trans ht.symm), hnone, hst, hkind ▸ hsummary, hloop⟩

theorem careenInService : CareenInService := by
  intro s k rest run ok
  refine ⟨fun hqueue hnone hrun hstart hready hthere hlife hfree hpower hlen hratio => ?starts,
    fun hqueue => congrArg _ (inServiceStart_empty hqueue), fun hrun hblock => ?ends, fun hnone => congrArg _ (inServiceDone_none ok hnone)⟩
  case starts =>
    have hstarts := inServiceStart_cluster hqueue hnone hrun hstart hready hthere hlife hfree hpower hratio
    obtain ⟨hx, hparts, hdv, hcar⟩ := blockRun_frame (2, k.val) (modCar (fun c => { c with queue := rest }) s)
    refine ⟨_, _, congrArg Host.Outcome.next hstarts, rfl, rfl, rfl, rfl, congrArg Careen.queue hcar, ?_, hx, hparts⟩
    have hlen' := (congrArg (fun v => v.cur.length) hdv).trans hlen
    exact getD_setAt_same (Nat.lt_of_lt_of_eq (by omega) hlen'.symm) _ _
  case ends =>
    obtain ⟨hx, hended⟩ := testEnded_frame run ok s
    have hdone := inServiceDone_ends ok hrun
    rw [hblock] at hdone
    obtain ⟨hcar, hsram, -⟩ := reinit_cluster k (testEnded run ok s)
    refine ⟨_, congrArg Host.Outcome.next hdone, ?_, ?_, ?_, fun a ha => sramByte_reinit k _ ha, fun hmem a hcore hcluster => ?_⟩
    · rw [hcar, hended]
    · rw [hcar, hended]
      exact (tget_tset ..).trans (if_pos rfl)
    · rw [hcar, hended]
    · obtain ⟨hwf, -, -⟩ := hmem
      rw [hsram, hx, memGet_clear_other (memWf_clear hwf _ _) (outside_of_forall_ne hcluster),
        memGet_clear_other hwf (outside_of_forall_ne hcore)]

/-- Settles O38: each run ends with its summary, which is the last thing that is written of it. -/
theorem careenRunsAndTests : Obligations.CareenRunsAndTests := ⟨careenRuns, careenInService⟩

end Sys2Proof.Claim
end

section
/-! PROOFS. The commit of a step that neither a holder nor a next member must answer (R28 to R30, R137, R390, R542). -/

namespace Sys2Proof.Machine

/-! What the commit of a step reads (R28, R30, R137). -/

/-- The configuration of partition `p`, the images, the fabric and the commands under way, by which a step of `p` may commit, are in
`t` as in `s`. -/
structure GateAs (p : Nat) (s t : State) : Prop where
  cfg : (partOf t p).cfg = (partOf s p).cfg
  images : t.images = s.images
  fab : t.fab = s.fab
  pkgId : t.host.hm.pkgId = s.host.hm.pkgId
  failed : t.host.hm.failed = s.host.hm.failed
  cutOff : t.host.hm.cutOff = s.host.hm.cutOff
  out : ∀ k, (clusterOf t k).out = (clusterOf s k).out
  quiet : ∀ id, stepQuiet t p id = stepQuiet s p id

namespace GateAs
variable {p : Nat} {s t u : State}

theorem refl (p : Nat) (s : State) : GateAs p s s := ⟨rfl, rfl, rfl, rfl, rfl, rfl, fun _ => rfl, fun _ => rfl⟩

theorem trans (h : GateAs p s t) (k : GateAs p t u) : GateAs p s u :=
  ⟨k.cfg.trans h.cfg, k.images.trans h.images, k.fab.trans h.fab, k.pkgId.trans h.pkgId, k.failed.trans h.failed,
   k.cutOff.trans h.cutOff, fun c => (k.out c).trans (h.out c), fun id => (k.quiet id).trans (h.quiet id)⟩

/-- A partition is updated, and not in its configuration. -/
theorem modPart {k : Nat} {f : Part → Part} (hf : (f (partOf s k)).cfg = (partOf s k).cfg) : GateAs p s (modPart k f s) where
  cfg := by
    by_cases hk : k = p
    · subst hk; rw [partOf_modPart, hf]
    · rw [partOf_modPart_ne f s hk]
  images := rfl
  fab := rfl
  pkgId := rfl
  failed := rfl
  cutOff := rfl
  out _ := rfl
  quiet _ := rfl

theorem modRun (k : Nat) (f : PartRun → PartRun) (s : State) : GateAs p s (modRun k f s) :=
  modPart (f := fun q => { q with run := f q.run }) rfl

theorem modStep (k id : Nat) (f : StepRec → StepRec) (s : State) : GateAs p s (modStep k id f s) := modRun ..

theorem modJr (k : Nat) (f : PartJr → PartJr) (s : State) : GateAs p s (modJr k f s) :=
  modPart (f := fun q => { q with jr := f q.jr }) rfl

theorem bank (h : GateAs p s t) : bank t p = bank s p := by
  unfold Machine.bank activeBank bankOf
  rw [h.cfg]

theorem nextMember (h : GateAs p s t) (job : Nat) : nextMember t job = nextMember s job := by
  unfold Machine.nextMember jobOf myPkg
  rw [h.fab, h.pkgId]

theorem relPending (h : GateAs p s t) (id : Nat) : relPending t p id = relPending s p id := by
  simp only [Machine.relPending, h.fab]

theorem unfolded (h : GateAs p s t) : unfolded t p = unfolded s p := by
  have himg : imgOf t p = imgOf s p := by
    unfold imgOf recImg
    rw [← Machine.bank, h.bank, h.images, ← Machine.bank]
  have hplace (c : Nat) : placeOf t p c = placeOf s p c := by
    unfold placeOf hostOf
    rw [h.bank, h.cfg]
  simp only [Machine.unfolded, hplace, h.out, himg]

end GateAs

/-- A cluster frees the slots of a step, with what waits in them and its run. -/
def slotsFreed (k id : Nat) (c : Cluster) : Cluster :=
  { c with
    slots := c.slots.filter (fun q => q.2 != (k, id))
    inbox := c.inbox.filter (fun q => !(decide (q.1 / 16 ∈ (c.slots.filter fun q => q.2 == (k, id)).map fun q => q.1)))
    runs := c.runs.filter fun q => !(q.part == k && q.step == id) }

theorem clusters_freeSlots (k id : Nat) (s : State) :
    (freeSlots k id s).x.clusters = s.x.clusters.map fun e => (e.1, slotsFreed k id e.2) := rfl

/-- What of a partition the commit of its oldest step turns on. -/
def commitPart (q : Part) : PartCfg × List StepRec × Bool × Nat × List (Nat × Nat × Nat) :=
  (q.cfg, q.run.steps, q.run.freeDrop, q.run.committed, q.jr.jring)

/-- So are the steps of `p`, the last one committed and the entries of its journal. -/
structure CommitAs (p : Nat) (s t : State) : Prop extends GateAs p s t where
  part : commitPart (partOf t p) = commitPart (partOf s p)

namespace CommitAs
variable {p : Nat} {s t u : State}

theorem refl (p : Nat) (s : State) : CommitAs p s s := ⟨.refl p s, rfl⟩

theorem trans (h : CommitAs p s t) (k : CommitAs p t u) : CommitAs p s u := ⟨h.toGateAs.trans k.toGateAs, k.part.trans h.part⟩

theorem foldl {α : Type} {f : State → α → State} (hf : ∀ t x, CommitAs p t (f t x)) (xs : List α) (s : State) :
    CommitAs p s (xs.foldl f s) := by
  induction xs generalizing s with
  | nil => exact refl p s
  | cons x xs ih => exact (hf s x).trans (ih (f s x))

theorem fields (h : CommitAs p s t) : (partOf t p).run.steps = (partOf s p).run.steps ∧
    (partOf t p).run.freeDrop = (partOf s p).run.freeDrop ∧ (partOf t p).run.committed = (partOf s p).run.committed ∧
    (partOf t p).jr.jring = (partOf s p).jr.jring := by
  have hpart := h.part
  simp only [commitPart, Prod.mk.injEq] at hpart
  exact hpart.2

theorem modPart {k : Nat} {f : Part → Part} (hf : commitPart (f (partOf s k)) = commitPart (partOf s k)) :
    CommitAs p s (modPart k f s) where
  toGateAs := .modPart (Prod.mk.inj hf).1
  part := by
    by_cases hk : k = p
    · subst hk; rw [partOf_modPart, hf]
    · rw [partOf_modPart_ne f s hk]

theorem logEvent (code : Nat) (fault : Bool) (part op step w4 w5 : Nat) (s : State) :
    CommitAs p s (logEvent code fault part op step w4 w5 s) where
  cfg := by simp
  images := by simp
  fab := by simp
  pkgId := by simp
  failed := by simp
  cutOff := by simp
  out := by simp
  quiet := by simp [stepQuiet]
  part := by simp

theorem raiseMsix (fn v : Nat) (s : State) : CommitAs p s (raiseMsix fn v s) where
  cfg := by simp
  images := by simp
  fab := by simp
  pkgId := by simp
  failed := by simp
  cutOff := by simp
  out := by simp
  quiet := by simp [stepQuiet]
  part := by simp

theorem hostWrite (fn a : Nat) (bs : List Byte) (s : State) : CommitAs p s (hostWrite fn a bs s) := by
  unfold Machine.hostWrite
  split
  · exact refl p s
  · exact ⟨⟨rfl, rfl, rfl, rfl, rfl, rfl, fun _ => rfl, fun _ => rfl⟩, rfl⟩

theorem totAdd (k n : Nat) (s : State) : CommitAs p s (totAdd k n s) :=
  ⟨⟨rfl, rfl, rfl, rfl, rfl, rfl, fun _ => rfl, fun _ => rfl⟩, rfl⟩

theorem modSec (f : Sec → Sec) (s : State) : CommitAs p s (modSec f s) :=
  ⟨⟨rfl, rfl, rfl, rfl, rfl, rfl, fun _ => rfl, fun _ => rfl⟩, rfl⟩

theorem modRun {k : Nat} {f : PartRun → PartRun} (hsteps : (f (partOf s k).run).steps = (partOf s k).run.steps)
    (hdrop : (f (partOf s k).run).freeDrop = (partOf s k).run.freeDrop)
    (hlast : (f (partOf s k).run).committed = (partOf s k).run.committed) : CommitAs p s (modRun k f s) :=
  modPart (f := fun q => { q with run := f q.run }) (by simp only [commitPart, hsteps, hdrop, hlast])

theorem modStat (k : Nat) (f : PartStat → PartStat) (s : State) : CommitAs p s (modStat k f s) :=
  modPart (f := fun q => { q with stat := f q.stat }) rfl

theorem modKv (k : Nat) (f : Kv → Kv) (s : State) : CommitAs p s (modKv k f s) := modPart (f := fun q => { q with kv := f q.kv }) rfl

theorem modEx (k : Nat) (f : PartEx → PartEx) (s : State) : CommitAs p s (modEx k f s) :=
  modPart (f := fun q => { q with ex := f q.ex }) rfl

theorem modFb (k : Nat) (f : Fallback → Fallback) (s : State) : CommitAs p s (modFb k f s) :=
  modPart (f := fun q => { q with fb := f q.fb }) rfl

theorem cntAdd (k i n : Nat) (s : State) : CommitAs p s (cntAdd k i n s) := modStat ..

theorem modSlot (k i : Nat) (f : SeqSlot → SeqSlot) (s : State) : CommitAs p s (modSlot k i f s) := modKv ..

theorem setVfEvent (k b : Nat) (s : State) : CommitAs p s (setVfEvent k b s) := by
  have hset : CommitAs p s (Machine.modPart k (fun q => { q with vfEvent := q.vfEvent ||| (1#4 <<< b) }) s) := modPart rfl
  unfold Machine.setVfEvent
  dsimp only
  split
  · exact hset.trans (raiseMsix ..)
  · exact hset

theorem onceEvent (code : Nat) (fault : Bool) (k op step w4 w5 : Nat) (s : State) :
    CommitAs p s (onceEvent code fault k op step w4 w5 s) := by
  unfold Machine.onceEvent
  split
  · exact refl p s
  · exact (modRun rfl rfl rfl).trans (logEvent ..)

/-! Results and statistics of a step (R126, R157, R395, R422). -/

theorem holdResult (k : Nat) (r : StepRec) (data : List Byte) (s : State) : CommitAs p s (holdResult k r data s) := by
  unfold Machine.holdResult
  dsimp only
  refine CommitAs.trans ?_ ((modRun rfl rfl rfl).trans (totAdd ..))
  split
  · split
    · exact logEvent ..
    · exact refl p s
  · exact refl p s

theorem deliver (k : Nat) (r : StepRec) (data : List Byte) (s : State) : CommitAs p s (deliver k r data s) := by
  unfold Machine.deliver
  extract_lets job first s0 s1
  have h0 : CommitAs p s s0 := by
    unfold s0
    split
    · exact setVfEvent ..
    · exact refl p s
  have h1 : CommitAs p s s1 := h0.trans ((hostWrite ..).trans (hostWrite ..))
  split
  · split
    · exact h0
    · split
      · split
        · exact h1
        · exact h1.trans (raiseMsix ..)
      · exact h0.trans ((holdResult ..).trans (logEvent ..))
  · split
    · exact holdResult ..
    · exact refl p s

/-- The clusters free what a step has left, and keep their commands under way. -/
theorem freeSlots (k id : Nat) (s : State) : CommitAs p s (freeSlots k id s) := by
  have hcleared : CommitAs p s (clearExchange k id s) := modEx ..
  refine hcleared.trans ⟨⟨rfl, rfl, rfl, rfl, rfl, rfl, fun c => ?_, fun i => ?_⟩, rfl⟩
  · unfold clusterOf tgetD
    rw [clusters_freeSlots, tget_map (fun _ => slotsFreed k id)]
    change _ = ((tget s.x.clusters c).getD {}).out
    cases tget s.x.clusters c <;> rfl
  · unfold Machine.freeSlots stepQuiet
    simp only [List.all_map, Function.comp_def]

/-- The latency counts write the record of the step once, and nothing else that its commit turns on. -/
theorem countLatency (k : Nat) (r : StepRec) (lat : Nat) (s : State) : ∃ n u, CommitAs p s u ∧
    CommitAs p (modStep k r.id (fun x => { x with stormNs := n }) u) (countLatency k r lat s) := by
  refine ⟨(stormDelay s k r).1, Machine.modRun k (fun q => { q with doneAt := s.now, freeAt := (stormDelay s k r).2 }) s,
    modRun rfl rfl rfl, ?_⟩
  unfold Machine.countLatency
  extract_lets ws d s0 s1 storm s2
  have h1 : CommitAs p s0 s1 := by
    refine CommitAs.trans ?_ ((cntAdd ..).trans (cntAdd ..))
    split
    · exact cntAdd ..
    · exact refl p s0
  have h2 : CommitAs p s1 s2 := by
    unfold s2
    split
    · exact (cntAdd ..).trans ((onceEvent ..).trans (modFb ..))
    · exact refl p s1
  refine h1.trans (h2.trans ?_)
  split
  · exact refl p s2
  · split
    · exact (cntAdd ..).trans (onceEvent ..)
    · split
      · exact refl p s2
      · exact (cntAdd ..).trans (onceEvent ..)

theorem latchStats (k : Nat) (r : StepRec) (s : State) : CommitAs p s (latchStats k r s) := by
  unfold Machine.latchStats
  extract_lets q e per words lost s1
  have h1 : CommitAs p s s1 := by
    unfold s1
    split
    · exact modStat ..
    · exact refl p s
  exact h1.trans (modStat ..)

/-! Slots that a step boundary releases (R197). -/

theorem freePage (k slot i units : Nat) (s : State) : CommitAs p s (freePage k slot i units s) := by
  unfold Machine.freePage
  dsimp only
  split
  · exact refl p s
  · split
    · exact (modSlot ..).trans (modKv ..)
    · exact (modSlot ..).trans (modKv ..)

theorem freeSlot (k slot : Nat) (s : State) : CommitAs p s (freeSlot k slot s) := by
  unfold Machine.freeSlot
  exact (foldl (fun _ _ => freePage ..) _ s).trans (modKv ..)

theorem freeEvicted (k : Nat) (s : State) : CommitAs p s (freeEvicted k s) := foldl (fun _ _ => freeSlot ..) _ s

end CommitAs

/-! The step boundary (R29, R137, R390). -/

theorem foldBoundary_of_folded {p : Nat} {s : State} (h : unfolded s p = []) : foldBoundary p s = s := by
  unfold foldBoundary
  exact if_pos h

theorem trySwap_unstaged {p : Nat} {s : State} (h : (partOf s p).cfg.shadow ≠ .staged) : trySwap p s = s := by
  unfold trySwap
  exact if_pos h

/-- The boundary leaves what is committed, where no swap is staged and nothing is to be folded or closed. -/
theorem commitAs_boundary {p : Nat} {s : State} (hplain : (partOf s p).cfg.shadow ≠ .staged) (hfolded : unfolded s p = [])
    (hstays : (partOf s p).run.freeDrop = false) : CommitAs p s (boundary p s) := by
  unfold boundary
  extract_lets s1 s2 s3
  have h1 : CommitAs p s s1 := .modPart (by simp [hplain])
  have h2 : CommitAs p s1 s2 := by
    have hfreed : CommitAs p s1 (freeEvicted p s1) := .freeEvicted ..
    have hkept : (partOf (freeEvicted p s1) p).cfg.shadow ≠ .staged := by
      rw [hfreed.cfg, h1.cfg]
      exact hplain
    unfold s2
    rwa [foldBoundary_of_folded (h1.unfolded.trans hfolded), trySwap_unstaged hkept]
  have h3 : CommitAs p s2 s3 := by
    unfold s3
    split
    · exact .modSec ..
    · exact .refl p s2
  have hall : CommitAs p s s3 := h1.trans (h2.trans h3)
  obtain ⟨-, hdrop, -, -⟩ := hall.fields
  rw [if_neg fun hclose => Bool.noConfusion ((hdrop.trans hstays).symm.trans hclose.1)]
  exact hall

/-! One action of a commit (R29, R30). -/

theorem toCommit_eq_some {s : State} {p : Nat} {r : StepRec} : toCommit s p = some r ↔ (flying s p).head? = some r ∧
    r.st = .finished ∧ stepQuiet s p r.id = true ∧ s.host.hm.failed = false ∧ s.host.hm.cutOff = false := by
  unfold toCommit
  cases flying s p with
  | nil => simp
  | cons q qs =>
    simp only [List.head?_cons, Option.some.injEq]
    split
    · next hq =>
      refine ⟨fun h => ?_, fun h => congrArg some h.1⟩
      obtain rfl := Option.some.inj h
      simpa using hq
    · next hq =>
      refine ⟨nofun, fun ⟨hqr, h⟩ => absurd ?_ hq⟩
      subst hqr
      simpa using h

theorem steps_modStep (p id : Nat) (f : StepRec → StepRec) (s : State) :
    (partOf (modStep p id f s) p).run.steps = (partOf s p).run.steps.map fun x => if x.id = id then f x else x := by
  rw [modStep, partOf_modRun]

/-- The record of a step is changed under its own identifier. -/
theorem stepRec_of_steps {s t : State} {p id : Nat} {f : StepRec → StepRec} (hid : ∀ x, (f x).id = x.id)
    (hsteps : (partOf t p).run.steps = (partOf s p).run.steps.map fun x => if x.id = id then f x else x) :
    stepRec t p id = (stepRec s p id).map f := by
  have hsame (x : StepRec) : decide ((if x.id = id then f x else x).id = id) = decide (x.id = id) := by
    split
    · rw [hid]
    · rfl
  rw [stepRec, hsteps, List.find?_map]
  simp only [Function.comp_def, hsame]
  cases hfound : (partOf s p).run.steps.find? fun x : StepRec => decide (x.id = id) with
  | none => rw [stepRec, hfound, Option.map_none, Option.map_none]
  | some x =>
    have hx : x.id = id := of_decide_eq_true (List.find?_some (p := fun x : StepRec => decide (x.id = id)) hfound)
    rw [stepRec, hfound, Option.map_some, Option.map_some, if_pos hx]

theorem flying_modStep {p id : Nat} {f : StepRec → StepRec} (hst : ∀ x, (f x).st = x.st) (s : State) :
    flying (modStep p id f s) p = (flying s p).map fun x => if x.id = id then f x else x := by
  have hsame (x : StepRec) : inFlight (if x.id = id then f x else x) = inFlight x := by
    unfold inFlight
    split
    · rw [hst]
    · rfl
  rw [flying, steps_modStep, List.filter_map]
  simp only [Function.comp_def, hsame]
  rfl

/-- The commit of step `r` of partition `p`, whose configuration is `c`, is under way: no next member takes its outputs, no swap is
staged, the partition does not close, and none of its clusters waits to be folded. -/
structure Committing (p : Nat) (c : PartCfg) (r : StepRec) (s : State) : Prop where
  due : toCommit s p = some r
  own : stepRec s p r.id = some r
  cfg : (partOf s p).cfg = c
  last : nextMember s (recJob (bank s p)) = none
  answered : relPending s p r.id = false
  unstaged : c.shadow ≠ .staged
  stays : (partOf s p).run.freeDrop = false
  folded : unfolded s p = []

/-- Step `id` is the last committed of partition `p`, its record is complete and its journal entry gone; the bank is still the
active one. -/
structure Committed (p : Nat) (c : PartCfg) (id : Nat) (s : State) : Prop where
  last : (partOf s p).run.committed = id
  own : ∃ x, stepRec s p id = some x ∧ x.st = .completed ∧ x.status = 0
  freed : ∀ e ∈ (partOf s p).jr.jring, e.2.2 ≠ id
  active : (partOf s p).cfg.active = c.active

theorem Committed.of_commitAs {p : Nat} {c : PartCfg} {id : Nat} {s t : State} (h : Committed p c id s) (k : CommitAs p s t) :
    Committed p c id t := by
  obtain ⟨hsteps, -, hlast, hring⟩ := k.fields
  refine ⟨hlast.trans h.last, ?_, hring ▸ h.freed, (congrArg _ k.cfg).trans h.active⟩
  rw [stepRec, hsteps]
  exact h.own

namespace Committing
variable {p : Nat} {c : PartCfg} {r q : StepRec} {s t : State}

theorem finished (h : Committing p c r s) : r.st = .finished := (toCommit_eq_some.mp h.due).2.1

theorem of_commitAs (h : Committing p c r s) (k : CommitAs p s t) : Committing p c r t := by
  obtain ⟨hsteps, hdrop, -, -⟩ := k.fields
  refine ⟨?_, ?_, k.cfg.trans h.cfg, ?_, ?_, h.unstaged, hdrop.trans h.stays, k.unfolded.trans h.folded⟩
  · have hdue := toCommit_eq_some.mp h.due
    rw [toCommit_eq_some, flying, hsteps, k.quiet, k.failed, k.cutOff]
    exact hdue
  · rw [stepRec, hsteps]
    exact h.own
  · rw [k.bank, k.nextMember]
    exact h.last
  · rw [k.relPending]
    exact h.answered

/-- The record of the step is changed, and neither its identifier nor its state. -/
theorem modStep (h : Committing p c r s) (f : StepRec → StepRec) (hid : ∀ x, (f x).id = x.id) (hst : ∀ x, (f x).st = x.st) :
    Committing p c (f r) (modStep p r.id f s) := by
  have hgate : GateAs p s (Machine.modStep p r.id f s) := .modStep ..
  refine ⟨?_, ?_, hgate.cfg.trans h.cfg, ?_, ?_, h.unstaged, ?_, hgate.unfolded.trans h.folded⟩
  · obtain ⟨hhead, hfin, hquiet, hfailed, hcut⟩ := toCommit_eq_some.mp h.due
    rw [toCommit_eq_some, flying_modStep hst, List.head?_map, hhead, Option.map_some, if_pos rfl, hst, hid, hgate.quiet, hgate.failed,
      hgate.cutOff]
    exact ⟨rfl, hfin, hquiet, hfailed, hcut⟩
  · rw [hid, stepRec_of_steps hid (steps_modStep ..), h.own, Option.map_some]
  · rw [hgate.bank, hgate.nextMember]
    exact h.last
  · rw [hid, hgate.relPending]
    exact h.answered
  · rw [Machine.modStep, partOf_modRun]
    exact h.stays

/-- An action that moves the commit on is followed by the next. -/
theorem stepCommit_succ (h : Committing p c r s) (k : Committing p c q (commitAction p r s)) (hid : q.id = r.id)
    (hmove : q.action ≠ r.action ∨ q.released ≠ r.released) (n : Nat) :
    stepCommit p (n + 1) s = stepCommit p n (commitAction p r s) := by
  have hown := k.own
  rw [hid] at hown
  simp only [stepCommit, h.due, hown, if_pos (And.intro k.finished hmove)]

/-- The commit stops where the step is no longer finished. -/
theorem stepCommit_last (h : Committing p c r s) (hown : stepRec (commitAction p r s) p r.id = some q) (hst : q.st ≠ .finished)
    (n : Nat) : stepCommit p (n + 1) s = commitAction p r s := by
  simp only [stepCommit, h.due, hown, if_neg fun hq : q.st = .finished ∧ _ => hst hq.1]

/-! The actions from the last to the first (R29). -/

/-- Action 5 commits the step: its record is complete, and its journal entry goes. -/
theorem committed_commitStep (h : Committing p c r s) : GateAs p s (commitStep p r s) ∧
    (partOf (commitStep p r s) p).run.freeDrop = false ∧ Committed p c r.id (commitStep p r s) := by
  unfold commitStep
  extract_lets s1 s2 s3 s4 f gone s5 turn
  have h1 : CommitAs p s s1 := .foldl (fun _ _ => .modSlot ..) _ s
  have h4 : GateAs p s1 s4 := (GateAs.modRun ..).trans ((GateAs.modStep ..).trans (.modJr ..))
  suffices hall : ∀ v, CommitAs p s4 v → GateAs p s v ∧ (partOf v p).run.freeDrop = false ∧ Committed p c r.id v from
    hall _ ((CommitAs.foldl (fun _ _ => .logEvent ..) _ s4).trans (.modFb ..))
  intro v hend
  have hgate : GateAs p s v := h1.toGateAs.trans (h4.trans hend.toGateAs)
  have hown : stepRec s1 p r.id = some r := (h.of_commitAs h1).own
  have hstays : (partOf s1 p).run.freeDrop = false := (h.of_commitAs h1).stays
  obtain ⟨hsteps, hdrop, hlast, hring⟩ := hend.fields
  simp only [s4, s3, s2, partOf_modJr, Machine.modStep, partOf_modRun] at hsteps hdrop hlast hring
  refine ⟨hgate, hdrop.trans hstays, hlast, ?_, fun e he => ?_, congrArg _ (hgate.cfg.trans h.cfg)⟩
  · have hrec := stepRec_of_steps (s := s1) (fun _ => by rfl) hsteps
    rw [hown] at hrec
    exact ⟨_, hrec, rfl, rfl⟩
  · rw [hring] at he
    exact bne_iff_ne.mp (List.mem_filter.mp he).2

/-- At the step boundary the commit has ended. -/
theorem ends_boundary (h : Committing p c r s) (haction : r.action = 4) (n : Nat) : Committed p c r.id (stepCommit p (n + 1) s) := by
  have haction : commitAction p r s = boundary p (commitStep p r s) := by simp only [commitAction, haction]
  obtain ⟨hgate, hstays, hcommitted⟩ := h.committed_commitStep
  have hplain : (partOf (commitStep p r s) p).cfg.shadow ≠ .staged := by
    rw [hgate.cfg, h.cfg]
    exact h.unstaged
  have hend : Committed p c r.id (boundary p (commitStep p r s)) :=
    hcommitted.of_commitAs (commitAs_boundary hplain (hgate.unfolded.trans h.folded) hstays)
  obtain ⟨x, hown, hst, -⟩ := hend.own
  rw [h.stepCommit_last (haction ▸ hown) (by rw [hst]; nofun), haction]
  exact hend

/-- Action 4 latches the statistics (R395). -/
theorem ends_latch (h : Committing p c r s) (haction : r.action = 3) (n : Nat) : Committed p c r.id (stepCommit p (n + 2) s) := by
  have hlatch : commitAction p r s = Machine.modStep p r.id (fun x => { x with action := 4 }) (latchStats p r s) := by
    simp only [commitAction, haction]
  have hnext := (h.of_commitAs (.latchStats p r s)).modStep (fun x => { x with action := 4 }) (fun _ => rfl) (fun _ => rfl)
  rw [← hlatch] at hnext
  rw [h.stepCommit_succ hnext rfl (.inl (by simp [haction]))]
  exact hnext.ends_boundary rfl n

theorem exists_releaseEnds (h : Committing p c r s) : ∃ q, Committing p c q (releaseEnds p r s) ∧ q.id = r.id ∧ q.action = 3 := by
  unfold releaseEnds
  extract_lets lat
  have hnamed := h.modStep (fun x => { x with action := 3, latencyNs := lat }) (fun _ => rfl) (fun _ => rfl)
  have hfreed := hnamed.of_commitAs ((CommitAs.deliver p { r with latencyNs := lat, status := 0 } (outputs s r) _).trans
    (.freeSlots p r.id _))
  obtain ⟨n, u, hkept, hcounted⟩ := CommitAs.countLatency (p := p) p r lat _
  have hstorm := (hfreed.of_commitAs hkept).modStep (fun x => { x with stormNs := n }) (fun _ => rfl) (fun _ => rfl)
  exact ⟨_, hstorm.of_commitAs hcounted, rfl, rfl⟩

/-- Action 3 ends once the outputs are released and nothing of them is outstanding. -/
theorem ends_released (h : Committing p c r s) (haction : r.action = 2) (hreleased : r.released = true) (n : Nat) :
    Committed p c r.id (stepCommit p (n + 3) s) := by
  have hends : commitAction p r s = releaseEnds p r s := by
    simp [commitAction, haction, hreleased, h.answered]
  obtain ⟨q, hnext, hid, hthree⟩ := hends ▸ h.exists_releaseEnds
  rw [h.stepCommit_succ hnext hid (.inl (by simp [haction, hthree])), ← hid]
  exact hnext.ends_latch hthree n

/-- Action 3 releases the outputs to none where there is no next member. -/
theorem ends_release (h : Committing p c r s) (haction : r.action = 2) (n : Nat) : Committed p c r.id (stepCommit p (n + 4) s) := by
  by_cases hreleased : r.released = true
  · exact h.ends_released haction hreleased (n + 1)
  · have hrelease : commitAction p r s = Machine.modStep p r.id (fun x => { x with released := true }) s := by
      simp [commitAction, haction, hreleased, release, h.last]
    have hnext := h.modStep (fun x => { x with released := true }) (fun _ => rfl) (fun _ => rfl)
    rw [← hrelease] at hnext
    rw [h.stepCommit_succ hnext rfl (.inr fun heq => hreleased heq.symm)]
    exact hnext.ends_released haction rfl n

/-- Action 2 has nothing to wait for. -/
theorem ends_acked (h : Committing p c r s) (haction : r.action = 1) (hacked : r.acked = true) (n : Nat) :
    Committed p c r.id (stepCommit p (n + 5) s) := by
  have hpass : commitAction p r s = Machine.modStep p r.id (fun x => { x with action := 2 }) s := by
    simp [commitAction, haction, hacked]
  have hnext := h.modStep (fun x => { x with action := 2 }) (fun _ => rfl) (fun _ => rfl)
  rw [← hpass] at hnext
  rw [h.stepCommit_succ hnext rfl (.inl (by simp [haction]))]
  exact hnext.ends_release rfl n

/-- Action 1 sends no records where there is no holder. -/
theorem ends_unmirrored (h : Committing p c r s) (haction : r.action = 0) (hholder : activeHolder s = none) (n : Nat) :
    Committed p c r.id (stepCommit p (n + 6) s) := by
  have hmirror : commitAction p r s = Machine.modStep p r.id (fun x => { x with action := 1, acked := true }) s := by
    simp only [commitAction, haction, commitMirror, hholder]
  have hnext := h.modStep (fun x => { x with action := 1, acked := true }) (fun _ => rfl) (fun _ => rfl)
  rw [← hmirror] at hnext
  rw [h.stepCommit_succ hnext rfl (.inl (by simp [haction]))]
  exact hnext.ends_acked rfl rfl n

end Committing

end Sys2Proof.Machine

namespace Sys2Proof.Claim

open Sys2Proof.Machine

/-- Settles O21: each action of the commit finds what the one before it left, and the last ends it. -/
theorem stepCommitment : Obligations.StepCommitment := by
  intro s part r hdue hown haction hholder hlast hanswered hplain hstays hfolded
  have hcommit : Committing part.val (partOf s part.val).cfg r s := ⟨hdue, hown, rfl, hlast, hanswered, hplain, hstays, hfolded⟩
  obtain ⟨hid, hrec, hfreed, hactive⟩ := hcommit.ends_unmirrored haction hholder 2
  exact ⟨_, rfl, hid, hrec, hfreed, hactive⟩

end Sys2Proof.Claim
end

section
/-! PROOFS. What the commits that a take-over completes leave of the Harbourmaster instances, the endpoint's link and the ports (R13,
R19, R29, R305, R366, R367). -/

namespace Sys2Proof.Machine

/-- What IOD0 carries (R13, R19): whether it works and the endpoint's link are in `t` as in `s`, no port that is idle has left that state,
and the ports that are dead are those that were. -/
structure Iod0As (s t : State) : Prop where
  iod0Out : t.health.iod0Out = s.health.iod0Out
  linkUp : t.host.ep.linkUp = s.host.ep.linkUp
  idle : ∀ p, (portOf s p).st = .idle → (portOf t p).st = .idle
  dead : ∀ p, (portOf t p).dead = (portOf s p).dead

namespace Iod0As

theorem refl (s : State) : Iod0As s s := ⟨rfl, rfl, fun _ => id, fun _ => rfl⟩

theorem trans {s t u : State} (h : Iod0As s t) (k : Iod0As t u) : Iod0As s u :=
  ⟨k.iod0Out.trans h.iod0Out, k.linkUp.trans h.linkUp, fun p hp => k.idle p (h.idle p hp), fun p => (k.dead p).trans (h.dead p)⟩

theorem foldl {α : Type} {f : State → α → State} (hf : ∀ t x, Iod0As t (f t x)) (xs : List α) (s : State) :
    Iod0As s (xs.foldl f s) := by
  induction xs generalizing s with
  | nil => exact refl s
  | cons x xs ih => exact (hf s x).trans (ih (f s x))

/-- A port is changed that does not start to train, and is dead as before. -/
theorem modPort {k : Nat} {f : Port → Port} {s : State} (hst : (portOf s k).st = .idle → (f (portOf s k)).st = .idle)
    (hdead : (f (portOf s k)).dead = (portOf s k).dead) : Iod0As s (modPort k f s) := by
  refine ⟨rfl, rfl, fun p hp => ?_, fun p => ?_⟩
  · by_cases hk : k = p
    · subst hk; rw [portOf_modPort]; exact hst hp
    · rw [portOf_modPort_ne f s hk]; exact hp
  · by_cases hk : k = p
    · subst hk; rw [portOf_modPort]; exact hdead
    · rw [portOf_modPort_ne f s hk]

theorem portsOff (s : State) : Iod0As s (portsOff s) := by
  rw [portsOff_eq]
  exact foldl (fun _ _ => modPort (fun _ => rfl) rfl) _ s

end Iod0As

/-- Which Harbourmaster is active, whether the other one is out, and whether redundancy is lost are the same, too. -/
structure InstanceAs (s t : State) : Prop extends Iod0As s t where
  hmInst : t.host.hm.hmInst = s.host.hm.hmInst
  instOut : t.host.hm.instOut = s.host.hm.instOut
  lost : t.host.hm.redundancyLost = s.host.hm.redundancyLost

namespace InstanceAs

theorem refl (s : State) : InstanceAs s s := ⟨.refl s, rfl, rfl, rfl⟩

theorem trans {s t u : State} (h : InstanceAs s t) (k : InstanceAs t u) : InstanceAs s u :=
  ⟨h.toIod0As.trans k.toIod0As, k.hmInst.trans h.hmInst, k.instOut.trans h.instOut, k.lost.trans h.lost⟩

theorem foldl {α : Type} {f : State → α → State} (hf : ∀ t x, InstanceAs t (f t x)) (xs : List α) (s : State) :
    InstanceAs s (xs.foldl f s) := by
  induction xs generalizing s with
  | nil => exact refl s
  | cons x xs ih => exact (hf s x).trans (ih (f s x))

/-- An update of other parts of the state. -/
theorem of_same {s t : State} (hhm : t.host.hm = s.host.hm) (hep : t.host.ep.linkUp = s.host.ep.linkUp)
    (hhealth : t.health.iod0Out = s.health.iod0Out) (hports : t.ports = s.ports) : InstanceAs s t := by
  have hport (p : Nat) : portOf t p = portOf s p := by rw [portOf, hports, ← portOf]
  refine ⟨⟨hhealth, hep, fun p hp => ?_, fun p => ?_⟩, congrArg _ hhm, congrArg _ hhm, congrArg _ hhm⟩
  · rw [hport]; exact hp
  · rw [hport]

/-! Events, interrupts and replies (R403, R406, R409, R428). -/

theorem totAdd (k n : Nat) (s : State) : InstanceAs s (totAdd k n s) := of_same rfl rfl rfl rfl

theorem cntAdd (p k n : Nat) (s : State) : InstanceAs s (cntAdd p k n s) := of_same rfl rfl rfl rfl

theorem modPart (k : Nat) (f : Part → Part) (s : State) : InstanceAs s (modPart k f s) := of_same rfl rfl rfl rfl

theorem modRun (k : Nat) (f : PartRun → PartRun) (s : State) : InstanceAs s (modRun k f s) := modPart ..

theorem modCfg (k : Nat) (f : PartCfg → PartCfg) (s : State) : InstanceAs s (modCfg k f s) := modPart ..

theorem modStat (k : Nat) (f : PartStat → PartStat) (s : State) : InstanceAs s (modStat k f s) := modPart ..

theorem modKv (k : Nat) (f : Kv → Kv) (s : State) : InstanceAs s (modKv k f s) := modPart ..

theorem modEx (k : Nat) (f : PartEx → PartEx) (s : State) : InstanceAs s (modEx k f s) := modPart ..

theorem modJr (k : Nat) (f : PartJr → PartJr) (s : State) : InstanceAs s (modJr k f s) := modPart ..

theorem modFb (k : Nat) (f : Fallback → Fallback) (s : State) : InstanceAs s (modFb k f s) := modPart ..

theorem modStep (p id : Nat) (f : StepRec → StepRec) (s : State) : InstanceAs s (modStep p id f s) := modRun ..

theorem modSlot (p i : Nat) (f : SeqSlot → SeqSlot) (s : State) : InstanceAs s (modSlot p i f s) := modKv ..

theorem modCluster (k : Nat) (f : Cluster → Cluster) (s : State) : InstanceAs s (modCluster k f s) := of_same rfl rfl rfl rfl

theorem modFab (f : Fabric → Fabric) (s : State) : InstanceAs s (modFab f s) := of_same rfl rfl rfl rfl

theorem modMgr (f : Manager → Manager) (s : State) : InstanceAs s (modMgr f s) := of_same rfl rfl rfl rfl

theorem modSec (f : Sec → Sec) (s : State) : InstanceAs s (modSec f s) := of_same rfl rfl rfl rfl

theorem modCont (f : Cont → Cont) (s : State) : InstanceAs s (modCont f s) := of_same rfl rfl rfl rfl

theorem raiseMsix (fn v : Nat) (s : State) : InstanceAs s (raiseMsix fn v s) := of_same (by simp) (by simp) (by simp) (by simp)

theorem hostWrite (fn a : Nat) (bs : List Byte) (s : State) : InstanceAs s (hostWrite fn a bs s) :=
  of_same (by simp) (by simp) (by simp) (by simp)

theorem reply (r : Request) (status : Nat) (body : List Word) (s : State) : InstanceAs s (reply r status body s) :=
  of_same (by simp) (by simp) (by simp) (by simp)

theorem setVfEvent (p b : Nat) (s : State) : InstanceAs s (setVfEvent p b s) := of_same (by simp) (by simp) (by simp) (by simp)

theorem setSticky (b : Nat) (s : State) : InstanceAs s (setSticky b s) := ⟨⟨rfl, rfl, fun _ => id, fun _ => rfl⟩, rfl, rfl, rfl⟩

theorem setInt (b : Nat) (s : State) : InstanceAs s (setInt b s) := ⟨by constructor <;> simp, by simp, by simp, by simp⟩

theorem logEvent (code : Nat) (fault : Bool) (part op step w4 w5 : Nat) (s : State) :
    InstanceAs s (logEvent code fault part op step w4 w5 s) := ⟨by constructor <;> simp, by simp, by simp, by simp⟩

theorem logPkg (code : Nat) (fault : Bool) (w4 w5 : Nat) (s : State) : InstanceAs s (logPkg code fault w4 w5 s) := logEvent ..

theorem onceEvent (code : Nat) (fault : Bool) (p op step w4 w5 : Nat) (s : State) :
    InstanceAs s (onceEvent code fault p op step w4 w5 s) := by
  unfold Machine.onceEvent
  split
  · exact refl s
  · exact (modRun ..).trans (logEvent ..)

/-! What leaves on the fabric (R304, R318, R320, R334). -/

/-- A packet that leaves or waits at a port leaves its state. -/
theorem portSend (p : Nat) (hdr : List Word) (data : List Byte) (s : State) : InstanceAs s (portSend p hdr data s) := by
  have hports : Iod0As s (Machine.portSend p hdr data s) ↔ (Machine.portSend p hdr data s).health.iod0Out = s.health.iod0Out ∧
      (Machine.portSend p hdr data s).host.ep.linkUp = s.host.ep.linkUp :=
    ⟨fun h => ⟨h.iod0Out, h.linkUp⟩, fun h => ⟨h.1, h.2,
      fun k hk => (portOf_portSend (f := Port.st) (fun _ _ _ _ _ => rfl) p hdr data s k).trans hk,
      portOf_portSend (f := Port.dead) (fun _ _ _ _ _ => rfl) p hdr data s⟩⟩
  have hrest : (Machine.portSend p hdr data s).host = s.host ∧ (Machine.portSend p hdr data s).health = s.health := by
    unfold Machine.portSend
    dsimp only
    split <;> exact ⟨rfl, rfl⟩
  obtain ⟨hhost, hhealth⟩ := hrest
  exact ⟨hports.mpr ⟨by rw [hhealth], by rw [hhost]⟩, by rw [hhost], by rw [hhost], by rw [hhost]⟩

theorem transmit (plane dst attempt : Nat) (hdr : List Word) (data : List Byte) (s : State) :
    InstanceAs s (transmit plane dst attempt hdr data s) := by
  unfold Machine.transmit
  dsimp only
  split
  · exact refl s
  · exact portSend ..

theorem sendHeartbeat (s : State) : InstanceAs s (sendHeartbeat s) := by
  unfold Machine.sendHeartbeat
  split
  · exact refl s
  · exact (foldl (fun t _ => foldl (fun _ _ => transmit ..) _ t) _ s).trans (modFab ..)

theorem mgmtAsk (op subop dst w6 : Nat) (data : List Byte) (s : State) : InstanceAs s (mgmtAsk op subop dst w6 data s) := by
  unfold Machine.mgmtAsk
  exact (transmit ..).trans (modFab ..)

theorem putStream (x : SrcStream) (s : State) : InstanceAs s (putStream x s) := of_same rfl rfl rfl rfl

theorem sendNow (plane dst job : Nat) (r : OutReq) (s : State) : InstanceAs s (sendNow plane dst job r s) :=
  (putStream ..).trans (transmit ..)

theorem resendReq (plane dst job n : Nat) (r : OutReq) (s : State) : InstanceAs s (resendReq plane dst job n r s) :=
  (putStream ..).trans (transmit ..)

theorem streamPump (home dst job fuel : Nat) (s : State) : InstanceAs s (streamPump home dst job fuel s) := by
  induction fuel generalizing s with
  | zero => exact refl s
  | succ fuel ih =>
    unfold Machine.streamPump
    dsimp only
    split
    · exact refl s
    · split
      · exact refl s
      · exact (putStream ..).trans ((sendNow ..).trans (ih _))

theorem pumpDst (dst job : Nat) (s : State) : InstanceAs s (pumpDst dst job s) := foldl (fun _ _ => streamPump ..) _ s

theorem resumeStreams (plane : Nat) (s : State) : InstanceAs s (resumeStreams plane s) :=
  foldl (fun _ _ => (putStream ..).trans ((foldl (fun _ _ => resendReq ..) _ _).trans (pumpDst ..))) _ s

theorem issue (plane dst job op subop : Nat) (part : Option Nat) (rel : Option (Nat × Nat)) (addr len : Nat) (data : List Byte)
    (s : State) : InstanceAs s (issue plane dst job op subop part rel addr len data s).2 := by
  unfold Machine.issue issueKeep
  dsimp only
  split
  · split
    · exact cntAdd ..
    · exact refl s
  · refine InstanceAs.trans ?_ ((putStream ..).trans (streamPump ..))
    split
    · exact (modFab ..).trans ((cntAdd ..).trans (cntAdd ..))
    · exact modFab ..

theorem issuePush (plane dst job : Nat) (part : Option Nat) (rel : Option (Nat × Nat)) (dpart off : Nat) (data : List Byte)
    (post : Bool) (s : State) : InstanceAs s (issuePush plane dst job part rel dpart off data post s).2 :=
  List.foldlRecOn (motive := fun acc : Nat × State => InstanceAs s acc.2) _ _ (refl s) fun _ h _ _ => h.trans (issue ..)

theorem pairSend (dst subop : Nat) (rel : Option (Nat × Nat)) (data : List Byte) (s : State) :
    InstanceAs s (pairSend dst subop rel data s).2 := by
  unfold Machine.pairSend
  split
  · exact refl s
  · exact issue ..

theorem mirrorWrite (bs : List Byte) (s : State) : InstanceAs s (mirrorWrite bs s).2 := of_same rfl rfl rfl rfl

theorem mirrorSend (holder : Nat) (rel : Option (Nat × Nat)) (recs : List (List Byte)) (s : State) :
    InstanceAs s (mirrorSend holder rel recs s) := by
  refine InstanceAs.trans (foldl (fun t r => ?_) _ s) (totAdd ..)
  split
  · exact mirrorWrite ..
  · exact pairSend ..

/-- New route tables are proposed (R332). -/
theorem propose_routes (pkg job : Nat) (words : List Word) (s : State) : InstanceAs s (propose 5 pkg job words s) := by
  have hroutes (t : State) : InstanceAs t (routesAll t) := by
    refine InstanceAs.trans (foldl (fun t e => ?_) _ t) ((resumeStreams ..).trans (resumeStreams ..))
    unfold sendRoutes
    split
    · exact refl t
    · exact foldl (fun u _ => (show InstanceAs u (draw u).2 from of_same rfl rfl rfl rfl).trans (mgmtAsk ..)) _ t
  unfold propose
  dsimp only
  split
  · exact (modMgr ..).trans (hroutes _)
  · exact (modMgr ..).trans ((modMgr ..).trans (mgmtAsk ..))

/-! A package that fails, and repairs (R348, R370, R371). -/

theorem portsIdle (s : State) : InstanceAs s (portsIdle s) := by
  have hport (p : Nat) : portOf (Machine.portsIdle s) p = { portOf s p with st := .idle } := by
    have hmap := tget_map (fun _ (q : Port) => { q with st := .idle }) s.ports p
    unfold portOf tgetD Machine.portsIdle
    rw [hmap]
    cases tget s.ports p <;> rfl
  refine ⟨⟨rfl, rfl, fun p _ => ?_, fun p => ?_⟩, rfl, rfl, rfl⟩
  · rw [hport]
  · rw [hport]

theorem declareFailed (cause elem : Nat) (s : State) : InstanceAs s (declareFailed cause elem s) := by
  have hmarked (t : State) : InstanceAs t (modHm (fun h => { h with failed := true, failCause := cause }) t) :=
    ⟨⟨rfl, rfl, fun _ => id, fun _ => rfl⟩, rfl, rfl, rfl⟩
  unfold Machine.declareFailed
  split
  · exact refl s
  · exact (logPkg ..).trans ((hmarked _).trans ((sendHeartbeat _).trans ((portsIdle _).trans ((setSticky ..).trans
      (of_same rfl rfl rfl rfl)))))

theorem checkSet (s : State) : InstanceAs s (checkSet s) := by
  unfold Machine.checkSet
  split
  · exact refl s
  · split
    · exact declareFailed ..
    · exact refl s

theorem recordRepair (kind elem detail : Nat) (s : State) : InstanceAs s (recordRepair kind elem detail s) := by
  unfold Machine.recordRepair
  extract_lets s1
  have h1 : InstanceAs s s1 := (setSticky ..).trans (of_same rfl rfl rfl rfl)
  split
  · exact h1
  · split
    · exact h1.trans (of_same rfl rfl rfl rfl)
    · split
      · exact h1
      · refine h1.trans (InstanceAs.trans ?_ (logPkg ..))
        exact of_same rfl rfl rfl rfl

/-- A port that goes down was not idle. -/
theorem portDown (p cause : Nat) (s : State) : InstanceAs s (portDown p cause s) := by
  unfold Machine.portDown
  split
  · exact refl s
  · next hactive =>
    extract_lets s1 s2
    have hnot : (portOf s p).st ≠ .idle := fun hidle => by simp [portActive, hidle] at hactive
    have h1 : InstanceAs s s1 := ⟨.modPort (fun hidle => absurd hidle hnot) rfl, rfl, rfl, rfl⟩
    have h2 : InstanceAs s1 s2 := by
      unfold s2
      clear_value s1
      exact (totAdd ..).trans ((logPkg ..).trans (checkSet _))
    clear_value s2
    split
    · exact h1.trans (h2.trans (propose_routes ..))
    · exact h1.trans h2

/-! The actions of a commit (R29). -/

theorem commitMirror (p : Nat) (r : StepRec) (s : State) : InstanceAs s (commitMirror p r s) := by
  unfold Machine.commitMirror
  split
  · exact modStep ..
  · exact (mirrorSend ..).trans ((modCont ..).trans (modStep ..))

theorem release (p : Nat) (r : StepRec) (s : State) : InstanceAs s (release p r s) := by
  unfold Machine.release
  extract_lets data s1 body
  have h1 : InstanceAs s s1 := modStep ..
  split
  · exact h1
  · extract_lets q
    have hsent : InstanceAs s q.2 := h1.trans (issuePush ..)
    split
    · exact hsent
    · exact hsent.trans (mirrorSend ..)

theorem holdResult (p : Nat) (r : StepRec) (data : List Byte) (s : State) : InstanceAs s (holdResult p r data s) := by
  unfold Machine.holdResult
  dsimp only
  refine InstanceAs.trans ?_ ((modRun ..).trans (totAdd ..))
  split
  · split
    · exact logEvent ..
    · exact refl s
  · exact refl s

theorem deliver (p : Nat) (r : StepRec) (data : List Byte) (s : State) : InstanceAs s (deliver p r data s) := by
  unfold Machine.deliver
  extract_lets job first s0 s1
  have h0 : InstanceAs s s0 := by
    unfold s0
    split
    · exact setVfEvent ..
    · exact refl s
  have h1 : InstanceAs s s1 := h0.trans ((hostWrite ..).trans (hostWrite ..))
  split
  · split
    · exact h0
    · split
      · split
        · exact h1
        · exact h1.trans (raiseMsix ..)
      · exact h0.trans ((holdResult ..).trans (logEvent ..))
  · split
    · exact holdResult ..
    · exact refl s

theorem countLatency (p : Nat) (r : StepRec) (lat : Nat) (s : State) : InstanceAs s (countLatency p r lat s) := by
  unfold Machine.countLatency
  extract_lets ws d s0 s1 storm s2
  have h0 : InstanceAs s s0 := (modRun ..).trans (modStep ..)
  have h1 : InstanceAs s0 s1 := by
    refine InstanceAs.trans ?_ ((cntAdd ..).trans (cntAdd ..))
    split
    · exact cntAdd ..
    · exact refl s0
  have h2 : InstanceAs s1 s2 := by
    unfold s2
    split
    · exact (cntAdd ..).trans ((onceEvent ..).trans (modFb ..))
    · exact refl s1
  refine h0.trans (h1.trans (h2.trans ?_))
  split
  · exact refl s2
  · split
    · exact (cntAdd ..).trans (onceEvent ..)
    · split
      · exact refl s2
      · exact (cntAdd ..).trans (onceEvent ..)

theorem freeSlots (p id : Nat) (s : State) : InstanceAs s (freeSlots p id s) := of_same rfl rfl rfl rfl

theorem releaseEnds (p : Nat) (r : StepRec) (s : State) : InstanceAs s (releaseEnds p r s) := by
  unfold Machine.releaseEnds
  exact (modStep ..).trans ((deliver ..).trans ((freeSlots ..).trans (countLatency ..)))

theorem latchStats (p : Nat) (r : StepRec) (s : State) : InstanceAs s (latchStats p r s) := by
  unfold Machine.latchStats
  extract_lets q e per words lost s1
  have h1 : InstanceAs s s1 := by
    unfold s1
    split
    · exact modStat ..
    · exact refl s
  exact h1.trans (modStat ..)

theorem commitStep (p : Nat) (r : StepRec) (s : State) : InstanceAs s (commitStep p r s) := by
  unfold Machine.commitStep
  extract_lets s1 s2 s3 s4 f gone s5 turn
  have h1 : InstanceAs s s1 := foldl (fun _ _ => modSlot ..) _ s
  have h4 : InstanceAs s1 s4 := (modRun ..).trans ((modStep ..).trans (modJr ..))
  have h5 : InstanceAs s4 s5 := foldl (fun _ _ => logEvent ..) _ s4
  exact h1.trans (h4.trans (h5.trans (modFb ..)))

/-! The step boundary: folding, swaps and closing (R137, R197, R265, R390, R407). -/

theorem foldCluster (p c : Nat) (s : State) : InstanceAs s (foldCluster p c s) := by
  unfold Machine.foldCluster
  dsimp only
  split
  · exact refl s
  · split
    · exact declareFailed ..
    · exact modCfg ..

theorem foldAll (p : Nat) (s : State) : InstanceAs s (foldAll p s) := by
  refine foldl (fun t c => ?_) _ s
  split
  · split
    · exact declareFailed ..
    · exact foldCluster ..
  · exact refl t

theorem dropStep (p id : Nat) (s : State) : InstanceAs s (dropStep p id s) := of_same rfl rfl rfl rfl

theorem rerunStep (p id : Nat) (s : State) : InstanceAs s (rerunStep p id s) := by
  have hruns (t : State) : InstanceAs t (startRuns p id t) := by
    refine foldl (fun u c => ?_) _ t
    split
    · exact refl u
    · exact of_same rfl rfl rfl rfl
  exact (dropStep ..).trans ((hruns _).trans (modStep ..))

theorem rerunOrReplay (p id : Nat) (s : State) : InstanceAs s (rerunOrReplay p id s) := by
  unfold Machine.rerunOrReplay
  split
  · exact foldl (fun t q => foldl (fun u r => (dropStep ..).trans ((modStep ..).trans (modCont ..))) _ t) _ s
  · exact rerunStep ..

theorem foldBoundary (p : Nat) (s : State) : InstanceAs s (foldBoundary p s) := by
  unfold Machine.foldBoundary
  dsimp only
  split
  · exact refl s
  · split
    · exact foldAll ..
    · split
      · split
        · exact (foldAll ..).trans (rerunOrReplay ..)
        · exact (foldAll ..).trans (foldl (fun _ _ => rerunStep ..) _ _)
      · exact refl s

theorem freePage (p slot i units : Nat) (s : State) : InstanceAs s (freePage p slot i units s) := by
  unfold Machine.freePage
  dsimp only
  split
  · exact refl s
  · split
    · exact (modSlot ..).trans (modKv ..)
    · exact (modSlot ..).trans (modKv ..)

theorem freeEvicted (p : Nat) (s : State) : InstanceAs s (freeEvicted p s) := by
  refine foldl (fun t e => ?_) _ s
  unfold freeSlot
  exact (foldl (fun _ _ => freePage ..) _ t).trans (modKv ..)

theorem swapBank (p : Nat) (s : State) : InstanceAs s (swapBank p s) := by
  unfold Machine.swapBank
  extract_lets q ob nb old new same first warm s1 s2 s3 s3' s4 s5
  have h2 : InstanceAs s s2 := (modCfg ..).trans (modCfg ..)
  have h3 : InstanceAs s2 s3 := by
    unfold s3
    split
    · exact refl s2
    · exact modFb ..
  have h3' : InstanceAs s3 s3' := by
    unfold s3'
    split
    · split
      · exact of_same rfl rfl rfl rfl
      · exact refl s3
    · exact refl s3
  have h4 : InstanceAs s3' s4 := foldl (fun _ _ => modCluster ..) _ s3'
  have h5 : InstanceAs s4 s5 := (foldAll p s4).trans (cntAdd ..)
  exact h2.trans (h3.trans (h3'.trans (h4.trans (h5.trans ((logEvent ..).trans (setVfEvent ..))))))

theorem trySwap (p : Nat) (s : State) : InstanceAs s (trySwap p s) := by
  unfold Machine.trySwap
  dsimp only
  split
  · exact refl s
  · split
    · exact foldl (fun _ _ => swapBank ..) _ s
    · exact refl s

theorem withdrawStep (p id : Nat) (quiet : Bool) (s : State) : InstanceAs s (withdrawStep p id quiet s) := by
  have hreleased : InstanceAs s (releaseStep p id s) := by
    unfold releaseStep
    dsimp only
    refine InstanceAs.trans ?_ (modJr ..)
    split
    · exact refl s
    · exact foldl (fun _ _ => freePage ..) _ s
  unfold Machine.withdrawStep
  extract_lets s1
  have h1 : InstanceAs s s1 := hreleased.trans (modStep ..)
  split
  · exact h1
  · split
    · exact h1
    · exact h1.trans (deliver ..)

theorem closePart (p : Nat) (quiet : Bool) (s : State) : InstanceAs s (closePart p quiet s) := by
  have hanswered (t : State) : InstanceAs t (answerEvicts p t) := foldl (fun _ _ => reply ..) _ t
  unfold Machine.closePart
  exact (foldl (fun _ _ => withdrawStep ..) _ s).trans ((hanswered _).trans ((modRun ..).trans ((modKv ..).trans
    ((modCfg ..).trans ((logEvent ..).trans (trySwap ..))))))

theorem boundary (p : Nat) (s : State) : InstanceAs s (boundary p s) := by
  unfold Machine.boundary
  extract_lets s1 s2 s3
  have h2 : InstanceAs s s2 := (modCfg ..).trans ((foldBoundary ..).trans ((freeEvicted ..).trans (trySwap ..)))
  have h3 : InstanceAs s2 s3 := by
    unfold s3
    split
    · exact modSec ..
    · exact refl s2
  split
  · exact h2.trans (h3.trans (closePart ..))
  · exact h2.trans h3

/-! Commits (R29, R366). -/

theorem commitAction (p : Nat) (r : StepRec) (s : State) : InstanceAs s (commitAction p r s) := by
  unfold Machine.commitAction
  split
  · exact commitMirror ..
  · split
    · exact modStep ..
    · exact refl s
  · split
    · exact release ..
    · split
      · exact refl s
      · exact releaseEnds ..
  · exact (latchStats ..).trans (modStep ..)
  · exact (commitStep ..).trans (boundary ..)

theorem stepCommit (p fuel : Nat) (s : State) : InstanceAs s (stepCommit p fuel s) := by
  induction fuel generalizing s with
  | zero => exact refl s
  | succ fuel ih =>
    unfold Machine.stepCommit
    split
    · exact refl s
    · dsimp only
      split
      · split
        · exact (commitAction ..).trans (ih _)
        · exact commitAction ..
      · exact commitAction ..

theorem finishCommits (s : State) : InstanceAs s (finishCommits s) := by
  refine foldl (fun t p => ?_) _ s
  split
  · split
    · exact refl t
    · exact stepCommit ..
  · exact refl t

end InstanceAs

end Sys2Proof.Machine
end

section
/-! PROOFS. Take-over by the standby Harbourmaster, and the loss of links and dies (R13, R15, R19, R354, R365 to R367, R371,
R526). -/

namespace Sys2Proof.Machine

/-! What a repair or a failure leaves alone (R348, R370). -/

/-- The journal of requests, the mailboxes, the tiers, and the dies and links that are out are in `t` as in `s`, too. -/
structure RepairAs (s t : State) : Prop extends HostOnly s t, StoresAs s t where
  journal : t.host.journal = s.host.journal
  mbx : t.host.mbx = s.host.mbx
  diesOut : t.health.diesOut = s.health.diesOut
  links : t.health.links = s.health.links

namespace RepairAs

theorem refl (s : State) : RepairAs s s := ⟨⟨rfl, rfl⟩, .refl s, rfl, rfl, rfl, rfl⟩

theorem trans {s t u : State} (h : RepairAs s t) (k : RepairAs t u) : RepairAs s u :=
  ⟨h.toHostOnly.trans k.toHostOnly, h.toStoresAs.trans k.toStoresAs, k.journal.trans h.journal, k.mbx.trans h.mbx,
   k.diesOut.trans h.diesOut, k.links.trans h.links⟩

theorem foldl {α : Type} {f : State → α → State} (hf : ∀ t x, RepairAs t (f t x)) (xs : List α) (s : State) :
    RepairAs s (xs.foldl f s) := by
  induction xs generalizing s with
  | nil => exact refl s
  | cons x xs ih => exact (hf s x).trans (ih (f s x))

theorem modHm (f : Hm → Hm) (s : State) : RepairAs s (modHm f s) := ⟨⟨rfl, rfl⟩, ⟨rfl, rfl⟩, rfl, rfl, rfl, rfl⟩

theorem modFab (f : Fabric → Fabric) (s : State) : RepairAs s (modFab f s) := ⟨⟨rfl, rfl⟩, ⟨rfl, rfl⟩, rfl, rfl, rfl, rfl⟩

theorem modPins (f : Pins → Pins) (s : State) : RepairAs s (modPins f s) := ⟨⟨rfl, rfl⟩, ⟨rfl, rfl⟩, rfl, rfl, rfl, rfl⟩

theorem totAdd (k n : Nat) (s : State) : RepairAs s (totAdd k n s) := ⟨⟨rfl, rfl⟩, ⟨rfl, rfl⟩, rfl, rfl, rfl, rfl⟩

theorem portsIdle (s : State) : RepairAs s (portsIdle s) := ⟨⟨rfl, rfl⟩, ⟨rfl, rfl⟩, rfl, rfl, rfl, rfl⟩

theorem setSticky (b : Nat) (s : State) : RepairAs s (setSticky b s) := modHm ..

theorem setInt (b : Nat) (s : State) : RepairAs s (setInt b s) :=
  ⟨.of_fields (by simp) (by simp), ⟨by simp, by simp⟩, by simp, by simp, by simp, by simp⟩

theorem logPkg (code : Nat) (fault : Bool) (w4 w5 : Nat) (s : State) : RepairAs s (logPkg code fault w4 w5 s) :=
  ⟨.logEvent .., .logPkg .., by simp, by simp, by simp, by simp⟩

theorem transmit (plane dst attempt : Nat) (h : List Word) (data : List Byte) (s : State) :
    RepairAs s (transmit plane dst attempt h data s) := by
  unfold Machine.transmit portSend
  dsimp only
  split
  · exact refl s
  · split <;> exact ⟨⟨rfl, rfl⟩, ⟨rfl, rfl⟩, rfl, rfl, rfl, rfl⟩

theorem sendHeartbeat (s : State) : RepairAs s (sendHeartbeat s) := by
  unfold Machine.sendHeartbeat
  split
  · exact refl s
  · exact (foldl (fun t _ => foldl (fun _ _ => transmit ..) _ t) _ s).trans (modFab ..)

theorem checkSet (s : State) : RepairAs s (checkSet s) := by
  unfold Machine.checkSet
  split
  · exact refl s
  · split
    · unfold declareFailed
      split
      · exact refl s
      · exact (logPkg ..).trans ((modHm ..).trans ((sendHeartbeat _).trans ((portsIdle _).trans ((setSticky ..).trans (modPins ..)))))
    · exact refl s

theorem recordRepair (kind elem detail : Nat) (s : State) : RepairAs s (recordRepair kind elem detail s) := by
  unfold Machine.recordRepair
  extract_lets s1
  have h1 : RepairAs s s1 := (setSticky ..).trans ⟨⟨rfl, rfl⟩, ⟨rfl, rfl⟩, rfl, rfl, rfl, rfl⟩
  clear_value s1
  refine h1.trans ?_
  split
  · exact refl s1
  · split
    · exact ⟨⟨rfl, rfl⟩, ⟨rfl, rfl⟩, rfl, rfl, rfl, rfl⟩
    · split
      · exact refl s1
      · refine RepairAs.trans ?_ (logPkg ..)
        exact ⟨⟨rfl, rfl⟩, ⟨rfl, rfl⟩, rfl, rfl, rfl, rfl⟩

end RepairAs

/-! Take-over (R366, R367). -/

/-- The standby Harbourmaster has become the active one, and no other is left. -/
def instanceChanged (s : State) : State :=
  modHm (fun h => { h with hmInst := !h.hmInst, instOut := true, redundancyLost := true, standbyJournal := [] }) s

theorem instanceAs_takeoverHm (cause : Nat) (s : State) : InstanceAs (instanceChanged s) (takeoverHm cause s) := by
  unfold takeoverHm
  extract_lets old s1 s2 s3
  have h2 : InstanceAs s1 s2 := (InstanceAs.sendHeartbeat s1).trans (.recordRepair ..)
  have h3 : InstanceAs s2 s3 := (InstanceAs.finishCommits s2).trans ((InstanceAs.totAdd ..).trans (.logPkg ..))
  exact h2.trans (h3.trans ((InstanceAs.setSticky ..).trans (.setInt ..)))

/-- With no step in flight there is no commit to complete. -/
theorem finishCommits_of_none {s : State} (h : ∀ e ∈ s.parts, flying s e.1 = []) : finishCommits s = s := by
  refine List.foldlRecOn (motive := (· = s)) _ _ rfl fun t ht p hp => ?_
  obtain ⟨e, he, rfl⟩ := List.mem_map.mp hp
  rw [ht, h e he]

/-- With no step in flight the take-over leaves requests and replies as they were journaled. -/
theorem repairAs_takeoverHm {s : State} (h : ∀ e ∈ s.parts, flying s e.1 = []) (cause : Nat) : RepairAs s (takeoverHm cause s) := by
  unfold takeoverHm
  extract_lets old s1 s2 s3
  have h2 : RepairAs s s2 := (RepairAs.modHm ..).trans ((RepairAs.sendHeartbeat s1).trans (.recordRepair ..))
  have hnone : ∀ e ∈ s2.parts, flying s2 e.1 = [] := by
    simp only [flying, partOf, h2.parts]
    exact h
  have h3 : RepairAs s2 s3 := by
    unfold s3
    rw [finishCommits_of_none hnone]
    exact (RepairAs.totAdd ..).trans (.logPkg ..)
  exact h2.trans (h3.trans ((RepairAs.setSticky ..).trans (.setInt ..)))

theorem Iod0As.modHm (f : Hm → Hm) (s : State) : Iod0As s (modHm f s) := ⟨rfl, rfl, fun _ => id, fun _ => rfl⟩

theorem iod0As_loseActive (cause : Nat) (s : State) : Iod0As s (loseActive cause s) := by
  unfold loseActive
  split
  · exact .refl s
  · split
    · exact (Iod0As.modHm _ s).trans (instanceAs_takeoverHm cause s).toIod0As
    · exact (Iod0As.modHm _ s).trans (.portsOff _)

theorem loseActive_followed {s : State} (hhere : s.host.hm.gone = false) (h : hmFollowed s = true) (cause : Nat) :
    loseActive cause s = takeoverHm cause s := by
  rw [loseActive, if_neg (Bool.eq_false_iff.mp hhere), if_pos h]

theorem loseActive_alone {s : State} (hhere : s.host.hm.gone = false) (h : hmFollowed s = false) (cause : Nat) :
    loseActive cause s = fallSilent s := by
  rw [loseActive, if_neg (Bool.eq_false_iff.mp hhere), if_neg (Bool.eq_false_iff.mp h)]

/-- A silent package has no Harbourmaster, is not ready, and its ports are idle; no memory changes. -/
theorem fallSilent_frame (s : State) : (fallSilent s).host.hm.gone = true ∧ (fallSilent s).host.hm.ready = false ∧
    (fallSilent s).host.hm.failed = true ∧ (∀ p, p < 18 → (portOf (fallSilent s) p).st = .idle) ∧ (fallSilent s).x = s.x := by
  unfold fallSilent
  generalize hu : modHm (fun h => { h with gone := true, failed := true, ready := false }) s = u
  obtain ⟨hx, -, -, hhost⟩ := portsOff_frame u
  rw [hhost, hx]
  subst hu
  exact ⟨rfl, rfl, rfl, fun p hp => st_portsOff _ hp, rfl⟩

/-! The loss of a compute die (R15). -/

/-- Cluster `i` of die `d` leaves service. -/
def clusterLost (d : Nat) (t : State) (i : Nat) : State :=
  recordRepair 2 (12 * d + i) d (modCluster (12 * d + i) (fun c => { c with out := true }) t)

theorem dieOut_eq {d : Nat} {s : State} (h : d ∉ s.health.diesOut) : dieOut d s = checkSet (modTiers (fun x => { x with
    stacksLost := x.stacksLost ++ ((List.range 4).map (4 * d + ·)).filter fun k => !(decide (k ∈ x.stacksLost)) })
    ((List.range 12).foldl (clusterLost d) (modHealth (fun h => { h with diesOut := h.diesOut ++ [d] }) s))) := if_neg h

theorem out_clusterLost (d : Nat) (t : State) (i j : Nat) : (clusterOf (clusterLost d t i) (12 * d + j)).out =
    if i = j then true else (clusterOf t (12 * d + j)).out := by
  rw [clusterLost, clusterOf, (RepairAs.recordRepair ..).x, ← clusterOf]
  split
  · next h => rw [h, clusterOf_modCluster]
  · next h => rw [clusterOf_modCluster_ne _ t (by omega)]

theorem out_foldl_clusterLost {d j : Nat} {is : List Nat} {s : State} (h : (clusterOf s (12 * d + j)).out = true ∨ j ∈ is) :
    (clusterOf (is.foldl (clusterLost d) s) (12 * d + j)).out = true := by
  induction is generalizing s with
  | nil => exact h.resolve_right List.not_mem_nil
  | cons i is ih =>
    refine ih ?_
    rw [out_clusterLost]
    split
    · exact .inl rfl
    · next hne => exact h.imp_right fun hj => (List.mem_cons.mp hj).resolve_left (Ne.symm hne)

theorem diesOut_foldl_clusterLost (d : Nat) (is : List Nat) (s : State) :
    (is.foldl (clusterLost d) s).health.diesOut = s.health.diesOut :=
  List.foldlRecOn (motive := fun t => t.health.diesOut = s.health.diesOut) is _ rfl
    fun t ht i _ =>
      (RepairAs.recordRepair 2 (12 * d + i) d (modCluster (12 * d + i) (fun c => { c with out := true }) t)).diesOut.trans ht

/-- The die's clusters and stacks leave service with it. -/
theorem dieOut_lost {d : Nat} {s : State} (h : d ∉ s.health.diesOut) : d ∈ (dieOut d s).health.diesOut ∧
    (∀ k, k < 12 → (clusterOf (dieOut d s) (12 * d + k)).out = true) ∧ ∀ k, k < 4 → 4 * d + k ∈ (dieOut d s).tiers.stacksLost := by
  rw [dieOut_eq h]
  generalize hs1 : modHealth (fun h => { h with diesOut := h.diesOut ++ [d] }) s = s1
  have hdie : d ∈ s1.health.diesOut := hs1 ▸ List.mem_append_right _ List.mem_cons_self
  have hdies := diesOut_foldl_clusterLost d (List.range 12) s1
  have hout (k : Nat) (hk : k < 12) := out_foldl_clusterLost (d := d) (s := s1) (.inr (List.mem_range.mpr hk))
  generalize (List.range 12).foldl (clusterLost d) s1 = u at hdies hout
  generalize hv : modTiers _ u = v
  have hcheck := RepairAs.checkSet v
  rw [hcheck.diesOut, hcheck.tiers]
  simp only [clusterOf, hcheck.x]
  subst hv
  refine ⟨hdies.symm ▸ hdie, hout, fun k hk => ?_⟩
  rw [modTiers_own]
  by_cases hlost : 4 * d + k ∈ u.tiers.stacksLost
  · exact List.mem_append_left _ hlost
  · have hstack : 4 * d + k ∈ (List.range 4).map (4 * d + ·) := List.mem_map.mpr ⟨k, List.mem_range.mpr hk, rfl⟩
    exact List.mem_append_right _ (List.mem_filter.mpr ⟨hstack, by simp [hlost]⟩)

theorem dieOut_again {d : Nat} {s : State} (h : d ∈ s.health.diesOut) : dieOut d s = s := if_pos h

/-- A link between die `d` and I/O die `i` has failed, and is recorded. -/
def linkLost (d i : Nat) (s : State) : State :=
  recordRepair 10 d i (modHealth (fun h => { h with links := h.links ++ [2 * d + i] }) s)

theorem links_linkLost (d i : Nat) (s : State) : (linkLost d i s).health.links = s.health.links ++ [2 * d + i] :=
  (RepairAs.recordRepair 10 d i (modHealth (fun h => { h with links := h.links ++ [2 * d + i] }) s)).links

theorem dieLink_again {d i : Nat} {s : State} (h : 2 * d + i ∈ s.health.links) : dieLink d i s = s := if_pos h

theorem dieLink_first {d i : Nat} {s : State} (h : 2 * d + i ∉ s.health.links) : dieLink d i s =
    if 2 * d + (1 - i) ∈ (linkLost d i s).health.links then dieOut d (linkLost d i s) else linkLost d i s := if_neg h

/-! The loss of IOD0 (R19). -/

/-- A port of IOD0 goes down and is dead. -/
def portLost (t : State) (p : Nat) : State := modPort p (fun q => { q with st := .idle, dead := true }) (portDown p 2 t)

theorem portLost_stays {t : State} {p k : Nat} (h : ((portOf t k).st = .idle ∧ (portOf t k).dead = true) ∨ p = k) :
    (portOf (portLost t p) k).st = .idle ∧ (portOf (portLost t p) k).dead = true := by
  by_cases hp : p = k
  · subst hp
    rw [portLost, portOf_modPort]
    exact ⟨rfl, rfl⟩
  · obtain ⟨hidle, hdead⟩ := h.resolve_right hp
    have hdown := InstanceAs.portDown p 2 t
    rw [portLost, portOf_modPort_ne _ _ hp]
    exact ⟨hdown.idle k hidle, (hdown.dead k).trans hdead⟩

theorem foldl_portLost {k : Nat} {ps : List Nat} {s : State}
    (h : ((portOf s k).st = .idle ∧ (portOf s k).dead = true) ∨ k ∈ ps) :
    (portOf (ps.foldl portLost s) k).st = .idle ∧ (portOf (ps.foldl portLost s) k).dead = true := by
  induction ps generalizing s with
  | nil => exact h.resolve_right List.not_mem_nil
  | cons p ps ih =>
    by_cases hp : p = k
    · exact ih (.inl (portLost_stays (.inr hp)))
    · exact ih (h.imp (fun hk => portLost_stays (.inl hk)) fun hk => (List.mem_cons.mp hk).resolve_left (Ne.symm hp))

/-- IOD0 stays out and the link down while its ports go. -/
theorem foldl_portLost_frame (ps : List Nat) (s : State) : (ps.foldl portLost s).health.iod0Out = s.health.iod0Out ∧
    (ps.foldl portLost s).host.ep.linkUp = s.host.ep.linkUp := by
  induction ps generalizing s with
  | nil => exact ⟨rfl, rfl⟩
  | cons p ps ih =>
    obtain ⟨hiod, hlink⟩ := ih (portLost s p)
    have hdown := InstanceAs.portDown p 2 s
    exact ⟨hiod.trans hdown.iod0Out, hlink.trans hdown.linkUp⟩

/-- IOD0 takes its ports, the endpoint's link and, where it ran there, the active Harbourmaster with it. -/
theorem iod0Lost_lost {s : State} (h : s.health.iod0Out = false) : (iod0Lost s).health.iod0Out = true ∧
    (iod0Lost s).host.ep.linkUp = false ∧
    ∀ p, p < 9 → (portOf (iod0Lost s) p).st = .idle ∧ (portOf (iod0Lost s) p).dead = true := by
  unfold iod0Lost
  rw [if_neg (Bool.eq_false_iff.mp h)]
  extract_lets s1 s2 s3 s4
  have h1 : s1.host.ep.linkUp = false := by
    unfold s1
    split
    · exact (linkDown_frame s).1
    · next hdown => exact Bool.eq_false_iff.mpr hdown
  have h2 : s2.health.iod0Out = true ∧ s2.host.ep.linkUp = false := ⟨rfl, h1⟩
  have h3 : s3 = (List.range 9).foldl portLost s2 := rfl
  have h4 : Iod0As s3 s4 := by
    clear_value s3
    unfold s4
    split
    · exact .modHm ..
    · exact iod0As_loseActive ..
  clear_value s4 s3 s2
  subst h3
  obtain ⟨hiod2, hlink2⟩ := h2
  obtain ⟨hiod3, hlink3⟩ := foldl_portLost_frame (List.range 9) s2
  have hend := h4.trans (InstanceAs.checkSet s4).toIod0As
  refine ⟨hend.iod0Out.trans (hiod3.trans hiod2), hend.linkUp.trans (hlink3.trans hlink2), fun p hp => ?_⟩
  obtain ⟨hidle, hdead⟩ := foldl_portLost (s := s2) (.inr (List.mem_range.mpr hp))
  exact ⟨hend.idle p hidle, (hend.dead p).trans hdead⟩

theorem iod0Lost_again {s : State} (h : s.health.iod0Out = true) : iod0Lost s = s := if_pos h

/-! The loss of the IOD0-IOD1 link (R19), and a new second (R310, R526). -/

theorem iodLink_first {s : State} (h : 12 ∉ s.health.links) : (iodLink s).host.hm.redundancyLost = true ∧
    hmFollowed (iodLink s) = false ∧ (iodLink s).host.hm.hmInst = s.host.hm.hmInst ∧ (iodLink s).x = s.x := by
  unfold iodLink
  rw [if_neg h]
  generalize hs1 : modHealth (fun h => { h with links := h.links ++ [12] }) s = s1
  have hrepair := RepairAs.recordRepair 10 4 5 s1
  have hinst := (InstanceAs.recordRepair 10 4 5 s1).hmInst
  have hlink : 12 ∈ (recordRepair 10 4 5 s1).health.links := by
    rw [hrepair.links, ← hs1]
    exact List.mem_append_right _ List.mem_cons_self
  generalize recordRepair 10 4 5 s1 = u at hrepair hinst hlink
  subst hs1
  exact ⟨rfl, by simp [hmFollowed, hlink], hinst, hrepair.x⟩

theorem iodLink_again {s : State} (h : 12 ∈ s.health.links) : iodLink s = s := if_pos h

theorem corrected_newSecond (s : State) (p : Nat) : (portOf (newSecond s) p).corrected = [] := by
  have hmap := tget_map (fun _ (q : Port) => { q with corrected := [] }) s.ports p
  unfold portOf tgetD newSecond
  dsimp only [modLog]
  rw [hmap]
  cases tget s.ports p <;> rfl

end Sys2Proof.Machine

namespace Sys2Proof.Claim

open Sys2Proof.Machine

/-- Settles O52: a take-over, the loss of a die or of a link leaves what a repair leaves, and the commits that it completes leave the
instances and the ports. -/
theorem continuityOfService : Obligations.ContinuityOfService := by
  intro s die iod ws
  refine ⟨fun hheard => congrArg Host.Outcome.next (if_pos hheard), fun hdeaf => ?deaf, fun hhere => ?timer,
    fun hgone => congrArg Host.Outcome.next (if_pos hgone), fun hheard => ?timeout, fun hheard hhere => ?fault,
    fun hdeaf hhere => ?silent, fun hout => congrArg Host.Outcome.next (dieLink_again hout), fun hin hother => ?link,
    fun hin hother hdie => ?links, fun hdie => ⟨_, rfl, dieOut_lost hdie⟩,
    fun hdie => congrArg Host.Outcome.next (dieOut_again hdie), fun hin => ⟨_, rfl, iodLink_first hin⟩,
    fun hout => congrArg Host.Outcome.next (iodLink_again hout), fun hin => ⟨_, rfl, iod0Lost_lost hin⟩,
    fun hout => congrArg Host.Outcome.next (iod0Lost_again hout), fun hnone => ?unmirrored, fun h hholder => ?mirrored,
    _, rfl, rfl, rfl, rfl, corrected_newSecond s, rfl, rfl⟩
  case deaf =>
    have hnot : ¬ hmFollowed s = true := Bool.eq_false_iff.mp hdeaf
    exact ⟨congrArg Host.Outcome.next (if_neg hnot), congrArg Host.Outcome.next (if_neg hnot)⟩
  case timer => exact congrArg Host.Outcome.next (if_neg (Bool.eq_false_iff.mp hhere))
  case timeout =>
    have hinst := instanceAs_takeoverHm 1 s
    refine ⟨_, congrArg Host.Outcome.next (if_pos hheard), hinst.hmInst, hinst.instOut, hinst.lost, fun hnone => ?_⟩
    have hkept := repairAs_takeoverHm hnone 1
    exact ⟨hkept.journal, hkept.x, hkept.mbx⟩
  case fault =>
    exact ⟨_, by omega, congrArg Host.Outcome.next (loseActive_followed (s := (draw s).2) hhere hheard _)⟩
  case silent =>
    exact ⟨_, congrArg Host.Outcome.next (loseActive_alone (s := (draw s).2) hhere hdeaf _), fallSilent_frame (draw s).2⟩
  case link =>
    have hone : 2 * die.val + (1 - iod.val) ∉ (linkLost die.val iod.val s).health.links := by
      rw [links_linkLost, List.mem_append, List.mem_singleton]
      rintro (hold | hsame)
      · exact hother hold
      · omega
    exact congrArg Host.Outcome.next ((dieLink_first hin).trans (if_neg hone))
  case links =>
    have hboth : 2 * die.val + (1 - iod.val) ∈ (linkLost die.val iod.val s).health.links := by
      rw [links_linkLost]
      exact List.mem_append_left _ hother
    have hdie' : die.val ∉ (linkLost die.val iod.val s).health.diesOut := by
      rw [linkLost, (RepairAs.recordRepair ..).diesOut]
      exact hdie
    obtain ⟨hlost, hclusters, -⟩ := dieOut_lost hdie'
    exact ⟨_, congrArg Host.Outcome.next ((dieLink_first hin).trans (if_pos hboth)), hlost, hclusters⟩
  case unmirrored => exact congrArg Host.Outcome.next (by simp only [mirrorAgain, hnone])
  case mirrored => exact congrArg Host.Outcome.next (by simp only [mirrorAgain, hholder])

end Sys2Proof.Claim
end
